-- ==== Sys2Proof/Word.lean ====
section
/-! DEFINITION. The word types of the GK94 and their plainest arithmetic (R1, R2). -/

namespace Sys2Proof

/-- One byte. -/
abbrev Byte := BitVec 8

/-- A 32-bit register value. -/
abbrev Word := BitVec 32

/-- A 64-bit value: an instruction word, a global pointer, a register pair. -/
abbrev DWord := BitVec 64

/-- A vector register number `v0` to `v255` (R27). -/
abbrev Reg := BitVec 8

/-- A predicate register number `p0` to `p15` (R27). -/
abbrev PReg := BitVec 4

/-- The 64-bit value of a register pair: the low word sits in the even register (R28). -/
def pairUp (lo hi : Word) : DWord := hi ++ lo

/-- The low word of a 64-bit value. -/
def loWord (x : DWord) : Word := x.extractLsb' 0 32

/-- The high word of a 64-bit value. -/
def hiWord (x : DWord) : Word := x.extractLsb' 32 32

end Sys2Proof
end

