-- ==== Sys2Proof/Config.lean ====
section
/-! DEFINITION. What an implementation or its firmware fixes and the spec leaves open: free values.
Every one is an opaque constant, so that no proof can rest on a number; notes/assumptions names
the point of the spec each stands for. The counter argument is `State.steps` (or the operands). -/

namespace Sys2Proof

/-- Arithmetic clocks that pass in one step (R11, R170); the spec gives no step a duration. -/
opaque Config.clockTicks : Nat → BitVec 64

/-- Nanoseconds of `sr.gtime` that pass in one step (R170, R428). -/
opaque Config.timeTicks : Nat → BitVec 64

/-- The contents of a spare row of a bank before anything is written to it (R436). -/
opaque Config.spareRow : Nat → BitVec 1024

/-- The hardware self-test's finding for spare entry e of a core at the die's n-th reset (R436). -/
opaque Config.spareBad : (core entry resets : Nat) → Bool

/-- The stuck cells of a Well row, or, from 16,384 on, of a spare row: which bits do not change whatever is
written (R441). -/
opaque Config.stuckMask : (core row : Nat) → BitVec 1024

/-- What the stuck cells of a Well row read as (R441). -/
opaque Config.stuckValue : (core row : Nat) → BitVec 1024

/-- The comparators' draw for a node in physical mode (R284): a 24-bit number compared with the
threshold; successive draws are independent. -/
opaque Config.noise : (steps node : Nat) → BitVec 24

/-- How far the physical threshold lies from the exact one, at most 2^-8 (R284). -/
opaque Config.noiseSkew : (steps node : Nat) → BitVec 17

/-- Which elements of an accumulator a matrix step adds to first (R267): the order of the elements'
actions within a step, bit 64 × i + j for element (i, j). -/
opaque Config.stepElems : (steps : Nat) → BitVec 4096

/-- A reference node's result at zero input (R291). -/
opaque Config.refNoise : (steps i : Nat) → Bool

/-- Whether device physical address `a` lies in a reserved range firmware sets at boot (R69). -/
opaque Config.reserved : Nat → Bool

/-- The save area the Coachman allocates for a context (R418): its device physical address. -/
opaque Config.saveArea : (ctx steps : Nat) → BitVec 40

/-- Whether an Ed25519 signature of a message verifies against a key (R431, R432). -/
opaque Config.ed25519 : (key msg sig : List Byte) → Bool

/-- Whether an ML-DSA-65 signature of a message verifies against a key (R431, R432). -/
opaque Config.mldsa65 : (key msg sig : List Byte) → Bool

/-- The root key that an image with KEYID 0 names (R432): the header of R431 tells none from another. -/
opaque Config.rootKey : (image : List Byte) → List Byte

/-- Whether a root key's hash lies in the Stationer's mask ROM (R432). -/
opaque Config.romKey : (key : List Byte) → Bool

/-- The key that a manifest lists as KEYID, if it lists one (R432): the spec does not lay out its body. -/
opaque Config.manifestKey : (manifest : List Byte) → (keyId : Nat) → Option (List Byte)

/-- Whether the header of an image asks to raise the security minimum (R432): the header has no
field for it in R431. -/
opaque Config.raisesSvn : List Byte → Bool

/-- Whether a scan of a cluster with a pattern set of the scan patterns' image passes (R399, R433). -/
opaque Config.scanPasses : (patterns : List Byte) → (cluster pattern steps : Nat) → Bool

/-- The Stationer's answer to an SPDM request (R429), given the measurements of the loaded images. -/
opaque Config.spdmReply : (measured : List (BitVec 384)) → (request : List Byte) → (steps : Nat) → List Byte

/-- The ML-DSA-65 signature over an SPDM transcript (R429). -/
opaque Config.spdmSign : (transcript : List Byte) → (steps : Nat) → List Byte

/-- The L1 way a fill or a decided copy takes among those it may replace (R115, R302). -/
opaque Config.victim : (core steps ways : Nat) → Nat

/-- The slice of its home die that a line's hash chooses (R91), and of its requester's die that a
decided copy takes (R115), modulo 24. -/
opaque Config.sliceHash : (line : Nat) → Nat

/-- What a full slice gives up for a line it fetches, among what it may (R92). -/
opaque Config.sliceVictim : (die slice steps : Nat) → Nat

/-- Single-bit errors that reads of a die's L2, L1 and Well corrected in a step (R100), and those of memory
that the device's own walks of tables and rings corrected, which the model does not follow by sector. -/
opaque Config.corrections : (die steps : Nat) → Nat

/-- Whether a store to a host-bias line joins the line's stores that the cluster memory port still
gathers (R313). -/
opaque Config.gathers : (core line steps : Nat) → Bool

/-- Where a core's 64 trap slots lie in firmware's reserved memory (R69, R372). -/
opaque Config.trapArea : (core : Nat) → BitVec 40

/-- Whether a presence clear of a queued request reaches its receiver before the engine starts the next
request (R131). -/
opaque Config.clearFirst : (core steps : Nat) → Bool

/-- The entry a cluster's full extent cache gives up (R77). -/
opaque Config.extentVictim : (cluster steps : Nat) → Nat

/-- The scale byte of a nib block on a side of a converting copy that has no handle (R130): the spec
names no place for it. -/
opaque Config.nibScale : (steps block : Nat) → BitVec 8

/-- The order in which a non-deterministic collective combines its values (R427): pairs of places in
the list of those left, the first the left operand. -/
opaque Config.combineOrder : (cid chunk steps : Nat) → List (Nat × Nat)

/-- The code pointer at which firmware starts (R434, R440), given the images that boot took: a core number
below 256 names its scribe, which starts at label march, 256 + i the Coachman's sequencer i. -/
opaque Config.fwEntry : (images : List (List Byte)) → (agent : Nat) → BitVec 64

/-- Where the firmware context's object table lies and how many entries it has: the spec gives
neither. -/
opaque Config.fwTable : (images : List (List Byte)) → BitVec 40 × BitVec 21

/-- The bytes that boot places in reserved memory, firmware images among them (R69, R434). -/
opaque Config.fwMemory : (images : List (List Byte)) → List (Nat × BitVec 8)

end Sys2Proof
end

