-- ==== Sys2Proof/Syntax.lean ====
section
/-! DEFINITION. The syntax of every step of the part that spec/opcode_table.json lists: the Uraux
instructions (R24 to R45), the halves of pair words (R32, R33), and the device's own steps and
the steps of its masters, engines and links, which no instruction word encodes. -/

namespace Sys2Proof

/-- Predication of a full word (R25): PE = 0, or PE = 1 with PN and PG. -/
inductive Pred where
  | all
  | on (neg : Bool) (p : PReg)
  deriving DecidableEq, Repr

/-- The U bit and the predicate of an instruction that accepts U (R25, R26). -/
structure Ctl where
  u : Bool
  p : Pred
  deriving DecidableEq, Repr

/-- Integer types (R40). -/
inductive IntTy where
  | s32 | z32 | s64 | z64
  deriving DecidableEq, Repr

/-- The 32-bit integer types of scheme I32 (R40). -/
inductive IntTy32 where
  | s32 | z32
  deriving DecidableEq, Repr

/-- Widths of scheme L (R40). -/
inductive Wid where
  | b32 | b64
  deriving DecidableEq, Repr

/-- Float types of scheme F (R40). -/
inductive FTy where
  | f32 | f16x2 | bf16x2
  deriving DecidableEq, Repr

/-- The packed float types of scheme F2 (R40). -/
inductive F2Ty where
  | f16x2 | bf16x2
  deriving DecidableEq, Repr

/-- Rounding modes RM (R30). -/
inductive RMode where
  | rne | rz | rp | rd
  deriving DecidableEq, Repr

/-- A source's modifiers: negate and absolute value (R30, R245). -/
structure SMod where
  neg : Bool
  abs : Bool
  deriving DecidableEq, Repr

/-- The second source of a two-source integer instruction (R29). -/
inductive Src2 where
  | reg (b : Reg)
  | imm (v : BitVec 20)
  deriving DecidableEq, Repr

/-- The second and third sources of a three-source integer instruction (R29). -/
inductive Src3 where
  | reg (b c : Reg)
  | imm (v : BitVec 20) (c : Reg)
  deriving DecidableEq, Repr

/-- The second source and the modifiers of a two-source float instruction (R30). -/
inductive FSrc2 where
  | reg (rm : RMode) (ma mb : SMod) (b : Reg)
  | imm (v : BitVec 20)
  deriving DecidableEq, Repr

/-- The second and third sources and the modifiers of a three-source float instruction (R30). -/
inductive FSrc3 where
  | reg (rm : RMode) (ma mb mc : SMod) (b c : Reg)
  | imm (v : BitVec 20) (c : Reg)
  deriving DecidableEq, Repr

/-- Integer comparisons (R234). -/
inductive ICond where
  | eq | ne | lt | le | gt | ge
  deriving DecidableEq, Repr

/-- Position and length of BFX: register B, or immediates (R232). -/
inductive FieldSrc where
  | reg (b : Reg)
  | imm (len : BitVec 7) (pos : BitVec 6)
  deriving DecidableEq, Repr

/-- Field and base of BFI: registers B and C, or immediates with the base in B (R232). -/
inductive InsertSrc where
  | reg (b c : Reg)
  | imm (len : BitVec 7) (pos : BitVec 6) (base : Reg)
  deriving DecidableEq, Repr

/-- Second source and predicate of SEL (R236). -/
inductive SelSrc where
  | reg (b : Reg) (k : PReg)
  | imm (v : BitVec 20) (k : PReg)
  deriving DecidableEq, Repr

/-- Second source of ICMP (R234). -/
inductive CmpSrc where
  | reg (b : Reg)
  | imm (v : BitVec 17)
  deriving DecidableEq, Repr

/-- Second source of FCMP and the predicate of element 1 (R250). -/
inductive FCmpSrc where
  | reg (b : Reg) (ps : PReg)
  | imm (v : BitVec 16) (ps : PReg)
  deriving DecidableEq, Repr

/-- Source and mask of PMOV (R237). -/
inductive PMovDir where
  | toReg (d : Reg)
  | toPred (a : Reg)
  deriving DecidableEq, Repr

/-- The four votes (R238); a ballot names an even pair, the others a predicate. -/
inductive VoteKind where
  | all (d : PReg) | any (d : PReg) | eq (d : PReg) | ballot (d : Reg)
  deriving DecidableEq, Repr

/-- SHFL modes (R239). -/
inductive ShflMode where
  | idx | up | down | xor
  deriving DecidableEq, Repr

/-- A lane operand: a register or a 6-bit immediate (R239). -/
inductive LaneSrc where
  | reg (b : Reg)
  | imm (k : BitVec 6)
  deriving DecidableEq, Repr

/-- Selector of BYSEL (R240). -/
inductive ByteSel where
  | reg (c : Reg)
  | imm (v : BitVec 16)
  deriving DecidableEq, Repr

/-- Source of MOV (R171, R172). -/
inductive MovSrc where
  | reg (a : Reg)
  | imm (v : BitVec 20)
  deriving DecidableEq, Repr

/-- Memory spaces (R178). -/
inductive Space where
  | glb | scr | clu | fifo
  deriving DecidableEq, Repr

/-- Access sizes (R31). -/
inductive ASize where
  | z8 | s8 | z16 | s16 | b32 | b64 | b128
  deriving DecidableEq, Repr

/-- Space, non-temporal bit, size and offset of a memory operand (R181). -/
structure MemOp where
  nt    : Bool
  space : Space
  size  : ASize
  ofs   : BitVec 18
  deriving DecidableEq, Repr

/-- Atomic operations (R197). -/
inductive AOp where
  | add | smin | smax | umin | umax | and | or | xor | exch | fadd | fmin | fmax
  deriving DecidableEq, Repr

/-- Space, size and offset of an atomic (R196). -/
structure AtomOp where
  space : Space
  wid   : Wid
  ofs   : BitVec 14
  deriving DecidableEq, Repr

/-- The roles WREQ names (R154). -/
inductive WRole where
  | reg | mat | scr | fifo | shadow
  deriving DecidableEq, Repr

/-- The roles WQRY names (R156). -/
inductive QRole where
  | reg | mat | scr | fifo | shadow | cache
  deriving DecidableEq, Repr

/-- The three views (R166). -/
inductive ViewKind where
  | vec | tile | acc
  deriving DecidableEq, Repr

/-- Operand of VIEW (R171). -/
inductive ViewSrc where
  | reg (a : Reg)
  | imm (v : BitVec 16)
  deriving DecidableEq, Repr

/-- The two segment registers (R164). -/
inductive SegKind where
  | reg | mat
  deriving DecidableEq, Repr

/-- Target of SWRITE: a group's register (G = 1, slot register B) or a core's (G = 0) (R171). -/
inductive SwTarget where
  | group (b : Reg)
  | core
  deriving DecidableEq, Repr

/-- CVT's destination: its own fields (SL = 0) or a format slot (SL = 1) (R254). -/
inductive CvtDst where
  | fmt (df : BitVec 4) (rm : RMode) (sat : Bool)
  | slot (n : BitVec 3)
  deriving DecidableEq, Repr

/-- Stream and accumulator of a matrix instruction (R272). -/
structure MTarget where
  stream : BitVec 2
  acc    : BitVec 4
  deriving DecidableEq, Repr

/-- Step count, strides and the sparse flag of MLOOP and MLOOPS (R272). -/
structure MLoopX where
  km1 : BitVec 8
  sa  : BitVec 6
  sb  : BitVec 6
  sp  : Bool
  deriving DecidableEq, Repr

/-- Regions of an array's memory (R282). -/
inductive SaRegion where
  | bias | coup | col | state | exp | ghost
  deriving DecidableEq, Repr

/-- Scopes of PHASE (R308). -/
inductive PScope where
  | team | core | clu | dev | sys
  deriving DecidableEq, Repr

/-- Immediate shifts of pair halves (R33). -/
inductive HalfShift where
  | shl | shr | sar
  deriving DecidableEq, Repr

/-- Register-to-register operations of pair halves (R33). -/
inductive HalfOp where
  | mov | iadd | isub | imul | imin | imax | and | or | xor
  | fadd | fsub | fmul | fmin | fmax | fneg | fabs
  deriving DecidableEq, Repr

/-- One half of a pair word (R32, R33). -/
inductive Half where
  | nop
  | movi8 (u : Bool) (d : Reg) (i : BitVec 8)
  | iaddi (u : Bool) (d : Reg) (i : BitVec 8)
  | shift (k : HalfShift) (u : Bool) (d : Reg) (n : BitVec 5)
  | op (o : HalfOp) (u : Bool) (d s : Reg)
  deriving DecidableEq, Repr

/-- The two masters of the device (R18). -/
inductive Master where
  | host | sideband
  deriving DecidableEq, Repr

/-- The ink operations (R112). -/
inductive InkOp where
  | propose | readGen | readHome | recycle
  deriving DecidableEq, Repr

/-- An ink request as it crosses the collective transport (R108): the pointer, the operands, the
proposer's core and group slot, and whether it is for the cell of the lowest lane taking part, whose
watch an INKR.h leaves (R117). -/
structure InkMsg where
  op     : InkOp
  ptr    : DWord
  gen    : Word
  val    : DWord
  core   : Nat
  slot   : Nat
  lowest : Bool
  deriving DecidableEq, Repr

/-- A datagram's header but for TYPE, which its step names (R424); `rsv` holds the reserved bits: those of
SRC, of DST, and bytes 24 to 31. -/
structure DgHead where
  ver   : BitVec 8
  src   : BitVec 14
  dst   : BitVec 14
  len   : BitVec 16
  jtag  : Word
  cid   : Word
  chunk : Word
  seq   : Word
  rsv   : BitVec 68
  deriving DecidableEq, Repr

/-- Every step that spec/opcode_table.json lists, one constructor per row. Instructions come
first, in the table's order; the device's other steps follow. A pair word is named by its UPPER
half; `low` is its lower half. -/
inductive Instr where
  -- integer arithmetic (chapter 12)
  | iadd (c : Ctl) (ty : IntTy) (sat : Bool) (d a : Reg) (b : Src2)
  | isub (c : Ctl) (ty : IntTy) (sat : Bool) (d a : Reg) (b : Src2)
  | imul (c : Ctl) (ty : IntTy) (sat : Bool) (d a : Reg) (b : Src2)
  | imulh (c : Ctl) (ty : IntTy) (d a : Reg) (b : Src2)
  | imad (c : Ctl) (ty : IntTy) (sat : Bool) (d a : Reg) (b : Src3)
  | imin (c : Ctl) (ty : IntTy) (d a : Reg) (b : Src2)
  | imax (c : Ctl) (ty : IntTy) (d a : Reg) (b : Src2)
  | iabs (c : Ctl) (ty : IntTy) (sat : Bool) (d a : Reg)
  | ineg (c : Ctl) (ty : IntTy) (sat : Bool) (d a : Reg)
  | idiv (c : Ctl) (ty : IntTy) (d a : Reg) (b : Src2)
  | irem (c : Ctl) (ty : IntTy) (d a : Reg) (b : Src2)
  | iaddc (c : Ctl) (w : Wid) (d a b : Reg) (pi : Option PReg) (po : PReg)
  | isubc (c : Ctl) (w : Wid) (d a b : Reg) (pi : Option PReg) (po : PReg)
  | lea (c : Ctl) (ty : IntTy) (d a : Reg) (b : Src3)
  | idot4 (c : Ctl) (sat sb sa : Bool) (d a b cc : Reg)
  | idot2 (c : Ctl) (sat sb sa : Bool) (d a b cc : Reg)
  | imadw (c : Ctl) (ty : IntTy32) (sat : Bool) (d a : Reg) (b : Src3)
  | and (c : Ctl) (w : Wid) (d a : Reg) (b : Src2)
  | or (c : Ctl) (w : Wid) (d a : Reg) (b : Src2)
  | xor (c : Ctl) (w : Wid) (d a : Reg) (b : Src2)
  | bool3 (c : Ctl) (w : Wid) (d a b cc : Reg) (lut : BitVec 8)
  | shl (c : Ctl) (ty : IntTy) (d a : Reg) (b : Src2)
  | shr (c : Ctl) (ty : IntTy) (d a : Reg) (b : Src2)
  | rot (c : Ctl) (w : Wid) (d a : Reg) (b : Src2)
  | popc (c : Ctl) (w : Wid) (d a : Reg)
  | clz (c : Ctl) (w : Wid) (d a : Reg)
  | ctz (c : Ctl) (w : Wid) (d a : Reg)
  | brev (c : Ctl) (w : Wid) (d a : Reg)
  | bfx (c : Ctl) (w : Wid) (sgn : Bool) (d a : Reg) (f : FieldSrc)
  | bfi (c : Ctl) (w : Wid) (d a : Reg) (f : InsertSrc)
  | icmp (c : Ctl) (ty : IntTy) (cond : ICond) (d : PReg) (a : Reg) (b : CmpSrc)
  | fcmp (c : Ctl) (ty : FTy) (cond : BitVec 4) (d : PReg) (a : Reg) (b : FCmpSrc)
  | plop (c : Ctl) (d pa pb pc : PReg) (lut : BitVec 8)
  | sel (c : Ctl) (w : Wid) (d a : Reg) (b : SelSrc)
  | pmov (c : Ctl) (dir : PMovDir) (mask : BitVec 16)
  | vote (p : Pred) (k : VoteKind) (pa : PReg)
  -- floating point (chapter 13)
  | fclass (c : Ctl) (ty : FTy) (d a : Reg)
  | fadd (c : Ctl) (ty : FTy) (d a : Reg) (b : FSrc2)
  | fsub (c : Ctl) (ty : FTy) (d a : Reg) (b : FSrc2)
  | fmul (c : Ctl) (ty : FTy) (d a : Reg) (b : FSrc2)
  | ffma (c : Ctl) (ty : FTy) (d a : Reg) (b : FSrc3)
  | fmin (c : Ctl) (ty : FTy) (d a : Reg) (b : FSrc2)
  | fmax (c : Ctl) (ty : FTy) (d a : Reg) (b : FSrc2)
  | fdot2 (c : Ctl) (ty : F2Ty) (d a : Reg) (b : FSrc3)
  | fscale (c : Ctl) (ty : FTy) (rm : RMode) (ma : SMod) (d a b : Reg)
  | frnd (c : Ctl) (ty : FTy) (rm : RMode) (ma : SMod) (d a : Reg)
  | fclamp (c : Ctl) (ty : FTy) (d a : Reg) (b : FSrc3)
  | famax (c : Ctl) (ty : FTy) (d a : Reg) (b : FSrc2)
  | frcp (c : Ctl) (ma : SMod) (d a : Reg)
  | frsq (c : Ctl) (ma : SMod) (d a : Reg)
  | fsqrt (c : Ctl) (ma : SMod) (d a : Reg)
  | fexp2 (c : Ctl) (ma : SMod) (d a : Reg)
  | flog2 (c : Ctl) (ma : SMod) (d a : Reg)
  | fsin (c : Ctl) (ma : SMod) (d a : Reg)
  | fcos (c : Ctl) (ma : SMod) (d a : Reg)
  | fsigm (c : Ctl) (ma : SMod) (d a : Reg)
  | ftanh (c : Ctl) (ma : SMod) (d a : Reg)
  | cvt (c : Ctl) (dst : CvtDst) (sf : BitVec 4) (sei dei : BitVec 2) (d a : Reg)
  -- nib formats and sealing (chapter 11)
  | npack (c : Ctl) (slot : BitVec 3) (d a b : Reg)
  | nunpk (c : Ctl) (d a b : Reg)
  | scaleq (c : Ctl) (slot : BitVec 3) (d a : Reg)
  | seal (c : Ctl) (d a : Reg)
  | sealRel (c : Ctl) (a : Reg)
  | hqry (c : Ctl) (d a : Reg) (sel : BitVec 4)
  -- register space (chapter 09)
  | mov (c : Ctl) (w : Wid) (d : Reg) (a : MovSrc)
  | shfl (p : Pred) (w : Wid) (mode : ShflMode) (d a : Reg) (k : LaneSrc) (seg : BitVec 3) (pv : Option PReg)
  | bysel (c : Ctl) (d a b : Reg) (sel : ByteSel)
  | sread (c : Ctl) (d : Reg) (srn : BitVec 8)
  | swrite (p : Pred) (tgt : SwTarget) (a : Reg) (srn : BitVec 8)
  | view (p : Pred) (k : ViewKind) (o : ViewSrc)
  | segset (p : Pred) (k : SegKind) (d a b : Reg)
  | rcopy (p : Pred) (a b : Reg) (rows : BitVec 12)
  -- memory (chapter 10)
  | ld (c : Ctl) (m : MemOp) (d a : Reg)
  | st (c : Ctl) (m : MemOp) (a b : Reg)
  | ldf (c : Ctl) (m : MemOp) (d a b : Reg)
  | stf (c : Ctl) (m : MemOp) (d a b : Reg)
  | pref (c : Ctl) (m : MemOp) (a : Reg)
  | cflush (p : Pred) (m : MemOp) (a : Reg)
  | cinv (p : Pred) (a b : Reg) (ofs : BitVec 18)
  | cinvNowb (p : Pred) (d a b : Reg) (ofs : BitVec 18)
  | atom (c : Ctl) (m : AtomOp) (op : AOp) (d a b : Reg)
  | atcas (c : Ctl) (m : AtomOp) (d a b : Reg)
  | red (c : Ctl) (m : AtomOp) (op : AOp) (a b : Reg)
  | cadd (c : Ctl) (a b : Reg) (ofs : BitVec 18)
  -- ink cells (chapter 06)
  | inkp (c : Ctl) (d a b cc : Reg) (cell : BitVec 13)
  | inkrG (c : Ctl) (d a cc : Reg) (cell : BitVec 13)
  | inkrH (c : Ctl) (d a cc : Reg) (cell : BitVec 13)
  | inkc (c : Ctl) (d a cc : Reg) (cell : BitVec 13)
  -- copy engine, timelines, barrier objects (chapter 07)
  | kick (p : Pred) (a b : Reg)
  | tlwait (p : Pred) (a : Reg) (tl : BitVec 4)
  | tlread (p : Pred) (d : Reg) (tl : BitVec 4)
  | boinit (p : Pred) (a : Reg) (ofs : BitVec 18)
  | boarm (p : Pred) (a b : Reg) (ofs : BitVec 18)
  | bowait (p : Pred) (a : Reg) (ofs : BitVec 18)
  | botest (p : Pred) (d a : Reg) (ofs : BitVec 18)
  -- the Well (chapter 08)
  | wreq (p : Pred) (role : WRole) (d a : Reg) (def_ : Bool) (tl : BitVec 4)
  | wqry (p : Pred) (role : QRole) (d : Reg)
  | wtagSetv (p : Pred) (t cnt : BitVec 6)
  | wtagSetc (p : Pred) (t cnt : BitVec 6)
  | wtagReset (p : Pred) (t cnt : BitVec 6)
  | wtagWv (p : Pred) (t cnt : BitVec 6)
  | wtagWc (p : Pred) (t cnt : BitVec 6)
  | wtagRd (p : Pred) (d : Reg) (t cnt : BitVec 6)
  -- matrix engine (chapter 14)
  | mma (p : Pred) (slot : BitVec 3) (t : MTarget) (a b : Reg) (sp : Bool)
  | mloop (p : Pred) (slot : BitVec 3) (t : MTarget) (a b : Reg) (x : MLoopX)
  | mloops (p : Pred) (slot : BitVec 3) (t : MTarget) (a b : Reg) (x : MLoopX)
  | mzero (p : Pred) (t : MTarget) (cnt : BitVec 4)
  | mdrain (p : Pred) (zr : Bool) (slot : BitVec 3) (t : MTarget) (a : Reg)
  | mldacc (p : Pred) (slot : BitVec 3) (t : MTarget) (a : Reg)
  | msyncWait (p : Pred) (mask : BitVec 4)
  | msyncMark (p : Pred) (stream : BitVec 2) (tinc : BitVec 8) (tl : BitVec 4)
  | mstatRd (p : Pred) (d : Reg)
  | mstatClr (p : Pred)
  | mstatMeta (p : Pred) (a : Reg) (stream : BitVec 2)
  | mstatScale (p : Pred) (a : Reg) (stream : BitVec 2)
  -- stipple arrays (chapter 15)
  | sacfgCtl (p : Pred) (arr : BitVec 2) (a b : Reg)
  | sacfgKey (p : Pred) (arr : BitVec 2) (a b : Reg)
  | sacfgSc (p : Pred) (arr : BitVec 2) (a : Reg)
  | sacfgLink (p : Pred) (arr : BitVec 2) (a : Reg)
  | sald (p : Pred) (arr : BitVec 2) (a b : Reg) (region : SaRegion)
  | saclamp (p : Pred) (arr : BitVec 2) (a : Reg)
  | saswp (p : Pred) (arr : BitVec 2) (a : Reg) (tinc : BitVec 8) (tl : BitVec 4)
  | sardState (p : Pred) (arr : BitVec 2) (d a : Reg)
  | sardCnt (p : Pred) (arr : BitVec 2) (d a : Reg)
  | sardStat (p : Pred) (arr : BitVec 2) (d : Reg)
  | sardMon (p : Pred) (arr : BitVec 2) (d : Reg)
  -- control (chapters 16, 17)
  | bra (c : Ctl) (ofs : BitVec 21)
  | brx (c : Ctl) (a : Reg)
  | call (c : Ctl) (d : Reg) (ofs : BitVec 20)
  | callInd (c : Ctl) (d a : Reg)
  | ret (c : Ctl) (a : Reg)
  | exit (p : Pred)
  | nop (p : Pred)
  | yield (p : Pred)
  | barTeam (p : Pred)
  | barSync (p : Pred) (id : BitVec 5) (cnt : BitVec 6)
  | barArrive (p : Pred) (id : BitVec 5) (cnt : BitVec 6)
  | phase (p : Pred) (scope : PScope)
  | stage (p : Pred)
  | monw (p : Pred) (a : Reg) (ofs : BitVec 18)
  | waitc (p : Pred) (nld nst ncp ntl : BitVec 5)
  -- scheduling (chapter 20)
  | spawn (p : Pred) (d a : Reg)
  | jdec (p : Pred) (d a b : Reg)
  | tqry (c : Ctl) (d a : Reg)
  -- traps and firmware (chapters 04, 22, 25)
  | trap (p : Pred) (code : BitVec 20)
  | trapHnd (p : Pred) (a b : Reg)
  | objsetDesc (p : Pred) (d a b : Reg)
  | objsetExt (p : Pred) (d a b : Reg)
  | objinv (p : Pred) (d a : Reg)
  | objinvAll (p : Pred) (d a : Reg)
  | xmove (p : Pred) (d a b : Reg)
  | quiesceDrain (p : Pred) (d a : Reg)
  | quiescePreempt (p : Pred) (d a : Reg)
  | quiesceResume (p : Pred) (d a : Reg)
  | gangsw (p : Pred) (d a b : Reg)
  | scanrun (p : Pred) (d a b : Reg)
  | dieoff (p : Pred) (d a : Reg)
  | dieon (p : Pred) (d a : Reg)
  | cluoff (p : Pred) (d a : Reg)
  | rpair (p : Pred) (d a : Reg)
  | rpairDone (p : Pred) (d a : Reg)
  | eretRetry (p : Pred) (d a : Reg)
  | eretSkip (p : Pred) (d a : Reg)
  | eretDeliver (p : Pred) (d a : Reg)
  | eretKill (p : Pred) (d a : Reg)
  -- pair words, named by the upper half (R32, R33)
  | pairNop (low : Half)
  | pairMov (u : Bool) (d s : Reg) (low : Half)
  | pairMovi8 (u : Bool) (d : Reg) (i : BitVec 8) (low : Half)
  | pairIadd (u : Bool) (d s : Reg) (low : Half)
  | pairIaddi (u : Bool) (d : Reg) (i : BitVec 8) (low : Half)
  | pairIsub (u : Bool) (d s : Reg) (low : Half)
  | pairImul (u : Bool) (d s : Reg) (low : Half)
  | pairImin (u : Bool) (d s : Reg) (low : Half)
  | pairImax (u : Bool) (d s : Reg) (low : Half)
  | pairAnd (u : Bool) (d s : Reg) (low : Half)
  | pairOr (u : Bool) (d s : Reg) (low : Half)
  | pairXor (u : Bool) (d s : Reg) (low : Half)
  | pairShli (u : Bool) (d : Reg) (n : BitVec 5) (low : Half)
  | pairShri (u : Bool) (d : Reg) (n : BitVec 5) (low : Half)
  | pairSari (u : Bool) (d : Reg) (n : BitVec 5) (low : Half)
  | pairFadd (u : Bool) (d s : Reg) (low : Half)
  | pairFsub (u : Bool) (d s : Reg) (low : Half)
  | pairFmul (u : Bool) (d s : Reg) (low : Half)
  | pairFmin (u : Bool) (d s : Reg) (low : Half)
  | pairFmax (u : Bool) (d s : Reg) (low : Half)
  | pairFneg (u : Bool) (d s : Reg) (low : Half)
  | pairFabs (u : Bool) (d s : Reg) (low : Half)
  -- steps of the masters (chapter 25)
  | hostMemRead (addr len : Nat)
  | hostMemWrite (addr : Nat) (bytes : List Byte)
  | mkres
  | evict
  | switch
  | setcr
  | fwload
  | unfrzsb
  | qdb (ctx q : Nat) (tail : Word)
  | aeqh (ctx : Nat) (head : Word)
  | coldb (ctx : Nat) (tail : Word)
  | hostRegisterWrite (off : Nat) (val : DWord)
  | health
  | diereset (die : Nat)
  | fwloadSideband (image : List Byte)
  | unfrzhost
  | spdmRequest (req : List Byte)
  | stationerPowerCycle
  | powerOn
  -- steps of the pod transport and the clock (chapter 25)
  | data (h : DgHead) (level node : Nat) (vals : List Word)
  | ack (h : DgHead)
  | nak (h : DgHead)
  | inkreq (h : DgHead) (m : InkMsg)
  | inkrep (h : DgHead) (w0 w1 : DWord) (cause : Nat)
  | incomplete (h : DgHead)
  | ptpfwd (h : DgHead)
  | retransmit (n : Nat)
  | peerUnreachable (peer : Nat)
  | collectiveTimeout (n chunk : Nat)
  | collectiveStart (n : Nat)
  | ptpSync (gtime : DWord)
  | holdover
  | moduleLoss (pair : Nat)
  -- steps of the memory system and the engines; n picks the n-th pending item
  | inkHomeStep (n : Nat)
  | inkReply (n : Nat)
  | inkTimeout (n : Nat)
  | writeThrough (n : Nat)
  | update (n : Nat)
  | dropMark (n : Nat)
  | publicationAck (n : Nat)
  | commit (n : Nat)
  | fill (n : Nat)
  | atomicRequest (n : Nat)
  | replay (core slot : Nat)
  | faultRefusal (n : Nat)
  | copyStart (core : Nat)
  | arrival (core n : Nat)
  | copyComplete (core n : Nat)
  | copyResume (core n : Nat)
  | copyFail (core n : Nat)
  | matrixStep (core slot stream : Nat)
  | arrayCommand (core arr : Nat)
  | sweep (core arr : Nat)
  | tagArrival (core arr : Nat)
  | boundaryTimeout (core arr : Nat)
  | scrubRead (sector : Nat)
  | scrubWriteback (n : Nat)
  | parkLimit (core slot : Nat)
  | deferredRecheck (core n : Nat)
  | admission (core : Nat)
  | gangSwitch
  | scanFloorDrain (cluster : Nat)
  | go (n : Nat) (data : List Byte)
  | malformedCommand (m : Master)
  deriving DecidableEq, Repr

end Sys2Proof
end

