-- ==== Sys2Proof/WellFormed.lean ====
section
/-! DEFINITION. Which instructions the encodings allow: the register alignments of R28, the field
ranges of the owning chapters, and the pairing rules of R34. An instruction that breaks one of
these is a word that raises ILLEGAL_OP or ILLEGAL_PAIR at decode (R43, R44). -/

namespace Sys2Proof

/-- An even register, as a 64-bit operand needs (R28). -/
def Reg.even (r : Reg) : Bool := r.toNat % 2 == 0

/-- A register number that is a multiple of 4. -/
def Reg.quad (r : Reg) : Bool := r.toNat % 4 == 0

/-- The register is even when the width is 64 bits (R28). -/
def Wid.okReg (w : Wid) (r : Reg) : Bool :=
  match w with
  | .b32 => true
  | .b64 => r.even

/-- The width of an integer type (R40). -/
def IntTy.wid : IntTy → Wid
  | .s32 | .z32 => .b32
  | .s64 | .z64 => .b64

/-- Register alignment of a second source. -/
def Src2.ok (w : Wid) : Src2 → Bool
  | .reg b => w.okReg b
  | .imm _ => true

/-- Register alignment of second and third sources. -/
def Src3.ok (wb wc : Wid) : Src3 → Bool
  | .reg b c => wb.okReg b && wc.okReg c
  | .imm _ c => wc.okReg c

/-- FIMM[19:16] is zero under the packed types (R30). -/
def FTy.okImm (ty : FTy) (v : BitVec 20) : Bool :=
  match ty with
  | .f32 => true
  | .f16x2 | .bf16x2 => v.toNat < 0x10000

/-- The instruction takes only RNE (R244). -/
def FSrc2.rneOnly : FSrc2 → Bool
  | .reg rm _ _ _ => rm == .rne
  | .imm _ => true

/-- The instruction takes only RNE (R244). -/
def FSrc3.rneOnly : FSrc3 → Bool
  | .reg rm _ _ _ _ _ => rm == .rne
  | .imm _ _ => true

/-- The immediate form's reserved bits (R30). -/
def FSrc2.ok (ty : FTy) : FSrc2 → Bool
  | .reg .. => true
  | .imm v => ty.okImm v

/-- The immediate form's reserved bits (R30). -/
def FSrc3.ok (ty : FTy) : FSrc3 → Bool
  | .reg .. => true
  | .imm v _ => ty.okImm v

/-- A packed type of scheme F2 read as a type of scheme F. -/
def F2Ty.toF : F2Ty → FTy
  | .f16x2 => .f16x2
  | .bf16x2 => .bf16x2

/-- Format codes CVT accepts: those of R213 but NONE and NIB (R254). -/
def cvtFmtOk (f : BitVec 4) : Bool :=
  f.toNat != 0 && f.toNat != 6 && f.toNat < 13

/-- Elements of a 32-bit register in the format of code `f` (R254): 1, 2 or 4. -/
def fmtElems (f : BitVec 4) : Nat :=
  match f.toNat with
  | 1 | 11 | 12 => 1
  | 2 | 3 | 9 | 10 => 2
  | 4 | 5 | 7 | 8 => 4
  | _ => 0

/-- The special registers SREAD reads, with their widths (R170). -/
def srWidth (srn : BitVec 8) : Option Wid :=
  match srn.toNat with
  | 0x00 | 0x01 | 0x02 | 0x03 | 0x04 | 0x05 | 0x06 => some .b32
  | 0x08 | 0x09 | 0x0A | 0x0B | 0x0C | 0x0D | 0x0E | 0x0F => some .b32
  | 0x10 | 0x11 | 0x12 => some .b64
  | 0x13 | 0x14 | 0x15 | 0x16 => some .b32
  | 0x40 | 0x41 => some .b64
  | 0x48 | 0x49 | 0x4A => some .b32
  | _ => none

/-- SWRITE's registers (R170): `sr.detflags` and `sr.dbg` belong to a group, `sr.clucnt` and
`sr.topo` to a core. -/
def swriteOk (t : SwTarget) (srn : BitVec 8) : Bool :=
  match t, srn.toNat with
  | .group _, 0x13 | .group _, 0x15 => true
  | .core, 0x0D | .core, 0x16 => true
  | _, _ => false

/-- Bytes of an access (R182). -/
def ASize.bytes : ASize → Nat
  | .z8 | .s8 => 1
  | .z16 | .s16 => 2
  | .b32 => 4
  | .b64 => 8
  | .b128 => 16

/-- Alignment of a data register by access size (R182). -/
def ASize.okReg (z : ASize) (r : Reg) : Bool :=
  match z with
  | .b64 => r.even
  | .b128 => r.quad
  | _ => true

/-- The address register is an even pair in space GLB (R179). -/
def Space.okAddr (s : Space) (a : Reg) : Bool :=
  match s with
  | .glb => a.even
  | _ => true

/-- The non-temporal bit belongs to space GLB alone on LD, ST, LDF and STF (R178). -/
def MemOp.ntOk (m : MemOp) : Bool := !m.nt || m.space == .glb

/-- Sizes LDF and STF take (R190). -/
def ASize.frag : ASize → Bool
  | .b32 | .b64 | .b128 => true
  | _ => false

/-- A store has no sign-extending size (R31). -/
def ASize.store : ASize → Bool
  | .s8 | .s16 => false
  | _ => true

/-- Atomic operations of 64 bits (R197). -/
def AOp.okWid (o : AOp) (w : Wid) : Bool :=
  match o with
  | .fadd | .fmin | .fmax => w == .b32
  | _ => true

/-- No selector code of an immediate is reserved (R240). -/
def byteSelOk (v : BitVec 16) : Bool :=
  (List.range 4).all fun i => (v.extractLsb' (4 * i) 4).toNat ≤ 12

/-- The registers a pair half reads (R33). -/
def Half.reads : Half → List Reg
  | .nop | .movi8 .. => []
  | .iaddi _ d _ => [d]
  | .shift _ _ d _ => [d]
  | .op .mov _ _ s | .op .fneg _ _ s | .op .fabs _ _ s => [s]
  | .op _ _ d s => [d, s]

/-- The register a pair half writes (R33). -/
def Half.dest : Half → Option Reg
  | .nop => none
  | .movi8 _ d _ | .iaddi _ d _ | .shift _ _ d _ | .op _ _ d _ => some d

/-- Distinct registers of a list. -/
def distinctRegs : List Reg → List Reg
  | [] => []
  | r :: rs => if rs.contains r then distinctRegs rs else r :: distinctRegs rs

/-- R34: the two destinations differ, and no three of the registers read name one port. -/
def pairOk (up low : Half) : Bool :=
  (match up.dest, low.dest with
   | some a, some b => a != b
   | _, _ => true) &&
  (List.range 4).all fun port =>
    ((distinctRegs (up.reads ++ low.reads)).filter fun r => r.toNat % 4 == port).length ≤ 2

/-- The upper and lower halves of a pair word; none for every other step. -/
def Instr.halves : Instr → Option (Half × Half)
  | .pairNop l => some (.nop, l)
  | .pairMov u d s l => some (.op .mov u d s, l)
  | .pairMovi8 u d i l => some (.movi8 u d i, l)
  | .pairIadd u d s l => some (.op .iadd u d s, l)
  | .pairIaddi u d i l => some (.iaddi u d i, l)
  | .pairIsub u d s l => some (.op .isub u d s, l)
  | .pairImul u d s l => some (.op .imul u d s, l)
  | .pairImin u d s l => some (.op .imin u d s, l)
  | .pairImax u d s l => some (.op .imax u d s, l)
  | .pairAnd u d s l => some (.op .and u d s, l)
  | .pairOr u d s l => some (.op .or u d s, l)
  | .pairXor u d s l => some (.op .xor u d s, l)
  | .pairShli u d n l => some (.shift .shl u d n, l)
  | .pairShri u d n l => some (.shift .shr u d n, l)
  | .pairSari u d n l => some (.shift .sar u d n, l)
  | .pairFadd u d s l => some (.op .fadd u d s, l)
  | .pairFsub u d s l => some (.op .fsub u d s, l)
  | .pairFmul u d s l => some (.op .fmul u d s, l)
  | .pairFmin u d s l => some (.op .fmin u d s, l)
  | .pairFmax u d s l => some (.op .fmax u d s, l)
  | .pairFneg u d s l => some (.op .fneg u d s, l)
  | .pairFabs u d s l => some (.op .fabs u d s, l)
  | _ => none

/-- Whether the encodings allow the instruction (R28, R43 and the owning chapters), the pairing
rules of R34 apart. Steps that no word encodes have nothing to check. -/
def Instr.fieldsOk : Instr → Bool
  | .iadd _ ty _ d a b | .isub _ ty _ d a b | .imul _ ty _ d a b | .imulh _ ty d a b
  | .imin _ ty d a b | .imax _ ty d a b | .idiv _ ty d a b | .irem _ ty d a b
  | .shl _ ty d a b | .shr _ ty d a b =>
      ty.wid.okReg d && ty.wid.okReg a && b.ok ty.wid
  | .imad _ ty _ d a b | .lea _ ty d a b =>
      ty.wid.okReg d && ty.wid.okReg a && b.ok ty.wid ty.wid
  | .iabs _ ty _ d a | .ineg _ ty _ d a => ty.wid.okReg d && ty.wid.okReg a
  | .iaddc _ w d a b _ _ | .isubc _ w d a b _ _ => w.okReg d && w.okReg a && w.okReg b
  | .imadw _ _ _ d _ b => d.even && b.ok .b32 .b64
  | .and _ w d a b | .or _ w d a b | .xor _ w d a b | .rot _ w d a b =>
      w.okReg d && w.okReg a && b.ok w
  | .bool3 _ w d a b cc _ => w.okReg d && w.okReg a && w.okReg b && w.okReg cc
  | .popc _ w _ a | .clz _ w _ a | .ctz _ w _ a => w.okReg a
  | .brev _ w d a => w.okReg d && w.okReg a
  | .bfx _ w _ d a f => w.okReg d && w.okReg a &&
      (match f with | .reg _ => true | .imm len _ => len.toNat ≤ 64)
  | .bfi _ w d a f => w.okReg d && w.okReg a &&
      (match f with | .reg _ c => w.okReg c | .imm len _ c => len.toNat ≤ 64 && w.okReg c)
  | .icmp _ ty _ _ a b => ty.wid.okReg a &&
      (match b with | .reg r => ty.wid.okReg r | .imm _ => true)
  | .fcmp _ ty cond d _ b => cond.toNat ≤ 13 &&
      (let ps := match b with | .reg _ ps => ps | .imm _ ps => ps
       match ty with | .f32 => ps == 0 | .f16x2 | .bf16x2 => ps != d)
  | .sel _ w d a b => w.okReg d && w.okReg a &&
      (match b with | .reg r _ => w.okReg r | .imm _ _ => true)
  | .vote _ (.ballot d) _ => d.even
  | .fadd _ ty _ _ b | .fsub _ ty _ _ b | .fmul _ ty _ _ b => b.ok ty
  | .ffma _ ty _ _ b => b.ok ty
  | .fmin _ ty _ _ b | .fmax _ ty _ _ b | .famax _ ty _ _ b => b.ok ty && b.rneOnly
  | .fdot2 _ ty _ _ b => b.ok ty.toF
  | .fclamp _ ty _ _ b => b.ok ty && b.rneOnly
  | .cvt _ dst sf sei dei _ _ => cvtFmtOk sf && decide (sei.toNat < fmtElems sf) &&
      (match dst with
       | .fmt df _ _ => cvtFmtOk df && decide (dei.toNat < fmtElems df)
       | .slot _ => true)
  | .npack _ _ _ a _ => a.toNat ≤ 248
  | .nunpk _ d _ _ => d.toNat ≤ 248
  | .scaleq _ _ _ a => a.toNat ≤ 248
  | .hqry _ d _ n => d.even && n.toNat ≤ 9
  | .mov _ w d a => w.okReg d && (match a with | .reg r => w.okReg r | .imm _ => true)
  | .shfl _ w _ d a _ seg _ => w.okReg d && w.okReg a && seg.toNat ≤ 6
  | .bysel _ _ _ _ (.imm v) => byteSelOk v
  | .sread _ d srn => (match srWidth srn with | some w => w.okReg d | none => false)
  | .swrite _ t _ srn => swriteOk t srn
  | .segset _ _ _ a _ => a.even
  | .ld _ m d a => m.ntOk && m.size.okReg d && m.space.okAddr a
  | .st _ m a b => m.ntOk && m.size.store && m.size.okReg b && m.space.okAddr a
  | .ldf _ m d a _ | .stf _ m d a _ =>
      m.ntOk && m.space != .fifo && m.size.frag && m.size.okReg d && m.space.okAddr a
  | .pref _ m a | .cflush _ m a => m.space == .glb && a.even
  | .cinv _ a _ _ | .cinvNowb _ _ a _ _ => a.even
  | .atom _ m op d a b => m.space != .fifo && op.okWid m.wid && m.wid.okReg d && m.wid.okReg b
      && m.space.okAddr a
  | .atcas _ m d a b => m.space != .fifo && m.wid.okReg d && m.space.okAddr a &&
      (match m.wid with | .b32 => b.even | .b64 => b.quad)
  | .red _ m op a b => m.space != .fifo && op != .exch && op.okWid m.wid && m.wid.okReg b
      && m.space.okAddr a
  | .cadd _ a _ _ => a.even
  | .inkp _ d a b cc _ => d.quad && a.even && b.even && cc.even
  | .inkrG _ d a cc _ | .inkrH _ d a cc _ | .inkc _ d a cc _ => d.quad && a.even && cc.even
  | .tlwait _ a _ => a.even
  | .tlread _ d _ => d.even
  | .wreq _ _ _ _ df tl => df || tl == 0
  | .wqry _ _ d => d.quad
  | .wtagSetv _ t cnt | .wtagSetc _ t cnt | .wtagReset _ t cnt | .wtagWv _ t cnt
  | .wtagWc _ t cnt => t.toNat + cnt.toNat ≤ 63
  | .wtagRd _ _ t cnt => t.toNat + cnt.toNat ≤ 63 && cnt.toNat ≤ 15
  | .mzero _ t cnt => t.acc.toNat + cnt.toNat ≤ 15
  | .mstatMeta _ a _ | .mstatScale _ a _ => a.even
  | .sacfgKey _ _ a _ => a.quad
  | .sacfgSc _ _ a => a.even
  | .sardStat _ _ d | .sardMon _ _ d => d.quad
  | .brx _ a | .ret _ a => a.even
  | .call _ d _ => d.even
  | .callInd _ d a => d.even && a.even
  | .monw _ a _ | .spawn _ _ a | .jdec _ _ a _ => a.even
  | .tqry _ d _ => d.even
  | .trapHnd _ a _ => a.even
  | .objsetDesc _ _ a b => a.even && b.quad
  | .objsetExt _ _ a b | .xmove _ _ a b => a.even && b.even
  | .objinv _ _ a | .objinvAll _ _ a => a.even
  | .gangsw _ _ a _ => a.even
  | _ => true

/-- The pairing rules of R34, for a pair word. -/
def Instr.pairingOk (i : Instr) : Bool :=
  match i.halves with
  | some (up, low) => pairOk up low
  | none => true

/-- A well-formed instruction: one that a word of the device encodes and that no decode check
refuses (R43, R44). -/
def Instr.wf (i : Instr) : Bool := i.fieldsOk && i.pairingOk

end Sys2Proof
end

