-- ==== Sys2Proof/Decode.lean ====
section
/-! DEFINITION. The decoder and the encoder of the Uraux instruction word (R23 to R45).
`parseFull` and `parsePair` read the fields an instruction uses. A word is the instruction they
name exactly when that instruction is well formed and its encoding is the word: every reserved
bit, unused field and unassigned code is thereby refused (R43), with no case left to fall through
to a neighbour. -/

namespace Sys2Proof

/-- Why a word is no instruction (R44). -/
inductive DecodeError where
  | illegalOp
  | illegalPair
  deriving DecidableEq, Repr

/-- The fields of a full word (R24), FMT apart; `pr` holds PE, PN and PG. -/
structure Fields where
  opc : BitVec 7
  fn  : BitVec 4
  u   : Bool
  pr  : BitVec 6
  d   : BitVec 8
  a   : BitVec 8
  b   : BitVec 8
  x   : BitVec 21
  deriving DecidableEq, Repr

/-- A Bool as one bit. -/
def bit (b : Bool) : BitVec 1 := BitVec.ofBool b

/-- The full word of the fields (R24). -/
def Fields.word (f : Fields) : DWord :=
  0#1 ++ f.opc ++ f.fn ++ bit f.u ++ f.pr ++ f.d ++ f.a ++ f.b ++ f.x

/-- The fields of a full word (R24). -/
def Fields.ofWord (w : DWord) : Fields where
  opc := w.extractLsb' 56 7
  fn  := w.extractLsb' 52 4
  u   := w.getLsbD 51
  pr  := w.extractLsb' 45 6
  d   := w.extractLsb' 37 8
  a   := w.extractLsb' 29 8
  b   := w.extractLsb' 21 8
  x   := w.extractLsb' 0 21

/-- PE, PN and PG of a predicate (R24, R25). -/
def Pred.bits : Pred → BitVec 6
  | .all => 0
  | .on n p => 1#1 ++ bit n ++ p

/-- The predicate that PE, PN and PG name (R25). -/
def Pred.ofBits (v : BitVec 6) : Pred :=
  if v.getLsbD 5 then .on (v.getLsbD 4) (v.extractLsb' 0 4) else .all

/-- FN[1:0] of the integer types (R40). -/
def IntTy.code : IntTy → BitVec 2
  | .s32 => 0
  | .z32 => 1
  | .s64 => 2
  | .z64 => 3

/-- The IntTy of a code; a code that names none is refused by the re-encoding of `decode`. -/
def IntTy.ofCode (v : BitVec 2) : IntTy :=
  match v.toNat with
  | 1 => .z32
  | 2 => .s64
  | 3 => .z64
  | _ => .s32

/-- FN[1:0] under scheme I32 (R40). -/
def IntTy32.code : IntTy32 → BitVec 2
  | .s32 => 0
  | .z32 => 1

/-- The IntTy32 of a code; a code that names none is refused by the re-encoding of `decode`. -/
def IntTy32.ofCode (v : BitVec 2) : IntTy32 :=
  match v.toNat with
  | 1 => .z32
  | _ => .s32

/-- FN[1:0] under scheme L (R40). -/
def Wid.code : Wid → BitVec 2
  | .b32 => 0
  | .b64 => 2

/-- The Wid of a code; a code that names none is refused by the re-encoding of `decode`. -/
def Wid.ofCode (v : BitVec 2) : Wid :=
  match v.toNat with
  | 2 => .b64
  | _ => .b32

/-- FN[1:0] under scheme F (R40). -/
def FTy.code : FTy → BitVec 2
  | .f32 => 0
  | .f16x2 => 1
  | .bf16x2 => 2

/-- The FTy of a code; a code that names none is refused by the re-encoding of `decode`. -/
def FTy.ofCode (v : BitVec 2) : FTy :=
  match v.toNat with
  | 1 => .f16x2
  | 2 => .bf16x2
  | _ => .f32

/-- FN[1:0] under scheme F2 (R40). -/
def F2Ty.code : F2Ty → BitVec 2
  | .f16x2 => 1
  | .bf16x2 => 2

/-- The F2Ty of a code; a code that names none is refused by the re-encoding of `decode`. -/
def F2Ty.ofCode (v : BitVec 2) : F2Ty :=
  match v.toNat with
  | 2 => .bf16x2
  | _ => .f16x2

/-- RM (R30). -/
def RMode.code : RMode → BitVec 2
  | .rne => 0
  | .rz => 1
  | .rp => 2
  | .rd => 3

/-- The RMode of a code; a code that names none is refused by the re-encoding of `decode`. -/
def RMode.ofCode (v : BitVec 2) : RMode :=
  match v.toNat with
  | 1 => .rz
  | 2 => .rp
  | 3 => .rd
  | _ => .rne

/-- CMP of ICMP (R234). -/
def ICond.code : ICond → BitVec 3
  | .eq => 0
  | .ne => 1
  | .lt => 2
  | .le => 3
  | .gt => 4
  | .ge => 5

/-- The ICond of a code; a code that names none is refused by the re-encoding of `decode`. -/
def ICond.ofCode (v : BitVec 3) : ICond :=
  match v.toNat with
  | 1 => .ne
  | 2 => .lt
  | 3 => .le
  | 4 => .gt
  | 5 => .ge
  | _ => .eq

/-- MODE of SHFL (R239). -/
def ShflMode.code : ShflMode → BitVec 2
  | .idx => 0
  | .up => 1
  | .down => 2
  | .xor => 3

/-- The ShflMode of a code; a code that names none is refused by the re-encoding of `decode`. -/
def ShflMode.ofCode (v : BitVec 2) : ShflMode :=
  match v.toNat with
  | 1 => .up
  | 2 => .down
  | 3 => .xor
  | _ => .idx

/-- FN[1:0] under scheme Sp (R40). -/
def Space.code : Space → BitVec 2
  | .glb => 0
  | .scr => 1
  | .clu => 2
  | .fifo => 3

/-- The Space of a code; a code that names none is refused by the re-encoding of `decode`. -/
def Space.ofCode (v : BitVec 2) : Space :=
  match v.toNat with
  | 1 => .scr
  | 2 => .clu
  | 3 => .fifo
  | _ => .glb

/-- SIZE (R31). -/
def ASize.code : ASize → BitVec 3
  | .z8 => 0
  | .s8 => 1
  | .z16 => 2
  | .s16 => 3
  | .b32 => 4
  | .b64 => 5
  | .b128 => 6

/-- The ASize of a code; a code that names none is refused by the re-encoding of `decode`. -/
def ASize.ofCode (v : BitVec 3) : ASize :=
  match v.toNat with
  | 1 => .s8
  | 2 => .z16
  | 3 => .s16
  | 4 => .b32
  | 5 => .b64
  | 6 => .b128
  | _ => .z8

/-- AOP (R197). -/
def AOp.code : AOp → BitVec 4
  | .add => 0
  | .smin => 1
  | .smax => 2
  | .umin => 3
  | .umax => 4
  | .and => 5
  | .or => 6
  | .xor => 7
  | .exch => 8
  | .fadd => 9
  | .fmin => 10
  | .fmax => 11

/-- The AOp of a code; a code that names none is refused by the re-encoding of `decode`. -/
def AOp.ofCode (v : BitVec 4) : AOp :=
  match v.toNat with
  | 1 => .smin
  | 2 => .smax
  | 3 => .umin
  | 4 => .umax
  | 5 => .and
  | 6 => .or
  | 7 => .xor
  | 8 => .exch
  | 9 => .fadd
  | 10 => .fmin
  | 11 => .fmax
  | _ => .add

/-- FN of WREQ (R154). -/
def WRole.code : WRole → BitVec 4
  | .reg => 0
  | .mat => 1
  | .scr => 2
  | .fifo => 3
  | .shadow => 4

/-- The WRole of a code; a code that names none is refused by the re-encoding of `decode`. -/
def WRole.ofCode (v : BitVec 4) : WRole :=
  match v.toNat with
  | 1 => .mat
  | 2 => .scr
  | 3 => .fifo
  | 4 => .shadow
  | _ => .reg

/-- ROLE of WQRY (R156). -/
def QRole.code : QRole → BitVec 3
  | .reg => 0
  | .mat => 1
  | .scr => 2
  | .fifo => 3
  | .shadow => 4
  | .cache => 5

/-- The QRole of a code; a code that names none is refused by the re-encoding of `decode`. -/
def QRole.ofCode (v : BitVec 3) : QRole :=
  match v.toNat with
  | 1 => .mat
  | 2 => .scr
  | 3 => .fifo
  | 4 => .shadow
  | 5 => .cache
  | _ => .reg

/-- FN[1:0] of VIEW (R171). -/
def ViewKind.code : ViewKind → BitVec 2
  | .vec => 0
  | .tile => 1
  | .acc => 2

/-- The ViewKind of a code; a code that names none is refused by the re-encoding of `decode`. -/
def ViewKind.ofCode (v : BitVec 2) : ViewKind :=
  match v.toNat with
  | 1 => .tile
  | 2 => .acc
  | _ => .vec

/-- FN of SEGSET (R171). -/
def SegKind.code : SegKind → BitVec 4
  | .reg => 0
  | .mat => 1

/-- The SegKind of a code; a code that names none is refused by the re-encoding of `decode`. -/
def SegKind.ofCode (v : BitVec 4) : SegKind :=
  match v.toNat with
  | 1 => .mat
  | _ => .reg

/-- REGION (R282). -/
def SaRegion.code : SaRegion → BitVec 3
  | .bias => 0
  | .coup => 1
  | .col => 2
  | .state => 3
  | .exp => 4
  | .ghost => 5

/-- The SaRegion of a code; a code that names none is refused by the re-encoding of `decode`. -/
def SaRegion.ofCode (v : BitVec 3) : SaRegion :=
  match v.toNat with
  | 1 => .coup
  | 2 => .col
  | 3 => .state
  | 4 => .exp
  | 5 => .ghost
  | _ => .bias

/-- SCOPE (R308). -/
def PScope.code : PScope → BitVec 3
  | .team => 0
  | .core => 1
  | .clu => 2
  | .dev => 3
  | .sys => 4

/-- The PScope of a code; a code that names none is refused by the re-encoding of `decode`. -/
def PScope.ofCode (v : BitVec 3) : PScope :=
  match v.toNat with
  | 1 => .core
  | 2 => .clu
  | 3 => .dev
  | 4 => .sys
  | _ => .team

/-- SIZE of an atomic: .b32 or .b64 (R196). -/
def Wid.atomCode : Wid → BitVec 3
  | .b32 => 4
  | .b64 => 5

/-- The width an atomic's SIZE names. -/
def Wid.ofAtomCode (v : BitVec 3) : Wid := if v == 5 then .b64 else .b32

/-- A modifier's two bits, negate above absolute (R30). -/
def SMod.bits (m : SMod) : BitVec 2 := bit m.neg ++ bit m.abs

/-- The modifier of two bits. -/
def SMod.ofBits (v : BitVec 2) : SMod := ⟨v.getLsbD 1, v.getLsbD 0⟩

/-- B and X of a two-source integer instruction (R29). -/
def Src2.enc : Src2 → BitVec 8 × BitVec 21
  | .reg b => (b, 0)
  | .imm v => (0, 1#1 ++ v)

/-- The second source that B and X name (R29). -/
def Src2.dec (b : BitVec 8) (x : BitVec 21) : Src2 :=
  if x.getLsbD 20 then .imm (x.extractLsb' 0 20) else .reg b

/-- B and X of a three-source integer instruction (R29). -/
def Src3.enc : Src3 → BitVec 8 × BitVec 21
  | .reg b c => (b, 0#13 ++ c)
  | .imm v c => (c, 1#1 ++ v)

/-- The second and third sources that B and X name (R29). -/
def Src3.dec (b : BitVec 8) (x : BitVec 21) : Src3 :=
  if x.getLsbD 20 then .imm (x.extractLsb' 0 20) b else .reg b (x.extractLsb' 0 8)

/-- B and X of a two-source float instruction (R30). -/
def FSrc2.enc : FSrc2 → BitVec 8 × BitVec 21
  | .reg rm ma mb b => (b, 0#1 ++ rm.code ++ ma.bits ++ mb.bits ++ 0#14)
  | .imm v => (0, 1#1 ++ v)

/-- The second source that B and X name (R30). -/
def FSrc2.dec (b : BitVec 8) (x : BitVec 21) : FSrc2 :=
  if x.getLsbD 20 then .imm (x.extractLsb' 0 20)
  else .reg (.ofCode (x.extractLsb' 18 2)) (.ofBits (x.extractLsb' 16 2)) (.ofBits (x.extractLsb' 14 2)) b

/-- B and X of a three-source float instruction (R30). -/
def FSrc3.enc : FSrc3 → BitVec 8 × BitVec 21
  | .reg rm ma mb mc b c => (b, 0#1 ++ rm.code ++ ma.bits ++ mb.bits ++ mc.bits ++ 0#4 ++ c)
  | .imm v c => (c, 1#1 ++ v)

/-- The second and third sources that B and X name (R30). -/
def FSrc3.dec (b : BitVec 8) (x : BitVec 21) : FSrc3 :=
  if x.getLsbD 20 then .imm (x.extractLsb' 0 20) b
  else .reg (.ofCode (x.extractLsb' 18 2)) (.ofBits (x.extractLsb' 16 2)) (.ofBits (x.extractLsb' 14 2))
    (.ofBits (x.extractLsb' 12 2)) b (x.extractLsb' 0 8)

/-- X of a one-source float instruction: RM, NA and AA (R30). -/
def fx1 (rm : RMode) (ma : SMod) : BitVec 21 := 0#1 ++ rm.code ++ ma.bits ++ 0#16

/-- X of a memory operand: SIZE and OFS (R31). -/
def MemOp.x (m : MemOp) : BitVec 21 := m.size.code ++ m.ofs

/-- FN of a memory operand (R178). -/
def MemOp.fn (m : MemOp) : BitVec 4 := bit m.nt ++ 0#1 ++ m.space.code

/-- The memory operand that FN and X name (R181). -/
def MemOp.dec (fn : BitVec 4) (x : BitVec 21) : MemOp :=
  ⟨fn.getLsbD 3, .ofCode (fn.extractLsb' 0 2), .ofCode (x.extractLsb' 18 3), x.extractLsb' 0 18⟩

/-- X of an atomic (R196). -/
def AtomOp.x (m : AtomOp) (op : BitVec 4) : BitVec 21 := m.wid.atomCode ++ op ++ m.ofs

/-- FN of an atomic (R196). -/
def AtomOp.fn (m : AtomOp) : BitVec 4 := 0#2 ++ m.space.code

/-- The atomic operand that FN and X name (R196). -/
def AtomOp.dec (fn : BitVec 4) (x : BitVec 21) : AtomOp :=
  ⟨.ofCode (fn.extractLsb' 0 2), .ofAtomCode (x.extractLsb' 18 3), x.extractLsb' 0 14⟩

/-- D of a matrix instruction (R272). -/
def MTarget.d (t : MTarget) : BitVec 8 := t.stream ++ 0#2 ++ t.acc

/-- The stream and accumulator D names (R272). -/
def MTarget.dec (d : BitVec 8) : MTarget := ⟨d.extractLsb' 6 2, d.extractLsb' 0 4⟩

/-- X of MLOOP and MLOOPS (R272). -/
def MLoopX.x (m : MLoopX) : BitVec 21 := m.km1 ++ m.sa ++ m.sb ++ bit m.sp

/-- The loop fields X names (R272). -/
def MLoopX.dec (x : BitVec 21) : MLoopX :=
  ⟨x.extractLsb' 13 8, x.extractLsb' 7 6, x.extractLsb' 1 6, x.getLsbD 0⟩

/-- An optional predicate's enable bit (R228, R239). -/
def optEn (o : Option PReg) : BitVec 1 := bit o.isSome

/-- An optional predicate's number, 0 when absent. -/
def optNum (o : Option PReg) : BitVec 4 := o.getD 0

/-- The optional predicate of an enable bit and a number. -/
def optPred (en : Bool) (n : BitVec 4) : Option PReg := if en then some n else none

/-- A predicate number in an 8-bit field (R27). -/
def pfield (p : PReg) : BitVec 8 := 0#4 ++ p

/-- X of BFX (R232): immediate flag, position and length. -/
def FieldSrc.enc : FieldSrc → BitVec 8 × BitVec 19
  | .reg b => (b, 0)
  | .imm len pos => (0, 1#1 ++ 0#5 ++ len ++ pos)

/-- X of BFI (R232). -/
def InsertSrc.enc : InsertSrc → BitVec 8 × BitVec 19
  | .reg b c => (b, 0#1 ++ 0#10 ++ c)
  | .imm len pos base => (base, 1#1 ++ 0#5 ++ len ++ pos)

/-- W64 of opcode 0x17, SHFL and the like: one bit. -/
def Wid.bit64 : Wid → BitVec 1
  | .b32 => 0
  | .b64 => 1

/-- The width of a W64 bit. -/
def Wid.ofBit (b : Bool) : Wid := if b then .b64 else .b32

/-- The SOP code of a two-register half (R33). -/
def HalfOp.sop : HalfOp → BitVec 6
  | .mov => 0x01 | .iadd => 0x03 | .isub => 0x05 | .imul => 0x06 | .imin => 0x07 | .imax => 0x08
  | .and => 0x09 | .or => 0x0A | .xor => 0x0B | .fadd => 0x0F | .fsub => 0x10 | .fmul => 0x11
  | .fmin => 0x12 | .fmax => 0x13 | .fneg => 0x14 | .fabs => 0x15

/-- The SOP code of an immediate shift (R33). -/
def HalfShift.sop : HalfShift → BitVec 6
  | .shl => 0x0C | .shr => 0x0D | .sar => 0x0E

/-- The 31 bits of a pair half below its top bit: SOP, U, D, S and I8 (R32, R33). -/
def Half.bits : Half → BitVec 31
  | .nop => 0
  | .movi8 u d i => (0x02 : BitVec 6) ++ bit u ++ d ++ 0#8 ++ i
  | .iaddi u d i => (0x04 : BitVec 6) ++ bit u ++ d ++ 0#8 ++ i
  | .shift k u d n => k.sop ++ bit u ++ d ++ 0#8 ++ 0#3 ++ n
  | .op o u d s => o.sop ++ bit u ++ d ++ s ++ 0#8

/-- The half that 31 bits name (R33); none for a SOP of 0x16 to 0x3F. -/
def Half.parse (v : BitVec 31) : Option Half :=
  let u := v.getLsbD 24
  let d := v.extractLsb' 16 8
  let s := v.extractLsb' 8 8
  let i := v.extractLsb' 0 8
  let n := v.extractLsb' 0 5
  match (v.extractLsb' 25 6).toNat with
  | 0x00 => some .nop
  | 0x01 => some (.op .mov u d s)
  | 0x02 => some (.movi8 u d i)
  | 0x03 => some (.op .iadd u d s)
  | 0x04 => some (.iaddi u d i)
  | 0x05 => some (.op .isub u d s)
  | 0x06 => some (.op .imul u d s)
  | 0x07 => some (.op .imin u d s)
  | 0x08 => some (.op .imax u d s)
  | 0x09 => some (.op .and u d s)
  | 0x0A => some (.op .or u d s)
  | 0x0B => some (.op .xor u d s)
  | 0x0C => some (.shift .shl u d n)
  | 0x0D => some (.shift .shr u d n)
  | 0x0E => some (.shift .sar u d n)
  | 0x0F => some (.op .fadd u d s)
  | 0x10 => some (.op .fsub u d s)
  | 0x11 => some (.op .fmul u d s)
  | 0x12 => some (.op .fmin u d s)
  | 0x13 => some (.op .fmax u d s)
  | 0x14 => some (.op .fneg u d s)
  | 0x15 => some (.op .fabs u d s)
  | _ => none

/-- The pair word whose upper half is `up` and whose lower half is `low`. -/
def Instr.ofHalves (up low : Half) : Instr :=
  match up with
  | .nop => .pairNop low
  | .movi8 u d i => .pairMovi8 u d i low
  | .iaddi u d i => .pairIaddi u d i low
  | .shift .shl u d n => .pairShli u d n low
  | .shift .shr u d n => .pairShri u d n low
  | .shift .sar u d n => .pairSari u d n low
  | .op .mov u d s => .pairMov u d s low
  | .op .iadd u d s => .pairIadd u d s low
  | .op .isub u d s => .pairIsub u d s low
  | .op .imul u d s => .pairImul u d s low
  | .op .imin u d s => .pairImin u d s low
  | .op .imax u d s => .pairImax u d s low
  | .op .and u d s => .pairAnd u d s low
  | .op .or u d s => .pairOr u d s low
  | .op .xor u d s => .pairXor u d s low
  | .op .fadd u d s => .pairFadd u d s low
  | .op .fsub u d s => .pairFsub u d s low
  | .op .fmul u d s => .pairFmul u d s low
  | .op .fmin u d s => .pairFmin u d s low
  | .op .fmax u d s => .pairFmax u d s low
  | .op .fneg u d s => .pairFneg u d s low
  | .op .fabs u d s => .pairFabs u d s low

/-- The pair word of two halves (R32). -/
def pairWord (up low : Half) : DWord := 1#1 ++ up.bits ++ 0#1 ++ low.bits

/-- The instruction a pair word names (R32); none when a half's SOP is unassigned. -/
def parsePair (w : DWord) : Option Instr :=
  match Half.parse (w.extractLsb' 32 31), Half.parse (w.extractLsb' 0 31) with
  | some up, some low => some (.ofHalves up low)
  | _, _ => none

/-- The instruction that a full word's fields name, by the opcode map of R41 and the encoding
tables of the owning chapters; none where the map assigns nothing. -/
def parseFull (f : Fields) : Option Instr :=
  let p := Pred.ofBits f.pr
  let c : Ctl := ⟨f.u, p⟩
  match f.opc.toNat with
  | 0x00 => some (.iadd c (.ofCode (f.fn.extractLsb' 0 2)) (f.fn.getLsbD 2) f.d f.a (.dec f.b f.x))
  | 0x01 => some (.isub c (.ofCode (f.fn.extractLsb' 0 2)) (f.fn.getLsbD 2) f.d f.a (.dec f.b f.x))
  | 0x02 => some (.imul c (.ofCode (f.fn.extractLsb' 0 2)) (f.fn.getLsbD 2) f.d f.a (.dec f.b f.x))
  | 0x03 => some (.imulh c (.ofCode (f.fn.extractLsb' 0 2)) f.d f.a (.dec f.b f.x))
  | 0x04 => some (.imad c (.ofCode (f.fn.extractLsb' 0 2)) (f.fn.getLsbD 2) f.d f.a (.dec f.b f.x))
  | 0x05 => some (.imin c (.ofCode (f.fn.extractLsb' 0 2)) f.d f.a (.dec f.b f.x))
  | 0x06 => some (.imax c (.ofCode (f.fn.extractLsb' 0 2)) f.d f.a (.dec f.b f.x))
  | 0x07 => some (.iabs c (.ofCode (f.fn.extractLsb' 0 2)) (f.fn.getLsbD 2) f.d f.a)
  | 0x08 => some (.ineg c (.ofCode (f.fn.extractLsb' 0 2)) (f.fn.getLsbD 2) f.d f.a)
  | 0x09 => some (.idiv c (.ofCode (f.fn.extractLsb' 0 2)) f.d f.a (.dec f.b f.x))
  | 0x0A => some (.irem c (.ofCode (f.fn.extractLsb' 0 2)) f.d f.a (.dec f.b f.x))
  | 0x0B => some (if f.x.getLsbD 20 then .isubc c (.ofCode (f.fn.extractLsb' 0 2)) f.d f.a f.b (optPred (f.x.getLsbD 12) (f.x.extractLsb' 8 4)) (f.x.extractLsb' 0 4)
      else .iaddc c (.ofCode (f.fn.extractLsb' 0 2)) f.d f.a f.b (optPred (f.x.getLsbD 12) (f.x.extractLsb' 8 4)) (f.x.extractLsb' 0 4))
  | 0x0C => some (.lea c (.ofCode (f.fn.extractLsb' 0 2)) f.d f.a (.dec f.b f.x))
  | 0x0D => some (.idot4 c (f.fn.getLsbD 2) (f.fn.getLsbD 1) (f.fn.getLsbD 0) f.d f.a f.b (f.x.extractLsb' 0 8))
  | 0x0E => some (.idot2 c (f.fn.getLsbD 2) (f.fn.getLsbD 1) (f.fn.getLsbD 0) f.d f.a f.b (f.x.extractLsb' 0 8))
  | 0x0F => some (.imadw c (.ofCode (f.fn.extractLsb' 0 2)) (f.fn.getLsbD 2) f.d f.a (.dec f.b f.x))
  | 0x10 => some (.and c (.ofCode (f.fn.extractLsb' 0 2)) f.d f.a (.dec f.b f.x))
  | 0x11 => some (.or c (.ofCode (f.fn.extractLsb' 0 2)) f.d f.a (.dec f.b f.x))
  | 0x12 => some (.xor c (.ofCode (f.fn.extractLsb' 0 2)) f.d f.a (.dec f.b f.x))
  | 0x13 => some (.bool3 c (.ofCode (f.fn.extractLsb' 0 2)) f.d f.a f.b (f.x.extractLsb' 0 8) (f.x.extractLsb' 8 8))
  | 0x14 => some (.shl c (.ofCode (f.fn.extractLsb' 0 2)) f.d f.a (.dec f.b f.x))
  | 0x15 => some (.shr c (.ofCode (f.fn.extractLsb' 0 2)) f.d f.a (.dec f.b f.x))
  | 0x16 => some (.rot c (.ofCode (f.fn.extractLsb' 0 2)) f.d f.a (.dec f.b f.x))
  | 0x17 => (let w : Wid := .ofBit (f.x.getLsbD 20)
      let imm := f.x.getLsbD 18
      match f.fn.toNat with
      | 0 => some (.popc c w f.d f.a)
      | 1 => some (.clz c w f.d f.a)
      | 2 => some (.ctz c w f.d f.a)
      | 3 => some (.brev c w f.d f.a)
      | 4 => some (.bfx c w (f.x.getLsbD 19) f.d f.a
          (if imm then .imm (f.x.extractLsb' 6 7) (f.x.extractLsb' 0 6) else .reg f.b))
      | 5 => some (.bfi c w f.d f.a
          (if imm then .imm (f.x.extractLsb' 6 7) (f.x.extractLsb' 0 6) f.b
           else .reg f.b (f.x.extractLsb' 0 8)))
      | _ => none)
  | 0x18 => some (.icmp c (.ofCode (f.fn.extractLsb' 0 2)) (.ofCode (f.x.extractLsb' 17 3)) (f.d.extractLsb' 0 4) f.a
      (if f.x.getLsbD 20 then .imm (f.x.extractLsb' 0 17) else .reg f.b))
  | 0x19 => some (.fcmp c (.ofCode (f.fn.extractLsb' 0 2)) (f.x.extractLsb' 16 4) (f.d.extractLsb' 0 4) f.a
      (if f.x.getLsbD 20 then .imm (f.x.extractLsb' 0 16) (f.b.extractLsb' 0 4) else .reg f.b (f.x.extractLsb' 12 4)))
  | 0x1A => some (.plop c (f.d.extractLsb' 0 4) (f.a.extractLsb' 0 4) (f.b.extractLsb' 0 4) (f.x.extractLsb' 0 4) (f.x.extractLsb' 8 8))
  | 0x1B => some (.sel c (.ofCode (f.fn.extractLsb' 0 2)) f.d f.a
      (if f.x.getLsbD 20 then .imm (f.x.extractLsb' 0 20) (f.b.extractLsb' 0 4) else .reg f.b (f.x.extractLsb' 0 4)))
  | 0x1C => some (.pmov c (if f.fn.getLsbD 0 then .toPred f.a else .toReg f.d) (f.x.extractLsb' 0 16))
  | 0x1D => (match f.fn.toNat with
      | 0 => some (.vote p (.all (f.d.extractLsb' 0 4)) (f.a.extractLsb' 0 4))
      | 1 => some (.vote p (.any (f.d.extractLsb' 0 4)) (f.a.extractLsb' 0 4))
      | 2 => some (.vote p (.eq (f.d.extractLsb' 0 4)) (f.a.extractLsb' 0 4))
      | 3 => some (.vote p (.ballot f.d) (f.a.extractLsb' 0 4))
      | _ => none)
  | 0x1E => some (.fclass c (.ofCode (f.fn.extractLsb' 0 2)) f.d f.a)
  | 0x20 => some (.fadd c (.ofCode (f.fn.extractLsb' 0 2)) f.d f.a (.dec f.b f.x))
  | 0x21 => some (.fsub c (.ofCode (f.fn.extractLsb' 0 2)) f.d f.a (.dec f.b f.x))
  | 0x22 => some (.fmul c (.ofCode (f.fn.extractLsb' 0 2)) f.d f.a (.dec f.b f.x))
  | 0x23 => some (.ffma c (.ofCode (f.fn.extractLsb' 0 2)) f.d f.a (.dec f.b f.x))
  | 0x24 => some (.fmin c (.ofCode (f.fn.extractLsb' 0 2)) f.d f.a (.dec f.b f.x))
  | 0x25 => some (.fmax c (.ofCode (f.fn.extractLsb' 0 2)) f.d f.a (.dec f.b f.x))
  | 0x26 => some (.fdot2 c (.ofCode (f.fn.extractLsb' 0 2)) f.d f.a (.dec f.b f.x))
  | 0x27 => some (.fscale c (.ofCode (f.fn.extractLsb' 0 2)) (.ofCode (f.x.extractLsb' 18 2)) (.ofBits (f.x.extractLsb' 16 2)) f.d f.a f.b)
  | 0x28 => some (.frnd c (.ofCode (f.fn.extractLsb' 0 2)) (.ofCode (f.x.extractLsb' 18 2)) (.ofBits (f.x.extractLsb' 16 2)) f.d f.a)
  | 0x29 => some (.fclamp c (.ofCode (f.fn.extractLsb' 0 2)) f.d f.a (.dec f.b f.x))
  | 0x2A => some (.famax c (.ofCode (f.fn.extractLsb' 0 2)) f.d f.a (.dec f.b f.x))
  | 0x30 => some (.frcp c (.ofBits (f.x.extractLsb' 16 2)) f.d f.a)
  | 0x31 => some (.frsq c (.ofBits (f.x.extractLsb' 16 2)) f.d f.a)
  | 0x32 => some (.fsqrt c (.ofBits (f.x.extractLsb' 16 2)) f.d f.a)
  | 0x33 => some (.fexp2 c (.ofBits (f.x.extractLsb' 16 2)) f.d f.a)
  | 0x34 => some (.flog2 c (.ofBits (f.x.extractLsb' 16 2)) f.d f.a)
  | 0x35 => some (.fsin c (.ofBits (f.x.extractLsb' 16 2)) f.d f.a)
  | 0x36 => some (.fcos c (.ofBits (f.x.extractLsb' 16 2)) f.d f.a)
  | 0x37 => some (if f.fn.getLsbD 0 then .ftanh c (.ofBits (f.x.extractLsb' 16 2)) f.d f.a else .fsigm c (.ofBits (f.x.extractLsb' 16 2)) f.d f.a)
  | 0x38 => some (.cvt c
      (if f.fn.getLsbD 3 then .slot (f.fn.extractLsb' 0 3)
       else .fmt (f.x.extractLsb' 13 4) (.ofCode (f.x.extractLsb' 11 2)) (f.x.getLsbD 10))
      (f.x.extractLsb' 17 4) (f.x.extractLsb' 8 2) (f.x.extractLsb' 6 2) f.d f.a)
  | 0x39 => some (.npack c (f.fn.extractLsb' 0 3) f.d f.a f.b)
  | 0x3A => some (.nunpk c f.d f.a f.b)
  | 0x3B => some (.scaleq c (f.fn.extractLsb' 0 3) f.d f.a)
  | 0x3C => some (if f.x.getLsbD 0 then .sealRel c f.a else .seal c f.d f.a)
  | 0x3D => some (.hqry c f.d f.a (f.x.extractLsb' 0 4))
  | 0x40 => some (.mov c (.ofCode (f.fn.extractLsb' 0 2)) f.d (if f.x.getLsbD 20 then .imm (f.x.extractLsb' 0 20) else .reg f.a))
  | 0x41 => some (.shfl p (.ofBit (f.fn.getLsbD 3)) (.ofCode (f.fn.extractLsb' 0 2)) f.d f.a
      (if f.fn.getLsbD 2 then .imm (f.x.extractLsb' 0 6) else .reg f.b) (f.x.extractLsb' 12 3)
      (optPred (f.x.getLsbD 11) (f.x.extractLsb' 7 4)))
  | 0x42 => some (.bysel c f.d f.a f.b (if f.x.getLsbD 20 then .imm (f.x.extractLsb' 0 16) else .reg (f.x.extractLsb' 0 8)))
  | 0x43 => some (.sread c f.d (f.x.extractLsb' 0 8))
  | 0x44 => some (.swrite p (if f.x.getLsbD 8 then .group f.b else .core) f.a (f.x.extractLsb' 0 8))
  | 0x45 => some (.view p (.ofCode (f.fn.extractLsb' 0 2)) (if f.fn.getLsbD 2 then .imm (f.x.extractLsb' 0 16) else .reg f.a))
  | 0x46 => some (.segset p (.ofCode f.fn) f.d f.a f.b)
  | 0x47 => some (.rcopy p f.a f.b (f.x.extractLsb' 0 12))
  | 0x48 => some (.ld c (.dec f.fn f.x) f.d f.a)
  | 0x49 => some (.st c (.dec f.fn f.x) f.a f.b)
  | 0x4A => some (.ldf c (.dec f.fn f.x) f.d f.a f.b)
  | 0x4B => some (.stf c (.dec f.fn f.x) f.d f.a f.b)
  | 0x4C => some (.pref c (.dec f.fn f.x) f.a)
  | 0x4D => some (if f.fn.getLsbD 0 then .cinvNowb p f.d f.a f.b (f.x.extractLsb' 0 18) else .cinv p f.a f.b (f.x.extractLsb' 0 18))
  | 0x4E => some (.cflush p (.dec f.fn f.x) f.a)
  | 0x50 => some (.atom c (.dec f.fn f.x) (.ofCode (f.x.extractLsb' 14 4)) f.d f.a f.b)
  | 0x51 => some (.atcas c (.dec f.fn f.x) f.d f.a f.b)
  | 0x52 => some (.red c (.dec f.fn f.x) (.ofCode (f.x.extractLsb' 14 4)) f.a f.b)
  | 0x53 => some (.cadd c f.a f.b (f.x.extractLsb' 0 18))
  | 0x54 => some (.inkp c f.d f.a f.b (f.x.extractLsb' 0 8) (f.x.extractLsb' 8 13))
  | 0x55 => some (if f.fn.getLsbD 0 then .inkrG c f.d f.a (f.x.extractLsb' 0 8) (f.x.extractLsb' 8 13) else .inkrH c f.d f.a (f.x.extractLsb' 0 8) (f.x.extractLsb' 8 13))
  | 0x56 => some (.inkc c f.d f.a (f.x.extractLsb' 0 8) (f.x.extractLsb' 8 13))
  | 0x58 => some (.kick p f.a f.b)
  | 0x59 => some (.tlwait p f.a (f.x.extractLsb' 0 4))
  | 0x5A => some (.tlread p f.d (f.x.extractLsb' 0 4))
  | 0x5B => (match f.fn.toNat with
      | 0 => some (.boinit p f.a (f.x.extractLsb' 0 18))
      | 1 => some (.boarm p f.a f.b (f.x.extractLsb' 0 18))
      | 2 => some (.bowait p f.a (f.x.extractLsb' 0 18))
      | 3 => some (.botest p f.d f.a (f.x.extractLsb' 0 18))
      | _ => none)
  | 0x5C => some (.wreq p (.ofCode f.fn) f.d f.a (f.x.getLsbD 4) (f.x.extractLsb' 0 4))
  | 0x5D => some (.wqry p (.ofCode (f.x.extractLsb' 0 3)) f.d)
  | 0x5E => (let t := f.a.extractLsb' 0 6
      let n := f.x.extractLsb' 0 6
      match f.fn.toNat with
      | 0 => some (.wtagSetv p t n)
      | 1 => some (.wtagSetc p t n)
      | 2 => some (.wtagReset p t n)
      | 3 => some (.wtagWv p t n)
      | 4 => some (.wtagWc p t n)
      | 5 => some (.wtagRd p f.d t n)
      | _ => none)
  | 0x60 => some (.mma p (f.fn.extractLsb' 0 3) (.dec f.d) f.a f.b (f.x.getLsbD 0))
  | 0x61 => some (.mloop p (f.fn.extractLsb' 0 3) (.dec f.d) f.a f.b (.dec f.x))
  | 0x62 => some (.mzero p (.dec f.d) (f.x.extractLsb' 0 4))
  | 0x63 => some (.mdrain p (f.fn.getLsbD 3) (f.fn.extractLsb' 0 3) (.dec f.d) f.a)
  | 0x64 => some (.mloops p (f.fn.extractLsb' 0 3) (.dec f.d) f.a f.b (.dec f.x))
  | 0x65 => some (if f.fn.getLsbD 0 then .msyncMark p (f.d.extractLsb' 6 2) (f.x.extractLsb' 4 8) (f.x.extractLsb' 0 4) else .msyncWait p (f.x.extractLsb' 0 4))
  | 0x66 => some (.mldacc p (f.fn.extractLsb' 0 3) (.dec f.d) f.a)
  | 0x67 => (match f.fn.toNat with
      | 0 => some (.mstatRd p f.d)
      | 1 => some (.mstatClr p)
      | 2 => some (.mstatMeta p f.a (f.x.extractLsb' 0 2))
      | 3 => some (.mstatScale p f.a (f.x.extractLsb' 0 2))
      | _ => none)
  | 0x68 => (match (f.fn.extractLsb' 2 2).toNat with
      | 0 => some (.sacfgCtl p (f.fn.extractLsb' 0 2) f.a f.b)
      | 1 => some (.sacfgKey p (f.fn.extractLsb' 0 2) f.a f.b)
      | 2 => some (.sacfgSc p (f.fn.extractLsb' 0 2) f.a)
      | _ => some (.sacfgLink p (f.fn.extractLsb' 0 2) f.a))
  | 0x69 => some (.sald p (f.fn.extractLsb' 0 2) f.a f.b (.ofCode (f.x.extractLsb' 0 3)))
  | 0x6A => some (.saclamp p (f.fn.extractLsb' 0 2) f.a)
  | 0x6B => some (.saswp p (f.fn.extractLsb' 0 2) f.a (f.x.extractLsb' 4 8) (f.x.extractLsb' 0 4))
  | 0x6C => (match (f.x.extractLsb' 0 3).toNat with
      | 0 => some (.sardState p (f.fn.extractLsb' 0 2) f.d f.a)
      | 1 => some (.sardCnt p (f.fn.extractLsb' 0 2) f.d f.a)
      | 2 => some (.sardStat p (f.fn.extractLsb' 0 2) f.d)
      | 3 => some (.sardMon p (f.fn.extractLsb' 0 2) f.d)
      | _ => none)
  | 0x6D => some (.bra c f.x)
  | 0x6E => some (.brx c f.a)
  | 0x6F => some (if f.x.getLsbD 20 then .callInd c f.d f.a else .call c f.d (f.x.extractLsb' 0 20))
  | 0x70 => some (.ret c f.a)
  | 0x71 => some (.exit p)
  | 0x72 => some (.nop p)
  | 0x73 => some (.yield p)
  | 0x74 => (match f.fn.toNat with
      | 0 => some (.barTeam p)
      | 1 => some (.barSync p (f.x.extractLsb' 0 5) (f.x.extractLsb' 5 6))
      | 2 => some (.barArrive p (f.x.extractLsb' 0 5) (f.x.extractLsb' 5 6))
      | _ => none)
  | 0x75 => some (.phase p (.ofCode (f.fn.extractLsb' 0 3)))
  | 0x76 => some (.stage p)
  | 0x77 => some (.monw p f.a (f.x.extractLsb' 0 18))
  | 0x78 => some (.waitc p (f.x.extractLsb' 15 5) (f.x.extractLsb' 10 5) (f.x.extractLsb' 5 5) (f.x.extractLsb' 0 5))
  | 0x79 => some (.spawn p f.d f.a)
  | 0x7A => some (.jdec p f.d f.a f.b)
  | 0x7B => some (.tqry c f.d f.a)
  | 0x7C => some (if f.x.getLsbD 20 then .trapHnd p f.a f.b else .trap p (f.x.extractLsb' 0 20))
  | 0x7D => (match f.fn.toNat with
      | 0 => some (if f.x.getLsbD 0 then .objsetExt p f.d f.a f.b else .objsetDesc p f.d f.a f.b)
      | 1 => some (if f.x.getLsbD 0 then .objinvAll p f.d f.a else .objinv p f.d f.a)
      | 2 => some (.xmove p f.d f.a f.b)
      | 3 => (match (f.x.extractLsb' 0 2).toNat with
              | 0 => some (.quiesceDrain p f.d f.a)
              | 1 => some (.quiescePreempt p f.d f.a)
              | 2 => some (.quiesceResume p f.d f.a)
              | _ => none)
      | 4 => some (.gangsw p f.d f.a f.b)
      | 5 => some (.scanrun p f.d f.a f.b)
      | 6 => some (.dieoff p f.d f.a)
      | 7 => some (.dieon p f.d f.a)
      | 8 => some (if f.x.getLsbD 0 then .rpairDone p f.d f.a else .rpair p f.d f.a)
      | 9 => some (.cluoff p f.d f.a)
      | _ => none)
  | 0x7E => (match (f.x.extractLsb' 0 2).toNat with
      | 0 => some (.eretRetry p f.d f.a)
      | 1 => some (.eretSkip p f.d f.a)
      | 2 => some (.eretDeliver p f.d f.a)
      | _ => some (.eretKill p f.d f.a))
  | _ => none

/-- The fields of an instruction's full word, by the same tables; none for a pair word and for a
step that no word encodes. -/
def encodeFields : Instr → Option Fields
  | .iadd c ty sat d a s => some ⟨0x00, 0#1 ++ bit sat ++ ty.code, c.u, c.p.bits, d, a, s.enc.1, s.enc.2⟩
  | .isub c ty sat d a s => some ⟨0x01, 0#1 ++ bit sat ++ ty.code, c.u, c.p.bits, d, a, s.enc.1, s.enc.2⟩
  | .imul c ty sat d a s => some ⟨0x02, 0#1 ++ bit sat ++ ty.code, c.u, c.p.bits, d, a, s.enc.1, s.enc.2⟩
  | .imulh c ty d a s => some ⟨0x03, 0#2 ++ ty.code, c.u, c.p.bits, d, a, s.enc.1, s.enc.2⟩
  | .imad c ty sat d a s => some ⟨0x04, 0#1 ++ bit sat ++ ty.code, c.u, c.p.bits, d, a, s.enc.1, s.enc.2⟩
  | .imin c ty d a s => some ⟨0x05, 0#2 ++ ty.code, c.u, c.p.bits, d, a, s.enc.1, s.enc.2⟩
  | .imax c ty d a s => some ⟨0x06, 0#2 ++ ty.code, c.u, c.p.bits, d, a, s.enc.1, s.enc.2⟩
  | .idiv c ty d a s => some ⟨0x09, 0#2 ++ ty.code, c.u, c.p.bits, d, a, s.enc.1, s.enc.2⟩
  | .irem c ty d a s => some ⟨0x0A, 0#2 ++ ty.code, c.u, c.p.bits, d, a, s.enc.1, s.enc.2⟩
  | .lea c ty d a s => some ⟨0x0C, 0#2 ++ ty.code, c.u, c.p.bits, d, a, s.enc.1, s.enc.2⟩
  | .shl c ty d a s => some ⟨0x14, 0#2 ++ ty.code, c.u, c.p.bits, d, a, s.enc.1, s.enc.2⟩
  | .shr c ty d a s => some ⟨0x15, 0#2 ++ ty.code, c.u, c.p.bits, d, a, s.enc.1, s.enc.2⟩
  | .iabs c ty sat d a => some ⟨0x07, 0#1 ++ bit sat ++ ty.code, c.u, c.p.bits, d, a, 0, 0⟩
  | .ineg c ty sat d a => some ⟨0x08, 0#1 ++ bit sat ++ ty.code, c.u, c.p.bits, d, a, 0, 0⟩
  | .iaddc c w d a b pi po => some ⟨0x0B, 0#2 ++ w.code, c.u, c.p.bits, d, a, b, 0#1 ++ 0#7 ++ optEn pi ++ optNum pi ++ 0#4 ++ po⟩
  | .isubc c w d a b pi po => some ⟨0x0B, 0#2 ++ w.code, c.u, c.p.bits, d, a, b, 1#1 ++ 0#7 ++ optEn pi ++ optNum pi ++ 0#4 ++ po⟩
  | .idot4 c sat sb sa d a b cc => some ⟨0x0D, 0#1 ++ bit sat ++ bit sb ++ bit sa, c.u, c.p.bits, d, a, b, 0#13 ++ cc⟩
  | .idot2 c sat sb sa d a b cc => some ⟨0x0E, 0#1 ++ bit sat ++ bit sb ++ bit sa, c.u, c.p.bits, d, a, b, 0#13 ++ cc⟩
  | .imadw c ty sat d a s => some ⟨0x0F, 0#1 ++ bit sat ++ ty.code, c.u, c.p.bits, d, a, s.enc.1, s.enc.2⟩
  | .and c w d a s => some ⟨0x10, 0#2 ++ w.code, c.u, c.p.bits, d, a, s.enc.1, s.enc.2⟩
  | .or c w d a s => some ⟨0x11, 0#2 ++ w.code, c.u, c.p.bits, d, a, s.enc.1, s.enc.2⟩
  | .xor c w d a s => some ⟨0x12, 0#2 ++ w.code, c.u, c.p.bits, d, a, s.enc.1, s.enc.2⟩
  | .rot c w d a s => some ⟨0x16, 0#2 ++ w.code, c.u, c.p.bits, d, a, s.enc.1, s.enc.2⟩
  | .bool3 c w d a b cc lut => some ⟨0x13, 0#2 ++ w.code, c.u, c.p.bits, d, a, b, 0#5 ++ lut ++ cc⟩
  | .popc c w d a => some ⟨0x17, 0, c.u, c.p.bits, d, a, 0, w.bit64 ++ 0#20⟩
  | .clz c w d a => some ⟨0x17, 1, c.u, c.p.bits, d, a, 0, w.bit64 ++ 0#20⟩
  | .ctz c w d a => some ⟨0x17, 2, c.u, c.p.bits, d, a, 0, w.bit64 ++ 0#20⟩
  | .brev c w d a => some ⟨0x17, 3, c.u, c.p.bits, d, a, 0, w.bit64 ++ 0#20⟩
  | .bfx c w sgn d a s => some ⟨0x17, 4, c.u, c.p.bits, d, a, s.enc.1, w.bit64 ++ bit sgn ++ s.enc.2⟩
  | .bfi c w d a s => some ⟨0x17, 5, c.u, c.p.bits, d, a, s.enc.1, w.bit64 ++ 0#1 ++ s.enc.2⟩
  | .icmp c ty cond d a (.reg b) => some ⟨0x18, 0#2 ++ ty.code, c.u, c.p.bits, pfield d, a, b, 0#1 ++ cond.code ++ 0#17⟩
  | .icmp c ty cond d a (.imm v) => some ⟨0x18, 0#2 ++ ty.code, c.u, c.p.bits, pfield d, a, 0, 1#1 ++ cond.code ++ v⟩
  | .fcmp c ty cond d a (.reg b ps) => some ⟨0x19, 0#2 ++ ty.code, c.u, c.p.bits, pfield d, a, b, 0#1 ++ cond ++ ps ++ 0#12⟩
  | .fcmp c ty cond d a (.imm v ps) => some ⟨0x19, 0#2 ++ ty.code, c.u, c.p.bits, pfield d, a, pfield ps, 1#1 ++ cond ++ v⟩
  | .plop c d pa pb pc lut => some ⟨0x1A, 0, c.u, c.p.bits, pfield d, pfield pa, pfield pb, 0#5 ++ lut ++ 0#4 ++ pc⟩
  | .sel c w d a (.reg b k) => some ⟨0x1B, 0#2 ++ w.code, c.u, c.p.bits, d, a, b, 0#17 ++ k⟩
  | .sel c w d a (.imm v k) => some ⟨0x1B, 0#2 ++ w.code, c.u, c.p.bits, d, a, pfield k, 1#1 ++ v⟩
  | .pmov c (.toReg d) mask => some ⟨0x1C, 0, c.u, c.p.bits, d, 0, 0, 0#5 ++ mask⟩
  | .pmov c (.toPred a) mask => some ⟨0x1C, 1, c.u, c.p.bits, 0, a, 0, 0#5 ++ mask⟩
  | .vote p (.all d) pa => some ⟨0x1D, 0, false, p.bits, pfield d, pfield pa, 0, 0⟩
  | .vote p (.any d) pa => some ⟨0x1D, 1, false, p.bits, pfield d, pfield pa, 0, 0⟩
  | .vote p (.eq d) pa => some ⟨0x1D, 2, false, p.bits, pfield d, pfield pa, 0, 0⟩
  | .vote p (.ballot d) pa => some ⟨0x1D, 3, false, p.bits, d, pfield pa, 0, 0⟩
  | .fclass c ty d a => some ⟨0x1E, 0#2 ++ ty.code, c.u, c.p.bits, d, a, 0, 0⟩
  | .fadd c ty d a s => some ⟨0x20, 0#2 ++ ty.code, c.u, c.p.bits, d, a, s.enc.1, s.enc.2⟩
  | .fsub c ty d a s => some ⟨0x21, 0#2 ++ ty.code, c.u, c.p.bits, d, a, s.enc.1, s.enc.2⟩
  | .fmul c ty d a s => some ⟨0x22, 0#2 ++ ty.code, c.u, c.p.bits, d, a, s.enc.1, s.enc.2⟩
  | .ffma c ty d a s => some ⟨0x23, 0#2 ++ ty.code, c.u, c.p.bits, d, a, s.enc.1, s.enc.2⟩
  | .fmin c ty d a s => some ⟨0x24, 0#2 ++ ty.code, c.u, c.p.bits, d, a, s.enc.1, s.enc.2⟩
  | .fmax c ty d a s => some ⟨0x25, 0#2 ++ ty.code, c.u, c.p.bits, d, a, s.enc.1, s.enc.2⟩
  | .fdot2 c ty d a s => some ⟨0x26, 0#2 ++ ty.code, c.u, c.p.bits, d, a, s.enc.1, s.enc.2⟩
  | .fclamp c ty d a s => some ⟨0x29, 0#2 ++ ty.code, c.u, c.p.bits, d, a, s.enc.1, s.enc.2⟩
  | .famax c ty d a s => some ⟨0x2A, 0#2 ++ ty.code, c.u, c.p.bits, d, a, s.enc.1, s.enc.2⟩
  | .fscale c ty rm ma d a b => some ⟨0x27, 0#2 ++ ty.code, c.u, c.p.bits, d, a, b, fx1 rm ma⟩
  | .frnd c ty rm ma d a => some ⟨0x28, 0#2 ++ ty.code, c.u, c.p.bits, d, a, 0, fx1 rm ma⟩
  | .frcp c ma d a => some ⟨0x30, 0, c.u, c.p.bits, d, a, 0, fx1 .rne ma⟩
  | .frsq c ma d a => some ⟨0x31, 0, c.u, c.p.bits, d, a, 0, fx1 .rne ma⟩
  | .fsqrt c ma d a => some ⟨0x32, 0, c.u, c.p.bits, d, a, 0, fx1 .rne ma⟩
  | .fexp2 c ma d a => some ⟨0x33, 0, c.u, c.p.bits, d, a, 0, fx1 .rne ma⟩
  | .flog2 c ma d a => some ⟨0x34, 0, c.u, c.p.bits, d, a, 0, fx1 .rne ma⟩
  | .fsin c ma d a => some ⟨0x35, 0, c.u, c.p.bits, d, a, 0, fx1 .rne ma⟩
  | .fcos c ma d a => some ⟨0x36, 0, c.u, c.p.bits, d, a, 0, fx1 .rne ma⟩
  | .fsigm c ma d a => some ⟨0x37, 0, c.u, c.p.bits, d, a, 0, fx1 .rne ma⟩
  | .ftanh c ma d a => some ⟨0x37, 1, c.u, c.p.bits, d, a, 0, fx1 .rne ma⟩
  | .cvt c (.fmt df rm sat) sf sei dei d a => some ⟨0x38, 0, c.u, c.p.bits, d, a, 0, sf ++ df ++ rm.code ++ bit sat ++ sei ++ dei ++ 0#6⟩
  | .cvt c (.slot n) sf sei dei d a => some ⟨0x38, 1#1 ++ n, c.u, c.p.bits, d, a, 0, sf ++ 0#7 ++ sei ++ dei ++ 0#6⟩
  | .npack c slot d a b => some ⟨0x39, 0#1 ++ slot, c.u, c.p.bits, d, a, b, 0⟩
  | .nunpk c d a b => some ⟨0x3A, 0, c.u, c.p.bits, d, a, b, 0⟩
  | .scaleq c slot d a => some ⟨0x3B, 0#1 ++ slot, c.u, c.p.bits, d, a, 0, 0⟩
  | .seal c d a => some ⟨0x3C, 0, c.u, c.p.bits, d, a, 0, 0⟩
  | .sealRel c a => some ⟨0x3C, 0, c.u, c.p.bits, 0, a, 0, 1⟩
  | .hqry c d a q => some ⟨0x3D, 0, c.u, c.p.bits, d, a, 0, 0#17 ++ q⟩
  | .mov c w d (.reg a) => some ⟨0x40, 0#2 ++ w.code, c.u, c.p.bits, d, a, 0, 0⟩
  | .mov c w d (.imm v) => some ⟨0x40, 0#2 ++ w.code, c.u, c.p.bits, d, 0, 0, 1#1 ++ v⟩
  | .shfl p w mode d a (.reg b) sg pv => some ⟨0x41, w.bit64 ++ 0#1 ++ mode.code, false, p.bits, d, a, b, 0#6 ++ sg ++ optEn pv ++ optNum pv ++ 0#7⟩
  | .shfl p w mode d a (.imm k) sg pv => some ⟨0x41, w.bit64 ++ 1#1 ++ mode.code, false, p.bits, d, a, 0, 0#6 ++ sg ++ optEn pv ++ optNum pv ++ 0#1 ++ k⟩
  | .bysel c d a b (.reg cc) => some ⟨0x42, 0, c.u, c.p.bits, d, a, b, 0#13 ++ cc⟩
  | .bysel c d a b (.imm v) => some ⟨0x42, 0, c.u, c.p.bits, d, a, b, 1#1 ++ 0#4 ++ v⟩
  | .sread c d srn => some ⟨0x43, 0, c.u, c.p.bits, d, 0, 0, 0#13 ++ srn⟩
  | .swrite p (.group b) a srn => some ⟨0x44, 0, false, p.bits, 0, a, b, 0#12 ++ 1#1 ++ srn⟩
  | .swrite p .core a srn => some ⟨0x44, 0, false, p.bits, 0, a, 0, 0#13 ++ srn⟩
  | .view p k (.reg a) => some ⟨0x45, 0#2 ++ k.code, false, p.bits, 0, a, 0, 0⟩
  | .view p k (.imm v) => some ⟨0x45, 0#1 ++ 1#1 ++ k.code, false, p.bits, 0, 0, 0, 0#5 ++ v⟩
  | .segset p k d a b => some ⟨0x46, k.code, false, p.bits, d, a, b, 0⟩
  | .rcopy p a b rows => some ⟨0x47, 0, false, p.bits, 0, a, b, 0#9 ++ rows⟩
  | .ld c m d a => some ⟨0x48, m.fn, c.u, c.p.bits, d, a, 0, m.x⟩
  | .st c m a b => some ⟨0x49, m.fn, c.u, c.p.bits, 0, a, b, m.x⟩
  | .ldf c m d a b => some ⟨0x4A, m.fn, c.u, c.p.bits, d, a, b, m.x⟩
  | .stf c m d a b => some ⟨0x4B, m.fn, c.u, c.p.bits, d, a, b, m.x⟩
  | .pref c m a => some ⟨0x4C, m.fn, c.u, c.p.bits, 0, a, 0, m.x⟩
  | .cinv p a b ofs => some ⟨0x4D, 0, false, p.bits, 0, a, b, 0#3 ++ ofs⟩
  | .cinvNowb p d a b ofs => some ⟨0x4D, 1, false, p.bits, d, a, b, 0#3 ++ ofs⟩
  | .cflush p m a => some ⟨0x4E, m.fn, false, p.bits, 0, a, 0, m.x⟩
  | .atom c m op d a b => some ⟨0x50, m.fn, c.u, c.p.bits, d, a, b, m.x op.code⟩
  | .atcas c m d a b => some ⟨0x51, m.fn, c.u, c.p.bits, d, a, b, m.x 0⟩
  | .red c m op a b => some ⟨0x52, m.fn, c.u, c.p.bits, 0, a, b, m.x op.code⟩
  | .cadd c a b ofs => some ⟨0x53, 0, c.u, c.p.bits, 0, a, b, 0#3 ++ ofs⟩
  | .inkp c d a b cc cell => some ⟨0x54, 0, c.u, c.p.bits, d, a, b, cell ++ cc⟩
  | .inkrG c d a cc cell => some ⟨0x55, 1, c.u, c.p.bits, d, a, 0, cell ++ cc⟩
  | .inkrH c d a cc cell => some ⟨0x55, 0, c.u, c.p.bits, d, a, 0, cell ++ cc⟩
  | .inkc c d a cc cell => some ⟨0x56, 0, c.u, c.p.bits, d, a, 0, cell ++ cc⟩
  | .kick p a b => some ⟨0x58, 0, false, p.bits, 0, a, b, 0⟩
  | .tlwait p a tl => some ⟨0x59, 0, false, p.bits, 0, a, 0, 0#17 ++ tl⟩
  | .tlread p d tl => some ⟨0x5A, 0, false, p.bits, d, 0, 0, 0#17 ++ tl⟩
  | .boinit p a ofs => some ⟨0x5B, 0, false, p.bits, 0, a, 0, 0#3 ++ ofs⟩
  | .boarm p a b ofs => some ⟨0x5B, 1, false, p.bits, 0, a, b, 0#3 ++ ofs⟩
  | .bowait p a ofs => some ⟨0x5B, 2, false, p.bits, 0, a, 0, 0#3 ++ ofs⟩
  | .botest p d a ofs => some ⟨0x5B, 3, false, p.bits, d, a, 0, 0#3 ++ ofs⟩
  | .wreq p role d a df tl => some ⟨0x5C, role.code, false, p.bits, d, a, 0, 0#16 ++ bit df ++ tl⟩
  | .wqry p role d => some ⟨0x5D, 0, false, p.bits, d, 0, 0, 0#18 ++ role.code⟩
  | .wtagSetv p t cnt => some ⟨0x5E, 0, false, p.bits, 0, 0#2 ++ t, 0, 0#15 ++ cnt⟩
  | .wtagSetc p t cnt => some ⟨0x5E, 1, false, p.bits, 0, 0#2 ++ t, 0, 0#15 ++ cnt⟩
  | .wtagReset p t cnt => some ⟨0x5E, 2, false, p.bits, 0, 0#2 ++ t, 0, 0#15 ++ cnt⟩
  | .wtagWv p t cnt => some ⟨0x5E, 3, false, p.bits, 0, 0#2 ++ t, 0, 0#15 ++ cnt⟩
  | .wtagWc p t cnt => some ⟨0x5E, 4, false, p.bits, 0, 0#2 ++ t, 0, 0#15 ++ cnt⟩
  | .wtagRd p d t cnt => some ⟨0x5E, 5, false, p.bits, d, 0#2 ++ t, 0, 0#15 ++ cnt⟩
  | .mma p slot t a b sp => some ⟨0x60, 0#1 ++ slot, false, p.bits, t.d, a, b, 0#20 ++ bit sp⟩
  | .mloop p slot t a b m => some ⟨0x61, 0#1 ++ slot, false, p.bits, t.d, a, b, m.x⟩
  | .mloops p slot t a b m => some ⟨0x64, 0#1 ++ slot, false, p.bits, t.d, a, b, m.x⟩
  | .mzero p t cnt => some ⟨0x62, 0, false, p.bits, t.d, 0, 0, 0#17 ++ cnt⟩
  | .mdrain p zr slot t a => some ⟨0x63, bit zr ++ slot, false, p.bits, t.d, a, 0, 0⟩
  | .mldacc p slot t a => some ⟨0x66, 0#1 ++ slot, false, p.bits, t.d, a, 0, 0⟩
  | .msyncWait p mask => some ⟨0x65, 0, false, p.bits, 0, 0, 0, 0#17 ++ mask⟩
  | .msyncMark p q tinc tl => some ⟨0x65, 1, false, p.bits, q ++ 0#6, 0, 0, 0#9 ++ tinc ++ tl⟩
  | .mstatRd p d => some ⟨0x67, 0, false, p.bits, d, 0, 0, 0⟩
  | .mstatClr p => some ⟨0x67, 1, false, p.bits, 0, 0, 0, 0⟩
  | .mstatMeta p a q => some ⟨0x67, 2, false, p.bits, 0, a, 0, 0#19 ++ q⟩
  | .mstatScale p a q => some ⟨0x67, 3, false, p.bits, 0, a, 0, 0#19 ++ q⟩
  | .sacfgCtl p arr a b => some ⟨0x68, 0#2 ++ arr, false, p.bits, 0, a, b, 0⟩
  | .sacfgKey p arr a b => some ⟨0x68, 1#2 ++ arr, false, p.bits, 0, a, b, 0⟩
  | .sacfgSc p arr a => some ⟨0x68, 2#2 ++ arr, false, p.bits, 0, a, 0, 0⟩
  | .sacfgLink p arr a => some ⟨0x68, 3#2 ++ arr, false, p.bits, 0, a, 0, 0⟩
  | .sald p arr a b r => some ⟨0x69, 0#2 ++ arr, false, p.bits, 0, a, b, 0#18 ++ r.code⟩
  | .saclamp p arr a => some ⟨0x6A, 0#2 ++ arr, false, p.bits, 0, a, 0, 0⟩
  | .saswp p arr a tinc tl => some ⟨0x6B, 0#2 ++ arr, false, p.bits, 0, a, 0, 0#9 ++ tinc ++ tl⟩
  | .sardState p arr d a => some ⟨0x6C, 0#2 ++ arr, false, p.bits, d, a, 0, 0⟩
  | .sardCnt p arr d a => some ⟨0x6C, 0#2 ++ arr, false, p.bits, d, a, 0, 1⟩
  | .sardStat p arr d => some ⟨0x6C, 0#2 ++ arr, false, p.bits, d, 0, 0, 2⟩
  | .sardMon p arr d => some ⟨0x6C, 0#2 ++ arr, false, p.bits, d, 0, 0, 3⟩
  | .bra c ofs => some ⟨0x6D, 0, c.u, c.p.bits, 0, 0, 0, ofs⟩
  | .brx c a => some ⟨0x6E, 0, c.u, c.p.bits, 0, a, 0, 0⟩
  | .call c d ofs => some ⟨0x6F, 0, c.u, c.p.bits, d, 0, 0, 0#1 ++ ofs⟩
  | .callInd c d a => some ⟨0x6F, 0, c.u, c.p.bits, d, a, 0, 1#1 ++ 0#20⟩
  | .ret c a => some ⟨0x70, 0, c.u, c.p.bits, 0, a, 0, 0⟩
  | .exit p => some ⟨0x71, 0, false, p.bits, 0, 0, 0, 0⟩
  | .nop p => some ⟨0x72, 0, false, p.bits, 0, 0, 0, 0⟩
  | .yield p => some ⟨0x73, 0, false, p.bits, 0, 0, 0, 0⟩
  | .stage p => some ⟨0x76, 0, false, p.bits, 0, 0, 0, 0⟩
  | .barTeam p => some ⟨0x74, 0, false, p.bits, 0, 0, 0, 0⟩
  | .barSync p id cnt => some ⟨0x74, 1, false, p.bits, 0, 0, 0, 0#10 ++ cnt ++ id⟩
  | .barArrive p id cnt => some ⟨0x74, 2, false, p.bits, 0, 0, 0, 0#10 ++ cnt ++ id⟩
  | .phase p sc => some ⟨0x75, 0#1 ++ sc.code, false, p.bits, 0, 0, 0, 0⟩
  | .monw p a ofs => some ⟨0x77, 0, false, p.bits, 0, a, 0, 0#3 ++ ofs⟩
  | .waitc p nld nst ncp ntl => some ⟨0x78, 0, false, p.bits, 0, 0, 0, 0#1 ++ nld ++ nst ++ ncp ++ ntl⟩
  | .spawn p d a => some ⟨0x79, 0, false, p.bits, d, a, 0, 0⟩
  | .jdec p d a b => some ⟨0x7A, 0, false, p.bits, d, a, b, 0⟩
  | .tqry c d a => some ⟨0x7B, 0, c.u, c.p.bits, d, a, 0, 0⟩
  | .trap p code => some ⟨0x7C, 0, false, p.bits, 0, 0, 0, 0#1 ++ code⟩
  | .trapHnd p a b => some ⟨0x7C, 0, false, p.bits, 0, a, b, 1#1 ++ 0#20⟩
  | .objsetDesc p d a b => some ⟨0x7D, 0, false, p.bits, d, a, b, 0⟩
  | .objsetExt p d a b => some ⟨0x7D, 0, false, p.bits, d, a, b, 1⟩
  | .objinv p d a => some ⟨0x7D, 1, false, p.bits, d, a, 0, 0⟩
  | .objinvAll p d a => some ⟨0x7D, 1, false, p.bits, d, a, 0, 1⟩
  | .xmove p d a b => some ⟨0x7D, 2, false, p.bits, d, a, b, 0⟩
  | .quiesceDrain p d a => some ⟨0x7D, 3, false, p.bits, d, a, 0, 0⟩
  | .quiescePreempt p d a => some ⟨0x7D, 3, false, p.bits, d, a, 0, 1⟩
  | .quiesceResume p d a => some ⟨0x7D, 3, false, p.bits, d, a, 0, 2⟩
  | .gangsw p d a b => some ⟨0x7D, 4, false, p.bits, d, a, b, 0⟩
  | .scanrun p d a b => some ⟨0x7D, 5, false, p.bits, d, a, b, 0⟩
  | .dieoff p d a => some ⟨0x7D, 6, false, p.bits, d, a, 0, 0⟩
  | .dieon p d a => some ⟨0x7D, 7, false, p.bits, d, a, 0, 0⟩
  | .cluoff p d a => some ⟨0x7D, 9, false, p.bits, d, a, 0, 0⟩
  | .rpair p d a => some ⟨0x7D, 8, false, p.bits, d, a, 0, 0⟩
  | .rpairDone p d a => some ⟨0x7D, 8, false, p.bits, d, a, 0, 1⟩
  | .eretRetry p d a => some ⟨0x7E, 0, false, p.bits, d, a, 0, 0⟩
  | .eretSkip p d a => some ⟨0x7E, 0, false, p.bits, d, a, 0, 1⟩
  | .eretDeliver p d a => some ⟨0x7E, 0, false, p.bits, d, a, 0, 2⟩
  | .eretKill p d a => some ⟨0x7E, 0, false, p.bits, d, a, 0, 3⟩
  | _ => none

/-- The instruction's 64-bit word (R24, R32); none for a step that no word encodes. -/
def encode (i : Instr) : Option DWord :=
  match i.halves with
  | some (up, low) => some (pairWord up low)
  | none => (encodeFields i).map Fields.word

/-- The step is one that an instruction word encodes. -/
def Instr.encodable (i : Instr) : Bool := (encode i).isSome

/-- What the fields of a word name, before the checks of R43 (R23). -/
def parse (w : DWord) : Option Instr :=
  if w.getLsbD 63 then parsePair w else parseFull (.ofWord w)

/-- The decoder (R43, R44): ILLEGAL_OP first, then ILLEGAL_PAIR. -/
def decode (w : DWord) : Except DecodeError Instr :=
  match parse w with
  | some i =>
      if encode i == some w && i.fieldsOk then
        if i.pairingOk then .ok i else .error .illegalPair
      else .error .illegalOp
  | none => .error .illegalOp

/-- The word that the host's table numbers give: a row of 32 bits is one pair half. Bit 31 of a
half is FMT in the upper half and reserved in the lower, so a half stands here as the upper half of
a pair word whose lower half is all zero, the half NOP (R32, R33). Wider rows are whole words. -/
def tableWord (nbits w : Nat) : DWord :=
  if nbits ≤ 32 then 1#1 ++ BitVec.ofNat 31 w ++ 0#32 else BitVec.ofNat 64 w

/-- The instruction the decoder reads from a table row's word. -/
def decodeTableWord (nbits w : Nat) : Option Instr := (decode (tableWord nbits w)).toOption

end Sys2Proof
end

