-- ==== Sys2Proof/Machine/State.lean ====
section
/-! DEFINITION. The state of the device: everything spec/ names, as plain data. Tables are lists of
(key, value) pairs in rising key order; a key that is not listed reads as the default its reader
names. Memory lists (address, byte) pairs in rising address order and lists no zero byte. -/

namespace Sys2Proof.Machine

/-- Why the machine can stop with a fault. -/
inductive Fault where
  /-- Raised by every instruction's meaning when `cur` names no group: the device has no such
  agent, and nothing in the spec issues for it. Safe: the model stops. -/
  | noAgent
  deriving DecidableEq, Repr

/-- Why the machine can refuse. -/
inductive Refusal where
  /-- Raised by the dispatcher for an instruction that has no meaning yet. Safe. -/
  | notModelled (mnemonic : String)
  deriving DecidableEq, Repr

/-- A table by number. -/
abbrev Tab (α : Type) := List (Nat × α)

/-- A 128-byte line or Well row. -/
abbrev Line := BitVec 1024

/-- One bit per byte of a line. -/
abbrev LineMask := BitVec 128

/-- One bit per lane of a group. -/
abbrev LaneMask := BitVec 64

/-- Device memory: (address, byte) pairs, addresses strictly rising, no zero byte listed. -/
abbrev Memory := List Host.Cell

/-- A quantity for each Well role of R141. -/
structure Roles (α : Type) where
  reg : α
  mat : α
  scr : α
  fifo : α
  shadow : α
  cache : α
  deriving DecidableEq, Repr

/-- The causes of R374, in code order from 0x00. -/
inductive Cause where
  | none | illegalOp | illegalPair | privileged | misaligned | regBounds | segLimit | objNull
  | objBounds | objRights | extAbsent | ueConsumed | homeOffline | sealBad | bobjOrphan
  | tagProtocol | fifoProtocol | stageOvf | detConflict | inkRights | saBias | saWrap
  | saBoundary | peerDead | trapSw | uMismatch
  deriving DecidableEq, Repr

/-- The kinds of an error record (R372). -/
inductive RecKind where
  | trap | topology | waybill | storeUe | health
  deriving DecidableEq, Repr

/-- The actions of ERET (R375). -/
inductive ErAct where
  | retry | skip | deliver | kill
  deriving DecidableEq, Repr

/-- A trap record (R372). -/
structure TrapRec where
  cause : Cause
  async : Bool
  logged : Bool
  fatal : Bool
  rolled : Bool
  kind : RecKind
  act : ErAct
  lane : BitVec 6
  gslot : BitVec 6
  ctx : BitVec 3
  pc : DWord
  iword : DWord
  addr : DWord
  team : BitVec 24
  gidx : BitVec 5
  aux : BitVec 20
  waybill : DWord
  gtime : DWord
  rpc : DWord
  deriving DecidableEq, Repr

/-- A segment register (R164). -/
structure Seg where
  base : BitVec 22
  size : BitVec 22
  deriving DecidableEq, Repr

/-- The view registers (R166). -/
structure Views where
  vec : Word
  tile : Word
  acc : Word
  deriving DecidableEq, Repr

/-- A thread's captured loop (R331): the words from `lo` to `hi`. -/
structure LoopBuf where
  lo : DWord
  hi : DWord
  words : List DWord
  deriving DecidableEq, Repr

/-- Named forms of BAR (R346). -/
inductive BarKind where
  | team | sync | arrive
  deriving DecidableEq, Repr

/-- What a MONW is parked on (R349): a watch, a version of the core's copy, or a watch on a line
homed on another die. -/
inductive Monitor where
  | watch | copy (line : Nat) (ver : Word) | remote (line : Nat)
  deriving DecidableEq, Repr

/-- Thread states (R329); buffer-served and yielded threads are running threads with a buffer or a
yield mark. `held` is parked at a BAR with that instruction's form, ID and CNT, `mon` parked in a
MONW on what it monitors. -/
inductive LState where
  | run
  | held (kind : BarKind) (id cnt : Nat)
  | mon (m : Monitor)
  | exited
  deriving DecidableEq, Repr

/-- A thread (R328, R329). -/
structure Lane where
  pc : DWord
  st : LState
  yielded : Bool
  buf : Option LoopBuf
  deriving DecidableEq, Repr

/-- Wait-counter classes (R37). -/
inductive WClass where
  | ld | st | cp | tl
  deriving DecidableEq, Repr

/-- The four wait counters (R37, R38). -/
structure Counters where
  ld : Nat
  st : Nat
  cp : Nat
  tl : Nat
  deriving DecidableEq, Repr

/-- Accumulator state outside its bytes (R260). -/
structure Acc where
  z : Bool
  rowf : BitVec 64
  colf : BitVec 64
  deriving DecidableEq, Repr

/-- A barrier arrival that waits for its round (R347, R348). -/
structure BarArr where
  kind : BarKind
  id : Nat
  round : Nat
  pc : DWord
  deriving DecidableEq, Repr

/-- What a stage head, or the start of a recovery interval, records (R338, R344, R348). -/
structure Head where
  pcs : List DWord
  rc : BitVec 24
  accs : List Acc
  bar : Option BarArr
  deriving DecidableEq, Repr

/-- The kinds of memory operation that can wait: the instructions R78 names, and CFLUSH and CINV. -/
inductive MemKind where
  | ld | st | ldf | stf | atom (op : AOp) | atcas | red (op : AOp) | cadd | ink (op : InkOp) | flush
  deriving DecidableEq, Repr

/-- One lane's access of an operation: `j` counts LDF and STF elements; `data` is what is stored
or the atomic's operand, `cmp` ATCAS's compare value or an ink generation; `dev` an ink device. -/
structure Elem where
  lane : Nat
  j : Nat
  ptr : DWord
  pa : Nat
  data : BitVec 128
  cmp : DWord
  dev : Nat
  deriving DecidableEq, Repr

/-- A memory operation with the values of all its register sources (R78). -/
structure MemReq where
  kind : MemKind
  nt : Bool
  u : Bool
  size : ASize
  dest : Nat
  lanes : LaneMask
  elems : List Elem
  deriving DecidableEq, Repr

/-- An operation in flight or in the operand log: identity, class, place in the program, and whether
it came from the log. -/
structure Flight where
  id : Nat
  cls : WClass
  pc : DWord
  iword : DWord
  mask : LaneMask
  req : MemReq
  logged : Bool
  deriving DecidableEq, Repr

/-- The state of an operand log entry (R78, R81): waiting on the absent extent of object `on`,
ready to replay, held by its own pending trap, held until another pending trap has ended, or held after
HOME_OFFLINE until a die returns. -/
inductive LogState where
  | waiting (on ext : Nat) | ready | trapped | shed | offline
  deriving DecidableEq, Repr

/-- An operand log entry (R78). -/
structure LogEntry where
  op : Flight
  st : LogState
  deriving DecidableEq, Repr

/-- A register the scoreboard holds pending (R36), by window byte offset of the register and the
operation it waits for. -/
structure Pending where
  reg : Nat
  id : Nat
  deriving DecidableEq, Repr

/-- A watch (R117); `seq` is the number of the request that left it on another device. -/
structure Watch where
  dev : Nat
  ptr : DWord
  gen : Word
  noticed : Bool
  seq : Nat := 0
  deriving DecidableEq, Repr

/-- An element's exact sum in a step under way (R261): its index, and S = n × 2^e. -/
structure MSum where
  idx : Nat
  n : Int
  e : Int
  deriving DecidableEq, Repr

/-- MMA, MLOOP or MLOOPS as queued (R274): format, step count and strides, fragment starts (window
offsets, or scratchpad addresses with `scr`), the records it captured, the step it is at and, once
that step has read its operands, the sums not yet added. -/
structure MSteps where
  fmt : Nat
  sp : Bool
  scr : Bool
  k : Nat
  sa : Nat
  sb : Nat
  a : Nat
  b : Nat
  mrec : DWord
  srec : DWord
  next : Nat
  sums : Option (List MSum)
  deriving DecidableEq, Repr

/-- A write into a row of a group's window, by number: the bytes still to be written, and all that the
operation writes there. -/
structure RowWrite where
  row : Nat
  data : Line
  left : LineMask
  full : LineMask
  deriving DecidableEq, Repr

/-- A queued matrix operation (R274 to R278); `rest` is one that has written some of its words (R39):
what it has still to write, the accumulators whose flags then fall, and what Z becomes there. -/
inductive MOpKind where
  | steps (q : MSteps)
  | zero (cnt : Nat)
  | drain (slot : DWord) (sl : Nat) (zr : Bool) (dst : Nat) (rc : BitVec 24)
  | ldacc (slot : DWord) (sl src : Nat) (rc : BitVec 24)
  | mark (tinc : BitVec 8) (tl : BitVec 4)
  | rest (ws : List RowWrite) (blocks : List Nat) (z : Option Bool)
  deriving DecidableEq, Repr

/-- A matrix operation on its stream, with the addresses its names resolved to at issue (R167);
`seq` orders the operations of all streams of the group. -/
structure MOp where
  kind : MOpKind
  acc : Nat
  seq : Nat
  pc : DWord
  iword : DWord
  lane : Nat
  views : Views
  deriving DecidableEq, Repr

/-- The instruction that parks a whole group (R155, R137, R351): it is issued again, with its own
threads, until it completes. -/
structure Park where
  mask : LaneMask
  pc : DWord
  iword : DWord
  deriving DecidableEq, Repr

/-- A stage that is closing (R340): `wait` while a BAR's arrival is still to be counted (R348). -/
inductive Closing where
  | none | stage | wait
  deriving DecidableEq, Repr

/-- How a round of a barrier object ended for a group parked on it (R136, R137). -/
inductive BoEnd where
  | released | broken | failed
  deriving DecidableEq, Repr

/-- A group of threads (R328): its registers are Well rows, reached through its window. `deliver` is
a trap to be delivered once the stage closes: handler, record address, record (R379); `parkBo` the
barrier object a BOWAIT is parked on and what has happened there since; `logStall` the absent extent
(object, index) of an instruction that waits for an operand log entry (R79); `epoch` how often its wait
counters were set to zero (R343); `asyncRec` an asynchronous trap raised while the group had no slot,
which it takes before its next issue (R373). -/
structure Group where
  ctx : Nat
  team : Nat
  gidx : Nat
  width : Nat
  segReg : Seg
  segMat : Seg
  views : Views
  slots : List DWord
  lanes : List Lane
  cnt : Counters
  pend : List Pending
  head : Head
  ihead : Head
  rc : BitVec 24
  stageOvf : Bool
  detSticky : BitVec 2
  det : Bool
  dbg : Bool
  log : List LogEntry
  flight : List Flight
  nextId : Nat
  mstat : BitVec 3
  mrecs : List DWord
  srecs : List DWord
  streams : List (List MOp)
  accs : List Acc
  tilesRead : List Nat
  watch : Option Watch
  handler : Option (DWord × Word)
  deliver : Option (DWord × Nat × List DWord)
  trap : Bool
  trapMask : LaneMask
  closing : Closing
  bar : Option BarArr
  arrWait : Option (Nat × Nat)
  parked : Option Park
  parkBo : Option (Nat × Option BoEnd)
  logStall : Option (Nat × Nat)
  epoch : Nat
  asyncRec : Option TrapRec
  bufTurn : Bool
  bufNext : Nat
  fw : Bool
  fwRegs : Tab Word
  fwPred : BitVec 16
  deriving DecidableEq, Repr

/-- An undo line's key (R339): a register row by role address, or a scratchpad line of a core's
team. -/
inductive UKey where
  | row (role : Bool) (addr : Nat)
  | scr (core team line : Nat)
  deriving DecidableEq, Repr

/-- An undo line in SHADOW (R339, R140): owner, prior contents, the bytes the copy engine wrote
since, the SHADOW row that holds it, and which of stage and interval it serves. -/
structure Undo where
  slot : Nat
  team : Nat
  key : UKey
  data : Line
  engine : LineMask
  place : Nat
  time : Nat
  stage : Bool
  interval : Bool
  deriving DecidableEq, Repr

/-- A team's holdings on one core (R145, R153). -/
structure Allot where
  min : Roles Nat
  granted : Roles Nat
  scr : List Nat
  last : Roles Nat
  deriving DecidableEq, Repr

/-- A sector, by the space it lies in: device memory, or a core's Well (R103). -/
structure Sector where
  well : Option Nat
  num : Nat
  deriving DecidableEq, Repr

/-- A consumption of poison that awaits its rollback or its kill (R344): the sector, the consuming
group's place, the record, and whether the consumer's stage had overflowed. -/
structure Ue where
  sector : Sector
  core : Nat
  slot : Nat
  record : TrapRec
  ovf : Bool
  deriving DecidableEq, Repr

/-- The ceilings firmware sets for a team (R152): on its total over all roles, and on its allotment in
a role, none where it sets none. -/
structure Ceiling where
  total : Nat
  role : Roles (Option Nat)
  deriving DecidableEq, Repr

/-- A team (R328, R344, R347). `rolling` is a consumption of poison not yet answered, `dying` a kill
not yet carried out: both wait as R340 and R343 give. -/
structure Team where
  ctx : Nat
  grid : Nat
  tid : Nat
  cores : List Nat
  cset : Option Nat
  live : Bool
  dead : Bool
  ended : Nat
  allots : Tab Allot
  barRound : Nat
  barIn : List (Nat × Nat)
  intOvf : Bool
  committed : Bool
  ueSectors : List Sector
  rolling : Option Ue
  dying : Bool
  ceil : Ceiling
  deriving DecidableEq, Repr

/-- The fields of a launch record a grid keeps (R357). -/
structure Launch where
  slots : List DWord
  views : Views
  segReg : Nat
  segMat : Nat
  wmin : Roles Nat
  deriving DecidableEq, Repr

/-- A grid: the running form of a waybill (R365), with the hint list it applies (R364) and its
certification (R390, R391). -/
structure Grid where
  ctx : Nat
  wb : DWord
  code : DWord
  frame : DWord
  nteam : Nat
  gpt : Nat
  width : Nat
  eclass : Nat
  det : Bool
  pair : Bool
  cset : Bool
  lcnt : Nat
  launch : Launch
  lmap : List Nat
  hints : List Word
  lastOn : Tab Nat
  cmask : BitVec 64
  suspect : Bool
  complete : Bool
  provisional : Bool
  deriving DecidableEq, Repr

/-- A named barrier of a core (R347). -/
structure NBar where
  count : Nat
  arrived : Nat
  round : Nat
  deriving DecidableEq, Repr

/-- A FIFO queue (R157): its control record's fields and its entries' head, in entries. -/
structure Fifo where
  base : Nat
  depth : Nat
  esz : Nat
  en : Bool
  count : Nat
  head : Nat
  deriving DecidableEq, Repr

/-- A sealed handle (R220). -/
structure Handle where
  team : Nat
  words : List DWord
  slot : DWord
  deriving DecidableEq, Repr

/-- An L1 copy of a line (R93, R302): `way` is the CACHE slot; `ver` is none for a copy of another
die's line and for a partial line; `full` tells a copy filled from home from a partial line; `sent` marks
bytes on their way home, in publications of which `out` are not yet matched with their versions, and `nt`
bytes that non-temporal stores have put into the copy. -/
structure L1Line where
  line : Nat
  way : Nat
  data : Line
  valid : LineMask
  dirty : LineMask
  ver : Option Word
  full : Bool
  drop : Bool
  mark : Bool
  poison : BitVec 4
  age : Nat
  host : Bool
  sent : LineMask := 0
  out : Nat := 0
  nt : LineMask := 0
  deriving DecidableEq, Repr

/-- An inbox entry (R95); `poison` marks the sectors whose bytes are the poison pattern (R103), `gap` an
entry whose merged updates do not follow one another. -/
structure Inbox where
  line : Nat
  mask : LineMask
  data : Line
  old : Word
  new : Word
  poison : BitVec 4
  gap : Bool := false
  deriving DecidableEq, Repr

/-- A decided copy (R115): `way` is an L1 CACHE slot, or none for a die's L2. -/
structure Decided where
  ctx : Nat
  dev : Nat
  ptr : DWord
  gen : Word
  w0 : DWord
  w1 : DWord
  way : Option Nat
  deriving DecidableEq, Repr

/-- A pinned commutative partial line (R97): open and published partials per element. -/
structure Partial where
  line : Nat
  efmt : BitVec 2
  o : Tab Word
  p : Tab Word
  used : Nat
  way : Nat
  deriving DecidableEq, Repr

/-- A conflict signature (R405): the word's key (a physical word or a scratchpad word), writer,
reader (group slot plus 1; 0 none), many readers. `who` names the groups' keys. -/
structure Sig where
  wr : Nat
  rd : Nat
  mr : Bool
  deriving DecidableEq, Repr

/-- A deferred WREQ (R153). -/
structure Deferred where
  team : Nat
  role : WRole
  k : Int
  tl : BitVec 4
  deriving DecidableEq, Repr

/-- A queued copy request (R123, R125): the four words, who kicked it and what it captured: handles,
the descriptors its check passed with (R74), the segment, RC. `epoch` is the group's at KICK; `old` is
set when an OBJINV removes a descriptor it uses (R89), `toClear` lists the receivers' lines whose
presence bits it has still to clear (R131). -/
structure CopyReq where
  seq : Nat
  slot : Nat
  team : Nat
  ctx : Nat
  gid : Nat
  words : List DWord
  seg : Seg
  hsrc : Option Handle
  hdst : Option Handle
  pc : DWord
  iword : DWord
  idx : Nat
  rc : BitVec 24
  gidx : Nat
  width : Nat
  clr : List (Nat × Nat)
  dsrc : Option (DWord × DWord)
  ddst : Option (DWord × DWord)
  epoch : Nat
  old : Bool
  toClear : List (Nat × Nat)
  deriving DecidableEq, Repr

/-- Where bytes of a transfer go (R123, R124). -/
inductive DstByte where
  | glb (ptr : DWord)
  | scr (core team addr : Nat)
  | reg (ofs : Nat)
  deriving DecidableEq, Repr

/-- One piece of a transfer, at most 128 bytes in one line of one receiver (R136); `poison` marks the
line's sectors that take the poison pattern (R103), `count` the pieces a barrier object counts, `sent`
when it was sent (R6). -/
structure Piece where
  recv : Nat
  dst : DstByte
  bytes : List Byte
  poison : BitVec 4
  count : Bool
  sent : Nat := 0
  deriving DecidableEq, Repr

/-- A request the engine has started (R127, R133, R134): how many of its parts are read, its pieces
not yet arrived; `paused` names the absent extent it waits for, `cause` why it must fail, `addr` the
pointer or sector where it paused or failed; `opened` the tiles WCON has opened. -/
structure Transfer where
  req : CopyReq
  next : Nat
  pieces : List Piece
  paused : Option (Nat × Nat)
  cause : Cause
  addr : DWord
  failed : Bool
  opened : List Nat
  deriving DecidableEq, Repr

/-- A command of a stipple array's queue (R292). -/
inductive ACmdKind where
  | ctl (word beta : Word)
  | key (k : BitVec 128) (aid : BitVec 10)
  | sc (v : BitVec 48)
  | link (word : Word) (peer : Nat)
  | load (r : SaRegion) (addr first count : Nat)
  | clamp (ops : List Word)
  | sweep (left : Nat) (tinc : BitVec 8) (tl : BitVec 4)
  | rdState (d base : Nat)
  | rdCnt (d base : Nat)
  | rdStat (d : Nat)
  | rdMon (d : Nat)
  deriving DecidableEq, Repr

/-- A queued stipple command with its issuer (R292): `id` names the wait of a group that stays at the
instruction until it is performed, `mask` the lanes that took part, `exec` the execution mask. -/
structure ACmd where
  kind : ACmdKind
  slot : Nat
  team : Nat
  ctx : Nat
  gidx : Nat
  id : Nat
  mask : LaneMask
  exec : LaneMask
  pc : DWord
  iword : DWord
  deriving DecidableEq, Repr

/-- A tagged export held or in transit (R289). -/
structure ATag where
  tag : Nat
  bits : BitVec 64
  deriving DecidableEq, Repr

/-- A stipple array (R281 to R291). Tables list what SALD loaded; every field of a new context's
arrays is zero. -/
structure StArray where
  m : BitVec 2048
  clamp : BitVec 2048
  bias : Tab (BitVec 16)
  coup : Tab Word
  col : Tab (BitVec 4)
  cnt : Tab Word
  exp : Tab (BitVec 11)
  ghost : BitVec 64
  beta : Word
  replay : Bool
  ncol : BitVec 4
  ws : BitVec 4
  winExp : BitVec 3
  key : BitVec 128
  aid : BitVec 10
  sc : BitVec 48
  link : Word
  peer : Nat
  up : Bool
  base : Nat
  tags : List ATag
  newest : Nat
  sent : Nat
  out : Option ATag
  released : Nat
  stalled : Bool
  stallNow : Bool
  oos : Bool
  lastFault : BitVec 2
  monCount : Nat
  monUpd : Nat
  monLast : Nat
  monFail : Bool
  monDone : Bool
  queue : List ACmd
  deriving DecidableEq, Repr

/-- Roles' slot tables: bank numbers in slot order (R142). -/
abbrev SlotTab := List Nat

/-- The device-scope job a core's boundary unit is doing for a group (R94, R309): `job` numbers its
publication, `since` is when the group came to the unit. -/
structure Boundary where
  slot : Nat
  job : Nat
  since : Nat
  sent : Bool
  pending : List Nat
  acked : List (Nat × Word)
  hostWait : Nat
  deriving DecidableEq, Repr

/-- A write-back of chosen lines under way (CFLUSH, CINV): the publication's number, the operation it
completes, the lines not yet acknowledged, the versions that are, the lines dropped when all are, and
whether CINV's flag is set in the operation's destination. -/
structure Flush where
  job : Nat
  slot : Nat
  team : Nat
  op : Nat
  pending : List Nat
  acked : List (Nat × Word)
  drops : List Nat
  flag : Bool
  deriving DecidableEq, Repr

/-- A group's parked continuation (R350): still holding its window, with what its threads waited
for; `key` stands for its slot in watches. -/
structure Parked where
  group : Group
  mons : List Monitor
  ready : Bool
  key : Nat
  deriving DecidableEq, Repr

/-- A core-in-cluster's share of a saved team (R384): its group with its window's rows and their
poisoned sectors, numbered from the window's first row. -/
structure ContGroup where
  part : Nat
  group : Group
  regRows : List Line
  matRows : List Line
  predRow : Line
  tags : List (Bool × Bool)
  poison : List Nat
  deriving DecidableEq, Repr

/-- A saved scratchpad: lines, presence bits, BO tags, poisoned sectors (R384, R103), with what WQRY tells
of the team's requests there (R156) and the conflict signatures of its words (R411). -/
structure ContScr where
  part : Nat
  lines : Tab Line
  clear : List Nat
  bo : List Nat
  poison : List Nat
  slots : Nat
  granted : Roles Nat
  last : Roles Nat
  sigs : Tab Sig
  deriving DecidableEq, Repr

/-- A team continuation (R384, R389), with the cores it ran on and its copy requests not yet started, by
core. -/
structure Cont where
  team : Nat
  cores : List Nat
  groups : List ContGroup
  scr : List ContScr
  copyq : List (Nat × CopyReq)
  deriving DecidableEq, Repr

/-- One core's per-context state saved at a gang switch (R384). -/
structure SavedCore where
  fifoLines : Tab Line
  fifoPoison : List Nat
  fifoBanks : Nat
  fifos : List Fifo
  handles : Tab Handle
  tl : List DWord
  bars : List NBar
  arrays : List StArray
  deferred : List Deferred
  copyq : List CopyReq
  partials : List Partial
  deriving DecidableEq, Repr

/-- A core (R10, chapter 08). `ownAcks` holds acknowledged versions of lines the core wrote through
since its last acquire point (R96); `bqueue` the groups that wait for the boundary unit, with the time
each came (R309); `lastRead` the version in which the core last read a line of another die (R311). -/
structure Core where
  roles : Roles SlotTab
  retired : List Nat
  repair : Tab (BitVec 16)
  nrep : BitVec 8
  nret : BitVec 7
  done : Bool
  fail : Bool
  tcode : BitVec 8
  cfgW0 : DWord
  cfgW1 : DWord
  well : Tab Line
  spares : Tab Line
  wellPoison : List Nat
  presClr : List Nat
  boTag : List Nat
  tagV : List Nat
  tagNC : List Nat
  rowPend : Tab Nat
  released : List Nat
  leaving : Bool
  scrReturning : List Nat
  owed : Roles Nat
  undo : List Undo
  l1 : List L1Line
  ownAcks : List (Nat × Word)
  inbox : List Inbox
  partials : List Partial
  decided : List Decided
  desc : List (Nat × Nat × DWord × DWord)
  handles : Tab Handle
  fifos : List Fifo
  tl : List DWord
  bars : List NBar
  arrays : List StArray
  copyq : List CopyReq
  copySeq : Nat
  active : List Transfer
  deferred : List Deferred
  groups : Tab Group
  parked : List Parked
  trapSlots : Tab TrapRec
  sigL1 : Tab Sig
  sigScr : Tab Sig
  boundary : Option Boundary
  bqueue : List (Nat × Nat)
  flushes : List Flush
  lastRead : Tab Word
  clucnt : Word
  topo : Word
  budget : Nat
  age : Nat
  deriving DecidableEq, Repr

/-- A ready queue (R358, R359): the descriptor and what the Coachman keeps. -/
structure RQueue where
  base : Nat
  log2 : Nat
  en : Bool
  head : Word
  tail : Word
  overflow : List DWord
  eprio : Nat
  age : Nat
  held : Bool
  stuck : Bool
  deriving DecidableEq, Repr

/-- A waybill placed on a queue, with its SEQ (R358). -/
structure Placed where
  wb : DWord
  seq : Nat
  grid : Option Nat
  deriving DecidableEq, Repr

/-- The states of a context (R383). -/
inductive CtxState where
  | empty | resident | running
  deriving DecidableEq, Repr

/-- A context: its record (R383), queues (R358), collective ring (R426) and saved state (R384); `copies` are
the requests not yet started of teams that have ended, by core, which QUIESCE.preempt saved (R397). -/
structure Ctx where
  state : CtxState
  qui : Bool
  jtag : Word
  otb : Nat
  otl : Nat
  save : Nat
  aeq : Nat
  aeqLog : Nat
  head : Word
  tail : Word
  rkey : BitVec 128
  lost : Word
  queues : List RQueue
  seq : Nat
  placed : List Placed
  colBase : Nat
  colLog2 : Nat
  colHead : Word
  colTail : Word
  conts : List Cont
  saved : Tab SavedCore
  copies : List (Nat × CopyReq)
  deriving DecidableEq, Repr

/-- A watch that a group of another device keeps on a cell (R117): the request that left it. -/
structure PodWatch where
  h : DgHead
  core : Nat
  slot : Nat
  ptr : DWord
  gen : Word
  deriving DecidableEq, Repr

/-- An ink request of a peer that has been performed (R425), with the group and the cell it was for, and its
reply while that is kept against duplicates. -/
structure KeptRep where
  peer : Nat
  seq : Word
  words : Option (List DWord)
  core : Nat
  slot : Nat
  ptr : DWord
  deriving DecidableEq, Repr

/-- A home directory entry (R92). PEND is set while `pendBy` names a publication; CPART is set
while `contrib` names a contributing core (R98). -/
structure DirEntry where
  shr : BitVec 64
  ver : Word
  pendBy : List Nat
  contrib : List Nat
  remWatch : List (Nat × Nat)
  inkWatch : List (Nat × Nat × DWord × Word)
  podWatch : List PodWatch := []
  deriving DecidableEq, Repr

/-- A publication's words on their way home (R94): kind `nt` is an ST.nt or an engine's or host's
write, which sets no PEND; `job` numbers the publication they belong to; `poison` marks the sectors an
engine writes as poison (R103); `sent` and `here` are when they were sent and whether they have reached
the home die (R6). -/
structure WtMsg where
  core : Nat
  line : Nat
  mask : LineMask
  data : Line
  nt : Bool
  ctx : Nat
  job : Nat := 0
  poison : BitVec 4 := 0
  sent : Nat := 0
  here : Bool := false
  deriving DecidableEq, Repr

/-- An update on its way to a sharer (R94): `pub` numbers the publication it belongs to. -/
structure UpdMsg where
  dest : Nat
  line : Nat
  mask : LineMask
  data : Line
  old : Word
  new : Word
  pub : Nat
  poison : BitVec 4
  deriving DecidableEq, Repr

/-- A drop mark on its way to a core (R95): `pubs` are the publications that wait for its arrival. -/
structure DropMsg where
  dest : Nat
  line : Nat
  pubs : List Nat
  deriving DecidableEq, Repr

/-- A publication whose acknowledgement the slice withholds (R94). -/
structure PubRec where
  id : Nat
  core : Nat
  line : Nat
  new : Word
  left : Nat
  job : Nat
  deriving DecidableEq, Repr

/-- An acknowledgement (R94). -/
structure AckMsg where
  core : Nat
  line : Nat
  ver : Word
  job : Nat
  deriving DecidableEq, Repr

/-- A commit (R94). -/
structure CommitMsg where
  core : Nat
  line : Nat
  job : Nat
  sent : Nat
  deriving DecidableEq, Repr

/-- A fill under way (R93, R184, R192): `l2` for PREF.nt; `low` for LD.nt; `go` when a host-bias
line's bytes have come from the host. -/
structure FillReq where
  core : Nat
  line : Nat
  low : Bool
  l2 : Bool
  host : Bool
  go : Option Line
  sent : Nat
  here : Bool := false
  deriving DecidableEq, Repr

/-- An aggregated atomic request (R198): one address, its lanes in ascending order. -/
structure AtomReq where
  core : Nat
  slot : Nat
  gid : Nat
  flight : Nat
  kind : MemKind
  wid : Wid
  pa : Nat
  lanes : List Elem
  apl : BitVec 2
  go : Bool
  sent : Nat
  here : Bool := false
  deriving DecidableEq, Repr

/-- An ink request in flight (R111, R120). -/
structure InkReq where
  core : Nat
  slot : Nat
  gid : Nat
  flight : Nat
  msg : InkMsg
  dev : Nat
  ctx : Nat
  pa : Nat
  lanes : LaneMask
  seq : Nat
  sent : Nat := 0
  here : Bool := false
  deriving DecidableEq, Repr

/-- An ink reply on its way to registers (R114). -/
structure InkRep where
  req : InkReq
  status : Nat
  w0 : DWord
  w1 : DWord
  cause : Cause
  deriving DecidableEq, Repr

/-- What a fault record stands for (R78, R83, R108, R133, R360, R365): a log entry, a stalled group, a
copy, a queue's head, the successors of a waybill from one index on, a team's end or a grid's failure to
be noted in its waybill, a remote ink request. -/
inductive FaultFor where
  | log (core slot : Nat)
  | stall (core slot : Nat)
  | copy (core seq : Nat)
  | queue (ctx q : Nat)
  | succ (ctx : Nat) (wb succ : DWord) (idx left : Nat)
  | ended (gid team : Nat)
  | failed (gid : Nat)
  | ink (h : DgHead) (m : InkMsg)
  deriving DecidableEq, Repr

/-- A record of the Coachman's fault queue (R78). -/
structure FaultRec where
  ctx : Nat
  on : Nat
  ext : Nat
  who : FaultFor
  deriving DecidableEq, Repr

/-- A sent datagram not yet acknowledged (R425). -/
structure Sent where
  peer : Nat
  typ : Nat
  h : DgHead
  payload : List DWord
  tries : Nat
  deriving DecidableEq, Repr

/-- A value of the reduction tree held for a chunk (R409): node (level, index), its elements, and the
device it came from. -/
structure NodeVal where
  chunk : Nat
  level : Nat
  idx : Nat
  src : Nat
  vals : List Word
  deriving DecidableEq, Repr

/-- A collective taken from its ring (R409, R426, R427): its members as (device, SLOT0, NSLOT), the
chunks whose own contributions have been read and sent, the next chunk to finish, what has come. -/
structure Coll where
  ctx : Nat
  words : List DWord
  members : List (Nat × Nat × Nat)
  started : Bool
  loaded : Nat
  next : Nat
  nodes : List NodeVal
  fallback : List Nat
  deriving DecidableEq, Repr

/-- An XMOVE between its first step and its fifth (R90): the sequencer and the extent. -/
structure Moving where
  key : Nat
  ctx : Nat
  on : Nat
  ext : Nat
  deriving DecidableEq, Repr

/-- A gang switch armed or under way (R385, R398). -/
structure Armed where
  ctx : Nat
  t : DWord
  deriving DecidableEq, Repr

/-- What the Stationer has begun with a die and not yet ended: holding it in reset (R422), or a DIERESET
(R430). -/
inductive Hold where
  | none | off | reset
  deriving DecidableEq, Repr

/-- A die (chapters 01, 22, 25). -/
structure Die where
  out : Bool
  resets : Nat
  clock : DWord
  portsUp : Bool
  l2decided : List Decided
  corrected : Nat
  hold : Hold
  deriving DecidableEq, Repr

/-- A cluster (R389 to R399). -/
structure Cluster where
  inSvc : Bool
  drained : Bool
  withdrawn : Bool
  lastPass : Nat
  extents : List (Nat × Nat × Nat × DWord)
  deriving DecidableEq, Repr

/-- An ECC fault of a 32-byte memory sector (R100): a single raw bit in error, uncorrectable, or
the poison mark. -/
inductive Ecc where
  | raw (bit : Nat) | uncorr | poison
  deriving DecidableEq, Repr

/-- A host request accepted and not yet served, because a line it reads at home has PEND set (R304): a new
TAIL of a ready queue or of a collective ring, a read of `n` bytes. -/
inductive HostReq where
  | queue (ctx q : Nat) (tail : Word)
  | ring (ctx : Nat) (tail : Word)
  | read (addr n : Nat)
  deriving DecidableEq, Repr

/-- A scrubber write-back in flight (R101). -/
structure Scrub where
  sector : Nat
  raw : Ecc
  bytes : List Byte
  deriving DecidableEq, Repr

/-- Who acts in a step. -/
inductive Act where
  | issue (core slot : Nat)
  | event (i : Instr)
  deriving DecidableEq, Repr

/-- The issue under way: the group, the execution mask (R330) and the instruction word. -/
structure Cur where
  core : Nat
  slot : Nat
  mask : LaneMask
  pc : DWord
  iword : DWord
  deriving DecidableEq, Repr

/-- A host completion record (R388). -/
structure ComplRec where
  wb : DWord
  kind : Nat
  ctx : Nat
  late : Bool
  cmask : DWord
  gtime : DWord
  deriving DecidableEq, Repr

/-- A flash image of a type (R431 to R433), with the minimum SVN held. The images that the last boot took,
by type, are `State.booted`. -/
structure Flash where
  image : List Byte
  minSvn : Nat
  deriving DecidableEq, Repr

/-- The boot's progress (R434); `testing` while the scribes test their cores. -/
inductive Boot where
  | off | refused | testing | ready
  deriving DecidableEq, Repr

/-- PTP state (R428). -/
inductive Ptp where
  | locked | holdover
  deriving DecidableEq, Repr

/-- A removal of entries from the descriptor and extent caches (R89) whose sequencer waits for the accesses
checked against them, and when it was made. -/
structure Removal where
  key : Nat
  time : Nat
  deriving DecidableEq, Repr

/-- The whole device. `steps`, `agenda` and `cur` are the model's own. -/
structure State where
  steps : Nat
  agenda : List Act
  cur : Cur
  -- cores, teams, contexts, dies
  cores : Tab Core
  teams : Tab Team
  nextTeam : Nat
  grids : Tab Grid
  nextGrid : Nat
  nextSet : Nat
  ctxs : Tab Ctx
  dies : Tab Die
  clusters : Tab Cluster
  devno : BitVec 14
  gtime : DWord
  ptp : Ptp
  -- memory and its homes
  mem : Memory
  ecc : Tab Ecc
  dir : Tab DirEntry
  spills : List (Nat × Partial)
  wts : List WtMsg
  upds : List UpdMsg
  drops : List DropMsg
  pubs : List PubRec
  nextPub : Nat
  acks : List AckMsg
  commits : List CommitMsg
  fills : List FillReq
  atoms : List AtomReq
  inks : List InkReq
  inkReps : List InkRep
  inkWait : List InkReq
  scrubs : List Scrub
  tagq : List (Nat × Nat × ATag)
  moves : List (Nat × Nat)
  moving : List Moving
  invs : List Removal
  -- the Coachman
  faults : List FaultRec
  chores : List FaultFor
  armed : Option Armed
  scanning : Option Nat
  floorDue : Option Nat
  inkTimeout : DWord
  parkLimit : DWord
  boundTimeout : DWord
  scrubPass : Nat
  activity : List Nat
  -- the pod
  sent : List Sent
  seqOut : List (Nat × Nat × Nat)
  seqIn : List (Nat × Nat × Nat)
  keptReps : List KeptRep
  colls : List Coll
  -- links, host, management
  modules : List Nat
  degraded : Bool
  hostFrozen : Bool
  sbFrozen : Bool
  mbox : List Byte
  mbBusy : Bool
  mbCmd : List Byte
  mbResult : Nat
  crBase : Nat
  crLog2 : Nat
  crTail : Nat
  msix : List Nat
  hostReply : List Byte
  hostPoison : Bool
  sbReply : List Byte
  dropped : Nat
  badDgrams : Nat
  healthRecs : List TrapRec
  hostWrites : List WtMsg
  hostq : List HostReq
  boot : Boot
  flash : Tab Flash
  booted : List (List Byte)
  spdm : List Byte
  rejected : Bool
  deriving DecidableEq, Repr

/-- The same value for every role. -/
def Roles.all {α : Type} (a : α) : Roles α :=
  { reg := a, mat := a, scr := a, fifo := a, shadow := a, cache := a }

/-- An array of a newly created context (R282). -/
def StArray.zero : StArray :=
  { m := 0, clamp := 0, bias := [], coup := [], col := [], cnt := [], exp := [], ghost := 0,
    beta := 0, replay := false, ncol := 0, ws := 0, winExp := 0, key := 0, aid := 0, sc := 0,
    link := 0, peer := 0, up := false, base := 0, tags := [], newest := 0, sent := 0, out := none, released := 0,
    stalled := false, stallNow := false, oos := false, lastFault := 0, monCount := 0,
    monUpd := 0, monLast := 0, monFail := false, monDone := false, queue := [] }

/-- A FIFO queue's control record at reset (R157). -/
def Fifo.zero : Fifo := { base := 0, depth := 0, esz := 0, en := false, count := 0, head := 0 }

/-- A named barrier with no round open (R347). -/
def NBar.zero : NBar := { count := 0, arrived := 0, round := 0 }

/-- A core at reset: every bank is CACHE (R141), every presence bit set (R131), every counter and
record zero; the configuration block holds the values of R435. -/
def Core.init : Core :=
  { roles := { reg := [], mat := [], scr := [], fifo := [], shadow := [], cache := List.range 64 },
    retired := [], repair := [], nrep := 0, nret := 0, done := false, fail := false,
    tcode := 0, cfgW0 := 0x48040, cfgW1 := 1, well := [], spares := [], wellPoison := [],
    presClr := [], boTag := [], tagV := [], tagNC := [], rowPend := [], released := [],
    leaving := false, scrReturning := [],
    owed := { reg := 0, mat := 0, scr := 0, fifo := 0, shadow := 0, cache := 0 }, undo := [], l1 := [], ownAcks := [], inbox := [], partials := [],
    decided := [], desc := [], handles := [], fifos := List.replicate 16 Fifo.zero,
    tl := List.replicate 16 0, bars := List.replicate 32 NBar.zero,
    arrays := List.replicate 4 StArray.zero, copyq := [], copySeq := 0, active := [],
    deferred := [], groups := [], parked := [], trapSlots := [], sigL1 := [], sigScr := [],
    boundary := none, bqueue := [], flushes := [], lastRead := [], clucnt := 0, topo := 0, budget := 96,
    age := 0 }

/-- A ready queue that is not enabled (R358). -/
def RQueue.zero : RQueue :=
  { base := 0, log2 := 4, en := false, head := 0, tail := 0, overflow := [], eprio := 0, age := 0,
    held := false, stuck := false }

/-- An empty context (R383). -/
def Ctx.init : Ctx :=
  { state := .empty, qui := false, jtag := 0, otb := 0, otl := 0, save := 0, aeq := 0,
    aeqLog := 4, head := 0, tail := 0, rkey := 0, lost := 0,
    queues := List.replicate 16 RQueue.zero, seq := 0, placed := [], colBase := 0, colLog2 := 4,
    colHead := 0, colTail := 0, conts := [], saved := [], copies := [] }

/-- A compute die before power-on: held in reset (R434). -/
def Die.init : Die :=
  { out := true, resets := 0, clock := 0, portsUp := false, l2decided := [], corrected := 0, hold := .none }

/-- A cluster before its first passing scan (R434 step 6). -/
def Cluster.init : Cluster :=
  { inSvc := false, drained := true, withdrawn := false, lastPass := 0, extents := [] }

/-- A home directory entry of a line just fetched from HBM4 (R92). -/
def DirEntry.init : DirEntry :=
  { shr := 0, ver := 0, pendBy := [], contrib := [], remWatch := [], inkWatch := [] }

/-- The device right after reset: nothing is powered but the Stationer, every bank of every core is
CACHE, memory lists nothing, and the first step is the power-on of R434. -/
def State.reset : State :=
  { steps := 0, agenda := [.event .powerOn],
    cur := { core := 0, slot := 0, mask := 0, pc := 0, iword := 0 },
    cores := [], teams := [], nextTeam := 1, grids := [], nextGrid := 1, nextSet := 1, ctxs := [],
    dies := [], clusters := [], devno := 0, gtime := 0, ptp := .locked,
    mem := [], ecc := [], dir := [], spills := [], wts := [], upds := [],
    drops := [], pubs := [], nextPub := 0, acks := [], commits := [], fills := [], atoms := [],
    inks := [], inkReps := [], inkWait := [], scrubs := [], tagq := [],
    moves := [], moving := [], invs := [], faults := [], chores := [], armed := none, scanning := none, floorDue := none, inkTimeout := 2000000,
    parkLimit := 10000, boundTimeout := 100000000, scrubPass := 12, activity := [32, 16, 8, 2, 2, 1],
    sent := [], seqOut := [], seqIn := [], keptReps := [], colls := [],
    modules := [4, 4, 4, 4], degraded := false, hostFrozen := false, sbFrozen := false,
    mbox := List.replicate 64 0, mbBusy := false, mbCmd := [], mbResult := 0, crBase := 0, crLog2 := 4,
    crTail := 0, msix := [], hostReply := [], hostPoison := false, sbReply := [], dropped := 0,
    badDgrams := 0, healthRecs := [], hostWrites := [], hostq := [], boot := .off, flash := [], booted := [],
    spdm := [], rejected := false }

end Sys2Proof.Machine
end

