-- ==== Sys2Proof/Machine/Ops.lean ====
section
/-! DEFINITION. The named operations over tables, memory, groups and traps that every meaning
uses. -/

namespace Sys2Proof.Machine

/-! ## Tables -/

/-- The entry of a table at key `k`, if it lists one. -/
def tabFind {α : Type} : Tab α → Nat → Option α
  | [], _ => none
  | (k', v) :: r, k => if k = k' then some v else tabFind r k

/-- The entry of a table at key `k`; `d` where the table lists none. -/
def tabGet {α : Type} (d : α) (t : Tab α) (k : Nat) : α := (tabFind t k).getD d

/-- The table with `v` at key `k`, keys kept in rising order. -/
def tabSet {α : Type} : Tab α → Nat → α → Tab α
  | [], k, v => [(k, v)]
  | (k', v') :: r, k, v =>
    if k < k' then (k, v) :: (k', v') :: r
    else if k = k' then (k, v) :: r
    else (k', v') :: tabSet r k v

/-- The table without key `k`. -/
def tabErase {α : Type} (t : Tab α) (k : Nat) : Tab α := t.filter fun e => e.1 != k

/-- Element `n` of a list replaced by `f` of it. -/
def listUpd {α : Type} (f : α → α) : List α → Nat → List α
  | [], _ => []
  | x :: r, 0 => f x :: r
  | x :: r, n + 1 => x :: listUpd f r n

/-- The list without its element `n`. -/
def listDrop1 {α : Type} : List α → Nat → List α
  | [], _ => []
  | _ :: r, 0 => r
  | x :: r, n + 1 => x :: listDrop1 r n

/-- Places of a list whose element `p` names. -/
def placesOf {α : Type} (l : List α) (p : α → Bool) : List Nat :=
  (List.range l.length).filter fun i => match l[i]? with | some x => p x | none => false

/-- The first number below `n` that satisfies `p`, counting up from `i`. -/
def firstFrom (p : Nat → Bool) (i : Nat) : Nat → Option Nat
  | 0 => none
  | n + 1 => if p i then some i else firstFrom p (i + 1) n

/-- The first number below `n` that satisfies `p`. -/
def firstBelow (n : Nat) (p : Nat → Bool) : Option Nat := firstFrom p 0 n

/-- The numbers are distinct, first occurrence kept. -/
def dedup : List Nat → List Nat
  | [] => []
  | x :: r => x :: (dedup r).filter (· != x)

/-! ## Bytes (R2: little-endian) -/

/-- The number whose bytes, lowest first, are the list's. -/
def natOfBytes : List Byte → Nat
  | [] => 0
  | b :: r => b.toNat + 256 * natOfBytes r

/-- The `n` low bytes of a number, lowest first. -/
def bytesOfNat : Nat → Nat → List Byte
  | 0, _ => []
  | n + 1, v => BitVec.ofNat 8 v :: bytesOfNat n (v / 256)

/-- Byte `i` of a line. -/
def lineByte (l : Line) (i : Nat) : Byte := l.extractLsb' (8 * i) 8

/-- `n` bytes of a line from byte `i`, as a number. -/
def lineNat (l : Line) (i n : Nat) : Nat := (l.toNat / 2 ^ (8 * i)) % 2 ^ (8 * n)

/-- A line with bytes `i` to `i + n - 1` replaced by the low bytes of `v`. -/
def lineSet (l : Line) (i n v : Nat) : Line :=
  let m : Line := BitVec.ofNat 1024 ((2 ^ (8 * n) - 1) * 2 ^ (8 * i))
  (l &&& ~~~m) ||| (BitVec.ofNat 1024 ((v % 2 ^ (8 * n)) * 2 ^ (8 * i)))

/-- The byte mask of bytes `i` to `i + n - 1` of a line. -/
def maskOf (i n : Nat) : LineMask := BitVec.ofNat 128 ((2 ^ n - 1) * 2 ^ i)

/-- The bits of a line that its byte mask covers. -/
def maskBits (m : LineMask) : Line :=
  (List.range 128).foldl (fun acc i => if m.getLsbD i then lineSet acc i 1 255 else acc) 0

/-- `new` where the byte mask is set, `old` elsewhere. -/
def blend (old new : Line) (m : LineMask) : Line :=
  let b := maskBits m
  (old &&& ~~~b) ||| (new &&& b)

/-! ## Device memory -/

/-- One byte of device memory; a byte nothing has written reads 0. -/
def memRead : Memory → Nat → Byte
  | [], _ => 0
  | (a, b) :: r, k => if k = a then b else memRead r k

/-- Device memory with the byte at `k` set, kept in its canonical form. -/
def memWrite : Memory → Nat → Byte → Memory
  | [], k, v => if v = 0 then [] else [(k, v)]
  | (a, b) :: r, k, v =>
    if k < a then (if v = 0 then (a, b) :: r else (k, v) :: (a, b) :: r)
    else if k = a then (if v = 0 then r else (k, v) :: r)
    else (a, b) :: memWrite r k v

/-- The canonical form: addresses above `lo` strictly rising, no zero byte listed. -/
def memWfFrom : Option Nat → Memory → Bool
  | _, [] => true
  | none, (a, b) :: r => b != 0 && memWfFrom (some a) r
  | some lo, (a, b) :: r => decide (lo < a) && b != 0 && memWfFrom (some a) r

/-- The canonical form of memory: addresses strictly rising, no zero byte listed. -/
def Memory.wf (m : Memory) : Bool := memWfFrom none m

/-- `n` bytes of memory from `a` on. -/
def memBytes (m : Memory) (a n : Nat) : List Byte := (List.range n).map fun i => memRead m (a + i)

/-- Bytes stored from `a` on. -/
def memStore : Memory → Nat → List Byte → Memory
  | m, _, [] => m
  | m, a, b :: r => memStore (memWrite m a b) (a + 1) r

/-- The number held in `n` bytes of memory from `a` on. -/
def memNat (m : Memory) (a n : Nat) : Nat := natOfBytes (memBytes m a n)

/-- The 64-bit word at `a`. -/
def memDW (m : Memory) (a : Nat) : DWord := BitVec.ofNat 64 (memNat m a 8)

/-- The line of memory whose line number is `l`. -/
def memLine (m : Memory) (l : Nat) : Line := BitVec.ofNat 1024 (memNat m (128 * l) 128)

/-- The masked bytes of a line stored to memory. -/
def memSetLine (m : Memory) (l : Nat) (data : Line) (mask : LineMask) : Memory :=
  (List.range 128).foldl (fun acc i =>
    if mask.getLsbD i then memWrite acc (128 * l + i) (lineByte data i) else acc) m

/-! ## Cores, groups, contexts -/

/-- Core `c`; a core nothing has touched stands as it was at reset. -/
def State.core (s : State) (c : Nat) : Core := tabGet Core.init s.cores c

/-- The state with core `c` replaced. -/
def State.setCore (s : State) (c : Nat) (x : Core) : State :=
  { s with cores := tabSet s.cores c x }

/-- The state with core `c` changed by `f`. -/
def State.updCore (s : State) (c : Nat) (f : Core → Core) : State := s.setCore c (f (s.core c))

/-- The group in a slot of a core. -/
def State.group (s : State) (c k : Nat) : Option Group := tabFind (s.core c).groups k

/-- The state with a group's slot written. -/
def State.setGroup (s : State) (c k : Nat) (g : Group) : State :=
  s.updCore c fun x => { x with groups := tabSet x.groups k g }

/-- The state with a group changed by `f`; unchanged when the slot holds none. -/
def State.updGroup (s : State) (c k : Nat) (f : Group → Group) : State :=
  match s.group c k with
  | some g => s.setGroup c k (f g)
  | none => s

/-- Context `c`. -/
def State.ctx (s : State) (c : Nat) : Ctx := tabGet Ctx.init s.ctxs c

/-- The state with context `c` changed by `f`. -/
def State.updCtx (s : State) (c : Nat) (f : Ctx → Ctx) : State :=
  { s with ctxs := tabSet s.ctxs c (f (s.ctx c)) }

/-- Die `d`. -/
def State.die (s : State) (d : Nat) : Die := tabGet Die.init s.dies d

/-- The state with die `d` changed by `f`. -/
def State.updDie (s : State) (d : Nat) (f : Die → Die) : State :=
  { s with dies := tabSet s.dies d (f (s.die d)) }

/-- Cluster `k`. -/
def State.cluster (s : State) (k : Nat) : Cluster := tabGet Cluster.init s.clusters k

/-- The state with cluster `k` changed by `f`. -/
def State.updCluster (s : State) (k : Nat) (f : Cluster → Cluster) : State :=
  { s with clusters := tabSet s.clusters k (f (s.cluster k)) }

/-- The state with team `t` changed by `f`. -/
def State.updTeam (s : State) (t : Nat) (f : Team → Team) : State :=
  match tabFind s.teams t with
  | some x => { s with teams := tabSet s.teams t (f x) }
  | none => s

/-- The state with grid `n` changed by `f`. -/
def State.updGrid (s : State) (n : Nat) (f : Grid → Grid) : State :=
  match tabFind s.grids n with
  | some x => { s with grids := tabSet s.grids n (f x) }
  | none => s

/-- The cluster of a core (R9). -/
def clusterOf (c : Nat) : Nat := c / 4

/-- The die of a core (R9). -/
def dieOf (c : Nat) : Nat := c / 64

/-- The home die of a line (R68). -/
def lineDie (l : Nat) : Nat := l / 2 ^ 31

/-- The slot that names a core's scribe; group slots are 0 to 63. -/
def scribeSlot : Nat := 64

/-- The number under which the Coachman's four sequencers stand beside the cores. -/
def coachman : Nat := 256

/-- The number of the firmware context of the scribes and the Coachman. -/
def fwCtx : Nat := 8

/-- The cores of the device. -/
def allCores : List Nat := List.range 256

/-- The group that holds the turn. -/
def State.curGroup (s : State) : Option Group := s.group s.cur.core s.cur.slot

/-- Time passes (R11, R170, R428): every die that is out of reset counts clocks, the time base counts
nanoseconds, and the model counts the step. How much passes in a step is free, and so is how many
single-bit errors a die's L2, L1 and Well have had corrected in it (R100). -/
def State.tick (s : State) : State :=
  { s with
    steps := s.steps + 1
    gtime := s.gtime + Config.timeTicks s.steps
    dies := s.dies.map fun e =>
      if e.2.out then e else (e.1, { e.2 with
        clock := e.2.clock + Config.clockTicks s.steps
        corrected := e.2.corrected + Config.corrections e.1 s.steps }) }

/-! ## Lanes -/

/-- The mask of the lanes below 64 that satisfy `p`. -/
def lanesWhere (p : Nat → Bool) : LaneMask :=
  (List.range 64).foldl (fun m i => if p i then m ||| (1#64 <<< i) else m) 0

/-- The lanes of a mask, ascending. -/
def lanesOf (m : LaneMask) : List Nat := (List.range 64).filter fun i => m.getLsbD i

/-- The lowest lane of a mask. -/
def lowestLane (m : LaneMask) : Option Nat := firstBelow 64 fun i => m.getLsbD i

/-- A program counter moved by `n` bytes; only the offset counts (R70). -/
def pcAdd (pc : DWord) (n : Nat) : DWord :=
  pc.extractLsb' 44 20 ++ (pc.extractLsb' 0 44 + BitVec.ofNat 44 n)

/-- A code pointer as a program counter, whose bits [2:0] are always zero (R23). -/
def pcOf (p : DWord) : DWord := p &&& ~~~7#64

/-- The group with `f` applied to the threads of a mask. -/
def Group.mapLanes (g : Group) (m : LaneMask) (f : Lane → Lane) : Group :=
  { g with lanes := g.lanes.mapIdx fun i x => if m.getLsbD i then f x else x }

/-- The instruction of a mask's threads has issued: the group is no longer parked on it, and the
yield marks of the other threads clear (R337). -/
def Group.issued (g : Group) : Group :=
  { g with parked := none, parkBo := none, logStall := none, lanes := g.lanes.map fun x => { x with yielded := false } }

/-- The threads of a mask past the instruction at their PC (R330). -/
def Group.advance (g : Group) (m : LaneMask) : Group :=
  g.issued.mapLanes m fun x => { x with pc := pcAdd x.pc 8 }

/-- A thread runs, and is neither buffer-served nor yielded. -/
def Lane.inStream (x : Lane) : Bool := x.st == .run && !x.yielded && x.buf.isNone

/-- The least of a list of program counters. -/
def leastPc : List DWord → Option DWord
  | [] => none
  | p :: r =>
    match leastPc r with
    | none => some p
    | some q => some (if p.toNat ≤ q.toNat then p else q)

/-- The broadcast fetch address F (R330). -/
def Group.fetchPc (g : Group) : Option DWord :=
  leastPc ((g.lanes.filter Lane.inStream).map Lane.pc)

/-- The threads that have not exited (R337). -/
def Group.live (g : Group) : LaneMask :=
  lanesWhere fun i => match g.lanes[i]? with | some x => x.st != .exited | none => false

/-! ## Trap records and the error queue -/

/-- The code of a cause (R374). -/
def Cause.code : Cause → Nat
  | .none => 0x00 | .illegalOp => 0x01 | .illegalPair => 0x02 | .privileged => 0x03
  | .misaligned => 0x04 | .regBounds => 0x05 | .segLimit => 0x06 | .objNull => 0x07
  | .objBounds => 0x08 | .objRights => 0x09 | .extAbsent => 0x0A | .ueConsumed => 0x0B
  | .homeOffline => 0x0C | .sealBad => 0x0D | .bobjOrphan => 0x0E | .tagProtocol => 0x0F
  | .fifoProtocol => 0x10 | .stageOvf => 0x11 | .detConflict => 0x12 | .inkRights => 0x13
  | .saBias => 0x14 | .saWrap => 0x15 | .saBoundary => 0x16 | .peerDead => 0x17
  | .trapSw => 0x18 | .uMismatch => 0x19

/-- The code of a record kind (R372). -/
def RecKind.code : RecKind → Nat
  | .trap => 0 | .topology => 1 | .waybill => 2 | .storeUe => 3 | .health => 4

/-- The code of an action (R372). -/
def ErAct.code : ErAct → Nat
  | .retry => 0 | .skip => 1 | .deliver => 2 | .kill => 3

/-- A Bool as 0 or 1. -/
def b2n (b : Bool) : Nat := if b then 1 else 0

/-- The eight words of a trap record (R372). -/
def TrapRec.words (r : TrapRec) : List DWord :=
  [ BitVec.ofNat 64 (r.cause.code + 2 ^ 6 * b2n r.async + 2 ^ 7 * b2n r.logged
      + 2 ^ 8 * b2n r.fatal + 2 ^ 9 * b2n r.rolled + 2 ^ 10 * r.kind.code + 2 ^ 13 * r.act.code
      + 2 ^ 16 * r.lane.toNat + 2 ^ 24 * r.gslot.toNat + 2 ^ 32 * r.ctx.toNat),
    r.pc, r.iword, r.addr,
    BitVec.ofNat 64 (r.team.toNat + 2 ^ 24 * r.gidx.toNat + 2 ^ 32 * r.aux.toNat),
    r.waybill, r.gtime, r.rpc ]

/-- Words laid out as bytes, the first at the lowest address (R2). -/
def bytesOfWords (ws : List DWord) : List Byte := ws.flatMap fun w => bytesOfNat 8 w.toNat

/-- The empty record of a kind at the present time. -/
def State.blankRec (s : State) (k : RecKind) : TrapRec :=
  { cause := .none, async := false, logged := false, fatal := false, rolled := false, kind := k,
    act := .retry, lane := 0, gslot := 0, ctx := 0, pc := 0, iword := 0, addr := 0, team := 0,
    gidx := 0, aux := 0, waybill := 0, gtime := s.gtime, rpc := 0 }

/-- Bytes written to memory in whole 32-byte sectors, which take fresh check bits (R102). -/
def State.putRecord (s : State) (a : Nat) (bs : List Byte) : State :=
  let whole := fun (sec : Nat) => decide (a ≤ 32 * sec) && decide (32 * sec + 32 ≤ a + bs.length)
  { s with mem := memStore s.mem a bs, ecc := s.ecc.filter fun e => !whole e.1 }

/-- Append a record to a context's asynchronous error queue (R376): dropped, and LOST counted, when
the ring is full; the host is signalled when the queue becomes non-empty (R420). -/
def State.aeqAppend (s : State) (c : Nat) (r : TrapRec) : State :=
  let x := s.ctx c
  if (x.tail - x.head).toNat ≥ 2 ^ x.aeqLog then s.updCtx c fun x => { x with lost := x.lost + 1 }
  else
    let a := x.aeq + 64 * (x.tail.toNat % 2 ^ x.aeqLog)
    let s1 := { s.putRecord a (bytesOfWords r.words) with
      msix := if x.head = x.tail then s.msix ++ [2 + c] else s.msix }
    s1.updCtx c fun x => { x with tail := x.tail + 1 }

/-! ## Results of a meaning -/

/-- What an instruction that traps reports: cause, lowest faulting lane, address, AUX. -/
structure TrapInfo where
  cause : Cause
  lane : Nat
  addr : DWord
  aux : Nat
  deriving DecidableEq, Repr

/-- Why an instruction does not complete at this turn. -/
inductive Stop where
  | trap (t : TrapInfo)
  | wait
  | park
  | fault (f : Fault)
  | state (s : State)

/-- A meaning under construction: a result, or the reason there is none yet. -/
abbrev M := Except Stop

/-- Raise a trap with no address and no AUX. -/
def trapAt {α : Type} (c : Cause) (lane : Nat) : M α := .error (.trap ⟨c, lane, 0, 0⟩)

/-- Raise a trap that names an address. -/
def trapAddr {α : Type} (c : Cause) (lane : Nat) (addr : DWord) : M α :=
  .error (.trap ⟨c, lane, addr, 0⟩)

/-- Raise a trap if `b` holds. -/
def trapIf (b : Bool) (c : Cause) (lane : Nat) (addr : DWord := 0) : M Unit :=
  if b then .error (.trap ⟨c, lane, addr, 0⟩) else .ok ()

/-- Wait, to be tried again at the group's next turn, if `b` holds. -/
def waitIf (b : Bool) : M Unit := if b then .error .wait else .ok ()

/-- Park the group at the instruction, if `b` holds. -/
def parkIf (b : Bool) : M Unit := if b then .error .park else .ok ()

/-- The turn's group parked at its instruction. -/
def State.park (s : State) : State :=
  s.updGroup s.cur.core s.cur.slot fun g => { g with
    parked := some { mask := s.cur.mask, pc := s.cur.pc, iword := s.cur.iword } }

/-- A trap's record for group `gidx` of team `tn`, live or ended (R372): CAUSE, place, team, time. -/
def State.recFor (s : State) (ctx tn gidx slot : Nat) (t : TrapInfo) : TrapRec :=
  let tm := tabFind s.teams tn
  let wb := match tm with | some x => (match tabFind s.grids x.grid with | some y => y.wb | none => 0) | none => 0
  { s.blankRec .trap with
    cause := t.cause, lane := BitVec.ofNat 6 t.lane, gslot := BitVec.ofNat 6 slot,
    ctx := BitVec.ofNat 3 ctx, addr := t.addr, aux := BitVec.ofNat 20 t.aux,
    team := BitVec.ofNat 24 (match tm with | some x => x.tid | none => 0),
    gidx := BitVec.ofNat 5 gidx, waybill := wb }

/-- A trap's record for a group in a slot. -/
def State.trapRec (s : State) (slot : Nat) (g : Group) (t : TrapInfo) : TrapRec :=
  s.recFor g.ctx g.team g.gidx slot t

/-- Where a trap slot's 64 bytes of reserved memory lie (R372). -/
def trapSlotAt (core slot : Nat) : Nat := (Config.trapArea core).toNat + 64 * slot

/-- A record written into a trap slot of a core: the slot's 64 bytes of reserved memory (R372). -/
def State.putTrap (s : State) (core slot : Nat) (r : TrapRec) : State :=
  (s.updCore core fun x => { x with trapSlots := tabSet x.trapSlots slot r }).putRecord
    (trapSlotAt core slot) (bytesOfWords r.words)

/-- A trap slot emptied: its CAUSE reads NONE, which marks an empty slot (R374). That its other bytes are
zeros too is the model's choice. -/
def State.clearTrap (s : State) (core slot : Nat) : State :=
  match tabFind (s.core core).trapSlots slot with
  | none => s
  | some _ => (s.updCore core fun x => { x with trapSlots := tabErase x.trapSlots slot }).putRecord
      (trapSlotAt core slot) (List.replicate 64 0)

/-- A team must be killed: it stops issuing, and dies once its waits are over (R380). -/
def State.doom (s : State) (tn : Nat) : State := s.updTeam tn fun t => { t with dying := true }

/-- Taking a synchronous trap (R372, R373): the group stops, its slot's record names the cause, the
instruction and RPC = PC + 8, and nothing else of the instruction takes effect. One that arrives while
another is pending is a record in the error queue and is not taken. PEER_DEAD is fatal (R381). -/
def State.takeTrap (s : State) (t : TrapInfo) : State :=
  let c := s.cur.core
  let k := s.cur.slot
  match s.group c k with
  | none => s
  | some g =>
    let r := { s.trapRec k g t with
      pc := s.cur.pc, iword := s.cur.iword, rpc := pcAdd s.cur.pc 8 }
    if g.trap then s.aeqAppend g.ctx { r with act := .kill } else
    let s1 := s.setGroup c k { g with
      trap := true, trapMask := s.cur.mask, parked := none, parkBo := none, logStall := none }
    (if t.cause = .peerDead then s1.doom g.team else s1).putTrap c k r

/-- A meaning's outcome: a trap is taken, a wait leaves the state for the group's next turn. -/
def run (s : State) (m : M State) : Host.Outcome State Fault Refusal :=
  match m with
  | .ok t => .next t
  | .error (.trap t) => .next (s.takeTrap t)
  | .error .wait => .next s
  | .error .park => .next s.park
  | .error (.fault f) => .fault f
  | .error (.state t) => .next t

/-- The group that holds the turn, or the fault that there is none. -/
def State.agent (s : State) : M Group :=
  match s.curGroup with
  | some g => .ok g
  | none => .error (.fault .noAgent)

/-- The group that holds the turn, if it may run a privileged instruction (R45). -/
def State.firmware (s : State) : M Group :=
  match s.curGroup with
  | none => .error (.fault .noAgent)
  | some g => if g.fw then .ok g else
    .error (.trap ⟨.privileged, (lowestLane s.cur.mask).getD 0, 0, 0⟩)

end Sys2Proof.Machine
end

