-- ==== Sys2Proof/Machine/Operands.lean ====
section
/-! DEFINITION. Operands: the Well's rows, a group's window and views, vector and predicate
registers, undo lines, and the one way every lane-wise instruction reads and writes (R4, R25 to
R28, R36, R163 to R168, R339). -/

namespace Sys2Proof

/-- The registers a width names from `r` on (R28). -/
def Wid.regs (w : Wid) (r : Nat) : List Nat :=
  match w with
  | .b32 => [r]
  | .b64 => [r, r + 1]

end Sys2Proof

namespace Sys2Proof.Machine

/-! ## Rows of the Well (R141, R142, R436) -/

/-- The spare that a row is steered to, if an entry in use names the row (R436). -/
def Core.steer (x : Core) (key : Nat) : Option Nat :=
  firstFrom (fun e =>
    let v := tabGet 0 x.repair e
    v.getLsbD 8 && (v.extractLsb' 0 8).toNat == key % 256) (4 * (key / 256)) 4

/-- Row `key` = 256 × bank + row of the core's Well. -/
def Core.row (x : Core) (key : Nat) : Line :=
  match x.steer key with
  | some e => tabGet 0 x.spares e
  | none => tabGet 0 x.well key

/-- The sectors of a row that a byte mask covers whole. -/
def wholeSectors (m : LineMask) : List Nat :=
  (List.range 4).filter fun i => (m.extractLsb' (32 * i) 32) == 0xFFFFFFFF#32

/-- Row `key` with the masked bytes of `data` stored; a sector stored whole loses its poison mark
(R102). -/
def Core.putRow (x : Core) (key : Nat) (data : Line) (m : LineMask) : Core :=
  let new := blend (x.row key) data m
  let y := { x with wellPoison :=
    x.wellPoison.filter fun p => !(p / 4 == key && (wholeSectors m).contains (p % 4)) }
  match x.steer key with
  | some e => { y with spares := tabSet x.spares e new }
  | none => { y with well := tabSet x.well key new }

/-- A role address of the REG or MAT role (R163). -/
structure RAddr where
  mat : Bool
  a : Nat
  deriving DecidableEq, Repr

/-- The row a role address lies in (R142). -/
def Core.rowKey (x : Core) (r : RAddr) : Option Nat :=
  ((if r.mat then x.roles.mat else x.roles.reg)[r.a / 32768]?).map
    fun bank => 256 * bank + (r.a % 32768) / 128

/-- The row of a scratchpad role address (R142). -/
def Core.scrKey (x : Core) (slot line : Nat) : Option Nat :=
  (x.roles.scr[slot]?).map fun bank => 256 * bank + line

/-! ## Windows (R164 to R166, R168) -/

/-- The first window offset of the MAT part. -/
def matPart : Nat := 0x200000

/-- WADDR of R165. -/
def Group.wAddr (g : Group) (o : Nat) : Option RAddr :=
  if o < g.segReg.size.toNat then some ⟨false, g.segReg.base.toNat % 2 ^ 21 + o⟩
  else if matPart ≤ o ∧ o < matPart + g.segMat.size.toNat then
    some ⟨true, g.segMat.base.toNat % 2 ^ 21 + (o - matPart)⟩
  else none

/-- Every byte of an operand of `n` bytes at offset `o` is in the window, in one part (R165). -/
def Group.inWindow (g : Group) (o n : Nat) : Bool :=
  decide (o + n ≤ g.segReg.size.toNat) ||
  (decide (matPart ≤ o) && decide (o + n ≤ matPart + g.segMat.size.toNat))

/-- The window offset of vector register `r` (R166). -/
def Group.vecOfs (g : Group) (r : Nat) : Nat := g.views.vec.toNat + r * g.width * 4

/-- The window offset of tile `t` (R166). -/
def Group.tileOfs (g : Group) (t : Nat) : Nat := g.views.tile.toNat + 2048 * t

/-- Vector register `r` lies in the group's window (R27); firmware has all 256 registers. -/
def Group.regOk (g : Group) (r : Nat) : Bool := g.fw || g.inWindow (g.vecOfs r) (4 * g.width)

/-- The role address of the predicate row (R164, R168). -/
def Group.predAddr (g : Group) : RAddr :=
  ⟨false, g.segReg.base.toNat % 2 ^ 21 + g.segReg.size.toNat⟩

/-- `n` bytes of the window from offset `o` in one row, as a number; 0 outside the window. -/
def Group.winNat (g : Group) (x : Core) (o n : Nat) : Nat :=
  match g.wAddr o with
  | none => 0
  | some r =>
    match x.rowKey r with
    | none => 0
    | some k => lineNat (x.row k) (r.a % 128) n

/-- The value of vector register `r` in lane `l` (R166). -/
def Group.reg (g : Group) (x : Core) (r l : Nat) : Word :=
  if g.fw then tabGet 0 g.fwRegs r
  else BitVec.ofNat 32 (g.winNat x (g.vecOfs r + 4 * l) 4)

/-- The value of predicate register `k` in lane `l` (R168). -/
def Group.pred (g : Group) (x : Core) (k l : Nat) : Bool :=
  if g.fw then g.fwPred.getLsbD k
  else
    match x.rowKey g.predAddr with
    | none => false
    | some key => (lineNat (x.row key) (2 * l) 2).testBit k

/-- All sixteen predicates of lane `l`. -/
def Group.preds (g : Group) (x : Core) (l : Nat) : BitVec 16 :=
  if g.fw then g.fwPred
  else
    match x.rowKey g.predAddr with
    | none => 0
    | some key => BitVec.ofNat 16 (lineNat (x.row key) (2 * l) 2)

/-! ## Undo lines (R339, R342) -/

/-- The accumulator block of the MAT segment that a role address lies in. -/
def Group.blockOf (g : Group) (a : Nat) : Nat := (a - g.segMat.base.toNat % 2 ^ 21) / 16384

/-- A row of an accumulator whose Z was 1 when `h` was recorded takes no undo line (R271). -/
def Group.zeroAt (g : Group) (h : Head) : UKey → Bool
  | .row true a => match h.accs[g.blockOf a]? with | some x => x.z | none => false
  | _ => false

/-- A SHADOW row that can take an undo line: in no slot that is leaving (R151). -/
def Core.undoPlace (x : Core) : Option Nat :=
  firstBelow (256 * (x.roles.shadow.length - (if x.leaving then 1 else 0)))
    fun p => !(x.undo.any fun u => u.place == p)

/-- A core holds a team's interval line for `key`. -/
def Core.intervalHeld (x : Core) (team : Nat) (key : UKey) : Bool :=
  x.undo.any fun u => u.team == team && u.key == key && u.interval

/-- A team has an interval line for `key`: a scratchpad line's may lie on any of its cores. -/
def State.intervalHeld (s : State) (core team : Nat) (key : UKey) : Bool :=
  match key with
  | .row _ _ => (s.core core).intervalHeld team key
  | .scr _ _ _ => (match tabFind s.teams team with | some t => t.cores | none => [core]).any fun c =>
      (s.core c).intervalHeld team key

/-- Take the undo lines that a write to `key` needs: one for the group's stage at its first write
there in the stage, one for its team's interval at the first since the team's last barrier; one
line serves both when both are due. Without room the stage, or the interval, overflows. -/
def State.takeUndo (s : State) (core slot : Nat) (key : UKey) (prior : Line) : State :=
  match s.group core slot with
  | none => s
  | some g =>
    if g.fw then s else
    let x := s.core core
    let needS := !g.zeroAt g.head key &&
      !(x.undo.any fun u => u.slot == slot && u.team == g.team && u.key == key && u.stage)
    let needI := !g.zeroAt g.ihead key && !s.intervalHeld core g.team key
    if !needS && !needI then s
    else
      match x.undoPlace with
      | some p => s.setCore core { x with undo :=
          { slot := slot, team := g.team, key := key, data := prior, engine := 0, place := p, time := s.steps,
            stage := needS, interval := needI } :: x.undo }
      | none =>
        let s1 := if needS then s.setGroup core slot { g with stageOvf := true } else s
        if needI then s1.updTeam g.team fun t => { t with intOvf := true } else s1

/-- Mark bytes of undo lines as written by the copy engine (R140). -/
def Core.markEngine (x : Core) (key : UKey) (m : LineMask) : Core :=
  { x with undo := x.undo.map fun u => if u.key == key then { u with engine := u.engine ||| m } else u }

/-! ## Writing registers -/

/-- Accumulator state after a write to window row `w` by anything but MZERO and MDRAIN.zr: the
block's Z falls (R260). -/
def Group.clearZ (g : Group) (w : Nat) : Group :=
  if 128 * w < matPart then g
  else { g with accs := listUpd (fun a => { a with z := false }) g.accs ((128 * w - matPart) / 16384) }

/-- Store masked bytes into row `w` (window offset 128 × w) of a group's window, taking undo lines
before the write. -/
def State.putWinRow (s : State) (core slot w : Nat) (data : Line) (m : LineMask) : State :=
  match s.group core slot with
  | none => s
  | some g =>
    match g.wAddr (128 * w) with
    | none => s
    | some r =>
      match (s.core core).rowKey r with
      | none => s
      | some key =>
        let s1 := s.takeUndo core slot (.row r.mat r.a) ((s.core core).row key)
        (s1.updCore core fun x => x.putRow key data m).updGroup core slot fun g => g.clearZ w

/-- Store 32-bit words at window offsets, row by row. -/
def State.putWin (s : State) (core slot : Nat) (ws : List (Nat × Word)) : State :=
  (dedup (ws.map fun e => e.1 / 128)).foldl (fun s w =>
    let here := ws.filter fun e => e.1 / 128 == w
    let data := here.foldl (fun d e => lineSet d (e.1 % 128) 4 e.2.toNat) (0 : Line)
    let m := here.foldl (fun m e => m ||| maskOf (e.1 % 128) 4) (0 : LineMask)
    s.putWinRow core slot w data m) s

/-- Write vector registers: (lane, register, value). -/
def State.putRegs (s : State) (core slot : Nat) (ws : List (Nat × Nat × Word)) : State :=
  match s.group core slot with
  | none => s
  | some g =>
    if g.fw then
      s.setGroup core slot { g with
        fwRegs := ws.foldl (fun t e => tabSet t e.2.1 e.2.2) g.fwRegs }
    else s.putWin core slot (ws.map fun e => (g.vecOfs e.2.1 + 4 * e.1, e.2.2))

/-- A 16-bit predicate set with register `k` written. -/
def setPred (v : BitVec 16) (k : Nat) (b : Bool) : BitVec 16 :=
  if b then v ||| (1#16 <<< k) else v &&& ~~~(1#16 <<< k)

/-- Write predicate registers: (lane, register, value). -/
def State.putPreds (s : State) (core slot : Nat) (ws : List (Nat × Nat × Bool)) : State :=
  if ws.isEmpty then s else
  match s.group core slot with
  | none => s
  | some g =>
    if g.fw then
      s.setGroup core slot { g with fwPred := ws.foldl (fun v e => setPred v e.2.1 e.2.2) g.fwPred }
    else
      match (s.core core).rowKey g.predAddr with
      | none => s
      | some key =>
        let x := s.core core
        let s1 := s.takeUndo core slot (.row false g.predAddr.a) (x.row key)
        let new := ws.foldl (fun (l : Line) e =>
          lineSet l (2 * e.1) 2 (setPred (BitVec.ofNat 16 (lineNat l (2 * e.1) 2)) e.2.1 e.2.2).toNat)
          (x.row key)
        let m := ws.foldl (fun m e => m ||| maskOf (2 * e.1) 2) (0 : LineMask)
        s1.updCore core fun x => x.putRow key new m

/-! ## Lane-wise instructions -/

/-- What a lane reads: its vector and predicate registers. -/
structure Src where
  reg : Nat → Word
  pred : Nat → Bool

/-- What a lane writes. -/
structure LaneOut where
  regs : List (Nat × Word)
  preds : List (Nat × Bool)

/-- The registers of lane `l` as they stand. -/
def Group.src (g : Group) (x : Core) (l : Nat) : Src :=
  { reg := fun r => g.reg x r l, pred := fun k => g.pred x k l }

/-- The lanes of an execution mask that take part under a predicate (R25). -/
def Group.taking (g : Group) (x : Core) (p : Pred) (m : LaneMask) : LaneMask :=
  match p with
  | .all => m
  | .on n k => m &&& lanesWhere fun l => g.pred x k.toNat l != n

/-- A register is pending on the scoreboard (R36). -/
def Group.regPending (g : Group) (r : Nat) : Bool :=
  g.pend.any fun e => e.reg == (if g.fw then r else g.vecOfs r)

/-- The turn's group past its instruction. -/
def State.next (s : State) : State :=
  s.updGroup s.cur.core s.cur.slot fun g => g.advance s.cur.mask

/-- The turn's group closes its stage; a committing closer (R340) forbids a later rollback to the
team's last barrier (R344). -/
def State.close (s : State) (commit : Bool) : State :=
  match s.curGroup with
  | none => s
  | some g =>
    let s1 := s.setGroup s.cur.core s.cur.slot { g with closing := .stage }
    if commit then s1.updTeam g.team fun t => { t with committed := true } else s1

/-- A lane-wise instruction: control bits, the registers it names, and what each lane writes, given
every lane's registers. -/
structure VOp where
  c : Ctl
  reads : List Nat
  preads : List Nat
  writes : List Nat
  f : (Nat → Src) → Nat → LaneOut

/-- A lane of `t` whose sources differ from lane `lo`'s (R26). -/
def VOp.mismatch (v : VOp) (src : Nat → Src) (t : LaneMask) (lo : Nat) : Option Nat :=
  (lanesOf t).find? fun l =>
    v.reads.any (fun r => (src l).reg r != (src lo).reg r) ||
    v.preads.any (fun k => (src l).pred k != (src lo).pred k)

/-- What the lanes taking part write: with U the lowest lane's result goes to all (R26). -/
def VOp.outs (v : VOp) (src : Nat → Src) (t : LaneMask) (lo : Nat) : List (Nat × LaneOut) :=
  if v.c.u then
    let o := v.f src lo
    (lanesOf t).map fun l => (l, o)
  else (lanesOf t).map fun l => (l, v.f src l)

/-- Write the lanes' results to the turn's group. -/
def State.commit (s : State) (outs : List (Nat × LaneOut)) : State :=
  let s1 := s.putRegs s.cur.core s.cur.slot
    (outs.flatMap fun e => e.2.regs.map fun w => (e.1, w.1, w.2))
  s1.putPreds s.cur.core s.cur.slot
    (outs.flatMap fun e => e.2.preds.map fun w => (e.1, w.1, w.2))

/-- The operands of an instruction can be used now: none pending (R36), all in the window (R27). -/
def needRegs (g : Group) (rs : List Nat) (lo : Nat) : M Unit := do
  waitIf (rs.any fun r => g.regPending r)
  trapIf (!(rs.all fun r => g.regOk r)) .regBounds lo

/-- The counter of a class. -/
def Counters.get (c : Counters) : WClass → Nat
  | .ld => c.ld
  | .st => c.st
  | .cp => c.cp
  | .tl => c.tl

/-- Counters with one class changed. -/
def Counters.upd (c : Counters) (f : Nat → Nat) : WClass → Counters
  | .ld => { c with ld := f c.ld }
  | .st => { c with st := f c.st }
  | .cp => { c with cp := f c.cp }
  | .tl => { c with tl := f c.tl }

/-- An instruction of a class waits while its counter is full (R38). -/
def waitClass (g : Group) (k : WClass) : M Unit := waitIf (decide (g.cnt.get k ≥ 31))

/-- The lane-wise instruction `v` in the turn's group. -/
def State.vecM (s : State) (v : VOp) : M State := do
  let g ← s.agent
  let x := s.core s.cur.core
  let t := g.taking x v.c.p s.cur.mask
  match lowestLane t with
  | none => .ok s.next
  | some lo =>
    needRegs g (v.reads ++ v.writes) lo
    match (if v.c.u && g.dbg then v.mismatch (g.src x) t lo else none) with
    | some l => trapAt .uMismatch l
    | none => .ok (s.commit (v.outs (g.src x) t lo)).next

/-- The outcome of a lane-wise instruction. -/
def State.vec (s : State) (v : VOp) : Host.Outcome State Fault Refusal := run s (s.vecM v)

/-- A lane-wise instruction whose lanes do not look at one another. -/
def lanewise (c : Ctl) (reads writes : List Nat) (f : Src → List (Nat × Word)) : VOp :=
  { c := c, reads := reads, preads := [], writes := writes,
    f := fun src l => { regs := f (src l), preds := [] } }

/-- A group-scope instruction (R25): `k` gets the group, the lanes taking part and the lowest. -/
def State.groupM (s : State) (p : Pred) (k : Group → LaneMask → Nat → M State) : M State := do
  let g ← s.agent
  let t := g.taking (s.core s.cur.core) p s.cur.mask
  match lowestLane t with
  | none => .ok s.next
  | some lo => k g t lo

/-- A word written to register `d` of every lane taking part. -/
def State.putAll (s : State) (t : LaneMask) (d : Nat) (w : Word) : State :=
  s.putRegs s.cur.core s.cur.slot ((lanesOf t).map fun l => (l, d, w))

/-- A 64-bit value written to the pair `d` of every lane taking part (R28). -/
def State.putAll64 (s : State) (t : LaneMask) (d : Nat) (v : DWord) : State :=
  s.putRegs s.cur.core s.cur.slot
    ((lanesOf t).flatMap fun l => [(l, d, loWord v), (l, d + 1, hiWord v)])

/-- The 64-bit value of pair `r` in lane `l` (R28). -/
def Group.pair (g : Group) (x : Core) (r l : Nat) : DWord := pairUp (g.reg x r l) (g.reg x (r + 1) l)

/-- The 64-bit value of a lane's pair (R28). -/
def Src.pair (src : Src) (r : Nat) : DWord := pairUp (src.reg r) (src.reg (r + 1))

/-- The result words of a 64-bit value in the pair `d` (R28). -/
def outPair (d : Nat) (v : DWord) : List (Nat × Word) := [(d, loWord v), (d + 1, hiWord v)]

/-- A value of a width, as an unsigned number. -/
def Src.nat (src : Src) (w : Wid) (r : Nat) : Nat :=
  match w with
  | .b32 => (src.reg r).toNat
  | .b64 => (src.pair r).toNat

/-- A number written in a width, wrapping. -/
def outNat (w : Wid) (d : Nat) (v : Nat) : List (Nat × Word) :=
  match w with
  | .b32 => [(d, BitVec.ofNat 32 v)]
  | .b64 => outPair d (BitVec.ofNat 64 v)

end Sys2Proof.Machine
end

