-- ==== Sys2Proof/Machine/Flags.lean ====
section
/-! DEFINITION. What results and predicates are made of: ranges and saturation (R226), carries
(R228), comparisons (R234), truth tables (R231), counts and fields (R233). -/

namespace Sys2Proof

/-- Width in bits. -/
def Wid.bits : Wid → Nat
  | .b32 => 32
  | .b64 => 64

/-- The type is signed (R40). -/
def IntTy.signed : IntTy → Bool
  | .s32 | .s64 => true
  | .z32 | .z64 => false

/-- Width in bits of an integer type (R40). -/
def IntTy.bits (ty : IntTy) : Nat := Wid.bits ty.wid

/-- ICMP's comparison (R234). -/
def ICond.holds : ICond → Int → Int → Bool
  | .eq, a, b => decide (a = b)
  | .ne, a, b => decide (a ≠ b)
  | .lt, a, b => decide (a < b)
  | .le, a, b => decide (a ≤ b)
  | .gt, a, b => decide (a > b)
  | .ge, a, b => decide (a ≥ b)

end Sys2Proof

namespace Sys2Proof.Machine

/-- The signed number of an n-bit pattern. -/
def toInt (n v : Nat) : Int := if 2 * v < 2 ^ n then (v : Int) else (v : Int) - 2 ^ n

/-- An integer written as an n-bit two's-complement pattern (r modulo 2^n). -/
def wrap (n : Nat) (r : Int) : Nat := (r % (2 ^ n : Int)).toNat

/-- The least value of a type's range (R226). -/
def tyMin (signed : Bool) (n : Nat) : Int := if signed then -(2 ^ (n - 1) : Int) else 0

/-- The greatest value of a type's range (R226). -/
def tyMax (signed : Bool) (n : Nat) : Int := if signed then 2 ^ (n - 1) - 1 else 2 ^ n - 1

/-- CLAMP of R226: the nearest value of the type's range. -/
def clampTo (signed : Bool) (n : Nat) (r : Int) : Int :=
  if r < tyMin signed n then tyMin signed n
  else if tyMax signed n < r then tyMax signed n
  else r

/-- The destination's pattern for the exact result (R226). -/
def intResult (signed : Bool) (n : Nat) (sat : Bool) (r : Int) : Nat :=
  wrap n (if sat then clampTo signed n r else r)

/-- A source pattern read under a type (R226). -/
def readInt (signed : Bool) (n v : Nat) : Int := if signed then toInt n v else (v : Int)

/-- An immediate of `k` bits extended to a type's width, as a pattern (R29, R234). -/
def immNat (signed : Bool) (n k v : Nat) : Nat := if signed then wrap n (toInt k v) else v

/-- IADDC and ISUBC of R228: the n-bit result and the carry or borrow out. -/
def addCarry (sub : Bool) (n a b : Nat) (cin : Bool) : Nat × Bool :=
  if sub then
    let r : Int := (a : Int) - b - b2n cin
    (wrap n r, decide (r < 0))
  else
    let r := a + b + b2n cin
    (r % 2 ^ n, decide (r ≥ 2 ^ n))

/-- A truth table of R231 at one bit of each source. -/
def lutBit (lut : BitVec 8) (a b c : Bool) : Bool := lut.getLsbD (b2n a + 2 * b2n b + 4 * b2n c)

/-- A number whose bit i, for i below n, is `f i`. -/
def natOfBits (n : Nat) (f : Nat → Bool) : Nat :=
  (List.range n).foldl (fun acc i => if f i then acc + 2 ^ i else acc) 0

/-- BOOL3 (R231). -/
def bool3Nat (n : Nat) (lut : BitVec 8) (a b c : Nat) : Nat :=
  natOfBits n fun i => lutBit lut (a.testBit i) (b.testBit i) (c.testBit i)

/-- POPC (R233). -/
def popcNat (n a : Nat) : Nat := ((List.range n).filter fun i => a.testBit i).length

/-- CLZ (R233). -/
def clzNat (n a : Nat) : Nat := (firstBelow n fun i => a.testBit (n - 1 - i)).getD n

/-- CTZ (R233). -/
def ctzNat (n a : Nat) : Nat := (firstBelow n fun i => a.testBit i).getD n

/-- BREV (R233). -/
def brevNat (n a : Nat) : Nat := natOfBits n fun i => a.testBit (n - 1 - i)

/-- The length a field of R233 has, given position and length as named. -/
def fieldLen (n pos len : Nat) : Nat := if pos ≥ n then 0 else min len (n - pos)

/-- BFX (R233). -/
def bfxNat (n : Nat) (sgn : Bool) (a pos len : Nat) : Nat :=
  let k := fieldLen n pos len
  if k = 0 then 0
  else
    let f := (a / 2 ^ pos) % 2 ^ k
    if sgn then wrap n (toInt k f) else f

/-- BFI (R233). -/
def bfiNat (n a c pos len : Nat) : Nat :=
  let k := fieldLen n pos len
  if k = 0 then c
  else c % 2 ^ pos + (a % 2 ^ k) * 2 ^ pos + (c / 2 ^ (pos + k)) * 2 ^ (pos + k)

end Sys2Proof.Machine
end

