-- ==== Sys2Proof/Machine/Formats.lean ====
section
/-! DEFINITION. Number formats: exact values, decoding, ROUND and ENCODE, the nib family, and the
Flourish generator (R203 to R212, R246, R286). -/

namespace Sys2Proof.Machine

/-- An exact value: NaN, an infinity, or (-1)^neg × m × 2^e; a zero keeps its sign. -/
inductive Val where
  | nan
  | inf (neg : Bool)
  | fin (neg : Bool) (m : Nat) (e : Int)
  deriving DecidableEq, Repr

/-- A rounding: those of R30, and SR with its draw (R211). -/
inductive Rnd where
  | rne | rz | rp | rd
  | sr (u : Nat)
  deriving DecidableEq, Repr

/-- RM of R30 as a rounding. -/
def rndOf : RMode → Rnd
  | .rne => .rne
  | .rz => .rz
  | .rp => .rp
  | .rd => .rd

/-- A floating-point format of R203: exponent bits, fraction bits, bias; E4M3 has no infinity. -/
structure FFmt where
  ew : Nat
  mw : Nat
  bias : Nat
  e4m3 : Bool
  deriving DecidableEq, Repr

/-- The formats by their codes of R213; none for NONE, NIB and the integers. -/
def ffmt : Nat → Option FFmt
  | 1 => some ⟨8, 23, 127, false⟩
  | 2 => some ⟨5, 10, 15, false⟩
  | 3 => some ⟨8, 7, 127, false⟩
  | 4 => some ⟨4, 3, 7, true⟩
  | 5 => some ⟨5, 2, 15, false⟩
  | _ => none

/-- The integer formats by their codes of R213: signedness and width (R206). -/
def ifmt : Nat → Option (Bool × Nat)
  | 7 => some (true, 8)
  | 8 => some (false, 8)
  | 9 => some (true, 16)
  | 10 => some (false, 16)
  | 11 => some (true, 32)
  | 12 => some (false, 32)
  | _ => none

/-- Bits of an element of a format code (R203, R206, R207). -/
def fmtBits : Nat → Nat
  | 1 => 32 | 2 => 16 | 3 => 16 | 4 => 8 | 5 => 8 | 6 => 4
  | 7 => 8 | 8 => 8 | 9 => 16 | 10 => 16 | 11 => 32 | 12 => 32
  | _ => 0

/-- Number of bits of a number: 0 for 0. -/
def bitLen (n : Nat) : Nat := if n = 0 then 0 else Nat.log2 n + 1

/-- Magnitude code of the largest finite value (R203). -/
def FFmt.maxCode (f : FFmt) : Nat :=
  if f.e4m3 then 0x7E else 2 ^ (f.ew + f.mw) - 2 ^ f.mw - 1

/-- Magnitude code of an infinity (R203). -/
def FFmt.infCode (f : FFmt) : Nat := 2 ^ (f.ew + f.mw) - 2 ^ f.mw

/-- The canonical NaN (R203). -/
def FFmt.nanCode (f : FFmt) : Nat :=
  if f.e4m3 then 0x7F else f.infCode + 2 ^ (f.mw - 1)

/-- The value of a code (R203). -/
def FFmt.decode (f : FFmt) (c : Nat) : Val :=
  let neg := c.testBit (f.ew + f.mw)
  let mag := c % 2 ^ (f.ew + f.mw)
  let e := mag / 2 ^ f.mw
  let frac := mag % 2 ^ f.mw
  if f.e4m3 then
    (if mag = 0x7F then .nan
     else if e = 0 then .fin neg frac (1 - (f.bias : Int) - f.mw)
     else .fin neg (2 ^ f.mw + frac) ((e : Int) - f.bias - f.mw))
  else if e = 2 ^ f.ew - 1 then (if frac = 0 then .inf neg else .nan)
  else if e = 0 then .fin neg frac (1 - (f.bias : Int) - f.mw)
  else .fin neg (2 ^ f.mw + frac) ((e : Int) - f.bias - f.mw)

/-- The exact value of a code of a format of R213 other than NONE and NIB. -/
def decodeVal (fmt c : Nat) : Val :=
  match ffmt fmt with
  | some f => f.decode c
  | none =>
    match ifmt fmt with
    | some (s, n) =>
      let x := readInt s n (c % 2 ^ n)
      .fin (decide (x < 0)) x.natAbs 0
    | none => .nan

/-- Whether a magnitude `sig` + `rem` ÷ `den` (0 ≤ rem < den) goes up to `sig` + 1. -/
def roundUp (r : Rnd) (neg : Bool) (sig rem den : Nat) : Bool :=
  match r with
  | .rne => decide (2 * rem > den) || (decide (2 * rem = den) && sig % 2 == 1)
  | .rz => false
  | .rp => !neg && rem != 0
  | .rd => neg && rem != 0
  | .sr u => decide (u < 2 ^ 24 * rem / den)

/-- The special results of R212 for an infinity or an overflow. -/
def FFmt.special (f : FFmt) (neg sat : Bool) : Nat :=
  let s := if neg then 2 ^ (f.ew + f.mw) else 0
  if sat then s + f.maxCode else if f.e4m3 then s + 0x7F else s + f.infCode

/-- A non-zero magnitude m × 2^e rounded into a floating-point format: ENCODE and ROUND of R210,
R246. `sticky` says that the exact magnitude lies strictly between m and m + 1. -/
def FFmt.round (f : FFmt) (r : Rnd) (sat neg : Bool) (m : Nat) (e : Int) (sticky : Bool) : Nat :=
  let m1 := if sticky then 2 * m + 1 else m
  let e1 := if sticky then e - 1 else e
  let qmin : Int := 1 - (f.bias : Int) - f.mw
  let q := max ((bitLen m1 : Int) - 1 + e1 - f.mw) qmin
  let sh := (q - e1).toNat
  let sig := if q ≤ e1 then m1 * 2 ^ (e1 - q).toNat else m1 / 2 ^ sh
  let rem := if q ≤ e1 then 0 else m1 % 2 ^ sh
  let up := roundUp r neg sig rem (2 ^ sh)
  let code := (q - qmin).toNat * 2 ^ f.mw + sig + b2n up
  let s := if neg then 2 ^ (f.ew + f.mw) else 0
  if code ≤ f.maxCode then s + code
  else
    match r with
    | .rz => s + f.maxCode
    | .rp => if neg then s + f.maxCode else f.special neg sat
    | .rd => if neg then f.special neg sat else s + f.maxCode
    | _ => f.special neg sat

/-- A magnitude m × 2^e rounded to an integer. -/
def roundInt (r : Rnd) (neg : Bool) (m : Nat) (e : Int) : Nat :=
  if 0 ≤ e then m * 2 ^ e.toNat
  else
    let d := 2 ^ (-e).toNat
    m / d + b2n (roundUp r neg (m / d) (m % d) d)

/-- ENCODE and ROUND of R210, R212 and R246 into a format of R213 other than NONE and NIB. -/
def encodeVal (fmt : Nat) (r : Rnd) (sat : Bool) (v : Val) : Nat :=
  match ffmt fmt with
  | some f =>
    match v with
    | .nan => f.nanCode
    | .inf neg => f.special neg sat
    | .fin neg 0 _ => if neg then 2 ^ (f.ew + f.mw) else 0
    | .fin neg m e => f.round r sat neg m e false
  | none =>
    match ifmt fmt with
    | some (s, n) =>
      match v with
      | .nan => 0
      | .inf neg => wrap n (if neg then tyMin s n else tyMax s n)
      | .fin neg m e =>
        let k : Int := roundInt r neg m e
        wrap n (clampTo s n (if neg then -k else k))
    | none => 0

/-! ## Exact arithmetic (R244 to R248) -/

/-- Negation and absolute value of a value's sign (R245). -/
def Val.modify (m : SMod) : Val → Val
  | .nan => .nan
  | .inf neg => .inf ((neg && !m.abs) != m.neg)
  | .fin neg a e => .fin ((neg && !m.abs) != m.neg) a e

/-- The exact product (R248). -/
def Val.mul : Val → Val → Val
  | .fin a m e, .fin b n k => .fin (a != b) (m * n) (e + k)
  | .inf a, .inf b => .inf (a != b)
  | .inf a, .fin b n _ => if n = 0 then .nan else .inf (a != b)
  | .fin a m _, .inf b => if m = 0 then .nan else .inf (a != b)
  | _, _ => .nan

/-- An infinity's sign among addends: none without one; NaN when both signs appear. -/
def infOf (vs : List Val) : Option Val :=
  let p := vs.contains (.inf false)
  let n := vs.contains (.inf true)
  if p && n then some .nan else if p then some (.inf false) else if n then some (.inf true) else none

/-- A finite addend as a signed integer in units of 2^e0. -/
def Val.units (e0 : Int) : Val → Int
  | .fin neg m e => let k : Int := m * 2 ^ (e - e0).toNat; if neg then -k else k
  | _ => 0

/-- The least exponent of finite addends. -/
def minExp : List Val → Int
  | [] => 0
  | .fin _ _ e :: [] => e
  | .fin _ _ e :: r => min e (minExp r)
  | _ :: r => minExp r

/-- A zero of negative sign. -/
def Val.negZero : Val → Bool
  | .fin true 0 _ => true
  | _ => false

/-- The exact sum of addends, with the sign of a zero sum as R246 gives for the rounding. -/
def exactSum (r : Rnd) (vs : List Val) : Val :=
  if vs.contains .nan then .nan
  else
    match infOf vs with
    | some v => v
    | none =>
      let e0 := minExp vs
      let t := vs.foldl (fun acc v => acc + v.units e0) (0 : Int)
      if t = 0 then
        let allZero := vs.all fun v => match v with | .fin _ 0 _ => true | _ => false
        if allZero && vs.all Val.negZero then .fin true 0 0
        else if allZero && !(vs.any Val.negZero) then .fin false 0 0
        else .fin (r == .rd) 0 0
      else .fin (decide (t < 0)) t.natAbs e0

/-- The order of two values that are not NaN: negative, zero or positive difference. -/
def Val.diff : Val → Val → Int
  | .inf a, .inf b => (if b then 1 else 0) - (if a then 1 else 0)
  | .inf a, _ => if a then -1 else 1
  | _, .inf b => if b then 1 else -1
  | a, b => let e0 := min (minExp [a]) (minExp [b]); a.units e0 - b.units e0

/-- The sign bit of a value. -/
def Val.neg : Val → Bool
  | .nan => false
  | .inf n => n
  | .fin n _ _ => n

/-- a is below b, ordering −0 below +0 (R247). -/
def Val.below (a b : Val) : Bool :=
  decide (a.diff b < 0) || (decide (a.diff b = 0) && a.neg && !b.neg)

/-- FMIN and FMAX with the NaN rule of R248. -/
def Val.pick (wantMin : Bool) (a b : Val) : Val :=
  match a, b with
  | .nan, _ => b
  | _, .nan => a
  | _, _ => if (a.below b) == wantMin then a else b

/-! ## The nib family (R207, R208) -/

/-- Eight times the magnitude of code `c` under type `t` (0 NI, 1 NF, 2 NP, 3 NH), with its sign. -/
def nibVal (t c : Nat) : Bool × Nat :=
  let nf := [0, 4, 8, 12, 16, 24, 32, 48]
  let np := [0, 1, 2, 4, 8, 16, 32, 64]
  let neg := decide (c ≥ 8)
  (neg, match t with
    | 0 => if c ≥ 8 then 8 * (16 - c) else 8 * c
    | 1 => nf.getD (c % 8) 0
    | 2 => np.getD (c % 8) 0
    | _ => if c ≥ 8 then nf.getD (c - 8) 0 else 8 * c)

/-- The value of a code in a block of scale byte `s` (R207); NaN when E = 63. -/
def nibDecode (s c : Nat) : Val :=
  if s % 64 = 63 then .nan
  else
    let v := nibVal (s / 64 % 4) c
    .fin v.1 v.2 ((s % 64 : Nat) - 32 - 3 : Int)

/-- The codes of one sign of a type with their magnitudes, rising; a zero first. -/
def nibCodes (t : Nat) (neg : Bool) : List (Nat × Nat) :=
  if !neg then (List.range 8).map fun c => (c, (nibVal t c).2)
  else if t = 0 then (0, 0) :: (List.range 8).map fun i => (15 - i, 8 * (i + 1))
  else (List.range 8).map fun i => (8 + i, (nibVal t (8 + i)).2)

/-- ENCODE into nib type `t` (R210, R212). -/
def nibEncode (t : Nat) (r : Rnd) (v : Val) : Nat :=
  match v with
  | .nan => 0
  | .inf neg => ((nibCodes t neg).getLast?.map Prod.fst).getD 0
  | .fin neg m e =>
    let num := if 0 ≤ e + 3 then m * 2 ^ (e + 3).toNat else m
    let den := if 0 ≤ e + 3 then 1 else 2 ^ (-(e + 3)).toNat
    let cs := nibCodes t neg
    let le := cs.filter fun c => decide (c.2 * den ≤ num)
    let gt := cs.filter fun c => decide (c.2 * den > num)
    match le.getLast?, gt.head? with
    | some lo, some hi =>
      let rem := num - lo.2 * den
      let w := (hi.2 - lo.2) * den
      let up := match r with
        | .rne => decide (2 * rem > w) || (decide (2 * rem = w) && lo.1 % 2 == 1)
        | .sr u => decide (u < 2 ^ 24 * rem / w)
        | _ => false
      let y := if up then hi else lo
      if y.2 = 0 then 0 else y.1
    | some lo, none => if lo.2 = 0 then 0 else lo.1
    | none, _ => 0

/-- MAXQ × 8 of a nib type (R208). -/
def maxQ8 : Nat → Nat
  | 0 => 56
  | 1 => 48
  | 2 => 64
  | _ => 48

/-! ## Flourish (R286) and stochastic rounding (R211) -/

/-- ROTL of R286. -/
def rotl32 (v : Word) (b : Nat) : Word := v.rotateLeft b

/-- One double step of R286. -/
def flourishRound (s : Word × Word × Word × Word) : Word × Word × Word × Word :=
  let (s0, s1, s2, s3) := s
  let s0 := s0 + s1
  let s3 := rotl32 (s3 ^^^ s0) 16
  let s2 := s2 + s3
  let s1 := rotl32 (s1 ^^^ s2) 12
  let s0 := s0 + s1
  let s3 := rotl32 (s3 ^^^ s0) 8
  let s2 := s2 + s3
  let s1 := rotl32 (s1 ^^^ s2) 7
  (s0, s1, s2, s3)

/-- Word `i` of a 128-bit key. -/
def keyWord (k : BitVec 128) (i : Nat) : Word := k.extractLsb' (32 * (i % 4)) 32

/-- The key addition of R286 after rounds 4 and 8. -/
def flourishKey (k : BitVec 128) (e : Nat) (s : Word × Word × Word × Word) :
    Word × Word × Word × Word :=
  (s.1 + keyWord k e, s.2.1 + keyWord k (1 + e), s.2.2.1 + keyWord k (2 + e),
   s.2.2.2 + keyWord k (3 + e) + BitVec.ofNat 32 e)

/-- FLOURISH of R286: 24 bits from a key, an array input, a node input and a counter. -/
def flourish (k : BitVec 128) (a n c : Nat) : Nat :=
  let s0 : Word := BitVec.ofNat 32 c ^^^ keyWord k 0
  let s1 : Word := BitVec.ofNat 32 (c / 2 ^ 32 % 2 ^ 16 + 2 ^ 16 * n) ^^^ keyWord k 1
  let s2 : Word := BitVec.ofNat 32 a ^^^ keyWord k 2
  let s3 : Word := 0x9E3779B9#32 ^^^ keyWord k 3
  let r4 := fun s => flourishRound (flourishRound (flourishRound (flourishRound s)))
  let x := flourishKey k 2 (r4 (flourishKey k 1 (r4 (s0, s1, s2, s3))))
  ((x.1 ^^^ x.2.1 ^^^ x.2.2.1 ^^^ x.2.2.2).extractLsb' 8 24).toNat

/-- SRDRAW of R211 for a group instruction naming slot `sl`: element `n` of its result. -/
def srDraw (rkey : BitVec 128) (sl gidx team : Nat) (rc : BitVec 24) (n : Nat) : Nat :=
  flourish rkey (64 * sl + gidx) (n % 2 ^ 16) (2 ^ 24 * (team % 2 ^ 24) + rc.toNat)

/-! ## Format slots (R213, R214) -/

/-- FMT of a slot word. -/
def slotFmt (w : DWord) : Nat := (w.extractLsb' 0 4).toNat

/-- NTYPE of a slot word. -/
def slotNtype (w : DWord) : Nat := (w.extractLsb' 4 2).toNat

/-- RND of a slot word: 0 RNE, 1 RZ, 2 SR. -/
def slotRnd (w : DWord) : Nat := (w.extractLsb' 6 2).toNat

/-- SAT of a slot word. -/
def slotSat (w : DWord) : Bool := w.getLsbD 8

/-- The slot check of R214, apart from the formats an instruction can use. -/
def slotOk (w : DWord) : Bool :=
  decide (w.toNat < 2 ^ 9) && decide (slotFmt w ≤ 12) && slotFmt w != 0 &&
  (slotFmt w == 6 || slotNtype w == 0) && slotRnd w != 3

/-- The rounding a slot names, with its draw where it is SR. -/
def slotRounding (w : DWord) (u : Nat) : Rnd :=
  match slotRnd w with
  | 0 => .rne
  | 1 => .rz
  | _ => .sr u

/-! ## Functions (R253): 640-bit fixed point -/

/-- Fraction bits of the fixed-point work. -/
def fxBits : Nat := 640

/-- 1 in fixed point. -/
def fxOne : Nat := 2 ^ fxBits

/-- Fixed-point product. -/
def fxMul (a b : Nat) : Nat := a * b / fxOne

/-- atanh of z = num ÷ den by its series, in fixed point. -/
def fxAtanh (z : Nat) : Nat :=
  let z2 := fxMul z z
  ((List.range 220).foldl (fun (acc : Nat × Nat) k =>
    (acc.1 + acc.2 / (2 * k + 1), fxMul acc.2 z2)) (0, z)).1

/-- ln 2 = 2 atanh(1/3). -/
def fxLn2 : Nat := 2 * fxAtanh (fxOne / 3)

/-- arctan(1 ÷ n) by its alternating series. -/
def fxAtanInv (n : Nat) : Nat :=
  let t := (List.range 300).foldl (fun (acc : Nat × Nat × Nat) k =>
    let term := acc.2.2 / (2 * k + 1)
    if k % 2 = 0 then (acc.1 + term, acc.2.1, acc.2.2 / (n * n))
    else (acc.1, acc.2.1 + term, acc.2.2 / (n * n))) (0, 0, fxOne / n)
  t.1 - t.2.1

/-- π = 16 arctan(1/5) − 4 arctan(1/239). -/
def fxPi : Nat := 16 * fxAtanInv 5 - 4 * fxAtanInv 239

/-- e^y for y from 0 to 1. -/
def fxExp (y : Nat) : Nat :=
  ((List.range 140).foldl (fun (acc : Nat × Nat) k =>
    (acc.1 + acc.2, fxMul acc.2 y / (k + 1))) (0, fxOne)).1

/-- sin and cos of an angle from 0 to π/2. -/
def fxSinCos (y : Nat) : Nat × Nat :=
  let t := (List.range 160).foldl (fun (acc : Nat × Nat × Nat × Nat × Nat) k =>
    let (cp, cn, sp, sn, term) := acc
    let next := fxMul term y / (k + 1)
    match k % 4 with
    | 0 => (cp + term, cn, sp, sn, next)
    | 1 => (cp, cn, sp + term, sn, next)
    | 2 => (cp, cn + term, sp, sn, next)
    | _ => (cp, cn, sp, sn + term, next)) (0, 0, 0, 0, fxOne)
  (t.2.2.1 - t.2.2.2.1, t.1 - t.2.1)

/-- The integer square root, from the highest of `b` bits down. -/
def isqrtBits : Nat → Nat → Nat → Nat
  | 0, r, _ => r
  | b + 1, r, n => if (r + 2 ^ b) * (r + 2 ^ b) ≤ n then isqrtBits b (r + 2 ^ b) n else isqrtBits b r n

/-- The integer square root of a number below 2^512. -/
def isqrt (n : Nat) : Nat := isqrtBits 256 0 n

/-- FP32 (R203). -/
def fp32 : FFmt := ⟨8, 23, 127, false⟩

/-- A positive fixed-point number, inexact, as FP32 by RNE. -/
def fxRound (neg : Bool) (v : Nat) : Nat :=
  fp32.round .rne false neg (v / 2 ^ 100) (100 - (fxBits : Int)) true

/-- |a| = m × 2^e in fixed point (exact for every FP32 value below 2^23). -/
def fxOf (m : Nat) (e : Int) : Nat :=
  if 0 ≤ e + fxBits then m * 2 ^ (e + fxBits).toNat else m / 2 ^ (-(e + fxBits)).toNat

/-- e^(−y) for a fixed-point y ≥ 0: 2^(−n) × 2^f with y ÷ ln 2 = n − f. -/
def fxExpNeg (y : Nat) : Nat :=
  let t := y * fxOne / fxLn2
  let n := t / fxOne + 1
  let f := n * fxOne - t
  fxExp (fxMul f fxLn2) / 2 ^ n

/-- FRCP (R253). -/
def rcpFin (neg : Bool) (m : Nat) (e : Int) : Nat :=
  let q := 2 ^ 400 / m
  fp32.round .rne false neg q (-400 - e) (q * m != 2 ^ 400)

/-- The mantissa and exponent with the exponent made even. -/
def evenExp (m : Nat) (e : Int) : Nat × Int := if e % 2 = 0 then (m, e) else (2 * m, e - 1)

/-- FSQRT of a positive finite value (R253). -/
def sqrtFin (m : Nat) (e : Int) : Nat :=
  let p := evenExp m e
  let r := isqrt (p.1 * 2 ^ 200)
  fp32.round .rne false false r (p.2 / 2 - 100) (r * r != p.1 * 2 ^ 200)

/-- FRSQ of a positive finite value (R253). -/
def rsqFin (m : Nat) (e : Int) : Nat :=
  let p := evenExp m e
  let r := isqrt (2 ^ 400 / p.1)
  fp32.round .rne false false r (-200 - p.2 / 2) (r * r * p.1 != 2 ^ 400)

/-- 2^k as FP32. -/
def pow2Val (k : Int) : Val := .fin false 1 k

/-- FEXP2 of a finite non-zero value (R253). -/
def exp2Fin (neg : Bool) (m : Nat) (e : Int) : Nat :=
  if 8 ≤ (bitLen m : Int) - 1 + e then (if neg then 0 else fp32.infCode)
  else
    let v := fxOf m e
    let n : Int := if neg then -(((v + fxOne - 1) / fxOne : Nat) : Int) else ((v / fxOne : Nat) : Int)
    let f := if neg then (fxOne - v % fxOne) % fxOne else v % fxOne
    if f = 0 then encodeVal 1 .rne false (pow2Val n)
    else fp32.round .rne false false (fxExp (fxMul f fxLn2) / 2 ^ 100) (n + 100 - fxBits) true

/-- FLOG2 of a positive finite value (R253). -/
def log2Fin (m : Nat) (e : Int) : Nat :=
  let k : Int := (bitLen m : Int) - 1 + e
  if m = 2 ^ (bitLen m - 1) then encodeVal 1 .rne false (.fin (decide (k < 0)) k.natAbs 0)
  else
    let x := m * fxOne / 2 ^ (bitLen m - 1)
    let l := 2 * fxAtanh ((x - fxOne) * fxOne / (x + fxOne)) * fxOne / fxLn2
    let t : Int := k * fxOne + l
    fxRound (decide (t < 0)) t.natAbs

/-- sin(2πt) and cos(2πt) for t in quarter q plus a fraction, with the exact cases apart: sign and
fixed-point magnitude, none where the value is exact. -/
def turnFin (isCos : Bool) (neg : Bool) (m : Nat) (e : Int) : Nat :=
  let v := fxOf m e % fxOne
  let q := 4 * v / fxOne
  let r := 4 * v % fxOne
  let sgn := if isCos then q == 1 || q == 2 else (q == 2 || q == 3) != neg
  let useSin := if isCos then q % 2 == 1 else q % 2 == 0
  if r = 0 then
    (if useSin then (if isCos then 0 else if neg then 2 ^ 31 else 0)
     else encodeVal 1 .rne false (.fin sgn 1 0))
  else
    let sc := fxSinCos (fxMul r (fxPi / 2))
    fxRound sgn (if useSin then sc.1 else sc.2)

/-- FSIN and FCOS of a finite non-zero value (R253). -/
def turnVal (isCos neg : Bool) (m : Nat) (e : Int) : Nat :=
  if 23 ≤ (bitLen m : Int) - 1 + e then
    (if isCos then 0x3F800000 else if neg then 2 ^ 31 else 0)
  else turnFin isCos neg m e

/-- FSIGM of a finite non-zero value (R253). -/
def sigmFin (neg : Bool) (m : Nat) (e : Int) : Nat :=
  if 7 ≤ (bitLen m : Int) - 1 + e then (if neg then 0 else 0x3F800000)
  else
    let x := fxExpNeg (fxOf m e)
    fxRound false ((if neg then x else fxOne) * fxOne / (fxOne + x))

/-- FTANH of a finite non-zero value (R253). -/
def tanhFin (neg : Bool) (m : Nat) (e : Int) : Nat :=
  if 6 ≤ (bitLen m : Int) - 1 + e then (if neg then 0xBF800000 else 0x3F800000)
  else
    let x := fxExpNeg (2 * fxOf m e)
    fxRound neg ((fxOne - x) * fxOne / (fxOne + x))

/-- The one-source functions of R252. -/
inductive Fun1 where
  | rcp | rsq | sqrt | exp2 | log2 | sin | cos | sigm | tanh
  deriving DecidableEq, Repr

/-- The FP32 result of a function of R253, special values included. -/
def Fun1.apply (k : Fun1) (v : Val) : Nat :=
  let nan := 0x7FC00000
  let inf := 0x7F800000
  match k, v with
  | _, .nan => nan
  | .rcp, .inf n => if n then 2 ^ 31 else 0
  | .rcp, .fin n 0 _ => if n then 2 ^ 31 + inf else inf
  | .rcp, .fin n m e => rcpFin n m e
  | .rsq, .inf n => if n then nan else 0
  | .rsq, .fin n 0 _ => if n then 2 ^ 31 + inf else inf
  | .rsq, .fin n m e => if n then nan else rsqFin m e
  | .sqrt, .inf n => if n then nan else inf
  | .sqrt, .fin n 0 _ => if n then 2 ^ 31 else 0
  | .sqrt, .fin n m e => if n then nan else sqrtFin m e
  | .exp2, .inf n => if n then 0 else inf
  | .exp2, .fin _ 0 _ => 0x3F800000
  | .exp2, .fin n m e => exp2Fin n m e
  | .log2, .inf n => if n then nan else inf
  | .log2, .fin _ 0 _ => 2 ^ 31 + inf
  | .log2, .fin n m e => if n then nan else log2Fin m e
  | .sin, .inf _ => nan
  | .sin, .fin n 0 _ => if n then 2 ^ 31 else 0
  | .sin, .fin n m e => turnVal false n m e
  | .cos, .inf _ => nan
  | .cos, .fin _ 0 _ => 0x3F800000
  | .cos, .fin n m e => turnVal true n m e
  | .sigm, .inf n => if n then 0 else 0x3F800000
  | .sigm, .fin _ 0 _ => 0x3F000000
  | .sigm, .fin n m e => sigmFin n m e
  | .tanh, .inf n => if n then 0xBF800000 else 0x3F800000
  | .tanh, .fin n 0 _ => if n then 2 ^ 31 else 0
  | .tanh, .fin n m e => tanhFin n m e

/-! ## Instructions that name a slot (R211, R214) -/

/-- The logical number of a group's team (R170). -/
def State.tid (s : State) (g : Group) : Nat :=
  match tabFind s.teams g.team with | some t => t.tid | none => 0

/-- Format slot `n` of a group (R213). -/
def Group.slot (g : Group) (n : Nat) : DWord := (g.slots[n]?).getD 0

/-- SRDRAW of R211 for the group's instruction that names slot `sl`. -/
def State.draw (s : State) (g : Group) (sl n : Nat) : Nat :=
  srDraw (s.ctx g.ctx).rkey sl g.gidx (s.tid g) g.rc n

/-- RC after an instruction that names a slot holding `w` (R211). -/
def Group.countRc (g : Group) (w : DWord) : Group :=
  if slotRnd w = 2 then { g with rc := g.rc + 1 } else g

/-- A lane-wise instruction that names slot `sl`: the slot is checked before any lane acts. -/
def State.slotVecM (s : State) (c : Ctl) (sl : Nat) (ok : DWord → Bool)
    (mk : DWord → (Nat → Nat) → VOp) : M State := do
  let g ← s.agent
  let w := g.slot sl
  let v := mk w (s.draw g sl)
  match lowestLane (g.taking (s.core s.cur.core) c.p s.cur.mask) with
  | none => .ok s.next
  | some lo =>
    needRegs g (v.reads ++ v.writes) lo
    trapIf (!(slotOk w && ok w)) .sealBad lo
    let t ← s.vecM v
    .ok (t.updGroup s.cur.core s.cur.slot fun g => g.countRc w)

end Sys2Proof.Machine
end

