-- ==== Sys2Proof/Machine/March.lean ====
section
/-! DEFINITION. The scribe image's boot march test, from label `march` on: the listing of
spec/26_program_march_test.md (R440, R442), encoded as R24 gives. -/

namespace Sys2Proof

/-- Full words with U = 0 that every lane executes. -/
def marchCtl : Ctl := { u := false, p := .all }

/-- A branch of the listing from word `at_` to word `dst`, for the lanes that `p` names. -/
def marchBra (p : Pred) (at_ dst : Nat) : Instr := .bra ⟨false, p⟩ (BitVec.ofInt 21 ((dst : Int) - at_))

/-- A 32-bit access of the listing through object pair `a`, at a byte offset. -/
def marchMem (ofs : BitVec 18) : MemOp := { nt := false, space := .glb, size := .b32, ofs := ofs }

/-- Places of the listing's labels, in words from `march`. -/
def marchBank : Nat := 16
/-- Label `again`. -/
def marchAgain : Nat := 20
/-- Label `next`. -/
def marchNext : Nat := 76
/-- Label `fail`. -/
def marchFail : Nat := 78
/-- Label `nok`. -/
def marchNok : Nat := 87
/-- Label `done`. -/
def marchDone : Nat := 92
/-- Label `fwmain`, the first word after the listing. -/
def marchMain : Nat := 95

/-- The listing's macro `elem`, expanded with its first word at `at_`: the offset register of the first
word, the step, the value read (none: no read) and the value written (none: no write). -/
def marchElem (at_ : Nat) (first : Reg) (stp : BitVec 20) (rd wr : Option Reg) : List Instr :=
  let c := marchCtl
  let reads := match rd with
    | some v => [Instr.ld c (marchMem 0) 21 18, .icmp c .z32 .ne 1 21 (.reg v),
        marchBra (.on false 1) (at_ + 4) marchFail]
    | none => []
  let body := reads ++ (match wr with | some v => [Instr.st c (marchMem 0) 18 v] | none => []) ++
    [.iadd c .s64 false 18 18 (.imm stp), .iadd c .s32 false 22 22 (.imm (-1)),
     .icmp c .s32 .gt 2 22 (.imm 0)]
  [Instr.iadd c .z64 false 18 14 (.reg first), .mov c .b32 22 (.reg 12)] ++ body ++
    [marchBra (.on false 2) (at_ + 2 + body.length) (at_ + 2)]

/-- The listing up to its elements. -/
def marchHead : List Instr :=
  let c := marchCtl
  [ .iadd c .z32 false 3 0 (.imm 1), .shl c .z32 3 3 (.imm 12),
    .iadd c .z32 false 5 0 (.imm 2), .shl c .z32 5 5 (.imm 12),
    .ld c (marchMem 0) 6 2, .ld c (marchMem 8) 7 2,
    .and c .b32 10 6 (.imm 0x7F), .shr c .z32 11 6 (.imm 7), .and c .b32 11 11 (.imm 0x1FF),
    .shl c .z32 12 11 (.imm 5), .shl c .z32 30 12 (.imm 2), .iadd c .s32 false 30 30 (.imm (-4)),
    .iadd c .s32 false 20 0 (.imm (-1)), .and c .b32 8 7 (.imm 1), .icmp c .z32 .eq 3 8 (.imm 0),
    marchBra (.on false 3) 15 marchDone,
    .icmp c .z32 .ge 3 13 (.reg 10), marchBra (.on false 3) 17 marchDone,
    .shl c .z32 28 13 (.imm 15), .iadd c .z64 false 14 4 (.reg 28) ]

/-- The six elements M0 to M5 of R442. -/
def marchBody : List Instr :=
  marchElem 20 0 4 none (some 0) ++ marchElem 27 0 4 (some 0) (some 20) ++
  marchElem 37 0 4 (some 20) (some 0) ++ marchElem 47 30 (-4) (some 0) (some 20) ++
  marchElem 57 30 (-4) (some 20) (some 0) ++ marchElem 67 0 4 (some 0) none

/-- The listing after its elements. -/
def marchTail : List Instr :=
  let c := marchCtl
  [ .iadd c .s32 false 13 13 (.imm 1), marchBra .all 77 marchBank,
    .isub c .s32 false 27 18 (.reg 14), .shr c .z32 27 27 (.imm 7), .shl c .z32 27 27 (.imm 6),
    .or c .b32 27 27 (.reg 13), .waitc .all 0 0 31 31, .rpair .all 26 27,
    .icmp c .z32 .ne 4 26 (.imm 0), marchBra (.on false 4) 85 marchNok, marchBra .all 86 marchAgain,
    .icmp c .z32 .eq 4 26 (.imm 3), marchBra (.on false 4) 88 marchNext,
    .iadd c .s32 false 25 26 (.imm 0x10), .imax c .s32 24 24 (.reg 25), marchBra .all 91 marchNext,
    .waitc .all 0 0 31 31, .rpairDone .all 26 24, marchBra .all 94 marchMain ]

/-- The listing. -/
def march : List Instr := marchHead ++ marchBody ++ marchTail

/-- The listing's words. -/
def marchWords : List DWord := march.map fun i => (encode i).getD 0

namespace Machine

/-- Where a firmware agent starts (R434, R440). -/
def State.fwEntry (s : State) (agent : Nat) : DWord := pcOf (Config.fwEntry s.booted agent)

/-- The word of the march test at `pc` of a scribe's code, if `pc` lies there. The listing stands in the
scribe image from label march on, where the scribe starts; the model holds it as these words, and not as
bytes of the reserved memory that the image lies in (log 137). -/
def State.marchWord (s : State) (core c : Nat) (pc : DWord) : Option DWord :=
  if c = fwCtx ∧ core < 256 then
    let e := s.fwEntry core
    let i := ((pc.extractLsb' 0 44).toNat - (e.extractLsb' 0 44).toNat) / 8
    if e.extractLsb' 44 20 = pc.extractLsb' 44 20 ∧ (e.extractLsb' 0 44).toNat ≤ (pc.extractLsb' 0 44).toNat then
      marchWords[i]?
    else none
  else none

end Machine

end Sys2Proof
end

