-- ==== Sys2Proof/Machine/Objects.lean ====
section
/-! DEFINITION. Object pointers, descriptors, the check at the issuing unit and extents (R68 to
R77). -/

namespace Sys2Proof.Machine

/-- The object number of a pointer (R70). -/
def ptrOn (p : DWord) : Nat := (p.extractLsb' 44 20).toNat

/-- The byte offset of a pointer (R70). -/
def ptrOfs (p : DWord) : Nat := (p.extractLsb' 0 44).toNat

/-- A pointer from its object number and offset. -/
def mkPtr (on ofs : Nat) : DWord := BitVec.ofNat 20 on ++ BitVec.ofNat 44 ofs

/-- A pointer plus a signed offset (R70): none on a carry or borrow out of bit 43. -/
def ptrAdd (p : DWord) (d : Int) : Option DWord :=
  let o := (ptrOfs p : Int) + d
  if 0 ≤ o ∧ o < 2 ^ 44 then some (mkPtr (ptrOn p) o.toNat) else none

/-- Object types (R72). -/
inductive OType where
  | plain | ink | comm | code
  deriving DecidableEq, Repr

/-- The rights of R72, by their bit in RIGHTS. -/
inductive Right where
  | r | w | x | a | i | k | c | d | m
  deriving DecidableEq, Repr

/-- The bit of a right in a descriptor's word 1 (R72). -/
def Right.bit : Right → Nat
  | .r => 40 | .w => 41 | .x => 42 | .a => 43 | .i => 44 | .k => 45 | .c => 46 | .d => 47 | .m => 48

/-- A descriptor (R72). -/
structure Desc where
  w0 : DWord
  w1 : DWord
  deriving DecidableEq, Repr

/-- LENGTH (R72). -/
def Desc.length (d : Desc) : Nat := (d.w0.extractLsb' 0 44).toNat

/-- TYPE; a reserved value names no type (R72). -/
def Desc.type (d : Desc) : Option OType :=
  match (d.w0.extractLsb' 44 4).toNat with
  | 0 => some .plain
  | 1 => some .ink
  | 2 => some .comm
  | 3 => some .code
  | _ => none

/-- EFMT (R72). -/
def Desc.efmt (d : Desc) : BitVec 2 := d.w0.extractLsb' 48 2

/-- log2 of the extent size: 64 KiB or 2 MiB (R72). -/
def Desc.extLog (d : Desc) : Nat := if d.w0.getLsbD 50 then 21 else 16

/-- XLIST (R72). -/
def Desc.xlist (d : Desc) : Nat := (d.w1.extractLsb' 0 40).toNat

/-- V (R72). -/
def Desc.v (d : Desc) : Bool := d.w1.getLsbD 49

/-- The descriptor grants a right (R72). -/
def Desc.grants (d : Desc) (r : Right) : Bool := d.w1.getLsbD r.bit

/-- Extents of the object: ceil(LENGTH ÷ extent size) (R72). -/
def Desc.extents (d : Desc) : Nat := (d.length + 2 ^ d.extLog - 1) / 2 ^ d.extLog

/-- What an access needs (R73): types, rights, and the cause of a refusal. -/
structure Need where
  types : List OType
  rights : List Right
  cause : Cause

/-- LD, LDF, PREF (R73). -/
def needLoad : Need := ⟨[.plain, .comm, .code], [.r], .objRights⟩

/-- ST, STF (R73). -/
def needStore : Need := ⟨[.plain, .comm], [.w], .objRights⟩

/-- ATOM, ATCAS, RED (R73). -/
def needAtomic : Need := ⟨[.plain], [.a, .r, .w], .objRights⟩

/-- Instruction fetch (R73). -/
def needFetch : Need := ⟨[.code], [.x], .objRights⟩

/-- INKP, INKR, INKC (R73). -/
def needInk : InkOp → Need
  | .propose => ⟨[.ink], [.i], .inkRights⟩
  | .readGen => ⟨[.ink], [.r], .inkRights⟩
  | .readHome => ⟨[.ink], [.r], .inkRights⟩
  | .recycle => ⟨[.ink], [.k], .inkRights⟩

/-- Any type, no right (CINV, CFLUSH): an empty list of types names every type. -/
def needAny : Need := ⟨[], [], .objRights⟩

/-- The scribe's own objects of R435: the configuration block, and the bank test window while the
core's summary is not raised. -/
def scribeObject (s : State) (core on : Nat) : Option Desc :=
  if core < 256 then
    match on with
    | 1 => some ⟨64, BitVec.ofNat 64 (2 ^ 49 + 2 ^ 40)⟩
    | 2 => some ⟨0x200000, BitVec.ofNat 64 (2 ^ 49 + (if (s.core core).done then 0 else 2 ^ 40 + 2 ^ 41))⟩
    | _ => none
  else none

/-- FETCH of R74: the descriptor of object `on` in context `c`'s table. -/
def fetchDesc (s : State) (core c on : Nat) : Desc :=
  match (if c = fwCtx then scribeObject s core on else none) with
  | some d => d
  | none =>
    let a := (s.ctx c).otb + 16 * on
    ⟨memDW s.mem a, memDW s.mem (a + 8)⟩

/-- The descriptor an access passes with, or not (R74's `ok`). -/
def Desc.admits (d : Desc) (ofs size : Nat) (n : Need) : Bool :=
  decide (ofs + size ≤ d.length) &&
  (n.types.isEmpty || (match d.type with | some t => n.types.contains t | none => false)) &&
  n.rights.all d.grants

/-- A core's descriptor cache (R74): (context, object, word 0, word 1), last used first. -/
abbrev DCache := List (Nat × Nat × DWord × DWord)

/-- The descriptor cache with an entry put first, least recently used dropped (R74). -/
def descPut (l : DCache) (c on : Nat) (d : Desc) : DCache :=
  ((c, on, d.w0, d.w1) :: l.filter fun e => !(e.1 == c && e.2.1 == on)).take 64

/-- LOOKUP's cached descriptor (R74). -/
def descFind (l : DCache) (c on : Nat) : Option Desc :=
  (l.find? fun e => e.1 == c && e.2.1 == on).map fun e => ⟨e.2.2.1, e.2.2.2⟩

/-- What CHECK answers for a descriptor as its table holds it (R74). -/
def Desc.verdict (d : Desc) (ofs size : Nat) (n : Need) : Except Cause Desc :=
  if !d.v then .error .objNull
  else if d.admits ofs size n then .ok d
  else if ofs + size > d.length then .error .objBounds
  else .error n.cause

/-- CHECK of R74: the cause of the refusal or the descriptor, and the core's cache after it. LOOKUP
fills the cache on a miss, whatever the descriptor says; the single re-fetch replaces the entry. The
scribe's own objects 1 and 2 (R435) stand in no table and are checked without the cache (the model's
choice: R74 and R435 do not say). -/
def State.check (s : State) (core c : Nat) (cache : DCache) (p : DWord) (size : Nat) (n : Need) :
    Except Cause Desc × DCache :=
  let on := ptrOn p
  let ofs := ptrOfs p
  match (if c = fwCtx then scribeObject s core on else none) with
  | some d => (d.verdict ofs size n, cache)
  | none =>
    if on = 0 ∨ on ≥ (s.ctx c).otl then (.error .objNull, cache)
    else
      let fresh := fetchDesc s core c on
      let d := (descFind cache c on).getD fresh
      if !d.v then (.error .objNull, descPut cache c on d)
      else if d.admits ofs size n then (.ok d, descPut cache c on d)
      else (fresh.verdict ofs size n, descPut cache c on fresh)

/-- LOOKUP (R74): the descriptor a core uses for object `on`, its cached one where it holds one. -/
def State.lookup (s : State) (core c on : Nat) : Desc :=
  (descFind (s.core core).desc c on).getD (fetchDesc s core c on)

/-- The core's descriptor cache replaced. -/
def State.setDesc (s : State) (core : Nat) (c : DCache) : State :=
  s.updCore core fun x => { x with desc := c }

/-- The turn's group takes a trap in state `s`: nothing of its instruction takes effect, but for the
caches its check has filled. -/
def State.raise {α : Type} (s : State) (t : TrapInfo) : M α := .error (.state (s.takeTrap t))

/-! ## Extents (R76, R77) -/

/-- Present (R76). -/
def extP (e : DWord) : Bool := e.getLsbD 0

/-- Host bias (R76). -/
def extBias (e : DWord) : Bool := e.getLsbD 1

/-- Home die (R76). -/
def extHome (e : DWord) : Nat := (e.extractLsb' 2 2).toNat

/-- Atomic placement (R76). -/
def extApl (e : DWord) : BitVec 2 := e.extractLsb' 4 2

/-- PBASE (R76). -/
def extBase (e : DWord) : Nat := (e.extractLsb' 8 22).toNat

/-- The extent entry of index `i` as the extent list holds it (R72, R76). -/
def extEntry (s : State) (d : Desc) (i : Nat) : DWord := memDW s.mem (d.xlist + 8 * i)

/-- The extent entry a core's access meets: the cluster's cached one, else the list's (R77). An
entry with P = 0 is never held. -/
def State.extent (s : State) (cl c on : Nat) (d : Desc) (i : Nat) : DWord :=
  match (s.cluster cl).extents.find? fun e => e.1 == c && e.2.1 == on && e.2.2.1 == i with
  | some e => e.2.2.2
  | none => extEntry s d i

/-- Refill of a cluster's 512-entry extent cache (R77). The spec names no policy for a full cache:
which entry goes is the free value `Config.extentVictim`. -/
def State.extentFill (s : State) (cl c on i : Nat) (e : DWord) : State :=
  let l := (s.cluster cl).extents
  if !extP e || l.any fun x => x.1 == c && x.2.1 == on && x.2.2.1 == i then s
  else
    let kept := if l.length < 512 then l else listDrop1 l (Config.extentVictim cl s.steps % 512)
    s.updCluster cl fun x => { x with extents := (c, on, i, e) :: kept }

/-- The physical address of offset `ofs` under extent entry `e` (R77). -/
def extAddr (d : Desc) (e : DWord) (ofs : Nat) : Nat :=
  extHome e * 2 ^ 38 + extBase e * 2 ^ 16 + ofs % 2 ^ d.extLog

/-- Where an access's bytes lie: present, absent, and the entry met. -/
inductive Xlat where
  | at (pa : Nat) (e : DWord)
  | absent (on ext : Nat)
  deriving DecidableEq, Repr

/-- Translation of a checked access (R77). -/
def State.xlate (s : State) (cl c : Nat) (d : Desc) (p : DWord) : Xlat :=
  let i := ptrOfs p / 2 ^ d.extLog
  let e := s.extent cl c (ptrOn p) d i
  if extP e then .at (extAddr d e (ptrOfs p)) e else .absent (ptrOn p) i

/-- The cluster's extent cache after the translation of an access at `p` (R77). -/
def State.extentMet (s : State) (cl c : Nat) (d : Desc) (p : DWord) : State :=
  let i := ptrOfs p / 2 ^ d.extLog
  s.extentFill cl c (ptrOn p) i (s.extent cl c (ptrOn p) d i)

/-- A fault record to the Coachman (R78), once for one waiter. -/
def State.fault (s : State) (r : FaultRec) : State :=
  if s.faults.contains r then s else { s with faults := s.faults ++ [r] }

/-- Instruction fetch (R23, R329): the word at `pc`, or why there is none yet. -/
inductive Fetch where
  | word (w : DWord)
  | trap (c : Cause)
  | absent (on ext : Nat)
  | wait
  deriving DecidableEq, Repr

/-- Directory entry of a line. -/
def State.dirOf (s : State) (l : Nat) : DirEntry := tabGet DirEntry.init s.dir l

/-- The state with a line's directory entry changed. -/
def State.updDir (s : State) (l : Nat) (f : DirEntry → DirEntry) : State :=
  { s with dir := tabSet s.dir l (f (s.dirOf l)) }

end Sys2Proof.Machine
end

