-- ==== Sys2Proof/Machine/Home.lean ====
section
/-! DEFINITION. L1 copies, home slices, publication, update inboxes, acquire points, commutative
partials and sector faults (chapters 05 and 16). -/

namespace Sys2Proof.Machine

/-! ## Copies (R92, R93, R302) -/

/-- The line is homed on the core's die. -/
def sameDie (core line : Nat) : Bool := lineDie line == dieOf core

/-- Core-in-die bit of SHR (R92). -/
def shrBit (core : Nat) : BitVec 64 := 1#64 <<< (core % 64)

/-- The home records, or forgets, that a core holds a copy; cores of other dies are not recorded, and a
slice records nothing of a line that it does not hold. -/
def State.setShr (s : State) (core line : Nat) (b : Bool) : State :=
  if sameDie core line && (tabFind s.dir line).isSome then
    s.updDir line fun d => { d with
      shr := if b then d.shr ||| shrBit core else d.shr &&& ~~~(shrBit core) }
  else s

/-- The core's L1 copy of a line. -/
def Core.copy (x : Core) (line : Nat) : Option L1Line := x.l1.find? fun c => c.line == line

/-- The core's L1 with one copy replaced. -/
def Core.updCopy (x : Core) (line : Nat) (f : L1Line → L1Line) : Core :=
  { x with l1 := x.l1.map fun c => if c.line == line then f c else c }

/-- A group's threads parked in a MONW on something `p` names run again. -/
def Group.wake (g : Group) (p : Monitor → Bool) : Group :=
  { g with lanes := g.lanes.map fun l => match l.st with
      | .mon m => if p m then { l with st := .run } else l
      | _ => l }

/-- A parked continuation that waits for something `p` names becomes ready (R350). -/
def Parked.wake (e : Parked) (p : Monitor → Bool) : Parked :=
  if e.mons.any p then { e with ready := true } else e

/-- Groups of a core parked in a MONW on something `p` names are woken (R311, R350). -/
def Core.wakeMon (x : Core) (p : Monitor → Bool) : Core :=
  { x with
    groups := x.groups.map fun e => (e.1, e.2.wake p)
    parked := x.parked.map fun e => e.wake p }

/-- Whether a monitor is a watch on an ink cell. -/
def onWatch : Monitor → Bool
  | .watch => true
  | _ => false

/-- Whether a monitor is on the core's copy of a line. -/
def onCopy (line : Nat) : Monitor → Bool
  | .copy l _ => l == line
  | _ => false

/-- Remove a core's copy. Dirty bytes stay, as a partial line (R93, R96). -/
def State.dropCopy (s : State) (core line : Nat) : State :=
  match (s.core core).copy line with
  | none => s
  | some c =>
    let s1 := (s.setShr core line false).updCore core fun x => x.wakeMon (onCopy line)
    s1.updCore core fun x =>
      if c.dirty == 0 then { x with l1 := x.l1.filter fun c => c.line != line }
      else x.updCopy line fun c => { c with
        valid := c.dirty, ver := none, full := false, drop := false, poison := 0, sent := 0, out := 0, nt := 0 }

/-- The L1 set of a line (R302). -/
def lineSet8 (line : Nat) : Nat := line % 256

/-- The L1 set a decided copy lies in. -/
def Decided.set (d : Decided) : Nat := ptrOfs d.ptr / 128 % 256

/-- The CACHE slots whose way of a set is taken. -/
def Core.waysUsed (x : Core) (st : Nat) : List Nat :=
  ((x.l1.filter fun c => lineSet8 c.line == st).map L1Line.way) ++
  ((x.partials.filter fun c => lineSet8 c.line == st).map Partial.way) ++
  ((x.decided.filter fun c => c.set == st).filterMap Decided.way)

/-- The ways of a set whose contents may be replaced (R302): clean, unmarked lines and decided
copies; those filled to go first (R185) are listed alone when there are any. -/
def Core.victims (x : Core) (st : Nat) : List Nat :=
  let clean := x.l1.filter fun c => lineSet8 c.line == st && c.dirty == 0 && !c.mark
  let first := (clean.filter fun c => c.age == 0).map L1Line.way
  if !first.isEmpty then first
  else clean.map L1Line.way ++ ((x.decided.filter fun c => c.set == st).filterMap Decided.way)

/-- Empty a way of a set. -/
def State.evictWay (s : State) (core st way : Nat) : State :=
  let s1 := match (s.core core).l1.find? fun c => lineSet8 c.line == st && c.way == way with
    | some c => s.dropCopy core c.line
    | none => s
  s1.updCore core fun x =>
    { x with decided := x.decided.filter fun d => !(d.set == st && d.way == some way) }

/-- A free way of a set, emptying one that may be replaced. -/
def State.makeWay (s : State) (core st : Nat) : Option (Nat × State) :=
  let x := s.core core
  let used := x.waysUsed st
  match firstBelow x.roles.cache.length fun w => !used.contains w with
  | some w => some (w, s)
  | none =>
    let vs := x.victims st
    match vs[Config.victim core s.steps vs.length % (max vs.length 1)]? with
    | some w => some (w, s.evictWay core st w)
    | none => none

/-! ## Sectors (R100 to R103) -/

/-- The sector of a byte address. -/
def sectorOf (pa : Nat) : Nat := pa / 32

/-- Any sector of `n` bytes at `pa` is marked or uncorrectable. -/
def State.poisoned (s : State) (pa n : Nat) : Bool :=
  (List.range (n / 32 + 2)).any fun i =>
    decide (sectorOf pa + i ≤ sectorOf (pa + n - 1)) &&
    (match tabFind s.ecc (sectorOf pa + i) with
     | some .poison | some .uncorr => true
     | _ => false)

/-- A notice reaches a group whose watch it is for (R117): a MONW parked on it is woken; a notice
nobody waits for stays with the watch. -/
def Core.inkNotice (x : Core) (slot : Nat) (ptr : DWord) (gen : Word) : Core :=
  let mine := fun (g : Group) => match g.watch with
    | some w => w.ptr == ptr && w.gen == gen | none => false
  let mark := fun (g : Group) =>
    { g with watch := g.watch.map fun (w : Watch) => { w with noticed := true } }
  { x with
    groups := x.groups.map fun e =>
      if e.1 == slot && mine e.2 then
        (e.1, (mark e.2).wake onWatch)
      else e
    parked := x.parked.map fun e =>
      if e.key == slot && mine e.group then { e.wake onWatch with group := mark e.group } else e }

/-- A reply to a datagram, under the SEQ of what it answers (R425). -/
def State.answer (s : State) (typ : Nat) (h : DgHead) (payload : List DWord) : State :=
  let back : DgHead := { h with src := s.devno, dst := h.src, len := BitVec.ofNat 16 (8 * payload.length) }
  { s with sent := s.sent ++
      [{ peer := h.src.toNat, typ := typ, h := back, payload := payload, tries := 0 }] }

/-- The cause word of an INKREP that carries a notice (the model's choice: R424 names no datagram for a
notice). -/
def noticeWord : Nat := 255

/-- A notice to a group of another device: a second INKREP under the SEQ of the request that left the
watch. -/
def State.podNotice (s : State) (w : PodWatch) : State := s.answer 5 w.h [0, 0, BitVec.ofNat 64 noticeWord]

/-- The home notifies and drops the watches of a line that `p` names (R117, R118). -/
def State.inkNotices (s : State) (line : Nat) (p : DWord → Word → Bool) : State :=
  let ws := (s.dirOf line).inkWatch.filter fun w => p w.2.2.1 w.2.2.2
  let rs := (s.dirOf line).podWatch.filter fun w => p w.ptr w.gen
  if ws.isEmpty && rs.isEmpty then s
  else
    let s1 := ws.foldl (fun (s : State) w =>
      s.updCore w.1 fun x => x.inkNotice w.2.1 w.2.2.1 w.2.2.2) s
    (rs.foldl State.podNotice s1).updDir line fun d => { d with
      inkWatch := d.inkWatch.filter fun w => !p w.2.2.1 w.2.2.2
      podWatch := d.podWatch.filter fun w => !p w.ptr w.gen }

/-- A sector marked poisoned: watches of its cells get their notices (R103, R117). -/
def State.markPoison (s : State) (sec : Nat) : State :=
  ({ s with ecc := tabSet s.ecc sec .poison }).inkNotices (sec / 4)
    fun p _ => ptrOfs p % 128 / 32 == sec % 4

/-- A read of a sector: an uncorrectable one gets the poison pattern (R103), a corrected one is
counted in the die's health counters (R100). -/
def State.readSector (s : State) (sec : Nat) : State :=
  match tabFind s.ecc sec with
  | some .uncorr => s.markPoison sec
  | some (.raw _) => s.updDie (32 * sec / 2 ^ 38) fun d => { d with corrected := d.corrected + 1 }
  | _ => s

/-- The poison bits of a line's four sectors, with the reads' effects. -/
def State.readLine (s : State) (line : Nat) : BitVec 4 × State :=
  (List.range 4).foldl (fun acc i =>
    let s1 := acc.2.readSector (4 * line + i)
    let b := match tabFind s1.ecc (4 * line + i) with | some .poison => true | _ => false
    (if b then acc.1 ||| (1#4 <<< i) else acc.1, s1)) (0, s)

/-- A HEALTH record for firmware (R101, R106, R422). -/
def State.healthRec (s : State) (addr : DWord) : State :=
  { s with healthRecs := s.healthRecs ++ [{ s.blankRec .health with async := true, addr := addr }] }

/-- The record of a store that met an uncorrectable sector (R102), to the storing context; firmware's own
context has no error queue, and its record is a health record (the model's choice). -/
def State.storeUe (s : State) (ctx sec : Nat) : State :=
  let addr := BitVec.ofNat 64 (32 * sec)
  if ctx = fwCtx then s.healthRec addr
  else s.aeqAppend ctx { s.blankRec .storeUe with async := true, addr := addr }

/-- Masked bytes of a line stored to memory (R102): a whole sector clears its fault; a part of an
uncorrectable or poisoned one leaves poison, with a record to the storing context. -/
def State.storeLine (s : State) (ctx line : Nat) (data : Line) (m : LineMask) : State :=
  let s0 := { s with mem := memSetLine s.mem line data m }
  (List.range 4).foldl (fun s i =>
    let sec := 4 * line + i
    let sm := m.extractLsb' (32 * i) 32
    if sm == 0 then s
    else if sm == 0xFFFFFFFF#32 then { s with ecc := tabErase s.ecc sec }
    else
      match tabFind s.ecc sec with
      | some .uncorr | some .poison =>
        (s.markPoison sec).storeUe ctx sec
      | some (.raw _) =>
        let r := s.readSector sec
        { r with ecc := tabErase r.ecc sec }
      | none => s) s0

/-- Bytes a home slice writes into its line: a sector held with a correctable fault gets fresh check
bits. -/
def State.putHome (s : State) (pa : Nat) (bs : List Byte) : State :=
  { s with
    mem := memStore s.mem pa bs
    ecc := match tabFind s.ecc (sectorOf pa) with
      | some (.raw _) => tabErase s.ecc (sectorOf pa)
      | _ => s.ecc }

/-- Bytes stored to memory at `pa` as a write-through of lines would. -/
def bytesToLine (pa : Nat) (bs : List Byte) : Line × LineMask :=
  (lineSet 0 (pa % 128) bs.length (natOfBytes bs), maskOf (pa % 128) bs.length)

/-- Bytes of one line stored to memory for a context, with their sectors' faults (R102). -/
def State.storeAt (s : State) (ctx pa : Nat) (bs : List Byte) : State :=
  let r := bytesToLine pa bs
  s.storeLine ctx (pa / 128) r.1 r.2

/-- Bytes of any lines stored to memory for a context, line by line. -/
def State.storeBytes (s : State) (ctx pa : Nat) (bs : List Byte) : State :=
  (List.range (bs.length / 128 + 2)).foldl (fun s i =>
    let lo := if i = 0 then pa else (pa / 128 + i) * 128
    let hi := min ((pa / 128 + i + 1) * 128) (pa + bs.length)
    if lo < hi then s.storeAt ctx lo ((bs.drop (lo - pa)).take (hi - lo)) else s) s

/-! ## Commutative lines (R97 to R99) -/

/-- Bytes of an element (R202). -/
def efmtBytes (e : BitVec 2) : Nat := if e == 1 then 2 else 4

/-- One addition of a commutative range (R97): RNE in EFMT, or wrapping for INT32. -/
def efmtAdd (e : BitVec 2) (a b : Word) : Word :=
  if e == 2 then a + b
  else
    let f := if e == 1 then 3 else 1
    BitVec.ofNat 32 (encodeVal f .rne false
      (exactSum .rne [decodeVal f a.toNat, decodeVal f b.toNat]))

/-- A value placed in a partial: an empty element takes it unchanged (R97). -/
def efmtInto (e : BitVec 2) (t : Tab Word) (k : Nat) (v : Word) : Tab Word :=
  match tabFind t k with
  | some w => tabSet t k (efmtAdd e w v)
  | none => tabSet t k v

/-- Every value of `b` placed in `a` (R98). -/
def efmtMerge (e : BitVec 2) (a b : Tab Word) : Tab Word :=
  b.foldl (fun t v => efmtInto e t v.1 v.2) a

/-- The partials of a line that a core of a context that does not run left in its saved state (R384). -/
def State.savedPartials (s : State) (k line : Nat) : List Partial :=
  s.ctxs.flatMap fun e => (tabGet [] (e.2.saved.map fun v => (v.1, v.2.partials)) k).filter fun q => q.line == line

/-- Those partials, recalled, leave the saved state. -/
def State.dropSaved (s : State) (k line : Nat) : State :=
  let cut := fun (v : SavedCore) => { v with partials := v.partials.filter fun q => q.line != line }
  let saved := fun (t : Tab SavedCore) => t.map fun v => if v.1 == k then (v.1, cut v.2) else v
  { s with ctxs := s.ctxs.map fun e => (e.1, { e.2 with saved := saved e.2.saved }) }

/-- RECALL (R98, R99): core k's published partial of a line, from its pinned line, its spill record or its
saved state, left empty; a pinned line whose O is empty is freed. -/
def State.recall (s : State) (k line : Nat) : BitVec 2 × Tab Word × State :=
  let x := s.core k
  let pinned := x.partials.find? fun q => q.line == line
  let spilt := s.spills.find? fun q => q.1 == k && q.2.line == line
  let saved := s.savedPartials k line
  let all := (spilt.toList.map Prod.snd) ++ pinned.toList ++ saved
  let e := match all with | q :: _ => q.efmt | [] => 0
  let vals := all.flatMap fun q => q.p
  let s0 := if saved.isEmpty then s else s.dropSaved k line
  let s1 := { s0 with spills := s.spills.filter fun q => !(q.1 == k && q.2.line == line) }
  (e, vals, s1.updCore k fun x => { x with
    partials := (x.partials.map fun q => if q.line == line then { q with p := [] } else q).filter
      fun q => !(q.line == line && q.o.isEmpty) })

/-- A line's elements with recalled values added (R98). -/
def State.addElems (s : State) (e : BitVec 2) (line : Nat) (vals : Tab Word) : State :=
  vals.foldl (fun s v =>
    let n := efmtBytes e
    let a := 128 * line + n * v.1
    s.putHome a (bytesOfNat n (efmtAdd e (BitVec.ofNat 32 (memNat s.mem a n)) v.2).toNat)) s

/-- The cores a line's contributor set names, ascending. -/
def State.contributors (s : State) (line : Nat) : List Nat :=
  (List.range 256).filter fun k => (s.dirOf line).contrib.contains k

/-- COMBINE of R98, in ascending core number. -/
def State.combine (s : State) (line : Nat) : State :=
  let ks := s.contributors line
  if ks.isEmpty then s
  else
    let s1 := ks.foldl (fun s k =>
      let r := s.recall k line
      r.2.2.addElems r.1 line r.2.1) (s.readLine line).2
    s1.updDir line fun d => { d with contrib := [] }

/-- The first poisoned sector whose elements a COMBINE of the line would read: a load that causes the
COMBINE consumes it (R103). -/
def State.combineBad (s : State) (line : Nat) : Option Nat :=
  (s.contributors line).findSome? fun k =>
    let r := s.recall k line
    (r.2.1.find? fun v => s.poisoned (128 * line + efmtBytes r.1 * v.1) (efmtBytes r.1)).map fun v =>
      128 * line + efmtBytes r.1 * v.1

/-! ## Publication (R94, R95) -/

/-- The cores a directory entry's SHR names, but for one. -/
def sharers (d : DirEntry) (line but : Nat) : List Nat :=
  ((List.range 64).filter fun i => d.shr.getLsbD i).map (fun i => 64 * lineDie line + i)
    |>.filter (· != but)

/-- Groups that watch a line of another die are told of a publication into it (R311). -/
def State.notify (s : State) (line : Nat) : State :=
  let ws := (s.dirOf line).remWatch
  if ws.isEmpty then s
  else
    let s1 := ws.foldl (fun s w => s.updCore w.1 fun x => x.wakeMon fun m =>
      match m with | .remote l => l == line | _ => false) s
    s1.updDir line fun d => { d with remWatch := [] }

/-- One forwarded update has been accepted; with the last the acknowledgement goes out (R94). -/
def State.accepted (s : State) (pub : Nat) : State :=
  match s.pubs.find? fun p => p.id == pub with
  | none => s
  | some p =>
    if p.left ≤ 1 then
      { s with pubs := s.pubs.filter (fun q => q.id != pub),
               acks := s.acks ++ [{ core := p.core, line := p.line, ver := p.new, job := p.job }] }
    else { s with pubs := s.pubs.map fun q => if q.id == pub then { q with left := q.left - 1 } else q }

/-- Poison bits of a line's sectors, those stored whole cleared (R102). -/
def clearWhole (m : LineMask) (p : BitVec 4) : BitVec 4 :=
  (wholeSectors m).foldl (fun p i => p &&& ~~~(1#4 <<< i)) p

/-- An update as a new inbox entry, or merged into the line's entry, later bytes over earlier (R95). -/
def UpdMsg.entry (u : UpdMsg) : Inbox :=
  { line := u.line, mask := u.mask, data := u.data, old := u.old, new := u.new, poison := u.poison }

/-- A later update of the line merged into its entry; one that does not follow on the entry's last leaves a
gap, which the core's own publication filled. -/
def Inbox.merge (e : Inbox) (u : UpdMsg) : Inbox :=
  { e with mask := e.mask ||| u.mask, data := blend e.data u.data u.mask, new := u.new
           poison := clearWhole u.mask e.poison ||| u.poison
           gap := e.gap || u.old != e.new }

/-- An update reaches a core (R95): it joins the line's entry, takes a new one, or is replaced by a
drop mark. -/
def State.deliver (s : State) (u : UpdMsg) : State :=
  let x := s.core u.dest
  if x.inbox.any fun e => e.line == u.line then
    (s.updCore u.dest fun x => { x.wakeMon (onCopy u.line) with
      inbox := x.inbox.map fun e => if e.line == u.line then e.merge u else e }).accepted u.pub
  else if x.inbox.length < 32 then
    (s.updCore u.dest fun x => { x.wakeMon (onCopy u.line) with
      inbox := x.inbox ++ [u.entry] }).accepted u.pub
  else
    let s1 := s.setShr u.dest u.line false
    { s1 with drops := s1.drops ++ [{ dest := u.dest, line := u.line, pubs := [u.pub] }] }

/-- A drop mark reaches a core (R95): the copy will go, so that an entry for its line is of no more use. -/
def State.deliverDrop (s : State) (m : DropMsg) : State :=
  m.pubs.foldl State.accepted (s.updCore m.dest fun x =>
    { (x.updCopy m.line fun c => { c with drop := true }).wakeMon (onCopy m.line) with
      inbox := x.inbox.filter fun e => e.line != m.line })

/-- Every update and drop mark of a line that is under way arrives, in order. -/
def State.settle (s : State) (line : Nat) : State :=
  let us := s.upds.filter fun u => u.line == line
  let s1 := us.foldl State.deliver { s with upds := s.upds.filter fun u => u.line != line }
  let ds := s1.drops.filter fun u => u.line == line
  ds.foldl State.deliverDrop { s1 with drops := s1.drops.filter fun u => u.line != line }

/-! ## The L2 slices (R91, R92, R115) -/

/-- The slice that is a line's home: its die, and its number there by the free hash (R91). -/
def sliceOf (line : Nat) : Nat × Nat := (lineDie line, Config.sliceHash line % 24)

/-- Lines that a slice's 4 MiB hold (R91). -/
def sliceLines : Nat := 32768

/-- The slice of a die that a decided copy takes. -/
def Decided.slice (d : Decided) : Nat := Config.sliceHash (ptrOfs d.ptr / 128) % 24

/-- A directory entry that may leave with its line: nothing at home depends on it. -/
def DirEntry.idle (d : DirEntry) : Bool :=
  d.pendBy.isEmpty && d.contrib.isEmpty && d.remWatch.isEmpty && d.inkWatch.isEmpty && d.podWatch.isEmpty

/-- What a core keeps of its last read of a line whose version starts again at 0 (R311): whether it was
published into since. -/
def Core.restartVer (x : Core) (line : Nat) (ver : Word) : Core :=
  { x with lastRead := x.lastRead.map fun r => if r.1 == line then (r.1, if r.2 == ver then 0 else -1) else r }

/-- A slice evicts a line (R92): updates under way arrive first, then every sharer is sent a drop mark;
the line's next fetch from HBM4 starts at version 0. -/
def State.evictLine (s : State) (line : Nat) : State :=
  let s1 := s.settle line
  let out : List DropMsg := (sharers (s1.dirOf line) line 256).map fun k =>
    { dest := k, line := line, pubs := [] }
  { s1 with
    drops := s1.drops ++ out
    cores := s1.cores.map fun e => (e.1, e.2.restartVer line (s1.dirOf line).ver)
    dir := tabErase s1.dir line }

/-- Room in a slice of a die: a full one gives up a line or a decided copy, by the free choice
`Config.sliceVictim`. -/
def State.sliceRoom (s : State) (sl : Nat × Nat) : State :=
  let lines := s.dir.filter fun e => sliceOf e.1 == sl
  let copies := (s.die sl.1).l2decided.filter fun d => d.slice == sl.2
  if s.dir.length + (s.die sl.1).l2decided.length < sliceLines then s
  else if lines.length + copies.length < sliceLines then s
  else
    let idle := lines.filter fun e => e.2.idle
    let k := Config.sliceVictim sl.1 sl.2 s.steps % max (idle.length + copies.length) 1
    match idle[k]? with
    | some e => s.evictLine e.1
    | none =>
      match copies[k - idle.length]? with
      | some d => s.updDie sl.1 fun x => { x with l2decided := x.l2decided.filter (· != d) }
      | none => s

/-- Watches a line's home keeps (R118). -/
def DirEntry.watches (d : DirEntry) : Nat := d.inkWatch.length + d.remWatch.length + d.podWatch.length

/-- A home access of a line: a line its slice does not hold is fetched from HBM4 (R92). -/
def State.atHome (s : State) (line : Nat) : State :=
  match tabFind s.dir line with
  | some _ => s
  | none => (s.sliceRoom (sliceOf line)).updDir line id

/-- At a write-through point each open partial moves into the published one and the core registers
at the home (R98); into the spill record where the line's partial is spilled, whose pinned line is
then freed (R99). A line homed on a die out of service keeps its open partial (R394). -/
def State.movePartials (s : State) (core : Nat) : State :=
  ((s.core core).partials.filter fun q => q.o.isEmpty || !(s.die (lineDie q.line)).out).foldl (fun s q =>
    let spilt := s.spills.any fun z => z.1 == core && z.2.line == q.line
    let kept : State := { s with spills := s.spills.map fun z =>
      if z.1 == core && z.2.line == q.line then
        (z.1, { z.2 with p := efmtMerge q.efmt z.2.p q.o }) else z }
    let s1 := if spilt then
        kept.updCore core fun x => { x with partials := x.partials.filter fun y => y.line != q.line }
      else s.updCore core fun x => { x with partials := x.partials.map fun y =>
        if y.line == q.line then { y with o := [], p := efmtMerge y.efmt y.p y.o } else y }
    if q.o.isEmpty then s1
    else (s1.atHome q.line).updDir q.line fun d =>
      { d with contrib := if d.contrib.contains core then d.contrib else core :: d.contrib }) s

/-- A read of a whole line at home: the poison bits of its sectors, with the reads' effects. -/
def State.homeLine (s : State) (line : Nat) : BitVec 4 × State := (s.atHome line).readLine line

/-- A write reaches its home slice (R94 steps 2 and 3, R307): COMBINE first where CPART is set
(R98), the bytes, VER, PEND unless the write is non-temporal, an update to every other sharer. Its
acknowledgement waits for drop marks of the line that are under way too, whose cores get no update (R95). -/
def State.homeWrite (s : State) (w : WtMsg) : State :=
  let s0 := ((s.atHome w.line).combine w.line).storeLine w.ctx w.line w.data w.mask
  let s1 := (List.range 4).foldl (fun (s : State) i =>
    if w.poison.getLsbD i then s.markPoison (4 * w.line + i) else s) s0
  let d := s1.dirOf w.line
  let new := d.ver + 1
  let sh := sharers d w.line w.core
  let s2 := s1.updDir w.line fun d => { d with
    ver := new
    pendBy := if w.nt then d.pendBy else w.job :: d.pendBy }
  let id := s2.nextPub
  let late := fun (m : DropMsg) => !w.nt && m.line == w.line
  let left := sh.length + (s2.drops.filter late).length
  let s3 : State := { s2 with
    nextPub := id + 1
    drops := s2.drops.map fun m => if late m then { m with pubs := m.pubs ++ [id] } else m
    upds := s2.upds ++ sh.map fun k =>
      { dest := k, line := w.line, mask := w.mask, data := w.data, old := d.ver, new := new, pub := id
        poison := w.poison }
    pubs := if w.nt || left == 0 then s2.pubs
      else s2.pubs ++ [{ id := id, core := w.core, line := w.line, new := new, left := left, job := w.job }]
    acks := if w.nt || left != 0 then s2.acks
      else s2.acks ++ [{ core := w.core, line := w.line, ver := new, job := w.job }] }
  s3.notify w.line

/-- The words of a core's copy on their way home as part of publication `job` (R94 step 1). -/
def L1Line.wt (c : L1Line) (core ctx job sent : Nat) : WtMsg :=
  { core := core, line := c.line, mask := c.dirty, data := c.data, nt := false, ctx := ctx, job := job
    sent := sent }

/-- A publication's number, used by no other: 0 numbers none. -/
def State.newJob (s : State) : Nat × State := (s.nextPub + 1, { s with nextPub := s.nextPub + 1 })

/-- The context that runs (R383). -/
def State.running (s : State) : Nat :=
  match s.ctxs.find? fun e => e.2.state == .running with | some e => e.1 | none => 0

/-- A copy's dirty words leave for home: they are protected until their version is known. -/
def L1Line.leave (c : L1Line) : L1Line :=
  { c with dirty := 0, sent := c.sent ||| c.dirty, out := c.out + 1 }

/-- The version of one of a copy's publications is matched with it; with the last its bytes are as any. -/
def L1Line.matched (c : L1Line) : L1Line :=
  { c with out := c.out - 1, sent := if c.out ≤ 1 then 0 else c.sent }

/-- Bytes that an inbox entry does not overwrite: dirty ones (R96), and stored ones that no version stands
for yet, which come after the entry in home order. -/
def L1Line.own (c : L1Line) : LineMask := c.dirty ||| c.sent ||| c.nt

/-- Own writes at a boundary (R96): the copy takes version w when it stands one below. A partial
line, one all of whose bytes were stored among them, and a same-die copy that missed a publication is
dropped. -/
def State.ownWrite (s : State) (core : Nat) (a : Nat × Word) : State :=
  match (s.core core).copy a.1 with
  | none => s
  | some c =>
    match c.ver with
    | some v => if a.2 = v + 1 then
        s.updCore core fun x => x.updCopy a.1 fun c => { c.matched with ver := some a.2 }
      else s.dropCopy core a.1
    | none => if c.full && !sameDie core a.1 then s.updCore core fun x => x.updCopy a.1 L1Line.matched
        else s.dropCopy core a.1

/-- An inbox entry at a boundary (R96); a byte of the core's own stores is not overwritten, and an entry
with a gap drops the copy, which missed what lies in it. -/
def State.applyEntry (s : State) (core : Nat) (e : Inbox) : State :=
  match (s.core core).copy e.line with
  | none => s
  | some c =>
    match c.ver with
    | none => s.dropCopy core e.line
    | some v =>
      if (v - e.new).toNat < 2 ^ 31 then s
      else if e.old = v && !e.gap then
        s.updCore core fun x => x.updCopy e.line fun c => { c with
          data := blend c.data e.data (e.mask &&& ~~~c.own), ver := some e.new,
          poison := clearWhole e.mask c.poison ||| clearWhole c.own e.poison }
      else s.dropCopy core e.line

/-- An acquire point (R96, R301): own writes, the inbox in arrival order, drop bits, read marks;
`inv` invalidates the copies of other dies' lines and of host-bias lines (R415). A partial line keeps its
dirty bytes alone, also where its words are still on their way home. The core's L1 conflict signatures
clear (R407). -/
def State.acquire (s : State) (core : Nat) (own : List (Nat × Word)) (inv : Bool) : State :=
  let s1 := ((s.core core).ownAcks ++ own).foldl (fun s a => s.ownWrite core a) s
  let s2 := (s1.core core).inbox.foldl (fun s e => s.applyEntry core e) s1
  let s3 := s2.updCore core fun x => { x with inbox := [], ownAcks := [] }
  let gone := (s3.core core).l1.filter fun c =>
    c.drop || (inv && (!sameDie core c.line || c.host)) || (!c.full && c.valid != c.dirty)
  let s4 := gone.foldl (fun s c => s.dropCopy core c.line) s3
  s4.updCore core fun x => { x with
    l1 := x.l1.map fun c => { c with mark := false }
    sigL1 := [] }

/-- Acknowledged versions kept for the core's next acquire point, where a write-through does not
acquire (R96, R301). -/
def State.keepAcks (s : State) (core : Nat) (own : List (Nat × Word)) : State :=
  s.updCore core fun x => { x with ownAcks := x.ownAcks ++ own }

/-- A read at home can be served: PEND is clear (R304). -/
def State.homeReady (s : State) (line : Nat) : Bool := (s.dirOf line).pendBy.isEmpty

/-! ## Requests from one die to another (R6) -/

/-- A route: source die, destination die. -/
abbrev Route := Nat × Nat

/-- A request's route; one that the host serves, or that stays on its die, crosses no link. -/
def WtMsg.route (w : WtMsg) : Route := (dieOf w.core, lineDie w.line)
/-- A commit's route. -/
def CommitMsg.route (m : CommitMsg) : Route := (dieOf m.core, lineDie m.line)
/-- A fill's route. -/
def FillReq.route (f : FillReq) : Route := (dieOf f.core, if f.host then dieOf f.core else lineDie f.line)
/-- An atomic's route. -/
def AtomReq.route (q : AtomReq) : Route := (dieOf q.core, if q.apl == 1 then q.pa / 2 ^ 38 else dieOf q.core)
/-- A local ink request's route. -/
def InkReq.route (q : InkReq) : Route := (dieOf q.core, q.pa / 2 ^ 38)

/-- The home can serve a fill: PEND is clear (R304), and a host-bias line's bytes have come. -/
def State.fillReady (s : State) (f : FillReq) : Bool := s.homeReady f.line && (!f.host || f.go.isSome)

/-- The home can perform an atomic: PEND is clear, and the host has given its GO (R415). -/
def State.atomReady (s : State) (q : AtomReq) : Bool := s.homeReady (q.pa / 128) && (q.apl != 2 || q.go)

/-- A request sent at `t` on a route may not act yet: one sent before it on the same route, which would
act on arriving, has not arrived (R6). -/
def State.behind (s : State) (r : Route) (t : Nat) : Bool :=
  r.1 != r.2 &&
  ((s.wts.any fun w => w.route == r && decide (w.sent < t) && !w.here) ||
   (s.commits.any fun m => m.route == r && decide (m.sent < t)) ||
   (s.fills.any fun f => f.route == r && decide (f.sent < t) && !f.here && s.fillReady f) ||
   (s.atoms.any fun q => q.route == r && decide (q.sent < t) && !q.here && s.atomReady q) ||
   (s.inks.any fun q => q.route == r && decide (q.sent < t) && !q.here && s.homeReady (q.pa / 128)))

/-- With a request sent at `t` on a route every one sent before it has arrived; those that still wait
do so at their homes. -/
def State.reachedBy (s : State) (r : Route) (t : Nat) : State :=
  if r.1 = r.2 then s
  else { s with
    fills := s.fills.map fun f => if f.route == r && decide (f.sent < t) then { f with here := true } else f
    atoms := s.atoms.map fun q => if q.route == r && decide (q.sent < t) then { q with here := true } else q
    inks := s.inks.map fun q => if q.route == r && decide (q.sent < t) then { q with here := true } else q }

/-- The core can take a write-through point in one step: its boundary unit does none, so that publications
become visible in order (R317), and no word would overtake a request sent before it across a link (R6). -/
def State.canPublish (s : State) (core : Nat) : Bool :=
  (s.core core).boundary.isNone &&
  (s.core core).l1.all fun c => c.dirty == 0 || c.host || !s.behind (dieOf core, lineDie c.line) (s.steps + 1)

/-! ## Write-through points in one step (R301, R302) -/

/-- Publication of one copy's dirty words as a single event, under a number of its own: the core's
earlier writes to the line arrive first, every update is accepted or replaced, and the commit is made. -/
def State.publishLine (s : State) (core ctx : Nat) (c : L1Line) : State × (Nat × Word) :=
  let j := s.newJob
  let early := s.wts.filter fun w => w.core == core && w.line == c.line
  let s0 := { j.2 with wts := s.wts.filter fun w => !(w.core == core && w.line == c.line) }
  let s1 := early.foldl State.homeWrite s0
  let s2 := (s1.homeWrite (c.wt core ctx j.1 s.steps)).settle c.line
  let s3 := { s2 with acks := s2.acks.filter fun a => a.job != j.1 }
  let s4 := s3.updDir c.line fun d => { d with pendBy := d.pendBy.filter (· != j.1) }
  (s4.updCore core fun x => x.updCopy c.line L1Line.leave,
   (c.line, (s4.dirOf c.line).ver))

/-- A write-through point of a core as a single event (R301): every dirty word but those of
host-bias lines, of which only `host` names some (R415), and those of a die out of service (R394). -/
def State.publishNow (s : State) (core : Nat) (host : L1Line → Bool) : State × List (Nat × Word) :=
  ((s.core core).l1.filter fun c =>
      c.dirty != 0 && (!c.host || host c) && !(s.die (lineDie c.line)).out).foldl (fun acc c =>
    let r := acc.1.publishLine core s.running c
    (r.1, acc.2 ++ [r.2])) (s, [])

/-- The host-bias line of a set that a capacity point must replace (R415): where every line of the set is
one with dirty words, one of them, by the free choice of a way. -/
def State.hostVictim (s : State) (core st : Nat) : Option Nat :=
  let here := (s.core core).l1.filter fun c => lineSet8 c.line == st
  if (here.all fun c => c.host && c.dirty != 0) && (s.core core).decided.all fun d => d.set != st then
    here[Config.victim core s.steps here.length % max here.length 1]?.map L1Line.line
  else none

/-- A capacity point for a set (R302): write-through, then acquire. It moves no partial. -/
def State.capacity (s : State) (core st : Nat) : State :=
  let r := s.publishNow core fun c => some c.line == s.hostVictim core st
  r.1.acquire core r.2 false

/-- A free way of a set, after a capacity point where none may be replaced, if one can be taken now; with
the state as the attempt leaves it. -/
def State.allocWay (s : State) (core st : Nat) : Option Nat × State :=
  match s.makeWay core st with
  | some r => (some r.1, r.2)
  | none =>
    if !s.canPublish core then (none, s)
    else
    let t := s.capacity core st
    match t.makeWay core st with
    | some r => (some r.1, r.2)
    | none => (none, t)

/-! ## Fills and stores (R93, R184, R185) -/

/-- A read of a line at its home by a core: the poison bits, the version, and the state, which keeps what
the core has read of another die's line (R311). -/
def State.readVer (s : State) (core line : Nat) : BitVec 4 × Option Word × State :=
  let r := s.homeLine line
  let seen := (r.2.dirOf line).ver
  if sameDie core line then (r.1, some seen, r.2)
  else (r.1, none, r.2.updCore core fun x => { x with lastRead := tabSet x.lastRead line seen })

/-- A partial line filled (R93): the line comes in under all bytes the core stored, so that its loads read
no other value in the phase (R303). One that holds words already written through goes at the next acquire
point (R96). -/
def L1Line.fill (c : L1Line) (data : Line) (bad : BitVec 4) (ver : Option Word) (host : Bool) : L1Line :=
  { c with
    data := blend data c.data c.valid, valid := BitVec.allOnes 128, ver := ver, full := true
    drop := c.drop || c.valid != c.dirty, poison := clearWhole c.valid bad, host := host, mark := true, nt := 0 }

/-- The line a fill brings placed in the core's L1, under the bytes of a partial line (R93) and
read-marked (R302); a copy that is full already keeps its bytes. `age` 0 is the first candidate for
replacement. Where every way of the set is pinned no copy is kept: the capacity point that found none has
begun a new phase. -/
def State.install (s : State) (core line : Nat) (data : Line) (low host : Bool) : State :=
  match (s.core core).copy line with
  | some c =>
    if c.full then s.updCore core fun x => x.updCopy line fun c => { c with mark := true }
    else
      let r := s.readVer core line
      (r.2.2.updCore core fun x => x.updCopy line fun c => c.fill data r.1 r.2.1 host).setShr core line true
  | none =>
    match s.allocWay core (lineSet8 line) with
    | (none, s1) => s1
    | (some w, s1) =>
      let r := s1.readVer core line
      let s2 := r.2.2.updCore core fun x => { x with
        age := x.age + 1
        l1 := { line := line, way := w, data := data, valid := BitVec.allOnes 128, dirty := 0,
                ver := r.2.1, full := true, drop := false, mark := true, poison := r.1,
                age := if low then 0 else x.age + 1, host := host } :: x.l1 }
      s2.setShr core line true

/-- The line's bytes are in the core's L1: a full copy, or a partial one that holds those read. -/
def Core.holds (x : Core) (line : Nat) (m : LineMask) : Bool :=
  match x.copy line with
  | some c => (m &&& ~~~c.valid) == 0
  | none => false

/-- A store into the core's L1 (R184): it allocates a partial line where the core holds none; none
where no way can be had, with the state as the attempt leaves it. -/
def State.storeL1 (s : State) (core line : Nat) (data : Line) (m : LineMask) (host : Bool) :
    Bool × State :=
  match (s.core core).copy line with
  | some _ =>
    (true, s.updCore core fun x => x.updCopy line fun c => { c with
      data := blend c.data data m, valid := c.valid ||| m, dirty := c.dirty ||| m,
      poison := clearWhole m c.poison })
  | none =>
    match s.allocWay core (lineSet8 line) with
    | (none, s1) => (false, s1)
    | (some w, s1) =>
      (true, s1.updCore core fun x => { x with
        age := x.age + 1
        l1 := { line := line, way := w, data := data, valid := m, dirty := m, ver := none,
                full := false, drop := false, mark := false, poison := 0, age := x.age + 1, host := host } :: x.l1 })

/-- A copy takes the bytes of a non-temporal store, without marking them dirty (R185). -/
def L1Line.takeNt (c : L1Line) (data : Line) (m : LineMask) : L1Line :=
  { c with data := blend c.data data m, poison := clearWhole m c.poison, nt := c.nt ||| m }

/-- A non-temporal store (R185): home by a message of its own; a copy takes the bytes it holds. -/
def State.storeNt (s : State) (core ctx line : Nat) (data : Line) (m : LineMask) : State :=
  let w : WtMsg := { core := core, line := line, mask := m, data := data, nt := true, ctx := ctx
                     sent := s.steps }
  ({ s with wts := s.wts ++ [w] } : State).updCore core fun x => x.updCopy line fun c => c.takeNt data m

/-- A write of an engine or of the host at its home (R128, R307): like an ST.nt's arrival. -/
def State.writeHome (s : State) (ctx pa : Nat) (bs : List Byte) : State :=
  let r := bytesToLine pa bs
  s.homeWrite { core := 256, line := pa / 128, mask := r.2, data := r.1, nt := true, ctx := ctx }

/-! ## Publication in steps (R94) -/

/-- Step 1 for the copies `p` names: their dirty words leave for home as publication `job`, but for a
die out of service, whose words stay dirty (R394). -/
def State.sendWords (s : State) (core ctx job : Nat) (p : L1Line → Bool) : State × List Nat :=
  let go := fun (c : L1Line) => c.dirty != 0 && p c && !(s.die (lineDie c.line)).out
  let cs := (s.core core).l1.filter go
  let s1 : State := { s with wts := s.wts ++ cs.map fun c => c.wt core ctx job s.steps }
  let clean := fun (c : L1Line) => if go c then c.leave else c
  (s1.updCore core fun x => { x with l1 := x.l1.map clean }, cs.map L1Line.line)

/-- The commits of a publication's lines leave (step 4). -/
def State.sendCommits (s : State) (core job : Nat) (lines : List Nat) : State :=
  let out : List CommitMsg := lines.map fun l => { core := core, line := l, job := job, sent := s.steps }
  { s with commits := s.commits ++ out }

/-- The boundary unit's state for a group's publication: the group waits for it, in the order of
arrival; it works for the group; it has done its work. -/
inductive BState where
  | busy (s : State)
  | running (s : State)
  | done (s : State) (acked : List (Nat × Word))

/-- The groups that wait for the boundary unit and can still go on. -/
def Core.bwaiting (x : Core) : List (Nat × Nat) :=
  x.bqueue.filter fun e => match tabFind x.groups e.1 with | some g => !g.trap | none => false

/-- When a group came to the boundary unit: `now` where it does only now. -/
def Core.since (x : Core) (slot now : Nat) : Nat :=
  match x.bqueue.find? fun e => e.1 == slot with | some e => e.2 | none => now

/-- A group waits for the boundary unit (R309). -/
def State.joinUnit (s : State) (core slot : Nat) : State :=
  if (s.core core).bqueue.any fun e => e.1 == slot then s
  else s.updCore core fun x => { x with bqueue := x.bqueue ++ [(slot, s.steps)] }

/-- The boundary unit is free for a group: no other has it, and none came before. -/
def State.unitFree (s : State) (core slot : Nat) : Bool :=
  (s.core core).boundary.isNone &&
  (match (s.core core).bwaiting with | [] => true | e :: _ => e.1 == slot)

/-- The group no longer waits for the boundary unit. -/
def Core.leaveUnit (x : Core) (slot : Nat) : Core :=
  { x with bqueue := x.bqueue.filter fun e => e.1 != slot }

/-- The boundary unit taken for a group. -/
def State.takeUnit (s : State) (core slot : Nat) (b : Boundary) : State :=
  s.updCore core fun x => { x.leaveUnit slot with boundary := some b }

/-- Steps 1 to 4 of R94 for a group: begin when the boundary unit is free, wait for every
acknowledgement, then send the commits and give the unit back. `fresh` sends the words under the given
number; it also counts the host's completions still awaited. -/
def State.boundaryStep (s : State) (core slot : Nat) (fresh : Nat → State → State × List Nat × Nat) : BState :=
  match (s.core core).boundary with
  | none =>
    if !s.unitFree core slot then .busy (s.joinUnit core slot)
    else
      let j := s.newJob
      let r := fresh j.1 j.2
      .running (r.1.takeUnit core slot
        { slot := slot, job := j.1, since := (s.core core).since slot s.steps, sent := true,
          pending := r.2.1, acked := [], hostWait := r.2.2 })
  | some b =>
    if b.slot != slot then .busy (s.joinUnit core slot)
    else if b.pending.isEmpty && b.hostWait == 0 then
      .done ((s.sendCommits core b.job (b.acked.map Prod.fst)).updCore core fun x =>
        { x with boundary := none }) b.acked
    else .running s

/-- An acknowledgement taken by the boundary unit. -/
def Boundary.ack (b : Boundary) (a : AckMsg) : Boundary :=
  { b with pending := b.pending.erase a.line, acked := b.acked ++ [(a.line, a.ver)] }

/-- An acknowledgement taken by a write-back. -/
def Flush.ack (f : Flush) (a : AckMsg) : Flush :=
  { f with pending := f.pending.erase a.line, acked := f.acked ++ [(a.line, a.ver)] }

/-- WRITE_THROUGH: a message reaches its home; two of one core to one line keep their order, as do those
that cross a link (R6). -/
def execWriteThrough (n : Nat) (s : State) : Host.Outcome State Fault Refusal :=
  match s.wts[n]? with
  | none => .next s
  | some w =>
    if ((s.wts.take n).any fun v => v.core == w.core && v.line == w.line) || s.behind w.route w.sent then
      .next s
    else .next (({ s with wts := listDrop1 s.wts n }.reachedBy w.route w.sent).homeWrite w)

/-- UPDATE: an update reaches a sharer, in home order for one line and core (R95, R96). -/
def execUpdate (n : Nat) (s : State) : Host.Outcome State Fault Refusal :=
  match s.upds[n]? with
  | none => .next s
  | some u =>
    if ((s.upds.take n).any fun v => v.dest == u.dest && v.line == u.line) ||
       (s.drops.any fun v => v.dest == u.dest && v.line == u.line) then .next s
    else .next ({ s with upds := listDrop1 s.upds n }.deliver u)

/-- DROP_MARK: a drop mark reaches a core (R95). -/
def execDropMark (n : Nat) (s : State) : Host.Outcome State Fault Refusal :=
  match s.drops[n]? with
  | none => .next s
  | some m => .next ({ s with drops := listDrop1 s.drops n }.deliverDrop m)

/-- COMMIT: a commit clears its publication's PEND at the slice (R94 step 4). -/
def execCommit (n : Nat) (s : State) : Host.Outcome State Fault Refusal :=
  match s.commits[n]? with
  | none => .next s
  | some m =>
    if s.behind m.route m.sent then .next s
    else .next (({ s with commits := listDrop1 s.commits n }.reachedBy m.route m.sent).updDir m.line fun d =>
      { d with pendBy := d.pendBy.filter (· != m.job) })

/-! ## Instruction fetch (R23, R329) -/

/-- Fetch at `pc` for a group of context `c` on `core`: the check of R74 with right X; the word is
read at its home, where it waits while PEND is set (R304), behind what was sent there before (R6). A scribe
fetches its march test as the listing gives it (R440). -/
def State.fetch (s : State) (core c : Nat) (pc : DWord) : Fetch :=
  match s.marchWord core c pc with
  | some w => .word w
  | none =>
  match (s.check core c (s.core core).desc pc 8 needFetch).1 with
  | .error k => .trap k
  | .ok d =>
    match s.xlate (clusterOf core) c d pc with
    | .absent on i => .absent on i
    | .at pa _ =>
      if (s.die (pa / 2 ^ 38)).out then .trap .homeOffline
      else if !s.homeReady (pa / 128) || s.behind (dieOf core, pa / 2 ^ 38) (s.steps + 1) then .wait
      else .word (memDW s.mem pa)

/-- The state after a fetch at `pc`: the caches have taken the descriptor and the extent met, and where the
home answers it has read the sector (R100, R103). A fetch consumes no poison: R103 does not name it. -/
def State.fetched (s : State) (core c : Nat) (pc : DWord) : State :=
  if (s.marchWord core c pc).isSome then s else
  let r := s.check core c (s.core core).desc pc 8 needFetch
  let s1 := s.setDesc core r.2
  match r.1 with
  | .error _ => s1
  | .ok d =>
    let s2 := s1.extentMet (clusterOf core) c d pc
    match s.fetch core c pc, s.xlate (clusterOf core) c d pc with
    | .word _, .at pa _ => (s2.atHome (pa / 128)).readSector (sectorOf pa)
    | _, _ => s2

end Sys2Proof.Machine
end

