-- ==== Sys2Proof/Machine/Scratch.lean ====
section
/-! DEFINITION. The Well's storage by name: windows and free rows (R159, R164), scratchpad lines
with their presence bits and BO tags (R131, R135, R145), FIFO queues (R157, R158), tile tags
(R160). -/

namespace Sys2Proof.Machine

/-! ## Roles -/

/-- The part of a role-indexed record that WREQ's role names. -/
def Roles.of {α : Type} (x : Roles α) : WRole → α
  | .reg => x.reg
  | .mat => x.mat
  | .scr => x.scr
  | .fifo => x.fifo
  | .shadow => x.shadow

/-- A role-indexed record with one part changed. -/
def Roles.upd {α : Type} (x : Roles α) (f : α → α) : WRole → Roles α
  | .reg => { x with reg := f x.reg }
  | .mat => { x with mat := f x.mat }
  | .scr => { x with scr := f x.scr }
  | .fifo => { x with fifo := f x.fifo }
  | .shadow => { x with shadow := f x.shadow }

/-- The roles other than CACHE. -/
def allRoles : List WRole := [.reg, .mat, .scr, .fifo, .shadow]

/-- No banks of any role. -/
def Roles.none : Roles Nat := Roles.all 0

/-- A row, and its metadata, become a row of zeros. -/
def Core.zeroRow (x : Core) (key : Nat) : Core :=
  let y := { x with wellPoison := x.wellPoison.filter fun p => p / 4 != key }
  match x.steer key with
  | some e => { y with spares := tabSet y.spares e 0 }
  | none => { y with well := tabErase y.well key }

/-- A bank filled with zeros, with the metadata a joining bank takes (R144). -/
def Core.zeroBank (x : Core) (bank : Nat) : Core :=
  let y := (List.range 256).foldl (fun x r =>
    match x.steer (256 * bank + r) with
    | some e => { x with spares := tabSet x.spares e 0 }
    | none => x) x
  { y with
    well := y.well.filter fun e => e.1 / 256 != bank
    wellPoison := y.wellPoison.filter fun p => p / 1024 != bank
    presClr := y.presClr.filter fun p => p / 256 != bank
    boTag := y.boTag.filter fun p => p / 2048 != bank }

/-! ## Windows and rows: numbered by register-space address ÷ 128 (R163) -/

/-- The first row of the MAT role. -/
def matRow : Nat := 16384

/-- A role address of a row number. -/
def rowAddr (r : Nat) : RAddr := if r < matRow then ⟨false, 128 * r⟩ else ⟨true, 128 * (r - matRow)⟩

/-- A group's window, or its predicate block, holds row `r` (R164). -/
def Group.ownsRow (g : Group) (r : Nat) : Bool :=
  let rb := g.segReg.base.toNat / 128
  let mb := g.segMat.base.toNat / 128
  !g.fw && ((decide (rb ≤ r) && decide (r < rb + g.segReg.size.toNat / 128 + 16)) ||
    (decide (mb ≤ r) && decide (r < mb + g.segMat.size.toNat / 128)))

/-- Every group that holds a window on the core: those in slots and parked continuations (R350). -/
def Core.holders (x : Core) : List Group := x.groups.map Prod.snd ++ x.parked.map Parked.group

/-- The row is on the free list (R159). -/
def Core.rowFree (x : Core) (r : Nat) : Bool :=
  !(x.holders.any fun g => g.ownsRow r) && !x.released.contains r &&
  (if r < matRow then decide (r < 256 * x.roles.reg.length)
   else decide (r < matRow + 256 * x.roles.mat.length))

/-- The lowest run of `n` free rows that starts at a multiple of `al` from `base`. -/
def Core.freeRun (x : Core) (base al n : Nat) : Option Nat :=
  (firstBelow (matRow / al) fun i =>
    (List.range n).all fun j => x.rowFree (base + al * i + j)).map fun i => base + al * i

/-- Tags of tiles set to their state at window allocation: valid 0, consumed 1 (R160). -/
def Core.emptyTiles (x : Core) (p : Nat → Bool) : Core :=
  { x with tagV := x.tagV.filter fun t => !p t, tagNC := x.tagNC.filter fun t => !p t }

/-- Rows a group gives up return zeroed to the free list, or wait for their pending writes (R159). -/
def Core.releaseRow (x : Core) (r : Nat) : Core :=
  if tabGet 0 x.rowPend r = 0 then
    match x.rowKey (rowAddr r) with
    | some k => x.zeroRow k
    | none => x
  else { x with released := r :: x.released }

/-- Every row number of a group's window and predicate block. -/
def Group.rows (g : Group) : List Nat :=
  if g.fw then []
  else (List.range (g.segReg.size.toNat / 128 + 16)).map (fun i => g.segReg.base.toNat / 128 + i) ++
    (List.range (g.segMat.size.toNat / 128)).map fun i => g.segMat.base.toNat / 128 + i

/-- A group's window released (R159). -/
def Core.releaseWindow (x : Core) (g : Group) : Core := g.rows.foldl Core.releaseRow x

/-- One pending engine write of a row more. -/
def Core.pendRow (x : Core) (r : Nat) : Core :=
  { x with rowPend := tabSet x.rowPend r (tabGet 0 x.rowPend r + 1) }

/-- One pending engine write of a row less; a released row at zero returns (R159). -/
def Core.unpendRow (x : Core) (r : Nat) : Core :=
  let n := tabGet 0 x.rowPend r - 1
  let y := { x with rowPend := if n = 0 then tabErase x.rowPend r else tabSet x.rowPend r n }
  if n = 0 && y.released.contains r then
    { y with released := y.released.filter (· != r) }.releaseRow r
  else y

/-! ## Tile tags (R160): tiles are numbered by register-space address ÷ 2,048 -/

/-- The tile at window offset `o` of a group. -/
def Group.tileAt (g : Group) (o : Nat) : Nat :=
  match g.wAddr o with
  | some r => (if r.mat then 1024 else 0) + r.a / 2048
  | none => 0

/-- Valid tag. -/
def Core.tv (x : Core) (t : Nat) : Bool := x.tagV.contains t

/-- Consumed tag. -/
def Core.tc (x : Core) (t : Nat) : Bool := !x.tagNC.contains t

/-- Tags of a tile written. -/
def Core.setTag (x : Core) (t : Nat) (v c : Bool) : Core :=
  { x with
    tagV := if v then t :: x.tagV.filter (· != t) else x.tagV.filter (· != t)
    tagNC := if c then x.tagNC.filter (· != t) else t :: x.tagNC.filter (· != t) }

/-! ## Scratchpad (R145, R179, R180, R186) -/

/-- A team's allotment on a core. -/
def State.allot (s : State) (team core : Nat) : Option Allot :=
  match tabFind s.teams team with
  | some t => tabFind t.allots core
  | none => none

/-- The state with a team's allotment on a core changed. -/
def State.updAllot (s : State) (team core : Nat) (f : Allot → Allot) : State :=
  s.updTeam team fun t => match tabFind t.allots core with
    | some a => { t with allots := tabSet t.allots core (f a) }
    | none => t

/-- Size of a team's scratchpad on a core (R145). -/
def State.scrSize (s : State) (team core : Nat) : Nat :=
  match s.allot team core with
  | some a => 32768 * a.scr.length
  | none => 0

/-- The row of a line of a team's scratchpad on a core. -/
def State.scrRow (s : State) (core team line : Nat) : Option Nat :=
  match s.allot team core with
  | some a => match a.scr[line / 256]? with
    | some slot => (s.core core).scrKey slot (line % 256)
    | none => none
  | none => none

/-- `n` bytes of a team's scratchpad, none past its end. -/
def State.scrBytes (s : State) (core team addr n : Nat) : List Byte :=
  (List.range n).map fun i =>
    match s.scrRow core team ((addr + i) / 128) with
    | some k => lineByte ((s.core core).row k) ((addr + i) % 128)
    | none => 0

/-- A number in scratchpad. -/
def State.scrNat (s : State) (core team addr n : Nat) : Nat := natOfBytes (s.scrBytes core team addr n)

/-- The bytes of `bs`, from address `a` on, that lie in line `l`, as masked line data. -/
def lineSlice (a l : Nat) (bs : List Byte) : Line × LineMask :=
  (bs.zipIdx).foldl (fun acc e =>
    if (a + e.2) / 128 = l then
      (lineSet acc.1 ((a + e.2) % 128) 1 e.1.toNat, acc.2 ||| maskOf ((a + e.2) % 128) 1)
    else acc) (0, 0)

/-- Masked bytes stored into one scratchpad line: the BO tags of the granules written clear (R135). -/
def State.putScrLine (s : State) (core team line : Nat) (data : Line) (m : LineMask) : State :=
  match s.scrRow core team line with
  | none => s
  | some k =>
    s.updCore core fun x => { x.putRow k data m with
      boTag := x.boTag.filter fun t =>
        !(t / 8 == k && (m.extractLsb' (16 * (t % 8)) 16) != 0) }

/-- Bytes stored to scratchpad by a group (R189): its first write to a line in the stage takes an
undo line at the issuing core. -/
def State.storeScr (s : State) (icore islot core team addr : Nat) (bs : List Byte) : State :=
  (dedup ((List.range bs.length).map fun i => (addr + i) / 128)).foldl (fun s l =>
    let r := lineSlice addr l bs
    match s.scrRow core team l with
    | none => s
    | some k => (s.takeUndo icore islot (.scr core team l) ((s.core core).row k)).putScrLine core team l r.1 r.2) s

/-- The presence bit of a scratchpad line is set (R131). -/
def State.present (s : State) (core team addr : Nat) : Bool :=
  match s.scrRow core team (addr / 128) with
  | some k => !(s.core core).presClr.contains k
  | none => true

/-- The first poisoned sector of a scratchpad access (R103). -/
def State.scrBad (s : State) (core team addr n : Nat) : Option Sector :=
  (List.range n).findSome? fun i =>
    match s.scrRow core team ((addr + i) / 128) with
    | some k =>
      let sec := 4 * k + (addr + i) % 128 / 32
      if (s.core core).wellPoison.contains sec then some ⟨some core, sec⟩ else none
    | none => none

/-- The first poisoned sector of `n` bytes of a group's window from offset `o` on. -/
def Group.winBad (g : Group) (x : Core) (core o n : Nat) : Option Sector :=
  (List.range (n / 32)).findSome? fun i =>
    match g.wAddr (o + 32 * i) with
    | none => none
    | some r => match x.rowKey r with
      | none => none
      | some k =>
        let sec := 4 * k + r.a % 128 / 32
        if x.wellPoison.contains sec then some ⟨some core, sec⟩ else none

/-- The sector of a device physical address. -/
def memSector (pa : Nat) : Sector := ⟨none, pa / 32⟩

/-- A sector's physical address, in device memory or in its core's Well, bank by bank. -/
def Sector.addr (q : Sector) : DWord := BitVec.ofNat 64 (32 * q.num)

/-- The team of a group's cluster set that a core holds, live or ended (R180, R328). -/
def State.setTeam (s : State) (team core : Nat) : Option (Nat × Team) :=
  match tabFind s.teams team with
  | none => none
  | some t =>
    if t.cores.contains core then some (team, t)
    else match t.cset with
      | none => none
      | some k => s.teams.find? fun e => e.2.cset == some k && e.2.cores.contains core

/-! ## FIFO queues (R157, R158) -/

/-- Bytes of an entry. -/
def Fifo.bytes (f : Fifo) : Nat := 4 * 2 ^ f.esz

/-- A control record's 64 bits (R157). -/
def Fifo.word (f : Fifo) : DWord :=
  BitVec.ofNat 64 (f.base + 2 ^ 16 * f.depth + 2 ^ 32 * f.esz + 2 ^ 34 * b2n f.en + 2 ^ 48 * f.count)

/-- The row that holds byte `a` of FIFO storage. -/
def Core.fifoRow (x : Core) (a : Nat) : Option Nat :=
  (x.roles.fifo[a / 32768]?).map fun b => 256 * b + a % 32768 / 128

/-- FIFO storage bytes. -/
def Core.fifoNat (x : Core) (a n : Nat) : Nat :=
  natOfBytes ((List.range n).map fun i =>
    match x.fifoRow (a + i) with
    | some k => lineByte (x.row k) ((a + i) % 128)
    | none => 0)

/-- FIFO storage bytes written. -/
def Core.fifoStore (x : Core) (a : Nat) (bs : List Byte) : Core :=
  bs.zipIdx.foldl (fun x e =>
    match x.fifoRow (a + e.2) with
    | some k => x.putRow k (lineSet 0 ((a + e.2) % 128) 1 e.1.toNat) (maskOf ((a + e.2) % 128) 1)
    | none => x) x

/-- Where entry `i` of a queue's storage lies. -/
def Fifo.at (f : Fifo) (i : Nat) : Nat := 128 * f.base + (i % max f.depth 1) * f.bytes

/-- Append an entry (R158). -/
def Core.push (x : Core) (q : Nat) (v : Nat) : Core :=
  match x.fifos[q]? with
  | none => x
  | some f =>
    { x.fifoStore (f.at (f.head + f.count)) (bytesOfNat f.bytes v) with
      fifos := listUpd (fun f => { f with count := f.count + 1 }) x.fifos q }

/-- Remove the oldest entry (R158). -/
def Core.pop (x : Core) (q : Nat) : Nat × Core :=
  match x.fifos[q]? with
  | none => (0, x)
  | some f =>
    (x.fifoNat (f.at f.head) f.bytes,
     { x with fifos := listUpd (fun f => { f with
         count := f.count - 1, head := (f.head + 1) % max f.depth 1 }) x.fifos q })

/-- The storage range of an enabled queue, in FIFO role bytes. -/
def Fifo.span (f : Fifo) : Nat × Nat := (128 * f.base, 128 * f.base + f.depth * f.bytes)

/-- Two ranges meet. -/
def meets (a b : Nat × Nat) : Bool := decide (a.1 < b.2) && decide (b.1 < a.2)

/-- The queue a control word describes. -/
def Fifo.ofWord (v : DWord) : Fifo :=
  { base := (v.extractLsb' 0 14).toNat, depth := (v.extractLsb' 16 16).toNat,
    esz := (v.extractLsb' 32 2).toNat, en := v.getLsbD 34, count := 0, head := 0 }

/-- A control write is accepted (R158). -/
def Core.ctlOk (x : Core) (q : Nat) (v : DWord) : Bool :=
  let f := Fifo.ofWord v
  (v &&& 0xFFFFFFF80000C000#64) == 0 && f.esz != 3 &&
  (match x.fifos[q]? with | some o => o.count == 0 | none => false) &&
  (!f.en || (f.depth != 0 && decide (f.span.2 ≤ 32768 * x.roles.fifo.length) &&
    (x.fifos.zipIdx.all fun o => o.2 == q || !o.1.en || !meets f.span o.1.span)))

end Sys2Proof.Machine
end

