-- ==== Sys2Proof/Machine/Request.lean ====
section
/-! DEFINITION. Copy requests as data: their fields, places, receivers and the bytes they touch (R123,
R124, R129 to R132). -/

namespace Sys2Proof.Machine

/-- A field of a word. -/
def fld (w : DWord) (lo n : Nat) : Nat := (w.extractLsb' lo n).toNat

/-- Twice the element size in bytes of a format (R218). -/
def es2 (fmt : Nat) : Nat := fmtBits fmt / 4

/-- The cores a multicast mask names (R123). -/
def mcastCores (core : Nat) (m : BitVec 4) : List Nat :=
  ((List.range 4).filter fun i => m.getLsbD i).map fun i => core / 4 * 4 + i

/-- Word `i` of a request. -/
def CopyReq.word (q : CopyReq) (i : Nat) : DWord := (q.words[i]?).getD 0

/-! ## Requests (R123, R124) -/

/-- A location word's place. -/
inductive CLoc where
  | glb (p : DWord)
  | scr (core a : Nat)
  | reg (a : Nat)
  deriving DecidableEq, Repr

/-- Reserved bits and kinds of a location word (R124). LCORE is 0 for SCR and REG: a word with another
is refused as ILLEGAL_OP like a reserved bit, which check 1 of R126 does not say in so many words. -/
def locOk (w : DWord) : Bool :=
  fld w 44 20 != 0 ||
  (fld w 42 2 != 3 && fld w 21 19 == 0 && (fld w 42 2 == 1 || fld w 40 2 == 0))

/-- The place a well-formed location word names, for requests of a core. -/
def locOf (core : Nat) (w : DWord) : CLoc :=
  if fld w 44 20 ≠ 0 then .glb w
  else if fld w 42 2 = 2 then .reg (fld w 0 21)
  else if fld w 42 2 = 1 then .scr (core / 4 * 4 + fld w 40 2) (fld w 0 21)
  else .scr core (fld w 0 21)

/-- ROWLEN. -/
def CopyReq.rowLen (q : CopyReq) : Nat := fld (q.word 2) 0 20
/-- The number of rows. -/
def CopyReq.rows (q : CopyReq) : Nat := fld (q.word 2) 20 12 + 1
/-- Source pitch in bytes. -/
def CopyReq.spitch (q : CopyReq) : Nat := 16 * fld (q.word 2) 32 16
/-- Destination pitch in bytes. -/
def CopyReq.dpitch (q : CopyReq) : Nat := 16 * fld (q.word 2) 48 16
/-- MCAST. -/
def CopyReq.mcast (q : CopyReq) : BitVec 4 := (q.word 3).extractLsb' 0 4
/-- CLRP. -/
def CopyReq.clrp (q : CopyReq) : Bool := (q.word 3).getLsbD 4
/-- SETV. -/
def CopyReq.setv (q : CopyReq) : Bool := (q.word 3).getLsbD 5
/-- WCON. -/
def CopyReq.wcon (q : CopyReq) : Bool := (q.word 3).getLsbD 6
/-- HSV. -/
def CopyReq.hsv (q : CopyReq) : Bool := (q.word 3).getLsbD 24
/-- HDV. -/
def CopyReq.hdv (q : CopyReq) : Bool := (q.word 3).getLsbD 25
/-- TLN. -/
def CopyReq.tln (q : CopyReq) : BitVec 4 := (q.word 3).extractLsb' 26 4
/-- TINC. -/
def CopyReq.tinc (q : CopyReq) : Nat := fld (q.word 3) 30 8
/-- BOE. -/
def CopyReq.boe (q : CopyReq) : Bool := (q.word 3).getLsbD 55
/-- The barrier object's address. -/
def CopyReq.boa (q : CopyReq) : Nat := 16 * fld (q.word 3) 38 17

/-- The request converts elements (R130). -/
def CopyReq.converts (q : CopyReq) : Bool := q.hsv || q.hdv

/-- The format of a side (R130): its handle's, else the other side's. Where a given handle names no
sealed entry the other side's stands in, or format 0, in the checks that come before SEAL_BAD; the spec
does not say which. -/
def CopyReq.fmt (q : CopyReq) (dst : Bool) : Nat :=
  let f := fun (h : Option Handle) => h.map fun h => slotFmt h.slot
  (if dst then (f q.hdst).or (f q.hsrc) else (f q.hsrc).or (f q.hdst)).getD 0

/-- Bytes of one row on a side. -/
def CopyReq.rowBytes (q : CopyReq) (dst : Bool) : Nat :=
  if q.converts then q.rowLen * es2 (q.fmt dst) / 2 else q.rowLen

/-- Bytes from the first to the last byte on a side. -/
def CopyReq.span (q : CopyReq) (dst : Bool) : Nat :=
  (q.rows - 1) * (if dst then q.dpitch else q.spitch) + q.rowBytes dst

/-- The receivers of a request of `core` (R129). -/
def CopyReq.receivers (q : CopyReq) (core : Nat) : List Nat :=
  match locOf core (q.word 1) with
  | .scr c _ => if q.mcast == 0 then [c] else mcastCores core q.mcast
  | _ => [core]

/-- The lines a request writes at its receivers (R131). -/
def CopyReq.dstLines (q : CopyReq) (core : Nat) : List (Nat × Nat) :=
  match locOf core (q.word 1) with
  | .scr _ a =>
    let ls := dedup ((List.range q.rows).flatMap fun r =>
      let lo := a + q.dpitch * r
      (List.range ((lo + q.rowBytes true + 127) / 128 - lo / 128)).map fun i => lo / 128 + i)
    (q.receivers core).flatMap fun c => ls.map fun l => (c, l)
  | _ => []

/-- The window offsets a request writes, row by row (R132). -/
def CopyReq.regRows (q : CopyReq) (core : Nat) : List Nat :=
  match locOf core (q.word 1) with
  | .reg a => dedup ((List.range q.rows).flatMap fun r =>
      let lo := a + q.dpitch * r
      (List.range ((lo + q.rowBytes true + 127) / 128 - lo / 128)).map fun i =>
        q.seg.base.toNat / 128 + lo / 128 + i)
  | _ => []

/-! ## Scratchpad bytes a request touches (R147, R354) -/

/-- The byte ranges of a side's rows, counted from the side's first byte. -/
def CopyReq.rowSpans (q : CopyReq) (dst : Bool) : List (Nat × Nat) :=
  (List.range q.rows).map fun r =>
    let o := r * (if dst then q.dpitch else q.spitch)
    (o, o + q.rowBytes dst)

/-- Scratchpad ranges, by core, that a request kicked at `core` reads: (core, from, to). -/
def CopyReq.scrReads (q : CopyReq) (core : Nat) : List (Nat × Nat × Nat) :=
  match locOf core (q.word 0) with
  | .scr c a => (q.rowSpans false).map fun r => (c, a + r.1, a + r.2)
  | _ => []

/-- Scratchpad ranges it writes: its rows at every receiver, and its barrier objects. -/
def CopyReq.scrWrites (q : CopyReq) (core : Nat) : List (Nat × Nat × Nat) :=
  (match locOf core (q.word 1) with
   | .scr _ a => (q.receivers core).flatMap fun c => (q.rowSpans true).map fun r => (c, a + r.1, a + r.2)
   | _ => []) ++
  (if q.boe then (q.receivers core).map fun c => (c, q.boa, q.boa + 16) else [])

end Sys2Proof.Machine
end

