-- ==== Sys2Proof/Machine/Well.lean ====
section
/-! DEFINITION. Growing and shrinking the Well's roles, WREQ, WQRY and WTAG (chapter 08). -/

namespace Sys2Proof

/-- The role of WREQ that WQRY's role is, none for CACHE. -/
def QRole.wrole : QRole → Option WRole
  | .reg => some .reg | .mat => some .mat | .scr => some .scr | .fifo => some .fifo
  | .shadow => some .shadow | .cache => none

end Sys2Proof

namespace Sys2Proof.Machine

/-! ## Growing (R146) -/

/-- What a leaving CACHE way holds that must move: dirty and pinned lines first, then marked ones.
`true` marks those that must fit. -/
def Core.leavers (x : Core) (w : Nat) : List (Bool × Nat) :=
  ((x.l1.filter fun c => c.way == w && c.dirty != 0).map fun c => (true, c.line)) ++
  ((x.partials.filter fun c => c.way == w).map fun c => (true, c.line)) ++
  ((x.l1.filter fun c => c.way == w && c.dirty == 0 && c.mark).map fun c => (false, c.line))

/-- A way below `w` of a line's set that is free or holds what may be replaced. -/
def Core.refuge (x : Core) (w line : Nat) : Option Nat :=
  let st := lineSet8 line
  let used := x.waysUsed st
  match firstBelow w fun i => !used.contains i with
  | some i => some i
  | none => firstBelow w fun i =>
    (x.l1.any fun c => lineSet8 c.line == st && c.way == i && c.dirty == 0 && !c.mark) ||
    (x.decided.any fun d => d.set == st && d.way == some i)

/-- Move a line out of way `w`. -/
def State.moveLine (s : State) (core w line : Nat) : Option State :=
  match (s.core core).refuge w line with
  | none => none
  | some i =>
    some ((s.evictWay core (lineSet8 line) i).updCore core fun x => { x with
      l1 := x.l1.map fun c => if c.line == line && c.way == w then { c with way := i } else c
      partials := x.partials.map fun c =>
        if c.line == line && c.way == w then { c with way := i } else c })

/-- Move every line of a list out of way `w`; which kind did not fit, if any. -/
def State.moveLines (s : State) (core w : Nat) : List (Bool × Nat) → Except Bool State
  | [] => .ok s
  | (must, l) :: r =>
    match s.moveLine core w l with
    | none => .error must
    | some t => t.moveLines core w r

/-- The lines of a list that way `w` still holds. -/
def Core.stillIn (x : Core) (w : Nat) (l : List (Bool × Nat)) : List (Bool × Nat) :=
  l.filter fun e => (x.l1.any fun c => c.line == e.2 && c.way == w) ||
    x.partials.any fun c => c.line == e.2 && c.way == w

/-- The highest CACHE bank, emptied, leaves CACHE. -/
def State.leaveCache (s : State) (core w : Nat) : State × Nat :=
  let x := s.core core
  let bank := (x.roles.cache[w]?).getD 0
  let s1 := s.updCore core fun x => { x with decided := x.decided.filter fun d => d.way != some w }
  let s2 := ((s1.core core).l1.filter fun c => c.way == w).foldl (fun s c => s.dropCopy core c.line) s1
  (s2.updCore core fun x => { x.zeroBank bank with
    roles := { x.roles with cache := x.roles.cache.take w } }, bank)

/-- Lines moved out of way `w` after a capacity point: those that are dirty or pinned must fit, the others,
whose marks are cleared, stay behind where they find no room. -/
def State.moveRest (s : State) (core w : Nat) : List (Bool × Nat) → Option State
  | [] => some s
  | (must, l) :: r =>
    match s.moveLine core w l with
    | some t => t.moveRest core w r
    | none => if must then none else s.moveRest core w r

/-- The lines of a list that way `w` still holds, the dirty and pinned ones first and marked as such. -/
def Core.restOf (x : Core) (w : Nat) (l : List (Bool × Nat)) : List (Bool × Nat) :=
  let must := fun (n : Nat) => (x.l1.any fun c => c.line == n && c.way == w && c.dirty != 0) ||
    x.partials.any fun c => c.line == n && c.way == w
  let here := (x.stillIn w l).map fun e => (must e.2, e.2)
  here.filter Prod.fst ++ here.filter fun e => !e.1

/-- The lines that must move are moved out of a way; where its marked lines do not fit, the core takes
a capacity point first and then moves the lines (R146); while that point cannot be taken in one step, none. -/
def State.emptyWay (s : State) (core w : Nat) : Option State :=
  let ls := (s.core core).leavers w
  match s.moveLines core w ls with
  | .ok t => some t
  | .error true => none
  | .error false =>
    if !s.canPublish core then none
    else
      let r := s.publishNow core fun _ => false
      let s1 := r.1.acquire core r.2 false
      s1.moveRest core w ((s1.core core).restOf w ls)

/-- A bank joins a role as its next slot (R142, R144). -/
def Core.join (x : Core) (r : WRole) (bank : Nat) : Core :=
  let n := (x.roles.of r).length
  let y := { x with roles := x.roles.upd (fun t => t ++ [bank]) r }
  match r with
  | .reg => y.emptyTiles fun t => t / 16 == n
  | .mat => y.emptyTiles fun t => t / 16 == 64 + n
  | _ => y

/-- Growing a role by one bank for a team, or a transient condition (R146). -/
def State.growOne (s : State) (core team : Nat) (r : WRole) : Option State :=
  match (s.core core).roles.cache.length with
  | 0 => none
  | w + 1 =>
    match s.emptyWay core w with
    | none => none
    | some s1 =>
      let q := s1.leaveCache core w
      let slot := ((q.1.core core).roles.of r).length
      let s2 := q.1.updCore core fun x => x.join r q.2
      match r with
      | .scr => some (s2.updAllot team core fun a => { a with scr := a.scr ++ [slot] })
      | _ => some s2

/-- Growing by `k` banks: all or none. -/
def State.growBy (s : State) (core team : Nat) (r : WRole) : Nat → Option State
  | 0 => some s
  | k + 1 => match s.growOne core team r with
    | none => none
    | some t => t.growBy core team r k

/-! ## Shrinking (R147 to R151) -/

/-- Why a step of a shrink is refused. -/
inductive NoShrink where
  | live | transient
  deriving DecidableEq, Repr

/-- Every queued or running request of a core (R125). -/
def Core.requests (x : Core) : List CopyReq := x.copyq ++ x.active.map Transfer.req

/-- Some request of the cluster writes bytes `lo` to `hi` of a team's scratchpad on a core, or, with
`reads`, reads or writes them. -/
def State.copyTouches (s : State) (core team lo hi : Nat) (reads : Bool) : Bool :=
  (List.range 4).any fun i =>
    let k := core / 4 * 4 + i
    (s.core k).requests.any fun q => (q.scrWrites k ++ if reads then q.scrReads k else []).any fun r =>
      r.1 == core && meets (lo, hi) r.2 &&
      (match s.setTeam q.team core with | some e => e.1 == team | none => false)

/-- Who holds a SCR slot, and where in its list (R145). -/
def State.slotOwner (s : State) (core slot : Nat) : Option (Nat × Nat) :=
  s.teams.findSome? fun e =>
    match tabFind e.2.allots core with
    | some a => (a.scr.findIdx? (· == slot)).map fun i => (e.1, i)
    | none => none

/-- A granule holds an armed barrier object still expecting bytes, or one a group waits on (R149). -/
def State.boLive (s : State) (core team addr : Nat) : Bool :=
  match s.scrRow core team (addr / 128) with
  | none => false
  | some k =>
    (s.core core).boTag.contains (8 * k + addr % 128 / 16) &&
    (s.scrNat core team (addr + 8) 1 % 4 == 1 && s.scrNat core team addr 4 != 0)

/-- A scratchpad line holds something live (R149). -/
def State.lineLive (s : State) (core team line : Nat) : Bool :=
  !s.present core team (128 * line) ||
  ((List.range 8).any fun g => s.boLive core team (128 * line + 16 * g)) ||
  ((s.core core).groups.any fun e => e.2.team == team &&
    (match e.2.parkBo with | some (a, _) => a / 128 == line | none => false))

/-- Contents and metadata of one bank copied into another (R148). -/
def Core.copyBank (x : Core) (src dst : Nat) : Core :=
  let y := (List.range 256).foldl (fun x i =>
    x.putRow (256 * dst + i) (x.row (256 * src + i)) (BitVec.allOnes 128)) x
  let mv := fun (n : Nat) (l : List Nat) =>
    (l.filter fun p => p / n != dst) ++ ((l.filter fun p => p / n == src).map fun p => p + n * dst - n * src)
  { y with wellPoison := mv 1024 y.wellPoison, presClr := mv 256 y.presClr, boTag := mv 2048 y.boTag }

/-- The role's highest slot leaves and its bank joins CACHE, every line invalid (R141, R144). -/
def Core.dropSlot (x : Core) (r : WRole) : Core :=
  match (x.roles.of r).getLast? with
  | none => x
  | some b =>
    let y := x.zeroBank b
    { y with roles := let q := y.roles.upd (fun t => t.dropLast) r
                      { q with cache := q.cache ++ [b] } }

/-- Elements along K of a dense step (R257). -/
def mDense (fmt : Nat) : Nat := if fmt = 6 then 128 else if fmt = 4 || fmt = 5 then 32 else 16

/-- Bytes of A and of B of one step (R257). -/
def mBytes (fmt : Nat) (sp : Bool) : Nat × Nat :=
  let n := if fmt = 6 then 4096 else 2048
  if sp then (2 * n, 3 * n) else (n, n)

/-- Groups of 12 of a sparse step (R263). -/
def mGroups (fmt : Nat) : Nat := mDense fmt / 4

/-- Scale blocks per row of A and per column of B of one step (R266). -/
def mBlocks (sp : Bool) : Nat × Nat := if sp then (2, 3) else (1, 1)

/-- The fields of a META record (R265): MADDR, MPITCH, NSEL. -/
def metaOf (r : DWord) : Nat × Nat × Nat :=
  ((r.extractLsb' 0 21).toNat, (r.extractLsb' 21 16).toNat, (r.extractLsb' 37 2).toNat)

/-- The fields of a SCALE record (R266): ASA, BSA. -/
def scaleOf (r : DWord) : Nat × Nat := ((r.extractLsb' 0 21).toNat, (r.extractLsb' 21 21).toNat)

/-- Window offsets, or scratchpad addresses, of the fragments of the step an operation is at. -/
def MSteps.frags (q : MSteps) : Nat × Nat := (q.a + 2048 * q.sa * q.next, q.b + 2048 * q.sb * q.next)

/-- The scratchpad ranges the step an operation is at reads: fragments of MLOOPS, metadata, scale
bytes. -/
def MSteps.stepRanges (q : MSteps) : List (Nat × Nat) :=
  let m := metaOf q.mrec
  let c := scaleOf q.srec
  let n := mBytes q.fmt q.sp
  let bl := mBlocks q.sp
  let f := q.frags
  (if q.scr then [(f.1, f.1 + n.1), (f.2, f.2 + n.2)] else []) ++
  (if q.sp then (List.range 64).map fun i =>
     let a := m.1 + i * m.2.1 + 2 * mGroups q.fmt * q.next
     (a, a + 2 * mGroups q.fmt) else []) ++
  (if q.fmt = 6 then
     [(c.1 + 64 * bl.1 * q.next, c.1 + 64 * bl.1 * (q.next + 1)),
      (c.2 + 64 * bl.2 * q.next, c.2 + 64 * bl.2 * (q.next + 1))] else [])

/-- The window ranges the step reads its fragments from. -/
def MSteps.stepWindow (q : MSteps) : List (Nat × Nat) :=
  let n := mBytes q.fmt q.sp
  let f := q.frags
  if q.scr then [] else [(f.1, f.1 + n.1), (f.2, f.2 + n.2)]

/-- The operation at each step whose operands it has still to read. -/
def MSteps.ahead (q : MSteps) : List MSteps :=
  let from_ := if q.sums.isSome then q.next + 1 else q.next
  (List.range (q.k - from_)).map fun i => { q with next := from_ + i }

/-- The scratchpad ranges an operation still reads. -/
def MSteps.ranges (q : MSteps) : List (Nat × Nat) := q.ahead.flatMap MSteps.stepRanges

/-- The scratchpad ranges a matrix operation still reads. -/
def MOp.ranges (o : MOp) : List (Nat × Nat) :=
  match o.kind with
  | .steps q => q.ranges
  | _ => []

/-- The block of the MAT segment that accumulator `a` of some views is. -/
def accBlock (v : Views) (a : Nat) : Nat := (v.acc.toNat + 16384 * a - matPart) / 16384

/-- The window offset of accumulator `a` of some views. -/
def accAt (v : Views) (a : Nat) : Nat := v.acc.toNat + 16384 * a

/-- The bytes of an operation's accumulator, and of `n` from there on. -/
def MOp.accRange (o : MOp) (n : Nat) : Nat × Nat :=
  (accAt o.views o.acc, accAt o.views o.acc + 16384 * n)

/-- The window ranges a matrix operation still reads. -/
def MOp.windowReads (o : MOp) : List (Nat × Nat) :=
  match o.kind with
  | .steps q => o.accRange 1 :: q.ahead.flatMap MSteps.stepWindow
  | .drain _ _ _ _ _ => [o.accRange 1]
  | .ldacc w _ src _ => [(src, src + 512 * fmtBits (slotFmt w))]
  | _ => []

/-- The window ranges a matrix operation still writes. -/
def MOp.windowWrites (o : MOp) : List (Nat × Nat) :=
  match o.kind with
  | .steps _ => [o.accRange 1]
  | .zero n => [o.accRange n]
  | .drain w _ _ dst _ => [o.accRange 1, (dst, dst + 512 * fmtBits (slotFmt w))]
  | .ldacc _ _ _ _ => [o.accRange 1]
  | .rest ws _ _ => ws.map fun e => (128 * e.row, 128 * e.row + 128)
  | .mark _ _ => []

/-- Bytes per entry and entries of a region (R282). -/
def regionSize : SaRegion → Nat × Nat
  | .bias => (2, 2048)
  | .coup => (128, 2048)
  | .col | .state => (1, 2048)
  | .exp => (2, 64)
  | .ghost => (1, 64)

/-- The scratchpad range of a queued SALD of a team. -/
def ACmd.range (c : ACmd) : Option (Nat × Nat) :=
  match c.kind with
  | .load r a _ n => some (a, a + (regionSize r).1 * n)
  | _ => none

/-- A matrix operation of a team's groups on a core (R270), or a queued SALD of the team (R296), still
reads bytes `lo` to `hi` of its scratchpad. -/
def Core.engineTouches (x : Core) (team lo hi : Nat) : Bool :=
  (x.groups.any fun e => e.2.team == team &&
    e.2.streams.any fun ops => ops.any fun o => o.ranges.any fun r => meets (lo, hi) r) ||
  x.arrays.any fun a => a.queue.any fun c => c.team == team &&
    (match c.range with | some r => meets (lo, hi) r | none => false)

/-- What a shrink is made for: a WREQ; the test whether one meets LIVE, transient conditions left out;
the allotment of a team that has ended. -/
inductive Shrink where
  | wreq | weigh | ended
  deriving DecidableEq, Repr

/-- One step of a SCR shrink: the team's last listed slot goes, with relocation (R148). An ended team's
slot holds nothing live, and waits only for requests that still write into it (R354). -/
def State.shrinkScr (s : State) (core team : Nat) (m : Shrink) : Except NoShrink State :=
  match s.allot team core with
  | none => .error .live
  | some a =>
    match a.scr.getLast? with
    | none => .error .live
    | some slot =>
      let i := a.scr.length - 1
      let top := (s.core core).roles.scr.length - 1
      let owner := s.slotOwner core top
      let used := fun (t j : Nat) (reads : Bool) =>
        s.copyTouches core t (32768 * j) (32768 * (j + 1)) reads ||
        (s.core core).engineTouches t (32768 * j) (32768 * (j + 1))
      let busy := used team i (m != .ended) || (match owner with | some (t, j) => used t j true | none => false)
      if m != .ended && ((List.range 256).any fun l => s.lineLive core team (256 * i + l)) then .error .live
      else if m != .weigh && busy then .error .transient
      else
        let s1 := s.updAllot team core fun a => { a with scr := a.scr.dropLast }
        let x := s.core core
        let s2 := if slot = top then s1
          else
            match owner, x.roles.scr[top]?, x.roles.scr[slot]? with
            | some (t, j), some src, some dst =>
              (s1.updCore core fun x => x.copyBank src dst).updAllot t core fun a =>
                { a with scr := listUpd (fun _ => slot) a.scr j }
            | _, _, _ => s1
        .ok (s2.updCore core fun x => x.dropSlot .scr)

/-- Where an empty queue of the leaving FIFO slot can go: the lowest free range below it (R150). -/
def Core.fifoRoom (x : Core) (q : Nat) (f : Fifo) : Option Nat :=
  let lim := 32768 * (x.roles.fifo.length - 1)
  firstBelow (lim / 128 + 1) fun b =>
    decide (128 * b + f.depth * f.bytes ≤ lim) &&
    x.fifos.zipIdx.all fun o => o.2 == q || !o.1.en || !meets (128 * b, 128 * b + f.depth * f.bytes) o.1.span

/-- The enabled queues of the highest FIFO slot moved below it, in queue order; none when one is
not empty or finds no room (R147, R150). -/
def Core.fifoMove (x : Core) : List Nat → Option Core
  | [] => some x
  | q :: r =>
    let lim := 32768 * (x.roles.fifo.length - 1)
    match x.fifos[q]? with
    | none => some x
    | some f =>
      if f.en && decide (f.span.2 > lim) then
        if f.count != 0 then none
        else match x.fifoRoom q f with
          | none => none
          | some b => { x with fifos := listUpd (fun f => { f with base := b, head := 0 }) x.fifos q }.fifoMove r
      else x.fifoMove r

/-- An undo line of the leaving SHADOW slot, whose stage has closed, put into a free row below row
`lim`; without one its team's interval has overflowed (R342). -/
def State.moveUndo (s : State) (core lim : Nat) (u : Undo) : State :=
  let x := s.core core
  match firstBelow lim fun p => !(x.undo.any fun v => v.place == p) with
  | some p => s.setCore core { x with undo := x.undo.map fun v => if v.place == u.place then { v with place := p } else v }
  | none => (s.setCore core { x with undo := x.undo.filter fun v => v.place != u.place }).updTeam u.team
      fun t => { t with intOvf := true }

/-- A SHADOW shrink's step: only lines of open stages hold it up; what lines of earlier stages keep for
their interval moves down. -/
def State.shrinkShadow (s : State) (core : Nat) (m : Shrink) : Except NoShrink State :=
  let lim := 256 * ((s.core core).roles.shadow.length - 1)
  let here := (s.core core).undo.filter fun u => decide (u.place ≥ lim)
  if m != .weigh && here.any Undo.stage then .error .transient
  else .ok ((here.foldl (fun s u => s.moveUndo core lim u) s).updCore core fun x => x.dropSlot .shadow)

/-- One step of a shrink (R147). -/
def State.shrinkOne (s : State) (core team : Nat) (r : WRole) (m : Shrink) : Except NoShrink State :=
  let x := s.core core
  match r with
  | .scr => s.shrinkScr core team m
  | .reg | .mat =>
    let n := (x.roles.of r).length
    let base := (match r with | .mat => matRow | _ => 0) + 256 * (n - 1)
    if n = 0 then .error .live
    else if (List.range 256).any fun i => x.holders.any fun g => g.ownsRow (base + i) then .error .live
    else if m != .weigh && (List.range 256).any fun i => x.released.contains (base + i) then .error .transient
    else .ok (s.updCore core fun x => x.dropSlot r)
  | .fifo =>
    match x.fifoMove (List.range 16) with
    | none => .error .live
    | some y => .ok (s.setCore core (y.dropSlot .fifo))
  | .shadow => s.shrinkShadow core m

/-- Shrinking by `k` banks: all or none. -/
def State.shrinkBy (s : State) (core team : Nat) (r : WRole) (m : Shrink) : Nat → Except NoShrink State
  | 0 => .ok s
  | k + 1 => match s.shrinkOne core team r m with
    | .error e => .error e
    | .ok t => t.shrinkBy core team r m k

/-- A shrink decided: LIVE at any of its steps comes before a transient condition (R152). -/
def State.shrink (s : State) (core team : Nat) (r : WRole) (k : Nat) : Except NoShrink State :=
  match s.shrinkBy core team r .weigh k with
  | .error e => .error e
  | .ok _ => s.shrinkBy core team r .wreq k

/-- Floors (R143). -/
def roleFloor : WRole → Nat
  | .reg => 1
  | .shadow => 2
  | _ => 0

/-- Banks a role owes CACHE after team ends, given back as far as R147 and the floors of R143 let
them go. -/
def State.payRole (s : State) (core : Nat) (r : WRole) : Nat → State
  | 0 => s
  | k + 1 =>
    match (if ((s.core core).roles.of r).length ≤ roleFloor r then .error .live
      else s.shrinkOne core 0 r .ended) with
    | .error _ => s
    | .ok t => (t.updCore core fun x => { x with owed := x.owed.upd (· - 1) r }).payRole core r k

/-- The SCR slots of an ended team given back once no queued copy writes into them (R354). -/
def State.payScr (s : State) (core team : Nat) : Nat → State
  | 0 => s
  | k + 1 =>
    match s.shrinkScr core team .ended with
    | .error _ => s
    | .ok t => t.payScr core team k

/-- Ended teams still owe the core's CACHE something. -/
def Core.owes (x : Core) : Bool :=
  [WRole.reg, .mat, .fifo, .shadow].any (fun r => x.owed.of r != 0) || !x.scrReturning.isEmpty

/-- Everything ended teams still owe a core's CACHE, as far as it can go now (R145, R354). -/
def State.settleOwed (s : State) (core : Nat) : State :=
  if !(s.core core).owes then s
  else
  let s1 := [WRole.reg, .mat, .fifo, .shadow].foldl (fun s r =>
    s.payRole core r (((s.core core).owed).of r)) s
  let s2 := (s1.core core).scrReturning.foldl (fun s t => s.payScr core t 64) s1
  s2.updCore core fun x => { x with
    scrReturning := x.scrReturning.filter fun t => decide (s2.scrSize t core > 0) }

/-- What ended teams owe on the cores of a core's cluster. -/
def State.settleCluster (s : State) (core : Nat) : State :=
  (List.range 4).foldl (fun s i => s.settleOwed (core / 4 * 4 + i)) s

/-! ## WREQ (R152 to R155) -/

/-- WREQ's statuses (R155). -/
inductive WStat where
  | granted | busy | live | floor | owned | ceiling | deferred
  deriving DecidableEq, Repr

/-- The code of a status (R155). -/
def WStat.code : WStat → Nat
  | .granted => 0 | .busy => 1 | .live => 2 | .floor => 3 | .owned => 4 | .ceiling => 5 | .deferred => 6

/-- The largest CACHE minimum of a team resident on the core, at least the floor of 4 (R152). -/
def State.cacheFloor (s : State) (core : Nat) : Nat :=
  s.teams.foldl (fun m e => match tabFind e.2.allots core with
    | some a => if e.2.live then max m a.min.cache else m
    | none => m) 4

/-- Banks of a team's allotment in a role (R145). -/
def Allot.banks (a : Allot) (r : WRole) : Nat := a.min.of r + a.granted.of r

/-- `k` banks more in a role would exceed a ceiling set for the team: on the role, or on the total. -/
def State.aboveCeiling (s : State) (team : Nat) (a : Allot) (r : WRole) (k : Nat) : Bool :=
  match tabFind s.teams team with
  | none => false
  | some t =>
    decide (allRoles.foldl (fun n q => n + a.banks q) 0 + k > t.ceil.total) ||
    (match t.ceil.role.of r with | some c => decide (a.banks r + k > c) | none => false)

/-- The rows of R152 that hardware and firmware decide before any bank moves. -/
def State.wreqEarly (s : State) (core team : Nat) (r : WRole) (k : Int) : Option WStat :=
  let x := s.core core
  let a := (s.allot team core).getD ⟨Roles.none, Roles.none, [], Roles.none⟩
  if k = 0 then some .granted
  else if k < 0 ∧ -k > a.granted.of r then some .owned
  else if (k < 0 ∧ ((x.roles.of r).length : Int) + k < roleFloor r) ∨
      (k > 0 ∧ (x.roles.cache.length : Int) - k < s.cacheFloor core) then some .floor
  else if k > 0 ∧ (s.aboveCeiling team a r k.toNat ∨ (r = .scr ∧ (a.scr.length : Int) + k > 64)) then
    some .ceiling
  else none

/-- DECIDE of R155 without the deferral: a status, or none for a transient condition. -/
def State.wreqTry (s : State) (core team : Nat) (r : WRole) (k : Int) : Option WStat × State :=
  match s.wreqEarly core team r k with
  | some st => (some st, s)
  | none =>
    if k > 0 then
      match s.growBy core team r k.toNat with
      | none => (none, s)
      | some t => (some .granted, t.updAllot team core fun a =>
          { a with granted := a.granted.upd (· + k.toNat) r })
    else
      match s.shrink core team r (-k).toNat with
      | .error .live => (some .live, s)
      | .error .transient => (none, s)
      | .ok t => (some .granted, t.updAllot team core fun a =>
          { a with granted := a.granted.upd (· - (-k).toNat) r })

/-- A core's deferred requests replaced: SHADOW's highest slot is leaving while one of them shrinks
it (R151). -/
def Core.setDeferred (x : Core) (l : List Deferred) : Core :=
  { x with deferred := l, leaving := l.any fun q => q.role == .shadow && decide (q.k < 0) }

/-- WREQ (R155): parked until the group's KICKs have read their sources; a stage closes after it. -/
def State.wreqM (s : State) (p : Pred) (role : WRole) (d a : Reg) (df : Bool) (tl : BitVec 4) :
    M State :=
  s.groupM p fun g t lo => do
    needRegs g [a.toNat, d.toNat] lo
    parkIf (g.cnt.cp != 0)
    let core := s.cur.core
    let k := toInt 32 (g.reg (s.core core) a.toNat lo).toNat
    let r := s.wreqTry core g.team role k
    let fin := fun (u : State) (st : WStat) =>
      ((u.putAll t d.toNat (BitVec.ofNat 32 st.code)).next).close true
    match r.1 with
    | some st => .ok (fin r.2 st)
    | none =>
      parkIf g.det
      if df && decide ((s.core core).deferred.length < 64) then
        .ok (fin (s.updCore core fun x => x.setDeferred
          (x.deferred ++ [{ team := g.team, role := role, k := k, tl := tl }])) .deferred)
      else .ok (fin s .busy)

/-- WREQ (R155). -/
def execWreq (p : Pred) (role : WRole) (d a : Reg) (df : Bool) (tl : BitVec 4) (s : State) :
    Host.Outcome State Fault Refusal := run s (s.wreqM p role d a df tl)

/-- An addition to a timeline counter (R138). -/
def State.tlAdd (s : State) (core : Nat) (tl : BitVec 4) (n : Nat) : State :=
  s.updCore core fun x => { x with tl := listUpd (fun v => v + BitVec.ofNat 64 n) x.tl tl.toNat }

/-- DEFERRED_RECHECK (R153): the n-th deferred request of a core is decided again: performed or
dropped with its addition, or left while a transient condition stands or its team is not placed on the
core. -/
def execDeferredRecheck (core n : Nat) (s : State) : Host.Outcome State Fault Refusal :=
  match (s.core core).deferred[n]? with
  | none => .next s
  | some q =>
    if (s.allot q.team core).isNone then .next s
    else
    let r := s.wreqTry core q.team q.role q.k
    match r.1 with
    | none => .next s
    | some st =>
      let s1 := r.2.updCore core fun x => x.setDeferred (listDrop1 x.deferred n)
      let s2 := s1.updAllot q.team core fun a =>
        { a with last := a.last.upd (fun _ => st.code) q.role }
      .next (s2.tlAdd core q.tl 1)

/-! ## WQRY (R156) -/

/-- ALLOC of R156. -/
def State.wAlloc (s : State) (core : Nat) : QRole → Nat
  | .reg => (s.core core).holders.foldl (fun n g => n + g.segReg.size.toNat) 0
  | .mat => (s.core core).holders.foldl (fun n g => n + g.segMat.size.toNat) 0
  | .scr => 32768 * (s.core core).roles.scr.length
  | .fifo => (s.core core).fifos.foldl (fun n f => if f.en then n + f.depth * f.bytes else n) 0
  | .shadow => 128 * (s.core core).undo.length
  | .cache => 128 * ((s.core core).l1.length + (s.core core).partials.length)

/-- LIVEB of R156. -/
def State.wLive (s : State) (core : Nat) : QRole → Nat
  | .reg => s.wAlloc core .reg + 128 * ((s.core core).released.filter fun r => decide (r < matRow)).length
  | .mat => s.wAlloc core .mat + 128 * ((s.core core).released.filter fun r => decide (matRow ≤ r)).length
  | .scr => s.teams.foldl (fun n e => match tabFind e.2.allots core with
      | some a => n + 128 * ((List.range (256 * a.scr.length)).filter fun l => s.lineLive core e.1 l).length
      | none => n) 0
  | .fifo => (s.core core).fifos.foldl (fun n f => n + f.count * f.bytes) 0
  | .shadow => 128 * ((s.core core).undo.filter fun u => u.stage).length
  | .cache => 128 * (((s.core core).l1.filter fun c => c.dirty != 0).length +
      (s.core core).partials.length)

/-- The four result words of WQRY (R156). TBANKS of CACHE reads 0: R152 calls a team's CACHE minimum no
holding, and R145 speaks of banks outside CACHE (the model's choice). -/
def State.wqryWords (s : State) (core team : Nat) (det : Bool) (q : QRole) : List Word :=
  let x := s.core core
  let a := (s.allot team core).getD ⟨Roles.none, Roles.none, [], Roles.none⟩
  let z := fun (n : Nat) => if det then 0 else n
  let banks := match q.wrole with | some r => (x.roles.of r).length | none => x.roles.cache.length
  let tb := match q.wrole with | some r => a.banks r | none => 0
  let tm := match q.wrole with | some r => a.min.of r | none => a.min.cache
  let fl := match q.wrole with | some r => roleFloor r | none => 4
  let pend := (x.deferred.filter fun d => some d.role == q.wrole)
  let last := match q.wrole with | some r => a.last.of r | none => 0
  [ BitVec.ofNat 32 (z banks + 2 ^ 8 * tb + 2 ^ 16 * tm + 2 ^ 24 * fl),
    BitVec.ofNat 32 (z (s.wAlloc core q)), BitVec.ofNat 32 (z (s.wLive core q)),
    BitVec.ofNat 32 (z pend.length + 2 ^ 8 * (pend.filter fun d => d.team == team).length
      + 2 ^ 16 * last) ]

/-- A sticky bit of `sr.detflags` set in a deterministic waybill (R170): 0 TIMING, 1 PHYS. -/
def Group.sticky (g : Group) (phys : Bool) : Group :=
  if g.det then { g with detSticky := g.detSticky ||| (if phys then 2 else 1) } else g

/-- WQRY (R156). -/
def execWqry (p : Pred) (role : QRole) (d : Reg) (s : State) : Host.Outcome State Fault Refusal :=
  run s (s.groupM p fun g t lo => do
    needRegs g ((List.range 4).map fun i => d.toNat + i) lo
    let ws := s.wqryWords s.cur.core g.team g.det role
    let s1 := s.putRegs s.cur.core s.cur.slot ((lanesOf t).flatMap fun l =>
      ws.zipIdx.map fun e => (l, d.toNat + e.2, e.1))
    .ok (s1.next.updGroup s.cur.core s.cur.slot fun g => g.sticky false))

/-! ## WTAG (R161, R162) -/

/-- The tiles a WTAG names. -/
def Group.tiles (g : Group) (t cnt : BitVec 6) : List Nat :=
  (List.range (cnt.toNat + 1)).map fun i => g.tileAt (g.tileOfs (t.toNat + i))

/-- The window ranges of those tiles. -/
def Group.tileRanges (g : Group) (t cnt : BitVec 6) : List (Nat × Nat) :=
  (List.range (cnt.toNat + 1)).map fun i =>
    (g.tileOfs (t.toNat + i), g.tileOfs (t.toNat + i) + 2048)

/-- A WTAG, of the TL class (R38, R161): every tile in the window, or REG_BOUNDS. -/
def State.wtagM (s : State) (p : Pred) (t cnt : BitVec 6)
    (k : Group → Core → List Nat → LaneMask → Nat → M State) : M State :=
  s.groupM p fun g m lo => do
    waitClass g .tl
    trapIf (!((List.range (cnt.toNat + 1)).all fun i => g.inWindow (g.tileOfs (t.toNat + i)) 2048))
      .regBounds lo
    k g (s.core s.cur.core) (g.tiles t cnt) m lo

/-- The turn's core with tags written, past the instruction, the stage closing. -/
def State.tagged (s : State) (ts : List Nat) (v c : Bool) : State :=
  ((s.updCore s.cur.core fun x => ts.foldl (fun x t => x.setTag t v c) x).next).close true

/-- Some range of one list meets some range of another. -/
def rangesMeet (a b : List (Nat × Nat)) : Bool := a.any fun p => b.any fun q => meets p q

/-- A write of the group to some window ranges is still to be performed: a pending register, or a
matrix operation's result. -/
def Group.writesTo (g : Group) (rs : List (Nat × Nat)) : Bool :=
  rangesMeet (g.pend.map fun p => (p.reg, p.reg + 4 * g.width)) rs ||
  g.streams.any fun l => l.any fun o => rangesMeet o.windowWrites rs

/-- A matrix operation of the group still reads some window ranges. -/
def Group.readsFrom (g : Group) (rs : List (Nat × Nat)) : Bool :=
  g.streams.any fun l => l.any fun o => rangesMeet o.windowReads rs

/-- WTAG.setv (R162). -/
def execWtagSetv (p : Pred) (t cnt : BitVec 6) (s : State) : Host.Outcome State Fault Refusal :=
  run s (s.wtagM p t cnt fun g x ts _ lo => do
    trapIf (ts.any fun i => x.tv i) .tagProtocol lo
    waitIf (g.writesTo (g.tileRanges t cnt))
    .ok (s.tagged ts true false))

/-- WTAG.setc (R162). -/
def execWtagSetc (p : Pred) (t cnt : BitVec 6) (s : State) : Host.Outcome State Fault Refusal :=
  run s (s.wtagM p t cnt fun g x ts _ lo => do
    trapIf (ts.any fun i => !x.tv i || x.tc i) .tagProtocol lo
    waitIf (g.readsFrom (g.tileRanges t cnt))
    .ok ((s.updCore s.cur.core fun x => ts.foldl (fun x i => x.setTag i (x.tv i) true) x).next.close true))

/-- WTAG.reset (R162). -/
def execWtagReset (p : Pred) (t cnt : BitVec 6) (s : State) : Host.Outcome State Fault Refusal :=
  run s (s.wtagM p t cnt fun _ _ ts _ _ => .ok (s.tagged ts false true))

/-- WTAG.wv (R162). -/
def execWtagWv (p : Pred) (t cnt : BitVec 6) (s : State) : Host.Outcome State Fault Refusal :=
  run s (s.wtagM p t cnt fun _ x ts _ _ => do
    parkIf (!(ts.all fun i => x.tv i))
    .ok s.next)

/-- WTAG.wc (R162). -/
def execWtagWc (p : Pred) (t cnt : BitVec 6) (s : State) : Host.Outcome State Fault Refusal :=
  run s (s.wtagM p t cnt fun _ x ts _ _ => do
    parkIf (!(ts.all fun i => x.tc i))
    .ok s.next)

/-- WTAG.rd (R162). -/
def execWtagRd (p : Pred) (d : Reg) (t cnt : BitVec 6) (s : State) : Host.Outcome State Fault Refusal :=
  run s (s.wtagM p t cnt fun g x ts m lo => do
    needRegs g [d.toNat] lo
    let v := ts.zipIdx.foldl (fun n e => n + 2 ^ (2 * e.2) * b2n (x.tv e.1)
      + 2 ^ (2 * e.2 + 1) * b2n (x.tc e.1)) 0
    .ok (s.putAll m d.toNat (BitVec.ofNat 32 v)).next)

end Sys2Proof.Machine
end

