-- ==== Sys2Proof/Machine/Waybill.lean ====
section
/-! DEFINITION. Waybills, launch records, ready queues, the end of a team and completion records
(R355 to R359, R365, R368, R388, R390). -/

namespace Sys2Proof.Machine

/-- Where the bytes of a checked pointer lie, for the Coachman and for one-step home operations. -/
inductive Loc where
  | at (pa : Nat)
  | absent (on ext : Nat)
  | bad (c : Cause)
  deriving DecidableEq, Repr

/-- Where the byte of a checked object at `p` lies, by the extent list itself. -/
def State.place? (s : State) (d : Desc) (p : DWord) : Loc :=
  let i := ptrOfs p / 2 ^ d.extLog
  let e := extEntry s d i
  if extP e then .at (extAddr d e (ptrOfs p)) else .absent (ptrOn p) i

/-- The check of R74 against the table itself, and the translation of R77, of `n` bytes at `p` that lie
in one extent. -/
def State.locate (s : State) (ctx : Nat) (p : DWord) (n : Nat) (need : Need) : Loc :=
  match (s.check coachman ctx [] p n need).1 with
  | .error c => .bad c
  | .ok d => s.place? d p

/-- Bytes that the Coachman reads through a checked pointer. -/
inductive Got where
  | bytes (l : List Byte)
  | absent (on ext : Nat)
  | bad (c : Cause)
  deriving DecidableEq, Repr

/-- `n` bytes of a checked object from `p` on, in whatever extents they lie. -/
def State.bytesAt (s : State) (d : Desc) (p : DWord) : Nat → Nat → Got
  | _, 0 => .bytes []
  | i, n + 1 =>
    match s.place? d (mkPtr (ptrOn p) (ptrOfs p + i)) with
    | .absent on e => .absent on e
    | .bad c => .bad c
    | .at pa =>
      match s.bytesAt d p (i + 1) n with
      | .bytes l => .bytes (memRead s.mem pa :: l)
      | g => g

/-- `n` bytes at `p`, checked as `locate` does. -/
def State.gather (s : State) (ctx : Nat) (p : DWord) (n : Nat) (need : Need) : Got :=
  match (s.check coachman ctx [] p n need).1 with
  | .error c => .bad c
  | .ok d => s.bytesAt d p 0 n

/-- A waybill's need (R368). -/
def needWaybill : Need := ⟨[.plain], [.r, .w, .a], .objRights⟩

/-- Word `i` of a waybill at `pa`. -/
def State.wb (s : State) (pa i : Nat) : DWord := memDW s.mem (pa + 8 * i)

/-- A 64-bit word with a field written. -/
def setFld (w : DWord) (lo n v : Nat) : DWord :=
  let m := BitVec.ofNat 64 ((2 ^ n - 1) * 2 ^ lo)
  (w &&& ~~~m) ||| (BitVec.ofNat 64 (v * 2 ^ lo) &&& m)

/-- A word of a waybill changed at its home in one step. -/
def State.setWb (s : State) (pa i : Nat) (f : DWord → DWord) : State :=
  ((s.atHome (pa / 128)).readSector (sectorOf (pa + 8 * i))).putHome (pa + 8 * i)
    (bytesOfNat 8 (f (s.wb pa i)).toNat)

/-- STATE of a waybill (R355). -/
def State.wbState (s : State) (pa : Nat) : Nat := fld (s.wb pa 2) 61 3

/-- STATE written. -/
def State.setWbState (s : State) (pa v : Nat) : State := s.setWb pa 2 fun w => setFld w 61 3 v

/-- Weight of a group by energy class (R362). -/
def eweight (c : Nat) : Nat := [1, 2, 3, 4, 6, 8, 12, 16].getD c 0

/-- Groups of a team on one core: all, or the larger half of a pair (R356). -/
def groupsPerCore (gpt : Nat) (pair : Bool) : Nat := if pair then (gpt + 1) / 2 else gpt

/-- `k` bytes of a launch record from offset `o` on, as a number. -/
def recNat (l : List Byte) (o k : Nat) : Nat := natOfBytes ((l.drop o).take k)

/-- The launch record's checks on its 128 bytes (R357). -/
def launchOk (l : List Byte) (width : Nat) : Bool :=
  let n := recNat l
  let w := 16 * 2 ^ width
  decide (n 0x4C 4 = width) && n 0x40 4 % (4 * w) == 0 && n 0x44 4 % 2048 == 0 && n 0x48 4 % 16384 == 0 &&
  n 0x50 4 % 2048 == 0 && decide (2048 ≤ n 0x50 4) && decide (n 0x50 4 ≤ 0x1FF800) &&
  n 0x54 4 % 16384 == 0 && decide (n 0x54 4 ≤ 262144) &&
  decide (((List.range 6).foldl (fun t i => t + n (0x58 + i) 1) 0) ≤ 64) && n 0x58 1 != 0 &&
  decide (n 0x5E 34 = 0)

/-- The fields of a launch record a grid keeps. -/
def readLaunch (l : List Byte) : Launch :=
  let n := recNat l
  let b := fun i => n (0x58 + i) 1
  { slots := (List.range 8).map fun i => BitVec.ofNat 64 (n (8 * i) 8)
    views := { vec := BitVec.ofNat 32 (n 0x40 4), tile := BitVec.ofNat 32 (n 0x44 4),
               acc := BitVec.ofNat 32 (n 0x48 4) }
    segReg := n 0x50 4, segMat := n 0x54 4
    wmin := { reg := b 0, mat := b 1, scr := b 2, fifo := b 3, shadow := b 4, cache := b 5 } }

/-- What the checks of R356 find: all hold, check number k of the table fails, or an absent extent
keeps the launch record from being read. -/
inductive Wf where
  | ok
  | fails (k : Nat)
  | absent (on ext : Nat)
  deriving DecidableEq, Repr

/-- A list of `n` bytes that a waybill names passes R74 for reading. -/
def State.listOk (s : State) (ctx : Nat) (p : DWord) (n : Nat) : Bool :=
  (s.check coachman ctx [] p n needLoad).1.isOk

/-- The checks of R356 on the waybill at `pa`, in the table's order from 1. -/
def State.wellFormed (s : State) (ctx pa : Nat) : Wf :=
  let w2 := s.wb pa 2
  let w3 := s.wb pa 3
  let w4 := s.wb pa 4
  let nteam := fld w3 0 24 + 1
  let gpt := fld w3 24 5 + 1
  let width := fld w3 29 2
  let det := w3.getLsbD 42
  let pair := w3.getLsbD 43
  let cset := w3.getLsbD 44
  let lcnt := fld w3 45 9
  let frame := s.wb pa 1
  if fld w2 57 4 != 0 || fld w3 31 1 != 0 || fld w3 54 10 != 0 || fld w4 25 7 != 0 || width == 3 ||
      decide (fld w2 61 3 > 4) || decide (lcnt > 255) || (!det && lcnt != 0) then .fails 1
  else if decide (gpt > (if pair then 32 else 16)) || (pair && cset) ||
      (cset && (nteam % 4 != 0 || decide (gpt > 16))) then .fails 2
  else if groupsPerCore gpt pair * eweight (fld w3 32 3) > 96 then .fails 3
  else if det && ((pair && (lcnt + 1) % 2 != 0) || (cset && (lcnt + 1) % 4 != 0)) then .fails 4
  else if !(((s.ctx ctx).queues.getD (fld w3 38 4) RQueue.zero).en) then .fails 5
  else
    match s.gather ctx frame 128 needLoad with
    | .bad _ => .fails 6
    | .absent on e => .absent on e
    | .bytes l =>
      if ptrOfs frame % 64 != 0 || !launchOk l width then .fails 6
      else if (s.check coachman ctx [] (s.wb pa 0) 8 needFetch).1.isOk &&
          (fld w4 32 16 == 0 || s.listOk ctx (s.wb pa 5) (8 * fld w4 32 16)) &&
          (fld w4 48 16 == 0 || s.listOk ctx (s.wb pa 6) (4 * fld w4 48 16)) then .ok
      else .fails 7

/-- A WAYBILL record to a context's error queue (R356, R365, R368). -/
def State.wbRecord (s : State) (ctx : Nat) (wb : DWord) (aux : Nat) : State :=
  s.aeqAppend ctx { s.blankRec .waybill with
    async := true, ctx := BitVec.ofNat 3 ctx, waybill := wb, aux := BitVec.ofNat 20 aux }

/-- A completion record to the host's ring, with vector 1 (R388, R420). -/
def State.completion (s : State) (r : ComplRec) : State :=
  if s.crBase = 0 then s
  else
    let ws : List DWord := [ r.wb, BitVec.ofNat 64 (r.kind + 8 * r.ctx + 64 * b2n r.late), r.cmask, r.gtime ]
    { s.putRecord (s.crBase + 32 * (s.crTail % 2 ^ s.crLog2)) (bytesOfWords ws) with
      crTail := s.crTail + 1
      msix := s.msix ++ [1] }

/-! ## Ready queues (R358) -/

/-- The waybill pointer in a ring's entry. -/
def State.ringEntry (s : State) (q : RQueue) (i : Nat) : DWord := memDW s.mem (q.base + 8 * (i % 2 ^ q.log2))

/-- Entries in the ring. -/
def RQueue.count (q : RQueue) : Nat := (q.tail - q.head).toNat

/-- The head waybill of a queue. -/
def State.headWb (s : State) (q : RQueue) : Option DWord :=
  if q.count = 0 then none else some (s.ringEntry q q.head.toNat)

/-- A queue of a context changed. -/
def State.updQueue (s : State) (ctx q : Nat) (f : RQueue → RQueue) : State :=
  s.updCtx ctx fun c => { c with queues := listUpd f c.queues q }

/-- PLACE of R358 for the waybill at pointer `wb`, its words at `pa`. -/
def State.placeWb (s : State) (ctx : Nat) (wb : DWord) (pa : Nat) : State :=
  let qn := fld (s.wb pa 3) 38 4
  let q := (s.ctx ctx).queues.getD qn RQueue.zero
  let s1 := s.updCtx ctx fun c => { c with
    seq := c.seq + 1, placed := c.placed ++ [{ wb := wb, seq := c.seq, grid := none }] }
  if q.count < 2 ^ q.log2 ∧ q.overflow.isEmpty then
    let s2 := s1.storeAt ctx (q.base + 8 * (q.tail.toNat % 2 ^ q.log2)) (bytesOfNat 8 wb.toNat)
    s2.updQueue ctx qn fun q => { q with
      tail := q.tail + 1, eprio := if q.count = 0 then fld (s.wb pa 3) 35 3 else q.eprio }
  else s1.updQueue ctx qn fun q => { q with overflow := q.overflow ++ [wb] }

/-- A fault record of a queue's head. -/
def FaultRec.ofQueue (f : FaultRec) (ctx qn : Nat) : Bool :=
  match f.who with | .queue c q => c == ctx && q == qn | _ => false

/-- The head of a queue leaves it: HEAD advances, and the oldest overflow entry moves in (R358, R359); a fault
record of its absent extent goes with it. AGE and a hold go on with the next head, and end with a queue left
empty (the model's choice: R359 ends them only where a team is placed). -/
def State.leaveQueue (s : State) (ctx qn : Nat) : State :=
  let q := (s.ctx ctx).queues.getD qn RQueue.zero
  let gone := s.headWb q
  let s0 : State := { s with faults := s.faults.filter fun f => !f.ofQueue ctx qn }
  let s1 := (s0.updQueue ctx qn fun q => { q with
      head := q.head + 1, stuck := false
      held := q.held && decide (q.count > 1)
      age := if q.count > 1 then q.age else 0 }).updCtx
    ctx fun c => { c with placed := c.placed.filter fun p => some p.wb != gone }
  match q.overflow with
  | [] => s1
  | w :: r =>
    let s2 := s1.storeAt ctx (q.base + 8 * (q.tail.toNat % 2 ^ q.log2)) (bytesOfNat 8 w.toNat)
    s2.updQueue ctx qn fun q => { q with tail := q.tail + 1, overflow := r }

/-- A waybill that fails the checks of R356 takes FAILED, with its two records (R356, R390). -/
def State.badWb (s : State) (ctx : Nat) (wb : DWord) (pa k : Nat) : State :=
  ((s.setWbState pa 4).wbRecord ctx wb k).completion
    { wb := wb, kind := 3, ctx := ctx, late := false, cmask := 0, gtime := s.gtime }

/-- SPAWN's step at the waybill's home (R368): the status, or the absent extent that stalls it. -/
def State.spawnStep (s : State) (ctx : Nat) (wb : DWord) (pa : Nat) : Except (Nat × Nat) (Nat × State) :=
  if s.wbState pa ≠ 0 then .ok (3, s)
  else if fld (s.wb pa 2) 0 32 ≠ 0 then .ok (1, s)
  else
    match s.wellFormed ctx pa with
    | .absent on e => .error (on, e)
    | .fails k => .ok (2, s.badWb ctx wb pa k)
    | .ok => .ok (0, (s.setWbState pa 1).placeWb ctx wb pa)

/-- JDEC's step at the waybill's home (R368): the old JOIN. -/
def State.jdecStep (s : State) (ctx : Nat) (wb : DWord) (pa n : Nat) : Except (Nat × Nat) (Nat × State) :=
  let old := fld (s.wb pa 2) 0 32
  if n > old then .ok (old, s.wbRecord ctx wb 0)
  else
    let s1 := s.setWb pa 2 fun w => setFld w 0 32 (old - n)
    if n ≠ 0 ∧ n = old ∧ s.wbState pa = 0 then
      match s1.wellFormed ctx pa with
      | .absent on e => .error (on, e)
      | .fails k => .ok (old, s1.badWb ctx wb pa k)
      | .ok => .ok (old, (s1.setWbState pa 1).placeWb ctx wb pa)
    else .ok (old, s1)

/-! ## The end of a grid (R365, R390) -/

/-- The grid of a waybill. -/
def State.gridOf (s : State) (wb : DWord) (ctx : Nat) : Option (Nat × Grid) :=
  s.grids.find? fun e => e.2.wb == wb && e.2.ctx == ctx && !e.2.complete

/-- Every cluster of a completed grid has passed a scan begun after its last team there ended. -/
def State.gridCertified (s : State) (g : Grid) : Bool :=
  (List.range 64).all fun k => !g.cmask.getLsbD k ||
    decide ((s.cluster k).lastPass > tabGet 0 g.lastOn k)

/-- CERTIFIED records that are due (R390); a certified grid needs no further record. -/
def State.certify (s : State) : State :=
  s.grids.foldl (fun s e =>
    if e.2.provisional && !e.2.suspect && s.gridCertified e.2 then
      (s.completion { wb := e.2.wb, kind := 1, ctx := e.2.ctx, late := false, cmask := e.2.cmask,
                      gtime := s.gtime }).updGrid e.1 fun g => { g with provisional := false }
    else s) s

/-- A step of the Coachman at a waybill's home that waits there while PEND is set (R304): it is done
later. -/
def State.later (s : State) (f : FaultFor) : State := { s with chores := s.chores ++ [f] }

/-- The decrements of a finished waybill's successors from list index `i` on, `k` of them (R365): a
pointer that fails its check is reported and passed over; an absent extent holds it and the rest. -/
def State.successors (s : State) (ctx : Nat) (wb succ : DWord) : Nat → Nat → State
  | _, 0 => s
  | i, k + 1 =>
    let me : FaultFor := .succ ctx wb succ i (k + 1)
    let hold := fun on e => s.fault { ctx := ctx, on := on, ext := e, who := me }
    match (match ptrAdd succ (8 * i) with | none => Got.bad .objBounds | some lp => s.gather ctx lp 8 needLoad) with
    | .absent on e => hold on e
    | .bad _ => (s.wbRecord ctx wb i).successors ctx wb succ (i + 1) k
    | .bytes l =>
      let p := BitVec.ofNat 64 (natOfBytes l)
      if ptrOfs p % 64 ≠ 0 then (s.wbRecord ctx wb i).successors ctx wb succ (i + 1) k
      else
        match s.locate ctx p 64 needWaybill with
        | .absent on e => hold on e
        | .bad _ => (s.wbRecord ctx wb i).successors ctx wb succ (i + 1) k
        | .at pa =>
          if !s.homeReady (pa / 128) then s.later me
          else
            match s.jdecStep ctx p pa 1 with
            | .error (on, e) => hold on e
            | .ok (_, t) => t.successors ctx wb succ (i + 1) k

/-- The successors of the waybill whose words stand at `pa`. -/
def State.runSuccessors (s : State) (ctx : Nat) (wb : DWord) (pa : Nat) : State :=
  s.successors ctx wb (s.wb pa 5) 0 (fld (s.wb pa 4) 32 16)

/-- The waybill leaves the head of whatever queue it heads. -/
def State.leaveHead (s : State) (ctx : Nat) (wb : DWord) : State :=
  (List.range 16).foldl (fun (s : State) qn =>
    if s.headWb ((s.ctx ctx).queues.getD qn RQueue.zero) = some wb then s.leaveQueue ctx qn else s) s

/-- A grid's waybill found for a step at its home, `k`: held while its extent is absent, put off while
PEND is set. A waybill that no longer passes its check is named in a WAYBILL record, and the step is not
made (the spec does not say what becomes of it). -/
def State.atGrid (s : State) (g : Grid) (me : FaultFor) (k : Nat → State) : State :=
  match s.locate g.ctx g.wb 64 needWaybill with
  | .absent on e => s.fault { ctx := g.ctx, on := on, ext := e, who := me }
  | .bad _ => s.wbRecord g.ctx g.wb 0
  | .at pa => if s.homeReady (pa / 128) then k pa else s.later me

/-- STATE of a failed grid's waybill becomes FAILED, with a FAILED record (R365, R390). -/
def State.markFailed (s : State) (gid : Nat) : State :=
  match tabFind s.grids gid with
  | none => s
  | some g => s.atGrid g (.failed gid) fun pa =>
    if s.wbState pa = 4 then s
    else (s.setWbState pa 4).completion
      { wb := g.wb, kind := 3, ctx := g.ctx, late := false, cmask := g.cmask, gtime := s.gtime }

/-- A waybill takes FAILED (R365): no further team of it is placed, and it leaves the head of its
queue. -/
def State.failWaybill (s : State) (gid : Nat) (g : Grid) : State :=
  ((s.leaveHead g.ctx g.wb).updGrid gid fun g => { g with complete := true }).markFailed gid

/-- A team's end counted at its waybill (R365): TDONE rises; the last one of a running grid makes
it DONE, decrements its successors and sends the host a record. -/
def State.countTeam (s : State) (gid tn : Nat) : State :=
  match tabFind s.grids gid with
  | none => s
  | some g => s.atGrid g (.ended gid tn) fun pa =>
    let s1 := s.setWb pa 2 fun w => setFld w 32 25 (fld w 32 25 + 1)
    if fld (s1.wb pa 2) 32 25 = g.nteam ∧ s1.wbState pa = 2 then
      let s2 := s1.setWbState pa 3
      let s3 := s2.runSuccessors g.ctx g.wb pa
      let s4 := s3.completion { wb := g.wb, kind := if g.suspect then 2 else 0, ctx := g.ctx,
                                late := false, cmask := g.cmask, gtime := s.gtime }
      (s4.updGrid gid fun g => { g with complete := true, provisional := !g.suspect }).certify
    else s1

/-- A step at a waybill's home that the Coachman put off, tried again. -/
def State.doChore (s : State) : FaultFor → State
  | .succ ctx wb succ i k => s.successors ctx wb succ i k
  | .ended gid tn => s.countTeam gid tn
  | .failed gid => s.markFailed gid
  | _ => s

/-- A team's handles and deferred requests go, on whatever core they were left (R220, R153). -/
def State.forget (s : State) (tn : Nat) : State :=
  let go := fun (x : Core) =>
    { x with handles := x.handles.filter fun h => h.2.team != tn }.setDeferred
      (x.deferred.filter fun d => d.team != tn)
  { s with cores := s.cores.map fun e => (e.1, go e.2) }

/-- A team ends, by EXIT or by being killed (R145, R337, R354, R365, R380): allotments return,
handles are freed, its deferred requests are dropped, its waybill counts it. -/
def State.teamEnd (s : State) (tn : Nat) (killed : Bool) : State :=
  match tabFind s.teams tn with
  | none => s
  | some t =>
    let s1 := s.updTeam tn fun t => { t with live := false, dead := killed }
    let s2 := t.cores.foldl (fun s c =>
      let a := (s.allot tn c).getD ⟨Roles.none, Roles.none, [], Roles.none⟩
      let own := fun r => a.min.of r + a.granted.of r
      let s1 := s.updAllot tn c fun a => { a with min := Roles.none, granted := Roles.none }
      let s2 := s1.updCore c fun x => { x with
        owed := { x.owed with reg := x.owed.reg + own .reg, mat := x.owed.mat + own .mat,
                              fifo := x.owed.fifo + own .fifo, shadow := x.owed.shadow + own .shadow }
        scrReturning := if a.scr.isEmpty then x.scrReturning else x.scrReturning ++ [tn]
        undo := x.undo.filter fun u => u.team != tn }
      s2.settleOwed c) (s1.forget tn)
    let s3 := s2.updGrid t.grid fun g => { g with
      lastOn := t.cores.foldl (fun l c => tabSet l (clusterOf c) s.steps) g.lastOn }
    match tabFind s3.grids t.grid with
    | none => s3
    | some g =>
      let s4 := if killed then s3.failWaybill t.grid g else s3
      s4.countTeam t.grid tn

end Sys2Proof.Machine
end

