-- ==== Sys2Proof/Machine/Stage.lean ====
section
/-! DEFINITION. Stages, undo lines restored, barriers, the end of a group, pre-emption, rollback
and the killing of a team (R337 to R348, R380). -/

namespace Sys2Proof.Machine

/-! ## Operations that are over (R37) -/

/-- An operation with neither a flight nor a log entry left is complete: its count and its pending
destinations go. -/
def Group.retire (g : Group) (id : Nat) (k : WClass) : Group :=
  if (g.flight.any fun f => f.id == id) || (g.log.any fun e => e.op.id == id) then g
  else { g with cnt := g.cnt.upd (· - 1) k, pend := g.pend.filter fun p => p.id != id }

/-- An operation's flight is over. -/
def Group.complete (g : Group) (id : Nat) (k : WClass) : Group :=
  { g with flight := g.flight.filter fun f => f.id != id }.retire id k

/-! ## Heads -/

/-- What a stage head records of a group (R338). -/
def Group.headNow (g : Group) (bar : Option BarArr) : Head :=
  { pcs := g.lanes.map Lane.pc, rc := g.rc, accs := g.accs, bar := bar }

/-- A thread at a head: an exited thread stays exited (R337); one that waits at the head's BAR is
held there (R348). -/
def Head.lane (h : Head) (i : Nat) (x : Lane) : Lane :=
  let pc := (h.pcs[i]?).getD x.pc
  if x.st == .exited then { x with buf := none, yielded := false }
  else
    match h.bar with
    | some b =>
      { pc := pc, st := if pc = b.pc then .held b.kind b.id 0 else .run, yielded := false, buf := none }
    | none => { pc := pc, st := .run, yielded := false, buf := none }

/-- A group back at a head: PCs, RC, matrix state; wait counters zero, log and queued matrix work
discarded, loop buffers empty (R343, R345). Copy requests queued before count for it no more. A group all
of whose threads have exited is still to end (R337). Its views stay as VIEW last set them, also at the
start of a recovery interval, where R175 and R345 leave it open (the model's choice). -/
def Group.atHead (g : Group) (h : Head) : Group :=
  { g with
    lanes := g.lanes.mapIdx fun i x => h.lane i x
    cnt := { ld := 0, st := 0, cp := 0, tl := 0 }
    pend := [], log := [], flight := [], streams := List.replicate 5 []
    rc := h.rc, accs := h.accs, head := h, stageOvf := false, tilesRead := []
    trap := false, trapMask := 0, deliver := none, bar := h.bar, arrWait := none
    closing := if g.lanes.any fun x => x.st != .exited then .none else .stage
    parked := none, parkBo := none, logStall := none, epoch := g.epoch + 1 }

/-! ## Undo lines restored (R339, R343, R140) -/

/-- Undo lines with the cores that hold them, in falling order of the time they were taken. -/
def insertUndo (u : Nat × Undo) : List (Nat × Undo) → List (Nat × Undo)
  | [] => [u]
  | v :: r => if v.2.time ≤ u.2.time then u :: v :: r else v :: insertUndo u r

/-- The team's undo lines that `p` names, newest first. -/
def State.undoOf (s : State) (tn : Nat) (p : Undo → Bool) : List (Nat × Undo) :=
  match tabFind s.teams tn with
  | none => []
  | some t =>
    (t.cores.flatMap fun c => (((s.core c).undo.filter fun u => u.team == tn && p u).reverse).map
      fun u => (c, u)).foldl (fun l u => insertUndo u l) []

/-- One line's prior bytes put back, but for those the copy engine wrote since (R140). -/
def State.restoreLine (s : State) (core : Nat) (u : Undo) : State :=
  match u.key with
  | .row role a =>
    (match (s.core core).rowKey ⟨role, a⟩ with
     | some k => s.updCore core fun x => x.putRow k u.data (~~~u.engine)
     | none => s)
  | .scr c t l =>
    (match s.scrRow c t l with
     | some k => s.updCore c fun x => x.putRow k u.data (~~~u.engine)
     | none => s)

/-- Accumulator blocks whose Z was 1 at a head become zeros (R343). -/
def State.zeroBlocks (s : State) (core : Nat) (g : Group) (h : Head) : State :=
  h.accs.zipIdx.foldl (fun s e =>
    if e.1.z && decide (16384 * (e.2 + 1) ≤ g.segMat.size.toNat) then
      s.updCore core fun x => (List.range 128).foldl (fun x i =>
        match x.rowKey ⟨true, g.segMat.base.toNat % 2 ^ 21 + 16384 * e.2 + 128 * i⟩ with
        | some k => x.putRow k 0 (BitVec.allOnes 128)
        | none => x) x
    else s) s

/-! ## Closing a stage (R340) -/

/-- A closer waits for an operation in flight (R340): for all but a write-back (CFLUSH, CINV), an ST-class
operation that is no closer's; for one of those too while it has a register to write. -/
def Group.awaited (g : Group) (f : Flight) : Bool :=
  f.req.kind != .flush || g.pend.any fun p => p.id == f.id

/-- Nothing that the closing stage waits for is outstanding, and the operand log is empty. -/
def Group.canClose (g : Group) : Bool :=
  !g.flight.any g.awaited && g.log.isEmpty && (g.streams.all List.isEmpty) && g.arrWait.isNone

/-- A group that still has threads which have not exited. -/
def Group.anyLive (g : Group) : Bool := g.lanes.any fun x => x.st != .exited

/-- Stage lines released; interval lines stay (R339). -/
def Core.dropStage (x : Core) (slot team : Nat) : Core :=
  let off := fun (u : Undo) =>
    if u.slot == slot && u.team == team then { u with stage := false } else u
  { x with undo := (x.undo.map off).filter fun u => u.stage || u.interval }

/-- The cores of a team. -/
def State.teamCores (s : State) (tn : Nat) : List Nat :=
  match tabFind s.teams tn with | some t => t.cores | none => []

/-- The groups of a team in slots: (core, slot). -/
def State.teamGroups (s : State) (tn : Nat) : List (Nat × Nat) :=
  (s.teamCores tn).flatMap fun c =>
    ((s.core c).groups.filter fun e => e.2.team == tn && !e.2.fw).map fun e => (c, e.1)

/-- A team has a parked continuation (R350). -/
def State.teamParked (s : State) (tn : Nat) : Bool :=
  (s.teamCores tn).any fun c => (s.core c).parked.any fun p => p.group.team == tn

/-- A new stage in a group: the head recorded, stage lines released, C set on the tiles read that
are FULL (R160, R269), yield marks cleared. -/
def State.newStage (s : State) (core slot : Nat) : State :=
  match s.group core slot with
  | none => s
  | some g =>
    let g1 : Group := { g with lanes := g.lanes.map fun x => { x with yielded := false } }
    (s.updCore core fun x =>
      let y := g.tilesRead.foldl (fun x t =>
        if x.tv t && !x.tc t then x.setTag t true true else x) (x.dropStage slot g.team)
      let g2 : Group := { g1 with
        head := g1.headNow g1.bar, stageOvf := false, tilesRead := [], closing := .none }
      { y with groups := tabSet y.groups slot g2 }).settleOwed core

/-! ## Barriers (R347, R348) -/

/-- The threads held at the arriving BAR continue after it. -/
def Group.passBar (g : Group) : Group :=
  match g.bar with
  | none => g
  | some b => { g with
      bar := none
      lanes := g.lanes.map fun x => match x.st with
        | .held _ _ _ => if x.pc = b.pc then { x with st := .run, pc := pcAdd x.pc 8 } else x
        | _ => x }

/-- Conflict signatures that end with a team's barrier interval (R407): those of its scratchpad, and
its cores' L1 signatures that record its groups, live or ended (group k of team t stands as
32 t + k + 1). -/
def Core.endSigs (x : Core) (tn : Nat) : Core :=
  let own := fun n => n != 0 && (n - 1) / 32 == tn
  { x with
    sigScr := x.sigScr.filter fun e => e.1 / 2 ^ 19 != tn
    sigL1 := x.sigL1.filter fun e => !(own e.2.wr || own e.2.rd) }

/-- BAR.team's release: every group of the team passes, with a new stage and a new interval. -/
def State.releaseTeam (s : State) (tn : Nat) : State :=
  let s1 := s.updTeam tn fun t => { t with
    barRound := t.barRound + 1, barIn := [], intOvf := false, committed := false, ueSectors := [] }
  let s2 := (s.teamCores tn).foldl (fun (s : State) c =>
    s.updCore c fun x => { x.endSigs tn with undo := x.undo.filter fun u => u.team != tn }) s1
  (s.teamGroups tn).foldl (fun s e =>
    ((s.updGroup e.1 e.2 Group.passBar).newStage e.1 e.2).updGroup e.1 e.2 fun g =>
      { g with ihead := g.head }) s2

/-- The team's round is released when every live group has arrived, parked continuations too. -/
def State.checkTeamBar (s : State) (tn : Nat) : State :=
  match tabFind s.teams tn with
  | none => s
  | some t =>
    if !t.barIn.isEmpty && !s.teamParked tn && (s.teamGroups tn).all fun e => t.barIn.contains e then s.releaseTeam tn else s

/-- A named barrier's round is released: the groups of the core that wait for it pass. -/
def Core.releaseNamed (x : Core) (id round : Nat) : Core :=
  { x with groups := x.groups.map fun e =>
      match e.2.bar with
      | some b => if b.kind != .team && b.id == id && b.round == round then (e.1, e.2.passBar) else e
      | none => e }

/-- An arrival at a named barrier (R347). -/
def Core.arrive (x : Core) (id cnt : Nat) : Core :=
  match x.bars[id]? with
  | none => x
  | some b =>
    let n := if b.arrived = 0 then cnt + 1 else b.count
    if b.arrived + 1 ≥ n then
      { x with bars := listUpd (fun b => { count := 0, arrived := 0, round := b.round + 1 }) x.bars id }.releaseNamed
        id b.round
    else { x with bars := listUpd (fun b => { b with count := n, arrived := b.arrived + 1 }) x.bars id }

/-- The least held PC of a group with its BAR's form, ID and CNT. -/
def Group.leastHeld (g : Group) : Option (DWord × BarKind × Nat × Nat) :=
  g.lanes.foldl (fun r x =>
    match x.st with
    | .held k i n =>
      (match r with
       | none => some (x.pc, k, i, n)
       | some q => if x.pc.toNat < q.1.toNat then some (x.pc, k, i, n) else r)
    | _ => r) none

/-- Every live thread of the group is held at a BAR, and no round is waited for. -/
def Group.atBar (g : Group) : Bool :=
  g.anyLive && g.bar.isNone &&
  g.lanes.all fun x => match x.st with | .held _ _ _ => true | .exited => true | _ => false

/-- The group arrives, once, at the BAR held at the least PC (R347). -/
def State.arrive (s : State) (core slot : Nat) : State :=
  match s.group core slot with
  | none => s
  | some g =>
    match g.leastHeld with
    | none => s
    | some (pc, k, id, n) =>
      match k with
      | .team =>
        let r := match tabFind s.teams g.team with | some t => t.barRound | none => 0
        let s1 := s.setGroup core slot { g with bar := some { kind := k, id := id, round := r, pc := pc } }
        (s1.updTeam g.team fun t => { t with barIn := (core, slot) :: t.barIn }).checkTeamBar g.team
      | _ =>
        let r := match (s.core core).bars[id]? with | some b => b.round | none => 0
        let s1 := s.setGroup core slot { g with bar := some { kind := k, id := id, round := r, pc := pc } }
        let s2 := (s1.updCore core fun x => x.arrive id n).updTeam g.team fun t => { t with committed := true }
        if k = .arrive then s2.updGroup core slot Group.passBar else s2

/-- The round a group waits for has been released meanwhile (R348). -/
def State.barOver (s : State) (core : Nat) (g : Group) : Bool :=
  match g.bar with
  | none => false
  | some b =>
    match b.kind with
    | .team => (match tabFind s.teams g.team with | some t => t.barRound != b.round | none => false)
    | _ => (match (s.core core).bars[b.id]? with | some x => x.round != b.round | none => false)

/-- A group back at the head of a BAR's wait completes it at once if the round is over (R348). -/
def State.resumeBar (s : State) (core slot : Nat) : State :=
  s.updGroup core slot fun g => if s.barOver core g then g.passBar else g

/-! ## The end of a group (R337) -/

/-- The watches a group left at homes are dropped. -/
def State.dropWatches (s : State) (core slot : Nat) : State :=
  { s with dir := s.dir.map fun e => (e.1, { e.2 with
      remWatch := e.2.remWatch.filter fun w => !(w.1 == core && w.2 == slot)
      inkWatch := e.2.inkWatch.filter fun w => !(w.1 == core && w.2.1 == slot) }) }

/-- Fault records that stand for a group. -/
def State.dropFaults (s : State) (core slot : Nat) : State :=
  { s with faults := s.faults.filter fun f => match f.who with
      | .log c k | .stall c k => !(c == core && k == slot)
      | _ => true }

/-- A group leaves its slot: its window is released (R159). -/
def State.freeGroup (s : State) (core slot : Nat) : State :=
  match s.group core slot with
  | none => s
  | some g =>
    let s1 := ((s.dropWatches core slot).dropFaults core slot).clearTrap core slot
    let x := s1.core core
    let y : Core := { x with
      groups := tabErase x.groups slot
      undo := x.undo.filter fun u => !(u.slot == slot && u.team == g.team && !u.interval) }
    (s1.setCore core ((y.leaveUnit slot).releaseWindow g)).settleOwed core

/-- A group ends; with the last one its team ends. -/
def State.endGroup (s : State) (core slot : Nat) : State :=
  match s.group core slot with
  | none => s
  | some g =>
    let s1 := (s.freeGroup core slot).updTeam g.team fun t => { t with ended := t.ended + 1 }
    if (s1.teamGroups g.team).isEmpty && !s1.teamParked g.team then s1.teamEnd g.team false
    else s1.checkTeamBar g.team

/-- A delivered trap (R379): its record stands in scratchpad, and every live thread is at the
handler. -/
def State.deliverNow (s : State) (core slot : Nat) : State :=
  match s.group core slot with
  | none => s
  | some g =>
    match g.deliver with
    | none => s
    | some (h, a, ws) =>
      let go := fun (x : Lane) => if x.st == .exited then x else
        { x with pc := pcOf h, st := .run, yielded := false, buf := none }
      let s1 := s.setGroup core slot { g with deliver := none, bar := none, lanes := g.lanes.map go }
      let r := lineSlice a (a / 128) (bytesOfWords ws)
      s1.putScrLine core g.team (a / 128) r.1 r.2

/-- A stage closes (R338): with every thread exited the group ends; else a new head. -/
def State.closeStage (s : State) (core slot : Nat) : State :=
  match s.group core slot with
  | none => s
  | some g =>
    let s1 := (s.deliverNow core slot).newStage core slot
    if !g.anyLive then s1.endGroup core slot
    else s1.updGroup core slot fun g => if g.atBar then { g with closing := .wait } else g

/-- A closing stage closes once it can; a BAR's arrival is counted first (R348). -/
def State.tryClose (s : State) (core slot : Nat) : State :=
  match s.group core slot with
  | none => s
  | some g =>
    if !g.canClose then s
    else
      match g.closing with
      | .none => s
      | .stage => s.closeStage core slot
      | .wait => ((s.arrive core slot).deliverNow core slot).newStage core slot

/-! ## Pre-emption (R343) -/

/-- The records of a group's traps not yet ended: the pending one, and one still to be taken. -/
def State.pendingRecs (s : State) (core slot : Nat) (g : Group) : List TrapRec :=
  (if g.trap then (tabFind (s.core core).trapSlots slot).toList else []) ++ g.asyncRec.toList

/-- A pending trap when a group is stopped (R373): a synchronous one is discarded, an asynchronous
one goes to the error queue. -/
def State.shedTrap (s : State) (core slot : Nat) (g : Group) : State :=
  let rs := (s.pendingRecs core slot g).filter TrapRec.async
  let s1 := if g.trap then s.clearTrap core slot else s
  (rs.foldl (fun (s : State) r => s.aeqAppend g.ctx { r with act := .kill }) s1).updGroup core slot fun g =>
    { g with asyncRec := none }

/-- The group holds its core's boundary unit. -/
def State.ownsUnit (s : State) (core slot : Nat) : Bool :=
  match (s.core core).boundary with | some b => b.slot == slot | none => false

/-- The operation at the head of a stream has written some of its results and not all. -/
def MOp.begun (o : MOp) : Bool :=
  match o.kind with
  | .steps q => q.sums.isSome
  | .rest _ _ _ => true
  | _ => false

/-- A matrix step of the group is half done: it finishes its writes (R271). -/
def Group.midStep (g : Group) : Bool := g.streams.any fun l => l.any MOp.begun

/-- A marker waits on a stream (R278). -/
def hasMark (l : List MOp) : Bool := l.any fun o => match o.kind with | .mark _ _ => true | _ => false

/-- A marker of the group has still to be performed. -/
def Group.marked (g : Group) : Bool := g.streams.any hasMark

/-- No engine write into a group's window is outstanding (R140, R159). -/
def Core.quietWindow (x : Core) (g : Group) : Bool := g.rows.all fun r => tabGet 0 x.rowPend r == 0

/-- Nothing keeps a pre-emption of the group waiting: no closer, no outstanding operation, no
engine write into its window, no matrix step half done, no overflowed stage, not at the boundary unit
(R310, R342, R343). -/
def State.canStop (s : State) (core slot : Nat) (g : Group) : Bool :=
  g.closing == .none && g.flight.isEmpty && g.arrWait.isNone && !g.stageOvf &&
  (s.core core).quietWindow g && !s.ownsUnit core slot && !g.midStep

/-- A pre-empted group back at its stage head, its undo lines already restored. -/
def State.stopGroup (s : State) (core slot : Nat) : State :=
  match s.group core slot with
  | none => s
  | some g =>
    let s1 := ((s.shedTrap core slot g).dropFaults core slot).zeroBlocks core g g.head
    ((s1.setGroup core slot { g.atHead g.head with asyncRec := none }).updCore core fun x =>
      (x.leaveUnit slot).dropStage slot g.team).resumeBar core slot

/-! ## Stopping for a kill or a rollback (R340, R343, R344, R380) -/

/-- The operation is a committing closer's (R340). -/
def MemKind.commits : MemKind → Bool
  | .atom _ | .atcas | .red _ | .cadd | .ink .propose | .ink .recycle => true
  | _ => false

/-- Whether a command is refused while its array is out of service; such a command is a committing
closer's (R300, R340). -/
def ACmdKind.barred : ACmdKind → Bool
  | .rdState _ _ | .rdCnt _ _ | .rdStat _ | .rdMon _ => false
  | _ => true

/-- The group counts its arrival at a named barrier when its stage closes: BAR.sync and BAR.arrive are
committing closers (R340). -/
def Group.arriving (g : Group) : Bool :=
  g.closing == .wait && (match g.leastHeld with | some (_, k, _, _) => k != .team | none => false)

/-- Nothing keeps a kill or a rollback of the group waiting: no operation outstanding, no closer issued
and unperformed, no engine write into its window, no matrix step half done. -/
def State.atRest (s : State) (core slot : Nat) (g : Group) : Bool :=
  g.flight.isEmpty && g.arrWait.isNone && (s.core core).quietWindow g && !s.ownsUnit core slot &&
  !g.midStep && !g.marked && !g.arriving

/-- A committing closer waits in the operand log: a rollback waits until it is performed (R122, R344); a kill
discards it with the log (R380). -/
def Group.logCommits (g : Group) : Bool := g.log.any fun e => e.op.req.kind.commits

/-! ## Killing a team (R380) -/

/-- A killed team's group leaves; its pending trap's record goes out with FATAL. -/
def State.killGroup (s : State) (core slot : Nat) : State :=
  match s.group core slot with
  | none => s
  | some g =>
    let s1 := ((s.pendingRecs core slot g).foldl (fun (s : State) r =>
      s.aeqAppend g.ctx { r with fatal := true, act := .kill }) s)
    s1.freeGroup core slot

/-- The parked continuations of a killed team leave (R350, R380). -/
def State.killParked (s : State) (tn c : Nat) : State :=
  let gone := (s.core c).parked.filter fun p => p.group.team == tn
  (gone.foldl (fun (s : State) p =>
      (p.group.asyncRec.toList.foldl (fun (s : State) r =>
        s.aeqAppend p.group.ctx { r with fatal := true, act := .kill }) s).dropWatches c p.key) s).updCore c fun x =>
    gone.foldl (fun x p => x.releaseWindow p.group)
      { x with parked := x.parked.filter fun p => p.group.team != tn }

/-- A team that must die and is at rest dies. -/
def State.killNow (s : State) (tn : Nat) : State :=
  let s1 := (s.teamGroups tn).foldl (fun s e => s.killGroup e.1 e.2) s
  ((s.teamCores tn).foldl (fun s c => s.killParked tn c) s1).teamEnd tn true

/-! ## Rollback (R344, R382) -/

/-- A group rolled back to the start of its recovery interval. -/
def State.rollGroup (s : State) (core slot : Nat) : State :=
  match s.group core slot with
  | none => s
  | some g =>
    let s1 := ((s.shedTrap core slot g).dropFaults core slot).zeroBlocks core g g.ihead
    (s1.setGroup core slot { g.atHead g.ihead with asyncRec := none }).updCore core fun x => x.leaveUnit slot

/-- A parked continuation of a team rolled back: it may be placed again. -/
def State.rollParked (s : State) (core : Nat) (p : Parked) : State :=
  let g := { p.group.atHead p.group.ihead with asyncRec := none }
  let s1 := p.group.asyncRec.toList.foldl (fun (s : State) r => s.aeqAppend p.group.ctx { r with act := .kill }) s
  ((s1.dropWatches core p.key).zeroBlocks core p.group p.group.ihead).updCore core fun x => { x with
    parked := x.parked.map fun q => if q.key == p.key then { q with group := g, mons := [], ready := true } else q }

/-- The team rolled back to its last team barrier. -/
def State.rollback (s : State) (tn : Nat) (sector : Sector) : State :=
  let cs := s.teamCores tn
  let s1 := (s.undoOf tn Undo.interval).foldl (fun s u => s.restoreLine u.1 u.2) s
  let s2 := (s1.teamGroups tn).foldl (fun s e => s.rollGroup e.1 e.2) s1
  let s3 := cs.foldl (fun (s : State) c =>
    s.updCore c fun x => { x with undo := x.undo.filter fun u => u.team != tn }) s2
  let s4 := cs.foldl (fun (s : State) c =>
    ((s.core c).parked.filter fun (p : Parked) => p.group.team == tn).foldl (fun (s : State) (p : Parked) => s.rollParked c p) s) s3
  s4.updTeam tn fun t => { t with barIn := [], ueSectors := sector :: t.ueSectors, rolling := none }

/-- The rollback of a team at rest is made, or the team is killed (R344); the scribe and the error queue
receive the record (R382). -/
def State.answerUe (s : State) (tn : Nat) (t : Team) (u : Ue) : State :=
  let again := t.ueSectors.contains u.sector
  let ovf := t.intOvf || u.ovf
  let fatal := t.committed || ovf || again
  let cause := if !t.committed && ovf then Cause.stageOvf else .ueConsumed
  let r := { u.record with cause := cause, fatal := fatal, rolled := !fatal,
                           act := if fatal then .kill else .retry }
  ((if fatal then s.killNow tn else s.rollback tn u.sector).putTrap u.core u.slot r).aeqAppend t.ctx r

/-- A team that must be killed or rolled back, once all its groups are at rest. -/
def State.tryStop (s : State) (tn : Nat) : State :=
  match tabFind s.teams tn with
  | none => s
  | some t =>
    let rest := (s.teamGroups tn).all fun e => match s.group e.1 e.2 with
      | some g => s.atRest e.1 e.2 g && (t.dying || !g.logCommits) | none => true
    if !t.live || !rest then s
    else if t.dying then s.killNow tn
    else match t.rolling with
      | some u => s.answerUe tn t u
      | none => s

/-- KILL, or a fatal cause. -/
def State.killTeam (s : State) (tn : Nat) : State := (s.doom tn).tryStop tn

/-- A team is being killed or rolled back: its groups issue nothing new. -/
def State.stopping (s : State) (tn : Nat) : Bool :=
  match tabFind s.teams tn with | some t => t.rolling.isSome || t.dying | none => false

/-- The team pre-empted, every group at its stage head, in its slot; none while one must wait. -/
def State.preempt (s0 : State) (tn : Nat) : Option State :=
  let s := s0.tryStop tn
  let gs := s.teamGroups tn
  if !s.stopping tn && gs.all fun e => match s.group e.1 e.2 with | some g => s.canStop e.1 e.2 g | none => true then
    let s1 := (s.undoOf tn Undo.stage).foldl (fun s u => s.restoreLine u.1 u.2) s
    some (gs.foldl (fun s e => s.stopGroup e.1 e.2) s1)
  else none

/-! ## Poison consumed (R103, R344, R382) -/

/-- A trap of an instruction that has left its group's PC: the record `r`, its mask `mask`. While
another trap is pending it becomes a record in the error queue (R373). -/
def State.takeRec (s : State) (core slot : Nat) (r : TrapRec) (mask : LaneMask) : State :=
  match s.group core slot with
  | none => s
  | some g =>
    if g.trap then s.aeqAppend g.ctx { r with act := .kill }
    else (s.setGroup core slot { g with trap := true, trapMask := mask }).putTrap core slot r

/-- A trap of a logged instruction (R81, R82): LOGGED, the logged PC, RPC 0. -/
def State.takeLogged (s : State) (core slot : Nat) (f : Flight) (t : TrapInfo) : State :=
  match s.group core slot with
  | none => s
  | some g => s.takeRec core slot
      { s.trapRec slot g t with logged := true, pc := f.pc, iword := f.iword, rpc := 0 } f.mask

/-- How a log entry whose instruction traps is held: for the scribe's action; or, where another trap is
pending so that its own trap is not taken (R373), until that one has ended. -/
def Group.heldAs (g : Group) : LogState := if g.trap then .shed else .trapped

/-- An operation of a group that has not ended, in flight or in the log. -/
def Group.opOf (g : Group) (id : Nat) : Option Flight :=
  match g.flight.find? fun f => f.id == id with
  | some f => some f
  | none => (g.log.find? fun e => e.op.id == id).map LogEntry.op

/-- An operation that consumed poison is over: its requests not yet performed go. -/
def State.dropOp (s : State) (core slot : Nat) (g : Group) (id : Nat) : State :=
  match g.opOf id with
  | none => s
  | some f =>
    ({ s with atoms := s.atoms.filter fun q =>
        !(q.core == core && q.slot == slot && q.gid == g.team && q.flight == id) } : State).updGroup core slot
      fun g => ({ g with log := g.log.filter fun e => e.op.id != id }).complete id f.cls

/-- A group consumes a poisoned sector: the operation `own` that does is dropped, and its team waits to be
rolled back or killed. A sector consumed while the team waits already adds nothing. The spec gives firmware's
own consumption no effect: its sequencer takes the trap. -/
def State.consumeUe (s : State) (core slot : Nat) (own : Option Nat) (logged : Bool)
    (pc iword : DWord) (sector : Sector) (lane : Nat) : State :=
  match s.group core slot with
  | none => s
  | some g =>
    let r := { s.trapRec slot g ⟨.ueConsumed, lane, sector.addr, 0⟩ with
      pc := pc, iword := iword, rpc := if logged then 0 else pcAdd pc 8, logged := logged }
    let s1 : State := match own with | none => s | some id => s.dropOp core slot g id
    match tabFind s.teams g.team with
    | none => s1.takeRec core slot r 0
    | some t =>
      if t.rolling.isSome || t.dying then s1
      else
        let u : Ue := { sector := sector, core := core, slot := slot, record := r, ovf := g.stageOvf }
        (s1.updTeam g.team fun t => { t with rolling := some u }).tryStop g.team

/-! ## Asynchronous traps (R134, R292, R373) -/

/-- Where a group of a team is. -/
inductive Seat where
  | slot (core slot : Nat) (g : Group)
  | parked (core key : Nat)
  | saved (ctx : Nat)
  | gone

/-- A group of a team, by its index in the team: in a slot, parked (R350), saved (R384), or ended. -/
def State.seatOf (s : State) (ctx tn gidx : Nat) : Seat :=
  let mine := fun (g : Group) => g.team == tn && g.gidx == gidx && !g.fw
  let cs := s.teamCores tn
  match cs.findSome? fun c => ((s.core c).groups.find? fun e => mine e.2).map fun e => (c, e.1, e.2) with
  | some (c, k, g) => .slot c k g
  | none =>
    match cs.findSome? fun c => ((s.core c).parked.find? fun p => mine p.group).map fun p => (c, p.key) with
    | some (c, k) => .parked c k
    | none =>
      if (s.ctx ctx).conts.any fun q => q.groups.any fun e => mine e.group then .saved ctx else .gone

/-- A saved group with an asynchronous trap to take. -/
def ContGroup.raise (e : ContGroup) (tn gidx : Nat) (r : TrapRec) : ContGroup :=
  if e.group.team == tn && e.group.gidx == gidx then { e with group := { e.group with asyncRec := some r } } else e

/-- The group's share of a saved team. -/
def Cont.raise (q : Cont) (tn gidx : Nat) (r : TrapRec) : Cont :=
  { q with groups := q.groups.map fun e => e.raise tn gidx r }

/-- The record of an asynchronous trap that is not taken (R373). -/
def State.asyncLost (s : State) (ctx : Nat) (r : TrapRec) : State := s.aeqAppend ctx { r with act := .kill }

/-- Taking an asynchronous trap (R373): a group in a slot at once; one without a slot before its next
issue. A group that has ended, or that already has a trap pending, sends the record to the error queue.
RPC is the group's broadcast address F. -/
def State.takeAsync (s : State) (ctx tn gidx slot : Nat) (t : TrapInfo) (pc iword : DWord) : State :=
  let rec_ := fun (k : Nat) (rpc : DWord) =>
    { s.recFor ctx tn gidx k t with async := true, pc := pc, iword := iword, rpc := rpc }
  match s.seatOf ctx tn gidx with
  | .slot c k g =>
    if g.trap || g.asyncRec.isSome then s.asyncLost ctx (rec_ k (g.fetchPc.getD 0))
    else
      let h := { g with trap := true, trapMask := 0 }
      (s.setGroup c k h).putTrap c k (rec_ k (g.fetchPc.getD 0))
  | .parked c key =>
    (match (s.core c).parked.find? fun p => p.key == key with
     | none => s
     | some p =>
       let r := rec_ slot (p.group.fetchPc.getD 0)
       if p.group.asyncRec.isSome then s.asyncLost ctx r
       else
         let h := { p.group with asyncRec := some r }
         let put := fun (q : Parked) => if q.key == key then { q with group := h } else q
         s.updCore c fun x => { x with parked := x.parked.map put })
  | .saved c =>
    let mine := fun (e : ContGroup) => e.group.team == tn && e.group.gidx == gidx
    let had := (s.ctx c).conts.any fun q => q.groups.any fun e => mine e && e.group.asyncRec.isSome
    if had then s.asyncLost ctx (rec_ slot 0)
    else
      let r := rec_ slot 0
      s.updCtx c fun x => { x with conts := x.conts.map fun q => q.raise tn gidx r }
  | .gone => s.asyncLost ctx (rec_ slot 0)

/-- A group that has got a slot takes the asynchronous trap raised meanwhile. -/
def State.takeWaiting (s : State) (core slot : Nat) (g : Group) (r : TrapRec) : State :=
  (s.setGroup core slot { g with asyncRec := none, trap := true, trapMask := 0 }).putTrap core slot
    { r with gslot := BitVec.ofNat 6 slot, rpc := g.fetchPc.getD 0, gtime := s.gtime }

end Sys2Proof.Machine
end

