-- ==== Sys2Proof/Machine/Access.lean ====
section
/-! DEFINITION. The load-store unit: checks of every lane's access, translation, the operand log,
the conflict detector, loads and stores of each space, and what completes later (R31, R36 to R38,
R74 to R83, R103, R178 to R191, R405, R406). -/

namespace Sys2Proof

/-- Registers of one element of an access size (R182). -/
def ASize.regs (z : ASize) : Nat := (z.bytes + 3) / 4

/-- The words a load of this size writes: narrow loads fill 32 bits (R182). -/
def ASize.words (z : ASize) (v : Nat) : List Word :=
  match z with
  | .z8 | .z16 | .b32 => [BitVec.ofNat 32 v]
  | .s8 => [(BitVec.ofNat 8 v).signExtend 32]
  | .s16 => [(BitVec.ofNat 16 v).signExtend 32]
  | .b64 => (List.range 2).map fun i => BitVec.ofNat 32 (v / 2 ^ (32 * i))
  | .b128 => (List.range 4).map fun i => BitVec.ofNat 32 (v / 2 ^ (32 * i))

end Sys2Proof

namespace Sys2Proof.Machine

/-! ## Wait counters and the scoreboard (R36 to R38) -/

/-- The scoreboard's name of register `r`. -/
def Group.regKey (g : Group) (r : Nat) : Nat := if g.fw then r else g.vecOfs r

/-- An operation counted and its destinations pending. -/
def Group.track (g : Group) (id : Nat) (k : WClass) (dests : List Nat) : Group :=
  { g with
    cnt := g.cnt.upd (· + 1) k
    pend := g.pend ++ dests.map fun r => { reg := g.regKey r, id := id }
    nextId := max g.nextId (id + 1) }

/-- An operation's log entry is freed. -/
def Group.unlog (g : Group) (id : Nat) (k : WClass) : Group :=
  { g with log := g.log.filter fun e => e.op.id != id }.retire id k

/-! ## Lanes' accesses -/

/-- A lane's access before its checks: `ptr` none when the offset leaves the object (R70), of which
`base` is the pointer. -/
structure Cand where
  lane : Nat
  j : Nat
  base : DWord
  ptr : Option DWord
  data : BitVec 128
  cmp : DWord

/-- A checked and translated access. -/
structure Hit where
  e : Elem
  d : Desc
  ext : DWord

/-- The access's element. -/
def Cand.elem (k : Cand) (p : DWord) : Elem :=
  { lane := k.lane, j := k.j, ptr := p, pa := 0, data := k.data, cmp := k.cmp, dev := 0 }

/-- An element taken up again from the log. -/
def Elem.cand (e : Elem) : Cand :=
  { lane := e.lane, j := e.j, base := e.ptr, ptr := some e.ptr, data := e.data, cmp := e.cmp }

/-- The checks of R183 on global accesses, in order: carry, MISALIGNED, CHECK (R74); with the
descriptor cache as they leave it. -/
def State.admitHits (s : State) (core ctx n : Nat) (need : Need) :
    DCache → List Cand → Except TrapInfo (List (Elem × Desc)) × DCache
  | c, [] => (.ok [], c)
  | c, k :: r =>
    match k.ptr with
    | none => (.error ⟨.objBounds, k.lane, k.base, 0⟩, c)
    | some p =>
      if ptrOfs p % n ≠ 0 then (.error ⟨.misaligned, k.lane, p, 0⟩, c)
      else
        match s.check core ctx c p n need with
        | (.error q, c1) => (.error ⟨q, k.lane, p, 0⟩, c1)
        | (.ok d, c1) =>
          let t := s.admitHits core ctx n need c1 r
          (t.1.map fun l => (k.elem p, d) :: l, t.2)

/-- Translation of checked accesses (R77): HOME_OFFLINE for a die out of service (R394), the first
absent extent met, or every access with its address and entry. -/
def State.reach (s : State) (core ctx : Nat) :
    List (Elem × Desc) → Except TrapInfo (List Hit × Option (Nat × Nat))
  | [] => .ok ([], none)
  | (e, d) :: r =>
    match s.xlate (clusterOf core) ctx d e.ptr with
    | .absent on i =>
      (match s.reach core ctx r with
       | .error t => .error t
       | .ok (l, _) => .ok (l, some (on, i)))
    | .at pa x =>
      if (s.die (pa / 2 ^ 38)).out then .error ⟨.homeOffline, e.lane, e.ptr, 0⟩
      else
        match s.reach core ctx r with
        | .error t => .error t
        | .ok (l, a) => .ok ({ e := { e with pa := pa }, d := d, ext := x } :: l, a)

/-- The cluster's extent cache takes the extents that checked accesses meet (R77). -/
def State.extentsMet (s : State) (core ctx : Nat) (l : List (Elem × Desc)) : State :=
  l.foldl (fun s h => s.extentMet (clusterOf core) ctx h.2 h.1.ptr) s

/-! ## The conflict detector (R405, R406) -/

/-- The aligned words a range of bytes touches. -/
def wordsOf (a n : Nat) : List Nat := (List.range ((a + n + 3) / 4 - a / 4)).map fun i => a / 4 + i

/-- The name of a group in a signature: its team and its index there, which it keeps in any slot (a slot
plus 1 in R405; no two groups have one slot in one barrier interval). -/
def Group.sigName (g : Group) : Nat := 32 * g.team + g.gidx + 1

/-- One access against a signature: the other group and whether a load is involved, or the
signature after it. -/
def Sig.access (t : Sig) (who : Nat) (store : Bool) : Except (Nat × Bool) Sig :=
  if t.wr ≠ 0 ∧ t.wr ≠ who then .error (t.wr, !store)
  else if store then
    if t.rd ≠ 0 ∧ t.rd ≠ who ∨ t.mr then .error (t.rd, true) else .ok { t with wr := who }
  else if t.rd = 0 then .ok { t with rd := who }
  else if t.rd ≠ who then .ok { t with mr := true }
  else .ok t

/-- The empty signature. -/
def Sig.none : Sig := { wr := 0, rd := 0, mr := false }

/-- AUX of a DET_CONFLICT record (R406). -/
def State.detAux (s : State) (who : Nat) (pair : Bool) : Nat :=
  let tid := match tabFind s.teams ((who - 1) / 32) with | some t => t.tid | none => 0
  (who - 1) % 32 + 32 * b2n pair + 64 * (tid % 2 ^ 14)

/-- The words that `n` bytes at `a` touch, each with the address a record would give it: the word's own in
the access's numbering, of which `p` is the first byte's. -/
def wordsAt (p : DWord) (a n : Nat) : List (DWord × Nat) :=
  (wordsOf a n).zipIdx.map fun w => (BitVec.ofNat 64 (p.toNat / 4 * 4 + 4 * w.2), w.1)

/-- Words checked and recorded in a table of signatures: (lane, address to report, word). -/
def State.detect (s : State) (who : Nat) (store : Bool) :
    Tab Sig → List (Nat × DWord × Nat) → Except TrapInfo (Tab Sig)
  | t, [] => .ok t
  | t, (l, a, w) :: r =>
    match (tabGet Sig.none t w).access who store with
    | .error (o, pair) => .error ⟨.detConflict, l, a, s.detAux o pair⟩
    | .ok g => s.detect who store (tabSet t w g) r

/-! ## What an attempt at an operation comes to -/

/-- A trap or an absent extent, with the caches as the check left them; a wait, a park, completion, an
operation in flight with the elements still to come, or the end of the group's present course by a
consumed poison. -/
inductive Try where
  | trap (t : TrapInfo) (s : State)
  | absent (on ext : Nat) (s : State)
  | wait
  | park
  | done (s : State)
  | fly (rest : List Elem) (s : State)
  | gone (s : State)

/-- What a performed attempt leaves, changed. -/
def Try.map (t : Try) (f : State → State) : Try :=
  match t with | .done s => .done (f s) | t => t

/-- The group that acts, and the instruction it acts for. -/
structure Actor where
  core : Nat
  slot : Nat
  pc : DWord
  iword : DWord
  id : Nat
  logged : Bool

/-- The group that holds the turn as an actor. -/
def State.actor (s : State) (g : Group) : Actor :=
  { core := s.cur.core, slot := s.cur.slot, pc := s.cur.pc, iword := s.cur.iword, id := g.nextId,
    logged := false }

/-- An operation in flight, or one of the log, as an actor. -/
def Flight.actor (f : Flight) (core slot : Nat) : Actor :=
  { core := core, slot := slot, pc := f.pc, iword := f.iword, id := f.id, logged := f.logged }

/-- A poisoned sector consumed by an actor. -/
def State.consume (s : State) (a : Actor) (lane : Nat) (sector : Sector) : State :=
  s.consumeUe a.core a.slot (some a.id) a.logged a.pc a.iword sector lane

/-- The register writes of one element's value. -/
def MemReq.outs (r : MemReq) (e : Elem) (v : Nat) : List (Nat × Nat × Word) :=
  let ls := if r.u then lanesOf r.lanes else [e.lane]
  ls.flatMap fun l =>
    (r.size.words v).zipIdx.map fun w => (l, r.dest + r.size.regs * e.j + w.2, w.1)

/-- Elements' data laid into one line, later elements over earlier ones (R187, R191). -/
def lineOf (n line : Nat) (hs : List Elem) : Line × LineMask :=
  hs.foldl (fun acc e =>
    if e.pa / 128 = line then
      (lineSet acc.1 (e.pa % 128) n e.data.toNat, acc.2 ||| maskOf (e.pa % 128) n)
    else acc) (0, 0)

/-! ## Global loads (R98, R184, R185) -/

/-- The object of an access is commutative. -/
def Hit.comm (h : Hit) : Bool := h.d.type == some .comm

/-- The line of an access. -/
def Hit.line (h : Hit) : Nat := h.e.pa / 128

/-- A copy's sector that holds `pa` is poisoned. -/
def L1Line.bad (c : L1Line) (pa : Nat) : Bool := c.poison.getLsbD (pa % 128 / 32)

/-- A global load: commutative objects at their homes, combined and read in this step (the model's choice of
when between issue and completion), behind what was sent there before (R6); lines of which L1 holds every byte
the load needs from L1; the rest whole by fills, so that no line load is torn (R188). -/
def State.loadGlb (s : State) (a : Actor) (r : MemReq) (hs : List Hit) : Try :=
  let n := r.size.bytes
  let comm := hs.filter Hit.comm
  let plain := hs.filter fun h => !h.comm
  let has := fun (x : Core) (h : Hit) => x.holds h.line (maskOf (h.e.pa % 128) n)
  if !(comm.all fun h => s.homeReady h.line && !s.behind (dieOf a.core, lineDie h.line) (s.steps + 1)) then .wait
  else
    let lost := fun (x : Core) (h : Hit) => plain.any fun k => k.line == h.line && !has x k
    match comm.findSome? fun h => (s.combineBad h.line).map fun p => (h, p) with
    | some (h, p) => .gone ((s.readSector (sectorOf p)).consume a h.e.lane (memSector p))
    | none =>
    let s1 := comm.foldl (fun s h => ((s.atHome h.line).combine h.line).readSector (sectorOf h.e.pa)) s
    let held := plain.filter fun h => !lost (s1.core a.core) h
    let missing := plain.filter fun h => lost (s1.core a.core) h
    match comm.find? fun h => s1.poisoned h.e.pa n with
    | some h => .gone (s1.consume a h.e.lane (memSector h.e.pa))
    | none =>
      match held.find? fun h => match (s1.core a.core).copy h.line with
          | some c => c.bad h.e.pa | none => false with
      | some h => .gone (s1.consume a h.e.lane (memSector h.e.pa))
      | none =>
        let outs := (comm.flatMap fun h => r.outs h.e (memNat s1.mem h.e.pa n)) ++
          held.flatMap fun h => match (s1.core a.core).copy h.line with
            | some c => r.outs h.e (lineNat c.data (h.e.pa % 128) n)
            | none => []
        let s2 := s1.updCore a.core fun x => held.foldl (fun x h =>
          x.updCopy h.line fun c => { c with mark := true }) x
        let s3 := s2.putRegs a.core a.slot outs
        if missing.isEmpty then .done s3
        else
          let news := (dedup (missing.map Hit.line)).filter fun l =>
            !(s3.fills.any fun f => f.core == a.core && f.line == l && !f.l2)
          let reqs : List FillReq := news.map fun l =>
            { core := a.core, line := l, low := r.nt, l2 := false,
              host := missing.any fun h => h.line == l && extBias h.ext, go := none, sent := s.steps }
          .fly (missing.map Hit.e) { s3 with fills := s3.fills ++ reqs }

/-! ## Global stores (R184, R185, R187, R313) -/

/-- A later store of a core to a line gathered into one that waits to be sent. -/
def WtMsg.gather (w : WtMsg) (data : Line) (m : LineMask) : WtMsg :=
  { w with mask := w.mask ||| m, data := blend w.data data m }

/-- A non-temporal store to a host-bias line (R313): gathered into the core's last write to that line,
where the cluster memory port still gathers it (free), or a write of its own to the host. -/
def State.storeNtTo (s : State) (host : Bool) (core ctx line : Nat) (data : Line) (m : LineMask) :
    State :=
  if !host then s.storeNt core ctx line data m
  else
    let mine := fun (w : WtMsg) => w.core == core && w.line == line
    let t := s.updCore core fun x => x.updCopy line fun c => c.takeNt data m
    match (placesOf s.hostWrites mine).getLast? with
    | some i =>
      if (s.hostWrites[i]?.any fun w => w.nt && w.ctx == ctx) && Config.gathers core line s.steps then
        { t with hostWrites := listUpd (fun w => w.gather data m) s.hostWrites i }
      else { t with hostWrites := s.hostWrites ++
        [{ core := core, line := line, mask := m, data := data, nt := true, ctx := ctx, sent := s.steps }] }
    | none => { t with hostWrites := s.hostWrites ++
        [{ core := core, line := line, mask := m, data := data, nt := true, ctx := ctx, sent := s.steps }] }

/-- Stores into L1, line after line; or the line that finds no way. -/
def State.storeLines (s : State) (core n : Nat) (hs : List Hit) : List Nat → Except Nat State
  | [] => .ok s
  | l :: r =>
    let d := lineOf n l (hs.map Hit.e)
    match s.storeL1 core l d.1 d.2 (hs.any fun h => h.line == l && extBias h.ext) with
    | (false, _) => .error l
    | (true, t) => t.storeLines core n hs r

/-- A global store. One that finds every way of a set held by pinned partial lines takes its capacity
point (R302) and waits, with none of its bytes stored (the model's choice: R97 to R99 name no end). -/
def State.storeGlb (s : State) (a : Actor) (ctx : Nat) (r : MemReq) (hs : List Hit) : Try :=
  let n := r.size.bytes
  let ls := dedup (hs.map Hit.line)
  if r.nt then
    .done (ls.foldl (fun s l =>
      let d := lineOf n l (hs.map Hit.e)
      s.storeNtTo (hs.any fun h => h.line == l && extBias h.ext) a.core ctx l d.1 d.2) s)
  else
    match s.storeLines a.core n hs ls with
    | .ok t => .done t
    | .error l => if s.canPublish a.core then .gone (s.capacity a.core (lineSet8 l)) else .wait

/-! ## Scratchpad and cluster accesses (R131, R179, R180, R186) -/

/-- Where a scratchpad access goes: core, team, address; or the cause of its refusal. -/
def State.local (s : State) (core team : Nat) (clu : Bool) (a n : Nat) :
    Except Cause (Nat × Nat × Nat) :=
  let k := if clu then core / 4 * 4 + a / 2 ^ 21 % 4 else core
  let at_ := if clu then a % 2 ^ 21 else a
  let own := fun (c t : Nat) =>
    if at_ + n ≤ s.scrSize t c then Except.ok (c, t, at_) else .error Cause.segLimit
  if clu && a / 2 ^ 23 != 0 then .error .segLimit
  else if k = core then own core team
  else
    match s.setTeam team k with
    | none => .error .segLimit
    | some (t, x) => if x.live then own k t else .error .peerDead

/-- An element with its scratchpad place. -/
abbrev Spot := Elem × Nat × Nat × Nat

/-- The checks of R183 on scratchpad accesses, in order. -/
def State.spots (s : State) (core team : Nat) (clu : Bool) (n : Nat) :
    List Elem → Except TrapInfo (List Spot)
  | [] => .ok []
  | e :: r =>
    if e.ptr.toNat % n ≠ 0 then .error ⟨.misaligned, e.lane, e.ptr, 0⟩
    else
      match s.local core team clu e.ptr.toNat n with
      | .error c => .error ⟨c, e.lane, e.ptr, 0⟩
      | .ok p =>
        match s.spots core team clu n r with
        | .error t => .error t
        | .ok l => .ok ((e, p) :: l)

/-- The scratchpad words of an access in their core's table (R405). -/
def Spot.words (p : Spot) (n : Nat) : List (Nat × DWord × Nat) :=
  (wordsAt p.1.ptr p.2.2.2 n).map fun w => (p.1.lane, w.1, p.2.2.1 * 2 ^ 19 + w.2)

/-- A deterministic group's scratchpad accesses checked and recorded. -/
def State.detScr (s : State) (who : Nat) (store : Bool) (n : Nat) :
    List Spot → Except TrapInfo State
  | [] => .ok s
  | p :: r =>
    match s.detect who store (s.core p.2.1).sigScr (Spot.words p n) with
    | .error t => .error t
    | .ok g => (s.updCore p.2.1 fun x => { x with sigScr := g }).detScr who store n r

/-- A deterministic group's global accesses checked and recorded in its core's L1 signatures. -/
def State.detGlb (s : State) (core who : Nat) (store : Bool) (n : Nat) (es : List Elem) :
    Except TrapInfo State :=
  match s.detect who store (s.core core).sigL1
      (es.flatMap fun e => (wordsAt e.ptr e.pa n).map fun w => (e.lane, w.1, w.2)) with
  | .error t => .error t
  | .ok g => .ok (s.updCore core fun x => { x with sigL1 := g })

/-- Accesses of a deterministic group recorded again, after a capacity point of their own or of their fill
has cleared the L1 signatures (R407). -/
def State.redetGlb (s : State) (core : Nat) (g : Group) (store : Bool) (n : Nat) (es : List Elem) : State :=
  if g.det then
    match s.detGlb core g.sigName store n es with | .ok t => t | .error _ => s
  else s

/-- The first of the accesses that meets a poisoned sector, with that sector. -/
def State.badSpot (s : State) (n : Nat) (ps : List Spot) : Option (Spot × Sector) :=
  ps.findSome? fun p => (s.scrBad p.2.1 p.2.2.1 p.2.2.2 n).map fun b => (p, b)

/-- A load or store on SCR or CLU, its places checked. When between issue and completion such an access
is performed the spec leaves open; the model performs it whole at issue (log 8). -/
def State.scrAccess (s : State) (a : Actor) (g : Group) (r : MemReq) (store : Bool) (ps : List Spot) : Try :=
  let n := r.size.bytes
  if !(ps.all fun p => s.present p.2.1 p.2.2.1 p.2.2.2) then .park
  else
    match (if g.det then s.detScr g.sigName store n ps else .ok s) with
    | .error t => .trap t s
    | .ok s1 =>
      if store then
        .done (ps.foldl (fun s p =>
          s.storeScr a.core a.slot p.2.1 p.2.2.1 p.2.2.2 (bytesOfNat n p.1.data.toNat)) s1)
      else
        match s.badSpot n ps with
        | some (p, b) => .gone (s1.consume a p.1.lane b)
        | none => .done (s1.putRegs a.core a.slot (ps.flatMap fun p =>
            r.outs p.1 (s1.scrNat p.2.1 p.2.2.1 p.2.2.2 n)))

/-! ## The scribe's own objects (R435, R441) -/

/-- The 64 bytes of the configuration block (R435). -/
def Core.cfgNat (x : Core) (ofs n : Nat) : Nat :=
  ((x.cfgW0.toNat + 2 ^ 64 * x.cfgW1.toNat) / 2 ^ (8 * ofs)) % 2 ^ (8 * n)

/-- The cells that a window access to row `key` meets: those of the row, or of the spare it is steered to. -/
def Core.cells (x : Core) (key : Nat) : Nat :=
  match x.steer key with | some e => 16384 + e | none => key

/-- Bytes of the bank test window: the row's data bits as they stand, stuck cells included. -/
def State.windowNat (s : State) (core ofs n : Nat) : Nat :=
  let x := s.core core
  let k := x.cells (ofs / 128)
  let m := Config.stuckMask core k
  lineNat ((x.row (ofs / 128) &&& ~~~m) ||| (Config.stuckValue core k &&& m)) (ofs % 128) n

/-- `n` bytes stored at offset `ofs` of the bank test window, with fresh check bits in their sectors (R441). -/
def Core.windowPut (x : Core) (ofs n v : Nat) : Core :=
  let y := x.putRow (ofs / 128) (lineSet 0 (ofs % 128) n v) (maskOf (ofs % 128) n)
  { y with wellPoison := y.wellPoison.filter fun p =>
      !(p / 4 == ofs / 128 && decide (ofs % 128 / 32 ≤ p % 4) && decide (p % 4 ≤ (ofs % 128 + n - 1) / 32)) }

/-- An access names one of the scribe's own objects. -/
def scribesOwn (core : Nat) (fw : Bool) (es : List Cand) : Bool :=
  fw && decide (core < 256) && es.any fun k =>
    match k.ptr with | some p => ptrOn p == 1 || ptrOn p == 2 | none => false

/-- A checked access to the scribe's own objects, performed at the bank. -/
def State.windowAccess (s : State) (a : Actor) (r : MemReq) (store : Bool) (es : List Elem) : Try :=
  let n := r.size.bytes
  if store then
    .done (es.foldl (fun s e =>
      s.updCore a.core fun x => x.windowPut (ptrOfs e.ptr) n e.data.toNat) s)
  else
    .done (s.putRegs a.core a.slot (es.flatMap fun e =>
      r.outs e (if ptrOn e.ptr = 1 then (s.core a.core).cfgNat (ptrOfs e.ptr) n
        else s.windowNat a.core (ptrOfs e.ptr) n)))

/-! ## Loads and stores of global memory, at issue and at replay -/

/-- Candidates checked and translated for an actor of context `ctx`; the caches take what was met. -/
def State.checkGlb (s : State) (core ctx n : Nat) (need : Need) (ks : List Cand) :
    Except TrapInfo (List Hit × Option (Nat × Nat)) × State :=
  let r := s.admitHits core ctx n need (s.core core).desc ks
  let s1 := s.setDesc core r.2
  match r.1 with
  | .error t => (.error t, s1)
  | .ok l => (s1.reach core ctx l, s1.extentsMet core ctx l)

/-- An access of `n` bytes at each of its pointers meets bytes of an operation that stands in the operand
log before operation `own`: it waits for that one's replay, so that the group observes nothing out of
order (R81). -/
def Group.behindLog (g : Group) (own n : Nat) (es : List Elem) : Bool :=
  (g.log.takeWhile fun e => e.op.id != own).any fun e => e.op.req.elems.any fun x => es.any fun y =>
    x.dev == y.dev && ptrOn x.ptr == ptrOn y.ptr &&
    decide (ptrOfs x.ptr < ptrOfs y.ptr + n) &&
    decide (ptrOfs y.ptr < ptrOfs x.ptr + e.op.req.size.bytes)

/-- A global load or store. -/
def State.tryGlb (s : State) (a : Actor) (g : Group) (r : MemReq) (store : Bool) (ks : List Cand) :
    Try :=
  let need := if store then needStore else needLoad
  if scribesOwn a.core g.fw ks then
    match (s.admitHits a.core g.ctx r.size.bytes need [] ks).1 with
    | .error t => .trap t s
    | .ok l => s.windowAccess a r store (l.map Prod.fst)
  else
    match s.checkGlb a.core g.ctx r.size.bytes need ks with
    | (.error t, s1) => .trap t s1
    | (.ok (_, some (on, i)), s1) => .absent on i s1
    | (.ok (hs, none), s1) =>
      if g.behindLog a.id r.size.bytes (hs.map Hit.e) then .wait
      else
        let es := hs.map Hit.e
        match (if g.det then s1.detGlb a.core g.sigName store r.size.bytes es else .ok s1) with
        | .error t => .trap t s1
        | .ok s2 => if store then (s1.storeGlb a g.ctx r hs).map fun s => s.redetGlb a.core g true r.size.bytes es
            else s2.loadGlb a r hs

/-! ## Issue, the operand log, completion (R78 to R82) -/

/-- Close the stage of the turn's group after it issued, if the instruction is a closer; `done` when
its effect has been performed. -/
def State.closeIf (s : State) (b done : Bool) : State := if b then s.close done else s

/-- An operation enters the operand log (R78): it waits on an absent extent, with a fault record, or
is ready when that extent has become present while the group was stalled. -/
def State.enterLog (s : State) (g : Group) (f : Flight) (dests : List Nat) (on ext : Nat)
    (closes here : Bool) : State :=
  let e : LogEntry := { op := { f with logged := true }, st := if here then .ready else .waiting on ext }
  let s1 := (s.updGroup s.cur.core s.cur.slot fun g =>
    { g.track f.id f.cls dests with log := g.log ++ [e] }).next.closeIf closes false
  if here then s1
  else s1.fault { ctx := g.ctx, on := on, ext := ext, who := .log s.cur.core s.cur.slot }

/-- An operation that meets an absent extent enters the operand log, or stalls its group at the
instruction while four entries are held (R79). -/
def State.logged (s : State) (g : Group) (f : Flight) (dests : List Nat) (on ext : Nat)
    (closes : Bool) : M State :=
  if g.log.length ≥ 4 then
    .error (.state (s.park.updGroup s.cur.core s.cur.slot fun g => { g with logStall := some (on, ext) }))
  else .ok (s.enterLog g f dests on ext closes false)

/-- A group stalled by R79 at its instruction: it takes the entry that has been freed, whether or not
the extent has become present meanwhile. -/
def State.unstall (s : State) (g : Group) (f : Flight) (dests : List Nat) (on ext : Nat)
    (closes : Bool) : M State :=
  if g.log.length ≥ 4 then .error .park
  else .ok (s.enterLog g f dests on ext closes
    (extP (extEntry s (fetchDesc s s.cur.core g.ctx on) ext)))

/-- The outcome of an attempt at issue; a group stalled by R79 makes none. -/
def State.settleTry (s : State) (g : Group) (f : Flight) (dests : List Nat) (closes : Bool)
    (t : Try) : M State :=
  match g.logStall with
  | some (on, ext) => s.unstall g f dests on ext closes
  | none =>
  match t with
  | .trap t u => u.raise t
  | .absent on ext u => u.logged g f dests on ext closes
  | .wait => .error .wait
  | .park => .error .park
  | .gone t => .error (.state t)
  | .done t => .ok (t.next.closeIf closes true)
  | .fly rest t =>
    .ok ((t.updGroup s.cur.core s.cur.slot fun g =>
      { g.track f.id f.cls dests with
        flight := g.flight ++ [{ f with req := { f.req with elems := rest } }] }).next.closeIf closes false)

/-- The flight of the turn's instruction. -/
def State.flightOf (s : State) (g : Group) (k : WClass) (req : MemReq) (es : List Elem) : Flight :=
  { id := g.nextId, cls := k, pc := s.cur.pc, iword := s.cur.iword, mask := req.lanes,
    req := { req with elems := es }, logged := false }

/-- The elements of candidates whose pointers exist. -/
def candElems (ks : List Cand) : List Elem :=
  ks.filterMap fun k => k.ptr.map fun p => k.elem p

/-- A group's flight loses elements; with the last it completes. -/
def State.arrived (s : State) (core slot id : Nat) (done : Elem → Bool) : State :=
  s.updGroup core slot fun g =>
    match g.flight.find? fun f => f.id == id with
    | none => g
    | some f =>
      let rest := f.req.elems.filter fun e => !done e
      if rest.isEmpty then g.complete id f.cls
      else { g with flight := g.flight.map fun x =>
        if x.id == id then { x with req := { x.req with elems := rest } } else x }

/-- An operation in flight with elements `es`; they join those of its own that are in flight already. -/
def Group.fly (g : Group) (f : Flight) (es : List Elem) : Group :=
  let more := fun (x : Flight) => { x with req := { x.req with elems := x.req.elems ++ es } }
  if g.flight.any fun x => x.id == f.id then
    { g with flight := g.flight.map fun x => if x.id == f.id then more x else x }
  else { g with flight := g.flight ++ [{ f with req := { f.req with elems := es } }] }

/-- Elements of an operation that a home has refused, held beside the log; they join those held already. -/
def Group.holdElems (g : Group) (f : Flight) (es : List Elem) : Group :=
  let old := match g.log.find? fun e => e.op.id == f.id with | some e => e.op.req.elems | none => []
  { g with log := (g.log.filter fun e => e.op.id != f.id) ++
      [{ op := { f with req := { f.req with elems := old ++ es } }, st := g.heldAs }] }

/-- A home refuses elements of an operation whose threads have moved on: they are held beside the log (RETRY
sends them again, SKIP and DELIVER drop them, and no thread moves), and the group takes the trap. -/
def State.homeFault (s : State) (core slot : Nat) (g : Group) (f : Flight) (mine : Elem → Bool)
    (t : TrapInfo) : State :=
  let s1 := (s.setGroup core slot (g.holdElems f (f.req.elems.filter mine))).arrived core slot f.id mine
  let r := s1.trapRec slot g t
  if f.logged then s1.takeRec core slot { r with logged := true, pc := f.pc, iword := f.iword, rpc := 0 } f.mask
  else s1.takeRec core slot { r with pc := f.pc, iword := f.iword, rpc := pcAdd f.pc 8 } 0

/-- A request that has not reached its home die on another die meets that die out of service (R394): its UCIe
endpoint answers HOME_OFFLINE. -/
def State.turnedBack (s : State) (r : Route) (here : Bool) : Bool := r.1 != r.2 && !here && (s.die r.2).out

/-- HOME_OFFLINE for the elements that `mine` names of an operation in flight. -/
def State.offline (s : State) (core : Nat) (q : Nat × Nat) (mine : Elem → Bool) : State :=
  match s.group core q.1 with
  | none => s
  | some g =>
    match g.flight.find? fun f => f.id == q.2 with
    | none => s
    | some f =>
      match f.req.elems.find? mine with
      | none => s
      | some e => s.homeFault core q.1 g f mine ⟨.homeOffline, e.lane, e.ptr, 0⟩

/-! ## FILL (R93, R184, R302) -/

/-- The kind of a flight that a fill serves. -/
def MemKind.isLoad : MemKind → Bool
  | .ld | .ldf => true
  | _ => false

/-- One flight served with a line's bytes. -/
def State.serve (s : State) (core line : Nat) (data : Line) (bad : BitVec 4) (q : Nat × Nat) : State :=
  match s.group core q.1 with
  | none => s
  | some g =>
    match g.flight.find? fun f => f.id == q.2 && f.req.kind.isLoad with
    | none => s
    | some f =>
      let n := f.req.size.bytes
      let here := f.req.elems.filter fun e => e.pa / 128 == line
      match here.find? fun e => bad.getLsbD (e.pa % 128 / 32) with
      | some e => s.consume (f.actor core q.1) e.lane (memSector e.pa)
      | none =>
        ((s.redetGlb core g false n here).putRegs core q.1 (here.flatMap fun e =>
          f.req.outs e (lineNat data (e.pa % 128) n))).arrived core q.1 f.id fun e => e.pa / 128 == line

/-- Flights of a core that wait for a line. -/
def Core.waiters (x : Core) (line : Nat) : List (Nat × Nat) :=
  x.groups.flatMap fun e => (e.2.flight.filter fun f =>
    f.req.kind.isLoad && f.req.elems.any fun a => a.pa / 128 == line).map fun f => (e.1, f.id)

/-- A fill's line reaches the core: installed under the bytes of a partial line, and the loads that
wait for it served with what the line then holds. -/
def State.filled (s : State) (f : FillReq) : State :=
  let fresh := match f.go with | some d => d | none => memLine s.mem f.line
  let bad := (s.homeLine f.line).1
  let r := match (s.core f.core).copy f.line with
    | some c => if c.full then (c.data, c.poison) else (blend fresh c.data c.valid, clearWhole c.valid bad)
    | none => (fresh, bad)
  let s1 := s.install f.core f.line fresh f.low f.host
  ((s1.core f.core).waiters f.line).foldl (fun s q => s.serve f.core f.line r.1 r.2 q) s1

/-- The core can place a fill's line now: it holds a copy, or a way is free or can be freed. -/
def State.roomFor (s : State) (f : FillReq) : Bool :=
  f.l2 || ((s.core f.core).copy f.line).isSome || (s.makeWay f.core (lineSet8 f.line)).isSome || s.canPublish f.core

/-- FILL: the n-th fill is answered by the line's home, where it waits while PEND is set (R304) and
behind the core's own words on their way there; a host-bias line's by the host (R415). One that reaches a die
out of service is answered HOME_OFFLINE (R394); a prefetch is then dropped. -/
def execFill (n : Nat) (s : State) : Host.Outcome State Fault Refusal :=
  match s.fills[n]? with
  | none => .next s
  | some f =>
    let own := fun (w : WtMsg) => w.core == f.core && w.line == f.line
    if s.turnedBack f.route f.here then
      if s.behind f.route f.sent then .next s
      else
        let s1 := { s with fills := listDrop1 s.fills n }.reachedBy f.route f.sent
        let qs := if f.l2 then [] else (s1.core f.core).waiters f.line
        .next (qs.foldl (fun s q => s.offline f.core q fun e => e.pa / 128 == f.line) s1)
    else if !s.fillReady f || !s.roomFor f || s.wts.any own || s.hostWrites.any own || s.behind f.route f.sent then
      .next s
    else
      let s1 := { s with fills := listDrop1 s.fills n }.reachedBy f.route f.sent
      if f.l2 then .next (s1.homeLine f.line).2 else .next (s1.filled f)

/-! ## PUBLICATION_ACK (R94 step 3, R193, R195) -/

/-- A write-back whose every line is acknowledged: the commits leave, the lines it was to drop go, CINV's
flag is set, and its operation completes. -/
def State.flushed (s : State) (core : Nat) (f : Flush) : State :=
  let s1 := (s.sendCommits core f.job (f.acked.map Prod.fst)).keepAcks core f.acked
  let s2 := f.drops.foldl (fun (s : State) l => s.dropCopy core l) s1
  match s2.group core f.slot with
  | none => s2
  | some g =>
    match g.flight.find? fun o => o.id == f.op && g.team == f.team with
    | none => s2
    | some o =>
      let x := s2.core core
      let s3 := if f.flag then
          s2.putRegs core f.slot ((lanesOf o.mask).map fun l => (l, o.req.dest, g.reg x o.req.dest l ||| 1))
        else s2
      s3.updGroup core f.slot fun g => g.complete o.id o.cls

/-- An acknowledgement reaches a write-back of the core. -/
def State.flushAck (s : State) (core : Nat) (a : AckMsg) : State :=
  match (s.core core).flushes.find? fun f => f.job == a.job with
  | none => s
  | some f =>
    let f1 := f.ack a
    let rest := (s.core core).flushes.filter fun f => f.job != a.job
    if f1.pending.isEmpty then (s.updCore core fun x => { x with flushes := rest }).flushed core f1
    else s.updCore core fun x => { x with flushes := rest ++ [f1] }

/-- PUBLICATION_ACK: an acknowledgement reaches the publishing core: its boundary unit, or the write-back
it belongs to. -/
def execPublicationAck (n : Nat) (s : State) : Host.Outcome State Fault Refusal :=
  match s.acks[n]? with
  | none => .next s
  | some a =>
    let s1 := { s with acks := listDrop1 s.acks n }
    let mine := fun (b : Boundary) => if b.job = a.job then b.ack a else b
    .next ((s1.updCore a.core fun x => { x with boundary := x.boundary.map mine }).flushAck a.core a)

end Sys2Proof.Machine
end

