-- ==== Sys2Proof/Machine/Mem.lean ====
section
/-! DEFINITION. LD, ST, LDF, STF, the FIFO queues' accesses, PREF, CFLUSH and CINV (R157, R158, R178 to
R195). -/

namespace Sys2Proof.Machine

/-! ## Addresses and operands -/

/-- The registers that form an address in a space (R179). -/
def addrRegs (sp : Space) (a : Reg) : List Nat :=
  match sp with
  | .glb => [a.toNat, a.toNat + 1]
  | _ => [a.toNat]

/-- Registers of a data operand (R182). -/
def dataRegs (z : ASize) (r : Nat) : List Nat := (List.range z.regs).map fun i => r + i

/-- The bytes of a lane's data operand. -/
def Group.dataOf (g : Group) (x : Core) (z : ASize) (r l : Nat) : BitVec 128 :=
  BitVec.ofNat 128 (((List.range z.regs).foldl (fun n i =>
    n + 2 ^ (32 * i) * (g.reg x (r + i) l).toNat) 0) % 2 ^ (8 * z.bytes))

/-- A global candidate: pointer plus offset. -/
def glbCand (p : DWord) (d : Int) (lane j : Nat) (data : BitVec 128) : Cand :=
  { lane := lane, j := j, base := p, ptr := ptrAdd p d, data := data, cmp := 0 }

/-- A lane's address in a space other than GLB: register plus offset, modulo 2^32 (R179). -/
def Group.local32 (g : Group) (x : Core) (a : Reg) (ofs : BitVec 18) (l : Nat) : Nat :=
  (g.reg x a.toNat l + ofs.signExtend 32).toNat

/-- An element at a plain address. -/
def addrElem (a lane j : Nat) (data : BitVec 128) : Elem :=
  { lane := lane, j := j, ptr := BitVec.ofNat 64 a, pa := 0, data := data, cmp := 0, dev := 0 }

/-- Debug mode's comparison of an instruction's register sources over the lanes (R26). -/
def uCheck (g : Group) (x : Core) (u : Bool) (t : LaneMask) (lo : Nat) (rs : List Nat) : M Unit :=
  match (if u && g.dbg then
      (lanesOf t).find? fun l => rs.any fun r => g.reg x r l != g.reg x r lo else none) with
  | some l => trapAt .uMismatch l
  | none => .ok ()

/-- The lanes that access memory (R26): with U the lowest only. -/
def accessLanes (u : Bool) (t : LaneMask) (lo : Nat) : List Nat := if u then [lo] else lanesOf t

/-- A lane-wise memory instruction: its lanes, and the lowest; nothing when no lane takes part. -/
def State.memM (s : State) (c : Ctl) (k : Group → Core → LaneMask → Nat → M State) : M State := do
  let g ← s.agent
  let x := s.core s.cur.core
  let t := g.taking x c.p s.cur.mask
  match lowestLane t with
  | none => .ok s.next
  | some lo => k g x t lo

/-! ## FIFO (R157, R158) -/

/-- One lane's FIFO access: its queue, whether it names the control record, its data. -/
structure FAcc where
  lane : Nat
  addr : Nat
  data : Nat

/-- The queue. -/
def FAcc.q (a : FAcc) : Nat := a.addr % 16

/-- The control record is named. -/
def FAcc.ctl (a : FAcc) : Bool := a.addr / 16 % 2 == 1

/-- A lane's access breaks the protocol (R158) as the core stands. -/
def Core.fifoBad (x : Core) (z : ASize) (store : Bool) (all : List FAcc) (a : FAcc) : Bool :=
  a.addr / 32 != 0 ||
  (match x.fifos[a.q]? with
   | none => true
   | some f =>
     if a.ctl then z != .b64 || (store && !x.ctlOk a.q (BitVec.ofNat 64 a.data))
     else !f.en || z.bytes != f.bytes || z.bytes < 4 ||
       decide ((all.filter fun b => !b.ctl && b.q == a.q).length > f.depth))

/-- A lane's store performed; none where the queue has no room. -/
def Core.fifoSt (x : Core) (a : FAcc) : Option Core :=
  if a.ctl then
    some { x with fifos := listUpd (fun _ => Fifo.ofWord (BitVec.ofNat 64 a.data)) x.fifos a.q }
  else
    match x.fifos[a.q]? with
    | some f => if f.count < f.depth then some (x.push a.q a.data) else none
    | none => none

/-- A lane's load performed; none where the queue is empty. -/
def Core.fifoLd (x : Core) (a : FAcc) : Option (Nat × Core) :=
  match x.fifos[a.q]? with
  | none => none
  | some f =>
    if a.ctl then some (f.word.toNat, x)
    else if f.count = 0 then none
    else some (x.pop a.q)

/-- Lanes' stores in ascending order. -/
def Core.fifoSts (x : Core) : List FAcc → Option Core
  | [] => some x
  | a :: r => match x.fifoSt a with
    | none => none
    | some y => y.fifoSts r

/-- Lanes' loads in ascending order. -/
def Core.fifoLds (x : Core) : List FAcc → Option (List (Nat × Nat) × Core)
  | [] => some ([], x)
  | a :: r => match x.fifoLd a with
    | none => none
    | some (v, y) => match y.fifoLds r with
      | none => none
      | some (l, z) => some ((a.lane, v) :: l, z)

/-- The first lane's access that breaks the protocol, each judged on the queues as the lanes before it
leave them. -/
def Core.firstBad (x : Core) (z : ASize) (store : Bool) (all : List FAcc) : List FAcc → Option FAcc
  | [] => none
  | a :: r =>
    if x.fifoBad z store all a then some a
    else ((if store then x.fifoSt a else none).getD x).firstBad z store all r

/-- A FIFO instruction: FIFO_PROTOCOL on the first lane that breaks it, else performed whole or
parked; its stage closes. -/
def State.fifoM (s : State) (req : MemReq) (store : Bool) (as : List FAcc) : M State := do
  let x := s.core s.cur.core
  match x.firstBad req.size store as as with
  | some a => trapAddr .fifoProtocol a.lane (BitVec.ofNat 64 a.addr)
  | none =>
    if store then
      match x.fifoSts as with
      | none => .error .park
      | some y => .ok ((s.setCore s.cur.core y).next.close true)
    else
      match x.fifoLds as with
      | none => .error .park
      | some (vs, y) =>
        let outs := vs.flatMap fun v => req.outs (addrElem 0 v.1 0 0) v.2
        .ok (((s.setCore s.cur.core y).putRegs s.cur.core s.cur.slot outs).next.close true)

/-! ## LD and ST (R183) -/

/-- A request of the turn's instruction. -/
def memReq (k : MemKind) (u : Bool) (m : MemOp) (dest : Nat) (t : LaneMask) : MemReq :=
  { kind := k, nt := m.nt, u := u, size := m.size, dest := dest, lanes := t, elems := [] }

/-- An access to SCR or CLU by the turn's group. -/
def State.scrM (s : State) (g : Group) (clu store : Bool) (r : MemReq) (dests : List Nat)
    (es : List Elem) : M State :=
  let a := s.actor g
  let f := s.flightOf g (if store then .st else .ld) r es
  match s.spots a.core g.team clu r.size.bytes es with
  | .error t => .error (.trap t)
  | .ok ps => s.settleTry g f dests false (s.scrAccess a g r store ps)

/-- An access to global memory by the turn's group. -/
def State.glbM (s : State) (g : Group) (store : Bool) (r : MemReq) (dests : List Nat)
    (ks : List Cand) : M State :=
  s.settleTry g (s.flightOf g (if store then .st else .ld) r (candElems ks)) dests false
    (s.tryGlb (s.actor g) g r store ks)

/-- LD and ST. -/
def State.ldstM (s : State) (c : Ctl) (m : MemOp) (store : Bool) (d a : Reg) : M State :=
  s.memM c fun g x t lo => do
    let dat := dataRegs m.size d.toNat
    needRegs g (addrRegs m.space a ++ dat) lo
    waitClass g (if store then .st else .ld)
    uCheck g x c.u t lo (addrRegs m.space a ++ (if store then dat else []))
    let r := memReq (if store then .st else .ld) c.u m d.toNat t
    let ls := accessLanes c.u t lo
    let data := fun l => if store then g.dataOf x m.size d.toNat l else 0
    let dests := if store then [] else dat
    match m.space with
    | .glb => s.glbM g store r dests (ls.map fun l =>
        glbCand (g.pair x a.toNat l) m.ofs.toInt l 0 (data l))
    | .scr => s.scrM g false store r dests (ls.map fun l =>
        addrElem (g.local32 x a m.ofs l) l 0 (data l))
    | .clu => s.scrM g true store r dests (ls.map fun l =>
        addrElem (g.local32 x a m.ofs l) l 0 (data l))
    | .fifo => s.fifoM r store (ls.map fun l =>
        { lane := l, addr := g.local32 x a m.ofs l, data := (data l).toNat })

/-- LD (R181, R183). -/
def execLd (c : Ctl) (m : MemOp) (d a : Reg) (s : State) : Host.Outcome State Fault Refusal :=
  run s (s.ldstM c m false d a)

/-- ST (R181, R183): `b` is the data register. -/
def execSt (c : Ctl) (m : MemOp) (a b : Reg) (s : State) : Host.Outcome State Fault Refusal :=
  run s (s.ldstM c m true b a)

/-! ## LDF and STF (R190, R191) -/

/-- The byte distance of element j of lane l from its lane's address (R191). -/
def fragOfs (width s : Nat) (word : Word) (j l : Nat) : Nat :=
  let lw := Nat.log2 width
  let k := 2 ^ min (word.extractLsb' 18 3).toNat lw
  let row := l / k + j * (width / k)
  row * (word.extractLsb' 0 18).toNat + (l % k) * s

/-- LDF and STF. -/
def State.fragM (s : State) (c : Ctl) (m : MemOp) (store : Bool) (d a b : Reg) : M State :=
  s.memM c fun g x t lo => do
    needRegs g (addrRegs m.space a ++ [b.toNat]) lo
    let word := g.reg x b.toNat lo
    let cnt := (word.extractLsb' 21 5).toNat + 1
    let w := m.size.regs
    trapIf (decide (d.toNat + w * cnt > 256)) .regBounds lo
    let dat := (List.range (w * cnt)).map fun i => d.toNat + i
    needRegs g dat lo
    waitClass g (if store then .st else .ld)
    uCheck g x c.u t lo (addrRegs m.space a ++ [b.toNat] ++ (if store then dat else []))
    let r := memReq (if store then .stf else .ldf) c.u m d.toNat t
    let ls := accessLanes c.u t lo
    let n := m.size.bytes
    let at_ := (List.range cnt).flatMap fun j => ls.map fun l => (j, l)
    let data := fun (e : Nat × Nat) => if store then g.dataOf x m.size (d.toNat + w * e.1) e.2 else 0
    let dests := if store then [] else dat
    match m.space with
    | .glb => s.glbM g store r dests (at_.map fun e =>
        let p := g.pair x a.toNat e.2
        match ptrAdd p m.ofs.toInt with
        | none => glbCand p m.ofs.toInt e.2 e.1 (data e)
        | some q => glbCand q (fragOfs g.width n word e.1 e.2 : Int) e.2 e.1 (data e))
    | .scr => s.scrM g false store r dests (at_.map fun e =>
        addrElem (g.local32 x a m.ofs e.2 + fragOfs g.width n word e.1 e.2) e.2 e.1 (data e))
    | .clu => s.scrM g true store r dests (at_.map fun e =>
        addrElem (g.local32 x a m.ofs e.2 + fragOfs g.width n word e.1 e.2) e.2 e.1 (data e))
    | .fifo => trapAt .illegalOp lo

/-- LDF (R191). -/
def execLdf (c : Ctl) (m : MemOp) (d a b : Reg) (s : State) : Host.Outcome State Fault Refusal :=
  run s (s.fragM c m false d a b)

/-- STF (R191). -/
def execStf (c : Ctl) (m : MemOp) (d a b : Reg) (s : State) : Host.Outcome State Fault Refusal :=
  run s (s.fragM c m true d a b)

/-! ## PREF, CFLUSH (R192, R193) -/

/-- The global candidates of an instruction that carries no data. -/
def Group.bareCands (g : Group) (x : Core) (a : Reg) (ofs : BitVec 18) (ls : List Nat) : List Cand :=
  ls.map fun l => glbCand (g.pair x a.toNat l) ofs.toInt l 0 0

/-- Translation that leaves absent extents alone (R83). -/
def State.reachPresent (s : State) (core ctx : Nat) (l : List (Elem × Desc)) :
    Except TrapInfo (List Hit) :=
  match s.reach core ctx l with
  | .error t => .error t
  | .ok (hs, _) => .ok hs

/-- PREF (R192): a fill for every line not held, not on its way, not poisoned, not absent. A partial line
counts as held, and its other bytes are not fetched (the model's choice: R192 does not say). -/
def State.prefM (s : State) (c : Ctl) (m : MemOp) (a : Reg) : M State :=
  s.memM c fun g x t lo => do
    needRegs g (addrRegs .glb a) lo
    uCheck g x c.u t lo (addrRegs .glb a)
    let core := s.cur.core
    let r := s.admitHits core g.ctx m.size.bytes needLoad x.desc
        (g.bareCands x a m.ofs (accessLanes c.u t lo))
    let s0 := s.setDesc core r.2
    match r.1 with
    | .error e => s0.raise e
    | .ok l =>
      if scribesOwn core g.fw (g.bareCands x a m.ofs (accessLanes c.u t lo)) then .ok s.next
      else
        let s1 := s0.extentsMet core g.ctx l
        match s0.reachPresent core g.ctx l with
        | .error e => s1.raise e
        | .ok hs =>
          let ls := (dedup (hs.map Hit.line)).filter fun n =>
            ((s1.core core).copy n).isNone && !s1.poisoned (128 * n) 128 &&
            !(s1.fills.any fun f => f.core == core && f.line == n && (m.nt || !f.l2))
          let reqs : List FillReq := ls.map fun n =>
            { core := core, line := n, low := false, l2 := m.nt,
              host := hs.any fun h => h.line == n && extBias h.ext, go := none, sent := s.steps }
          .ok { s1 with fills := s1.fills ++ reqs }.next

/-- PREF (R192). -/
def execPref (c : Ctl) (m : MemOp) (a : Reg) (s : State) : Host.Outcome State Fault Refusal :=
  run s (s.prefM c m a)

/-- The group is the one the core's boundary unit works for. -/
def State.bounding (s : State) : Bool :=
  match (s.core s.cur.core).boundary with
  | some b => b.slot == s.cur.slot
  | none => false

/-- The dirty words of the lines `p` names go home by steps 1 to 4 of R94, as an operation of the ST class
that completes with the last commit; `drops` are the lines dropped then, `flag` whether CINV's flag is
set in register `d`. -/
def State.writeBack (s : State) (g : Group) (t : LaneMask) (d : Nat) (flag : Bool) (p : L1Line → Bool)
    (drops : List Nat) : State :=
  let core := s.cur.core
  let j := s.newJob
  let r := j.2.sendWords core g.ctx j.1 p
  if r.2.isEmpty then (drops.foldl (fun (s : State) l => s.dropCopy core l) r.1).next
  else
    let req : MemReq := { kind := .flush, nt := false, u := false, size := .b32, dest := d, lanes := t, elems := [] }
    let q : Flush := { job := j.1, slot := s.cur.slot, team := g.team, op := g.nextId, pending := r.2
                       acked := [], drops := drops, flag := flag }
    ((r.1.updCore core fun x => { x with flushes := x.flushes ++ [q] }).updGroup core s.cur.slot fun g =>
      { g.track g.nextId .st (if flag then [d] else []) with
        flight := g.flight ++ [s.flightOf g .st req []] }).next

/-- CFLUSH (R193): the dirty words of the lines touched go home; with .nt the copies go then. -/
def State.cflushM (s : State) (p : Pred) (m : MemOp) (a : Reg) : M State :=
  s.memM { u := false, p := p } fun g x t lo => do
    needRegs g (addrRegs .glb a) lo
    waitClass g .st
    let core := s.cur.core
    let r := s.admitHits core g.ctx m.size.bytes needAny x.desc (g.bareCands x a m.ofs (lanesOf t))
    let s0 := s.setDesc core r.2
    match r.1 with
    | .error e => s0.raise e
    | .ok l =>
      if scribesOwn core g.fw (g.bareCands x a m.ofs (lanesOf t)) then .ok s.next
      else
        let s1 := s0.extentsMet core g.ctx l
        match s0.reachPresent core g.ctx l with
        | .error e => s1.raise e
        | .ok hs =>
          let ls := dedup (hs.map Hit.line)
          .ok (s1.writeBack g t 0 false (fun c => ls.contains c.line) (if m.nt then ls else []))

/-- CFLUSH (R193). -/
def execCflush (p : Pred) (m : MemOp) (a : Reg) (s : State) : Host.Outcome State Fault Refusal :=
  run s (s.cflushM p m a)

/-! ## CINV (R194, R195) -/

/-- Physical ranges of the present extents that bytes `ofs` to `ofs` + n − 1 of an object meet. -/
def State.physRanges (s : State) (cl ctx on : Nat) (d : Desc) (ofs n : Nat) : List (Nat × Nat) :=
  let sz := 2 ^ d.extLog
  ((List.range ((ofs + n + sz - 1) / sz - ofs / sz)).map fun i => ofs / sz + i).filterMap fun i =>
    let e := s.extent cl ctx on d i
    if extP e then
      let lo := max ofs (i * sz)
      let hi := min (ofs + n) ((i + 1) * sz)
      some (extAddr d e lo, extAddr d e lo + (hi - lo))
    else none

/-- The extents those bytes meet, in the cluster's cache (R77). -/
def State.rangeMet (s : State) (cl ctx on : Nat) (d : Desc) (ofs n : Nat) : State :=
  let sz := 2 ^ d.extLog
  ((List.range ((ofs + n + sz - 1) / sz - ofs / sz)).map fun i => ofs / sz + i).foldl
    (fun (s : State) i => s.extentFill cl ctx on i (s.extent cl ctx on d i)) s

/-- A line meets a range, or lies wholly in it. -/
def lineIn (whole : Bool) (l : Nat) (r : Nat × Nat) : Bool :=
  if whole then decide (r.1 ≤ 128 * l) && decide (128 * l + 128 ≤ r.2)
  else decide (128 * l < r.2) && decide (r.1 < 128 * l + 128)

/-- A copy removed with its dirty words (R195, NOWB). -/
def State.discard (s : State) (core line : Nat) : State :=
  (s.updCore core fun x => x.updCopy line fun c => { c with dirty := 0 }).dropCopy core line

/-- CINV in a range: lines that need not be written back are dropped, dirty ones written back and dropped
then; NOWB drops whole lines of an object granting D with their dirty words. -/
def State.cinvRange (s : State) (g : Group) (t : LaneMask) (nowb grantD : Bool) (d : Nat)
    (rs : List (Nat × Nat)) : State :=
  let core := s.cur.core
  let here := (s.core core).l1.filter fun c => rs.any (lineIn false c.line)
  let loses := fun (l : Nat) => nowb && grantD && rs.any (lineIn true l)
  let s1 := here.foldl (fun (s : State) c =>
    if loses c.line then s.discard core c.line
    else if c.dirty == 0 then s.dropCopy core c.line else s) s
  let left := (here.filter fun c => !loses c.line && c.dirty != 0).map L1Line.line
  s1.writeBack g t d nowb (fun c => left.contains c.line) left

/-- CINV and CINV.nowb. -/
def State.cinvM (s : State) (p : Pred) (nowb : Bool) (d a b : Reg) (ofs : BitVec 18) : M State :=
  s.groupM p fun g t lo => do
    let x := s.core s.cur.core
    needRegs g ([a.toNat, a.toNat + 1, b.toNat] ++ (if nowb then [d.toNat] else [])) lo
    waitClass g .st
    let n := (g.reg x b.toNat lo).toNat
    if n = 0 then .ok s.next
    else
      let base := g.pair x a.toNat lo
      match ptrAdd base ofs.toInt with
      | none => trapAddr .objBounds lo base
      | some q =>
        let r := s.check s.cur.core g.ctx x.desc q n needAny
        let s1 := s.setDesc s.cur.core r.2
        match r.1 with
        | .error c => s1.raise ⟨c, lo, q, 0⟩
        | .ok dd =>
          if scribesOwn s.cur.core g.fw [glbCand base ofs.toInt lo 0 0] then .ok s.next
          else
            let cl := clusterOf s.cur.core
            let s2 := s1.rangeMet cl g.ctx (ptrOn q) dd (ptrOfs q) n
            .ok (s2.cinvRange g t nowb (dd.grants .d) d.toNat
              (s2.physRanges cl g.ctx (ptrOn q) dd (ptrOfs q) n))

/-- CINV (R194, R195). -/
def execCinv (p : Pred) (a b : Reg) (ofs : BitVec 18) (s : State) :
    Host.Outcome State Fault Refusal := run s (s.cinvM p false a a b ofs)

/-- CINV.nowb (R194, R195). -/
def execCinvNowb (p : Pred) (d a b : Reg) (ofs : BitVec 18) (s : State) :
    Host.Outcome State Fault Refusal := run s (s.cinvM p true d a b ofs)

end Sys2Proof.Machine
end

