-- ==== Sys2Proof/Machine/Atomic.lean ====
section
/-! DEFINITION. ATOM, ATCAS and RED with their aggregated requests, and CADD (R97 to R99, R196 to
R202). -/

namespace Sys2Proof

/-- The access size of a width. -/
def Wid.asize : Wid → ASize
  | .b32 => .b32
  | .b64 => .b64

end Sys2Proof

namespace Sys2Proof.Machine

/-! ## Operations (R197, R198) -/

/-- FADD.f32 by RNE. -/
def f32Add (a b : Nat) : Nat :=
  encodeVal 1 .rne false (exactSum .rne [decodeVal 1 a, decodeVal 1 b])

/-- FMIN.f32 and FMAX.f32. -/
def f32Pick (wantMin : Bool) (a b : Nat) : Nat :=
  encodeVal 1 .rne false (Val.pick wantMin (decodeVal 1 a) (decodeVal 1 b))

/-- The new value of an operation on n bits (R197). -/
def aopApply (o : AOp) (n a v : Nat) : Nat :=
  match o with
  | .add => (a + v) % 2 ^ n
  | .smin => if toInt n a ≤ toInt n v then a else v
  | .smax => if toInt n a ≤ toInt n v then v else a
  | .umin => min a v
  | .umax => max a v
  | .and => a &&& v
  | .or => a ||| v
  | .xor => a ^^^ v
  | .exch => v
  | .fadd => f32Add a v
  | .fmin => f32Pick true a v
  | .fmax => f32Pick false a v

/-- A kind's serial step for one lane: the new value. -/
def MemKind.step (k : MemKind) (n a : Nat) (e : Elem) : Nat :=
  match k with
  | .atom o => aopApply o n a (e.data.toNat % 2 ^ n)
  | .red o => aopApply o n a (e.data.toNat % 2 ^ n)
  | .atcas => if a = e.cmp.toNat % 2 ^ n then e.data.toNat % 2 ^ n else a
  | _ => a

/-- Lanes in ascending order, each on the value the lane before it left: olds and the end value. -/
def serialSet (k : MemKind) (n : Nat) : Nat → List Elem → List (Elem × Nat) × Nat
  | a, [] => ([], a)
  | a, e :: r =>
    let q := serialSet k n (k.step n a e) r
    ((e, a) :: q.1, q.2)

/-- .fadd's prefix sums (R198): lane i receives RNE(o + P_i). `acc` is P_i, none for the first. -/
def faddSet (o : Nat) : Option Nat → List Elem → List (Elem × Nat) × Nat
  | none, [] => ([], o)
  | some p, [] => ([], f32Add o p)
  | acc, e :: r =>
    let old := match acc with | none => o | some p => f32Add o p
    let v := e.data.toNat % 2 ^ 32
    let q := faddSet o (some (match acc with | none => v | some p => f32Add p v)) r
    ((e, old) :: q.1, q.2)

/-- One set of lanes at one address, performed in one step (R198). -/
def MemKind.perform (k : MemKind) (n a : Nat) (es : List Elem) : List (Elem × Nat) × Nat :=
  match k with
  | .atom .fadd => faddSet a none es
  | .red .fadd => faddSet a none es
  | _ => serialSet k n a es

/-- The kind writes old values to registers. -/
def MemKind.olds : MemKind → Bool
  | .atom _ | .atcas => true
  | _ => false

/-! ## Global atomics (R199) -/

/-- Requests of an atomic, one for each address. -/
def atomReqs (now : Nat) (a : Actor) (team : Nat) (r : MemReq) (w : Wid) (hs : List Hit) : List AtomReq :=
  (dedup (hs.map fun h => h.e.pa)).map fun pa =>
    { core := a.core, slot := a.slot, gid := team, flight := a.id, kind := r.kind, wid := w, pa := pa,
      lanes := (hs.filter fun h => h.e.pa == pa).map Hit.e
      apl := match hs.find? fun h => h.e.pa == pa with | some h => extApl h.ext | none => 0
      go := false, sent := now }

/-- The width of an atomic's access. -/
def MemReq.wid (r : MemReq) : Wid := match r.size with | .b64 => .b64 | _ => .b32

/-- A global atomic, at issue or at replay: its requests leave. -/
def State.tryAtom (s : State) (a : Actor) (g : Group) (r : MemReq) (ks : List Cand) : Try :=
  match s.checkGlb a.core g.ctx r.size.bytes needAtomic ks with
  | (.error t, s1) => .trap t s1
  | (.ok (_, some (on, i)), s1) => .absent on i s1
  | (.ok (hs, none), s1) =>
    if g.behindLog a.id r.size.bytes (hs.map Hit.e) then .wait
    else .fly (hs.map Hit.e) { s1 with atoms := s1.atoms ++ atomReqs s.steps a g.team r r.wid hs }

/-- The old values of a performed request reach its group's registers. -/
def State.atomReply (s : State) (q : AtomReq) (olds : List (Elem × Nat)) : State :=
  match s.group q.core q.slot with
  | none => s
  | some g =>
    match g.flight.find? fun f => f.id == q.flight && g.team == q.gid with
    | none => s
    | some f =>
      let s1 := if q.kind.olds then
          s.putRegs q.core q.slot (olds.flatMap fun e => f.req.outs e.1 e.2) else s
      s1.arrived q.core q.slot q.flight fun e => e.pa == q.pa

/-- The home performs a request (R198): UE_CONSUMED where its sector is poisoned, else one
read-modify-write. -/
def State.atomHome (s : State) (q : AtomReq) : State :=
  let n := q.wid.bits / 8
  if s.poisoned q.pa n then
    let s1 := (s.atHome (q.pa / 128)).readSector (sectorOf q.pa)
    match s1.group q.core q.slot with
    | none => s1
    | some g =>
      match g.flight.find? fun f => f.id == q.flight && g.team == q.gid with
      | none => s1
      | some f => s1.consume (f.actor q.core q.slot)
          ((q.lanes.head?.map Elem.lane).getD 0) (memSector q.pa)
  else
    let r := q.kind.perform (8 * n) (memNat s.mem q.pa n) q.lanes
    let s1 := ((s.atHome (q.pa / 128)).readSector (sectorOf q.pa)).putHome q.pa (bytesOfNat n r.2)
    (s1.updTeam q.gid fun t => { t with committed := true }).atomReply q r.1

/-- ATOMIC_REQUEST: the n-th request is performed at its place, in issue order for one core and address and in
the order sent across a link (R6), once PEND is clear; across the host link after the host's GO (R415). One that
reaches a die out of service is answered HOME_OFFLINE (R394). Atomics whose bytes overlap at different addresses
are not to one location (R200): that they keep no order is the model's choice. -/
def execAtomicRequest (n : Nat) (s : State) : Host.Outcome State Fault Refusal :=
  match s.atoms[n]? with
  | none => .next s
  | some q =>
    let late := (s.atoms.take n).any fun v => v.core == q.core && v.pa == q.pa
    if s.turnedBack q.route q.here then
      if late || s.behind q.route q.sent then .next s
      else .next (({ s with atoms := listDrop1 s.atoms n }.reachedBy q.route q.sent).offline q.core
        (q.slot, q.flight) fun e => e.pa == q.pa)
    else if late || !s.atomReady q || s.behind q.route q.sent then .next s
    else .next (({ s with atoms := listDrop1 s.atoms n }.reachedBy q.route q.sent).atomHome q)

/-! ## Scratchpad atomics (R199) -/

/-- The operations of one address at its bank, one step each. -/
def State.scrSets (s : State) (a : Actor) (r : MemReq) (ps : List Spot) :
    List (Nat × Nat × Nat) → State
  | [] => s
  | p :: rest =>
    let n := r.size.bytes
    let es := (ps.filter fun q => q.2 == p).map Prod.fst
    let v := r.kind.perform (8 * n) (s.scrNat p.1 p.2.1 p.2.2 n) es
    let s1 := s.storeScr a.core a.slot p.1 p.2.1 p.2.2 (bytesOfNat n v.2)
    let s2 := if r.kind.olds then
        s1.putRegs a.core a.slot (v.1.flatMap fun e => r.outs e.1 e.2) else s1
    s2.scrSets a r ps rest

/-- An atomic on SCR or CLU. -/
def State.atomScr (s : State) (a : Actor) (r : MemReq) (ps : List Spot) : Try :=
  let n := r.size.bytes
  if !(ps.all fun p => s.present p.2.1 p.2.2.1 p.2.2.2) then .park
  else
    match s.badSpot n ps with
    | some (p, b) => .gone (s.consume a p.1.lane b)
    | none => .done (s.scrSets a r ps (ps.map Prod.snd).eraseDups)

/-! ## ATOM, ATCAS, RED (R196, R201) -/

/-- The three atomics: `dest` none for RED; `srcs` the operand registers; `cmp` whether the first
operand is compared. A stage closes after each. -/
def State.atomM (s : State) (c : Ctl) (m : AtomOp) (k : MemKind) (dest : Option Reg) (a b : Reg) :
    M State :=
  s.memM c fun g x t lo => do
    let z := m.wid.asize
    let two := match k with | .atcas => true | _ => false
    let srcs := dataRegs z b.toNat ++ (if two then dataRegs z (b.toNat + z.regs) else [])
    let dests := match dest with | some d => dataRegs z d.toNat | none => []
    needRegs g (addrRegs m.space a ++ srcs ++ dests) lo
    waitClass g (if dest.isSome then .ld else .st)
    uCheck g x c.u t lo (addrRegs m.space a ++ srcs)
    let dn := match dest with | some d => d.toNat | none => 0
    let r : MemReq := { kind := k, nt := false, u := c.u, size := z, dest := dn, lanes := t, elems := [] }
    let ls := accessLanes c.u t lo
    let ofs := m.ofs.signExtend 18
    let data := fun l => if two then g.dataOf x z (b.toNat + z.regs) l else g.dataOf x z b.toNat l
    let cmp := fun l => if two then (g.dataOf x z b.toNat l).setWidth 64 else (0 : DWord)
    let f := fun es => s.flightOf g (if dest.isSome then .ld else .st) r es
    let scr := fun clu =>
      let es := ls.map fun l =>
        { addrElem (g.local32 x a ofs l) l 0 (data l) with cmp := cmp l }
      match s.spots s.cur.core g.team clu z.bytes es with
      | .error q => Except.error (Stop.trap q)
      | .ok ps => s.settleTry g (f es) dests true (s.atomScr (s.actor g) r ps)
    match m.space with
    | .glb =>
      let ks := ls.map fun l =>
        { glbCand (g.pair x a.toNat l) ofs.toInt l 0 (data l) with cmp := cmp l }
      s.settleTry g (f (candElems ks)) dests true (s.tryAtom (s.actor g) g r ks)
    | .scr => scr false
    | .clu => scr true
    | .fifo => trapAt .illegalOp lo

/-- ATOM (R196 to R201). -/
def execAtom (c : Ctl) (m : AtomOp) (op : AOp) (d a b : Reg) (s : State) :
    Host.Outcome State Fault Refusal := run s (s.atomM c m (.atom op) (some d) a b)

/-- ATCAS (R196 to R201). -/
def execAtcas (c : Ctl) (m : AtomOp) (d a b : Reg) (s : State) :
    Host.Outcome State Fault Refusal := run s (s.atomM c m .atcas (some d) a b)

/-- RED (R196 to R201). -/
def execRed (c : Ctl) (m : AtomOp) (op : AOp) (a b : Reg) (s : State) :
    Host.Outcome State Fault Refusal := run s (s.atomM c m (.red op) none a b)

/-! ## CADD (R97, R99, R202) -/

/-- A lane's checks in R202's order under one descriptor: the cause of the first that fails. -/
def Desc.caddCause (d : Desc) (p : DWord) : Option Cause :=
  if !d.v then some .objNull
  else if d.type != some .comm then some .objRights
  else if ptrOfs p % efmtBytes d.efmt ≠ 0 then some .misaligned
  else if ptrOfs p + efmtBytes d.efmt > d.length then some .objBounds
  else if !d.grants .c then some .objRights
  else none

/-- CADD's checks of every lane; a failing step re-fetches the descriptor once, replacing the cache's
entry. -/
def State.caddAdmit (s : State) (core ctx : Nat) :
    DCache → List Cand → Except TrapInfo (List (Elem × Desc)) × DCache
  | c, [] => (.ok [], c)
  | c, k :: r =>
    match k.ptr with
    | none => (.error ⟨.objBounds, k.lane, k.base, 0⟩, c)
    | some p =>
      let on := ptrOn p
      if on = 0 ∨ on ≥ (s.ctx ctx).otl then (.error ⟨.objNull, k.lane, p, 0⟩, c)
      else
        let fresh := fetchDesc s core ctx on
        let d0 := (descFind c ctx on).getD fresh
        let d := if d0.caddCause p = none then d0 else fresh
        let c1 := descPut c ctx on d
        match d.caddCause p with
        | some q => (.error ⟨q, k.lane, p, 0⟩, c1)
        | none =>
          let t := s.caddAdmit core ctx c1 r
          (t.1.map fun l => (k.elem p, d) :: l, t.2)

/-- The least recently used pinned line whose open partial is empty. -/
def Core.spillable (x : Core) : Option Partial :=
  (x.partials.filter fun q => q.o.isEmpty).foldl (fun b q =>
    match b with
    | none => some q
    | some p => if q.used < p.used then some q else b) none

/-- SPILL's capacity point (R99), which moves the open partials so that a pinned line has an empty O; none
while it cannot be taken in one step. -/
def State.spillPoint (s : State) (core : Nat) : Option State :=
  match (s.core core).spillable with
  | some _ => some s
  | none =>
    if !s.canPublish core then none
    else
      let r := s.publishNow core fun _ => false
      some ((r.1.movePartials core).acquire core r.2 false)

/-- SPILL (R99): the published values of the least recently used pinned line with an empty O go to its
spill record. -/
def State.spill (s : State) (core : Nat) : State :=
  match (s.core core).spillable with
  | none => s
  | some q =>
    let s2 := s.updCore core fun x => { x with partials := x.partials.filter fun y => y.line != q.line }
    if q.p.isEmpty then s2
    else if s2.spills.any fun z => z.1 == core && z.2.line == q.line then
      { s2 with spills := s2.spills.map fun z =>
          if z.1 == core && z.2.line == q.line then
            (z.1, { z.2 with p := efmtMerge q.efmt z.2.p q.p }) else z }
    else { s2 with spills := s2.spills ++ [(core, q)] }

/-- A pinned partial line for `line`, taking one where the core has none (R97, R99). -/
def State.pin (s : State) (core line : Nat) (efmt : BitVec 2) : Option State :=
  if (s.core core).partials.any fun q => q.line == line then some s
  else
    match (if (s.core core).partials.length ≥ 64 then (s.spillPoint core).map fun t => t.spill core else some s) with
    | none => none
    | some s1 =>
      if (s1.core core).partials.length ≥ 64 then none else
      match s1.allocWay core (lineSet8 line) with
      | (none, _) => none
      | (some w, s2) => some (s2.updCore core fun x => { x with
          partials := x.partials ++ [{ line := line, efmt := efmt, o := [], p := [], used := x.age, way := w }] })

/-- One element's sum placed in the open partial. -/
def State.addOpen (s : State) (core line : Nat) (efmt : BitVec 2) (k : Nat) (v : Word) : State :=
  s.updCore core fun x => { x with
    age := x.age + 1
    partials := x.partials.map fun q =>
      if q.line == line then { q with o := efmtInto efmt q.o k v, used := x.age + 1 } else q }

/-- The lanes' contributions to one element, summed in ascending lane order. -/
def laneSum (efmt : BitVec 2) : List Word → Word
  | [] => 0
  | v :: r => r.foldl (fun a b => efmtAdd efmt a b) v

/-- A contribution's value: BF16 in the low half (R202). -/
def contrib (efmt : BitVec 2) (d : BitVec 128) : Word :=
  if efmt == 1 then (d.extractLsb' 0 16).setWidth 32 else d.extractLsb' 0 32

/-- Every element of a CADD into its open partial; or the line whose set has no way to give. -/
def State.caddAll (s : State) (core : Nat) (hs : List Hit) : List Nat → Except Nat State
  | [] => .ok s
  | pa :: r =>
    let here := hs.filter fun h => h.e.pa == pa
    let efmt := match here.head? with | some h => h.d.efmt | none => 0
    match s.pin core (pa / 128) efmt with
    | none => .error (pa / 128)
    | some t =>
      let v := laneSum efmt (here.map fun h => contrib efmt h.e.data)
      (t.addOpen core (pa / 128) efmt (pa % 128 / efmtBytes efmt) v).caddAll core hs r

/-- A CADD at issue or at replay. One that finds every way of a set held by pinned partial lines, fewer
than 64 of them in all, takes its capacity point (R302) and waits with none of its sums made (the model's
choice: R99 frees a line only at the 65th). -/
def State.tryCadd (s : State) (a : Actor) (g : Group) (ks : List Cand) : Try :=
  let q := s.caddAdmit a.core g.ctx (s.core a.core).desc ks
  let s0 := s.setDesc a.core q.2
  match q.1 with
  | .error t => .trap t s0
  | .ok l =>
    let s1 := s0.extentsMet a.core g.ctx l
    match s0.reach a.core g.ctx l with
    | .error t => .trap t s1
    | .ok (_, some (on, i)) => .absent on i s1
    | .ok (hs, none) =>
      if g.behindLog a.id 4 (hs.map Hit.e) then .wait
      else match s1.caddAll a.core hs (dedup (hs.map fun h => h.e.pa)) with
      | .error l => if s1.canPublish a.core then .gone (s1.capacity a.core (lineSet8 l)) else .wait
      | .ok t => .done t

/-- CADD (R202). -/
def State.caddM (s : State) (c : Ctl) (a b : Reg) (ofs : BitVec 18) : M State :=
  s.memM c fun g x t lo => do
    let rs := addrRegs .glb a ++ [b.toNat]
    needRegs g rs lo
    waitClass g .st
    uCheck g x c.u t lo rs
    let r : MemReq := { kind := .cadd, nt := false, u := c.u, size := .b32, dest := 0, lanes := t,
                        elems := [] }
    let ks := (accessLanes c.u t lo).map fun l =>
      glbCand (g.pair x a.toNat l) ofs.toInt l 0 (g.dataOf x .b32 b.toNat l)
    s.settleTry g (s.flightOf g .st r (candElems ks)) [] true (s.tryCadd (s.actor g) g ks)

/-- CADD (R202). -/
def execCadd (c : Ctl) (a b : Reg) (ofs : BitVec 18) (s : State) :
    Host.Outcome State Fault Refusal := run s (s.caddM c a b ofs)

end Sys2Proof.Machine
end

