-- ==== Sys2Proof/Machine/Digest.lean ====
section
/-! DEFINITION. SHA-384, the digest that an image's header holds (R431). Its construction is that of FIPS
180-4, which the spec names only by the digest's name. -/

namespace Sys2Proof.Machine

/-- The round constants. -/
def shaK : List (BitVec 64) :=
  [ 0x428A2F98D728AE22, 0x7137449123EF65CD, 0xB5C0FBCFEC4D3B2F, 0xE9B5DBA58189DBBC,
    0x3956C25BF348B538, 0x59F111F1B605D019, 0x923F82A4AF194F9B, 0xAB1C5ED5DA6D8118,
    0xD807AA98A3030242, 0x12835B0145706FBE, 0x243185BE4EE4B28C, 0x550C7DC3D5FFB4E2,
    0x72BE5D74F27B896F, 0x80DEB1FE3B1696B1, 0x9BDC06A725C71235, 0xC19BF174CF692694,
    0xE49B69C19EF14AD2, 0xEFBE4786384F25E3, 0x0FC19DC68B8CD5B5, 0x240CA1CC77AC9C65 ] ++
  [ 0x2DE92C6F592B0275, 0x4A7484AA6EA6E483, 0x5CB0A9DCBD41FBD4, 0x76F988DA831153B5,
    0x983E5152EE66DFAB, 0xA831C66D2DB43210, 0xB00327C898FB213F, 0xBF597FC7BEEF0EE4,
    0xC6E00BF33DA88FC2, 0xD5A79147930AA725, 0x06CA6351E003826F, 0x142929670A0E6E70,
    0x27B70A8546D22FFC, 0x2E1B21385C26C926, 0x4D2C6DFC5AC42AED, 0x53380D139D95B3DF,
    0x650A73548BAF63DE, 0x766A0ABB3C77B2A8, 0x81C2C92E47EDAEE6, 0x92722C851482353B ] ++
  [ 0xA2BFE8A14CF10364, 0xA81A664BBC423001, 0xC24B8B70D0F89791, 0xC76C51A30654BE30,
    0xD192E819D6EF5218, 0xD69906245565A910, 0xF40E35855771202A, 0x106AA07032BBD1B8,
    0x19A4C116B8D2D0C8, 0x1E376C085141AB53, 0x2748774CDF8EEB99, 0x34B0BCB5E19B48A8,
    0x391C0CB3C5C95A63, 0x4ED8AA4AE3418ACB, 0x5B9CCA4F7763E373, 0x682E6FF3D6B2B8A3,
    0x748F82EE5DEFB2FC, 0x78A5636F43172F60, 0x84C87814A1F0AB72, 0x8CC702081A6439EC ] ++
  [ 0x90BEFFFA23631E28, 0xA4506CEBDE82BDE9, 0xBEF9A3F7B2C67915, 0xC67178F2E372532B,
    0xCA273ECEEA26619C, 0xD186B8C721C0C207, 0xEADA7DD6CDE0EB1E, 0xF57D4F7FEE6ED178,
    0x06F067AA72176FBA, 0x0A637DC5A2C898A6, 0x113F9804BEF90DAE, 0x1B710B35131C471B,
    0x28DB77F523047D84, 0x32CAAB7B40C72493, 0x3C9EBE0A15C9BEBC, 0x431D67C49C100D4C,
    0x4CC5D4BECB3E42B6, 0x597F299CFC657E2A, 0x5FCB6FAB3AD6FAEC, 0x6C44198C4A475817 ]

/-- The eight words of the hash. -/
structure ShaState where
  a : BitVec 64
  b : BitVec 64
  c : BitVec 64
  d : BitVec 64
  e : BitVec 64
  f : BitVec 64
  g : BitVec 64
  h : BitVec 64
  deriving DecidableEq, Repr

/-- The initial hash. -/
def shaInit : ShaState :=
  { a := 0xCBBB9D5DC1059ED8, b := 0x629A292A367CD507, c := 0x9159015A3070DD17, d := 0x152FECD8F70E5939,
    e := 0x67332667FFC00B31, f := 0x8EB44A8768581511, g := 0xDB0C2E0D64F98FA7, h := 0x47B5481DBEFA4FA4 }

/-- The next word of the message schedule, from its last sixteen, latest first. -/
def shaNext (w : List (BitVec 64)) : BitVec 64 :=
  let at_ := fun i => w.getD i 0
  let s0 := fun (x : BitVec 64) => x.rotateRight 1 ^^^ x.rotateRight 8 ^^^ (x >>> 7)
  let s1 := fun (x : BitVec 64) => x.rotateRight 19 ^^^ x.rotateRight 61 ^^^ (x >>> 6)
  s1 (at_ 1) + at_ 6 + s0 (at_ 14) + at_ 15

/-- One round with its constant and its schedule word. -/
def ShaState.round (s : ShaState) (k w : BitVec 64) : ShaState :=
  let t1 := s.h + (s.e.rotateRight 14 ^^^ s.e.rotateRight 18 ^^^ s.e.rotateRight 41) +
    ((s.e &&& s.f) ^^^ (~~~s.e &&& s.g)) + k + w
  let t2 := (s.a.rotateRight 28 ^^^ s.a.rotateRight 34 ^^^ s.a.rotateRight 39) +
    ((s.a &&& s.b) ^^^ (s.a &&& s.c) ^^^ (s.b &&& s.c))
  { a := t1 + t2, b := s.a, c := s.b, d := s.c, e := s.d + t1, f := s.e, g := s.f, h := s.g }

/-- The rounds over the words of a block that are left, and then over those of the schedule: `w` holds the last
sixteen words used or given, latest first. -/
def shaRounds : List (BitVec 64) → List (BitVec 64) → List (BitVec 64) → ShaState → ShaState
  | [], _, _, s => s
  | k :: ks, x :: xs, w, s => shaRounds ks xs (x :: w) (s.round k x)
  | k :: ks, [], w, s =>
    let x := shaNext w
    shaRounds ks [] ((x :: w).take 16) (s.round k x)

/-- The words of a block. -/
def shaWords (b : List (BitVec 8)) : List (BitVec 64) :=
  (List.range 16).map fun i =>
    ((b.drop (8 * i)).take 8).foldl (fun (v : BitVec 64) x => (v <<< 8) ||| x.setWidth 64) 0

/-- A block added to the hash. -/
def ShaState.block (s : ShaState) (b : List (BitVec 8)) : ShaState :=
  let t := shaRounds shaK (shaWords b) [] s
  { a := s.a + t.a, b := s.b + t.b, c := s.c + t.c, d := s.d + t.d,
    e := s.e + t.e, f := s.f + t.f, g := s.g + t.g, h := s.h + t.h }

/-- A message with its padding: a one bit, zeros, and its length in bits as 128 bits. -/
def shaPad (m : List (BitVec 8)) : List (BitVec 8) :=
  let n := 8 * m.length
  m ++ [0x80] ++ List.replicate ((239 - m.length % 128) % 128) 0 ++
    ((List.range 16).map fun i => BitVec.ofNat 8 (n / 256 ^ i)).reverse

/-- A word's bytes, highest first. -/
def shaBytes (v : BitVec 64) : List (BitVec 8) :=
  ((List.range 8).map fun i => BitVec.ofNat 8 (v.toNat / 256 ^ i)).reverse

/-- SHA-384 of a message: 48 bytes. -/
def sha384 (m : List (BitVec 8)) : List (BitVec 8) :=
  let p := shaPad m
  let s := (List.range (p.length / 128)).foldl
    (fun (s : ShaState) i => s.block ((p.drop (128 * i)).take 128)) shaInit
  [s.a, s.b, s.c, s.d, s.e, s.f].flatMap shaBytes

end Sys2Proof.Machine
end

