-- ==== Sys2Proof/Machine/Float.lean ====
section
/-! DEFINITION. Floating-point, transcendental and conversion instructions (chapter 13), and NPACK,
NUNPK and SCALEQ (R215 to R217). -/

namespace Sys2Proof

/-- Elements of a register under a float type (R245). -/
def FTy.elems : FTy → Nat
  | .f32 => 1
  | .f16x2 | .bf16x2 => 2

/-- Bits of an element of a float type (R245). -/
def FTy.bits : FTy → Nat
  | .f32 => 32
  | .f16x2 | .bf16x2 => 16

/-- The format code of R213 of a float type's elements. -/
def FTy.fmt : FTy → Nat
  | .f32 => 1
  | .f16x2 => 2
  | .bf16x2 => 3

/-- No modifier. -/
def SMod.none : SMod := { neg := false, abs := false }

/-- Rounding of a two-source float instruction (R30). -/
def FSrc2.rm : FSrc2 → RMode
  | .reg rm _ _ _ => rm
  | .imm _ => .rne

/-- Modifiers of the sources (R30): an immediate form has none. -/
def FSrc2.mods : FSrc2 → SMod × SMod
  | .reg _ ma mb _ => (ma, mb)
  | .imm _ => (.none, .none)

/-- Registers of the second source. -/
def FSrc2.regs : FSrc2 → List Nat
  | .reg _ _ _ b => [b.toNat]
  | .imm _ => []

/-- Rounding of a three-source float instruction (R30). -/
def FSrc3.rm : FSrc3 → RMode
  | .reg rm _ _ _ _ _ => rm
  | .imm _ _ => .rne

/-- Modifiers of the three sources (R30). -/
def FSrc3.mods : FSrc3 → SMod × SMod × SMod
  | .reg _ ma mb mc _ _ => (ma, mb, mc)
  | .imm _ _ => (.none, .none, .none)

/-- Registers of the second and third sources (R30). -/
def FSrc3.regs : FSrc3 → List Nat
  | .reg _ _ _ _ b c => [b.toNat, c.toNat]
  | .imm _ c => [c.toNat]

/-- The register of the third source (R30). -/
def FSrc3.cReg : FSrc3 → Nat
  | .reg _ _ _ _ _ c => c.toNat
  | .imm _ c => c.toNat

end Sys2Proof

namespace Sys2Proof.Machine

/-- Element `i` of a register under a float type, as a code (R245). -/
def elemCode (ty : FTy) (v : Word) (i : Nat) : Nat := v.toNat / 2 ^ (ty.bits * i) % 2 ^ ty.bits

/-- Element `i` of a register under a float type, exact. -/
def elemVal (ty : FTy) (v : Word) (i : Nat) : Val := decodeVal ty.fmt (elemCode ty v i)

/-- The register pattern of a float immediate (R30). -/
def fimmWord (ty : FTy) (v : BitVec 20) : Word :=
  match ty with
  | .f32 => BitVec.ofNat 32 (v.toNat * 2 ^ 12)
  | .f16x2 | .bf16x2 => BitVec.ofNat 32 (v.toNat % 2 ^ 16 * 65537)

/-- A register from its element codes, element 0 lowest. -/
def packElems (bits : Nat) : List Nat → Nat
  | [] => 0
  | c :: r => c % 2 ^ bits + 2 ^ bits * packElems bits r

/-- A register computed element by element (R245). -/
def eachElem (ty : FTy) (f : Nat → Nat) : Word :=
  BitVec.ofNat 32 (packElems ty.bits ((List.range ty.elems).map f))

/-- The second source's pattern. -/
def fsrc2Word (src : Src) (ty : FTy) : FSrc2 → Word
  | .reg _ _ _ b => src.reg b.toNat
  | .imm v => fimmWord ty v

/-- The second source's pattern, of three. -/
def fsrc3Word (src : Src) (ty : FTy) : FSrc3 → Word
  | .reg _ _ _ _ b _ => src.reg b.toNat
  | .imm v _ => fimmWord ty v

/-- A two-source float instruction of R247: an exact result rounded once. -/
def float2 (c : Ctl) (ty : FTy) (d a : Reg) (b : FSrc2) (f : Rnd → Val → Val → Val) : VOp :=
  lanewise c (a.toNat :: b.regs) [d.toNat] fun src =>
    let r := rndOf b.rm
    [(d.toNat, eachElem ty fun i =>
      encodeVal ty.fmt r false
        (f r ((elemVal ty (src.reg a.toNat) i).modify b.mods.1)
             ((elemVal ty (fsrc2Word src ty b) i).modify b.mods.2)))]

/-- A three-source float instruction of R247. -/
def float3 (c : Ctl) (ty : FTy) (d a : Reg) (b : FSrc3) (f : Rnd → Val → Val → Val → Val) : VOp :=
  lanewise c (a.toNat :: b.regs) [d.toNat] fun src =>
    let r := rndOf b.rm
    [(d.toNat, eachElem ty fun i =>
      encodeVal ty.fmt r false
        (f r ((elemVal ty (src.reg a.toNat) i).modify b.mods.1)
             ((elemVal ty (fsrc3Word src ty b) i).modify b.mods.2.1)
             ((elemVal ty (src.reg b.cReg) i).modify b.mods.2.2)))]

/-- A value's negation. -/
def Val.negate (v : Val) : Val := v.modify { neg := true, abs := false }

/-- A value's magnitude. -/
def Val.mag (v : Val) : Val := v.modify { neg := false, abs := true }

/-- FADD (R247). -/
def execFadd (c : Ctl) (ty : FTy) (d a : Reg) (b : FSrc2) (s : State) :
    Host.Outcome State Fault Refusal := s.vec (float2 c ty d a b fun r x y => exactSum r [x, y])

/-- FSUB (R247). -/
def execFsub (c : Ctl) (ty : FTy) (d a : Reg) (b : FSrc2) (s : State) :
    Host.Outcome State Fault Refusal :=
  s.vec (float2 c ty d a b fun r x y => exactSum r [x, y.negate])

/-- FMUL (R247). -/
def execFmul (c : Ctl) (ty : FTy) (d a : Reg) (b : FSrc2) (s : State) :
    Host.Outcome State Fault Refusal := s.vec (float2 c ty d a b fun _ x y => x.mul y)

/-- FFMA (R247): one rounding. -/
def execFfma (c : Ctl) (ty : FTy) (d a : Reg) (b : FSrc3) (s : State) :
    Host.Outcome State Fault Refusal :=
  s.vec (float3 c ty d a b fun r x y z => exactSum r [x.mul y, z])

/-- FMIN (R247, R248). -/
def execFmin (c : Ctl) (ty : FTy) (d a : Reg) (b : FSrc2) (s : State) :
    Host.Outcome State Fault Refusal := s.vec (float2 c ty d a b fun _ x y => x.pick true y)

/-- FMAX (R247, R248). -/
def execFmax (c : Ctl) (ty : FTy) (d a : Reg) (b : FSrc2) (s : State) :
    Host.Outcome State Fault Refusal := s.vec (float2 c ty d a b fun _ x y => x.pick false y)

/-- FDOT2 (R247): two products and an FP32 addend, one rounding. -/
def execFdot2 (c : Ctl) (ty : F2Ty) (d a : Reg) (b : FSrc3) (s : State) :
    Host.Outcome State Fault Refusal :=
  s.vec (lanewise c (a.toNat :: b.regs) [d.toNat] fun src =>
    let t := ty.toF
    let r := rndOf b.rm
    let x := fun i => (elemVal t (src.reg a.toNat) i).modify b.mods.1
    let y := fun i => (elemVal t (fsrc3Word src t b) i).modify b.mods.2.1
    let z := (elemVal .f32 (src.reg b.cReg) 0).modify b.mods.2.2
    [(d.toNat, BitVec.ofNat 32
      (encodeVal 1 r false (exactSum r [(x 0).mul (y 0), (x 1).mul (y 1), z])))])

/-- A value times 2^k (R248): a zero or an infinity stays. -/
def Val.scale (v : Val) (k : Int) : Val :=
  match v with
  | .fin n 0 e => .fin n 0 e
  | .fin n m e => .fin n m (e + k)
  | w => w

/-- A scale count brought into −1,024 to 1,024: beyond it every result is the same. -/
def scaleCount (k : Int) : Int := if k < -1024 then -1024 else if 1024 < k then 1024 else k

/-- FSCALE (R247): b is an integer. -/
def execFscale (c : Ctl) (ty : FTy) (rm : RMode) (ma : SMod) (d a b : Reg) (s : State) :
    Host.Outcome State Fault Refusal :=
  s.vec (lanewise c [a.toNat, b.toNat] [d.toNat] fun src =>
    [(d.toNat, eachElem ty fun i =>
      encodeVal ty.fmt (rndOf rm) false
        (((elemVal ty (src.reg a.toNat) i).modify ma).scale
          (scaleCount (toInt ty.bits (elemCode ty (src.reg b.toNat) i)))))])

/-- A value rounded to an integral value, with its sign (R247). -/
def Val.integral (r : Rnd) (v : Val) : Val :=
  match v with
  | .fin n m e => .fin n (roundInt r n m e) 0
  | w => w

/-- FRND (R247). -/
def execFrnd (c : Ctl) (ty : FTy) (rm : RMode) (ma : SMod) (d a : Reg) (s : State) :
    Host.Outcome State Fault Refusal :=
  s.vec (lanewise c [a.toNat] [d.toNat] fun src =>
    [(d.toNat, eachElem ty fun i =>
      encodeVal ty.fmt .rne false
        (((elemVal ty (src.reg a.toNat) i).modify ma).integral (rndOf rm)))])

/-- FCLAMP (R247, R248): FMAX first, then FMIN. -/
def execFclamp (c : Ctl) (ty : FTy) (d a : Reg) (b : FSrc3) (s : State) :
    Host.Outcome State Fault Refusal :=
  s.vec (float3 c ty d a b fun _ x y z => (x.pick false y).pick true z)

/-- FAMAX (R247, R248). -/
def execFamax (c : Ctl) (ty : FTy) (d a : Reg) (b : FSrc2) (s : State) :
    Host.Outcome State Fault Refusal :=
  s.vec (float2 c ty d a b fun _ x y => x.mag.pick false y.mag)

/-- The class bit of a code (R249). -/
def classBit (f : FFmt) (code : Nat) : Nat :=
  match f.decode code with
  | .nan => 8
  | .inf n => if n then 0 else 7
  | .fin n m _ =>
    if m = 0 then (if n then 3 else 4)
    else if m < 2 ^ f.mw then (if n then 2 else 5)
    else (if n then 1 else 6)

/-- FCLASS (R249). -/
def execFclass (c : Ctl) (ty : FTy) (d a : Reg) (s : State) : Host.Outcome State Fault Refusal :=
  s.vec (lanewise c [a.toNat] [d.toNat] fun src =>
    [(d.toNat, eachElem ty fun i =>
      match ffmt ty.fmt with
      | some f => 2 ^ classBit f (elemCode ty (src.reg a.toNat) i)
      | none => 0)])

/-- FCMP's conditions (R251). -/
def fcond (k : Nat) (a b : Val) : Bool :=
  let un := a == .nan || b == .nan
  let df := a.diff b
  let o := match k % 8 with
    | 0 => decide (df = 0) | 1 => decide (df ≠ 0) | 2 => decide (df < 0) | 3 => decide (df ≤ 0)
    | 4 => decide (df > 0) | 5 => decide (df ≥ 0) | _ => false
  if k = 6 then !un
  else if k = 7 then un
  else if k < 8 then !un && o
  else un || o

/-- FCMP (R250, R251). -/
def execFcmp (c : Ctl) (ty : FTy) (cond : BitVec 4) (d : PReg) (a : Reg) (b : FCmpSrc) (s : State) :
    Host.Outcome State Fault Refusal :=
  let ps := match b with | .reg _ ps => ps | .imm _ ps => ps
  s.vec { c := c, preads := [], writes := [],
          reads := a.toNat :: (match b with | .reg r _ => [r.toNat] | .imm _ _ => []),
          f := fun src l =>
            let y := match b with
              | .reg r _ => (src l).reg r.toNat
              | .imm v _ => match ty with
                | .f32 => BitVec.ofNat 32 (v.toNat * 2 ^ 16)
                | .f16x2 | .bf16x2 => BitVec.ofNat 32 (v.toNat * 65537)
            let r := fun i => fcond cond.toNat (elemVal ty ((src l).reg a.toNat) i) (elemVal ty y i)
            { regs := [],
              preds := (d.toNat, r 0) :: (if ty.elems = 2 then [(ps.toNat, r 1)] else []) } }

/-- A function of R252 in each lane taking part. -/
def funOp (k : Fun1) (c : Ctl) (ma : SMod) (d a : Reg) : VOp :=
  lanewise c [a.toNat] [d.toNat] fun src =>
    [(d.toNat, BitVec.ofNat 32 (k.apply ((elemVal .f32 (src.reg a.toNat) 0).modify ma)))]

/-- FRCP (R253). -/
def execFrcp (c : Ctl) (ma : SMod) (d a : Reg) (s : State) : Host.Outcome State Fault Refusal :=
  s.vec (funOp .rcp c ma d a)

/-- FRSQ (R253). -/
def execFrsq (c : Ctl) (ma : SMod) (d a : Reg) (s : State) : Host.Outcome State Fault Refusal :=
  s.vec (funOp .rsq c ma d a)

/-- FSQRT (R253). -/
def execFsqrt (c : Ctl) (ma : SMod) (d a : Reg) (s : State) : Host.Outcome State Fault Refusal :=
  s.vec (funOp .sqrt c ma d a)

/-- FEXP2 (R253). -/
def execFexp2 (c : Ctl) (ma : SMod) (d a : Reg) (s : State) : Host.Outcome State Fault Refusal :=
  s.vec (funOp .exp2 c ma d a)

/-- FLOG2 (R253). -/
def execFlog2 (c : Ctl) (ma : SMod) (d a : Reg) (s : State) : Host.Outcome State Fault Refusal :=
  s.vec (funOp .log2 c ma d a)

/-- FSIN (R253). -/
def execFsin (c : Ctl) (ma : SMod) (d a : Reg) (s : State) : Host.Outcome State Fault Refusal :=
  s.vec (funOp .sin c ma d a)

/-- FCOS (R253). -/
def execFcos (c : Ctl) (ma : SMod) (d a : Reg) (s : State) : Host.Outcome State Fault Refusal :=
  s.vec (funOp .cos c ma d a)

/-- FSIGM (R253). -/
def execFsigm (c : Ctl) (ma : SMod) (d a : Reg) (s : State) : Host.Outcome State Fault Refusal :=
  s.vec (funOp .sigm c ma d a)

/-- FTANH (R253). -/
def execFtanh (c : Ctl) (ma : SMod) (d a : Reg) (s : State) : Host.Outcome State Fault Refusal :=
  s.vec (funOp .tanh c ma d a)

/-- An element of a register replaced; every other bit kept (R255). -/
def mergeElem (bits i : Nat) (v : Word) (code : Nat) : Word :=
  let lo := 2 ^ (bits * i)
  let hi := 2 ^ (bits * (i + 1))
  BitVec.ofNat 32 (v.toNat / hi * hi + code * lo % hi + v.toNat % lo)

/-- CVT's lane effect: format, rounding with its draw for the lane, saturation (R255). D is read
where the destination is narrower than 32 bits. -/
def cvtOp (c : Ctl) (df : Nat) (rnd : Nat → Rnd) (sat : Bool) (sf : BitVec 4) (sei dei : BitVec 2)
    (d a : Reg) : VOp :=
  { c := c, preads := [], writes := [d.toNat],
    reads := if fmtBits df < 32 then [a.toNat, d.toNat] else [a.toNat],
    f := fun src l =>
      let w := fmtBits sf.toNat
      let x := decodeVal sf.toNat (((src l).reg a.toNat).toNat / 2 ^ (w * sei.toNat) % 2 ^ w)
      { regs := [(d.toNat, mergeElem (fmtBits df) dei.toNat ((src l).reg d.toNat)
          (encodeVal df (rnd l) sat x))], preds := [] } }

/-- A slot CVT can use: not NONE, not NIB, and DEI an element of its format (R254). -/
def cvtSlotOk (dei : BitVec 2) (w : DWord) : Bool :=
  slotFmt w != 6 && decide (dei.toNat * fmtBits (slotFmt w) < 32)

/-- CVT (R254, R255). -/
def execCvt (c : Ctl) (dst : CvtDst) (sf : BitVec 4) (sei dei : BitVec 2) (d a : Reg) (s : State) :
    Host.Outcome State Fault Refusal :=
  match dst with
  | .fmt df rm sat => s.vec (cvtOp c df.toNat (fun _ => rndOf rm) sat sf sei dei d a)
  | .slot n =>
    run s (s.slotVecM c n.toNat (cvtSlotOk dei) fun w draw =>
      cvtOp c (slotFmt w) (fun l => slotRounding w (draw l)) (slotSat w) sf sei dei d a)

/-! ## NPACK, NUNPK, SCALEQ (R215 to R217) -/

/-- The eight registers of a run (R215). -/
def run8 (r : Reg) : List Nat := (List.range 8).map fun i => r.toNat + i

/-- The slot's format is NIB (R215). -/
def nibSlot (w : DWord) : Bool := slotFmt w == 6

/-- The codes of eight elements packed, element 0 lowest (R217). -/
def npackWord (rnd : Nat → Rnd) (l : Nat) (scale : Nat) (xs : Nat → Word) : Word :=
  let e := scale % 64
  if e = 63 then 0
  else
    BitVec.ofNat 32 (packElems 4 ((List.range 8).map fun i =>
      nibEncode (scale / 64) (rnd (8 * l + i)) ((elemVal .f32 (xs i) 0).scale (32 - (e : Int)))))

/-- NPACK (R217). -/
def execNpack (c : Ctl) (slot : BitVec 3) (d a b : Reg) (s : State) :
    Host.Outcome State Fault Refusal :=
  run s (s.slotVecM c slot.toNat nibSlot fun w draw =>
    { c := c, reads := b.toNat :: run8 a, preads := [], writes := [d.toNat],
      f := fun src l =>
        { regs := [(d.toNat, npackWord (fun n => slotRounding w (draw n)) l
            (((src l).reg b.toNat).toNat % 256) fun i => (src l).reg (a.toNat + i))],
          preds := [] } })

/-- NUNPK (R217). -/
def execNunpk (c : Ctl) (d a b : Reg) (s : State) : Host.Outcome State Fault Refusal :=
  s.vec (lanewise c [a.toNat, b.toNat] (run8 d) fun src =>
    (List.range 8).map fun i =>
      (d.toNat + i, BitVec.ofNat 32 (encodeVal 1 .rne false
        (nibDecode ((src.reg b.toNat).toNat % 256)
          ((src.reg a.toNat).toNat / 2 ^ (4 * i) % 16)))))

/-- The scale byte of a block's values (R216). -/
def scaleByte (t : Nat) (xs : List Val) : Nat :=
  let bad := xs.any fun v => match v with | .fin _ _ _ => false | _ => true
  let fits := fun (e : Nat) => xs.all fun v =>
    decide ((v.mag).diff (.fin false (maxQ8 t) ((e : Int) - 32 - 3)) ≤ 0)
  64 * t + (if bad then 63 else (firstBelow 63 fits).getD 62)

/-- The lanes whose values make a lane's scale byte (R216): those of its block taking part; under U
the lane alone. -/
def blockLanes (u : Bool) (t : LaneMask) (l : Nat) : List Nat :=
  if u then [l] else (lanesOf t).filter fun k => k / 16 == l / 16

/-- SCALEQ (R216). -/
def execScaleq (c : Ctl) (slot : BitVec 3) (d a : Reg) (s : State) :
    Host.Outcome State Fault Refusal :=
  match s.curGroup with
  | none => .fault .noAgent
  | some g =>
    let t := g.taking (s.core s.cur.core) c.p s.cur.mask
    run s (s.slotVecM c slot.toNat nibSlot fun w _ =>
      { c := c, reads := run8 a, preads := [], writes := [d.toNat],
        f := fun src l =>
          { regs := [(d.toNat, BitVec.ofNat 32 (scaleByte (slotNtype w)
              ((blockLanes c.u t l).flatMap fun k =>
                (run8 a).map fun r => elemVal .f32 ((src k).reg r) 0)))],
            preds := [] } })

end Sys2Proof.Machine
end

