-- ==== Sys2Proof/Machine/Issue.lean ====
section
/-! DEFINITION. Which threads of a group issue next, and what they issue (R23, R44, R83, R329 to
R332). -/

namespace Sys2Proof.Machine

/-- Where a group's turn stands before its instruction's meaning. -/
inductive Pick where
  | idle
  | done (s : State)
  | go (i : Instr) (s : State)

/-- A thread runs from its loop buffer. -/
def Lane.buffered (x : Lane) : Bool := x.st == .run && !x.yielded && x.buf.isSome

/-- Yield marks cleared when every running thread bears one (R330). -/
def Group.unyield (g : Group) : Group :=
  if g.lanes.any fun x => x.st == .run && !x.yielded then g
  else { g with lanes := g.lanes.map fun x => { x with yielded := false } }

/-- A thread whose PC has left its loop buffer's range is an ordinary thread again (R331). -/
def Lane.leaveBuf (x : Lane) : Lane :=
  match x.buf with
  | some b => if b.lo.toNat ≤ x.pc.toNat ∧ x.pc.toNat ≤ b.hi.toNat then x else { x with buf := none }
  | none => x

/-- Buffer-served threads whose PC is F are ordinary threads again, and join the mask there (R330, R331). -/
def Group.join (g : Group) : Group :=
  match g.fetchPc with
  | some f => { g with lanes := g.lanes.map fun x =>
      if x.buffered && x.pc == f then { x with buf := none } else x }
  | none => g

/-- The execution mask at F (R330). -/
def Group.streamMask (g : Group) (f : DWord) : LaneMask :=
  lanesWhere fun i => match g.lanes[i]? with | some x => x.inStream && x.pc == f | none => false

/-- The next buffer-served lane in ascending order, from the group's place in the round (R332). -/
def Group.bufLane (g : Group) : Option Nat :=
  let served := fun i => match g.lanes[i]? with | some x => x.buffered | none => false
  match firstFrom served g.bufNext (64 - g.bufNext) with
  | some i => some i
  | none => firstBelow g.bufNext served

/-- The word a buffer-served thread issues (R331). -/
def LoopBuf.word (b : LoopBuf) (pc : DWord) : DWord :=
  (b.words[(pc.toNat - b.lo.toNat) / 8]?).getD 0

/-- The meaning or the decode trap of word `w` for the turn in `s` (R44). -/
def pickWord (s : State) (w : DWord) : Pick :=
  match decode w with
  | .ok i => .go i s
  | .error .illegalOp => .done (s.takeTrap ⟨.illegalOp, (lowestLane s.cur.mask).getD 0, 0, 0⟩)
  | .error .illegalPair => .done (s.takeTrap ⟨.illegalPair, (lowestLane s.cur.mask).getD 0, 0, 0⟩)

/-- The turn of group `slot` of `core` set to threads `m` at `pc` with word `w`. -/
def State.turn (s : State) (core slot : Nat) (m : LaneMask) (pc w : DWord) : State :=
  { s with cur := { core := core, slot := slot, mask := m, pc := pc, iword := w } }

/-- The stream's turn: fetch at F for the threads there (R329, R330). -/
def pickStream (s : State) (core slot : Nat) (g : Group) (f : DWord) : Pick :=
  let m := g.streamMask f
  let s0 := s.setGroup core slot { g with bufTurn := true }
  let s1 := s0.fetched core g.ctx f
  match s0.fetch core g.ctx f with
  | .word w => pickWord (s1.turn core slot m f w) w
  | .trap c => .done ((s1.turn core slot m f 0).takeTrap ⟨c, (lowestLane m).getD 0, f, 0⟩)
  | .absent on e => .done (s1.fault { ctx := g.ctx, on := on, ext := e, who := .stall core slot })
  | .wait => .done s1

/-- A buffer-served thread's turn (R331, R332). -/
def pickBuf (s : State) (core slot : Nat) (g : Group) (i : Nat) : Pick :=
  match g.lanes[i]? with
  | none => .idle
  | some x =>
    match x.buf with
    | none => .idle
    | some b =>
      let w := b.word x.pc
      let s1 := s.setGroup core slot { g with bufTurn := false, bufNext := (i + 1) % 64 }
      pickWord (s1.turn core slot (1#64 <<< i) x.pc w) w

/-- A log entry awaits its replay: later instructions are not issued before it (R81). -/
def Group.replaying (g : Group) : Bool := g.log.any fun e => e.st == .ready

/-- The instruction a group is parked at, issued again. -/
def Park.again (p : Park) (s : State) (core slot : Nat) : Pick :=
  pickWord (s.turn core slot p.mask p.pc p.iword) p.iword

/-- The next instruction of a running group: the one it is parked at; else the stream and the loop
buffers in alternation. -/
def State.pickNext (s : State) (core slot : Nat) (g0 : Group) : Pick :=
  match g0.parked with
  | some p => p.again s core slot
  | none =>
    let g := ({ g0 with lanes := g0.lanes.map Lane.leaveBuf }.unyield).join
    match g.fetchPc, g.bufLane with
    | none, none => .idle
    | some f, none => pickStream s core slot g f
    | none, some i => pickBuf s core slot g i
    | some f, some i => if g.bufTurn then pickBuf s core slot g i else pickStream s core slot g f

/-- What a group of a team that is to be killed or rolled back still does (R340, R344): it counts a
named barrier's arrival that its closing stage owes; else the team stops once all are at rest. -/
def State.pickStop (s : State) (core slot : Nat) (g : Group) : Pick :=
  if g.arriving && g.canClose then .done (s.tryClose core slot) else .done (s.tryStop g.team)

/-- What the group in `slot` of `core` issues at its turn. An instruction at the boundary unit goes on
whatever is pending (R309). Nothing new is issued while its team waits to be stopped (R344), while a trap
is pending (R373), while an array command holds it (R300) or a log entry awaits its replay (R81); a
closing stage closes if it can (R340). -/
def State.pick (s : State) (core slot : Nat) : Pick :=
  match s.group core slot with
  | none => .idle
  | some g =>
    match (if s.ownsUnit core slot then g.parked else none) with
    | some p => p.again s core slot
    | none =>
      if s.stopping g.team then s.pickStop core slot g
      else if g.trap then .idle
      else match g.asyncRec with
        | some r => .done (s.takeWaiting core slot g r)
        | none =>
          if g.arrWait.isSome || g.replaying then .idle
          else if g.closing != .none then .done (s.tryClose core slot)
          else s.pickNext core slot g

end Sys2Proof.Machine
end

