-- ==== Sys2Proof/Machine/Ink.lean ====
section
/-! DEFINITION. Ink cells: the home's state machine, requests and replies, decided copies, watches
(R104 to R122), datagrams on their way (R424, R425), and the replay of the operand log (R81). -/

namespace Sys2Proof

/-- A datagram that must be discarded (R424): a reserved field set. That VER other than 1 and LEN above
8,192 count as such is the model's choice, and so is that DST is not looked at. -/
def DgHead.bad (h : DgHead) : Bool := h.ver != 1 || h.rsv != 0 || decide (h.len.toNat > 8192)

/-- The 32 bytes of a header under a TYPE (R424). -/
def DgHead.bytes (h : DgHead) (typ : Nat) : List Byte :=
  Machine.bytesOfNat 1 typ ++ Machine.bytesOfNat 1 h.ver.toNat ++
  Machine.bytesOfNat 2 (h.src.toNat + 2 ^ 14 * (h.rsv.extractLsb' 0 2).toNat) ++
  Machine.bytesOfNat 2 (h.dst.toNat + 2 ^ 14 * (h.rsv.extractLsb' 2 2).toNat) ++
  Machine.bytesOfNat 2 h.len.toNat ++ Machine.bytesOfNat 4 h.jtag.toNat ++ Machine.bytesOfNat 4 h.cid.toNat ++
  Machine.bytesOfNat 4 h.chunk.toNat ++ Machine.bytesOfNat 4 h.seq.toNat ++
  Machine.bytesOfNat 8 (h.rsv.extractLsb' 4 64).toNat

end Sys2Proof

namespace Sys2Proof.Machine

/-! ## Datagrams (R424, R425) -/

/-- A sequence counter's value. -/
def seqOf (l : List (Nat × Nat × Nat)) (peer cls : Nat) : Nat :=
  match l.find? fun e => e.1 == peer && e.2.1 == cls with
  | some e => e.2.2
  | none => 0

/-- A sequence counter one higher. -/
def seqBump (l : List (Nat × Nat × Nat)) (peer cls : Nat) : List (Nat × Nat × Nat) :=
  (peer, cls, seqOf l peer cls + 1) :: l.filter fun e => !(e.1 == peer && e.2.1 == cls)

/-- A datagram of `len` payload bytes sent to a peer, kept until acknowledged; its SEQ. -/
def State.send (s : State) (peer typ : Nat) (jtag cid chunk : Word) (len : Nat) (payload : List DWord) :
    Nat × State :=
  let n := seqOf s.seqOut peer typ
  let h : DgHead := { ver := 1, src := s.devno, dst := BitVec.ofNat 14 peer, len := BitVec.ofNat 16 len,
                      jtag := jtag, cid := cid, chunk := chunk, seq := BitVec.ofNat 32 n, rsv := 0 }
  (n, { s with
    seqOut := seqBump s.seqOut peer typ
    sent := s.sent ++ [{ peer := peer, typ := typ, h := h, payload := payload, tries := 0 }] })

/-! ## The home's state machine (R104, R106, R112, R113) -/

/-- STATE of a cell's word 1. -/
def inkState (w1 : DWord) : Nat := (w1.extractLsb' 62 2).toNat

/-- GEN of a cell's word 1. -/
def inkGen (w1 : DWord) : Nat := (w1.extractLsb' 32 30).toNat

/-- Word 1 of a DRY cell. -/
def dryWord (gen dev core slot : Nat) : DWord :=
  BitVec.ofNat 64 (2 ^ 62 + gen % 2 ^ 30 * 2 ^ 32 + dev % 2 ^ 14 * 2 ^ 18 + core % 2 ^ 8 * 2 ^ 10
    + slot % 2 ^ 6 * 2 ^ 4)

/-- R112 on a cell that is BLANK or DRY: the status and the cell after the step. -/
def inkStep (op : InkOp) (w0 w1 : DWord) (gen val : Nat) (dev core slot : Nat) :
    Nat × DWord × DWord :=
  let g := inkGen w1
  let dry := inkState w1 == 1
  match op with
  | .propose =>
    if gen ≠ g then (2, w0, w1)
    else if dry then (1, w0, w1)
    else (0, BitVec.ofNat 64 val, dryWord g dev core slot)
  | .readHome => (0, w0, w1)
  | .readGen =>
    if gen < g then (3, w0, w1)
    else if gen = g ∧ dry then (1, w0, w1)
    else (2, w0, w1)
  | .recycle =>
    if dry ∧ gen = g then
      if g < 2 ^ 30 - 1 then (0, 0, BitVec.ofNat 64 ((g + 1) * 2 ^ 32)) else (5, w0, w1)
    else (2, w0, w1)

/-- The reply image of a status (R114), without the status. -/
def inkImage (status : Nat) (w0 w1 : DWord) : DWord × DWord :=
  if status = 3 then (0, BitVec.ofNat 64 (inkState w1 * 2 ^ 62 + inkGen w1 * 2 ^ 32))
  else if status = 4 then (0, BitVec.ofNat 64 (2 ^ 63))
  else if status = 6 then (0, 0)
  else (w0, w1 &&& ~~~0xF#64)

/-- The home performs an ink operation on the cell at `pa` in one step: status, image, state. -/
def State.inkHome (s : State) (pa : Nat) (m : InkMsg) (dev : Nat) : Nat × DWord × DWord × State :=
  let sec := sectorOf pa
  let sh := s.atHome (pa / 128)
  if s.poisoned pa 16 then (4, 0, BitVec.ofNat 64 (2 ^ 63), (sh.markPoison sec).healthRec (BitVec.ofNat 64 (32 * sec)))
  else
    let s0 := sh.readSector sec
    let w0 := memDW s0.mem pa
    let w1 := memDW s0.mem (pa + 8)
    if inkState w1 = 2 then (4, 0, BitVec.ofNat 64 (2 ^ 63), s0)
    else if inkState w1 = 3 then (4, 0, BitVec.ofNat 64 (2 ^ 63), s0.markPoison sec)
    else
      let r := inkStep m.op w0 w1 m.gen.toNat m.val.toNat dev m.core m.slot
      let img := inkImage r.1 r.2.1 r.2.2
      if r.2 = (w0, w1) then (r.1, img.1, img.2, s0)
      else
        let s1 := s0.putHome pa (bytesOfWords [r.2.1, r.2.2])
        let s2 := if inkState w1 = 0 then
            s1.inkNotices (pa / 128) fun p n =>
              ptrOfs p % 128 / 16 == pa % 128 / 16 && n.toNat == inkGen w1
          else s1
        (r.1, img.1, img.2, s2)

/-! ## Decided copies (R115, R116) -/

/-- A decided copy of a cell's generation. -/
def copyOf (l : List Decided) (ctx dev : Nat) (p : DWord) (gen : Word) : Option Decided :=
  l.find? fun d => d.ctx == ctx && d.dev == dev && d.ptr == p && d.gen == gen

/-- The first decided copy in the core's L1 or its die's L2. -/
def State.decidedCopy (s : State) (core ctx dev : Nat) (p : DWord) (gen : Word) : Option Decided :=
  match copyOf (s.core core).decided ctx dev p gen with
  | some d => some d
  | none => copyOf (s.die (dieOf core)).l2decided ctx dev p gen

/-- A decided copy installed: in a slice of the die's L2 too for a cell homed on another die or device. -/
def State.installDecided (s : State) (core : Nat) (d : Decided) (away : Bool) : State :=
  let s1 := if away && (copyOf (s.die (dieOf core)).l2decided d.ctx d.dev d.ptr d.gen).isNone then
      (s.sliceRoom (dieOf core, d.slice)).updDie (dieOf core) fun x => { x with l2decided := d :: x.l2decided }
    else s
  if (copyOf (s1.core core).decided d.ctx d.dev d.ptr d.gen).isSome then s1
  else
    match s1.makeWay core d.set with
    | none => s1
    | some (w, s2) => s2.updCore core fun x =>
        { x with decided := { d with way := some w } :: x.decided }

/-! ## Requests (R108, R111, R120) -/

/-- A lane's ink access and its device operand. -/
abbrev InkCand := Cand × Nat

/-- The checks of R120 in lane order: alignment for all, CHECK for local cells. -/
def State.inkAdmit (s : State) (core ctx : Nat) (op : InkOp) :
    DCache → List InkCand → Except TrapInfo (List (Elem × Option Desc)) × DCache
  | c, [] => (.ok [], c)
  | c, (k, dev) :: r =>
    match k.ptr with
    | none => (.error ⟨.objBounds, k.lane, k.base, 0⟩, c)
    | some p =>
      if ptrOfs p % 16 ≠ 0 then (.error ⟨.misaligned, k.lane, p, 0⟩, c)
      else
        let q := s.check core ctx c p 16 (needInk op)
        match (if dev = s.devno.toNat then (q.1.map some, q.2) else (.ok none, c)) with
        | (.error q, c1) => (.error ⟨q, k.lane, p, 0⟩, c1)
        | (.ok d, c1) =>
          let t := s.inkAdmit core ctx op c1 r
          (t.1.map fun l => ({ k.elem p with dev := dev }, d) :: l, t.2)

/-- Physical addresses of the local cells; the first absent extent met. -/
def State.inkReach (s : State) (core ctx : Nat) :
    List (Elem × Option Desc) → List Elem × Option (Nat × Nat)
  | [] => ([], none)
  | (e, none) :: r =>
    let q := s.inkReach core ctx r
    (e :: q.1, q.2)
  | (e, some d) :: r =>
    let q := s.inkReach core ctx r
    match s.xlate (clusterOf core) ctx d e.ptr with
    | .absent on i => (q.1, some (on, i))
    | .at pa _ => ({ e with pa := pa } :: q.1, q.2)

/-- The cluster's extent cache takes the extents of the local cells (R77). -/
def State.inkMet (s : State) (core ctx : Nat) (l : List (Elem × Option Desc)) : State :=
  l.foldl (fun s h => match h.2 with
    | some d => s.extentMet (clusterOf core) ctx d h.1.ptr
    | none => s) s

/-- Lanes that name one cell make one request (R111), built from the lowest of them. -/
def inkMerge (es : List Elem) : List (Elem × LaneMask) :=
  es.foldl (fun acc e =>
    if acc.any fun q => q.1.dev == e.dev && q.1.ptr == e.ptr then
      acc.map fun q => if q.1.dev == e.dev && q.1.ptr == e.ptr then
        (q.1, q.2 ||| (1#64 <<< e.lane)) else q
    else acc ++ [(e, 1#64 <<< e.lane)]) []

/-- One request on its way: answered by a decided copy, lost, to the local home, or to another
device. `low` is the lowest lane taking part. -/
def State.inkSend (s : State) (a : Actor) (g : Group) (op : InkOp) (low : Nat) (q : Elem × LaneMask) : State :=
  let e := q.1
  let gen := e.cmp.extractLsb' 0 32
  let msg : InkMsg := { op := op, ptr := e.ptr, gen := gen, val := e.data.extractLsb' 0 64,
                        core := a.core, slot := a.slot, lowest := q.2.getLsbD low }
  let req : InkReq := { core := a.core, slot := a.slot, gid := g.team, flight := a.id, msg := msg,
                        dev := e.dev, ctx := g.ctx, pa := e.pa, lanes := q.2, seq := 0, sent := s.steps }
  let lost : InkRep := { req := req, status := 6, w0 := 0, w1 := 0, cause := .none }
  match (if op = .readGen then s.decidedCopy a.core g.ctx e.dev e.ptr gen else none) with
  | some d =>
    { s with inkReps := s.inkReps ++ [{ req := req, status := 1, w0 := d.w0, w1 := d.w1, cause := .none }] }
  | none =>
    if e.dev ≥ 16384 then { s with inkReps := s.inkReps ++ [lost] }
    else if e.dev = s.devno.toNat then
      if (s.die (e.pa / 2 ^ 38)).out then { s with inkReps := s.inkReps ++ [lost] }
      else { s with inks := s.inks ++ [req] }
    else
      let code := match op with | .propose => 0 | .readGen => 1 | .readHome => 2 | .recycle => 3
      let t := s.send e.dev 4 (s.ctx g.ctx).jtag 0 0 40
        [BitVec.ofNat 64 (code + 2 ^ 8 * b2n msg.lowest), e.ptr, gen.setWidth 64, msg.val,
         BitVec.ofNat 64 (a.core + 2 ^ 8 * a.slot)]
      { t.2 with inkWait := t.2.inkWait ++ [{ req with seq := t.1 }] }

/-- A request of the group to one of the cells is on its way to another device: the next to that cell
follows its reply, so that the home performs them in the order issued (R109). -/
def State.podBusy (s : State) (a : Actor) (es : List Elem) : Bool :=
  s.inkWait.any fun q => q.core == a.core && q.slot == a.slot && es.any fun e =>
    q.dev == e.dev && q.msg.ptr == e.ptr

/-- An ink instruction at issue or at replay. Translation comes before the search for decided copies:
an INKR.g whose copy is held enters the operand log while its extent is absent (the model's choice). -/
def State.tryInk (s : State) (a : Actor) (g : Group) (op : InkOp) (ks : List InkCand) : Try :=
  let q := s.inkAdmit a.core g.ctx op (s.core a.core).desc ks
  let s0 := s.setDesc a.core q.2
  match q.1 with
  | .error t => .trap t s0
  | .ok l =>
    let s1 := s0.inkMet a.core g.ctx l
    match s0.inkReach a.core g.ctx l with
    | (_, some (on, i)) => .absent on i s1
    | (es, none) =>
      if g.behindLog a.id 16 es || s.podBusy a es then .wait
      else
        let low := ((es.map Elem.lane).min?).getD 0
        .fly es ((inkMerge es).foldl (fun s q => s.inkSend a g op low q) s1)

/-- INKP, INKR and INKC: `val` the value pair of INKP; a stage closes after INKP and INKC. -/
def State.inkM (s : State) (c : Ctl) (op : InkOp) (d a : Reg) (val : Option Reg) (cc : Reg)
    (cell : BitVec 13) : M State :=
  s.memM c fun g x t lo => do
    let dests := (List.range 4).map fun i => d.toNat + i
    let gens := if op = .readHome then [cc.toNat + 1] else [cc.toNat, cc.toNat + 1]
    let vals := match val with | some b => [b.toNat, b.toNat + 1] | none => []
    let srcs := addrRegs .glb a ++ gens ++ vals
    needRegs g (srcs ++ dests) lo
    waitClass g .ld
    uCheck g x c.u t lo srcs
    let r : MemReq := { kind := .ink op, nt := false, u := c.u, size := .b128, dest := d.toNat,
                        lanes := t, elems := [] }
    let ks : List InkCand := (accessLanes c.u t lo).map fun l =>
      let v := match val with | some b => (g.pair x b.toNat l).setWidth 128 | none => (0 : BitVec 128)
      let gen := if op = .readHome then (0 : DWord) else (g.reg x cc.toNat l).setWidth 64
      ({ glbCand (g.pair x a.toNat l) (16 * cell.toInt) l 0 v with cmp := gen },
       (g.reg x (cc.toNat + 1) l).toNat)
    let es := ks.filterMap fun k => k.1.ptr.map fun p => { k.1.elem p with dev := k.2 }
    s.settleTry g (s.flightOf g .ld r es) dests (op = .propose || op = .recycle)
      (s.tryInk (s.actor g) g op ks)

/-- INKP (R119 to R122). -/
def execInkp (c : Ctl) (d a b cc : Reg) (cell : BitVec 13) (s : State) :
    Host.Outcome State Fault Refusal := run s (s.inkM c .propose d a (some b) cc cell)

/-- INKR.g (R119 to R122). -/
def execInkrG (c : Ctl) (d a cc : Reg) (cell : BitVec 13) (s : State) :
    Host.Outcome State Fault Refusal := run s (s.inkM c .readGen d a none cc cell)

/-- INKR.h (R119 to R122). -/
def execInkrH (c : Ctl) (d a cc : Reg) (cell : BitVec 13) (s : State) :
    Host.Outcome State Fault Refusal := run s (s.inkM c .readHome d a none cc cell)

/-- INKC (R119 to R122). -/
def execInkc (c : Ctl) (d a cc : Reg) (cell : BitVec 13) (s : State) :
    Host.Outcome State Fault Refusal := run s (s.inkM c .recycle d a none cc cell)

/-! ## Watches (R117, R118) -/

/-- A group's watch given up: its home forgets it, and threads parked on it are woken (R117). -/
def State.unwatch (s : State) (core slot : Nat) : State :=
  (s.dropWatches core slot).updGroup core slot fun g =>
    { g.wake (fun m => match m with | .copy _ _ => false | _ => true) with watch := none }

/-- A group's watch set, replacing its old one; one that finds no room at its home counts as noticed at
once. With no `line` the home is another device's, which keeps its own side under `seq`. -/
def State.setWatch (s : State) (core slot dev seq : Nat) (ptr : DWord) (gen : Word) (line : Option Nat) :
    State :=
  let s1 := s.unwatch core slot
  let room := match line with
    | some l => decide ((s1.dirOf l).watches < 8) | none => true
  let s2 := match line with
    | some l => if room then s1.updDir l fun d => { d with inkWatch := d.inkWatch ++ [(core, slot, ptr, gen)] }
        else s1
    | none => s1
  s2.updGroup core slot fun g => { g with
    watch := some { dev := dev, ptr := ptr, gen := gen, noticed := !room, seq := seq } }

/-- The group of a request, if its flight still waits. -/
def State.inkOwner (s : State) (q : InkReq) : Option (Group × Flight) :=
  match s.group q.core q.slot with
  | none => none
  | some g =>
    match g.flight.find? fun f => f.id == q.flight && g.team == q.gid with
    | some f => some (g, f)
    | none => none

/-- An INKR.h that shows BLANK leaves its watch for the cell of the lowest lane (R117). -/
def State.leaveWatch (s : State) (q : InkReq) (status : Nat) (w1 : DWord) (line : Option Nat) : State :=
  if q.msg.op = .readHome ∧ q.msg.lowest ∧ status = 0 ∧ inkState w1 = 0 ∧ (s.inkOwner q).isSome then
    s.setWatch q.core q.slot q.dev q.seq q.msg.ptr (BitVec.ofNat 32 (inkGen w1)) line
  else s

/-! ## INK_HOME_STEP, INK_REPLY, INK_TIMEOUT -/

/-- INK_HOME_STEP: the n-th local request is performed at its home (R107), in issue order for one
group and cell and in the order sent across a link (R6); a home die out of service answers HOME_LOST (R110). -/
def execInkHomeStep (n : Nat) (s : State) : Host.Outcome State Fault Refusal :=
  match s.inks[n]? with
  | none => .next s
  | some q =>
    if ((s.inks.take n).any fun v => v.core == q.core && v.slot == q.slot && v.pa == q.pa) ||
        !s.homeReady (q.pa / 128) || s.behind q.route q.sent then .next s
    else
      let s1 := { s with inks := listDrop1 s.inks n }.reachedBy q.route q.sent
      if (s.die (q.pa / 2 ^ 38)).out then
        .next { s1 with inkReps := s1.inkReps ++ [{ req := q, status := 6, w0 := 0, w1 := 0, cause := .none }] }
      else
        let r := s1.inkHome q.pa q.msg s.devno.toNat
        let s2 := r.2.2.2.leaveWatch q r.1 r.2.2.1 (some (q.pa / 128))
        .next { s2 with inkReps := s2.inkReps ++
          [{ req := q, status := r.1, w0 := r.2.1, w1 := r.2.2.1, cause := .none }] }

/-- A fault at a remote home reaches its group as the trap of the instruction (R108, R374). -/
def State.inkFault (s : State) (q : InkReq) (g : Group) (f : Flight) (cause : Cause) : State :=
  s.homeFault q.core q.slot g f (fun e => q.lanes.getLsbD e.lane)
    ⟨cause, (lowestLane q.lanes).getD 0, q.msg.ptr, 0⟩

/-- WCORE and WSLOT hidden from a deterministic waybill (R114). -/
def inkHide (w1 : DWord) : DWord := w1 &&& ~~~0x3FFF0#64

/-- INK_REPLY: the n-th reply is written to its lanes (R114); a DRY one leaves a decided copy
(R115). -/
def execInkReply (n : Nat) (s : State) : Host.Outcome State Fault Refusal :=
  match s.inkReps[n]? with
  | none => .next s
  | some p =>
    let s1 := { s with inkReps := listDrop1 s.inkReps n }
    match s.inkOwner p.req with
    | none => .next s1
    | some (g, f) =>
      if p.cause ≠ .none then .next (s1.inkFault p.req g f p.cause)
      else
        let q := p.req
        let away := q.dev != s.devno.toNat || q.pa / 2 ^ 38 != dieOf q.core
        let copy : Decided := { ctx := q.ctx, dev := q.dev, ptr := q.msg.ptr,
                                gen := BitVec.ofNat 32 (inkGen p.w1), w0 := p.w0, w1 := p.w1, way := none }
        let s2 := if inkState p.w1 = 1 ∧ p.status ≤ 1 then s1.installDecided q.core copy away else s1
        let w1 := (if g.det then inkHide p.w1 else p.w1) ||| BitVec.ofNat 64 p.status
        let v := p.w0.toNat + 2 ^ 64 * w1.toNat
        let mine := fun (e : Elem) => q.lanes.getLsbD e.lane
        let s3 := s2.putRegs q.core q.slot ((f.req.elems.filter mine).flatMap fun e => f.req.outs e v)
        let s4 := (s3.arrived q.core q.slot f.id mine).updGroup q.core q.slot fun g => g.sticky true
        .next (if f.req.kind.commits then
          s4.updTeam q.gid fun t => { t with committed := true } else s4)

/-- INK_TIMEOUT: the n-th remote request is given up; its reply, if one comes, is discarded (R110). -/
def execInkTimeout (n : Nat) (s : State) : Host.Outcome State Fault Refusal :=
  match s.inkWait[n]? with
  | none => .next s
  | some q => .next { s with
      inkWait := listDrop1 s.inkWait n
      inkReps := s.inkReps ++ [{ req := q, status := 6, w0 := 0, w1 := 0, cause := .none }] }

/-! ## Across the pod (R108, R109, R425) -/

/-- The cause of a code that crossed the transport. -/
def Cause.ofCode (n : Nat) : Cause :=
  ([Cause.misaligned, .objNull, .objBounds, .objRights, .inkRights, .extAbsent].find?
    fun c => c.code == n).getD .none

/-- The resident context with a pod job tag (R108). -/
def State.tagged? (s : State) (jtag : Word) : Option Nat :=
  (s.ctxs.find? fun e => e.2.state != .empty && e.2.jtag == jtag && decide (e.1 < 8)).map Prod.fst

/-- Of a peer's performed requests, the last 4,096 keep their replies (R425). -/
def keepLast (peer : Nat) (n : Nat) : List KeptRep → List KeptRep
  | [] => []
  | k :: r =>
    if k.peer != peer then k :: keepLast peer n r
    else match n with
      | 0 => { k with words := none } :: keepLast peer 0 r
      | n + 1 => k :: keepLast peer n r

/-- A reply to a peer, kept against duplicates of its request (R425). -/
def State.inkAnswer (s : State) (h : DgHead) (m : InkMsg) (w0 w1 : DWord) (cause : Nat) : State :=
  let ws := [w0, w1, BitVec.ofNat 64 cause]
  let k : KeptRep := { peer := h.src.toNat, seq := h.seq, words := some ws, core := m.core, slot := m.slot,
                       ptr := m.ptr }
  { s with keptReps := keepLast h.src.toNat 4096 (k :: s.keptReps) }.answer 5 h ws

/-- A group of another device leaves a watch with the reply that showed BLANK, replacing its old one
(R117); one that does not fit is answered with a notice at once (R118). -/
def State.podLeave (s : State) (h : DgHead) (m : InkMsg) (line : Nat) (gen : Nat) : State :=
  let old := fun (w : PodWatch) => w.h.src == h.src && w.core == m.core && w.slot == m.slot
  let s1 : State := { s with dir := s.dir.map fun e =>
    (e.1, { e.2 with podWatch := e.2.podWatch.filter fun w => !old w }) }
  let w : PodWatch := { h := h, core := m.core, slot := m.slot, ptr := m.ptr, gen := BitVec.ofNat 32 gen }
  if (s1.dirOf line).watches < 8 then s1.updDir line fun d => { d with podWatch := d.podWatch ++ [w] }
  else s1.podNotice w

/-- A remote device's request at its home: performed, once PEND is clear (R304), or held for an absent
extent; a datagram that comes before is not acknowledged yet. -/
def State.inkServe (s : State) (h : DgHead) (m : InkMsg) (ctx : Nat) : State :=
  match s.locate ctx m.ptr 16 (needInk m.op) with
  | .bad c => s.inkAnswer h m 0 0 c.code
  | .absent on e => s.fault { ctx := ctx, on := on, ext := e, who := .ink h m }
  | .at pa =>
    if (s.die (pa / 2 ^ 38)).out then s.inkAnswer h m 0 6 0
    else if !s.homeReady (pa / 128) then s
    else
      let r := s.inkHome pa m h.src.toNat
      let s1 := r.2.2.2.inkAnswer h m r.2.1 (r.2.2.1 ||| BitVec.ofNat 64 r.1) 0
      if m.op = .readHome ∧ m.lowest ∧ r.1 = 0 ∧ inkState r.2.2.1 = 0 then
        s1.podLeave h m (pa / 128) (inkGen r.2.2.1)
      else s1

/-- A request held for its extent, served at a home that is ready, or put off (R304). -/
def State.inkHeld (s : State) (h : DgHead) (m : InkMsg) (ctx : Nat) : State :=
  match s.locate ctx m.ptr 16 (needInk m.op) with
  | .at pa =>
    if !(s.die (pa / 2 ^ 38)).out && !s.homeReady (pa / 128) then s.later (.ink h m) else s.inkServe h m ctx
  | _ => s.inkServe h m ctx

/-- A request of a peer's group to a cell that has been performed, or that a later one of that group and cell
has overtaken: its sender has given it up (R109, R110). -/
def State.overtaken (s : State) (h : DgHead) (m : InkMsg) : Bool :=
  s.keptReps.any fun k => k.peer == h.src.toNat && k.core == m.core && k.slot == m.slot && k.ptr == m.ptr &&
    decide ((k.seq - h.seq).toNat < 2 ^ 31)

/-- A held request tried again: performed once, and not after a later one (R109). -/
def State.inkAgain (s : State) (h : DgHead) (m : InkMsg) (ctx : Nat) : State :=
  if s.overtaken h m then s else s.inkHeld h m ctx

/-- What the Coachman put off, tried again. -/
def State.chore (s : State) (f : FaultFor) : State :=
  match f with
  | .ink h m => (match s.tagged? h.jtag with | some ctx => s.inkAgain h m ctx | none => s)
  | _ => s.doChore f

/-- INKREQ: a request arrives from another device; each SEQ is performed once, and answered again while its
reply is kept. -/
def execInkreq (h : DgHead) (m : InkMsg) (s : State) : Host.Outcome State Fault Refusal :=
  match (if h.bad then none else s.tagged? h.jtag) with
  | none => .next { s with badDgrams := s.badDgrams + 1 }
  | some ctx =>
    match s.keptReps.find? fun k => k.peer == h.src.toNat && k.seq == h.seq with
    | some k => .next (match k.words with | some ws => s.answer 5 h ws | none => s)
    | none =>
      let same := fun (f : FaultFor) => match f with
        | .ink h2 _ => h2.src == h.src && h2.seq == h.seq | _ => false
      if s.overtaken h m || (s.faults.any fun f => same f.who) || s.chores.any same then .next s
      else .next (s.inkServe h m ctx)

/-- A notice from another device: of a watch whose INKR.h has not been answered yet it is taken later. -/
def State.podNoticed (s : State) (h : DgHead) : State :=
  if s.inkWait.any fun q => q.dev == h.src.toNat && q.seq == h.seq.toNat then s
  else
    let mine := fun (g : Group) => match g.watch with
      | some w => w.dev == h.src.toNat && w.seq == h.seq.toNat && w.dev != s.devno.toNat
      | none => false
    let mark := fun (g : Group) =>
      { g with watch := g.watch.map fun (w : Watch) => { w with noticed := true } }
    let tell := fun (x : Core) => { x with
      groups := x.groups.map fun e => if mine e.2 then (e.1, (mark e.2).wake onWatch) else e
      parked := x.parked.map fun e =>
        if mine e.group then { e.wake onWatch with group := mark e.group } else e }
    { s with cores := s.cores.map fun e => (e.1, tell e.2) }

/-- INKREP: a reply arrives for a request still waited for; its SEQ names the request; or a notice. -/
def execInkrep (h : DgHead) (w0 w1 : DWord) (cause : Nat) (s : State) :
    Host.Outcome State Fault Refusal :=
  if h.bad || (s.tagged? h.jtag).isNone then .next { s with badDgrams := s.badDgrams + 1 }
  else if cause = noticeWord then .next (s.podNoticed h)
  else
    let mine := fun (q : InkReq) => q.dev == h.src.toNat && q.seq == h.seq.toNat
    let s0 := { s with sent := s.sent.filter fun d =>
      !(d.peer == h.src.toNat && d.typ == 4 && d.h.seq == h.seq) }
    match s.inkWait.find? mine with
    | none => .next s0
    | some q =>
      let s1 := { s0 with inkWait := s0.inkWait.filter fun q => !mine q }
      let status := (w1.extractLsb' 0 4).toNat
      let s2 := s1.leaveWatch q status w1 none
      .next { s2 with inkReps := s2.inkReps ++
        [{ req := q, status := status, w0 := w0, w1 := w1 &&& ~~~0xF#64, cause := Cause.ofCode cause }] }

/-! ## REPLAY (R81) -/

/-- A logged instruction executed again from its logged sources on its logged lanes; CFLUSH and CINV
never enter the log (R83). -/
def State.redo (s : State) (a : Actor) (g : Group) (r : MemReq) : Try :=
  let ks := r.elems.map Elem.cand
  match r.kind with
  | .ld | .ldf => s.tryGlb a g r false ks
  | .st | .stf => s.tryGlb a g r true ks
  | .atom _ | .atcas | .red _ => s.tryAtom a g r ks
  | .cadd => s.tryCadd a g ks
  | .ink op => s.tryInk a g op (r.elems.map fun e => (e.cand, e.dev))
  | .flush => .done s

/-- The log with an entry's state changed. -/
def Group.setEntry (g : Group) (id : Nat) (st : LogState) : Group :=
  { g with log := g.log.map fun e => if e.op.id == id then { e with st := st } else e }

/-- REPLAY: the first ready entry of a group's operand log executes again. -/
def execReplay (core slot : Nat) (s : State) : Host.Outcome State Fault Refusal :=
  match s.group core slot with
  | none => .next s
  | some g =>
    match g.log.find? fun e => e.st == .ready with
    | none => .next s
    | some e =>
      let f := e.op
      match s.redo (f.actor core slot) g f.req with
      | .trap t u =>
        .next ((u.updGroup core slot fun g => g.setEntry f.id g.heldAs).takeLogged core slot f t)
      | .absent on ext u =>
        .next ((u.updGroup core slot fun g => g.setEntry f.id (.waiting on ext)).fault
          { ctx := g.ctx, on := on, ext := ext, who := .log core slot })
      | .wait | .park => .next s
      | .gone t => .next t
      | .done t =>
        let s1 := t.updGroup core slot fun g => g.unlog f.id f.cls
        .next (if f.req.kind.commits then
          s1.updTeam g.team fun t => { t with committed := true } else s1)
      | .fly rest t => .next (t.updGroup core slot fun g =>
          { g with log := g.log.filter fun e => e.op.id != f.id }.fly f rest)

end Sys2Proof.Machine
end

