-- ==== Sys2Proof/Machine/Special.lean ====
section
/-! DEFINITION. Special registers, views and segments: SREAD, SWRITE, VIEW, SEGSET and RCOPY (R164 to
R177). -/

namespace Sys2Proof.Machine

/-! ## SREAD (R170, R173) -/

/-- The grid of a group's team. -/
def State.gridOfGroup (s : State) (g : Group) : Option Grid :=
  match tabFind s.teams g.team with
  | some t => tabFind s.grids t.grid
  | none => none

/-- The logical core of a deterministic grid's team, or of the `part`-th core of a pair team (R363). -/
def Grid.logical (q : Grid) (tid part : Nat) : Nat :=
  let n := q.lcnt + 1
  if q.pair then 2 * (tid % max (n / 2) 1) + part
  else if q.cset then 4 * (tid / 4 % max (n / 4) 1) + tid % 4
  else tid % n

/-- The cores a team runs on, or those it ran on when it was saved (R384). -/
def State.coresRan (s : State) (tn : Nat) (t : Team) : List Nat :=
  if t.cores.isEmpty then
    match (s.ctx t.ctx).conts.find? fun q => q.team == tn with
    | some q => q.cores
    | none => []
  else t.cores

/-- The core number that a team sees: the logical core in a deterministic waybill, else the physical
one. -/
def State.teamCore (s : State) (tn core : Nat) : Nat :=
  match tabFind s.teams tn with
  | none => core
  | some t =>
    match tabFind s.grids t.grid with
    | some q => if q.det then q.logical t.tid ((s.coresRan tn t).findIdx (· == core)) else core
    | none => core

/-- `sr.lcore`. -/
def State.lcoreOf (s : State) (g : Group) (core : Nat) : Nat := if g.det then s.teamCore g.team core else core

/-- The die an agent lies on: the Coachman's is die 0. -/
def agentDie (core : Nat) : Nat := if core < 256 then dieOf core else 0

/-- A segment register's 64 bits (R164). -/
def Seg.word (q : Seg) : DWord := BitVec.ofNat 64 (q.base.toNat + 2 ^ 32 * q.size.toNat)

/-- How deterministic mode reads a special register: its value, or 0 with a sticky bit. -/
inductive Hidden where
  | shown | phys | timing
  deriving DecidableEq, Repr

/-- The deterministic-mode column of R170. -/
def srHidden (srn : Nat) : Hidden :=
  match srn with
  | 0x02 | 0x08 | 0x09 | 0x0A | 0x0D => .phys
  | 0x10 | 0x11 | 0x16 => .timing
  | _ => .shown

/-- The value of a special register in lane `l` (R170). -/
def State.srValue (s : State) (core slot : Nat) (g : Group) (l srn : Nat) : DWord :=
  let x := s.core core
  let grid := s.gridOfGroup g
  let ofGrid := fun (f : Grid → Nat) => BitVec.ofNat 64 (match grid with | some q => f q | none => 0)
  match srn with
  | 0x00 => BitVec.ofNat 64 l
  | 0x01 => BitVec.ofNat 64 g.width
  | 0x02 => BitVec.ofNat 64 slot
  | 0x03 => BitVec.ofNat 64 g.gidx
  | 0x04 => BitVec.ofNat 64 (s.tid g)
  | 0x05 => ofGrid Grid.nteam
  | 0x06 => ofGrid Grid.gpt
  | 0x08 => BitVec.ofNat 64 core
  | 0x09 => BitVec.ofNat 64 (clusterOf core)
  | 0x0A => BitVec.ofNat 64 (agentDie core)
  | 0x0B => BitVec.ofNat 64 (s.lcoreOf g core)
  | 0x0C => if g.det then ofGrid fun q => q.lcnt + 1 else BitVec.ofNat 64 (4 * x.clucnt.toNat)
  | 0x0D => x.clucnt.setWidth 64
  | 0x0E => s.devno.setWidth 64
  | 0x0F => BitVec.ofNat 64 g.ctx
  | 0x10 => (s.die (agentDie core)).clock
  | 0x11 => s.gtime
  | 0x12 => match grid with | some q => q.frame | none => 0
  | 0x13 => (g.detSticky.setWidth 64) ||| BitVec.ofNat 64 (4 * b2n g.det)
  | 0x14 => BitVec.ofNat 64 (b2n g.stageOvf)
  | 0x15 => BitVec.ofNat 64 (b2n g.dbg)
  | 0x16 => x.topo.setWidth 64
  | 0x40 => g.segReg.word
  | 0x41 => g.segMat.word
  | 0x48 => g.views.vec.setWidth 64
  | 0x49 => g.views.tile.setWidth 64
  | 0x4A => g.views.acc.setWidth 64
  | _ => 0

/-- SREAD. -/
def State.sreadM (s : State) (c : Ctl) (d : Reg) (srn : BitVec 8) : M State :=
  s.memM c fun g _ t lo => do
    let n := srn.toNat
    let wide := srWidth srn == some .b64
    needRegs g (if wide then [d.toNat, d.toNat + 1] else [d.toNat]) lo
    let hide := if g.det then srHidden n else .shown
    let value := fun l => if hide = .shown then s.srValue s.cur.core s.cur.slot g l n else 0
    let ws := (lanesOf t).flatMap fun l =>
      let v := value (if c.u then lo else l)
      (l, d.toNat, loWord v) :: (if wide then [(l, d.toNat + 1, hiWord v)] else [])
    let s1 := (s.putRegs s.cur.core s.cur.slot ws).next
    .ok (match hide with
      | .shown => s1
      | .phys => s1.updGroup s.cur.core s.cur.slot fun g => g.sticky true
      | .timing => s1.updGroup s.cur.core s.cur.slot fun g => g.sticky false)

/-- SREAD (R173). -/
def execSread (c : Ctl) (d : Reg) (srn : BitVec 8) (s : State) : Host.Outcome State Fault Refusal :=
  run s (s.sreadM c d srn)

/-! ## Privileged group-scope instructions -/

/-- A privileged instruction (R45): PRIVILEGED outside firmware; nothing when no lane takes part. -/
def State.privM (s : State) (p : Pred) (k : Group → Core → LaneMask → Nat → M State) : M State := do
  let g ← s.firmware
  let x := s.core s.cur.core
  let t := g.taking x p s.cur.mask
  match lowestLane t with
  | none => .ok s.next
  | some lo => k g x t lo

/-- The group in a slot of a scribe's core: none for a number above 63, or for the Coachman. -/
def State.slotGroup (s : State) (core n : Nat) : Option Group :=
  if core < 256 ∧ n < 64 then s.group core n else none

/-- SWRITE (R174). -/
def State.swriteM (s : State) (p : Pred) (tgt : SwTarget) (a : Reg) (srn : BitVec 8) : M State :=
  s.privM p fun g x _ lo => do
    let breg := match tgt with | .group b => [b.toNat] | .core => []
    needRegs g (a.toNat :: breg) lo
    let v := g.reg x a.toNat lo
    match tgt with
    | .core =>
      .ok (s.updCore s.cur.core fun x =>
        if srn.toNat = 0x0D then { x with clucnt := v } else { x with topo := v }).next
    | .group b =>
      let k := (g.reg x b.toNat lo).toNat % 64
      match s.slotGroup s.cur.core k with
      | none => .ok s.next
      | some _ =>
        .ok (s.updGroup s.cur.core k fun q =>
          if srn.toNat = 0x13 then { q with detSticky := v.extractLsb' 0 2 }
          else { q with dbg := v.getLsbD 0 }).next

/-- SWRITE (R174). -/
def execSwrite (p : Pred) (tgt : SwTarget) (a : Reg) (srn : BitVec 8) (s : State) :
    Host.Outcome State Fault Refusal := run s (s.swriteM p tgt a srn)

/-! ## VIEW (R175) -/

/-- The alignment of a view register (R166). -/
def viewAlign (k : ViewKind) (w : Nat) : Nat :=
  match k with
  | .vec => 4 * w
  | .tile => 2048
  | .acc => 16384

/-- A view register written. -/
def Views.set (v : Views) (k : ViewKind) (o : Word) : Views :=
  match k with
  | .vec => { v with vec := o }
  | .tile => { v with tile := o }
  | .acc => { v with acc := o }

/-- VIEW: waits for every write through the vector view; a stage closes after it. -/
def State.viewM (s : State) (p : Pred) (k : ViewKind) (o : ViewSrc) : M State :=
  s.groupM p fun g _ lo => do
    let rs := match o with | .reg a => [a.toNat] | .imm _ => []
    needRegs g rs lo
    let x := s.core s.cur.core
    let v := match o with
      | .imm i => 64 * i.toNat
      | .reg a => (g.reg x a.toNat lo).toNat % 2 ^ 22
    trapIf (v % viewAlign k g.width != 0) .misaligned lo
    waitIf (!g.pend.isEmpty)
    .ok ((s.updGroup s.cur.core s.cur.slot fun g =>
      { g with views := g.views.set k (BitVec.ofNat 32 v) }).next.close false)

/-- VIEW (R175). -/
def execView (p : Pred) (k : ViewKind) (o : ViewSrc) (s : State) :
    Host.Outcome State Fault Refusal := run s (s.viewM p k o)

/-! ## SEGSET (R176) -/

/-- The rows of a new segment, the predicate block with a REG one. -/
def segRows (k : SegKind) (base size : Nat) : List Nat :=
  (List.range (size / 128 + (match k with | .reg => 16 | .mat => 0))).map fun i => base / 128 + i

/-- BASE, SIZE and the reserved bits are as R164 gives, and the range lies in its role. -/
def Core.segOk (x : Core) (k : SegKind) (v : DWord) : Bool :=
  let base := (v.extractLsb' 0 22).toNat
  let size := (v.extractLsb' 32 22).toNat
  (v &&& 0xFFC00000FFC00000#64) == 0 &&
  (match k with
   | .reg => decide (base < 2 ^ 21) && base % 2048 == 0 && size % 2048 == 0 && decide (2048 ≤ size) &&
      decide (size ≤ 0x1FF800) && decide (base + size + 2048 ≤ 32768 * x.roles.reg.length)
   | .mat => decide (2 ^ 21 ≤ base) && base % 16384 == 0 && size % 16384 == 0 &&
      decide (size ≤ 262144) && decide (base - 2 ^ 21 + size ≤ 32768 * x.roles.mat.length))

/-- Rows a group holds in one kind of segment. -/
def Group.segHeld (g : Group) (k : SegKind) : List Nat :=
  match k with
  | .reg => segRows .reg g.segReg.base.toNat g.segReg.size.toNat
  | .mat => segRows .mat g.segMat.base.toNat g.segMat.size.toNat

/-- The tile of a row, by its number. -/
def rowTile (r : Nat) : Nat := r / 16

/-- SEGSET's status and the core after it. Tiles that lie in rows taken from the free list are EMPTY
(R160); a tile of which the target held a row before keeps its tags. -/
def Core.segset (x : Core) (k : SegKind) (slot : Nat) (g : Group) (v : DWord) : Nat × Core :=
  if !x.segOk k v then (1, x)
  else if !g.trap then (2, x)
  else
    let seg : Seg := { base := v.extractLsb' 0 22, size := v.extractLsb' 32 22 }
    let new := segRows k seg.base.toNat seg.size.toNat
    let old := g.segHeld k
    if new.any fun r => !x.rowFree r && !old.contains r then (3, x)
    else
      let g1 := match k with
        | .reg => { g with segReg := seg }
        | .mat => { g with segMat := seg }
      let y : Core := { x with groups := tabSet x.groups slot g1 }
      let kept := old.map rowTile
      let z := y.emptyTiles fun t => (new.any fun r => rowTile r == t) && !kept.contains t
      (0, (old.filter fun r => !new.contains r).foldl Core.releaseRow z)

/-- Writes issued to a group's rows and not yet performed (R159): those of operations in flight, and of
queued matrix operations. -/
def Group.writesDue (g : Group) : Bool :=
  (g.flight.any fun f => g.pend.any fun p => p.id == f.id) || g.streams.any fun l => !l.isEmpty

/-- SEGSET (R176). One that would be answered OK waits while writes issued to the target's rows are due,
so that none is performed through another window than it was issued to (the model's choice). A continuation
under restore is never met: a restore is whole in one step. -/
def State.segsetM (s : State) (p : Pred) (k : SegKind) (d a b : Reg) : M State :=
  s.privM p fun g x t lo => do
    needRegs g [a.toNat, a.toNat + 1, b.toNat, d.toNat] lo
    let n := (g.reg x b.toNat lo).toNat
    let r := match s.slotGroup s.cur.core n with
      | none => (1, x)
      | some q => x.segset k n q (g.pair x a.toNat lo)
    waitIf (r.1 == 0 && ((s.slotGroup s.cur.core n).any Group.writesDue))
    let u := if r.1 = 0 then s.setCore s.cur.core r.2 else s
    .ok (u.putAll t d.toNat (BitVec.ofNat 32 r.1)).next

/-- SEGSET (R176). -/
def execSegset (p : Pred) (k : SegKind) (d a b : Reg) (s : State) :
    Host.Outcome State Fault Refusal := run s (s.segsetM p k d a b)

/-! ## RCOPY (R177) -/

/-- No write into the window row at offset `o` is outstanding. -/
def Group.rowQuiet (g : Group) (x : Core) (o : Nat) : Bool :=
  match g.wAddr o with
  | some r => tabGet 0 x.rowPend ((if r.mat then matRow else 0) + r.a / 128) == 0
  | none => true

/-- The stream on which a group's RCOPY operations stand, beside the four of R267. -/
def copyStream : Nat := 4

/-- Whole rows of a window from offset `o` on, to be written. -/
def rowWrites (o rows : Nat) (f : Nat → Line) : List RowWrite :=
  (List.range rows).map fun i =>
    { row := o / 128 + i, data := f i, left := BitVec.allOnes 128, full := BitVec.allOnes 128 }

/-- The bytes of the aligned words of a row that 32 bits name. -/
def wordBytes (bits : BitVec 32) : LineMask :=
  (List.range 32).foldl (fun m j => if bits.getLsbD j then m ||| maskOf (4 * j) 4 else m) 0

/-- The words of the `i`-th row that an operation writes first (R39): a free choice. -/
def firstWords (steps i : Nat) : LineMask :=
  wordBytes ((Config.stepElems steps).extractLsb' (32 * (i % 128)) 32)

/-- Some words of an operation's rows written. -/
def State.writeRows (s : State) (core slot : Nat) (ws : List RowWrite) (m : Nat → LineMask) : State :=
  ws.zipIdx.foldl (fun s e =>
    let left := e.1.left &&& m e.2
    if left == 0 then s else s.putWinRow core slot e.1.row e.1.data left) s

/-- What an operation has still to write after its first words. -/
def restRows (ws : List RowWrite) (first : Nat → LineMask) : List RowWrite :=
  ws.zipIdx.map fun e => { e.1 with left := e.1.left &&& ~~~first e.2 }

/-- An RCOPY of the turn's group, whose rows are `ws`, under way: its first words written, one TL operation
more. -/
def State.queueCopy (s : State) (ws : List RowWrite) (lo : Nat) : State :=
  let first := firstWords s.steps
  (s.writeRows s.cur.core s.cur.slot ws first).updGroup s.cur.core s.cur.slot fun g =>
    let o : MOp := { kind := .rest (restRows ws first) [] none, acc := 0, seq := s.steps, pc := s.cur.pc
                     iword := s.cur.iword, lane := lo, views := g.views }
    { g with
      streams := listUpd (fun l => l ++ [o]) g.streams copyStream
      cnt := { g.cnt with tl := g.cnt.tl + 1 } }

/-- RCOPY: once nothing is still to be written to its rows it reads its source and writes some of its
words; the others are pending writes of their rows until the copy's event (MATRIX_STEP on `copyStream`). Which
words are first is a free choice (R39). -/
def State.rcopyM (s : State) (p : Pred) (a b : Reg) (rows : BitVec 12) : M State :=
  s.groupM p fun g _ lo => do
    needRegs g [a.toNat, b.toNat] lo
    waitClass g .tl
    let x := s.core s.cur.core
    let src := (g.reg x a.toNat lo).toNat
    let dst := (g.reg x b.toNat lo).toNat
    let n := rows.toNat + 1
    trapIf (src % 128 != 0 || dst % 128 != 0) .misaligned lo
    trapIf (!(g.inWindow src (128 * n) && g.inWindow dst (128 * n))) .regBounds lo
    let is := List.range n
    waitIf (g.writesTo [(src, src + 128 * n), (dst, dst + 128 * n)] ||
      is.any fun i => !(g.rowQuiet x (src + 128 * i) && g.rowQuiet x (dst + 128 * i)))
    let ws := rowWrites dst n fun i => BitVec.ofNat 1024 (g.winNat x (src + 128 * i) 128)
    .ok (s.queueCopy ws lo).next

/-- RCOPY (R177). -/
def execRcopy (p : Pred) (a b : Reg) (rows : BitVec 12) (s : State) :
    Host.Outcome State Fault Refusal := run s (s.rcopyM p a b rows)

end Sys2Proof.Machine
end

