-- ==== Sys2Proof/Machine/Sealing.lean ====
section
/-! DEFINITION. Tensor records, the sealed-handle table, SEAL and HQRY (R218 to R223). -/

namespace Sys2Proof.Machine

/-! ## Tensor records (R218, R219) -/

/-- Word `i` of a record. -/
def recWord (ws : List DWord) (i : Nat) : DWord := (ws[i]?).getD 0

/-- RANK. -/
def recRank (ws : List DWord) : Nat := fld (recWord ws 2) 8 2

/-- DIMk. -/
def recDim (ws : List DWord) (k : Nat) : Nat := fld (recWord ws (3 + k / 2)) (32 * (k % 2)) 32

/-- STRk in bytes, for k from 1. -/
def recStr (ws : List DWord) (k : Nat) : Nat := fld (recWord ws (4 + k)) 0 44

/-- Bytes from the first to the last byte of the last element. -/
def recSpan (ws : List DWord) (fmt : Nat) : Nat :=
  ((recDim ws 0 - 1) * es2 fmt) / 2 +
  ([1, 2, 3].foldl (fun n k => n + (recDim ws k - 1) * recStr ws k) 0) + (es2 fmt + 1) / 2

/-- Scale bytes of a nib tensor. -/
def recScales (ws : List DWord) : Nat := recDim ws 0 / 128 * recDim ws 1 * recDim ws 2 * recDim ws 3

/-- Items 1 to 4 and the form of 6 of R219, for a record whose slot word is `slot`. -/
def recFormOk (ws : List DWord) (slot : DWord) : Bool :=
  let rank := recRank ws
  let fmt := slotFmt slot
  let base := fld (recWord ws 0) 0 44
  fld (recWord ws 2) 3 5 == 0 && fld (recWord ws 2) 10 54 == 0 &&
  ([1, 2, 3].all fun k => fld (recWord ws (4 + k)) 44 20 == 0) &&
  ([0, 1, 2, 3].all fun k => recDim ws k != 0) &&
  ([1, 2, 3].all fun k => decide (k ≤ rank) || (recDim ws k == 1 && recStr ws k == 0)) &&
  slotOk slot &&
  (fmt != 6 || recDim ws 0 % 128 == 0) &&
  ([1, 2, 3].all fun k => decide (k > rank) ||
    (decide (2 * recStr ws k ≥ recDim ws (k - 1) * (if k = 1 then es2 fmt else 2 * recStr ws (k - 1))) &&
     (fmt == 6 || 2 * recStr ws k % es2 fmt == 0))) &&
  (fmt == 6 || 2 * base % es2 fmt == 0) &&
  (fmt == 6 || recWord ws 1 == 0)

/-- Item 5 under one descriptor: valid, not ink, the span inside the object. -/
def Desc.spans (d : Desc) (p : DWord) (n : Nat) : Bool :=
  d.v && d.type != some .ink && decide (ptrOfs p + n ≤ d.length) && decide (ptrOfs p + n ≤ 2 ^ 44)

/-- Item 5 of R219: `n` bytes at `p`, by the descriptor cache with the single re-fetch of R74; with the
cache as it leaves it. -/
def State.spanOk (s : State) (core ctx : Nat) (c : DCache) (p : DWord) (n : Nat) : Bool × DCache :=
  let on := ptrOn p
  if on = 0 ∨ on ≥ (s.ctx ctx).otl then (false, c)
  else
    let fresh := fetchDesc s core ctx on
    let d := (descFind c ctx on).getD fresh
    if d.spans p n then (true, descPut c ctx on d) else (fresh.spans p n, descPut c ctx on fresh)

/-- A record is well formed (R219). -/
def State.recOk (s : State) (core ctx : Nat) (c : DCache) (ws : List DWord) (slot : DWord) : Bool × DCache :=
  if !recFormOk ws slot then (false, c)
  else
    let r := s.spanOk core ctx c (recWord ws 0) (recSpan ws (slotFmt slot))
    if !r.1 || slotFmt slot != 6 then r
    else s.spanOk core ctx r.2 (recWord ws 1) (recScales ws)

/-- The slot word a record names in the sealing group. -/
def Group.recSlot (g : Group) (ws : List DWord) : DWord := g.slot (fld (recWord ws 2) 0 3)

/-- The first of the lanes' records that is ill-formed; with the cache as the checks leave it. -/
def State.badRec (s : State) (core : Nat) (g : Group) :
    DCache → List (Nat × List DWord) → Option (Nat × List DWord) × DCache
  | c, [] => (none, c)
  | c, r :: rs =>
    let q := s.recOk core g.ctx c r.2 (g.recSlot r.2)
    if q.1 then s.badRec core g q.2 rs else (some r, q.2)

/-! ## SEAL (R220 to R222) -/

/-- The lowest free entry of a core's table. -/
def Core.freeHandle (x : Core) : Option Nat := firstBelow 256 fun i => (tabFind x.handles i).isNone

/-- The eight words of the record at a scratchpad address. -/
def State.recAt (s : State) (core team a : Nat) : List DWord :=
  (List.range 8).map fun i => BitVec.ofNat 64 (s.scrNat core team (a + 8 * i) 8)

/-- Handles taken for the lanes' records in ascending order; 0xFFFF_FFFF where none is free. -/
def Core.sealAll (x : Core) (g : Group) : List (Nat × List DWord) → List (Nat × Word) × Core
  | [] => ([], x)
  | (l, ws) :: r =>
    match x.freeHandle with
    | none =>
      let q := x.sealAll g r
      ((l, 0xFFFFFFFF#32) :: q.1, q.2)
    | some h =>
      let e : Handle := { team := g.team, words := ws, slot := g.recSlot ws }
      let y : Core := { x with handles := tabSet x.handles h e }
      let q := y.sealAll g r
      ((l, BitVec.ofNat 32 h) :: q.1, q.2)

/-- SEAL. -/
def State.sealM (s : State) (c : Ctl) (d a : Reg) : M State :=
  s.memM c fun g x t lo => do
    needRegs g [a.toNat, d.toNat] lo
    waitClass g .ld
    uCheck g x c.u t lo [a.toNat]
    let core := s.cur.core
    let ls := accessLanes c.u t lo
    let addr := fun l => (g.reg x a.toNat l).toNat
    match ls.find? fun l => addr l % 64 != 0 || decide (addr l + 64 > s.scrSize g.team core) with
    | some l => trapAddr (if addr l % 64 ≠ 0 then .misaligned else .segLimit) l (BitVec.ofNat 64 (addr l))
    | none =>
      parkIf (!(ls.all fun l => s.present core g.team (addr l)))
      let recs := ls.map fun l => (l, s.recAt core g.team (addr l))
      let b := s.badRec core g x.desc recs
      match b.1 with
      | some r => (s.setDesc core b.2).raise ⟨.sealBad, r.1, BitVec.ofNat 64 (addr r.1), 0⟩
      | none =>
        let q := { x with desc := b.2 }.sealAll g recs
        let s1 := s.setCore core q.2
        let s2 := if c.u then
            s1.putAll t d.toNat (match q.1.head? with | some e => e.2 | none => 0)
          else s1.putRegs core s.cur.slot (q.1.map fun e => (e.1, d.toNat, e.2))
        .ok (s2.next.close true)

/-- SEAL (R222). -/
def execSeal (c : Ctl) (d a : Reg) (s : State) : Host.Outcome State Fault Refusal :=
  run s (s.sealM c d a)

/-- SEAL.rel. -/
def State.sealRelM (s : State) (c : Ctl) (a : Reg) : M State :=
  s.memM c fun g x t lo => do
    needRegs g [a.toNat] lo
    uCheck g x c.u t lo [a.toNat]
    let hs := (accessLanes c.u t lo).map fun l => (l, (g.reg x a.toNat l).toNat)
    let bad := fun (h : Nat) => match tabFind x.handles h with
      | some e => decide (h > 255) || e.team != g.team
      | none => true
    match hs.find? fun e => bad e.2 with
    | some e => trapAt .sealBad e.1
    | none =>
      .ok ((s.updCore s.cur.core fun x => { x with
        handles := hs.foldl (fun t e => tabErase t e.2) x.handles }).next.close true)

/-- SEAL.rel (R222). -/
def execSealRel (c : Ctl) (a : Reg) (s : State) : Host.Outcome State Fault Refusal :=
  run s (s.sealRelM c a)

/-- HQRY's word (R223). -/
def Core.hqry (x : Core) (team h sel : Nat) : DWord :=
  match (if h > 255 then none else tabFind x.handles h) with
  | none => 0
  | some e =>
    if sel < 8 then recWord e.words sel
    else if sel = 8 then e.slot
    else BitVec.ofNat 64 (1 + 2 * b2n (e.team == team))

/-- HQRY (R223). -/
def execHqry (c : Ctl) (d a : Reg) (sel : BitVec 4) (s : State) :
    Host.Outcome State Fault Refusal :=
  run s (s.memM c fun g x t lo => do
    needRegs g [a.toNat, d.toNat, d.toNat + 1] lo
    uCheck g x c.u t lo [a.toNat]
    .ok (s.putRegs s.cur.core s.cur.slot ((lanesOf t).flatMap fun l =>
      let v := x.hqry g.team (g.reg x a.toNat (if c.u then lo else l)).toNat sel.toNat
      [(l, d.toNat, loWord v), (l, d.toNat + 1, hiWord v)])).next)

end Sys2Proof.Machine
end

