-- ==== Sys2Proof/Machine/Copy.lean ====
section
/-! DEFINITION. The copy engine, barrier objects and timeline counters (chapter 07). -/

namespace Sys2Proof.Machine

/-! ## VALIDATE (R126) -/

/-- Check 1. -/
def CopyReq.formOk (q : CopyReq) : Bool :=
  let w3 := q.word 3
  let local_ := fld (q.word 1) 44 20 == 0
  !w3.getLsbD 7 && fld w3 56 8 == 0 && locOk (q.word 0) && locOk (q.word 1) && q.rowLen != 0 &&
  (q.rows == 1 || decide (q.dpitch ≥ q.rowBytes true)) &&
  (q.mcast == 0 || (local_ && fld (q.word 1) 42 2 == 0)) &&
  ((!q.setv && !q.wcon) || (local_ && fld (q.word 1) 42 2 == 2)) &&
  (!q.converts || (q.fmt false != 6 && q.fmt true != 6) || q.rowLen % 128 == 0)

/-- Scratchpad byte ranges a request touches: (core, end). -/
def CopyReq.scrEnds (q : CopyReq) (core : Nat) : List (Nat × Nat) :=
  (match locOf core (q.word 0) with | .scr c a => [(c, a + q.span false)] | _ => []) ++
  (match locOf core (q.word 1) with
   | .scr _ a => (q.receivers core).map fun c => (c, a + q.span true) | _ => []) ++
  (if q.boe then (q.receivers core).map fun c => (c, q.boa + 16) else [])

/-- Check 2. -/
def State.copySegOk (s : State) (core : Nat) (q : CopyReq) : Bool :=
  (q.scrEnds core).all fun e =>
    match s.setTeam q.team e.1 with
    | none => false
    | some (t, x) => !x.live || decide (e.2 ≤ s.scrSize t e.1)

/-- Check 3. -/
def CopyReq.regOk (q : CopyReq) (core : Nat) : Bool :=
  (match locOf core (q.word 0) with | .reg a => decide (a + q.span false ≤ q.seg.size.toNat) | _ => true) &&
  (match locOf core (q.word 1) with | .reg a => decide (a + q.span true ≤ q.seg.size.toNat) | _ => true)

/-- Check 4. -/
def State.copyPeersOk (s : State) (core : Nat) (q : CopyReq) : Bool :=
  (q.scrEnds core).all fun e => match s.setTeam q.team e.1 with | some (_, x) => x.live | none => true

/-- Check 5 for one side. -/
def CopyReq.sealOk (q : CopyReq) (dst given : Bool) (h : Option Handle) : Bool :=
  !given ||
  (match h with
   | none => false
   | some h =>
     let w := q.word (if dst then 1 else 0)
     h.team == q.team && fld w 44 20 == fld (recWord h.words 0) 44 20 && fld w 44 20 != 0 &&
     decide (ptrOfs (recWord h.words 0) ≤ ptrOfs w) &&
     decide (ptrOfs w + q.span dst ≤ ptrOfs (recWord h.words 0) + recSpan h.words (slotFmt h.slot)))

/-- Why a request is refused: the cause and the pointer its record names, 0 where the check that fails is
none of the global pointers' (the model's reading of R372: R126 does not say). -/
abbrev CopyBad := Cause × DWord

/-- Check 6 for one side, through the core's descriptor cache: the words of the descriptor a global side
passes with, and the cache after it. -/
def State.copyObj (s : State) (core : Nat) (q : CopyReq) (dst : Bool) (cache : DCache) :
    Except CopyBad (Option (DWord × DWord)) × DCache :=
  let w := q.word (if dst then 1 else 0)
  if fld w 44 20 = 0 then (.ok none, cache)
  else
    let r := s.check core q.ctx cache w (q.span dst) (if dst then needStore else needLoad)
    (match r.1 with | .error c => .error (c, w) | .ok d => .ok (some (d.w0, d.w1)), r.2)

/-- The first of checks 1 to 5 that a request fails. -/
def State.copyBad (s : State) (core : Nat) (q : CopyReq) : Option Cause :=
  if !q.formOk then some .illegalOp
  else if !s.copySegOk core q then some .segLimit
  else if !q.regOk core then some .regBounds
  else if !s.copyPeersOk core q then some .peerDead
  else if !(q.sealOk false q.hsv q.hsrc && q.sealOk true q.hdv q.hdst) then some .sealBad
  else none

/-- VALIDATE: the refusal, or the request with the descriptors it passes with. -/
def State.vetCopy (s : State) (core : Nat) (q : CopyReq) (cache : DCache) :
    Except CopyBad CopyReq × DCache :=
  match s.copyBad core q with
  | some c => (.error (c, 0), cache)
  | none =>
    let a := s.copyObj core q false cache
    match a.1 with
    | .error e => (.error e, a.2)
    | .ok ds =>
      let b := s.copyObj core q true a.2
      (match b.1 with | .error e => .error e | .ok dd => .ok { q with dsrc := ds, ddst := dd }, b.2)

/-- VALIDATE of a list's requests in order: the first refusal with the request's index, or all of them. -/
def State.vetCopies (s : State) (core : Nat) : DCache → List CopyReq → Except (CopyBad × Nat) (List CopyReq) × DCache
  | cache, [] => (.ok [], cache)
  | cache, q :: r =>
    let a := s.vetCopy core q cache
    match a.1 with
    | .error e => (.error (e, q.idx), a.2)
    | .ok v =>
      let b := s.vetCopies core a.2 r
      (b.1.map fun l => v :: l, b.2)

/-! ## KICK (R125) -/

/-- Request `i` of a list, as read at KICK; RC as the requests before it leave it (R211). -/
def State.kickReq (s : State) (g : Group) (a i : Nat) (rc : BitVec 24) : CopyReq :=
  let core := s.cur.core
  let ws := (List.range 4).map fun j => BitVec.ofNat 64 (s.scrNat core g.team (a + 32 * i + 8 * j) 8)
  let w3 := recWord ws 3
  let h := fun given lo => if given then tabFind (s.core core).handles (fld w3 lo 8) else none
  { seq := 0, slot := s.cur.slot, team := g.team, ctx := g.ctx, gid := s.tid g, words := ws, seg := g.segReg,
    hsrc := h (w3.getLsbD 24) 8, hdst := h (w3.getLsbD 25) 16, pc := s.cur.pc, iword := s.cur.iword,
    idx := i, rc := rc, gidx := g.gidx, width := g.width, clr := [], dsrc := none, ddst := none,
    epoch := g.epoch, old := false, toClear := [] }

/-- The request rounds stochastically. -/
def CopyReq.stochastic (q : CopyReq) : Bool :=
  match q.hdst with | some h => slotRnd h.slot == 2 | none => false

/-- A list's requests, and RC after them. -/
def State.kickReqs (s : State) (g : Group) (a : Nat) : Nat → Nat → BitVec 24 → List CopyReq × BitVec 24
  | _, 0, rc => ([], rc)
  | i, n + 1, rc =>
    let q := s.kickReq g a i rc
    let r := s.kickReqs g a (i + 1) n (if q.stochastic then rc + 1 else rc)
    (q :: r.1, r.2)

/-- Presence bits of lines a request of team `tn` writes cleared, or set, at their receivers (R131). -/
def State.markPresence (s : State) (tn : Nat) (set : Bool) (ls : List (Nat × Nat)) : State :=
  ls.foldl (fun (s : State) e =>
    match s.setTeam tn e.1 with
    | none => s
    | some (t, _) => match s.scrRow e.1 t e.2 with
      | some k => s.updCore e.1 fun x =>
          { x with presClr := (if set then [] else [k]) ++ x.presClr.filter (· != k) }
      | none => s) s

/-- A request takes the queue's last place. -/
def Core.queueCopy (x : Core) (q : CopyReq) : Core :=
  { x with copyq := x.copyq ++ [{ q with seq := x.copySeq }], copySeq := x.copySeq + 1 }

/-- A request joins the queue: its window rows have a write pending, and with CLRP its presence bits at
its own core clear, while the clears for other cores are on their way. -/
def State.enqueue (s : State) (core : Nat) (q : CopyReq) : State :=
  let ls := if q.clrp then q.dstLines core else []
  let q1 := { q with clr := ls, toClear := ls.filter fun e => e.1 != core }
  (s.markPresence q.team false (ls.filter fun e => e.1 == core)).updCore core fun x =>
    (q.regRows core).foldl Core.pendRow (x.queueCopy q1)

/-- KICK; one that names no request closes its stage too (R340 lists KICK without exception). -/
def State.kickM (s : State) (p : Pred) (a b : Reg) : M State :=
  s.groupM p fun g _ lo => do
    needRegs g [a.toNat, b.toNat] lo
    let core := s.cur.core
    let x := s.core core
    let addr := (g.reg x a.toNat lo).toNat
    let n := (g.reg x b.toNat lo).toNat
    trapIf (decide (n ≥ 32)) .segLimit lo
    if n = 0 then .ok (s.next.close true)
    else do
      trapIf (addr % 32 != 0) .misaligned lo (BitVec.ofNat 64 addr)
      trapIf (decide (addr + 32 * n > s.scrSize g.team core)) .segLimit lo (BitVec.ofNat 64 addr)
      waitIf (decide (g.cnt.cp + n > 31) || decide (x.requests.length + n > 128))
      let qs := s.kickReqs g addr 0 n g.rc
      let v := s.vetCopies core x.desc qs.1
      let s0 := s.setDesc core v.2
      match v.1 with
      | .error ((c, w), i) => s0.raise ⟨c, lo, w, i⟩
      | .ok l =>
        let s1 := l.foldl (fun s q => s.enqueue core q) s0
        .ok ((s1.updGroup core s.cur.slot fun g => { g with
          rc := qs.2, cnt := { g.cnt with cp := g.cnt.cp + n } }).next.close true)

/-- KICK (R125, R126). -/
def execKick (p : Pred) (a b : Reg) (s : State) : Host.Outcome State Fault Refusal :=
  run s (s.kickM p a b)

/-! ## Barrier objects (R135, R136) -/

/-- The granule of a barrier object, named as the core's tag list names it. -/
def State.granule (s : State) (core team addr : Nat) : Option Nat :=
  (s.scrRow core team (addr / 128)).map fun k => 8 * k + addr % 128 / 16

/-- The object's BO tag. -/
def State.boTagged (s : State) (core team addr : Nat) : Bool :=
  match s.granule core team addr with
  | some g => (s.core core).boTag.contains g
  | none => false

/-- A barrier object's fields: REMAIN, ARRIVED, STATE, ROUND. -/
structure BObj where
  remain : Word
  arrived : Word
  state : Nat
  round : BitVec 16
  deriving DecidableEq, Repr

/-- The object at an address. -/
def State.bo (s : State) (core team addr : Nat) : BObj :=
  let w0 := BitVec.ofNat 64 (s.scrNat core team addr 8)
  let w1 := BitVec.ofNat 64 (s.scrNat core team (addr + 8) 8)
  { remain := loWord w0, arrived := hiWord w0, state := fld w1 0 2, round := w1.extractLsb' 16 16 }

/-- The object's two words. -/
def BObj.nat (o : BObj) : Nat :=
  o.remain.toNat + 2 ^ 32 * o.arrived.toNat + 2 ^ 64 * (o.state + 2 ^ 16 * o.round.toNat)

/-- The object written, with its tag set. Its bytes are marked in every undo line of the cluster's cores, as
bytes the engine wrote are, so that neither a pre-emption nor a rollback puts older ones back (R140, R345). -/
def State.putBo (s : State) (core team addr : Nat) (o : BObj) : State :=
  match s.scrRow core team (addr / 128) with
  | none => s
  | some k =>
    let m := maskOf (addr % 128) 16
    let gr := 8 * k + addr % 128 / 16
    let s1 := s.updCore core fun x => { x.putRow k (lineSet 0 (addr % 128) 16 o.nat) m with
      boTag := gr :: x.boTag.filter (· != gr) }
    [0, 1, 2, 3].foldl (fun (s : State) i =>
      s.updCore (core / 4 * 4 + i) fun x => x.markEngine (.scr core team (addr / 128)) m) s1

/-- The groups parked in BOWAIT on an object are told how their wait ends, whatever the object does
afterwards (R136, R137). -/
def State.boEnd (s : State) (core team addr : Nat) (e : BoEnd) : State :=
  let tell := fun (g : Group) =>
    if g.team == team && g.parkBo == some (addr, none) then { g with parkBo := some (addr, some e) } else g
  s.updCore core fun x => { x with groups := x.groups.map fun k => (k.1, tell k.2) }

/-- RELEASE (R136): ROUND rises and every group parked in BOWAIT on the object completes it. -/
def State.boRelease (s : State) (core team addr : Nat) (o : BObj) : State :=
  (s.putBo core team addr { o with round := o.round + 1 }).boEnd core team addr .released

/-- An object whose tag is clear becomes BROKEN by an arrival of some bytes (R136, R134). -/
def State.boBreak (s : State) (core team addr : Nat) (n : Word) : State :=
  (s.putBo core team addr { remain := 0 - n, arrived := n, state := 2, round := 0 }).boEnd core team addr .broken

/-- An arrival of k bytes at a barrier object. -/
def State.boArrive (s : State) (core team addr k : Nat) : State :=
  let n := BitVec.ofNat 32 k
  if !s.boTagged core team addr then s.boBreak core team addr n
  else
    let o := s.bo core team addr
    let o1 := { o with remain := o.remain - n, arrived := o.arrived + n }
    if o.state = 1 ∧ o1.remain = 0 then s.boRelease core team addr o1
    else s.putBo core team addr o1

/-- A failed request's mark on a receiver's object (R134). -/
def State.boFail (s : State) (core team addr : Nat) : State :=
  if !s.boTagged core team addr then s.boBreak core team addr 0
  else
    let o := s.bo core team addr
    if o.state = 2 then s
    else (s.putBo core team addr { o with state := 3 }).boEnd core team addr .failed

/-- An object's address of the turn's group: MISALIGNED, SEG_LIMIT (R137). -/
def State.boAddr (s : State) (g : Group) (a : Reg) (ofs : BitVec 18) (lo : Nat) : M Nat := do
  let o := g.local32 (s.core s.cur.core) a ofs lo
  trapIf (o % 16 != 0) .misaligned lo (BitVec.ofNat 64 o)
  trapIf (decide (o + 16 > s.scrSize g.team s.cur.core)) .segLimit lo (BitVec.ofNat 64 o)
  .ok o

/-- BOINIT (R137). -/
def execBoinit (p : Pred) (a : Reg) (ofs : BitVec 18) (s : State) :
    Host.Outcome State Fault Refusal :=
  run s (s.groupM p fun g _ lo => do
    needRegs g [a.toNat] lo
    let o ← s.boAddr g a ofs lo
    .ok ((s.putBo s.cur.core g.team o { remain := 0, arrived := 0, state := 0, round := 0 }).next.close true))

/-- The traps of an object that cannot be armed or waited on (R137). -/
def State.boCheck (s : State) (team o lo : Nat) : M BObj := do
  let b := s.bo s.cur.core team o
  trapIf (!s.boTagged s.cur.core team o || b.state == 2) .bobjOrphan lo (BitVec.ofNat 64 o)
  trapIf (b.state == 3) .extAbsent lo (BitVec.ofNat 64 o)
  .ok b

/-- BOARM (R137). -/
def execBoarm (p : Pred) (a b : Reg) (ofs : BitVec 18) (s : State) :
    Host.Outcome State Fault Refusal :=
  run s (s.groupM p fun g _ lo => do
    needRegs g [a.toNat, b.toNat] lo
    let core := s.cur.core
    let o ← s.boAddr g a ofs lo
    let v ← s.boCheck g.team o lo
    let w : BObj := { v with remain := v.remain + g.reg (s.core core) b.toNat lo, state := 1 }
    let s1 := if w.remain = 0 then s.boRelease core g.team o w else s.putBo core g.team o w
    .ok (s1.next.close true))

/-- An acquire point of the turn's core at device scope (R139, R301). -/
def State.acquireDev (s : State) : State := s.acquire s.cur.core [] true

/-- BOWAIT (R137): parked, it ends as the object's release, break or failure says, whatever the object
does afterwards. -/
def execBowait (p : Pred) (a : Reg) (ofs : BitVec 18) (s : State) :
    Host.Outcome State Fault Refusal :=
  run s (s.groupM p fun g _ lo => do
    needRegs g [a.toNat] lo
    let o ← s.boAddr g a ofs lo
    if g.parkBo = some (o, none) then .error .park
    else if g.parkBo = some (o, some .released) then .ok s.acquireDev.next
    else if g.parkBo = some (o, some .broken) then trapAddr .bobjOrphan lo (BitVec.ofNat 64 o)
    else if g.parkBo = some (o, some .failed) then trapAddr .extAbsent lo (BitVec.ofNat 64 o)
    else do
      let v ← s.boCheck g.team o lo
      if v.state = 1 ∧ v.remain = 0 then .ok s.acquireDev.next
      else .error (.state (s.park.updGroup s.cur.core s.cur.slot fun g =>
        { g with parkBo := some (o, none) })))

/-- BOTEST (R137); in deterministic mode it writes zero and so acquires nothing. -/
def execBotest (p : Pred) (d a : Reg) (ofs : BitVec 18) (s : State) :
    Host.Outcome State Fault Refusal :=
  run s (s.groupM p fun g t lo => do
    needRegs g [a.toNat, d.toNat] lo
    let o ← s.boAddr g a ofs lo
    let tag := s.boTagged s.cur.core g.team o
    let v := s.bo s.cur.core g.team o
    let done := tag && v.state == 1 && v.remain == 0
    let w := v.state + 4 * b2n done + 8 * b2n tag + 2 ^ 16 * v.round.toNat
    let s1 := if done && !g.det then s.acquireDev else s
    .ok ((s1.putAll t d.toNat (BitVec.ofNat 32 (if g.det then 0 else w))).next.updGroup
      s.cur.core s.cur.slot fun g => g.sticky false))

/-! ## Timelines (R138, R139) -/

/-- A core's counter. -/
def Core.tlVal (x : Core) (tl : BitVec 4) : DWord := (x.tl[tl.toNat]?).getD 0

/-- TLWAIT (R139). -/
def execTlwait (p : Pred) (a : Reg) (tl : BitVec 4) (s : State) : Host.Outcome State Fault Refusal :=
  run s (s.groupM p fun g _ lo => do
    needRegs g [a.toNat, a.toNat + 1] lo
    let x := s.core s.cur.core
    parkIf (decide ((x.tlVal tl).toNat < (g.pair x a.toNat lo).toNat))
    .ok s.acquireDev.next)

/-- TLREAD (R139). -/
def execTlread (p : Pred) (d : Reg) (tl : BitVec 4) (s : State) : Host.Outcome State Fault Refusal :=
  run s (s.groupM p fun g t lo => do
    needRegs g [d.toNat, d.toNat + 1] lo
    let v := if g.det then 0 else (s.core s.cur.core).tlVal tl
    .ok ((s.putAll64 t d.toNat v).next.updGroup s.cur.core s.cur.slot fun g => g.sticky false))

/-! ## Reading a source (R127, R130, R133) -/

/-- What reading, or reaching a place, comes to: a wait, an absent extent or a die out of service with the
pointer there, a COMBINE that meets poison at a physical address (R103), or a value. -/
inductive CRead (α : Type) where
  | wait
  | absent (on ext : Nat) (p : DWord)
  | offline (p : DWord)
  | bad (pa : Nat)
  | ok (v : α)

/-- A value taken further. -/
def CRead.bind {α β : Type} (r : CRead α) (k : α → CRead β) : CRead β :=
  match r with
  | .wait => .wait
  | .absent on e p => .absent on e p
  | .offline p => .offline p
  | .bad pa => .bad pa
  | .ok v => k v

/-- The descriptor by which a request's side reaches `p`: the one its check passed with, and for scale
bytes the one the core's cache holds (R74). -/
def State.copyDesc (s : State) (core : Nat) (q : CopyReq) (dst : Bool) (p : DWord) : Desc :=
  match (if dst then q.ddst else q.dsrc) with
  | some w => if ptrOn p = ptrOn (q.word (if dst then 1 else 0)) then ⟨w.1, w.2⟩ else s.lookup core q.ctx (ptrOn p)
  | none => s.lookup core q.ctx (ptrOn p)

/-- The physical chunks of `n` bytes at a pointer, by extents. -/
def State.chunks (s : State) (core ctx : Nat) (d : Desc) (p : DWord) : Nat → Nat → CRead (List (Nat × Nat))
  | _, 0 => .ok []
  | 0, _ => .ok []
  | f + 1, n =>
    let len := min n (2 ^ d.extLog - ptrOfs p % 2 ^ d.extLog)
    match s.xlate (clusterOf core) ctx d p with
    | .absent on e => .absent on e p
    | .at pa _ =>
      if (s.die (pa / 2 ^ 38)).out then .offline p
      else (s.chunks core ctx d (mkPtr (ptrOn p) (ptrOfs p + len)) f (n - len)).bind fun r =>
        .ok ((pa, len) :: r)

/-- Physical chunks of a range, with the extents met. -/
def State.range (s : State) (core ctx : Nat) (d : Desc) (p : DWord) (n : Nat) :
    CRead (List (Nat × Nat) × State) :=
  (s.chunks core ctx d p (n / 65536 + 2) n).bind fun cs => .ok (cs, s.rangeMet (clusterOf core) ctx (ptrOn p) d (ptrOfs p) n)

/-- A byte and the poisoned sector it comes from, if it does. -/
abbrev CByte := Byte × Option Sector

/-- Bytes of global memory at their homes: wait while PEND is set; partials are combined first. -/
def State.readHome (s : State) (cs : List (Nat × Nat)) : CRead (List CByte × State) :=
  let lines := dedup (cs.flatMap fun c =>
    (List.range ((c.1 + c.2 + 127) / 128 - c.1 / 128)).map fun i => c.1 / 128 + i)
  if !(lines.all s.homeReady) then .wait
  else match lines.findSome? s.combineBad with
  | some pa => .bad pa
  | none =>
    let s1 := lines.foldl (fun s l => (((s.atHome l).combine l).readLine l).2) s
    .ok (cs.flatMap fun c => (List.range c.2).map fun i =>
      (memRead s1.mem (c.1 + i),
       if s1.poisoned (c.1 + i) 1 then some (memSector (c.1 + i)) else none), s1)

/-! ## The copy engines' channel from one die to another (R6) -/

/-- The die a global piece goes to, where it can arrive. -/
def State.pieceDie (s : State) (core : Nat) (t : Transfer) (p : Piece) : Option Nat :=
  match p.dst with
  | .glb d =>
    (match s.chunks core t.req.ctx (s.copyDesc core t.req true d) d 2 p.bytes.length with
     | .ok ((pa, _) :: _) => some (pa / 2 ^ 38)
     | _ => none)
  | _ => none

/-- A copy's request sent at `now` on a route may not act yet: a piece sent before it on the same route
has not arrived. -/
def State.copyBehind (s : State) (r : Route) (now : Nat) : Bool :=
  r.1 != r.2 && s.cores.any fun e => dieOf e.1 == r.1 && e.2.active.any fun t =>
    !t.failed && t.cause == .none && t.pieces.any fun p =>
      decide (p.sent < now) && s.pieceDie e.1 t p == some r.2

/-- The window a request's REG source lies in: the kicking group's, where it now stands, in a slot or
parked; the one it had at KICK once it has ended (R124). -/
def State.copySeg (s : State) (q : CopyReq) : Seg :=
  match s.seatOf q.ctx q.team q.gidx with
  | .slot _ _ g => g.segReg
  | .parked c key => match (s.core c).parked.find? fun p => p.key == key with
    | some p => p.group.segReg | none => q.seg
  | _ => q.seg

/-- `n` bytes at a place of a request's side. -/
def State.readLoc (s : State) (core : Nat) (q : CopyReq) (l : CLoc) (n : Nat) :
    CRead (List CByte × State) :=
  match l with
  | .glb p =>
    (s.range core q.ctx (s.copyDesc core q false p) p n).bind fun r =>
      if r.1.any fun c => s.copyBehind (dieOf core, c.1 / 2 ^ 38) s.steps then .wait else r.2.readHome r.1
  | .scr c a =>
    let t := match s.setTeam q.team c with | some e => e.1 | none => q.team
    .ok ((List.range n).map fun i =>
      (((s.scrBytes c t (a + i) 1)[0]?).getD 0, s.scrBad c t (a + i) 1), s)
  | .reg a =>
    let x := s.core core
    let seg := s.copySeg q
    .ok ((List.range n).map fun i =>
      let o := seg.base.toNat + a + i
      match x.rowKey ⟨false, o⟩ with
      | some k =>
        let sec := 4 * k + o % 128 / 32
        (lineByte (x.row k) (o % 128), if x.wellPoison.contains sec then some ⟨some core, sec⟩ else none)
      | none => (0, none), s)

/-- A place moved by bytes. -/
def CLoc.add (l : CLoc) (n : Nat) : CLoc :=
  match l with
  | .glb p => .glb (mkPtr (ptrOn p) (ptrOfs p + n))
  | .scr c a => .scr c (a + n)
  | .reg a => .reg (a + n)

/-! ## The parts a request moves (R77, R133) -/

/-- Bytes `ofs` to `ofs + len` of source row `row`, all in one extent on either side unless the
request converts, when a part is a whole row. -/
structure CopyPart where
  row : Nat
  ofs : Nat
  len : Nat
  deriving DecidableEq, Repr

/-- A place's distance from the last multiple of the least extent size. -/
def CLoc.edge : CLoc → Nat
  | .glb p => ptrOfs p % 65536
  | _ => 0

/-- A row cut where its source or its destination may enter another extent. -/
def cutRow (row a b n : Nat) : Nat → Nat → List CopyPart
  | 0, _ => []
  | f + 1, i =>
    if n ≤ i then []
    else
      let m := min (n - i) (min (65536 - (a + i) % 65536) (65536 - (b + i) % 65536))
      ⟨row, i, m⟩ :: cutRow row a b n f (i + m)

/-- The parts of a request, in the order it moves them. -/
def CopyReq.parts (q : CopyReq) (core : Nat) : List CopyPart :=
  (List.range q.rows).flatMap fun r =>
    let n := q.rowBytes false
    if q.converts then [⟨r, 0, n⟩]
    else
      cutRow r ((locOf core (q.word 0)).edge + q.spitch * r) ((locOf core (q.word 1)).edge + q.dpitch * r)
        n (2 * (n / 65536) + 4) 0

/-- Destination bytes of a part, from the first byte of the destination. -/
def CopyReq.partSpan (q : CopyReq) (u : CopyPart) : Nat × Nat :=
  let o := q.dpitch * u.row
  if q.converts then (o, o + q.rowBytes true) else (o + u.ofs, o + u.ofs + u.len)

/-! ## Converting (R130) -/

/-- The element `b` bytes from BASE in a nib tensor: i0, and i1 + DIM1 × (i2 + DIM2 × i3) (R218). -/
def nibElem (ws : List DWord) (b : Nat) : Nat × Nat :=
  let rank := recRank ws
  let i3 := if rank ≥ 3 then b / max (recStr ws 3) 1 else 0
  let b2 := b - i3 * recStr ws 3
  let i2 := if rank ≥ 2 then b2 / max (recStr ws 2) 1 else 0
  let b1 := b2 - i2 * recStr ws 2
  let i1 := if rank ≥ 1 then b1 / max (recStr ws 1) 1 else 0
  (2 * (b1 - i1 * recStr ws 1), i1 + recDim ws 1 * (i2 + recDim ws 2 * i3))

/-- The handle of a side. -/
def CopyReq.handle (q : CopyReq) (dst : Bool) : Option Handle := if dst then q.hdst else q.hsrc

/-- The first element of row `r` in a side's nib tensor. -/
def CopyReq.rowElem (q : CopyReq) (dst : Bool) (h : Handle) (r : Nat) : Nat × Nat :=
  nibElem h.words (ptrOfs (q.word (if dst then 1 else 0)) + r * (if dst then q.dpitch else q.spitch)
    - ptrOfs (recWord h.words 0))

/-- How far into its block the first element of row `r` lies; 0 without a handle. -/
def CopyReq.lead (q : CopyReq) (dst : Bool) (r : Nat) : Nat :=
  match q.handle dst with | some h => (q.rowElem dst h r).1 % 128 | none => 0

/-- The blocks that row `r` meets on a side, counted from the one its first element lies in. -/
def CopyReq.blocks (q : CopyReq) (dst : Bool) (r : Nat) : List Nat :=
  List.range ((q.lead dst r + q.rowLen + 127) / 128)

/-- The pointer of a nib side's scale byte for block `blk` of row `r` (R218); none without a handle. A row
that runs past DIM0 goes on counting blocks from its first element: where the strides leave no gap this is
R218's count, and bytes in a gap belong to no element (the model's choice). -/
def CopyReq.scalePtr (q : CopyReq) (dst : Bool) (r blk : Nat) : Option DWord :=
  (q.handle dst).map fun h =>
    let e := q.rowElem dst h r
    mkPtr (ptrOn (recWord h.words 1))
      (ptrOfs (recWord h.words 1) + (e.1 / 128 + blk + recDim h.words 0 / 128 * e.2))

/-- Scale bytes of a nib source's row, one a block. -/
def State.readScales (s : State) (core : Nat) (q : CopyReq) (r : Nat) :
    List Nat → CRead (List CByte × State)
  | [] => .ok ([], s)
  | blk :: rest =>
    let one : CRead (List CByte × State) := match q.scalePtr false r blk with
      | some p => s.readLoc core q (.glb p) 1
      | none => .ok ([(Config.nibScale s.steps (r * (q.rowLen / 128) + blk), none)], s)
    one.bind fun b =>
      (b.2.readScales core q r rest).bind fun l => .ok (b.1 ++ l.1, l.2)

/-- The value of element `k` of row `r` (R207, R210). -/
def CopyReq.srcVal (q : CopyReq) (r : Nat) (row scales : List CByte) (k : Nat) : Val :=
  let f := q.fmt false
  let v := natOfBytes (row.map Prod.fst)
  if f = 6 then
    nibDecode (match scales[(q.lead false r + k) / 128]? with | some b => b.1.toNat | none => 0)
      (v / 2 ^ (4 * k) % 16)
  else decodeVal f (v / 2 ^ (fmtBits f * k) % 2 ^ fmtBits f)

/-- The rounding of destination element `n` of the request (R211). -/
def CopyReq.rounding (q : CopyReq) (rkey : BitVec 128) (n : Nat) : Rnd :=
  match q.hdst with
  | some h => slotRounding h.slot
      (flourish rkey (512 + q.gidx) (n % 2 ^ 16) (2 ^ 24 * (q.gid % 2 ^ 24) + q.rc.toNat))
  | none => .rne

/-- A converted row: its bytes and, for a nib destination, its scale bytes, one for each block the row meets,
from the row's elements in it. A destination without a handle has no rounding, saturation or nib type of its
own, and no scale bytes: the model rounds it to nearest even, gives it the source slot's saturation and nib
type, and writes no scale byte (the model's choice; R130 gives such a side its format only). -/
def CopyReq.convertRow (q : CopyReq) (rkey : BitVec 128) (r : Nat) (row scales : List CByte) :
    List Byte × List Byte :=
  let f := q.fmt true
  let slot := match q.hdst with
    | some h => h.slot
    | none => match q.hsrc with | some h => h.slot | none => 0
  let vals := (List.range q.rowLen).map fun k => q.srcVal r row scales k
  let rnd := fun k => q.rounding rkey (r * q.rowLen + k)
  if f = 6 then
    let t := slotNtype slot
    let m := q.lead true r
    let sc := (q.blocks true r).map fun b =>
      scaleByte t ((vals.take (128 * (b + 1) - m)).drop (128 * b - m))
    let codes := vals.zipIdx.map fun v =>
      let e : Nat := ((sc[(m + v.2) / 128]?).getD 0) % 64
      if e = 63 then 0 else nibEncode t (rnd v.2) (v.1.scale (32 - (e : Int)))
    (bytesOfNat (q.rowLen / 2) (packElems 4 codes), sc.map (BitVec.ofNat 8))
  else
    let n := fmtBits f
    (bytesOfNat (q.rowLen * n / 8)
      (packElems n (vals.zipIdx.map fun v => encodeVal f (rnd v.2) (slotSat slot) v.1)), [])

/-! ## Pieces (R129, R136) -/

/-- Poison marks of bytes as sectors of their line. -/
def poisonOf (a : Nat) (bs : List CByte) : BitVec 4 :=
  bs.zipIdx.foldl (fun (m : BitVec 4) e =>
    if e.1.2.isSome then m ||| (1#4 <<< ((a + e.2) % 128 / 32)) else m) 0

/-- A run of bytes cut at 128-byte lines: the place of each part, and its bytes. -/
def cutLines (a : Nat) : Nat → Nat → List CByte → List (Nat × List CByte)
  | 0, _, _ => []
  | _, _, [] => []
  | f + 1, i, bs =>
    let n := 128 - (a + i) % 128
    (i, bs.take n) :: cutLines a f (i + n) (bs.drop n)

/-- The pieces that bring a row's bytes to one receiver, sent at `now`. -/
def rowPieces (now recv : Nat) (dst : DstByte) (a : Nat) (count : Bool) (bs : List CByte) : List Piece :=
  (cutLines a (bs.length / 128 + 2) 0 bs).map fun e =>
    { recv := recv,
      dst := match dst with
        | .glb p => .glb (mkPtr (ptrOn p) (ptrOfs p + e.1))
        | .scr c t x => .scr c t (x + e.1)
        | .reg o => .reg (o + e.1)
      bytes := e.2.map Prod.fst, poison := poisonOf (a + e.1) e.2, count := count, sent := now }

/-- The pieces of bytes that go `o` bytes past the destination's first, at every receiver. -/
def State.piecesOf (s : State) (core : Nat) (q : CopyReq) (o : Nat) (bs : List CByte) : List Piece :=
  match locOf core (q.word 1) with
  | .glb p => rowPieces s.steps core (.glb (mkPtr (ptrOn p) (ptrOfs p + o))) (ptrOfs p + o) true bs
  | .reg a => rowPieces s.steps core (.reg (a + o)) (q.seg.base.toNat + a + o) true bs
  | .scr _ a =>
    (q.receivers core).flatMap fun c =>
      let t := match s.setTeam q.team c with | some e => e.1 | none => q.team
      rowPieces s.steps c (.scr c t (a + o)) (a + o) true bs

/-- Everything a part will write. The scale bytes of a converted row are no arrivals at the barrier object
(the model's choice: R130 says only that arrivals count destination bytes, and R136 measures a request by its
DST range). -/
def State.partPieces (s : State) (core : Nat) (q : CopyReq) (u : CopyPart) (bs scales : List CByte) :
    List Piece :=
  let o := (q.partSpan u).1
  if q.converts then
    let c := q.convertRow (s.ctx q.ctx).rkey u.row bs scales
    s.piecesOf core q o (c.1.map fun b => (b, none)) ++
    (c.2.zipIdx.flatMap fun b =>
      match q.scalePtr true u.row b.2 with
      | some p => rowPieces s.steps core (.glb p) (ptrOfs p) false [(b.1, none)]
      | none => [])
  else s.piecesOf core q o bs

/-- Global destination ranges all present, with the extents met. -/
def State.dstReady (s : State) (core : Nat) (q : CopyReq) : List Piece → CRead State
  | [] => .ok s
  | p :: r =>
    match p.dst with
    | .glb d => (s.range core q.ctx (s.copyDesc core q true d) d p.bytes.length).bind fun e => e.2.dstReady core q r
    | _ => s.dstReady core q r

/-! ## COPY_START, COPY_RESUME (R127, R133) -/

/-- One part moved: its source read, converted, cut into pieces; or the poisoned sector a converting copy
meets (R134). A COMBINE that the read causes and that meets poison makes any copy fail (R103). -/
def State.movePart (s : State) (core : Nat) (q : CopyReq) (u : CopyPart) :
    CRead (Except Sector (List Piece) × State) :=
  (s.readLoc core q (((locOf core (q.word 0)).add (q.spitch * u.row)).add u.ofs) u.len).bind fun a =>
  (if q.converts && q.fmt false == 6 then
    a.2.readScales core q u.row (q.blocks false u.row) else .ok ([], a.2)).bind fun b =>
  match (if q.converts then (a.1 ++ b.1).findSome? Prod.snd else none) with
  | some sec => .ok (.error sec, b.2)
  | none =>
    let ps := b.2.partPieces core q u a.1 b.1
    (b.2.dstReady core q ps).bind fun t => .ok (.ok ps, t)

/-- Parts moved in order, until one must wait, meets an absent extent or makes the request fail. -/
def State.moveParts (s : State) (core : Nat) (t : Transfer) : List CopyPart → State × Transfer
  | [] => (s, { t with paused := none })
  | u :: r =>
    match s.movePart core t.req u with
    | .wait => (s, { t with paused := none })
    | .absent on e p => (s, { t with paused := some (on, e), addr := p })
    | .offline p => (s, { t with paused := none, cause := .homeOffline, addr := p })
    | .bad pa => (s.readSector (sectorOf pa),
        { t with paused := none, cause := .ueConsumed, addr := (memSector pa).addr })
    | .ok (.error sec, s1) => (s1, { t with paused := none, cause := .ueConsumed, addr := sec.addr })
    | .ok (.ok ps, s1) =>
      s1.moveParts core { t with pieces := t.pieces ++ ps, next := t.next + 1 } r

/-- Every source byte of a transfer has been read. -/
def Transfer.allRead (t : Transfer) (core : Nat) : Bool := decide ((t.req.parts core).length ≤ t.next)

/-- A transfer goes on from where it stands. -/
def State.moveOn (s : State) (core : Nat) (t : Transfer) : State × Transfer :=
  s.moveParts core t ((t.req.parts core).drop t.next)

/-- A request's CP operation counted off at its group: one queued before the group's counters were last
set to zero (R343) counts no more (the model's choice: R37 and R343 leave it open). -/
def Group.cpOff (g : Group) (q : CopyReq) : Group :=
  if g.epoch = q.epoch then { g with cnt := { g.cnt with cp := g.cnt.cp - 1 } } else g

/-- The request's source has been read: its CP operation completes (R37, R128), wherever its group is. -/
def State.cpDone (s : State) (q : CopyReq) : State :=
  match s.seatOf q.ctx q.team q.gidx with
  | .slot c k _ => s.updGroup c k fun g => g.cpOff q
  | .parked c key => s.updCore c fun x => { x with
      parked := x.parked.map fun p => if p.key == key then { p with group := p.group.cpOff q } else p }
  | _ => s

/-- Bytes a request may write, at their places. -/
def Piece.span (p : Piece) : Nat × Nat × Nat × Nat :=
  match p.dst with
  | .glb d => (0, ptrOn d, ptrOfs d, ptrOfs d + p.bytes.length)
  | .scr c t a => (1, 2 ^ 32 * c + t, a, a + p.bytes.length)
  | .reg o => (2, 0, o, o + p.bytes.length)

/-- Global bytes a request writes, named by object and offset and, where its extents are present, by
physical address, so that two names of one byte meet. -/
def State.glbSpans (s : State) (core : Nat) (q : CopyReq) (p : DWord) (n : Nat) : List (Nat × Nat × Nat × Nat) :=
  (0, ptrOn p, ptrOfs p, ptrOfs p + n) ::
  (match s.chunks core q.ctx (s.copyDesc core q true p) p (n / 65536 + 2) n with
   | .ok cs => cs.map fun c => (3, 0, c.1, c.1 + c.2)
   | _ => [])

/-- The scale bytes a converting request writes in a row (R130). -/
def State.scaleSpans (s : State) (core : Nat) (q : CopyReq) (r : Nat) : List (Nat × Nat × Nat × Nat) :=
  if q.converts && q.fmt true == 6 then
    (q.blocks true r).flatMap fun b =>
      match q.scalePtr true r b with | some p => s.glbSpans core q p 1 | none => []
  else []

/-- The destination ranges of a request, row by row, as a piece's are named. -/
def State.dstSpans (s : State) (core : Nat) (q : CopyReq) : List (Nat × Nat × Nat × Nat) :=
  (List.range q.rows).flatMap fun r => s.scaleSpans core q r ++
    match locOf core (q.word 1) with
    | .glb p => s.glbSpans core q (mkPtr (ptrOn p) (ptrOfs p + q.dpitch * r)) (q.rowBytes true)
    | .reg a => let o := q.seg.base.toNat + a + q.dpitch * r
                [(2, 0, o, o + q.rowBytes true)]
    | .scr _ a => (q.receivers core).map fun c =>
        let t := match s.setTeam q.team c with | some e => e.1 | none => q.team
        (1, 2 ^ 32 * c + t, a + q.dpitch * r, a + q.dpitch * r + q.rowBytes true)

/-- Two requests of a queue write a common byte. -/
def State.copiesMeet (s : State) (core : Nat) (a b : CopyReq) : Bool :=
  (s.dstSpans core a).any fun x => (s.dstSpans core b).any fun y =>
    x.1 == y.1 && x.2.1 == y.2.1 && meets x.2.2 y.2.2

/-- A transfer has bytes still to write. -/
def Transfer.writing (t : Transfer) (core : Nat) : Bool := !t.failed && (!t.pieces.isEmpty || !t.allRead core)

/-- The place of the request that starts next, from place `i` of the queue on: the first, unless it waits
for one that writes a byte it writes. While such a one runs, the engine waits; one that waits for a paused
request lets later requests pass that write no byte it, or the paused one, writes (R127, R133). `held` are
those passed over. -/
def State.nextFrom (s : State) (core : Nat) (held : List CopyReq) : Nat → List CopyReq → Option Nat
  | _, [] => none
  | i, q :: r =>
    let waits := fun (p : Transfer → Bool) =>
      (s.core core).active.any fun t => t.writing core && p t && s.copiesMeet core t.req q
    if waits fun t => t.paused.isNone then none
    else if (waits fun t => t.paused.isSome) || held.any fun b => s.copiesMeet core b q then
      s.nextFrom core (q :: held) (i + 1) r
    else some i

/-- The place in the queue of the request that starts next. -/
def State.nextCopy (s : State) (core : Nat) : Option Nat := s.nextFrom core [] 0 (s.core core).copyq

/-- A transfer has gone on: a pause sends a fault record, the last source byte read counts the CP
completion (R37, R128). -/
def State.moved (s : State) (core : Nat) (t : Transfer) : State :=
  match t.paused with
  | some (on, e) => s.fault { ctx := t.req.ctx, on := on, ext := e, who := .copy core t.req.seq }
  | none => if t.allRead core && t.cause == .none then s.cpDone t.req else s

/-- The presence clears of a queued request reach one of the receivers they are on their way to (R131). -/
def State.clearOne (s : State) (core : Nat) (q : CopyReq) : State :=
  match q.toClear with
  | [] => s
  | (c, _) :: _ =>
    let later := q.toClear.filter fun e => e.1 != c
    let put := fun (u : CopyReq) => if u.seq == q.seq then { u with toClear := later } else u
    (s.markPresence q.team false (q.toClear.filter fun e => e.1 == c)).updCore core fun x =>
      { x with copyq := x.copyq.map put }

/-- The i-th queued request starts, unless it must wait with nothing moved. -/
def State.startCopy (s : State) (core i : Nat) (q : CopyReq) : State :=
  let r := s.moveOn core { req := q, next := 0, pieces := [], paused := none, cause := .none, addr := q.word 0,
                           failed := false, opened := [] }
  let t := r.2
  if t.next = 0 ∧ t.paused.isNone ∧ t.cause = .none then s
  else (r.1.updCore core fun x => { x with
    copyq := listDrop1 x.copyq i, active := x.active ++ [t] }).moved core t

/-- COPY_START: a presence clear under way reaches a receiver, or the request that is next starts, all of
whose own clears have arrived (R131). Which of the two comes first is free. -/
def execCopyStart (core : Nat) (s : State) : Host.Outcome State Fault Refusal :=
  let clears := fun (s : State) => match (s.core core).copyq.find? fun q => !q.toClear.isEmpty with
    | some q => s.clearOne core q | none => s
  match (s.nextCopy core).bind fun i => (s.core core).copyq[i]?.map fun q => (i, q) with
  | none => .next (clears s)
  | some (i, q) =>
    if !q.toClear.isEmpty then .next (s.clearOne core q)
    else if ((s.core core).copyq.any fun q => !q.toClear.isEmpty) && Config.clearFirst core s.steps then
      .next (clears s)
    else .next (s.startCopy core i q)

/-- A running transfer changed. -/
def State.updTransfer (s : State) (core seq : Nat) (f : Transfer → Transfer) : State :=
  s.updCore core fun x => { x with active := x.active.map fun t => if t.req.seq == seq then f t else t }

/-- COPY_RESUME: the n-th running transfer, not all moved, goes on (R133). -/
def execCopyResume (core n : Nat) (s : State) : Host.Outcome State Fault Refusal :=
  match (s.core core).active[n]? with
  | none => .next s
  | some t =>
    if t.failed || t.cause != .none || t.allRead core then .next s
    else
      let r := s.moveOn core t
      .next ((r.1.updTransfer core t.req.seq fun _ => r.2).moved core r.2)

/-! ## ARRIVAL (R128, R131, R132, R136) -/

/-- The tile a window offset of the request's segment lies in. -/
def CopyReq.tile (q : CopyReq) (o : Nat) : Nat := (q.seg.base.toNat + o) / 2048

/-- A piece that must wait for its tile's consumed tag (R132). -/
def Core.tileHeld (x : Core) (t : Transfer) (p : Piece) : Bool :=
  match p.dst with
  | .reg o => t.req.wcon && !t.opened.contains (t.req.tile o) && !x.tc (t.req.tile o)
  | _ => false

/-- A global piece at its home slice, its sharers updated (R128). -/
def State.landGlb (s : State) (ctx pa : Nat) (p : Piece) : State :=
  let r := bytesToLine pa p.bytes
  (s.homeWrite { core := 256, line := pa / 128, mask := r.2, data := r.1, nt := true, ctx := ctx,
                 poison := p.poison }).settle (pa / 128)

/-- A piece's bytes at a destination on its cluster. -/
def State.landLocal (s : State) (core : Nat) (t : Transfer) (p : Piece) : State :=
  let q := t.req
  match p.dst with
  | .glb _ => s
  | .scr c team a =>
    let r := lineSlice a (a / 128) p.bytes
    (match s.scrRow c team (a / 128) with
     | none => s
     | some k =>
       let s1 := (s.putScrLine c team (a / 128) r.1 r.2).updCore c fun x => { x with
         wellPoison := ((List.range 4).filter fun i => p.poison.getLsbD i).map (4 * k + ·) ++ x.wellPoison }
       [0, 1, 2, 3].foldl (fun (s : State) i =>
         s.updCore (c / 4 * 4 + i) fun x => x.markEngine (.scr c team (a / 128)) r.2) s1)
  | .reg o =>
    let b := q.seg.base.toNat + o
    (match (s.core core).rowKey ⟨false, b⟩ with
     | none => s
     | some k =>
       let r := lineSlice b (b / 128) p.bytes
       s.updCore core fun x =>
         let y := x.putRow k r.1 r.2
         let z := { y with wellPoison :=
           ((List.range 4).filter fun i => p.poison.getLsbD i).map (4 * k + ·) ++ y.wellPoison }
         let w := z.markEngine (.row false (b / 128 * 128)) r.2
         if q.wcon && !t.opened.contains (q.tile o) then w.setTag (q.tile o) false false else w)

/-- A piece's bytes at their destination; one for another die waits behind those sent before it (R6). -/
def State.landPiece (s : State) (core : Nat) (t : Transfer) (p : Piece) : CRead State :=
  match p.dst with
  | .glb d =>
    (s.range core t.req.ctx (s.copyDesc core t.req true d) d p.bytes.length).bind fun r =>
      match r.1 with
      | (pa, _) :: _ =>
        if s.copyBehind (dieOf core, pa / 2 ^ 38) p.sent then .wait else .ok (r.2.landGlb t.req.ctx pa p)
      | [] => .ok s
  | _ => .ok (s.landLocal core t p)

/-- A part still to be moved writes bytes from `lo` to `hi`, counted from the destination's first. -/
def Transfer.later (t : Transfer) (core lo hi : Nat) : Bool :=
  ((t.req.parts core).drop t.next).any fun u =>
    let e := t.req.partSpan u
    decide (e.1 < hi) && decide (lo < e.2)

/-- Presence and valid tags that the last piece of a line or tile sets. -/
def State.endLine (s : State) (core : Nat) (t : Transfer) (rest : List Piece) (p : Piece) : State :=
  let q := t.req
  let base := match locOf core (q.word 1) with
    | .scr _ a => a
    | .reg a => q.seg.base.toNat + a
    | .glb _ => 0
  let later := fun lo hi => t.later core (lo - base) (hi - base)
  match p.dst with
  | .scr c team a =>
    if q.clr.contains (c, a / 128) && !(rest.any fun r => match r.dst with
        | .scr c2 _ b => c2 == c && b / 128 == a / 128 | _ => false) &&
        !later (a / 128 * 128) (a / 128 * 128 + 128) then
      s.markPresence team true [(c, a / 128)]
    else s
  | .reg o =>
    if q.setv && !(rest.any fun r => match r.dst with
        | .reg b => q.tile b == q.tile o | _ => false) &&
        !later (2048 * q.tile o) (2048 * q.tile o + 2048) then
      s.updCore core fun x => x.setTag (q.tile o) true false
    else s
  | .glb _ => s

/-- The running pieces of a core in order: (transfer, its other pieces, the piece). -/
def Core.pending (x : Core) : List (Transfer × List Piece × Piece) :=
  x.active.flatMap fun t => t.pieces.zipIdx.map fun p => (t, listDrop1 t.pieces p.2, p.1)

/-- A landed piece leaves its transfer and counts at its receiver's object (R136). -/
def State.landed (s : State) (core : Nat) (t : Transfer) (rest : List Piece) (p : Piece) : State :=
  let opened := match p.dst with | .reg o => t.req.tile o :: t.opened | _ => t.opened
  let s1 := (s.endLine core t rest p).updTransfer core t.req.seq fun t =>
    { t with pieces := rest, opened := opened, paused := none }
  match (if t.req.boe && p.count then s1.setTeam t.req.team p.recv else none) with
  | some (tm, _) => s1.boArrive p.recv tm t.req.boa p.bytes.length
  | none => s1

/-- A local piece that ends or begins inside an aligned 4-byte element. -/
def Piece.ragged (p : Piece) : Bool :=
  p.span.1 != 0 && (p.span.2.2.1 % 4 != 0 || p.span.2.2.2 % 4 != 0)

/-- Two pieces for one line of one receiver. -/
def Piece.near (p r : Piece) : Bool :=
  p.recv == r.recv && p.span.1 == r.span.1 && p.span.2.1 == r.span.2.1 && p.span.2.2.1 / 128 == r.span.2.2.1 / 128

/-- A part still to be moved writes bytes of a local piece's line. -/
def Transfer.halfRead (t : Transfer) (core : Nat) (p : Piece) : Bool :=
  let base := match locOf core (t.req.word 1) with | .scr _ a => a | .reg a => a | .glb _ => 0
  let l := match p.dst with | .scr _ _ a => a | .reg o => o | .glb _ => 0
  t.later core (l / 128 * 128 - base) (l / 128 * 128 + 128 - base)

/-- ARRIVAL: the n-th outstanding piece becomes visible at its receiver and counts at its object. One
whose extent is absent pauses its request (R133); one for a die out of service makes it fail (R394). A ragged
piece arrives with the others of its line, once all of them are there, so that no reader meets an aligned
4-byte element half written (R39). -/
def execArrival (core n : Nat) (s : State) : Host.Outcome State Fault Refusal :=
  match (s.core core).pending[n]? with
  | none => .next s
  | some (t, rest, p) =>
    if t.cause != .none || (s.core core).tileHeld t p || (p.ragged && t.halfRead core p) then .next s
    else
      let others := if p.ragged then rest.filter p.near else []
      let rest := if p.ragged then rest.filter fun r => !p.near r else rest
      match s.landPiece core t p with
      | .bad _ => .next s
      | .wait => .next s
      | .absent on e a =>
        let u := { t with paused := some (on, e), addr := a }
        .next ((s.updTransfer core t.req.seq fun _ => u).moved core u)
      | .offline a => .next (s.updTransfer core t.req.seq fun t =>
          { t with paused := none, cause := .homeOffline, addr := a })
      | .ok s1 =>
        let s2 := others.foldl (fun (s : State) r => s.landLocal core t r) s1
        .next ((p :: others).foldl (fun (s : State) r => s.landed core t rest r) s2)

/-! ## COPY_FAIL, COPY_COMPLETE (R128, R134) -/

/-- The row writes a request had pending are over (R159). -/
def State.unpendReq (s : State) (core : Nat) (q : CopyReq) : State :=
  s.updCore core fun x => (q.regRows core).foldl Core.unpendRow x

/-- COPY_FAIL: the n-th running transfer, bound to fail, fails. One that fails before every source byte is
read counts its CP operation off here, so that no wait for it lasts for ever (the model's choice: R128 gives
the completion of a source that is read whole, R134 none for a failure). -/
def execCopyFail (core n : Nat) (s : State) : Host.Outcome State Fault Refusal :=
  match (s.core core).active[n]? with
  | none => .next s
  | some t =>
    if t.cause = .none ∨ t.failed then .next s
    else
      let q := t.req
      let s1 := s.markPresence q.team true q.clr
      let s2 := if q.boe then (q.receivers core).foldl (fun (s : State) c =>
          match s.setTeam q.team c with | some (tm, _) => s.boFail c tm q.boa | none => s) s1
        else s1
      let s3 := (if t.allRead core then s2 else s2.cpDone q).unpendReq core q
      let s4 := s3.updTransfer core t.req.seq fun t => { t with failed := true, pieces := [], paused := none }
      .next (s4.takeAsync q.ctx q.team q.gidx q.slot ⟨t.cause, 0, t.addr, q.idx⟩ q.pc q.iword)

/-- COPY_COMPLETE: the n-th running transfer, every byte visible or failed, adds to its counter in
queue order and is done. -/
def execCopyComplete (core n : Nat) (s : State) : Host.Outcome State Fault Refusal :=
  let x := s.core core
  match x.active[n]? with
  | none => .next s
  | some t =>
    let done := t.failed || (t.pieces.isEmpty && t.allRead core && t.cause == .none)
    let earlier := (x.copyq ++ x.active.map Transfer.req).any fun u =>
      decide (u.seq < t.req.seq) && u.tinc != 0 && u.tln == t.req.tln
    if !done || (t.req.tinc != 0 && earlier) then .next s
    else
      let s1 := s.updCore core fun x => { x with active := listDrop1 x.active n }
      let s2 := if t.failed then s1 else s1.unpendReq core t.req
      .next ((if t.req.tinc = 0 then s2 else s2.tlAdd core t.req.tln t.req.tinc).settleCluster core)

end Sys2Proof.Machine
end

