-- ==== Sys2Proof/Machine/Phase.lean ====
section
/-! DEFINITION. PHASE and MONW (R301, R308 to R313, R349, R394). -/

namespace Sys2Proof.Machine

/-! ## PHASE (R309) -/

/-- The scope a PHASE acts at: .team is .core on one core and .clu on a pair. -/
def State.phaseScope (s : State) (g : Group) : PScope → PScope
  | .team => match tabFind s.teams g.team with
    | some t => if t.cores.length > 1 then .clu else .core
    | none => .core
  | k => k

/-- A line of the core with dirty words, or with an open partial, that a write-through must refuse: its home
die is out of service (R394). -/
def State.deadLine (s : State) (core : Nat) : Option Nat :=
  let lines := (((s.core core).l1.filter fun c => c.dirty != 0).map L1Line.line) ++
    ((s.core core).partials.filter fun q => !q.o.isEmpty).map Partial.line
  lines.find? fun l => (s.die (lineDie l)).out

/-- HOME_OFFLINE for a publication that a die out of service refuses (R394); the group leaves the
boundary unit. -/
def State.publishable (s : State) (core slot lo : Nat) : M Unit :=
  match s.deadLine core with
  | some l =>
    (s.updCore core fun x => { x.leaveUnit slot with
      boundary := x.boundary.filter fun b => b.slot != slot }).raise ⟨.homeOffline, lo, BitVec.ofNat 64 (128 * l), 0⟩
  | none => .ok ()

/-- Non-temporal stores of a core sent before `t`, write-combined ones among them, still on their way
(R309). -/
def State.ntPending (s : State) (core t : Nat) : Bool :=
  let mine := fun (w : WtMsg) => w.core == core && w.nt && decide (w.sent < t)
  s.wts.any mine || s.hostWrites.any mine

/-- Step 1 of R94 for a write-through point, publication `job`: every dirty word; those of host-bias lines
only at system scope, as writes to the host (R415). -/
def State.sendAll (s : State) (core ctx : Nat) (sys : Bool) (job : Nat) : State × List Nat × Nat :=
  let hs := if sys then (s.core core).l1.filter fun c => c.dirty != 0 && c.host else []
  let s1 : State := { s with hostWrites := s.hostWrites ++ hs.map fun c => c.wt core ctx job s.steps }
  let clean := fun (c : L1Line) => if sys && c.host then { c with dirty := 0 } else c
  let s2 := s1.updCore core fun x => { x with l1 := x.l1.map clean }
  let r := s2.sendWords core ctx job fun c => !c.host
  (r.1, r.2, hs.length)

/-- PHASE.sys holds the boundary unit and waits for the non-temporal stores its core issued before it,
then makes step 1. -/
def State.sysStep (s : State) (core slot ctx : Nat) : BState :=
  match (s.core core).boundary with
  | none =>
    if !s.unitFree core slot then .busy (s.joinUnit core slot)
    else
      let j := s.newJob
      .running (j.2.takeUnit core slot
        { slot := slot, job := j.1, since := (s.core core).since slot s.steps, sent := false,
          pending := [], acked := [], hostWait := 0 })
  | some b =>
    if b.slot != slot then .busy (s.joinUnit core slot)
    else if b.sent then s.boundaryStep core slot fun _ s => (s, [], 0)
    else if s.ntPending core b.since then .running s
    else
      let r := s.sendAll core ctx true b.job
      let b1 := { b with sent := true, pending := r.2.1, hostWait := r.2.2 }
      .running (r.1.updCore core fun x => { x with boundary := some b1 })

/-- The boundary unit's next step for a PHASE of a scope above .core. -/
def State.phaseStep (s : State) (core slot ctx : Nat) (k : PScope) : BState :=
  match k with
  | .sys => s.sysStep core slot ctx
  | _ => s.boundaryStep core slot fun j s => s.sendAll core ctx false j

/-- The boundary unit's next step is to send the words of the group's publication. -/
def State.sending (s : State) (core slot : Nat) (k : PScope) : Bool :=
  match (s.core core).boundary with
  | none => k != .sys && s.unitFree core slot
  | some b => b.slot == slot && !b.sent && !s.ntPending core b.since

/-- PHASE. -/
def State.phaseM (s : State) (p : Pred) (scope : PScope) : M State :=
  s.groupM p fun g _ lo => do
    let core := s.cur.core
    waitIf (!g.log.isEmpty)
    waitIf (g.cnt.ld != 0 || g.cnt.st != 0 || g.cnt.tl != 0 || g.streams.any fun q => !q.isEmpty)
    let k := s.phaseScope g scope
    let slot := s.cur.slot
    if k = .core then
      if !s.unitFree core slot then .error (.state (s.joinUnit core slot))
      else .ok (((s.updCore core fun x => x.leaveUnit slot).acquire core [] false).next.close false)
    else do
      if s.sending core slot k then s.publishable core slot lo
      match s.phaseStep core slot g.ctx k with
      | .busy t => .error (.state t)
      | .running t => .error (.state t.park)
      | .done t acked =>
        .ok (((t.movePartials core).acquire core acked (k = .dev || k = .sys)).next.close false)

/-- PHASE (R308 to R310). -/
def execPhase (p : Pred) (scope : PScope) (s : State) : Host.Outcome State Fault Refusal :=
  run s (s.phaseM p scope)

/-! ## MONW (R311, R349) -/

/-- What MONW needs (R349). -/
def needMonw : Need := ⟨[.plain, .comm, .code, .ink], [.r], .objRights⟩

/-- What a MONW on a checked pointer does: complete at once, or park on a monitor. A line of another die
gets a watch at its home, whatever the core holds; one into which a publication has come since the core's
last read of it, or that finds no room, has had its notice (R311, R118). -/
def State.monitorOf (s : State) (core slot : Nat) (g : Group) (p : DWord) (pa : Nat) :
    Option Monitor × State :=
  let line := pa / 128
  let mine := match g.watch with | some w => w.ptr == p | none => false
  if s.poisoned pa 1 then (none, s)
  else if mine then
    match g.watch with
    | some w => if w.noticed then (none, s) else (some .watch, s)
    | none => (none, s)
  else if lineDie line ≠ dieOf core then
    let s1 := s.unwatch core slot
    let newer := match tabFind (s.core core).lastRead line with
      | some v => v != (s.dirOf line).ver | none => false
    if newer || decide ((s1.dirOf line).watches ≥ 8) then (none, s1)
    else (some (.remote line), (s1.atHome line).updDir line fun d => { d with remWatch := d.remWatch ++ [(core, slot)] })
  else
    match (s.core core).copy line with
    | none => (none, s)
    | some c =>
      match c.ver with
      | none => (none, s)
      | some v =>
        if !c.mark || c.drop || (s.core core).inbox.any (fun e => e.line == line) then (none, s)
        else (some (.copy line v), s)

/-- MONW: only the threads taking part park, past the instruction. -/
def State.monwM (s : State) (p : Pred) (a : Reg) (ofs : BitVec 18) : M State :=
  s.groupM p fun g t lo => do
    let core := s.cur.core
    needRegs g [a.toNat, a.toNat + 1] lo
    let x := s.core core
    let base := g.pair x a.toNat lo
    match ptrAdd base ofs.toInt with
    | none => trapAddr .objBounds lo base
    | some q =>
      let k := s.check core g.ctx x.desc q 1 needMonw
      let s0 := s.setDesc core k.2
      match k.1 with
      | .error c => s0.raise ⟨c, lo, q, 0⟩
      | .ok d =>
        if scribesOwn core g.fw [glbCand base ofs.toInt lo 0 0] then .ok s0.next
        else
          let s1 := s0.extentMet (clusterOf core) g.ctx d q
          match s1.xlate (clusterOf core) g.ctx d q with
          | .absent _ _ => .ok s1.next
          | .at pa _ => do
            if (s.die (pa / 2 ^ 38)).out then s1.raise ⟨.homeOffline, lo, q, 0⟩
            let r := s1.monitorOf core s.cur.slot g q pa
            match r.1 with
            | none => .ok r.2.next
            | some m => .ok (r.2.next.updGroup core s.cur.slot fun g =>
                g.mapLanes t fun x => { x with st := .mon m, buf := none })

/-- MONW (R349). -/
def execMonw (p : Pred) (a : Reg) (ofs : BitVec 18) (s : State) :
    Host.Outcome State Fault Refusal := run s (s.monwM p a ofs)

end Sys2Proof.Machine
end

