-- ==== Sys2Proof/Machine/Sched.lean ====
section
/-! DEFINITION. SPAWN, JDEC and TQRY, ready queues' priorities, and the admission of teams and of
continuations (R350, R356 to R369, R384). -/

namespace Sys2Proof.Machine

/-! ## SPAWN and JDEC (R367, R368) -/

/-- The group of the turn stalls at its instruction until an absent extent is present (R82). -/
def State.stall (s : State) (ctx on ext : Nat) : State :=
  s.fault { ctx := ctx, on := on, ext := ext, who := .stall s.cur.core s.cur.slot }

/-- Where a core reaches a waybill: the check of R368 and the translation, with the caches after them. -/
def State.reachWb (s : State) (core ctx : Nat) (p : DWord) : Loc × State :=
  let k := s.check core ctx (s.core core).desc p 64 needWaybill
  let s1 := s.setDesc core k.2
  match k.1 with
  | .error c => (.bad c, s1)
  | .ok d =>
    (match s1.xlate (clusterOf core) ctx d p with | .absent on e => .absent on e | .at pa _ => .at pa,
     s1.extentMet (clusterOf core) ctx d p)

/-- The waybill that SPAWN or JDEC of the turn's group acts on, before anything changes: MISALIGNED, the
check, the stall on an absent extent, HOME_OFFLINE, and poison consumed (R368, R394). -/
def State.findWb (s : State) (g : Group) (p : DWord) (lo : Nat) : M (Nat × State) := do
  trapIf (ptrOfs p % 64 != 0) .misaligned lo p
  let r := s.reachWb s.cur.core g.ctx p
  match r.1 with
  | .bad c => r.2.raise ⟨c, lo, p, 0⟩
  | .absent on e => .error (.state (r.2.stall g.ctx on e))
  | .at pa =>
    if (r.2.die (pa / 2 ^ 38)).out then r.2.raise ⟨.homeOffline, lo, p, 0⟩
    else match [0, 32].find? fun i => r.2.poisoned (pa + i) 32 with
      | some i => .error (.state ((r.2.readSector (sectorOf (pa + i))).consume (s.actor g) lo (memSector (pa + i))))
      | none => .ok (pa, r.2)

/-- The step at the waybill's home once the core's words are published: what happens to the turn's
group in state `t`. -/
def State.atWaybill (t : State) (g : Group) (p : DWord) (pa : Nat) (m : LaneMask) (d : Nat) (amount : Option Nat) :
    State :=
  match (match amount with
    | none => t.spawnStep g.ctx p pa
    | some n => t.jdecStep g.ctx p pa n) with
  | .error (on, e) => t.stall g.ctx on e
  | .ok (v, u) =>
    let hide := g.det && amount.isSome
    let u1 := ((u.putAll m d (BitVec.ofNat 32 (if hide then 0 else v))).next.close true)
    if hide then u1.updGroup t.cur.core t.cur.slot fun g => g.sticky false else u1

/-- The core's words are published: its partials move, and the acknowledged versions wait for its next
acquire point (R301). A group whose waybill's home waits (R304) has the unit still, under number 0, with
nothing more to publish. -/
def State.published (s : State) (core : Nat) (again : Bool) (acked : List (Nat × Word)) : State :=
  if again then s else (s.movePartials core).keepAcks core acked

/-- The boundary unit held for a group that waits at a waybill's home. -/
def State.holdUnit (s : State) (core slot : Nat) : State :=
  s.takeUnit core slot { slot := slot, job := 0, since := s.steps, sent := true, pending := [], acked := [],
                         hostWait := 0 }

/-- SPAWN (`b` none) and JDEC. -/
def State.spawnM (s : State) (p : Pred) (d a : Reg) (b : Option Reg) : M State :=
  s.groupM p fun g t lo => do
    let core := s.cur.core
    let x := s.core core
    let amts := match b with | some r => [r.toNat] | none => []
    needRegs g ([a.toNat, a.toNat + 1, d.toNat] ++ amts) lo
    let ptr := g.pair x a.toNat lo
    let amount := b.map fun r => (g.reg x r.toNat lo).toNat
    let slot := s.cur.slot
    let again := match x.boundary with | some b => b.job == 0 | none => false
    let s1 ← if s.bounding then .ok s else do
      let r ← s.findWb g ptr lo
      waitIf (!g.log.isEmpty || g.cnt.ld != 0 || g.cnt.st != 0 || g.cnt.tl != 0 ||
        g.streams.any fun q => !q.isEmpty)
      if s.sending core slot .dev then s.publishable core slot lo
      .ok r.2
    match s1.boundaryStep core slot fun j s => s.sendAll core g.ctx false j with
    | .busy u => .error (.state u)
    | .running u => .error (.state u.park)
    | .done u acked => do
      let v := u.published core again acked
      let w ← v.findWb g ptr lo
      if w.2.homeReady (w.1 / 128) then .ok (w.2.atWaybill g ptr w.1 t d.toNat amount)
      else .error (.state (w.2.holdUnit core slot).park)

/-- SPAWN (R368). -/
def execSpawn (p : Pred) (d a : Reg) (s : State) : Host.Outcome State Fault Refusal :=
  run s (s.spawnM p d a none)

/-- JDEC (R368). -/
def execJdec (p : Pred) (d a b : Reg) (s : State) : Host.Outcome State Fault Refusal :=
  run s (s.spawnM p d a (some b))

/-! ## TQRY (R369) -/

/-- TQRY's two result words. -/
def RQueue.tqry (q : RQueue) : Word × Word :=
  (BitVec.ofNat 32 (min (q.count + q.overflow.length) 65535 + 2 ^ 16 * q.eprio + 2 ^ 19 * b2n q.en
    + 2 ^ 20 * b2n q.held + 2 ^ 21 * q.age), BitVec.ofNat 32 (2 ^ q.log2))

/-- TQRY (R369). -/
def execTqry (c : Ctl) (d a : Reg) (s : State) : Host.Outcome State Fault Refusal :=
  run s (s.memM c fun g x t lo => do
    needRegs g [a.toNat, d.toNat, d.toNat + 1] lo
    uCheck g x c.u t lo [a.toNat]
    let val := fun l =>
      let q := (g.reg x a.toNat (if c.u then lo else l)).toNat
      if g.det || decide (q > 15) then ((0 : Word), (0 : Word))
      else ((s.ctx g.ctx).queues.getD q RQueue.zero).tqry
    let ws := (lanesOf t).flatMap fun l => [(l, d.toNat, (val l).1), (l, d.toNat + 1, (val l).2)]
    .ok ((s.putRegs s.cur.core s.cur.slot ws).next.updGroup s.cur.core s.cur.slot fun g => g.sticky false))

/-! ## A core's share of a team (R361, R362) -/

/-- The core's repair summary is raised and lets it serve (R437). -/
def Core.fit (x : Core) : Bool := x.done && !x.fail && x.tcode == 0

/-- The core belongs to a cluster in service, and its repair summary lets it serve (R437). -/
def State.serving (s : State) (core : Nat) : Bool :=
  (s.cluster (clusterOf core)).inSvc && !(s.cluster (clusterOf core)).drained &&
    !(s.cluster (clusterOf core)).withdrawn && !(s.die (dieOf core)).out && (s.core core).fit

/-- The weight of a group by its grid's energy class. -/
def State.weight (s : State) (g : Group) : Nat :=
  match s.gridOfGroup g with
  | some q => eweight q.eclass
  | none => 0

/-- The energy sum of a core. -/
def State.energy (s : State) (core : Nat) : Nat :=
  ((s.core core).holders.filter fun g => !g.fw).foldl (fun n g => n + s.weight g) 0

/-- The lowest free group slot. -/
def Core.freeSlot (x : Core) : Option Nat := firstBelow 64 fun k => (tabFind x.groups k).isNone

/-- A group that starts at `pc` (R364): a head, accumulators zero, segments of the given sizes. -/
def newGroup (ctx team gidx width segReg segMat : Nat) (views : Views) (slots : List DWord) (pc : DWord)
    (det : Bool) : Group :=
  let accs : List Acc := List.replicate 128 { z := true, rowf := 0, colf := 0 }
  let h : Head := { pcs := List.replicate width pc, rc := 0, accs := accs, bar := none }
  { ctx := ctx, team := team, gidx := gidx, width := width,
    segReg := { base := 0, size := BitVec.ofNat 22 segReg },
    segMat := { base := 0x200000, size := BitVec.ofNat 22 segMat }, views := views,
    slots := slots,
    lanes := List.replicate width { pc := pc, st := .run, yielded := false, buf := none },
    cnt := { ld := 0, st := 0, cp := 0, tl := 0 }, pend := [], head := h, ihead := h, rc := 0,
    stageOvf := false, detSticky := 0, det := det, dbg := false, log := [], flight := [],
    nextId := 0, mstat := 0, mrecs := List.replicate 4 0, srecs := List.replicate 4 0,
    streams := List.replicate 5 [], accs := accs, tilesRead := [], watch := none,
    handler := none, deliver := none, trap := false, trapMask := 0, closing := .none, bar := none,
    arrWait := none, parked := none, parkBo := none, logStall := none, epoch := 0, asyncRec := none, bufTurn := false, bufNext := 0, fw := false,
    fwRegs := [], fwPred := 0 }

/-- A group given the lowest free slot and a window of contiguous free rows (R164, R361); its tiles
start empty (R160). -/
def State.seatGroup (s : State) (core : Nat) (g : Group) : Option (Nat × State) :=
  let x := s.core core
  let mat := g.segMat.size.toNat / 128
  match x.freeSlot, x.freeRun 0 16 (g.segReg.size.toNat / 128 + 16),
      (if mat = 0 then some matRow else x.freeRun matRow 128 mat) with
  | some k, some r, some m =>
    let g1 := { g with
      segReg := { g.segReg with base := BitVec.ofNat 22 (128 * r) }
      segMat := { g.segMat with base := BitVec.ofNat 22 (128 * m) } }
    let y := x.emptyTiles fun t => g1.ownsRow (16 * t)
    some (k, s.setCore core { y with groups := tabSet y.groups k g1 })
  | _, _, _ => none

/-- Groups seated one after another; the slots they took. -/
def State.seatAll (s : State) (core : Nat) : List Group → Option (List Nat × State)
  | [] => some ([], s)
  | g :: r =>
    match s.seatGroup core g with
    | none => none
    | some (k, t) =>
      match t.seatAll core r with
      | none => none
      | some (ks, u) => some (k :: ks, u)

/-- Banks of every role taken from CACHE for a team (R146), none of them with a transient
condition. -/
def State.takeBanks (s : State) (core tn : Nat) (n : Roles Nat) : List WRole → Option State
  | [] => some s
  | r :: rest =>
    match s.growBy core tn r (n.of r) with
    | none => none
    | some t => t.takeBanks core tn n rest

/-- Banks outside CACHE. -/
def Roles.taken (n : Roles Nat) : Nat := allRoles.foldl (fun k r => k + n.of r) 0

/-- A core's energy budget: 96, or less where firmware has lowered it (R14, R362). -/
def Core.energyCap (x : Core) : Nat := min 96 x.budget

/-- A core admits its share of a team: budget, CACHE floor, banks, slots and windows (R361, R362);
the slots its groups took. -/
def State.admitShare (s : State) (core tn weight : Nat) (min granted : Roles Nat) (gs : List Group) :
    Option (List Nat × State) :=
  let x := s.core core
  let need := min.taken + granted.taken
  let floor := max (s.cacheFloor core) min.cache
  if !s.serving core || decide (s.energy core + weight * gs.length > x.energyCap) ||
      decide (x.roles.cache.length < need + floor) then none
  else
    let a : Allot := { min := min, granted := granted, scr := [], last := Roles.none }
    let s1 := s.updTeam tn fun t => { t with allots := tabSet t.allots core a }
    let sum : Roles Nat :=
      { reg := min.reg + granted.reg, mat := min.mat + granted.mat,
        scr := min.scr + granted.scr, fifo := min.fifo + granted.fifo,
        shadow := min.shadow + granted.shadow, cache := 0 }
    match s1.takeBanks core tn sum allRoles with
    | none => none
    | some s2 => s2.seatAll core gs

/-- Admission's acquire point of device scope (R364), after the clusters are noted in the grid's
mask. -/
def State.admitted (s : State) (gid : Nat) (cores : List Nat) : State :=
  let s1 := s.updGrid gid fun g => { g with
    cmask := cores.foldl (fun (m : BitVec 64) c => m ||| (1#64 <<< clusterOf c)) g.cmask }
  cores.foldl (fun (s : State) c => s.acquire c [] true) s1

/-! ## New teams (R360, R363, R364) -/

/-- The groups of a new team that run on the `i`-th of its cores. -/
def Grid.groupsOn (q : Grid) (tn i : Nat) : List Group :=
  ((List.range q.gpt).filter fun k => !q.pair || k % 2 == i).map fun k =>
    newGroup q.ctx tn k q.width q.launch.segReg q.launch.segMat q.launch.views q.launch.slots (pcOf q.code) q.det

/-- Shares admitted on each of a new team's cores; a core on which a re-queued continuation waits for a slot
takes no new team (R361). -/
def State.admitShares (s : State) (q : Grid) (tn : Nat) : Nat → List Nat → Option State
  | _, [] => some s
  | i, c :: r =>
    if (s.core c).parked.any Parked.ready then none
    else
      match s.admitShare c tn (eweight q.eclass) q.launch.wmin Roles.none (q.groupsOn tn i) with
      | none => none
      | some (_, t) => t.admitShares q tn (i + 1) r

/-- One new team, `tid` of its grid, on the given cores. -/
def State.newTeam (s : State) (gid : Nat) (q : Grid) (tid : Nat) (cores : List Nat) (cset : Option Nat) :
    Option State :=
  let tn := s.nextTeam
  let t : Team := { ctx := q.ctx, grid := gid, tid := tid, cores := cores, cset := cset,
                    live := true, dead := false, ended := 0, allots := [], barRound := 0,
                    barIn := [], intOvf := false, committed := false, ueSectors := [],
                    rolling := none, dying := false, ceil := ⟨60, Roles.all none⟩ }
  let s1 : State := { s with nextTeam := tn + 1, teams := tabSet s.teams tn t }
  s1.admitShares q tn 0 cores

/-- The teams of a cluster set, one on each core of a list. -/
def State.newSet (s : State) (gid : Nat) (q : Grid) (tid k : Nat) : List Nat → Option State
  | [] => some s
  | c :: r =>
    match s.newTeam gid q tid [c] (some k) with
    | none => none
    | some t => t.newSet gid q (tid + 1) k r

/-- The cores that the next team, pair team or cluster set of a grid may be offered at `core`:
fixed in deterministic mode (R363), else those `core` belongs to (R360). -/
def Grid.place (q : Grid) (core tid : Nat) : List Nat :=
  let n := q.lcnt + 1
  let phys := fun i => (q.lmap[i]?).getD 256
  let here := if q.pair then [core / 2 * 2, core / 2 * 2 + 1]
    else if q.cset then (List.range 4).map fun i => core / 4 * 4 + i else [core]
  if !q.det then here
  else
    let want := if q.pair then let l := 2 * (tid % max (n / 2) 1); [phys l, phys (l + 1)]
      else if q.cset then let l := 4 * (tid / 4 % max (n / 4) 1); (List.range 4).map fun j => phys (l + j)
      else [phys (tid % n)]
    if want.contains core then want else []

/-- The next team, or cluster set, of a grid admitted at a core; how many teams were placed. -/
def State.placeTeam (s : State) (gid : Nat) (q : Grid) (core tid : Nat) : Option (Nat × State) :=
  match q.place core tid with
  | [] => none
  | cs =>
    let s1 : State := { s with nextSet := s.nextSet + 1 }
    let r := if q.cset then (s1.newSet gid q tid s.nextSet cs).map fun t => (4, t)
      else (s.newTeam gid q tid cs none).map fun t => (1, t)
    r.map fun e => (e.1, e.2.admitted gid cs)

/-! ## Grids (R356, R363, R365) -/

/-- Physical cores in service, in order. -/
def State.servingCores (s : State) : List Nat := allCores.filter s.serving

/-- The map of logical cores to physical ones, fixed at a grid's first placement (R363). -/
def State.logicalMap (s : State) (n : Nat) : List Nat :=
  let svc := s.servingCores
  (List.range n).map fun i => (svc[i % max svc.length 1]?).getD 256

/-- The entries of a waybill's hint list (R355). An entry in an absent extent is passed over. -/
def State.hintList (s : State) (ctx pa : Nat) : List Word :=
  (List.range (fld (s.wb pa 4) 48 16)).filterMap fun i =>
    match (ptrAdd (s.wb pa 6) (4 * i)).map fun p => s.gather ctx p 4 needLoad with
    | some (.bytes l) => some (BitVec.ofNat 32 (natOfBytes l))
    | _ => none

/-- The placement hint in force for an object (R84): the hint list of the context's grid placed last
that names it and still runs, else the descriptor's HINT. The Coachman's firmware moves by it (R85). -/
def State.hintOf (s : State) (ctx on : Nat) : Nat :=
  let named := fun (h : Word) => decide ((h.extractLsb' 0 20).toNat = on)
  let mine := s.grids.filter fun e => e.2.ctx == ctx && !e.2.complete && e.2.hints.any named
  match (mine.reverse.head?).bind fun e => e.2.hints.find? named with
  | some h => (h.extractLsb' 20 4).toNat
  | none => fld (fetchDesc s coachman ctx on).w0 52 4

/-- The grid of a waybill at `pa` whose launch record holds the bytes `rec_`. -/
def State.makeGrid (s : State) (ctx : Nat) (wb : DWord) (pa : Nat) (rec_ : List Byte) : Grid :=
  let w3 := s.wb pa 3
  { ctx := ctx, wb := wb, code := s.wb pa 0, frame := s.wb pa 1, nteam := fld w3 0 24 + 1,
    gpt := fld w3 24 5 + 1, width := 16 * 2 ^ fld w3 29 2, eclass := fld w3 32 3, det := w3.getLsbD 42,
    pair := w3.getLsbD 43, cset := w3.getLsbD 44, lcnt := fld w3 45 9, launch := readLaunch rec_,
    lmap := if w3.getLsbD 42 then s.logicalMap (fld w3 45 9 + 1) else [],
    hints := s.hintList ctx pa, lastOn := [], cmask := 0, suspect := false,
    complete := false, provisional := false }

/-- What the head of a queue is found to be: removed as unfit, in an absent extent, waiting at its home
(R304), or the grid whose next team is offered. -/
inductive HeadIs where
  | bad (s : State)
  | wait
  | absent (on ext : Nat)
  | grid (gid : Nat) (q : Grid) (pa : Nat) (s : State)

/-- The head waybill looked up; at its first team its checks are made again and its launch record is
read (R356, R357). -/
def State.headGrid (s : State) (ctx qn : Nat) (wb : DWord) : HeadIs :=
  match (if ptrOfs wb % 64 ≠ 0 then .bad .misaligned else s.locate ctx wb 64 needWaybill) with
  | .absent on e => .absent on e
  | .bad _ => .bad ((s.wbRecord ctx wb 0).leaveQueue ctx qn)
  | .at pa =>
    if !s.homeReady (pa / 128) then .wait else
    match s.gridOf wb ctx with
    | some (gid, q) => if fld (s.wb pa 4) 0 25 ≥ q.nteam then .bad (s.leaveQueue ctx qn) else .grid gid q pa s
    | none =>
      if s.wbState pa = 4 then .bad (s.leaveQueue ctx qn)
      else if s.wbState pa ≠ 1 ∨ fld (s.wb pa 2) 0 32 ≠ 0 then .bad ((s.badWb ctx wb pa 1).leaveQueue ctx qn)
      else
        match s.wellFormed ctx pa with
        | .absent on e => .absent on e
        | .fails k => .bad ((s.badWb ctx wb pa k).leaveQueue ctx qn)
        | .ok =>
          match s.gather ctx (s.wb pa 1) 128 needLoad with
          | .bytes l =>
            let q := s.makeGrid ctx wb pa l
            .grid s.nextGrid q pa { s with
              nextGrid := s.nextGrid + 1, grids := tabSet s.grids s.nextGrid q }
          | .absent on e => .absent on e
          | .bad _ => .bad ((s.badWb ctx wb pa 6).leaveQueue ctx qn)

/-- `n` teams of a grid placed: NEXT rises, the first makes the waybill RUNNING, and the waybill
leaves its queue with the last (R359, R365). -/
def State.placedTeams (s : State) (ctx qn : Nat) (q : Grid) (pa n : Nat) : State :=
  let s1 := if s.wbState pa = 1 then s.setWbState pa 2 else s
  let s2 := s1.setWb pa 4 fun w => setFld w 0 25 (fld w 0 25 + n)
  if fld (s2.wb pa 4) 0 25 ≥ q.nteam then s2.leaveQueue ctx qn else s2

/-! ## Priorities (R359) -/

/-- One pass counted by a queue. -/
def RQueue.pass (q : RQueue) : RQueue :=
  if q.stuck then q
  else if q.age + 1 < 64 then { q with age := q.age + 1 }
  else if q.eprio < 7 then { q with eprio := q.eprio + 1, age := 0 }
  else { q with age := 0, held := true }

/-- The PRIO of a queue's head waybill. -/
def State.headPrio (s : State) (ctx : Nat) (q : RQueue) : Nat :=
  match s.headWb q with
  | none => q.eprio
  | some wb => match s.locate ctx wb 64 needWaybill with
    | .at pa => fld (s.wb pa 3) 35 3
    | _ => q.eprio

/-- The head waybill of a queue has a team not yet placed; one that cannot be read may have. -/
def State.headLeft (s : State) (ctx : Nat) (q : RQueue) : Bool :=
  match s.headWb q with
  | none => false
  | some wb => match s.locate ctx wb 64 needWaybill with
    | .at pa => decide (fld (s.wb pa 4) 0 25 ≤ fld (s.wb pa 3) 0 24)
    | _ => true

/-- A ready queue (R359, R360): its head has a team not yet placed and is not held up by an absent
extent. -/
def State.queueReady (s : State) (ctx qn : Nat) : Bool :=
  let q := (s.ctx ctx).queues.getD qn RQueue.zero
  q.en && s.headLeft ctx q && !(s.faults.any fun f => f.who == .queue ctx qn)

/-- Ageing after `n` teams were placed from queue `qn`: the other ready queues count passes, the
queue itself starts anew. -/
def State.aged (s : State) (ctx qn n : Nat) : State :=
  (List.range 16).foldl (fun (s : State) k =>
    if k = qn then
      let p := s.headPrio ctx ((s.ctx ctx).queues.getD k RQueue.zero)
      s.updQueue ctx k fun q => { q with eprio := p, age := 0, held := false }
    else if s.queueReady ctx k then
      s.updQueue ctx k fun q => (List.range n).foldl (fun q _ => q.pass) q
    else s) s

/-- Groups of a team on the core that holds most of them. -/
def Grid.perCore (q : Grid) : Nat := groupsPerCore q.gpt q.pair

/-- Banks of a core outside CACHE. -/
def Roles.banks (r : Roles SlotTab) : Nat := allRoles.foldl (fun n k => n + (r.of k).length) 0

/-- A core could take its share of a team were it idle (R359): budget, slots, banks and shape. An
idle core holds 1 REG and 2 SHADOW banks (R143), which the team's minima join. -/
def Grid.fitsIdle (q : Grid) (x : Core) : Bool :=
  let w := q.launch.wmin
  decide (q.perCore * eweight q.eclass ≤ x.energyCap) && decide (q.perCore ≤ 64) &&
  decide (1 + w.reg + w.mat + w.scr + w.fifo + 2 + w.shadow + max w.cache 4 ≤
    x.roles.banks + x.roles.cache.length) &&
  decide (q.perCore * (q.launch.segReg / 128 + 16) ≤ 256 * (1 + w.reg)) &&
  decide (q.perCore * (q.launch.segMat / 128) ≤ 256 * w.mat)

end Sys2Proof.Machine
end

