-- ==== Sys2Proof/Machine/Resident.lean ====
section
/-! DEFINITION. Parked continuations, saved continuations and ADMISSION (R350, R359 to R364, R384,
R389, R393). -/

namespace Sys2Proof.Machine

/-! ## Parked continuations (R350) -/

/-- The monitors a group's parked threads wait for. -/
def Group.mons (g : Group) : List Monitor :=
  g.lanes.filterMap fun x => match x.st with | .mon m => some m | _ => none

/-- Every live thread is parked in MONW. -/
def Group.allMon (g : Group) : Bool :=
  g.anyLive && g.lanes.all fun x => match x.st with | .mon _ => true | .exited => true | _ => false

/-- A group's watches at their homes under another key. -/
def State.rekey (s : State) (core old new : Nat) : State :=
  { s with dir := s.dir.map fun e => (e.1, { e.2 with
      remWatch := e.2.remWatch.map fun w => if w.1 == core && w.2 == old then (w.1, new) else w
      inkWatch := e.2.inkWatch.map fun w =>
        if w.1 == core && w.2.1 == old then (w.1, new, w.2.2) else w }) }

/-- PARK_LIMIT: a group parked in MONW longer than the limit is retired to a continuation at its
stage head, its operand log discarded as by a pre-emption (R83, R350); it keeps its window. -/
def execParkLimit (core slot : Nat) (s : State) : Host.Outcome State Fault Refusal :=
  match s.group core slot with
  | none => .next s
  | some g =>
    if !g.allMon || !s.canStop core slot g || s.stopping g.team || g.fw then .next s
    else
      let mine := s.undoOf g.team fun u => u.stage && u.slot == slot
      let s1 := (mine.filter fun u => u.1 == core).foldl (fun s u => s.restoreLine u.1 u.2) s
      let s2 := s1.stopGroup core slot
      let key := 128 + s.steps
      match s2.group core slot with
      | none => .next s2
      | some h =>
        .next ((s2.rekey core slot key).updCore core fun x => { x with
          groups := tabErase x.groups slot
          parked := x.parked ++ [{ group := h, mons := g.mons, ready := false, key := key }] })

/-- The first re-queued continuation of a core is admitted to a free slot, with admission's acquire point
(R364). -/
def State.resumeParked (s : State) (core : Nat) : Option State :=
  let x := s.core core
  match x.parked.find? (·.ready), x.freeSlot with
  | some p, some k =>
    let y : Core := { x with
      groups := tabSet x.groups k p.group
      parked := x.parked.filter fun q => q.key != p.key }
    some ((((s.setCore core y).rekey core p.key k).resumeBar core k).acquire core [] true)
  | _, _ => none

/-! ## Saving a team (R384, R389) -/

/-- The rows of a window as a continuation numbers them: the REG segment's, the MAT segment's, the
predicate row. -/
def Group.savedRows (g : Group) : List Nat × List Nat × Nat :=
  let rb := g.segReg.base.toNat / 128
  let mb := g.segMat.base.toNat / 128
  let n := g.segReg.size.toNat / 128
  ((List.range n).map (rb + ·), (List.range (g.segMat.size.toNat / 128)).map (mb + ·), rb + n)

/-- The contents of a register-space row. -/
def Core.rowAt (x : Core) (r : Nat) : Line :=
  match x.rowKey (rowAddr r) with | some k => x.row k | none => 0

/-- The poisoned sectors of numbered rows of the Well: sector i of the list's n-th row is 4 n + i. -/
def Core.sectorsOf (x : Core) (keys : List (Nat × Option Nat)) : List Nat :=
  keys.flatMap fun e => match e.2 with
    | some k => ((List.range 4).filter fun i => x.wellPoison.contains (4 * k + i)).map fun i => 4 * e.1 + i
    | none => []

/-- Sectors of numbered rows poisoned again. -/
def Core.repoison (x : Core) (keyOf : Nat → Option Nat) (secs : List Nat) : Core :=
  { x with wellPoison := (secs.filterMap fun p => (keyOf (p / 4)).map fun k => 4 * k + p % 4) ++ x.wellPoison }

/-- Tiles of a window, by register-space number. -/
def Group.winTiles (g : Group) : List Nat :=
  ((List.range (g.segReg.size.toNat / 2048)).map fun i => g.segReg.base.toNat / 2048 + i) ++
  (List.range (g.segMat.size.toNat / 2048)).map fun i => g.segMat.base.toNat / 2048 + i

/-- A group's continuation, on the `part`-th of its team's cores. -/
def Group.saved (g : Group) (x : Core) (part : Nat) : ContGroup :=
  let r := g.savedRows
  { part := part, group := g, regRows := r.1.map x.rowAt, matRows := r.2.1.map x.rowAt, predRow := x.rowAt r.2.2,
    tags := g.winTiles.map fun t => (x.tv t, x.tc t)
    poison := x.sectorsOf ((r.1 ++ r.2.1 ++ [r.2.2]).zipIdx.map fun e => (e.2, x.rowKey (rowAddr e.1))) }

/-- A team's scratchpad on one core, saved. -/
def State.savedScr (s : State) (tn core part : Nat) : ContScr :=
  let a := (s.allot tn core).getD ⟨Roles.none, Roles.none, [], Roles.none⟩
  let x := s.core core
  let keys := (List.range (256 * a.scr.length)).map fun l => (l, (s.scrRow core tn l).getD 0)
  { part := part
    lines := (keys.map fun e => (e.1, x.row e.2)).filter fun e => e.2 != 0
    clear := (keys.filter fun e => x.presClr.contains e.2).map Prod.fst
    bo := keys.flatMap fun e => ((List.range 8).filter fun i => x.boTag.contains (8 * e.2 + i)).map
      fun i => 8 * e.1 + i
    poison := x.sectorsOf (keys.map fun e => (e.1, some e.2))
    slots := a.scr.length
    granted := a.granted
    last := a.last
    sigs := x.sigScr.filter fun e => e.1 / 2 ^ 19 == tn }

/-- SCR slots of a team that leaves a core which a transient condition keeps from CACHE: they wait as an
ended team's do, under a team number of their own. -/
def State.leaveSlots (s : State) (tn core : Nat) : State :=
  match tabFind s.teams tn, s.allot tn core with
  | some t, some a =>
    if a.scr.isEmpty then s
    else
      let ghost : Allot := { min := Roles.none, granted := Roles.none, scr := a.scr, last := Roles.none }
      let u : Team := { t with cores := [], cset := none, live := false, allots := [(core, ghost)] }
      let s1 : State := { s with nextTeam := s.nextTeam + 1, teams := tabSet s.teams s.nextTeam u }
      s1.updCore core fun x => { x with scrReturning := x.scrReturning ++ [s.nextTeam] }
  | _, _ => s

/-- A team's allotment on a core returns to CACHE. -/
def State.giveBack (s : State) (tn core : Nat) : State :=
  match s.allot tn core with
  | none => s
  | some a =>
    let own := fun r => a.min.of r + a.granted.of r
    let s1 := (s.payScr core tn a.scr.length).leaveSlots tn core
    let s2 := s1.updCore core fun x => { x with
      owed := { x.owed with reg := x.owed.reg + own .reg, mat := x.owed.mat + own .mat,
                            fifo := x.owed.fifo + own .fifo, shadow := x.owed.shadow + own .shadow }
      undo := x.undo.filter fun u => u.team != tn
      sigScr := x.sigScr.filter fun e => e.1 / 2 ^ 19 != tn }
    (s2.settleOwed core).updTeam tn fun t => { t with allots := tabErase t.allots core }

/-- A pre-empted team, its groups at their heads, saved as a continuation of its context; its
interval's undo lines are not saved, so that the interval counts as overflowed if it had any. -/
def State.saveTeam (s : State) (tn : Nat) (copies : List (Nat × CopyReq)) : State :=
  match tabFind s.teams tn with
  | none => s
  | some t =>
    let parts := t.cores.zipIdx
    let groupsOf := fun (c i : Nat) =>
      (((s.core c).groups.filter fun e => e.2.team == tn && !e.2.fw).map fun e => e.2.saved (s.core c) i) ++
      ((s.core c).parked.filter fun p => p.group.team == tn).map fun p => p.group.saved (s.core c) i
    let cont : Cont := { team := tn, cores := t.cores, groups := parts.flatMap fun e => groupsOf e.1 e.2,
                         scr := parts.map fun e => s.savedScr tn e.1 e.2, copyq := copies }
    let lines := t.cores.any fun c => (s.core c).undo.any fun u => u.team == tn && u.interval
    let s1 := (s.teamGroups tn).foldl (fun s e => s.freeGroup e.1 e.2) s
    let s2 := t.cores.foldl (fun (s : State) c =>
      let gone := (s.core c).parked.filter fun p => p.group.team == tn
      (gone.foldl (fun (s : State) p => s.dropWatches c p.key) s).updCore c fun x =>
        gone.foldl (fun x p => x.releaseWindow p.group)
          { x with parked := x.parked.filter fun p => p.group.team != tn }) s1
    let s3 := t.cores.foldl (fun (s : State) c => s.giveBack tn c) s2
    let s4 := s3.updTeam tn fun t => { t with cores := [], barIn := [], intOvf := t.intOvf || lines }
    let s5 := s4.updGrid t.grid fun g => { g with
      lastOn := t.cores.foldl (fun l c => tabSet l (clusterOf c) s.steps) g.lastOn }
    s5.updCtx t.ctx fun c => { c with conts := c.conts ++ [cont] }

/-- No started copy request runs in the clusters of some cores. -/
def State.copiesDone (s : State) (cores : List Nat) : Bool :=
  cores.all fun c => (List.range 4).all fun i => (s.core (c / 4 * 4 + i)).active.isEmpty

/-- Copy requests of a team that have not started, by core. -/
def State.unstarted (s : State) (tn : Nat) : List (Nat × CopyReq) :=
  s.cores.flatMap fun e => (e.2.copyq.filter fun q => q.team == tn).map fun q => (e.1, q)

/-- Pre-empted teams saved, their unstarted copy requests first taken from the queues; SCR slots of ended
teams that only these held up go back to CACHE (R354). -/
def State.saveTeams (s : State) (ts : List Nat) : State :=
  let s1 : State := { s with cores := s.cores.map fun e =>
    (e.1, { e.2 with copyq := e.2.copyq.filter fun q => !ts.contains q.team }) }
  let s2 := ts.foldl (fun (u : State) t => u.saveTeam t (s.unstarted t)) s1
  (s2.cores.map Prod.fst).foldl State.settleOwed s2

/-! ## Restoring a team (R361, R384) -/

/-- A restored group's rows, poison marks and tags put back. -/
def State.refill (s : State) (core slot : Nat) (c : ContGroup) : State :=
  match s.group core slot with
  | none => s
  | some g =>
    let r := g.savedRows
    let rows := r.1 ++ r.2.1 ++ [r.2.2]
    let put := fun (x : Core) (e : Nat × Line) => match x.rowKey (rowAddr e.1) with
      | some k => x.putRow k e.2 (BitVec.allOnes 128)
      | none => x
    s.updCore core fun x =>
      let x1 := (rows.zip (c.regRows ++ c.matRows ++ [c.predRow])).foldl put x
      let x2 := x1.repoison (fun n => rows[n]?.bind fun q => x1.rowKey (rowAddr q)) c.poison
      (g.winTiles.zip c.tags).foldl (fun x e => x.setTag e.1 e.2.1 e.2.2) x2

/-- A restored scratchpad's lines, presence bits, tags and poison marks put back. -/
def State.rescr (s : State) (tn core : Nat) (c : ContScr) : State :=
  let s1 := c.lines.foldl (fun (s : State) e => match s.scrRow core tn e.1 with
    | some k => s.updCore core fun x => x.putRow k e.2 (BitVec.allOnes 128)
    | none => s) s
  let keyOf := fun l => s1.scrRow core tn l
  (s1.updAllot tn core fun a => { a with last := c.last }).updCore core fun x => { x.repoison keyOf c.poison with
    sigScr := x.sigScr ++ c.sigs
    presClr := c.clear.filterMap keyOf ++ x.presClr
    boTag := (c.bo.filterMap fun b => (keyOf (b / 8)).map fun k => 8 * k + b % 8) ++ x.boTag }

/-- One core's share of a continuation admitted and put back. -/
def State.restoreShare (s : State) (q : Grid) (c : Cont) (core part : Nat) : Option State :=
  let gs := c.groups.filter fun g => g.part == part
  match c.scr.find? fun x => x.part == part with
  | none => none
  | some sc =>
    match s.admitShare core c.team (eweight q.eclass) q.launch.wmin sc.granted (gs.map ContGroup.group) with
    | none => none
    | some (ks, s1) =>
      let s2 := (ks.zip gs).foldl (fun (s : State) e => s.refill core e.1 e.2) s1
      let s3 := s2.rescr c.team core sc
      let arrived := (ks.zip gs).filter fun e => match e.2.group.bar with
        | some b => b.kind == .team | none => false
      let s4 := s3.updTeam c.team fun t => { t with
        barIn := (arrived.map fun e => (core, e.1)) ++ t.barIn }
      some (ks.foldl (fun (s : State) k => s.resumeBar core k) s4)

/-- Every share of a continuation, on the given cores. -/
def State.restoreShares (s : State) (q : Grid) (c : Cont) : Nat → List Nat → Option State
  | _, [] => some s
  | i, k :: r =>
    match s.restoreShare q c k i with
    | none => none
    | some t => t.restoreShares q c (i + 1) r

/-- The core that stands for core `k` once a continuation is restored on other cores: of its team's cores
the one in the same place, of the others in its cluster the one of the same number there. -/
def Cont.newCore (c : Cont) (cores : List Nat) (k : Nat) : Nat :=
  match c.cores.findIdx? (· == k) with
  | some i => (cores[i]?).getD k
  | none => match cores.head? with | some b => b / 4 * 4 + k % 4 | none => k

/-- A saved copy request on the cores its team is restored on. -/
def Cont.newCopy (c : Cont) (cores : List Nat) (q : CopyReq) : CopyReq :=
  let mv := fun (e : Nat × Nat) => (c.newCore cores e.1, e.2)
  { q with clr := q.clr.map mv, toClear := q.toClear.map mv }

/-- One continuation restored on the given cores, its unstarted copy requests with it (R389). -/
def State.restoreCont (s : State) (ctx : Nat) (q : Grid) (c : Cont) (cores : List Nat) : Option State :=
  let s1 := (s.updTeam c.team fun t => { t with cores := cores, barIn := [] }).updCtx ctx fun x =>
    { x with conts := x.conts.filter fun d => d.team != c.team }
  (s1.restoreShares q c 0 cores).map fun u => c.copyq.foldl (fun (u : State) e =>
    u.updCore (c.newCore cores e.1) fun x => x.queueCopy (c.newCopy cores e.2)) u

/-- The continuations of a cluster set restored on one cluster, each on the core of its team id. -/
def State.restoreSet (s : State) (ctx : Nat) (q : Grid) (cl : List Nat) : List Cont → Option State
  | [] => some s
  | c :: r =>
    let tid := match tabFind s.teams c.team with | some t => t.tid | none => 0
    match s.restoreCont ctx q c ((cl[tid % 4]?).toList) with
    | none => none
    | some t => t.restoreSet ctx q cl r

/-- A continuation offered at a core: restored there, a cluster set whole. -/
def State.offerCont (s : State) (ctx core : Nat) (c : Cont) : Option State :=
  match tabFind s.teams c.team with
  | none => none
  | some t =>
    match tabFind s.grids t.grid with
    | none => none
    | some q =>
      match q.place core t.tid with
      | [] => none
      | cs =>
        match t.cset with
        | none => (s.restoreCont ctx q c cs).map fun u => u.admitted t.grid cs
        | some k =>
          let mine := (s.ctx ctx).conts.filter fun d => match tabFind s.teams d.team with
            | some x => x.cset == some k | none => false
          let move := fun (e : Nat × Team) => if e.2.cset == some k && !e.2.live then
            (e.1, { e.2 with cores := (cs[e.2.tid % 4]?).toList }) else e
          let s1 : State := { s with teams := s.teams.map move }
          (s1.restoreSet ctx q cs mine).map fun u => u.admitted t.grid cs

/-! ## ADMISSION (R359 to R364) -/

/-- The first of a list of continuations that can be admitted at a core. -/
def State.offerConts (s : State) (ctx core : Nat) : List Cont → Option State
  | [] => none
  | c :: r =>
    match s.offerCont ctx core c with
    | some t => some t
    | none => s.offerConts ctx core r

/-- SEQ of a queue's head (R358). -/
def State.headSeq (s : State) (ctx qn : Nat) : Nat :=
  let c := s.ctx ctx
  match s.headWb (c.queues.getD qn RQueue.zero) with
  | none => 0
  | some wb => match c.placed.find? fun p => p.wb == wb with | some p => p.seq | none => 0

/-- Queue `a` is offered before queue `b`: higher EPRIO, then lower SEQ. -/
def State.before (s : State) (ctx a b : Nat) : Bool :=
  let e := fun k => ((s.ctx ctx).queues.getD k RQueue.zero).eprio
  decide (e a > e b) || (e a == e b && decide (s.headSeq ctx a ≤ s.headSeq ctx b))

/-- Queues inserted in the order they are offered. -/
def State.insertQueue (s : State) (ctx a : Nat) : List Nat → List Nat
  | [] => [a]
  | b :: r => if s.before ctx a b then a :: b :: r else b :: s.insertQueue ctx a r

/-- The ready queues of a context in the order of R360; while one is held, held ones only (R359). -/
def State.offerOrder (s : State) (ctx : Nat) : List Nat :=
  let ready := (List.range 16).filter fun k => s.queueReady ctx k
  let held := ready.filter fun k => ((s.ctx ctx).queues.getD k RQueue.zero).held
  (if held.isEmpty then ready else held).foldl (fun l k => s.insertQueue ctx k l) []

/-- Some core, pair or cluster in service could take the grid's next team were it idle (R359). -/
def State.possible (s : State) (q : Grid) (tid : Nat) : Bool :=
  s.servingCores.any fun c =>
    let cs := q.place c tid
    !cs.isEmpty && cs.all fun k => s.serving k && q.fitsIdle (s.core k)

/-- A queue's head that no core could ever take is reported once and is never held (R359). -/
def State.markStuck (s : State) (ctx qn : Nat) (wb : DWord) : State :=
  let s1 := s.updQueue ctx qn fun q => { q with stuck := true, held := false }
  if ((s.ctx ctx).queues.getD qn RQueue.zero).stuck then s1 else s1.wbRecord ctx wb 0

/-- A queue looked at anew (R359): a head all of whose teams are placed leaves; one that no core could ever
take makes the queue stuck, and one that some core could take again ends that; one in an absent extent is
reported in a fault record, and its queue is not ready (R360). -/
def State.refreshQueue (s : State) (ctx qn : Nat) : State :=
  let q := (s.ctx ctx).queues.getD qn RQueue.zero
  match s.headWb q with
  | none => s
  | some wb =>
    if !q.en then s
    else if !s.headLeft ctx q then s.leaveQueue ctx qn
    else if !s.queueReady ctx qn then s
    else
      match s.headGrid ctx qn wb with
      | .grid _ g pa _ =>
        if s.possible g (fld (s.wb pa 4) 0 25) then s.updQueue ctx qn fun x => { x with stuck := false }
        else s.markStuck ctx qn wb
      | .absent on e => s.fault { ctx := ctx, on := on, ext := e, who := .queue ctx qn }
      | _ => s

/-- The heads of queues offered to a core in order: the first it can take is placed. -/
def State.offerHeads (s : State) (ctx core : Nat) : List Nat → State
  | [] => s
  | qn :: r =>
    match s.headWb ((s.ctx ctx).queues.getD qn RQueue.zero) with
    | none => s.offerHeads ctx core r
    | some wb =>
      match s.headGrid ctx qn wb with
      | .bad t => t.offerHeads ctx core r
      | .wait => s.offerHeads ctx core r
      | .absent on e =>
        (s.fault { ctx := ctx, on := on, ext := e, who := .queue ctx qn }).offerHeads ctx core r
      | .grid gid q pa t =>
        let tid := fld (s.wb pa 4) 0 25
        if !t.possible q tid then s.offerHeads ctx core r
        else
          match t.placeTeam gid q core tid with
          | none => s.offerHeads ctx core r
          | some (n, u) => (u.placedTeams ctx qn q pa n).aged ctx qn n

/-- The context whose groups may take slots now: it runs, and no switch has begun. -/
def State.admitting (s : State) : Option Nat :=
  match s.ctxs.find? fun e => e.2.state == .running with
  | some e => (match s.armed with
    | some a => if a.t.toNat ≤ s.gtime.toNat then none else some e.1
    | none => some e.1)
  | none => none

/-- What is offered to a core: re-queued continuations (R350), saved continuations (R384), then the
queues' heads (R360). While the context is quiesced no team is admitted; the groups of those placed still
resume (R397). -/
def State.offer (s : State) (ctx core : Nat) : State :=
  if !s.serving core then s
  else if (s.core core).parked.any (·.ready) then (s.resumeParked core).getD s
  else if (s.ctx ctx).qui then s
  else
    match s.offerConts ctx core (s.ctx ctx).conts with
    | some t => t
    | none => s.offerHeads ctx core (s.offerOrder ctx)

end Sys2Proof.Machine
end

