-- ==== Sys2Proof/Machine/Traps.lean ====
section
/-! DEFINITION. TRAP, TRAP.hnd and ERET (R374 to R380). -/

namespace Sys2Proof.Machine

/-! ## TRAP (R378) -/

/-- TRAP: TRAP_SW with its code in AUX. -/
def execTrap (p : Pred) (code : BitVec 20) (s : State) : Host.Outcome State Fault Refusal :=
  run s (s.groupM p fun _ _ lo => .error (.trap ⟨.trapSw, lo, 0, code.toNat⟩))

/-- TRAP.hnd: the group's handler set, or cleared by a null pointer. -/
def execTrapHnd (p : Pred) (a b : Reg) (s : State) : Host.Outcome State Fault Refusal :=
  run s (s.groupM p fun g _ lo => do
    needRegs g [a.toNat, a.toNat + 1, b.toNat] lo
    let x := s.core s.cur.core
    let h := g.pair x a.toNat lo
    let r := g.reg x b.toNat lo
    if h = 0 then
      .ok (s.updGroup s.cur.core s.cur.slot fun g => { g with handler := none }).next
    else do
      trapIf (r.toNat % 64 != 0) .misaligned lo (r.setWidth 64)
      trapIf (decide (r.toNat + 64 > s.scrSize g.team s.cur.core)) .segLimit lo (r.setWidth 64)
      .ok (s.updGroup s.cur.core s.cur.slot fun g => { g with handler := some (h, r) }).next)

/-! ## What may follow a trap (R374) -/

/-- The Actions column of R374, and the row for LOGGED. -/
def TrapRec.allows (r : TrapRec) (a : ErAct) : Bool :=
  let base : List ErAct := match r.cause with
    | .none => []
    | .extAbsent | .homeOffline => [.retry, .deliver, .kill]
    | .ueConsumed => if r.async then [.skip, .deliver, .kill] else []
    | .stageOvf | .peerDead => [.kill]
    | .saBias | .saWrap | .saBoundary | .trapSw => [.skip, .deliver, .kill]
    | _ => [.retry, .skip, .deliver, .kill]
  base.contains a && !(r.logged && a == .skip)

/-- Every live thread of the group holds one PC. -/
def Group.onePc (g : Group) : Bool :=
  match (g.lanes.filter fun x => x.st != .exited).map Lane.pc with
  | [] => true
  | p :: r => r.all (· == p)

/-- The handler's record lies in the team's scratchpad. -/
def State.handlerOk (s : State) (core : Nat) (g : Group) : Bool :=
  match g.handler with
  | none => false
  | some (_, r) => decide (r.toNat + 64 ≤ s.scrSize g.team core)

/-! ## The actions (R375, R379, R380) -/

/-- A pending trap is over: log entries whose own traps it kept from being taken replay again. -/
def Group.endTrap (g : Group) : Group := { g with
  trap := false, trapMask := 0
  log := g.log.map fun e => if e.st == .shed then { e with st := .ready } else e }

/-- A trapped entry made ready again; one whose home die is still out waits for a die to return
(R375). -/
def Group.reready (g : Group) (out : LogEntry → Bool) : Group :=
  { g with log := g.log.map fun e =>
      if e.st == .trapped then { e with st := if out e then .offline else .ready } else e }

/-- A log entry accesses a die that is out of service (R394). -/
def State.entryOut (s : State) (core ctx : Nat) (e : LogEntry) : Bool :=
  e.op.req.elems.any fun x =>
    match s.xlate (clusterOf core) ctx (s.lookup core ctx (ptrOn x.ptr)) x.ptr with
    | .at pa _ => (s.die (pa / 2 ^ 38)).out
    | .absent _ _ => false

/-- Trapped entries leave the log: their operations complete, their destinations unchanged. -/
def Group.dropTrapped (g : Group) : Group :=
  (g.log.filter fun e => e.st == .trapped).foldl (fun g e => g.unlog e.op.id e.op.cls) g

/-- RETRY. -/
def Group.retry (g : Group) (out : LogEntry → Bool) : Group := g.endTrap.reready out

/-- SKIP: the threads of a synchronous trap's mask move to RPC; lanes that a remote home refused leave
the log. -/
def Group.skip (g : Group) (r : TrapRec) : Group :=
  if r.async then g.endTrap
  else { g.endTrap.dropTrapped.mapLanes g.trapMask fun x => { x with pc := r.rpc } with parked := none, parkBo := none, logStall := none }

/-- DELIVER (R379): the stage closes, then the record is written and the threads go to the handler. -/
def Group.deliverTrap (g : Group) (r : TrapRec) : Group :=
  match g.handler with
  | none => g
  | some (h, a) =>
    let shown : TrapRec := if g.det then { r with gslot := 0, ctx := 0, gtime := 0 } else r
    let g1 := g.endTrap.dropTrapped
    { g1 with
      deliver := some (h, a.toNat, shown.words), parked := none, parkBo := none, logStall := none
      closing := if g1.closing = .wait then .wait else .stage }

/-- The scribe ends the pending trap `r` of a group by an action that is allowed. -/
def State.endBy (s : State) (core slot : Nat) (g : Group) (r : TrapRec) (a : ErAct) : State :=
  let r1 := { r with act := a }
  let s1 := s.putTrap core slot r1
  match a with
  | .retry => (s1.setGroup core slot (g.retry fun e =>
      r.cause == .homeOffline && s.entryOut core g.ctx e)).aeqAppend g.ctx r1
  | .skip => (s1.setGroup core slot (g.skip r)).aeqAppend g.ctx r1
  | .deliver => (s1.setGroup core slot (g.deliverTrap r1)).aeqAppend g.ctx r1
  | .kill => s1.killTeam g.team

/-- ERET's status (R377) and the state after it. -/
def State.eret (s : State) (core slot : Nat) (a : ErAct) : Nat × State :=
  match s.slotGroup core slot, tabFind (s.core core).trapSlots slot with
  | some g, some r =>
    if !g.trap then (1, s)
    else if !r.allows a || (a == .deliver && !g.onePc) then (2, s)
    else if a == .deliver && !s.handlerOk core g then (3, s)
    else (0, s.endBy core slot g r a)
  | _, _ => (1, s)

/-- ERET. -/
def State.eretM (s : State) (p : Pred) (a : ErAct) (d r : Reg) : M State :=
  s.privM p fun g x t lo => do
    needRegs g [r.toNat, d.toNat] lo
    let q := s.eret s.cur.core ((g.reg x r.toNat lo).toNat % 64) a
    .ok (q.2.putAll t d.toNat (BitVec.ofNat 32 q.1)).next

/-- ERET.retry (R377). -/
def execEretRetry (p : Pred) (d a : Reg) (s : State) : Host.Outcome State Fault Refusal :=
  run s (s.eretM p .retry d a)

/-- ERET.skip (R377). -/
def execEretSkip (p : Pred) (d a : Reg) (s : State) : Host.Outcome State Fault Refusal :=
  run s (s.eretM p .skip d a)

/-- ERET.deliver (R377). -/
def execEretDeliver (p : Pred) (d a : Reg) (s : State) : Host.Outcome State Fault Refusal :=
  run s (s.eretM p .deliver d a)

/-- ERET.kill (R377). -/
def execEretKill (p : Pred) (d a : Reg) (s : State) : Host.Outcome State Fault Refusal :=
  run s (s.eretM p .kill d a)

end Sys2Proof.Machine
end

