-- ==== Sys2Proof/Machine/Firmware.lean ====
section
/-! DEFINITION. OBJSET, OBJINV, XMOVE and the Coachman's fault queue (R76 to R90). -/

namespace Sys2Proof.Machine

/-! ## The operand pair (R86) and the checks of R87 -/

/-- The operand pair of the three forms. -/
structure ObjArg where
  xidx : Nat
  on : Nat
  ctx : Nat
  ok : Bool
  deriving DecidableEq, Repr

/-- The pair read; `ext` where the form uses XIDX. R86 says that XIDX is zero where a form does not use it: one
that is not answers BADFIELD, like a reserved bit (the model's choice: R87 does not say). -/
def objArg (v : DWord) (ext : Bool) : ObjArg :=
  { xidx := fld v 0 28, on := fld v 32 20, ctx := fld v 56 3,
    ok := fld v 28 4 == 0 && fld v 52 4 == 0 && fld v 59 5 == 0 && (ext || fld v 0 28 == 0) }

/-- The context is resident. -/
def State.resident (s : State) (c : Nat) : Bool := decide (c < 8) && (s.ctx c).state != .empty

/-- The object number names an entry of a resident context's table. -/
def State.objOk (s : State) (a : ObjArg) : Bool :=
  s.resident a.ctx && a.on != 0 && decide (a.on < (s.ctx a.ctx).otl)

/-- A descriptor's reserved bits and values (R72). -/
def Desc.formOk (d : Desc) : Bool :=
  decide (fld d.w0 44 4 ≤ 3) && fld d.w0 48 2 != 3 && (fld d.w0 48 2 == 0 || fld d.w0 44 4 == 2) &&
  !d.w0.getLsbD 51 && decide (fld d.w0 52 4 ≤ 7) && fld d.w0 56 8 == 0 &&
  fld d.w1 0 3 == 0 && fld d.w1 50 14 == 0

/-- An extent entry with P = 1 is well formed for extents of 2^lg bytes (R76, R87). -/
def extFormOk (e : DWord) (lg : Nat) : Bool :=
  fld e 6 2 == 0 && fld e 30 34 == 0 && extApl e != 3 && (extApl e != 2 || extBias e) &&
  (lg == 16 || extBase e % 32 == 0) && decide (extBase e ≤ 2197264) &&
  (List.range (2 ^ (lg - 16))).all fun i => !Config.reserved (extHome e * 2 ^ 38 + (extBase e + i) * 2 ^ 16)

/-- The device physical address of an object's extent entry. -/
def Desc.entryAt (d : Desc) (i : Nat) : Nat := d.xlist + 8 * i

/-- A three-operand SYS form's frame: privileged, operands in the window, status to D. -/
def State.sysM (s : State) (p : Pred) (d : Reg) (rs : List Nat)
    (k : Group → Core → Nat → M (Nat × State)) : M State :=
  s.privM p fun g x t lo => do
    needRegs g (d.toNat :: rs) lo
    let r ← k g x lo
    .ok (r.2.putAll t d.toNat (BitVec.ofNat 32 r.1)).next

/-- Park the sequencer in a changed state. -/
def parkIn {α : Type} (s : State) : M α := .error (.state s.park)

/-! ## OBJSET (R88) and the waking of what waits for an extent (R81) -/

/-- Log entries that wait for an extent become ready. -/
def Group.wakeLog (g : Group) (on ext : Nat) : Group :=
  { g with log := g.log.map fun e => if e.st == .waiting on ext then { e with st := .ready } else e }

/-- One waiter of the fault queue served now that its extent is present: a step at a waybill's home, a
remote device's ink request; the others try again of themselves. -/
def State.serveFault (s : State) (f : FaultRec) : State :=
  match f.who with
  | .ink h m => s.inkAgain h m f.ctx
  | w => s.doChore w

/-- An extent becomes present. -/
def State.extentArrived (s : State) (ctx on ext : Nat) : State :=
  let mine := fun (f : FaultRec) => f.ctx == ctx && f.on == on && f.ext == ext
  let fs := s.faults.filter mine
  let wake := fun (g : Group) => if g.ctx == ctx then g.wakeLog on ext else g
  let s1 : State := { s with
    faults := s.faults.filter fun f => !mine f
    cores := s.cores.map fun e =>
      (e.1, { e.2 with groups := e.2.groups.map fun q => (q.1, wake q.2) }) }
  fs.foldl State.serveFault s1

/-- OBJSET of a descriptor: the status and the state. -/
def State.objsetDesc (s : State) (a : ObjArg) (d : Desc) : Nat × State :=
  if !a.ok || !d.formOk then (1, s)
  else if !s.objOk a then (3, s)
  else
    let at_ := (s.ctx a.ctx).otb + 16 * a.on
    (0, s.storeBytes fwCtx at_ (bytesOfWords [d.w0, d.w1]))

/-- OBJSET of an extent entry. -/
def State.objsetExt (s : State) (a : ObjArg) (e : DWord) : Nat × State :=
  let here := s.objOk a
  let d := fetchDesc s 0 a.ctx a.on
  let old := extEntry s d a.xidx
  let listed := here && d.v && decide (a.xidx < d.extents)
  if !a.ok || (extP e && !extFormOk e (if here && d.v then d.extLog else 16)) then (1, s)
  else if listed && extP old && extP e &&
      (extHome e != extHome old || extBias e != extBias old || extBase e != extBase old) then (2, s)
  else if !listed then (3, s)
  else
    let s1 := s.storeBytes fwCtx (d.entryAt a.xidx) (bytesOfWords [e])
    (0, if extP e && !extP old then s1.extentArrived a.ctx a.on a.xidx else s1)

/-- The key of the sequencer whose turn it is. -/
def State.seqKey (s : State) : Nat := 64 * s.cur.core + s.cur.slot

/-- An XMOVE of another sequencer is under way on an extent that `p` names: OBJSET, OBJINV and XMOVE of it
wait (R90). -/
def State.moveUnder (s : State) (p : Moving → Bool) : M Unit :=
  parkIf (s.moving.any fun m => m.key != s.seqKey && p m)

/-- OBJSET descriptor (R86 to R88). -/
def execObjsetDesc (p : Pred) (d a b : Reg) (s : State) : Host.Outcome State Fault Refusal :=
  run s (s.sysM p d ([a.toNat, a.toNat + 1] ++ (List.range 4).map fun i => b.toNat + i) fun g x lo => do
    let o := objArg (g.pair x a.toNat lo) false
    s.moveUnder fun m => m.ctx == o.ctx && m.on == o.on
    .ok (s.objsetDesc o ⟨g.pair x b.toNat lo, g.pair x (b.toNat + 2) lo⟩))

/-- OBJSET extent (R86 to R88). -/
def execObjsetExt (p : Pred) (d a b : Reg) (s : State) : Host.Outcome State Fault Refusal :=
  run s (s.sysM p d [a.toNat, a.toNat + 1, b.toNat, b.toNat + 1] fun g x lo => do
    let o := objArg (g.pair x a.toNat lo) true
    s.moveUnder fun m => m.ctx == o.ctx && m.on == o.on && m.ext == o.xidx
    .ok (s.objsetExt o (g.pair x b.toNat lo)))

/-! ## OBJINV (R89) -/

/-- A request passed its check with descriptors that a removal names (R89): of its sides, or of the scale
bytes of its tensors. -/
def CopyReq.uses (q : CopyReq) (mine : Nat → Nat → Bool) : Bool :=
  let scales := (q.hsrc.toList ++ q.hdst.toList).map fun h => ptrOn (recWord h.words 1)
  ([ptrOn (q.word 0), ptrOn (q.word 1)] ++ scales).any fun on => mine q.ctx on

/-- The requests that a removal names, queued, running or saved, marked. -/
def State.markOld (s : State) (mine : Nat → Nat → Bool) : State :=
  let req := fun (q : CopyReq) => if q.uses mine then { q with old := true } else q
  let run := fun (t : Transfer) => { t with req := req t.req }
  let core := fun (x : Core) => { x with copyq := x.copyq.map req, active := x.active.map run }
  let save := fun (c : SavedCore) => { c with copyq := c.copyq.map req }
  let cont := fun (c : Cont) => { c with copyq := c.copyq.map fun e => (e.1, req e.2) }
  let ctx := fun (c : Ctx) => { c with
    conts := c.conts.map cont, saved := c.saved.map fun e => (e.1, save e.2)
    copies := c.copies.map fun e => (e.1, req e.2) }
  { s with cores := s.cores.map fun e => (e.1, core e.2), ctxs := s.ctxs.map fun e => (e.1, ctx e.2) }

/-- Every access checked before time `t` has completed at its home: what was sent before has arrived, and
no copy request marked old is left. A plain store whose words are still dirty in its core's L1, and a CADD whose
sum is still in an open partial, have been performed there and go home at a later write-through point under no
check: neither is waited for (the model's choice: R89 names no such case). -/
def State.accessesDone (s : State) (t : Nat) : Bool :=
  let wrote := fun (w : WtMsg) => decide (t ≤ w.sent)
  let off := fun (q : CopyReq) => !q.old
  (s.fills.all fun f => decide (t ≤ f.sent)) && (s.atoms.all fun q => decide (t ≤ q.sent)) &&
  (s.inks.all fun q => decide (t ≤ q.sent)) && (s.inkWait.all fun q => decide (t ≤ q.sent)) &&
  s.wts.all wrote && s.hostWrites.all wrote && (s.cores.all fun e => e.2.requests.all off) &&
  s.ctxs.all fun e => (e.2.conts.all fun c => c.copyq.all fun q => off q.2) &&
    (e.2.saved.all fun c => c.2.copyq.all off) && e.2.copies.all fun q => off q.2

/-- Entries of an object, or of a whole context, removed from every descriptor cache and extent
cache (R89), and its decided copies with them (R115). -/
def State.invalidate (s : State) (ctx : Nat) (on : Option Nat) : State :=
  let mine := fun (c o : Nat) => c == ctx && (match on with | some k => o == k | none => true)
  let other := fun (q : Decided) => !mine q.ctx (ptrOn q.ptr)
  let keep := fun (x : Core) => { x with
    desc := x.desc.filter fun e => !mine e.1 e.2.1
    decided := x.decided.filter other }
  { s with
    cores := s.cores.map fun e => (e.1, keep e.2)
    dies := s.dies.map fun e => (e.1, { e.2 with l2decided := e.2.l2decided.filter other })
    clusters := s.clusters.map fun e =>
      (e.1, { e.2 with extents := e.2.extents.filter fun q => !mine q.1 q.2.1 }) }

/-- A sequencer's removal, and its XMOVE, are done. -/
def State.settled (s : State) (key : Nat) : State :=
  { s with invs := s.invs.filter fun q => q.key != key, moving := s.moving.filter fun m => m.key != key }

/-- The sequencer's wait for the accesses checked before its removal goes on, or ends with OK. -/
def State.awaitOld (s : State) (r : Removal) : M (Nat × State) :=
  if s.accessesDone r.time then .ok (0, s.settled r.key) else .error .park

/-- Entries have been removed in this step: OK at once, or the wait begins. -/
def State.removed (s : State) : M (Nat × State) :=
  if s.accessesDone s.steps then .ok (0, s.settled s.seqKey)
  else parkIn { s with invs := s.invs ++ [{ key := s.seqKey, time := s.steps }] }

/-- The removal that the sequencer of the turn waits on. -/
def State.removal (s : State) : Option Removal := s.invs.find? fun r => r.key == s.seqKey

/-- OBJINV and OBJINV.all (`all`): the entries go at once, and the sequencer then waits for the accesses
checked against them. -/
def State.objinvM (s : State) (a : ObjArg) (all : Bool) : M (Nat × State) :=
  match s.removal with
  | some r => s.awaitOld r
  | none => do
    s.moveUnder fun m => m.ctx == a.ctx && (all || m.on == a.on)
    if !a.ok then .ok (1, s)
    else if (if all then !s.resident a.ctx else !s.objOk a) then .ok (3, s)
    else
      let mine := fun (c o : Nat) => c == a.ctx && (all || o == a.on)
      ((s.invalidate a.ctx (if all then none else some a.on)).markOld mine).removed

/-- OBJINV of one object (R89). -/
def execObjinv (p : Pred) (d a : Reg) (s : State) : Host.Outcome State Fault Refusal :=
  run s (s.sysM p d [a.toNat, a.toNat + 1] fun g x lo =>
    s.objinvM (objArg (g.pair x a.toNat lo) false) false)

/-- OBJINV of a whole context (R89): ON and XIDX are ignored. -/
def execObjinvAll (p : Pred) (d a : Reg) (s : State) : Host.Outcome State Fault Refusal :=
  run s (s.sysM p d [a.toNat, a.toNat + 1] fun g x lo =>
    s.objinvM (objArg (g.pair x a.toNat lo) true) true)

/-! ## XMOVE (R85, R90) -/

/-- A context runs a team. -/
def State.anyTeam (s : State) (c : Nat) : Bool :=
  s.teams.any fun e => e.2.live && e.2.ctx == c && !e.2.cores.isEmpty

/-- A context has an engine operation outstanding: a copy, an array command, a collective. -/
def State.anyEngine (s : State) (c : Nat) : Bool :=
  (s.cores.any fun e => e.2.requests.any fun q => q.ctx == c) ||
  ((s.ctx c).state == .running && s.cores.any fun e => e.2.arrays.any fun a => !a.queue.isEmpty) ||
  s.colls.any fun q => q.ctx == c && q.started

/-- Some word stored by the running context is dirty in an L1 or on its way home, or a sum of its CADDs still
open; firmware's own lines lie in reserved ranges, which are whole 64 KiB extents (R69). -/
def State.anyDirty (s : State) : Bool :=
  let mine := fun (line : Nat) => !Config.reserved (line / 512 * 65536)
  (s.cores.any fun e => e.2.partials.any fun q => !q.o.isEmpty) ||
    (s.cores.any fun e => e.2.l1.any fun l => l.dirty != 0 && mine l.line) || s.wts.any fun w => mine w.line

/-- The context is quiesced (R85): it runs no team, has no engine operation outstanding and no dirty word
on any core; one that does not run has none (R385). -/
def State.quiesced (s : State) (c : Nat) : Bool :=
  (s.ctx c).state != .running || (!s.anyTeam c && !s.anyEngine c && !s.anyDirty)

/-- The lines of an extent. -/
def extLines (d : Desc) (e : DWord) : List Nat :=
  (List.range (2 ^ d.extLog / 128)).map fun i => extAddr d e 0 / 128 + i

/-- Step 1 of R90: every copy of the lines goes, and the home writes them back and forgets them. Watches that the
home keeps for the lines (R117, R118, R311) go with its entries, and no notice is sent for them (the model's
choice: the spec does not say). -/
def State.dropExtent (s : State) (a n : Nat) : State :=
  let here := fun l => decide (a ≤ l) && decide (l < a + n)
  let s1 := s.cores.foldl (fun (s : State) e =>
    (e.2.l1.filter fun c => here c.line).foldl (fun s c => s.dropCopy e.1 c.line) s) s
  (s1.dir.filter fun e => here e.1).foldl (fun s e => (s.combine e.1).evictLine e.1) s1

/-- Step 2: `n` bytes copied from `a` to `b`, with their sectors' ECC state. -/
def State.moveBytes (s : State) (a b n : Nat) : State :=
  let inR := fun (lo k x : Nat) => decide (lo ≤ x) && decide (x < lo + k)
  let kept := s.mem.filter fun c => !inR b n c.1
  let keptE := s.ecc.filter fun c => !inR (b / 32) (n / 32) c.1
  { s with
    mem := (s.mem.filter fun c => inR a n c.1).foldl (fun m c => memWrite m (c.1 - a + b) c.2) kept
    ecc := (s.ecc.filter fun c => inR (a / 32) (n / 32) c.1).foldl
      (fun t c => tabSet t (c.1 - a / 32 + b / 32) c.2) keptE }

/-- Steps 1 and 2 of XMOVE. -/
def State.moveBegin (s : State) (d : Desc) (old new : DWord) : State :=
  let n := 2 ^ d.extLog
  let s1 := s.dropExtent (extAddr d old 0 / 128) (n / 128)
  if extAddr d old 0 = extAddr d new 0 then s1 else s1.moveBytes (extAddr d old 0) (extAddr d new 0) n

/-- Steps 4 and 5 of XMOVE: the new entry, and the extent out of every extent cache. -/
def State.moveEnd (s : State) (a : ObjArg) (d : Desc) (new : DWord) : State :=
  let s1 := s.storeBytes fwCtx (d.entryAt a.xidx) (bytesOfWords [new])
  let keep := fun (q : Nat × Nat × Nat × DWord) =>
    !(q.1 == a.ctx && q.2.1 == a.on && q.2.2.1 == a.xidx)
  { s1 with clusters := s1.clusters.map fun e =>
      (e.1, { e.2 with extents := e.2.extents.filter keep }) }

/-- The first status but OK that XMOVE's checks give (R87). A new entry with P = 0, which R90 forbids and to
which it gives no status, is a field's bad value (the model's choice). -/
def State.xmoveBad (s : State) (a : ObjArg) (d : Desc) (old e : DWord) : Option Nat :=
  let here := s.objOk a
  if !a.ok || !extP e || !extFormOk e (if here && d.v then d.extLog else 16) then some 1
  else if !here || !d.v || decide (a.xidx ≥ d.extents) then some 3
  else if !d.grants .m then some 4
  else if !s.quiesced a.ctx then some 5
  else if !extP old then some 6
  else none

/-- XMOVE: steps 1 and 2 when it is issued; the host's GO on every line of an extent that leaves host bias
(step 3, R415); then steps 4 and 5, with OBJINV's wait. -/
def State.xmoveM (s : State) (a : ObjArg) (e : DWord) : M (Nat × State) :=
  let d := fetchDesc s 0 a.ctx a.on
  let old := extEntry s d a.xidx
  match s.removal with
  | some r => s.awaitOld r
  | none =>
    if s.moving.any fun m => m.key == s.seqKey then
      if s.moves.any fun m => m.2 == s.seqKey then .error .park
      else (s.moveEnd a d e).removed
    else do
      s.moveUnder fun m => m.ctx == a.ctx && m.on == a.on && m.ext == a.xidx
      match s.xmoveBad a d old e with
      | some k => .ok (k, s)
      | none =>
        let m : Moving := { key := s.seqKey, ctx := a.ctx, on := a.on, ext := a.xidx }
        let s1 : State := { s.moveBegin d old e with moving := s.moving ++ [m] }
        if extBias old && !extBias e then
          parkIn { s1 with moves := s.moves ++ (extLines d old).map fun l => (l, s.seqKey) }
        else (s1.moveEnd a d e).removed

/-- XMOVE (R90). -/
def execXmove (p : Pred) (d a b : Reg) (s : State) : Host.Outcome State Fault Refusal :=
  run s (s.sysM p d [a.toNat, a.toNat + 1, b.toNat, b.toNat + 1] fun g x lo =>
    s.xmoveM (objArg (g.pair x a.toNat lo) true) (g.pair x b.toNat lo))

/-! ## FAULT_REFUSAL (R82, R108, R133, R360, R365) -/

/-- A pointer lies in extent `ext` of object `on`. -/
def State.inExtent (s : State) (core ctx on ext : Nat) (p : DWord) : Bool :=
  ptrOn p == on && ptrOfs p / 2 ^ (fetchDesc s core ctx on).extLog == ext

/-- EXT_ABSENT for a group stalled at an instruction (R82, R368): ADDR is the fetched pointer, or the
first pointer of an extent that the instruction's operands name. -/
def State.refuseStall (s : State) (core slot : Nat) (on ext : Nat) : State :=
  match s.group core slot with
  | none => s
  | some g =>
    match g.fetchPc with
    | none => s
    | some f =>
      let w := match s.fetch core g.ctx f with | .word w => w | _ => 0
      let s1 := (s.turn core slot (g.streamMask f) f w).takeTrap
        ⟨.extAbsent, (lowestLane (g.streamMask f)).getD 0,
          if s.inExtent core g.ctx on ext f then f
          else mkPtr on (ext * 2 ^ (fetchDesc s core g.ctx on).extLog), 0⟩
      { s1 with cur := s.cur }

/-- EXT_ABSENT for the first log entry that waits for an extent (R82): LANE and ADDR are those of the
lowest lane that meets it (R372). -/
def State.refuseLog (s : State) (f : FaultRec) (core slot : Nat) : State :=
  match s.group core slot with
  | none => s
  | some g =>
    match g.log.filter fun e => e.st == .waiting f.on f.ext with
    | [] => s
    | e :: rest =>
      let hit := e.op.req.elems.find? fun a => s.inExtent core g.ctx f.on f.ext a.ptr
      let s1 := (s.updGroup core slot fun g => g.setEntry e.op.id g.heldAs).takeLogged core slot e.op
        ⟨.extAbsent, (hit.map Elem.lane).getD ((lowestLane e.op.mask).getD 0),
          (hit.map Elem.ptr).getD 0, 0⟩
      if rest.isEmpty then s1 else s1.fault f

/-- FAULT_REFUSAL: the Coachman refuses the n-th record of its fault queue. A group with a trap pending
takes none: the refusal is a record in the error queue (R373). A step at a waybill's own home that is
refused is reported and not made (the spec does not say). -/
def execFaultRefusal (n : Nat) (s : State) : Host.Outcome State Fault Refusal :=
  match s.faults[n]? with
  | none => .next s
  | some f =>
    let s1 : State := { s with faults := listDrop1 s.faults n }
    match f.who with
    | .log core slot => .next (s1.refuseLog f core slot)
    | .stall core slot => .next (s1.refuseStall core slot f.on f.ext)
    | .copy core seq => .next (s1.updTransfer core seq fun t => { t with paused := none, cause := .extAbsent })
    | .queue ctx q =>
      .next (match s1.headWb ((s1.ctx ctx).queues.getD q RQueue.zero) with
        | some wb => (s1.wbRecord ctx wb 0).leaveQueue ctx q
        | none => s1)
    | .succ ctx wb succ i left => .next ((s1.wbRecord ctx wb i).successors ctx wb succ (i + 1) (left - 1))
    | .ended gid _ | .failed gid =>
      .next (match tabFind s1.grids gid with | some g => s1.wbRecord g.ctx g.wb 0 | none => s1)
    | .ink h m => .next (s1.inkAnswer h m 0 0 Cause.extAbsent.code)

end Sys2Proof.Machine
end

