-- ==== Sys2Proof/Machine/Boot.lean ====
section
/-! DEFINITION. Power-on, the start of a die and of firmware, RPAIR and the repair summary (R434 to
R443). -/

namespace Sys2Proof.Machine

/-! ## Firmware groups (R440) -/

/-- A firmware group: one lane, every register and predicate zero. -/
def fwGroup (pc : DWord) : Group :=
  { newGroup fwCtx 0 0 1 0 0 { vec := 0, tile := 0, acc := 0 } (List.replicate 8 0) pc false with
    fw := true }

/-- A firmware agent starts in a slot. -/
def State.startFw (s : State) (core slot agent : Nat) : State :=
  s.setGroup core slot (fwGroup (s.fwEntry agent))

/-! ## The start of a die (R395, R434, R436) -/

/-- The repair table after the hardware self-test: bad spares marked, no entry in use. -/
def selfTest (core resets : Nat) : Tab (BitVec 16) :=
  ((List.range 256).filter fun e => Config.spareBad core e resets).map fun e => (e, 0x200)

/-- A core in reset: the counts of clusters and changes, alike on every core, stand, and so do the arrays of
the running context, which a drain has saved (R384, R389). -/
def Core.inReset (x : Core) : Core :=
  { Core.init with clucnt := x.clucnt, topo := x.topo, arrays := x.arrays }

/-- A core after its die's reset. -/
def Core.fresh (x : Core) (core resets : Nat) : Core := { x.inReset with repair := selfTest core resets }

/-- Cores of a die, and its clusters. -/
def dieCores (d : Nat) : List Nat := (List.range 64).map fun i => 64 * d + i

/-- The sixteen clusters of a die. -/
def dieClusters (d : Nat) : List Nat := (List.range 16).map fun i => 16 * d + i

/-- A cluster of a die that leaves reset: what the Coachman knows of its scans stands (R390). -/
def Cluster.fresh (k : Cluster) : Cluster := { Cluster.init with lastPass := k.lastPass }

/-- A die leaves reset: slices with empty directories, cores as at reset, scribes started. -/
def State.dieStart (s : State) (d : Nat) : State :=
  let n := (s.die d).resets + 1
  let s1 := s.updDie d fun x => { x with
    out := false, resets := n, clock := 0, portsUp := true, l2decided := [], hold := .none }
  let here := s1.dir.filter fun e => lineDie e.1 == d
  let s2 : State := { s1 with
    dir := s1.dir.filter fun e => lineDie e.1 != d
    cores := s1.cores.map fun e => (e.1, here.foldl (fun x l => x.restartVer l.1 l.2.ver) e.2) }
  let s3 := (dieCores d).foldl (fun (s : State) c =>
    (s.setCore c ((s.core c).fresh c n)).startFw c scribeSlot c) s2
  (dieClusters d).foldl (fun (s : State) k => s.updCluster k Cluster.fresh) s3

/-! ## POWER_ON (R432, R434) -/

/-- TYPE of an image (R431). -/
def imageType (b : List Byte) : Nat := ((b[4]?).getD 0).toNat

/-- SVN of an image (R431). -/
def imageSvn (b : List Byte) : Nat := natOfBytes ((b.drop 6).take 2)

/-- The image held in flash for a type. -/
def State.flashOf (s : State) (t : Nat) : Flash := tabGet { image := [], minSvn := 0 } s.flash t

/-- A field of an image's header. -/
def imageNat (b : List Byte) (lo n : Nat) : Nat := natOfBytes ((b.drop lo).take n)

/-- The bytes are an image (R431): its header's fixed fields, and a body and a signature block after it. -/
def imageForm (b : List Byte) : Bool :=
  imageNat b 0 4 == 0x394B474B && decide (imageType b ≤ 5) && imageNat b 60 4 == 0 &&
  decide (b.length = 64 + imageNat b 8 4 + 3373)

/-- The digest matches the body. -/
def digestOk (b : List Byte) : Bool :=
  (b.drop 12).take 48 == sha384 ((b.drop 64).take (imageNat b 8 4))

/-- The key that an image's KEYID names: a root key whose hash lies in the Stationer's mask ROM, or one that the
accepted manifest in flash lists. None while flash holds no manifest. -/
def State.keyOf (s : State) (b : List Byte) : Option (List Byte) :=
  let id := imageNat b 5 1
  if id = 0 then
    let k := Config.rootKey b
    if Config.romKey k then some k else none
  else
    match (s.flashOf 0).image with
    | [] => none
    | m => Config.manifestKey m id

/-- Both signatures of an image, over its header, verify against a key (R431, R432). -/
def signedBy (b key : List Byte) : Bool :=
  let msg := b.take 64
  let sigs := b.drop (64 + imageNat b 8 4)
  Config.ed25519 key msg (sigs.take 64) && Config.mldsa65 key msg ((sigs.drop 64).take 3309)

/-- An image is accepted (R432). Bytes that are no image as R431 lays one out are refused (the model's
reading). -/
def State.accepts (s : State) (b : List Byte) : Bool :=
  imageForm b && (s.keyOf b).any (signedBy b) && digestOk b &&
  decide (imageSvn b ≥ (s.flashOf (imageType b)).minSvn)

/-- An accepted image whose header asks for it raises the minimum SVN of its type. -/
def State.raiseSvn (s : State) (b : List Byte) : State :=
  if Config.raisesSvn b then
    let f := s.flashOf (imageType b)
    { s with flash := tabSet s.flash (imageType b) { f with minSvn := max f.minSvn (imageSvn b) } }
  else s

/-- The image that flash holds for a type is accepted. -/
def State.flashOk (s : State) (t : Nat) : Bool :=
  s.accepts (s.flashOf t).image && imageType (s.flashOf t).image == t

/-- Every image that boot needs is accepted (R434 steps 1 and 2). -/
def State.imagesOk (s : State) : Bool := (List.range 6).all s.flashOk

/-- The images that boot verifies raise the minima that they ask for (R432). -/
def State.bootSvns (s : State) : State :=
  (((List.range 6).filter s.flashOk).map fun t => (s.flashOf t).image).foldl State.raiseSvn s

/-- The compute rails come up: the images in flash are the ones that run, memory holds what boot places in it,
and every die starts, but for one that the Stationer holds in reset (R422). -/
def State.railsUp (s : State) : State :=
  let images := (List.range 6).map fun t => (s.flashOf t).image
  let s1 : State := { s with
    boot := .testing
    booted := images
    mem := (Config.fwMemory images).foldl (fun m c => memWrite m c.1 c.2) [] }
  let table := Config.fwTable images
  let s2 := s1.updCtx fwCtx fun c => { c with otb := table.1.toNat, otl := table.2.toNat }
  ((List.range 4).filter fun d => (s2.die d).hold != .off).foldl State.dieStart s2

/-- A boot: the images are verified; if one fails the compute dies stay in reset. -/
def State.bootUp (s : State) : State :=
  let s1 := s.bootSvns
  if s.imagesOk then s1.railsUp else { s1 with boot := .refused }

/-- POWER_ON: the device boots; a device that is up already is left as it is. -/
def execPowerOn (s : State) : Host.Outcome State Fault Refusal :=
  .next (match s.boot with
    | .off | .refused => s.bootUp
    | _ => s)

/-! ## RPAIR (R438, R439) -/

/-- NBANK, NROW and NSPARE of the configuration block (R435). -/
def Core.tested (x : Core) : Nat × Nat × Nat := (fld x.cfgW0 0 7, fld x.cfgW0 7 9, fld x.cfgW0 16 3)

/-- Entry `e` of the repair table (R436). -/
def Core.repairEntry (x : Core) (e : Nat) : BitVec 16 := tabGet 0 x.repair e

/-- The lowest good spare of a bank that is not in use. -/
def Core.goodSpare (x : Core) (bank : Nat) : Option Nat :=
  firstFrom (fun e => !(x.repairEntry e).getLsbD 8 && !(x.repairEntry e).getLsbD 9) (4 * bank)
    x.tested.2.2

/-- A row of a bank recorded: the status of R439 and the core. What the spare holds until it is
written is unknown (R436): `junk`. -/
def Core.record (x : Core) (bank row : Nat) (junk : Line) : Nat × Core :=
  let same := fun e => (x.repairEntry e).getLsbD 8 && (x.repairEntry e).extractLsb' 0 8 == BitVec.ofNat 8 row
  if (List.range 4).any (fun s => same (4 * bank + s)) || x.retired.contains bank then (2, x)
  else
    match x.goodSpare bank with
    | some e => (0, { x with
        repair := tabSet x.repair e (BitVec.ofNat 16 (256 + row))
        spares := tabSet x.spares e junk })
    | none => (3, { x with
        retired := x.retired ++ [bank]
        roles := { x.roles with cache := x.roles.cache.filter (· != bank) } })

/-- The summary raised (R437, R439). -/
def Core.raise (x : Core) (tcode : BitVec 8) : Core :=
  { x with
    nrep := BitVec.ofNat 8 (x.repair.filter fun e => e.2.getLsbD 8).length
    nret := BitVec.ofNat 7 x.retired.length
    tcode := tcode
    fail := decide (x.tested.1 < x.retired.length + 16)
    done := true }

/-- The starting roles that the shipped firmware forms (R141): 1 REG and 2 SHADOW banks. -/
def State.formRoles (s : State) (core : Nat) : State :=
  [WRole.reg, .shadow, .shadow].foldl (fun (s : State) r => (s.growOne core 0 r).getD s) s

/-- Every core of the dies that are not in reset has raised its summary. -/
def State.allDone (s : State) : Bool :=
  allCores.all fun c => (s.die (dieOf c)).out || (s.core c).done

/-- Boot step 5 (R434): the Coachman starts and READY is set, once every core is tested. -/
def State.checkBoot (s : State) : State :=
  if s.boot == .testing && s.allDone then
    (List.range 4).foldl (fun (s : State) i => s.startFw coachman i (256 + i)) { s with boot := .ready }
  else s

/-- What follows a core's raised summary: its starting roles, or its cluster stays out (R437). -/
def State.raised (s : State) (core : Nat) : State :=
  let x := s.core core
  let s1 := if x.fail || x.tcode != 0 then
      s.updCluster (clusterOf core) fun k => { k with withdrawn := true }
    else s.formRoles core
  s1.checkBoot

/-- RPAIR of the sequencer of `core` (R439). -/
def State.rpairM (s : State) (core : Nat) (v : Word) (done : Bool) : Nat × State :=
  let x := s.core core
  let bank := (v.extractLsb' 0 6).toNat
  let row := (v.extractLsb' 6 8).toNat
  if core ≥ 256 then (5, s)
  else if x.done then (4, s)
  else if done then
    if v.toNat ≥ 256 then (1, s) else (0, (s.setCore core (x.raise (v.extractLsb' 0 8))).raised core)
  else if v.toNat ≥ 2 ^ 14 ∨ bank ≥ x.tested.1 ∨ row ≥ x.tested.2.1 then (1, s)
  else let r := x.record bank row (Config.spareRow s.steps); (r.1, s.setCore core r.2)

/-- RPAIR (R439). -/
def execRpair (p : Pred) (d a : Reg) (s : State) : Host.Outcome State Fault Refusal :=
  run s (s.sysM p d [a.toNat] fun g x lo => .ok (s.rpairM s.cur.core (g.reg x a.toNat lo) false))

/-- RPAIR.done (R439). -/
def execRpairDone (p : Pred) (d a : Reg) (s : State) : Host.Outcome State Fault Refusal :=
  run s (s.sysM p d [a.toNat] fun g x lo => .ok (s.rpairM s.cur.core (g.reg x a.toNat lo) true))

end Sys2Proof.Machine
end

