-- ==== Sys2Proof/Machine/Matrix.lean ====
section
/-! DEFINITION. The matrix engine (chapter 14): fragments, accumulators, streams, the eight
instructions and the step of a stream. -/

namespace Sys2Proof.Machine

/-! ## Accumulators (R260) -/

/-- An accumulator lies whole in the MAT part (R166). -/
def Group.accOk (g : Group) (a : Nat) : Bool :=
  decide (matPart ≤ accAt g.views a) && g.inWindow (accAt g.views a) 16384

/-- The state outside an accumulator's bytes. -/
def Group.acc (g : Group) (b : Nat) : Acc := (g.accs[b]?).getD { z := false, rowf := 0, colf := 0 }

/-- That state changed. -/
def Group.updAcc (g : Group) (b : Nat) (f : Acc → Acc) : Group := { g with accs := listUpd f g.accs b }

/-- Element `i` (row-major) of an accumulator at offset `o`. -/
def Group.accElem (g : Group) (x : Core) (o i : Nat) : Word := BitVec.ofNat 32 (g.winNat x (o + 4 * i) 4)

/-! ## Fragments (R258, R262) -/

/-- One element of a fragment: `rd` reads bytes from the fragment's start, `len` elements to a row. -/
def fragCode (rd : Nat → Nat → Nat) (fmt len r c : Nat) : Nat :=
  if fmt = 6 then rd (len / 2 * r + c / 2) 1 / 16 ^ (c % 2) % 16
  else rd (fmtBits fmt / 8 * (len * r + c)) (fmtBits fmt / 8)

/-- The exact value of an element (R203, R207); `sc` reads scale bytes, `nb` blocks to a row. -/
def fragVal (rd : Nat → Nat → Nat) (sc : Nat → Nat) (fmt len nb r c : Nat) : Val :=
  if fmt = 6 then nibDecode (sc (nb * r + c / 128)) (fragCode rd fmt len r c)
  else decodeVal fmt (fragCode rd fmt len r c)

/-- NaN, an infinity or an element of a block with E = 63 (R262). -/
def Val.isSpecial : Val → Bool
  | .fin _ _ _ => false
  | _ => true

/-- What the array uses of an element (R262). -/
def Val.plain : Val → Val
  | .fin n m e => .fin n m e
  | _ => .fin false 0 0

/-- Rows of a fragment: 64 lists of values. -/
def fragRows (rd : Nat → Nat → Nat) (sc : Nat → Nat) (fmt len nb : Nat) : List (List Val) :=
  (List.range 64).map fun r => (List.range len).map fun c => fragVal rd sc fmt len nb r c

/-- The rows with a special element, as a mask. -/
def specials (rows : List (List Val)) : BitVec 64 :=
  lanesWhere fun i => match rows[i]? with | some r => r.any Val.isSpecial | none => false

/-- The exact sum of products of two rows of equal length (R261); zero counts as +0. -/
def dot (a b : List Val) : Int × Int :=
  match exactSum .rne ((a.zip b).map fun e => e.1.plain.mul e.2.plain) with
  | .fin _ 0 _ => (0, 0)
  | .fin n m e => (if n then -(m : Int) else m, e)
  | _ => (0, 0)

/-- STEP_ELEMENT of R261: the element's new value, and whether it saturated. -/
def stepElement (acc : Word) (n e : Int) : Word × Bool :=
  match decodeVal 1 acc.toNat with
  | .nan => (BitVec.ofNat 32 fp32.nanCode, false)
  | .inf _ => (acc, false)
  | v =>
    let s : Val := if n = 0 then .fin false 0 0 else .fin (decide (n < 0)) n.natAbs e
    let r := encodeVal 1 .rne false (exactSum .rne [v, s])
    match decodeVal 1 r with
    | .inf neg => (if neg then 0xFF7FFFFF else 0x7F7FFFFF, true)
    | _ => (BitVec.ofNat 32 r, false)

/-! ## Structured sparsity (R263, R264) -/

/-- N of a META record's NSEL (R265). -/
def keptOf (nsel : Nat) : Nat := [3, 4, 6, 8].getD nsel 3

/-- A metadata entry's kept positions; none for an invalid group. -/
def keptPositions (entry n : Nat) : Option (List Nat) :=
  let ps := (List.range 12).filter fun p => entry.testBit p
  if ps.length = n && decide (entry / 2 ^ 12 % 16 = n) then some ps else none

/-- Row i's kept values of A spread over the logical positions, and whether a group was invalid. -/
def spread (row : List Val) (entry : Nat → Nat) (n : Nat) : Nat → List Val × Bool
  | 0 => ([], false)
  | g + 1 =>
    let r := spread row entry n g
    match keptPositions (entry g) n with
    | none => (r.1 ++ List.replicate 12 (.fin false 0 0), true)
    | some ps =>
      let at_ := fun p => match ps.findIdx? (· == p) with
        | some t => (row[8 * g + t]?).getD (.fin false 0 0)
        | none => .fin false 0 0
      (r.1 ++ (List.range 12).map at_, r.2)

/-- Whether slot c of a stored row is examined (R262). -/
def examined (n c : Nat) : Bool := decide (c % 8 < n)

/-! ## One step -/

/-- What a step reads. -/
structure MRead where
  a : Nat → Nat → Nat
  b : Nat → Nat → Nat
  sa : Nat → Nat
  sb : Nat → Nat
  entry : Nat → Nat → Nat

/-- The sums of a step, its row and column flags, and whether a sparse group was invalid. -/
def stepSums (q : MSteps) (rd : MRead) : List MSum × BitVec 64 × BitVec 64 × Bool :=
  let d := mDense q.fmt
  let bl := mBlocks q.sp
  let n := keptOf (metaOf q.mrec).2.2
  let raw := fragRows rd.a rd.sa q.fmt (if q.sp then 2 * d else d) bl.1
  let seen := if q.sp then
      raw.map fun r => r.zipIdx.map fun e => if examined n e.2 then e.1 else .fin false 0 0
    else raw
  let bs := fragRows rd.b rd.sb q.fmt (if q.sp then 3 * d else d) bl.2
  let full := seen.zipIdx.map fun r =>
    if q.sp then spread r.1 (rd.entry r.2) n (mGroups q.fmt) else (r.1, false)
  (full.zipIdx.flatMap fun r => bs.zipIdx.map fun c =>
      let v := dot r.1.1 c.1
      { idx := 64 * r.2 + c.2, n := v.1, e := v.2 },
   specials seen, specials bs, full.any Prod.snd)

/-- Lines that some ranges touch. -/
def rangeLines (rs : List (Nat × Nat)) : List Nat :=
  dedup (rs.flatMap fun r => (List.range (r.2 / 128 + 1 - r.1 / 128)).filterMap fun i =>
    if 128 * (r.1 / 128 + i) < r.2 then some (r.1 / 128 + i) else none)

/-- Tiles the step reads through the window. -/
def MSteps.tiles (q : MSteps) (g : Group) : List Nat :=
  if q.scr then []
  else
    let n := mBytes q.fmt q.sp
    let f := q.frags
    ((List.range (n.1 / 2048)).map fun i => g.tileAt (f.1 + 2048 * i)) ++
    (List.range (n.2 / 2048)).map fun i => g.tileAt (f.2 + 2048 * i)

/-- The step's reads in the state as it stands. -/
def State.mread (s : State) (core : Nat) (g : Group) (q : MSteps) : MRead :=
  let x := s.core core
  let f := q.frags
  let m := metaOf q.mrec
  let c := scaleOf q.srec
  let bl := mBlocks q.sp
  let scr := fun a n => s.scrNat core g.team a n
  let rd := fun o a n => if q.scr then scr (o + a) n else g.winNat x (o + a) n
  { a := rd f.1, b := rd f.2
    sa := fun i => scr (c.1 + 64 * bl.1 * q.next + i) 1
    sb := fun i => scr (c.2 + 64 * bl.2 * q.next + i) 1
    entry := fun i k => scr (m.1 + i * m.2.1 + 2 * (mGroups q.fmt * q.next + k)) 2 }

/-- The first poisoned sector a step reads, in scratchpad or in the window. -/
def State.mpoison (s : State) (core : Nat) (g : Group) (q : MSteps) (acc : Nat) : Option Sector :=
  match q.stepRanges.findSome? fun r => s.scrBad core g.team r.1 (r.2 - r.1) with
  | some b => some b
  | none => (q.stepWindow ++ [(acc, acc + 16384)]).findSome? fun r =>
      g.winBad (s.core core) core r.1 (r.2 - r.1)

/-- The sums of a list added to an accumulator's elements. -/
def State.addSums (s : State) (core slot acc : Nat) (l : List MSum) : State :=
  match s.group core slot with
  | none => s
  | some g =>
    let x := s.core core
    let rs := l.map fun (v : MSum) => (v.idx, stepElement (g.accElem x acc v.idx) v.n v.e)
    let s1 := s.putWin core slot (rs.map fun r => (acc + 4 * r.1, r.2.1))
    if rs.any fun r => r.2.2 then s1.updGroup core slot fun g => { g with mstat := g.mstat ||| 1 } else s1

/-! ## MZERO, MDRAIN and MLDACC in their turn (R275 to R277) -/

/-- The poison marks of the sectors an operation has written whole go (R102). -/
def State.cleanRows (s : State) (core slot : Nat) (ws : List RowWrite) : State :=
  match s.group core slot with
  | none => s
  | some g => s.updCore core fun x => ws.foldl (fun x e =>
      match (g.wAddr (128 * e.row)).bind x.rowKey with
      | some k => { x with wellPoison :=
          x.wellPoison.filter fun p => !(p / 4 == k && (wholeSectors e.full).contains (p % 4)) }
      | none => x) x

/-- Accumulator blocks after an operation that writes them: no flags, and Z as it leaves it. -/
def Group.settleAccs (g : Group) (blocks : List Nat) (z : Option Bool) : Group :=
  blocks.foldl (fun g b => g.updAcc b fun a => { z := z.getD a.z, rowf := 0, colf := 0 }) g

/-- The rounding of an element of a drain or load of an accumulator (R211). -/
def State.mround (s : State) (g : Group) (w : DWord) (sl : Nat) (rc : BitVec 24) (n : Nat) : Rnd :=
  slotRounding w (srDraw (s.ctx g.ctx).rkey sl g.gidx (s.tid g) rc n)

/-- An element of a flagged row or column. -/
def Acc.flagged (c : Acc) (i : Nat) : Bool := c.rowf.getLsbD (i / 64) || c.colf.getLsbD (i % 64)

/-- The words of a row of an accumulator that are flagged, as NaNs to be written. -/
def Acc.nanRow (c : Acc) (o r : Nat) : RowWrite :=
  let bits : BitVec 32 := (List.range 32).foldl (fun b j =>
    if c.flagged (32 * r + j) then b ||| (1#32 <<< j) else b) 0
  let nans : Line := (List.range 32).foldl (fun l j => lineSet l (4 * j) 4 fp32.nanCode) 0
  { row := o / 128 + r, data := nans, left := wordBytes bits, full := wordBytes bits }

/-- What MDRAIN writes in its turn (R276): the accumulator's NaNs or, at the end, its zeros, and its block.
Of rows in both, what is written later stays: the block over the NaNs, the zeros over the block. -/
def State.drainRows (s : State) (core : Nat) (g : Group) (o : MOp) (w : DWord) (sl : Nat) (zr : Bool)
    (dst : Nat) (rc : BitVec 24) : List RowWrite :=
  let x := s.core core
  let at_ := accAt o.views o.acc
  let c := g.acc (accBlock o.views o.acc)
  let elem := fun i => if c.flagged i then BitVec.ofNat 32 fp32.nanCode else g.accElem x at_ i
  let es := fmtBits (slotFmt w) / 8
  let enc := fun i => encodeVal (slotFmt w)
    (s.mround g w sl rc i) (slotSat w) (decodeVal 1 (elem i).toNat)
  let row := fun r => (List.range (128 / es)).foldl (fun (l : Line) k =>
    lineSet l (es * k) es (enc (128 / es * r + k))) (0 : Line)
  let block := rowWrites dst (32 * es) row
  let own := if zr then rowWrites at_ 128 fun _ => 0
    else ((List.range 128).map (c.nanRow at_)).filter fun e => e.full != 0
  let under := fun (a b : List RowWrite) => a.filter (fun e => !b.any fun f => f.row == e.row) ++ b
  if zr then under block own else under own block

/-- What MLDACC writes in its turn (R277). -/
def State.loadRows (s : State) (core : Nat) (g : Group) (o : MOp) (w : DWord) (sl src : Nat)
    (rc : BitVec 24) : List RowWrite :=
  let x := s.core core
  let es := fmtBits (slotFmt w) / 8
  let val := fun i => encodeVal 1 (s.mround g w sl rc i) false
    (decodeVal (slotFmt w) (g.winNat x (src + es * i) es))
  rowWrites (accAt o.views o.acc) 128 fun r => (List.range 32).foldl (fun (l : Line) k =>
    lineSet l (4 * k) 4 (val (32 * r + k))) (0 : Line)

/-! ## The step of a stream (R267 to R271) -/

/-- The operation at the head of a stream is finished; a counted one leaves the TL counter. -/
def Group.popOp (g : Group) (stream : Nat) (counted : Bool) : Group :=
  { g with
    streams := listUpd (fun l => l.drop 1) g.streams stream
    cnt := { g.cnt with tl := if counted then g.cnt.tl - 1 else g.cnt.tl } }

/-- The operation at the head of a stream replaced. -/
def Group.setOp (g : Group) (stream : Nat) (o : MOp) : Group :=
  { g with streams := listUpd (fun l => o :: l.drop 1) g.streams stream }

/-- An earlier operation of another stream comes first in a deterministic waybill (R267); an RCOPY, on no
stream of the engine's, is not ordered so. -/
def Group.outranked (g : Group) (stream : Nat) (o : MOp) : Bool :=
  g.det && stream != copyStream &&
    (g.streams.take copyStream).any fun l => l.any fun p => decide (p.seq < o.seq)

/-- The operation at the head of a stream ends (R270); slots that waited for it go back (R145). -/
def State.endOp (s : State) (core slot stream : Nat) (counted : Bool) : State :=
  (s.updGroup core slot fun g => g.popOp stream counted).settleCluster core

/-- The operation at the head of a stream consumes a poisoned sector, and is dropped (R103, R271). -/
def State.engineUe (s : State) (core slot stream : Nat) (o : MOp) (b : Sector) : State :=
  (s.updGroup core slot fun g => g.popOp stream true).consumeUe core slot none false o.pc o.iword b o.lane

/-- A tile is FILLING (R160). -/
def Core.filling (x : Core) (t : Nat) : Bool := !x.tv t && !x.tc t

/-- The tiles among some that are FULL. -/
def Core.fullOf (x : Core) (ts : List Nat) : List Nat := ts.filter fun t => x.tv t && !x.tc t

/-- Tiles of a block in the window that an operation reads. -/
def Group.blockTiles (g : Group) (o n : Nat) : List Nat :=
  (List.range (n / 2048)).map fun i => g.tileAt (o + 2048 * i)

/-- The tiles of the accumulator that an operation reads. -/
def Group.accTiles (g : Group) (o : MOp) : List Nat := g.blockTiles (accAt o.views o.acc) 16384

/-- A step begins: it reads, flags what is special, and adds to some elements; or it waits. -/
def State.beginStep (s : State) (core slot stream : Nat) (g : Group) (o : MOp) (q : MSteps) : State :=
  let x := s.core core
  let at_ := accAt o.views o.acc
  let ts := q.tiles g ++ g.accTiles o
  if ts.any x.filling ||
      (rangeLines q.stepRanges).any fun l => !s.present core g.team (128 * l) then s
  else
    match s.mpoison core g q at_ with
    | some b => s.engineUe core slot stream o b
    | none =>
      let r := stepSums q (s.mread core g q)
      let first := Config.stepElems s.steps
      let s1 := s.addSums core slot at_ (r.1.filter fun v => first.getLsbD v.idx)
      s1.updGroup core slot fun g =>
        let g1 := g.setOp stream { o with kind := .steps { q with
          sums := some (r.1.filter fun v => !first.getLsbD v.idx) } }
        let g2 := g1.updAcc (accBlock o.views o.acc) fun a => { a with
          rowf := a.rowf ||| r.2.1, colf := a.colf ||| r.2.2.1 }
        { g2 with
          tilesRead := x.fullOf ts ++ g2.tilesRead
          mstat := g2.mstat ||| (if r.2.2.2 then 2 else 0) |||
            (if r.2.1 != 0 || r.2.2.1 != 0 then 4 else 0) }

/-- A step ends: the remaining elements are added to; with the last step the operation is done. -/
def State.endStep (s : State) (core slot stream : Nat) (o : MOp) (q : MSteps) (l : List MSum) : State :=
  let s1 := s.addSums core slot (accAt o.views o.acc) l
  if q.next + 1 < q.k then
    s1.updGroup core slot fun g =>
      g.setOp stream { o with kind := .steps { q with next := q.next + 1, sums := none } }
  else s1.endOp core slot stream true

/-- MZERO, MDRAIN or MLDACC in its turn, first of two events: it reads, and writes some words. -/
def State.beginRows (s : State) (core slot stream : Nat) (o : MOp) (ws : List RowWrite) (blocks : List Nat)
    (z : Option Bool) : State :=
  let first := firstWords s.steps
  (s.writeRows core slot ws first).updGroup core slot fun g =>
    g.setOp stream { o with kind := .rest (restRows ws first) blocks z }

/-- The second event: the remaining words, and the accumulators' state; the operation is done. -/
def State.endRows (s : State) (core slot stream : Nat) (ws : List RowWrite) (blocks : List Nat)
    (z : Option Bool) : State :=
  (((s.writeRows core slot ws fun _ => BitVec.allOnes 128).cleanRows core slot ws).updGroup core slot fun g =>
    g.settleAccs blocks z).endOp core slot stream true

/-- MLDACC in its turn: it waits for a FILLING tile, and records the FULL ones it reads (R269). -/
def State.beginLoad (s : State) (core slot stream : Nat) (g : Group) (o : MOp) (w : DWord) (sl src : Nat)
    (rc : BitVec 24) : State :=
  let x := s.core core
  let n := 512 * fmtBits (slotFmt w)
  let ts := g.blockTiles src n
  if ts.any x.filling then s
  else match g.winBad x core src n with
    | some b => s.engineUe core slot stream o b
    | none => (s.beginRows core slot stream o (s.loadRows core g o w sl src rc)
        [accBlock o.views o.acc] (some false)).updGroup core slot fun g =>
          { g with tilesRead := x.fullOf ts ++ g.tilesRead }

/-- MDRAIN in its turn: it waits for a FILLING tile of its accumulator, and records the FULL ones. -/
def State.beginDrain (s : State) (core slot stream : Nat) (g : Group) (o : MOp) (w : DWord) (sl : Nat)
    (zr : Bool) (dst : Nat) (rc : BitVec 24) : State :=
  let x := s.core core
  let ts := g.accTiles o
  if ts.any x.filling then s
  else match g.winBad x core (accAt o.views o.acc) 16384 with
    | some b => s.engineUe core slot stream o b
    | none => (s.beginRows core slot stream o (s.drainRows core g o w sl zr dst rc)
        [accBlock o.views o.acc] (if zr then some true else none)).updGroup core slot fun g =>
          { g with tilesRead := x.fullOf ts ++ g.tilesRead }

/-- In a deterministic waybill, where the streams act as one (R267), an operation of any stream comes before
a marker that has still to be performed. -/
def Group.beforeMark (g : Group) (o : MOp) : Bool :=
  g.det && g.streams.any fun l => l.any fun p => decide (o.seq < p.seq) && hasMark [p]

/-- A stream's operation may act though the group's team is to be stopped: it is half done, or a
committing closer waits for its stream (R271, R278, R340). -/
def Group.mayStep (g : Group) (o : MOp) (l : List MOp) : Bool :=
  o.begun || hasMark l || g.beforeMark o || g.arriving

/-- MATRIX_STEP: the operation at the head of a group's stream acts; on `copyStream` an RCOPY writes what is
left of its words. -/
def execMatrixStep (core slot stream : Nat) (s : State) : Host.Outcome State Fault Refusal :=
  match s.group core slot with
  | none => .next s
  | some g =>
    match (g.streams[stream]?).getD [] with
    | [] => .next s
    | o :: r =>
      if g.outranked stream o || (s.stopping g.team && !g.mayStep o (o :: r)) then .next s
      else
        .next (match o.kind with
        | .steps q =>
          match q.sums with
          | none => s.beginStep core slot stream g o q
          | some l => s.endStep core slot stream o q l
        | .zero cnt =>
          s.beginRows core slot stream o
            ((List.range cnt).flatMap fun i => rowWrites (accAt o.views (o.acc + i)) 128 fun _ => 0)
            ((List.range cnt).map fun i => accBlock o.views (o.acc + i)) (some true)
        | .drain w sl zr dst rc => s.beginDrain core slot stream g o w sl zr dst rc
        | .ldacc w sl src rc => s.beginLoad core slot stream g o w sl src rc
        | .rest ws blocks z => s.endRows core slot stream ws blocks z
        | .mark tinc tl => (s.tlAdd core tl tinc.toNat).endOp core slot stream false)

/-! ## Issue (R268, R274) -/

/-- A matrix operation queued on its stream at the turn's group; a counted one enters TL. -/
def State.queueOp (s : State) (t : MTarget) (k : MOpKind) (lo : Nat) (counted : Bool) : State :=
  s.updGroup s.cur.core s.cur.slot fun g =>
    let o : MOp := { kind := k, acc := t.acc.toNat, seq := s.steps, pc := s.cur.pc, iword := s.cur.iword,
                     lane := lo, views := g.views }
    { g with
      streams := listUpd (fun l => l ++ [o]) g.streams t.stream.toNat
      cnt := { g.cnt with tl := if counted then g.cnt.tl + 1 else g.cnt.tl } }

/-- A META record may be used (R265, R274). -/
def metaOk (r : DWord) : Bool :=
  r != 0 && r.extractLsb' 39 25 == 0 && (metaOf r).1 % 256 == 0 && (metaOf r).2.1 % 2 == 0

/-- A SCALE record may be used (R266, R274). -/
def scaleOk (r : DWord) : Bool :=
  r != 0 && r.extractLsb' 42 22 == 0 && (scaleOf r).1 % 64 == 0 && (scaleOf r).2 % 64 == 0

/-- The formats of a step (R257). -/
def stepFmt (w : DWord) : Bool := slotOk w && decide (2 ≤ slotFmt w) && decide (slotFmt w ≤ 6)

/-- MMA, MLOOP and MLOOPS (R274). -/
def State.mloopM (s : State) (p : Pred) (slot : BitVec 3) (t : MTarget) (a b : Reg) (k sa sb : Nat)
    (sp scr : Bool) : M State :=
  s.groupM p fun g _ lo => do
    let x := s.core s.cur.core
    if scr then needRegs g [a.toNat, b.toNat] lo
    waitIf (!g.pend.isEmpty)
    let w := g.slot slot.toNat
    trapIf (!stepFmt w) .sealBad lo
    let q : MSteps := { fmt := slotFmt w, sp := sp, scr := scr, k := k, sa := sa, sb := sb
                        a := if scr then (g.reg x a.toNat lo).toNat else g.vecOfs a.toNat
                        b := if scr then (g.reg x b.toNat lo).toNat else g.vecOfs b.toNat
                        mrec := if sp then (g.mrecs[t.stream.toNat]?).getD 0 else 0
                        srec := if slotFmt w = 6 then (g.srecs[t.stream.toNat]?).getD 0 else 0
                        next := 0, sums := none }
    trapIf ((sp && !metaOk q.mrec) || (slotFmt w == 6 && !scaleOk q.srec)) .sealBad lo
    let al := if scr then 128 else 2048
    trapIf (q.a % al != 0 || q.b % al != 0) .misaligned lo
    let n := mBytes q.fmt sp
    let inside := fun (o st len : Nat) => (List.range k).all fun i => g.inWindow (o + 2048 * st * i) len
    trapIf (!g.accOk t.acc.toNat || (!scr && !(inside q.a sa n.1 && inside q.b sb n.2))) .regBounds lo
    trapIf (q.ranges.any fun r => decide (r.2 > s.scrSize g.team s.cur.core)) .segLimit lo
    waitIf (decide (g.cnt.tl ≥ 31))
    .ok ((s.queueOp t (.steps q) lo true).next.updGroup s.cur.core s.cur.slot fun g => g.countRc w)

/-- MMA (R274): one step. -/
def execMma (p : Pred) (slot : BitVec 3) (t : MTarget) (a b : Reg) (sp : Bool) (s : State) :
    Host.Outcome State Fault Refusal :=
  run s (s.mloopM p slot t a b 1 0 0 sp false)

/-- MLOOP (R274): steps walked through the window. -/
def execMloop (p : Pred) (slot : BitVec 3) (t : MTarget) (a b : Reg) (x : MLoopX) (s : State) :
    Host.Outcome State Fault Refusal :=
  run s (s.mloopM p slot t a b (x.km1.toNat + 1) x.sa.toNat x.sb.toNat x.sp false)

/-- MLOOPS (R274): steps walked through scratchpad. -/
def execMloops (p : Pred) (slot : BitVec 3) (t : MTarget) (a b : Reg) (x : MLoopX) (s : State) :
    Host.Outcome State Fault Refusal :=
  run s (s.mloopM p slot t a b (x.km1.toNat + 1) x.sa.toNat x.sb.toNat x.sp true)

/-- MZERO (R275). -/
def execMzero (p : Pred) (t : MTarget) (cnt : BitVec 4) (s : State) : Host.Outcome State Fault Refusal :=
  run s (s.groupM p fun g _ lo => do
    waitIf (!g.pend.isEmpty)
    trapIf (!((List.range (cnt.toNat + 1)).all fun i => g.accOk (t.acc.toNat + i))) .regBounds lo
    waitIf (decide (g.cnt.tl ≥ 31))
    .ok (s.queueOp t (.zero (cnt.toNat + 1)) lo true).next)

/-- The checks of MDRAIN and MLDACC (R276); `k` gets the slot word and the block's offset. -/
def State.maccM (s : State) (p : Pred) (slot : BitVec 3) (t : MTarget) (a : Reg)
    (k : Group → DWord → Nat → Nat → State) : M State :=
  s.groupM p fun g _ lo => do
    waitIf (!g.pend.isEmpty)
    let w := g.slot slot.toNat
    trapIf (!slotOk w || slotFmt w == 6) .sealBad lo
    let o := g.vecOfs a.toNat
    trapIf (o % 2048 != 0) .misaligned lo
    trapIf (!g.accOk t.acc.toNat || !g.inWindow o (512 * fmtBits (slotFmt w))) .regBounds lo
    waitIf (decide (g.cnt.tl ≥ 31))
    .ok ((k g w o lo).next.updGroup s.cur.core s.cur.slot fun g => g.countRc w)

/-- MDRAIN (R276). -/
def execMdrain (p : Pred) (zr : Bool) (slot : BitVec 3) (t : MTarget) (a : Reg) (s : State) :
    Host.Outcome State Fault Refusal :=
  run s (s.maccM p slot t a fun g w o lo => s.queueOp t (.drain w slot.toNat zr o g.rc) lo true)

/-- MLDACC (R277). -/
def execMldacc (p : Pred) (slot : BitVec 3) (t : MTarget) (a : Reg) (s : State) :
    Host.Outcome State Fault Refusal :=
  run s (s.maccM p slot t a fun g w o lo => s.queueOp t (.ldacc w slot.toNat o g.rc) lo true)

/-- MSYNC.wait (R278). -/
def execMsyncWait (p : Pred) (mask : BitVec 4) (s : State) : Host.Outcome State Fault Refusal :=
  run s (s.groupM p fun g _ _ => do
    waitIf (!g.pend.isEmpty)
    parkIf ((List.range 4).any fun i => mask.getLsbD i && !((g.streams[i]?).getD []).isEmpty)
    .ok s.next)

/-- MSYNC.mark (R278): a marker on its stream; the stage closes after it. -/
def execMsyncMark (p : Pred) (stream : BitVec 2) (tinc : BitVec 8) (tl : BitVec 4) (s : State) :
    Host.Outcome State Fault Refusal :=
  run s (s.groupM p fun g _ lo => do
    waitIf (!g.pend.isEmpty)
    .ok ((s.queueOp ⟨stream, 0⟩ (.mark tinc tl) lo false).next.close true))

/-! ## MSTAT (R279) -/

/-- MSTAT.rd. -/
def execMstatRd (p : Pred) (d : Reg) (s : State) : Host.Outcome State Fault Refusal :=
  run s (s.groupM p fun g t lo => do
    needRegs g [d.toNat] lo
    .ok (s.putAll t d.toNat (g.mstat.setWidth 32)).next)

/-- MSTAT.clr. -/
def execMstatClr (p : Pred) (s : State) : Host.Outcome State Fault Refusal :=
  run s (s.groupM p fun _ _ _ =>
    .ok (s.updGroup s.cur.core s.cur.slot fun g => { g with mstat := 0 }).next)

/-- MSTAT.meta. -/
def execMstatMeta (p : Pred) (a : Reg) (stream : BitVec 2) (s : State) : Host.Outcome State Fault Refusal :=
  run s (s.groupM p fun g _ lo => do
    needRegs g [a.toNat, a.toNat + 1] lo
    let v := g.pair (s.core s.cur.core) a.toNat lo
    .ok (s.updGroup s.cur.core s.cur.slot fun g =>
      { g with mrecs := listUpd (fun _ => v) g.mrecs stream.toNat }).next)

/-- MSTAT.scale. -/
def execMstatScale (p : Pred) (a : Reg) (stream : BitVec 2) (s : State) : Host.Outcome State Fault Refusal :=
  run s (s.groupM p fun g _ lo => do
    needRegs g [a.toNat, a.toNat + 1] lo
    let v := g.pair (s.core s.cur.core) a.toNat lo
    .ok (s.updGroup s.cur.core s.cur.slot fun g =>
      { g with srecs := listUpd (fun _ => v) g.srecs stream.toNat }).next)

end Sys2Proof.Machine
end

