-- ==== Sys2Proof/Machine/Stipple.lean ====
section
/-! DEFINITION. The stipple arrays (chapter 15): the field of a node, sweeps, boundaries between
dies, the health monitor, the command queue and its five instructions. -/

namespace Sys2Proof.Machine

/-! ## Arrays -/

/-- Array `i` of a core. -/
def Core.array (x : Core) (i : Nat) : StArray := (x.arrays[i]?).getD StArray.zero

/-- An array changed. -/
def State.updArray (s : State) (core i : Nat) (f : StArray → StArray) : State :=
  s.updCore core fun x => { x with arrays := listUpd f x.arrays i }

/-- Fields of a link word (R288): NEXP, NGH, L, EN. -/
def linkNexp (w : Word) : Nat := (w.extractLsb' 10 7).toNat

/-- NGH. -/
def linkNgh (w : Word) : Nat := (w.extractLsb' 17 7).toNat

/-- L. -/
def linkL (w : Word) : Nat := (w.extractLsb' 24 3).toNat

/-- EN. -/
def linkEn (w : Word) : Bool := w.getLsbD 27

/-- k of the monitor's window (R291, R295): MK of 7 acts as 6. -/
def StArray.window (a : StArray) : Nat := 10 + min a.winExp.toNat 6

/-- The monitor's window begins anew. -/
def StArray.restart (a : StArray) : StArray := { a with monCount := 0, monUpd := 0 }

/-- A node at +1. -/
def StArray.plus (a : StArray) (i : Nat) : Bool := a.m.getLsbD i

/-- One bit of a bit vector written. -/
def putBit {n : Nat} (v : BitVec n) (i : Nat) (b : Bool) : BitVec n :=
  if b then v ||| (1#n <<< i) else v &&& ~~~(1#n <<< i)

/-! ## The node (R281, R284, R285) -/

/-- The ghost values of a sweep: those below `n` are live. -/
structure Ghosts where
  bits : BitVec 64
  n : Nat

/-- ±1 times a weight. -/
def signed (w : Int) (b : Bool) : Int := if b then w else -w

/-- One slot's contribution (R281, R282). -/
def slotTerm (m : BitVec 2048) (gh : Ghosts) (v : Word) : Int :=
  let w := toInt 8 (v.extractLsb' 12 8).toNat
  let nbr := (v.extractLsb' 0 11).toNat
  if v.getLsbD 11 then
    (if nbr % 64 < gh.n then signed w (gh.bits.getLsbD (nbr % 64)) else 0)
  else signed w (m.getLsbD nbr)

/-- The field F of a node, in units of 2^-8 (R281). -/
def StArray.field (a : StArray) (gh : Ghosts) (i : Nat) : Int :=
  let sum := (List.range 32).foldl (fun t j => t + slotTerm a.m gh (tabGet 0 a.coup (32 * i + j))) (0 : Int)
  256 * toInt 16 (tabGet 0 a.bias i).toNat + sum * 2 ^ (toInt 4 a.ws.toNat + 8).toNat

/-- x2 of R281, as an FP32 code. -/
def StArray.x2 (a : StArray) (f : Int) : Nat :=
  encodeVal 1 .rne false ((decodeVal 1 a.beta.toNat).mul (.fin (decide (f < 0)) f.natAbs (-7)))

/-- θ of R285. -/
def theta (x2 : Nat) : Nat :=
  match decodeVal 1 (Fun1.sigm.apply (decodeVal 1 x2)) with
  | .fin _ m e => if 0 ≤ e + 24 then m * 2 ^ (e + 24).toNat else m / 2 ^ (-(e + 24)).toNat
  | _ => 0

/-- The physical threshold: θ moved by at most 2^-8 (R284). -/
def physTheta (t : Nat) (skew : BitVec 17) : Nat :=
  let d := max (-65536) (min 65536 (toInt 17 skew.toNat))
  (max 0 (min (2 ^ 24 : Int) (t + d))).toNat

/-- The draw of node i in the sweep numbered `s` (R284, R285): +1 or not. -/
def StArray.draw (a : StArray) (steps s i x2 : Nat) : Bool :=
  if a.replay then decide (flourish a.key a.aid.toNat i s < theta x2)
  else decide ((Config.noise steps i).toNat < physTheta (theta x2) (Config.noiseSkew steps i))

/-! ## A sweep (R283, R291) -/

/-- All unclamped nodes of one colour class at once. -/
def StArray.updateClass (a : StArray) (gh : Ghosts) (steps s c : Nat) : StArray :=
  let nodes := (List.range 2048).filter fun i =>
    (tabGet 0 a.col i).toNat == c && !a.clamp.getLsbD i
  { a with m := nodes.foldl (fun m i => putBit m i (a.draw steps s i (a.x2 (a.field gh i)))) a.m }

/-- Every class in ascending order, the counts, the sweep counter. -/
def StArray.sweep (a : StArray) (gh : Ghosts) (steps : Nat) : StArray :=
  let b := (List.range (a.ncol.toNat + 1)).foldl (fun b c => b.updateClass gh steps a.sc.toNat c) a
  { b with
    cnt := ((List.range 2048).filter b.plus).foldl (fun t i => tabSet t i (tabGet 0 t i + 1)) b.cnt
    sc := b.sc + 1 }

/-- The monitor after a sweep, and whether its window failed (R291). -/
def StArray.monitor (a : StArray) (steps : Nat) : StArray × Bool :=
  let n := a.monCount + ((List.range 4).filter fun i => Config.refNoise steps i).length
  let k := a.window
  if a.monUpd + 4 < 2 ^ k then ({ a with monCount := n, monUpd := a.monUpd + 4 }, false)
  else
    let fail := decide (n > 2 ^ (k - 1) + 2 ^ (k - 6)) || decide (n + 2 ^ (k - 6) < 2 ^ (k - 1))
    ({ a with monCount := 0, monUpd := 0, monLast := n, monFail := fail, monDone := true }, fail)

/-! ## Tags (R289) -/

/-- The export entries' states. -/
def StArray.exports (a : StArray) : BitVec 64 :=
  (List.range (linkNexp a.link)).foldl (fun v i => putBit v i (a.plus (tabGet 0 a.exp i).toNat)) 0

/-- The states of the exports as a tag. -/
def StArray.tagNow (a : StArray) (k : Nat) : ATag := { tag := k, bits := a.exports }

/-- A held-back tag is sent once the importer has released the tag eight before it. -/
def State.sendTag (s : State) (core i : Nat) : State :=
  let a := (s.core core).array i
  match a.out with
  | none => s
  | some t =>
    let p := (s.core (a.peer / 4)).array (a.peer % 4)
    if a.up && (decide (t.tag < a.base + 8) || decide (p.released > t.tag - 8)) then
      let s1 := s.updArray core i fun a => { a with out := none, sent := t.tag }
      { s1 with tagq := s1.tagq ++ [(a.peer / 4, a.peer % 4, t)] }
    else s

/-- A tag in transit reaches its array (R288): it keeps the 8 most recent. -/
def State.landTag (s : State) (core i : Nat) (t : ATag) : State :=
  s.updArray core i fun a =>
    if a.up then { a with newest := t.tag, tags := (t :: a.tags).take 8 } else a

/-- The link of an array is down on both sides (R290). -/
def State.linkDown (s : State) (core i : Nat) : State :=
  let a := (s.core core).array i
  if !a.up then s
  else
    let off := fun (b : StArray) => { b with up := false, tags := [], out := none }
    let s1 := (s.updArray core i off).updArray (a.peer / 4) (a.peer % 4) off
    let gone := fun (q : Nat × Nat × ATag) =>
      (q.1 == core && q.2.1 == i) || (q.1 == a.peer / 4 && q.2.1 == a.peer % 4)
    { s1 with tagq := s1.tagq.filter fun q => !gone q }

/-- A side of a link that comes up: B is its SC, and its first tag goes out (R288, R289). -/
def State.linkUp (s : State) (core i : Nat) : State :=
  let s1 := s.updArray core i fun a => { a with
    up := true, base := a.sc.toNat, tags := [], newest := 0, sent := a.sc.toNat, released := 0,
    out := some (a.tagNow a.sc.toNat) }
  s1.sendTag core i

/-- The ghost values a sweep takes, or why it cannot start yet (R289). -/
inductive Sel where
  | take (g : Ghosts)
  | stall
  | missing

/-- Selecting for the sweep numbered `s`. -/
def StArray.select (a : StArray) (s : Nat) : Sel :=
  let l := linkL a.link
  let ok := fun (t : ATag) => if a.replay then t.tag == s - l else decide (t.tag ≥ s - l)
  let go := fun (v : BitVec 64) => if a.sent < s then Sel.stall else .take ⟨v, linkNgh a.link⟩
  if !a.up then .take ⟨0, 0⟩
  else if s < a.base + l then go a.ghost
  else match a.tags.find? ok with
    | some t => go t.bits
    | none => .missing

/-- The peer of an array can send nothing more: out of service, withdrawn, or its die in reset. -/
def State.peerGone (s : State) (core i : Nat) : Bool :=
  let a := (s.core core).array i
  let c := a.peer / 4
  ((s.core c).array (a.peer % 4)).oos || (s.cluster (clusterOf c)).withdrawn || (s.die (dieOf c)).out

/-! ## The command queue (R292) -/

/-- The global number of an array as a team sees it (R280). -/
def State.arrayNum (s : State) (tn core i : Nat) : Nat := 4 * s.teamCore tn core + i

/-- SASWP's fault reaches its group, or the error queue (R292). -/
def State.saAsync (s : State) (core i : Nat) (c : ACmd) (cause : Cause) : State :=
  s.takeAsync c.ctx c.team c.gidx c.slot ⟨cause, (lowestLane c.mask).getD 0, 0, s.arrayNum c.team core i⟩
    c.pc c.iword

/-- The code of an array's last fault (R299). -/
def faultCode : Cause → BitVec 2
  | .saBias => 1
  | .saWrap => 2
  | .saBoundary => 3
  | _ => 0

/-- The head command leaves the queue. -/
def State.popCmd (s : State) (core i : Nat) : State :=
  s.updArray core i fun a => { a with queue := a.queue.drop 1, stallNow := false }

/-- A sweep command ends with its timeline addition, after a fault if there is one. -/
def State.endSweep (s : State) (core i : Nat) (c : ACmd) (tinc : BitVec 8) (tl : BitVec 4)
    (cause : Option Cause) : State :=
  let s1 := s.popCmd core i
  let s2 := match cause with
    | some f => (s1.updArray core i fun a => { a with lastFault := faultCode f }).saAsync core i c f
    | none => s1
  s2.tlAdd core tl tinc.toNat

/-- A sweep command goes on with one sweep fewer, or ends. -/
def State.countSweep (s : State) (core i : Nat) (c : ACmd) (left : Nat) (tinc : BitVec 8) (tl : BitVec 4) :
    State :=
  if left ≤ 1 then s.endSweep core i c tinc tl none
  else s.updArray core i fun a => { a with
    queue := { c with kind := .sweep (left - 1) tinc tl } :: a.queue.drop 1 }

/-- One sweep of the command at the head, its ghosts chosen. -/
def State.doSweep (s : State) (core i : Nat) (c : ACmd) (left : Nat) (tinc : BitVec 8) (tl : BitVec 4)
    (gh : Ghosts) : State :=
  let a := (s.core core).array i
  let n := a.sc.toNat
  let low := n - linkL a.link
  let s1 := s.updArray core i fun a => { a with
    stallNow := false
    released := max a.released low
    tags := a.tags.filter fun t => decide (t.tag ≥ low) }
  let s2 := if a.up then s1.sendTag (a.peer / 4) (a.peer % 4) else s1
  let r := (((s2.core core).array i).sweep gh s.steps).monitor s.steps
  let s3 := s2.updArray core i fun _ => { r.1 with
    out := if a.up then some (r.1.tagNow (n + 1)) else none
    oos := r.1.oos || r.2 }
  let s4 := s3.sendTag core i
  if r.2 then s4.endSweep core i c tinc tl (some .saBias) else s4.countSweep core i c left tinc tl

/-- The core's cluster is drained and no team is left on the core: its arrays stand still (R389). -/
def State.still (s : State) (core : Nat) : Bool :=
  (s.cluster (clusterOf core)).drained && !((s.core core).groups.any fun e => !e.2.fw)

/-- SWEEP: the sweep command at the head of an array's queue performs one sweep, stalls, or fails. -/
def execSweep (core i : Nat) (s : State) : Host.Outcome State Fault Refusal :=
  let a := (s.core core).array i
  match a.queue.head? with
  | none => .next s
  | some c =>
    match c.kind with
    | .sweep left tinc tl =>
      if s.still core then .next s
      else if a.oos then .next (s.endSweep core i c tinc tl (some .saBias))
      else if a.sc == 0xFFFFFFFFFFFF#48 then .next (s.endSweep core i c tinc tl (some .saWrap))
      else
        let transit := s.tagq.any fun q => q.1 == core && q.2.1 == i
        let stall := s.updArray core i fun a => { a with stallNow := true, stalled := true }
        match a.select a.sc.toNat with
        | .take gh => .next (s.doSweep core i c left tinc tl gh)
        | .stall => .next stall
        | .missing =>
          .next (if s.peerGone core i && !transit then s.endSweep core i c tinc tl (some .saBoundary)
            else stall)
    | _ => .next s

/-- TAG_ARRIVAL: the first tag in transit to an array arrives. -/
def execTagArrival (core i : Nat) (s : State) : Host.Outcome State Fault Refusal :=
  match s.tagq.findIdx? fun q => q.1 == core && q.2.1 == i with
  | none => .next s
  | some k =>
    match s.tagq[k]? with
    | none => .next s
    | some q => .next ({ s with tagq := listDrop1 s.tagq k }.landTag core i q.2.2)

/-- A cluster is drained for a scan or for its end, or is scanned (R389). -/
def State.draining (s : State) (k : Nat) : Bool :=
  ((s.cluster k).inSvc && (s.cluster k).drained) || s.scanning == some k

/-- BOUNDARY_TIMEOUT: a stalled sweep has waited longer than the boundary timeout (R290); no time counts
while its cluster, or its peer's, drains and is scanned (R389). -/
def execBoundaryTimeout (core i : Nat) (s : State) : Host.Outcome State Fault Refusal :=
  let a := (s.core core).array i
  match a.queue.head? with
  | none => .next s
  | some c =>
    match c.kind with
    | .sweep _ tinc tl =>
      let quiet := s.draining (clusterOf core) || s.draining (clusterOf (a.peer / 4))
      .next (if a.stallNow && !s.still core && !quiet then s.endSweep core i c tinc tl (some .saBoundary) else s)
    | _ => .next s

/-! ## The other commands in their turn (R295 to R299) -/

/-- SACFG.ctl (R295). -/
def StArray.control (a : StArray) (w beta : Word) : StArray :=
  let mk := w.extractLsb' 9 3
  let a1 := { a with
    replay := w.getLsbD 0, ncol := w.extractLsb' 1 4, ws := w.extractLsb' 5 4, winExp := mk, beta := beta }
  let a2 := if a1.window != a.window then a1.restart else a1
  if w.getLsbD 12 then { a2.restart with clamp := 0, cnt := [], stalled := false } else a2

/-- SACFG.key (R295): a new key given to an array whose sweeps have run out lets sweeps run again (R287), from
sweep 0 on (the model's reading: the rule names no number). -/
def StArray.setKey (a : StArray) (k : BitVec 128) (aid : BitVec 10) : StArray :=
  { a with
    key := k, aid := aid
    sc := if a.sc == 0xFFFFFFFFFFFF#48 && k != a.key then 0 else a.sc }

/-- One entry of a region from its bytes (R282, R296). -/
def StArray.entry (a : StArray) (r : SaRegion) (n : Nat) (bs : List Byte) : StArray :=
  let v := natOfBytes bs
  match r with
  | .bias => { a with bias := tabSet a.bias n (BitVec.ofNat 16 v) }
  | .coup => { a with coup := (List.range 32).foldl (fun t j =>
      tabSet t (32 * n + j) (BitVec.ofNat 32 (v / 2 ^ (32 * j) % 2 ^ 20))) a.coup }
  | .col => { a with col := tabSet a.col n (BitVec.ofNat 4 v) }
  | .state => if a.clamp.getLsbD n then a else { a with m := putBit a.m n (v % 2 == 1) }
  | .exp => { a with exp := tabSet a.exp n (BitVec.ofNat 11 v) }
  | .ghost => { a with ghost := putBit a.ghost n (v % 2 == 1) }

/-- One lane's clamp word (R297). -/
def StArray.clampOp (a : StArray) (w : Word) : StArray :=
  let n := (w.extractLsb' 0 11).toNat
  match (w.extractLsb' 11 2).toNat with
  | 0 => { a with clamp := putBit a.clamp n false }
  | 1 => { a with clamp := putBit a.clamp n true, m := putBit a.m n false }
  | 2 => { a with clamp := putBit a.clamp n true, m := putBit a.m n true }
  | _ => a

/-- SACFG.link in its turn: the state, and whether it traps (R288, R290). -/
def State.setLink (s : State) (core i : Nat) (w : Word) (peer : Nat) : State × Bool :=
  let p := (s.core (peer / 4)).array (peer % 4)
  let both := linkEn w && decide (peer < 1024) && linkEn p.link && p.peer == 4 * core + i
  if both && (linkNexp w != linkNgh p.link || linkNgh w != linkNexp p.link) then (s, true)
  else
    let s1 := (s.linkDown core i).updArray core i fun a => { a with link := w, peer := peer }
    (if both then (s1.linkUp core i).linkUp (peer / 4) (peer % 4) else s1, false)

/-- SARD.stat's four words (R299); `det` hides what depends on timing. -/
def StArray.statWords (a : StArray) (det : Bool) : List Word :=
  let n := if det then 0 else a.queue.length - 1
  [BitVec.ofNat 32 (b2n a.replay + 2 * b2n a.oos + 4 * b2n a.up + 8 * b2n (a.stalled && !det) + 16 * n
     + 2 ^ 9 * a.ncol.toNat + 2 ^ 13 * a.lastFault.toNat),
   BitVec.ofNat 32 a.sc.toNat, BitVec.ofNat 32 (a.sc.toNat / 2 ^ 32),
   if a.up && !det then BitVec.ofNat 32 a.newest else 0]

/-- SARD.mon's four words (R299). -/
def StArray.monWords (a : StArray) (det : Bool) : List Word :=
  if det then [0, 0, 0, 0]
  else [BitVec.ofNat 32 a.monCount, BitVec.ofNat 32 a.monUpd, BitVec.ofNat 32 a.monLast,
    BitVec.ofNat 32 (min a.winExp.toNat 6 + 8 * b2n a.monFail + 16 * b2n a.monDone)]

/-- A SARD's register writes: lane, register, value. -/
def StArray.results (a : StArray) (det : Bool) (m : LaneMask) : ACmdKind → List (Nat × Nat × Word)
  | .rdState d base => (lanesOf m).map fun l => (l, d, BitVec.ofNat 32
      (natOfBits 32 fun b => decide (base + 32 * l + b < 2048) && a.plus (base + 32 * l + b)))
  | .rdCnt d base => (lanesOf m).map fun l =>
      (l, d, if base + l < 2048 then tabGet 0 a.cnt (base + l) else 0)
  | .rdStat d => (lanesOf m).flatMap fun l => (a.statWords det).zipIdx.map fun e => (l, d + e.2, e.1)
  | .rdMon d => (lanesOf m).flatMap fun l => (a.monWords det).zipIdx.map fun e => (l, d + e.2, e.1)
  | _ => []

/-- What a command in its turn does to the array and the device. -/
inductive Done where
  | ok (s : State)
  | trap (cause : Cause)
  | wait
  | poison (b : Sector)

/-- The group that waits for a command of an array, still there. -/
def State.awaits (s : State) (core i : Nat) (c : ACmd) : Bool :=
  match s.group core c.slot with
  | some g => g.arrWait == some (i, c.id)
  | none => false

/-- Performing a command that is no sweep; a read whose group no longer waits writes nothing. -/
def State.perform (s : State) (core i : Nat) (c : ACmd) : Done :=
  let upd := fun f => Done.ok (s.updArray core i f)
  let a := (s.core core).array i
  match c.kind with
  | .ctl w beta => upd fun a => a.control w beta
  | .key k aid => upd fun a => a.setKey k aid
  | .sc v => upd fun a => { a with sc := v }
  | .link w peer => let r := s.setLink core i w peer; if r.2 then .trap .saBoundary else .ok r.1
  | .clamp ops => upd fun a => ops.foldl StArray.clampOp a
  | .load r addr first n =>
    let e := (regionSize r).1
    let lines := dedup ((List.range (e * n / 128 + 2)).map fun k => min (addr + 128 * k) (addr + e * n - 1) / 128)
    if lines.any fun l => !s.present core c.team (128 * l) then .wait
    else match s.scrBad core c.team addr (e * n) with
    | some b => .poison b
    | none =>
      upd fun a => (List.range n).foldl (fun a k =>
        a.entry r (first + k) (s.scrBytes core c.team (addr + e * k) e)) a
  | .sweep _ _ _ => .wait
  | k =>
    match s.group core c.slot with
    | none => .ok s
    | some g =>
      if !s.awaits core i c then .ok s else
      let hide := g.det && (match k with | .rdStat _ | .rdMon _ => true | _ => false)
      let s1 := s.putRegs core c.slot (a.results g.det c.mask k)
      .ok (if hide then s1.updGroup core c.slot fun g => g.sticky false else s1)

/-- The group's wait is over, and it holds the turn with its instruction's threads. -/
def State.release (s : State) (core : Nat) (c : ACmd) : State :=
  { s.updGroup core c.slot fun g => { g with arrWait := none } with
    cur := { core := core, slot := c.slot, mask := c.exec, pc := c.pc, iword := c.iword } }

/-- ARRAY_COMMAND: the command at the head of an array's queue, if no sweep, is performed or
dropped. -/
def execArrayCommand (core i : Nat) (s : State) : Host.Outcome State Fault Refusal :=
  let a := (s.core core).array i
  match a.queue.head? with
  | none => .next s
  | some c =>
    let r := if a.oos && c.kind.barred then Done.trap .saBias else s.perform core i c
    let back := fun (u : State) => { u with cur := s.cur }
    let here := s.awaits core i c
    match r with
    | .wait => .next s
    | .poison b =>
      let lane := (lowestLane c.mask).getD 0
      let s1 := s.popCmd core i
      .next (if here then
        back ((s1.release core c).consumeUe core c.slot none false c.pc c.iword b lane)
        else s1)
    | .trap f =>
      let s1 := (s.popCmd core i).updArray core i fun a => { a with lastFault := faultCode f }
      .next (if here then
        back ((s1.release core c).takeTrap ⟨f, (lowestLane c.mask).getD 0, 0, s.arrayNum c.team core i⟩) else s1)
    | .ok t =>
      let s1 := t.popCmd core i
      .next (if here then
        let s2 := (s1.release core c).next
        back (if c.kind.barred then s2.close true else s2) else s1)

/-! ## Issue (R292, R296, R298, R300) -/

/-- A command enters an array's queue; a group that waits for it stays at the instruction. -/
def State.enter (s : State) (g : Group) (arr : BitVec 2) (t : LaneMask) (k : ACmdKind) (hold : Bool) : State :=
  let c : ACmd := { kind := k, slot := s.cur.slot, team := g.team, ctx := g.ctx, gidx := g.gidx,
                    id := s.steps, mask := t, exec := s.cur.mask, pc := s.cur.pc, iword := s.cur.iword }
  let s1 := s.updArray s.cur.core arr.toNat fun a => { a with queue := a.queue ++ [c] }
  if hold then s1.updGroup s.cur.core s.cur.slot fun g => { g with arrWait := some (arr.toNat, s.steps) }
  else s1

/-- A stipple instruction's own fault at issue: the array keeps it as its last one (R299). -/
def State.saTrap {α : Type} (s : State) (g : Group) (arr : BitVec 2) (lo : Nat) (f : Cause) : M α :=
  (s.updArray s.cur.core arr.toNat fun a => { a with lastFault := faultCode f }).raise
    ⟨f, lo, 0, s.arrayNum g.team s.cur.core arr.toNat⟩

/-- A stipple instruction: its operands, the fault of an array out of service, room in the queue. -/
def State.stippleM (s : State) (p : Pred) (arr : BitVec 2) (rs : List Nat)
    (k : Group → Core → LaneMask → Nat → M (Option (ACmdKind × Bool))) : M State :=
  s.groupM p fun g t lo => do
    needRegs g rs lo
    let x := s.core s.cur.core
    match ← k g x t lo with
    | none => .ok (s.next.close true)
    | some (cmd, hold) => do
      let a := x.array arr.toNat
      if a.oos && cmd.barred then s.saTrap g arr lo .saBias
      waitIf (decide (a.queue.length ≥ 16))
      if hold then .ok (s.enter g arr t cmd true)
      else .ok ((s.enter g arr t cmd false).next.close true)

/-- SACFG.ctl (R295). -/
def execSacfgCtl (p : Pred) (arr : BitVec 2) (a b : Reg) (s : State) : Host.Outcome State Fault Refusal :=
  run s (s.stippleM p arr [a.toNat, b.toNat] fun g x _ lo =>
    .ok (some (.ctl (g.reg x a.toNat lo) (g.reg x b.toNat lo), true)))

/-- SACFG.key (R295). -/
def execSacfgKey (p : Pred) (arr : BitVec 2) (a b : Reg) (s : State) : Host.Outcome State Fault Refusal :=
  run s (s.stippleM p arr [a.toNat, a.toNat + 1, a.toNat + 2, a.toNat + 3, b.toNat] fun g x _ lo =>
    .ok (some (.key (g.pair x (a.toNat + 2) lo ++ g.pair x a.toNat lo)
      ((g.reg x b.toNat lo).extractLsb' 0 10), true)))

/-- SACFG.sc (R295). -/
def execSacfgSc (p : Pred) (arr : BitVec 2) (a : Reg) (s : State) : Host.Outcome State Fault Refusal :=
  run s (s.stippleM p arr [a.toNat, a.toNat + 1] fun g x _ lo =>
    .ok (some (.sc ((g.pair x a.toNat lo).extractLsb' 0 48), true)))

/-- The physical array that a link word's PEER names (R280): logical cores in deterministic mode. -/
def State.peerOf (s : State) (g : Group) (w : Word) : Nat :=
  let n := (w.extractLsb' 0 10).toNat
  if g.det then
    match s.gridOfGroup g with
    | some q => 4 * (q.lmap[n / 4]?).getD 256 + n % 4
    | none => n
  else n

/-- SACFG.link (R288, R290, R295). -/
def execSacfgLink (p : Pred) (arr : BitVec 2) (a : Reg) (s : State) : Host.Outcome State Fault Refusal :=
  run s (s.stippleM p arr [a.toNat] fun g x _ lo =>
    let w := g.reg x a.toNat lo
    let peer := s.peerOf g w
    if linkEn w && (dieOf (peer / 4) == dieOf s.cur.core || decide (linkNexp w > 64) ||
        decide (linkNgh w > 64)) then
      s.saTrap g arr lo .saBoundary
    else .ok (some (.link w peer, true)))

/-- SALD (R296). -/
def execSald (p : Pred) (arr : BitVec 2) (a b : Reg) (region : SaRegion) (s : State) :
    Host.Outcome State Fault Refusal :=
  run s (s.stippleM p arr [a.toNat, b.toNat] fun g x _ lo => do
    let addr := (g.reg x a.toNat lo).toNat
    let w := g.reg x b.toNat lo
    let first := (w.extractLsb' 0 11).toNat
    let n := (w.extractLsb' 16 12).toNat
    let sz := regionSize region
    if n = 0 then .ok none
    else do
      trapIf (addr % min sz.1 4 != 0) .misaligned lo (BitVec.ofNat 64 addr)
      trapIf (decide (first + n > sz.2) || decide (addr + sz.1 * n > s.scrSize g.team s.cur.core))
        .segLimit lo (BitVec.ofNat 64 addr)
      .ok (some (.load region addr first n, true)))

/-- SACLAMP (R297): every lane's word, in ascending order. -/
def execSaclamp (p : Pred) (arr : BitVec 2) (a : Reg) (s : State) : Host.Outcome State Fault Refusal :=
  run s (s.stippleM p arr [a.toNat] fun g x t _ =>
    .ok (some (.clamp ((lanesOf t).map fun l => g.reg x a.toNat l), true)))

/-- SASWP (R298): the group goes on once the command is queued; in deterministic mode a physical
array's sweep leaves the TIMING mark (R300). -/
def execSaswp (p : Pred) (arr : BitVec 2) (a : Reg) (tinc : BitVec 8) (tl : BitVec 4) (s : State) :
    Host.Outcome State Fault Refusal :=
  run s (do
    let u ← s.stippleM p arr [a.toNat] fun g x _ lo =>
      let n := (g.reg x a.toNat lo).toNat
      .ok (if n = 0 then none else some (.sweep n tinc tl, false))
    let q := fun (v : State) => (((v.core s.cur.core).array arr.toNat).queue).length
    if q u > q s && !((s.core s.cur.core).array arr.toNat).replay then
      .ok (u.updGroup s.cur.core s.cur.slot fun g => if g.det then g.sticky false else g)
    else .ok u)

/-- SARD.state (R299). -/
def execSardState (p : Pred) (arr : BitVec 2) (d a : Reg) (s : State) : Host.Outcome State Fault Refusal :=
  run s (s.stippleM p arr [a.toNat, d.toNat] fun g x _ lo =>
    .ok (some (.rdState d.toNat ((g.reg x a.toNat lo).extractLsb' 0 11).toNat, true)))

/-- SARD.cnt (R299). -/
def execSardCnt (p : Pred) (arr : BitVec 2) (d a : Reg) (s : State) : Host.Outcome State Fault Refusal :=
  run s (s.stippleM p arr [a.toNat, d.toNat] fun g x _ lo =>
    .ok (some (.rdCnt d.toNat ((g.reg x a.toNat lo).extractLsb' 0 11).toNat, true)))

/-- SARD.stat (R299). -/
def execSardStat (p : Pred) (arr : BitVec 2) (d : Reg) (s : State) : Host.Outcome State Fault Refusal :=
  run s (s.stippleM p arr ((List.range 4).map fun i => d.toNat + i) fun _ _ _ _ =>
    .ok (some (.rdStat d.toNat, true)))

/-- SARD.mon (R299). -/
def execSardMon (p : Pred) (arr : BitVec 2) (d : Reg) (s : State) : Host.Outcome State Fault Refusal :=
  run s (s.stippleM p arr ((List.range 4).map fun i => d.toNat + i) fun _ _ _ _ =>
    .ok (some (.rdMon d.toNat, true)))

end Sys2Proof.Machine
end

