-- ==== Sys2Proof/Machine/Clusters.lean ====
section
/-! DEFINITION. Stopping teams, QUIESCE, the gang switch, scans, and clusters and dies leaving and
entering service (R385 to R400). -/

namespace Sys2Proof.Machine

/-! ## Stopping teams (R343, R389, R397) -/

/-- Running teams that `p` names. -/
def State.runningTeams (s : State) (p : Team → Bool) : List Nat :=
  (s.teams.filter fun e => e.2.live && !e.2.cores.isEmpty && p e.2).map Prod.fst

/-- The teams that stop with a team: those of its cluster set (R389). -/
def State.unit (s : State) (tn : Nat) : List Nat :=
  match tabFind s.teams tn with
  | none => []
  | some t => match t.cset with
    | none => [tn]
    | some k => s.runningTeams fun x => x.cset == some k

/-- Cores of some teams. -/
def State.coresOf (s : State) (ts : List Nat) : List Nat :=
  ts.flatMap fun t => match tabFind s.teams t with | some x => x.cores | none => []

/-- Teams pre-empted one after another; none while one must wait. -/
def State.preemptAll (s : State) : List Nat → Option State
  | [] => some s
  | t :: r => match s.preempt t with
    | none => none
    | some u => u.preemptAll r

/-- A unit of teams pre-empted and saved, if it can stop now and its clusters' started copies are
complete. -/
def State.stopUnit (s : State) (ts : List Nat) : State :=
  match s.preemptAll ts with
  | some t => if s.copiesDone (s.coresOf ts) then t.saveTeams ts else s
  | none => s

/-- The teams that `p` names stopped and saved, as far as they can stop now. -/
def State.stopTeams (s : State) (p : Team → Bool) : State :=
  (s.runningTeams p).foldl (fun s tn =>
    if (s.runningTeams p).contains tn then s.stopUnit (s.unit tn) else s) s

/-- The team has groups on a core of some clusters. -/
def Team.inClusters (t : Team) (ks : List Nat) : Bool := t.cores.any fun c => ks.contains (clusterOf c)

/-- Write-through of a core as PHASE.dev makes it before its step 5 (R309): the dirty words leave and
open partials move. -/
def State.flushCore (s : State) (c : Nat) : State :=
  let r := s.publishNow c fun _ => false
  (r.1.movePartials c).keepAcks c r.2

/-- Write-through of some cores. -/
def State.flushCores (s : State) (cs : List Nat) : State := cs.foldl State.flushCore s

/-- Some cores can be written through in one step: no boundary unit is at work, and no word would overtake a
request sent before it. -/
def State.canFlush (s : State) (cs : List Nat) : Bool := cs.all s.canPublish

/-- Every core can. -/
def State.canFlushAll (s : State) : Bool := s.canFlush (s.cores.map Prod.fst)

/-- Write-through of every core. -/
def State.flushAll (s : State) : State := s.flushCores (s.cores.map Prod.fst)

/-! ## QUIESCE (R396, R397) -/

/-- A switch is armed to or from a context. -/
def State.switching (s : State) (c : Nat) : Bool :=
  match s.armed with
  | some a => a.ctx == c || (s.ctx c).state == .running
  | none => false

/-- The checks of R396 for a context operand, then `k`; a form that waits skips them when it is tried
again. -/
def State.ctxForm (s : State) (g : Group) (v : Word) (k : Nat → M (Nat × State)) : M (Nat × State) :=
  let c := v.toNat
  if g.parked.isSome then k c
  else if c > 7 then .ok (1, s)
  else if !s.resident c then .ok (3, s)
  else if s.switching c then .ok (2, s)
  else k c

/-- A context marked quiesced, or not. -/
def State.setQui (s : State) (c : Nat) (b : Bool) : State := s.updCtx c fun x => { x with qui := b }

/-- QUIESCE.drain. -/
def State.drainM (s : State) (c : Nat) : M (Nat × State) :=
  let s1 := s.setQui c true
  if (s.ctx c).state != .running then .ok (0, s1)
  else if s.anyTeam c || s.anyEngine c || !s1.canFlushAll then parkIn s1
  else .ok (0, s1.flushAll)

/-- A copy request of a context has started and not completed. -/
def State.copying (s : State) (c : Nat) : Bool := s.cores.any fun e => e.2.active.any fun t => t.req.ctx == c

/-- Copy requests of a context that have not started, of teams that have ended, are saved (R397); what these
alone held up goes back (R145). -/
def State.shelve (s : State) (c : Nat) : State :=
  let mine := fun (q : CopyReq) => q.ctx == c
  let out := s.cores.flatMap fun e => (e.2.copyq.filter mine).map fun q => (e.1, q)
  let s1 : State := { s with cores := s.cores.map fun e =>
    (e.1, { e.2 with copyq := e.2.copyq.filter fun q => !mine q }) }
  (s1.cores.map Prod.fst).foldl State.settleOwed (s1.updCtx c fun x => { x with copies := x.copies ++ out })

/-- Those requests return to their queues. -/
def State.unshelve (s : State) (c : Nat) : State :=
  (s.ctx c).copies.foldl (fun (s : State) e => s.updCore e.1 fun x => x.queueCopy e.2)
    (s.updCtx c fun x => { x with copies := [] })

/-- QUIESCE.preempt: the teams that run stop and are saved, and so are the copy requests not yet started; the
sequencer waits for those started. -/
def State.preemptM (s : State) (c : Nat) : M (Nat × State) :=
  let s1 := s.setQui c true
  if (s.ctx c).state != .running then .ok (0, s1)
  else
    let s2 := s1.stopTeams fun t => t.ctx == c
    if s2.anyTeam c then parkIn s2
    else
      let s3 := s2.shelve c
      if s3.copying c || !s3.canFlushAll then parkIn s3 else .ok (0, s3.flushAll)

/-- QUIESCE.resume: placement continues, and saved copy requests are in their queues again. -/
def State.resumeCtx (s : State) (c : Nat) : State :=
  let s1 := s.setQui c false
  if (s.ctx c).state == .running then s1.unshelve c else s1

/-- QUIESCE.drain (R397). -/
def execQuiesceDrain (p : Pred) (d a : Reg) (s : State) : Host.Outcome State Fault Refusal :=
  run s (s.sysM p d [a.toNat] fun g x lo => s.ctxForm g (g.reg x a.toNat lo) fun c => s.drainM c)

/-- QUIESCE.preempt (R397). -/
def execQuiescePreempt (p : Pred) (d a : Reg) (s : State) : Host.Outcome State Fault Refusal :=
  run s (s.sysM p d [a.toNat] fun g x lo => s.ctxForm g (g.reg x a.toNat lo) fun c => s.preemptM c)

/-- QUIESCE.resume (R397). -/
def execQuiesceResume (p : Pred) (d a : Reg) (s : State) : Host.Outcome State Fault Refusal :=
  run s (s.sysM p d [a.toNat] fun g x lo =>
    s.ctxForm g (g.reg x a.toNat lo) fun c => .ok (0, s.resumeCtx c))

/-! ## The gang switch (R385 to R387, R398) -/

/-- Arming a switch: the status of R396 and the state. -/
def State.arm (s : State) (c : Nat) (t : DWord) : Nat × State :=
  if c > 7 then (1, s)
  else if !s.resident c then (3, s)
  else if s.armed.isSome then (2, s)
  else if t.toNat < s.gtime.toNat + 100000 then (4, s)
  else (0, { s with armed := some { ctx := c, t := t } })

/-- GANGSW (R398). -/
def execGangsw (p : Pred) (d a b : Reg) (s : State) : Host.Outcome State Fault Refusal :=
  run s (s.sysM p d [a.toNat, a.toNat + 1, b.toNat] fun g x lo =>
    .ok (s.arm (g.reg x b.toNat lo).toNat (g.pair x a.toNat lo)))

/-- FIFO role lines of a core that are not zero, by role line. -/
def Core.fifoLines (x : Core) : Tab Line :=
  ((List.range (256 * x.roles.fifo.length)).map fun l =>
    (l, match x.fifoRow (128 * l) with | some k => x.row k | none => 0)).filter fun e => e.2 != 0

/-- The poisoned sectors of the FIFO role, by role line. -/
def Core.fifoPoison (x : Core) : List Nat :=
  x.sectorsOf ((List.range (256 * x.roles.fifo.length)).map fun l => (l, x.fifoRow (128 * l)))

/-- One core's state of R384; its commutative partials are all in P (R385 step 3). -/
def Core.save (x : Core) : SavedCore :=
  { fifoLines := x.fifoLines, fifoBanks := x.roles.fifo.length, fifos := x.fifos,
    fifoPoison := x.fifoPoison, handles := x.handles, tl := x.tl, bars := x.bars, arrays := x.arrays
    deferred := x.deferred, copyq := x.copyq, partials := x.partials }

/-- What a context that has not run yet finds on a core. -/
def SavedCore.zero : SavedCore :=
  { fifoLines := [], fifoPoison := [], fifoBanks := 0, fifos := Core.init.fifos, handles := []
    tl := Core.init.tl, bars := Core.init.bars, arrays := Core.init.arrays, deferred := [], copyq := []
    partials := [] }

/-- The outgoing context's state leaves a core: its FIFO banks return to CACHE, its pinned partial lines
leave their ways. -/
def Core.clearOut (x : Core) : Core :=
  let y := (List.range x.roles.fifo.length).foldl (fun (x : Core) _ => x.dropSlot .fifo) x
  { y.setDeferred [] with
    fifos := Core.init.fifos, handles := [], tl := Core.init.tl, bars := Core.init.bars,
    arrays := Core.init.arrays, copyq := [], partials := [], owed := { y.owed with fifo := 0 } }

/-- A saved partial line pinned again in a way of its core's L1, or, where the set has none to give, left
in its spill record (R99). -/
def State.repin (s : State) (core : Nat) (q : Partial) : State :=
  match s.allocWay core (lineSet8 q.line) with
  | (some w, t) => t.updCore core fun x => { x with partials := x.partials ++ [{ q with way := w }] }
  | (none, t) => { t with spills := t.spills ++ [(core, q)] }

/-- The incoming context's state on a core; its FIFO banks are owed until teams that hold them end. None while
they would take CACHE below its floor (R143). -/
def State.bringIn (s : State) (core : Nat) (v : SavedCore) : Option State :=
  match s.growBy core 0 .fifo v.fifoBanks with
  | none => none
  | some t =>
    if v.fifoBanks > 0 && (t.core core).roles.cache.length < 4 then none else
    let put := fun (x : Core) (e : Nat × Line) => match x.fifoRow (128 * e.1) with
      | some k => x.putRow k e.2 (BitVec.allOnes 128)
      | none => x
    let u := t.updCore core fun x =>
      let y := v.fifoLines.foldl put x
      { (y.repoison (fun l => y.fifoRow (128 * l)) v.fifoPoison).setDeferred v.deferred with
        fifos := v.fifos, handles := v.handles, tl := v.tl, bars := v.bars, arrays := v.arrays, copyq := v.copyq
        owed := { y.owed with fifo := y.owed.fifo + v.fifoBanks } }
    some (v.partials.foldl (fun s q => s.repin core q) u)

/-- The incoming context's state on every core. -/
def State.bringAll (s : State) (saved : Tab SavedCore) : List Nat → Option State
  | [] => some s
  | c :: r => match s.bringIn c (tabGet SavedCore.zero saved c) with
    | none => none
    | some t => t.bringAll saved r

/-- Tags in transit reach their arrays, in order. -/
def State.landTags (s : State) : State :=
  s.tagq.foldl (fun s q => s.landTag q.1 q.2.1 q.2.2) { s with tagq := [] }

/-- The record of a switch (R387, R388). -/
def State.switchDone (s : State) (a : Armed) : State :=
  { s with armed := none }.completion
    { wb := a.t, kind := 4, ctx := a.ctx, late := decide (s.gtime.toNat > a.t.toNat + 500000), cmask := 0,
      gtime := s.gtime }

/-- Steps 3 to 5 of R385, every team of the outgoing context saved. -/
def State.swapContexts (s : State) (old : Option Nat) (a : Armed) : Option State :=
  let s1 := s.flushAll.landTags
  let cs := (s1.cores.map Prod.fst).filter (· < 256)
  let saved := cs.map fun c => (c, (s1.core c).save)
  let s2 := cs.foldl State.settleOwed (cs.foldl (fun (s : State) c => s.updCore c Core.clearOut) s1)
  let s3 := match old with
    | some o => s2.updCtx o fun x => { x with state := .resident, saved := saved }
    | none => s2
  let s4 := s3.bringAll (s3.ctx a.ctx).saved cs
  s4.map fun t =>
    let u := t.updCtx a.ctx fun x => { x with state := .running, saved := [] }
    (if (u.ctx a.ctx).qui then u else u.unshelve a.ctx).switchDone a

/-- A collective of a context is in the middle of a chunk: its own share is sent and the chunk is not
combined yet (R386). -/
def State.inChunk (s : State) (c : Nat) : Bool :=
  s.colls.any fun q => q.ctx == c && q.started && decide (q.next < q.loaded)

/-- GANG_SWITCH: from T on the running context's teams stop; when all have, started copies are complete and
collectives stand at a chunk boundary, the contexts change places. A switch to the context that runs only
completes. That a chunk is finished only when the peers' values for it have come is the model's reading. -/
def execGangSwitch (s : State) : Host.Outcome State Fault Refusal :=
  .next (match s.armed with
    | none => s
    | some a =>
      if s.gtime.toNat < a.t.toNat then s
      else
        match s.ctxs.find? fun e => e.2.state == .running with
        | none => if s.canFlushAll then (s.swapContexts none a).getD s else s
        | some e =>
          if e.1 = a.ctx then s.switchDone a
          else
            let s1 := s.stopTeams fun t => t.ctx == e.1
            let busy := s1.anyTeam e.1 || s1.inChunk e.1 || !s1.canFlushAll ||
              s1.cores.any fun x => !x.2.active.isEmpty
            if busy then s1 else (s1.swapContexts (some e.1) a).getD s1)

/-! ## Certification (R390, R391) -/

/-- A grid ran a team on cluster k after k's last passing scan ended. -/
def State.ranSince (s : State) (q : Grid) (k : Nat) : Bool :=
  match tabFind q.lastOn k with
  | some t => decide (t ≥ (s.cluster k).lastPass)
  | none => false

/-- Such grids are suspect; one that has completed is reported (R391). -/
def State.suspects (s : State) (k : Nat) : State :=
  s.grids.foldl (fun s e =>
    if !s.ranSince e.2 k then s
    else
      let s1 := if e.2.provisional then
          s.completion { wb := e.2.wb, kind := 2, ctx := e.2.ctx, late := false, cmask := e.2.cmask,
                         gtime := s.gtime }
        else s
      s1.updGrid e.1 fun g => { g with suspect := true, provisional := false }) s

/-! ## Clusters in and out of service (R392, R399) -/

/-- Clusters in service. -/
def State.inService (s : State) : List Nat := (List.range 64).filter fun k => (s.cluster k).inSvc

/-- The cores of some clusters. -/
def clusterCores (ks : List Nat) : List Nat := ks.flatMap fun k => (List.range 4).map fun i => 4 * k + i

/-- A change of service: `sr.topo` rises and `sr.clucnt` moves by `n` on every core, and every resident
context's error queue gets a TOPOLOGY record (R392). -/
def State.topology (s : State) (ks : List Nat) (n : Int) : State :=
  let s1 := allCores.foldl (fun (s : State) c => s.updCore c fun x =>
    { x with clucnt := x.clucnt + BitVec.ofInt 32 n, topo := x.topo + 1 }) s
  let mask := ks.foldl (fun (m : DWord) k => m ||| (1#64 <<< k)) 0
  ((List.range 8).filter fun c => s.resident c).foldl (fun (s : State) c =>
    s.aeqAppend c { s.blankRec .topology with
      async := true, ctx := BitVec.ofNat 3 c, addr := mask
      aux := BitVec.ofNat 20 s.inService.length }) s1

/-- Arrays of a saved context go out of service: their queued sweeps are dropped with SA_BIAS, each
with its addition. -/
def SavedCore.drop (v : SavedCore) : SavedCore :=
  let sweeps := v.arrays.flatMap StArray.queue
  { v with
    arrays := v.arrays.map fun a => { a with
      oos := true, queue := [], lastFault := if a.queue.isEmpty then a.lastFault else 1 }
    tl := sweeps.foldl (fun t c => match c.kind with
      | .sweep _ n k => listUpd (fun v => v + n.setWidth 64) t k.toNat
      | _ => t) v.tl }

/-- The records of a saved context's dropped sweeps. -/
def State.dropRecords (s : State) (core : Nat) (v : SavedCore) : State :=
  v.arrays.zipIdx.foldl (fun (s : State) e => e.1.queue.foldl (fun s c => s.saAsync core e.2 c .saBias) s) s

/-- Queued commands of an array dropped with SA_BIAS (R292). -/
def State.dropQueue (s : State) (core i : Nat) : List ACmd → State
  | [] => s
  | c :: r =>
    (match c.kind with
     | .sweep _ tinc tl => s.endSweep core i c tinc tl (some .saBias)
     | _ => s.popCmd core i).dropQueue core i r

/-- The arrays of a core, in every context, go out of service (R392 step 3). -/
def State.arraysOut (s : State) (core : Nat) : State :=
  let s1 := (List.range 4).foldl (fun (s : State) i =>
    (s.updArray core i fun a => { a with oos := true }).dropQueue core i ((s.core core).array i).queue) s
  (List.range 8).foldl (fun (s : State) c =>
    match tabFind (s.ctx c).saved core with
    | none => s
    | some v => (s.dropRecords core v).updCtx c fun x => { x with saved := tabSet x.saved core v.drop }) s1

/-- The arrays of a core return to service, their monitors with an empty window (R291, R399). -/
def State.arraysIn (s : State) (core : Nat) : State :=
  let back := fun (a : StArray) => if a.oos then { a.restart with oos := false } else a
  let fix := fun (t : Tab SavedCore) => t.map fun e =>
    if e.1 == core then (e.1, { e.2 with arrays := e.2.arrays.map back }) else e
  let s1 := s.updCore core fun x => { x with arrays := x.arrays.map back }
  { s1 with ctxs := s1.ctxs.map fun e => (e.1, { e.2 with saved := fix e.2.saved }) }

/-- The homes of a core's partials combine them (R392 step 2). -/
def State.combineCore (s : State) (core : Nat) : State :=
  let ls := (s.core core).partials.map Partial.line ++
    ((s.spills.filter fun z => z.1 == core).map fun z => z.2.line) ++
    s.ctxs.flatMap fun e => (tabGet [] (e.2.saved.map fun v => (v.1, v.2.partials)) core).map Partial.line
  ls.foldl (fun s l => s.combine l) s

/-- Logical cores of deterministic grids move from withdrawn clusters to another (R393). -/
def State.moveLogical (s : State) (ks : List Nat) : State :=
  match s.inService.head? with
  | none => s
  | some k =>
    let mv := fun c => if ks.contains (clusterOf c) then 4 * k + c % 4 else c
    { s with grids := s.grids.map fun e => (e.1, { e.2 with lmap := e.2.lmap.map mv }) }

/-- R392 for drained clusters. -/
def State.withdraw (s : State) (ks : List Nat) : State :=
  let cs := clusterCores ks
  let n := (ks.filter fun k => (s.cluster k).inSvc).length
  let s1 := cs.foldl State.combineCore s
  let s2 := cs.foldl (fun (s : State) c => s.updCore c fun x => { x with decided := [] }) s1
  let s3 := cs.foldl State.arraysOut s2
  let s4 := ks.foldl (fun (s : State) k => s.updCluster k fun x => { x with
    inSvc := false, drained := true, withdrawn := true, extents := [] }) s3
  let s5 := s4.topology ks (-(n : Int))
  (ks.foldl State.suspects s5).moveLogical ks

/-- Clusters close to new teams. -/
def State.closeClusters (s : State) (ks : List Nat) : State :=
  ks.foldl (fun (s : State) k => s.updCluster k fun x => { x with drained := true }) s

/-- The drain of R389 as far as it goes now; whether it is complete. -/
def State.drainClusters (s : State) (ks : List Nat) : State × Bool :=
  let s1 := (s.closeClusters ks).stopTeams fun t => t.inClusters ks
  (s1, (s1.runningTeams fun t => t.inClusters ks).isEmpty && s1.copiesDone (clusterCores ks))

/-- A passing scan of a drained cluster (R390, R399). -/
def State.scanPass (s : State) (k : Nat) : State :=
  let new := !(s.cluster k).inSvc
  let s1 := s.updCluster k fun x => { x with inSvc := true, drained := false, lastPass := s.steps + 1 }
  let s2 := if new then s1.topology [k] 1 else s1
  let s3 := (clusterCores [k]).foldl State.arraysIn s2
  s3.certify

/-- Every core of a cluster has raised its summary (R437). -/
def State.tested (s : State) (k : Nat) : Bool := (clusterCores [k]).all fun c => (s.core c).done

/-- A cluster's scan is over, or the cluster has left service: no other scan waits for it. -/
def State.scanOver (s : State) (k : Nat) : State :=
  { s with
    scanning := if s.scanning == some k then none else s.scanning
    floorDue := if s.floorDue == some k then none else s.floorDue }

/-- Another cluster is being scanned, or the hardware drains one whose scan is overdue (R15). -/
def State.scanHeld (s : State) (k : Nat) : Bool :=
  match s.scanning, s.floorDue with
  | some j, _ => j != k
  | none, some f => f != k
  | none, none => false

/-- SCANRUN, its checks passed: drain, then the scan's outcome. After a drain that the hardware began (R15) the
scan of another cluster waits; that the wait ends when the overdue cluster's next scan is over, passed or
failed, or when the cluster leaves service, is the model's choice: R15 does not say. A cluster whose cores have
not all raised their summaries is scanned once they have (R437; that the scan waits is the model's choice). The
patterns are those of the image that flash holds (R433). -/
def State.scanM (s : State) (k pattern : Nat) : M (Nat × State) :=
  if s.scanHeld k || !s.tested k then parkIn s
  else
    let r := { s with scanning := some k }.drainClusters [k]
    if !r.2 || !r.1.canFlush (clusterCores [k]) then parkIn r.1
    else
      let s1 := r.1.flushCores (clusterCores [k])
      if Config.scanPasses (s.flashOf 5).image k pattern s.steps then .ok (0, (s1.scanPass k).scanOver k)
      else .ok (5, (s1.suspects k).scanOver k)

/-- SCANRUN (R396, R399). -/
def execScanrun (p : Pred) (d a b : Reg) (s : State) : Host.Outcome State Fault Refusal :=
  run s (s.sysM p d [a.toNat, b.toNat] fun g x lo =>
    let k := (g.reg x a.toNat lo).toNat
    let n := (g.reg x b.toNat lo).toNat
    if k > 63 || n > 15 then .ok (1, s)
    else if (s.cluster k).withdrawn || (s.die (k / 16)).out then .ok (3, s.scanOver k)
    else if g.parked.isNone && s.scanning.isSome then .ok (2, s)
    else s.scanM k n)

/-- A group stands at a stage boundary: every thread at its stage head, nothing issued since. -/
def Group.atBoundary (g : Group) : Bool :=
  g.canClose && g.closing == .none && g.streams.all List.isEmpty && g.lanes.map Lane.pc == g.head.pcs

/-- A cluster is at a stage boundary: it runs no team, or a group on it stands at one. Which group's
boundary R15 means is not said; the model takes any (its choice). -/
def State.stageBoundary (s : State) (k : Nat) : Bool :=
  (s.runningTeams fun t => t.inClusters [k]).isEmpty ||
  (clusterCores [k]).any fun c => (s.core c).groups.any fun e => !e.2.fw && e.2.atBoundary

/-- SCAN_FLOOR_DRAIN: a cluster in service whose scan is overdue is drained by the hardware from its next
stage boundary on (R15). -/
def execScanFloorDrain (k : Nat) (s : State) : Host.Outcome State Fault Refusal :=
  .next (if !(s.cluster k).inSvc || s.scanning == some k then s
    else
      let s1 : State := { s with floorDue := s.floorDue.or (some k) }
      if !(s.cluster k).drained && !s.stageBoundary k then s1
      else
        let r := s1.drainClusters [k]
        if r.2 && r.1.canFlush (clusterCores [k]) then r.1.flushCores (clusterCores [k]) else r.1)

/-- CLUOFF, its checks passed. -/
def State.cluoffM (s : State) (k : Nat) : M (Nat × State) :=
  let r := s.drainClusters [k]
  if !r.2 || !r.1.canFlush (clusterCores [k]) then parkIn r.1
  else
    .ok (0, ((r.1.flushCores (clusterCores [k])).withdraw [k]).scanOver k)

/-- CLUOFF (R392, R400). -/
def execCluoff (p : Pred) (d a : Reg) (s : State) : Host.Outcome State Fault Refusal :=
  run s (s.sysM p d [a.toNat] fun g x lo =>
    let k := (g.reg x a.toNat lo).toNat
    if g.parked.isSome then s.cluoffM k
    else if k > 63 then .ok (1, s)
    else if (s.inService.filter (· != k)).isEmpty then .ok (6, s)
    else if !(s.cluster k).inSvc then .ok (3, s)
    else s.cluoffM k)

/-! ## Dies out of and back in service (R394, R395, R400) -/

/-- Groups that watch lines of a die are woken: what they watch is gone. -/
def State.wakeDie (s : State) (d : Nat) : State :=
  (s.dir.filter fun e => lineDie e.1 == d).foldl (fun s e =>
    (s.notify e.1).inkNotices e.1 fun _ _ => true) s

/-- What sequencers of a die's cores waited for is waited for no longer. -/
def State.lostSeqs (s : State) (d : Nat) : State :=
  let here := fun (key : Nat) => dieOf (key / 64) == d && key / 64 != coachman
  { s with
    invs := s.invs.filter fun r => !here r.key
    moving := s.moving.filter fun m => !here m.key
    moves := s.moves.filter fun m => !here m.2 }

/-- Steps 3 and 4 of R394 for a die whose clusters are drained: its own cores' words still reach its
slices, every home combines its partials, then its logic is reset. The running context's arrays there, saved by
the drain (R389), keep all they hold and stand out of service until their clusters pass a scan; a link of
theirs stays as it is on both sides (R288, R291). -/
def State.dieDown (s : State) (d : Nat) : State :=
  let open_ := s.updDie d fun x => { x with out := false }
  let s1 := (open_.flushCores (dieCores d)).updDie d fun x => { x with out := true }
  let s2 := s1.withdraw (dieClusters d)
  let s3 := (s2.dir.filter fun e => lineDie e.1 == d).foldl (fun (s : State) e => s.combine e.1) s2
  let s4 := (s3.wakeDie d).updDie d fun x => { x with portsUp := false, l2decided := [] }
  let s5 := (dieClusters d).foldl State.scanOver (s4.lostSeqs d)
  (dieCores d).foldl (fun (s : State) c =>
    s.updCore c Core.inReset) s5

/-- DIEOFF, its checks passed: new requests to the die's lines are refused at once, and its clusters
drain. -/
def State.dieoffM (s : State) (d : Nat) : M (Nat × State) :=
  let r := (s.updDie d fun x => { x with out := true }).drainClusters (dieClusters d)
  if r.2 && r.1.canFlush (dieCores d) then .ok (0, r.1.dieDown d) else parkIn r.1

/-- DIEOFF (R394, R400). -/
def execDieoff (p : Pred) (d a : Reg) (s : State) : Host.Outcome State Fault Refusal :=
  run s (s.sysM p d [a.toNat] fun g x lo =>
    let n := (g.reg x a.toNat lo).toNat
    if g.parked.isSome then s.dieoffM n
    else if n > 3 then .ok (1, s)
    else if n = 0 then .ok (6, s)
    else if (s.die n).out then .ok (3, s)
    else s.dieoffM n)

/-- Log entries held after HOME_OFFLINE replay once a die returns (R375, R395). -/
def Group.backOnline (g : Group) : Group :=
  { g with log := g.log.map fun e => if e.st == .offline then { e with st := .ready } else e }

/-- A die leaves reset. -/
def State.dieUp (s : State) (d : Nat) : State :=
  let s1 := s.dieStart d
  { s1 with cores := s1.cores.map fun e =>
      (e.1, { e.2 with groups := e.2.groups.map fun g => (g.1, g.2.backOnline) }) }

/-- DIEON, its checks passed: it is done once the die's march tests are. -/
def State.dieonM (s : State) (g : Group) (d : Nat) : M (Nat × State) :=
  if g.parked.isSome then
    (if (dieCores d).all fun c => (s.core c).done then .ok (0, s) else .error .park)
  else parkIn (s.dieUp d)

/-- DIEON (R395, R400). -/
def execDieon (p : Pred) (d a : Reg) (s : State) : Host.Outcome State Fault Refusal :=
  run s (s.sysM p d [a.toNat] fun g x lo =>
    let n := (g.reg x a.toNat lo).toNat
    if g.parked.isSome then s.dieonM g n
    else if n > 3 then .ok (1, s)
    else if n = 0 then .ok (6, s)
    else if !(s.die n).out then .ok (3, s)
    else s.dieonM g n)

end Sys2Proof.Machine
end

