-- ==== Sys2Proof/Machine/Control.lean ====
section
/-! DEFINITION. Branches and loop buffers, EXIT, NOP, YIELD, BAR, STAGE and WAITC (chapter 17). -/

namespace Sys2Proof.Machine

/-! ## Branches (R331, R333 to R335) -/

/-- The target of BRA and of CALL with IND = 0 (R335); none on a carry out of bit 43. -/
def braTarget (pc : DWord) (ofs : Int) : Option DWord := ptrAdd pc (8 * ofs)

/-- A branch's target checked: OBJ_BOUNDS for the carry, MISALIGNED (R335). -/
def checkTarget (pc : DWord) (lane : Nat) : Option DWord → M DWord
  | none => trapAddr .objBounds lane pc
  | some t => if t.extractLsb' 0 3 = 0 then .ok t else trapAddr .misaligned lane t

/-- The targets of the lanes that branch, each checked. -/
def checkTargets (pc : DWord) : List (Nat × Option DWord) → M (List (Nat × DWord))
  | [] => .ok []
  | (l, t) :: r => do
    let a ← checkTarget pc l t
    let b ← checkTargets pc r
    .ok ((l, a) :: b)

/-- The words from `t` to `pc`, as a thread's own fetch brings them (R331), with the caches after it; none
when one of them cannot be had. -/
def State.fetchLoop (s : State) (core ctx : Nat) (t : DWord) : Nat → M (Option (List DWord) × State)
  | 0 => .ok (some [], s)
  | n + 1 =>
    let s1 := s.fetched core ctx t
    match s.fetch core ctx t with
    | .wait => .error .wait
    | .trap _ => .ok (none, s1)
    | .absent _ _ => .ok (none, s1)
    | .word w => do
      let r ← s1.fetchLoop core ctx (pcAdd t 8) n
      .ok (r.1.map fun l => w :: l, r.2)

/-- The loop buffer that a taken BRA to `t` fills (R331). -/
def State.capture (s : State) (g : Group) (takers : LaneMask) (pc t : DWord) : M (Option LoopBuf × State) :=
  let n := (ptrOfs pc - ptrOfs t) / 8 + 1
  if ptrOfs t ≤ ptrOfs pc ∧ n ≤ 48 ∧ (g.live &&& ~~~takers) != 0 then do
    let r ← s.fetchLoop s.cur.core g.ctx t n
    .ok (r.1.map fun ws => { lo := t, hi := pc, words := ws }, r.2)
  else .ok (none, s)

/-- The threads of the mask move: those named to their targets, the others past the branch. -/
def State.jump (s : State) (m : LaneMask) (ts : List (Nat × DWord)) (buf : Option LoopBuf) : State :=
  s.updGroup s.cur.core s.cur.slot fun g =>
    { g.issued with lanes := g.issued.lanes.mapIdx fun i x =>
        if !m.getLsbD i then x
        else match tabFind ts i with
          | some t => { x with pc := t, buf := if buf.isSome then buf else x.buf }
          | none => { x with pc := pcAdd x.pc 8 } }

/-- The lanes a BRA's threads follow it in: with U the lowest lane of the mask decides for all
(R333). -/
def State.braTakers (s : State) (g : Group) (c : Ctl) : M LaneMask :=
  let x := s.core s.cur.core
  let t := g.taking x c.p s.cur.mask
  if !c.u then .ok t
  else
    match lowestLane s.cur.mask with
    | none => .ok 0
    | some lo =>
      let odd := (lanesOf s.cur.mask).find? fun l => t.getLsbD l != t.getLsbD lo
      match (if g.dbg then odd else none) with
      | some l => trapAt .uMismatch l
      | none => .ok (if t.getLsbD lo then s.cur.mask else 0)

/-- BRA (R331, R333, R335). -/
def State.braM (s : State) (c : Ctl) (ofs : BitVec 21) : M State := do
  let g ← s.agent
  let t ← s.braTakers g c
  match lowestLane t with
  | none => .ok s.next
  | some lo => do
    let dst ← checkTarget s.cur.pc lo (braTarget s.cur.pc ofs.toInt)
    let buf ← s.capture g t s.cur.pc dst
    .ok (buf.2.jump s.cur.mask ((lanesOf t).map fun l => (l, dst)) buf.1)

/-- BRA. -/
def execBra (c : Ctl) (ofs : BitVec 21) (s : State) : Host.Outcome State Fault Refusal :=
  run s (s.braM c ofs)

/-- A branch to a target in registers, or CALL: `link` the pair CALL writes, after A is read (R4). -/
def State.callM (s : State) (c : Ctl) (link : Option Reg) (src : Reg ⊕ Int) : M State :=
  s.memM c fun g x t lo => do
    let reads := match src with | .inl a => [a.toNat, a.toNat + 1] | .inr _ => []
    let writes := match link with | some d => [d.toNat, d.toNat + 1] | none => []
    needRegs g (reads ++ writes) lo
    uCheck g x c.u t lo reads
    let target := fun l => match src with
      | .inl a => some (g.pair x a.toNat (if c.u then lo else l))
      | .inr o => braTarget s.cur.pc o
    let ts ← checkTargets s.cur.pc ((lanesOf t).map fun l => (l, target l))
    let s1 := match link with
      | some d => s.putAll64 t d.toNat (pcAdd s.cur.pc 8)
      | none => s
    .ok (s1.jump s.cur.mask ts none)

/-- BRX (R335). -/
def execBrx (c : Ctl) (a : Reg) (s : State) : Host.Outcome State Fault Refusal :=
  run s (s.callM c none (.inl a))

/-- CALL (R335). -/
def execCall (c : Ctl) (d : Reg) (ofs : BitVec 20) (s : State) : Host.Outcome State Fault Refusal :=
  run s (s.callM c (some d) (.inr ofs.toInt))

/-- CALL with IND = 1 (R335). -/
def execCallInd (c : Ctl) (d a : Reg) (s : State) : Host.Outcome State Fault Refusal :=
  run s (s.callM c (some d) (.inl a))

/-- RET (R335): the effect of BRX. -/
def execRet (c : Ctl) (a : Reg) (s : State) : Host.Outcome State Fault Refusal :=
  run s (s.callM c none (.inl a))

/-! ## EXIT, NOP, YIELD (R337) -/

/-- EXIT: waits for an empty operand log (R80); a stage closes. -/
def execExit (p : Pred) (s : State) : Host.Outcome State Fault Refusal :=
  run s (s.groupM p fun g t _ => do
    waitIf (!g.log.isEmpty)
    .ok ((s.next.updGroup s.cur.core s.cur.slot fun g =>
      g.mapLanes t fun x => { x with st := .exited, buf := none }).close false))

/-- NOP. -/
def execNop (_ : Pred) (s : State) : Host.Outcome State Fault Refusal :=
  run s (do
    let _ ← s.agent
    .ok s.next)

/-- YIELD. -/
def execYield (p : Pred) (s : State) : Host.Outcome State Fault Refusal :=
  run s (s.groupM p fun _ t _ =>
    .ok (s.next.updGroup s.cur.core s.cur.slot fun g =>
      g.mapLanes t fun x => { x with yielded := true }))

/-! ## BAR, STAGE (R341, R346 to R348) -/

/-- BAR: waits for an empty operand log (R80); the threads that issue it are held, and the group
arrives once every live thread is (R347). -/
def State.barM (s : State) (p : Pred) (k : BarKind) (id cnt : Nat) : M State :=
  s.groupM p fun g _ _ => do
    waitIf (!g.log.isEmpty)
    .ok (s.updGroup s.cur.core s.cur.slot fun g =>
      let h := g.issued.mapLanes s.cur.mask fun x => { x with st := .held k id cnt, buf := none }
      if h.atBar then { h with closing := .wait } else h)

/-- BAR.team (R347). -/
def execBarTeam (p : Pred) (s : State) : Host.Outcome State Fault Refusal :=
  run s (s.barM p .team 0 0)

/-- BAR.sync (R347). -/
def execBarSync (p : Pred) (id : BitVec 5) (cnt : BitVec 6) (s : State) :
    Host.Outcome State Fault Refusal := run s (s.barM p .sync id.toNat cnt.toNat)

/-- BAR.arrive (R347). -/
def execBarArrive (p : Pred) (id : BitVec 5) (cnt : BitVec 6) (s : State) :
    Host.Outcome State Fault Refusal := run s (s.barM p .arrive id.toNat cnt.toNat)

/-- STAGE (R341): waits for an empty operand log (R80), then closes the stage. -/
def execStage (p : Pred) (s : State) : Host.Outcome State Fault Refusal :=
  run s (s.groupM p fun g _ _ => do
    waitIf (!g.log.isEmpty)
    .ok (s.next.close false))

/-! ## WAITC (R351) -/

/-- WAITC: parks until each counter is at most its bound. -/
def execWaitc (p : Pred) (nld nst ncp ntl : BitVec 5) (s : State) :
    Host.Outcome State Fault Refusal :=
  run s (s.groupM p fun g _ _ => do
    parkIf (!(decide (g.cnt.ld ≤ nld.toNat) && decide (g.cnt.st ≤ nst.toNat) &&
      decide (g.cnt.cp ≤ ncp.toNat) && decide (g.cnt.tl ≤ ntl.toNat)))
    .ok s.next)

end Sys2Proof.Machine
end

