-- ==== Sys2Proof/Machine/Pod.lean ====
section
/-! DEFINITION. The pod: datagrams, collectives and the reduction tree (R409, R410, R424 to R427), time
(R428), the links between the dies (R421, R422) and the scrubber (R101). -/

namespace Sys2Proof.Machine

/-! ## The reduction tree (R409) -/

/-- Two elements combined: OP 0 add, 1 min, 2 max in EFMT 0 FP32, 1 FP16, 2 BF16, 3 INT32. -/
def collOp (op efmt : Nat) (a b : Word) : Word :=
  if efmt = 3 then
    (if op = 0 then a + b else if op = 1 then (if a.slt b then a else b) else (if a.slt b then b else a))
  else
    let x := decodeVal (efmt + 1) a.toNat
    let y := decodeVal (efmt + 1) b.toNat
    BitVec.ofNat 32 (encodeVal (efmt + 1) .rne false
      (if op = 0 then exactSum .rne [x, y] else x.pick (op == 1) y))

/-- Two vectors combined element by element. -/
def collVec (op efmt : Nat) (a b : List Word) : List Word := List.zipWith (collOp op efmt) a b

/-- A node of two children: an EMPTY child leaves the other unchanged. -/
def joinNodes {α : Type} (f : α → α → α) : Option α → Option α → Option α
  | none, b => b
  | a, none => a
  | some a, some b => some (f a b)

/-- NODE(k, j): `none` while it is not known, `some none` EMPTY. `held` gives the nodes whose values
are at hand, `empty` those that no slot of a member lies under. -/
def nodeVal {α : Type} (f : α → α → α) (held : Nat → Nat → Option α) (empty : Nat → Nat → Bool) :
    Nat → Nat → Option (Option α)
  | k, j =>
    match held k j with
    | some v => some (some v)
    | none =>
      if empty k j then some none
      else match k with
        | 0 => none
        | k + 1 =>
          match nodeVal f held empty k (2 * j), nodeVal f held empty k (2 * j + 1) with
          | some a, some b => some (joinNodes f a b)
          | _, _ => none

/-- The topmost nodes at or under (k, j) whose values are known. -/
def topNodes {α : Type} (f : α → α → α) (held : Nat → Nat → Option α) (empty : Nat → Nat → Bool) :
    Nat → Nat → List (Nat × Nat × α)
  | k, j =>
    match nodeVal f held empty k j with
    | some (some v) => [(k, j, v)]
    | some none => []
    | none => match k with
      | 0 => []
      | k + 1 => topNodes f held empty k (2 * j) ++ topNodes f held empty k (2 * j + 1)

/-- Values combined in the order that pairs of places name; what is left over, from the left. -/
def combineFree {α : Type} (f : α → α → α) : List (Nat × Nat) → List α → Option α
  | [], [] => none
  | [], a :: r => some (r.foldl f a)
  | (i, j) :: ps, vs =>
    match vs[i]?, vs[j]? with
    | some a, some b => if i = j then combineFree f ps vs else
        combineFree f ps (f a b :: listDrop1 (listDrop1 vs (max i j)) (min i j))
    | _, _ => combineFree f ps vs

/-! ## A collective's descriptor (R426) -/

/-- Word i of the descriptor. -/
def Coll.word (c : Coll) (i : Nat) : DWord := (c.words[i]?).getD 0

/-- COUNT. -/
def Coll.count (c : Coll) : Nat := fld (c.word 2) 0 32

/-- OP. -/
def Coll.op (c : Coll) : Nat := fld (c.word 2) 32 2

/-- EFMT. -/
def Coll.efmt (c : Coll) : Nat := fld (c.word 2) 34 2

/-- DET. -/
def Coll.det (c : Coll) : Bool := (c.word 2).getLsbD 36

/-- SLOT0 and NSLOT of this device. -/
def Coll.own (c : Coll) : Nat × Nat := (fld (c.word 3) 0 14, fld (c.word 3) 14 15)

/-- CID. -/
def Coll.cid (c : Coll) : Nat := fld (c.word 3) 32 32

/-- Bytes of an element. -/
def Coll.es (c : Coll) : Nat := if c.efmt = 1 ∨ c.efmt = 2 then 2 else 4

/-- Chunks of 8,192 bytes in the reduced vector (R427). -/
def Coll.chunks (c : Coll) : Nat := (c.count * c.es + 8191) / 8192

/-- Bytes of a chunk. -/
def Coll.chunkBytes (c : Coll) (k : Nat) : Nat := min 8192 (c.count * c.es - 8192 * k)

/-- The slot ranges of all members, with this device's own first where the list does not give it. -/
def Coll.ranges (c : Coll) (devno : Nat) : List (Nat × Nat) :=
  let rs := c.members.map Prod.snd
  if c.members.contains (devno, c.own) then rs else c.own :: rs

/-- No member has a slot under node (k, j). -/
def Coll.emptyNode (c : Coll) (devno k j : Nat) : Bool :=
  (c.ranges devno).all fun r => decide ((j + 1) * 2 ^ k ≤ r.1) || decide (r.1 + r.2 ≤ j * 2 ^ k)

/-- Ranges that lie in the 16,384 slots and do not meet. -/
def rangesOk : List (Nat × Nat) → Bool
  | [] => true
  | r :: rs => decide (1 ≤ r.2) && decide (r.1 + r.2 ≤ 16384) &&
    (rs.all fun q => decide (r.1 + r.2 ≤ q.1) || decide (q.1 + q.2 ≤ r.1)) && rangesOk rs

/-- The fields that can be checked without the member list. -/
def Coll.fieldsOk (c : Coll) : Bool :=
  fld (c.word 2) 37 27 == 0 && c.op != 3 && fld (c.word 3) 29 3 == 0 && fld (c.word 5) 32 32 == 0 &&
  fld (c.word 7) 15 49 == 0 && decide (1 ≤ fld (c.word 7) 0 15) && decide (fld (c.word 7) 0 15 ≤ 16384)

/-- Word i of a physical range, as a member entry: device, SLOT0, NSLOT. -/
def memberOf (w : DWord) : Nat × Nat × Nat := (fld w 0 14, fld w 14 14, fld w 28 15)

/-! ## Reading and writing a collective's vectors -/

/-- Lines that `n` bytes at `a` touch. -/
def linesOf (a n : Nat) : List Nat :=
  if n = 0 then [] else (List.range ((a % 128 + n + 127) / 128)).map fun i => a / 128 + i

/-- A home read of the lines of `n` bytes at `a`: partials are combined first, and faults found (R96, R100). -/
def State.readRange (s : State) (a n : Nat) : State :=
  (linesOf a n).foldl (fun (s : State) l => (((s.atHome l).combine l).readLine l).2) s

/-- `n` bytes at `a` can be read at home: PEND is clear (R304). -/
def State.rangeReady (s : State) (a n : Nat) : Bool := (linesOf a n).all s.homeReady

/-- What a step of a collective comes to. -/
inductive CStep (α : Type) where
  | wait
  | fail
  | ok (v : α)

/-- `n` bytes read at home through a checked pointer, with poison consumed as a failure (R427). -/
def State.collRead (s : State) (ctx : Nat) (p : DWord) (n : Nat) : CStep (List Byte × State) :=
  match (s.check coachman ctx [] p n needLoad).1 with
  | .error _ => .fail
  | .ok d =>
    match (s.range coachman ctx d p n).bind fun r => r.2.readHome r.1 with
    | .ok (bs, t) => if bs.any fun b => b.2.isSome then .fail else .ok (bs.map Prod.fst, t)
    | .wait => .wait
    | _ => .fail

/-- Elements of `es` bytes. -/
def elemsOf (es : Nat) (bs : List Byte) : List Word :=
  (List.range (bs.length / es)).map fun i => BitVec.ofNat 32 (natOfBytes ((bs.drop (es * i)).take es))

/-- A chunk of this device's contributions, slot by slot from the i-th on. -/
def State.collSlots (s : State) (c : Coll) (chunk i : Nat) : Nat → CStep (List (List Word) × State)
  | 0 => .ok ([], s)
  | n + 1 =>
    match ptrAdd (c.word 0) (i * c.count * c.es + 8192 * chunk) with
    | none => .fail
    | some p =>
      match s.collRead c.ctx p (c.chunkBytes chunk) with
      | .ok (bs, t) =>
        (match t.collSlots c chunk (i + 1) n with
         | .ok (vs, u) => .ok (elemsOf c.es bs :: vs, u)
         | e => e)
      | .wait => .wait
      | .fail => .fail

/-- Bytes written at the homes of their lines (R427). -/
def State.writeChunks (s : State) (ctx : Nat) : List (Nat × Nat) → List Byte → State
  | [], _ => s
  | (pa, n) :: r, bs =>
    let bits := cutLines pa (n / 128 + 2) 0 ((bs.take n).map fun b => (b, none))
    (bits.foldl (fun (s : State) q => s.writeHome ctx (pa + q.1) (q.2.map Prod.fst)) s).writeChunks ctx r (bs.drop n)

/-- The updates of every line of some chunks arrive at their sharers. -/
def State.settleChunks (s : State) (cs : List (Nat × Nat)) : State :=
  (cs.flatMap fun c => linesOf c.1 c.2).foldl State.settle s

/-- A finished chunk published at DST: written at home, and every sharer's update accepted or replaced, before
the addition that follows it (R319, R427). -/
def State.collWrite (s : State) (c : Coll) (chunk : Nat) (vals : List Word) : Option State :=
  let n := c.chunkBytes chunk
  match ptrAdd (c.word 1) (8192 * chunk) with
  | none => none
  | some p =>
    match (s.check coachman c.ctx [] p n needStore).1 with
    | .error _ => none
    | .ok d =>
      match s.range coachman c.ctx d p n with
      | .ok (cs, t) =>
        some ((t.writeChunks c.ctx cs (vals.flatMap fun v => bytesOfNat c.es v.toNat)).settleChunks cs)
      | _ => none

/-! ## Progress (R409, R410, R427) -/

/-- The values held for a chunk, by node. -/
def Coll.held (c : Coll) (chunk k j : Nat) : Option (List Word) :=
  (c.nodes.find? fun v => v.chunk == chunk && v.level == k && v.idx == j).map NodeVal.vals

/-- A value kept, unless that node's is held already. -/
def Coll.keep (c : Coll) (v : NodeVal) : Coll :=
  if (c.held v.chunk v.level v.idx).isSome then c else { c with nodes := c.nodes ++ [v] }

/-- This device's own nodes of a chunk: in tree order, or combined in an order not stated. -/
def Coll.ownNodes (c : Coll) (devno chunk steps : Nat) (vs : List (List Word)) : List NodeVal :=
  let f := collVec c.op c.efmt
  if c.det then
    let held := fun k j => if k = 0 ∧ c.own.1 ≤ j then vs[j - c.own.1]? else none
    (topNodes f held (c.emptyNode devno) 14 0).map fun n =>
      { chunk := chunk, level := n.1, idx := n.2.1, src := devno, vals := n.2.2 }
  else
    match combineFree f (Config.combineOrder c.cid chunk steps) vs with
    | some v => [{ chunk := chunk, level := 0, idx := c.own.1, src := devno, vals := v }]
    | none => []

/-- Nodes sent to every other member; LEN counts the values' bytes, the node's place being the model's way of
naming what a DATA datagram holds (R424 gives no layout of its payload). -/
def State.sendNodes (s : State) (c : Coll) (vs : List NodeVal) : State :=
  (c.members.filter fun m => m.1 != s.devno.toNat).foldl (fun (s : State) m =>
    vs.foldl (fun (s : State) v =>
      (s.send m.1 1 (s.ctx c.ctx).jtag (BitVec.ofNat 32 c.cid) (BitVec.ofNat 32 v.chunk)
        (c.es * v.vals.length) (BitVec.ofNat 64 (v.level + 2 ^ 32 * v.idx) :: v.vals.map fun w => w.setWidth 64)).2) s) s

/-- The result of a chunk, once every member's share of it is known. -/
def Coll.result (c : Coll) (devno chunk steps : Nat) : Option (List Word) :=
  let f := collVec c.op c.efmt
  if c.det then
    match nodeVal f (c.held chunk) (c.emptyNode devno) 14 0 with
    | some r => r
    | none => none
  else
    let mine := c.nodes.filter fun v => v.chunk == chunk
    if (c.members.filter fun m => m.1 != devno).all fun m => mine.any fun v => v.src == m.1 then
      combineFree f (Config.combineOrder c.cid chunk steps) (mine.map NodeVal.vals)
    else none

/-- The addition of a collective that is over (R138, R427); a context that does not run keeps its
counters in its saved state. -/
def State.collAdd (s : State) (c : Coll) : State :=
  let core := fld (c.word 5) 12 8
  let tl := fld (c.word 5) 20 4
  let n := fld (c.word 5) 24 8
  if (s.ctx c.ctx).state == .running then s.tlAdd core (BitVec.ofNat 4 tl) n
  else s.updCtx c.ctx fun x =>
    let v := tabGet SavedCore.zero x.saved core
    { x with saved := tabSet x.saved core { v with
        tl := listUpd (fun w => w + BitVec.ofNat 64 n) v.tl tl } }

/-- A failed collective makes its addition and sends a WAYBILL record (R427). -/
def State.collFail (s : State) (c : Coll) : State :=
  (s.collAdd c).wbRecord c.ctx (BitVec.ofNat 64 c.cid) 0

/-- The switch armed takes effect now on a context that it takes from running (R385). -/
def State.switchDue (s : State) (c : Nat) : Bool :=
  match s.armed with | some a => a.ctx != c && decide (a.t.toNat ≤ s.gtime.toNat) | none => false

/-- A collective brought forward, chunk by chunk, as far as what is known allows: `none` once it is
over. From a switch's time on it begins no new chunk (R386). -/
def State.collTry (s : State) : Nat → Coll → State × Option Coll
  | 0, c => (s, some c)
  | f + 1, c =>
    if c.next ≥ c.chunks then (s.collAdd c, none)
    else if c.loaded ≤ c.next && s.switchDue c.ctx then (s, some c)
    else
      let own : CStep (State × Coll) :=
        if c.loaded > c.next then .ok (s, c)
        else match s.collSlots c c.next 0 c.own.2 with
          | .ok (vs, t) =>
            let ns := c.ownNodes s.devno.toNat c.next s.steps vs
            .ok (t.sendNodes c ns, ns.foldl Coll.keep { c with loaded := c.next + 1 })
          | .wait => .wait
          | .fail => .fail
      match own with
      | .wait => (s, some c)
      | .fail => (s.collFail c, none)
      | .ok (t, d) =>
        match d.result s.devno.toNat d.next s.steps with
        | none => (t, some d)
        | some vals =>
          match t.collWrite d d.next vals with
          | none => (t.collFail d, none)
          | some u => u.collTry f { d with
              next := d.next + 1, nodes := d.nodes.filter fun v => v.chunk != d.next }

/-- The i-th collective runs on, if its context does (R386). -/
def State.runColl (s : State) (i : Nat) : State :=
  match s.colls[i]? with
  | none => s
  | some c =>
    if c.started && (s.ctx c.ctx).state == .running then
      let r := s.collTry (c.chunks + 1) c
      { r.1 with colls := match r.2 with
          | some d => listUpd (fun _ => d) r.1.colls i
          | none => listDrop1 r.1.colls i }
    else s

/-- COLLECTIVE_START: the n-th waiting collective starts once its counter reaches WVAL; it acquires
as TLWAIT does. One that has started goes on where it stopped (R386). -/
def execCollectiveStart (n : Nat) (s : State) : Host.Outcome State Fault Refusal :=
  match s.colls[n]? with
  | none => .next s
  | some c =>
    let core := fld (c.word 5) 0 8
    let tl := (s.core core).tlVal (BitVec.ofNat 4 (fld (c.word 5) 8 4))
    if c.started then .next (s.runColl n)
    else if (s.ctx c.ctx).state != .running || decide (tl.toNat < (c.word 4).toNat) then .next s
    else
      let s1 := s.acquire core [] true
      .next ({ s1 with colls := listUpd (fun c => { c with started := true }) s1.colls n }.runColl n)

/-- A descriptor taken from a ring (R426): one that fails its checks fails at once. None while its member list
cannot be read yet (R304). -/
def State.takeColl (s : State) (ctx : Nat) (ws : List DWord) : Option State :=
  let c : Coll := { ctx := ctx, words := ws, members := [], started := false, loaded := 0, next := 0,
                    nodes := [], fallback := [] }
  let n := fld (c.word 7) 0 15
  if !c.fieldsOk then some (s.collFail c)
  else
    match s.collRead ctx (c.word 6) (8 * n) with
    | .wait => none
    | .fail => some (s.collFail c)
    | .ok (bs, t) =>
      let es := (List.range n).map fun i => BitVec.ofNat 64 (natOfBytes ((bs.drop (8 * i)).take 8))
      let d : Coll := { c with members := es.map memberOf }
      some (if (es.all fun w => fld w 43 21 == 0) && rangesOk (d.ranges s.devno.toNat) then
        { t with colls := t.colls ++ [d] }
      else t.collFail c)

/-- A host request accepted and kept until the lines it reads at home can be read (R304). -/
def State.keepHost (s : State) (r : HostReq) : State := { s with hostq := s.hostq ++ [r] }

/-- Up to `n` entries of a collective ring read at home and taken, from its HEAD on; the first that cannot be
read yet keeps the doorbell waiting. -/
def State.takeColls (s : State) (ctx : Nat) (tail : Word) : Nat → State
  | 0 => s
  | n + 1 =>
    let x := s.ctx ctx
    let a := x.colBase + 64 * (x.colHead.toNat % 2 ^ x.colLog2)
    if !s.rangeReady a 64 then s.keepHost (.ring ctx tail)
    else
      let t := s.readRange a 64
      match t.takeColl ctx ((List.range 8).map fun k => memDW t.mem (a + 8 * k)) with
      | none => t.keepHost (.ring ctx tail)
      | some u => (u.updCtx ctx fun x => { x with colHead := x.colHead + 1 }).takeColls ctx tail n

/-- A new TAIL of a context's collective ring: the entries up to it are read at home and taken (R416, R426).
A later doorbell of the ring takes the place of one that waits. -/
def State.collDoorbell (s : State) (ctx : Nat) (tail : Word) : State :=
  let x := s.ctx ctx
  let old := fun (r : HostReq) => match r with | .ring c _ => c == ctx | _ => false
  let s0 : State := { s with hostq := s.hostq.filter fun r => !old r }
  if !s.resident ctx || s.boot != .ready then s0
  else (s0.updCtx ctx fun x => { x with colTail := tail }).takeColls ctx tail
    (min (tail - x.colHead).toNat (2 ^ x.colLog2))

/-! ## Datagrams (R424, R425) -/

/-- The context a datagram is for; none where it must be discarded and counted. -/
def State.dgram (s : State) (h : DgHead) : Option Nat := if h.bad then none else s.tagged? h.jtag

/-- A datagram discarded and counted. -/
def State.discardDg (s : State) : State := { s with badDgrams := s.badDgrams + 1 }

/-- The place of a context's collective. -/
def State.collAt (s : State) (ctx : Nat) (cid : Word) : Option Nat :=
  firstBelow s.colls.length fun i => match s.colls[i]? with
    | some c => c.ctx == ctx && c.cid == cid.toNat
    | none => false

/-- DATA: a value of a chunk arrives; each SEQ is performed once. A context that does not run, or has
no such collective yet, discards it unacknowledged, and it comes again (R386). -/
def execData (h : DgHead) (level node : Nat) (vals : List Word) (s : State) :
    Host.Outcome State Fault Refusal :=
  match s.dgram h with
  | none => .next s.discardDg
  | some ctx =>
    if (s.ctx ctx).state != .running then .next s
    else if s.seqIn.contains (h.src.toNat, 1, h.seq.toNat) then .next (s.answer 2 h [])
    else
      match s.collAt ctx h.cid with
      | none => .next s
      | some i =>
        let v : NodeVal := { chunk := h.chunk.toNat, level := level, idx := node, src := h.src.toNat,
                             vals := vals }
        let late := match s.colls[i]? with | some c => decide (v.chunk < c.next) | none => true
        let s1 := { s with seqIn := (h.src.toNat, 1, h.seq.toNat) :: s.seqIn }.answer 2 h []
        .next (if late then s1 else
          { s1 with colls := listUpd (fun c => c.keep v) s1.colls i }.runColl i)

/-- A datagram that is kept until it is acknowledged (R425): DATA, and INKREQ until its reply comes. -/
def Sent.unacked (d : Sent) : Bool := d.typ == 1 || d.typ == 4

/-- The sent datagram that an ACK or NAK answers. -/
def Sent.matches (d : Sent) (h : DgHead) : Bool :=
  d.unacked && d.peer == h.src.toNat && d.h.seq == h.seq && d.h.cid == h.cid && d.h.chunk == h.chunk &&
  d.h.jtag == h.jtag

/-- ACK: what it acknowledges is kept no longer. -/
def execAck (h : DgHead) (s : State) : Host.Outcome State Fault Refusal :=
  match s.dgram h with
  | none => .next s.discardDg
  | some _ => .next { s with sent := s.sent.filter fun d => !d.matches h }

/-- The n-th sent datagram goes out again, up to 16 times (R425). -/
def State.resend (s : State) (n : Nat) : State :=
  { s with sent := listUpd (fun d => if d.unacked && decide (d.tries < 16) then { d with tries := d.tries + 1 } else d) s.sent n }

/-- NAK: what it names is sent again. -/
def execNak (h : DgHead) (s : State) : Host.Outcome State Fault Refusal :=
  match s.dgram h with
  | none => .next s.discardDg
  | some _ =>
    .next (match firstBelow s.sent.length (fun i => match s.sent[i]? with
        | some d => d.matches h | none => false) with
      | some i => s.resend i
      | none => s)

/-- RETRANSMIT: the n-th sent datagram's timer expires. -/
def execRetransmit (n : Nat) (s : State) : Host.Outcome State Fault Refusal := .next (s.resend n)

/-- A chunk of the i-th collective is incomplete (R410): once, the children of its missing nodes go to
the peers. -/
def State.fallBack (s : State) (i chunk : Nat) : State :=
  match s.colls[i]? with
  | none => s
  | some c =>
    if (s.ctx c.ctx).state != .running || !c.started || decide (chunk < c.next) ||
        decide (c.chunks ≤ chunk) || c.fallback.contains chunk then s
    else
      let ns := if c.det then
          (topNodes (collVec c.op c.efmt) (c.held chunk) (c.emptyNode s.devno.toNat) 14 0).map fun n =>
            { chunk := chunk, level := n.1, idx := n.2.1, src := s.devno.toNat, vals := n.2.2 }
        else c.nodes.filter fun v => v.chunk == chunk && v.src == s.devno.toNat
      let s1 := s.sendNodes c ns
      { s1 with colls := listUpd (fun c => { c with fallback := chunk :: c.fallback }) s1.colls i }.runColl i

/-- INCOMPLETE: a switch could not complete a chunk. -/
def execIncomplete (h : DgHead) (s : State) : Host.Outcome State Fault Refusal :=
  match s.dgram h with
  | none => .next s.discardDg
  | some ctx =>
    match s.collAt ctx h.cid with
    | none => .next s
    | some i => .next (s.fallBack i h.chunk.toNat)

/-- COLLECTIVE_TIMEOUT: no report came for a chunk of the n-th collective. -/
def execCollectiveTimeout (n chunk : Nat) (s : State) : Host.Outcome State Fault Refusal :=
  .next ((s.fallBack n chunk).runColl n)

/-- Every collective with a member fails, those after the i-th not yet looked at. -/
def State.failWith (s : State) (peer : Nat) : List Coll → State
  | [] => { s with colls := [] }
  | c :: r =>
    if c.members.any fun m => m.1 == peer then (s.collFail c).failWith peer r
    else
      let t := s.failWith peer r
      { t with colls := c :: t.colls }

/-- PEER_UNREACHABLE: a datagram's retries have run out; the peer's collectives fail (R425, R427). -/
def execPeerUnreachable (peer : Nat) (s : State) : Host.Outcome State Fault Refusal :=
  .next (if s.sent.any fun d => d.unacked && d.peer == peer && decide (16 ≤ d.tries) then
    { s with sent := s.sent.filter fun d => d.peer != peer }.failWith peer s.colls
  else s)

/-- PTPFWD: time forwarding; beyond the checks of R424 it leaves the state as it is. -/
def execPtpfwd (h : DgHead) (s : State) : Host.Outcome State Fault Refusal :=
  match s.dgram h with
  | none => .next s.discardDg
  | some _ => .next s

/-! ## Time (R428) -/

/-- PTP_SYNC: the servo is locked to the grandmaster's time. -/
def execPtpSync (t : DWord) (s : State) : Host.Outcome State Fault Refusal :=
  .next { s with gtime := t, ptp := .locked }

/-- HOLDOVER: eight Sync intervals were missed; a HEALTH record is sent. -/
def execHoldover (s : State) : Host.Outcome State Fault Refusal :=
  .next (match s.ptp with
    | .locked => { s with ptp := .holdover }.healthRec 0
    | .holdover => s)

/-! ## The links between the dies (R6, R421, R422) -/

/-- The higher die of a pair: 0–1, 1–3, 3–2, 2–0. -/
def higherDie (pair : Nat) : Nat := [1, 3, 3, 2].getD pair 3

/-- What the Stationer has begun with a die, taken as far as it goes now: the die goes out of service as
DIEOFF takes it (R394), and for a DIERESET returns as DIEON returns it (R395, R430). -/
def State.holdStep (s : State) (d : Nat) : State :=
  match (s.die d).hold with
  | .none => s
  | h =>
    let r := if (s.die d).out && !(s.die d).portsUp then (s, true)
      else
        let r := (s.updDie d fun x => { x with out := true }).drainClusters (dieClusters d)
        if r.2 && r.1.canFlush (dieCores d) then (r.1.dieDown d, true) else (r.1, false)
    if r.2 && h == .reset then r.1.dieUp d else r.1

/-- The Stationer begins to hold a die in reset, or to reset it. -/
def State.holdDie (s : State) (d : Nat) (h : Hold) : State :=
  (s.updDie d fun x => { x with hold := h }).holdStep d

/-- MODULE_LOSS: a pair loses a module; the last one takes the pair down. -/
def execModuleLoss (pair : Nat) (s : State) : Host.Outcome State Fault Refusal :=
  .next (match s.modules[pair]? with
    | none => s
    | some 0 => s
    | some (n + 1) =>
      let s1 := { s with modules := listUpd (fun _ => n) s.modules pair }.healthRec (BitVec.ofNat 64 pair)
      if n = 0 then { s1 with degraded := true }.holdDie (higherDie pair) .off else s1)

/-! ## The scrubber (R101) -/

/-- SCRUB_READ: a populated sector is read; a single-bit error is sent for a conditional write-back, an
uncorrectable sector takes the poison pattern and firmware a record. The scrubber runs once the device is ready
(R434 step 5) and pauses on a die out of service (R394). -/
def execScrubRead (sector : Nat) (s : State) : Host.Outcome State Fault Refusal :=
  if s.boot != .ready || (s.die (32 * sector / 2 ^ 38)).out then .next s
  else
    match tabFind s.ecc sector with
    | some (.raw b) =>
      let s1 := s.readSector sector
      .next { s1 with scrubs := s1.scrubs ++
        [{ sector := sector, raw := .raw b, bytes := memBytes s.mem (32 * sector) 32 }] }
    | some .uncorr => .next ((s.markPoison sector).healthRec (BitVec.ofNat 64 (32 * sector)))
    | _ => .next s

/-- SCRUB_WRITEBACK: the corrected sector is written only if the location still holds what was read. -/
def execScrubWriteback (n : Nat) (s : State) : Host.Outcome State Fault Refusal :=
  match s.scrubs[n]? with
  | none => .next s
  | some w =>
    let s1 := { s with scrubs := listDrop1 s.scrubs n }
    .next (if tabFind s.ecc w.sector = some w.raw ∧ memBytes s.mem (32 * w.sector) 32 = w.bytes then
      { s1 with ecc := tabErase s1.ecc w.sector } else s1)

end Sys2Proof.Machine
end

