-- ==== Sys2Proof/Machine/Host.lean ====
section
/-! DEFINITION. The two masters: host memory accesses, registers, doorbells and mailbox commands, CXL.cache
completions (R413 to R420), the sideband (R18 to R20, R429, R430), signed images (R431 to R433). -/

namespace Sys2Proof.Machine

/-! ## Error replies (R19, R419) -/

/-- A frozen host's request gets an error reply and nothing else: all-ones with poison for a read of
`n` bytes. -/
def State.hostError (s : State) (n : Nat) : State :=
  { s with rejected := true, hostReply := List.replicate n 0xFF, hostPoison := true }

/-- A host request carried out unless the host is frozen. -/
def State.byHost (s : State) (n : Nat) (k : State → State) : State :=
  if s.hostFrozen then s.hostError n else k { s with rejected := false }

/-- The host is frozen from this violation on. -/
def State.freezeHost (s : State) : State := { s with hostFrozen := true, rejected := true }

/-- The sideband is frozen from this violation on. -/
def State.freezeSideband (s : State) : State := { s with sbFrozen := true, rejected := true }

/-- A sideband request carried out unless the sideband is frozen: then its completion code is 0x82. -/
def State.bySideband (s : State) (k : State → State) : State :=
  if s.sbFrozen then { s with rejected := true, sbReply := [0x82] }
  else k { s with rejected := false, sbReply := [0] }

/-! ## Host accesses to device memory (R68, R69, R414, R415) -/

/-- A line of memory that no die in service holds: unpopulated (R68), or its die is in reset. -/
def State.noMemory (s : State) (l : Nat) : Bool :=
  decide (2 ^ 33 ≤ l) || decide (144000000000 ≤ 128 * l % 2 ^ 38) || (s.die (lineDie l)).out

/-- A line of a reserved range; firmware reserves in 64 KiB. -/
def reservedLine (l : Nat) : Bool := Config.reserved (128 * l / 2 ^ 16 * 2 ^ 16)

/-- A host read at the homes of its lines (R304): it is kept waiting while PEND is set. -/
def State.hostRead (s : State) (a n : Nat) : State :=
  let ls := linesOf a n
  if ls.any fun l => s.noMemory l || reservedLine l then
    { s with hostReply := List.replicate n 0xFF, hostPoison := true }
  else if !s.rangeReady a n then s.keepHost (.read a n)
  else
    let s1 := s.readRange a n
    if s1.poisoned a n then { s1 with hostReply := List.replicate n 0xFF, hostPoison := true }
    else { s1 with hostReply := memBytes s1.mem a n, hostPoison := false }

/-- HOST_MEM_READ (R414, R415, R419). -/
def execHostMemRead (addr len : Nat) (s : State) : Host.Outcome State Fault Refusal :=
  .next (s.byHost len fun s => s.hostRead addr len)

/-- A host write: a violation in a reserved range, dropped and counted where no memory is, else a
write at home line by line, each like an ST.nt's arrival. -/
def State.hostStore (s : State) (a : Nat) (bs : List Byte) : State :=
  let ls := linesOf a bs.length
  if ls.any reservedLine then s.freezeHost
  else if ls.any s.noMemory then { s with dropped := s.dropped + 1 }
  else s.writeChunks s.running [(a, bs.length)] bs

/-- HOST_MEM_WRITE (R414, R415, R419). -/
def execHostMemWrite (addr : Nat) (bytes : List Byte) (s : State) : Host.Outcome State Fault Refusal :=
  .next (s.byHost 0 fun s => s.hostStore addr bytes)

/-! ## CXL.cache completions (R309, R313, R415) -/

/-- What the host's completion can answer: a fill of a host-bias line, an atomic across the link, a
write to the host, a line of an XMOVE to device bias. -/
inductive HostItem where
  | fill (i : Nat) | atom (i : Nat) | write (i : Nat) | move (i : Nat)
  deriving DecidableEq, Repr

/-- What waits for the host. -/
def State.hostItems (s : State) : List HostItem :=
  (placesOf s.fills fun f => f.host && f.go.isNone).map .fill ++
  (placesOf s.atoms fun q => q.apl == 2 && !q.go).map .atom ++
  (placesOf s.hostWrites fun _ => true).map .write ++
  (placesOf s.moves fun _ => true).map .move

/-- The bytes of a line that came with a completion; without 128 of them, the home's. -/
def State.goLine (s : State) (line : Nat) (data : List Byte) : Line :=
  if data.length = 128 then BitVec.ofNat 1024 (natOfBytes data) else memLine s.mem line

/-- A PHASE's wait for the host, one completion of publication `job` fewer. -/
def Boundary.go (b : Boundary) (job : Nat) : Boundary :=
  if b.job = job then { b with hostWait := b.hostWait - 1 } else b

/-- A write to the host completes: the bytes are the line's; a publication's counts for its PHASE. A core's
writes to one line complete in the order in which they were sent (R185). -/
def State.goWrite (s : State) (i : Nat) (w : WtMsg) : State :=
  if (s.hostWrites.take i).any fun v => v.core == w.core && v.line == w.line then s
  else
    let s1 := { s with hostWrites := listDrop1 s.hostWrites i }.homeWrite { w with nt := true }
    if w.nt then s1
    else s1.updCore w.core fun x => { x with boundary := x.boundary.map fun b => b.go w.job }

/-- GO: the host's completion for the n-th request that waits for one. -/
def execGo (n : Nat) (data : List Byte) (s : State) : Host.Outcome State Fault Refusal :=
  .next (match s.hostItems[n]? with
    | none => s
    | some (.fill i) =>
      { s with fills := listUpd (fun f => { f with go := some (s.goLine f.line data) }) s.fills i }
    | some (.atom i) =>
      (match s.atoms[i]? with
       | none => s
       | some q =>
         let l := q.pa / 128
         let t := s.storeLine fwCtx l (s.goLine l data) (BitVec.allOnes 128)
         { t with atoms := listUpd (fun q => { q with go := true }) t.atoms i })
    | some (.write i) => (match s.hostWrites[i]? with | none => s | some w => s.goWrite i w)
    | some (.move i) => { s with moves := listDrop1 s.moves i })

/-! ## Ready-queue and error-queue doorbells (R358, R376, R416, R417) -/

/-- A host-appended waybill, read at its home and treated as SPAWN's placing of one that must be QUEUED with
JOIN 0 (R358). One whose pointer fails or whose extent is absent is dealt with at the head of its queue. -/
def State.hostPlace (s : State) (ctx : Nat) (wb : DWord) : State :=
  let placed := fun (s : State) => s.updCtx ctx fun c => { c with
    seq := c.seq + 1, placed := c.placed ++ [{ wb := wb, seq := c.seq, grid := none }] }
  match (if ptrOfs wb % 64 ≠ 0 then .bad .misaligned else s.locate ctx wb 64 needWaybill) with
  | .at pa =>
    let t := s.readRange pa 64
    if t.wbState pa ≠ 1 ∨ fld (t.wb pa 2) 0 32 ≠ 0 then t.badWb ctx wb pa 1
    else (match t.wellFormed ctx pa with
      | .fails k => t.badWb ctx wb pa k
      | _ => placed t)
  | _ => placed s

/-- A waybill can be read at its home (R304). -/
def State.placeReady (s : State) (ctx : Nat) (wb : DWord) : Bool :=
  match s.locate ctx wb 64 needWaybill with | .at pa => s.homeReady (pa / 128) | _ => true

/-- The physical address of entry `k` of a ring. -/
def RQueue.entryAt (q : RQueue) (k : Nat) : Nat := q.base + 8 * (k % 2 ^ q.log2)

/-- Up to `n` entries of a ready queue read at home and placed, from its TAIL on; the first that cannot be
read yet keeps the doorbell waiting. -/
def State.takeEntries (s : State) (ctx qn : Nat) (tail : Word) : Nat → State
  | 0 => s
  | n + 1 =>
    let q := (s.ctx ctx).queues.getD qn RQueue.zero
    let k := q.tail.toNat
    if !s.rangeReady (q.entryAt k) 8 then s.keepHost (.queue ctx qn tail)
    else
      let t := s.readRange (q.entryAt k) 8
      let wb := t.ringEntry q k
      if !t.placeReady ctx wb then t.keepHost (.queue ctx qn tail)
      else
        let u := (t.hostPlace ctx wb).updQueue ctx qn fun q => { q with tail := q.tail + 1 }
        let e := u.headPrio ctx ((u.ctx ctx).queues.getD qn RQueue.zero)
        (if q.count = 0 then u.updQueue ctx qn fun q => { q with eprio := e, age := 0 } else u).takeEntries
          ctx qn tail n

/-- A new TAIL of a ready queue: the entries up to it are read at home and placed (R358, R416). A later
doorbell of the queue takes the place of one that waits. -/
def State.queueDoorbell (s : State) (ctx qn : Nat) (tail : Word) : State :=
  let q := (s.ctx ctx).queues.getD qn RQueue.zero
  let old := fun (r : HostReq) => match r with | .queue c k _ => c == ctx && k == qn | _ => false
  let s0 : State := { s with hostq := s.hostq.filter fun r => !old r }
  if !s.resident ctx || s.boot != .ready || !q.en then s0
  else s0.takeEntries ctx qn tail (min (tail - q.tail).toNat (2 ^ q.log2 - q.count))

/-- A kept host request tried again, whatever has become of the host since (R19). -/
def State.serveHost (s : State) : HostReq → State
  | .queue c q tail => s.queueDoorbell c q tail
  | .ring c tail => s.collDoorbell c tail
  | .read a n => s.hostRead a n

/-- QDB. -/
def execQdb (ctx q : Nat) (tail : Word) (s : State) : Host.Outcome State Fault Refusal :=
  .next (s.byHost 0 fun s => s.queueDoorbell ctx q tail)

/-- A new HEAD of an error queue: the host has taken the records before it. -/
def State.errorHead (s : State) (ctx : Nat) (head : Word) : State :=
  if s.resident ctx then s.updCtx ctx fun c => { c with head := head } else s

/-- AEQH. -/
def execAeqh (ctx : Nat) (head : Word) (s : State) : Host.Outcome State Fault Refusal :=
  .next (s.byHost 0 fun s => s.errorHead ctx head)

/-- COLDB (R426). -/
def execColdb (ctx : Nat) (tail : Word) (s : State) : Host.Outcome State Fault Refusal :=
  .next (s.byHost 0 fun s => s.collDoorbell ctx tail)

/-! ## Host registers (R417) -/

/-- STATUS: READY, SBFROZEN, DEGRADED. -/
def State.status (s : State) : DWord :=
  BitVec.ofNat 64 (b2n (s.boot == .ready) + 2 * b2n s.sbFrozen + 4 * b2n s.degraded)

/-- What a BAR0 register reads as to a host that is not frozen. -/
def State.bar0 (s : State) (off : Nat) : DWord :=
  if off = 0 then 0x4B5259474B393441
  else if off = 8 then s.status
  else if 0x40 ≤ off ∧ off < 0x80 then BitVec.ofNat 64 (natOfBytes ((s.mbox.drop (off - 0x40)).take 8))
  else if off = 0x88 then BitVec.ofNat 64 (b2n s.mbBusy + 256 * s.mbResult)
  else if 0x1880 ≤ off ∧ off < 0x18C0 then (s.ctx ((off - 0x1880) / 8)).colHead.setWidth 64
  else 0

/-- A host's read of a BAR0 register: the reply, or, to a frozen host, the error reply (R19, R419). The opcode
table has no step for it, and it changes nothing else. -/
def State.registerRead (s : State) (off : Nat) : State :=
  s.byHost 8 fun s => { s with hostReply := bytesOfNat 8 (s.bar0 off).toNat, hostPoison := false }

/-- Bytes `lo` to `lo + n − 1` of a mailbox command as a number. -/
def mbField (b : List Byte) (lo n : Nat) : Nat := natOfBytes ((b.drop lo).take n)

/-- Bytes of the mailbox that a command uses (R418). -/
def mbUses (code i : Nat) : Bool :=
  i == 0 || (i == 8 && decide (1 ≤ code) && decide (code ≤ 3)) || (i == 9 && code == 4) ||
  (decide (16 ≤ i) && decide (i < 24) && (code == 1 || code == 3 || code == 4 || code == 5)) ||
  (decide (24 ≤ i) && decide (i < 28) && code == 5)

/-- A known code with no reserved byte or bit set (R418). -/
def mbOk (b : List Byte) : Bool :=
  let code := mbField b 0 1
  decide (1 ≤ code) && decide (code ≤ 6) &&
  (List.range 64).all (fun i => mbUses code i || mbField b i 1 == 0) &&
  decide (mbField b 8 1 < 8) && (code == 3 || decide (mbField b 16 8 < 2 ^ 40))

/-- Submission of the mailbox: a command that is unknown or has a reserved bit set is a violation. -/
def State.submit (s : State) : State :=
  if mbOk s.mbox then { s with mbBusy := true, mbCmd := s.mbox }
  else { s with mbResult := 1 }.freezeHost

/-- A host register written: MBOX and MBDB here, any write to MBDB while BUSY is set being a violation; the
doorbells as their own steps do; every other register is read only or reserved. -/
def State.writeBar0 (s : State) (off : Nat) (v : DWord) : State :=
  if off % 8 ≠ 0 then s
  else if 0x40 ≤ off ∧ off < 0x80 then
    { s with mbox := s.mbox.take (off - 0x40) ++ bytesOfNat 8 v.toNat ++ s.mbox.drop (off - 0x38) }
  else if off = 0x80 then (if s.mbBusy then s.freezeHost else if v.getLsbD 0 then s.submit else s)
  else if 0x1000 ≤ off ∧ off < 0x1400 then
    s.queueDoorbell ((off - 0x1000) / 128) ((off - 0x1000) % 128 / 8) (v.setWidth 32)
  else if 0x1800 ≤ off ∧ off < 0x1840 then s.errorHead ((off - 0x1800) / 8) (v.setWidth 32)
  else if 0x1840 ≤ off ∧ off < 0x1880 then s.collDoorbell ((off - 0x1840) / 8) (v.setWidth 32)
  else s

/-- HOST_REGISTER_WRITE. -/
def execHostRegisterWrite (off : Nat) (val : DWord) (s : State) : Host.Outcome State Fault Refusal :=
  .next (s.byHost 0 fun s => s.writeBar0 off val)

/-! ## Mailbox commands (R418, R420) -/

/-- The Coachman performs the submitted command with this code, then clears BUSY; a command accepted
before a freeze is performed (R19). The `n` bytes it reads at its address wait while PEND is set (R304). -/
def State.command (s : State) (code n : Nat) (k : State → List Byte → Nat × State) : State :=
  if s.mbBusy && s.boot == .ready && mbField s.mbCmd 0 1 == code && s.rangeReady (mbField s.mbCmd 16 8) n then
    let r := k (s.readRange (mbField s.mbCmd 16 8) n) s.mbCmd
    { r.2 with mbBusy := false, mbResult := r.1, msix := r.2.msix ++ [0] }
  else s

/-- A queue descriptor of an image (R358). -/
def State.imageQueue (s : State) (a : Nat) : RQueue :=
  let w := fun i => memDW s.mem (a + 8 * i)
  { RQueue.zero with
    base := fld (w 0) 0 40, log2 := fld (w 1) 0 5, en := (w 1).getLsbD 5
    head := (w 2).extractLsb' 0 32, tail := (w 2).extractLsb' 32 32 }

/-- Entries that an image's enabled queues hold already get their places in order. -/
def State.seedQueue (s : State) (c qn : Nat) : State :=
  let q := (s.ctx c).queues.getD qn RQueue.zero
  if !q.en then s
  else
    let s1 := (List.range (min q.count (2 ^ q.log2))).foldl (fun (s : State) i =>
      let wb := s.ringEntry q (q.head.toNat + i)
      s.updCtx c fun x => { x with
        seq := x.seq + 1, placed := x.placed ++ [{ wb := wb, seq := x.seq, grid := none }] }) s
    let e := s1.headPrio c q
    s1.updQueue c qn fun q => { q with eprio := e }

/-- A context made resident from the image at `p` (R383, R418). -/
def State.mkres (s : State) (c p : Nat) : Nat × State :=
  let w := fun i => memDW s.mem (p + 8 * i)
  let jtag := (w 0).extractLsb' 32 32
  if (s.ctx c).state ≠ .empty then (3, s)
  else if p % 64 ≠ 0 || (s.tagged? jtag).isSome then (2, s)
  else
    let x : Ctx := { Ctx.init with
      state := .resident, qui := (w 0).getLsbD 2, jtag := jtag
      otb := fld (w 1) 0 40, otl := fld (w 1) 40 21
      save := (Config.saveArea c s.steps).toNat / 4096 * 4096
      aeq := fld (w 3) 0 40, aeqLog := fld (w 3) 40 5
      rkey := BitVec.ofNat 128 (memNat s.mem (p + 40) 16)
      queues := (List.range 16).map fun i => s.imageQueue (p + 64 + 32 * i)
      colBase := fld (w 72) 0 40, colLog2 := fld (w 72) 40 5 }
    let s1 := s.updCtx c fun _ => x
    (0, (List.range 16).foldl (fun (s : State) q => s.seedQueue c q) s1)

/-- MKRES. -/
def execMkres (s : State) : Host.Outcome State Fault Refusal :=
  .next (s.command 1 640 fun s b => s.mkres (mbField b 8 1) (mbField b 16 8))

/-- Work the Coachman has put off for a context. -/
def State.choreOf (s : State) (c : Nat) : FaultFor → Bool
  | .succ k _ _ _ _ => k == c
  | .ended gid _ | .failed gid => match tabFind s.grids gid with | some g => g.ctx == c | none => false
  | _ => false

/-- The context can be emptied: RESIDENT and not RUNNING. -/
def State.evictable (s : State) (c : Nat) : Bool := (s.ctx c).state == .resident

/-- The teams of a context that is to be emptied are discarded, and their waybills take FAILED. -/
def State.failTeams (s : State) (c : Nat) : State :=
  let open_ := fun (gid : Nat) => s.teams.any fun t => t.2.live && t.2.grid == gid
  let s1 := (s.grids.filter fun g => g.2.ctx == c && open_ g.1).foldl
    (fun (s : State) g => s.failWaybill g.1 g.2) s
  let end_ := fun (t : Team) => if t.ctx == c then { t with live := false, dead := t.live || t.dead } else t
  { s1 with teams := s1.teams.map fun t => (t.1, end_ t.2) }

/-- A waybill of a context still waits to take FAILED, its line having PEND set or its extent being absent. -/
def State.failing (s : State) (c : Nat) : Bool :=
  (s.chores ++ (s.faults.filter fun f => f.ctx == c).map FaultRec.who).any fun f =>
    (match f with | .failed _ => true | _ => false) && s.choreOf c f

/-- A resident context emptied, its waybills having taken FAILED: all else it had is discarded. A switch to
it that is armed is armed no longer (the model's choice: R418 and R398 do not say). -/
def State.evict (s : State) (c : Nat) : Nat × State :=
  if !s.evictable c then (3, s)
  else
    let mine := fun (r : HostReq) => match r with
      | .queue k _ _ | .ring k _ => k == c
      | .read _ _ => false
    let s2 : State := { s with
      armed := s.armed.filter fun a => a.ctx != c
      hostq := s.hostq.filter fun r => !mine r
      grids := s.grids.filter fun g => g.2.ctx != c || g.2.provisional
      faults := s.faults.filter fun f => f.ctx != c
      chores := s.chores.filter fun f => !s.choreOf c f
      colls := s.colls.filter fun q => q.ctx != c }
    (0, s2.updCtx c fun _ => Ctx.init)

/-- A submitted command with this code can be performed. -/
def State.submitted (s : State) (code : Nat) : Bool :=
  s.mbBusy && s.boot == .ready && mbField s.mbCmd 0 1 == code

/-- EVICT. BUSY stays set while a waybill still waits to take FAILED. -/
def execEvict (s : State) : Host.Outcome State Fault Refusal :=
  let c := mbField s.mbCmd 8 1
  let go := s.submitted 2 && s.evictable c
  let t := if go then s.failTeams c else s
  .next (if go && t.failing c then t else t.command 2 0 fun s _ => s.evict c)

/-- SWITCH: GANGSW of R398, with STATE for every status but OK. -/
def execSwitch (s : State) : Host.Outcome State Fault Refusal :=
  .next (s.command 3 0 fun s b =>
    let r := s.arm (mbField b 8 1) (BitVec.ofNat 64 (mbField b 16 8))
    if r.1 = 0 then r else (3, s))

/-- SETCR: the ring of completion records. -/
def execSetcr (s : State) : Host.Outcome State Fault Refusal :=
  .next (s.command 4 0 fun s b =>
    let l := mbField b 9 1
    let a := mbField b 16 8
    if l < 4 ∨ 16 < l ∨ a % 32 ≠ 0 then (2, s)
    else (0, { s with crBase := a, crLog2 := l, crTail := 0 }))

/-- An accepted image in flash, which may raise its type's minimum; nothing for a refused one (R432,
R433). -/
def State.loadImage (s : State) (img : List Byte) : Option State :=
  if s.accepts img then
    let t := imageType img
    some (State.raiseSvn { s with flash := tabSet s.flash t { s.flashOf t with image := img } } img)
  else none

/-- FWLOAD: a refused image freezes the host, with SIGFAIL. -/
def execFwload (s : State) : Host.Outcome State Fault Refusal :=
  .next (s.command 5 (mbField s.mbCmd 24 4) fun s b =>
    let a := mbField b 16 8
    if a % 8 ≠ 0 then (2, s)
    else match s.loadImage (memBytes s.mem a (mbField b 24 4)) with
      | some t => (0, t)
      | none => (4, s.freezeHost))

/-- UNFRZSB: the host releases the sideband. -/
def execUnfrzsb (s : State) : Host.Outcome State Fault Refusal :=
  .next (s.command 6 0 fun s _ => (0, { s with sbFrozen := false }))

/-- MALFORMED_COMMAND: the master that submits one is frozen (R19). -/
def execMalformedCommand (m : Master) (s : State) : Host.Outcome State Fault Refusal :=
  .next (match m with
    | .host => s.byHost 0 State.freezeHost
    | .sideband => s.bySideband State.freezeSideband)

/-! ## The sideband (R20, R429, R430) -/

/-- RSUM of a core (R437). -/
def Core.rsum (x : Core) : Nat :=
  x.nrep.toNat + 2 ^ 8 * x.nret.toNat + 2 ^ 16 * b2n x.done + 2 ^ 17 * b2n x.fail + 2 ^ 24 * x.tcode.toNat

/-- What HEALTH returns: the health counters, every core's repair summary, STATUS, the PTP state. -/
def State.healthReport (s : State) : List Byte :=
  ((List.range 4).flatMap fun d => bytesOfNat 8 (s.die d).corrected) ++
  bytesOfNat 8 s.dropped ++ bytesOfNat 8 s.badDgrams ++
  (allCores.flatMap fun c => bytesOfNat 4 (s.core c).rsum) ++
  bytesOfNat 8 s.status.toNat ++ bytesOfNat 1 (match s.ptp with | .locked => 0 | .holdover => 1)

/-- HEALTH. -/
def execHealth (s : State) : Host.Outcome State Fault Refusal :=
  .next (s.bySideband fun s => { s with sbReply := s.healthReport })

/-- A pair that lies down has the Stationer hold its higher die (R422). -/
def State.pairDown (s : State) (d : Nat) : Bool :=
  (List.range 4).any fun p => s.modules[p]? == some 0 && higherDie p == d

/-- A power cycle of the compute rails: everything on the dies is lost, and the device boots again. What
the Stationer and the masters hold stands, and a pair without a module stays down. -/
def State.powerCycle (s : State) : State :=
  let down := fun (e : Nat × Die) => (e.1, { Die.init with
    resets := e.2.resets, hold := if s.pairDown e.1 then .off else .none })
  let t : State := { State.reset with
    steps := s.steps, agenda := s.agenda, cur := s.cur, flash := s.flash, hostFrozen := s.hostFrozen
    sbFrozen := s.sbFrozen, rejected := s.rejected, sbReply := s.sbReply, hostReply := s.hostReply
    hostPoison := s.hostPoison, devno := s.devno, gtime := s.gtime, modules := s.modules
    dropped := s.dropped, badDgrams := s.badDgrams, degraded := s.degraded, spdm := s.spdm
    dies := s.dies.map down }
  t.bootUp

/-- DIERESET of a die: DIEOFF, then DIEON; ADMISSION takes on what its teams hold up. Of die 0 it is the power
cycle. A die that the Stationer holds in reset stays there (the model's choice: R430 does not say). -/
def State.dieReset (s : State) (d : Nat) : State :=
  if d > 3 then s.freezeSideband
  else if d = 0 then s.powerCycle
  else if (s.die d).hold == .off then s
  else s.holdDie d .reset

/-- DIERESET (R430). -/
def execDiereset (die : Nat) (s : State) : Host.Outcome State Fault Refusal :=
  .next (s.bySideband fun s => s.dieReset die)

/-- FWLOAD_SIDEBAND: a refused image freezes the sideband. -/
def execFwloadSideband (image : List Byte) (s : State) : Host.Outcome State Fault Refusal :=
  .next (s.bySideband fun s => (s.loadImage image).getD s.freezeSideband)

/-- UNFRZHOST: the sideband releases the host. -/
def execUnfrzhost (s : State) : Host.Outcome State Fault Refusal :=
  .next (s.bySideband fun s => { s with hostFrozen := false })

/-- The measurements of the loaded images, in the order of their types (R429): their SHA-384 digests. -/
def State.measurements (s : State) : List (BitVec 384) :=
  s.booted.map fun b => BitVec.ofNat 384 (natOfBytes (sha384 b).reverse)

/-- The Stationer answers an SPDM request. GET_VERSION (request code 0x84) begins a transcript, every request and
answer joins it, and a vendor-defined request (0xFE) is answered with the ML-DSA-65 signature over it (R429; the
codes are SPDM's own). -/
def State.spdmAnswer (s : State) (req : List Byte) : State :=
  if req[1]? == some 0xFE#8 then { s with sbReply := Config.spdmSign s.spdm s.steps }
  else
    let rep := Config.spdmReply s.measurements req s.steps
    let old := if req[1]? == some 0x84#8 then [] else s.spdm
    { s with sbReply := rep, spdm := old ++ req ++ rep }

/-- SPDM_REQUEST: a frozen sideband is answered only GET_VERSION. -/
def execSpdmRequest (req : List Byte) (s : State) : Host.Outcome State Fault Refusal :=
  .next (if s.sbFrozen && req[1]? != some 0x84#8 then { s with rejected := true, sbReply := [0x82] }
    else { s with rejected := false }.spdmAnswer req)

/-- STATIONER_POWER_CYCLE: it releases the sideband when both masters are frozen; the compute dies
keep running (R20). -/
def execStationerPowerCycle (s : State) : Host.Outcome State Fault Refusal :=
  .next { s with sbReply := [], sbFrozen := s.sbFrozen && !s.hostFrozen }

/-! ## ADMISSION (R359 to R364) -/

/-- What was put off is taken up again: the Coachman's own steps at waybills' homes, host requests that waited
for a home read, and what the Stationer has begun with a die. -/
def State.takeUp (s : State) : State :=
  let s1 := s.chores.foldl State.chore { s with chores := [] }
  let s2 := s1.hostq.foldl State.serveHost { s1 with hostq := [] }
  [1, 2, 3].foldl State.holdStep s2

/-- ADMISSION: the Coachman takes up what was put off, looks at the queues anew and offers a core what may
be placed on it. -/
def execAdmission (core : Nat) (s : State) : Host.Outcome State Fault Refusal :=
  let s1 := s.takeUp
  match s1.admitting with
  | none => .next s1
  | some ctx =>
    let s2 := if (s1.ctx ctx).qui then s1 else
      (List.range 16).foldl (fun (s : State) qn => s.refreshQueue ctx qn) s1
    .next (s2.offer ctx core)

end Sys2Proof.Machine
end

