-- ==== Sys2Proof/Machine/Integer.lean ====
section
/-! DEFINITION. Integer, logic, predicate and lane instructions (chapter 12). -/

namespace Sys2Proof

/-- A 32-bit integer type is signed (R40). -/
def IntTy32.signed : IntTy32 → Bool
  | .s32 => true
  | .z32 => false

/-- The registers a second source names. -/
def Src2.regs (w : Wid) : Src2 → List Nat
  | .reg b => w.regs b.toNat
  | .imm _ => []

/-- The registers second and third sources name. -/
def Src3.regs (wb wc : Wid) : Src3 → List Nat
  | .reg b c => wb.regs b.toNat ++ wc.regs c.toNat
  | .imm _ c => wc.regs c.toNat

end Sys2Proof

namespace Sys2Proof.Machine

/-- A second source's pattern; an immediate is extended as R29 gives. -/
def src2Nat (src : Src) (signed : Bool) (w : Wid) : Src2 → Nat
  | .reg b => src.nat w b.toNat
  | .imm v => immNat signed w.bits 20 v.toNat

/-- The second of three sources. -/
def src3Nat2 (src : Src) (signed : Bool) (w : Wid) : Src3 → Nat
  | .reg b _ => src.nat w b.toNat
  | .imm v _ => immNat signed w.bits 20 v.toNat

/-- The third source. -/
def src3Nat3 (src : Src) (w : Wid) : Src3 → Nat
  | .reg _ c => src.nat w c.toNat
  | .imm _ c => src.nat w c.toNat

/-- A two-source instruction of R226 whose exact result is `r` of its sources. -/
def int2 (c : Ctl) (ty : IntTy) (sat : Bool) (d a : Reg) (b : Src2) (r : Int → Int → Int) : VOp :=
  lanewise c (ty.wid.regs a.toNat ++ Src2.regs ty.wid b) (ty.wid.regs d.toNat) fun src =>
    let x := readInt ty.signed ty.bits (src.nat ty.wid a.toNat)
    let y := readInt ty.signed ty.bits (src2Nat src ty.signed ty.wid b)
    outNat ty.wid d.toNat (intResult ty.signed ty.bits sat (r x y))

/-- A one-source instruction of R226. -/
def int1 (c : Ctl) (ty : IntTy) (sat : Bool) (d a : Reg) (r : Int → Int) : VOp :=
  lanewise c (ty.wid.regs a.toNat) (ty.wid.regs d.toNat) fun src =>
    outNat ty.wid d.toNat (intResult ty.signed ty.bits sat
      (r (readInt ty.signed ty.bits (src.nat ty.wid a.toNat))))

/-- IDIV's exact result (R226). -/
def divExact (signed : Bool) (n : Nat) (x y : Int) : Int :=
  if y = 0 then (if signed then -1 else 2 ^ n - 1) else x.tdiv y

/-- IREM's exact result (R226). -/
def remExact (x y : Int) : Int := if y = 0 then x else x.tmod y

/-- IADD (R226). -/
def execIadd (c : Ctl) (ty : IntTy) (sat : Bool) (d a : Reg) (b : Src2) (s : State) :
    Host.Outcome State Fault Refusal := s.vec (int2 c ty sat d a b fun x y => x + y)

/-- ISUB (R226). -/
def execIsub (c : Ctl) (ty : IntTy) (sat : Bool) (d a : Reg) (b : Src2) (s : State) :
    Host.Outcome State Fault Refusal := s.vec (int2 c ty sat d a b fun x y => x - y)

/-- IMUL (R226). -/
def execImul (c : Ctl) (ty : IntTy) (sat : Bool) (d a : Reg) (b : Src2) (s : State) :
    Host.Outcome State Fault Refusal := s.vec (int2 c ty sat d a b fun x y => x * y)

/-- IMULH (R226): floor(a × b ÷ 2^n). -/
def execImulh (c : Ctl) (ty : IntTy) (d a : Reg) (b : Src2) (s : State) :
    Host.Outcome State Fault Refusal :=
  s.vec (int2 c ty false d a b fun x y => (x * y) / (2 ^ ty.bits : Int))

/-- IMAD (R226). -/
def execImad (c : Ctl) (ty : IntTy) (sat : Bool) (d a : Reg) (b : Src3) (s : State) :
    Host.Outcome State Fault Refusal :=
  s.vec (lanewise c (ty.wid.regs a.toNat ++ Src3.regs ty.wid ty.wid b) (ty.wid.regs d.toNat)
    fun src =>
      let rd := readInt ty.signed ty.bits
      outNat ty.wid d.toNat (intResult ty.signed ty.bits sat
        (rd (src.nat ty.wid a.toNat) * rd (src3Nat2 src ty.signed ty.wid b)
          + rd (src3Nat3 src ty.wid b))))

/-- IMIN (R226). -/
def execImin (c : Ctl) (ty : IntTy) (d a : Reg) (b : Src2) (s : State) :
    Host.Outcome State Fault Refusal :=
  s.vec (int2 c ty false d a b fun x y => if x ≤ y then x else y)

/-- IMAX (R226). -/
def execImax (c : Ctl) (ty : IntTy) (d a : Reg) (b : Src2) (s : State) :
    Host.Outcome State Fault Refusal :=
  s.vec (int2 c ty false d a b fun x y => if x ≤ y then y else x)

/-- IABS (R226). -/
def execIabs (c : Ctl) (ty : IntTy) (sat : Bool) (d a : Reg) (s : State) :
    Host.Outcome State Fault Refusal :=
  s.vec (int1 c ty sat d a fun x => if x < 0 then -x else x)

/-- INEG (R226). -/
def execIneg (c : Ctl) (ty : IntTy) (sat : Bool) (d a : Reg) (s : State) :
    Host.Outcome State Fault Refusal := s.vec (int1 c ty sat d a fun x => -x)

/-- IDIV (R226). -/
def execIdiv (c : Ctl) (ty : IntTy) (d a : Reg) (b : Src2) (s : State) :
    Host.Outcome State Fault Refusal :=
  s.vec (int2 c ty false d a b (divExact ty.signed ty.bits))

/-- IREM (R226). -/
def execIrem (c : Ctl) (ty : IntTy) (d a : Reg) (b : Src2) (s : State) :
    Host.Outcome State Fault Refusal := s.vec (int2 c ty false d a b remExact)

/-- IADDC and ISUBC (R228): PI is read before PO is written. -/
def carryOp (sub : Bool) (c : Ctl) (w : Wid) (d a b : Reg) (pi : Option PReg) (po : PReg) : VOp :=
  { c := c, reads := w.regs a.toNat ++ w.regs b.toNat,
    preads := match pi with | some k => [k.toNat] | none => [],
    writes := w.regs d.toNat,
    f := fun src l =>
      let cin := match pi with | some k => (src l).pred k.toNat | none => false
      let r := addCarry sub w.bits ((src l).nat w a.toNat) ((src l).nat w b.toNat) cin
      { regs := outNat w d.toNat r.1, preds := [(po.toNat, r.2)] } }

/-- IADDC (R228). -/
def execIaddc (c : Ctl) (w : Wid) (d a b : Reg) (pi : Option PReg) (po : PReg) (s : State) :
    Host.Outcome State Fault Refusal := s.vec (carryOp false c w d a b pi po)

/-- ISUBC (R228, SUB = 1). -/
def execIsubc (c : Ctl) (w : Wid) (d a b : Reg) (pi : Option PReg) (po : PReg) (s : State) :
    Host.Outcome State Fault Refusal := s.vec (carryOp true c w d a b pi po)

/-- LEA (R226): a + b × 2^(c mod n), c unsigned. -/
def execLea (c : Ctl) (ty : IntTy) (d a : Reg) (b : Src3) (s : State) :
    Host.Outcome State Fault Refusal :=
  s.vec (lanewise c (ty.wid.regs a.toNat ++ Src3.regs ty.wid ty.wid b) (ty.wid.regs d.toNat)
    fun src =>
      let rd := readInt ty.signed ty.bits
      outNat ty.wid d.toNat (intResult ty.signed ty.bits false
        (rd (src.nat ty.wid a.toNat) + rd (src3Nat2 src ty.signed ty.wid b)
          * 2 ^ (src3Nat3 src ty.wid b % ty.bits))))

/-- The sum of the products of `k` elements of `n` bits (R229). -/
def dotSum (n k : Nat) (sa sb : Bool) (a b : Nat) : Int :=
  (List.range k).foldl (fun acc i =>
    acc + readInt sa n (a / 2 ^ (n * i) % 2 ^ n) * readInt sb n (b / 2 ^ (n * i) % 2 ^ n)) 0

/-- IDOT4 and IDOT2 (R229). -/
def dotOp (n k : Nat) (c : Ctl) (sat sb sa : Bool) (d a b cc : Reg) : VOp :=
  lanewise c [a.toNat, b.toNat, cc.toNat] [d.toNat] fun src =>
    let sg := sa || sb
    outNat .b32 d.toNat (intResult sg 32 sat
      (readInt sg 32 (src.reg cc.toNat).toNat
        + dotSum n k sa sb (src.reg a.toNat).toNat (src.reg b.toNat).toNat))

/-- IDOT4 (R229). -/
def execIdot4 (c : Ctl) (sat sb sa : Bool) (d a b cc : Reg) (s : State) :
    Host.Outcome State Fault Refusal := s.vec (dotOp 8 4 c sat sb sa d a b cc)

/-- IDOT2 (R229). -/
def execIdot2 (c : Ctl) (sat sb sa : Bool) (d a b cc : Reg) (s : State) :
    Host.Outcome State Fault Refusal := s.vec (dotOp 16 2 c sat sb sa d a b cc)

/-- IMADW (R226): 32-bit factors, a 64-bit addend and result. -/
def execImadw (c : Ctl) (ty : IntTy32) (sat : Bool) (d a : Reg) (b : Src3) (s : State) :
    Host.Outcome State Fault Refusal :=
  s.vec (lanewise c (a.toNat :: Src3.regs .b32 .b64 b) (Wid.b64.regs d.toNat) fun src =>
    outNat .b64 d.toNat (intResult ty.signed 64 sat
      (readInt ty.signed 32 (src.nat .b32 a.toNat)
        * readInt ty.signed 32 (src3Nat2 src ty.signed .b32 b)
        + readInt ty.signed 64 (src3Nat3 src .b64 b))))

/-- A two-source instruction on patterns (R230). -/
def bits2 (c : Ctl) (w : Wid) (d a : Reg) (b : Src2) (signed : Bool) (f : Nat → Nat → Nat) : VOp :=
  lanewise c (w.regs a.toNat ++ Src2.regs w b) (w.regs d.toNat) fun src =>
    outNat w d.toNat (f (src.nat w a.toNat) (src2Nat src signed w b))

/-- AND (R230). -/
def execAnd (c : Ctl) (w : Wid) (d a : Reg) (b : Src2) (s : State) :
    Host.Outcome State Fault Refusal := s.vec (bits2 c w d a b false fun x y => x &&& y)

/-- OR (R230). -/
def execOr (c : Ctl) (w : Wid) (d a : Reg) (b : Src2) (s : State) :
    Host.Outcome State Fault Refusal := s.vec (bits2 c w d a b false fun x y => x ||| y)

/-- XOR (R230). -/
def execXor (c : Ctl) (w : Wid) (d a : Reg) (b : Src2) (s : State) :
    Host.Outcome State Fault Refusal := s.vec (bits2 c w d a b false fun x y => x ^^^ y)

/-- BOOL3 (R231). -/
def execBool3 (c : Ctl) (w : Wid) (d a b cc : Reg) (lut : BitVec 8) (s : State) :
    Host.Outcome State Fault Refusal :=
  s.vec (lanewise c (w.regs a.toNat ++ w.regs b.toNat ++ w.regs cc.toNat) (w.regs d.toNat)
    fun src => outNat w d.toNat
      (bool3Nat w.bits lut (src.nat w a.toNat) (src.nat w b.toNat) (src.nat w cc.toNat)))

/-- SHL's pattern (R230). -/
def shlNat (n a k : Nat) : Nat := if k ≥ n then 0 else (a * 2 ^ k) % 2 ^ n

/-- SHR's pattern (R230). -/
def shrNat (signed : Bool) (n a k : Nat) : Nat :=
  if signed then wrap n (toInt n a / (2 ^ (min k n) : Int)) else if k ≥ n then 0 else a / 2 ^ k

/-- SHL (R230): the count is read unsigned. -/
def execShl (c : Ctl) (ty : IntTy) (d a : Reg) (b : Src2) (s : State) :
    Host.Outcome State Fault Refusal := s.vec (bits2 c ty.wid d a b ty.signed (shlNat ty.bits))

/-- SHR (R230). -/
def execShr (c : Ctl) (ty : IntTy) (d a : Reg) (b : Src2) (s : State) :
    Host.Outcome State Fault Refusal :=
  s.vec (bits2 c ty.wid d a b ty.signed (shrNat ty.signed ty.bits))

/-- ROT's pattern (R230). -/
def rotNat (n a k : Nat) : Nat :=
  let j := k % n
  (a * 2 ^ j) % 2 ^ n + a / 2 ^ (n - j)

/-- ROT (R230). -/
def execRot (c : Ctl) (w : Wid) (d a : Reg) (b : Src2) (s : State) :
    Host.Outcome State Fault Refusal := s.vec (bits2 c w d a b false (rotNat w.bits))

/-- POPC, CLZ and CTZ: a 32-bit count of a source (R233). -/
def countOp (c : Ctl) (w : Wid) (d a : Reg) (f : Nat → Nat → Nat) : VOp :=
  lanewise c (w.regs a.toNat) [d.toNat] fun src =>
    outNat .b32 d.toNat (f w.bits (src.nat w a.toNat))

/-- POPC (R233). -/
def execPopc (c : Ctl) (w : Wid) (d a : Reg) (s : State) : Host.Outcome State Fault Refusal :=
  s.vec (countOp c w d a popcNat)

/-- CLZ (R233). -/
def execClz (c : Ctl) (w : Wid) (d a : Reg) (s : State) : Host.Outcome State Fault Refusal :=
  s.vec (countOp c w d a clzNat)

/-- CTZ (R233). -/
def execCtz (c : Ctl) (w : Wid) (d a : Reg) (s : State) : Host.Outcome State Fault Refusal :=
  s.vec (countOp c w d a ctzNat)

/-- BREV (R233). -/
def execBrev (c : Ctl) (w : Wid) (d a : Reg) (s : State) : Host.Outcome State Fault Refusal :=
  s.vec (lanewise c (w.regs a.toNat) (w.regs d.toNat) fun src =>
    outNat w d.toNat (brevNat w.bits (src.nat w a.toNat)))

/-- Position and length in a register: bits [7:0] and [15:8] (R233). -/
def fieldOfReg (v : Word) : Nat × Nat := (v.toNat % 256, v.toNat / 256 % 256)

/-- BFX (R233). -/
def execBfx (c : Ctl) (w : Wid) (sgn : Bool) (d a : Reg) (f : FieldSrc) (s : State) :
    Host.Outcome State Fault Refusal :=
  s.vec (lanewise c (w.regs a.toNat ++ (match f with | .reg b => [b.toNat] | .imm _ _ => []))
    (w.regs d.toNat) fun src =>
      let pl := match f with
        | .reg b => fieldOfReg (src.reg b.toNat)
        | .imm len pos => (pos.toNat, len.toNat)
      outNat w d.toNat (bfxNat w.bits sgn (src.nat w a.toNat) pl.1 pl.2))

/-- BFI (R233). -/
def execBfi (c : Ctl) (w : Wid) (d a : Reg) (f : InsertSrc) (s : State) :
    Host.Outcome State Fault Refusal :=
  s.vec (lanewise c (w.regs a.toNat ++
      (match f with | .reg b k => b.toNat :: w.regs k.toNat | .imm _ _ k => w.regs k.toNat))
    (w.regs d.toNat) fun src =>
      let pl := match f with
        | .reg b _ => fieldOfReg (src.reg b.toNat)
        | .imm len pos _ => (pos.toNat, len.toNat)
      let base := match f with
        | .reg _ k => src.nat w k.toNat
        | .imm _ _ k => src.nat w k.toNat
      outNat w d.toNat (bfiNat w.bits (src.nat w a.toNat) base pl.1 pl.2))

/-- ICMP (R234). -/
def execIcmp (c : Ctl) (ty : IntTy) (cond : ICond) (d : PReg) (a : Reg) (b : CmpSrc) (s : State) :
    Host.Outcome State Fault Refusal :=
  s.vec { c := c, preads := [], writes := [],
          reads := ty.wid.regs a.toNat ++ (match b with | .reg r => ty.wid.regs r.toNat | .imm _ => []),
          f := fun src l =>
            let rd := readInt ty.signed ty.bits
            let y := match b with
              | .reg r => (src l).nat ty.wid r.toNat
              | .imm v => immNat ty.signed ty.bits 17 v.toNat
            { regs := [], preds := [(d.toNat, cond.holds (rd ((src l).nat ty.wid a.toNat)) (rd y))] } }

/-- PLOP (R235). -/
def execPlop (c : Ctl) (d pa pb pc : PReg) (lut : BitVec 8) (s : State) :
    Host.Outcome State Fault Refusal :=
  s.vec { c := c, reads := [], preads := [pa.toNat, pb.toNat, pc.toNat], writes := [],
          f := fun src l =>
            { regs := [], preds := [(d.toNat, lutBit lut ((src l).pred pa.toNat)
                ((src l).pred pb.toNat) ((src l).pred pc.toNat))] } }

/-- SEL (R236). -/
def execSel (c : Ctl) (w : Wid) (d a : Reg) (b : SelSrc) (s : State) :
    Host.Outcome State Fault Refusal :=
  let k := match b with | .reg _ k => k.toNat | .imm _ k => k.toNat
  s.vec { c := c, preads := [k], writes := w.regs d.toNat,
          reads := w.regs a.toNat ++ (match b with | .reg r _ => w.regs r.toNat | .imm _ _ => []),
          f := fun src l =>
            let y := match b with | .reg r _ => (src l).nat w r.toNat | .imm v _ => v.toNat
            { regs := outNat w d.toNat (if (src l).pred k then (src l).nat w a.toNat else y),
              preds := [] } }

/-- The predicates of a mask. -/
def predList (m : BitVec 16) : List Nat := (List.range 16).filter fun k => m.getLsbD k

/-- PMOV (R237). -/
def execPmov (c : Ctl) (dir : PMovDir) (mask : BitVec 16) (s : State) :
    Host.Outcome State Fault Refusal :=
  match dir with
  | .toReg d =>
    s.vec { c := c, reads := [], preads := predList mask, writes := [d.toNat],
            f := fun src l =>
              { regs := [(d.toNat, BitVec.ofNat 32 (natOfBits 16 fun k =>
                  mask.getLsbD k && (src l).pred k))], preds := [] } }
  | .toPred a =>
    s.vec { c := c, reads := [a.toNat], preads := [], writes := [],
            f := fun src l =>
              { regs := [], preds := (predList mask).map fun k => (k, ((src l).reg a.toNat).getLsbD k) } }

/-- VOTE (R238). -/
def voteOp (p : Pred) (k : VoteKind) (pa : PReg) (g : Group) (x : Core) (mask : LaneMask) : VOp :=
  let t := g.taking x p mask
  let m := t &&& lanesWhere fun l => g.pred x pa.toNat l
  let out : LaneOut := match k with
    | .all d => { regs := [], preds := [(d.toNat, m == t)] }
    | .any d => { regs := [], preds := [(d.toNat, m != 0)] }
    | .eq d => { regs := [], preds := [(d.toNat, m == 0 || m == t)] }
    | .ballot d => { regs := outPair d.toNat m, preds := [] }
  { c := { u := false, p := p }, reads := [], preads := [pa.toNat],
    writes := match k with | .ballot d => [d.toNat, d.toNat + 1] | _ => [],
    f := fun _ _ => out }

/-- VOTE (R238): one result from all lanes taking part. -/
def execVote (p : Pred) (k : VoteKind) (pa : PReg) (s : State) :
    Host.Outcome State Fault Refusal :=
  match s.curGroup with
  | none => .fault .noAgent
  | some g => s.vec (voteOp p k pa g (s.core s.cur.core) s.cur.mask)

/-- log2 of a group width (R328); firmware's single lane has 0. -/
def widthLog (w : Nat) : Nat := if w ≥ 64 then 6 else if w ≥ 32 then 5 else if w ≥ 16 then 4 else 0

/-- The source lane of R239 and whether it lies in the segment. -/
def shflLane (mode : ShflMode) (sz l k : Nat) : Nat × Bool :=
  let j := l % sz
  let b := l - j
  match mode with
  | .idx => (b + k, decide (k < sz))
  | .up => (l - k, decide (k ≤ j))
  | .down => (l + k, decide (j + k < sz))
  | .xor => (b + (j ^^^ k), decide (k < sz))

/-- SHFL (R239). -/
def shflOp (p : Pred) (w : Wid) (mode : ShflMode) (d a : Reg) (k : LaneSrc) (seg : BitVec 3)
    (pv : Option PReg) (g : Group) (t : LaneMask) : VOp :=
  let sz := 2 ^ min seg.toNat (widthLog g.width)
  { c := { u := false, p := p }, preads := [], writes := w.regs d.toNat,
    reads := w.regs a.toNat ++ (match k with | .reg b => [b.toNat] | .imm _ => []),
    f := fun src l =>
      let kv := match k with | .reg b => ((src l).reg b.toNat).toNat | .imm v => v.toNat
      let tl := shflLane mode sz l kv
      let ok := tl.2 && t.getLsbD tl.1
      { regs := outNat w d.toNat ((src (if ok then tl.1 else l)).nat w a.toNat),
        preds := match pv with | some q => [(q.toNat, ok)] | none => [] } }

/-- SHFL (R239). -/
def execShfl (p : Pred) (w : Wid) (mode : ShflMode) (d a : Reg) (k : LaneSrc) (seg : BitVec 3)
    (pv : Option PReg) (s : State) : Host.Outcome State Fault Refusal :=
  match s.curGroup with
  | none => .fault .noAgent
  | some g =>
    s.vec (shflOp p w mode d a k seg pv g (g.taking (s.core s.cur.core) p s.cur.mask))

/-- One byte of BYSEL's result, given the byte before it (R240). -/
def byselByte (a b : Word) (q : Nat) (prev : Nat) : Nat :=
  if q < 4 then a.toNat / 2 ^ (8 * q) % 256
  else if q < 8 then b.toNat / 2 ^ (8 * (q - 4)) % 256
  else
    match q with
    | 9 => 0xFF
    | 10 => if prev ≥ 128 then 0xFF else 0
    | 11 => if a.msb then 0xFF else 0
    | 12 => if b.msb then 0xFF else 0
    | _ => 0

/-- BYSEL's result (R240). -/
def byselWord (a b : Word) (sel : Nat) : Word :=
  let b0 := byselByte a b (sel % 16) 0
  let b1 := byselByte a b (sel / 16 % 16) b0
  let b2 := byselByte a b (sel / 256 % 16) b1
  let b3 := byselByte a b (sel / 4096 % 16) b2
  BitVec.ofNat 32 (b0 + 256 * b1 + 65536 * b2 + 16777216 * b3)

/-- BYSEL (R240). -/
def execBysel (c : Ctl) (d a b : Reg) (sel : ByteSel) (s : State) :
    Host.Outcome State Fault Refusal :=
  s.vec (lanewise c ([a.toNat, b.toNat] ++ (match sel with | .reg r => [r.toNat] | .imm _ => []))
    [d.toNat] fun src =>
      let q := match sel with | .reg r => (src.reg r.toNat).toNat % 65536 | .imm v => v.toNat
      [(d.toNat, byselWord (src.reg a.toNat) (src.reg b.toNat) q)])

/-- MOV (R172). -/
def execMov (c : Ctl) (w : Wid) (d : Reg) (a : MovSrc) (s : State) :
    Host.Outcome State Fault Refusal :=
  s.vec (lanewise c (match a with | .reg r => w.regs r.toNat | .imm _ => []) (w.regs d.toNat)
    fun src => outNat w d.toNat
      (match a with | .reg r => src.nat w r.toNat | .imm v => v.toNat))

end Sys2Proof.Machine
end

