-- ==== Sys2Proof/Machine/Pair.lean ====
section
/-! DEFINITION. Pair words (R32 to R35, R241, R256): each half is the 32-bit operation its SOP names;
both read before either writes. -/

namespace Sys2Proof.Machine

/-- A float half: the f32 form with RNE and no modifiers (R256). -/
def halfFloat (f : Val → Val → Val) (x y : Word) : Word :=
  BitVec.ofNat 32 (encodeVal 1 .rne false (f (decodeVal 1 x.toNat) (decodeVal 1 y.toNat)))

/-- The result of a register operation: `x` is D, `y` is S (R33). -/
def halfOpWord (o : HalfOp) (x y : Word) : Word :=
  let int := fun (f : Int → Int → Int) =>
    BitVec.ofNat 32 (intResult true 32 false (f (toInt 32 x.toNat) (toInt 32 y.toNat)))
  match o with
  | .mov => y
  | .iadd => x + y
  | .isub => x - y
  | .imul => x * y
  | .imin => int fun a b => if a ≤ b then a else b
  | .imax => int fun a b => if a ≤ b then b else a
  | .and => x &&& y
  | .or => x ||| y
  | .xor => x ^^^ y
  | .fadd => halfFloat (fun a b => exactSum .rne [a, b]) x y
  | .fsub => halfFloat (fun a b => exactSum .rne [a, b.negate]) x y
  | .fmul => halfFloat Val.mul x y
  | .fmin => halfFloat (Val.pick true) x y
  | .fmax => halfFloat (Val.pick false) x y
  | .fneg => y ^^^ 0x80000000#32
  | .fabs => y &&& 0x7FFFFFFF#32

/-- A shift half's result (R33). -/
def halfShiftWord (k : HalfShift) (x : Word) (n : Nat) : Word :=
  match k with
  | .shl => BitVec.ofNat 32 (shlNat 32 x.toNat n)
  | .shr => BitVec.ofNat 32 (shrNat false 32 x.toNat n)
  | .sar => BitVec.ofNat 32 (shrNat true 32 x.toNat n)

/-- U of a half (R32). -/
def halfU : Half → Bool
  | .nop => false
  | .movi8 u _ _ | .iaddi u _ _ | .shift _ u _ _ | .op _ u _ _ => u

/-- What a half writes in a lane (R33). -/
def halfOut (h : Half) (src : Src) : List (Nat × Word) :=
  match h with
  | .nop => []
  | .movi8 _ d i => [(d.toNat, i.signExtend 32)]
  | .iaddi _ d i => [(d.toNat, src.reg d.toNat + i.signExtend 32)]
  | .shift k _ d n => [(d.toNat, halfShiftWord k (src.reg d.toNat) n.toNat)]
  | .op o _ d s => [(d.toNat, halfOpWord o (src.reg d.toNat) (src.reg s.toNat))]

/-- A half as a lane-wise operation of every lane of the execution mask. -/
def halfOp (h : Half) : VOp :=
  lanewise { u := halfU h, p := .all } (h.reads.map BitVec.toNat)
    (match h.dest with | some d => [d.toNat] | none => []) (halfOut h)

/-- A pair word in the turn's group (R34, R35): neither half writes if either traps. -/
def State.pairM (s : State) (up low : Half) : M State := do
  let g ← s.agent
  let x := s.core s.cur.core
  match lowestLane s.cur.mask with
  | none => .ok s.next
  | some lo =>
    let a := halfOp up
    let b := halfOp low
    needRegs g (a.reads ++ a.writes ++ b.reads ++ b.writes) lo
    let mis := fun (v : VOp) => if v.c.u && g.dbg then v.mismatch (g.src x) s.cur.mask lo else none
    match (mis a).orElse fun _ => mis b with
    | some l => trapAt .uMismatch l
    | none =>
      .ok (s.commit (a.outs (g.src x) s.cur.mask lo ++ b.outs (g.src x) s.cur.mask lo)).next

/-- A pair word whose upper half is NOP (R33). -/
def execPairNop (low : Half) (s : State) : Host.Outcome State Fault Refusal :=
  run s (s.pairM .nop low)

/-- A pair word whose upper half is MOV (R33). -/
def execPairMov (u : Bool) (d r : Reg) (low : Half) (s : State) : Host.Outcome State Fault Refusal :=
  run s (s.pairM (.op .mov u d r) low)

/-- A pair word whose upper half is MOVI8 (R33). -/
def execPairMovi8 (u : Bool) (d : Reg) (i : BitVec 8) (low : Half) (s : State) : Host.Outcome State Fault Refusal :=
  run s (s.pairM (.movi8 u d i) low)

/-- A pair word whose upper half is IADD (R33). -/
def execPairIadd (u : Bool) (d r : Reg) (low : Half) (s : State) : Host.Outcome State Fault Refusal :=
  run s (s.pairM (.op .iadd u d r) low)

/-- A pair word whose upper half is IADDI (R33). -/
def execPairIaddi (u : Bool) (d : Reg) (i : BitVec 8) (low : Half) (s : State) : Host.Outcome State Fault Refusal :=
  run s (s.pairM (.iaddi u d i) low)

/-- A pair word whose upper half is ISUB (R33). -/
def execPairIsub (u : Bool) (d r : Reg) (low : Half) (s : State) : Host.Outcome State Fault Refusal :=
  run s (s.pairM (.op .isub u d r) low)

/-- A pair word whose upper half is IMUL (R33). -/
def execPairImul (u : Bool) (d r : Reg) (low : Half) (s : State) : Host.Outcome State Fault Refusal :=
  run s (s.pairM (.op .imul u d r) low)

/-- A pair word whose upper half is IMIN (R33). -/
def execPairImin (u : Bool) (d r : Reg) (low : Half) (s : State) : Host.Outcome State Fault Refusal :=
  run s (s.pairM (.op .imin u d r) low)

/-- A pair word whose upper half is IMAX (R33). -/
def execPairImax (u : Bool) (d r : Reg) (low : Half) (s : State) : Host.Outcome State Fault Refusal :=
  run s (s.pairM (.op .imax u d r) low)

/-- A pair word whose upper half is AND (R33). -/
def execPairAnd (u : Bool) (d r : Reg) (low : Half) (s : State) : Host.Outcome State Fault Refusal :=
  run s (s.pairM (.op .and u d r) low)

/-- A pair word whose upper half is OR (R33). -/
def execPairOr (u : Bool) (d r : Reg) (low : Half) (s : State) : Host.Outcome State Fault Refusal :=
  run s (s.pairM (.op .or u d r) low)

/-- A pair word whose upper half is XOR (R33). -/
def execPairXor (u : Bool) (d r : Reg) (low : Half) (s : State) : Host.Outcome State Fault Refusal :=
  run s (s.pairM (.op .xor u d r) low)

/-- A pair word whose upper half is SHLI (R33). -/
def execPairShli (u : Bool) (d : Reg) (n : BitVec 5) (low : Half) (s : State) : Host.Outcome State Fault Refusal :=
  run s (s.pairM (.shift .shl u d n) low)

/-- A pair word whose upper half is SHRI (R33). -/
def execPairShri (u : Bool) (d : Reg) (n : BitVec 5) (low : Half) (s : State) : Host.Outcome State Fault Refusal :=
  run s (s.pairM (.shift .shr u d n) low)

/-- A pair word whose upper half is SARI (R33). -/
def execPairSari (u : Bool) (d : Reg) (n : BitVec 5) (low : Half) (s : State) : Host.Outcome State Fault Refusal :=
  run s (s.pairM (.shift .sar u d n) low)

/-- A pair word whose upper half is FADD (R33). -/
def execPairFadd (u : Bool) (d r : Reg) (low : Half) (s : State) : Host.Outcome State Fault Refusal :=
  run s (s.pairM (.op .fadd u d r) low)

/-- A pair word whose upper half is FSUB (R33). -/
def execPairFsub (u : Bool) (d r : Reg) (low : Half) (s : State) : Host.Outcome State Fault Refusal :=
  run s (s.pairM (.op .fsub u d r) low)

/-- A pair word whose upper half is FMUL (R33). -/
def execPairFmul (u : Bool) (d r : Reg) (low : Half) (s : State) : Host.Outcome State Fault Refusal :=
  run s (s.pairM (.op .fmul u d r) low)

/-- A pair word whose upper half is FMIN (R33). -/
def execPairFmin (u : Bool) (d r : Reg) (low : Half) (s : State) : Host.Outcome State Fault Refusal :=
  run s (s.pairM (.op .fmin u d r) low)

/-- A pair word whose upper half is FMAX (R33). -/
def execPairFmax (u : Bool) (d r : Reg) (low : Half) (s : State) : Host.Outcome State Fault Refusal :=
  run s (s.pairM (.op .fmax u d r) low)

/-- A pair word whose upper half is FNEG (R33). -/
def execPairFneg (u : Bool) (d r : Reg) (low : Half) (s : State) : Host.Outcome State Fault Refusal :=
  run s (s.pairM (.op .fneg u d r) low)

/-- A pair word whose upper half is FABS (R33). -/
def execPairFabs (u : Bool) (d r : Reg) (low : Half) (s : State) : Host.Outcome State Fault Refusal :=
  run s (s.pairM (.op .fabs u d r) low)

end Sys2Proof.Machine
end

