-- ==== Sys2Proof/Machine/Dispatch.lean ====
section
/-! DEFINITION. One arm per step: its meaning. -/

namespace Sys2Proof.Machine

/-- The meaning of every step. -/
def exec (i : Instr) (s : State) : Host.Outcome State Fault Refusal :=
  match i with
  | .iadd a b c d e f => Sys2Proof.Machine.execIadd a b c d e f s
  | .isub a b c d e f => Sys2Proof.Machine.execIsub a b c d e f s
  | .imul a b c d e f => Sys2Proof.Machine.execImul a b c d e f s
  | .imulh a b c d e => Sys2Proof.Machine.execImulh a b c d e s
  | .imad a b c d e f => Sys2Proof.Machine.execImad a b c d e f s
  | .imin a b c d e => Sys2Proof.Machine.execImin a b c d e s
  | .imax a b c d e => Sys2Proof.Machine.execImax a b c d e s
  | .iabs a b c d e => Sys2Proof.Machine.execIabs a b c d e s
  | .ineg a b c d e => Sys2Proof.Machine.execIneg a b c d e s
  | .idiv a b c d e => Sys2Proof.Machine.execIdiv a b c d e s
  | .irem a b c d e => Sys2Proof.Machine.execIrem a b c d e s
  | .iaddc a b c d e f g => Sys2Proof.Machine.execIaddc a b c d e f g s
  | .isubc a b c d e f g => Sys2Proof.Machine.execIsubc a b c d e f g s
  | .lea a b c d e => Sys2Proof.Machine.execLea a b c d e s
  | .idot4 a b c d e f g h => Sys2Proof.Machine.execIdot4 a b c d e f g h s
  | .idot2 a b c d e f g h => Sys2Proof.Machine.execIdot2 a b c d e f g h s
  | .imadw a b c d e f => Sys2Proof.Machine.execImadw a b c d e f s
  | .and a b c d e => Sys2Proof.Machine.execAnd a b c d e s
  | .or a b c d e => Sys2Proof.Machine.execOr a b c d e s
  | .xor a b c d e => Sys2Proof.Machine.execXor a b c d e s
  | .bool3 a b c d e f g => Sys2Proof.Machine.execBool3 a b c d e f g s
  | .shl a b c d e => Sys2Proof.Machine.execShl a b c d e s
  | .shr a b c d e => Sys2Proof.Machine.execShr a b c d e s
  | .rot a b c d e => Sys2Proof.Machine.execRot a b c d e s
  | .popc a b c d => Sys2Proof.Machine.execPopc a b c d s
  | .clz a b c d => Sys2Proof.Machine.execClz a b c d s
  | .ctz a b c d => Sys2Proof.Machine.execCtz a b c d s
  | .brev a b c d => Sys2Proof.Machine.execBrev a b c d s
  | .bfx a b c d e f => Sys2Proof.Machine.execBfx a b c d e f s
  | .bfi a b c d e => Sys2Proof.Machine.execBfi a b c d e s
  | .icmp a b c d e f => Sys2Proof.Machine.execIcmp a b c d e f s
  | .fcmp a b c d e f => Sys2Proof.Machine.execFcmp a b c d e f s
  | .plop a b c d e f => Sys2Proof.Machine.execPlop a b c d e f s
  | .sel a b c d e => Sys2Proof.Machine.execSel a b c d e s
  | .pmov a b c => Sys2Proof.Machine.execPmov a b c s
  | .vote a b c => Sys2Proof.Machine.execVote a b c s
  | .fclass a b c d => Sys2Proof.Machine.execFclass a b c d s
  | .fadd a b c d e => Sys2Proof.Machine.execFadd a b c d e s
  | .fsub a b c d e => Sys2Proof.Machine.execFsub a b c d e s
  | .fmul a b c d e => Sys2Proof.Machine.execFmul a b c d e s
  | .ffma a b c d e => Sys2Proof.Machine.execFfma a b c d e s
  | .fmin a b c d e => Sys2Proof.Machine.execFmin a b c d e s
  | .fmax a b c d e => Sys2Proof.Machine.execFmax a b c d e s
  | .fdot2 a b c d e => Sys2Proof.Machine.execFdot2 a b c d e s
  | .fscale a b c d e f g => Sys2Proof.Machine.execFscale a b c d e f g s
  | .frnd a b c d e f => Sys2Proof.Machine.execFrnd a b c d e f s
  | .fclamp a b c d e => Sys2Proof.Machine.execFclamp a b c d e s
  | .famax a b c d e => Sys2Proof.Machine.execFamax a b c d e s
  | .frcp a b c d => Sys2Proof.Machine.execFrcp a b c d s
  | .frsq a b c d => Sys2Proof.Machine.execFrsq a b c d s
  | .fsqrt a b c d => Sys2Proof.Machine.execFsqrt a b c d s
  | .fexp2 a b c d => Sys2Proof.Machine.execFexp2 a b c d s
  | .flog2 a b c d => Sys2Proof.Machine.execFlog2 a b c d s
  | .fsin a b c d => Sys2Proof.Machine.execFsin a b c d s
  | .fcos a b c d => Sys2Proof.Machine.execFcos a b c d s
  | .fsigm a b c d => Sys2Proof.Machine.execFsigm a b c d s
  | .ftanh a b c d => Sys2Proof.Machine.execFtanh a b c d s
  | .cvt a b c d e f g => Sys2Proof.Machine.execCvt a b c d e f g s
  | .npack a b c d e => Sys2Proof.Machine.execNpack a b c d e s
  | .nunpk a b c d => Sys2Proof.Machine.execNunpk a b c d s
  | .scaleq a b c d => Sys2Proof.Machine.execScaleq a b c d s
  | .seal a b c => Sys2Proof.Machine.execSeal a b c s
  | .sealRel a b => Sys2Proof.Machine.execSealRel a b s
  | .hqry a b c d => Sys2Proof.Machine.execHqry a b c d s
  | .mov a b c d => Sys2Proof.Machine.execMov a b c d s
  | .shfl a b c d e f g h => Sys2Proof.Machine.execShfl a b c d e f g h s
  | .bysel a b c d e => Sys2Proof.Machine.execBysel a b c d e s
  | .sread a b c => Sys2Proof.Machine.execSread a b c s
  | .swrite a b c d => Sys2Proof.Machine.execSwrite a b c d s
  | .view a b c => Sys2Proof.Machine.execView a b c s
  | .segset a b c d e => Sys2Proof.Machine.execSegset a b c d e s
  | .rcopy a b c d => Sys2Proof.Machine.execRcopy a b c d s
  | .ld a b c d => Sys2Proof.Machine.execLd a b c d s
  | .st a b c d => Sys2Proof.Machine.execSt a b c d s
  | .ldf a b c d e => Sys2Proof.Machine.execLdf a b c d e s
  | .stf a b c d e => Sys2Proof.Machine.execStf a b c d e s
  | .pref a b c => Sys2Proof.Machine.execPref a b c s
  | .cflush a b c => Sys2Proof.Machine.execCflush a b c s
  | .cinv a b c d => Sys2Proof.Machine.execCinv a b c d s
  | .cinvNowb a b c d e => Sys2Proof.Machine.execCinvNowb a b c d e s
  | .atom a b c d e f => Sys2Proof.Machine.execAtom a b c d e f s
  | .atcas a b c d e => Sys2Proof.Machine.execAtcas a b c d e s
  | .red a b c d e => Sys2Proof.Machine.execRed a b c d e s
  | .cadd a b c d => Sys2Proof.Machine.execCadd a b c d s
  | .inkp a b c d e f => Sys2Proof.Machine.execInkp a b c d e f s
  | .inkrG a b c d e => Sys2Proof.Machine.execInkrG a b c d e s
  | .inkrH a b c d e => Sys2Proof.Machine.execInkrH a b c d e s
  | .inkc a b c d e => Sys2Proof.Machine.execInkc a b c d e s
  | .kick a b c => Sys2Proof.Machine.execKick a b c s
  | .tlwait a b c => Sys2Proof.Machine.execTlwait a b c s
  | .tlread a b c => Sys2Proof.Machine.execTlread a b c s
  | .boinit a b c => Sys2Proof.Machine.execBoinit a b c s
  | .boarm a b c d => Sys2Proof.Machine.execBoarm a b c d s
  | .bowait a b c => Sys2Proof.Machine.execBowait a b c s
  | .botest a b c d => Sys2Proof.Machine.execBotest a b c d s
  | .wreq a b c d e f => Sys2Proof.Machine.execWreq a b c d e f s
  | .wqry a b c => Sys2Proof.Machine.execWqry a b c s
  | .wtagSetv a b c => Sys2Proof.Machine.execWtagSetv a b c s
  | .wtagSetc a b c => Sys2Proof.Machine.execWtagSetc a b c s
  | .wtagReset a b c => Sys2Proof.Machine.execWtagReset a b c s
  | .wtagWv a b c => Sys2Proof.Machine.execWtagWv a b c s
  | .wtagWc a b c => Sys2Proof.Machine.execWtagWc a b c s
  | .wtagRd a b c d => Sys2Proof.Machine.execWtagRd a b c d s
  | .mma a b c d e f => Sys2Proof.Machine.execMma a b c d e f s
  | .mloop a b c d e f => Sys2Proof.Machine.execMloop a b c d e f s
  | .mloops a b c d e f => Sys2Proof.Machine.execMloops a b c d e f s
  | .mzero a b c => Sys2Proof.Machine.execMzero a b c s
  | .mdrain a b c d e => Sys2Proof.Machine.execMdrain a b c d e s
  | .mldacc a b c d => Sys2Proof.Machine.execMldacc a b c d s
  | .msyncWait a b => Sys2Proof.Machine.execMsyncWait a b s
  | .msyncMark a b c d => Sys2Proof.Machine.execMsyncMark a b c d s
  | .mstatRd a b => Sys2Proof.Machine.execMstatRd a b s
  | .mstatClr a => Sys2Proof.Machine.execMstatClr a s
  | .mstatMeta a b c => Sys2Proof.Machine.execMstatMeta a b c s
  | .mstatScale a b c => Sys2Proof.Machine.execMstatScale a b c s
  | .sacfgCtl a b c d => Sys2Proof.Machine.execSacfgCtl a b c d s
  | .sacfgKey a b c d => Sys2Proof.Machine.execSacfgKey a b c d s
  | .sacfgSc a b c => Sys2Proof.Machine.execSacfgSc a b c s
  | .sacfgLink a b c => Sys2Proof.Machine.execSacfgLink a b c s
  | .sald a b c d e => Sys2Proof.Machine.execSald a b c d e s
  | .saclamp a b c => Sys2Proof.Machine.execSaclamp a b c s
  | .saswp a b c d e => Sys2Proof.Machine.execSaswp a b c d e s
  | .sardState a b c d => Sys2Proof.Machine.execSardState a b c d s
  | .sardCnt a b c d => Sys2Proof.Machine.execSardCnt a b c d s
  | .sardStat a b c => Sys2Proof.Machine.execSardStat a b c s
  | .sardMon a b c => Sys2Proof.Machine.execSardMon a b c s
  | .bra a b => Sys2Proof.Machine.execBra a b s
  | .brx a b => Sys2Proof.Machine.execBrx a b s
  | .call a b c => Sys2Proof.Machine.execCall a b c s
  | .callInd a b c => Sys2Proof.Machine.execCallInd a b c s
  | .ret a b => Sys2Proof.Machine.execRet a b s
  | .exit a => Sys2Proof.Machine.execExit a s
  | .nop a => Sys2Proof.Machine.execNop a s
  | .yield a => Sys2Proof.Machine.execYield a s
  | .barTeam a => Sys2Proof.Machine.execBarTeam a s
  | .barSync a b c => Sys2Proof.Machine.execBarSync a b c s
  | .barArrive a b c => Sys2Proof.Machine.execBarArrive a b c s
  | .phase a b => Sys2Proof.Machine.execPhase a b s
  | .stage a => Sys2Proof.Machine.execStage a s
  | .monw a b c => Sys2Proof.Machine.execMonw a b c s
  | .waitc a b c d e => Sys2Proof.Machine.execWaitc a b c d e s
  | .spawn a b c => Sys2Proof.Machine.execSpawn a b c s
  | .jdec a b c d => Sys2Proof.Machine.execJdec a b c d s
  | .tqry a b c => Sys2Proof.Machine.execTqry a b c s
  | .trap a b => Sys2Proof.Machine.execTrap a b s
  | .trapHnd a b c => Sys2Proof.Machine.execTrapHnd a b c s
  | .objsetDesc a b c d => Sys2Proof.Machine.execObjsetDesc a b c d s
  | .objsetExt a b c d => Sys2Proof.Machine.execObjsetExt a b c d s
  | .objinv a b c => Sys2Proof.Machine.execObjinv a b c s
  | .objinvAll a b c => Sys2Proof.Machine.execObjinvAll a b c s
  | .xmove a b c d => Sys2Proof.Machine.execXmove a b c d s
  | .quiesceDrain a b c => Sys2Proof.Machine.execQuiesceDrain a b c s
  | .quiescePreempt a b c => Sys2Proof.Machine.execQuiescePreempt a b c s
  | .quiesceResume a b c => Sys2Proof.Machine.execQuiesceResume a b c s
  | .gangsw a b c d => Sys2Proof.Machine.execGangsw a b c d s
  | .scanrun a b c d => Sys2Proof.Machine.execScanrun a b c d s
  | .dieoff a b c => Sys2Proof.Machine.execDieoff a b c s
  | .dieon a b c => Sys2Proof.Machine.execDieon a b c s
  | .cluoff a b c => Sys2Proof.Machine.execCluoff a b c s
  | .rpair a b c => Sys2Proof.Machine.execRpair a b c s
  | .rpairDone a b c => Sys2Proof.Machine.execRpairDone a b c s
  | .eretRetry a b c => Sys2Proof.Machine.execEretRetry a b c s
  | .eretSkip a b c => Sys2Proof.Machine.execEretSkip a b c s
  | .eretDeliver a b c => Sys2Proof.Machine.execEretDeliver a b c s
  | .eretKill a b c => Sys2Proof.Machine.execEretKill a b c s
  | .pairNop a => Sys2Proof.Machine.execPairNop a s
  | .pairMov a b c d => Sys2Proof.Machine.execPairMov a b c d s
  | .pairMovi8 a b c d => Sys2Proof.Machine.execPairMovi8 a b c d s
  | .pairIadd a b c d => Sys2Proof.Machine.execPairIadd a b c d s
  | .pairIaddi a b c d => Sys2Proof.Machine.execPairIaddi a b c d s
  | .pairIsub a b c d => Sys2Proof.Machine.execPairIsub a b c d s
  | .pairImul a b c d => Sys2Proof.Machine.execPairImul a b c d s
  | .pairImin a b c d => Sys2Proof.Machine.execPairImin a b c d s
  | .pairImax a b c d => Sys2Proof.Machine.execPairImax a b c d s
  | .pairAnd a b c d => Sys2Proof.Machine.execPairAnd a b c d s
  | .pairOr a b c d => Sys2Proof.Machine.execPairOr a b c d s
  | .pairXor a b c d => Sys2Proof.Machine.execPairXor a b c d s
  | .pairShli a b c d => Sys2Proof.Machine.execPairShli a b c d s
  | .pairShri a b c d => Sys2Proof.Machine.execPairShri a b c d s
  | .pairSari a b c d => Sys2Proof.Machine.execPairSari a b c d s
  | .pairFadd a b c d => Sys2Proof.Machine.execPairFadd a b c d s
  | .pairFsub a b c d => Sys2Proof.Machine.execPairFsub a b c d s
  | .pairFmul a b c d => Sys2Proof.Machine.execPairFmul a b c d s
  | .pairFmin a b c d => Sys2Proof.Machine.execPairFmin a b c d s
  | .pairFmax a b c d => Sys2Proof.Machine.execPairFmax a b c d s
  | .pairFneg a b c d => Sys2Proof.Machine.execPairFneg a b c d s
  | .pairFabs a b c d => Sys2Proof.Machine.execPairFabs a b c d s
  | .hostMemRead a b => Sys2Proof.Machine.execHostMemRead a b s
  | .hostMemWrite a b => Sys2Proof.Machine.execHostMemWrite a b s
  | .mkres => Sys2Proof.Machine.execMkres s
  | .evict => Sys2Proof.Machine.execEvict s
  | .switch => Sys2Proof.Machine.execSwitch s
  | .setcr => Sys2Proof.Machine.execSetcr s
  | .fwload => Sys2Proof.Machine.execFwload s
  | .unfrzsb => Sys2Proof.Machine.execUnfrzsb s
  | .qdb a b c => Sys2Proof.Machine.execQdb a b c s
  | .aeqh a b => Sys2Proof.Machine.execAeqh a b s
  | .coldb a b => Sys2Proof.Machine.execColdb a b s
  | .hostRegisterWrite a b => Sys2Proof.Machine.execHostRegisterWrite a b s
  | .health => Sys2Proof.Machine.execHealth s
  | .diereset a => Sys2Proof.Machine.execDiereset a s
  | .fwloadSideband a => Sys2Proof.Machine.execFwloadSideband a s
  | .unfrzhost => Sys2Proof.Machine.execUnfrzhost s
  | .spdmRequest a => Sys2Proof.Machine.execSpdmRequest a s
  | .stationerPowerCycle => Sys2Proof.Machine.execStationerPowerCycle s
  | .powerOn => Sys2Proof.Machine.execPowerOn s
  | .data a b c d => Sys2Proof.Machine.execData a b c d s
  | .ack a => Sys2Proof.Machine.execAck a s
  | .nak a => Sys2Proof.Machine.execNak a s
  | .inkreq a b => Sys2Proof.Machine.execInkreq a b s
  | .inkrep a b c d => Sys2Proof.Machine.execInkrep a b c d s
  | .incomplete a => Sys2Proof.Machine.execIncomplete a s
  | .ptpfwd a => Sys2Proof.Machine.execPtpfwd a s
  | .retransmit a => Sys2Proof.Machine.execRetransmit a s
  | .peerUnreachable a => Sys2Proof.Machine.execPeerUnreachable a s
  | .collectiveTimeout a b => Sys2Proof.Machine.execCollectiveTimeout a b s
  | .collectiveStart a => Sys2Proof.Machine.execCollectiveStart a s
  | .ptpSync a => Sys2Proof.Machine.execPtpSync a s
  | .holdover => Sys2Proof.Machine.execHoldover s
  | .moduleLoss a => Sys2Proof.Machine.execModuleLoss a s
  | .inkHomeStep a => Sys2Proof.Machine.execInkHomeStep a s
  | .inkReply a => Sys2Proof.Machine.execInkReply a s
  | .inkTimeout a => Sys2Proof.Machine.execInkTimeout a s
  | .writeThrough a => Sys2Proof.Machine.execWriteThrough a s
  | .update a => Sys2Proof.Machine.execUpdate a s
  | .dropMark a => Sys2Proof.Machine.execDropMark a s
  | .publicationAck a => Sys2Proof.Machine.execPublicationAck a s
  | .commit a => Sys2Proof.Machine.execCommit a s
  | .fill a => Sys2Proof.Machine.execFill a s
  | .atomicRequest a => Sys2Proof.Machine.execAtomicRequest a s
  | .replay a b => Sys2Proof.Machine.execReplay a b s
  | .faultRefusal a => Sys2Proof.Machine.execFaultRefusal a s
  | .copyStart a => Sys2Proof.Machine.execCopyStart a s
  | .arrival a b => Sys2Proof.Machine.execArrival a b s
  | .copyComplete a b => Sys2Proof.Machine.execCopyComplete a b s
  | .copyResume a b => Sys2Proof.Machine.execCopyResume a b s
  | .copyFail a b => Sys2Proof.Machine.execCopyFail a b s
  | .matrixStep a b c => Sys2Proof.Machine.execMatrixStep a b c s
  | .arrayCommand a b => Sys2Proof.Machine.execArrayCommand a b s
  | .sweep a b => Sys2Proof.Machine.execSweep a b s
  | .tagArrival a b => Sys2Proof.Machine.execTagArrival a b s
  | .boundaryTimeout a b => Sys2Proof.Machine.execBoundaryTimeout a b s
  | .scrubRead a => Sys2Proof.Machine.execScrubRead a s
  | .scrubWriteback a => Sys2Proof.Machine.execScrubWriteback a s
  | .parkLimit a b => Sys2Proof.Machine.execParkLimit a b s
  | .deferredRecheck a b => Sys2Proof.Machine.execDeferredRecheck a b s
  | .admission a => Sys2Proof.Machine.execAdmission a s
  | .gangSwitch => Sys2Proof.Machine.execGangSwitch s
  | .scanFloorDrain a => Sys2Proof.Machine.execScanFloorDrain a s
  | .go a b => Sys2Proof.Machine.execGo a b s
  | .malformedCommand a => Sys2Proof.Machine.execMalformedCommand a s

end Sys2Proof.Machine
end

