-- ==== Sys2Proof/Machine/Place.lean ====
section
/-! DEFINITION. Storing an instruction word where the next step fetches it: the stand-in for a
program's loading (a host writes code, makes a context resident and places a waybill; notes). -/

namespace Sys2Proof.Machine

/-- The device physical address at which the placed word stands: extent 1 of die 0. -/
def placeCode : Nat := 0x10000

/-- A group that is about to issue its first instruction at `pc`: 16 threads, a 16 KiB register
segment at the start of the role, no MAT segment. -/
def placeGroup (pc : DWord) : Group :=
  newGroup 0 0 0 16 0x4000 0 { vec := 0, tile := 0, acc := 0x200000 } (List.replicate 8 0) pc false

/-- The object of the placed word: 64 KiB of code granting X, one present extent on die 0. -/
def placeMem (m : Memory) (bits : DWord) : Memory :=
  let m1 := memStore m 0x1010 (bytesOfNat 8 (2 ^ 16 + 3 * 2 ^ 44))
  let m2 := memStore m1 0x1018 (bytesOfNat 8 (0x2000 + 2 ^ 42 + 2 ^ 49))
  let m3 := memStore m2 0x2000 (bytesOfNat 8 (1 + 1 * 2 ^ 8))
  memStore m3 placeCode (bytesOfNat 8 bits.toNat)

/-- The state with word `bits` placed where the next step fetches. -/
def State.place (s : State) (bits : DWord) : State :=
  let pc := mkPtr 1 0
  let s1 := { s with
    agenda := []
    mem := placeMem s.mem bits
    cur := { core := 0, slot := 0, mask := 0, pc := pc, iword := 0 } }
  let s2 := s1.updCtx 0 fun c => { c with state := .running, otb := 0x1000, otl := 2 }
  let s3 := s2.updDie 0 fun d => { d with out := false }
  let s4 := s3.updCluster 0 fun k => { k with inSvc := true, drained := false }
  s4.updCore 0 fun x => { x with
    done := true
    roles := { reg := [0], mat := [], scr := [], fifo := [], shadow := [1, 2],
               cache := (List.range 64).drop 3 }
    groups := tabSet x.groups 0 (placeGroup pc) }

end Sys2Proof.Machine
end

