-- ==== Sys2Proof/Machine/Step.lean ====
section
/-! DEFINITION. One step of the device: the clocks pass, the agenda says who acts, and that party
acts whole. -/

namespace Sys2Proof.Machine

/-- The group in `slot` of `core` takes a turn. -/
def issueAt (s : State) (core slot : Nat) : Host.Outcome State Fault Refusal :=
  match s.pick core slot with
  | .idle => .next s
  | .done t => .next t
  | .go i t => exec i t

/-- One step: the clocks advance, then the head of the agenda acts; with an empty agenda the group
that acted last takes another turn. -/
def step (s : State) : Host.Outcome State Fault Refusal :=
  match s.agenda with
  | [] => issueAt s.tick s.cur.core s.cur.slot
  | .issue core slot :: r => issueAt { s.tick with agenda := r } core slot
  | .event i :: r => exec i { s.tick with agenda := r }

/-- The state with an instruction of the opcode table stored where `step` fetches next. -/
def State.withFetchWord (s : State) (nbits w : Nat) : State := s.place (tableWord nbits w)

end Sys2Proof.Machine
end

