-- ==== Sys2Proof/Safety.lean ====
section
/-! DEFINITION. What counts as a safe run, in the terms claims use. -/

namespace Sys2Proof

/-- A state the device's own steps can leave: the next step is a state again. -/
def Steps (s : Machine.State) : Prop := ∃ t, Machine.step s = .next t

/-- Device memory is in its canonical form. -/
def MemOk (s : Machine.State) : Prop := Machine.Memory.wf s.mem = true

namespace Machine

/-- From `s` to `t` only what a register write of the group in slot `n` of core `c` may touch has changed:
that core's stored rows, poison marks and undo lines, the group's threads, wait marks, overflow marks
and accumulator states, the firmware registers, and teams' interval overflow marks. -/
structure RegFrame (c n : Nat) (s t : State) : Prop where
  state : { t with cores := s.cores, teams := s.teams } = s
  cores : ∀ k, k ≠ c → t.core k = s.core k
  teams : ∀ k, (tabFind t.teams k).map (fun x => { x with intOvf := false }) =
    (tabFind s.teams k).map fun x => { x with intOvf := false }
  rest : { t.core c with
      well := (s.core c).well, spares := (s.core c).spares, undo := (s.core c).undo,
      wellPoison := (s.core c).wellPoison, groups := (s.core c).groups } = s.core c
  groups : ∀ k, k ≠ n → t.group c k = s.group c k
  group : ∀ g, s.group c n = some g → ∃ q, t.group c n = some q ∧
    { q with
      lanes := g.lanes, parked := g.parked, parkBo := g.parkBo, logStall := g.logStall, stageOvf := g.stageOvf, accs := g.accs,
      fwRegs := g.fwRegs, fwPred := g.fwPred } = g

/-- Every byte of every row of core `c`'s Well is as it was, but for bytes that `p` names. -/
def RowsBut (c : Nat) (p : Nat → Nat → Prop) (s t : State) : Prop :=
  ∀ key i, i < 128 → ¬ p key i → lineByte ((t.core c).row key) i = lineByte ((s.core c).row key) i

/-- Byte `i` of row `key` belongs to a 32-bit word at window offset `o` of group `g` on core `x`. -/
def Group.wordAt (g : Group) (x : Core) (o key i : Nat) : Prop :=
  ∃ r, g.wAddr (128 * (o / 128)) = some r ∧ x.rowKey r = some key ∧ o % 128 ≤ i ∧ i < o % 128 + 4

/-- Byte `i` of row `key` belongs to the predicate row of group `g` on core `x`. -/
def Group.predAt (g : Group) (x : Core) (key : Nat) : Prop := x.rowKey g.predAddr = some key

end Machine

end Sys2Proof

namespace Sys2Proof.Slice0

open Sys2Proof.Machine

/-! ## The words of the statements -/

/-- Group `g` holds the turn; its lanes `t`, of which `lo` is the lowest, take part under `p` (R25). -/
structure Turn (s : State) (p : Pred) (g : Group) (t : LaneMask) (lo : Nat) : Prop where
  group : s.curGroup = some g
  lanes : g.taking (s.core s.cur.core) p s.cur.mask = t
  low : lowestLane t = some lo

/-- Group `g` holds the turn and no lane takes part under `p` (R25). -/
structure Nobody (s : State) (p : Pred) (g : Group) : Prop where
  group : s.curGroup = some g
  low : lowestLane (g.taking (s.core s.cur.core) p s.cur.mask) = none

/-- The registers can be used: none is pending (R36) and all lie in the group's window (R27). -/
def Ready (g : Group) (rs : List Nat) : Prop := ∀ r ∈ rs, g.regPending r = false ∧ g.regOk r = true

/-- The sources of the lanes agree where U is set and debug mode compares them (R26). -/
def Alike (g : Group) (x : Core) (u : Bool) (t : LaneMask) (lo : Nat) (rs ps : List Nat) : Prop :=
  u = true → g.dbg = true → ∀ l ∈ lanesOf t,
    (∀ r ∈ rs, g.reg x r l = g.reg x r lo) ∧ ∀ k ∈ ps, g.pred x k l = g.pred x k lo

/-- The operands of a lane-wise instruction: its control bits, the vector and predicate registers its
lanes read, and those they write. -/
structure LaneForm where
  c : Ctl
  reads : List Nat
  preads : List Nat
  writes : List Nat
  pwrites : List Nat

/-- Registers of a pair or a single register (R28). -/
def regsOf (w : Wid) (r : Reg) : List Nat :=
  match w with
  | .b32 => [r.toNat]
  | .b64 => [r.toNat, r.toNat + 1]

/-- Registers of a second source (R29). -/
def srcRegs (w : Wid) : Src2 → List Nat
  | .reg b => regsOf w b
  | .imm _ => []

/-- Registers of a second and a third source (R29). -/
def srcRegs3 (wb wc : Wid) : Src3 → List Nat
  | .reg b c => regsOf wb b ++ regsOf wc c
  | .imm _ c => regsOf wc c

/-- Registers of a second float source (R30). -/
def fsrcRegs : FSrc2 → List Nat
  | .reg _ _ _ b => [b.toNat]
  | .imm _ => []

/-- Registers of a second and a third float source (R30). -/
def fsrcRegs3 : FSrc3 → List Nat
  | .reg _ _ _ _ b c => [b.toNat, c.toNat]
  | .imm _ c => [c.toNat]

/-- Eight registers from one on (R215). -/
def eight (r : Reg) : List Nat := (List.range 8).map fun i => r.toNat + i

/-- The predicates a mask names (R237). -/
def maskPreds (m : BitVec 16) : List Nat := (List.range 16).filter fun k => m.getLsbD k

/-- The width of an integer type (R40). -/
def tyWid : IntTy → Wid
  | .s32 | .z32 => .b32
  | .s64 | .z64 => .b64

/-- Registers of a bit field's place (R233). -/
def fieldRegs : FieldSrc → List Nat
  | .reg b => [b.toNat]
  | .imm _ _ => []

/-- Registers of BFI's field and base (R233). -/
def insertRegs (w : Wid) : InsertSrc → List Nat
  | .reg b k => b.toNat :: regsOf w k
  | .imm _ _ k => regsOf w k

/-- Registers of ICMP's second source (R234). -/
def cmpRegs (w : Wid) : CmpSrc → List Nat
  | .reg r => regsOf w r
  | .imm _ => []

/-- Registers of FCMP's second source (R250). -/
def fcmpRegs : FCmpSrc → List Nat
  | .reg r _ => [r.toNat]
  | .imm _ _ => []

/-- The predicate FCMP writes for element 1 of a packed type (R250). -/
def fcmpPred : FTy → FCmpSrc → List Nat
  | .f32, _ => []
  | .f16x2, .reg _ ps | .f16x2, .imm _ ps | .bf16x2, .reg _ ps | .bf16x2, .imm _ ps => [ps.toNat]

/-- Registers of SEL's second source, and its predicate (R236). -/
def selRegs (w : Wid) : SelSrc → List Nat
  | .reg r _ => regsOf w r
  | .imm _ _ => []

/-- SEL's predicate (R236). -/
def selPred : SelSrc → Nat
  | .reg _ k | .imm _ k => k.toNat

/-- Registers of MOV's source (R172). -/
def movRegs (w : Wid) : MovSrc → List Nat
  | .reg r => regsOf w r
  | .imm _ => []

/-- Registers of SHFL's lane operand (R239). -/
def laneRegs : LaneSrc → List Nat
  | .reg b => [b.toNat]
  | .imm _ => []

/-- Registers of BYSEL's selector (R240). -/
def byteRegs : ByteSel → List Nat
  | .reg r => [r.toNat]
  | .imm _ => []

/-- A predicate that may be absent. -/
def optPred : Option PReg → List Nat
  | some k => [k.toNat]
  | none => []

/-- PMOV's operands (R237). -/
def pmovForm (c : Ctl) (m : BitVec 16) : PMovDir → LaneForm
  | .toReg d => ⟨c, [], maskPreds m, [d.toNat], []⟩
  | .toPred a => ⟨c, [a.toNat], [], [], maskPreds m⟩

/-- VOTE's operands (R238). -/
def voteForm (p : Pred) (pa : PReg) : VoteKind → LaneForm
  | .all d | .any d | .eq d => ⟨⟨false, p⟩, [], [pa.toNat], [], [d.toNat]⟩
  | .ballot d => ⟨⟨false, p⟩, [], [pa.toNat], regsOf .b64 d, []⟩

/-- CVT's operands where its own fields name the format (R255). -/
def cvtForm (c : Ctl) (d a : Reg) : CvtDst → Option LaneForm
  | .fmt df _ _ => some ⟨c, if fmtBits df.toNat < 32 then [a.toNat, d.toNat] else [a.toNat], [], [d.toNat], []⟩
  | .slot _ => none

/-- Instructions without predicates whose lanes each read and write vector registers. -/
def plainForm (c : Ctl) (reads writes : List Nat) : Option LaneForm := some ⟨c, reads, [], writes, []⟩

/-- The operands of every lane-wise instruction of chapters 9 and 11 to 13 that reads no format slot;
none of any other instruction. -/
def laneForm : Instr → Option LaneForm
  | .iadd c ty _ d a b | .isub c ty _ d a b | .imul c ty _ d a b
  | .imulh c ty d a b | .imin c ty d a b | .imax c ty d a b | .idiv c ty d a b | .irem c ty d a b
  | .shl c ty d a b | .shr c ty d a b =>
    plainForm c (regsOf (tyWid ty) a ++ srcRegs (tyWid ty) b) (regsOf (tyWid ty) d)
  | .imad c ty _ d a b | .lea c ty d a b =>
    plainForm c (regsOf (tyWid ty) a ++ srcRegs3 (tyWid ty) (tyWid ty) b) (regsOf (tyWid ty) d)
  | .iabs c ty _ d a | .ineg c ty _ d a => plainForm c (regsOf (tyWid ty) a) (regsOf (tyWid ty) d)
  | .iaddc c w d a b pi po | .isubc c w d a b pi po =>
    some ⟨c, regsOf w a ++ regsOf w b, optPred pi, regsOf w d, [po.toNat]⟩
  | .idot4 c _ _ _ d a b cc | .idot2 c _ _ _ d a b cc =>
    plainForm c [a.toNat, b.toNat, cc.toNat] [d.toNat]
  | .imadw c _ _ d a b => plainForm c (a.toNat :: srcRegs3 .b32 .b64 b) (regsOf .b64 d)
  | .and c w d a b | .or c w d a b | .xor c w d a b | .rot c w d a b =>
    plainForm c (regsOf w a ++ srcRegs w b) (regsOf w d)
  | .bool3 c w d a b cc _ => plainForm c (regsOf w a ++ regsOf w b ++ regsOf w cc) (regsOf w d)
  | .popc c w d a | .clz c w d a | .ctz c w d a => plainForm c (regsOf w a) [d.toNat]
  | .brev c w d a => plainForm c (regsOf w a) (regsOf w d)
  | .bfx c w _ d a f =>
    plainForm c (regsOf w a ++ fieldRegs f) (regsOf w d)
  | .bfi c w d a f =>
    plainForm c (regsOf w a ++ insertRegs w f) (regsOf w d)
  | .icmp c ty _ d a b =>
    some ⟨c, regsOf (tyWid ty) a ++ cmpRegs (tyWid ty) b, [], [], [d.toNat]⟩
  | .fcmp c ty _ d a b =>
    some ⟨c, a.toNat :: fcmpRegs b, [], [], d.toNat :: fcmpPred ty b⟩
  | .plop c d pa pb pc _ => some ⟨c, [], [pa.toNat, pb.toNat, pc.toNat], [], [d.toNat]⟩
  | .sel c w d a b =>
    some ⟨c, regsOf w a ++ selRegs w b, [selPred b], regsOf w d, []⟩
  | .pmov c dir m => some (pmovForm c m dir)
  | .vote p k pa => some (voteForm p pa k)
  | .fclass c _ d a => plainForm c [a.toNat] [d.toNat]
  | .fadd c _ d a b | .fsub c _ d a b | .fmul c _ d a b | .fmin c _ d a b | .fmax c _ d a b
  | .famax c _ d a b => plainForm c (a.toNat :: fsrcRegs b) [d.toNat]
  | .ffma c _ d a b | .fclamp c _ d a b => plainForm c (a.toNat :: fsrcRegs3 b) [d.toNat]
  | .fdot2 c _ d a b => plainForm c (a.toNat :: fsrcRegs3 b) [d.toNat]
  | .fscale c _ _ _ d a b => plainForm c [a.toNat, b.toNat] [d.toNat]
  | .frnd c _ _ _ d a => plainForm c [a.toNat] [d.toNat]
  | .frcp c _ d a | .frsq c _ d a | .fsqrt c _ d a | .fexp2 c _ d a | .flog2 c _ d a | .fsin c _ d a
  | .fcos c _ d a | .fsigm c _ d a | .ftanh c _ d a => plainForm c [a.toNat] [d.toNat]
  | .cvt c dst _ _ _ d a => cvtForm c d a dst
  | .nunpk c d a b => plainForm c [a.toNat, b.toNat] (eight d)
  | .mov c w d a => plainForm c (movRegs w a) (regsOf w d)
  | .shfl p w _ d a k _ pv =>
    some ⟨⟨false, p⟩, regsOf w a ++ laneRegs k, [], regsOf w d, optPred pv⟩
  | .bysel c d a b sel =>
    plainForm c ([a.toNat, b.toNat] ++ byteRegs sel) [d.toNat]
  | _ => none

/-- A lane-wise form runs: its group holds the turn, lanes `t` take part, its registers can be used. -/
structure FormRuns (s : State) (f : LaneForm) (g : Group) (t : LaneMask) (lo : Nat) : Prop where
  turn : Turn s f.c.p g t lo
  ready : Ready g (f.reads ++ f.writes)
  alike : Alike g (s.core s.cur.core) f.c.u t lo f.reads f.preads

/-- The turn's instruction complete: every lane of `t` has written what `out` gives it, and the threads
stand at the next instruction. -/
def wrote (s : State) (t : LaneMask) (out : Nat → LaneOut) : State :=
  (s.commit ((lanesOf t).map fun l => (l, out l))).next

/-- Words for registers, no predicate. -/
def wordsOut (ws : List (Nat × Word)) : LaneOut := ⟨ws, []⟩

/-- The lane whose registers lane `l` reads: with U the lowest (R26). -/
def from_ (u : Bool) (lo l : Nat) : Nat := if u then lo else l

/-- A pair or register of lane `l`, unsigned. -/
def regNat (g : Group) (x : Core) (w : Wid) (r : Reg) (l : Nat) : Nat :=
  match w with
  | .b32 => (g.reg x r.toNat l).toNat
  | .b64 => (g.reg x r.toNat l).toNat + 2 ^ 32 * (g.reg x (r.toNat + 1) l).toNat

/-- A second integer source of lane `l`, unsigned: an immediate is extended as R29 gives. -/
def srcNat (g : Group) (x : Core) (ty : IntTy) (b : Src2) (l : Nat) : Nat :=
  match b with
  | .reg r => regNat g x (tyWid ty) r l
  | .imm v => match ty with
    | .s32 => (v.signExtend 32).toNat
    | .s64 => (v.signExtend 64).toNat
    | .z32 | .z64 => v.toNat

/-- A number as a source of a type reads it (R226). -/
def asInt (ty : IntTy) (n : Nat) : Int :=
  match ty with
  | .s32 => (BitVec.ofNat 32 n).toInt
  | .s64 => (BitVec.ofNat 64 n).toInt
  | .z32 | .z64 => (n : Int)

/-- The least and the greatest value of a type's range (R226). -/
def tyRange : IntTy → Int × Int
  | .s32 => (-2147483648, 2147483647)
  | .z32 => (0, 4294967295)
  | .s64 => (-9223372036854775808, 9223372036854775807)
  | .z64 => (0, 18446744073709551615)

/-- An exact integer brought into a type's range (R226). -/
def clampTy (ty : IntTy) (r : Int) : Int := max (tyRange ty).1 (min r (tyRange ty).2)

/-- The words a pair or register takes for an integer modulo 2^n (R28, R226). -/
def intWords (w : Wid) (d : Reg) (r : Int) : List (Nat × Word) :=
  match w with
  | .b32 => [(d.toNat, BitVec.ofInt 32 r)]
  | .b64 => [(d.toNat, (BitVec.ofInt 64 r).setWidth 32),
             (d.toNat + 1, ((BitVec.ofInt 64 r) >>> 32).setWidth 32)]

end Sys2Proof.Slice0

namespace Sys2Proof.Slice0

open Sys2Proof.Machine

/-! ## Memory instructions -/

/-- What LD, ST, LDF or STF of the turn's lanes names: its control bits, space and direction, all the
registers it names, those debug mode compares, those it writes, its request, its lanes' global pointers
and its lanes' addresses in the other spaces, and whether its registers end at v255 (R181, R190). -/
structure MemForm where
  c : Ctl
  space : Space
  store : Bool
  regs : List Nat
  usrc : List Nat
  dests : List Nat
  req : MemReq
  cands : List Cand
  elems : List Elem
  fits : Bool

/-- LD and ST of the lanes `t` (R181 to R183). -/
def plainMem (c : Ctl) (m : MemOp) (store : Bool) (d a : Reg) (g : Group) (x : Core) (t : LaneMask)
    (lo : Nat) : MemForm :=
  let dat := dataRegs m.size d.toNat
  let ls := if c.u then [lo] else lanesOf t
  let data := fun l => if store then g.dataOf x m.size d.toNat l else 0
  { c := c, space := m.space, store := store, regs := addrRegs m.space a ++ dat
    usrc := addrRegs m.space a ++ (if store then dat else []), dests := if store then [] else dat
    req := { kind := if store then .st else .ld, nt := m.nt, u := c.u, size := m.size, dest := d.toNat,
             lanes := t, elems := [] }
    cands := ls.map fun l => glbCand (g.pair x a.toNat l) m.ofs.toInt l 0 (data l)
    elems := ls.map fun l => addrElem (g.local32 x a m.ofs l) l 0 (data l), fits := true }

/-- LDF and STF of the lanes `t`: element j of lane l lies `fragOfs` bytes from the lane's address, as
vB's word of the lowest lane gives (R190, R191). -/
def fragMem (c : Ctl) (m : MemOp) (store : Bool) (d a b : Reg) (g : Group) (x : Core) (t : LaneMask)
    (lo : Nat) : MemForm :=
  let word := g.reg x b.toNat lo
  let cnt := (word.extractLsb' 21 5).toNat + 1
  let dat := (List.range (m.size.regs * cnt)).map fun i => d.toNat + i
  let each := (List.range cnt).flatMap fun j => (if c.u then [lo] else lanesOf t).map fun l => (j, l)
  let data := fun (e : Nat × Nat) =>
    if store then g.dataOf x m.size (d.toNat + m.size.regs * e.1) e.2 else 0
  let far := fun (e : Nat × Nat) => fragOfs g.width m.size.bytes word e.1 e.2
  { c := c, space := m.space, store := store, regs := addrRegs m.space a ++ [b.toNat] ++ dat
    usrc := addrRegs m.space a ++ [b.toNat] ++ (if store then dat else [])
    dests := if store then [] else dat
    req := { kind := if store then .stf else .ldf, nt := m.nt, u := c.u, size := m.size, dest := d.toNat,
             lanes := t, elems := [] }
    cands := each.map fun e => match ptrAdd (g.pair x a.toNat e.2) m.ofs.toInt with
      | none => glbCand (g.pair x a.toNat e.2) m.ofs.toInt e.2 e.1 (data e)
      | some q => glbCand q (far e : Int) e.2 e.1 (data e)
    elems := each.map fun e => addrElem (g.local32 x a m.ofs e.2 + far e) e.2 e.1 (data e)
    fits := decide (d.toNat + m.size.regs * cnt ≤ 256) }

/-- The form of a load or store. -/
def memForm (g : Group) (x : Core) (t : LaneMask) (lo : Nat) : Instr → Option MemForm
  | .ld c m d a => some (plainMem c m false d a g x t lo)
  | .st c m a b => some (plainMem c m true b a g x t lo)
  | .ldf c m d a b => some (fragMem c m false d a b g x t lo)
  | .stf c m d a b => some (fragMem c m true d a b g x t lo)
  | _ => none

/-- The wait-counter class of a load or store (R37). -/
def MemForm.cls (f : MemForm) : WClass := if f.store then .st else .ld

/-- A load or store is ready to make its accesses: its group holds the turn, its registers can be used,
its class has room (R38), its sources agree where U is compared (R26). -/
structure MemRuns (s : State) (f : MemForm) (g : Group) (t : LaneMask) (lo : Nat) : Prop where
  turn : Turn s f.c.p g t lo
  ready : Ready g f.regs
  fits : f.fits = true
  room : (if f.store then g.cnt.st else g.cnt.ld) < 31
  alike : Alike g (s.core s.cur.core) f.c.u t lo f.usrc []

/-- The operation as the scoreboard and the operand log hold it: its identity, place and elements. -/
def flightOf (s : State) (g : Group) (f : MemForm) (es : List Elem) : Flight :=
  { id := g.nextId, cls := f.cls, pc := s.cur.pc, iword := s.cur.iword, mask := f.req.lanes
    req := { f.req with elems := es }, logged := false }

/-- The elements of the pointers that exist. -/
def ptrElems (ks : List Cand) : List Elem := ks.filterMap fun k => k.ptr.map fun p => k.elem p

/-- The conflict detector has recorded a deterministic group's accesses, from `s` to `u` (R405); outside
deterministic mode nothing is recorded. -/
def Recorded (a : Actor) (g : Group) (store : Bool) (n : Nat) (hs : List Hit) (s u : State) : Prop :=
  (g.det = false → u = s) ∧ (g.det = true → s.detGlb a.core g.sigName store n (hs.map Hit.e) = .ok u)

end Sys2Proof.Slice0

namespace Sys2Proof.Slice0

open Sys2Proof.Machine

/-! ## Atomics, CADD and ink -/

/-- The form of an atomic (R196): ATCAS compares with its first operand and stores its second. -/
def atomOf (c : Ctl) (m : AtomOp) (k : MemKind) (dest : Option Reg) (a b : Reg) (g : Group) (x : Core)
    (t : LaneMask) (lo : Nat) : MemForm :=
  let z := m.wid.asize
  let two := k = .atcas
  let srcs := dataRegs z b.toNat ++ (if two then dataRegs z (b.toNat + z.regs) else [])
  let dests := match dest with | some d => dataRegs z d.toNat | none => []
  let ofs := m.ofs.signExtend 18
  let ls := if c.u then [lo] else lanesOf t
  let data := fun l => if two then g.dataOf x z (b.toNat + z.regs) l else g.dataOf x z b.toNat l
  let cmp := fun l => if two then (g.dataOf x z b.toNat l).setWidth 64 else (0 : DWord)
  { c := c, space := m.space, store := dest.isNone, regs := addrRegs m.space a ++ srcs ++ dests
    usrc := addrRegs m.space a ++ srcs, dests := dests
    req := { kind := k, nt := false, u := c.u, size := z
             dest := match dest with | some d => d.toNat | none => 0, lanes := t, elems := [] }
    cands := ls.map fun l => { glbCand (g.pair x a.toNat l) ofs.toInt l 0 (data l) with cmp := cmp l }
    elems := ls.map fun l => { addrElem (g.local32 x a ofs l) l 0 (data l) with cmp := cmp l }
    fits := true }

/-- The form of ATOM, ATCAS and RED. -/
def atomForm (g : Group) (x : Core) (t : LaneMask) (lo : Nat) : Instr → Option MemForm
  | .atom c m op d a b => some (atomOf c m (.atom op) (some d) a b g x t lo)
  | .atcas c m d a b => some (atomOf c m .atcas (some d) a b g x t lo)
  | .red c m op a b => some (atomOf c m (.red op) none a b g x t lo)
  | _ => none

/-- The form of CADD (R202). -/
def caddForm (c : Ctl) (a b : Reg) (ofs : BitVec 18) (g : Group) (x : Core) (t : LaneMask) (lo : Nat) :
    MemForm :=
  let rs := [a.toNat, a.toNat + 1, b.toNat]
  { c := c, space := .glb, store := true, regs := rs, usrc := rs, dests := []
    req := { kind := .cadd, nt := false, u := c.u, size := .b32, dest := 0, lanes := t, elems := [] }
    cands := (if c.u then [lo] else lanesOf t).map fun l =>
      glbCand (g.pair x a.toNat l) ofs.toInt l 0 (g.dataOf x .b32 b.toNat l)
    elems := [], fits := true }

/-- The operation of an ink instruction, and the form of it (R119, R120): the value pair of INKP, the
generation in vC, the device in vC+1. -/
def inkOf (c : Ctl) (op : InkOp) (d a : Reg) (val : Option Reg) (cc : Reg) (cell : BitVec 13) (g : Group)
    (x : Core) (t : LaneMask) (lo : Nat) : InkOp × MemForm × List InkCand :=
  let gens := if op = .readHome then [cc.toNat + 1] else [cc.toNat, cc.toNat + 1]
  let vals := match val with | some b => [b.toNat, b.toNat + 1] | none => []
  let srcs := [a.toNat, a.toNat + 1] ++ gens ++ vals
  let dests := (List.range 4).map fun i => d.toNat + i
  let cand := fun l =>
    { glbCand (g.pair x a.toNat l) (16 * cell.toInt) l 0
        (match val with | some b => (g.pair x b.toNat l).setWidth 128 | none => (0 : BitVec 128)) with
      cmp := if op = .readHome then (0 : DWord) else (g.reg x cc.toNat l).setWidth 64 }
  let ls := if c.u then [lo] else lanesOf t
  (op, { c := c, space := .glb, store := false, regs := srcs ++ dests, usrc := srcs, dests := dests
         req := { kind := .ink op, nt := false, u := c.u, size := .b128, dest := d.toNat, lanes := t, elems := [] }
         cands := ls.map cand, elems := [], fits := true },
   ls.map fun l => (cand l, (g.reg x (cc.toNat + 1) l).toNat))

/-- The form of INKP, INKR and INKC. -/
def inkForm (g : Group) (x : Core) (t : LaneMask) (lo : Nat) : Instr → Option (InkOp × MemForm × List InkCand)
  | .inkp c d a b cc k => some (inkOf c .propose d a (some b) cc k g x t lo)
  | .inkrG c d a cc k => some (inkOf c .readGen d a none cc k g x t lo)
  | .inkrH c d a cc k => some (inkOf c .readHome d a none cc k g x t lo)
  | .inkc c d a cc k => some (inkOf c .recycle d a none cc k g x t lo)
  | _ => none

/-- The turn's operation leaves: `u` holds its requests; its group counts it, its destinations are
pending, and it waits for the elements `es` (R36, R37). -/
def leaves (s : State) (g : Group) (f : MemForm) (es : List Elem) (u : State) : State :=
  (u.updGroup s.cur.core s.cur.slot fun q => { q.track g.nextId f.cls f.dests with
    flight := q.flight ++ [flightOf s g f es] }).next

/-- The turn's operation in the operand log, waiting for an extent (R78). -/
def inLog (s : State) (g : Group) (f : MemForm) (es : List Elem) (on ext : Nat) : State :=
  (s.setGroup s.cur.core s.cur.slot { g.track g.nextId f.cls f.dests with
    log := g.log ++ [{ op := { flightOf s g f es with logged := true }, st := .waiting on ext }] }).next

/-- The record that stands for a log entry in the Coachman's fault queue (R78). -/
def logFault (s : State) (g : Group) (on ext : Nat) : FaultRec :=
  { ctx := g.ctx, on := on, ext := ext, who := .log s.cur.core s.cur.slot }

/-- The dirty words of the lines `p` names sent home as a publication with a number of its own; the lines
sent (R94). -/
def sentBack (s : State) (ctx : Nat) (p : L1Line → Bool) : State × List Nat :=
  { s with nextPub := s.nextPub + 1 }.sendWords s.cur.core ctx (s.nextPub + 1) p

/-- The turn's write-back on its way, an operation of the ST class: it waits for the acknowledgements of
the lines sent, then drops the copies of `drops`; `flag` says that it then marks register `d` (R193, R195). -/
def goesBack (s : State) (g : Group) (t : LaneMask) (d : Nat) (flag : Bool) (r : State × List Nat)
    (drops : List Nat) : State :=
  let f : MemForm :=
    { c := ⟨false, .all⟩, space := .glb, store := true, regs := [], usrc := []
      dests := if flag then [d] else []
      req := { kind := .flush, nt := false, u := false, size := .b32, dest := d, lanes := t, elems := [] }
      cands := [], elems := [], fits := true }
  let q : Flush := { job := s.nextPub + 1, slot := s.cur.slot, team := g.team, op := g.nextId, pending := r.2
                     acked := [], drops := drops, flag := flag }
  leaves s g f [] (r.1.updCore s.cur.core fun x => { x with flushes := x.flushes ++ [q] })

/-- The boundary unit works for the turn's group on publication `job`, and all it waited for has come, with
versions `acked` (R94, R310). -/
def UnitReady (s : State) (job : Nat) (acked : List (Nat × Word)) : Prop :=
  ∃ b, (s.core s.cur.core).boundary = some b ∧ b.slot = s.cur.slot ∧ b.job = job ∧ b.sent = true ∧
    b.pending = [] ∧ b.hostWait = 0 ∧ b.acked = acked

/-- The commits of publication `job` sent and the boundary unit given back (R94 step 4). -/
def committed (s : State) (job : Nat) (acked : List (Nat × Word)) : State :=
  let out : List CommitMsg := acked.map fun a =>
    { core := s.cur.core, line := a.1, job := job, sent := s.steps }
  let s1 : State := { s with commits := s.commits ++ out }
  s1.updCore s.cur.core fun x => { x with boundary := none }

/-- The boundary unit is free for the turn's group: nobody holds it, and of the groups that wait for it and
can go on none came before. -/
def UnitFree (s : State) : Prop :=
  (s.core s.cur.core).boundary = none ∧ ∀ e, (s.core s.cur.core).bwaiting.head? = some e → e.1 = s.cur.slot

/-- The boundary unit taken for the turn's group, its words sent as a publication with a number of its own:
`send` gives the state after sending, the lines sent, and the host's completions awaited. -/
def unitTaken (s : State) (send : Nat → State → State × List Nat × Nat) : State :=
  let r := send (s.nextPub + 1) { s with nextPub := s.nextPub + 1 }
  r.1.updCore s.cur.core fun x => { x with
    bqueue := x.bqueue.filter fun e => e.1 != s.cur.slot
    boundary := some { slot := s.cur.slot, job := s.nextPub + 1, sent := true, pending := r.2.1, acked := []
                       since := (s.core s.cur.core).since s.cur.slot s.steps, hostWait := r.2.2 } }

end Sys2Proof.Slice0
end

