-- ==== Sys2Proof/Certificates/Slice0/Obligations.lean ====
section
/-! DEFINITION. The statements made about the machine. -/

open Sys2Proof Sys2Proof.Machine Sys2Proof.Slice0

/-! ## Lane-wise instructions -/

/-- Every lane-wise instruction completes where its operands can be used: each lane taking part writes
exactly the registers and predicates the instruction names, and the threads stand at the next
instruction (R25 to R28, R36, R224, R242). -/
def Obligations.LanewiseCompletes : Prop :=
  ∀ (i : Instr) (f : LaneForm) (s : State) (g : Group) (t : LaneMask) (lo : Nat),
    laneForm i = some f → FormRuns s f g t lo →
    ∃ out : Nat → LaneOut, exec i s = .next (wrote s t out) ∧
      (∀ l, (out l).regs.map Prod.fst = f.writes ∧ (out l).preds.map Prod.fst = f.pwrites) ∧
      (f.c.u = true → ∀ l, out l = out lo)

/-- A lane-wise instruction that names a register outside the group's window, none being pending, takes
REG_BOUNDS for its lowest lane (R27). -/
def Sys2Proof.Slice0.lanewiseRegBounds : Prop :=
  ∀ (i : Instr) (f : LaneForm) (s : State) (g : Group) (t : LaneMask) (lo : Nat),
    laneForm i = some f → Turn s f.c.p g t lo →
    (∀ r ∈ f.reads ++ f.writes, g.regPending r = false) →
    (∃ r ∈ f.reads ++ f.writes, g.regOk r = false) →
    exec i s = .next (s.takeTrap ⟨.regBounds, lo, 0, 0⟩)

/-- A lane-wise instruction one of whose registers is pending on the scoreboard does nothing yet: it is
tried again at the group's next turn (R36). -/
def Sys2Proof.Slice0.lanewiseWaits : Prop :=
  ∀ (i : Instr) (f : LaneForm) (s : State) (g : Group) (t : LaneMask) (lo : Nat),
    laneForm i = some f → Turn s f.c.p g t lo →
    (∃ r ∈ f.reads ++ f.writes, g.regPending r = true) → exec i s = .next s

/-- With U set and debug mode on, a lane whose vector sources differ from the lowest lane's takes
U_MISMATCH, and nothing is written (R26). -/
def Sys2Proof.Slice0.lanewiseMismatch : Prop :=
  ∀ (i : Instr) (f : LaneForm) (s : State) (g : Group) (t : LaneMask) (lo : Nat),
    laneForm i = some f → Turn s f.c.p g t lo → Ready g (f.reads ++ f.writes) →
    f.c.u = true → g.dbg = true →
    (∃ l ∈ lanesOf t, ∃ r ∈ f.reads, g.reg (s.core s.cur.core) r l ≠ g.reg (s.core s.cur.core) r lo) →
    ∃ l ∈ lanesOf t, exec i s = .next (s.takeTrap ⟨.uMismatch, l, 0, 0⟩)

/-- A lane-wise instruction that cannot write yet or at all: REG_BOUNDS for a register outside the window,
a wait for a pending register, and U_MISMATCH in debug mode (R26, R27, R36). -/
def Obligations.LanewiseStops : Prop := lanewiseRegBounds ∧ lanewiseWaits ∧ lanewiseMismatch

/-- What a lane-wise instruction leaves alone, whatever it answers: it waits, it takes a trap, or it
changes only the bytes of the registers it writes in its lanes, the group's predicate row when it writes
a predicate, and what the frame of a register write allows. Memory, every other core, group, context,
special register and accumulator stand as they were (R43, R224, R242). -/
def Obligations.LanewiseFrame : Prop :=
  ∀ (i : Instr) (f : LaneForm) (s u : State) (g : Group),
    laneForm i = some f → s.curGroup = some g → exec i s = .next u →
    u = s ∨ (∃ k, u = s.takeTrap k) ∨
    (RegFrame s.cur.core s.cur.slot s u ∧
     RowsBut s.cur.core (fun key b => g.fw = false ∧
       ((∃ l ∈ lanesOf (g.taking (s.core s.cur.core) f.c.p s.cur.mask), ∃ r ∈ f.writes,
          g.wordAt (s.core s.cur.core) (g.vecOfs r + 4 * l) key b) ∨
        (f.pwrites ≠ [] ∧ g.predAt (s.core s.cur.core) key))) s u)

/-- The integer instructions of two sources give the exact integer of R226 modulo 2^n, or clamped to the
type's range under SAT; IDIV and IREM by zero give the values R226 names. -/
def Obligations.IntegerResults : Prop :=
  ∀ (s : State) (g : Group) (t : LaneMask) (lo : Nat) (c : Ctl) (ty : IntTy) (sat : Bool) (d a : Reg)
    (b : Src2),
    FormRuns s ⟨c, regsOf (tyWid ty) a ++ srcRegs (tyWid ty) b, [], regsOf (tyWid ty) d, []⟩ g t lo →
    let x := s.core s.cur.core
    let A := fun l => asInt ty (regNat g x (tyWid ty) a (from_ c.u lo l))
    let B := fun l => asInt ty (srcNat g x ty b (from_ c.u lo l))
    let gives := fun (i : Instr) (r : Nat → Int) =>
      exec i s = .next (wrote s t fun l => wordsOut (intWords (tyWid ty) d (r l)))
    let fit := fun r => if sat then clampTy ty r else r
    gives (.iadd c ty sat d a b) (fun l => fit (A l + B l)) ∧
    gives (.isub c ty sat d a b) (fun l => fit (A l - B l)) ∧
    gives (.imul c ty sat d a b) (fun l => fit (A l * B l)) ∧
    gives (.imulh c ty d a b) (fun l => (A l * B l) / 2 ^ (tyWid ty).bits) ∧
    gives (.imin c ty d a b) (fun l => min (A l) (B l)) ∧
    gives (.imax c ty d a b) (fun l => max (A l) (B l)) ∧
    gives (.idiv c ty d a b) (fun l => if B l = 0 then (tyRange ty).2 + (if (tyRange ty).1 < 0 then
      - (tyRange ty).2 - 1 else 0) else (A l).tdiv (B l)) ∧
    gives (.irem c ty d a b) (fun l => if B l = 0 then A l else (A l).tmod (B l))

/-- IADDC and ISUBC give the n-bit sum or difference with the carry or borrow predicate in, and write the
carry or borrow out (R228). -/
def Sys2Proof.Slice0.carryResults : Prop :=
  ∀ (s : State) (g : Group) (t : LaneMask) (lo : Nat) (c : Ctl) (w : Wid) (d a b : Reg)
    (pi : Option PReg) (po : PReg),
    FormRuns s ⟨c, regsOf w a ++ regsOf w b, optPred pi, regsOf w d, [po.toNat]⟩ g t lo →
    let x := s.core s.cur.core
    let A := fun l => regNat g x w a (from_ c.u lo l)
    let B := fun l => regNat g x w b (from_ c.u lo l)
    let C := fun l => match pi with
      | some k => if g.pred x k.toNat (from_ c.u lo l) then 1 else 0
      | none => 0
    exec (.iaddc c w d a b pi po) s = .next (wrote s t fun l =>
      ⟨intWords w d ((A l : Int) + B l + C l), [(po.toNat, decide (2 ^ w.bits ≤ A l + B l + C l))]⟩) ∧
    exec (.isubc c w d a b pi po) s = .next (wrote s t fun l =>
      ⟨intWords w d ((A l : Int) - B l - C l), [(po.toNat, decide (A l < B l + C l))]⟩)

/-- AND, OR, XOR, SHL, SHR and ROT (R230): the count is the second source read unsigned; an immediate is
zero-extended, but for SHL and SHR sign-extended with a signed type (R29). -/
def Sys2Proof.Slice0.logicResults : Prop :=
  ∀ (s : State) (g : Group) (t : LaneMask) (lo : Nat) (c : Ctl) (ty : IntTy) (d a : Reg) (b : Src2),
    FormRuns s ⟨c, regsOf (tyWid ty) a ++ srcRegs (tyWid ty) b, [], regsOf (tyWid ty) d, []⟩ g t lo →
    let x := s.core s.cur.core
    let w := tyWid ty
    let n := w.bits
    let A := fun l => regNat g x w a (from_ c.u lo l)
    let B := fun l => match b with
      | .reg r => regNat g x w r (from_ c.u lo l)
      | .imm v => v.toNat
    let K := fun l => srcNat g x ty b (from_ c.u lo l)
    let gives := fun (i : Instr) (r : Nat → Int) =>
      exec i s = .next (wrote s t fun l => wordsOut (intWords w d (r l)))
    gives (.and c w d a b) (fun l => ((A l &&& B l : Nat) : Int)) ∧
    gives (.or c w d a b) (fun l => ((A l ||| B l : Nat) : Int)) ∧
    gives (.xor c w d a b) (fun l => ((A l ^^^ B l : Nat) : Int)) ∧
    gives (.shl c ty d a b) (fun l => if n ≤ K l then 0 else (A l : Int) * 2 ^ (K l)) ∧
    gives (.shr c ty d a b) (fun l => if n ≤ K l then (if asInt ty (A l) < 0 then -1 else 0)
      else asInt ty (A l) / 2 ^ (K l)) ∧
    gives (.rot c w d a b) (fun l =>
      (A l : Int) * 2 ^ (B l % n) + (A l : Int) / 2 ^ (n - B l % n))

/-- The carry instructions (R228) and the logic, shift and rotate instructions (R230). -/
def Obligations.CarryAndLogic : Prop := carryResults ∧ logicResults

/-- ICMP writes the comparison of its sources, signed by type (R234), an immediate extended as R29 gives;
SEL takes a where the predicate is 1 and the second source, an immediate zero-extended, otherwise (R236). -/
def Obligations.CompareSelect : Prop :=
  (∀ (s : State) (g : Group) (t : LaneMask) (lo : Nat) (c : Ctl) (ty : IntTy) (d : PReg) (a : Reg)
    (b : CmpSrc),
    FormRuns s ⟨c, regsOf (tyWid ty) a ++ cmpRegs (tyWid ty) b, [], [], [d.toNat]⟩ g t lo →
    let x := s.core s.cur.core
    let A := fun l => asInt ty (regNat g x (tyWid ty) a (from_ c.u lo l))
    let B := fun l => match b with
      | .reg r => asInt ty (regNat g x (tyWid ty) r (from_ c.u lo l))
      | .imm v => match ty with
        | .s32 | .s64 => v.toInt
        | .z32 | .z64 => (v.toNat : Int)
    let gives := fun (k : ICond) (r : Nat → Bool) =>
      exec (.icmp c ty k d a b) s = .next (wrote s t fun l => ⟨[], [(d.toNat, r l)]⟩)
    gives .eq (fun l => decide (A l = B l)) ∧ gives .ne (fun l => decide (A l ≠ B l)) ∧
    gives .lt (fun l => decide (A l < B l)) ∧ gives .le (fun l => decide (A l ≤ B l)) ∧
    gives .gt (fun l => decide (A l > B l)) ∧ gives .ge (fun l => decide (A l ≥ B l))) ∧
  (∀ (s : State) (g : Group) (t : LaneMask) (lo : Nat) (c : Ctl) (w : Wid) (d a : Reg) (b : SelSrc),
    FormRuns s ⟨c, regsOf w a ++ selRegs w b, [selPred b], regsOf w d, []⟩ g t lo →
    let x := s.core s.cur.core
    exec (.sel c w d a b) s = .next (wrote s t fun l =>
      let l' := from_ c.u lo l
      let other := match b with
        | .reg r _ => regNat g x w r l'
        | .imm v _ => v.toNat
      wordsOut (intWords w d (if g.pred x (selPred b) l' then regNat g x w a l' else other))))

/-- MOV copies its source register or pair, or zero-extends its 20-bit immediate; MOV in a pair word is its
32-bit register form (R172). -/
def Obligations.MovResult : Prop :=
  ∀ (s : State) (g : Group) (t : LaneMask) (lo : Nat) (c : Ctl) (w : Wid) (d : Reg),
    (∀ a : Reg, FormRuns s ⟨c, regsOf w a, [], regsOf w d, []⟩ g t lo →
      exec (.mov c w d (.reg a)) s = .next (wrote s t fun l =>
        wordsOut (intWords w d (regNat g (s.core s.cur.core) w a (from_ c.u lo l))))) ∧
    (∀ v : BitVec 20, FormRuns s ⟨c, [], [], regsOf w d, []⟩ g t lo →
      exec (.mov c w d (.imm v)) s = .next (wrote s t fun _ => wordsOut (intWords w d v.toNat))) ∧
    (∀ (u : Bool) (a : Reg), FormRuns s ⟨⟨u, .all⟩, [a.toNat], [], [d.toNat], []⟩ g t lo →
      let moved := Host.Outcome.next (wrote s t fun l =>
        wordsOut [(d.toNat, g.reg (s.core s.cur.core) a.toNat (from_ u lo l))])
      exec (.pairMov u d a .nop) s = moved ∧ exec (.pairNop (.op .mov u d a)) s = moved)

/-- Code `v` is a NaN of f32. -/
def Sys2Proof.Slice0.isNan32 (v : Word) : Prop := v.extractLsb' 23 8 = 255 ∧ v.extractLsb' 0 23 ≠ 0

/-- With a NaN source in f32, FADD, FSUB, FMUL and FFMA give the canonical NaN, and FMIN and FMAX give it
when both sources are NaN (R248). -/
def Obligations.FloatNan : Prop :=
  ∀ (s : State) (g : Group) (t : LaneMask) (lo : Nat) (c : Ctl) (rm : RMode) (d a b k : Reg),
    let x := s.core s.cur.core
    let nan := fun (r : Reg) => ∀ l ∈ lanesOf t, isNan32 (g.reg x r.toNat (from_ c.u lo l))
    let m : SMod := ⟨false, false⟩
    let src : FSrc2 := .reg rm m m b
    let gives := fun (i : Instr) =>
      exec i s = .next (wrote s t fun _ => wordsOut [(d.toNat, 0x7FC00000#32)])
    (FormRuns s ⟨c, [a.toNat, b.toNat], [], [d.toNat], []⟩ g t lo → nan a ∨ nan b →
      gives (.fadd c .f32 d a src) ∧ gives (.fsub c .f32 d a src) ∧ gives (.fmul c .f32 d a src)) ∧
    (FormRuns s ⟨c, [a.toNat, b.toNat], [], [d.toNat], []⟩ g t lo → nan a ∧ nan b →
      gives (.fmin c .f32 d a src) ∧ gives (.fmax c .f32 d a src)) ∧
    (FormRuns s ⟨c, [a.toNat, b.toNat, k.toNat], [], [d.toNat], []⟩ g t lo → nan a ∨ nan b ∨ nan k →
      gives (.ffma c .f32 d a (.reg rm m m m b k)))

/-- A register of float elements from their codes: one of 32 bits, or two of 16, element 0 lowest (R245). -/
def Sys2Proof.Slice0.elemsWord (ty : FTy) (k : Nat → Nat) : Word :=
  match ty with
  | .f32 => BitVec.ofNat 32 (k 0)
  | .f16x2 | .bf16x2 => BitVec.ofNat 32 (k 0 % 2 ^ 16 + 2 ^ 16 * (k 1 % 2 ^ 16))

/-- Element `i` of a word under a float type, exact, its modifiers applied (R203, R245). -/
def Sys2Proof.Slice0.elemOf (ty : FTy) (m : SMod) (w : Word) (i : Nat) : Val :=
  (decodeVal ty.fmt (w.toNat / 2 ^ (ty.bits * i) % 2 ^ ty.bits)).modify m

/-- The word of a float immediate: the upper twenty bits of an f32, or one 16-bit pattern in both elements
(R30). -/
def Sys2Proof.Slice0.immWord (ty : FTy) (v : BitVec 20) : Word :=
  match ty with
  | .f32 => BitVec.ofNat 32 (v.toNat * 2 ^ 12)
  | .f16x2 | .bf16x2 => BitVec.ofNat 32 (v.toNat % 2 ^ 16 * 65537)

/-- The lesser of two values, −0 below +0; of one NaN and another value the other (R247, R248). -/
def Sys2Proof.Slice0.lesser (a b : Val) : Val :=
  if a = .nan then b else if b = .nan then a else if a.below b then a else b

/-- The greater of two values (R247, R248). -/
def Sys2Proof.Slice0.greater (a b : Val) : Val :=
  if a = .nan then b else if b = .nan then a else if a.below b then b else a

/-- The float instructions of two sources give, element by element and in each of their types, the exact
result rounded once to the element's format: sum, difference and product, the lesser and the greater
(one NaN gives the other source, two the canonical NaN), and the greater magnitude (R245 to R248). -/
def Sys2Proof.Slice0.floatTwo : Prop :=
  ∀ (s : State) (g : Group) (t : LaneMask) (lo : Nat) (c : Ctl) (ty : FTy) (d a : Reg) (b : FSrc2),
    FormRuns s ⟨c, a.toNat :: fsrcRegs b, [], [d.toNat], []⟩ g t lo →
    let x := s.core s.cur.core
    let plain : SMod := ⟨false, false⟩
    let rm := match b with | .reg rm _ _ _ => rm | .imm _ => .rne
    let ma := match b with | .reg _ ma _ _ => ma | .imm _ => plain
    let mb := match b with | .reg _ _ mb _ => mb | .imm _ => plain
    let A := fun l i => elemOf ty ma (g.reg x a.toNat (from_ c.u lo l)) i
    let B := fun l i => elemOf ty mb (match b with
      | .reg _ _ _ r => g.reg x r.toNat (from_ c.u lo l)
      | .imm v => immWord ty v) i
    let gives := fun (i : Instr) (r : Nat → Nat → Val) =>
      exec i s = .next (wrote s t fun l => wordsOut
        [(d.toNat, elemsWord ty fun e => encodeVal ty.fmt (rndOf rm) false (r l e))])
    gives (.fadd c ty d a b) (fun l i => exactSum (rndOf rm) [A l i, B l i]) ∧
    gives (.fsub c ty d a b) (fun l i => exactSum (rndOf rm) [A l i, (B l i).modify ⟨true, false⟩]) ∧
    gives (.fmul c ty d a b) (fun l i => (A l i).mul (B l i)) ∧
    gives (.fmin c ty d a b) (fun l i => lesser (A l i) (B l i)) ∧
    gives (.fmax c ty d a b) (fun l i => greater (A l i) (B l i)) ∧
    gives (.famax c ty d a b) (fun l i =>
      greater ((A l i).modify ⟨false, true⟩) ((B l i).modify ⟨false, true⟩))

/-- FFMA gives the exact product and sum rounded once, in each type and element; FCLAMP takes the greater
of the first two sources, then the lesser of that and the third (R247, R248). -/
def Sys2Proof.Slice0.floatThree : Prop :=
  ∀ (s : State) (g : Group) (t : LaneMask) (lo : Nat) (c : Ctl) (ty : FTy) (d a : Reg) (b : FSrc3),
    FormRuns s ⟨c, a.toNat :: fsrcRegs3 b, [], [d.toNat], []⟩ g t lo →
    let x := s.core s.cur.core
    let plain : SMod := ⟨false, false⟩
    let rm := match b with | .reg rm _ _ _ _ _ => rm | .imm _ _ => .rne
    let m := match b with | .reg _ ma mb mc _ _ => (ma, mb, mc) | .imm _ _ => (plain, plain, plain)
    let A := fun l i => elemOf ty m.1 (g.reg x a.toNat (from_ c.u lo l)) i
    let B := fun l i => elemOf ty m.2.1 (match b with
      | .reg _ _ _ _ r _ => g.reg x r.toNat (from_ c.u lo l)
      | .imm v _ => immWord ty v) i
    let C := fun l i => elemOf ty m.2.2 (match b with
      | .reg _ _ _ _ _ k | .imm _ k => g.reg x k.toNat (from_ c.u lo l)) i
    let gives := fun (i : Instr) (r : Nat → Nat → Val) =>
      exec i s = .next (wrote s t fun l => wordsOut
        [(d.toNat, elemsWord ty fun e => encodeVal ty.fmt (rndOf rm) false (r l e))])
    gives (.ffma c ty d a b) (fun l i => exactSum (rndOf rm) [(A l i).mul (B l i), C l i]) ∧
    gives (.fclamp c ty d a b) (fun l i => lesser (greater (A l i) (B l i)) (C l i))

/-- CVT with its own format writes element DEI of D with the code of the source element's exact value in the
destination format, rounded and saturated as its fields say; every other bit of D keeps its value (R255). -/
def Sys2Proof.Slice0.cvtResult : Prop :=
  ∀ (s : State) (g : Group) (t : LaneMask) (lo : Nat) (f : LaneForm) (c : Ctl) (df : BitVec 4) (rm : RMode)
    (sat : Bool) (sf : BitVec 4) (sei dei : BitVec 2) (d a : Reg),
    cvtForm c d a (.fmt df rm sat) = some f → FormRuns s f g t lo →
    let x := s.core s.cur.core
    let n := fmtBits df.toNat
    let w := fmtBits sf.toNat
    n * (dei.toNat + 1) ≤ 32 →
    ∃ v : Nat → Word,
      exec (.cvt c (.fmt df rm sat) sf sei dei d a) s =
        .next (wrote s t fun l => wordsOut [(d.toNat, v l)]) ∧
      ∀ l,
        let e := (g.reg x a.toNat (from_ c.u lo l)).toNat / 2 ^ (w * sei.toNat) % 2 ^ w
        (v l).toNat / 2 ^ (n * dei.toNat) % 2 ^ n =
          encodeVal df.toNat (rndOf rm) sat (decodeVal sf.toNat e) % 2 ^ n ∧
        ∀ k, k < n * dei.toNat ∨ n * (dei.toNat + 1) ≤ k →
          (v l).getLsbD k = (g.reg x d.toNat (from_ c.u lo l)).getLsbD k

/-- What the float instructions and CVT compute, in every type and element (R245 to R248, R255). -/
def Obligations.FloatResults : Prop := floatTwo ∧ floatThree ∧ cvtResult

/-! ## Pair words -/

/-- The upper half of a pair word, its lower half, and the registers each half reads and writes (R32,
R33). -/
def Sys2Proof.Slice0.pairHalves : Instr → Option (Half × Half)
  | .pairNop low => some (.nop, low)
  | .pairMov u d s low => some (.op .mov u d s, low)
  | .pairMovi8 u d i low => some (.movi8 u d i, low)
  | .pairIadd u d s low => some (.op .iadd u d s, low)
  | .pairIaddi u d i low => some (.iaddi u d i, low)
  | .pairIsub u d s low => some (.op .isub u d s, low)
  | .pairImul u d s low => some (.op .imul u d s, low)
  | .pairImin u d s low => some (.op .imin u d s, low)
  | .pairImax u d s low => some (.op .imax u d s, low)
  | .pairAnd u d s low => some (.op .and u d s, low)
  | .pairOr u d s low => some (.op .or u d s, low)
  | .pairXor u d s low => some (.op .xor u d s, low)
  | .pairShli u d n low => some (.shift .shl u d n, low)
  | .pairShri u d n low => some (.shift .shr u d n, low)
  | .pairSari u d n low => some (.shift .sar u d n, low)
  | .pairFadd u d s low => some (.op .fadd u d s, low)
  | .pairFsub u d s low => some (.op .fsub u d s, low)
  | .pairFmul u d s low => some (.op .fmul u d s, low)
  | .pairFmin u d s low => some (.op .fmin u d s, low)
  | .pairFmax u d s low => some (.op .fmax u d s, low)
  | .pairFneg u d s low => some (.op .fneg u d s, low)
  | .pairFabs u d s low => some (.op .fabs u d s, low)
  | _ => none

/-- The registers of a half: all it names, the one it writes, whether U is set (R32, R33). -/
def Sys2Proof.Slice0.halfRegs : Half → List Nat × List Nat × Bool
  | .nop => ([], [], false)
  | .movi8 u d _ => ([], [d.toNat], u)
  | .iaddi u d _ | .shift _ u d _ => ([d.toNat], [d.toNat], u)
  | .op o u d s => match o with
    | .mov | .fneg | .fabs => ([s.toNat], [d.toNat], u)
    | _ => ([d.toNat, s.toNat], [d.toNat], u)

/-- Both halves of a pair word read before either writes, in every lane of the execution mask; the word
completes when both halves' registers can be used (R34). The integer, logic and move halves give the bits
R241 and R33 name. -/
def Sys2Proof.Slice0.pairCompletes : Prop :=
  ∀ (i : Instr) (up low : Half) (s : State) (g : Group) (lo : Nat),
    pairHalves i = some (up, low) → s.curGroup = some g → lowestLane s.cur.mask = some lo →
    Ready g ((halfRegs up).1 ++ (halfRegs up).2.1 ++ (halfRegs low).1 ++ (halfRegs low).2.1) →
    Alike g (s.core s.cur.core) (halfRegs up).2.2 s.cur.mask lo (halfRegs up).1 [] →
    Alike g (s.core s.cur.core) (halfRegs low).2.2 s.cur.mask lo (halfRegs low).1 [] →
    exec i s = .next (s.commit (
      ((lanesOf s.cur.mask).map fun l => (l, wordsOut (halfOut up
        (g.src (s.core s.cur.core) (from_ (halfRegs up).2.2 lo l))))) ++
      ((lanesOf s.cur.mask).map fun l => (l, wordsOut (halfOut low
        (g.src (s.core s.cur.core) (from_ (halfRegs low).2.2 lo l))))))).next

/-- A pair word with a register of either half outside the window, none pending, takes REG_BOUNDS once,
and neither half writes (R35). -/
def Sys2Proof.Slice0.pairRegBounds : Prop :=
  ∀ (i : Instr) (up low : Half) (s : State) (g : Group) (lo : Nat),
    pairHalves i = some (up, low) → s.curGroup = some g → lowestLane s.cur.mask = some lo →
    let rs := (halfRegs up).1 ++ (halfRegs up).2.1 ++ (halfRegs low).1 ++ (halfRegs low).2.1
    (∀ r ∈ rs, g.regPending r = false) → (∃ r ∈ rs, g.regOk r = false) →
    exec i s = .next (s.takeTrap ⟨.regBounds, lo, 0, 0⟩)

/-- The results of the halves of R33 in a lane: `x` is D and `y` is S. -/
def Sys2Proof.Slice0.halfResults : Prop :=
  ∀ (u : Bool) (d r : Reg) (i : BitVec 8) (n : BitVec 5) (src : Src),
    let x := src.reg d.toNat
    let y := src.reg r.toNat
    let op := fun o => halfOut (.op o u d r) src
    halfOut .nop src = [] ∧ halfOut (.movi8 u d i) src = [(d.toNat, i.signExtend 32)] ∧
    halfOut (.iaddi u d i) src = [(d.toNat, x + i.signExtend 32)] ∧
    halfOut (.shift .shl u d n) src = [(d.toNat, x <<< n.toNat)] ∧
    halfOut (.shift .shr u d n) src = [(d.toNat, x >>> n.toNat)] ∧
    halfOut (.shift .sar u d n) src = [(d.toNat, x.sshiftRight n.toNat)] ∧
    op .mov = [(d.toNat, y)] ∧ op .iadd = [(d.toNat, x + y)] ∧ op .isub = [(d.toNat, x - y)] ∧
    op .imul = [(d.toNat, x * y)] ∧ op .imin = [(d.toNat, if x.sle y then x else y)] ∧
    op .imax = [(d.toNat, if x.sle y then y else x)] ∧ op .and = [(d.toNat, x &&& y)] ∧
    op .or = [(d.toNat, x ||| y)] ∧ op .xor = [(d.toNat, x ^^^ y)] ∧
    op .fneg = [(d.toNat, y ^^^ 0x80000000#32)] ∧ op .fabs = [(d.toNat, y &&& 0x7FFFFFFF#32)]

/-- Pair words: when both halves complete (R34), the one trap of REG_BOUNDS (R35), and what each half
writes (R33, R241). -/
def Obligations.PairForms : Prop := pairCompletes ∧ pairRegBounds ∧ halfResults

/-! ## Decoding, issue and predication -/

/-- Words written out from the spec's encodings decode to the instructions they stand for (R24 to R42 and
the encodings of the owning chapters). -/
def Obligations.DecodeWords : Prop :=
  decode 0x00066141601FFFFB#64 = .ok (.iadd ⟨false, .on true 3⟩ .s32 false 10 11 (.imm 0xFFFFB)) ∧
  decode 0x23000141_6186000D#64 = .ok (.ffma ⟨false, .all⟩ .f32 10 11
    (.reg .rz ⟨true, false⟩ ⟨false, false⟩ ⟨false, false⟩ 12 13)) ∧
  decode 0x4800014000000000#64 = .ok (.ld ⟨false, .all⟩ ⟨false, .glb, .z8, 0⟩ 10 0) ∧
  decode 0x7200000000000000#64 = .ok (.nop .all) ∧
  decode 0x7100000000000000#64 = .ok (.exit .all) ∧
  decode 0x7C00000000000005#64 = .ok (.trap .all 5)

/-- Decode and encode agree: every well-formed instruction, with every operand at every value, has an
encoding, which decodes to it, and a word that decodes is the encoding of a well-formed instruction (R23,
R43). -/
def Obligations.DecodeEncode : Prop :=
  (∀ i : Instr, i.wf = true → (encode i).isSome = true) ∧
  (∀ (i : Instr) (w : DWord), encode i = some w → i.wf = true → decode w = .ok i) ∧
  (∀ (w : DWord) (i : Instr), decode w = .ok i → encode i = some w ∧ i.wf = true)

/-- A step runs the instruction that the word at the group's program counter decodes to. The head of the
agenda names the group; its running threads, none yielded or in a loop buffer, stand at `f` at the
lowest; the word fetched there decodes to `i`. The step is `exec i` for the threads at `f`, the descriptor
and extent caches as the fetch leaves them (R74, R77). With an empty agenda the group that acted last takes
the turn, and a parked group issues its parked instruction again; one that its core's boundary unit works
for does so whatever is pending (R309). An event at the head of the agenda is performed as it stands (R329,
R330; the agenda is the model's own, log entry 1). -/
def Sys2Proof.Slice0.stepRunsDecoded : Prop :=
  (∀ (s : State) (c k : Nat) (g : Group) (f w : DWord) (i : Instr) (r : List Act),
    s.agenda = .issue c k :: r ∨ (s.agenda = [] ∧ r = [] ∧ s.cur.core = c ∧ s.cur.slot = k) →
    let s0 : State := { s.tick with agenda := r }
    let s1 := s0.setGroup c k { g with bufTurn := true }
    let m := lanesWhere fun n => match g.lanes[n]? with | some x => x.st == .run && x.pc == f | none => false
    s.group c k = some g → s0.stopping g.team = false → g.trap = false → g.asyncRec = none →
    g.arrWait = none → g.closing = .none → g.parked = none → (∀ e ∈ g.log, e.st ≠ .ready) →
    (∀ x ∈ g.lanes, x.yielded = false ∧ x.buf = none) →
    leastPc ((g.lanes.filter fun x => x.st == .run).map Lane.pc) = some f →
    s1.fetch c g.ctx f = .word w → decode w = .ok i →
    step s = exec i ((s1.fetched c g.ctx f).turn c k m f w)) ∧
  (∀ (s : State) (c k : Nat) (g : Group) (q : Park) (i : Instr) (r : List Act),
    s.agenda = .issue c k :: r →
    let s0 : State := { s.tick with agenda := r }
    s.group c k = some g → g.parked = some q → decode q.iword = .ok i →
    (∃ b, (s.core c).boundary = some b ∧ b.slot = k) ∨
      (s0.stopping g.team = false ∧ g.trap = false ∧ g.asyncRec = none ∧ g.arrWait = none ∧
        g.closing = .none ∧ ∀ e ∈ g.log, e.st ≠ .ready) →
    step s = exec i (s0.turn c k q.mask q.pc q.iword)) ∧
  (∀ (s : State) (i : Instr) (r : List Act), s.agenda = .event i :: r →
    step s = exec i { s.tick with agenda := r })

/-- A word that is no instruction raises ILLEGAL_OP, and one whose halves break the pairing rules
ILLEGAL_PAIR, at decode and before predication (R43, R44, R34). -/
def Sys2Proof.Slice0.illegalWordTraps : Prop :=
  ∀ (s : State) (w : DWord),
    (decode w = .error .illegalOp → pickWord s w =
      .done (s.takeTrap ⟨.illegalOp, (lowestLane s.cur.mask).getD 0, 0, 0⟩)) ∧
    (decode w = .error .illegalPair → pickWord s w =
      .done (s.takeTrap ⟨.illegalPair, (lowestLane s.cur.mask).getD 0, 0, 0⟩)) ∧
    (w.getLsbD 63 = false → decode w ≠ .error .illegalPair) ∧
    (∀ i, parse w = some i → encode i = some w → i.fieldsOk = true → i.pairingOk = false →
      decode w = .error .illegalPair)

/-- What a step does with a fetched word: it runs the instruction the word decodes to, and traps on a word
that is none (R43, R44, R329, R330; the agenda is the model's own, log entry 1). -/
def Obligations.StepRunsWord : Prop := stepRunsDecoded ∧ illegalWordTraps

/-- The predicate of an instruction that may carry one (R25). -/
def Sys2Proof.Slice0.predOf (i : Instr) : Option Pred :=
  match laneForm i with
  | some f => some f.c.p
  | none =>
    match i with
    | .cvt c _ _ _ _ _ _ | .npack c _ _ _ _ | .scaleq c _ _ _ | .seal c _ _ | .sealRel c _ | .hqry c _ _ _
    | .sread c _ _ | .ld c _ _ _ | .st c _ _ _ | .ldf c _ _ _ _ | .stf c _ _ _ _ | .pref c _ _
    | .atom c _ _ _ _ _ | .atcas c _ _ _ _ | .red c _ _ _ _ | .cadd c _ _ _ | .inkp c _ _ _ _ _
    | .inkrG c _ _ _ _ | .inkrH c _ _ _ _ | .inkc c _ _ _ _ | .bra c _ | .brx c _ | .call c _ _
    | .callInd c _ _ | .ret c _ | .tqry c _ _ => some c.p
    | .swrite p _ _ _ | .view p _ _ | .segset p _ _ _ _ | .rcopy p _ _ _ | .cflush p _ _ | .cinv p _ _ _
    | .cinvNowb p _ _ _ _ | .kick p _ _ | .tlwait p _ _ | .tlread p _ _ | .boinit p _ _ | .boarm p _ _ _
    | .bowait p _ _ | .botest p _ _ _ | .wreq p _ _ _ _ _ | .wqry p _ _ | .wtagSetv p _ _
    | .wtagSetc p _ _ | .wtagReset p _ _ | .wtagWv p _ _ | .wtagWc p _ _ | .wtagRd p _ _ _
    | .mma p _ _ _ _ _ | .mloop p _ _ _ _ _ | .mloops p _ _ _ _ _ | .mzero p _ _ | .mdrain p _ _ _ _
    | .mldacc p _ _ _ | .msyncWait p _ | .msyncMark p _ _ _ | .mstatRd p _ | .mstatClr p
    | .mstatMeta p _ _ | .mstatScale p _ _ | .sacfgCtl p _ _ _ | .sacfgKey p _ _ _ | .sacfgSc p _ _
    | .sacfgLink p _ _ | .sald p _ _ _ _ | .saclamp p _ _ | .saswp p _ _ _ _ | .sardState p _ _ _
    | .sardCnt p _ _ _ | .sardStat p _ _ | .sardMon p _ _ | .exit p | .nop p | .yield p | .barTeam p
    | .barSync p _ _ | .barArrive p _ _ | .phase p _ | .stage p | .monw p _ _ | .waitc p _ _ _ _
    | .spawn p _ _ | .jdec p _ _ _ | .trap p _ | .trapHnd p _ _ | .objsetDesc p _ _ _
    | .objsetExt p _ _ _ | .objinv p _ _ | .objinvAll p _ _ | .xmove p _ _ _ | .quiesceDrain p _ _
    | .quiescePreempt p _ _ | .quiesceResume p _ _ | .gangsw p _ _ _ | .scanrun p _ _ _ | .dieoff p _ _
    | .dieon p _ _ | .cluoff p _ _ | .rpair p _ _ | .rpairDone p _ _ | .eretRetry p _ _ | .eretSkip p _ _
    | .eretDeliver p _ _ | .eretKill p _ _ => some p
    | _ => none

/-- The instructions of R45: SWRITE, SEGSET, every SYS form and ERET. -/
def Sys2Proof.Slice0.privileged : Instr → Bool
  | .swrite .. | .segset .. | .objsetDesc .. | .objsetExt .. | .objinv .. | .objinvAll .. | .xmove ..
  | .quiesceDrain .. | .quiescePreempt .. | .quiesceResume .. | .gangsw .. | .scanrun .. | .dieoff ..
  | .dieon .. | .cluoff .. | .rpair .. | .rpairDone .. | .eretRetry .. | .eretSkip .. | .eretDeliver ..
  | .eretKill .. => true
  | _ => false

/-- An instruction none of whose lanes takes part does nothing but pass: its threads stand at the next
instruction. No operand is checked, nothing waits and no trap is taken (R25, R26). -/
def Sys2Proof.Slice0.nobodyTakesPart : Prop :=
  ∀ (i : Instr) (p : Pred) (s : State) (g : Group),
    predOf i = some p → Nobody s p g → (privileged i = true → g.fw = true) → exec i s = .next s.next

/-- The privileged instructions raise PRIVILEGED in a group, whatever their operands and their predicate,
with no effect (R45). -/
def Sys2Proof.Slice0.privilegedTraps : Prop :=
  ∀ (i : Instr) (s : State) (g : Group),
    privileged i = true → s.curGroup = some g → g.fw = false →
    exec i s = .next (s.takeTrap ⟨.privileged, (lowestLane s.cur.mask).getD 0, 0, 0⟩)

/-- An instruction without a lane only passes (R25, R26), and the privileged ones raise PRIVILEGED in a group
(R45). -/
def Obligations.PredicateAndPrivilege : Prop := nobodyTakesPart ∧ privilegedTraps

/-! ## Format slots, sealing, special registers -/

/-- The operands of an instruction that names a format slot, the slot's index, and whether the word `w`
names a format the instruction can use (R214, R215, R254). -/
def Sys2Proof.Slice0.slotForm (w : Nat → DWord) : Instr → Option (LaneForm × Nat × Bool)
  | .cvt c (.slot n) _ _ dei d a =>
    some (⟨c, if fmtBits (slotFmt (w n.toNat)) < 32 then [a.toNat, d.toNat] else [a.toNat], [], [d.toNat], []⟩,
      n.toNat, cvtSlotOk dei (w n.toNat))
  | .npack c n d a b => some (⟨c, b.toNat :: eight a, [], [d.toNat], []⟩, n.toNat, slotFmt (w n.toNat) == 6)
  | .scaleq c n d a => some (⟨c, eight a, [], [d.toNat], []⟩, n.toNat, slotFmt (w n.toNat) == 6)
  | _ => none

/-- CVT with a slot, NPACK and SCALEQ complete where the slot can be used: each lane taking part writes
its destination, RC rises by one where the slot rounds stochastically (R211), and the threads stand at
the next instruction (R214 to R217, R255). -/
def Sys2Proof.Slice0.slotFormsComplete : Prop :=
  ∀ (i : Instr) (f : LaneForm) (n : Nat) (s : State) (g : Group) (t : LaneMask) (lo : Nat),
    slotForm g.slot i = some (f, n, true) → FormRuns s f g t lo → slotOk (g.slot n) = true →
    ∃ out : Nat → LaneOut,
      exec i s = .next ((wrote s t out).updGroup s.cur.core s.cur.slot fun q =>
        if slotRnd (g.slot n) = 2 then { q with rc := q.rc + 1 } else q) ∧
      (∀ l, (out l).regs.map Prod.fst = f.writes ∧ (out l).preds = []) ∧
      (f.c.u = true → ∀ l, out l = out lo)

/-- An instruction that names a slot whose word has a reserved field set, no format, or a format it cannot
use, raises SEAL_BAD before any lane acts (R214). -/
def Sys2Proof.Slice0.slotSealBad : Prop :=
  ∀ (i : Instr) (f : LaneForm) (n : Nat) (ok : Bool) (s : State) (g : Group) (t : LaneMask) (lo : Nat),
    slotForm g.slot i = some (f, n, ok) → Turn s f.c.p g t lo → Ready g (f.reads ++ f.writes) →
    (slotOk (g.slot n) && ok) = false →
    exec i s = .next (s.takeTrap ⟨.sealBad, lo, 0, 0⟩)

/-- CVT with a slot, NPACK and SCALEQ: when they complete and when they raise SEAL_BAD (R211, R214 to R217). -/
def Obligations.SlotForms : Prop := slotFormsComplete ∧ slotSealBad

/-- SEAL takes the lowest free handles of the core's table for the lanes' records, in ascending order of
lanes, and closes the stage, its checks having filled the descriptor cache; a record that is ill-formed (R219)
raises SEAL_BAD for its lane; SEAL.rel frees the handles it names, each the team's own; HQRY writes the
word the entry gives, zero for none (R220 to R223). -/
def Obligations.SealCompletes : Prop :=
  ∀ (s : State) (g : Group) (t : LaneMask) (lo : Nat) (c : Ctl) (d a : Reg),
    let x := s.core s.cur.core
    let ls := if c.u then [lo] else lanesOf t
    Turn s c.p g t lo → Alike g x c.u t lo [a.toNat] [] →
    (Ready g [a.toNat, d.toNat] → g.cnt.ld < 31 →
      (∀ l ∈ ls, let p := (g.reg x a.toNat l).toNat
        p % 64 = 0 ∧ p + 64 ≤ s.scrSize g.team s.cur.core ∧ s.present s.cur.core g.team p = true) →
      let recs := ls.map fun l => (l, s.recAt s.cur.core g.team (g.reg x a.toNat l).toNat)
      let seen := s.badRec s.cur.core g x.desc recs
      (∀ r, seen.1 = some r → exec (.seal c d a) s = .next ((s.setCore s.cur.core { x with desc := seen.2 }).takeTrap
        ⟨.sealBad, r.1, BitVec.ofNat 64 (g.reg x a.toNat r.1).toNat, 0⟩)) ∧
      (seen.1 = none →
      let got := { x with desc := seen.2 }.sealAll g recs
      let regs := if c.u then (lanesOf t).map fun l => (l, d.toNat, (got.1.head?.map Prod.snd).getD 0)
        else got.1.map fun e => (e.1, d.toNat, e.2)
      exec (.seal c d a) s =
        .next (((s.setCore s.cur.core got.2).putRegs s.cur.core s.cur.slot regs).next.close true))) ∧
    (Ready g [a.toNat] →
      (∀ l ∈ ls, (g.reg x a.toNat l).toNat ≤ 255 ∧
        ∃ h, tabFind x.handles (g.reg x a.toNat l).toNat = some h ∧ h.team = g.team) →
      ∃ y : Core, exec (.sealRel c a) s = .next ((s.setCore s.cur.core y).next.close true) ∧
        { y with handles := x.handles } = x ∧
        (∀ k, tabFind y.handles k =
          if ∃ l ∈ ls, (g.reg x a.toNat l).toNat = k then none else tabFind x.handles k)) ∧
    (∀ sel : BitVec 4, Ready g [a.toNat, d.toNat, d.toNat + 1] →
      let word : Nat → DWord := fun l =>
        let h := (g.reg x a.toNat (from_ c.u lo l)).toNat
        match tabFind x.handles h with
        | none => 0
        | some e => if 255 < h then 0 else if sel.toNat < 8 then recWord e.words sel.toNat
          else if sel = 8 then e.slot else if e.team = g.team then 3 else 1
      exec (.hqry c d a sel) s = .next (s.putRegs s.cur.core s.cur.slot ((lanesOf t).flatMap fun l =>
        [(l, d.toNat, (word l).setWidth 32), (l, d.toNat + 1, (word l >>> 32).setWidth 32)])).next)

/-- SREAD outside deterministic mode completes and gives each lane the register's value: its lane number,
the group's width and slot, the core, cluster and die, the clock and the time, the segment and view
registers (R170, R173). What the core, cluster, die and clock registers read on the Coachman, which is core 256
here, is the model's reading (log entries 6 and 121). -/
def Sys2Proof.Slice0.sreadCompletes : Prop :=
  ∀ (s : State) (g : Group) (t : LaneMask) (lo : Nat) (c : Ctl) (d : Reg) (srn : BitVec 8) (w : Wid),
    Turn s c.p g t lo → srWidth srn = some w → Ready g (regsOf w d) → g.det = false →
    let die := if s.cur.core < 256 then s.cur.core / 64 else 0
    ∃ v : Nat → DWord,
      exec (.sread c d srn) s = .next (s.putRegs s.cur.core s.cur.slot ((lanesOf t).flatMap fun l =>
        let y := v (from_ c.u lo l)
        (l, d.toNat, y.setWidth 32) ::
          (if w = .b64 then [(l, d.toNat + 1, (y >>> 32).setWidth 32)] else []))).next ∧
      (srn = 0x00 → ∀ l, v l = BitVec.ofNat 64 l) ∧ (srn = 0x01 → ∀ l, v l = BitVec.ofNat 64 g.width) ∧
      (srn = 0x02 → ∀ l, v l = BitVec.ofNat 64 s.cur.slot) ∧
      (srn = 0x08 → ∀ l, v l = BitVec.ofNat 64 s.cur.core) ∧
      (srn = 0x09 → ∀ l, v l = BitVec.ofNat 64 (s.cur.core / 4)) ∧
      (srn = 0x0A → ∀ l, v l = BitVec.ofNat 64 die) ∧ (srn = 0x10 → ∀ l, v l = (s.die die).clock) ∧
      (srn = 0x11 → ∀ l, v l = s.gtime) ∧
      (srn = 0x40 → ∀ l, v l = BitVec.ofNat 64 (g.segReg.base.toNat + 2 ^ 32 * g.segReg.size.toNat)) ∧
      (srn = 0x48 → ∀ l, v l = g.views.vec.setWidth 64) ∧ (srn = 0x49 → ∀ l, v l = g.views.tile.setWidth 64) ∧
      (srn = 0x4A → ∀ l, v l = g.views.acc.setWidth 64)

/-- In deterministic mode a register marked PHYS or TIMING reads as zero, and the read sets the named
sticky bit of `sr.detflags`: bit 1 for PHYS, bit 0 for TIMING (R170). -/
def Sys2Proof.Slice0.sreadHidden : Prop :=
  ∀ (s : State) (g : Group) (t : LaneMask) (lo : Nat) (c : Ctl) (d : Reg),
    Turn s c.p g t lo → g.det = true →
    let zero := fun (w : Wid) => (lanesOf t).flatMap fun l =>
      (regsOf w d).map fun r => (l, r, (0 : Word))
    let reads := fun (srn : BitVec 8) (w : Wid) (m : BitVec 2) =>
      Ready g (regsOf w d) → exec (.sread c d srn) s =
        .next ((s.putRegs s.cur.core s.cur.slot (zero w)).next.updGroup s.cur.core s.cur.slot fun q =>
          { q with detSticky := q.detSticky ||| m })
    reads 0x02 .b32 2 ∧ reads 0x08 .b32 2 ∧ reads 0x09 .b32 2 ∧ reads 0x0A .b32 2 ∧ reads 0x0D .b32 2 ∧
    reads 0x10 .b64 1 ∧ reads 0x11 .b64 1 ∧ reads 0x16 .b32 1

/-- SREAD, outside and inside deterministic mode (R170, R173). -/
def Obligations.SreadForms : Prop := sreadCompletes ∧ sreadHidden

/-- SWRITE in firmware writes the core's `sr.clucnt` or `sr.topo`, or the `sr.detflags` bits 1 and 0 or
`sr.dbg` of the group in slot vB[5:0]; a slot without a group takes no write (R174). -/
def Sys2Proof.Slice0.swriteCompletes : Prop :=
  ∀ (s : State) (g : Group) (t : LaneMask) (lo : Nat) (p : Pred) (a b : Reg),
    Turn s p g t lo → g.fw = true → s.cur.core < 256 →
    let x := s.core s.cur.core
    let v := g.reg x a.toNat lo
    let k := (g.reg x b.toNat lo).toNat % 64
    (Ready g [a.toNat] →
      exec (.swrite p .core a 0x0D) s = .next (s.setCore s.cur.core { x with clucnt := v }).next ∧
      exec (.swrite p .core a 0x16) s = .next (s.setCore s.cur.core { x with topo := v }).next) ∧
    (Ready g [a.toNat, b.toNat] →
      (∀ q, s.group s.cur.core k = some q →
        exec (.swrite p (.group b) a 0x13) s =
          .next (s.setGroup s.cur.core k { q with detSticky := v.extractLsb' 0 2 }).next ∧
        exec (.swrite p (.group b) a 0x15) s =
          .next (s.setGroup s.cur.core k { q with dbg := v.getLsbD 0 }).next) ∧
      (s.group s.cur.core k = none → ∀ n, exec (.swrite p (.group b) a n) s = .next s.next))

/-- VIEW writes the view register with 64 times its immediate or with vA[21:0], once no write through the
vector view is outstanding, and closes the stage; an offset that is not a multiple of the view's
alignment raises MISALIGNED (R166, R175). -/
def Sys2Proof.Slice0.viewCompletes : Prop :=
  ∀ (s : State) (g : Group) (t : LaneMask) (lo : Nat) (p : Pred) (k : ViewKind) (o : ViewSrc),
    let x := s.core s.cur.core
    let v := match o with
      | .imm i => 64 * i.toNat
      | .reg a => (g.reg x a.toNat lo).toNat % 2 ^ 22
    let align := match k with | .vec => 4 * g.width | .tile => 2048 | .acc => 16384
    Turn s p g t lo → Ready g (match o with | .reg a => [a.toNat] | .imm _ => []) →
    (v % align = 0 → g.pend = [] →
      exec (.view p k o) s = .next ((s.setGroup s.cur.core s.cur.slot
        { g with views := match k with
          | .vec => { g.views with vec := BitVec.ofNat 32 v }
          | .tile => { g.views with tile := BitVec.ofNat 32 v }
          | .acc => { g.views with acc := BitVec.ofNat 32 v } }).next.close false)) ∧
    (v % align ≠ 0 → exec (.view p k o) s = .next (s.takeTrap ⟨.misaligned, lo, 0, 0⟩))

/-- SEGSET answers in vD: 1 for a slot above 63 or without a group or a bad field, 2 for a target that
may issue, 3 for a row that is neither free nor the target's, and every such answer leaves all else
unchanged; else it writes the segment register, makes every tile EMPTY of which it takes rows from the free
list, frees the target's rows outside the new range and answers 0 (R160, R164, R176). While writes issued to
the target's rows are due an answer 0 waits, which is the model's choice (log entry 138). -/
def Sys2Proof.Slice0.segsetCompletes : Prop :=
  ∀ (s : State) (g : Group) (t : LaneMask) (lo : Nat) (p : Pred) (k : SegKind) (d a b : Reg),
    Turn s p g t lo → g.fw = true → s.cur.core < 256 →
    Ready g [a.toNat, a.toNat + 1, b.toNat, d.toNat] →
    let x := s.core s.cur.core
    let v := pairUp (g.reg x a.toNat lo) (g.reg x (a.toNat + 1) lo)
    let n := (g.reg x b.toNat lo).toNat
    let answer := fun (code : Nat) (u : State) =>
      exec (.segset p k d a b) s = .next (u.putAll t d.toNat (BitVec.ofNat 32 code)).next
    (64 ≤ n ∨ s.group s.cur.core n = none ∨ x.segOk k v = false → answer 1 s) ∧
    (∀ q, n < 64 → s.group s.cur.core n = some q → x.segOk k v = true →
      (q.trap = false → answer 2 s) ∧
      (q.trap = true →
        let base := (v.extractLsb' 0 22).toNat
        let size := (v.extractLsb' 32 22).toNat
        let new := segRows k base size
        let old := match k with
          | .reg => segRows .reg q.segReg.base.toNat q.segReg.size.toNat
          | .mat => segRows .mat q.segMat.base.toNat q.segMat.size.toNat
        ((∃ r ∈ new, x.rowFree r = false ∧ r ∉ old) → answer 3 s) ∧
        let due := (∃ f ∈ q.flight, ∃ p ∈ q.pend, p.id = f.id) ∨ ∃ l ∈ q.streams, l ≠ []
        ((∀ r ∈ new, x.rowFree r = true ∨ r ∈ old) → due → exec (.segset p k d a b) s = .next s) ∧
        ((∀ r ∈ new, x.rowFree r = true ∨ r ∈ old) → ¬ due →
          let seg : Seg := { base := v.extractLsb' 0 22, size := v.extractLsb' 32 22 }
          let q1 := match k with | .reg => { q with segReg := seg } | .mat => { q with segMat := seg }
          let taken := fun (i : Nat) => (new.any fun r => r / 16 == i) && !(old.any fun r => r / 16 == i)
          answer 0 (s.setCore s.cur.core ((old.filter fun r => decide (r ∉ new)).foldl Core.releaseRow
            { x with groups := tabSet x.groups n q1
                     tagV := x.tagV.filter fun i => !taken i
                     tagNC := x.tagNC.filter fun i => !taken i })))))

/-- SWRITE and SEGSET in firmware (R174, R176). -/
def Obligations.FirmwareRegisters : Prop := swriteCompletes ∧ segsetCompletes

/-- RCOPY copies 128 × (X + 1) bytes of the group's window, as read before any is written, once no write
into the rows is outstanding, as an operation of the TL class: at issue some words are written, the others
when its MATRIX_STEP ends it. A start that is not a multiple of 128 raises MISALIGNED, and a byte outside the
window REG_BOUNDS (R39, R177; that the second part is an event on a stream of its own is log entry 55's). -/
def Sys2Proof.Slice0.rcopyCompletes : Prop :=
  (∀ (s : State) (g : Group) (t : LaneMask) (lo : Nat) (p : Pred) (a b : Reg) (rows : BitVec 12),
    Turn s p g t lo → Ready g [a.toNat, b.toNat] → g.cnt.tl < 31 →
    let x := s.core s.cur.core
    let src := (g.reg x a.toNat lo).toNat
    let dst := (g.reg x b.toNat lo).toNat
    let n := rows.toNat + 1
    (src % 128 ≠ 0 ∨ dst % 128 ≠ 0 →
      exec (.rcopy p a b rows) s = .next (s.takeTrap ⟨.misaligned, lo, 0, 0⟩)) ∧
    (src % 128 = 0 → dst % 128 = 0 → (g.inWindow src (128 * n) && g.inWindow dst (128 * n)) = false →
      exec (.rcopy p a b rows) s = .next (s.takeTrap ⟨.regBounds, lo, 0, 0⟩)) ∧
    (src % 128 = 0 → dst % 128 = 0 → g.inWindow src (128 * n) = true → g.inWindow dst (128 * n) = true →
      g.writesTo [(src, src + 128 * n), (dst, dst + 128 * n)] = false →
      (∀ i < n, g.rowQuiet x (src + 128 * i) = true ∧ g.rowQuiet x (dst + 128 * i) = true) →
      let ws : List RowWrite := (List.range n).map fun i =>
        { row := dst / 128 + i, data := BitVec.ofNat 1024 (g.winNat x (src + 128 * i) 128)
          left := BitVec.allOnes 128, full := BitVec.allOnes 128 }
      let first := firstWords s.steps
      let rest := ws.zipIdx.map fun e => { e.1 with left := e.1.left &&& ~~~first e.2 }
      exec (.rcopy p a b rows) s = .next ((s.writeRows s.cur.core s.cur.slot ws first).updGroup s.cur.core
        s.cur.slot fun q => { q with
          streams := listUpd (fun l => l ++ [{ kind := .rest rest [] none, acc := 0, seq := s.steps
                                               pc := s.cur.pc, iword := s.cur.iword, lane := lo
                                               views := q.views }]) q.streams 4
          cnt := { q.cnt with tl := q.cnt.tl + 1 } }).next)) ∧
  (∀ (u : State) (c k : Nat) (q : Group) (o : MOp) (l : List MOp) (ws : List RowWrite),
    u.group c k = some q → q.streams[4]? = some (o :: l) → o.kind = .rest ws [] none →
    exec (.matrixStep c k 4) u = .next ((((u.writeRows c k ws fun _ => BitVec.allOnes 128).cleanRows c k
      ws).updGroup c k fun q => { q with
        streams := listUpd (fun l => l.drop 1) q.streams 4
        cnt := { q.cnt with tl := q.cnt.tl - 1 } }).settleCluster c))

/-- VIEW and RCOPY (R175, R177). -/
def Obligations.WindowForms : Prop := viewCompletes ∧ rcopyCompletes

/-! ## Loads and stores -/

/-- A global load or store whose checks fail takes the trap of the first access that fails, in the order
of R183: OBJ_BOUNDS for a carry out of the offset, MISALIGNED, the check of R74, HOME_OFFLINE; the caches
keep what the check met. Where an extent is absent the operation enters the operand log with its operands,
its count and its pending registers, and a fault record goes to the Coachman; with four entries held the
group stalls at the instruction, and takes the next entry freed whether or not the extent has become present
meanwhile (R74, R77 to R79). -/
def Sys2Proof.Slice0.globalRefusedOrLogged : Prop :=
  ∀ (i : Instr) (f : MemForm) (s : State) (g : Group) (t : LaneMask) (lo : Nat),
    memForm g (s.core s.cur.core) t lo i = some f → MemRuns s f g t lo → f.space = .glb →
    scribesOwn s.cur.core g.fw f.cands = false →
    let r := s.checkGlb s.cur.core g.ctx f.req.size.bytes (if f.store then needStore else needLoad)
      f.cands
    let entry := fun (st : LogState) => g.log ++ [({ op := { flightOf s g f (ptrElems f.cands) with logged := true }
                                                     st := st } : LogEntry)]
    (g.logStall = none →
      (∀ e, r.1 = .error e → exec i s = .next (r.2.takeTrap e)) ∧
      (∀ hs on ext, r.1 = .ok (hs, some (on, ext)) →
        (4 ≤ g.log.length → exec i s = .next (r.2.park.updGroup s.cur.core s.cur.slot fun q =>
          { q with logStall := some (on, ext) })) ∧
        (g.log.length < 4 → exec i s = .next (((r.2.setGroup s.cur.core s.cur.slot
          { g.track g.nextId f.cls f.dests with log := entry (.waiting on ext) }).next).fault
            { ctx := g.ctx, on := on, ext := ext, who := .log s.cur.core s.cur.slot })))) ∧
    (∀ on ext, g.logStall = some (on, ext) →
      (4 ≤ g.log.length → exec i s = .next s.park) ∧
      (g.log.length < 4 → ∃ u q, exec i s = .next u ∧ u.group s.cur.core s.cur.slot = some q ∧
        q.logStall = none ∧ q.log = entry (if extP (extEntry s (fetchDesc s s.cur.core g.ctx on) ext) = true
          then .ready else .waiting on ext)))

/-- LD and LDF of global memory complete. The lines of commutative objects are combined at their homes and
read there; a line whose every byte that the load needs the core's L1 holds is read there and read-marked.
Where all are held the registers are written and the threads stand at the next instruction; else a fill is
requested for each line not yet on its way, all of the line's accesses waiting for it, the destinations are
pending and the LD counter is one higher (R98, R184, R188, R302; that a commutative object is read at issue
is log entry 8's choice). -/
def Obligations.GlobalLoadCompletes : Prop :=
  ∀ (i : Instr) (f : MemForm) (s s1 s2 : State) (g : Group) (t : LaneMask) (lo : Nat) (hs : List Hit),
    memForm g (s.core s.cur.core) t lo i = some f → MemRuns s f g t lo → f.space = .glb →
    f.store = false → scribesOwn s.cur.core g.fw f.cands = false → g.logStall = none →
    s.checkGlb s.cur.core g.ctx f.req.size.bytes needLoad f.cands = (.ok (hs, none), s1) →
    g.behindLog g.nextId f.req.size.bytes (hs.map Hit.e) = false →
    Recorded (s.actor g) g false f.req.size.bytes hs s1 s2 →
    let c := s.cur.core
    let n := f.req.size.bytes
    let comm := hs.filter fun h => h.d.type == some .comm
    let plain := hs.filter fun h => !(h.d.type == some .comm)
    let u := comm.foldl (fun (s : State) h =>
      ((s.atHome (h.e.pa / 128)).combine (h.e.pa / 128)).readSector (h.e.pa / 32)) s2
    let inL1 := fun (h : Hit) => (u.core c).holds (h.e.pa / 128) (maskOf (h.e.pa % 128) n)
    let lost := fun (h : Hit) => plain.any fun k => k.e.pa / 128 == h.e.pa / 128 && !inL1 k
    let held := plain.filter fun h => !lost h
    let clean := fun (h : Hit) => match (u.core c).copy (h.e.pa / 128) with
      | some q => q.poison.getLsbD (h.e.pa % 128 / 32) = false
      | none => True
    let bytes := fun (h : Hit) => match (u.core c).copy (h.e.pa / 128) with
      | some q => f.req.outs h.e (lineNat q.data (h.e.pa % 128) n)
      | none => []
    (∀ h ∈ comm, s2.homeReady (h.e.pa / 128) = true ∧ s2.combineBad (h.e.pa / 128) = none ∧
      s2.behind (dieOf c, lineDie (h.e.pa / 128)) (s2.steps + 1) = false ∧ u.poisoned h.e.pa n = false) →
    (∀ h ∈ held, clean h) →
    let v := (u.updCore c fun x => held.foldl (fun x h =>
        x.updCopy (h.e.pa / 128) fun q => { q with mark := true }) x).putRegs c s.cur.slot
      ((comm.flatMap fun h => f.req.outs h.e (memNat u.mem h.e.pa n)) ++ held.flatMap bytes)
    ((∀ h ∈ plain, lost h = false) → exec i s = .next v.next) ∧
    ((∃ h ∈ plain, lost h = true) →
      let miss := plain.filter lost
      let lines := (dedup (miss.map fun h => h.e.pa / 128)).filter fun l =>
        !(v.fills.any fun q => q.core == c && q.line == l && !q.l2)
      let news : List FillReq := lines.map fun l =>
        { core := c, line := l, low := f.req.nt, l2 := false,
          host := miss.any fun h => h.e.pa / 128 == l && extBias h.ext, go := none, sent := s.steps }
      let w : State := { v with fills := v.fills ++ news }
      exec i s = .next (w.updGroup c s.cur.slot fun q => { q.track g.nextId .ld f.dests with
        flight := q.flight ++ [flightOf s g f (miss.map Hit.e)] }).next)

/-- ST and STF of global memory complete: line after line, ascending lanes and elements overlaid in
order, the bytes go into the core's L1 and are dirty there; non-temporal ones leave for home in messages
of their own. A deterministic group's accesses are recorded, again after a capacity point of the store's own
(R407). Where a line finds no way the core takes its capacity point, once it can, and the store waits (R184,
R185, R187, R191, R302; the wait is log entry 106's choice). -/
def Sys2Proof.Slice0.globalStoreCompletes : Prop :=
  ∀ (i : Instr) (f : MemForm) (s s1 s2 : State) (g : Group) (t : LaneMask) (lo : Nat) (hs : List Hit),
    memForm g (s.core s.cur.core) t lo i = some f → MemRuns s f g t lo → f.space = .glb →
    f.store = true → scribesOwn s.cur.core g.fw f.cands = false → g.logStall = none →
    s.checkGlb s.cur.core g.ctx f.req.size.bytes needStore f.cands = (.ok (hs, none), s1) →
    g.behindLog g.nextId f.req.size.bytes (hs.map Hit.e) = false →
    Recorded (s.actor g) g true f.req.size.bytes hs s1 s2 →
    let n := f.req.size.bytes
    let lines := dedup (hs.map fun h => h.e.pa / 128)
    let put := fun l => lineOf n l (hs.map Hit.e)
    let host := fun l => hs.any fun h => h.e.pa / 128 == l && extBias h.ext
    let ends := fun (u : State) => exec i s = .next (u.redetGlb s.cur.core g true n (hs.map Hit.e)).next
    (f.req.nt = true → ends (lines.foldl (fun (u : State) l =>
      u.storeNtTo (host l) s.cur.core g.ctx l (put l).1 (put l).2) s1)) ∧
    (f.req.nt = false →
      (∀ u, s1.storeLines s.cur.core n hs lines = .ok u → ends u) ∧
      (∀ l, s1.storeLines s.cur.core n hs lines = .error l →
        (s1.canPublish s.cur.core = true →
          exec i s = .next (s1.capacity s.cur.core (lineSet8 l))) ∧
        (s1.canPublish s.cur.core = false → exec i s = .next s)) ∧
      ((∀ l ∈ lines, ((s1.core s.cur.core).copy l).isSome = true) →
        ends (s1.setCore s.cur.core (lines.foldl (fun (x : Core) l =>
          x.updCopy l fun q => { q with
            data := blend q.data (put l).1 (put l).2, valid := q.valid ||| (put l).2
            dirty := q.dirty ||| (put l).2, poison := clearWhole (put l).2 q.poison })
          (s1.core s.cur.core)))))

/-- What a store of global memory whose lines the core's L1 holds leaves alone: device memory, every
other core, every team and context; in the core's L1 it changes only copies of the lines stored to, and of
these only the bytes stored (R184, R187). -/
def Sys2Proof.Slice0.globalStoreFrame : Prop :=
  ∀ (i : Instr) (f : MemForm) (s s1 u : State) (g : Group) (t : LaneMask) (lo : Nat) (hs : List Hit),
    memForm g (s.core s.cur.core) t lo i = some f → MemRuns s f g t lo → f.space = .glb →
    f.store = true → f.req.nt = false → g.det = false → scribesOwn s.cur.core g.fw f.cands = false →
    s.checkGlb s.cur.core g.ctx f.req.size.bytes needStore f.cands = (.ok (hs, none), s1) →
    (∀ h ∈ hs, ((s.core s.cur.core).copy (h.e.pa / 128)).isSome = true) →
    exec i s = .next u →
    u.mem = s.mem ∧ u.ctxs = s.ctxs ∧ u.teams = s.teams ∧ u.dir = s.dir ∧
    (∀ c, c ≠ s.cur.core → u.core c = s.core c) ∧
    (∀ k, k ≠ s.cur.slot → u.group s.cur.core k = s.group s.cur.core k) ∧
    (∀ key, (u.core s.cur.core).row key = (s.core s.cur.core).row key) ∧
    (∀ l q, (s.core s.cur.core).copy l = some q → ∃ q', (u.core s.cur.core).copy l = some q' ∧
      ∀ b, b < 128 → (∀ h ∈ hs, ¬ (h.e.pa ≤ 128 * l + b ∧ 128 * l + b < h.e.pa + f.req.size.bytes)) →
        lineByte q'.data b = lineByte q.data b)

/-- Global stores: when they complete, and what they leave alone (R183, R302, R313). -/
def Obligations.GlobalStores : Prop := globalStoreCompletes ∧ globalStoreFrame

/-- Loads and stores of SCR and CLU: an access outside the team's scratchpad raises SEG_LIMIT, a
misaligned one MISALIGNED, one whose presence bit is clear parks the group; else the loads write their
registers and the stores their bytes, the lowest lane first (R131, R179, R180, R183, R186). -/
def Sys2Proof.Slice0.scratchCompletes : Prop :=
  ∀ (i : Instr) (f : MemForm) (s : State) (g : Group) (t : LaneMask) (lo : Nat),
    memForm g (s.core s.cur.core) t lo i = some f → MemRuns s f g t lo → f.space = .scr ∨ f.space = .clu →
    g.logStall = none →
    let c := s.cur.core
    let n := f.req.size.bytes
    let placed := s.spots c g.team (f.space == .clu) n f.elems
    (∀ e, placed = .error e → exec i s = .next (s.takeTrap e)) ∧
    (∀ ps, placed = .ok ps → (∃ p ∈ ps, s.present p.2.1 p.2.2.1 p.2.2.2 = false) →
      exec i s = .next s.park) ∧
    (∀ ps u, placed = .ok ps → (∀ p ∈ ps, s.present p.2.1 p.2.2.1 p.2.2.2 = true) →
      (g.det = false → u = s) → (g.det = true → s.detScr g.sigName f.store n ps = .ok u) →
      (f.store = true → exec i s = .next (ps.foldl (fun (v : State) p =>
        v.storeScr c s.cur.slot p.2.1 p.2.2.1 p.2.2.2 (bytesOfNat n p.1.data.toNat)) u).next) ∧
      (f.store = false → (∀ p ∈ ps, s.scrBad p.2.1 p.2.2.1 p.2.2.2 n = none) →
        exec i s = .next (u.putRegs c s.cur.slot (ps.flatMap fun p =>
          f.req.outs p.1 (u.scrNat p.2.1 p.2.2.1 p.2.2.2 n))).next))

/-- A misaligned or out-of-range access names its lane: the first element at a place that is not a
multiple of the access size takes MISALIGNED, before any later element is looked at (R182, R183). -/
def Sys2Proof.Slice0.firstAccessDecides : Prop :=
  ∀ (s : State) (core team n : Nat) (clu : Bool) (e : Elem) (r : List Elem),
    (e.ptr.toNat % n ≠ 0 → s.spots core team clu n (e :: r) = .error ⟨.misaligned, e.lane, e.ptr, 0⟩) ∧
    (e.ptr.toNat % n = 0 → clu = false → s.scrSize team core < e.ptr.toNat + n →
      s.spots core team clu n (e :: r) = .error ⟨.segLimit, e.lane, e.ptr, 0⟩)

/-- A global access that its checks refuse traps, one that meets an absent extent is logged, and the first
access decides which (R74, R78). -/
def Obligations.GlobalTurnedAway : Prop := globalRefusedOrLogged ∧ firstAccessDecides

/-- LD and ST of a FIFO queue complete whole or park: every lane's entry is pushed or popped in ascending order
of lanes where the queues have room or entries for all of them, and the stage closes; an access that breaks the
protocol, on the queues as the lanes before it leave them, raises FIFO_PROTOCOL and changes nothing (R157,
R158). -/
def Sys2Proof.Slice0.fifoCompletes : Prop :=
  ∀ (s : State) (g : Group) (t : LaneMask) (lo : Nat) (c : Ctl) (m : MemOp) (d a : Reg) (store : Bool),
    let x := s.core s.cur.core
    let f := plainMem c m store d a g x t lo
    let i : Instr := if store then .st c m a d else .ld c m d a
    let as := f.elems.map fun e => (⟨e.lane, e.ptr.toNat, e.data.toNat⟩ : FAcc)
    m.space = .fifo → MemRuns s f g t lo →
    (∀ q, x.firstBad m.size store as as = some q →
      exec i s = .next (s.takeTrap ⟨.fifoProtocol, q.lane, BitVec.ofNat 64 q.addr, 0⟩)) ∧
    (x.firstBad m.size store as as = none →
      (store = true → x.fifoSts as = none → exec i s = .next s.park) ∧
      (store = false → x.fifoLds as = none → exec i s = .next s.park) ∧
      (∀ y, store = true → x.fifoSts as = some y →
        exec i s = .next ((s.setCore s.cur.core y).next.close true)) ∧
      (∀ vs y, store = false → x.fifoLds as = some (vs, y) →
        exec i s = .next (((s.setCore s.cur.core y).putRegs s.cur.core s.cur.slot
          (vs.flatMap fun v => f.req.outs (addrElem 0 v.1 0 0) v.2)).next.close true)))

/-- Loads and stores of scratchpad, cluster scratchpad and FIFO queues (R179, R180, R187 to R189). -/
def Obligations.LocalSpaces : Prop := scratchCompletes ∧ fifoCompletes

/-! ## Atomics, commutative addition, ink -/

/-- ATOM, ATCAS and RED of global memory leave as one request for each address, with its lanes in
ascending order; the group counts the operation and its stage closes. A failed check traps as R183 says,
an absent extent puts the operation into the operand log, and one on bytes of a logged operation waits for
that one's replay (R78, R81, R196, R198, R199). -/
def Sys2Proof.Slice0.atomicIssues : Prop :=
  ∀ (i : Instr) (f : MemForm) (s : State) (g : Group) (t : LaneMask) (lo : Nat),
    atomForm g (s.core s.cur.core) t lo i = some f → MemRuns s f g t lo → f.space = .glb →
    g.logStall = none →
    let r := s.checkGlb s.cur.core g.ctx f.req.size.bytes needAtomic f.cands
    (∀ e, r.1 = .error e → exec i s = .next (r.2.takeTrap e)) ∧
    (∀ hs on ext, r.1 = .ok (hs, some (on, ext)) → g.log.length < 4 →
      exec i s = .next (((inLog r.2 g f (ptrElems f.cands) on ext).close false).fault (logFault s g on ext))) ∧
    (∀ hs, r.1 = .ok (hs, none) → g.behindLog g.nextId f.req.size.bytes (hs.map Hit.e) = false →
      let reqs : List AtomReq := (dedup (hs.map fun h => h.e.pa)).map fun pa =>
        { core := s.cur.core, slot := s.cur.slot, gid := g.team, flight := g.nextId, kind := f.req.kind
          wid := if f.req.size = .b64 then .b64 else .b32, pa := pa
          lanes := (hs.filter fun h => h.e.pa == pa).map Hit.e
          apl := match hs.find? fun h => h.e.pa == pa with | some h => extApl h.ext | none => 0
          go := false, sent := s.steps }
      exec i s = .next ((leaves s g f (hs.map Hit.e) { r.2 with atoms := r.2.atoms ++ reqs }).close false))

/-- An atomic of SCR or CLU is performed at its bank, address by address, and its stage closes; it parks
while a presence bit is clear (R131, R199). -/
def Sys2Proof.Slice0.atomicScratch : Prop :=
  ∀ (i : Instr) (f : MemForm) (s : State) (g : Group) (t : LaneMask) (lo : Nat),
    atomForm g (s.core s.cur.core) t lo i = some f → MemRuns s f g t lo → f.space = .scr ∨ f.space = .clu →
    g.logStall = none →
    let placed := s.spots s.cur.core g.team (f.space == .clu) f.req.size.bytes f.elems
    (∀ e, placed = .error e → exec i s = .next (s.takeTrap e)) ∧
    (∀ ps, placed = .ok ps → (∃ p ∈ ps, s.present p.2.1 p.2.2.1 p.2.2.2 = false) →
      exec i s = .next s.park) ∧
    (∀ ps, placed = .ok ps → (∀ p ∈ ps, s.present p.2.1 p.2.2.1 p.2.2.2 = true ∧
        s.scrBad p.2.1 p.2.2.1 p.2.2.2 f.req.size.bytes = none) →
      exec i s = .next ((s.scrSets (s.actor g) f.req ps (ps.map Prod.snd).eraseDups).next.close true))

/-- ATOM, ATCAS and RED on global memory and on scratchpad (R196 to R199). -/
def Obligations.AtomicForms : Prop := atomicIssues ∧ atomicScratch

/-- The lanes of one address act in ascending order, each on the value the lane before it left: the first
lane receives the value that stood there, and the end value is the last lane's. `.add` wraps, `.exch`
takes the operand, ATCAS stores only where the value equals the compared one (R197, R198). -/
def Sys2Proof.Slice0.atomicValues : Prop :=
  (∀ (o : AOp) (n a : Nat) (e : Elem) (r : List Elem), o ≠ .fadd →
    let v := aopApply o n a (e.data.toNat % 2 ^ n)
    let q := (MemKind.atom o).perform n v r
    (MemKind.atom o).perform n a (e :: r) = ((e, a) :: q.1, q.2)) ∧
  (∀ (n a : Nat) (e : Elem),
    (MemKind.atcas.perform n a [e]).2 = if a = e.cmp.toNat % 2 ^ n then e.data.toNat % 2 ^ n else a) ∧
  (∀ n a v, aopApply .add n a v = (a + v) % 2 ^ n ∧ aopApply .exch n a v = v ∧
    aopApply .umin n a v = min a v ∧ aopApply .umax n a v = max a v)

/-- A global atomic's request that meets no die out of service is performed at its home in one step once no
earlier request of its core to the address, none sent before it on its ring channel (R6) and no publication
holds it up: the end value stands in memory, every other byte is as it was. Each lane of ATOM and ATCAS, in
the registers of its element, receives the value that stood before its turn, RED writes none, and the waiting
operation waits for the addresses that are left (R198, R304). -/
def Sys2Proof.Slice0.atomicPerformed : Prop :=
  ∀ (s : State) (n : Nat) (q : AtomReq), s.atoms[n]? = some q →
    (∀ v ∈ s.atoms.take n, ¬ (v.core = q.core ∧ v.pa = q.pa)) → s.homeReady (q.pa / 128) = true →
    s.behind q.route q.sent = false →
    (q.apl = 2 → q.go = true) → s.poisoned q.pa (q.wid.bits / 8) = false →
    (q.route.1 = q.route.2 ∨ q.here = true ∨ (s.die q.route.2).out = false) →
    let n8 := q.wid.bits / 8
    let r := q.kind.perform q.wid.bits (memNat s.mem q.pa n8) q.lanes
    let v : State := (((({ s with atoms := listDrop1 s.atoms n }.reachedBy q.route q.sent).atHome
      (q.pa / 128)).readSector (sectorOf q.pa)).putHome q.pa (bytesOfNat n8 r.2)).updTeam q.gid fun t =>
        { t with committed := true }
    let old := fun (f : Flight) => v.putRegs q.core q.slot (r.1.flatMap fun e =>
      (if f.req.u then lanesOf f.req.lanes else [e.1.lane]).flatMap fun l =>
        (f.req.size.words e.2).zipIdx.map fun w => (l, f.req.dest + f.req.size.regs * e.1.j + w.2, w.1))
    let ends := fun (u : State) => exec (.atomicRequest n) s =
      .next (u.arrived q.core q.slot q.flight fun e => e.pa == q.pa)
    (∀ u, exec (.atomicRequest n) s = .next u →
      u.atoms.map (fun a => { a with here := false }) =
        (listDrop1 s.atoms n).map (fun a => { a with here := false }) ∧
      (∀ a, a < q.pa ∨ q.pa + n8 ≤ a → memRead u.mem a = memRead s.mem a) ∧
      memNat u.mem q.pa n8 = r.2 % 2 ^ q.wid.bits) ∧
    (∀ g f, v.group q.core q.slot = some g → g.team = q.gid →
      g.flight.find? (fun f => f.id == q.flight) = some f →
      ((∃ o, q.kind = .atom o) ∨ q.kind = .atcas → ends (old f)) ∧
      ((∃ o, q.kind = .red o) → ends v)) ∧
    ((∀ g, v.group q.core q.slot = some g → g.team = q.gid →
      g.flight.find? (fun f => f.id == q.flight) = none) → exec (.atomicRequest n) s = .next v)

/-- The values of the atomic operations and their step at home (R197, R198, R304). -/
def Obligations.AtomicsAtHome : Prop := atomicValues ∧ atomicPerformed

/-- CADD places each element's lane sum in the core's open partial of its line, one element after
another, and closes the stage; where a partial line finds no way the core takes its capacity point and CADD
waits (the wait is the model's choice, log entry 105). The checks of R202 trap in their order, and an absent
extent puts it into the operand log (R97, R202). -/
def Obligations.CaddCompletes : Prop :=
  ∀ (s : State) (g : Group) (t : LaneMask) (lo : Nat) (c : Ctl) (a b : Reg) (ofs : BitVec 18),
    let x := s.core s.cur.core
    let f := caddForm c a b ofs g x t lo
    let i : Instr := .cadd c a b ofs
    let q := s.caddAdmit s.cur.core g.ctx x.desc f.cands
    let s0 := s.setDesc s.cur.core q.2
    MemRuns s f g t lo → g.logStall = none →
    (∀ e, q.1 = .error e → exec i s = .next (s0.takeTrap e)) ∧
    (∀ l, q.1 = .ok l →
      let s1 := s0.extentsMet s.cur.core g.ctx l
      (∀ e, s0.reach s.cur.core g.ctx l = .error e → exec i s = .next (s1.takeTrap e)) ∧
      (∀ hs on ext, s0.reach s.cur.core g.ctx l = .ok (hs, some (on, ext)) → g.log.length < 4 →
        exec i s = .next
          (((inLog s1 g f (ptrElems f.cands) on ext).close false).fault (logFault s g on ext))) ∧
      (∀ hs, s0.reach s.cur.core g.ctx l = .ok (hs, none) →
        g.behindLog g.nextId 4 (hs.map Hit.e) = false →
        let sums := s1.caddAll s.cur.core hs (dedup (hs.map fun h => h.e.pa))
        (∀ n, sums = .error n →
          (s1.canPublish s.cur.core = true → exec i s = .next (s1.capacity s.cur.core (lineSet8 n))) ∧
          (s1.canPublish s.cur.core = false → exec i s = .next s)) ∧
        (∀ v, sums = .ok v → exec i s = .next (v.next.close true))))

/-- INKP, INKR and INKC leave as one request for each cell, built from its lowest lane; the group counts
the operation in the LD class and its four destinations are pending; a stage closes after INKP and INKC.
A pointer that is not a multiple of 16 or fails the check of R74 traps; an absent extent puts the
operation into the operand log, an INKR.g too whose copy is held (log entry 104's choice); one whose cell an
earlier request of the group to another device or a logged operation names waits for it (R78, R81, R109, R111,
R119 to R121; that it is not sent till then is log entry 119's reading). -/
def Obligations.InkIssues : Prop :=
  ∀ (i : Instr) (op : InkOp) (f : MemForm) (ks : List InkCand) (s : State) (g : Group) (t : LaneMask)
    (lo : Nat),
    inkForm g (s.core s.cur.core) t lo i = some (op, f, ks) → MemRuns s f g t lo → g.logStall = none →
    let c := s.cur.core
    let closed := fun (u : State) => if op = .propose ∨ op = .recycle then u.close false else u
    let q := s.inkAdmit c g.ctx op (s.core c).desc ks
    let s0 := s.setDesc c q.2
    (∀ e, q.1 = .error e → exec i s = .next (s0.takeTrap e)) ∧
    (∀ l es, q.1 = .ok l → s0.inkReach c g.ctx l = (es, none) →
      g.behindLog g.nextId 16 es = false →
      (∀ w ∈ s.inkWait, w.core = c → w.slot = s.cur.slot → ∀ e ∈ es, ¬ (w.dev = e.dev ∧ w.msg.ptr = e.ptr)) →
      exec i s = .next (closed (leaves s g f es
        ((inkMerge es).foldl (fun u r => u.inkSend (s.actor g) g op (((es.map Elem.lane).min?).getD 0) r)
          (s0.inkMet c g.ctx l))))) ∧
    (∀ l es on ext, q.1 = .ok l → s0.inkReach c g.ctx l = (es, some (on, ext)) → g.log.length < 4 →
      exec i s = .next ((closed (inLog (s0.inkMet c g.ctx l) g f
        (ks.filterMap fun k => k.1.ptr.map fun p => { k.1.elem p with dev := k.2 }) on ext)).fault
        (logFault s g on ext)))

/-- The home's step on a cell that is BLANK or DRY (R112), the whole table: a proposal of the cell's
generation decides a BLANK cell, whose word then names the winner, and no later proposal changes a DRY one;
a read changes nothing; a recycling of the decided generation makes the cell BLANK under the next one. -/
def Obligations.InkDecidesOnce : Prop :=
  ∀ (w0 w1 : DWord) (gen val dev core slot : Nat),
    let g := inkGen w1
    let acts := fun (op : InkOp) => inkStep op w0 w1 gen val dev core slot
    (inkState w1 = 0 ∨ inkState w1 = 1) → dev < 2 ^ 14 → core < 2 ^ 8 → slot < 2 ^ 6 →
    (inkState w1 = 0 → gen = g → ∃ v1, acts .propose = (0, BitVec.ofNat 64 val, v1) ∧
      inkState v1 = 1 ∧ inkGen v1 = g ∧ (v1.extractLsb' 18 14).toNat = dev ∧
      (v1.extractLsb' 10 8).toNat = core ∧ (v1.extractLsb' 4 6).toNat = slot) ∧
    (inkState w1 = 1 → gen = g → acts .propose = (1, w0, w1)) ∧
    (gen ≠ g → acts .propose = (2, w0, w1)) ∧
    acts .readHome = (0, w0, w1) ∧
    (inkState w1 = 1 → gen = g → acts .readGen = (1, w0, w1)) ∧
    (inkState w1 = 0 → gen = g → acts .readGen = (2, w0, w1)) ∧
    (g < gen → acts .readGen = (2, w0, w1)) ∧ (gen < g → acts .readGen = (3, w0, w1)) ∧
    (inkState w1 = 1 → gen = g → g < 2 ^ 30 - 1 →
      ∃ v1 : DWord, acts .recycle = (0, 0, v1) ∧ inkState v1 = 0 ∧ inkGen v1 = g + 1 ∧ v1.extractLsb' 0 32 = 0) ∧
    (inkState w1 = 1 → gen = g → g = 2 ^ 30 - 1 → acts .recycle = (5, w0, w1)) ∧
    (¬ (inkState w1 = 1 ∧ gen = g) → acts .recycle = (2, w0, w1))

/-! ## Copies in the caches -/

/-- PREF requests a fill for every line its lanes name that the core's L1 does not hold, that is not
poisoned and not on its way (to L1, or for .nt to L1 or L2), and waits for none; absent extents are passed
over; the caches keep what the checks met (R74, R77, R83, R192). -/
def Sys2Proof.Slice0.prefCompletes : Prop :=
  ∀ (s : State) (g : Group) (t : LaneMask) (lo : Nat) (c : Ctl) (m : MemOp) (a : Reg),
    let k := s.cur.core
    let x := s.core k
    let ks := (if c.u then [lo] else lanesOf t).map fun l => glbCand (g.pair x a.toNat l) m.ofs.toInt l 0 0
    let q := s.admitHits k g.ctx m.size.bytes needLoad x.desc ks
    let s0 := s.setDesc k q.2
    Turn s c.p g t lo → Ready g [a.toNat, a.toNat + 1] → Alike g x c.u t lo [a.toNat, a.toNat + 1] [] →
    scribesOwn k g.fw ks = false →
    (∀ e, q.1 = .error e → exec (.pref c m a) s = .next (s0.takeTrap e)) ∧
    (∀ l hs ab, q.1 = .ok l → s0.reach k g.ctx l = .ok (hs, ab) →
      let u := s0.extentsMet k g.ctx l
      let lines := (dedup (hs.map fun h => h.e.pa / 128)).filter fun n =>
        ((u.core k).copy n).isNone && !u.poisoned (128 * n) 128 &&
        !(u.fills.any fun f => f.core == k && f.line == n && (m.nt || !f.l2))
      let news : List FillReq := lines.map fun n =>
        { core := k, line := n, low := false, l2 := m.nt
          host := hs.any fun h => h.e.pa / 128 == n && extBias h.ext, go := none, sent := s.steps }
      exec (.pref c m a) s = .next (State.next { u with fills := u.fills ++ news }))

/-- CFLUSH sends home the dirty words of the lines its lanes name, as an operation of the ST class that
completes with the last commit; nothing dirty leaves nothing to wait for, and with .nt the copies then go
(R193, R94). -/
def Sys2Proof.Slice0.cflushCompletes : Prop :=
  ∀ (s : State) (g : Group) (t : LaneMask) (lo : Nat) (p : Pred) (m : MemOp) (a : Reg)
    (l : List (Elem × Desc)) (hs : List Hit) (ab : Option (Nat × Nat)),
    let k := s.cur.core
    let x := s.core k
    let ks := (lanesOf t).map fun l => glbCand (g.pair x a.toNat l) m.ofs.toInt l 0 0
    let q := s.admitHits k g.ctx m.size.bytes needAny x.desc ks
    let s0 := s.setDesc k q.2
    Turn s p g t lo → Ready g [a.toNat, a.toNat + 1] → g.cnt.st < 31 → scribesOwn k g.fw ks = false →
    (∀ e, q.1 = .error e → exec (.cflush p m a) s = .next (s0.takeTrap e)) ∧
    (q.1 = .ok l → s0.reach k g.ctx l = .ok (hs, ab) →
      let lines := dedup (hs.map fun h => h.e.pa / 128)
      let drops := if m.nt then lines else []
      let r := sentBack (s0.extentsMet k g.ctx l) g.ctx fun c => lines.contains c.line
      (r.2 = [] → exec (.cflush p m a) s = .next (drops.foldl (fun u l => u.dropCopy k l) r.1).next) ∧
      (r.2 ≠ [] → exec (.cflush p m a) s = .next (goesBack s g t 0 false r drops)))

/-- CINV and CINV.nowb of no bytes do nothing; a refused check traps, OBJ_BOUNDS of an offset that leaves the
object with the pair vA as its address, which is the model's reading (log entry 45). Else the copies that meet
the range and hold nothing to write back are dropped, a whole line of a range on an object that grants D being
discarded unwritten by .nowb; the dirty words of the others go home as an operation of the ST class, and those
copies are dropped with the last commit, when .nowb sets bit 0 of vD (R194, R195). -/
def Sys2Proof.Slice0.cinvCompletes : Prop :=
  ∀ (s : State) (g : Group) (t : LaneMask) (lo : Nat) (p : Pred) (nowb : Bool) (d a b : Reg)
    (ofs : BitVec 18),
    let k := s.cur.core
    let x := s.core k
    let i : Instr := if nowb then .cinvNowb p d a b ofs else .cinv p a b ofs
    let n := (g.reg x b.toNat lo).toNat
    Turn s p g t lo → Ready g ([a.toNat, a.toNat + 1, b.toNat] ++ (if nowb then [d.toNat] else [])) →
    g.cnt.st < 31 →
    (n = 0 → exec i s = .next s.next) ∧
    (n ≠ 0 → ptrAdd (g.pair x a.toNat lo) ofs.toInt = none →
      exec i s = .next (s.takeTrap ⟨.objBounds, lo, g.pair x a.toNat lo, 0⟩)) ∧
    (∀ q, n ≠ 0 → ptrAdd (g.pair x a.toNat lo) ofs.toInt = some q →
      let r := s.check k g.ctx x.desc q n needAny
      let s1 := s.setDesc k r.2
      (∀ e, r.1 = .error e → exec i s = .next (s1.takeTrap ⟨e, lo, q, 0⟩)) ∧
      (∀ dd, r.1 = .ok dd → scribesOwn k g.fw [glbCand (g.pair x a.toNat lo) ofs.toInt lo 0 0] = false →
        let s2 := s1.rangeMet (clusterOf k) g.ctx (ptrOn q) dd (ptrOfs q) n
        let rs := s2.physRanges (clusterOf k) g.ctx (ptrOn q) dd (ptrOfs q) n
        let here := (s2.core k).l1.filter fun c => rs.any (lineIn false c.line)
        let loses := fun l => nowb && dd.grants .d && rs.any (lineIn true l)
        let u := here.foldl (fun (u : State) c =>
          if loses c.line then u.discard k c.line
          else if c.dirty = 0 then u.dropCopy k c.line else u) s2
        let left := (here.filter fun c => !loses c.line && c.dirty != 0).map L1Line.line
        let w := sentBack u g.ctx fun c => left.contains c.line
        (w.2 = [] → exec i s = .next (left.foldl (fun u l => u.dropCopy k l) w.1).next) ∧
        (w.2 ≠ [] → exec i s = .next (goesBack s g t d.toNat nowb w left))))

/-- The last acknowledgement of a write-back completes it: its commits leave, its copies are dropped but for
bytes stored since, which stay as a partial line; where it has a flag, bit 0 of its register is set in every
lane of the instruction, the other bits and all else in the registers as they were; and the operation leaves
the ST class, one fewer (R37, R193, R195, R94). -/
def Sys2Proof.Slice0.writeBackCompletes : Prop :=
  ∀ (s : State) (n : Nat) (m : AckMsg) (f : Flush) (g : Group) (o : Flight),
    s.acks[n]? = some m →
    (s.core m.core).flushes.find? (fun f => f.job == m.job) = some f →
    f.pending = [m.line] →
    s.group m.core f.slot = some g →
    g.flight.find? (fun q => q.id == f.op && g.team == f.team) = some o →
    o.cls = .st → (∀ e ∈ g.log, e.op.id ≠ o.id) →
    ∃ u q, exec (.publicationAck n) s = .next u ∧ u.acks = listDrop1 s.acks n ∧
      (u.core m.core).flushes = (s.core m.core).flushes.filter (fun f => f.job != m.job) ∧
      (∀ a ∈ f.acked.map Prod.fst ++ [m.line],
        ∃ w ∈ u.commits, w.core = m.core ∧ w.line = a ∧ w.job = f.job) ∧
      (∀ l ∈ f.drops, ∀ c, (u.core m.core).copy l = some c → c.dirty ≠ 0 ∧ c.valid = c.dirty) ∧
      u.group m.core f.slot = some q ∧ (∀ e ∈ q.flight, e.id ≠ o.id) ∧ q.cnt.st = g.cnt.st - 1 ∧
      ∃ v k, v.group m.core f.slot = some k ∧ k.flight = g.flight ∧
        (∀ r l, k.reg (v.core m.core) r l = g.reg (s.core m.core) r l) ∧
        u = State.updGroup (if f.flag = true
          then v.putRegs m.core f.slot ((lanesOf o.mask).map fun l =>
            (l, o.req.dest, g.reg (s.core m.core) o.req.dest l ||| 1))
          else v) m.core f.slot fun k => k.complete o.id .st

/-- PREF, CFLUSH and CINV (R83, R94, R192 to R195). -/
def Obligations.CacheForms : Prop := prefCompletes ∧ cflushCompletes ∧ cinvCompletes ∧ writeBackCompletes

/-! ## Copy engine, timelines, barrier objects -/

/-- KICK of no requests only closes the stage (R340; log entry 155); of 32 or more, or of a list outside the
team's scratchpad, raises SEG_LIMIT; a list at an address that is not a multiple of 32 MISALIGNED. The first
request that fails a check of R126 raises its cause with its index in AUX, and none is queued; the core's
descriptor cache keeps what the checks met (R74). Else every request joins the core's queue in order, the CP
counter rises by their number, and the stage closes (R125, R126). -/
def Sys2Proof.Slice0.kickCompletes : Prop :=
  ∀ (s : State) (g : Group) (t : LaneMask) (lo : Nat) (p : Pred) (a b : Reg),
    let c := s.cur.core
    let x := s.core c
    let at_ := (g.reg x a.toNat lo).toNat
    let n := (g.reg x b.toNat lo).toNat
    let traps := fun (k : TrapInfo) => exec (.kick p a b) s = .next (s.takeTrap k)
    Turn s p g t lo → Ready g [a.toNat, b.toNat] →
    (n = 0 → exec (.kick p a b) s = .next (s.next.close true)) ∧
    (32 ≤ n → traps ⟨.segLimit, lo, 0, 0⟩) ∧
    (0 < n → n < 32 → at_ % 32 ≠ 0 → traps ⟨.misaligned, lo, BitVec.ofNat 64 at_, 0⟩) ∧
    (0 < n → n < 32 → at_ % 32 = 0 → s.scrSize g.team c < at_ + 32 * n →
      traps ⟨.segLimit, lo, BitVec.ofNat 64 at_, 0⟩) ∧
    (0 < n → n < 32 → at_ % 32 = 0 → at_ + 32 * n ≤ s.scrSize g.team c → g.cnt.cp + n ≤ 31 →
      x.requests.length + n ≤ 128 →
      let qs := s.kickReqs g at_ 0 n g.rc
      let v := s.vetCopies c x.desc qs.1
      let s0 := s.setDesc c v.2
      (∀ k w j, v.1 = .error ((k, w), j) → exec (.kick p a b) s = .next (s0.takeTrap ⟨k, lo, w, j⟩)) ∧
      (∀ l, v.1 = .ok l →
        exec (.kick p a b) s = .next (((l.foldl (fun u q => u.enqueue c q) s0).updGroup c s.cur.slot
          fun q => { q with rc := qs.2, cnt := { q.cnt with cp := q.cnt.cp + n } }).next.close true)))

/-- The first request that fails one of checks 1 to 5 decides a KICK's trap: its cause, its index in AUX,
and no pointer (R126; that the record's pointer is 0 is log entry 108's choice). -/
def Sys2Proof.Slice0.kickFirstBad : Prop :=
  ∀ (s : State) (core : Nat) (cache : DCache) (q : CopyReq) (r : List CopyReq) (k : Cause),
    s.copyBad core q = some k → (s.vetCopies core cache (q :: r)).1 = .error ((k, 0), q.idx)

/-- KICK (R125, R126). -/
def Obligations.KickForms : Prop := kickCompletes ∧ kickFirstBad

/-- TLWAIT completes, with an acquire at device scope, once the counter has reached the pair vA, and parks
before; TLREAD writes the counter to the pair vD, zero in deterministic mode, which sets TIMING (R138,
R139, R170). -/
def Obligations.TimelineCompletes : Prop :=
  ∀ (s : State) (g : Group) (t : LaneMask) (lo : Nat) (p : Pred) (r : Reg) (tl : BitVec 4),
    let x := s.core s.cur.core
    let v := (x.tl[tl.toNat]?).getD 0
    Turn s p g t lo → Ready g [r.toNat, r.toNat + 1] →
    ((pairUp (g.reg x r.toNat lo) (g.reg x (r.toNat + 1) lo)).toNat ≤ v.toNat →
      exec (.tlwait p r tl) s = .next (s.acquire s.cur.core [] true).next) ∧
    (v.toNat < (pairUp (g.reg x r.toNat lo) (g.reg x (r.toNat + 1) lo)).toNat →
      exec (.tlwait p r tl) s = .next s.park) ∧
    (g.det = false → exec (.tlread p r tl) s = .next (s.putAll64 t r.toNat v).next) ∧
    (g.det = true → exec (.tlread p r tl) s =
      .next ((s.putAll64 t r.toNat 0).next.updGroup s.cur.core s.cur.slot fun q =>
        { q with detSticky := q.detSticky ||| 1 }))

/-- The barrier object instructions at an address vA + OFS of the team's scratchpad. An address that is not
a multiple of 16 raises MISALIGNED, one beyond the scratchpad SEG_LIMIT; arming or waiting on an object
that is none, or an orphan, raises BOBJ_ORPHAN, on a failed one EXT_ABSENT. BOINIT clears it; BOARM adds
vB to REMAIN and arms it, with a release when REMAIN comes to zero; BOWAIT completes on an armed object
with REMAIN zero and parks on another; parked, it ends as the object's release, break or failure says,
whatever the object does afterwards; BOTEST writes its state word, in deterministic mode zero, and acquires
where it returns DONE (R135 to R137, R301). -/
def Obligations.BarrierObjects : Prop :=
  ∀ (s : State) (g : Group) (t : LaneMask) (lo : Nat) (p : Pred) (a b d : Reg) (ofs : BitVec 18),
    let c := s.cur.core
    let x := s.core c
    let o := (g.reg x a.toNat lo + ofs.signExtend 32).toNat
    let v := s.bo c g.team o
    let tag := s.boTagged c g.team o
    let good := o % 16 = 0 ∧ o + 16 ≤ s.scrSize g.team c
    Turn s p g t lo → Ready g [a.toNat] →
    (∀ i rs, (i, rs) ∈ [(Instr.boinit p a ofs, []), (.boarm p a b ofs, [b.toNat]), (.bowait p a ofs, []),
        (.botest p d a ofs, [d.toNat])] → Ready g rs →
      (o % 16 ≠ 0 → exec i s = .next (s.takeTrap ⟨.misaligned, lo, BitVec.ofNat 64 o, 0⟩)) ∧
      (o % 16 = 0 → s.scrSize g.team c < o + 16 →
        exec i s = .next (s.takeTrap ⟨.segLimit, lo, BitVec.ofNat 64 o, 0⟩))) ∧
    (good → exec (.boinit p a ofs) s = .next
      ((s.putBo c g.team o ⟨0, 0, 0, 0⟩).next.close true)) ∧
    (good → Ready g [b.toNat] →
      (tag = false ∨ v.state = 2 →
        exec (.boarm p a b ofs) s = .next (s.takeTrap ⟨.bobjOrphan, lo, BitVec.ofNat 64 o, 0⟩)) ∧
      (tag = true → v.state = 3 →
        exec (.boarm p a b ofs) s = .next (s.takeTrap ⟨.extAbsent, lo, BitVec.ofNat 64 o, 0⟩)) ∧
      (tag = true → v.state ≠ 2 → v.state ≠ 3 →
        let w : BObj := { v with remain := v.remain + g.reg x b.toNat lo, state := 1 }
        (w.remain ≠ 0 → exec (.boarm p a b ofs) s =
          .next ((s.putBo c g.team o w).next.close true)) ∧
        (w.remain = 0 → exec (.boarm p a b ofs) s =
          .next ((s.boRelease c g.team o w).next.close true)))) ∧
    (good →
      let i : Instr := .bowait p a ofs
      (g.parkBo = some (o, none) → exec i s = .next s.park) ∧
      (g.parkBo = some (o, some .released) → exec i s = .next (s.acquire c [] true).next) ∧
      (g.parkBo = some (o, some .broken) →
        exec i s = .next (s.takeTrap ⟨.bobjOrphan, lo, BitVec.ofNat 64 o, 0⟩)) ∧
      (g.parkBo = some (o, some .failed) →
        exec i s = .next (s.takeTrap ⟨.extAbsent, lo, BitVec.ofNat 64 o, 0⟩)) ∧
      ((∀ e, g.parkBo ≠ some (o, e)) →
        (tag = false ∨ v.state = 2 →
          exec i s = .next (s.takeTrap ⟨.bobjOrphan, lo, BitVec.ofNat 64 o, 0⟩)) ∧
        (tag = true → v.state = 3 →
          exec i s = .next (s.takeTrap ⟨.extAbsent, lo, BitVec.ofNat 64 o, 0⟩)) ∧
        (tag = true → v.state = 1 → v.remain = 0 → exec i s = .next (s.acquire c [] true).next) ∧
        (tag = true → v.state ≠ 2 → v.state ≠ 3 → ¬ (v.state = 1 ∧ v.remain = 0) →
          exec i s = .next (s.park.updGroup c s.cur.slot fun q => { q with parkBo := some (o, none) })))) ∧
    (good → Ready g [d.toNat] →
      let done := tag = true ∧ v.state = 1 ∧ v.remain = 0
      let w := v.state + (if done then 4 else 0) + (if tag then 8 else 0) + 2 ^ 16 * v.round.toNat
      (g.det = false → exec (.botest p d a ofs) s =
        .next ((if done then s.acquire c [] true else s).putAll t d.toNat (BitVec.ofNat 32 w)).next) ∧
      (g.det = true → exec (.botest p d a ofs) s =
        .next ((s.putAll t d.toNat 0).next.updGroup c s.cur.slot fun q =>
          { q with detSticky := q.detSticky ||| 1 })))

/-! ## The Well -/

/-- WREQ, once its group's KICKs have read their sources, writes its status to vD and closes the stage:
the decision of R155 where it can be made, else DEFERRED where the request asked for it and the core holds
fewer than 64, else BUSY; a deterministic group parks instead of taking a status that timing decides (R152
to R155). Before any bank moves: no change is GRANTED, giving back more than was granted is OWNED, a role or
CACHE below its floor is FLOOR, an allotment above a ceiling set for the team, on the role or on the total,
is CEILING. -/
def Sys2Proof.Slice0.wreqCompletes : Prop :=
  ∀ (s : State) (g : Group) (t : LaneMask) (lo : Nat) (p : Pred) (role : WRole) (d a : Reg) (df : Bool)
    (tl : BitVec 4),
    let c := s.cur.core
    let x := s.core c
    let k := (g.reg x a.toNat lo).toInt
    let r := s.wreqTry c g.team role k
    let answer := fun (u : State) (code : Nat) =>
      exec (.wreq p role d a df tl) s = .next (((u.putAll t d.toNat (BitVec.ofNat 32 code)).next).close true)
    Turn s p g t lo → Ready g [a.toNat, d.toNat] →
    (g.cnt.cp ≠ 0 → exec (.wreq p role d a df tl) s = .next s.park) ∧
    (g.cnt.cp = 0 →
      (∀ st, r.1 = some st → answer r.2 st.code) ∧
      (k = 0 → answer s 0) ∧
      (∀ al, s.allot g.team c = some al →
        (k < 0 → (al.granted.of role : Int) < -k → answer s 4) ∧
        (k < 0 → -k ≤ al.granted.of role → ((x.roles.of role).length : Int) + k < roleFloor role →
          answer s 3) ∧
        (0 < k → (x.roles.cache.length : Int) - k < s.cacheFloor c → answer s 3) ∧
        (0 < k → (s.cacheFloor c : Int) ≤ x.roles.cache.length - k →
          ((∃ tm, tabFind s.teams g.team = some tm ∧
              ((tm.ceil.total : Int) < (allRoles.foldl (fun n q => n + al.banks q) 0 : Nat) + k ∨
               ∃ m, tm.ceil.role.of role = some m ∧ (m : Int) < al.banks role + k)) ∨
            (role = .scr ∧ 64 < (al.scr.length : Int) + k)) → answer s 5)) ∧
      (r.1 = none → g.det = true → exec (.wreq p role d a df tl) s = .next s.park) ∧
      (r.1 = none → g.det = false →
        (df = true → x.deferred.length < 64 →
          let l := x.deferred ++ [{ team := g.team, role := role, k := k, tl := tl }]
          answer (s.updCore c fun y => { y with
            deferred := l, leaving := l.any fun q => q.role == .shadow && decide (q.k < 0) }) 6) ∧
        (df = false ∨ 64 ≤ (s.core c).deferred.length → answer s 1)))

/-- WQRY writes its four words to vD to vD+3 of every lane taking part; in deterministic mode the read
sets TIMING (R156, R170). -/
def Sys2Proof.Slice0.wqryCompletes : Prop :=
  ∀ (s : State) (g : Group) (t : LaneMask) (lo : Nat) (p : Pred) (role : QRole) (d : Reg),
    Turn s p g t lo → Ready g ((List.range 4).map fun i => d.toNat + i) →
    ∃ w0 w1 w2 w3 : Word, s.wqryWords s.cur.core g.team g.det role = [w0, w1, w2, w3] ∧
      let u := (s.putRegs s.cur.core s.cur.slot ((lanesOf t).flatMap fun l =>
        [(l, d.toNat, w0), (l, d.toNat + 1, w1), (l, d.toNat + 2, w2), (l, d.toNat + 3, w3)])).next
      (g.det = false → exec (.wqry p role d) s = .next u) ∧
      (g.det = true → exec (.wqry p role d) s = .next (u.updGroup s.cur.core s.cur.slot fun q =>
        { q with detSticky := q.detSticky ||| 1 }))

/-- WREQ and WQRY (R152 to R156). -/
def Obligations.WellForms : Prop := wreqCompletes ∧ wqryCompletes

/-- The tile tags (R160 to R162), once the TL class has room (R38). Every form raises REG_BOUNDS for a tile
outside the window. WTAG.setv takes EMPTY tiles to FULL once the group's earlier writes of their rows are
performed, WTAG.setc sets C on tiles that are FULL once the matrix operations that read them have, WTAG.reset
makes tiles EMPTY, and each closes the stage; setv on a tile whose V is set, or setc on one whose V is clear
or C set, raises TAG_PROTOCOL. WTAG.wv and .wc complete when V, or C, is set on every tile and park before;
WTAG.rd writes V and C of each tile, two bits a tile. -/
def Obligations.TagForms : Prop :=
  ∀ (s : State) (g : Group) (m : LaneMask) (lo : Nat) (p : Pred) (t cnt : BitVec 6) (d : Reg),
    let c := s.cur.core
    let x := s.core c
    let inside := ∀ i ≤ cnt.toNat, g.inWindow (g.tileOfs (t.toNat + i)) 2048 = true
    let ts := (List.range (cnt.toNat + 1)).map fun i => g.tileAt (g.tileOfs (t.toNat + i))
    let rows := (List.range (cnt.toNat + 1)).map fun i =>
      (g.tileOfs (t.toNat + i), g.tileOfs (t.toNat + i) + 2048)
    let set := fun (f : Core → Nat → Core) => ((s.updCore c fun x => ts.foldl f x).next).close true
    g.cnt.tl < 31 →
    Turn s p g m lo →
    (¬ inside → ∀ i ∈ [Instr.wtagSetv p t cnt, .wtagSetc p t cnt, .wtagReset p t cnt, .wtagWv p t cnt,
        .wtagWc p t cnt, .wtagRd p d t cnt], exec i s = .next (s.takeTrap ⟨.regBounds, lo, 0, 0⟩)) ∧
    (inside →
      ((∀ i ∈ ts, x.tv i = false) → g.writesTo rows = false →
        exec (.wtagSetv p t cnt) s = .next (set fun x i => x.setTag i true false)) ∧
      ((∃ i ∈ ts, x.tv i = true) →
        exec (.wtagSetv p t cnt) s = .next (s.takeTrap ⟨.tagProtocol, lo, 0, 0⟩)) ∧
      ((∀ i ∈ ts, x.tv i = true ∧ x.tc i = false) → g.readsFrom rows = false →
        exec (.wtagSetc p t cnt) s = .next (set fun x i => x.setTag i (x.tv i) true)) ∧
      ((∃ i ∈ ts, x.tv i = false ∨ x.tc i = true) →
        exec (.wtagSetc p t cnt) s = .next (s.takeTrap ⟨.tagProtocol, lo, 0, 0⟩)) ∧
      exec (.wtagReset p t cnt) s = .next (set fun x i => x.setTag i false true) ∧
      ((∀ i ∈ ts, x.tv i = true) → exec (.wtagWv p t cnt) s = .next s.next) ∧
      ((∃ i ∈ ts, x.tv i = false) → exec (.wtagWv p t cnt) s = .next s.park) ∧
      ((∀ i ∈ ts, x.tc i = true) → exec (.wtagWc p t cnt) s = .next s.next) ∧
      ((∃ i ∈ ts, x.tc i = false) → exec (.wtagWc p t cnt) s = .next s.park) ∧
      (Ready g [d.toNat] → ∃ w : Word, exec (.wtagRd p d t cnt) s = .next (s.putAll m d.toNat w).next ∧
        (cnt.toNat ≤ 15 → ∀ i ≤ cnt.toNat,
          w.getLsbD (2 * i) = x.tv (g.tileAt (g.tileOfs (t.toNat + i))) ∧
          w.getLsbD (2 * i + 1) = x.tc (g.tileAt (g.tileOfs (t.toNat + i))))))

/-! ## Matrix engine -/

/-- A stream's operation as the turn queues it for accumulator and stream `t`. -/
def Sys2Proof.Slice0.queued (s : State) (g : Group) (t : MTarget) (k : MOpKind) (lo : Nat)
    (counted : Bool) : State :=
  s.setGroup s.cur.core s.cur.slot { g with
    streams := listUpd (fun l => l ++ [{ kind := k, acc := t.acc.toNat, seq := s.steps, pc := s.cur.pc
                                         iword := s.cur.iword, lane := lo, views := g.views }])
      g.streams t.stream.toNat
    cnt := { g.cnt with tl := if counted then g.cnt.tl + 1 else g.cnt.tl } }

/-- The steps an MMA, MLOOP or MLOOPS asks for (R274): its slot, target, registers and step counts. -/
def Sys2Proof.Slice0.stepsForm : Instr → Option (Pred × Nat × MTarget × Reg × Reg × Nat × Nat × Nat × Bool × Bool)
  | .mma p n t a b sp => some (p, n.toNat, t, a, b, 1, 0, 0, sp, false)
  | .mloop p n t a b x => some (p, n.toNat, t, a, b, x.km1.toNat + 1, x.sa.toNat, x.sb.toNat, x.sp, false)
  | .mloops p n t a b x => some (p, n.toNat, t, a, b, x.km1.toNat + 1, x.sa.toNat, x.sb.toNat, x.sp, true)
  | _ => none

/-- MMA, MLOOP and MLOOPS queue their steps on the stream, with TL one higher, once nothing the group
stores through its window is outstanding: the fragments start at the registers' window offsets, or for
MLOOPS at the addresses the registers hold (R268, R274). A format that no step takes raises SEAL_BAD;
a start off its alignment MISALIGNED; an accumulator outside the MAT part REG_BOUNDS. One whose slot rounds
stochastically counts in RC (R211). -/
def Obligations.MatrixStepsIssue : Prop :=
  ∀ (i : Instr) (s : State) (g : Group) (m : LaneMask) (lo : Nat) (p : Pred) (n : Nat) (t : MTarget)
    (a b : Reg) (k sa sb : Nat) (sp scr : Bool),
    stepsForm i = some (p, n, t, a, b, k, sa, sb, sp, scr) → Turn s p g m lo →
    (scr = true → Ready g [a.toNat, b.toNat]) → g.pend = [] →
    let x := s.core s.cur.core
    let w := g.slot n
    let fmt := slotFmt w
    let q : MSteps := { fmt := fmt, sp := sp, scr := scr, k := k, sa := sa, sb := sb
                        a := if scr then (g.reg x a.toNat lo).toNat else g.vecOfs a.toNat
                        b := if scr then (g.reg x b.toNat lo).toNat else g.vecOfs b.toNat
                        mrec := if sp then (g.mrecs[t.stream.toNat]?).getD 0 else 0
                        srec := if fmt = 6 then (g.srecs[t.stream.toNat]?).getD 0 else 0
                        next := 0, sums := none }
    let al := if scr then 128 else 2048
    let records := (sp = true → metaOk q.mrec = true) ∧ (fmt = 6 → scaleOk q.srec = true)
    (slotOk w = false ∨ fmt < 2 ∨ 6 < fmt → exec i s = .next (s.takeTrap ⟨.sealBad, lo, 0, 0⟩)) ∧
    (slotOk w = true → 2 ≤ fmt → fmt ≤ 6 → records →
      (q.a % al ≠ 0 ∨ q.b % al ≠ 0 → exec i s = .next (s.takeTrap ⟨.misaligned, lo, 0, 0⟩)) ∧
      (q.a % al = 0 → q.b % al = 0 →
        (g.accOk t.acc.toNat = false → exec i s = .next (s.takeTrap ⟨.regBounds, lo, 0, 0⟩)) ∧
        (g.accOk t.acc.toNat = true →
          (scr = false → ∀ j < k, g.inWindow (q.a + 2048 * sa * j) (mBytes fmt sp).1 = true ∧
            g.inWindow (q.b + 2048 * sb * j) (mBytes fmt sp).2 = true) →
          (∀ r ∈ q.ranges, r.2 ≤ s.scrSize g.team s.cur.core) → g.cnt.tl < 31 →
          exec i s = .next ((queued s g t (.steps q) lo true).next.updGroup s.cur.core s.cur.slot fun q =>
            if slotRnd w = 2 then { q with rc := q.rc + 1 } else q))))

/-- MZERO, MDRAIN and MLDACC queue their operation, TL one higher; MDRAIN and MLDACC count a stochastic
rounding (R275 to R277, R211). MSYNC.mark queues its addition and closes the stage; MSYNC.wait completes
when the streams it names are empty and parks before; it too waits for the group's earlier writes through
its window (R268, R278). MSTAT.rd writes the status, MSTAT.clr clears
it, MSTAT.meta and MSTAT.scale set the stream's record (R279). -/
def Obligations.MatrixForms : Prop :=
  ∀ (s : State) (g : Group) (m : LaneMask) (lo : Nat) (p : Pred) (t : MTarget) (a d : Reg) (n : BitVec 3)
    (cnt mask : BitVec 4) (zr : Bool) (st : BitVec 2) (inc : BitVec 8) (tl : BitVec 4),
    let x := s.core s.cur.core
    let w := g.slot n.toNat
    let o := g.vecOfs a.toNat
    let pair := pairUp (g.reg x a.toNat lo) (g.reg x (a.toNat + 1) lo)
    let rounds := fun (u : State) => u.updGroup s.cur.core s.cur.slot fun q =>
      if slotRnd w = 2 then { q with rc := q.rc + 1 } else q
    let set := fun (q : Group) => s.setGroup s.cur.core s.cur.slot q
    Turn s p g m lo →
    (g.pend = [] →
      (g.cnt.tl < 31 → (∀ i ≤ cnt.toNat, g.accOk (t.acc.toNat + i) = true) →
        exec (.mzero p t cnt) s = .next (queued s g t (.zero (cnt.toNat + 1)) lo true).next) ∧
      (g.cnt.tl < 31 → slotOk w = true → slotFmt w ≠ 6 → o % 2048 = 0 → g.accOk t.acc.toNat = true →
        g.inWindow o (512 * fmtBits (slotFmt w)) = true →
        exec (.mdrain p zr n t a) s =
          .next (rounds (queued s g t (.drain w n.toNat zr o g.rc) lo true).next) ∧
        exec (.mldacc p n t a) s = .next (rounds (queued s g t (.ldacc w n.toNat o g.rc) lo true).next)) ∧
      exec (.msyncMark p st inc tl) s =
        .next ((queued s g ⟨st, 0⟩ (.mark inc tl) lo false).next.close true)) ∧
    (g.pend = [] →
      ((∀ i < 4, mask.getLsbD i = true → (g.streams[i]?).getD [] = []) →
        exec (.msyncWait p mask) s = .next s.next) ∧
      ((∃ i < 4, mask.getLsbD i = true ∧ (g.streams[i]?).getD [] ≠ []) →
        exec (.msyncWait p mask) s = .next s.park)) ∧
    (Ready g [d.toNat] → exec (.mstatRd p d) s = .next (s.putAll m d.toNat (g.mstat.setWidth 32)).next) ∧
    exec (.mstatClr p) s = .next (set { g with mstat := 0 }).next ∧
    (Ready g [a.toNat, a.toNat + 1] →
      exec (.mstatMeta p a st) s =
        .next (set { g with mrecs := listUpd (fun _ => pair) g.mrecs st.toNat }).next ∧
      exec (.mstatScale p a st) s =
        .next (set { g with srecs := listUpd (fun _ => pair) g.srecs st.toNat }).next)

/-- The operation at the head of a stream acts, in two events (R39, R267 to R271, R275 to R278; that an
operation is two events is log entry 67's reading). A step first, once its tiles, those of its accumulator
among them, are not FILLING and its scratchpad lines present, reads and makes the sums of products of R262,
of which some are added to their elements at once, and flags rows and columns with NaN or infinity; then it
adds the others, and with its last step leaves the stream. MZERO, MDRAIN and MLDACC read and write some words
of their rows, then the others, and settle the accumulators' state; FULL tiles that are read are recorded
(R269). Which come first is the model's free value (log entry 2). MSYNC.mark adds to its timeline. In a
deterministic waybill an operation waits for every earlier one of the four streams (R267). -/
def Obligations.MatrixEngineActs : Prop :=
  ∀ (s : State) (c n st : Nat) (g : Group) (o : MOp) (rest : List MOp),
    s.group c n = some g → g.streams[st]? = some (o :: rest) → s.stopping g.team = false →
    let acts := fun (u : State) => exec (.matrixStep c n st) s = .next u
    let done := fun (counted : Bool) (u : State) => (u.updGroup c n fun q => { q with
      streams := listUpd (fun l => l.drop 1) q.streams st
      cnt := { q.cnt with tl := if counted then q.cnt.tl - 1 else q.cnt.tl } }).settleCluster c
    let begins := fun (ws : List RowWrite) (blocks : List Nat) (z : Option Bool) =>
      (s.writeRows c n ws (firstWords s.steps)).updGroup c n fun q => { q with
        streams := listUpd (fun l => { o with kind := .rest (ws.zipIdx.map fun e =>
          { e.1 with left := e.1.left &&& ~~~firstWords s.steps e.2 }) blocks z } :: l.drop 1) q.streams st }
    let free := fun (i : Nat) => (s.core c).tv i = true ∨ (s.core c).tc i = true
    let accTiles := (List.range 8).map fun i => g.tileAt (accAt o.views o.acc + 2048 * i)
    let reads := fun (ts : List Nat) (u : State) =>
      u.updGroup c n fun q => { q with tilesRead := (s.core c).fullOf ts ++ q.tilesRead }
    (g.det = true → st < 4 → (∃ l ∈ g.streams.take 4, ∃ e ∈ l, e.seq < o.seq) → acts s) ∧
    (g.det = false ∨ st = 4 ∨ (∀ l ∈ g.streams.take 4, ∀ e ∈ l, o.seq ≤ e.seq) →
      (∀ k, o.kind = .zero k → acts (begins
        ((List.range k).flatMap fun i => rowWrites (accAt o.views (o.acc + i)) 128 fun _ => 0)
        ((List.range k).map fun i => accBlock o.views (o.acc + i)) (some true))) ∧
      (∀ inc tl, o.kind = .mark inc tl → acts (done false (s.tlAdd c tl inc.toNat))) ∧
      (∀ w sl zr dst rc, o.kind = .drain w sl zr dst rc →
        ((∃ i ∈ accTiles, ¬ free i) → acts s) ∧
        ((∀ i ∈ accTiles, free i) → g.winBad (s.core c) c (accAt o.views o.acc) 16384 = none →
          acts (reads accTiles (begins (s.drainRows c g o w sl zr dst rc) [accBlock o.views o.acc]
            (if zr then some true else none))))) ∧
      (∀ w sl src rc, o.kind = .ldacc w sl src rc →
        let ts := g.blockTiles src (512 * fmtBits (slotFmt w))
        ((∃ i ∈ ts, ¬ free i) → acts s) ∧
        ((∀ i ∈ ts, free i) → g.winBad (s.core c) c src (512 * fmtBits (slotFmt w)) = none →
          acts (reads ts (begins (s.loadRows c g o w sl src rc) [accBlock o.views o.acc] (some false))))) ∧
      (∀ ws blocks z, o.kind = .rest ws blocks z →
        acts (done true (((s.writeRows c n ws fun _ => BitVec.allOnes 128).cleanRows c n ws).updGroup c n
          fun q => q.settleAccs blocks z))) ∧
      (∀ q l, o.kind = .steps q → q.sums = some l →
        let u := s.addSums c n (accAt o.views o.acc) l
        (q.k ≤ q.next + 1 → acts (done true u)) ∧
        (q.next + 1 < q.k → acts (u.updGroup c n fun k => { k with streams := listUpd (fun l =>
          { o with kind := .steps { q with next := q.next + 1, sums := none } } :: l.drop 1) k.streams st }))) ∧
      (∀ q, o.kind = .steps q → q.sums = none →
        let ts := q.tiles g ++ accTiles
        let lines := rangeLines q.stepRanges
        let at_ := accAt o.views o.acc
        ((∃ i ∈ ts, ¬ free i) ∨ (∃ l ∈ lines, s.present c g.team (128 * l) = false) → acts s) ∧
        ((∀ i ∈ ts, free i) → (∀ l ∈ lines, s.present c g.team (128 * l) = true) →
          s.mpoison c g q at_ = none →
          let r := stepSums q (s.mread c g q)
          let first := Config.stepElems s.steps
          acts (reads ts ((s.addSums c n at_ (r.1.filter fun v => first.getLsbD v.idx)).updGroup c n fun k =>
            { (k.updAcc (accBlock o.views o.acc) fun a => { a with
                rowf := a.rowf ||| r.2.1, colf := a.colf ||| r.2.2.1 }) with
              streams := listUpd (fun l => { o with kind := .steps { q with
                sums := some (r.1.filter fun v => !first.getLsbD v.idx) } } :: l.drop 1) k.streams st
              mstat := k.mstat ||| (if r.2.2.2 then 2 else 0) |||
                (if r.2.1 ≠ 0 ∨ r.2.2.1 ≠ 0 then 4 else 0) })))))

/-! ## Stipple arrays -/

/-- The command a stipple instruction gives its array (R295 to R299): predicate, array, registers it
needs, the command, and whether the group waits for it; no command for a count of zero. -/
def Sys2Proof.Slice0.saForm (s : State) (g : Group) (t : LaneMask) (lo : Nat) :
    Instr → Option (Pred × BitVec 2 × List Nat × Option (ACmdKind × Bool))
  | .sacfgCtl p r a b => let x := s.core s.cur.core
    some (p, r, [a.toNat, b.toNat], some (.ctl (g.reg x a.toNat lo) (g.reg x b.toNat lo), true))
  | .sacfgKey p r a b => let x := s.core s.cur.core
    some (p, r, [a.toNat, a.toNat + 1, a.toNat + 2, a.toNat + 3, b.toNat],
      some (.key (g.pair x (a.toNat + 2) lo ++ g.pair x a.toNat lo)
        ((g.reg x b.toNat lo).extractLsb' 0 10), true))
  | .sacfgSc p r a => let x := s.core s.cur.core
    some (p, r, [a.toNat, a.toNat + 1], some (.sc ((g.pair x a.toNat lo).extractLsb' 0 48), true))
  | .saclamp p r a => let x := s.core s.cur.core
    some (p, r, [a.toNat], some (.clamp ((lanesOf t).map fun l => g.reg x a.toNat l), true))
  | .saswp p r a inc tl => let n := (g.reg (s.core s.cur.core) a.toNat lo).toNat
    some (p, r, [a.toNat], if n = 0 then none else some (.sweep n inc tl, false))
  | .sardState p r d a => let x := s.core s.cur.core
    some (p, r, [a.toNat, d.toNat], some (.rdState d.toNat ((g.reg x a.toNat lo).extractLsb' 0 11).toNat, true))
  | .sardCnt p r d a => let x := s.core s.cur.core
    some (p, r, [a.toNat, d.toNat], some (.rdCnt d.toNat ((g.reg x a.toNat lo).extractLsb' 0 11).toNat, true))
  | .sardStat p r d => some (p, r, (List.range 4).map fun i => d.toNat + i, some (.rdStat d.toNat, true))
  | .sardMon p r d => some (p, r, (List.range 4).map fun i => d.toNat + i, some (.rdMon d.toNat, true))
  | _ => none

/-- A stipple instruction puts its command into its array's queue: SASWP goes on and closes the stage,
every other waits at the instruction until the command is done (R292 to R299). On an array out of service a
command that array's bias bars raises SA_BIAS with the array's number in AUX. A sweep count of zero does
nothing but close the stage. In deterministic mode a physical array's SASWP sets TIMING (R300; at its issue,
log entry 65's reading), and the array's number names the logical core (R280); LANE and AUX of the trap are
log entry 68's. -/
def Sys2Proof.Slice0.stippleIssues : Prop :=
  ∀ (i : Instr) (s : State) (g : Group) (t : LaneMask) (lo : Nat) (p : Pred) (r : BitVec 2) (rs : List Nat)
    (q : Option (ACmdKind × Bool)),
    saForm s g t lo i = some (p, r, rs, q) → Turn s p g t lo → Ready g rs →
    let a := (s.core s.cur.core).array r.toNat
    let end_ := fun (u : State) => if a.replay = false
      then u.updGroup s.cur.core s.cur.slot fun k =>
        if k.det then { k with detSticky := k.detSticky ||| 1 } else k
      else u
    (q = none → exec i s = .next (s.next.close true)) ∧
    (∀ cmd hold, q = some (cmd, hold) →
      (a.oos = true → cmd.barred = true →
        exec i s = .next ((s.updArray s.cur.core r.toNat fun a => { a with lastFault := 1 }).takeTrap
          ⟨.saBias, lo, 0, s.arrayNum g.team s.cur.core r.toNat⟩)) ∧
      (a.oos = false ∨ cmd.barred = false → a.queue.length < 16 → r.toNat < (s.core s.cur.core).arrays.length →
        ∃ u : State, exec i s = .next (if hold then u else end_ (u.next.close true)) ∧
          (u.core s.cur.core).array r.toNat = { a with queue := a.queue ++
            [{ kind := cmd, slot := s.cur.slot, team := g.team, ctx := g.ctx, gidx := g.gidx, id := s.steps
               mask := t, exec := s.cur.mask, pc := s.cur.pc, iword := s.cur.iword }] } ∧
          u.group s.cur.core s.cur.slot = some (if hold then { g with arrWait := some (r.toNat, s.steps) } else g)))

/-- SACFG.link raises SA_BOUNDARY for an enabled link to an array of its own die or with more than 64
exports or ghosts, and else queues its word with the peer it names (R288, R295). SALD raises MISALIGNED and
SEG_LIMIT for its range, and else queues the load; of no entries it only closes the stage (R296). -/
def Sys2Proof.Slice0.stippleLoads : Prop :=
  ∀ (s : State) (g : Group) (t : LaneMask) (lo : Nat) (p : Pred) (r : BitVec 2) (a b : Reg) (rg : SaRegion),
    let c := s.cur.core
    let x := s.core c
    let w := g.reg x a.toNat lo
    let v := g.reg x b.toNat lo
    let first := v.toNat % 2048
    let n := v.toNat / 65536 % 4096
    let sz := regionSize rg
    let peer := s.peerOf g w
    Turn s p g t lo → r.toNat < x.arrays.length →
    let queue := fun (i : Instr) (k : ACmdKind) => (x.array r.toNat).oos = false →
      (x.array r.toNat).queue.length < 16 → ∃ u : State, exec i s = .next u ∧
        ((u.core c).array r.toNat).queue.map ACmd.kind = (x.array r.toNat).queue.map ACmd.kind ++ [k] ∧
        u.group c s.cur.slot = some { g with arrWait := some (r.toNat, s.steps) }
    (Ready g [a.toNat] →
      (linkEn w = true → (peer / 256 = c / 64 ∨ 64 < linkNexp w ∨ 64 < linkNgh w) →
        exec (.sacfgLink p r a) s = .next ((s.updArray c r.toNat fun a => { a with lastFault := 3 }).takeTrap
          ⟨.saBoundary, lo, 0, s.arrayNum g.team c r.toNat⟩)) ∧
      (linkEn w = false ∨ (peer / 256 ≠ c / 64 ∧ linkNexp w ≤ 64 ∧ linkNgh w ≤ 64) →
        queue (.sacfgLink p r a) (.link w peer))) ∧
    (Ready g [a.toNat, b.toNat] →
      (n = 0 → exec (.sald p r a b rg) s = .next (s.next.close true)) ∧
      (n ≠ 0 →
        (w.toNat % min sz.1 4 ≠ 0 →
          exec (.sald p r a b rg) s = .next (s.takeTrap ⟨.misaligned, lo, w.setWidth 64, 0⟩)) ∧
        (w.toNat % min sz.1 4 = 0 →
          (sz.2 < first + n ∨ s.scrSize g.team c < w.toNat + sz.1 * n →
            exec (.sald p r a b rg) s = .next (s.takeTrap ⟨.segLimit, lo, w.setWidth 64, 0⟩)) ∧
          (first + n ≤ sz.2 → w.toNat + sz.1 * n ≤ s.scrSize g.team c →
            queue (.sald p r a b rg) (.load rg w.toNat first n)))))

/-- What a stipple command that is no sweep does in its turn: the array after it, the words a SARD writes
(lane, register, value), and whether the instruction closes its stage; `here` says that nothing of it must
wait (R295 to R297, R299). -/
structure Sys2Proof.Slice0.StDone where
  here : Prop
  array : StArray
  words : List (Nat × Nat × Word)
  closes : Bool

/-- What the command of a stipple instruction on array `r` of the turn's core does, the array's link being
down (that a new key starts an array whose sweeps have run out at sweep 0 is log entry 120's reading); of a
SALD, once the lines it reads are present and none of them is poisoned. -/
def Sys2Proof.Slice0.stDone (s : State) (g : Group) (t : LaneMask) (r : Nat) (k : ACmdKind) : StDone :=
  let c := s.cur.core
  let a := (s.core c).array r
  match k with
  | .ctl w beta => ⟨True, a.control w beta, [], true⟩
  | .key v aid => ⟨True, { a with
      key := v, aid := aid, sc := if a.sc = 0xFFFFFFFFFFFF#48 ∧ v ≠ a.key then 0 else a.sc }, [], true⟩
  | .sc v => ⟨True, { a with sc := v }, [], true⟩
  | .link w peer => ⟨linkEn w = false, { a with link := w, peer := peer }, [], true⟩
  | .clamp ops => ⟨True, ops.foldl StArray.clampOp a, [], true⟩
  | .load rg addr first n =>
    let e := (regionSize rg).1
    ⟨(∀ i < e * n, s.present c g.team ((addr + i) / 128 * 128) = true) ∧ s.scrBad c g.team addr (e * n) = none,
      (List.range n).foldl (fun a j => a.entry rg (first + j) (s.scrBytes c g.team (addr + e * j) e)) a, [], true⟩
  | .rdState d base => ⟨True, a, (lanesOf t).map fun l => (l, d, BitVec.ofNat 32
      (natOfBits 32 fun b => decide (base + 32 * l + b < 2048) && a.m.getLsbD (base + 32 * l + b))), false⟩
  | .rdCnt d base => ⟨True, a, (lanesOf t).map fun l =>
      (l, d, if base + l < 2048 then tabGet 0 a.cnt (base + l) else 0), false⟩
  | .rdStat d => ⟨g.det = false, a, (lanesOf t).flatMap fun l =>
      (a.statWords false).zipIdx.map fun e => (l, d + e.2, e.1), false⟩
  | .rdMon d => ⟨g.det = false, a, (lanesOf t).flatMap fun l =>
      (a.monWords false).zipIdx.map fun e => (l, d + e.2, e.1), false⟩
  | .sweep _ _ _ => ⟨False, a, [], true⟩

/-- SACFG, SALD, SACLAMP and SARD on an array in service whose queue is empty complete: the instruction gives
its command to the array, and in the command's turn, that of the next ARRAY_COMMAND, the array becomes what R295
to R297 and R299 say, the registers become what writing R299's words to them makes, the command is gone, the
group waits no longer, its threads stand at the next instruction, and its stage closes but after a SARD (R292,
R300). -/
def Sys2Proof.Slice0.stippleCommandsComplete : Prop :=
  ∀ (i : Instr) (s : State) (g : Group) (t : LaneMask) (lo : Nat) (p : Pred) (r : BitVec 2) (rs : List Nat)
    (k : ACmdKind),
    (saForm s g t lo i = some (p, r, rs, some (k, true)) ∨
      (∃ a, i = .sacfgLink p r a ∧ rs = [a.toNat] ∧
        k = .link (g.reg (s.core s.cur.core) a.toNat lo) (s.peerOf g (g.reg (s.core s.cur.core) a.toNat lo))) ∨
      (∃ a b rg, i = .sald p r a b rg ∧ rs = [a.toNat, b.toNat] ∧
        let w := (g.reg (s.core s.cur.core) a.toNat lo).toNat
        let v := (g.reg (s.core s.cur.core) b.toNat lo).toNat
        let sz := regionSize rg
        k = .load rg w (v % 2048) (v / 65536 % 4096) ∧ v / 65536 % 4096 ≠ 0 ∧ w % min sz.1 4 = 0 ∧
        v % 2048 + v / 65536 % 4096 ≤ sz.2 ∧
        w + sz.1 * (v / 65536 % 4096) ≤ s.scrSize g.team s.cur.core)) →
    Turn s p g t lo → Ready g rs →
    let c := s.cur.core
    let a := (s.core c).array r.toNat
    r.toNat < (s.core c).arrays.length → a.queue = [] → a.oos = false → a.up = false → g.closing = .none →
    let w := stDone s g t r.toNat k
    w.here →
    ∃ u v q, exec i s = .next u ∧ exec (.arrayCommand c r.toNat) u = .next v ∧ v.cur = s.cur ∧
      (v.core c).array r.toNat = { w.array with queue := [], stallNow := false } ∧
      v.group c s.cur.slot = some q ∧ q.arrWait = none ∧
      q.closing = (if w.closes then .stage else .none) ∧
      (let u0 := s.putRegs c s.cur.slot w.words
       ∀ e ∈ w.words, ∃ h, u0.group c s.cur.slot = some h ∧
         q.reg (v.core c) e.2.1 e.1 = h.reg (u0.core c) e.2.1 e.1) ∧
      q.lanes = (g.advance s.cur.mask).lanes

/-- SASWP completes with its command queued and its stage closing; in the command's turn, that of the next
SWEEP, an array in service with no link makes one sweep: every unclamped node drawn, class after class, the
counts, and the sweep counter one higher; after the last its timeline addition is made (R283, R298). -/
def Sys2Proof.Slice0.sweepCompletes : Prop :=
  ∀ (s : State) (g : Group) (t : LaneMask) (lo : Nat) (p : Pred) (r : BitVec 2) (a : Reg) (inc : BitVec 8)
    (tl : BitVec 4),
    let c := s.cur.core
    let x := (s.core c).array r.toNat
    let n := (g.reg (s.core c) a.toNat lo).toNat
    let cmd : ACmd := { kind := .sweep n inc tl, slot := s.cur.slot, team := g.team, ctx := g.ctx
                        gidx := g.gidx, id := s.steps, mask := t, exec := s.cur.mask, pc := s.cur.pc
                        iword := s.cur.iword }
    Turn s p g t lo → Ready g [a.toNat] → n ≠ 0 → r.toNat < (s.core c).arrays.length → x.queue = [] →
    x.oos = false → x.up = false → x.sc.toNat < 2 ^ 48 - 1 → (s.cluster (clusterOf c)).drained = false →
    ∃ u v q, exec (.saswp p r a inc tl) s = .next u ∧ ((u.core c).array r.toNat) = { x with queue := [cmd] } ∧
      u.group c s.cur.slot = some q ∧ q.closing = .stage ∧
      q.lanes = (g.advance s.cur.mask).lanes ∧
      exec (.sweep c r.toNat) u = .next v ∧
      let y := x.sweep ⟨0, 0⟩ s.steps
      let z := (v.core c).array r.toNat
      z.m = y.m ∧ z.cnt = y.cnt ∧ z.sc = x.sc + 1 ∧
      (n = 1 → z.queue = [] ∧
        (v.core c).tl = listUpd (fun v => v + inc.setWidth 64) (s.core c).tl tl.toNat)

/-- The instructions of the stipple arrays (R288 to R300); that a new key starts an array whose sweeps have run
out at sweep 0 is log entry 120's reading. -/
def Obligations.StippleForms : Prop := stippleIssues ∧ stippleLoads ∧ stippleCommandsComplete ∧ sweepCompletes

/-! ## Control -/

/-- BRA, BRX, CALL and RET (R333, R335). The threads a branch takes stand at the target, PC + 8 × OFS or
the pair vA, and the others of its mask past it; CALL first writes PC + 8 to the pair vD. A target whose
offset leaves the object raises OBJ_BOUNDS with the address PC (log entry 45's reading), one that is not a
multiple of 8 MISALIGNED with the target, for BRX, RET and an indirect CALL that of the lowest lane whose
target is so. With U, BRA is decided by the lowest lane of the mask. A backward BRA of at most 48 words whose
words can be fetched, which some live thread does not take, gives the threads it takes the loop's words
(R331); where a word cannot be fetched nothing is captured (log entry 27's choice); the caches keep what the
fetches met (R74, R77). -/
def Obligations.BranchResults : Prop :=
  ∀ (s : State) (g : Group) (t : LaneMask) (lo first : Nat) (c : Ctl) (a d : Reg) (o : BitVec 21)
    (o20 : BitVec 20),
    let x := s.core s.cur.core
    let m := s.cur.mask
    let trap := fun (i : Instr) (k : TrapInfo) => exec i s = .next (s.takeTrap k)
    let bra := if c.u then (if t.getLsbD first then m else 0) else t
    let linked := s.putAll64 t d.toNat (pcAdd s.cur.pc 8)
    let tgt := fun l => pairUp (g.reg x a.toNat (from_ c.u lo l)) (g.reg x (a.toNat + 1) (from_ c.u lo l))
    let jumps := (lanesOf t).map fun l => (l, tgt l)
    s.curGroup = some g → g.taking x c.p m = t → lowestLane m = some first →
    (c.u = true → g.dbg = true → t = m ∨ t = 0) →
    (bra = 0 → exec (.bra c o) s = .next s.next) ∧
    (∀ k, lowestLane bra = some k →
      (braTarget s.cur.pc o.toInt = none → trap (.bra c o) ⟨.objBounds, k, s.cur.pc, 0⟩) ∧
      (∀ q, braTarget s.cur.pc o.toInt = some q →
        (q.toNat % 8 ≠ 0 → trap (.bra c o) ⟨.misaligned, k, q, 0⟩) ∧
        (q.toNat % 8 = 0 →
          let to_ := (lanesOf bra).map fun l => (l, q)
          let n := (ptrOfs s.cur.pc - ptrOfs q) / 8 + 1
          let loop := ptrOfs q ≤ ptrOfs s.cur.pc ∧ n ≤ 48 ∧ g.live &&& ~~~bra ≠ 0
          (¬ loop → exec (.bra c o) s = .next (s.jump m to_ none)) ∧
          (∀ ws u, loop → s.fetchLoop s.cur.core g.ctx q n = .ok (some ws, u) →
            exec (.bra c o) s = .next (u.jump m to_ (some { lo := q, hi := s.cur.pc, words := ws }))) ∧
          (∀ u, loop → s.fetchLoop s.cur.core g.ctx q n = .ok (none, u) →
            exec (.bra c o) s = .next (u.jump m to_ none))))) ∧
    (lowestLane t = some lo →
      (Ready g [d.toNat, d.toNat + 1] →
        (braTarget s.cur.pc o20.toInt = none → trap (.call c d o20) ⟨.objBounds, lo, s.cur.pc, 0⟩) ∧
        (∀ q, braTarget s.cur.pc o20.toInt = some q →
          (q.toNat % 8 ≠ 0 → trap (.call c d o20) ⟨.misaligned, lo, q, 0⟩) ∧
          (q.toNat % 8 = 0 →
            exec (.call c d o20) s = .next (linked.jump m ((lanesOf t).map fun l => (l, q)) none)))) ∧
      (Ready g [a.toNat, a.toNat + 1] →
        Alike g x c.u t lo [a.toNat, a.toNat + 1] [] →
        ((∀ l ∈ lanesOf t, (tgt l).toNat % 8 = 0) →
          exec (.brx c a) s = .next (s.jump m jumps none) ∧ exec (.ret c a) s = .next (s.jump m jumps none) ∧
          (Ready g [d.toNat, d.toNat + 1] →
            exec (.callInd c d a) s = .next (linked.jump m jumps none))) ∧
        (∀ l ∈ lanesOf t, (tgt l).toNat % 8 ≠ 0 → (∀ j ∈ lanesOf t, j < l → (tgt j).toNat % 8 = 0) →
          trap (.brx c a) ⟨.misaligned, l, tgt l, 0⟩ ∧ trap (.ret c a) ⟨.misaligned, l, tgt l, 0⟩ ∧
          (Ready g [d.toNat, d.toNat + 1] → trap (.callInd c d a) ⟨.misaligned, l, tgt l, 0⟩))))

/-- EXIT ends its threads and closes a stage; NOP does nothing; YIELD marks its threads; STAGE closes a stage;
BAR holds the threads of its mask, and the group comes to the barrier when all of its live threads are held;
WAITC completes when every counter is at most its bound and parks before (R337, R341, R347, R351). That one lane
taking part makes BAR hold the whole execution mask is log entry 26's reading. EXIT, STAGE and BAR first wait
for an empty operand log (R80). -/
def Obligations.ThreadForms : Prop :=
  ∀ (s : State) (g : Group) (t : LaneMask) (lo : Nat) (p : Pred) (id : BitVec 5) (cnt : BitVec 6)
    (nld nst ncp ntl : BitVec 5),
    let held := fun (k : BarKind) (id cnt : Nat) =>
      let h := g.issued.mapLanes s.cur.mask fun x => { x with st := .held k id cnt, buf := none }
      s.setGroup s.cur.core s.cur.slot (if h.atBar then { h with closing := .wait } else h)
    let low := g.cnt.ld ≤ nld.toNat ∧ g.cnt.st ≤ nst.toNat ∧ g.cnt.cp ≤ ncp.toNat ∧ g.cnt.tl ≤ ntl.toNat
    Turn s p g t lo →
    exec (.nop p) s = .next s.next ∧
    exec (.yield p) s = .next (s.next.updGroup s.cur.core s.cur.slot fun g =>
      g.mapLanes t fun x => { x with yielded := true }) ∧
    (low → exec (.waitc p nld nst ncp ntl) s = .next s.next) ∧
    (¬ low → exec (.waitc p nld nst ncp ntl) s = .next s.park) ∧
    (g.log = [] →
      exec (.exit p) s = .next ((s.next.updGroup s.cur.core s.cur.slot fun g =>
        g.mapLanes t fun x => { x with st := .exited, buf := none }).close false) ∧
      exec (.stage p) s = .next (s.next.close false) ∧
      exec (.barTeam p) s = .next (held .team 0 0) ∧
      exec (.barSync p id cnt) s = .next (held .sync id.toNat cnt.toNat) ∧
      exec (.barArrive p id cnt) s = .next (held .arrive id.toNat cnt.toNat)) ∧
    (g.log ≠ [] → ∀ i ∈ [Instr.exit p, .stage p, .barTeam p, .barSync p id cnt, .barArrive p id cnt],
      exec i s = .next s)

/-- PHASE waits for the group's operations, then for the core's boundary unit, which serves the groups in the
order in which they come (R309). At core scope it then applies the inbox and closes the stage; at a wider
scope it sends the core's dirty words home, and completes when they are acknowledged, dropping at device and
system scope every copy homed elsewhere; system scope first waits for the non-temporal stores issued before
it, which are those issued before the PHASE came to the unit (log entry 36's reading of 'before it'). A dirty
line, or an open partial sum, whose home die is out of service raises HOME_OFFLINE (R308 to R310, R394). -/
def Sys2Proof.Slice0.phaseCompletes : Prop :=
  ∀ (s : State) (g : Group) (t : LaneMask) (lo : Nat) (p : Pred) (scope : PScope),
    let c := s.cur.core
    let x := s.core c
    let k := s.phaseScope g scope
    let i : Instr := .phase p scope
    let gone := fun (u : State) => u.updCore c fun y => { y with bqueue := y.bqueue.filter fun e => e.1 != s.cur.slot }
    Turn s p g t lo → g.log = [] → g.cnt.ld = 0 → g.cnt.st = 0 → g.cnt.tl = 0 →
    (∀ q ∈ g.streams, q = []) →
    ((∃ b, x.boundary = some b ∧ b.slot ≠ s.cur.slot) →
      exec i s = .next (if x.bqueue.any fun e => e.1 == s.cur.slot then s
        else s.updCore c fun y => { y with bqueue := y.bqueue ++ [(s.cur.slot, s.steps)] })) ∧
    (k = .core → UnitFree s →
      exec i s = .next (((gone s).acquire c [] false).next.close false)) ∧
    (k ≠ .core →
      (∀ l, UnitFree s → k ≠ .sys → s.deadLine c = some l →
        exec i s = .next ((gone s).takeTrap ⟨.homeOffline, lo, BitVec.ofNat 64 (128 * l), 0⟩)) ∧
      (UnitFree s → s.deadLine c = none → k ≠ .sys →
        exec i s = .next (unitTaken s fun j u => u.sendAll c g.ctx false j).park) ∧
      (UnitFree s → k = .sys →
        let b : Boundary := { slot := s.cur.slot, job := s.nextPub + 1, sent := false, pending := [], acked := []
                              since := x.since s.cur.slot s.steps, hostWait := 0 }
        exec i s = .next ((gone { s with nextPub := s.nextPub + 1 }).updCore c fun y =>
          { y with boundary := some b }).park) ∧
      (∀ b, x.boundary = some b → b.slot = s.cur.slot → b.sent = false → k = .sys →
        (s.ntPending c b.since = true → exec i s = .next s.park) ∧
        (s.ntPending c b.since = false → s.deadLine c = none →
          let r := s.sendAll c g.ctx true b.job
          exec i s = .next (r.1.updCore c fun y =>
            { y with boundary := some { b with sent := true, pending := r.2.1, hostWait := r.2.2 } }).park)) ∧
      (∀ job acked, UnitReady s job acked →
        exec i s = .next ((((committed s job acked).movePartials c).acquire c acked
          (k = .dev || k = .sys)).next.close false)))

/-- MONW completes at once where the line's extent is absent, where its sector is poisoned, where its watch
was noticed, or where the line is homed on the core's own die and the core holds no copy of it; else its
threads park past the instruction: on their watch, on what the core's copy gives, or, for a line homed on
another die, on a watch that the core leaves at its home, whatever it holds (R311, R349; log entry 34's
reading). A pointer that its object does not allow raises the cause of the check, and one whose offset leaves
the object OBJ_BOUNDS with the base as its address (log entry 45's reading). -/
def Sys2Proof.Slice0.monwCompletes : Prop :=
  ∀ (s : State) (g : Group) (t : LaneMask) (lo : Nat) (p : Pred) (a : Reg) (ofs : BitVec 18),
    let c := s.cur.core
    let x := s.core c
    let base := pairUp (g.reg x a.toNat lo) (g.reg x (a.toNat + 1) lo)
    let i : Instr := .monw p a ofs
    Turn s p g t lo → Ready g [a.toNat, a.toNat + 1] →
    (ptrAdd base ofs.toInt = none → exec i s = .next (s.takeTrap ⟨.objBounds, lo, base, 0⟩)) ∧
    (∀ q, ptrAdd base ofs.toInt = some q →
      let k := s.check c g.ctx x.desc q 1 needMonw
      let s0 := s.setDesc c k.2
      (∀ e, k.1 = .error e → exec i s = .next (s0.takeTrap ⟨e, lo, q, 0⟩)) ∧
      (∀ d, k.1 = .ok d → scribesOwn c g.fw [glbCand base ofs.toInt lo 0 0] = false →
        let s1 := s0.extentMet (clusterOf c) g.ctx d q
        (∀ on ext, s1.xlate (clusterOf c) g.ctx d q = .absent on ext → exec i s = .next s1.next) ∧
        (∀ pa e, s1.xlate (clusterOf c) g.ctx d q = .at pa e →
          ((s.die (pa / 2 ^ 38)).out = true → exec i s = .next (s1.takeTrap ⟨.homeOffline, lo, q, 0⟩)) ∧
          ((s.die (pa / 2 ^ 38)).out = false →
            let r := s1.monitorOf c s.cur.slot g q pa
            (s1.poisoned pa 1 = true ∨
                (g.watch = none ∧ lineDie (pa / 128) = dieOf c ∧ x.copy (pa / 128) = none) →
              exec i s = .next s1.next) ∧
            (s1.poisoned pa 1 = false → g.watch = none → lineDie (pa / 128) ≠ dieOf c →
              tabFind (s1.core c).lastRead (pa / 128) = none →
              ((s1.unwatch c s.cur.slot).dirOf (pa / 128)).watches < 8 →
              ∃ u, r = (some (.remote (pa / 128)), u) ∧ (c, s.cur.slot) ∈ (u.dirOf (pa / 128)).remWatch) ∧
            (r.1 = none → exec i s = .next r.2.next) ∧
            (∀ m, r.1 = some m → exec i s = .next (r.2.next.updGroup c s.cur.slot fun g =>
              g.mapLanes t fun x => { x with st := .mon m, buf := none }))))))

/-- PHASE and MONW (R308 to R310, R349, R394). -/
def Obligations.PhaseForms : Prop := phaseCompletes ∧ monwCompletes

/-! ## Scheduling -/

/-- SPAWN and JDEC check their pointer, wait for the group's operations, publish the core's words through
the boundary unit, and then, once the waybill's home is ready (R304), act on the waybill in one step: SPAWN
places a WAITING waybill whose JOIN is zero and answers 0, else 3 or 1, and 2 for one that is not well formed;
JDEC subtracts its amount, answers the old JOIN, and leaves a JOIN below it unchanged with a record; both
close the stage (R368). While the home is not ready the group keeps the boundary unit, with nothing more to
publish (log entry 126's choice). TQRY writes the queue's two words, zero for a queue above 15 and in
deterministic mode, which sets TIMING (R369). -/
def Obligations.SchedulingForms : Prop :=
  ∀ (s : State) (g : Group) (t : LaneMask) (lo : Nat) (p : Pred) (c : Ctl) (d a b : Reg),
    let k := s.cur.core
    let x := s.core k
    let ptr := pairUp (g.reg x a.toNat lo) (g.reg x (a.toNat + 1) lo)
    let n := (g.reg x b.toNat lo).toNat
    let found := fun (u v : State) (pa : Nat) => u.reachWb k g.ctx ptr = (.at pa, v) ∧
      (v.die (pa / 2 ^ 38)).out = false ∧ v.poisoned pa 32 = false ∧ v.poisoned (pa + 32) 32 = false
    (Turn s p g t lo → Ready g [a.toNat, a.toNat + 1, d.toNat] → ptrOfs ptr % 64 = 0 →
      (∀ pa s1, found s s1 pa → g.log = [] → g.cnt.ld = 0 → g.cnt.st = 0 → g.cnt.tl = 0 →
        (∀ q ∈ g.streams, q = []) → UnitFree s → s.deadLine k = none →
        let u := (unitTaken s1 fun j u => u.sendAll k g.ctx false j).park
        exec (.spawn p d a) s = .next u ∧ (Ready g [b.toNat] → exec (.jdec p d a b) s = .next u)) ∧
      (∀ job acked, UnitReady s job acked →
        let v := if job = 0 then committed s job acked
          else ((committed s job acked).movePartials k).keepAcks k acked
        ∀ pa u, found v u pa →
          (u.homeReady (pa / 128) = false →
            let b0 : Boundary := { slot := s.cur.slot, job := 0, since := u.steps, sent := true, pending := []
                                   acked := [], hostWait := 0 }
            let w := (u.takeUnit k s.cur.slot b0).park
            exec (.spawn p d a) s = .next w ∧ (Ready g [b.toNat] → exec (.jdec p d a b) s = .next w)) ∧
          (u.homeReady (pa / 128) = true →
            let answer := fun (i : Instr) (v : Nat) (r : State) =>
              exec i s = .next ((r.putAll t d.toNat (BitVec.ofNat 32 v)).next.close true)
            let join := (u.wb pa 2).toNat % 2 ^ 32
            (u.wbState pa ≠ 0 → answer (.spawn p d a) 3 u) ∧
            (u.wbState pa = 0 → join ≠ 0 → answer (.spawn p d a) 1 u) ∧
            (u.wbState pa = 0 → join = 0 →
              (u.wellFormed g.ctx pa = .ok →
                answer (.spawn p d a) 0 ((u.setWbState pa 1).placeWb g.ctx ptr pa)) ∧
              (∀ w, u.wellFormed g.ctx pa = .fails w →
                answer (.spawn p d a) 2 (u.badWb g.ctx ptr pa w))) ∧
            (Ready g [b.toNat] → g.det = false →
              let u1 := u.setWb pa 2 fun w => setFld w 0 32 (join - n)
              (join < n → answer (.jdec p d a b) join (u.wbRecord g.ctx ptr 0)) ∧
              (n ≤ join → (n = 0 ∨ n < join ∨ u.wbState pa ≠ 0) → answer (.jdec p d a b) join u1) ∧
              (n = join → n ≠ 0 → u.wbState pa = 0 → u1.wellFormed g.ctx pa = .ok →
                answer (.jdec p d a b) join ((u1.setWbState pa 1).placeWb g.ctx ptr pa)))))) ∧
    (Turn s c.p g t lo → Ready g [a.toNat, d.toNat, d.toNat + 1] → Alike g x c.u t lo [a.toNat] [] →
      let words := fun l =>
        let q := (g.reg x a.toNat (from_ c.u lo l)).toNat
        if g.det = true ∨ 15 < q then ((0 : Word), (0 : Word))
        else ((s.ctx g.ctx).queues.getD q RQueue.zero).tqry
      exec (.tqry c d a) s = .next ((s.putRegs k s.cur.slot ((lanesOf t).flatMap fun l =>
        [(l, d.toNat, (words l).1), (l, d.toNat + 1, (words l).2)])).next.updGroup k s.cur.slot fun q =>
          if g.det then { q with detSticky := q.detSticky ||| 1 } else q))

/-! ## Traps -/

/-- A synchronous trap stops its group with the threads of the instruction as its mask, and writes the
slot's record into the core's trap slots and the same words into its 64 bytes of reserved memory: cause,
lane, address and AUX, the instruction's PC and word, RPC = PC + 8; the two sectors written whole take fresh
check bits (R102). Nothing else of the machine changes, but that PEER_DEAD, which is fatal, makes the team die
(R372, R373, R381; that it dies by itself is log entry 29's reading). One that arrives while another is pending
is not taken: its record goes to the error queue with the action KILL (R373). TRAP takes TRAP_SW with its code
in AUX (R378). Where the trap slots stand in memory is the model's free value (log entry 2), with slot k at 64 k
bytes from it (log entry 115's reading). -/
def Sys2Proof.Slice0.trapEntry : Prop :=
  ∀ (s : State) (g : Group) (t : LaneMask) (lo : Nat) (p : Pred) (code : BitVec 20) (k : TrapInfo),
    Turn s p g t lo →
    exec (.trap p code) s = .next (s.takeTrap ⟨.trapSw, lo, 0, code.toNat⟩) ∧
    (let u := s.takeTrap k
     let c := s.cur.core
     (g.trap = true → ∃ r : TrapRec, u = s.aeqAppend g.ctx r ∧ r.cause = k.cause ∧ r.act = .kill) ∧
     (g.trap = false →
       (k.cause ≠ .peerDead → u.teams = s.teams) ∧
       (k.cause = .peerDead → ∀ tm, tabFind s.teams g.team = some tm →
         tabFind u.teams g.team = some { tm with dying := true }) ∧
       { u with cores := s.cores, mem := s.mem, ecc := s.ecc, teams := s.teams } = s ∧ (∀ n, n ≠ c → u.core n = s.core n) ∧
       (∀ n, n ≠ s.cur.slot → u.group c n = s.group c n) ∧
       { u.core c with trapSlots := (s.core c).trapSlots, groups := (s.core c).groups } = s.core c ∧
       u.group c s.cur.slot =
         some { g with trap := true, trapMask := s.cur.mask, parked := none, parkBo := none, logStall := none } ∧
       ∃ r, tabFind (u.core c).trapSlots s.cur.slot = some r ∧
         u.mem = memStore s.mem ((Config.trapArea c).toNat + 64 * s.cur.slot) (bytesOfWords r.words) ∧
         u.ecc = (s.ecc.filter fun e => !(decide ((Config.trapArea c).toNat + 64 * s.cur.slot ≤ 32 * e.1) &&
           decide (32 * e.1 + 32 ≤ (Config.trapArea c).toNat + 64 * s.cur.slot + 64))) ∧
         r.cause = k.cause ∧
         r.lane = BitVec.ofNat 6 k.lane ∧ r.addr = k.addr ∧ r.aux = BitVec.ofNat 20 k.aux ∧ r.async = false ∧
         r.logged = false ∧ r.pc = s.cur.pc ∧ r.iword = s.cur.iword ∧ r.rpc = pcAdd s.cur.pc 8 ∧
         r.gslot = BitVec.ofNat 6 s.cur.slot ∧ r.gtime = s.gtime))

/-- TRAP.hnd sets the group's handler to the pair vA with its record at vB, or clears it for a null
pointer; a record address that is not a multiple of 64 raises MISALIGNED, one beyond the scratchpad
SEG_LIMIT (R378). -/
def Sys2Proof.Slice0.trapHandler : Prop :=
  ∀ (s : State) (g : Group) (t : LaneMask) (lo : Nat) (p : Pred) (a b : Reg),
    let x := s.core s.cur.core
    let h := pairUp (g.reg x a.toNat lo) (g.reg x (a.toNat + 1) lo)
    let r := g.reg x b.toNat lo
    let set := fun (k : Option (DWord × Word)) =>
      (s.setGroup s.cur.core s.cur.slot { g with handler := k }).next
    Turn s p g t lo → Ready g [a.toNat, a.toNat + 1, b.toNat] →
    (h = 0 → exec (.trapHnd p a b) s = .next (set none)) ∧
    (h ≠ 0 → r.toNat % 64 ≠ 0 →
      exec (.trapHnd p a b) s = .next (s.takeTrap ⟨.misaligned, lo, r.setWidth 64, 0⟩)) ∧
    (h ≠ 0 → r.toNat % 64 = 0 → s.scrSize g.team s.cur.core < r.toNat + 64 →
      exec (.trapHnd p a b) s = .next (s.takeTrap ⟨.segLimit, lo, r.setWidth 64, 0⟩)) ∧
    (h ≠ 0 → r.toNat % 64 = 0 → r.toNat + 64 ≤ s.scrSize g.team s.cur.core →
      exec (.trapHnd p a b) s = .next (set (some (h, r))))

/-- Taking a synchronous trap, TRAP and TRAP.hnd (R372, R373, R378). -/
def Obligations.TrapForms : Prop := trapEntry ∧ trapHandler

/-- A firmware instruction of form SYS answers `v` in vD of the lanes taking part, in state `u`. -/
def Sys2Proof.Slice0.answers (s : State) (t : LaneMask) (d : Reg) (i : Instr) (v : Nat) (u : State) : Prop :=
  exec i s = .next (u.putAll t d.toNat (BitVec.ofNat 32 v)).next

/-- ERET ends the trap of the group in slot vA[5:0] of the scribe's core and answers 0; 1 where there is
none, 2 where its cause does not allow the action or DELIVER finds more than one PC, 3 where DELIVER finds
no handler's record in the scratchpad (R374, R377). RETRY and SKIP take the group out of its trap; SKIP of
a synchronous trap moves its threads to RPC (R375). DELIVER answers 0 at once, before the handler runs (log
entry 30's reading), and a PEER_DEAD trap allows KILL alone (log entry 29's reading). -/
def Obligations.EretForms : Prop :=
  ∀ (s : State) (g : Group) (t : LaneMask) (lo : Nat) (p : Pred) (d a : Reg),
    let c := s.cur.core
    let n := (g.reg (s.core c) a.toNat lo).toNat % 64
    let form := fun (e : ErAct) => match e with
      | .retry => Instr.eretRetry p d a
      | .skip => .eretSkip p d a
      | .deliver => .eretDeliver p d a
      | .kill => .eretKill p d a
    Turn s p g t lo → g.fw = true → c < 256 → Ready g [a.toNat, d.toNat] →
    (∀ e, s.group c n = none ∨ (∃ q, s.group c n = some q ∧ q.trap = false) →
      answers s t d (form e) 1 s) ∧
    (∀ q r, s.group c n = some q → q.trap = true → tabFind (s.core c).trapSlots n = some r →
      (∀ e, r.allows e = false ∨ (e = .deliver ∧ q.onePc = false) → answers s t d (form e) 2 s) ∧
      (r.allows .deliver = true → q.onePc = true → s.handlerOk c q = false →
        answers s t d (form .deliver) 3 s) ∧
      (∀ e, r.allows e = true → (e = .deliver → q.onePc = true ∧ s.handlerOk c q = true) →
        answers s t d (form e) 0 (s.endBy c n q r e)) ∧
      (∃ q', (s.endBy c n q r .retry).group c n = some q' ∧ q'.trap = false ∧ q'.lanes = q.lanes) ∧
      (r.async = false → ∃ q', (s.endBy c n q r .skip).group c n = some q' ∧ q'.trap = false ∧
        ∀ l x, q.lanes[l]? = some x → ∃ y, q'.lanes[l]? = some y ∧
          y.pc = if q.trapMask.getLsbD l then r.rpc else x.pc))

/-! ## Firmware -/

/-- A removal of cached entries made in state `u` by instruction `i`: OK at once where every access checked
before has completed, else the sequencer waits for that (R89). -/
def Sys2Proof.Slice0.removes (s : State) (t : LaneMask) (d : Reg) (i : Instr) (u : State) : Prop :=
  (u.accessesDone u.steps = true → answers s t d i 0 (u.settled s.seqKey)) ∧
  (u.accessesDone u.steps = false →
    exec i s = .next (State.park { u with invs := u.invs ++ [{ key := s.seqKey, time := u.steps }] }))

/-- OBJSET writes a descriptor or an extent entry into memory and answers 0, an extent that becomes present
waking what waits for it; OBJINV removes every cached entry of an object, or of a context, and answers 0 once
every access checked before has completed (log entry 42's reading of that wait); XMOVE moves a quiesced
context's extent, with the host's consent where it leaves the host's bias. 1 answers a malformed operand (an
entry's form looks at the reserved ranges, a free value, log entry 2, at each 64 KiB of the extent, log entry
43; a non-zero XIDX where the form does not use it is malformed, log entry 139's choice; XMOVE's new entry with
P = 0 is malformed, log entry 100's choice), 3 an object that is not there, 2 an extent that is present
elsewhere; XMOVE answers 4 without right M, 5 a context not quiesced, 6 an absent extent (R86 to R90). While
another sequencer's XMOVE of the extent is under way each waits (R90). -/
def Obligations.FirmwareObjects : Prop :=
  ∀ (s : State) (g : Group) (t : LaneMask) (lo : Nat) (p : Pred) (d a b : Reg),
    let x := s.core s.cur.core
    let v := pairUp (g.reg x a.toNat lo) (g.reg x (a.toNat + 1) lo)
    let w := pairUp (g.reg x b.toNat lo) (g.reg x (b.toNat + 1) lo)
    let w1 := pairUp (g.reg x (b.toNat + 2) lo) (g.reg x (b.toNat + 3) lo)
    let arg := objArg v false
    let ext := objArg v true
    let dsc : Desc := ⟨w, w1⟩
    let at_ := fetchDesc s 0 ext.ctx ext.on
    let old := extEntry s at_ ext.xidx
    let listed := s.objOk ext = true ∧ at_.v = true ∧ ext.xidx < at_.extents
    let form := extFormOk w (if s.objOk ext = true ∧ at_.v = true then at_.extLog else 16)
    let formed := fun (i : Instr) (P : Prop) => if extP w = true ∧ form = false then answers s t d i 1 s else P
    let same := extHome w = extHome old ∧ extBias w = extBias old ∧ extBase w = extBase old
    let one := [(Instr.objinv p d a, false), (.objinvAll p d a, true)]
    let clear := fun (hit : Moving → Prop) => ∀ m ∈ s.moving, hit m → m.key = s.seqKey
    Turn s p g t lo → g.fw = true → Ready g [d.toNat, a.toNat, a.toNat + 1] →
    (Ready g [b.toNat, b.toNat + 1, b.toNat + 2, b.toNat + 3] →
      clear (fun m => m.ctx = arg.ctx ∧ m.on = arg.on) →
      (arg.ok = false ∨ dsc.formOk = false → answers s t d (.objsetDesc p d a b) 1 s) ∧
      (arg.ok = true → dsc.formOk = true →
        (s.objOk arg = false → answers s t d (.objsetDesc p d a b) 3 s) ∧
        (s.objOk arg = true → answers s t d (.objsetDesc p d a b) 0
          (s.storeBytes fwCtx ((s.ctx arg.ctx).otb + 16 * arg.on) (bytesOfWords [w, w1]))))) ∧
    (Ready g [b.toNat, b.toNat + 1] →
      let i := Instr.objsetExt p d a b
      let here := fun (m : Moving) => m.ctx = ext.ctx ∧ m.on = ext.on ∧ m.ext = ext.xidx
      (¬ clear here → exec i s = .next s.park) ∧
      (clear here →
      (ext.ok = false → answers s t d i 1 s) ∧
      (ext.ok = true →
        (listed → extP old = true → extP w = true → ¬ same → formed i (answers s t d i 2 s)) ∧
        (¬ listed → formed i (answers s t d i 3 s)) ∧
        (listed → (extP old = true → extP w = true → same) →
          let u := s.storeBytes fwCtx (at_.entryAt ext.xidx) (bytesOfWords [w])
          formed i (answers s t d i 0
            (if extP w = true ∧ extP old = false then u.extentArrived ext.ctx ext.on ext.xidx else u)))))) ∧
    (∀ i ∈ one,
      let arg := objArg v i.2
      let there := if i.2 then s.resident arg.ctx else s.objOk arg
      let mine := fun (c o : Nat) => c == arg.ctx && (i.2 || o == arg.on)
      let u := (s.invalidate arg.ctx (if i.2 then none else some arg.on)).markOld mine
      (∀ r, s.removal = some r →
        (s.accessesDone r.time = true → answers s t d i.1 0 (s.settled r.key)) ∧
        (s.accessesDone r.time = false → exec i.1 s = .next s.park)) ∧
      (s.removal = none → clear (fun m => m.ctx = arg.ctx ∧ (i.2 = true ∨ m.on = arg.on)) →
        (arg.ok = false → answers s t d i.1 1 s) ∧
        (arg.ok = true → there = false → answers s t d i.1 3 s) ∧
        (arg.ok = true → there = true →
          removes s t d i.1 u ∧
          (∀ c e, e ∈ (u.core c).desc → e ∈ (s.core c).desc ∧ (e.1 = arg.ctx → i.2 = false ∧ e.2.1 ≠ arg.on)) ∧
          (∀ k e, e ∈ (u.cluster k).extents →
            e ∈ (s.cluster k).extents ∧ (e.1 = arg.ctx → i.2 = false ∧ e.2.1 ≠ arg.on)) ∧
          u.mem = s.mem))) ∧
    (Ready g [b.toNat, b.toNat + 1] → s.removal = none →
      let i := Instr.xmove p d a b
      ((∃ m ∈ s.moving, m.key = s.seqKey) →
        ((∃ m ∈ s.moves, m.2 = s.seqKey) → exec i s = .next s.park) ∧
        ((∀ m ∈ s.moves, m.2 ≠ s.seqKey) → removes s t d i (s.moveEnd ext at_ w))) ∧
      ((∀ m ∈ s.moving, m.key ≠ s.seqKey) →
        clear (fun m => m.ctx = ext.ctx ∧ m.on = ext.on ∧ m.ext = ext.xidx) →
        (ext.ok = false ∨ extP w = false → answers s t d i 1 s) ∧
        (ext.ok = true → extP w = true →
          (¬ listed → formed i (answers s t d i 3 s)) ∧
          (listed →
            (at_.grants .m = false → formed i (answers s t d i 4 s)) ∧
            (at_.grants .m = true → s.quiesced ext.ctx = false → formed i (answers s t d i 5 s)) ∧
            (at_.grants .m = true → s.quiesced ext.ctx = true →
              let m : Moving := { key := s.seqKey, ctx := ext.ctx, on := ext.on, ext := ext.xidx }
              let u : State := { s.moveBegin at_ old w with moving := s.moving ++ [m] }
              (extP old = false → formed i (answers s t d i 6 s)) ∧
              (extP old = true → extBias old = true → extBias w = false →
                formed i (exec i s = .next (State.park { u with
                  moves := s.moves ++ (extLines at_ old).map fun l => (l, s.seqKey) }))) ∧
              (extP old = true → (extBias old = false ∨ extBias w = true) →
                formed i (removes s t d i (u.moveEnd ext at_ w))))))))

/-- QUIESCE and GANGSW (R396 to R398): 1 answers a context above 7, 3 one that is not resident, 2 one that a
switch is armed to or from, or for GANGSW any armed switch, and 4 a time nearer than 100 µs. GANGSW arms the
switch. QUIESCE.resume clears the context's mark, and the running context's saved copy requests are in their
queues again; drain and preempt set the mark, park while the running context has teams or engine work left
(preempt stops and saves the teams, then saves the copy requests not started, log entry 38's reading, and waits
for those started), or while a core's words would overtake an earlier request of their route, and then write
every core through. -/
def Obligations.ContextForms : Prop :=
  ∀ (s : State) (g : Group) (t : LaneMask) (lo : Nat) (p : Pred) (d a b : Reg),
    let x := s.core s.cur.core
    let c := (g.reg x a.toNat lo).toNat
    let marked := fun (q : Bool) => s.updCtx c fun y => { y with qui := q }
    let runs := (s.ctx c).state = .running
    Turn s p g t lo → g.fw = true → Ready g [d.toNat, a.toNat] → g.parked = none →
    (∀ i ∈ [Instr.quiesceDrain p d a, .quiescePreempt p d a, .quiesceResume p d a],
      (7 < c → answers s t d i 1 s) ∧
      (c ≤ 7 → s.resident c = false → answers s t d i 3 s) ∧
      (c ≤ 7 → s.resident c = true → s.switching c = true → answers s t d i 2 s)) ∧
    (c ≤ 7 → s.resident c = true → s.switching c = false →
      answers s t d (.quiesceResume p d a) 0 (if runs then (marked false).unshelve c else marked false) ∧
      (¬ runs → answers s t d (.quiesceDrain p d a) 0 (marked true) ∧
        answers s t d (.quiescePreempt p d a) 0 (marked true)) ∧
      (runs → (s.anyTeam c = true ∨ s.anyEngine c = true ∨ (marked true).canFlushAll = false) →
        exec (.quiesceDrain p d a) s = .next (marked true).park) ∧
      (runs → s.anyTeam c = false → s.anyEngine c = false → (marked true).canFlushAll = true →
        answers s t d (.quiesceDrain p d a) 0 (marked true).flushAll) ∧
      (runs → let u := (marked true).stopTeams fun q => q.ctx == c
        let v := u.shelve c
        (u.anyTeam c = true → exec (.quiescePreempt p d a) s = .next u.park) ∧
        (u.anyTeam c = false → (v.copying c = true ∨ v.canFlushAll = false) →
          exec (.quiescePreempt p d a) s = .next v.park) ∧
        (u.anyTeam c = false → v.copying c = false → v.canFlushAll = true →
          answers s t d (.quiescePreempt p d a) 0 v.flushAll))) ∧
    (Ready g [a.toNat + 1, b.toNat] →
      let at_ := pairUp (g.reg x a.toNat lo) (g.reg x (a.toNat + 1) lo)
      let k := (g.reg x b.toNat lo).toNat
      let i := Instr.gangsw p d a b
      (7 < k → answers s t d i 1 s) ∧
      (k ≤ 7 → s.resident k = false → answers s t d i 3 s) ∧
      (k ≤ 7 → s.resident k = true → s.armed.isSome = true → answers s t d i 2 s) ∧
      (k ≤ 7 → s.resident k = true → s.armed = none →
        (at_.toNat < s.gtime.toNat + 100000 → answers s t d i 4 s) ∧
        (s.gtime.toNat + 100000 ≤ at_.toNat →
          answers s t d i 0 { s with armed := some { ctx := k, t := at_ } })))

/-- SCANRUN, CLUOFF, DIEOFF and DIEON (R389 to R400). A number out of range answers 1; a die or cluster
that is not in the state the form needs 3 (for SCANRUN exactly a withdrawn cluster or a die out of service,
log entry 59's reading of R396); the last cluster in service, and die 0, 6; a scan under way 2. Each drains
what it works on and parks until that is done and its cores' words may be written through; SCANRUN first waits
until its four cores have raised their summaries (R437; log entry 140's choice), then answers 0 or, where the
scan by the patterns of the image that flash holds fails (the model's free value, log entry 2), 5, and while
another cluster's overdue scan is due waits (that the wait ends with that cluster's next scan is log entry 97's
choice); CLUOFF withdraws its cluster; DIEOFF takes its die out (with what log entry 62 says of its last words);
DIEON starts the die and answers 0 when its cores are tested. -/
def Sys2Proof.Slice0.serviceForms : Prop :=
  ∀ (s : State) (g : Group) (t : LaneMask) (lo : Nat) (p : Pred) (d a b : Reg),
    let x := s.core s.cur.core
    let k := (g.reg x a.toNat lo).toNat
    let n := (g.reg x b.toNat lo).toNat
    let drained := fun (u : State) =>
      let r := u.drainClusters [k]
      (r.1, r.2 && r.1.canFlush (clusterCores [k]))
    let tested := ∀ c ∈ clusterCores [k], (s.core c).done = true
    let scanning := drained { s with scanning := some k }
    let written := scanning.1.flushCores (clusterCores [k])
    let off :=
      let r := (s.updDie k fun x => { x with out := true }).drainClusters (dieClusters k)
      (r.1, r.2 && r.1.canFlush (dieCores k))
    let clu := (drained s).1.flushCores (clusterCores [k])
    Turn s p g t lo → g.fw = true → Ready g [d.toNat, a.toNat] →
    (g.parked = none →
      (Ready g [b.toNat] →
        (63 < k ∨ 15 < n → answers s t d (.scanrun p d a b) 1 s) ∧
        (k ≤ 63 → n ≤ 15 →
          ((s.cluster k).withdrawn = true ∨ (s.die (k / 16)).out = true →
            answers s t d (.scanrun p d a b) 3 (s.scanOver k)) ∧
          ((s.cluster k).withdrawn = false → (s.die (k / 16)).out = false →
            (s.scanning.isSome = true → answers s t d (.scanrun p d a b) 2 s) ∧
            (s.scanning = none → (s.floorDue = none ∨ s.floorDue = some k) → ¬ tested →
              exec (.scanrun p d a b) s = .next s.park) ∧
            (s.scanning = none → (s.floorDue = none ∨ s.floorDue = some k) → tested →
              (scanning.2 = false → exec (.scanrun p d a b) s = .next scanning.1.park) ∧
              (scanning.2 = true → if Config.scanPasses (s.flashOf 5).image k n s.steps = true
                then answers s t d (.scanrun p d a b) 0 ((written.scanPass k).scanOver k)
                else answers s t d (.scanrun p d a b) 5 ((written.suspects k).scanOver k))) ∧
            (s.scanning = none → (∃ j, s.floorDue = some j ∧ j ≠ k) →
              exec (.scanrun p d a b) s = .next s.park)))) ∧
      (63 < k → answers s t d (.cluoff p d a) 1 s) ∧
      (k ≤ 63 →
        ((∀ j ∈ s.inService, j = k) → answers s t d (.cluoff p d a) 6 s) ∧
        ((∃ j ∈ s.inService, j ≠ k) →
          ((s.cluster k).inSvc = false → answers s t d (.cluoff p d a) 3 s) ∧
          ((s.cluster k).inSvc = true →
            ((drained s).2 = false → exec (.cluoff p d a) s = .next (drained s).1.park) ∧
            ((drained s).2 = true → answers s t d (.cluoff p d a) 0 ((clu.withdraw [k]).scanOver k))))) ∧
      (3 < k → answers s t d (.dieoff p d a) 1 s ∧ answers s t d (.dieon p d a) 1 s) ∧
      (k = 0 → answers s t d (.dieoff p d a) 6 s ∧ answers s t d (.dieon p d a) 6 s) ∧
      (0 < k → k ≤ 3 →
        ((s.die k).out = true → answers s t d (.dieoff p d a) 3 s ∧
          exec (.dieon p d a) s = .next (s.dieUp k).park) ∧
        ((s.die k).out = false → answers s t d (.dieon p d a) 3 s ∧
          (off.2 = true → answers s t d (.dieoff p d a) 0 (off.1.dieDown k)) ∧
          (off.2 = false → exec (.dieoff p d a) s = .next off.1.park)))) ∧
    (g.parked.isSome = true →
      ((∀ c ∈ dieCores k, (s.core c).done = true) → answers s t d (.dieon p d a) 0 s) ∧
      ((∃ c ∈ dieCores k, (s.core c).done = false) → exec (.dieon p d a) s = .next s.park))

/-- RPAIR and RPAIR.done (R436 to R439): 5 answers the Coachman, 4 a core whose summary is raised. RPAIR
answers 1 for a bank or row the core does not have or reserved bits, 2 for a row already recorded or a
bank retired, takes the lowest good free spare of the bank and answers 0, or retires the bank and answers
3. RPAIR.done answers 1 for a code above 255, else raises the summary and answers 0. -/
def Sys2Proof.Slice0.repairForms : Prop :=
  ∀ (s : State) (g : Group) (t : LaneMask) (lo : Nat) (p : Pred) (d a : Reg),
    let c := s.cur.core
    let x := s.core c
    let v := (g.reg x a.toNat lo).toNat
    let bank := v % 64
    let row := v / 64 % 256
    let known := ∃ e ∈ [4 * bank, 4 * bank + 1, 4 * bank + 2, 4 * bank + 3],
      (x.repairEntry e).getLsbD 8 = true ∧ (x.repairEntry e).toNat % 256 = row
    Turn s p g t lo → g.fw = true → Ready g [d.toNat, a.toNat] →
    (256 ≤ c → answers s t d (.rpair p d a) 5 s ∧ answers s t d (.rpairDone p d a) 5 s) ∧
    (c < 256 → x.done = true → answers s t d (.rpair p d a) 4 s ∧ answers s t d (.rpairDone p d a) 4 s) ∧
    (c < 256 → x.done = false →
      (256 ≤ v → answers s t d (.rpairDone p d a) 1 s) ∧
      (v < 256 → answers s t d (.rpairDone p d a) 0
        ((s.setCore c (x.raise (BitVec.ofNat 8 v))).raised c)) ∧
      (2 ^ 14 ≤ v ∨ x.tested.1 ≤ bank ∨ x.tested.2.1 ≤ row → answers s t d (.rpair p d a) 1 s) ∧
      (v < 2 ^ 14 → bank < x.tested.1 → row < x.tested.2.1 →
        (known ∨ bank ∈ x.retired → answers s t d (.rpair p d a) 2 s) ∧
        (¬ known → bank ∉ x.retired →
          (∀ e, x.goodSpare bank = some e → ∃ y : Core, answers s t d (.rpair p d a) 0 (s.setCore c y) ∧
            y.repairEntry e = BitVec.ofNat 16 (256 + row) ∧
            (∀ j, j ≠ e → y.repairEntry j = x.repairEntry j) ∧
            { y with repair := x.repair, spares := x.spares } = x) ∧
          (x.goodSpare bank = none → answers s t d (.rpair p d a) 3 (s.setCore c { x with
            retired := x.retired ++ [bank]
            roles := { x.roles with cache := x.roles.cache.filter (· ≠ bank) } })))))

/-- SCANRUN, CLUOFF, DIEOFF, DIEON and RPAIR (R389 to R400, R436 to R439). -/
def Obligations.ServiceAndRepair : Prop := serviceForms ∧ repairForms

/-! ## The two masters -/

/-- Accesses of the host (R19, R414 to R419). A frozen host gets the error reply: all-ones with poison for a
read, also of a register. A read of lines that no die in service holds, or of a reserved range, reads all-ones
with poison; else the homes' bytes, all-ones with poison where a sector is poisoned. A write into a reserved
range freezes the host, one to no memory is counted and dropped, and another is written at the homes. The
doorbells act on a resident context, also through their registers; MBOX takes 8 bytes; MBDB bit 0 submits its
command (captured then: log entry 69's choice), and while BUSY is set any write to it is a violation. A read
waits while a line's PEND is set, and so does a doorbell that meets one: both are kept and performed later,
whatever becomes of the host (log entry 127's choice). GO completes the n-th request that waits for the host; of
a core's writes to one line the first (R185). That lines of a die out of service count as unpopulated, and that
a GO brings 128 bytes or leaves the home's, is log entry 75's choice; the register read, for which the table has
no row, log entry 128's. -/
def Obligations.HostAccesses : Prop :=
  ∀ (s : State) (a n c q off : Nat) (bs : List Byte) (tail : Word) (v : DWord),
    let u : State := { s with rejected := false }
    let refused := fun (i : Instr) (k : Nat) => exec i s =
      .next { s with rejected := true, hostReply := List.replicate k 0xFF, hostPoison := true }
    (s.hostFrozen = true → s.registerRead off =
        { s with rejected := true, hostReply := List.replicate 8 0xFF, hostPoison := true } ∧
      refused (.hostMemRead a n) n ∧ refused (.hostMemWrite a bs) 0 ∧
      refused (.qdb c q tail) 0 ∧ refused (.aeqh c tail) 0 ∧ refused (.coldb c tail) 0 ∧
      refused (.hostRegisterWrite off v) 0) ∧
    (s.hostFrozen = false →
      (if (linesOf a n).any (fun l => s.noMemory l || reservedLine l) = true then
          exec (.hostMemRead a n) s =
            .next { u with hostReply := List.replicate n 0xFF, hostPoison := true }
        else if s.rangeReady a n = true then
          let t := u.readRange a n
          exec (.hostMemRead a n) s = .next { t with
            hostReply := if t.poisoned a n = true then List.replicate n 0xFF else memBytes t.mem a n
            hostPoison := t.poisoned a n }
        else exec (.hostMemRead a n) s = .next { u with hostq := s.hostq ++ [.read a n] }) ∧
      s.registerRead off = { u with hostReply := bytesOfNat 8 (s.bar0 off).toNat, hostPoison := false } ∧
      exec (.hostMemWrite a bs) s = .next
        (if (linesOf a bs.length).any reservedLine = true then { u with hostFrozen := true, rejected := true }
          else if (linesOf a bs.length).any s.noMemory = true then { u with dropped := s.dropped + 1 }
          else u.writeChunks s.running [(a, bs.length)] bs) ∧
      (s.resident c = true →
        exec (.aeqh c tail) s = .next (u.updCtx c fun x => { x with head := tail })) ∧
      exec (.qdb c q tail) s = .next (u.queueDoorbell c q tail) ∧
      (let e := (s.ctx c).queues.getD q RQueue.zero
       let others := s.hostq.filter fun r => match r with | .queue i j _ => !(i == c && j == q) | _ => true
       s.resident c = true → s.boot = .ready → e.en = true → (tail - e.tail).toNat ≠ 0 → e.count < 2 ^ e.log2 →
         s.rangeReady (e.base + 8 * (e.tail.toNat % 2 ^ e.log2)) 8 = false →
         exec (.qdb c q tail) s = .next { u with hostq := others ++ [.queue c q tail] }) ∧
      exec (.coldb c tail) s = .next (u.collDoorbell c tail) ∧
      (c < 8 → q < 16 →
        exec (.hostRegisterWrite (0x1000 + 128 * c + 8 * q) v) s = exec (.qdb c q (v.setWidth 32)) s) ∧
      (c < 8 → exec (.hostRegisterWrite (0x1800 + 8 * c) v) s = exec (.aeqh c (v.setWidth 32)) s ∧
        exec (.hostRegisterWrite (0x1840 + 8 * c) v) s = exec (.coldb c (v.setWidth 32)) s ∧
        exec (.hostRegisterWrite (0x40 + 8 * c) v) s = .next { u with
          mbox := s.mbox.take (8 * c) ++ bytesOfNat 8 v.toNat ++ s.mbox.drop (8 * c + 8) }) ∧
      (s.mbBusy = true → exec (.hostRegisterWrite 0x80 v) s =
        .next { u with hostFrozen := true, rejected := true }) ∧
      (s.mbBusy = false → v.getLsbD 0 = false → exec (.hostRegisterWrite 0x80 v) s = .next u) ∧
      (v.getLsbD 0 = true →
        (s.mbBusy = false → mbOk s.mbox = true → exec (.hostRegisterWrite 0x80 v) s =
          .next { u with mbBusy := true, mbCmd := s.mbox }) ∧
        (s.mbBusy = false → mbOk s.mbox = false → exec (.hostRegisterWrite 0x80 v) s =
          .next { u with mbResult := 1, hostFrozen := true, rejected := true }))) ∧
    (∀ f i, s.hostItems[n]? = some (.fill i) → s.fills[i]? = some f →
      exec (.go n bs) s = .next { s with fills := s.fills.set i { f with go := some (s.goLine f.line bs) } }) ∧
    (∀ r i, s.hostItems[n]? = some (.atom i) → s.atoms[i]? = some r →
      let t := s.storeLine fwCtx (r.pa / 128) (s.goLine (r.pa / 128) bs) (BitVec.allOnes 128)
      exec (.go n bs) s = .next { t with atoms := s.atoms.set i { r with go := true } }) ∧
    (∀ w i, s.hostItems[n]? = some (.write i) → s.hostWrites[i]? = some w →
      ((∃ v ∈ s.hostWrites.take i, v.core = w.core ∧ v.line = w.line) → exec (.go n bs) s = .next s) ∧
      ((∀ v ∈ s.hostWrites.take i, ¬ (v.core = w.core ∧ v.line = w.line)) →
        let u := State.homeWrite { s with hostWrites := listDrop1 s.hostWrites i } { w with nt := true }
        (w.nt = true → exec (.go n bs) s = .next u) ∧
        (w.nt = false → exec (.go n bs) s = .next (u.updCore w.core fun x => { x with
          boundary := x.boundary.map fun b =>
            if b.job = w.job then { b with hostWait := b.hostWait - 1 } else b })))) ∧
    (∀ i, s.hostItems[n]? = some (.move i) →
      exec (.go n bs) s = .next { s with moves := listDrop1 s.moves i })

/-- Mailbox commands (R418): the Coachman performs the submitted command, clears BUSY, sets RESULT and
signals vector 0; what it reads in memory it reads at home, once PEND is clear. MKRES answers 3 for a context
that is not empty, 2 for an image that is not aligned or whose job tag is taken; EVICT 3 unless the context is
resident and not running, else it empties the context once its teams' waybills have taken FAILED, and a switch
armed to it is armed no longer (log entry 72's choice); SWITCH what GANGSW answers, every refusal as 3; SETCR 2
for a bad ring; FWLOAD 2 for a bad address, 4 for a refused image, which freezes the host; UNFRZSB releases the
sideband (R385, R431 to R433, R20). That RESULT is 2 for a misaligned image or address and a bad ring is log
entry 70's choice. -/
def Obligations.HostCommands : Prop :=
  ∀ (s : State),
    let f := mbField s.mbCmd
    let c := f 8 1
    let a := f 16 8
    let does := fun (i : Instr) (r : Nat) (u : State) => exec i s =
      .next { u with mbBusy := false, mbResult := r, msix := u.msix ++ [0] }
    s.mbBusy = true → s.boot = .ready →
    (f 0 1 = 1 → s.rangeReady a 640 = true →
      let s := s.readRange a 640
      ((s.ctx c).state ≠ .empty → does .mkres 3 s) ∧
      ((s.ctx c).state = .empty →
        let tag := (memDW s.mem a).extractLsb' 32 32
        (a % 64 ≠ 0 ∨ (s.tagged? tag).isSome = true → does .mkres 2 s) ∧
        (a % 64 = 0 → s.tagged? tag = none → ∃ u : State, does .mkres 0 u ∧
          (u.ctx c).state = .resident ∧ (u.ctx c).jtag = tag ∧ u.mem = s.mem ∧ u.cores = s.cores ∧
          (u.ctx c).otb = (memDW s.mem (a + 8)).toNat % 2 ^ 40 ∧
          (u.ctx c).otl = (memDW s.mem (a + 8)).toNat / 2 ^ 40 % 2 ^ 21))) ∧
    (f 0 1 = 2 →
      let t := s.failTeams c
      ((s.ctx c).state ≠ .resident → does .evict 3 s) ∧
      ((s.ctx c).state = .resident →
        (t.failing c = true → exec .evict s = .next t) ∧
        (t.failing c = false → ∃ u : State, does .evict 0 u ∧ u.ctx c = Ctx.init ∧ u.mem = t.mem ∧
          u.armed = (t.armed.filter fun k => k.ctx != c) ∧
          ∀ k m, tabFind u.teams k = some m → m.ctx = c → m.live = false))) ∧
    (f 0 1 = 3 →
      let r := s.arm c (BitVec.ofNat 64 a)
      (r.1 ≠ 0 → does .switch 3 s) ∧
      (r.1 = 0 → does .switch 0 { s with armed := some { ctx := c, t := BitVec.ofNat 64 a } })) ∧
    (f 0 1 = 4 →
      let l := f 9 1
      (l < 4 ∨ 16 < l ∨ a % 32 ≠ 0 → does .setcr 2 s) ∧
      (4 ≤ l → l ≤ 16 → a % 32 = 0 → does .setcr 0 { s with crBase := a, crLog2 := l, crTail := 0 })) ∧
    (f 0 1 = 5 → s.rangeReady a (f 24 4) = true →
      let s := s.readRange a (f 24 4)
      let img := memBytes s.mem a (f 24 4)
      (a % 8 ≠ 0 → does .fwload 2 s) ∧
      (a % 8 = 0 → if s.accepts img = false
        then does .fwload 4 { s with hostFrozen := true, rejected := true }
        else ∃ u : State, does .fwload 0 u ∧
        { u with flash := s.flash } = s ∧ (u.flashOf (imageType img)).image = img ∧
        (∀ k, k ≠ imageType img → u.flashOf k = s.flashOf k) ∧
        (s.flashOf (imageType img)).minSvn ≤ (u.flashOf (imageType img)).minSvn)) ∧
    (f 0 1 = 6 → does .unfrzsb 0 { s with sbFrozen := false })

/-- The sideband (R18 to R20, R429, R430, R433): a frozen one gets completion code 0x82, but for the SPDM
request GET_VERSION (byte 0x84, log entry 83's presumption). HEALTH returns the report; UNFRZHOST releases the
host; FWLOAD replaces an image it accepts, and a refused one freezes the sideband; DIERESET of die 0 cycles the
compute rails, of another takes its die down, once its clusters are drained, and starts it; a number above 3
freezes the sideband, and a die that the Stationer holds in reset stays there (log entry 77's choices). An SPDM
request is answered from the measurements of the loaded images; a vendor-defined one by the signature over what
was exchanged since GET_VERSION (log entry 141's presumption). A power cycle of the Stationer releases the
sideband where both masters are frozen, and leaves it frozen where it alone is (log entry 78's choice). POWER_ON
boots a device that is off or refused its images: the images accepted raise the minima they ask for, the rails
come up where all are accepted, and else it is refused. -/
def Obligations.SidebandCommands : Prop :=
  ∀ (s : State) (d : Nat) (img req : List Byte) (m : Master),
    let refused := fun (i : Instr) => exec i s = .next { s with rejected := true, sbReply := [0x82] }
    let u : State := { s with rejected := false, sbReply := [0] }
    (s.sbFrozen = true → refused .health ∧ refused (.diereset d) ∧ refused (.fwloadSideband img) ∧
      refused .unfrzhost ∧ (req[1]? ≠ some 0x84 → refused (.spdmRequest req))) ∧
    (s.sbFrozen = false →
      exec .health s = .next { u with sbReply := s.healthReport } ∧
      exec .unfrzhost s = .next { u with hostFrozen := false } ∧
      (3 < d → exec (.diereset d) s = .next { u with sbFrozen := true, rejected := true }) ∧
      exec (.diereset 0) s = .next u.powerCycle ∧
      (0 < d → d ≤ 3 →
        ((s.die d).hold = .off → exec (.diereset d) s = .next u) ∧
        ((s.die d).hold ≠ .off →
          let v := u.updDie d fun x => { x with hold := .reset }
          let r := (v.updDie d fun x => { x with out := true }).drainClusters (dieClusters d)
          ((v.die d).out = true → (v.die d).portsUp = false → exec (.diereset d) s = .next (v.dieUp d)) ∧
          ((v.die d).out = false ∨ (v.die d).portsUp = true → exec (.diereset d) s = .next
            (if r.2 = true ∧ r.1.canFlush (dieCores d) = true then (r.1.dieDown d).dieUp d else r.1)))) ∧
      (if s.accepts img = false then
        exec (.fwloadSideband img) s = .next { u with sbFrozen := true, rejected := true }
      else ∃ t : State, exec (.fwloadSideband img) s = .next t ∧
        { t with flash := s.flash } = u ∧ (t.flashOf (imageType img)).image = img ∧
        (∀ k, k ≠ imageType img → t.flashOf k = s.flashOf k))) ∧
    (s.sbFrozen = false ∨ req[1]? = some 0x84 →
      (req[1]? = some 0xFE → exec (.spdmRequest req) s =
        .next { s with rejected := false, sbReply := Config.spdmSign s.spdm s.steps }) ∧
      (req[1]? ≠ some 0xFE →
        let rep := Config.spdmReply (s.booted.map fun b => BitVec.ofNat 384 (natOfBytes (sha384 b).reverse)) req s.steps
        exec (.spdmRequest req) s = .next { s with
          rejected := false, sbReply := rep
          spdm := (if req[1]? = some 0x84 then [] else s.spdm) ++ req ++ rep })) ∧
    exec .stationerPowerCycle s = .next { s with
      sbReply := [], sbFrozen := s.sbFrozen && !s.hostFrozen } ∧
    (s.boot = .off ∨ s.boot = .refused →
      exec .powerOn s = .next
        (if s.imagesOk = true then s.bootSvns.railsUp else { s.bootSvns with boot := .refused })) ∧
    (s.hostFrozen = false → s.sbFrozen = false → exec (.malformedCommand m) s = .next (match m with
      | .host => { s with hostFrozen := true, rejected := true }
      | .sideband => { u with sbFrozen := true, rejected := true }))

/-! ## The pod -/

/-- A datagram that fails its checks or names no resident context's job is counted and changes nothing
else (R424; that VER other than 1 and LEN above 8,192 fail is log entry 142's choice). ACK ends the keeping of
what it names, NAK and a timer's end send it again, up to 16 times (that DATA and INKREQ alone await one, and how
they match, is log entry 80's choice); DATA is answered by ACK, once kept for its collective, and each SEQ is
performed once; INKREQ is answered by what was answered before while that is kept, or performed, and by nothing
once it has been performed or a later request of its group to its cell has been served (R109; log entry 119's
reading); INKREP answers the request that waits for it (R425, R410). -/
def Sys2Proof.Slice0.podDatagrams : Prop :=
  ∀ (s : State) (h : DgHead) (m : InkMsg) (level node cause n : Nat) (vals : List Word) (w0 w1 : DWord),
    let counted := fun (i : Instr) => exec i s = .next { s with badDgrams := s.badDgrams + 1 }
    let reply := fun (typ : Nat) (ws : List DWord) =>
      let back : DgHead := { h with src := s.devno, dst := h.src, len := BitVec.ofNat 16 (8 * ws.length) }
      s.sent ++ [{ peer := h.src.toNat, typ := typ, h := back, payload := ws, tries := 0 }]
    let seen : List (Nat × Nat × Nat) := (h.src.toNat, 1, h.seq.toNat) :: s.seqIn
    let again := fun (k : Nat) (d : Sent) =>
      s.sent.set k (if d.unacked = true ∧ d.tries < 16 then { d with tries := d.tries + 1 } else d)
    let mine := fun (q : InkReq) => q.dev = h.src.toNat ∧ q.seq = h.seq.toNat
    let kept := s.keptReps.find? fun k => k.peer == h.src.toNat && k.seq == h.seq
    let same := fun (w : FaultFor) => ∃ h2 m2, w = .ink h2 m2 ∧ h2.src = h.src ∧ h2.seq = h.seq
    (h.bad = true ∨ s.tagged? h.jtag = none →
      counted (.data h level node vals) ∧ counted (.ack h) ∧ counted (.nak h) ∧ counted (.inkreq h m) ∧
      counted (.inkrep h w0 w1 cause) ∧ counted (.incomplete h) ∧ counted (.ptpfwd h)) ∧
    (∀ d, s.sent[n]? = some d → exec (.retransmit n) s = .next { s with sent := again n d }) ∧
    (∀ c, h.bad = false → s.tagged? h.jtag = some c →
      exec (.ptpfwd h) s = .next s ∧
      exec (.ack h) s = .next { s with sent := s.sent.filter fun d => !d.matches h } ∧
      (∀ d, s.sent[n]? = some d → d.matches h = true → (∀ e ∈ s.sent.take n, e.matches h = false) →
        exec (.nak h) s = .next { s with sent := again n d }) ∧
      ((s.ctx c).state = .running →
        ((h.src.toNat, 1, h.seq.toNat) ∈ s.seqIn → exec (.data h level node vals) s =
          .next { s with sent := reply 2 [] }) ∧
        (∀ i q, (h.src.toNat, 1, h.seq.toNat) ∉ s.seqIn → s.collAt c h.cid = some i → s.colls[i]? = some q →
          (h.chunk.toNat < q.next → exec (.data h level node vals) s =
            .next { s with sent := reply 2 [], seqIn := seen }) ∧
          (q.next ≤ h.chunk.toNat → exec (.data h level node vals) s =
            .next (State.runColl { s with
              sent := reply 2 [], seqIn := seen
              colls := s.colls.set i (q.keep { chunk := h.chunk.toNat, level := level, idx := node
                                               src := h.src.toNat, vals := vals }) } i)))) ∧
      (∀ i, s.collAt c h.cid = some i → exec (.incomplete h) s = .next (s.fallBack i h.chunk.toNat)) ∧
      (∀ k, kept = some k →
        (∀ ws, k.words = some ws → exec (.inkreq h m) s = .next { s with sent := reply 5 ws }) ∧
        (k.words = none → exec (.inkreq h m) s = .next s)) ∧
      (kept = none → s.overtaken h m = true → exec (.inkreq h m) s = .next s) ∧
      (kept = none → s.overtaken h m = false → (∀ f ∈ s.faults, ¬ same f.who) → (∀ w ∈ s.chores, ¬ same w) →
        exec (.inkreq h m) s = .next (s.inkServe h m c)) ∧
      (∀ q, s.inkWait = [q] → mine q → cause ≠ 255 → ∃ u : State, exec (.inkrep h w0 w1 cause) s = .next u ∧
        u.inkWait = [] ∧ u.inkReps = s.inkReps ++ [{ req := q, status := w1.toNat % 16, w0 := w0
                                                     w1 := w1 &&& ~~~0xF#64, cause := Cause.ofCode cause }]))

/-- A collective starts when its timeline reaches its value, with an acquire at device scope; a timeout
sends what is known of a chunk to the peers; a peer that no retry reached fails its collectives (R410,
R425, R427; that its waiting collectives fail is log entry 79's choice). PTP_SYNC sets the time (log entry 81's
choice) and HOLDOVER records the loss of sync once (R428); a module lost is recorded, and the last of a pair
degrades the device and holds the higher die in reset (R421, R422). -/
def Sys2Proof.Slice0.podEvents : Prop :=
  ∀ (s : State) (n chunk : Nat) (time : DWord),
    (∀ c, s.colls[n]? = some c → c.started = false → (s.ctx c.ctx).state = .running →
      let core := (c.word 5).toNat % 256
      (c.word 4).toNat ≤ (((s.core core).tl[(c.word 5).toNat / 256 % 16]?).getD 0).toNat →
      let u := s.acquire core [] true
      exec (.collectiveStart n) s =
        .next (State.runColl { u with colls := u.colls.set n { c with started := true } } n)) ∧
    (∀ c, s.colls[n]? = some c → c.started = true → exec (.collectiveStart n) s = .next (s.runColl n)) ∧
    exec (.collectiveTimeout n chunk) s = .next ((s.fallBack n chunk).runColl n) ∧
    ((∃ d ∈ s.sent, d.unacked = true ∧ d.peer = n ∧ 16 ≤ d.tries) → exec (.peerUnreachable n) s =
      .next (State.failWith { s with sent := s.sent.filter fun d => d.peer ≠ n } n s.colls)) ∧
    exec (.ptpSync time) s = .next { s with gtime := time, ptp := .locked } ∧
    (s.ptp = .locked → exec .holdover s = .next (State.healthRec { s with ptp := .holdover } 0)) ∧
    (∀ k, s.modules[n]? = some (k + 1) →
      let u := State.healthRec { s with modules := s.modules.set n k } (BitVec.ofNat 64 n)
      exec (.moduleLoss n) s =
        .next (if k = 0 then State.holdDie { u with degraded := true } (higherDie n) .off else u)) ∧
    (s.modules[n]? = some 0 → exec (.moduleLoss n) s = .next s)

/-- Datagrams, collectives, time and modules (R409, R410, R421 to R428). -/
def Obligations.PodForms : Prop := podDatagrams ∧ podEvents

/-! ## Homes -/

/-- Messages between caches and homes (R93 to R96, R304). A core's oldest words for a line reach its home,
behind what was sent before them on their link (R6): the line takes them and its version rises by one. An update
enters its sharer's inbox, or with the inbox full leaves a drop mark; a drop mark marks the copy and leaves no
entry for its line. An acknowledgement reaches the boundary unit whose publication it belongs to; a commit
clears that publication's PEND; a fill is answered when PEND is clear, the core's own words have come and the
core can place the line, and one that reaches a die out of service is answered HOME_OFFLINE (R394), its elements
being held beside the log (log entry 62's reading). Once the device is ready (R434) the scrubber has a corrected
sector written back only where nothing has changed it (R101). -/
def Obligations.HomeEvents : Prop :=
  ∀ (s : State) (n : Nat),
    (∀ w, s.wts[n]? = some w → (∀ v ∈ s.wts.take n, ¬ (v.core = w.core ∧ v.line = w.line)) →
      s.behind w.route w.sent = false → w.poison = 0 →
      (s.dirOf w.line).contrib = [] → (∀ i < 4, tabFind s.ecc (4 * w.line + i) = none) →
      ∃ u : State, exec (.writeThrough n) s = .next u ∧ u.wts = listDrop1 s.wts n ∧
        u.mem = memSetLine s.mem w.line w.data w.mask ∧
        (u.dirOf w.line).ver = (s.dirOf w.line).ver + 1) ∧
    (∀ m, s.upds[n]? = some m → (∀ v ∈ s.upds.take n, ¬ (v.dest = m.dest ∧ v.line = m.line)) →
      (∀ v ∈ s.drops, ¬ (v.dest = m.dest ∧ v.line = m.line)) →
      (∀ e ∈ (s.core m.dest).inbox, e.line ≠ m.line) →
      ∃ u : State, exec (.update n) s = .next u ∧ u.upds = listDrop1 s.upds n ∧
        (if (s.core m.dest).inbox.length < 32 then
          (u.core m.dest).inbox = (s.core m.dest).inbox ++ [{ line := m.line, mask := m.mask, data := m.data
                                                              old := m.old, new := m.new, poison := m.poison }] ∧
          u.drops = s.drops
        else u.core m.dest = s.core m.dest ∧
          u.drops = s.drops ++ [{ dest := m.dest, line := m.line, pubs := [m.pub] }])) ∧
    (∀ m, s.drops[n]? = some m → ∃ u : State, exec (.dropMark n) s = .next u ∧
      u.drops = listDrop1 s.drops n ∧ (∀ c ∈ (u.core m.dest).l1, c.line = m.line → c.drop = true) ∧
      ∀ e ∈ (u.core m.dest).inbox, e.line ≠ m.line) ∧
    (∀ a b, s.acks[n]? = some a → (s.core a.core).boundary = some b → b.job = a.job →
      (∀ f ∈ (s.core a.core).flushes, f.job ≠ a.job) →
      let r : Boundary := { b with pending := b.pending.erase a.line, acked := b.acked ++ [(a.line, a.ver)] }
      exec (.publicationAck n) s = .next (State.setCore { s with acks := listDrop1 s.acks n } a.core
        { s.core a.core with boundary := some r })) ∧
    (∀ m, s.commits[n]? = some m → s.behind m.route m.sent = false →
      ∃ u : State, exec (.commit n) s = .next u ∧ u.commits = listDrop1 s.commits n ∧ u.mem = s.mem ∧
      (u.dirOf m.line).pendBy = (s.dirOf m.line).pendBy.filter fun k => k ≠ m.job) ∧
    (∀ f, s.fills[n]? = some f → s.behind f.route f.sent = false →
      let u := State.reachedBy { s with fills := listDrop1 s.fills n } f.route f.sent
      let turned := f.route.1 ≠ f.route.2 ∧ f.here = false ∧ (s.die f.route.2).out = true
      (turned → exec (.fill n) s = .next (if f.l2 then u else
        ((u.core f.core).waiters f.line).foldl
          (fun s q => s.offline f.core q fun e => e.pa / 128 == f.line) u)) ∧
      (¬ turned → s.homeReady f.line = true → (f.host = true → f.go.isSome = true) → s.roomFor f = true →
        (∀ w ∈ s.wts, ¬ (w.core = f.core ∧ w.line = f.line)) →
        (∀ w ∈ s.hostWrites, ¬ (w.core = f.core ∧ w.line = f.line)) →
        exec (.fill n) s = .next (if f.l2 then (u.homeLine f.line).2 else u.filled f))) ∧
    (s.boot = .ready → (s.die (32 * n / 2 ^ 38)).out = false →
      (∀ b, tabFind s.ecc n = some (.raw b) → ∃ u : State, exec (.scrubRead n) s = .next u ∧
        u.mem = s.mem ∧ u.scrubs = (s.readSector n).scrubs ++
          [{ sector := n, raw := .raw b, bytes := memBytes s.mem (32 * n) 32 }]) ∧
      (tabFind s.ecc n = some .uncorr → exec (.scrubRead n) s =
        .next ((s.markPoison n).healthRec (BitVec.ofNat 64 (32 * n))))) ∧
    (∀ w, s.scrubs[n]? = some w →
      let same := tabFind s.ecc w.sector = some w.raw ∧ memBytes s.mem (32 * w.sector) 32 = w.bytes
      exec (.scrubWriteback n) s = .next { s with
        scrubs := listDrop1 s.scrubs n, ecc := if same then tabErase s.ecc w.sector else s.ecc })

/-- What was logged, refused or sent to an ink home (R78 to R82, R107 to R120). A replay tries the group's
first ready entry again: done, it leaves the log; a trap holds it for its scribe, or, with another trap
pending, makes a record alone (R373) and stays in the log until that trap has ended (log entry 32's choice); an
absent extent has it wait; sent to its home, it is in flight again. A refusal pauses a copy with EXT_ABSENT. A
home performs the oldest ink request of its kind, a die out of service answers status 6, as does a timeout; a
reply writes its request's lanes, and a refusal from another device's home traps its group, the refused lanes
held beside the log (log entry 11's choice). -/
def Obligations.RetryEvents : Prop :=
  ∀ (s : State) (c k n : Nat),
    (∀ g e, s.group c k = some g → g.log.find? (fun e => e.st == .ready) = some e →
      let f := e.op
      let r := s.redo (f.actor c k) g f.req
      (∀ t v, r = .trap t v → exec (.replay c k) s = .next ((v.updGroup c k fun q =>
        q.setEntry f.id (if g.trap then .shed else .trapped)).takeLogged c k f t)) ∧
      (∀ on ext v, r = .absent on ext v → exec (.replay c k) s =
        .next ((v.updGroup c k fun q => q.setEntry f.id (.waiting on ext)).fault
          { ctx := g.ctx, on := on, ext := ext, who := .log c k })) ∧
      (∀ u, r = .done u → f.req.kind.commits = false → exec (.replay c k) s =
        .next (u.updGroup c k fun q => q.unlog f.id f.cls)) ∧
      (∀ rest u, r = .fly rest u → exec (.replay c k) s = .next (u.updGroup c k fun q => { q with
        log := q.log.filter fun e => e.op.id ≠ f.id
        flight := if q.flight.any fun x => x.id == f.id then
            q.flight.map fun x => if x.id = f.id then
              { x with req := { x.req with elems := x.req.elems ++ rest } } else x
          else q.flight ++ [{ f with req := { f.req with elems := rest } }] }))) ∧
    (∀ f, s.faults[n]? = some f →
      let u : State := { s with faults := listDrop1 s.faults n }
      (∀ core seq, f.who = .copy core seq → exec (.faultRefusal n) s = .next (u.updTransfer core seq fun t =>
        { t with paused := none, cause := .extAbsent })) ∧
      (∀ core slot g, f.who = .log core slot → s.group core slot = some g →
        exec (.faultRefusal n) s = .next (u.refuseLog f core slot)) ∧
      (∀ core slot g, f.who = .stall core slot → s.group core slot = some g →
        exec (.faultRefusal n) s = .next (u.refuseStall core slot f.on f.ext)) ∧
      (∀ h m, f.who = .ink h m → exec (.faultRefusal n) s = .next (u.inkAnswer h m 0 0 Cause.extAbsent.code))) ∧
    (∀ q, s.inks[n]? = some q → s.homeReady (q.pa / 128) = true → s.behind q.route q.sent = false →
      (∀ v ∈ s.inks.take n, ¬ (v.core = q.core ∧ v.slot = q.slot ∧ v.pa = q.pa)) →
      let u := State.reachedBy { s with inks := listDrop1 s.inks n } q.route q.sent
      ((s.die (q.pa / 2 ^ 38)).out = true → exec (.inkHomeStep n) s = .next { u with
        inkReps := s.inkReps ++ [{ req := q, status := 6, w0 := 0, w1 := 0, cause := .none }] }) ∧
      ((s.die (q.pa / 2 ^ 38)).out = false →
        let r := u.inkHome q.pa q.msg s.devno.toNat
        ∃ t : State, exec (.inkHomeStep n) s = .next t ∧ t.inkReps = (r.2.2.2.leaveWatch q r.1 r.2.2.1
          (some (q.pa / 128))).inkReps ++ [{ req := q, status := r.1, w0 := r.2.1, w1 := r.2.2.1, cause := .none }])) ∧
    (∀ q, s.inkWait[n]? = some q → exec (.inkTimeout n) s = .next { s with
      inkWait := listDrop1 s.inkWait n
      inkReps := s.inkReps ++ [{ req := q, status := 6, w0 := 0, w1 := 0, cause := .none }] }) ∧
    (∀ p, s.inkReps[n]? = some p →
      let u : State := { s with inkReps := listDrop1 s.inkReps n }
      (u.inkOwner p.req = none → exec (.inkReply n) s = .next u) ∧
      (∀ g f, u.inkOwner p.req = some (g, f) → p.cause ≠ .none →
        exec (.inkReply n) s = .next (u.inkFault p.req g f p.cause)) ∧
      (∀ g f, u.inkOwner p.req = some (g, f) → p.cause = .none → g.det = false →
        ¬ (inkState p.w1 = 1 ∧ p.status ≤ 1) → f.req.kind.commits = false →
        let q := p.req
        let mine := fun (e : Elem) => q.lanes.getLsbD e.lane
        let v := p.w0.toNat + 2 ^ 64 * (p.w1 ||| BitVec.ofNat 64 p.status).toNat
        exec (.inkReply n) s = .next ((u.putRegs q.core q.slot ((f.req.elems.filter mine).flatMap fun e =>
          f.req.outs e v)).arrived q.core q.slot f.id mine)))

/-! ## Engines and the scheduler -/

/-- The copy engine (R126 to R133): the first request that may start (log entry 133's reading), no presence
clear being under way, is read as far as it goes; a clear under way reaches one receiver (R131; that COPY_START
stands for it is log entry 129's choice); a piece that has arrived stands at its destination and counts at its
object, one that ends inside an aligned 4-byte element with the others of its line, once all of them are there
(R39; log entry 154's reading); a request read and written whole adds to its timeline and leaves; a paused one
goes on; a failed one traps its group, wherever it is (R134; that one not wholly read counts its CP operation
off then is log entry 143's choice). -/
def Obligations.CopyEvents : Prop :=
  ∀ (s : State) (c n : Nat),
    let x := s.core c
    (∀ i q, s.nextCopy c = some i → x.copyq[i]? = some q → (∀ p ∈ x.copyq, p.toClear = []) →
      let r := s.moveOn c { req := q, next := 0, pieces := [], paused := none, cause := .none,
                            addr := q.word 0, failed := false, opened := [] }
      ¬ (r.2.next = 0 ∧ r.2.paused = none ∧ r.2.cause = .none) →
      exec (.copyStart c) s = .next ((r.1.updCore c fun x => { x with
        copyq := listDrop1 x.copyq i, active := x.active ++ [r.2] }).moved c r.2)) ∧
    (∀ q d r, x.copyq = [q] → q.toClear = d :: r → s.nextCopy c = none ∨ s.nextCopy c = some 0 →
      exec (.copyStart c) s = .next (s.clearOne c q)) ∧
    (∀ t rest p, x.pending[n]? = some (t, rest, p) → p.ragged = true → t.halfRead c p = true →
      exec (.arrival c n) s = .next s) ∧
    (∀ t rest p u, x.pending[n]? = some (t, rest, p) → x.tileHeld t p = false → t.cause = .none →
      p.ragged = true → t.halfRead c p = false → s.landPiece c t p = .ok u →
      let line := rest.filter p.near
      let left := rest.filter fun r => !p.near r
      exec (.arrival c n) s = .next ((p :: line).foldl (fun (s : State) r => s.landed c t left r)
        (line.foldl (fun (s : State) r => s.landLocal c t r) u))) ∧
    (∀ t rest p u, x.pending[n]? = some (t, rest, p) → x.tileHeld t p = false → t.cause = .none →
      p.ragged = false → (t.req.boe = false ∨ p.count = false) → s.landPiece c t p = .ok u →
      ∃ opened, exec (.arrival c n) s = .next ((u.endLine c t rest p).updTransfer c t.req.seq fun t =>
        { t with pieces := rest, opened := opened, paused := none })) ∧
    (∀ t rest p on ext a, x.pending[n]? = some (t, rest, p) → x.tileHeld t p = false → t.cause = .none →
      p.ragged = false → s.landPiece c t p = .absent on ext a → exec (.arrival c n) s =
        .next ((s.updTransfer c t.req.seq fun _ => { t with paused := some (on, ext), addr := a }).fault
          { ctx := t.req.ctx, on := on, ext := ext, who := .copy c t.req.seq })) ∧
    (∀ t, x.active[n]? = some t → t.pieces = [] → t.allRead c = true → t.cause = .none → t.failed = false →
      (t.req.tinc = 0 ∨ ∀ q ∈ x.copyq ++ x.active.map Transfer.req,
        ¬ (q.seq < t.req.seq ∧ q.tinc ≠ 0 ∧ q.tln = t.req.tln)) →
      let u := (s.updCore c fun x => { x with active := listDrop1 x.active n }).unpendReq c t.req
      exec (.copyComplete c n) s =
        .next ((if t.req.tinc = 0 then u else u.tlAdd c t.req.tln t.req.tinc).settleCluster c)) ∧
    (∀ t, x.active[n]? = some t → t.failed = false → t.cause = .none → t.allRead c = false →
      let r := s.moveOn c t
      exec (.copyResume c n) s = .next ((r.1.updTransfer c t.req.seq fun _ => r.2).moved c r.2)) ∧
    (∀ t, x.active[n]? = some t → t.cause ≠ .none → t.failed = false → t.req.clr = [] → t.req.boe = false →
      let q := t.req
      let u := ((if t.allRead c then s else s.cpDone q).unpendReq c q).updTransfer c q.seq fun t =>
        { t with failed := true, pieces := [], paused := none }
      exec (.copyFail c n) s = .next (u.takeAsync q.ctx q.team q.gidx q.slot ⟨t.cause, 0, t.addr, q.idx⟩
        q.pc q.iword))

/-- The stipple arrays (R281 to R300): a sweep command ends with SA_WRAP at the last count (from where a new key
starts at sweep 0: log entry 120's reading) and with SA_BIAS out of service, stalls for its peer, and else
updates every colour class, counts and goes on; a command in its turn is done and its group goes on; a tag
reaches its array; a stalled sweep that waited too long raises SA_BOUNDARY, but while its cluster or its peer's
drains or is scanned (R389). What the stall mark covers is log entry 64's reading. -/
def Obligations.StippleEvents : Prop :=
  ∀ (s : State) (c i : Nat) (q : ACmd) (left : Nat) (inc : BitVec 8) (tl : BitVec 4),
    let a := (s.core c).array i
    let ends := fun (k : Cause) => s.endSweep c i q inc tl (some k)
    (a.queue.head? = some q → q.kind = .sweep left inc tl →
      (let quiet := s.draining (clusterOf c) = true ∨ s.draining (clusterOf (a.peer / 4)) = true
       (quiet → exec (.boundaryTimeout c i) s = .next s) ∧
       (¬ quiet → a.stallNow = true → s.still c = false →
         exec (.boundaryTimeout c i) s = .next (ends .saBoundary))) ∧
      (s.still c = false →
        (a.oos = true → exec (.sweep c i) s = .next (ends .saBias)) ∧
        (a.oos = false → a.sc.toNat = 2 ^ 48 - 1 →
          exec (.sweep c i) s = .next (ends .saWrap)) ∧
        (a.oos = false → a.sc.toNat ≠ 2 ^ 48 - 1 →
          (∀ gh, a.select a.sc.toNat = .take gh → exec (.sweep c i) s = .next (s.doSweep c i q left inc tl gh)) ∧
          (a.select a.sc.toNat = .stall → exec (.sweep c i) s =
            .next (s.updArray c i fun a => { a with stallNow := true, stalled := true })) ∧
          (a.select a.sc.toNat = .missing → s.peerGone c i = true → (∀ e ∈ s.tagq, ¬ (e.1 = c ∧ e.2.1 = i)) →
            exec (.sweep c i) s = .next (ends .saBoundary))))) ∧
    (a.queue.head? = some q → (∀ l n k, q.kind ≠ .sweep l n k) →
      (a.oos = true → q.kind.barred = true → s.awaits c i q = false → exec (.arrayCommand c i) s =
        .next ((s.popCmd c i).updArray c i fun a => { a with lastFault := 1 })) ∧
      (a.oos = false ∨ q.kind.barred = false →
        ∀ t, s.perform c i q = .ok t →
          let u := t.popCmd c i
          exec (.arrayCommand c i) s = .next (if s.awaits c i q then
            { (if q.kind.barred then ((u.release c q).next).close true else (u.release c q).next) with
              cur := s.cur } else u))) ∧
    (∀ k m, s.tagq[k]? = some (c, i, m) → (∀ e ∈ s.tagq.take k, ¬ (e.1 = c ∧ e.2.1 = i)) →
      exec (.tagArrival c i) s = .next (State.landTag { s with tagq := listDrop1 s.tagq k } c i m))

/-- The parking limit takes a group whose threads all watch off its core, its operand log with it (R350), its
watches kept under a number of its own (log entry 130's choice); a deferred request that can be decided is, and
adds to its timeline (R153); at an admission what was put off is taken up first, and then a core of the running
context admits what is due to it, ready continuations first, and while the context is quiesced those alone (R360
to R364, R397); at its time an armed switch to the running context completes, and to another stops the running
teams and waits for copies, collectives' chunks and what its write-through would overtake (R385, R386; that a
chunk ends only with its peers' values is the model's reading, log entry 132); a cluster whose scan is overdue
drains at its next stage boundary (R15; which one is the model's choice, log entry 98). -/
def Obligations.SchedulerEvents : Prop :=
  ∀ (s : State) (c k : Nat),
    (∀ g, s.group c k = some g → g.allMon = true → s.canStop c k g = true → s.stopping g.team = false →
      g.fw = false →
      let kept := (s.undoOf g.team fun u => u.stage && u.slot == k).filter fun u => u.1 == c
      let v := (kept.foldl (fun (s : State) u => s.restoreLine u.1 u.2) s).stopGroup c k
      (v.group c k = none → exec (.parkLimit c k) s = .next v) ∧
      (∀ h, v.group c k = some h → exec (.parkLimit c k) s =
        .next ((v.rekey c k (128 + s.steps)).updCore c fun x => { x with
          groups := tabErase x.groups k
          parked := x.parked ++ [{ group := h, mons := g.mons, ready := false, key := 128 + s.steps }] }))) ∧
    (∀ q st, (s.core c).deferred[k]? = some q → (s.allot q.team c).isSome = true →
      (s.wreqTry c q.team q.role q.k).1 = some st →
      ∃ u : State, exec (.deferredRecheck c k) s = .next (u.tlAdd c q.tl 1) ∧
        (u.core c).deferred = listDrop1 ((s.wreqTry c q.team q.role q.k).2.core c).deferred k) ∧
    (let u := s.takeUp
     (s.chores = [] → s.hostq = [] → (∀ d, (s.die d).hold = .none) → u = s) ∧
     (u.admitting = none → exec (.admission c) s = .next u) ∧
     (∀ n, u.admitting = some n →
       let v := if (u.ctx n).qui then u else (List.range 16).foldl (fun (s : State) k => s.refreshQueue n k) u
       (v.serving c = false → exec (.admission c) s = .next v) ∧
       (v.serving c = true →
         ((∃ p ∈ (v.core c).parked, p.ready = true) →
           exec (.admission c) s = .next ((v.resumeParked c).getD v)) ∧
         ((∀ p ∈ (v.core c).parked, p.ready = false) →
           ((v.ctx n).qui = true → exec (.admission c) s = .next v) ∧
           ((v.ctx n).qui = false →
             (∀ t, v.offerConts n c (v.ctx n).conts = some t → exec (.admission c) s = .next t) ∧
             (v.offerConts n c (v.ctx n).conts = none →
               exec (.admission c) s = .next (v.offerHeads n c (v.offerOrder n)))))))) ∧
    (∀ a, s.armed = some a → s.ctxs.find? (fun e => e.2.state == .running) = none →
      a.t.toNat ≤ s.gtime.toNat → s.canFlushAll = true →
      exec .gangSwitch s = .next ((s.swapContexts none a).getD s)) ∧
    (∀ a e, s.armed = some a → s.ctxs.find? (fun e => e.2.state == .running) = some e →
      (s.gtime.toNat < a.t.toNat → exec .gangSwitch s = .next s) ∧
      (a.t.toNat ≤ s.gtime.toNat →
        (e.1 = a.ctx → exec .gangSwitch s = .next (s.switchDone a)) ∧
        (e.1 ≠ a.ctx →
          let u := s.stopTeams fun t => t.ctx == e.1
          let busy := u.anyTeam e.1 = true ∨ u.canFlushAll = false ∨ (∃ x ∈ u.cores, x.2.active ≠ []) ∨
            ∃ q ∈ u.colls, q.ctx = e.1 ∧ q.started = true ∧ q.next < q.loaded
          (busy → exec .gangSwitch s = .next u) ∧
          (¬ busy → exec .gangSwitch s = .next ((u.swapContexts (some e.1) a).getD u))))) ∧
    ((s.cluster k).inSvc = true → s.scanning ≠ some k →
      let u : State := { s with floorDue := s.floorDue.or (some k) }
      ((s.cluster k).drained = false → u.stageBoundary k = false → exec (.scanFloorDrain k) s = .next u) ∧
      ((s.cluster k).drained = true ∨ u.stageBoundary k = true →
        let r := u.drainClusters [k]
        exec (.scanFloorDrain k) s = .next (if r.2 = true ∧ r.1.canFlush (clusterCores [k]) = true then r.1.flushCores (clusterCores [k]) else r.1)))

/-! ## Whole-machine statements -/

/-- A word that MOV writes to the register of its one lane is read back there in the state after it, where the
register lies on a bank its core has and the window is aligned (R142, R165, R166, R172). -/
def Obligations.RegisterReadBack : Prop :=
  ∀ (s : State) (g : Group) (t : LaneMask) (lo : Nat) (p : Pred) (d : Reg) (v : BitVec 20),
    FormRuns s ⟨⟨false, p⟩, [], [], [d.toNat], []⟩ g t lo → lanesOf t = [lo] → lo < g.width →
    let o := g.vecOfs d.toNat + 4 * lo
    (g.fw = true ∨ (g.views.vec.toNat % 4 = 0 ∧ g.segReg.base.toNat % 128 = 0 ∧
      g.segMat.base.toNat % 128 = 0 ∧
      ∃ r key, g.wAddr o = some r ∧ (s.core s.cur.core).rowKey r = some key)) →
    ∃ (u : State) (q : Group), exec (.mov ⟨false, p⟩ .b32 d (.imm v)) s = .next u ∧
      u.group s.cur.core s.cur.slot = some q ∧ q.reg (u.core s.cur.core) d.toNat lo = v.setWidth 32

/-- Every step keeps device memory in the model's canonical form: addresses strictly rising, and no entry
equal to what an unlisted address reads as (the representation is the model's, log entry 3). -/
def Obligations.MemoryStaysCanonical : Prop :=
  ∀ s t : State, MemOk s → step s = .next t → MemOk t

/-- After reset the device waits for its power-on, with every compute die held in reset (R434); every bank
of every core is CACHE (R141) and no summary is raised (R437); no cluster is in service; neither master is
frozen (R19); timelines and barriers stand at zero; no context is resident; no bank is retired. That
memory reads zero is the model's choice (log entry 3). -/
def Obligations.ResetState : Prop :=
  MemOk State.reset ∧ State.reset.agenda = [.event .powerOn] ∧ State.reset.boot = .off ∧
  (∀ d, (State.reset.die d).out = true) ∧ (∀ k, (State.reset.cluster k).inSvc = false) ∧
  (∀ c, let x := State.reset.core c
    x.roles.cache = List.range 64 ∧ x.roles.reg = [] ∧ x.roles.mat = [] ∧ x.roles.scr = [] ∧
    x.roles.fifo = [] ∧ x.roles.shadow = [] ∧ x.retired = [] ∧ x.done = false ∧ x.fail = false ∧
    x.tl = List.replicate 16 0 ∧ x.groups = [] ∧ x.l1 = []) ∧
  (∀ c, (State.reset.ctx c).state = .empty) ∧
  State.reset.hostFrozen = false ∧ State.reset.sbFrozen = false ∧ State.reset.mbBusy = false ∧
  (∀ a, memRead State.reset.mem a = 0)

/-- MZERO queues on its stream, an accumulator outside the MAT part raising REG_BOUNDS at issue; in its turn,
two events long (R39, R269), every byte of its accumulators becomes zero, their flags clear and their Z is
set (R275). That the two events write a free half of the words each is log entry 67's reading. -/
def Obligations.MzeroZeroes : Prop :=
  (∀ (s : State) (g : Group) (m : LaneMask) (lo : Nat) (p : Pred) (t : MTarget) (cnt : BitVec 4),
    Turn s p g m lo → g.pend = [] →
    ((∃ i ≤ cnt.toNat, g.accOk (t.acc.toNat + i) = false) →
      exec (.mzero p t cnt) s = .next (s.takeTrap ⟨.regBounds, lo, 0, 0⟩)) ∧
    ((∀ i ≤ cnt.toNat, g.accOk (t.acc.toNat + i) = true) → g.cnt.tl < 31 →
      exec (.mzero p t cnt) s = .next (queued s g t (.zero (cnt.toNat + 1)) lo true).next)) ∧
  (∀ (s : State) (c n st k : Nat) (g : Group) (o : MOp) (rest : List MOp),
    s.group c n = some g → g.streams[st]? = some (o :: rest) → o.kind = .zero k → g.det = false →
    s.stopping g.team = false → (∀ j < 4, (s.core (c / 4 * 4 + j)).owes = false) →
    o.views.acc.toNat % 16384 = 0 → g.segReg.base.toNat % 128 = 0 → g.segMat.base.toNat % 128 = 0 →
    (∀ i < k, matPart ≤ accAt o.views (o.acc + i) ∧ accBlock o.views (o.acc + i) < g.accs.length) →
    ∃ (v u : State) (q : Group), exec (.matrixStep c n st) s = .next v ∧
      exec (.matrixStep c n st) v = .next u ∧ u.group c n = some q ∧
      q.streams[st]? = some rest ∧
      ∀ i < k, q.acc (accBlock o.views (o.acc + i)) = { z := true, rowf := 0, colf := 0 } ∧
        ∀ b < 16384, q.winNat (u.core c) (accAt o.views (o.acc + i) + b) 1 = 0)
end

