-- ==== Sys2Proof/Laws/Tables.lean ====
section
/-! SUPPORT. What the tables and lists of the state hold after a change. -/

namespace Sys2Proof.Machine

@[simp] theorem tabFind_tabSet_self {α : Type} (t : Tab α) (k : Nat) (v : α) :
    tabFind (tabSet t k v) k = some v := by
  induction t with
  | nil => simp [tabSet, tabFind]
  | cons e r ih =>
    obtain ⟨k', v'⟩ := e
    simp only [tabSet]
    split
    · simp [tabFind]
    · split
      · simp [tabFind]
      · simp [tabFind, *]

theorem tabFind_tabSet_ne {α : Type} (t : Tab α) {k j : Nat} (v : α) (h : j ≠ k) :
    tabFind (tabSet t k v) j = tabFind t j := by
  induction t with
  | nil => simp [tabSet, tabFind, h]
  | cons e r ih =>
    obtain ⟨k', v'⟩ := e
    simp only [tabSet]
    split
    · simp [tabFind, h]
    · split
      · next hk => simp [tabFind, ← hk, h]
      · simp [tabFind, ih]

@[simp] theorem tabGet_tabSet_self {α : Type} (d : α) (t : Tab α) (k : Nat) (v : α) :
    tabGet d (tabSet t k v) k = v := by simp [tabGet]

theorem tabGet_tabSet_ne {α : Type} (d : α) (t : Tab α) {k j : Nat} (v : α) (h : j ≠ k) :
    tabGet d (tabSet t k v) j = tabGet d t j := by simp [tabGet, tabFind_tabSet_ne, h]

@[simp] theorem length_listUpd {α : Type} (f : α → α) (l : List α) (n : Nat) :
    (listUpd f l n).length = l.length := by
  induction l generalizing n with
  | nil => simp [listUpd]
  | cons x r ih => cases n <;> simp [listUpd, ih]

theorem getElem?_listUpd {α : Type} (f : α → α) (l : List α) (n i : Nat) :
    (listUpd f l n)[i]? = if i = n then l[i]?.map f else l[i]? := by
  induction l generalizing n i with
  | nil => simp [listUpd]
  | cons x r ih =>
    cases n with
    | zero => cases i <;> simp [listUpd]
    | succ n => cases i <;> simp [listUpd, ih]

theorem getElem?_listDrop1 {α : Type} (l : List α) (n i : Nat) :
    (listDrop1 l n)[i]? = if i < n then l[i]? else l[i + 1]? := by
  induction l generalizing n i with
  | nil => simp [listDrop1]
  | cons x r ih =>
    cases n with
    | zero => simp [listDrop1]
    | succ n => cases i <;> simp [listDrop1, ih]

/-! ## Cores, groups, contexts, dies, clusters -/

@[simp] theorem State.core_setCore_self (s : State) (c : Nat) (x : Core) :
    (s.setCore c x).core c = x := by simp [State.core, State.setCore]

theorem State.core_setCore_ne (s : State) {c k : Nat} (x : Core) (h : k ≠ c) :
    (s.setCore c x).core k = s.core k := by simp [State.core, State.setCore, tabGet_tabSet_ne, h]

@[simp] theorem State.core_updCore_self (s : State) (c : Nat) (f : Core → Core) :
    (s.updCore c f).core c = f (s.core c) := by simp [State.updCore]

theorem State.core_updCore_ne (s : State) {c k : Nat} (f : Core → Core) (h : k ≠ c) :
    (s.updCore c f).core k = s.core k := by simp [State.updCore, State.core_setCore_ne, h]

@[simp] theorem State.group_setGroup_self (s : State) (c k : Nat) (g : Group) :
    (s.setGroup c k g).group c k = some g := by simp [State.group, State.setGroup]

theorem State.group_setGroup_slot (s : State) (c : Nat) {k j : Nat} (g : Group) (h : j ≠ k) :
    (s.setGroup c k g).group c j = s.group c j := by
  simp [State.group, State.setGroup, tabFind_tabSet_ne, h]

theorem State.group_setGroup_core (s : State) {c c' : Nat} (k j : Nat) (g : Group) (h : c' ≠ c) :
    (s.setGroup c k g).group c' j = s.group c' j := by
  simp [State.group, State.setGroup, State.core_updCore_ne, h]

theorem State.updGroup_some (s : State) (c k : Nat) (f : Group → Group) {g : Group}
    (h : s.group c k = some g) : s.updGroup c k f = s.setGroup c k (f g) := by
  simp [State.updGroup, h]

theorem State.group_updGroup_self (s : State) (c k : Nat) (f : Group → Group) {g : Group}
    (h : s.group c k = some g) : (s.updGroup c k f).group c k = some (f g) := by
  simp [State.updGroup_some s c k f h]

@[simp] theorem State.ctx_updCtx_self (s : State) (c : Nat) (f : Ctx → Ctx) :
    (s.updCtx c f).ctx c = f (s.ctx c) := by simp [State.ctx, State.updCtx]

theorem State.ctx_updCtx_ne (s : State) {c k : Nat} (f : Ctx → Ctx) (h : k ≠ c) :
    (s.updCtx c f).ctx k = s.ctx k := by simp [State.ctx, State.updCtx, tabGet_tabSet_ne, h]

@[simp] theorem State.die_updDie_self (s : State) (d : Nat) (f : Die → Die) :
    (s.updDie d f).die d = f (s.die d) := by simp [State.die, State.updDie]

theorem State.die_updDie_ne (s : State) {d k : Nat} (f : Die → Die) (h : k ≠ d) :
    (s.updDie d f).die k = s.die k := by simp [State.die, State.updDie, tabGet_tabSet_ne, h]

@[simp] theorem State.cluster_updCluster_self (s : State) (k : Nat) (f : Cluster → Cluster) :
    (s.updCluster k f).cluster k = f (s.cluster k) := by simp [State.cluster, State.updCluster]

theorem State.cluster_updCluster_ne (s : State) {k j : Nat} (f : Cluster → Cluster) (h : j ≠ k) :
    (s.updCluster k f).cluster j = s.cluster j := by
  simp [State.cluster, State.updCluster, tabGet_tabSet_ne, h]

end Sys2Proof.Machine
end

