-- ==== Sys2Proof/Laws/State.lean ====
section
/-! SUPPORT. The fields of the state that an update leaves alone: one lemma per field and update. -/

namespace Sys2Proof.Machine

/-! ## setCore -/

@[simp] theorem State.setCore_steps (s : State) (c : Nat) (x : Core) : (s.setCore c x).steps = s.steps := rfl
@[simp] theorem State.setCore_agenda (s : State) (c : Nat) (x : Core) : (s.setCore c x).agenda = s.agenda := rfl
@[simp] theorem State.setCore_cur (s : State) (c : Nat) (x : Core) : (s.setCore c x).cur = s.cur := rfl
@[simp] theorem State.setCore_teams (s : State) (c : Nat) (x : Core) : (s.setCore c x).teams = s.teams := rfl
@[simp] theorem State.setCore_nextTeam (s : State) (c : Nat) (x : Core) : (s.setCore c x).nextTeam = s.nextTeam := rfl
@[simp] theorem State.setCore_grids (s : State) (c : Nat) (x : Core) : (s.setCore c x).grids = s.grids := rfl
@[simp] theorem State.setCore_nextGrid (s : State) (c : Nat) (x : Core) : (s.setCore c x).nextGrid = s.nextGrid := rfl
@[simp] theorem State.setCore_nextSet (s : State) (c : Nat) (x : Core) : (s.setCore c x).nextSet = s.nextSet := rfl
@[simp] theorem State.setCore_ctxs (s : State) (c : Nat) (x : Core) : (s.setCore c x).ctxs = s.ctxs := rfl
@[simp] theorem State.setCore_dies (s : State) (c : Nat) (x : Core) : (s.setCore c x).dies = s.dies := rfl
@[simp] theorem State.setCore_clusters (s : State) (c : Nat) (x : Core) : (s.setCore c x).clusters = s.clusters := rfl
@[simp] theorem State.setCore_devno (s : State) (c : Nat) (x : Core) : (s.setCore c x).devno = s.devno := rfl
@[simp] theorem State.setCore_gtime (s : State) (c : Nat) (x : Core) : (s.setCore c x).gtime = s.gtime := rfl
@[simp] theorem State.setCore_ptp (s : State) (c : Nat) (x : Core) : (s.setCore c x).ptp = s.ptp := rfl
@[simp] theorem State.setCore_mem (s : State) (c : Nat) (x : Core) : (s.setCore c x).mem = s.mem := rfl
@[simp] theorem State.setCore_ecc (s : State) (c : Nat) (x : Core) : (s.setCore c x).ecc = s.ecc := rfl
@[simp] theorem State.setCore_dir (s : State) (c : Nat) (x : Core) : (s.setCore c x).dir = s.dir := rfl
@[simp] theorem State.setCore_spills (s : State) (c : Nat) (x : Core) : (s.setCore c x).spills = s.spills := rfl
@[simp] theorem State.setCore_wts (s : State) (c : Nat) (x : Core) : (s.setCore c x).wts = s.wts := rfl
@[simp] theorem State.setCore_upds (s : State) (c : Nat) (x : Core) : (s.setCore c x).upds = s.upds := rfl
@[simp] theorem State.setCore_drops (s : State) (c : Nat) (x : Core) : (s.setCore c x).drops = s.drops := rfl
@[simp] theorem State.setCore_pubs (s : State) (c : Nat) (x : Core) : (s.setCore c x).pubs = s.pubs := rfl
@[simp] theorem State.setCore_nextPub (s : State) (c : Nat) (x : Core) : (s.setCore c x).nextPub = s.nextPub := rfl
@[simp] theorem State.setCore_acks (s : State) (c : Nat) (x : Core) : (s.setCore c x).acks = s.acks := rfl
@[simp] theorem State.setCore_commits (s : State) (c : Nat) (x : Core) : (s.setCore c x).commits = s.commits := rfl
@[simp] theorem State.setCore_fills (s : State) (c : Nat) (x : Core) : (s.setCore c x).fills = s.fills := rfl
@[simp] theorem State.setCore_atoms (s : State) (c : Nat) (x : Core) : (s.setCore c x).atoms = s.atoms := rfl
@[simp] theorem State.setCore_inks (s : State) (c : Nat) (x : Core) : (s.setCore c x).inks = s.inks := rfl
@[simp] theorem State.setCore_inkReps (s : State) (c : Nat) (x : Core) : (s.setCore c x).inkReps = s.inkReps := rfl
@[simp] theorem State.setCore_inkWait (s : State) (c : Nat) (x : Core) : (s.setCore c x).inkWait = s.inkWait := rfl
@[simp] theorem State.setCore_scrubs (s : State) (c : Nat) (x : Core) : (s.setCore c x).scrubs = s.scrubs := rfl
@[simp] theorem State.setCore_tagq (s : State) (c : Nat) (x : Core) : (s.setCore c x).tagq = s.tagq := rfl
@[simp] theorem State.setCore_moves (s : State) (c : Nat) (x : Core) : (s.setCore c x).moves = s.moves := rfl
@[simp] theorem State.setCore_faults (s : State) (c : Nat) (x : Core) : (s.setCore c x).faults = s.faults := rfl
@[simp] theorem State.setCore_armed (s : State) (c : Nat) (x : Core) : (s.setCore c x).armed = s.armed := rfl
@[simp] theorem State.setCore_scanning (s : State) (c : Nat) (x : Core) : (s.setCore c x).scanning = s.scanning := rfl
@[simp] theorem State.setCore_floorDue (s : State) (c : Nat) (x : Core) : (s.setCore c x).floorDue = s.floorDue := rfl
@[simp] theorem State.setCore_inkTimeout (s : State) (c : Nat) (x : Core) : (s.setCore c x).inkTimeout = s.inkTimeout := rfl
@[simp] theorem State.setCore_parkLimit (s : State) (c : Nat) (x : Core) : (s.setCore c x).parkLimit = s.parkLimit := rfl
@[simp] theorem State.setCore_boundTimeout (s : State) (c : Nat) (x : Core) : (s.setCore c x).boundTimeout = s.boundTimeout := rfl
@[simp] theorem State.setCore_scrubPass (s : State) (c : Nat) (x : Core) : (s.setCore c x).scrubPass = s.scrubPass := rfl
@[simp] theorem State.setCore_activity (s : State) (c : Nat) (x : Core) : (s.setCore c x).activity = s.activity := rfl
@[simp] theorem State.setCore_sent (s : State) (c : Nat) (x : Core) : (s.setCore c x).sent = s.sent := rfl
@[simp] theorem State.setCore_seqOut (s : State) (c : Nat) (x : Core) : (s.setCore c x).seqOut = s.seqOut := rfl
@[simp] theorem State.setCore_seqIn (s : State) (c : Nat) (x : Core) : (s.setCore c x).seqIn = s.seqIn := rfl
@[simp] theorem State.setCore_keptReps (s : State) (c : Nat) (x : Core) : (s.setCore c x).keptReps = s.keptReps := rfl
@[simp] theorem State.setCore_colls (s : State) (c : Nat) (x : Core) : (s.setCore c x).colls = s.colls := rfl
@[simp] theorem State.setCore_modules (s : State) (c : Nat) (x : Core) : (s.setCore c x).modules = s.modules := rfl
@[simp] theorem State.setCore_degraded (s : State) (c : Nat) (x : Core) : (s.setCore c x).degraded = s.degraded := rfl
@[simp] theorem State.setCore_hostFrozen (s : State) (c : Nat) (x : Core) : (s.setCore c x).hostFrozen = s.hostFrozen := rfl
@[simp] theorem State.setCore_sbFrozen (s : State) (c : Nat) (x : Core) : (s.setCore c x).sbFrozen = s.sbFrozen := rfl
@[simp] theorem State.setCore_mbox (s : State) (c : Nat) (x : Core) : (s.setCore c x).mbox = s.mbox := rfl
@[simp] theorem State.setCore_mbBusy (s : State) (c : Nat) (x : Core) : (s.setCore c x).mbBusy = s.mbBusy := rfl
@[simp] theorem State.setCore_mbCmd (s : State) (c : Nat) (x : Core) : (s.setCore c x).mbCmd = s.mbCmd := rfl
@[simp] theorem State.setCore_mbResult (s : State) (c : Nat) (x : Core) : (s.setCore c x).mbResult = s.mbResult := rfl
@[simp] theorem State.setCore_crBase (s : State) (c : Nat) (x : Core) : (s.setCore c x).crBase = s.crBase := rfl
@[simp] theorem State.setCore_crLog2 (s : State) (c : Nat) (x : Core) : (s.setCore c x).crLog2 = s.crLog2 := rfl
@[simp] theorem State.setCore_crTail (s : State) (c : Nat) (x : Core) : (s.setCore c x).crTail = s.crTail := rfl
@[simp] theorem State.setCore_msix (s : State) (c : Nat) (x : Core) : (s.setCore c x).msix = s.msix := rfl
@[simp] theorem State.setCore_hostReply (s : State) (c : Nat) (x : Core) : (s.setCore c x).hostReply = s.hostReply := rfl
@[simp] theorem State.setCore_hostPoison (s : State) (c : Nat) (x : Core) : (s.setCore c x).hostPoison = s.hostPoison := rfl
@[simp] theorem State.setCore_sbReply (s : State) (c : Nat) (x : Core) : (s.setCore c x).sbReply = s.sbReply := rfl
@[simp] theorem State.setCore_dropped (s : State) (c : Nat) (x : Core) : (s.setCore c x).dropped = s.dropped := rfl
@[simp] theorem State.setCore_badDgrams (s : State) (c : Nat) (x : Core) : (s.setCore c x).badDgrams = s.badDgrams := rfl
@[simp] theorem State.setCore_healthRecs (s : State) (c : Nat) (x : Core) : (s.setCore c x).healthRecs = s.healthRecs := rfl
@[simp] theorem State.setCore_hostWrites (s : State) (c : Nat) (x : Core) : (s.setCore c x).hostWrites = s.hostWrites := rfl
@[simp] theorem State.setCore_boot (s : State) (c : Nat) (x : Core) : (s.setCore c x).boot = s.boot := rfl
@[simp] theorem State.setCore_flash (s : State) (c : Nat) (x : Core) : (s.setCore c x).flash = s.flash := rfl
@[simp] theorem State.setCore_hostq (s : State) (c : Nat) (x : Core) : (s.setCore c x).hostq = s.hostq := rfl
@[simp] theorem State.setCore_booted (s : State) (c : Nat) (x : Core) : (s.setCore c x).booted = s.booted := rfl
@[simp] theorem State.setCore_spdm (s : State) (c : Nat) (x : Core) : (s.setCore c x).spdm = s.spdm := rfl
@[simp] theorem State.setCore_rejected (s : State) (c : Nat) (x : Core) : (s.setCore c x).rejected = s.rejected := rfl
@[simp] theorem State.setCore_chores (s : State) (c : Nat) (x : Core) : (s.setCore c x).chores = s.chores := rfl
@[simp] theorem State.setCore_invs (s : State) (c : Nat) (x : Core) : (s.setCore c x).invs = s.invs := rfl
@[simp] theorem State.setCore_moving (s : State) (c : Nat) (x : Core) : (s.setCore c x).moving = s.moving := rfl

/-! ## updCore -/

@[simp] theorem State.updCore_steps (s : State) (c : Nat) (f : Core → Core) : (s.updCore c f).steps = s.steps := rfl
@[simp] theorem State.updCore_agenda (s : State) (c : Nat) (f : Core → Core) : (s.updCore c f).agenda = s.agenda := rfl
@[simp] theorem State.updCore_cur (s : State) (c : Nat) (f : Core → Core) : (s.updCore c f).cur = s.cur := rfl
@[simp] theorem State.updCore_teams (s : State) (c : Nat) (f : Core → Core) : (s.updCore c f).teams = s.teams := rfl
@[simp] theorem State.updCore_nextTeam (s : State) (c : Nat) (f : Core → Core) : (s.updCore c f).nextTeam = s.nextTeam := rfl
@[simp] theorem State.updCore_grids (s : State) (c : Nat) (f : Core → Core) : (s.updCore c f).grids = s.grids := rfl
@[simp] theorem State.updCore_nextGrid (s : State) (c : Nat) (f : Core → Core) : (s.updCore c f).nextGrid = s.nextGrid := rfl
@[simp] theorem State.updCore_nextSet (s : State) (c : Nat) (f : Core → Core) : (s.updCore c f).nextSet = s.nextSet := rfl
@[simp] theorem State.updCore_ctxs (s : State) (c : Nat) (f : Core → Core) : (s.updCore c f).ctxs = s.ctxs := rfl
@[simp] theorem State.updCore_dies (s : State) (c : Nat) (f : Core → Core) : (s.updCore c f).dies = s.dies := rfl
@[simp] theorem State.updCore_clusters (s : State) (c : Nat) (f : Core → Core) : (s.updCore c f).clusters = s.clusters := rfl
@[simp] theorem State.updCore_devno (s : State) (c : Nat) (f : Core → Core) : (s.updCore c f).devno = s.devno := rfl
@[simp] theorem State.updCore_gtime (s : State) (c : Nat) (f : Core → Core) : (s.updCore c f).gtime = s.gtime := rfl
@[simp] theorem State.updCore_ptp (s : State) (c : Nat) (f : Core → Core) : (s.updCore c f).ptp = s.ptp := rfl
@[simp] theorem State.updCore_mem (s : State) (c : Nat) (f : Core → Core) : (s.updCore c f).mem = s.mem := rfl
@[simp] theorem State.updCore_ecc (s : State) (c : Nat) (f : Core → Core) : (s.updCore c f).ecc = s.ecc := rfl
@[simp] theorem State.updCore_dir (s : State) (c : Nat) (f : Core → Core) : (s.updCore c f).dir = s.dir := rfl
@[simp] theorem State.updCore_spills (s : State) (c : Nat) (f : Core → Core) : (s.updCore c f).spills = s.spills := rfl
@[simp] theorem State.updCore_wts (s : State) (c : Nat) (f : Core → Core) : (s.updCore c f).wts = s.wts := rfl
@[simp] theorem State.updCore_upds (s : State) (c : Nat) (f : Core → Core) : (s.updCore c f).upds = s.upds := rfl
@[simp] theorem State.updCore_drops (s : State) (c : Nat) (f : Core → Core) : (s.updCore c f).drops = s.drops := rfl
@[simp] theorem State.updCore_pubs (s : State) (c : Nat) (f : Core → Core) : (s.updCore c f).pubs = s.pubs := rfl
@[simp] theorem State.updCore_nextPub (s : State) (c : Nat) (f : Core → Core) : (s.updCore c f).nextPub = s.nextPub := rfl
@[simp] theorem State.updCore_acks (s : State) (c : Nat) (f : Core → Core) : (s.updCore c f).acks = s.acks := rfl
@[simp] theorem State.updCore_commits (s : State) (c : Nat) (f : Core → Core) : (s.updCore c f).commits = s.commits := rfl
@[simp] theorem State.updCore_fills (s : State) (c : Nat) (f : Core → Core) : (s.updCore c f).fills = s.fills := rfl
@[simp] theorem State.updCore_atoms (s : State) (c : Nat) (f : Core → Core) : (s.updCore c f).atoms = s.atoms := rfl
@[simp] theorem State.updCore_inks (s : State) (c : Nat) (f : Core → Core) : (s.updCore c f).inks = s.inks := rfl
@[simp] theorem State.updCore_inkReps (s : State) (c : Nat) (f : Core → Core) : (s.updCore c f).inkReps = s.inkReps := rfl
@[simp] theorem State.updCore_inkWait (s : State) (c : Nat) (f : Core → Core) : (s.updCore c f).inkWait = s.inkWait := rfl
@[simp] theorem State.updCore_scrubs (s : State) (c : Nat) (f : Core → Core) : (s.updCore c f).scrubs = s.scrubs := rfl
@[simp] theorem State.updCore_tagq (s : State) (c : Nat) (f : Core → Core) : (s.updCore c f).tagq = s.tagq := rfl
@[simp] theorem State.updCore_moves (s : State) (c : Nat) (f : Core → Core) : (s.updCore c f).moves = s.moves := rfl
@[simp] theorem State.updCore_faults (s : State) (c : Nat) (f : Core → Core) : (s.updCore c f).faults = s.faults := rfl
@[simp] theorem State.updCore_armed (s : State) (c : Nat) (f : Core → Core) : (s.updCore c f).armed = s.armed := rfl
@[simp] theorem State.updCore_scanning (s : State) (c : Nat) (f : Core → Core) : (s.updCore c f).scanning = s.scanning := rfl
@[simp] theorem State.updCore_floorDue (s : State) (c : Nat) (f : Core → Core) : (s.updCore c f).floorDue = s.floorDue := rfl
@[simp] theorem State.updCore_inkTimeout (s : State) (c : Nat) (f : Core → Core) : (s.updCore c f).inkTimeout = s.inkTimeout := rfl
@[simp] theorem State.updCore_parkLimit (s : State) (c : Nat) (f : Core → Core) : (s.updCore c f).parkLimit = s.parkLimit := rfl
@[simp] theorem State.updCore_boundTimeout (s : State) (c : Nat) (f : Core → Core) : (s.updCore c f).boundTimeout = s.boundTimeout := rfl
@[simp] theorem State.updCore_scrubPass (s : State) (c : Nat) (f : Core → Core) : (s.updCore c f).scrubPass = s.scrubPass := rfl
@[simp] theorem State.updCore_activity (s : State) (c : Nat) (f : Core → Core) : (s.updCore c f).activity = s.activity := rfl
@[simp] theorem State.updCore_sent (s : State) (c : Nat) (f : Core → Core) : (s.updCore c f).sent = s.sent := rfl
@[simp] theorem State.updCore_seqOut (s : State) (c : Nat) (f : Core → Core) : (s.updCore c f).seqOut = s.seqOut := rfl
@[simp] theorem State.updCore_seqIn (s : State) (c : Nat) (f : Core → Core) : (s.updCore c f).seqIn = s.seqIn := rfl
@[simp] theorem State.updCore_keptReps (s : State) (c : Nat) (f : Core → Core) : (s.updCore c f).keptReps = s.keptReps := rfl
@[simp] theorem State.updCore_colls (s : State) (c : Nat) (f : Core → Core) : (s.updCore c f).colls = s.colls := rfl
@[simp] theorem State.updCore_modules (s : State) (c : Nat) (f : Core → Core) : (s.updCore c f).modules = s.modules := rfl
@[simp] theorem State.updCore_degraded (s : State) (c : Nat) (f : Core → Core) : (s.updCore c f).degraded = s.degraded := rfl
@[simp] theorem State.updCore_hostFrozen (s : State) (c : Nat) (f : Core → Core) : (s.updCore c f).hostFrozen = s.hostFrozen := rfl
@[simp] theorem State.updCore_sbFrozen (s : State) (c : Nat) (f : Core → Core) : (s.updCore c f).sbFrozen = s.sbFrozen := rfl
@[simp] theorem State.updCore_mbox (s : State) (c : Nat) (f : Core → Core) : (s.updCore c f).mbox = s.mbox := rfl
@[simp] theorem State.updCore_mbBusy (s : State) (c : Nat) (f : Core → Core) : (s.updCore c f).mbBusy = s.mbBusy := rfl
@[simp] theorem State.updCore_mbCmd (s : State) (c : Nat) (f : Core → Core) : (s.updCore c f).mbCmd = s.mbCmd := rfl
@[simp] theorem State.updCore_mbResult (s : State) (c : Nat) (f : Core → Core) : (s.updCore c f).mbResult = s.mbResult := rfl
@[simp] theorem State.updCore_crBase (s : State) (c : Nat) (f : Core → Core) : (s.updCore c f).crBase = s.crBase := rfl
@[simp] theorem State.updCore_crLog2 (s : State) (c : Nat) (f : Core → Core) : (s.updCore c f).crLog2 = s.crLog2 := rfl
@[simp] theorem State.updCore_crTail (s : State) (c : Nat) (f : Core → Core) : (s.updCore c f).crTail = s.crTail := rfl
@[simp] theorem State.updCore_msix (s : State) (c : Nat) (f : Core → Core) : (s.updCore c f).msix = s.msix := rfl
@[simp] theorem State.updCore_hostReply (s : State) (c : Nat) (f : Core → Core) : (s.updCore c f).hostReply = s.hostReply := rfl
@[simp] theorem State.updCore_hostPoison (s : State) (c : Nat) (f : Core → Core) : (s.updCore c f).hostPoison = s.hostPoison := rfl
@[simp] theorem State.updCore_sbReply (s : State) (c : Nat) (f : Core → Core) : (s.updCore c f).sbReply = s.sbReply := rfl
@[simp] theorem State.updCore_dropped (s : State) (c : Nat) (f : Core → Core) : (s.updCore c f).dropped = s.dropped := rfl
@[simp] theorem State.updCore_badDgrams (s : State) (c : Nat) (f : Core → Core) : (s.updCore c f).badDgrams = s.badDgrams := rfl
@[simp] theorem State.updCore_healthRecs (s : State) (c : Nat) (f : Core → Core) : (s.updCore c f).healthRecs = s.healthRecs := rfl
@[simp] theorem State.updCore_hostWrites (s : State) (c : Nat) (f : Core → Core) : (s.updCore c f).hostWrites = s.hostWrites := rfl
@[simp] theorem State.updCore_boot (s : State) (c : Nat) (f : Core → Core) : (s.updCore c f).boot = s.boot := rfl
@[simp] theorem State.updCore_flash (s : State) (c : Nat) (f : Core → Core) : (s.updCore c f).flash = s.flash := rfl
@[simp] theorem State.updCore_hostq (s : State) (c : Nat) (f : Core → Core) : (s.updCore c f).hostq = s.hostq := rfl
@[simp] theorem State.updCore_booted (s : State) (c : Nat) (f : Core → Core) : (s.updCore c f).booted = s.booted := rfl
@[simp] theorem State.updCore_spdm (s : State) (c : Nat) (f : Core → Core) : (s.updCore c f).spdm = s.spdm := rfl
@[simp] theorem State.updCore_rejected (s : State) (c : Nat) (f : Core → Core) : (s.updCore c f).rejected = s.rejected := rfl
@[simp] theorem State.updCore_chores (s : State) (c : Nat) (f : Core → Core) : (s.updCore c f).chores = s.chores := rfl
@[simp] theorem State.updCore_invs (s : State) (c : Nat) (f : Core → Core) : (s.updCore c f).invs = s.invs := rfl
@[simp] theorem State.updCore_moving (s : State) (c : Nat) (f : Core → Core) : (s.updCore c f).moving = s.moving := rfl

/-! ## setGroup -/

@[simp] theorem State.setGroup_steps (s : State) (c k : Nat) (g : Group) : (s.setGroup c k g).steps = s.steps := rfl
@[simp] theorem State.setGroup_agenda (s : State) (c k : Nat) (g : Group) : (s.setGroup c k g).agenda = s.agenda := rfl
@[simp] theorem State.setGroup_cur (s : State) (c k : Nat) (g : Group) : (s.setGroup c k g).cur = s.cur := rfl
@[simp] theorem State.setGroup_teams (s : State) (c k : Nat) (g : Group) : (s.setGroup c k g).teams = s.teams := rfl
@[simp] theorem State.setGroup_nextTeam (s : State) (c k : Nat) (g : Group) : (s.setGroup c k g).nextTeam = s.nextTeam := rfl
@[simp] theorem State.setGroup_grids (s : State) (c k : Nat) (g : Group) : (s.setGroup c k g).grids = s.grids := rfl
@[simp] theorem State.setGroup_nextGrid (s : State) (c k : Nat) (g : Group) : (s.setGroup c k g).nextGrid = s.nextGrid := rfl
@[simp] theorem State.setGroup_nextSet (s : State) (c k : Nat) (g : Group) : (s.setGroup c k g).nextSet = s.nextSet := rfl
@[simp] theorem State.setGroup_ctxs (s : State) (c k : Nat) (g : Group) : (s.setGroup c k g).ctxs = s.ctxs := rfl
@[simp] theorem State.setGroup_dies (s : State) (c k : Nat) (g : Group) : (s.setGroup c k g).dies = s.dies := rfl
@[simp] theorem State.setGroup_clusters (s : State) (c k : Nat) (g : Group) : (s.setGroup c k g).clusters = s.clusters := rfl
@[simp] theorem State.setGroup_devno (s : State) (c k : Nat) (g : Group) : (s.setGroup c k g).devno = s.devno := rfl
@[simp] theorem State.setGroup_gtime (s : State) (c k : Nat) (g : Group) : (s.setGroup c k g).gtime = s.gtime := rfl
@[simp] theorem State.setGroup_ptp (s : State) (c k : Nat) (g : Group) : (s.setGroup c k g).ptp = s.ptp := rfl
@[simp] theorem State.setGroup_mem (s : State) (c k : Nat) (g : Group) : (s.setGroup c k g).mem = s.mem := rfl
@[simp] theorem State.setGroup_ecc (s : State) (c k : Nat) (g : Group) : (s.setGroup c k g).ecc = s.ecc := rfl
@[simp] theorem State.setGroup_dir (s : State) (c k : Nat) (g : Group) : (s.setGroup c k g).dir = s.dir := rfl
@[simp] theorem State.setGroup_spills (s : State) (c k : Nat) (g : Group) : (s.setGroup c k g).spills = s.spills := rfl
@[simp] theorem State.setGroup_wts (s : State) (c k : Nat) (g : Group) : (s.setGroup c k g).wts = s.wts := rfl
@[simp] theorem State.setGroup_upds (s : State) (c k : Nat) (g : Group) : (s.setGroup c k g).upds = s.upds := rfl
@[simp] theorem State.setGroup_drops (s : State) (c k : Nat) (g : Group) : (s.setGroup c k g).drops = s.drops := rfl
@[simp] theorem State.setGroup_pubs (s : State) (c k : Nat) (g : Group) : (s.setGroup c k g).pubs = s.pubs := rfl
@[simp] theorem State.setGroup_nextPub (s : State) (c k : Nat) (g : Group) : (s.setGroup c k g).nextPub = s.nextPub := rfl
@[simp] theorem State.setGroup_acks (s : State) (c k : Nat) (g : Group) : (s.setGroup c k g).acks = s.acks := rfl
@[simp] theorem State.setGroup_commits (s : State) (c k : Nat) (g : Group) : (s.setGroup c k g).commits = s.commits := rfl
@[simp] theorem State.setGroup_fills (s : State) (c k : Nat) (g : Group) : (s.setGroup c k g).fills = s.fills := rfl
@[simp] theorem State.setGroup_atoms (s : State) (c k : Nat) (g : Group) : (s.setGroup c k g).atoms = s.atoms := rfl
@[simp] theorem State.setGroup_inks (s : State) (c k : Nat) (g : Group) : (s.setGroup c k g).inks = s.inks := rfl
@[simp] theorem State.setGroup_inkReps (s : State) (c k : Nat) (g : Group) : (s.setGroup c k g).inkReps = s.inkReps := rfl
@[simp] theorem State.setGroup_inkWait (s : State) (c k : Nat) (g : Group) : (s.setGroup c k g).inkWait = s.inkWait := rfl
@[simp] theorem State.setGroup_scrubs (s : State) (c k : Nat) (g : Group) : (s.setGroup c k g).scrubs = s.scrubs := rfl
@[simp] theorem State.setGroup_tagq (s : State) (c k : Nat) (g : Group) : (s.setGroup c k g).tagq = s.tagq := rfl
@[simp] theorem State.setGroup_moves (s : State) (c k : Nat) (g : Group) : (s.setGroup c k g).moves = s.moves := rfl
@[simp] theorem State.setGroup_faults (s : State) (c k : Nat) (g : Group) : (s.setGroup c k g).faults = s.faults := rfl
@[simp] theorem State.setGroup_armed (s : State) (c k : Nat) (g : Group) : (s.setGroup c k g).armed = s.armed := rfl
@[simp] theorem State.setGroup_scanning (s : State) (c k : Nat) (g : Group) : (s.setGroup c k g).scanning = s.scanning := rfl
@[simp] theorem State.setGroup_floorDue (s : State) (c k : Nat) (g : Group) : (s.setGroup c k g).floorDue = s.floorDue := rfl
@[simp] theorem State.setGroup_inkTimeout (s : State) (c k : Nat) (g : Group) : (s.setGroup c k g).inkTimeout = s.inkTimeout := rfl
@[simp] theorem State.setGroup_parkLimit (s : State) (c k : Nat) (g : Group) : (s.setGroup c k g).parkLimit = s.parkLimit := rfl
@[simp] theorem State.setGroup_boundTimeout (s : State) (c k : Nat) (g : Group) : (s.setGroup c k g).boundTimeout = s.boundTimeout := rfl
@[simp] theorem State.setGroup_scrubPass (s : State) (c k : Nat) (g : Group) : (s.setGroup c k g).scrubPass = s.scrubPass := rfl
@[simp] theorem State.setGroup_activity (s : State) (c k : Nat) (g : Group) : (s.setGroup c k g).activity = s.activity := rfl
@[simp] theorem State.setGroup_sent (s : State) (c k : Nat) (g : Group) : (s.setGroup c k g).sent = s.sent := rfl
@[simp] theorem State.setGroup_seqOut (s : State) (c k : Nat) (g : Group) : (s.setGroup c k g).seqOut = s.seqOut := rfl
@[simp] theorem State.setGroup_seqIn (s : State) (c k : Nat) (g : Group) : (s.setGroup c k g).seqIn = s.seqIn := rfl
@[simp] theorem State.setGroup_keptReps (s : State) (c k : Nat) (g : Group) : (s.setGroup c k g).keptReps = s.keptReps := rfl
@[simp] theorem State.setGroup_colls (s : State) (c k : Nat) (g : Group) : (s.setGroup c k g).colls = s.colls := rfl
@[simp] theorem State.setGroup_modules (s : State) (c k : Nat) (g : Group) : (s.setGroup c k g).modules = s.modules := rfl
@[simp] theorem State.setGroup_degraded (s : State) (c k : Nat) (g : Group) : (s.setGroup c k g).degraded = s.degraded := rfl
@[simp] theorem State.setGroup_hostFrozen (s : State) (c k : Nat) (g : Group) : (s.setGroup c k g).hostFrozen = s.hostFrozen := rfl
@[simp] theorem State.setGroup_sbFrozen (s : State) (c k : Nat) (g : Group) : (s.setGroup c k g).sbFrozen = s.sbFrozen := rfl
@[simp] theorem State.setGroup_mbox (s : State) (c k : Nat) (g : Group) : (s.setGroup c k g).mbox = s.mbox := rfl
@[simp] theorem State.setGroup_mbBusy (s : State) (c k : Nat) (g : Group) : (s.setGroup c k g).mbBusy = s.mbBusy := rfl
@[simp] theorem State.setGroup_mbCmd (s : State) (c k : Nat) (g : Group) : (s.setGroup c k g).mbCmd = s.mbCmd := rfl
@[simp] theorem State.setGroup_mbResult (s : State) (c k : Nat) (g : Group) : (s.setGroup c k g).mbResult = s.mbResult := rfl
@[simp] theorem State.setGroup_crBase (s : State) (c k : Nat) (g : Group) : (s.setGroup c k g).crBase = s.crBase := rfl
@[simp] theorem State.setGroup_crLog2 (s : State) (c k : Nat) (g : Group) : (s.setGroup c k g).crLog2 = s.crLog2 := rfl
@[simp] theorem State.setGroup_crTail (s : State) (c k : Nat) (g : Group) : (s.setGroup c k g).crTail = s.crTail := rfl
@[simp] theorem State.setGroup_msix (s : State) (c k : Nat) (g : Group) : (s.setGroup c k g).msix = s.msix := rfl
@[simp] theorem State.setGroup_hostReply (s : State) (c k : Nat) (g : Group) : (s.setGroup c k g).hostReply = s.hostReply := rfl
@[simp] theorem State.setGroup_hostPoison (s : State) (c k : Nat) (g : Group) : (s.setGroup c k g).hostPoison = s.hostPoison := rfl
@[simp] theorem State.setGroup_sbReply (s : State) (c k : Nat) (g : Group) : (s.setGroup c k g).sbReply = s.sbReply := rfl
@[simp] theorem State.setGroup_dropped (s : State) (c k : Nat) (g : Group) : (s.setGroup c k g).dropped = s.dropped := rfl
@[simp] theorem State.setGroup_badDgrams (s : State) (c k : Nat) (g : Group) : (s.setGroup c k g).badDgrams = s.badDgrams := rfl
@[simp] theorem State.setGroup_healthRecs (s : State) (c k : Nat) (g : Group) : (s.setGroup c k g).healthRecs = s.healthRecs := rfl
@[simp] theorem State.setGroup_hostWrites (s : State) (c k : Nat) (g : Group) : (s.setGroup c k g).hostWrites = s.hostWrites := rfl
@[simp] theorem State.setGroup_boot (s : State) (c k : Nat) (g : Group) : (s.setGroup c k g).boot = s.boot := rfl
@[simp] theorem State.setGroup_flash (s : State) (c k : Nat) (g : Group) : (s.setGroup c k g).flash = s.flash := rfl
@[simp] theorem State.setGroup_hostq (s : State) (c k : Nat) (g : Group) : (s.setGroup c k g).hostq = s.hostq := rfl
@[simp] theorem State.setGroup_booted (s : State) (c k : Nat) (g : Group) : (s.setGroup c k g).booted = s.booted := rfl
@[simp] theorem State.setGroup_spdm (s : State) (c k : Nat) (g : Group) : (s.setGroup c k g).spdm = s.spdm := rfl
@[simp] theorem State.setGroup_rejected (s : State) (c k : Nat) (g : Group) : (s.setGroup c k g).rejected = s.rejected := rfl
@[simp] theorem State.setGroup_chores (s : State) (c k : Nat) (g : Group) : (s.setGroup c k g).chores = s.chores := rfl
@[simp] theorem State.setGroup_invs (s : State) (c k : Nat) (g : Group) : (s.setGroup c k g).invs = s.invs := rfl
@[simp] theorem State.setGroup_moving (s : State) (c k : Nat) (g : Group) : (s.setGroup c k g).moving = s.moving := rfl

/-! ## updCtx -/

@[simp] theorem State.updCtx_steps (s : State) (c : Nat) (f : Ctx → Ctx) : (s.updCtx c f).steps = s.steps := rfl
@[simp] theorem State.updCtx_agenda (s : State) (c : Nat) (f : Ctx → Ctx) : (s.updCtx c f).agenda = s.agenda := rfl
@[simp] theorem State.updCtx_cur (s : State) (c : Nat) (f : Ctx → Ctx) : (s.updCtx c f).cur = s.cur := rfl
@[simp] theorem State.updCtx_cores (s : State) (c : Nat) (f : Ctx → Ctx) : (s.updCtx c f).cores = s.cores := rfl
@[simp] theorem State.updCtx_teams (s : State) (c : Nat) (f : Ctx → Ctx) : (s.updCtx c f).teams = s.teams := rfl
@[simp] theorem State.updCtx_nextTeam (s : State) (c : Nat) (f : Ctx → Ctx) : (s.updCtx c f).nextTeam = s.nextTeam := rfl
@[simp] theorem State.updCtx_grids (s : State) (c : Nat) (f : Ctx → Ctx) : (s.updCtx c f).grids = s.grids := rfl
@[simp] theorem State.updCtx_nextGrid (s : State) (c : Nat) (f : Ctx → Ctx) : (s.updCtx c f).nextGrid = s.nextGrid := rfl
@[simp] theorem State.updCtx_nextSet (s : State) (c : Nat) (f : Ctx → Ctx) : (s.updCtx c f).nextSet = s.nextSet := rfl
@[simp] theorem State.updCtx_dies (s : State) (c : Nat) (f : Ctx → Ctx) : (s.updCtx c f).dies = s.dies := rfl
@[simp] theorem State.updCtx_clusters (s : State) (c : Nat) (f : Ctx → Ctx) : (s.updCtx c f).clusters = s.clusters := rfl
@[simp] theorem State.updCtx_devno (s : State) (c : Nat) (f : Ctx → Ctx) : (s.updCtx c f).devno = s.devno := rfl
@[simp] theorem State.updCtx_gtime (s : State) (c : Nat) (f : Ctx → Ctx) : (s.updCtx c f).gtime = s.gtime := rfl
@[simp] theorem State.updCtx_ptp (s : State) (c : Nat) (f : Ctx → Ctx) : (s.updCtx c f).ptp = s.ptp := rfl
@[simp] theorem State.updCtx_mem (s : State) (c : Nat) (f : Ctx → Ctx) : (s.updCtx c f).mem = s.mem := rfl
@[simp] theorem State.updCtx_ecc (s : State) (c : Nat) (f : Ctx → Ctx) : (s.updCtx c f).ecc = s.ecc := rfl
@[simp] theorem State.updCtx_dir (s : State) (c : Nat) (f : Ctx → Ctx) : (s.updCtx c f).dir = s.dir := rfl
@[simp] theorem State.updCtx_spills (s : State) (c : Nat) (f : Ctx → Ctx) : (s.updCtx c f).spills = s.spills := rfl
@[simp] theorem State.updCtx_wts (s : State) (c : Nat) (f : Ctx → Ctx) : (s.updCtx c f).wts = s.wts := rfl
@[simp] theorem State.updCtx_upds (s : State) (c : Nat) (f : Ctx → Ctx) : (s.updCtx c f).upds = s.upds := rfl
@[simp] theorem State.updCtx_drops (s : State) (c : Nat) (f : Ctx → Ctx) : (s.updCtx c f).drops = s.drops := rfl
@[simp] theorem State.updCtx_pubs (s : State) (c : Nat) (f : Ctx → Ctx) : (s.updCtx c f).pubs = s.pubs := rfl
@[simp] theorem State.updCtx_nextPub (s : State) (c : Nat) (f : Ctx → Ctx) : (s.updCtx c f).nextPub = s.nextPub := rfl
@[simp] theorem State.updCtx_acks (s : State) (c : Nat) (f : Ctx → Ctx) : (s.updCtx c f).acks = s.acks := rfl
@[simp] theorem State.updCtx_commits (s : State) (c : Nat) (f : Ctx → Ctx) : (s.updCtx c f).commits = s.commits := rfl
@[simp] theorem State.updCtx_fills (s : State) (c : Nat) (f : Ctx → Ctx) : (s.updCtx c f).fills = s.fills := rfl
@[simp] theorem State.updCtx_atoms (s : State) (c : Nat) (f : Ctx → Ctx) : (s.updCtx c f).atoms = s.atoms := rfl
@[simp] theorem State.updCtx_inks (s : State) (c : Nat) (f : Ctx → Ctx) : (s.updCtx c f).inks = s.inks := rfl
@[simp] theorem State.updCtx_inkReps (s : State) (c : Nat) (f : Ctx → Ctx) : (s.updCtx c f).inkReps = s.inkReps := rfl
@[simp] theorem State.updCtx_inkWait (s : State) (c : Nat) (f : Ctx → Ctx) : (s.updCtx c f).inkWait = s.inkWait := rfl
@[simp] theorem State.updCtx_scrubs (s : State) (c : Nat) (f : Ctx → Ctx) : (s.updCtx c f).scrubs = s.scrubs := rfl
@[simp] theorem State.updCtx_tagq (s : State) (c : Nat) (f : Ctx → Ctx) : (s.updCtx c f).tagq = s.tagq := rfl
@[simp] theorem State.updCtx_moves (s : State) (c : Nat) (f : Ctx → Ctx) : (s.updCtx c f).moves = s.moves := rfl
@[simp] theorem State.updCtx_faults (s : State) (c : Nat) (f : Ctx → Ctx) : (s.updCtx c f).faults = s.faults := rfl
@[simp] theorem State.updCtx_armed (s : State) (c : Nat) (f : Ctx → Ctx) : (s.updCtx c f).armed = s.armed := rfl
@[simp] theorem State.updCtx_scanning (s : State) (c : Nat) (f : Ctx → Ctx) : (s.updCtx c f).scanning = s.scanning := rfl
@[simp] theorem State.updCtx_floorDue (s : State) (c : Nat) (f : Ctx → Ctx) : (s.updCtx c f).floorDue = s.floorDue := rfl
@[simp] theorem State.updCtx_inkTimeout (s : State) (c : Nat) (f : Ctx → Ctx) : (s.updCtx c f).inkTimeout = s.inkTimeout := rfl
@[simp] theorem State.updCtx_parkLimit (s : State) (c : Nat) (f : Ctx → Ctx) : (s.updCtx c f).parkLimit = s.parkLimit := rfl
@[simp] theorem State.updCtx_boundTimeout (s : State) (c : Nat) (f : Ctx → Ctx) : (s.updCtx c f).boundTimeout = s.boundTimeout := rfl
@[simp] theorem State.updCtx_scrubPass (s : State) (c : Nat) (f : Ctx → Ctx) : (s.updCtx c f).scrubPass = s.scrubPass := rfl
@[simp] theorem State.updCtx_activity (s : State) (c : Nat) (f : Ctx → Ctx) : (s.updCtx c f).activity = s.activity := rfl
@[simp] theorem State.updCtx_sent (s : State) (c : Nat) (f : Ctx → Ctx) : (s.updCtx c f).sent = s.sent := rfl
@[simp] theorem State.updCtx_seqOut (s : State) (c : Nat) (f : Ctx → Ctx) : (s.updCtx c f).seqOut = s.seqOut := rfl
@[simp] theorem State.updCtx_seqIn (s : State) (c : Nat) (f : Ctx → Ctx) : (s.updCtx c f).seqIn = s.seqIn := rfl
@[simp] theorem State.updCtx_keptReps (s : State) (c : Nat) (f : Ctx → Ctx) : (s.updCtx c f).keptReps = s.keptReps := rfl
@[simp] theorem State.updCtx_colls (s : State) (c : Nat) (f : Ctx → Ctx) : (s.updCtx c f).colls = s.colls := rfl
@[simp] theorem State.updCtx_modules (s : State) (c : Nat) (f : Ctx → Ctx) : (s.updCtx c f).modules = s.modules := rfl
@[simp] theorem State.updCtx_degraded (s : State) (c : Nat) (f : Ctx → Ctx) : (s.updCtx c f).degraded = s.degraded := rfl
@[simp] theorem State.updCtx_hostFrozen (s : State) (c : Nat) (f : Ctx → Ctx) : (s.updCtx c f).hostFrozen = s.hostFrozen := rfl
@[simp] theorem State.updCtx_sbFrozen (s : State) (c : Nat) (f : Ctx → Ctx) : (s.updCtx c f).sbFrozen = s.sbFrozen := rfl
@[simp] theorem State.updCtx_mbox (s : State) (c : Nat) (f : Ctx → Ctx) : (s.updCtx c f).mbox = s.mbox := rfl
@[simp] theorem State.updCtx_mbBusy (s : State) (c : Nat) (f : Ctx → Ctx) : (s.updCtx c f).mbBusy = s.mbBusy := rfl
@[simp] theorem State.updCtx_mbCmd (s : State) (c : Nat) (f : Ctx → Ctx) : (s.updCtx c f).mbCmd = s.mbCmd := rfl
@[simp] theorem State.updCtx_mbResult (s : State) (c : Nat) (f : Ctx → Ctx) : (s.updCtx c f).mbResult = s.mbResult := rfl
@[simp] theorem State.updCtx_crBase (s : State) (c : Nat) (f : Ctx → Ctx) : (s.updCtx c f).crBase = s.crBase := rfl
@[simp] theorem State.updCtx_crLog2 (s : State) (c : Nat) (f : Ctx → Ctx) : (s.updCtx c f).crLog2 = s.crLog2 := rfl
@[simp] theorem State.updCtx_crTail (s : State) (c : Nat) (f : Ctx → Ctx) : (s.updCtx c f).crTail = s.crTail := rfl
@[simp] theorem State.updCtx_msix (s : State) (c : Nat) (f : Ctx → Ctx) : (s.updCtx c f).msix = s.msix := rfl
@[simp] theorem State.updCtx_hostReply (s : State) (c : Nat) (f : Ctx → Ctx) : (s.updCtx c f).hostReply = s.hostReply := rfl
@[simp] theorem State.updCtx_hostPoison (s : State) (c : Nat) (f : Ctx → Ctx) : (s.updCtx c f).hostPoison = s.hostPoison := rfl
@[simp] theorem State.updCtx_sbReply (s : State) (c : Nat) (f : Ctx → Ctx) : (s.updCtx c f).sbReply = s.sbReply := rfl
@[simp] theorem State.updCtx_dropped (s : State) (c : Nat) (f : Ctx → Ctx) : (s.updCtx c f).dropped = s.dropped := rfl
@[simp] theorem State.updCtx_badDgrams (s : State) (c : Nat) (f : Ctx → Ctx) : (s.updCtx c f).badDgrams = s.badDgrams := rfl
@[simp] theorem State.updCtx_healthRecs (s : State) (c : Nat) (f : Ctx → Ctx) : (s.updCtx c f).healthRecs = s.healthRecs := rfl
@[simp] theorem State.updCtx_hostWrites (s : State) (c : Nat) (f : Ctx → Ctx) : (s.updCtx c f).hostWrites = s.hostWrites := rfl
@[simp] theorem State.updCtx_boot (s : State) (c : Nat) (f : Ctx → Ctx) : (s.updCtx c f).boot = s.boot := rfl
@[simp] theorem State.updCtx_flash (s : State) (c : Nat) (f : Ctx → Ctx) : (s.updCtx c f).flash = s.flash := rfl
@[simp] theorem State.updCtx_hostq (s : State) (c : Nat) (f : Ctx → Ctx) : (s.updCtx c f).hostq = s.hostq := rfl
@[simp] theorem State.updCtx_booted (s : State) (c : Nat) (f : Ctx → Ctx) : (s.updCtx c f).booted = s.booted := rfl
@[simp] theorem State.updCtx_spdm (s : State) (c : Nat) (f : Ctx → Ctx) : (s.updCtx c f).spdm = s.spdm := rfl
@[simp] theorem State.updCtx_rejected (s : State) (c : Nat) (f : Ctx → Ctx) : (s.updCtx c f).rejected = s.rejected := rfl
@[simp] theorem State.updCtx_chores (s : State) (c : Nat) (f : Ctx → Ctx) : (s.updCtx c f).chores = s.chores := rfl
@[simp] theorem State.updCtx_invs (s : State) (c : Nat) (f : Ctx → Ctx) : (s.updCtx c f).invs = s.invs := rfl
@[simp] theorem State.updCtx_moving (s : State) (c : Nat) (f : Ctx → Ctx) : (s.updCtx c f).moving = s.moving := rfl

/-! ## updDie -/

@[simp] theorem State.updDie_steps (s : State) (d : Nat) (f : Die → Die) : (s.updDie d f).steps = s.steps := rfl
@[simp] theorem State.updDie_agenda (s : State) (d : Nat) (f : Die → Die) : (s.updDie d f).agenda = s.agenda := rfl
@[simp] theorem State.updDie_cur (s : State) (d : Nat) (f : Die → Die) : (s.updDie d f).cur = s.cur := rfl
@[simp] theorem State.updDie_cores (s : State) (d : Nat) (f : Die → Die) : (s.updDie d f).cores = s.cores := rfl
@[simp] theorem State.updDie_teams (s : State) (d : Nat) (f : Die → Die) : (s.updDie d f).teams = s.teams := rfl
@[simp] theorem State.updDie_nextTeam (s : State) (d : Nat) (f : Die → Die) : (s.updDie d f).nextTeam = s.nextTeam := rfl
@[simp] theorem State.updDie_grids (s : State) (d : Nat) (f : Die → Die) : (s.updDie d f).grids = s.grids := rfl
@[simp] theorem State.updDie_nextGrid (s : State) (d : Nat) (f : Die → Die) : (s.updDie d f).nextGrid = s.nextGrid := rfl
@[simp] theorem State.updDie_nextSet (s : State) (d : Nat) (f : Die → Die) : (s.updDie d f).nextSet = s.nextSet := rfl
@[simp] theorem State.updDie_ctxs (s : State) (d : Nat) (f : Die → Die) : (s.updDie d f).ctxs = s.ctxs := rfl
@[simp] theorem State.updDie_clusters (s : State) (d : Nat) (f : Die → Die) : (s.updDie d f).clusters = s.clusters := rfl
@[simp] theorem State.updDie_devno (s : State) (d : Nat) (f : Die → Die) : (s.updDie d f).devno = s.devno := rfl
@[simp] theorem State.updDie_gtime (s : State) (d : Nat) (f : Die → Die) : (s.updDie d f).gtime = s.gtime := rfl
@[simp] theorem State.updDie_ptp (s : State) (d : Nat) (f : Die → Die) : (s.updDie d f).ptp = s.ptp := rfl
@[simp] theorem State.updDie_mem (s : State) (d : Nat) (f : Die → Die) : (s.updDie d f).mem = s.mem := rfl
@[simp] theorem State.updDie_ecc (s : State) (d : Nat) (f : Die → Die) : (s.updDie d f).ecc = s.ecc := rfl
@[simp] theorem State.updDie_dir (s : State) (d : Nat) (f : Die → Die) : (s.updDie d f).dir = s.dir := rfl
@[simp] theorem State.updDie_spills (s : State) (d : Nat) (f : Die → Die) : (s.updDie d f).spills = s.spills := rfl
@[simp] theorem State.updDie_wts (s : State) (d : Nat) (f : Die → Die) : (s.updDie d f).wts = s.wts := rfl
@[simp] theorem State.updDie_upds (s : State) (d : Nat) (f : Die → Die) : (s.updDie d f).upds = s.upds := rfl
@[simp] theorem State.updDie_drops (s : State) (d : Nat) (f : Die → Die) : (s.updDie d f).drops = s.drops := rfl
@[simp] theorem State.updDie_pubs (s : State) (d : Nat) (f : Die → Die) : (s.updDie d f).pubs = s.pubs := rfl
@[simp] theorem State.updDie_nextPub (s : State) (d : Nat) (f : Die → Die) : (s.updDie d f).nextPub = s.nextPub := rfl
@[simp] theorem State.updDie_acks (s : State) (d : Nat) (f : Die → Die) : (s.updDie d f).acks = s.acks := rfl
@[simp] theorem State.updDie_commits (s : State) (d : Nat) (f : Die → Die) : (s.updDie d f).commits = s.commits := rfl
@[simp] theorem State.updDie_fills (s : State) (d : Nat) (f : Die → Die) : (s.updDie d f).fills = s.fills := rfl
@[simp] theorem State.updDie_atoms (s : State) (d : Nat) (f : Die → Die) : (s.updDie d f).atoms = s.atoms := rfl
@[simp] theorem State.updDie_inks (s : State) (d : Nat) (f : Die → Die) : (s.updDie d f).inks = s.inks := rfl
@[simp] theorem State.updDie_inkReps (s : State) (d : Nat) (f : Die → Die) : (s.updDie d f).inkReps = s.inkReps := rfl
@[simp] theorem State.updDie_inkWait (s : State) (d : Nat) (f : Die → Die) : (s.updDie d f).inkWait = s.inkWait := rfl
@[simp] theorem State.updDie_scrubs (s : State) (d : Nat) (f : Die → Die) : (s.updDie d f).scrubs = s.scrubs := rfl
@[simp] theorem State.updDie_tagq (s : State) (d : Nat) (f : Die → Die) : (s.updDie d f).tagq = s.tagq := rfl
@[simp] theorem State.updDie_moves (s : State) (d : Nat) (f : Die → Die) : (s.updDie d f).moves = s.moves := rfl
@[simp] theorem State.updDie_faults (s : State) (d : Nat) (f : Die → Die) : (s.updDie d f).faults = s.faults := rfl
@[simp] theorem State.updDie_armed (s : State) (d : Nat) (f : Die → Die) : (s.updDie d f).armed = s.armed := rfl
@[simp] theorem State.updDie_scanning (s : State) (d : Nat) (f : Die → Die) : (s.updDie d f).scanning = s.scanning := rfl
@[simp] theorem State.updDie_floorDue (s : State) (d : Nat) (f : Die → Die) : (s.updDie d f).floorDue = s.floorDue := rfl
@[simp] theorem State.updDie_inkTimeout (s : State) (d : Nat) (f : Die → Die) : (s.updDie d f).inkTimeout = s.inkTimeout := rfl
@[simp] theorem State.updDie_parkLimit (s : State) (d : Nat) (f : Die → Die) : (s.updDie d f).parkLimit = s.parkLimit := rfl
@[simp] theorem State.updDie_boundTimeout (s : State) (d : Nat) (f : Die → Die) : (s.updDie d f).boundTimeout = s.boundTimeout := rfl
@[simp] theorem State.updDie_scrubPass (s : State) (d : Nat) (f : Die → Die) : (s.updDie d f).scrubPass = s.scrubPass := rfl
@[simp] theorem State.updDie_activity (s : State) (d : Nat) (f : Die → Die) : (s.updDie d f).activity = s.activity := rfl
@[simp] theorem State.updDie_sent (s : State) (d : Nat) (f : Die → Die) : (s.updDie d f).sent = s.sent := rfl
@[simp] theorem State.updDie_seqOut (s : State) (d : Nat) (f : Die → Die) : (s.updDie d f).seqOut = s.seqOut := rfl
@[simp] theorem State.updDie_seqIn (s : State) (d : Nat) (f : Die → Die) : (s.updDie d f).seqIn = s.seqIn := rfl
@[simp] theorem State.updDie_keptReps (s : State) (d : Nat) (f : Die → Die) : (s.updDie d f).keptReps = s.keptReps := rfl
@[simp] theorem State.updDie_colls (s : State) (d : Nat) (f : Die → Die) : (s.updDie d f).colls = s.colls := rfl
@[simp] theorem State.updDie_modules (s : State) (d : Nat) (f : Die → Die) : (s.updDie d f).modules = s.modules := rfl
@[simp] theorem State.updDie_degraded (s : State) (d : Nat) (f : Die → Die) : (s.updDie d f).degraded = s.degraded := rfl
@[simp] theorem State.updDie_hostFrozen (s : State) (d : Nat) (f : Die → Die) : (s.updDie d f).hostFrozen = s.hostFrozen := rfl
@[simp] theorem State.updDie_sbFrozen (s : State) (d : Nat) (f : Die → Die) : (s.updDie d f).sbFrozen = s.sbFrozen := rfl
@[simp] theorem State.updDie_mbox (s : State) (d : Nat) (f : Die → Die) : (s.updDie d f).mbox = s.mbox := rfl
@[simp] theorem State.updDie_mbBusy (s : State) (d : Nat) (f : Die → Die) : (s.updDie d f).mbBusy = s.mbBusy := rfl
@[simp] theorem State.updDie_mbCmd (s : State) (d : Nat) (f : Die → Die) : (s.updDie d f).mbCmd = s.mbCmd := rfl
@[simp] theorem State.updDie_mbResult (s : State) (d : Nat) (f : Die → Die) : (s.updDie d f).mbResult = s.mbResult := rfl
@[simp] theorem State.updDie_crBase (s : State) (d : Nat) (f : Die → Die) : (s.updDie d f).crBase = s.crBase := rfl
@[simp] theorem State.updDie_crLog2 (s : State) (d : Nat) (f : Die → Die) : (s.updDie d f).crLog2 = s.crLog2 := rfl
@[simp] theorem State.updDie_crTail (s : State) (d : Nat) (f : Die → Die) : (s.updDie d f).crTail = s.crTail := rfl
@[simp] theorem State.updDie_msix (s : State) (d : Nat) (f : Die → Die) : (s.updDie d f).msix = s.msix := rfl
@[simp] theorem State.updDie_hostReply (s : State) (d : Nat) (f : Die → Die) : (s.updDie d f).hostReply = s.hostReply := rfl
@[simp] theorem State.updDie_hostPoison (s : State) (d : Nat) (f : Die → Die) : (s.updDie d f).hostPoison = s.hostPoison := rfl
@[simp] theorem State.updDie_sbReply (s : State) (d : Nat) (f : Die → Die) : (s.updDie d f).sbReply = s.sbReply := rfl
@[simp] theorem State.updDie_dropped (s : State) (d : Nat) (f : Die → Die) : (s.updDie d f).dropped = s.dropped := rfl
@[simp] theorem State.updDie_badDgrams (s : State) (d : Nat) (f : Die → Die) : (s.updDie d f).badDgrams = s.badDgrams := rfl
@[simp] theorem State.updDie_healthRecs (s : State) (d : Nat) (f : Die → Die) : (s.updDie d f).healthRecs = s.healthRecs := rfl
@[simp] theorem State.updDie_hostWrites (s : State) (d : Nat) (f : Die → Die) : (s.updDie d f).hostWrites = s.hostWrites := rfl
@[simp] theorem State.updDie_boot (s : State) (d : Nat) (f : Die → Die) : (s.updDie d f).boot = s.boot := rfl
@[simp] theorem State.updDie_flash (s : State) (d : Nat) (f : Die → Die) : (s.updDie d f).flash = s.flash := rfl
@[simp] theorem State.updDie_hostq (s : State) (d : Nat) (f : Die → Die) : (s.updDie d f).hostq = s.hostq := rfl
@[simp] theorem State.updDie_booted (s : State) (d : Nat) (f : Die → Die) : (s.updDie d f).booted = s.booted := rfl
@[simp] theorem State.updDie_spdm (s : State) (d : Nat) (f : Die → Die) : (s.updDie d f).spdm = s.spdm := rfl
@[simp] theorem State.updDie_rejected (s : State) (d : Nat) (f : Die → Die) : (s.updDie d f).rejected = s.rejected := rfl
@[simp] theorem State.updDie_chores (s : State) (d : Nat) (f : Die → Die) : (s.updDie d f).chores = s.chores := rfl
@[simp] theorem State.updDie_invs (s : State) (d : Nat) (f : Die → Die) : (s.updDie d f).invs = s.invs := rfl
@[simp] theorem State.updDie_moving (s : State) (d : Nat) (f : Die → Die) : (s.updDie d f).moving = s.moving := rfl

/-! ## updCluster -/

@[simp] theorem State.updCluster_steps (s : State) (k : Nat) (f : Cluster → Cluster) : (s.updCluster k f).steps = s.steps := rfl
@[simp] theorem State.updCluster_agenda (s : State) (k : Nat) (f : Cluster → Cluster) : (s.updCluster k f).agenda = s.agenda := rfl
@[simp] theorem State.updCluster_cur (s : State) (k : Nat) (f : Cluster → Cluster) : (s.updCluster k f).cur = s.cur := rfl
@[simp] theorem State.updCluster_cores (s : State) (k : Nat) (f : Cluster → Cluster) : (s.updCluster k f).cores = s.cores := rfl
@[simp] theorem State.updCluster_teams (s : State) (k : Nat) (f : Cluster → Cluster) : (s.updCluster k f).teams = s.teams := rfl
@[simp] theorem State.updCluster_nextTeam (s : State) (k : Nat) (f : Cluster → Cluster) : (s.updCluster k f).nextTeam = s.nextTeam := rfl
@[simp] theorem State.updCluster_grids (s : State) (k : Nat) (f : Cluster → Cluster) : (s.updCluster k f).grids = s.grids := rfl
@[simp] theorem State.updCluster_nextGrid (s : State) (k : Nat) (f : Cluster → Cluster) : (s.updCluster k f).nextGrid = s.nextGrid := rfl
@[simp] theorem State.updCluster_nextSet (s : State) (k : Nat) (f : Cluster → Cluster) : (s.updCluster k f).nextSet = s.nextSet := rfl
@[simp] theorem State.updCluster_ctxs (s : State) (k : Nat) (f : Cluster → Cluster) : (s.updCluster k f).ctxs = s.ctxs := rfl
@[simp] theorem State.updCluster_dies (s : State) (k : Nat) (f : Cluster → Cluster) : (s.updCluster k f).dies = s.dies := rfl
@[simp] theorem State.updCluster_devno (s : State) (k : Nat) (f : Cluster → Cluster) : (s.updCluster k f).devno = s.devno := rfl
@[simp] theorem State.updCluster_gtime (s : State) (k : Nat) (f : Cluster → Cluster) : (s.updCluster k f).gtime = s.gtime := rfl
@[simp] theorem State.updCluster_ptp (s : State) (k : Nat) (f : Cluster → Cluster) : (s.updCluster k f).ptp = s.ptp := rfl
@[simp] theorem State.updCluster_mem (s : State) (k : Nat) (f : Cluster → Cluster) : (s.updCluster k f).mem = s.mem := rfl
@[simp] theorem State.updCluster_ecc (s : State) (k : Nat) (f : Cluster → Cluster) : (s.updCluster k f).ecc = s.ecc := rfl
@[simp] theorem State.updCluster_dir (s : State) (k : Nat) (f : Cluster → Cluster) : (s.updCluster k f).dir = s.dir := rfl
@[simp] theorem State.updCluster_spills (s : State) (k : Nat) (f : Cluster → Cluster) : (s.updCluster k f).spills = s.spills := rfl
@[simp] theorem State.updCluster_wts (s : State) (k : Nat) (f : Cluster → Cluster) : (s.updCluster k f).wts = s.wts := rfl
@[simp] theorem State.updCluster_upds (s : State) (k : Nat) (f : Cluster → Cluster) : (s.updCluster k f).upds = s.upds := rfl
@[simp] theorem State.updCluster_drops (s : State) (k : Nat) (f : Cluster → Cluster) : (s.updCluster k f).drops = s.drops := rfl
@[simp] theorem State.updCluster_pubs (s : State) (k : Nat) (f : Cluster → Cluster) : (s.updCluster k f).pubs = s.pubs := rfl
@[simp] theorem State.updCluster_nextPub (s : State) (k : Nat) (f : Cluster → Cluster) : (s.updCluster k f).nextPub = s.nextPub := rfl
@[simp] theorem State.updCluster_acks (s : State) (k : Nat) (f : Cluster → Cluster) : (s.updCluster k f).acks = s.acks := rfl
@[simp] theorem State.updCluster_commits (s : State) (k : Nat) (f : Cluster → Cluster) : (s.updCluster k f).commits = s.commits := rfl
@[simp] theorem State.updCluster_fills (s : State) (k : Nat) (f : Cluster → Cluster) : (s.updCluster k f).fills = s.fills := rfl
@[simp] theorem State.updCluster_atoms (s : State) (k : Nat) (f : Cluster → Cluster) : (s.updCluster k f).atoms = s.atoms := rfl
@[simp] theorem State.updCluster_inks (s : State) (k : Nat) (f : Cluster → Cluster) : (s.updCluster k f).inks = s.inks := rfl
@[simp] theorem State.updCluster_inkReps (s : State) (k : Nat) (f : Cluster → Cluster) : (s.updCluster k f).inkReps = s.inkReps := rfl
@[simp] theorem State.updCluster_inkWait (s : State) (k : Nat) (f : Cluster → Cluster) : (s.updCluster k f).inkWait = s.inkWait := rfl
@[simp] theorem State.updCluster_scrubs (s : State) (k : Nat) (f : Cluster → Cluster) : (s.updCluster k f).scrubs = s.scrubs := rfl
@[simp] theorem State.updCluster_tagq (s : State) (k : Nat) (f : Cluster → Cluster) : (s.updCluster k f).tagq = s.tagq := rfl
@[simp] theorem State.updCluster_moves (s : State) (k : Nat) (f : Cluster → Cluster) : (s.updCluster k f).moves = s.moves := rfl
@[simp] theorem State.updCluster_faults (s : State) (k : Nat) (f : Cluster → Cluster) : (s.updCluster k f).faults = s.faults := rfl
@[simp] theorem State.updCluster_armed (s : State) (k : Nat) (f : Cluster → Cluster) : (s.updCluster k f).armed = s.armed := rfl
@[simp] theorem State.updCluster_scanning (s : State) (k : Nat) (f : Cluster → Cluster) : (s.updCluster k f).scanning = s.scanning := rfl
@[simp] theorem State.updCluster_floorDue (s : State) (k : Nat) (f : Cluster → Cluster) : (s.updCluster k f).floorDue = s.floorDue := rfl
@[simp] theorem State.updCluster_inkTimeout (s : State) (k : Nat) (f : Cluster → Cluster) : (s.updCluster k f).inkTimeout = s.inkTimeout := rfl
@[simp] theorem State.updCluster_parkLimit (s : State) (k : Nat) (f : Cluster → Cluster) : (s.updCluster k f).parkLimit = s.parkLimit := rfl
@[simp] theorem State.updCluster_boundTimeout (s : State) (k : Nat) (f : Cluster → Cluster) : (s.updCluster k f).boundTimeout = s.boundTimeout := rfl
@[simp] theorem State.updCluster_scrubPass (s : State) (k : Nat) (f : Cluster → Cluster) : (s.updCluster k f).scrubPass = s.scrubPass := rfl
@[simp] theorem State.updCluster_activity (s : State) (k : Nat) (f : Cluster → Cluster) : (s.updCluster k f).activity = s.activity := rfl
@[simp] theorem State.updCluster_sent (s : State) (k : Nat) (f : Cluster → Cluster) : (s.updCluster k f).sent = s.sent := rfl
@[simp] theorem State.updCluster_seqOut (s : State) (k : Nat) (f : Cluster → Cluster) : (s.updCluster k f).seqOut = s.seqOut := rfl
@[simp] theorem State.updCluster_seqIn (s : State) (k : Nat) (f : Cluster → Cluster) : (s.updCluster k f).seqIn = s.seqIn := rfl
@[simp] theorem State.updCluster_keptReps (s : State) (k : Nat) (f : Cluster → Cluster) : (s.updCluster k f).keptReps = s.keptReps := rfl
@[simp] theorem State.updCluster_colls (s : State) (k : Nat) (f : Cluster → Cluster) : (s.updCluster k f).colls = s.colls := rfl
@[simp] theorem State.updCluster_modules (s : State) (k : Nat) (f : Cluster → Cluster) : (s.updCluster k f).modules = s.modules := rfl
@[simp] theorem State.updCluster_degraded (s : State) (k : Nat) (f : Cluster → Cluster) : (s.updCluster k f).degraded = s.degraded := rfl
@[simp] theorem State.updCluster_hostFrozen (s : State) (k : Nat) (f : Cluster → Cluster) : (s.updCluster k f).hostFrozen = s.hostFrozen := rfl
@[simp] theorem State.updCluster_sbFrozen (s : State) (k : Nat) (f : Cluster → Cluster) : (s.updCluster k f).sbFrozen = s.sbFrozen := rfl
@[simp] theorem State.updCluster_mbox (s : State) (k : Nat) (f : Cluster → Cluster) : (s.updCluster k f).mbox = s.mbox := rfl
@[simp] theorem State.updCluster_mbBusy (s : State) (k : Nat) (f : Cluster → Cluster) : (s.updCluster k f).mbBusy = s.mbBusy := rfl
@[simp] theorem State.updCluster_mbCmd (s : State) (k : Nat) (f : Cluster → Cluster) : (s.updCluster k f).mbCmd = s.mbCmd := rfl
@[simp] theorem State.updCluster_mbResult (s : State) (k : Nat) (f : Cluster → Cluster) : (s.updCluster k f).mbResult = s.mbResult := rfl
@[simp] theorem State.updCluster_crBase (s : State) (k : Nat) (f : Cluster → Cluster) : (s.updCluster k f).crBase = s.crBase := rfl
@[simp] theorem State.updCluster_crLog2 (s : State) (k : Nat) (f : Cluster → Cluster) : (s.updCluster k f).crLog2 = s.crLog2 := rfl
@[simp] theorem State.updCluster_crTail (s : State) (k : Nat) (f : Cluster → Cluster) : (s.updCluster k f).crTail = s.crTail := rfl
@[simp] theorem State.updCluster_msix (s : State) (k : Nat) (f : Cluster → Cluster) : (s.updCluster k f).msix = s.msix := rfl
@[simp] theorem State.updCluster_hostReply (s : State) (k : Nat) (f : Cluster → Cluster) : (s.updCluster k f).hostReply = s.hostReply := rfl
@[simp] theorem State.updCluster_hostPoison (s : State) (k : Nat) (f : Cluster → Cluster) : (s.updCluster k f).hostPoison = s.hostPoison := rfl
@[simp] theorem State.updCluster_sbReply (s : State) (k : Nat) (f : Cluster → Cluster) : (s.updCluster k f).sbReply = s.sbReply := rfl
@[simp] theorem State.updCluster_dropped (s : State) (k : Nat) (f : Cluster → Cluster) : (s.updCluster k f).dropped = s.dropped := rfl
@[simp] theorem State.updCluster_badDgrams (s : State) (k : Nat) (f : Cluster → Cluster) : (s.updCluster k f).badDgrams = s.badDgrams := rfl
@[simp] theorem State.updCluster_healthRecs (s : State) (k : Nat) (f : Cluster → Cluster) : (s.updCluster k f).healthRecs = s.healthRecs := rfl
@[simp] theorem State.updCluster_hostWrites (s : State) (k : Nat) (f : Cluster → Cluster) : (s.updCluster k f).hostWrites = s.hostWrites := rfl
@[simp] theorem State.updCluster_boot (s : State) (k : Nat) (f : Cluster → Cluster) : (s.updCluster k f).boot = s.boot := rfl
@[simp] theorem State.updCluster_flash (s : State) (k : Nat) (f : Cluster → Cluster) : (s.updCluster k f).flash = s.flash := rfl
@[simp] theorem State.updCluster_hostq (s : State) (k : Nat) (f : Cluster → Cluster) : (s.updCluster k f).hostq = s.hostq := rfl
@[simp] theorem State.updCluster_booted (s : State) (k : Nat) (f : Cluster → Cluster) : (s.updCluster k f).booted = s.booted := rfl
@[simp] theorem State.updCluster_spdm (s : State) (k : Nat) (f : Cluster → Cluster) : (s.updCluster k f).spdm = s.spdm := rfl
@[simp] theorem State.updCluster_rejected (s : State) (k : Nat) (f : Cluster → Cluster) : (s.updCluster k f).rejected = s.rejected := rfl
@[simp] theorem State.updCluster_chores (s : State) (k : Nat) (f : Cluster → Cluster) : (s.updCluster k f).chores = s.chores := rfl
@[simp] theorem State.updCluster_invs (s : State) (k : Nat) (f : Cluster → Cluster) : (s.updCluster k f).invs = s.invs := rfl
@[simp] theorem State.updCluster_moving (s : State) (k : Nat) (f : Cluster → Cluster) : (s.updCluster k f).moving = s.moving := rfl

/-! ## updGroup -/

@[simp] theorem State.updGroup_steps (s : State) (c k : Nat) (f : Group → Group) : (s.updGroup c k f).steps = s.steps := by
  unfold State.updGroup; split <;> rfl
@[simp] theorem State.updGroup_agenda (s : State) (c k : Nat) (f : Group → Group) : (s.updGroup c k f).agenda = s.agenda := by
  unfold State.updGroup; split <;> rfl
@[simp] theorem State.updGroup_cur (s : State) (c k : Nat) (f : Group → Group) : (s.updGroup c k f).cur = s.cur := by
  unfold State.updGroup; split <;> rfl
@[simp] theorem State.updGroup_teams (s : State) (c k : Nat) (f : Group → Group) : (s.updGroup c k f).teams = s.teams := by
  unfold State.updGroup; split <;> rfl
@[simp] theorem State.updGroup_nextTeam (s : State) (c k : Nat) (f : Group → Group) : (s.updGroup c k f).nextTeam = s.nextTeam := by
  unfold State.updGroup; split <;> rfl
@[simp] theorem State.updGroup_grids (s : State) (c k : Nat) (f : Group → Group) : (s.updGroup c k f).grids = s.grids := by
  unfold State.updGroup; split <;> rfl
@[simp] theorem State.updGroup_nextGrid (s : State) (c k : Nat) (f : Group → Group) : (s.updGroup c k f).nextGrid = s.nextGrid := by
  unfold State.updGroup; split <;> rfl
@[simp] theorem State.updGroup_nextSet (s : State) (c k : Nat) (f : Group → Group) : (s.updGroup c k f).nextSet = s.nextSet := by
  unfold State.updGroup; split <;> rfl
@[simp] theorem State.updGroup_ctxs (s : State) (c k : Nat) (f : Group → Group) : (s.updGroup c k f).ctxs = s.ctxs := by
  unfold State.updGroup; split <;> rfl
@[simp] theorem State.updGroup_dies (s : State) (c k : Nat) (f : Group → Group) : (s.updGroup c k f).dies = s.dies := by
  unfold State.updGroup; split <;> rfl
@[simp] theorem State.updGroup_clusters (s : State) (c k : Nat) (f : Group → Group) : (s.updGroup c k f).clusters = s.clusters := by
  unfold State.updGroup; split <;> rfl
@[simp] theorem State.updGroup_devno (s : State) (c k : Nat) (f : Group → Group) : (s.updGroup c k f).devno = s.devno := by
  unfold State.updGroup; split <;> rfl
@[simp] theorem State.updGroup_gtime (s : State) (c k : Nat) (f : Group → Group) : (s.updGroup c k f).gtime = s.gtime := by
  unfold State.updGroup; split <;> rfl
@[simp] theorem State.updGroup_ptp (s : State) (c k : Nat) (f : Group → Group) : (s.updGroup c k f).ptp = s.ptp := by
  unfold State.updGroup; split <;> rfl
@[simp] theorem State.updGroup_mem (s : State) (c k : Nat) (f : Group → Group) : (s.updGroup c k f).mem = s.mem := by
  unfold State.updGroup; split <;> rfl
@[simp] theorem State.updGroup_ecc (s : State) (c k : Nat) (f : Group → Group) : (s.updGroup c k f).ecc = s.ecc := by
  unfold State.updGroup; split <;> rfl
@[simp] theorem State.updGroup_dir (s : State) (c k : Nat) (f : Group → Group) : (s.updGroup c k f).dir = s.dir := by
  unfold State.updGroup; split <;> rfl
@[simp] theorem State.updGroup_spills (s : State) (c k : Nat) (f : Group → Group) : (s.updGroup c k f).spills = s.spills := by
  unfold State.updGroup; split <;> rfl
@[simp] theorem State.updGroup_wts (s : State) (c k : Nat) (f : Group → Group) : (s.updGroup c k f).wts = s.wts := by
  unfold State.updGroup; split <;> rfl
@[simp] theorem State.updGroup_upds (s : State) (c k : Nat) (f : Group → Group) : (s.updGroup c k f).upds = s.upds := by
  unfold State.updGroup; split <;> rfl
@[simp] theorem State.updGroup_drops (s : State) (c k : Nat) (f : Group → Group) : (s.updGroup c k f).drops = s.drops := by
  unfold State.updGroup; split <;> rfl
@[simp] theorem State.updGroup_pubs (s : State) (c k : Nat) (f : Group → Group) : (s.updGroup c k f).pubs = s.pubs := by
  unfold State.updGroup; split <;> rfl
@[simp] theorem State.updGroup_nextPub (s : State) (c k : Nat) (f : Group → Group) : (s.updGroup c k f).nextPub = s.nextPub := by
  unfold State.updGroup; split <;> rfl
@[simp] theorem State.updGroup_acks (s : State) (c k : Nat) (f : Group → Group) : (s.updGroup c k f).acks = s.acks := by
  unfold State.updGroup; split <;> rfl
@[simp] theorem State.updGroup_commits (s : State) (c k : Nat) (f : Group → Group) : (s.updGroup c k f).commits = s.commits := by
  unfold State.updGroup; split <;> rfl
@[simp] theorem State.updGroup_fills (s : State) (c k : Nat) (f : Group → Group) : (s.updGroup c k f).fills = s.fills := by
  unfold State.updGroup; split <;> rfl
@[simp] theorem State.updGroup_atoms (s : State) (c k : Nat) (f : Group → Group) : (s.updGroup c k f).atoms = s.atoms := by
  unfold State.updGroup; split <;> rfl
@[simp] theorem State.updGroup_inks (s : State) (c k : Nat) (f : Group → Group) : (s.updGroup c k f).inks = s.inks := by
  unfold State.updGroup; split <;> rfl
@[simp] theorem State.updGroup_inkReps (s : State) (c k : Nat) (f : Group → Group) : (s.updGroup c k f).inkReps = s.inkReps := by
  unfold State.updGroup; split <;> rfl
@[simp] theorem State.updGroup_inkWait (s : State) (c k : Nat) (f : Group → Group) : (s.updGroup c k f).inkWait = s.inkWait := by
  unfold State.updGroup; split <;> rfl
@[simp] theorem State.updGroup_scrubs (s : State) (c k : Nat) (f : Group → Group) : (s.updGroup c k f).scrubs = s.scrubs := by
  unfold State.updGroup; split <;> rfl
@[simp] theorem State.updGroup_tagq (s : State) (c k : Nat) (f : Group → Group) : (s.updGroup c k f).tagq = s.tagq := by
  unfold State.updGroup; split <;> rfl
@[simp] theorem State.updGroup_moves (s : State) (c k : Nat) (f : Group → Group) : (s.updGroup c k f).moves = s.moves := by
  unfold State.updGroup; split <;> rfl
@[simp] theorem State.updGroup_moving (s : State) (c k : Nat) (f : Group → Group) : (s.updGroup c k f).moving = s.moving := by
  unfold State.updGroup; split <;> rfl
@[simp] theorem State.updGroup_invs (s : State) (c k : Nat) (f : Group → Group) : (s.updGroup c k f).invs = s.invs := by
  unfold State.updGroup; split <;> rfl
@[simp] theorem State.updGroup_chores (s : State) (c k : Nat) (f : Group → Group) : (s.updGroup c k f).chores = s.chores := by
  unfold State.updGroup; split <;> rfl
@[simp] theorem State.updGroup_faults (s : State) (c k : Nat) (f : Group → Group) : (s.updGroup c k f).faults = s.faults := by
  unfold State.updGroup; split <;> rfl
@[simp] theorem State.updGroup_armed (s : State) (c k : Nat) (f : Group → Group) : (s.updGroup c k f).armed = s.armed := by
  unfold State.updGroup; split <;> rfl
@[simp] theorem State.updGroup_scanning (s : State) (c k : Nat) (f : Group → Group) : (s.updGroup c k f).scanning = s.scanning := by
  unfold State.updGroup; split <;> rfl
@[simp] theorem State.updGroup_floorDue (s : State) (c k : Nat) (f : Group → Group) : (s.updGroup c k f).floorDue = s.floorDue := by
  unfold State.updGroup; split <;> rfl
@[simp] theorem State.updGroup_inkTimeout (s : State) (c k : Nat) (f : Group → Group) : (s.updGroup c k f).inkTimeout = s.inkTimeout := by
  unfold State.updGroup; split <;> rfl
@[simp] theorem State.updGroup_parkLimit (s : State) (c k : Nat) (f : Group → Group) : (s.updGroup c k f).parkLimit = s.parkLimit := by
  unfold State.updGroup; split <;> rfl
@[simp] theorem State.updGroup_boundTimeout (s : State) (c k : Nat) (f : Group → Group) : (s.updGroup c k f).boundTimeout = s.boundTimeout := by
  unfold State.updGroup; split <;> rfl
@[simp] theorem State.updGroup_scrubPass (s : State) (c k : Nat) (f : Group → Group) : (s.updGroup c k f).scrubPass = s.scrubPass := by
  unfold State.updGroup; split <;> rfl
@[simp] theorem State.updGroup_activity (s : State) (c k : Nat) (f : Group → Group) : (s.updGroup c k f).activity = s.activity := by
  unfold State.updGroup; split <;> rfl
@[simp] theorem State.updGroup_sent (s : State) (c k : Nat) (f : Group → Group) : (s.updGroup c k f).sent = s.sent := by
  unfold State.updGroup; split <;> rfl
@[simp] theorem State.updGroup_seqOut (s : State) (c k : Nat) (f : Group → Group) : (s.updGroup c k f).seqOut = s.seqOut := by
  unfold State.updGroup; split <;> rfl
@[simp] theorem State.updGroup_seqIn (s : State) (c k : Nat) (f : Group → Group) : (s.updGroup c k f).seqIn = s.seqIn := by
  unfold State.updGroup; split <;> rfl
@[simp] theorem State.updGroup_keptReps (s : State) (c k : Nat) (f : Group → Group) : (s.updGroup c k f).keptReps = s.keptReps := by
  unfold State.updGroup; split <;> rfl
@[simp] theorem State.updGroup_colls (s : State) (c k : Nat) (f : Group → Group) : (s.updGroup c k f).colls = s.colls := by
  unfold State.updGroup; split <;> rfl
@[simp] theorem State.updGroup_modules (s : State) (c k : Nat) (f : Group → Group) : (s.updGroup c k f).modules = s.modules := by
  unfold State.updGroup; split <;> rfl
@[simp] theorem State.updGroup_degraded (s : State) (c k : Nat) (f : Group → Group) : (s.updGroup c k f).degraded = s.degraded := by
  unfold State.updGroup; split <;> rfl
@[simp] theorem State.updGroup_hostFrozen (s : State) (c k : Nat) (f : Group → Group) : (s.updGroup c k f).hostFrozen = s.hostFrozen := by
  unfold State.updGroup; split <;> rfl
@[simp] theorem State.updGroup_sbFrozen (s : State) (c k : Nat) (f : Group → Group) : (s.updGroup c k f).sbFrozen = s.sbFrozen := by
  unfold State.updGroup; split <;> rfl
@[simp] theorem State.updGroup_mbox (s : State) (c k : Nat) (f : Group → Group) : (s.updGroup c k f).mbox = s.mbox := by
  unfold State.updGroup; split <;> rfl
@[simp] theorem State.updGroup_mbBusy (s : State) (c k : Nat) (f : Group → Group) : (s.updGroup c k f).mbBusy = s.mbBusy := by
  unfold State.updGroup; split <;> rfl
@[simp] theorem State.updGroup_mbCmd (s : State) (c k : Nat) (f : Group → Group) : (s.updGroup c k f).mbCmd = s.mbCmd := by
  unfold State.updGroup; split <;> rfl
@[simp] theorem State.updGroup_mbResult (s : State) (c k : Nat) (f : Group → Group) : (s.updGroup c k f).mbResult = s.mbResult := by
  unfold State.updGroup; split <;> rfl
@[simp] theorem State.updGroup_crBase (s : State) (c k : Nat) (f : Group → Group) : (s.updGroup c k f).crBase = s.crBase := by
  unfold State.updGroup; split <;> rfl
@[simp] theorem State.updGroup_crLog2 (s : State) (c k : Nat) (f : Group → Group) : (s.updGroup c k f).crLog2 = s.crLog2 := by
  unfold State.updGroup; split <;> rfl
@[simp] theorem State.updGroup_crTail (s : State) (c k : Nat) (f : Group → Group) : (s.updGroup c k f).crTail = s.crTail := by
  unfold State.updGroup; split <;> rfl
@[simp] theorem State.updGroup_msix (s : State) (c k : Nat) (f : Group → Group) : (s.updGroup c k f).msix = s.msix := by
  unfold State.updGroup; split <;> rfl
@[simp] theorem State.updGroup_hostReply (s : State) (c k : Nat) (f : Group → Group) : (s.updGroup c k f).hostReply = s.hostReply := by
  unfold State.updGroup; split <;> rfl
@[simp] theorem State.updGroup_hostPoison (s : State) (c k : Nat) (f : Group → Group) : (s.updGroup c k f).hostPoison = s.hostPoison := by
  unfold State.updGroup; split <;> rfl
@[simp] theorem State.updGroup_sbReply (s : State) (c k : Nat) (f : Group → Group) : (s.updGroup c k f).sbReply = s.sbReply := by
  unfold State.updGroup; split <;> rfl
@[simp] theorem State.updGroup_dropped (s : State) (c k : Nat) (f : Group → Group) : (s.updGroup c k f).dropped = s.dropped := by
  unfold State.updGroup; split <;> rfl
@[simp] theorem State.updGroup_badDgrams (s : State) (c k : Nat) (f : Group → Group) : (s.updGroup c k f).badDgrams = s.badDgrams := by
  unfold State.updGroup; split <;> rfl
@[simp] theorem State.updGroup_healthRecs (s : State) (c k : Nat) (f : Group → Group) : (s.updGroup c k f).healthRecs = s.healthRecs := by
  unfold State.updGroup; split <;> rfl
@[simp] theorem State.updGroup_hostWrites (s : State) (c k : Nat) (f : Group → Group) : (s.updGroup c k f).hostWrites = s.hostWrites := by
  unfold State.updGroup; split <;> rfl
@[simp] theorem State.updGroup_boot (s : State) (c k : Nat) (f : Group → Group) : (s.updGroup c k f).boot = s.boot := by
  unfold State.updGroup; split <;> rfl
@[simp] theorem State.updGroup_flash (s : State) (c k : Nat) (f : Group → Group) : (s.updGroup c k f).flash = s.flash := by
  unfold State.updGroup; split <;> rfl
@[simp] theorem State.updGroup_hostq (s : State) (c k : Nat) (f : Group → Group) : (s.updGroup c k f).hostq = s.hostq := by
  unfold State.updGroup; split <;> rfl
@[simp] theorem State.updGroup_booted (s : State) (c k : Nat) (f : Group → Group) : (s.updGroup c k f).booted = s.booted := by
  unfold State.updGroup; split <;> rfl
@[simp] theorem State.updGroup_spdm (s : State) (c k : Nat) (f : Group → Group) : (s.updGroup c k f).spdm = s.spdm := by
  unfold State.updGroup; split <;> rfl
@[simp] theorem State.updGroup_rejected (s : State) (c k : Nat) (f : Group → Group) : (s.updGroup c k f).rejected = s.rejected := by
  unfold State.updGroup; split <;> rfl

/-! ## updTeam -/

@[simp] theorem State.updTeam_steps (s : State) (n : Nat) (f : Team → Team) : (s.updTeam n f).steps = s.steps := by
  unfold State.updTeam; split <;> rfl
@[simp] theorem State.updTeam_agenda (s : State) (n : Nat) (f : Team → Team) : (s.updTeam n f).agenda = s.agenda := by
  unfold State.updTeam; split <;> rfl
@[simp] theorem State.updTeam_cur (s : State) (n : Nat) (f : Team → Team) : (s.updTeam n f).cur = s.cur := by
  unfold State.updTeam; split <;> rfl
@[simp] theorem State.updTeam_cores (s : State) (n : Nat) (f : Team → Team) : (s.updTeam n f).cores = s.cores := by
  unfold State.updTeam; split <;> rfl
@[simp] theorem State.updTeam_nextTeam (s : State) (n : Nat) (f : Team → Team) : (s.updTeam n f).nextTeam = s.nextTeam := by
  unfold State.updTeam; split <;> rfl
@[simp] theorem State.updTeam_grids (s : State) (n : Nat) (f : Team → Team) : (s.updTeam n f).grids = s.grids := by
  unfold State.updTeam; split <;> rfl
@[simp] theorem State.updTeam_nextGrid (s : State) (n : Nat) (f : Team → Team) : (s.updTeam n f).nextGrid = s.nextGrid := by
  unfold State.updTeam; split <;> rfl
@[simp] theorem State.updTeam_nextSet (s : State) (n : Nat) (f : Team → Team) : (s.updTeam n f).nextSet = s.nextSet := by
  unfold State.updTeam; split <;> rfl
@[simp] theorem State.updTeam_ctxs (s : State) (n : Nat) (f : Team → Team) : (s.updTeam n f).ctxs = s.ctxs := by
  unfold State.updTeam; split <;> rfl
@[simp] theorem State.updTeam_dies (s : State) (n : Nat) (f : Team → Team) : (s.updTeam n f).dies = s.dies := by
  unfold State.updTeam; split <;> rfl
@[simp] theorem State.updTeam_clusters (s : State) (n : Nat) (f : Team → Team) : (s.updTeam n f).clusters = s.clusters := by
  unfold State.updTeam; split <;> rfl
@[simp] theorem State.updTeam_devno (s : State) (n : Nat) (f : Team → Team) : (s.updTeam n f).devno = s.devno := by
  unfold State.updTeam; split <;> rfl
@[simp] theorem State.updTeam_gtime (s : State) (n : Nat) (f : Team → Team) : (s.updTeam n f).gtime = s.gtime := by
  unfold State.updTeam; split <;> rfl
@[simp] theorem State.updTeam_ptp (s : State) (n : Nat) (f : Team → Team) : (s.updTeam n f).ptp = s.ptp := by
  unfold State.updTeam; split <;> rfl
@[simp] theorem State.updTeam_mem (s : State) (n : Nat) (f : Team → Team) : (s.updTeam n f).mem = s.mem := by
  unfold State.updTeam; split <;> rfl
@[simp] theorem State.updTeam_ecc (s : State) (n : Nat) (f : Team → Team) : (s.updTeam n f).ecc = s.ecc := by
  unfold State.updTeam; split <;> rfl
@[simp] theorem State.updTeam_dir (s : State) (n : Nat) (f : Team → Team) : (s.updTeam n f).dir = s.dir := by
  unfold State.updTeam; split <;> rfl
@[simp] theorem State.updTeam_spills (s : State) (n : Nat) (f : Team → Team) : (s.updTeam n f).spills = s.spills := by
  unfold State.updTeam; split <;> rfl
@[simp] theorem State.updTeam_wts (s : State) (n : Nat) (f : Team → Team) : (s.updTeam n f).wts = s.wts := by
  unfold State.updTeam; split <;> rfl
@[simp] theorem State.updTeam_upds (s : State) (n : Nat) (f : Team → Team) : (s.updTeam n f).upds = s.upds := by
  unfold State.updTeam; split <;> rfl
@[simp] theorem State.updTeam_drops (s : State) (n : Nat) (f : Team → Team) : (s.updTeam n f).drops = s.drops := by
  unfold State.updTeam; split <;> rfl
@[simp] theorem State.updTeam_pubs (s : State) (n : Nat) (f : Team → Team) : (s.updTeam n f).pubs = s.pubs := by
  unfold State.updTeam; split <;> rfl
@[simp] theorem State.updTeam_nextPub (s : State) (n : Nat) (f : Team → Team) : (s.updTeam n f).nextPub = s.nextPub := by
  unfold State.updTeam; split <;> rfl
@[simp] theorem State.updTeam_acks (s : State) (n : Nat) (f : Team → Team) : (s.updTeam n f).acks = s.acks := by
  unfold State.updTeam; split <;> rfl
@[simp] theorem State.updTeam_commits (s : State) (n : Nat) (f : Team → Team) : (s.updTeam n f).commits = s.commits := by
  unfold State.updTeam; split <;> rfl
@[simp] theorem State.updTeam_fills (s : State) (n : Nat) (f : Team → Team) : (s.updTeam n f).fills = s.fills := by
  unfold State.updTeam; split <;> rfl
@[simp] theorem State.updTeam_atoms (s : State) (n : Nat) (f : Team → Team) : (s.updTeam n f).atoms = s.atoms := by
  unfold State.updTeam; split <;> rfl
@[simp] theorem State.updTeam_inks (s : State) (n : Nat) (f : Team → Team) : (s.updTeam n f).inks = s.inks := by
  unfold State.updTeam; split <;> rfl
@[simp] theorem State.updTeam_inkReps (s : State) (n : Nat) (f : Team → Team) : (s.updTeam n f).inkReps = s.inkReps := by
  unfold State.updTeam; split <;> rfl
@[simp] theorem State.updTeam_inkWait (s : State) (n : Nat) (f : Team → Team) : (s.updTeam n f).inkWait = s.inkWait := by
  unfold State.updTeam; split <;> rfl
@[simp] theorem State.updTeam_scrubs (s : State) (n : Nat) (f : Team → Team) : (s.updTeam n f).scrubs = s.scrubs := by
  unfold State.updTeam; split <;> rfl
@[simp] theorem State.updTeam_tagq (s : State) (n : Nat) (f : Team → Team) : (s.updTeam n f).tagq = s.tagq := by
  unfold State.updTeam; split <;> rfl
@[simp] theorem State.updTeam_moves (s : State) (n : Nat) (f : Team → Team) : (s.updTeam n f).moves = s.moves := by
  unfold State.updTeam; split <;> rfl
@[simp] theorem State.updTeam_faults (s : State) (n : Nat) (f : Team → Team) : (s.updTeam n f).faults = s.faults := by
  unfold State.updTeam; split <;> rfl
@[simp] theorem State.updTeam_armed (s : State) (n : Nat) (f : Team → Team) : (s.updTeam n f).armed = s.armed := by
  unfold State.updTeam; split <;> rfl
@[simp] theorem State.updTeam_scanning (s : State) (n : Nat) (f : Team → Team) : (s.updTeam n f).scanning = s.scanning := by
  unfold State.updTeam; split <;> rfl
@[simp] theorem State.updTeam_floorDue (s : State) (n : Nat) (f : Team → Team) : (s.updTeam n f).floorDue = s.floorDue := by
  unfold State.updTeam; split <;> rfl
@[simp] theorem State.updTeam_inkTimeout (s : State) (n : Nat) (f : Team → Team) : (s.updTeam n f).inkTimeout = s.inkTimeout := by
  unfold State.updTeam; split <;> rfl
@[simp] theorem State.updTeam_parkLimit (s : State) (n : Nat) (f : Team → Team) : (s.updTeam n f).parkLimit = s.parkLimit := by
  unfold State.updTeam; split <;> rfl
@[simp] theorem State.updTeam_boundTimeout (s : State) (n : Nat) (f : Team → Team) : (s.updTeam n f).boundTimeout = s.boundTimeout := by
  unfold State.updTeam; split <;> rfl
@[simp] theorem State.updTeam_scrubPass (s : State) (n : Nat) (f : Team → Team) : (s.updTeam n f).scrubPass = s.scrubPass := by
  unfold State.updTeam; split <;> rfl
@[simp] theorem State.updTeam_activity (s : State) (n : Nat) (f : Team → Team) : (s.updTeam n f).activity = s.activity := by
  unfold State.updTeam; split <;> rfl
@[simp] theorem State.updTeam_sent (s : State) (n : Nat) (f : Team → Team) : (s.updTeam n f).sent = s.sent := by
  unfold State.updTeam; split <;> rfl
@[simp] theorem State.updTeam_seqOut (s : State) (n : Nat) (f : Team → Team) : (s.updTeam n f).seqOut = s.seqOut := by
  unfold State.updTeam; split <;> rfl
@[simp] theorem State.updTeam_seqIn (s : State) (n : Nat) (f : Team → Team) : (s.updTeam n f).seqIn = s.seqIn := by
  unfold State.updTeam; split <;> rfl
@[simp] theorem State.updTeam_keptReps (s : State) (n : Nat) (f : Team → Team) : (s.updTeam n f).keptReps = s.keptReps := by
  unfold State.updTeam; split <;> rfl
@[simp] theorem State.updTeam_colls (s : State) (n : Nat) (f : Team → Team) : (s.updTeam n f).colls = s.colls := by
  unfold State.updTeam; split <;> rfl
@[simp] theorem State.updTeam_modules (s : State) (n : Nat) (f : Team → Team) : (s.updTeam n f).modules = s.modules := by
  unfold State.updTeam; split <;> rfl
@[simp] theorem State.updTeam_degraded (s : State) (n : Nat) (f : Team → Team) : (s.updTeam n f).degraded = s.degraded := by
  unfold State.updTeam; split <;> rfl
@[simp] theorem State.updTeam_hostFrozen (s : State) (n : Nat) (f : Team → Team) : (s.updTeam n f).hostFrozen = s.hostFrozen := by
  unfold State.updTeam; split <;> rfl
@[simp] theorem State.updTeam_sbFrozen (s : State) (n : Nat) (f : Team → Team) : (s.updTeam n f).sbFrozen = s.sbFrozen := by
  unfold State.updTeam; split <;> rfl
@[simp] theorem State.updTeam_mbox (s : State) (n : Nat) (f : Team → Team) : (s.updTeam n f).mbox = s.mbox := by
  unfold State.updTeam; split <;> rfl
@[simp] theorem State.updTeam_mbBusy (s : State) (n : Nat) (f : Team → Team) : (s.updTeam n f).mbBusy = s.mbBusy := by
  unfold State.updTeam; split <;> rfl
@[simp] theorem State.updTeam_mbCmd (s : State) (n : Nat) (f : Team → Team) : (s.updTeam n f).mbCmd = s.mbCmd := by
  unfold State.updTeam; split <;> rfl
@[simp] theorem State.updTeam_mbResult (s : State) (n : Nat) (f : Team → Team) : (s.updTeam n f).mbResult = s.mbResult := by
  unfold State.updTeam; split <;> rfl
@[simp] theorem State.updTeam_crBase (s : State) (n : Nat) (f : Team → Team) : (s.updTeam n f).crBase = s.crBase := by
  unfold State.updTeam; split <;> rfl
@[simp] theorem State.updTeam_crLog2 (s : State) (n : Nat) (f : Team → Team) : (s.updTeam n f).crLog2 = s.crLog2 := by
  unfold State.updTeam; split <;> rfl
@[simp] theorem State.updTeam_crTail (s : State) (n : Nat) (f : Team → Team) : (s.updTeam n f).crTail = s.crTail := by
  unfold State.updTeam; split <;> rfl
@[simp] theorem State.updTeam_msix (s : State) (n : Nat) (f : Team → Team) : (s.updTeam n f).msix = s.msix := by
  unfold State.updTeam; split <;> rfl
@[simp] theorem State.updTeam_hostReply (s : State) (n : Nat) (f : Team → Team) : (s.updTeam n f).hostReply = s.hostReply := by
  unfold State.updTeam; split <;> rfl
@[simp] theorem State.updTeam_hostPoison (s : State) (n : Nat) (f : Team → Team) : (s.updTeam n f).hostPoison = s.hostPoison := by
  unfold State.updTeam; split <;> rfl
@[simp] theorem State.updTeam_sbReply (s : State) (n : Nat) (f : Team → Team) : (s.updTeam n f).sbReply = s.sbReply := by
  unfold State.updTeam; split <;> rfl
@[simp] theorem State.updTeam_dropped (s : State) (n : Nat) (f : Team → Team) : (s.updTeam n f).dropped = s.dropped := by
  unfold State.updTeam; split <;> rfl
@[simp] theorem State.updTeam_badDgrams (s : State) (n : Nat) (f : Team → Team) : (s.updTeam n f).badDgrams = s.badDgrams := by
  unfold State.updTeam; split <;> rfl
@[simp] theorem State.updTeam_healthRecs (s : State) (n : Nat) (f : Team → Team) : (s.updTeam n f).healthRecs = s.healthRecs := by
  unfold State.updTeam; split <;> rfl
@[simp] theorem State.updTeam_hostWrites (s : State) (n : Nat) (f : Team → Team) : (s.updTeam n f).hostWrites = s.hostWrites := by
  unfold State.updTeam; split <;> rfl
@[simp] theorem State.updTeam_boot (s : State) (n : Nat) (f : Team → Team) : (s.updTeam n f).boot = s.boot := by
  unfold State.updTeam; split <;> rfl
@[simp] theorem State.updTeam_flash (s : State) (n : Nat) (f : Team → Team) : (s.updTeam n f).flash = s.flash := by
  unfold State.updTeam; split <;> rfl
@[simp] theorem State.updTeam_hostq (s : State) (n : Nat) (f : Team → Team) : (s.updTeam n f).hostq = s.hostq := by
  unfold State.updTeam; split <;> rfl
@[simp] theorem State.updTeam_booted (s : State) (n : Nat) (f : Team → Team) : (s.updTeam n f).booted = s.booted := by
  unfold State.updTeam; split <;> rfl
@[simp] theorem State.updTeam_spdm (s : State) (n : Nat) (f : Team → Team) : (s.updTeam n f).spdm = s.spdm := by
  unfold State.updTeam; split <;> rfl
@[simp] theorem State.updTeam_rejected (s : State) (n : Nat) (f : Team → Team) : (s.updTeam n f).rejected = s.rejected := by
  unfold State.updTeam; split <;> rfl

/-! ## updGrid -/

@[simp] theorem State.updGrid_steps (s : State) (n : Nat) (f : Grid → Grid) : (s.updGrid n f).steps = s.steps := by
  unfold State.updGrid; split <;> rfl
@[simp] theorem State.updGrid_agenda (s : State) (n : Nat) (f : Grid → Grid) : (s.updGrid n f).agenda = s.agenda := by
  unfold State.updGrid; split <;> rfl
@[simp] theorem State.updGrid_cur (s : State) (n : Nat) (f : Grid → Grid) : (s.updGrid n f).cur = s.cur := by
  unfold State.updGrid; split <;> rfl
@[simp] theorem State.updGrid_cores (s : State) (n : Nat) (f : Grid → Grid) : (s.updGrid n f).cores = s.cores := by
  unfold State.updGrid; split <;> rfl
@[simp] theorem State.updGrid_teams (s : State) (n : Nat) (f : Grid → Grid) : (s.updGrid n f).teams = s.teams := by
  unfold State.updGrid; split <;> rfl
@[simp] theorem State.updGrid_nextTeam (s : State) (n : Nat) (f : Grid → Grid) : (s.updGrid n f).nextTeam = s.nextTeam := by
  unfold State.updGrid; split <;> rfl
@[simp] theorem State.updGrid_nextGrid (s : State) (n : Nat) (f : Grid → Grid) : (s.updGrid n f).nextGrid = s.nextGrid := by
  unfold State.updGrid; split <;> rfl
@[simp] theorem State.updGrid_nextSet (s : State) (n : Nat) (f : Grid → Grid) : (s.updGrid n f).nextSet = s.nextSet := by
  unfold State.updGrid; split <;> rfl
@[simp] theorem State.updGrid_ctxs (s : State) (n : Nat) (f : Grid → Grid) : (s.updGrid n f).ctxs = s.ctxs := by
  unfold State.updGrid; split <;> rfl
@[simp] theorem State.updGrid_dies (s : State) (n : Nat) (f : Grid → Grid) : (s.updGrid n f).dies = s.dies := by
  unfold State.updGrid; split <;> rfl
@[simp] theorem State.updGrid_clusters (s : State) (n : Nat) (f : Grid → Grid) : (s.updGrid n f).clusters = s.clusters := by
  unfold State.updGrid; split <;> rfl
@[simp] theorem State.updGrid_devno (s : State) (n : Nat) (f : Grid → Grid) : (s.updGrid n f).devno = s.devno := by
  unfold State.updGrid; split <;> rfl
@[simp] theorem State.updGrid_gtime (s : State) (n : Nat) (f : Grid → Grid) : (s.updGrid n f).gtime = s.gtime := by
  unfold State.updGrid; split <;> rfl
@[simp] theorem State.updGrid_ptp (s : State) (n : Nat) (f : Grid → Grid) : (s.updGrid n f).ptp = s.ptp := by
  unfold State.updGrid; split <;> rfl
@[simp] theorem State.updGrid_mem (s : State) (n : Nat) (f : Grid → Grid) : (s.updGrid n f).mem = s.mem := by
  unfold State.updGrid; split <;> rfl
@[simp] theorem State.updGrid_ecc (s : State) (n : Nat) (f : Grid → Grid) : (s.updGrid n f).ecc = s.ecc := by
  unfold State.updGrid; split <;> rfl
@[simp] theorem State.updGrid_dir (s : State) (n : Nat) (f : Grid → Grid) : (s.updGrid n f).dir = s.dir := by
  unfold State.updGrid; split <;> rfl
@[simp] theorem State.updGrid_spills (s : State) (n : Nat) (f : Grid → Grid) : (s.updGrid n f).spills = s.spills := by
  unfold State.updGrid; split <;> rfl
@[simp] theorem State.updGrid_wts (s : State) (n : Nat) (f : Grid → Grid) : (s.updGrid n f).wts = s.wts := by
  unfold State.updGrid; split <;> rfl
@[simp] theorem State.updGrid_upds (s : State) (n : Nat) (f : Grid → Grid) : (s.updGrid n f).upds = s.upds := by
  unfold State.updGrid; split <;> rfl
@[simp] theorem State.updGrid_drops (s : State) (n : Nat) (f : Grid → Grid) : (s.updGrid n f).drops = s.drops := by
  unfold State.updGrid; split <;> rfl
@[simp] theorem State.updGrid_pubs (s : State) (n : Nat) (f : Grid → Grid) : (s.updGrid n f).pubs = s.pubs := by
  unfold State.updGrid; split <;> rfl
@[simp] theorem State.updGrid_nextPub (s : State) (n : Nat) (f : Grid → Grid) : (s.updGrid n f).nextPub = s.nextPub := by
  unfold State.updGrid; split <;> rfl
@[simp] theorem State.updGrid_acks (s : State) (n : Nat) (f : Grid → Grid) : (s.updGrid n f).acks = s.acks := by
  unfold State.updGrid; split <;> rfl
@[simp] theorem State.updGrid_commits (s : State) (n : Nat) (f : Grid → Grid) : (s.updGrid n f).commits = s.commits := by
  unfold State.updGrid; split <;> rfl
@[simp] theorem State.updGrid_fills (s : State) (n : Nat) (f : Grid → Grid) : (s.updGrid n f).fills = s.fills := by
  unfold State.updGrid; split <;> rfl
@[simp] theorem State.updGrid_atoms (s : State) (n : Nat) (f : Grid → Grid) : (s.updGrid n f).atoms = s.atoms := by
  unfold State.updGrid; split <;> rfl
@[simp] theorem State.updGrid_inks (s : State) (n : Nat) (f : Grid → Grid) : (s.updGrid n f).inks = s.inks := by
  unfold State.updGrid; split <;> rfl
@[simp] theorem State.updGrid_inkReps (s : State) (n : Nat) (f : Grid → Grid) : (s.updGrid n f).inkReps = s.inkReps := by
  unfold State.updGrid; split <;> rfl
@[simp] theorem State.updGrid_inkWait (s : State) (n : Nat) (f : Grid → Grid) : (s.updGrid n f).inkWait = s.inkWait := by
  unfold State.updGrid; split <;> rfl
@[simp] theorem State.updGrid_scrubs (s : State) (n : Nat) (f : Grid → Grid) : (s.updGrid n f).scrubs = s.scrubs := by
  unfold State.updGrid; split <;> rfl
@[simp] theorem State.updGrid_tagq (s : State) (n : Nat) (f : Grid → Grid) : (s.updGrid n f).tagq = s.tagq := by
  unfold State.updGrid; split <;> rfl
@[simp] theorem State.updGrid_moves (s : State) (n : Nat) (f : Grid → Grid) : (s.updGrid n f).moves = s.moves := by
  unfold State.updGrid; split <;> rfl
@[simp] theorem State.updGrid_faults (s : State) (n : Nat) (f : Grid → Grid) : (s.updGrid n f).faults = s.faults := by
  unfold State.updGrid; split <;> rfl
@[simp] theorem State.updGrid_armed (s : State) (n : Nat) (f : Grid → Grid) : (s.updGrid n f).armed = s.armed := by
  unfold State.updGrid; split <;> rfl
@[simp] theorem State.updGrid_scanning (s : State) (n : Nat) (f : Grid → Grid) : (s.updGrid n f).scanning = s.scanning := by
  unfold State.updGrid; split <;> rfl
@[simp] theorem State.updGrid_floorDue (s : State) (n : Nat) (f : Grid → Grid) : (s.updGrid n f).floorDue = s.floorDue := by
  unfold State.updGrid; split <;> rfl
@[simp] theorem State.updGrid_inkTimeout (s : State) (n : Nat) (f : Grid → Grid) : (s.updGrid n f).inkTimeout = s.inkTimeout := by
  unfold State.updGrid; split <;> rfl
@[simp] theorem State.updGrid_parkLimit (s : State) (n : Nat) (f : Grid → Grid) : (s.updGrid n f).parkLimit = s.parkLimit := by
  unfold State.updGrid; split <;> rfl
@[simp] theorem State.updGrid_boundTimeout (s : State) (n : Nat) (f : Grid → Grid) : (s.updGrid n f).boundTimeout = s.boundTimeout := by
  unfold State.updGrid; split <;> rfl
@[simp] theorem State.updGrid_scrubPass (s : State) (n : Nat) (f : Grid → Grid) : (s.updGrid n f).scrubPass = s.scrubPass := by
  unfold State.updGrid; split <;> rfl
@[simp] theorem State.updGrid_activity (s : State) (n : Nat) (f : Grid → Grid) : (s.updGrid n f).activity = s.activity := by
  unfold State.updGrid; split <;> rfl
@[simp] theorem State.updGrid_sent (s : State) (n : Nat) (f : Grid → Grid) : (s.updGrid n f).sent = s.sent := by
  unfold State.updGrid; split <;> rfl
@[simp] theorem State.updGrid_seqOut (s : State) (n : Nat) (f : Grid → Grid) : (s.updGrid n f).seqOut = s.seqOut := by
  unfold State.updGrid; split <;> rfl
@[simp] theorem State.updGrid_seqIn (s : State) (n : Nat) (f : Grid → Grid) : (s.updGrid n f).seqIn = s.seqIn := by
  unfold State.updGrid; split <;> rfl
@[simp] theorem State.updGrid_keptReps (s : State) (n : Nat) (f : Grid → Grid) : (s.updGrid n f).keptReps = s.keptReps := by
  unfold State.updGrid; split <;> rfl
@[simp] theorem State.updGrid_colls (s : State) (n : Nat) (f : Grid → Grid) : (s.updGrid n f).colls = s.colls := by
  unfold State.updGrid; split <;> rfl
@[simp] theorem State.updGrid_modules (s : State) (n : Nat) (f : Grid → Grid) : (s.updGrid n f).modules = s.modules := by
  unfold State.updGrid; split <;> rfl
@[simp] theorem State.updGrid_degraded (s : State) (n : Nat) (f : Grid → Grid) : (s.updGrid n f).degraded = s.degraded := by
  unfold State.updGrid; split <;> rfl
@[simp] theorem State.updGrid_hostFrozen (s : State) (n : Nat) (f : Grid → Grid) : (s.updGrid n f).hostFrozen = s.hostFrozen := by
  unfold State.updGrid; split <;> rfl
@[simp] theorem State.updGrid_sbFrozen (s : State) (n : Nat) (f : Grid → Grid) : (s.updGrid n f).sbFrozen = s.sbFrozen := by
  unfold State.updGrid; split <;> rfl
@[simp] theorem State.updGrid_mbox (s : State) (n : Nat) (f : Grid → Grid) : (s.updGrid n f).mbox = s.mbox := by
  unfold State.updGrid; split <;> rfl
@[simp] theorem State.updGrid_mbBusy (s : State) (n : Nat) (f : Grid → Grid) : (s.updGrid n f).mbBusy = s.mbBusy := by
  unfold State.updGrid; split <;> rfl
@[simp] theorem State.updGrid_mbCmd (s : State) (n : Nat) (f : Grid → Grid) : (s.updGrid n f).mbCmd = s.mbCmd := by
  unfold State.updGrid; split <;> rfl
@[simp] theorem State.updGrid_mbResult (s : State) (n : Nat) (f : Grid → Grid) : (s.updGrid n f).mbResult = s.mbResult := by
  unfold State.updGrid; split <;> rfl
@[simp] theorem State.updGrid_crBase (s : State) (n : Nat) (f : Grid → Grid) : (s.updGrid n f).crBase = s.crBase := by
  unfold State.updGrid; split <;> rfl
@[simp] theorem State.updGrid_crLog2 (s : State) (n : Nat) (f : Grid → Grid) : (s.updGrid n f).crLog2 = s.crLog2 := by
  unfold State.updGrid; split <;> rfl
@[simp] theorem State.updGrid_crTail (s : State) (n : Nat) (f : Grid → Grid) : (s.updGrid n f).crTail = s.crTail := by
  unfold State.updGrid; split <;> rfl
@[simp] theorem State.updGrid_msix (s : State) (n : Nat) (f : Grid → Grid) : (s.updGrid n f).msix = s.msix := by
  unfold State.updGrid; split <;> rfl
@[simp] theorem State.updGrid_hostReply (s : State) (n : Nat) (f : Grid → Grid) : (s.updGrid n f).hostReply = s.hostReply := by
  unfold State.updGrid; split <;> rfl
@[simp] theorem State.updGrid_hostPoison (s : State) (n : Nat) (f : Grid → Grid) : (s.updGrid n f).hostPoison = s.hostPoison := by
  unfold State.updGrid; split <;> rfl
@[simp] theorem State.updGrid_sbReply (s : State) (n : Nat) (f : Grid → Grid) : (s.updGrid n f).sbReply = s.sbReply := by
  unfold State.updGrid; split <;> rfl
@[simp] theorem State.updGrid_dropped (s : State) (n : Nat) (f : Grid → Grid) : (s.updGrid n f).dropped = s.dropped := by
  unfold State.updGrid; split <;> rfl
@[simp] theorem State.updGrid_badDgrams (s : State) (n : Nat) (f : Grid → Grid) : (s.updGrid n f).badDgrams = s.badDgrams := by
  unfold State.updGrid; split <;> rfl
@[simp] theorem State.updGrid_healthRecs (s : State) (n : Nat) (f : Grid → Grid) : (s.updGrid n f).healthRecs = s.healthRecs := by
  unfold State.updGrid; split <;> rfl
@[simp] theorem State.updGrid_hostWrites (s : State) (n : Nat) (f : Grid → Grid) : (s.updGrid n f).hostWrites = s.hostWrites := by
  unfold State.updGrid; split <;> rfl
@[simp] theorem State.updGrid_boot (s : State) (n : Nat) (f : Grid → Grid) : (s.updGrid n f).boot = s.boot := by
  unfold State.updGrid; split <;> rfl
@[simp] theorem State.updGrid_flash (s : State) (n : Nat) (f : Grid → Grid) : (s.updGrid n f).flash = s.flash := by
  unfold State.updGrid; split <;> rfl
@[simp] theorem State.updGrid_hostq (s : State) (n : Nat) (f : Grid → Grid) : (s.updGrid n f).hostq = s.hostq := by
  unfold State.updGrid; split <;> rfl
@[simp] theorem State.updGrid_booted (s : State) (n : Nat) (f : Grid → Grid) : (s.updGrid n f).booted = s.booted := by
  unfold State.updGrid; split <;> rfl
@[simp] theorem State.updGrid_spdm (s : State) (n : Nat) (f : Grid → Grid) : (s.updGrid n f).spdm = s.spdm := by
  unfold State.updGrid; split <;> rfl
@[simp] theorem State.updGrid_rejected (s : State) (n : Nat) (f : Grid → Grid) : (s.updGrid n f).rejected = s.rejected := by
  unfold State.updGrid; split <;> rfl

@[simp] theorem State.core_updTeam (s : State) (n : Nat) (f : Team → Team) (k : Nat) :
    (s.updTeam n f).core k = s.core k := by simp [State.core]

@[simp] theorem State.group_updTeam (s : State) (n : Nat) (f : Team → Team) (c k : Nat) :
    (s.updTeam n f).group c k = s.group c k := by simp [State.group]

end Sys2Proof.Machine
end

