-- ==== Sys2Proof/Laws/Flow.lean ====
section
/-! SUPPORT. How a meaning's frame runs: the group of the turn, the lanes taking part, the operands'
readiness, and what each kind of instruction then comes to. -/

namespace Sys2Proof.Machine

/-! ## Results -/

@[simp] theorem run_ok (s t : State) : run s (.ok t) = .next t := rfl
@[simp] theorem run_trap (s : State) (t : TrapInfo) : run s (.error (.trap t)) = .next (s.takeTrap t) := rfl
@[simp] theorem run_wait (s : State) : run s (.error .wait) = .next s := rfl
@[simp] theorem run_park (s : State) : run s (.error .park) = .next s.park := rfl
@[simp] theorem run_state (s t : State) : run s (.error (.state t)) = .next t := rfl
@[simp] theorem run_fault (s : State) (f : Fault) : run s (.error (.fault f)) = .fault f := rfl

/-- A meaning ends in the fault only if it says so itself. -/
theorem run_next (s : State) (m : M State) (h : ∀ f, m ≠ .error (.fault f)) : ∃ t, run s m = .next t := by
  rcases m with (t | _ | _ | f | t) | t
  · exact ⟨_, rfl⟩
  · exact ⟨_, rfl⟩
  · exact ⟨_, rfl⟩
  · exact absurd rfl (h f)
  · exact ⟨_, rfl⟩
  · exact ⟨_, rfl⟩

@[simp] theorem M.ok_bind {α β : Type} (a : α) (k : α → M β) : (Except.ok a >>= k : M β) = k a := rfl
@[simp] theorem M.error_bind {α β : Type} (e : Stop) (k : α → M β) :
    ((Except.error e : M α) >>= k) = .error e := rfl
@[simp] theorem M.pure_eq {α : Type} (a : α) : (pure a : M α) = .ok a := rfl

@[simp] theorem trapIf_false (c : Cause) (lane : Nat) (a : DWord) : trapIf false c lane a = .ok () := rfl
@[simp] theorem trapIf_true (c : Cause) (lane : Nat) (a : DWord) :
    trapIf true c lane a = .error (.trap ⟨c, lane, a, 0⟩) := rfl
@[simp] theorem waitIf_false : waitIf false = .ok () := rfl
@[simp] theorem waitIf_true : waitIf true = .error .wait := rfl
@[simp] theorem parkIf_false : parkIf false = .ok () := rfl
@[simp] theorem parkIf_true : parkIf true = .error .park := rfl

/-! ## The group of the turn -/

theorem State.agent_some {s : State} {g : Group} (h : s.curGroup = some g) : s.agent = .ok g := by
  simp [State.agent, h]

theorem State.agent_none {s : State} (h : s.curGroup = none) : s.agent = .error (.fault .noAgent) := by
  simp [State.agent, h]

theorem State.firmware_some {s : State} {g : Group} (h : s.curGroup = some g) (hf : g.fw = true) :
    s.firmware = .ok g := by simp [State.firmware, h, hf]

theorem State.firmware_user {s : State} {g : Group} (h : s.curGroup = some g) (hf : g.fw = false) :
    s.firmware = .error (.trap ⟨.privileged, (lowestLane s.cur.mask).getD 0, 0, 0⟩) := by
  simp [State.firmware, h, hf]

/-! ## Operands -/

theorem needRegs_ready {g : Group} {rs : List Nat} (lo : Nat)
    (h : ∀ r ∈ rs, g.regPending r = false ∧ g.regOk r = true) : needRegs g rs lo = .ok () := by
  have h1 : (rs.any fun r => g.regPending r) = false := by
    simp only [List.any_eq_false]; intro r hr; simp [(h r hr).1]
  have h2 : (rs.all fun r => g.regOk r) = true := by
    simp only [List.all_eq_true]; intro r hr; exact (h r hr).2
  simp [needRegs, h1, h2]

theorem needRegs_pending {g : Group} {rs : List Nat} (lo : Nat)
    (h : ∃ r ∈ rs, g.regPending r = true) : needRegs g rs lo = .error .wait := by
  have h1 : (rs.any fun r => g.regPending r) = true := List.any_eq_true.mpr h
  simp [needRegs, h1]

theorem needRegs_bounds {g : Group} {rs : List Nat} (lo : Nat)
    (hp : ∀ r ∈ rs, g.regPending r = false) (h : ∃ r ∈ rs, g.regOk r = false) :
    needRegs g rs lo = .error (.trap ⟨.regBounds, lo, 0, 0⟩) := by
  have h1 : (rs.any fun r => g.regPending r) = false := by
    simp only [List.any_eq_false]; intro r hr; simp [hp r hr]
  have h2 : (rs.all fun r => g.regOk r) = false := by
    obtain ⟨r, hr, hk⟩ := h
    simp only [List.all_eq_false]; exact ⟨r, hr, by simp [hk]⟩
  simp [needRegs, h1, h2]

/-- The sources of an instruction with U agree, or nobody compares them (R26). -/
def SameSources (g : Group) (x : Core) (u : Bool) (t : LaneMask) (lo : Nat) (rs : List Nat) : Prop :=
  u = true → g.dbg = true → ∀ l ∈ lanesOf t, ∀ r ∈ rs, g.reg x r l = g.reg x r lo

theorem uCheck_same {g : Group} {x : Core} {u : Bool} {t : LaneMask} {lo : Nat} {rs : List Nat}
    (h : SameSources g x u t lo rs) : uCheck g x u t lo rs = .ok () := by
  unfold uCheck
  cases hu : u && g.dbg with
  | false => simp
  | true =>
    simp only [Bool.and_eq_true] at hu
    have : ((lanesOf t).find? fun l => rs.any fun r => g.reg x r l != g.reg x r lo) = none := by
      simp only [List.find?_eq_none, List.any_eq_true, not_exists, not_and]
      intro l hl r hr
      simp [h hu.1 hu.2 l hl r hr]
    simp [this]

theorem waitClass_free {g : Group} {k : WClass} (h : g.cnt.get k < 31) : waitClass g k = .ok () := by
  have : decide (g.cnt.get k ≥ 31) = false := by simp; omega
  simp [waitClass, this]

/-! ## Frames of instructions -/

theorem State.groupM_some {s : State} {p : Pred} {g : Group} {lo : Nat} (k)
    (h : s.curGroup = some g)
    (hl : lowestLane (g.taking (s.core s.cur.core) p s.cur.mask) = some lo) :
    s.groupM p k = k g (g.taking (s.core s.cur.core) p s.cur.mask) lo := by
  simp [State.groupM, State.agent_some h, hl]

theorem State.groupM_none {s : State} {p : Pred} {g : Group} (k) (h : s.curGroup = some g)
    (hl : lowestLane (g.taking (s.core s.cur.core) p s.cur.mask) = none) :
    s.groupM p k = .ok s.next := by simp [State.groupM, State.agent_some h, hl]

theorem State.memM_some {s : State} {c : Ctl} {g : Group} {lo : Nat} (k)
    (h : s.curGroup = some g)
    (hl : lowestLane (g.taking (s.core s.cur.core) c.p s.cur.mask) = some lo) :
    s.memM c k = k g (s.core s.cur.core) (g.taking (s.core s.cur.core) c.p s.cur.mask) lo := by
  simp [State.memM, State.agent_some h, hl]

theorem State.memM_none {s : State} {c : Ctl} {g : Group} (k) (h : s.curGroup = some g)
    (hl : lowestLane (g.taking (s.core s.cur.core) c.p s.cur.mask) = none) :
    s.memM c k = .ok s.next := by simp [State.memM, State.agent_some h, hl]

theorem State.privM_some {s : State} {p : Pred} {g : Group} {lo : Nat} (k)
    (h : s.curGroup = some g) (hf : g.fw = true)
    (hl : lowestLane (g.taking (s.core s.cur.core) p s.cur.mask) = some lo) :
    s.privM p k = k g (s.core s.cur.core) (g.taking (s.core s.cur.core) p s.cur.mask) lo := by
  simp [State.privM, State.firmware_some h hf, hl]

theorem State.privM_none {s : State} {p : Pred} {g : Group} (k) (h : s.curGroup = some g)
    (hf : g.fw = true) (hl : lowestLane (g.taking (s.core s.cur.core) p s.cur.mask) = none) :
    s.privM p k = .ok s.next := by simp [State.privM, State.firmware_some h hf, hl]

theorem State.privM_user {s : State} {p : Pred} {g : Group} (k) (h : s.curGroup = some g)
    (hf : g.fw = false) :
    s.privM p k = .error (.trap ⟨.privileged, (lowestLane s.cur.mask).getD 0, 0, 0⟩) := by
  simp [State.privM, State.firmware_user h hf]

/-! ## Lane-wise instructions -/

/-- Debug mode finds no lane whose sources differ. -/
theorem VOp.mismatch_none {v : VOp} {src : Nat → Src} {t : LaneMask} {lo : Nat}
    (h : ∀ l ∈ lanesOf t, (∀ r ∈ v.reads, (src l).reg r = (src lo).reg r) ∧
      ∀ k ∈ v.preads, (src l).pred k = (src lo).pred k) : v.mismatch src t lo = none := by
  unfold VOp.mismatch
  simp only [List.find?_eq_none, Bool.or_eq_true, List.any_eq_true, bne_iff_ne, ne_eq, not_or,
    not_exists, not_and, Decidable.not_not]
  intro l hl
  exact ⟨fun r hr => (h l hl).1 r hr, fun k hk => (h l hl).2 k hk⟩

/-- Everything a lane-wise instruction can do (R25 to R27, R36): the fault without a group, nothing
without lanes, a wait, REG_BOUNDS, U_MISMATCH, or its lanes' results. -/
theorem State.vec_cases (s : State) (v : VOp) {t : State} (h : s.vec v = .next t) :
    ∃ g, s.curGroup = some g ∧
      let m := g.taking (s.core s.cur.core) v.c.p s.cur.mask
      (lowestLane m = none ∧ t = s.next) ∨
      ∃ lo, lowestLane m = some lo ∧
        (t = s ∨ t = s.takeTrap ⟨.regBounds, lo, 0, 0⟩ ∨
        (∃ l, t = s.takeTrap ⟨.uMismatch, l, 0, 0⟩) ∨
        t = (s.commit (v.outs (g.src (s.core s.cur.core)) m lo)).next) := by
  cases hg : s.curGroup with
  | none => simp [State.vec, State.vecM, State.agent_none hg] at h
  | some g =>
    refine ⟨g, rfl, ?_⟩
    simp only [State.vec, State.vecM, State.agent_some hg, M.ok_bind] at h
    cases hl : lowestLane (g.taking (s.core s.cur.core) v.c.p s.cur.mask) with
    | none => left; simp [hl] at h; exact ⟨hl, h.symm⟩
    | some lo =>
      right
      refine ⟨lo, hl, ?_⟩
      simp only [hl] at h
      unfold needRegs at h
      cases hp : (v.reads ++ v.writes).any fun r => g.regPending r with
      | true => left; simp [hp] at h; exact h.symm
      | false =>
        cases hb : (v.reads ++ v.writes).all fun r => g.regOk r with
        | false => right; left; simp [hp, hb] at h; exact h.symm
        | true =>
          right; right
          simp only [hp, hb, waitIf_false, Bool.not_true, trapIf_false, M.ok_bind] at h
          split at h
          · left; exact ⟨_, by simpa [trapAt] using h.symm⟩
          · right; simpa using h.symm

/-- A lane-wise instruction whose operands are ready writes its lanes' results. -/
theorem State.vec_ready {s : State} {v : VOp} {g : Group} {lo : Nat} (h : s.curGroup = some g)
    (hl : lowestLane (g.taking (s.core s.cur.core) v.c.p s.cur.mask) = some lo)
    (hr : ∀ r ∈ v.reads ++ v.writes, g.regPending r = false ∧ g.regOk r = true)
    (hu : v.c.u = true → g.dbg = true →
      v.mismatch (g.src (s.core s.cur.core)) (g.taking (s.core s.cur.core) v.c.p s.cur.mask) lo = none) :
    s.vec v = .next (s.commit
      (v.outs (g.src (s.core s.cur.core)) (g.taking (s.core s.cur.core) v.c.p s.cur.mask) lo)).next := by
  have hm : (if v.c.u && g.dbg then v.mismatch (g.src (s.core s.cur.core))
      (g.taking (s.core s.cur.core) v.c.p s.cur.mask) lo else none) = none := by
    cases hb : v.c.u && g.dbg with
    | false => rfl
    | true =>
      simp only [Bool.and_eq_true] at hb
      simpa using hu hb.1 hb.2
  simp only [State.vec, State.vecM, State.agent_some h, hl, needRegs_ready lo hr, hm, M.ok_bind, run_ok]

end Sys2Proof.Machine
end

