-- ==== Sys2Proof/Laws/Rows.lean ====
section
/-! SUPPORT. Bytes of lines, and what a write to a row of the Well leaves in every row. -/

namespace Sys2Proof.Machine

/-! ## Lines -/

theorem getLsbD_lineSet (l : Line) (i n v p : Nat) (hp : p < 1024) :
    (lineSet l i n v).getLsbD p =
      if 8 * i ≤ p ∧ p < 8 * i + 8 * n then v.testBit (p - 8 * i) else l.getLsbD p := by
  simp only [lineSet, BitVec.getLsbD_or, BitVec.getLsbD_and, BitVec.getLsbD_not, BitVec.getLsbD_ofNat,
    Nat.testBit_mul_two_pow, Nat.testBit_two_pow_sub_one, Nat.testBit_mod_two_pow, hp, decide_true,
    Bool.true_and]
  by_cases h1 : 8 * i ≤ p
  · by_cases h2 : p < 8 * i + 8 * n
    · have : p - 8 * i < 8 * n := by omega
      simp [h1, h2, this]
    · have : ¬ p - 8 * i < 8 * n := by omega
      simp [h1, h2, this]
  · simp [h1]

theorem getLsbD_lineByte (l : Line) (i j : Nat) (hj : j < 8) :
    (lineByte l i).getLsbD j = l.getLsbD (8 * i + j) := by
  simp [lineByte, hj]

/-- A byte of a line after bytes of it are set. -/
theorem lineByte_lineSet (l : Line) (i n v k : Nat) (hk : k < 128) :
    lineByte (lineSet l i n v) k =
      if i ≤ k ∧ k < i + n then BitVec.ofNat 8 (v / 2 ^ (8 * (k - i))) else lineByte l k := by
  apply BitVec.eq_of_getLsbD_eq
  intro j hj
  rw [getLsbD_lineByte _ _ _ hj, getLsbD_lineSet _ _ _ _ _ (by omega)]
  by_cases h : i ≤ k ∧ k < i + n
  · rw [if_pos (by omega), if_pos h, BitVec.getLsbD_ofNat, Nat.testBit_div_two_pow]
    have : j + 8 * (k - i) = 8 * k + j - 8 * i := by omega
    simp [hj, this]
  · rw [if_neg (by omega), if_neg h, getLsbD_lineByte _ _ _ hj]

/-- A byte mask covers the bytes it is made of. -/
theorem getLsbD_maskOf (i n k : Nat) (hk : k < 128) :
    (maskOf i n).getLsbD k = decide (i ≤ k ∧ k < i + n) := by
  simp only [maskOf, BitVec.getLsbD_ofNat, Nat.testBit_mul_two_pow, Nat.testBit_two_pow_sub_one, hk,
    decide_true, Bool.true_and]
  by_cases h1 : i ≤ k <;> by_cases h2 : k < i + n <;> simp [h1, h2] <;> omega

theorem getLsbD_maskBits (m : LineMask) (p : Nat) (hp : p < 1024) :
    (maskBits m).getLsbD p = m.getLsbD (p / 8) := by
  have main : ∀ n, n ≤ 128 → ((List.range n).foldl (fun (acc : Line) i =>
      if m.getLsbD i then lineSet acc i 1 255 else acc) 0).getLsbD p =
        (decide (p / 8 < n) && m.getLsbD (p / 8)) := by
    intro n
    induction n with
    | zero => intro _; simp
    | succ n ih =>
      intro hn
      rw [List.range_succ, List.foldl_append, List.foldl_cons, List.foldl_nil]
      cases hm : m.getLsbD n with
      | false =>
        rw [if_neg (by simp), ih (by omega)]
        by_cases he : p / 8 = n
        · simp [he, hm]
        · have : (p / 8 < n) = (p / 8 < n + 1) := by simp; omega
          simp [this]
      | true =>
        rw [if_pos rfl, getLsbD_lineSet _ _ _ _ _ hp, ih (by omega)]
        by_cases he : p / 8 = n
        · have hb : 8 * n ≤ p ∧ p < 8 * n + 8 * 1 := by omega
          rw [if_pos hb, he, hm]
          have : p - 8 * n < 8 := by omega
          have h255 : (255 : Nat) = 2 ^ 8 - 1 := rfl
          rw [h255, Nat.testBit_two_pow_sub_one]
          simp [this]
        · rw [if_neg (by omega)]
          have : (p / 8 < n) = (p / 8 < n + 1) := by simp; omega
          simp [this]
  have h := main 128 (Nat.le_refl _)
  have hlt : p / 8 < 128 := by omega
  simpa [maskBits, hlt] using h

/-- A byte of a blend. -/
theorem lineByte_blend (old new : Line) (m : LineMask) (k : Nat) (hk : k < 128) :
    lineByte (blend old new m) k = if m.getLsbD k then lineByte new k else lineByte old k := by
  apply BitVec.eq_of_getLsbD_eq
  intro j hj
  have hp : (8 * k + j) / 8 = k := by omega
  rw [getLsbD_lineByte _ _ _ hj]
  simp only [blend, BitVec.getLsbD_or, BitVec.getLsbD_and, BitVec.getLsbD_not,
    getLsbD_maskBits m _ (show 8 * k + j < 1024 by omega), hp]
  have hlt : 8 * k + j < 1024 := by omega
  cases h : m.getLsbD k <;> simp [getLsbD_lineByte _ _ _ hj, hlt]

/-! ## Rows -/

theorem firstFrom_some {p : Nat → Bool} {i n j : Nat} (h : firstFrom p i n = some j) :
    p j = true ∧ i ≤ j ∧ j < i + n := by
  induction n generalizing i with
  | zero => simp [firstFrom] at h
  | succ n ih =>
    simp only [firstFrom] at h
    split at h
    · next hp => injection h with h; subst h; exact ⟨hp, by omega, by omega⟩
    · have := ih h; exact ⟨this.1, by omega, by omega⟩

/-- Two rows steered to one spare are one row. -/
theorem Core.steer_inj {x : Core} {k j e : Nat} (hk : x.steer k = some e) (hj : x.steer j = some e) :
    k = j := by
  have a := firstFrom_some hk
  have b := firstFrom_some hj
  simp only [Bool.and_eq_true, beq_iff_eq] at a b
  have := a.1.2.symm.trans b.1.2
  omega

/-- A row that no spare stands in for. -/
theorem Core.row_none {x y : Core} (h : y.repair = x.repair) {k : Nat} (hk : x.steer k = none) :
    y.row k = tabGet 0 y.well k := by
  have : y.steer k = none := by rw [← hk]; simp only [Core.steer, h]
  simp only [Core.row, this]

/-- A row that a spare stands in for. -/
theorem Core.row_some {x y : Core} (h : y.repair = x.repair) {k e : Nat} (hk : x.steer k = some e) :
    y.row k = tabGet 0 y.spares e := by
  have : y.steer k = some e := by rw [← hk]; simp only [Core.steer, h]
  simp only [Core.row, this]

/-- What a masked write to a row leaves in every row (R142, R436). -/
theorem Core.row_putRow (x : Core) (key k : Nat) (data : Line) (m : LineMask) :
    (x.putRow key data m).row k = if k = key then blend (x.row key) data m else x.row k := by
  have hrep : (x.putRow key data m).repair = x.repair := by
    unfold Core.putRow; simp only; split <;> rfl
  cases hk : x.steer key with
  | none =>
    have hw : (x.putRow key data m).well = tabSet x.well key (blend (x.row key) data m) := by
      simp [Core.putRow, hk]
    have hs : (x.putRow key data m).spares = x.spares := by simp [Core.putRow, hk]
    by_cases he : k = key
    · subst he; rw [Core.row_none hrep hk, hw]; simp
    · rw [if_neg he]
      cases hj : x.steer k with
      | none => rw [Core.row_none hrep hj, Core.row_none rfl hj, hw, tabGet_tabSet_ne _ _ _ he]
      | some e => rw [Core.row_some hrep hj, Core.row_some rfl hj, hs]
  | some e =>
    have hw : (x.putRow key data m).well = x.well := by simp [Core.putRow, hk]
    have hs : (x.putRow key data m).spares = tabSet x.spares e (blend (x.row key) data m) := by
      simp [Core.putRow, hk]
    by_cases he : k = key
    · subst he; rw [Core.row_some hrep hk, hs]; simp
    · rw [if_neg he]
      cases hj : x.steer k with
      | none => rw [Core.row_none hrep hj, Core.row_none rfl hj, hw]
      | some e' =>
        have : e' ≠ e := by intro h; subst h; exact he (Core.steer_inj hj hk)
        rw [Core.row_some hrep hj, Core.row_some rfl hj, hs, tabGet_tabSet_ne _ _ _ this]

/-- A row write changes the stored rows and the poison marks, and nothing else of the core. -/
theorem Core.putRow_else (x : Core) (key : Nat) (data : Line) (m : LineMask) :
    { x.putRow key data m with well := x.well, spares := x.spares, wellPoison := x.wellPoison } = x := by
  unfold Core.putRow; simp only; split <;> rfl

@[simp] theorem Core.putRow_groups (x : Core) (key : Nat) (data : Line) (m : LineMask) :
    (x.putRow key data m).groups = x.groups := by unfold Core.putRow; simp only; split <;> rfl

@[simp] theorem Core.putRow_roles (x : Core) (key : Nat) (data : Line) (m : LineMask) :
    (x.putRow key data m).roles = x.roles := by unfold Core.putRow; simp only; split <;> rfl

@[simp] theorem Core.putRow_undo (x : Core) (key : Nat) (data : Line) (m : LineMask) :
    (x.putRow key data m).undo = x.undo := by unfold Core.putRow; simp only; split <;> rfl

/-- A row's bytes outside the mask are unchanged. -/
theorem Core.lineByte_putRow (x : Core) (key k i : Nat) (data : Line) (m : LineMask) (hi : i < 128) :
    lineByte ((x.putRow key data m).row k) i =
      if k = key ∧ m.getLsbD i then lineByte data i else lineByte (x.row k) i := by
  rw [Core.row_putRow]
  by_cases h : k = key
  · subst h; simp [lineByte_blend _ _ _ _ hi]
  · simp [h]

end Sys2Proof.Machine
end

