-- ==== Sys2Proof/Laws/Regs.lean ====
section
/-! SUPPORT. What writing registers and predicates, taking undo lines and moving past an instruction
leave unchanged. -/

namespace Sys2Proof.Machine

/-! ## The frame relation -/

theorem RegFrame.refl (core slot : Nat) (s : State) : RegFrame core slot s s :=
  ⟨rfl, fun _ _ => rfl, fun _ => rfl, rfl, fun _ _ => rfl, fun g h => ⟨g, h, rfl⟩⟩

theorem RegFrame.trans {core slot : Nat} {s t u : State} (a : RegFrame core slot s t)
    (b : RegFrame core slot t u) : RegFrame core slot s u where
  state := by
    have h1 := a.state
    have h2 := b.state
    rw [← h2] at h1
    exact h1
  cores k h := (b.cores k h).trans (a.cores k h)
  teams n := (b.teams n).trans (a.teams n)
  rest := by
    have h1 := a.rest
    have h2 := b.rest
    rw [← h2] at h1
    exact h1
  groups k h := (b.groups k h).trans (a.groups k h)
  group g h := by
    obtain ⟨q, hq, e⟩ := a.group g h
    obtain ⟨p, hp, e'⟩ := b.group q hq
    refine ⟨p, hp, ?_⟩
    rw [← e'] at e
    exact e

theorem RegFrame.seg {core slot : Nat} {s t : State} (a : RegFrame core slot s t) {g : Group}
    (h : s.group core slot = some g) : ∃ q, t.group core slot = some q ∧ q.segReg = g.segReg ∧
      q.segMat = g.segMat ∧ q.views = g.views ∧ q.width = g.width ∧ q.fw = g.fw := by
  obtain ⟨q, hq, e⟩ := a.group g h
  have h1 := congrArg Group.segReg e
  have h2 := congrArg Group.segMat e
  have h3 := congrArg Group.views e
  have h4 := congrArg Group.width e
  have h5 := congrArg Group.fw e
  exact ⟨q, hq, h1, h2, h3, h4, h5⟩

theorem RegFrame.roles {core slot : Nat} {s t : State} (a : RegFrame core slot s t) :
    (t.core core).roles = (s.core core).roles := by
  have h := congrArg Core.roles a.rest
  exact h

theorem RegFrame.mem {core slot : Nat} {s t : State} (a : RegFrame core slot s t) : t.mem = s.mem := by
  have h := congrArg State.mem a.state
  exact h

theorem RegFrame.cur {core slot : Nat} {s t : State} (a : RegFrame core slot s t) : t.cur = s.cur := by
  have h := congrArg State.cur a.state
  exact h

theorem RowsBut.trans {core : Nat} {p : Nat → Nat → Prop} {s t u : State} (a : RowsBut core p s t)
    (b : RowsBut core p t u) : RowsBut core p s u :=
  fun k i hi hn => (b k i hi hn).trans (a k i hi hn)

theorem RowsBut.mono {core : Nat} {p q : Nat → Nat → Prop} {s t : State} (a : RowsBut core p s t)
    (h : ∀ k i, p k i → q k i) : RowsBut core q s t := fun k i hi hn => a k i hi fun hp => hn (h k i hp)

theorem RowsBut.mono' {core : Nat} {p q : Nat → Nat → Prop} {s t : State} (a : RowsBut core p s t)
    (h : ∀ k i, i < 128 → p k i → q k i) : RowsBut core q s t :=
  fun k i hi hn => a k i hi fun hp => hn (h k i hi hp)

theorem RowsBut.of_row {core : Nat} {p : Nat → Nat → Prop} {s t : State}
    (h : ∀ k, (t.core core).row k = (s.core core).row k) : RowsBut core p s t := by
  intro k i _ _; rw [h]

/-! ## Changes to one group, one core, one team -/

/-- A change of the group's own threads and marks. -/
theorem RegFrame.updGroup (s : State) (core slot : Nat) (f : Group → Group)
    (h : ∀ g, { f g with
      lanes := g.lanes, parked := g.parked, parkBo := g.parkBo, logStall := g.logStall, stageOvf := g.stageOvf, accs := g.accs,
      fwRegs := g.fwRegs, fwPred := g.fwPred } = g) :
    RegFrame core slot s (s.updGroup core slot f) := by
  cases hg : s.group core slot with
  | none =>
    have : s.updGroup core slot f = s := by simp [State.updGroup, hg]
    rw [this]; exact RegFrame.refl core slot s
  | some g =>
    rw [State.updGroup_some s core slot f hg]
    refine ⟨rfl, fun k hk => ?_, fun _ => rfl, ?_, fun k hk => ?_, fun q hq => ?_⟩
    · simp [State.setGroup, State.core_updCore_ne, hk]
    · simp [State.setGroup]
    · exact State.group_setGroup_slot s core (f g) hk
    · rw [hg] at hq; injection hq with hq; subst hq
      exact ⟨f g, by simp, h g⟩

theorem RegFrame.setGroup {s : State} {core slot : Nat} {g q : Group} (hg : s.group core slot = some g)
    (h : { q with
      lanes := g.lanes, parked := g.parked, parkBo := g.parkBo, logStall := g.logStall, stageOvf := g.stageOvf, accs := g.accs,
      fwRegs := g.fwRegs, fwPred := g.fwPred } = g) :
    RegFrame core slot s (s.setGroup core slot q) := by
  refine ⟨rfl, fun k hk => ?_, fun _ => rfl, ?_, fun k hk => ?_, fun p hp => ?_⟩
  · simp [State.setGroup, State.core_updCore_ne, hk]
  · simp [State.setGroup]
  · exact State.group_setGroup_slot s core q hk
  · rw [hg] at hp; injection hp with hp; subst hp
    exact ⟨q, by simp, h⟩

/-- A change of a core's rows, poison marks and undo lines. -/
theorem RegFrame.setCore (s : State) (core slot : Nat) (x : Core)
    (h : { x with
      well := (s.core core).well, spares := (s.core core).spares, undo := (s.core core).undo,
      wellPoison := (s.core core).wellPoison } = s.core core) :
    RegFrame core slot s (s.setCore core x) := by
  have hg : x.groups = (s.core core).groups := by have e := congrArg Core.groups h; exact e
  refine ⟨rfl, fun k hk => ?_, fun _ => rfl, ?_, fun k hk => ?_, fun g hq => ?_⟩
  · simp [State.core_setCore_ne, hk]
  · simp only [State.core_setCore_self]; rw [← h]
  · simp [State.group, hg]
  · refine ⟨g, ?_, rfl⟩
    simpa [State.group, hg] using hq

/-- A team's interval overflows. -/
theorem RegFrame.overflow (s : State) (core slot n : Nat) :
    RegFrame core slot s (s.updTeam n fun t => { t with intOvf := true }) := by
  have hc : (s.updTeam n fun t => { t with intOvf := true }).cores = s.cores := by simp
  have hk : ∀ k, (s.updTeam n fun t => { t with intOvf := true }).core k = s.core k := by
    intro k; simp only [State.core, hc]
  refine ⟨?_, fun k _ => hk k, fun m => ?_, ?_, fun k _ => ?_, fun g hg => ⟨g, ?_, rfl⟩⟩
  · unfold State.updTeam; split <;> rfl
  · unfold State.updTeam
    split
    · next x hx =>
      by_cases h : m = n
      · subst h; simp [hx]
      · simp [tabFind_tabSet_ne, h]
    · rfl
  · rw [hk]
  · simp only [State.group, hk]
  · simpa only [State.group, hk] using hg

/-! ## Undo lines (R339) -/

/-- Taking an undo line stays in the frame and changes no row. -/
theorem State.takeUndo_frame (s : State) (core slot : Nat) (key : UKey) (prior : Line) :
    RegFrame core slot s (s.takeUndo core slot key prior) ∧
    ∀ k, ((s.takeUndo core slot key prior).core core).row k = (s.core core).row k := by
  have nop : RegFrame core slot s s ∧ ∀ k, (s.core core).row k = (s.core core).row k :=
    ⟨RegFrame.refl core slot s, fun _ => rfl⟩
  cases hg : s.group core slot with
  | none => simpa [State.takeUndo, hg] using nop
  | some g =>
    unfold State.takeUndo
    simp only [hg]
    split
    · exact nop
    · split
      · exact nop
      · split
        · refine ⟨RegFrame.setCore s core slot _ rfl, fun k => ?_⟩
          simp only [State.core_setCore_self]
          rfl
        · have h1 : ∀ b : Bool, RegFrame core slot s
              (if b = true then s.setGroup core slot { g with stageOvf := true } else s) ∧
              ∀ k, ((if b = true then s.setGroup core slot { g with stageOvf := true } else s).core core).row k =
                (s.core core).row k := by
            intro b
            cases b with
            | false => simpa using nop
            | true =>
              refine ⟨RegFrame.setGroup hg rfl, fun k => ?_⟩
              simp only [if_pos, State.setGroup, State.core_updCore_self]
              rfl
          split
          · refine ⟨(h1 _).1.trans (RegFrame.overflow _ core slot g.team), fun k => ?_⟩
            rw [State.core_updTeam]
            exact (h1 _).2 k
          · exact h1 _

/-! ## Rows of a window -/

theorem Group.clearZ_frame (g : Group) (w : Nat) : { g.clearZ w with
      lanes := g.lanes, parked := g.parked, parkBo := g.parkBo, logStall := g.logStall, stageOvf := g.stageOvf, accs := g.accs,
      fwRegs := g.fwRegs, fwPred := g.fwPred } = g := by
  unfold Group.clearZ; split <;> rfl

/-- A masked write to a row of a group's window. -/
theorem State.putWinRow_frame (s : State) (core slot w : Nat) (data : Line) (m : LineMask) :
    RegFrame core slot s (s.putWinRow core slot w data m) ∧
    ∀ g, s.group core slot = some g → RowsBut core (fun key i => ∃ r, g.wAddr (128 * w) = some r ∧
      (s.core core).rowKey r = some key ∧ m.getLsbD i = true) s (s.putWinRow core slot w data m) := by
  cases hg : s.group core slot with
  | none => simp [State.putWinRow, hg]; exact RegFrame.refl core slot s
  | some g =>
    unfold State.putWinRow
    simp only [hg]
    cases hw : g.wAddr (128 * w) with
    | none =>
      exact ⟨RegFrame.refl core slot s, fun q _ => RowsBut.of_row fun _ => rfl⟩
    | some r =>
      simp only
      cases hk : (s.core core).rowKey r with
      | none => exact ⟨RegFrame.refl core slot s, fun q _ => RowsBut.of_row fun _ => rfl⟩
      | some key =>
        simp only
        have hu := State.takeUndo_frame s core slot (.row r.mat r.a) ((s.core core).row key)
        generalize hs1 : s.takeUndo core slot (.row r.mat r.a) ((s.core core).row key) = s1 at hu
        have h2 : RegFrame core slot s1 (s1.updCore core fun x => x.putRow key data m) := by
          refine RegFrame.setCore s1 core slot _ ?_
          unfold Core.putRow
          simp only
          split <;> rfl
        have h3 := RegFrame.updGroup (s1.updCore core fun x => x.putRow key data m) core slot
          (fun g => g.clearZ w) (fun g => g.clearZ_frame w)
        refine ⟨(hu.1.trans h2).trans h3, fun q hq => ?_⟩
        injection hq with hq; subst hq
        intro k i hi hn
        have hrow : ∀ (u : State) (f : Group → Group) k,
            ((u.updGroup core slot f).core core).row k = (u.core core).row k := by
          intro u f k
          unfold State.updGroup
          split
          · simp only [State.setGroup, State.core_updCore_self]; rfl
          · rfl
        rw [hrow, State.core_updCore_self, Core.lineByte_putRow _ _ _ _ _ _ hi, hu.2]
        rw [if_neg]
        rintro ⟨rfl, hm⟩
        exact hn ⟨r, hw, hk, hm⟩

/-- Words written to a group's window: only their bytes change. -/
theorem State.putWin_frame (s : State) (core slot : Nat) (ws : List (Nat × Word)) {g : Group}
    (hg : s.group core slot = some g) :
    RegFrame core slot s (s.putWin core slot ws) ∧
    RowsBut core (fun key i => ∃ e ∈ ws, g.wordAt (s.core core) e.1 key i) s (s.putWin core slot ws) := by
  have bits : ∀ (l : List (Nat × Word)) (w : Nat) (m : LineMask) i, i < 128 →
      (l.foldl (fun m e => m ||| maskOf (e.1 % 128) 4) m).getLsbD i = true →
      m.getLsbD i = true ∨ ∃ e ∈ l, e.1 % 128 ≤ i ∧ i < e.1 % 128 + 4 := by
    intro l w
    induction l with
    | nil => intro m i _ h; exact .inl h
    | cons e r ih =>
      intro m i hi h
      rcases ih _ i hi h with h | ⟨e', he', h⟩
      · rw [BitVec.getLsbD_or, getLsbD_maskOf _ _ _ hi] at h
        simp only [Bool.or_eq_true, decide_eq_true_eq] at h
        rcases h with h | h
        · exact .inl h
        · exact .inr ⟨e, by simp, h⟩
      · exact .inr ⟨e', by simp [he'], h⟩
  unfold State.putWin
  generalize dedup (ws.map fun e => e.1 / 128) = rows
  suffices h : ∀ (rows : List Nat) (t : State), RegFrame core slot s t →
      RowsBut core (fun key i => ∃ e ∈ ws, g.wordAt (s.core core) e.1 key i) s t →
      ∀ u, u = rows.foldl (fun s w =>
        let here := ws.filter fun e => e.1 / 128 == w
        let data := here.foldl (fun d e => lineSet d (e.1 % 128) 4 e.2.toNat) (0 : Line)
        let m := here.foldl (fun m e => m ||| maskOf (e.1 % 128) 4) (0 : LineMask)
        s.putWinRow core slot w data m) t →
      RegFrame core slot s u ∧
      RowsBut core (fun key i => ∃ e ∈ ws, g.wordAt (s.core core) e.1 key i) s u from
    h rows s (RegFrame.refl core slot s) (RowsBut.of_row fun _ => rfl) _ rfl
  intro rows
  induction rows with
  | nil => intro t h1 h2 u hu; subst hu; exact ⟨h1, h2⟩
  | cons w r ih =>
    intro t h1 h2 u hu
    refine ih _ ?_ ?_ u (by rw [hu, List.foldl_cons])
    · exact h1.trans (State.putWinRow_frame t core slot w _ _).1
    · refine h2.trans ?_
      obtain ⟨q, hq, e1, e2, -⟩ := h1.seg hg
      refine ((State.putWinRow_frame t core slot w _ _).2 q hq).mono' ?_
      rintro key i hi ⟨r, hr, hk, hm⟩
      rcases bits _ w _ i hi hm with hz | ⟨e, he, hb⟩
      · simp at hz
      · simp only [List.mem_filter, beq_iff_eq] at he
        refine ⟨e, he.1, r, ?_, ?_, hb⟩
        · rw [he.2, ← hr]; simp only [Group.wAddr, e1, e2]
        · rw [← hk]; simp only [Core.rowKey, h1.roles]

/-! ## Registers and predicates -/

/-- Registers written: a group's window changes only in the words written; firmware's own registers
touch no row. -/
theorem State.putRegs_frame (s : State) (core slot : Nat) (ws : List (Nat × Nat × Word)) {g : Group}
    (hg : s.group core slot = some g) :
    RegFrame core slot s (s.putRegs core slot ws) ∧
    RowsBut core (fun key i => g.fw = false ∧
      ∃ e ∈ ws, g.wordAt (s.core core) (g.vecOfs e.2.1 + 4 * e.1) key i) s (s.putRegs core slot ws) := by
  unfold State.putRegs
  simp only [hg]
  by_cases hf : g.fw = true
  · simp only [if_pos hf]
    refine ⟨RegFrame.setGroup hg rfl, RowsBut.of_row fun k => ?_⟩
    simp only [State.setGroup, State.core_updCore_self]
    rfl
  · simp only [if_neg hf]
    have h := State.putWin_frame s core slot (ws.map fun e => (g.vecOfs e.2.1 + 4 * e.1, e.2.2)) hg
    refine ⟨h.1, h.2.mono ?_⟩
    rintro k i ⟨e, he, hw⟩
    obtain ⟨q, hq, rfl⟩ := List.mem_map.mp he
    exact ⟨by simpa using hf, q, hq, hw⟩

/-- Predicates written: only the group's predicate row changes; firmware's own predicates touch no
row. -/
theorem State.putPreds_frame (s : State) (core slot : Nat) (ws : List (Nat × Nat × Bool)) {g : Group}
    (hg : s.group core slot = some g) :
    RegFrame core slot s (s.putPreds core slot ws) ∧
    RowsBut core (fun key _ => ws ≠ [] ∧ g.fw = false ∧ g.predAt (s.core core) key) s
      (s.putPreds core slot ws) := by
  unfold State.putPreds
  cases ws with
  | nil => exact ⟨RegFrame.refl core slot s, RowsBut.of_row fun _ => rfl⟩
  | cons e r =>
    simp only [List.isEmpty_cons, Bool.false_eq_true, if_false, hg]
    by_cases hf : g.fw = true
    · simp only [if_pos hf]
      refine ⟨RegFrame.setGroup hg rfl, RowsBut.of_row fun k => ?_⟩
      simp only [State.setGroup, State.core_updCore_self]
      rfl
    · simp only [if_neg hf]
      cases hk : (s.core core).rowKey g.predAddr with
      | none => exact ⟨RegFrame.refl core slot s, RowsBut.of_row fun _ => rfl⟩
      | some key =>
        simp only
        have hu := State.takeUndo_frame s core slot (.row false g.predAddr.a) ((s.core core).row key)
        generalize s.takeUndo core slot (.row false g.predAddr.a) ((s.core core).row key) = s1 at hu
        refine ⟨hu.1.trans (RegFrame.setCore s1 core slot _ ?_), ?_⟩
        · unfold Core.putRow; simp only; split <;> rfl
        · intro k i hi hn
          rw [State.core_updCore_self, Core.lineByte_putRow _ _ _ _ _ _ hi, hu.2, if_neg]
          rintro ⟨rfl, -⟩
          exact hn ⟨by simp, by simpa using hf, hk⟩

/-- Moving past an instruction changes the threads and the wait marks of its group. -/
theorem State.next_frame (s : State) :
    RegFrame s.cur.core s.cur.slot s s.next ∧ ∀ k, (s.next.core s.cur.core).row k = (s.core s.cur.core).row k := by
  refine ⟨RegFrame.updGroup s s.cur.core s.cur.slot _ fun g => rfl, fun k => ?_⟩
  unfold State.next State.updGroup
  split
  · simp only [State.setGroup, State.core_updCore_self]; rfl
  · rfl

/-- The results of a lane-wise instruction, and its move to the next one. -/
theorem State.commit_frame (s : State) (outs : List (Nat × LaneOut)) {g : Group}
    (hg : s.curGroup = some g) :
    RegFrame s.cur.core s.cur.slot s (s.commit outs).next ∧
    RowsBut s.cur.core (fun key i => g.fw = false ∧
      ((∃ e ∈ outs, ∃ w ∈ e.2.regs, g.wordAt (s.core s.cur.core) (g.vecOfs w.1 + 4 * e.1) key i) ∨
       (∃ e ∈ outs, e.2.preds ≠ []) ∧ g.predAt (s.core s.cur.core) key)) s (s.commit outs).next := by
  unfold State.commit
  have h1 := State.putRegs_frame s s.cur.core s.cur.slot
    (outs.flatMap fun e => e.2.regs.map fun w => (e.1, w.1, w.2)) hg
  generalize hs1 : s.putRegs s.cur.core s.cur.slot
    (outs.flatMap fun e => e.2.regs.map fun w => (e.1, w.1, w.2)) = s1 at h1
  obtain ⟨q, hq, e1, e2, e3, e4, e5⟩ := h1.1.seg hg
  have h2 := State.putPreds_frame s1 s.cur.core s.cur.slot
    (outs.flatMap fun e => e.2.preds.map fun w => (e.1, w.1, w.2)) hq
  simp only
  generalize hs2 : s1.putPreds s.cur.core s.cur.slot
    (outs.flatMap fun e => e.2.preds.map fun w => (e.1, w.1, w.2)) = s2 at h2
  have hc : s2.cur = s.cur := (h2.1.cur).trans h1.1.cur
  have h3 := State.next_frame s2
  rw [hc] at h3
  refine ⟨(h1.1.trans h2.1).trans h3.1, (h1.2.mono ?_).trans ((h2.2.mono ?_).trans (RowsBut.of_row h3.2))⟩
  · rintro k i ⟨hf, e, he, hw⟩
    simp only [List.mem_flatMap, List.mem_map] at he
    obtain ⟨e', he', w, hw', rfl⟩ := he
    exact ⟨hf, .inl ⟨e', he', w, hw', hw⟩⟩
  · rintro k i ⟨hne, hf, hp⟩
    refine ⟨by rw [← e5]; exact hf, .inr ⟨?_, ?_⟩⟩
    · by_contra hno
      apply hne
      simp only [List.flatMap_eq_nil_iff, List.map_eq_nil_iff]
      intro e he
      by_contra h
      exact hno ⟨e, he, h⟩
    · unfold Group.predAt at hp ⊢
      have ha : q.predAddr = g.predAddr := by simp only [Group.predAddr, e1]
      rw [ha] at hp
      rw [← hp]
      unfold Core.rowKey
      rw [h1.1.roles]

end Sys2Proof.Machine
end

