-- ==== Sys2Proof/Laws/Lane.lean ====
section
/-! SUPPORT. What the turn of an instruction comes to, one lemma for each frame of instructions. -/

namespace Sys2Proof.Machine
open Sys2Proof.Slice0

/-! ## Tables written twice -/

theorem tabSet_tabSet {α : Type} (t : Tab α) (k : Nat) (v w : α) :
    tabSet (tabSet t k v) k w = tabSet t k w := by
  induction t with
  | nil => simp [tabSet]
  | cons e r ih =>
    obtain ⟨j, x⟩ := e
    simp only [tabSet]
    split
    · simp [tabSet]
    · split
      · simp [tabSet]
      · rename_i h1 h2
        simp [tabSet, h1, h2, ih]

theorem State.setCore_setCore (s : State) (c : Nat) (x y : Core) :
    (s.setCore c x).setCore c y = s.setCore c y := by
  simp [State.setCore, tabSet_tabSet]

theorem State.setGroup_setGroup (s : State) (c k : Nat) (g q : Group) :
    (s.setGroup c k g).setGroup c k q = s.setGroup c k q := by
  simp [State.setGroup, State.updCore, State.setCore_setCore, tabSet_tabSet]

/-- Two changes of one group are one. -/
theorem State.updGroup_updGroup (s : State) (c k : Nat) (f h : Group → Group) :
    (s.updGroup c k f).updGroup c k h = s.updGroup c k fun g => h (f g) := by
  cases hg : s.group c k with
  | none => simp [State.updGroup, hg]
  | some g =>
    rw [State.updGroup_some s c k f hg, State.updGroup_some _ c k h (State.group_setGroup_self _ _ _ _),
      State.setGroup_setGroup, State.updGroup_some s c k _ hg]

/-! ## The frames -/

/-- A privileged instruction in firmware. -/
theorem turn_priv {s : State} {p : Pred} {g : Group} {t : LaneMask} {lo : Nat} (h : Turn s p g t lo)
    (hf : g.fw = true) (k) : s.privM p k = k g (s.core s.cur.core) t lo := by
  have := h.lanes; subst this
  exact State.privM_some k h.group hf h.low

/-- A group-scope instruction. -/
theorem turn_group {s : State} {p : Pred} {g : Group} {t : LaneMask} {lo : Nat} (h : Turn s p g t lo) (k) :
    s.groupM p k = k g t lo := by
  have := h.lanes; subst this
  exact State.groupM_some k h.group h.low

/-- An instruction of the lanes that is not lane-wise. -/
theorem turn_mem {s : State} {c : Ctl} {g : Group} {t : LaneMask} {lo : Nat} (h : Turn s c.p g t lo) (k) :
    s.memM c k = k g (s.core s.cur.core) t lo := by
  have := h.lanes; subst this
  exact State.memM_some k h.group h.low

theorem ready_append {g : Group} {a b : List Nat} (h : Ready g (a ++ b)) : Ready g a ∧ Ready g b :=
  ⟨fun r hr => h r (List.mem_append_left _ hr), fun r hr => h r (List.mem_append_right _ hr)⟩

theorem ready_both {g : Group} {a b : List Nat} (h : Ready g a) (k : Ready g b) : Ready g (a ++ b) := by
  intro r hr
  rcases List.mem_append.mp hr with hr | hr
  · exact h r hr
  · exact k r hr

theorem alike_check {g : Group} {x : Core} {u : Bool} {t : LaneMask} {lo : Nat} {rs : List Nat}
    (h : Alike g x u t lo rs []) : uCheck g x u t lo rs = .ok () :=
  uCheck_same fun hu hd l hl r hr => (h hu hd l hl).1 r hr

theorem room_wait {g : Group} {b : Bool} (h : (if b then g.cnt.st else g.cnt.ld) < 31) :
    waitClass g (if b then .st else .ld) = .ok () := by
  apply waitClass_free
  cases b <;> simpa [Counters.get] using h

/-! ## Lane-wise instructions -/

theorem outNat_keys (w : Wid) (d : Reg) (v : Nat) : (outNat w d.toNat v).map Prod.fst = regsOf w d := by
  cases w <;> rfl

theorem tyWid_eq (ty : IntTy) : ty.wid = tyWid ty := by cases ty <;> rfl
theorem regsOf_eq (w : Wid) (r : Reg) : w.regs r.toNat = regsOf w r := by cases w <;> rfl

theorem srcRegs_eq (w : Wid) (b : Src2) : Src2.regs w b = srcRegs w b := by cases b <;> simp [Src2.regs, srcRegs, regsOf_eq]
theorem srcRegs3_eq (w w' : Wid) (b : Src3) : Src3.regs w w' b = srcRegs3 w w' b := by cases b <;> simp [Src3.regs, srcRegs3, regsOf_eq]
theorem fsrc_eq (b : FSrc2) : b.regs = fsrcRegs b := by cases b <;> rfl
theorem fsrc3_eq (b : FSrc3) : b.regs = fsrcRegs3 b := by cases b <;> rfl

/-- Every lane-wise instruction is its operation run by `State.vec`. -/
theorem exec_vec {i : Instr} {f : LaneForm} (s : State) {g : Group} (h : laneForm i = some f)
    (hg : s.curGroup = some g) :
    ∃ v : VOp, exec i s = s.vec v ∧ v.c = f.c ∧ v.reads = f.reads ∧ v.preads = f.preads ∧
      v.writes = f.writes ∧ ∀ src l, (v.f src l).regs.map Prod.fst = f.writes ∧
        (v.f src l).preds.map Prod.fst = f.pwrites := by
  cases i
  case pmov c dir m =>
    simp only [laneForm, Option.some.injEq] at h; subst h
    cases dir
    all_goals (refine ⟨_, rfl, rfl, rfl, rfl, rfl, fun src l => ⟨?_, ?_⟩⟩ <;> simp [pmovForm, predList, maskPreds, Function.comp_def])
  case vote p k pa =>
    simp only [laneForm, Option.some.injEq] at h; subst h
    refine ⟨voteOp p k pa g (s.core s.cur.core) s.cur.mask, by simp only [exec, execVote, hg], ?_⟩
    cases k
    all_goals (refine ⟨rfl, rfl, rfl, rfl, fun src l => ⟨?_, ?_⟩⟩ <;> simp [voteForm, voteOp, outPair, regsOf])
  case shfl p w m d a k seg pv =>
    simp only [laneForm, Option.some.injEq] at h; subst h
    refine ⟨shflOp p w m d a k seg pv g (g.taking (s.core s.cur.core) p s.cur.mask), by simp only [exec, execShfl, hg], rfl, ?_, rfl, ?_, fun src l => ⟨?_, ?_⟩⟩
    · simp [shflOp, regsOf_eq]
      cases k <;> simp [laneRegs]
    · simp [shflOp, regsOf_eq]
    · simp [shflOp, outNat_keys]
    · cases pv <;> rfl
  case cvt c dst sf sei dei d a =>
    cases dst <;> simp only [laneForm, cvtForm, Option.some.injEq, reduceCtorEq] at h
    subst h
    exact ⟨_, rfl, rfl, rfl, rfl, rfl, fun src l => ⟨rfl, rfl⟩⟩
  case fcmp c ty cond d a b =>
    simp only [laneForm, Option.some.injEq] at h; subst h
    refine ⟨_, rfl, rfl, ?_, rfl, rfl, fun src l => ⟨rfl, ?_⟩⟩
    · cases b <;> rfl
    · cases ty <;> cases b <;> simp [FTy.elems, fcmpPred]
  case fdot2 c ty d a b =>
    simp only [laneForm, plainForm, Option.some.injEq] at h; subst h
    exact ⟨_, rfl, rfl, by cases b <;> rfl, rfl, rfl, fun src l => ⟨rfl, rfl⟩⟩
  case sel c w d a b =>
    simp only [laneForm, Option.some.injEq] at h; subst h
    refine ⟨_, rfl, rfl, ?_, ?_, ?_, fun src l => ⟨?_, rfl⟩⟩ <;> cases b <;> simp [regsOf_eq, selRegs, selPred, outNat_keys]
  case bfx c w sg d a f =>
    simp only [laneForm, plainForm, Option.some.injEq] at h; subst h
    refine ⟨_, rfl, rfl, ?_, rfl, ?_, fun src l => ⟨?_, rfl⟩⟩ <;> cases f <;> simp [lanewise, regsOf_eq, fieldRegs, outNat_keys]
  case bfi c w d a f =>
    simp only [laneForm, plainForm, Option.some.injEq] at h; subst h
    refine ⟨_, rfl, rfl, ?_, rfl, ?_, fun src l => ⟨?_, rfl⟩⟩ <;> cases f <;> simp [lanewise, regsOf_eq, insertRegs, outNat_keys]
  case icmp c ty cond d a b =>
    simp only [laneForm, Option.some.injEq] at h; subst h
    refine ⟨_, rfl, rfl, ?_, rfl, rfl, fun src l => ⟨rfl, rfl⟩⟩
    cases b <;> simp [regsOf_eq, cmpRegs, tyWid_eq]
  case mov c w d a =>
    simp only [laneForm, plainForm, Option.some.injEq] at h; subst h
    refine ⟨_, rfl, rfl, ?_, rfl, ?_, fun src l => ⟨?_, rfl⟩⟩ <;> cases a <;> simp [lanewise, regsOf_eq, movRegs, outNat_keys]
  case bysel c d a b f =>
    simp only [laneForm, plainForm, Option.some.injEq] at h; subst h
    refine ⟨_, rfl, rfl, ?_, rfl, rfl, fun src l => ⟨rfl, rfl⟩⟩
    cases f <;> simp [lanewise, byteRegs]
  case iaddc c w d a b pi po =>
    simp only [laneForm, Option.some.injEq] at h; subst h
    refine ⟨_, rfl, rfl, ?_, ?_, ?_, fun src l => ⟨?_, rfl⟩⟩ <;> cases pi <;> simp [carryOp, regsOf_eq, Sys2Proof.Slice0.optPred, outNat_keys]
  case isubc c w d a b pi po =>
    simp only [laneForm, Option.some.injEq] at h; subst h
    refine ⟨_, rfl, rfl, ?_, ?_, ?_, fun src l => ⟨?_, rfl⟩⟩ <;> cases pi <;> simp [carryOp, regsOf_eq, Sys2Proof.Slice0.optPred, outNat_keys]
  all_goals first
    | (simp only [laneForm, reduceCtorEq] at h; done)
    | (simp only [laneForm, plainForm, Option.some.injEq] at h; subst h)
  all_goals
    refine ⟨_, rfl, rfl, ?_, rfl, ?_, fun src l => ⟨?_, rfl⟩⟩ <;>
    simp [int2, int1, lanewise, dotOp, bits2, countOp, float2, float3, funOp, outNat_keys, tyWid_eq, regsOf_eq,
      srcRegs_eq, srcRegs3_eq, fsrc_eq, fsrc3_eq, run8, eight, Function.comp_def] <;> try rfl

/-- A lane-wise operation whose operands can be used has written its lanes. -/
theorem vec_wrote {s : State} {v : VOp} {g : Group} {t : LaneMask} {lo : Nat} {c : Ctl}
    {rd pr wr pw : List Nat} (hr : FormRuns s ⟨c, rd, pr, wr, pw⟩ g t lo) (hc : v.c = c) (h1 : v.reads = rd)
    (h2 : v.preads = pr) (h3 : v.writes = wr) (out : Nat → LaneOut)
    (ho : ∀ l, v.f (g.src (s.core s.cur.core)) (if c.u then lo else l) = out l) :
    s.vec v = .next (wrote s t out) := by
  have hl := hr.turn.low
  have ht := hr.turn.lanes
  rw [← ht] at hl
  have h := State.vec_ready (v := v) (lo := lo) hr.turn.group (by rw [hc]; exact hl)
    (by rw [h1, h3]; exact hr.ready) (by
      intro hu hd
      apply VOp.mismatch_none
      rw [hc] at *
      rw [ht, h1, h2]
      exact hr.alike hu hd)
  rw [h, hc, ht]
  simp only [wrote, VOp.outs]
  by_cases hu : c.u = true
  · simp only [hu, if_true] at ho
    have e : out = fun _ => v.f (g.src (s.core s.cur.core)) lo := funext fun l => (ho l).symm
    simp [hu, hc, e]
  · simp only [hu] at ho
    simp [hu, hc, ← ho]

/-! ## Global loads and stores -/

/-- A global load or store that is ready settles the attempt of its accesses. -/
theorem glb_exec {i f s g t lo} (hf : memForm g (s.core s.cur.core) t lo i = some f) (h : MemRuns s f g t lo) (hs : f.space = .glb) :
    exec i s = run s (s.settleTry g (flightOf s g f (ptrElems f.cands)) f.dests false (s.tryGlb (s.actor g) g f.req f.store f.cands)) := by
  have hu := alike_check h.alike
  have hroom := room_wait h.room
  cases i <;> simp only [memForm, reduceCtorEq, Option.some.injEq] at hf
  case ld c m d a =>
    subst hf
    have ht := turn_mem h.turn
    have e1 : needRegs g (addrRegs m.space a ++ dataRegs m.size d.toNat) lo = .ok () := needRegs_ready lo h.ready
    have e2 : waitClass g .ld = .ok () := hroom
    have e3 : uCheck g (s.core s.cur.core) c.u t lo (addrRegs m.space a ++ []) = .ok () := hu
    have e4 : m.space = .glb := hs
    simp only [exec, execLd, State.ldstM, plainMem] at ht ⊢
    simp only [ht, e1, e2, e3, M.ok_bind, Bool.false_eq_true, if_false]
    simp only [e4]
    rfl
  case st c m a d =>
    subst hf
    have ht := turn_mem h.turn
    have e1 : needRegs g (addrRegs m.space a ++ dataRegs m.size d.toNat) lo = .ok () := needRegs_ready lo h.ready
    have e2 : waitClass g .st = .ok () := hroom
    have e3 : uCheck g (s.core s.cur.core) c.u t lo (addrRegs m.space a ++ dataRegs m.size d.toNat) = .ok () := hu
    have e4 : m.space = .glb := hs
    simp only [exec, execSt, State.ldstM, plainMem] at ht ⊢
    simp only [ht, e1, e2, e3, M.ok_bind, if_true]
    simp only [e4]
    rfl
  case ldf c m d a b =>
    subst hf
    have ht := turn_mem h.turn
    obtain ⟨r1, r2⟩ := ready_append (a := addrRegs m.space a ++ [b.toNat]) h.ready
    have e1 := needRegs_ready lo r1
    have e5 := needRegs_ready lo r2
    have e2 : waitClass g .ld = .ok () := hroom
    have e3 : uCheck g (s.core s.cur.core) c.u t lo (addrRegs m.space a ++ [b.toNat] ++ []) = .ok () := hu
    have e4 : m.space = .glb := hs
    have e6 : ¬ (d.toNat + m.size.regs * (((g.reg (s.core s.cur.core) b.toNat lo).extractLsb' 21 5).toNat + 1) > 256) := by
      have := h.fits; simp only [fragMem, decide_eq_true_eq] at this; omega
    simp only [exec, execLdf, State.fragM, fragMem] at ht ⊢
    simp only [ht, e1, e2, e3, e5, e6, M.ok_bind, decide_false, trapIf_false, Bool.false_eq_true, if_false]
    simp only [e4]
    rfl
  case stf c m d a b =>
    subst hf
    have ht := turn_mem h.turn
    obtain ⟨r1, r2⟩ := ready_append (a := addrRegs m.space a ++ [b.toNat]) h.ready
    have e1 := needRegs_ready lo r1
    have e5 := needRegs_ready lo r2
    have e2 : waitClass g .st = .ok () := hroom
    have e3 : uCheck g (s.core s.cur.core) c.u t lo _ = .ok () := hu
    have e4 : m.space = .glb := hs
    have e6 : ¬ (d.toNat + m.size.regs * (((g.reg (s.core s.cur.core) b.toNat lo).extractLsb' 21 5).toNat + 1) > 256) := by
      have := h.fits; simp only [fragMem, decide_eq_true_eq] at this; omega
    simp only [fragMem, if_true] at e3
    simp only [exec, execStf, State.fragM, fragMem] at ht ⊢
    simp only [ht, e1, e2, e3, e5, e6, M.ok_bind, decide_false, trapIf_false, if_true]
    simp only [e4]
    rfl

end Sys2Proof.Machine
end

