-- ==== Sys2Proof/Laws/Memory.lean ====
section
/-! SUPPORT. Device memory: reads after writes, and that every operation keeps the canonical form. -/

namespace Sys2Proof.Machine

theorem memWfFrom_tail {lo : Option Nat} {a : Nat} {b : Byte} {r : Memory}
    (h : memWfFrom lo ((a, b) :: r) = true) : memWfFrom (some a) r = true := by
  cases lo <;> simp_all [memWfFrom]

theorem memWfFrom_mono {a b : Nat} {m : Memory} (hab : a ≤ b) (h : memWfFrom (some b) m = true) :
    memWfFrom (some a) m = true := by
  cases m with
  | nil => rfl
  | cons e r =>
    obtain ⟨k, v⟩ := e
    simp only [memWfFrom, Bool.and_eq_true, decide_eq_true_eq] at *
    exact ⟨⟨by omega, h.1.2⟩, h.2⟩

theorem memWfFrom_none {a : Nat} {m : Memory} (h : memWfFrom (some a) m = true) :
    memWfFrom none m = true := by
  cases m with
  | nil => rfl
  | cons e r =>
    simp only [memWfFrom, Bool.and_eq_true] at *
    exact ⟨h.1.2, h.2⟩

/-- Nothing is listed at or below a bound. -/
theorem memRead_low {a k : Nat} {m : Memory} (h : memWfFrom (some a) m = true) (hk : k ≤ a) :
    memRead m k = 0 := by
  induction m generalizing a with
  | nil => rfl
  | cons e r ih =>
    obtain ⟨x, v⟩ := e
    simp only [memWfFrom, Bool.and_eq_true, decide_eq_true_eq] at h
    simp only [memRead]
    rw [if_neg (by omega)]
    exact ih h.2 (by omega)

theorem memWrite_wfFrom {lo : Option Nat} {m : Memory} (k : Nat) (v : Byte)
    (h : memWfFrom lo m = true) (hk : ∀ a, lo = some a → a < k) :
    memWfFrom lo (memWrite m k v) = true := by
  induction m generalizing lo with
  | nil =>
    simp only [memWrite]
    split
    · rfl
    · cases lo <;> simp_all [memWfFrom]
  | cons e r ih =>
    obtain ⟨a, b⟩ := e
    have ht := memWfFrom_tail h
    have hb : (b != 0) = true := by cases lo <;> simp_all [memWfFrom]
    have hl : ∀ x, lo = some x → x < a := by intro x hx; subst hx; simp_all [memWfFrom]
    have keep : ∀ {q : Memory} {c : Nat} {w : Byte}, (w != 0) = true → (∀ x, lo = some x → x < c) →
        memWfFrom (some c) q = true → memWfFrom lo ((c, w) :: q) = true := by
      intro q c w hw hc hq
      cases lo with
      | none => simp_all [memWfFrom]
      | some x => simpa [memWfFrom, hq, hc x rfl] using hw
    simp only [memWrite]
    split
    · split
      · exact h
      · next hv => exact keep (by simpa using hv) hk (by simp_all [memWfFrom])
    · split
      · split
        · cases lo with
          | none => exact memWfFrom_none ht
          | some x => exact memWfFrom_mono (by have := hl x rfl; omega) ht
        · next he hv =>
          subst he
          exact keep (by simpa using hv) hk ht
      · exact keep hb hl (ih ht (by intro x hx; injection hx; omega))

/-- A write keeps the canonical form. -/
theorem memWrite_wf {m : Memory} (k : Nat) (v : Byte) (h : m.wf = true) :
    (memWrite m k v).wf = true := memWrite_wfFrom k v h (by simp)

/-- A store keeps the canonical form. -/
theorem memStore_wf {m : Memory} (a : Nat) (bs : List Byte) (h : m.wf = true) :
    (memStore m a bs).wf = true := by
  induction bs generalizing m a with
  | nil => exact h
  | cons b r ih => exact ih (a + 1) (memWrite_wf a b h)

/-- A masked line store keeps the canonical form. -/
theorem memSetLine_wf {m : Memory} (l : Nat) (data : Line) (mask : LineMask) (h : m.wf = true) :
    (memSetLine m l data mask).wf = true := by
  unfold memSetLine
  generalize List.range 128 = is
  induction is generalizing m with
  | nil => exact h
  | cons i r ih =>
    simp only [List.foldl_cons]
    split
    · exact ih (memWrite_wf _ _ h)
    · exact ih h

/-- Entries taken away leave the canonical form. -/
theorem filter_wfFrom {lo : Option Nat} {m : Memory} (p : Nat × Byte → Bool) (h : memWfFrom lo m = true) :
    memWfFrom lo (m.filter p) = true := by
  induction m generalizing lo with
  | nil => rfl
  | cons e r ih =>
    obtain ⟨a, b⟩ := e
    have ht := memWfFrom_tail h
    simp only [List.filter_cons]
    split
    · cases lo <;> simp_all [memWfFrom]
    · cases lo with
      | none => exact ih (memWfFrom_none ht)
      | some x => exact ih (memWfFrom_mono (by simp_all [memWfFrom]; omega) ht)

/-- A filtered memory keeps the canonical form. -/
theorem filter_wf {m : Memory} (p : Nat × Byte → Bool) (h : m.wf = true) :
    Memory.wf (m.filter p) = true := filter_wfFrom p h

theorem memRead_memWrite_ne (m : Memory) {k j : Nat} (v : Byte) (h : j ≠ k) :
    memRead (memWrite m k v) j = memRead m j := by
  induction m with
  | nil => simp only [memWrite]; split <;> simp [memRead, h]
  | cons e r ih =>
    obtain ⟨a, b⟩ := e
    simp only [memWrite]
    split
    · split
      · rfl
      · simp [memRead, h]
    · split
      · next he => subst he; split <;> simp [memRead, h]
      · simp [memRead, ih]

theorem memRead_memWrite_self {m : Memory} (k : Nat) (v : Byte) (h : m.wf = true) :
    memRead (memWrite m k v) k = v := by
  have main : ∀ (m : Memory) (lo : Option Nat), memWfFrom lo m = true →
      memRead (memWrite m k v) k = v := by
    intro m
    induction m with
    | nil =>
      intro lo _
      simp only [memWrite]
      split
      · next hv => simp [memRead, hv]
      · simp [memRead]
    | cons e r ih =>
      intro lo hm
      obtain ⟨a, b⟩ := e
      have ht := memWfFrom_tail hm
      simp only [memWrite]
      split
      · next hk =>
        split
        · next hv =>
          simp only [memRead]
          rw [if_neg (by omega), memRead_low ht (by omega), hv]
        · simp [memRead]
      · split
        · next he =>
          subst he
          split
          · next hv => rw [memRead_low ht (Nat.le_refl _), hv]
          · simp [memRead]
        · next h1 h2 =>
          simp only [memRead]
          rw [if_neg (h2)]
          exact ih _ ht
  exact main m none h

/-! ## Records written whole (R102) -/

/-- All that a record's write does not touch: everything but memory and the sectors' states. -/
theorem State.putRecord_else (s : State) (a : Nat) (bs : List Byte) :
    { s.putRecord a bs with mem := s.mem, ecc := s.ecc } = s := rfl

theorem State.putRecord_wf {s : State} (a : Nat) (bs : List Byte) (h : s.mem.wf = true) :
    (s.putRecord a bs).mem.wf = true := memStore_wf a bs h

/-- A sector that a record covers keeps no error state, and every other one keeps its own. -/
theorem State.putRecord_ecc (s : State) (a : Nat) (bs : List Byte) (e : Nat × Ecc) :
    e ∈ (s.putRecord a bs).ecc ↔ e ∈ s.ecc ∧ ¬ (a ≤ 32 * e.1 ∧ 32 * e.1 + 32 ≤ a + bs.length) := by
  simp only [State.putRecord, List.mem_filter, Bool.not_eq_true', Bool.and_eq_false_iff, decide_eq_false_iff_not]
  tauto

end Sys2Proof.Machine
end

