-- ==== Sys2Proof/Tests/Slice0.lean ====
section
/-! SUPPORT. Small tests of the model: words of every family against the spec's encodings, ill-formed
terms, the spec's worked examples, and for each statement a state that meets its hypotheses. -/

open Sys2Proof Sys2Proof.Machine Sys2Proof.Slice0

namespace Sys2Proof.Tests

set_option Elab.async false

/-! ## Words from the spec's encodings -/

/-- Every word decodes to the instruction beside it. -/
def decodesAll (l : List (DWord × Instr)) : Bool := l.all fun e => decode e.1 == .ok e.2

/-- Words of the integer instructions (R225 to R229). -/
def words_integer : List (DWord × Instr) := [
  (0x00066141601FFFFB#64, .iadd ⟨false, .on true 3⟩ .s32 false 10 11 (.imm 0xFFFFB)),
  (0x015D206080A00000#64, .isub ⟨true, .on false 9⟩ .z32 true 3 4 (.reg 5)),
  (0x022000C101400000#64, .imul ⟨false, .all⟩ .s64 false 6 8 (.reg 10)),
  (0x033000C100100007#64, .imulh ⟨false, .all⟩ .z64 6 8 (.imm 7)),
  (0x04400020406000C8#64, .imad ⟨false, .all⟩ .s32 true 1 2 (.reg 3 200)),
  (0x0510002040600000#64, .imin ⟨false, .all⟩ .z32 1 2 (.reg 3)),
  (0x06001FFFDFA00000#64, .imax ⟨false, .all⟩ .s32 255 254 (.reg 253)),
  (0x0740002040000000#64, .iabs ⟨false, .all⟩ .s32 true 1 2),
  (0x0810002040000000#64, .ineg ⟨false, .all⟩ .z32 false 1 2),
  (0x0920004080C00000#64, .idiv ⟨false, .all⟩ .s64 2 4 (.reg 6)),
  (0x0A10004080C00000#64, .irem ⟨false, .all⟩ .z32 2 4 (.reg 6)),
  (0x0B20014040C01101#64, .iaddc ⟨false, .all⟩ .b64 10 2 6 (some 1) 1),
  (0x0B00014040D00007#64, .isubc ⟨false, .all⟩ .b32 10 2 6 none 7),
  (0x0C10014040F0000C#64, .lea ⟨false, .all⟩ .z32 10 2 (.imm 12 7)),
  (0x0D10002040600004#64, .idot4 ⟨false, .all⟩ false false true 1 2 3 4),
  (0x0E60002040600004#64, .idot2 ⟨false, .all⟩ true true false 1 2 3 4),
  (0x0F50008020400006#64, .imadw ⟨false, .all⟩ .z32 true 4 1 (.reg 2 6))]

theorem test_decode_integer : decodesAll words_integer = true := by decide +kernel

/-- Words of logic, shifts, bit fields, comparisons and predicates (R230 to R238). -/
def words_logic_1 : List (DWord × Instr) := [
  (0x10200080C1000000#64, .and ⟨false, .all⟩ .b64 4 6 (.reg 8)),
  (0x11000080C0100F0F#64, .or ⟨false, .all⟩ .b32 4 6 (.imm 0xF0F)),
  (0x12000080C0E00000#64, .xor ⟨false, .all⟩ .b32 4 6 (.reg 7)),
  (0x13000080A0C0E407#64, .bool3 ⟨false, .all⟩ .b32 4 5 6 7 0xE4),
  (0x14100080A010001F#64, .shl ⟨false, .all⟩ .z32 4 5 (.imm 31)),
  (0x15000080A0C00000#64, .shr ⟨false, .all⟩ .s32 4 5 (.reg 6)),
  (0x16200080C1000000#64, .rot ⟨false, .all⟩ .b64 4 6 (.reg 8)),
  (0x170000A0C0100000#64, .popc ⟨false, .all⟩ .b64 5 6),
  (0x171000A0E0000000#64, .clz ⟨false, .all⟩ .b32 5 7),
  (0x172000A0E0000000#64, .ctz ⟨false, .all⟩ .b32 5 7),
  (0x17300080C0100000#64, .brev ⟨false, .all⟩ .b64 4 6),
  (0x17400080C00C0243#64, .bfx ⟨false, .all⟩ .b32 true 4 6 (.imm 9 3)),
  (0x17500080C1000009#64, .bfi ⟨false, .all⟩ .b32 4 6 (.reg 8 9)),
  (0x17500080C104103F#64, .bfi ⟨false, .all⟩ .b32 4 6 (.imm 64 63 8)),
  (0x1810004080140064#64, .icmp ⟨false, .all⟩ .z32 .lt 2 4 (.imm 100)),
  (0x1A0000602040880F#64, .plop ⟨false, .all⟩ 3 1 2 15 0x88),
  (0x1B20004080C0000D#64, .sel ⟨false, .all⟩ .b64 2 4 (.reg 6 13)),
  (0x1B00004081B00005#64, .sel ⟨false, .all⟩ .b32 2 4 (.imm 5 13)),
  (0x1C10000120008001#64, .pmov ⟨false, .all⟩ (.toPred 9) 0x8001),
  (0x1D30014020000000#64, .vote .all (.ballot 10) 1)]

theorem test_decode_logic_1 : decodesAll words_logic_1 = true := by decide +kernel

/-- Words of logic, shifts, bit fields, comparisons and predicates (R230 to R238). -/
def words_logic_2 : List (DWord × Instr) := [
  (0x1D26A06020000000#64, .vote (.on true 5) (.eq 3) 1)]

theorem test_decode_logic_2 : decodesAll words_logic_2 = true := by decide +kernel

/-- Words of floating point, conversion and nib formats (R215, R243 to R254). -/
def words_float_1 : List (DWord × Instr) := [
  (0x1920004080C43000#64, .fcmp ⟨false, .all⟩ .bf16x2 4 2 4 (.reg 6 3)),
  (0x19000040801D3F80#64, .fcmp ⟨false, .all⟩ .f32 13 2 4 (.imm 0x3F80 0)),
  (0x1E10002040000000#64, .fclass ⟨false, .all⟩ .f16x2 1 2),
  (0x2000002040680000#64, .fadd ⟨false, .all⟩ .f32 1 2 (.reg .rp ⟨false, false⟩ ⟨false, false⟩ 3)),
  (0x2110002040103C00#64, .fsub ⟨false, .all⟩ .f16x2 1 2 (.imm 0x3C00)),
  (0x2220002040634000#64, .fmul ⟨false, .all⟩ .bf16x2 1 2 (.reg .rne ⟨true, true⟩ ⟨false, true⟩ 3)),
  (0x23000141618C200D#64, .ffma ⟨false, .all⟩ .f32 10 11 (.reg .rd ⟨false, false⟩ ⟨false, false⟩ ⟨true, false⟩ 12 13)),
  (0x2400002040608000#64, .fmin ⟨false, .all⟩ .f32 1 2 (.reg .rne ⟨false, false⟩ ⟨true, false⟩ 3)),
  (0x2510002040600000#64, .fmax ⟨false, .all⟩ .f16x2 1 2 (.reg .rne ⟨false, false⟩ ⟨false, false⟩ 3)),
  (0x2620002040640004#64, .fdot2 ⟨false, .all⟩ .bf16x2 1 2 (.reg .rz ⟨false, false⟩ ⟨false, false⟩ ⟨false, false⟩ 3 4)),
  (0x2700002040610000#64, .fscale ⟨false, .all⟩ .f32 .rne ⟨false, true⟩ 1 2 3),
  (0x28000020400C0000#64, .frnd ⟨false, .all⟩ .f32 .rd ⟨false, false⟩ 1 2),
  (0x2900002041380000#64, .fclamp ⟨false, .all⟩ .f32 1 2 (.imm 0x80000 9)),
  (0x2A20002040600000#64, .famax ⟨false, .all⟩ .bf16x2 1 2 (.reg .rne ⟨false, false⟩ ⟨false, false⟩ 3)),
  (0x3000006080010000#64, .frcp ⟨false, .all⟩ ⟨false, true⟩ 3 4),
  (0x3100006080020000#64, .frsq ⟨false, .all⟩ ⟨true, false⟩ 3 4),
  (0x3200006080010000#64, .fsqrt ⟨false, .all⟩ ⟨false, true⟩ 3 4),
  (0x3300006080020000#64, .fexp2 ⟨false, .all⟩ ⟨true, false⟩ 3 4),
  (0x3400006080010000#64, .flog2 ⟨false, .all⟩ ⟨false, true⟩ 3 4),
  (0x3500006080020000#64, .fsin ⟨false, .all⟩ ⟨true, false⟩ 3 4)]

theorem test_decode_float_1 : decodesAll words_float_1 = true := by decide +kernel

/-- Words of floating point, conversion and nib formats (R215, R243 to R254). -/
def words_float_2 : List (DWord × Instr) := [
  (0x3600006080010000#64, .fcos ⟨false, .all⟩ ⟨false, true⟩ 3 4),
  (0x3700006080000000#64, .fsigm ⟨false, .all⟩ ⟨false, false⟩ 3 4),
  (0x3710006080000000#64, .ftanh ⟨false, .all⟩ ⟨false, false⟩ 3 4),
  (0x380000A120028440#64, .cvt ⟨false, .all⟩ (.fmt 4 .rne true) 1 0 1 5 9),
  (0x38B000A120080380#64, .cvt ⟨false, .all⟩ (.slot 3) 4 3 2 5 9),
  (0x3920050004000000#64, .npack ⟨false, .all⟩ 2 40 0 32),
  (0x3A001F00E1000000#64, .nunpk ⟨false, .all⟩ 248 7 8),
  (0x3B50013E00000000#64, .scaleq ⟨false, .all⟩ 5 9 240)]

theorem test_decode_float_2 : decodesAll words_float_2 = true := by decide +kernel

/-- Words of sealing, moves and special registers (R171, R221, R239, R240). -/
def words_registers : List (DWord × Instr) := [
  (0x3C00006080000000#64, .seal ⟨false, .all⟩ 3 4),
  (0x3C08000080000001#64, .sealRel ⟨true, .all⟩ 4),
  (0x3D0000C0A0000009#64, .hqry ⟨false, .all⟩ 6 5 9),
  (0x402000C100000000#64, .mov ⟨false, .all⟩ .b64 6 (.reg 8)),
  (0x400000E0001ABCDE#64, .mov ⟨false, .all⟩ .b32 7 (.imm 0xABCDE)),
  (0x4164004020002A82#64, .shfl (.on false 0) .b32 .down 2 1 (.imm 2) 2 (some 5)),
  (0x41B0004080C06000#64, .shfl .all .b64 .xor 2 4 (.reg 6) 6 none),
  (0x42000080A0D0AAA0#64, .bysel ⟨false, .all⟩ 4 5 6 (.imm 0xAAA0)),
  (0x4300010000000012#64, .sread ⟨false, .all⟩ 8 0x12),
  (0x4400000060800115#64, .swrite .all (.group 4) 3 0x15),
  (0x440000006000000D#64, .swrite .all .core 3 0x0D),
  (0x4540000000008100#64, .view .all .vec (.imm 0x8100)),
  (0x45200009A0000000#64, .view .all .acc (.reg 77)),
  (0x4610006080A00000#64, .segset .all .mat 3 4 5),
  (0x4700000080A00FFF#64, .rcopy .all 4 5 0xFFF)]

theorem test_decode_registers : decodesAll words_registers = true := by decide +kernel

/-- Words of memory and ink cells (R119, R181, R190 to R196, R202). -/
def words_memory : List (DWord × Instr) := [
  (0x48000140C0100000#64, .ld ⟨false, .all⟩ ⟨false, .glb, .b32, 0⟩ 10 6),
  (0x48800140C007FFFF#64, .ld ⟨false, .all⟩ ⟨true, .glb, .s8, 0x3FFFF⟩ 10 6),
  (0x49100000C1140008#64, .st ⟨false, .all⟩ ⟨false, .scr, .b64, 8⟩ 6 8),
  (0x4A000180C0F80000#64, .ldf ⟨false, .all⟩ ⟨false, .glb, .b128, 0⟩ 12 6 7),
  (0x4B2001A0C0F00000#64, .stf ⟨false, .all⟩ ⟨false, .clu, .b32, 0⟩ 13 6 7),
  (0x4C800000C0100100#64, .pref ⟨false, .all⟩ ⟨true, .glb, .b32, 256⟩ 6),
  (0x4D000000C0E00040#64, .cinv .all 6 7 64),
  (0x4D100120C0E00000#64, .cinvNowb .all 9 6 7 0),
  (0x4E000000C0100000#64, .cflush .all ⟨false, .glb, .b32, 0⟩ 6),
  (0x50000180C0900008#64, .atom ⟨false, .all⟩ ⟨.glb, .b32, 8⟩ .add 12 6 4),
  (0x51100180C0940000#64, .atcas ⟨false, .all⟩ ⟨.scr, .b64, 0⟩ 12 6 4),
  (0x52200000C0910004#64, .red ⟨false, .all⟩ ⟨.clu, .b32, 4⟩ .umax 6 4),
  (0x53000000C0800002#64, .cadd ⟨false, .all⟩ 6 4 2),
  (0x54000180C100020A#64, .inkp ⟨false, .all⟩ 12 6 8 10 2),
  (0x55100180C01FFF0A#64, .inkrG ⟨false, .all⟩ 12 6 10 0x1FFF),
  (0x55000180C000000A#64, .inkrH ⟨false, .all⟩ 12 6 10 0),
  (0x56000180C000000A#64, .inkc ⟨false, .all⟩ 12 6 10 0)]

theorem test_decode_memory : decodesAll words_memory = true := by decide +kernel

/-- Words of copy engine, the Well, matrix and stipple units (R125, R137, R139, R154, R156, R161, R272, R293). -/
def words_engines_1 : List (DWord × Instr) := [
  (0x5800000060800000#64, .kick .all 3 4),
  (0x59000000C000000F#64, .tlwait .all 6 15),
  (0x5A0000C000000009#64, .tlread .all 6 9),
  (0x5B00000280000100#64, .boinit .all 20 256),
  (0x5B10000280A00100#64, .boarm .all 20 5 256),
  (0x5B20000280000010#64, .bowait .all 20 16),
  (0x5B30012280000000#64, .botest .all 9 20 0),
  (0x5C40004060000017#64, .wreq .all .shadow 2 3 true 7),
  (0x5D00008000000005#64, .wqry .all .cache 4),
  (0x5E00000780000003#64, .wtagSetv .all 60 3),
  (0x5E10000780000003#64, .wtagSetc .all 60 3),
  (0x5E20000780000003#64, .wtagReset .all 60 3),
  (0x5E30000780000003#64, .wtagWv .all 60 3),
  (0x5E40000780000003#64, .wtagWc .all 60 3),
  (0x5E5001208000000F#64, .wtagRd .all 9 4 15),
  (0x6010000002000000#64, .mma .all 1 ⟨0, 0⟩ 0 16 false),
  (0x611010A00800E082#64, .mloop .all 1 ⟨2, 5⟩ 0 64 ⟨7, 1, 1, false⟩),
  (0x644008410121E20D#64, .mloops .all 4 ⟨1, 2⟩ 8 9 ⟨15, 4, 6, true⟩),
  (0x6200198000000003#64, .mzero .all ⟨3, 12⟩ 3),
  (0x63A0000400000000#64, .mdrain .all true 2 ⟨0, 0⟩ 32)]

theorem test_decode_engines_1 : decodesAll words_engines_1 = true := by decide +kernel

/-- Words of copy engine, the Well, matrix and stipple units (R125, R137, R139, R154, R156, R161, R272, R293). -/
def words_engines_2 : List (DWord × Instr) := [
  (0x6620088400000000#64, .mldacc .all 2 ⟨1, 4⟩ 32),
  (0x6500000000000003#64, .msyncWait .all 3),
  (0x6510080000000013#64, .msyncMark .all 1 1 3),
  (0x6700140000000000#64, .mstatRd .all 160),
  (0x6710000000000000#64, .mstatClr .all),
  (0x6720000100000001#64, .mstatMeta .all 8 1),
  (0x6730000100000003#64, .mstatScale .all 8 3),
  (0x6810000060800000#64, .sacfgCtl .all 1 3 4),
  (0x6860000100800000#64, .sacfgKey .all 2 8 4),
  (0x68B0000100000000#64, .sacfgSc .all 3 8),
  (0x68C0000120000000#64, .sacfgLink .all 0 9),
  (0x6910000060800002#64, .sald .all 1 3 4 .col),
  (0x6A300000A0000000#64, .saclamp .all 3 5),
  (0x6B20000080000013#64, .saswp .all 2 4 1 3),
  (0x6C100120A0000000#64, .sardState .all 1 9 5),
  (0x6C100120A0000001#64, .sardCnt .all 1 9 5),
  (0x6C20010000000002#64, .sardStat .all 2 8),
  (0x6C30010000000003#64, .sardMon .all 3 8)]

theorem test_decode_engines_2 : decodesAll words_engines_2 = true := by decide +kernel

/-- Words of control, synchronization, scheduling and traps (R308, R334, R346, R349, R351, R368, R369, R378). -/
def words_control : List (DWord × Instr) := [
  (0x6D044000001FFFFD#64, .bra ⟨false, .on false 2⟩ 0x1FFFFD),
  (0x6E080000C0000000#64, .brx ⟨true, .all⟩ 6),
  (0x6F000080000FFFFE#64, .call ⟨false, .all⟩ 4 0xFFFFE),
  (0x6F000080C0100000#64, .callInd ⟨false, .all⟩ 4 6),
  (0x7000000080000000#64, .ret ⟨false, .all⟩ 4),
  (0x7106A00000000000#64, .exit (.on true 5)),
  (0x7200000000000000#64, .nop .all),
  (0x7300000000000000#64, .yield .all),
  (0x7400000000000000#64, .barTeam .all),
  (0x74100000000000E4#64, .barSync .all 4 7),
  (0x74200000000007FF#64, .barArrive .all 31 63),
  (0x7530000000000000#64, .phase .all .dev),
  (0x7600000000000000#64, .stage .all),
  (0x77000000C0020000#64, .monw .all 6 0x20000),
  (0x7800000000008864#64, .waitc .all 1 2 3 4),
  (0x7900004140000000#64, .spawn .all 2 10),
  (0x7A00008140A00000#64, .jdec .all 4 10 5),
  (0x7B0000C0E0000000#64, .tqry ⟨false, .all⟩ 6 7),
  (0x7C00000000000005#64, .trap .all 5),
  (0x7C000003C4100000#64, .trapHnd .all 30 32)]

theorem test_decode_control : decodesAll words_control = true := by decide +kernel

/-- Words of the forms of SYS and ERET (R86, R377, R396, R438). -/
def words_firmware : List (DWord × Instr) := [
  (0x7D00004081000000#64, .objsetDesc .all 2 4 8),
  (0x7D00004080C00001#64, .objsetExt .all 2 4 6),
  (0x7D10004080000000#64, .objinv .all 2 4),
  (0x7D10004080000001#64, .objinvAll .all 2 4),
  (0x7D20004080C00000#64, .xmove .all 2 4 6),
  (0x7D30004060000000#64, .quiesceDrain .all 2 3),
  (0x7D30004060000001#64, .quiescePreempt .all 2 3),
  (0x7D30004060000002#64, .quiesceResume .all 2 3),
  (0x7D40004080C00000#64, .gangsw .all 2 4 6),
  (0x7D50004060800000#64, .scanrun .all 2 3 4),
  (0x7D60004060000000#64, .dieoff .all 2 3),
  (0x7D70004060000000#64, .dieon .all 2 3),
  (0x7D90004060000000#64, .cluoff .all 2 3),
  (0x7D80004060000000#64, .rpair .all 2 3),
  (0x7D80004060000001#64, .rpairDone .all 2 3),
  (0x7E00004060000000#64, .eretRetry .all 2 3),
  (0x7E00004060000001#64, .eretSkip .all 2 3),
  (0x7E00004060000002#64, .eretDeliver .all 2 3),
  (0x7E00004060000003#64, .eretKill .all 2 3)]

theorem test_decode_firmware : decodesAll words_firmware = true := by decide +kernel

/-- Words of pair words (R32, R33). -/
def words_pairs_1 : List (DWord × Instr) := [
  (0x8000000003070900#64, .pairNop (.op .mov true 7 9)),
  (0x8204050022080900#64, .pairMov false 4 5 (.op .fmul false 8 9)),
  (0x8504008022080900#64, .pairMovi8 true 4 0x80 (.op .fmul false 8 9)),
  (0x8604050022080900#64, .pairIadd false 4 5 (.op .fmul false 8 9)),
  (0x880400FF22080900#64, .pairIaddi false 4 255 (.op .fmul false 8 9)),
  (0x8A04050004010007#64, .pairIsub false 4 5 (.movi8 false 1 7)),
  (0x8C04050008010007#64, .pairImul false 4 5 (.iaddi false 1 7)),
  (0x8E0405001801001F#64, .pairImin false 4 5 (.shift .shl false 1 31)),
  (0x900405001A01001E#64, .pairImax false 4 5 (.shift .shr false 1 30)),
  (0x920405001D010002#64, .pairAnd false 4 5 (.shift .sar true 1 2)),
  (0x9404050000000000#64, .pairOr false 4 5 .nop),
  (0x9604050016060700#64, .pairXor false 4 5 (.op .xor false 6 7)),
  (0x9E0405001E060700#64, .pairFadd false 4 5 (.op .fadd false 6 7)),
  (0xA004050020060700#64, .pairFsub false 4 5 (.op .fsub false 6 7)),
  (0xA204050022060700#64, .pairFmul false 4 5 (.op .fmul false 6 7)),
  (0xA404050024060700#64, .pairFmin false 4 5 (.op .fmin false 6 7)),
  (0xA604050026060700#64, .pairFmax false 4 5 (.op .fmax false 6 7)),
  (0xA804050028060700#64, .pairFneg false 4 5 (.op .fneg false 6 7)),
  (0xAA0405002A060700#64, .pairFabs false 4 5 (.op .fabs false 6 7)),
  (0x9804000C22080900#64, .pairShli false 4 12 (.op .fmul false 8 9))]

theorem test_decode_pairs_1 : decodesAll words_pairs_1 = true := by decide +kernel

/-- Words of pair words (R32, R33). -/
def words_pairs_2 : List (DWord × Instr) := [
  (0x9A04000D22080900#64, .pairShri false 4 13 (.op .fmul false 8 9)),
  (0x9C04000E22080900#64, .pairSari false 4 14 (.op .fmul false 8 9))]

theorem test_decode_pairs_2 : decodesAll words_pairs_2 = true := by decide +kernel

/-! ## Ill-formed terms: one for each check of WellFormed, refused there and by the decoder -/

/-- Every term is ill formed, and no word decodes to it. -/
def refusedAll (l : List Instr) : Bool :=
  l.all fun i => !i.wf && (match encode i with | some w => decode w != .ok i | none => true)

def c0 : Ctl := ⟨false, .all⟩
def sm : SMod := ⟨false, false⟩
def mem (nt : Bool) (sp : Space) (z : ASize) : MemOp := ⟨nt, sp, z, 0⟩

def ill_integer : List Instr := [
  .iadd c0 .s64 false 1 2 (.reg 4), .isub c0 .z64 false 2 1 (.reg 4), .imul c0 .s64 false 2 4 (.reg 1),
  .imad c0 .s64 false 2 4 (.reg 6 1), .lea c0 .s64 2 4 (.imm 1 7), .iabs c0 .s64 false 2 3, .ineg c0 .s64 false 3 2,
  .iaddc c0 .b64 2 4 7 none 1, .isubc c0 .b64 3 4 6 none 1, .imadw c0 .s32 false 3 4 (.reg 5 6),
  .imadw c0 .s32 false 2 4 (.reg 5 7), .and c0 .b64 2 4 (.reg 7), .bool3 c0 .b64 2 4 6 9 0, .popc c0 .b64 1 3,
  .brev c0 .b64 2 3, .bfx c0 .b32 false 1 2 (.imm 65 0), .bfi c0 .b32 1 2 (.imm 65 0 3), .bfi c0 .b64 2 4 (.reg 5 7),
  .icmp c0 .s64 .eq 1 3 (.reg 4)]

def ill_float : List Instr := [
  .icmp c0 .s64 .eq 1 4 (.reg 5), .fcmp c0 .f32 14 1 4 (.reg 5 0), .fcmp c0 .f32 0 1 4 (.reg 5 1),
  .fcmp c0 .f16x2 0 2 4 (.reg 5 2), .sel c0 .b64 2 4 (.reg 7 1), .vote .all (.ballot 5) 1,
  .fadd c0 .f16x2 4 5 (.imm 0x10000), .ffma c0 .bf16x2 4 5 (.imm 0x10000 6),
  .fmin c0 .f32 4 5 (.reg .rz sm sm 6), .famax c0 .f32 4 5 (.reg .rd sm sm 6), .fclamp c0 .f32 4 5 (.reg .rp sm sm sm 6 7),
  .fdot2 c0 .f16x2 4 5 (.imm 0x10000 6), .cvt c0 (.fmt 1 .rne false) 0 0 0 4 5, .cvt c0 (.fmt 6 .rne false) 1 0 0 4 5,
  .cvt c0 (.fmt 13 .rne false) 1 0 0 4 5, .cvt c0 (.fmt 1 .rne false) 2 2 0 4 5, .cvt c0 (.fmt 1 .rne false) 1 0 1 4 5]

def ill_registers : List Instr := [
  .npack c0 0 4 249 5, .nunpk c0 249 4 5, .scaleq c0 0 4 249, .hqry c0 5 4 0, .hqry c0 4 4 10, .mov c0 .b64 4 (.reg 5),
  .mov c0 .b64 5 (.imm 1), .shfl .all .b32 .idx 4 5 (.imm 0) 7 none, .bysel c0 4 5 6 (.imm 0xD000), .sread c0 4 0x17,
  .sread c0 5 0x10, .swrite .all .core 4 0x13, .swrite .all (.group 5) 4 0x0D, .segset .all .reg 4 5 6]

def ill_memory : List Instr := [
  .ld c0 (mem true .scr .b32) 4 6, .ld c0 (mem false .glb .b64) 5 6, .ld c0 (mem false .glb .b128) 6 8,
  .ld c0 (mem false .glb .b32) 4 7, .st c0 (mem false .glb .s8) 6 4, .ldf c0 (mem false .fifo .b32) 4 6 8,
  .stf c0 (mem false .scr .z8) 4 6 8, .pref c0 (mem false .scr .b32) 6, .cflush .all (mem false .glb .b32) 7,
  .cinv .all 7 4 0, .cinvNowb .all 4 7 5 0, .atom c0 ⟨.fifo, .b32, 0⟩ .add 4 6 8, .atom c0 ⟨.glb, .b64, 0⟩ .fadd 4 6 8,
  .atcas c0 ⟨.glb, .b32, 0⟩ 4 6 9, .atcas c0 ⟨.glb, .b64, 0⟩ 4 6 10, .red c0 ⟨.glb, .b32, 0⟩ .exch 6 8, .cadd c0 7 4 0]

def ill_engines : List Instr := [
  .inkp c0 6 8 10 12 0, .inkrG c0 4 9 10 0, .inkc c0 4 8 11 0, .tlwait .all 5 0, .tlread .all 5 0,
  .wreq .all .reg 4 5 false 1, .wqry .all .reg 6, .wtagSetv .all 60 4, .wtagRd .all 4 0 16, .mzero .all ⟨0, 15⟩ 1,
  .mstatMeta .all 5 0, .sacfgKey .all 0 6 4, .sacfgSc .all 0 5, .sardStat .all 0 6, .brx c0 5, .call c0 5 0,
  .callInd c0 4 7, .ret c0 5, .monw .all 5 0]

def ill_system : List Instr := [
  .spawn .all 4 5, .jdec .all 4 5 6, .tqry c0 5 4, .trapHnd .all 5 4, .objsetDesc .all 4 6 10, .objsetExt .all 4 6 9,
  .objinv .all 4 5, .objinvAll .all 4 5, .xmove .all 4 7 8, .gangsw .all 4 5 6]

/-- Pairs with one destination in both halves, and with three reads of one register port (R34). -/
def ill_pairs : List Instr := [
  .pairMov false 4 5 (.op .mov false 4 6), .pairIadd false 4 8 (.op .iadd false 12 16), .pairMovi8 false 4 1 (.movi8 false 4 2)]

theorem test_wf_integer : refusedAll ill_integer = true := by decide +kernel
theorem test_wf_float : refusedAll ill_float = true := by decide +kernel
theorem test_wf_registers : refusedAll ill_registers = true := by decide +kernel
theorem test_wf_memory : refusedAll ill_memory = true := by decide +kernel
theorem test_wf_engines : refusedAll ill_engines = true := by decide +kernel
theorem test_wf_system : refusedAll ill_system = true := by decide +kernel
theorem test_wf_pairs : refusedAll ill_pairs = true := by decide +kernel

/-- A reserved bit, an opcode of the reserved range, and a pair that breaks R34 refuse by name (R43, R44). -/
theorem test_refused_words : decode 0x86040500A2080900 = .error .illegalOp ∧
    decode 0x7F00000000000000 = .error .illegalOp ∧ decode 0x86040800220C0900 = .error .illegalPair := by decide +kernel

/-! ## A small machine: core 0 in service, one group of 16 threads of team 1 in its slot 0 -/

def grp : Group :=
  { newGroup 0 1 0 16 0x2000 0x4000 { vec := 0, tile := 0, acc := 0x200000 } [0x16, 3, 1, 0, 0x83, 0, 0, 0]
      (mkPtr 1 0) false with nextId := 7 }

def team1 : Team :=
  { ctx := 0, grid := 1, tid := 0, cores := [0], cset := none, live := true, dead := false, ended := 0
    allots := [(0, { min := Roles.all 0, granted := Roles.all 0, scr := [0], last := Roles.all 0 })]
    barRound := 0, barIn := [], intOvf := false, committed := false, ueSectors := [], rolling := none
    dying := false, ceil := ⟨60, Roles.all none⟩ }

def core0 : Core :=
  { Core.init with
    done := true
    roles := { reg := [0], mat := [3], scr := [4], fifo := [5], shadow := [1, 2], cache := (List.range 64).drop 6 }
    groups := [(0, grp)] }

/-- The object table at 0x1000 and the extent entries at 0x2000 (R72, R76): 1 code, 2 plain, 3 FP32 sums,
4 ink, and 5 to 7 plain, sums and ink with an absent extent. -/
def objects : Memory :=
  let desc := fun (m : Memory) (on : Nat) (kind rights ext : Nat) =>
    memStore (memStore (memStore m (0x1000 + 16 * on) (bytesOfNat 8 (2 ^ 16 + kind * 2 ^ 44)))
      (0x1008 + 16 * on) (bytesOfNat 8 (0x2000 + 8 * on + rights * 2 ^ 40 + 2 ^ 49)))
      (0x2000 + 8 * on) (bytesOfNat 8 ext)
  desc (desc (desc (desc (desc (desc (desc [] 1 3 4 0x101) 2 0 0x1FF 0x211) 3 2 0x1FF 0x301) 4 1 0x1FF 0x401)
    5 0 0x1FF 0) 6 2 0x1FF 0) 7 1 0x1FF 0

def bare : State :=
  { State.reset with
    agenda := [], boot := .ready
    cores := [(0, core0)], teams := [(1, team1)]
    ctxs := [(0, { Ctx.init with state := .running, otb := 0x1000, otl := 8 })]
    dies := [(0, { Die.init with out := false })]
    clusters := [(0, { Cluster.init with inSvc := true, drained := false })]
    mem := objects
    cur := { core := 0, slot := 0, mask := 1, pc := mkPtr 1 0, iword := 0x7200000000000000 } }

/-- Lane 0's registers set. -/
def regs (l : List (Nat × Word)) (s : State) : State := s.putRegs s.cur.core s.cur.slot (l.map fun e => (0, e.1, e.2))

/-- v4 is 5 and v5 is 3; the pairs v6 to v12 point to objects 2 to 5, v24 and v26 to objects 6 and 7. -/
def base : State :=
  regs [(4, 5), (5, 3), (7, 0x2000), (9, 0x3000), (11, 0x4000), (13, 0x5000), (25, 0x6000), (27, 0x7000)] bare

/-- The group at its turn. -/
def grpOf (s : State) : Group := (s.curGroup).getD grp

/-- The group changed. -/
def withG (f : Group → Group) (s : State) : State := s.updGroup s.cur.core s.cur.slot f

/-- What holds after one instruction. -/
def after (s : State) (i : Instr) (f : State → Bool) : Bool :=
  match exec i s with
  | .next t => f t
  | _ => false

/-- Register `r` of lane `l` of the group at its turn. -/
def rd (s : State) (r l : Nat) : Word := (grpOf s).reg (s.core s.cur.core) r l

/-- The control bits of an instruction without U and predicate. -/
abbrev cc : Ctl := ⟨false, .all⟩

/-- The turn of lanes `t` under `p`, checked. -/
def turnB (s : State) (p : Pred) (t : LaneMask) (lo : Nat) : Bool :=
  s.curGroup.isSome && (grpOf s).taking (s.core s.cur.core) p s.cur.mask == t && lowestLane t == some lo

theorem turn_of {s : State} {p : Pred} {t : LaneMask} {lo : Nat} (h : turnB s p t lo = true) :
    Turn s p (grpOf s) t lo := by
  simp only [turnB, Bool.and_eq_true, beq_iff_eq, Option.isSome_iff_exists] at h
  obtain ⟨⟨⟨g, hg⟩, h1⟩, h2⟩ := h
  exact ⟨by simp [grpOf, hg], h1, h2⟩

/-- Registers that can be used, checked. -/
def readyB (g : Group) (rs : List Nat) : Bool := rs.all fun r => !g.regPending r && g.regOk r

theorem ready_of {g : Group} {rs : List Nat} (h : readyB g rs = true) : Ready g rs := by
  intro r hr
  have := List.all_eq_true.mp h r hr
  simpa using this

theorem alike_off {g : Group} {x : Core} {u : Bool} {t : LaneMask} {lo : Nat} {rs ps : List Nat}
    (h : (u && g.dbg) = false) : Alike g x u t lo rs ps := fun a b => by simp [a, b] at h

/-- A lane-wise form that runs, checked. -/
def runsB (s : State) (f : LaneForm) (t : LaneMask) (lo : Nat) : Bool :=
  turnB s f.c.p t lo && readyB (grpOf s) (f.reads ++ f.writes) && !(f.c.u && (grpOf s).dbg)

theorem runs_of {s : State} {f : LaneForm} {t : LaneMask} {lo : Nat} (h : runsB s f t lo = true) :
    FormRuns s f (grpOf s) t lo := by
  simp only [runsB, Bool.and_eq_true, Bool.not_eq_true'] at h
  exact ⟨turn_of h.1.1, ready_of h.1.2, alike_off h.2⟩

/-- A memory form that runs, checked. -/
def memRunsB (s : State) (f : MemForm) (t : LaneMask) (lo : Nat) : Bool :=
  turnB s f.c.p t lo && readyB (grpOf s) f.regs && f.fits &&
  decide ((if f.store then (grpOf s).cnt.st else (grpOf s).cnt.ld) < 31) && !(f.c.u && (grpOf s).dbg)

theorem memRuns_of {s : State} {f : MemForm} {t : LaneMask} {lo : Nat} (h : memRunsB s f t lo = true) :
    MemRuns s f (grpOf s) t lo := by
  simp only [memRunsB, Bool.and_eq_true, Bool.not_eq_true', decide_eq_true_eq] at h
  exact ⟨turn_of h.1.1.1.1, ready_of h.1.1.1.2, h.1.1.2, h.1.2, alike_off h.2⟩

theorem turn_base : Turn base .all (grpOf base) 1 0 := turn_of (by decide +kernel)

theorem next_of {s : State} {i : Instr} (h : after s i (fun _ => true) = true) : ∃ u, exec i s = .next u := by
  unfold after at h
  split at h
  · exact ⟨_, by assumption⟩
  · simp at h

/-- An entry of the operand log that can be tried again. -/
def entry : LogEntry :=
  { op := { id := 1, cls := .ld, pc := mkPtr 1 0, iword := 0, mask := 1, logged := true
            req := { kind := .ld, nt := false, u := false, size := .b32, dest := 12, lanes := 1, elems := [] } }
    st := .ready }

/-- `n` entries in the group's operand log. -/
def logged (n : Nat) (s : State) : State := withG (fun g => { g with log := List.replicate n entry }) s

/-- The group in deterministic mode. -/
def det (s : State) : State := withG (fun g => { g with det := true }) s

/-! ## One step of an instruction, on the spec's worked examples -/

/-- What lane 0 of register `d` holds after `i`, from lane 0's registers. -/
def result (i : Instr) (l : List (Nat × Word)) (d : Nat) : Option Word :=
  match exec i (regs l bare) with
  | .next t => some (rd t d 0)
  | _ => none

/-- R226's borderline results: the instruction of v4 and v5 into v6. -/
def borders : List (Instr × Word × Word × Word) := [
  (.iadd cc .s32 true 6 4 (.reg 5), 0x7FFFFFFF, 1, 0x7FFFFFFF), (.iadd cc .s32 false 6 4 (.reg 5), 0x7FFFFFFF, 1, 0x80000000),
  (.isub cc .z32 true 6 4 (.reg 5), 3, 5, 0), (.imul cc .s32 true 6 4 (.reg 5), 0x10000, 0x10000, 0x7FFFFFFF),
  (.imulh cc .s32 6 4 (.reg 5), 0xFFFFFFFF, 0xFFFFFFFF, 0), (.iabs cc .s32 false 6 4, 0x80000000, 0, 0x80000000),
  (.iabs cc .s32 true 6 4, 0x80000000, 0, 0x7FFFFFFF), (.ineg cc .s32 true 6 4, 0x80000000, 0, 0x7FFFFFFF),
  (.ineg cc .z32 true 6 4, 5, 0, 0), (.idiv cc .s32 6 4 (.reg 5), 0x80000000, 0xFFFFFFFF, 0x80000000),
  (.irem cc .s32 6 4 (.reg 5), 0x80000000, 0xFFFFFFFF, 0), (.idiv cc .s32 6 4 (.reg 5), 0xFFFFFFF9, 2, 0xFFFFFFFD),
  (.irem cc .s32 6 4 (.reg 5), 0xFFFFFFF9, 2, 0xFFFFFFFF), (.idiv cc .z32 6 4 (.reg 5), 7, 0, 0xFFFFFFFF),
  (.irem cc .z32 6 4 (.reg 5), 7, 0, 7)]

theorem test_integer_borders :
    (borders.all fun e => result e.1 [(4, e.2.1), (5, e.2.2.1)] 6 == some e.2.2.2) = true := by decide +kernel

/-- R228's second word: a carry comes in by p1 and leaves none. -/
theorem test_iaddc_carry :
    (match exec (.iaddc cc .b64 8 0 4 none 1) (regs [(0, 0xFFFFFFFF), (1, 0xFFFFFFFF), (2, 1), (4, 1)] bare) with
      | .next t => rd t 8 0 == 0 && rd t 9 0 == 0 && (grpOf t).pred (t.core 0) 1 0 &&
        (match exec (.iaddc cc .b64 10 2 6 (some 1) 1) t with
          | .next u => rd u 10 0 == 2 && rd u 11 0 == 0 && !(grpOf u).pred (u.core 0) 1 0
          | _ => false)
      | _ => false) = true := by decide +kernel

/-- R229's example. -/
theorem test_idot4_saturates :
    result (.idot4 cc false true true 6 4 4 5) [(4, 0x80808080), (5, 0x7FFFFFFF)] 6 = some 0x8000FFFF ∧
    result (.idot4 cc true true true 6 4 4 5) [(4, 0x80808080), (5, 0x7FFFFFFF)] 6 = some 0x7FFFFFFF := by decide +kernel

/-- R239's example: sixteen lanes, of which lane 6 takes no part. -/
theorem test_shfl_down :
    (let s : State := { bare with cur := { bare.cur with mask := 0xFFBF } }
     let s := s.putRegs 0 0 ((List.range 16).map fun l => (l, 1, BitVec.ofNat 32 (100 + l)))
     match exec (.shfl .all .b32 .down 2 1 (.imm 2) 2 (some 5)) s with
     | .next t => (List.range 16).map fun l => ((rd t 2 l).toNat, (grpOf t).pred (t.core 0) 5 l)
     | _ => []) =
    [(102, true), (103, true), (102, false), (103, false), (104, false), (107, true), (0, false), (107, false),
     (110, true), (111, true), (110, false), (111, false), (114, true), (115, true), (114, false), (115, false)] := by
  decide +kernel

/-- R255's conversions into E4M3, element by element. -/
theorem test_cvt_e4m3 :
    result (.cvt cc (.fmt 4 .rne true) 1 0 0 5 8) [(8, 0x3F800000)] 5 = some 0x38 ∧
    result (.cvt cc (.fmt 4 .rne true) 1 0 1 5 8) [(5, 0x38), (8, 0x43960000)] 5 = some 0x7938 ∧
    result (.cvt cc (.fmt 4 .rne true) 1 0 2 5 8) [(5, 0x7938), (8, 0xC47A0000)] 5 = some 0xFE7938 ∧
    result (.cvt cc (.fmt 4 .rne false) 1 0 3 5 8) [(5, 0xFE7938), (8, 0x7FC00000)] 5 = some 0x7FFE7938 := by
  refine ⟨?_, ?_, ?_, ?_⟩ <;> decide +kernel

/-- R217's example, lane 0: eight elements packed with the scale byte 0x61. -/
theorem test_npack :
    (match exec (.npack cc 0 40 8 32) (regs [(8, 0x41400000), (9, 0xC0500000), (10, 0x3F333333), (11, 0x40A00000),
        (12, 0x3F000000), (13, 0x41100000), (14, 0xC1300000), (32, 0x61)] bare) with
      | .next t => rd t 40 0 | _ => 0) = 0x0F6041B7 := by decide +kernel

/-- Both halves of a pair read before either writes (R4, R33): a swap. -/
theorem test_pair_swaps :
    (match exec (.pairMov false 4 5 (.op .mov false 5 4)) (regs [(4, 1), (5, 2)] bare) with
      | .next t => (rd t 4 0, rd t 5 0) | _ => (0, 0)) = (2, 1) := by decide +kernel

/-! ## States that meet the statements' hypotheses -/

/-! ## Concrete states that meet the statements' hypotheses -/

theorem witness_lanewise :
    laneForm (.iadd cc .s32 false 10 4 (.reg 5)) = some ⟨cc, [4, 5], [], [10], []⟩ ∧
    FormRuns base ⟨cc, [4, 5], [], [10], []⟩ (grpOf base) 1 0 ∧
    FormRuns base ⟨⟨true, .all⟩, [4, 5], [], [10], []⟩ (grpOf base) 1 0 :=
  ⟨rfl, runs_of (by decide +kernel), runs_of (by decide +kernel)⟩

theorem witness_lanewiseRegBounds :
    laneForm (.mov cc .b32 128 (.imm 1)) = some ⟨cc, [], [], [128], []⟩ ∧ Turn base .all (grpOf base) 1 0 ∧
    (∀ r ∈ [128], (grpOf base).regPending r = false) ∧ (∃ r ∈ [128], (grpOf base).regOk r = false) ∧
    (grpOf base).regOk 127 = true :=
  ⟨rfl, turn_base, by decide +kernel, by decide +kernel, by decide +kernel⟩

/-- Register v5 waits for an operation. -/
def pending : State := withG (fun g => { g with pend := [⟨g.vecOfs 5, 0⟩] }) base

theorem witness_lanewiseWaits : Turn pending .all (grpOf pending) 1 0 ∧
    ∃ r ∈ [4, 5] ++ [10], (grpOf pending).regPending r = true :=
  ⟨turn_of (by decide +kernel), by decide +kernel⟩

/-- Debug mode, lanes 0 and 1: v4 differs. -/
def debugged : State := let s : State := withG (fun g => { g with dbg := true }) base
  { s with cur := { s.cur with mask := 3 } }

theorem witness_lanewiseMismatch : Turn debugged .all (grpOf debugged) 3 0 ∧ Ready (grpOf debugged) ([4, 5] ++ [10]) ∧
    (grpOf debugged).dbg = true ∧
    ∃ l ∈ lanesOf 3, ∃ r ∈ [4, 5], (grpOf debugged).reg (debugged.core 0) r l ≠ (grpOf debugged).reg (debugged.core 0) r 0 :=
  ⟨turn_of (by decide +kernel), ready_of (by decide +kernel), by decide +kernel, by decide +kernel⟩

theorem witness_lanewiseFrame : base.curGroup = some (grpOf base) ∧
    ∃ u, exec (.mov cc .b32 10 (.imm 1)) base = .next u :=
  ⟨by decide +kernel, next_of (by decide +kernel)⟩

theorem witness_integer : FormRuns base
    ⟨cc, regsOf (tyWid .s64) 4 ++ srcRegs (tyWid .s64) (.imm 0xFFFFF), [], regsOf (tyWid .s64) 10, []⟩
    (grpOf base) 1 0 := runs_of (by decide +kernel)

theorem witness_carry : FormRuns base
    ⟨cc, regsOf .b64 4 ++ regsOf .b64 6, Slice0.optPred (some 1), regsOf .b64 10, [(2 : PReg).toNat]⟩
    (grpOf base) 1 0 := runs_of (by decide +kernel)

theorem witness_logic : FormRuns base
    ⟨cc, regsOf (tyWid .z32) 4 ++ srcRegs (tyWid .z32) (.reg 5), [], regsOf (tyWid .z32) 10, []⟩ (grpOf base) 1 0 ∧
    FormRuns base ⟨cc, regsOf (tyWid .s64) 4 ++ srcRegs (tyWid .s64) (.imm 0xFFFFF), [], regsOf (tyWid .s64) 10, []⟩
      (grpOf base) 1 0 :=
  ⟨runs_of (by decide +kernel), runs_of (by decide +kernel)⟩

/-- R29 and R230: a signed immediate count is sign-extended and, read unsigned, shifts everything out; one of 31
keeps the lowest bit; OR's immediate is zero-extended. -/
theorem test_logic_immediates :
    result (.shl cc .s32 6 4 (.imm 0xFFFFF)) [(4, 1)] 6 = some 0 ∧
    result (.shl cc .z32 6 4 (.imm 31)) [(4, 1)] 6 = some 0x80000000 ∧
    result (.or cc .b32 6 4 (.imm 0xFFFFF)) [(4, 0x80000000)] 6 = some 0x800FFFFF := by
  refine ⟨?_, ?_, ?_⟩ <;> decide +kernel

theorem witness_compareSelect :
    FormRuns base ⟨cc, regsOf (tyWid .s32) 4 ++ cmpRegs (tyWid .s32) (.reg 5), [], [], [(15 : PReg).toNat]⟩
      (grpOf base) 1 0 ∧
    FormRuns base ⟨cc, regsOf (tyWid .z64) 4 ++ cmpRegs (tyWid .z64) (.imm 0x7FFF), [], [], [(15 : PReg).toNat]⟩
      (grpOf base) 1 0 ∧
    FormRuns base ⟨cc, regsOf .b64 4 ++ selRegs .b64 (.reg 6 15), [selPred (.reg 6 15)], regsOf .b64 126, []⟩
      (grpOf base) 1 0 ∧
    FormRuns base ⟨cc, regsOf .b32 4 ++ selRegs .b32 (.imm 5 0), [selPred (.imm 5 0)], regsOf .b32 127, []⟩
      (grpOf base) 1 0 :=
  ⟨runs_of (by decide +kernel), runs_of (by decide +kernel), runs_of (by decide +kernel),
   runs_of (by decide +kernel)⟩

theorem witness_mov : FormRuns base ⟨cc, regsOf .b64 4, [], regsOf .b64 10, []⟩ (grpOf base) 1 0 ∧
    FormRuns base ⟨cc, [], [], regsOf .b32 10, []⟩ (grpOf base) 1 0 ∧
    FormRuns base ⟨⟨true, .all⟩, [4], [], [10], []⟩ (grpOf base) 1 0 :=
  ⟨runs_of (by decide +kernel), runs_of (by decide +kernel), runs_of (by decide +kernel)⟩

/-- NaNs of both signs, quiet and signalling, in v4 and v5. -/
def nans : State := regs [(4, 0x7F800001), (5, 0xFFFFFFFF)] base

theorem witness_floatNan : FormRuns nans ⟨cc, [4, 5], [], [10], []⟩ (grpOf nans) 1 0 ∧
    FormRuns nans ⟨cc, [4, 5, 6], [], [10], []⟩ (grpOf nans) 1 0 ∧
    (∀ l ∈ lanesOf 1, isNan32 ((grpOf nans).reg (nans.core 0) 4 l)) ∧
    ∀ l ∈ lanesOf 1, isNan32 ((grpOf nans).reg (nans.core 0) 5 l) :=
  ⟨runs_of (by decide +kernel), runs_of (by decide +kernel), by unfold isNan32; decide +kernel,
   by unfold isNan32; decide +kernel⟩

theorem witness_floatResults :
    FormRuns base ⟨cc, 4 :: fsrcRegs (.reg .rd ⟨true, true⟩ ⟨false, true⟩ 5), [], [10], []⟩ (grpOf base) 1 0 ∧
    FormRuns base ⟨cc, 4 :: fsrcRegs (.imm 0x3C00), [], [10], []⟩ (grpOf base) 1 0 ∧
    FormRuns base ⟨cc, 4 :: fsrcRegs3 (.reg .rz ⟨false, false⟩ ⟨false, false⟩ ⟨true, false⟩ 5 6), [], [10], []⟩
      (grpOf base) 1 0 ∧
    FormRuns base ⟨cc, 4 :: fsrcRegs3 (.imm 0x3C00 6), [], [10], []⟩ (grpOf base) 1 0 ∧
    (∃ f, cvtForm cc 10 4 (.fmt 4 .rne true) = some f ∧ FormRuns base f (grpOf base) 1 0) ∧
    fmtBits (4 : BitVec 4).toNat * ((3 : BitVec 2).toNat + 1) ≤ 32 :=
  ⟨runs_of (by decide +kernel), runs_of (by decide +kernel), runs_of (by decide +kernel),
   runs_of (by decide +kernel), ⟨_, rfl, runs_of (by decide +kernel)⟩, by decide +kernel⟩

/-- R247 and R248: two halves of a packed sum; the lesser of a NaN and 1.0 is 1.0, and of −0 and +0 it is −0. -/
theorem test_float_elements :
    result (.fadd cc .f16x2 6 4 (.reg .rne ⟨false, false⟩ ⟨false, false⟩ 5)) [(4, 0x3C004000), (5, 0x3C003C00)] 6 =
      some 0x40004200 ∧
    result (.fmin cc .f32 6 4 (.reg .rne ⟨false, false⟩ ⟨false, false⟩ 5)) [(4, 0x7FC00000), (5, 0x3F800000)] 6 =
      some 0x3F800000 ∧
    result (.fmin cc .f32 6 4 (.reg .rne ⟨false, false⟩ ⟨false, false⟩ 5)) [(4, 0), (5, 0x80000000)] 6 =
      some 0x80000000 := by
  refine ⟨?_, ?_, ?_⟩ <;> decide +kernel

theorem witness_pairs :
    pairHalves (.pairIadd true 4 5 (.op .fmul false 8 9)) = some (.op .iadd true 4 5, .op .fmul false 8 9) ∧
    base.curGroup = some (grpOf base) ∧ lowestLane base.cur.mask = some 0 ∧
    Ready (grpOf base) ([4, 5] ++ [4] ++ [8, 9] ++ [8]) ∧
    Alike (grpOf base) (base.core 0) true base.cur.mask 0 [4, 5] [] ∧
    Alike (grpOf base) (base.core 0) false base.cur.mask 0 [8, 9] [] :=
  ⟨rfl, by decide +kernel, by decide +kernel, ready_of (by decide +kernel), alike_off (by decide +kernel),
   alike_off (by decide +kernel)⟩

theorem witness_pairRegBounds :
    pairHalves (.pairMov false 128 5 .nop) = some (.op .mov false 128 5, .nop) ∧
    (∀ r ∈ [5] ++ [128] ++ [] ++ [], (grpOf base).regPending r = false) ∧
    ∃ r ∈ [5] ++ [128] ++ [] ++ [], (grpOf base).regOk r = false :=
  ⟨rfl, by decide +kernel, by decide +kernel⟩

/-- A NOP stands where the group fetches next. -/
def coded (a : List Act) : State :=
  { bare with agenda := a, mem := memStore objects 0x10000 (bytesOfNat 8 0x7200000000000000) }

/-- The premises of a fetched word. -/
def fetches (s : State) (c k : Nat) (r : List Act) (f w : DWord) : Bool :=
  match s.group c k with
  | none => false
  | some g =>
    let s0 : State := { s.tick with agenda := r }
    !s0.stopping g.team && !g.trap && g.asyncRec.isNone && g.arrWait.isNone && g.closing == .none &&
    g.parked.isNone && (g.log.all fun e => e.st != .ready) &&
    (g.lanes.all fun x => !x.yielded && x.buf.isNone) &&
    leastPc ((g.lanes.filter fun x => x.st == .run).map Lane.pc) == some f &&
    (match (s0.setGroup c k { g with bufTurn := true }).fetch c g.ctx f with
     | .word v => v == w
     | _ => false)

theorem witness_stepRunsDecoded :
    decode 0x7200000000000000#64 = .ok (.nop .all) ∧
    fetches (coded [.issue 0 0]) 0 0 [] (mkPtr 1 0) 0x7200000000000000 = true ∧
    fetches (coded []) 0 0 [] (mkPtr 1 0) 0x7200000000000000 = true :=
  ⟨by decide +kernel, by decide +kernel, by decide +kernel⟩

/-- The group parked at a NOP. -/
def parkedAt : State :=
  withG (fun g => { g with parked := some ⟨1, mkPtr 1 0, 0x7200000000000000⟩ }) (coded [.issue 0 0])

theorem witness_stepParked : parkedAt.agenda = [.issue 0 0] ∧ ∃ g, parkedAt.group 0 0 = some g ∧
    State.stopping { parkedAt.tick with agenda := [] } g.team = false ∧ g.trap = false ∧ g.asyncRec = none ∧
    g.arrWait = none ∧ g.closing = .none ∧ (∀ e ∈ g.log, e.st ≠ .ready) ∧ g.parked = some ⟨1, mkPtr 1 0, 0x7200000000000000⟩ :=
  ⟨rfl, grpOf parkedAt, by decide +kernel, by decide +kernel, by decide +kernel, by decide +kernel,
   by decide +kernel, by decide +kernel, by decide +kernel, by decide +kernel⟩

/-- The group parked while the boundary unit works for it, a trap pending (R309). -/
def atUnit : State :=
  (parkedAt.updGroup 0 0 fun g => { g with trap := true }).updCore 0 fun x =>
    { x with boundary := some { slot := 0, job := 1, since := 0, sent := true, pending := [], acked := []
                                hostWait := 0 } }

theorem witness_stepAtUnit : atUnit.agenda = [.issue 0 0] ∧ ((atUnit.group 0 0).bind Group.parked).isSome = true ∧
    ((atUnit.core 0).boundary.map Boundary.slot) = some 0 := ⟨rfl, by decide +kernel, by decide +kernel⟩

/-- R43, R44 and the worked example of R34: three registers of port 0. -/
theorem witness_illegalWord :
    decode 0x7F00000000000000#64 = .error .illegalOp ∧ decode 0x86040500A2080900#64 = .error .illegalOp ∧
    decode 0x86040800220C0900#64 = .error .illegalPair ∧
    parse 0x86040800220C0900#64 = some (.pairIadd false 4 8 (.op .fmul false 12 9)) ∧
    encode (.pairIadd false 4 8 (.op .fmul false 12 9)) = some 0x86040800220C0900#64 ∧
    (Instr.pairIadd false 4 8 (.op .fmul false 12 9)).fieldsOk = true ∧
    (Instr.pairIadd false 4 8 (.op .fmul false 12 9)).pairingOk = false :=
  ⟨by decide +kernel, by decide +kernel, by decide +kernel, by decide +kernel, by decide +kernel,
   by decide +kernel, by decide +kernel⟩

/-- A firmware group in slot 64 of core 0, at its turn, with registers set. -/
def fw (l : List (Nat × Word)) (s : State) : State :=
  regs l ({ s.setGroup 0 64 { grp with fw := true } with cur := { s.cur with slot := 64 } } : State)

theorem witness_predicate : predOf (.iadd ⟨false, .on false 1⟩ .s32 false 1 2 (.imm 3)) = some (.on false 1) ∧
    Nobody base (.on false 1) (grpOf base) ∧ predOf (.swrite (.on false 1) .core 1 0x0D) = some (.on false 1) ∧
    Nobody (fw [] base) (.on false 1) (grpOf (fw [] base)) ∧ (grpOf (fw [] base)).fw = true :=
  ⟨rfl, ⟨by decide +kernel, by decide +kernel⟩, rfl, ⟨by decide +kernel, by decide +kernel⟩, by decide +kernel⟩

theorem witness_privileged : privileged (.eretRetry (.on false 1) 128 4) = true ∧
    base.curGroup = some (grpOf base) ∧ (grpOf base).fw = false := ⟨rfl, by decide +kernel, by decide +kernel⟩

theorem witness_slotForms :
    slotForm (grpOf base).slot (.npack cc 0 40 16 4) = some (⟨cc, 4 :: eight 16, [], [40], []⟩, 0, true) ∧
    FormRuns base ⟨cc, 4 :: eight 16, [], [40], []⟩ (grpOf base) 1 0 ∧ slotOk ((grpOf base).slot 0) = true ∧
    slotForm (grpOf base).slot (.scaleq cc 1 40 16) = some (⟨cc, eight 16, [], [40], []⟩, 1, false) ∧
    Ready (grpOf base) (eight 16 ++ [40]) ∧ (slotOk ((grpOf base).slot 3) && true) = false :=
  ⟨by rfl, runs_of (by decide +kernel), by decide +kernel, by rfl,
   ready_of (by decide +kernel), by decide +kernel⟩

/-- The record of R223's example at scratchpad address 0, its base object 2. -/
def recorded : State :=
  regs [(4, 0)] (base.storeScr 0 0 0 1 0 (bytesOfWords
    [mkPtr 2 0, 0, 0x101, 64 + 64 * 2 ^ 32, 1 + 2 ^ 32, 128, 0, 0]))

theorem witness_seal : Turn recorded .all (grpOf recorded) 1 0 ∧ Ready (grpOf recorded) [4, 40] ∧
    (grpOf recorded).cnt.ld < 31 ∧ ∀ l ∈ lanesOf 1,
      let p := ((grpOf recorded).reg (recorded.core 0) 4 l).toNat
      p % 64 = 0 ∧ p + 64 ≤ recorded.scrSize (grpOf recorded).team 0 ∧
      recorded.present 0 (grpOf recorded).team p = true :=
  ⟨turn_of (by decide +kernel), ready_of (by decide +kernel), by decide +kernel, by decide +kernel⟩

/-- The record found ill-formed in a state. -/
def badIn (s : State) : Option Nat :=
  ((s.badRec 0 (grpOf s) (s.core 0).desc [(0, s.recAt 0 (grpOf s).team 0)]).1).map Prod.fst

/-- It can be sealed; with nothing stored there it cannot. -/
theorem witness_sealBad : badIn recorded = none ∧ badIn (regs [(4, 0)] base) = some 0 :=
  ⟨by decide +kernel, by decide +kernel⟩

/-- Handle 5 is team 1's. -/
def handled : State := base.updCore 0 fun x => { x with handles := [(5, { team := 1, words := [], slot := 3 })] }

theorem witness_sealRel : Turn handled .all (grpOf handled) 1 0 ∧ Ready (grpOf handled) [4] ∧
    ∀ l ∈ lanesOf 1, ((grpOf handled).reg (handled.core 0) 4 l).toNat ≤ 255 ∧
      (tabFind (handled.core 0).handles ((grpOf handled).reg (handled.core 0) 4 l).toNat).map Handle.team =
        some (grpOf handled).team :=
  ⟨turn_of (by decide +kernel), ready_of (by decide +kernel), by decide +kernel⟩

theorem witness_hqry : Ready (grpOf base) [4, 10, 10 + 1] := ready_of (by decide +kernel)

theorem witness_sread : srWidth 0x10 = some .b64 ∧ Ready (grpOf base) (regsOf .b64 10) ∧
    (grpOf base).det = false ∧ Turn (det base) .all (grpOf (det base)) 1 0 ∧ (grpOf (det base)).det = true ∧
    Ready (grpOf (det base)) (regsOf .b64 10) :=
  ⟨rfl, ready_of (by decide +kernel), by decide +kernel, turn_of (by decide +kernel), by decide +kernel,
   ready_of (by decide +kernel)⟩

/-- Firmware of core 0: v4 is 0 and v5 is 63. -/
def fw0 : State := fw [(4, 0), (5, 63)] base

theorem witness_swrite : Turn fw0 .all (grpOf fw0) 1 0 ∧ (grpOf fw0).fw = true ∧ fw0.cur.core < 256 ∧
    Ready (grpOf fw0) [4, 5] ∧ (∃ q, fw0.group 0 (((grpOf fw0).reg (fw0.core 0) 4 0).toNat % 64) = some q) ∧
    fw0.group 0 (((grpOf fw0).reg (fw0.core 0) 5 0).toNat % 64) = none :=
  ⟨turn_of (by decide +kernel), by decide +kernel, by decide +kernel, ready_of (by decide +kernel),
   ⟨grpOf base, by decide +kernel⟩, by decide +kernel⟩

theorem witness_view : Ready (grpOf base) [4] ∧ (grpOf base).pend = [] ∧ 64 * (1 : BitVec 16).toNat % (4 * 16) = 0 ∧
    64 * (0x8100 : BitVec 16).toNat % 16384 = 0 ∧
    ((grpOf base).reg (base.core 0) 4 0).toNat % 2 ^ 22 % (4 * (grpOf base).width) ≠ 0 :=
  ⟨ready_of (by decide +kernel), by decide +kernel, by decide +kernel, by decide +kernel, by decide +kernel⟩

/-- A REG segment word: BASE, SIZE. -/
def seg (b n : Nat) : List (Nat × Word) := [(8, BitVec.ofNat 32 b), (9, BitVec.ofNat 32 n)]

/-- Slot 0's group held by a trap, and slot 1 the same group with the rows from 0x4000 on. -/
def held : State :=
  let s : State := base.updGroup 0 0 fun g => { g with trap := true }
  s.setGroup 0 1 { grp with segReg := ⟨0x4000, 0x1000⟩, segMat := ⟨0x200000, 0⟩ }

/-- What SEGSET sees for slot 0: the rows asked for, all free or the target's own. -/
def segFits (s : State) : Bool :=
  let g := grpOf s
  let x := s.core 0
  let v := pairUp (g.reg x 8 0) (g.reg x 9 0)
  match s.group 0 0 with
  | some q => x.segOk .reg v && (segRows .reg (v.extractLsb' 0 22).toNat (v.extractLsb' 32 22).toNat).all fun r =>
      x.rowFree r || (segRows .reg q.segReg.base.toNat q.segReg.size.toNat).contains r
  | none => false

/-- The premises of each answer of SEGSET: 1 (slot 64; a reserved bit), 2 (a target that may issue), 3 (rows
of another group), 0 (up to the last row before the other group). -/
theorem witness_segset :
    let a := fw (seg 0 0x2000 ++ [(5, 64), (6, 0)]) base
    let b := fw (seg 0x800000 0x2000 ++ [(6, 0)]) base
    let c := fw (seg 0 0x4000 ++ [(6, 0)]) held
    let d := fw (seg 0 0x3800 ++ [(6, 0)]) held
    Turn a .all (grpOf a) 1 0 ∧ (grpOf a).fw = true ∧ Ready (grpOf a) [8, 8 + 1, 5, 10] ∧
    64 ≤ ((grpOf a).reg (a.core 0) 5 0).toNat ∧ (b.core 0).segOk .reg (pairUp (rd b 8 0) (rd b 9 0)) = false ∧
    (a.core 0).segOk .reg (pairUp (rd a 8 0) (rd a 9 0)) = true ∧
    ((a.group 0 0).map Group.trap) = some false ∧ ((c.group 0 0).map Group.trap) = some true ∧
    (c.core 0).segOk .reg (pairUp (rd c 8 0) (rd c 9 0)) = true ∧ segFits c = false ∧ segFits d = true ∧
    ((d.group 0 0).map fun q => q.flight.isEmpty && q.streams.all List.isEmpty) = some true :=
  ⟨turn_of (by decide +kernel), by decide +kernel, ready_of (by decide +kernel), by decide +kernel,
   by decide +kernel, by decide +kernel, by decide +kernel, by decide +kernel, by decide +kernel,
   by decide +kernel, by decide +kernel, by decide +kernel⟩

/-- SEGSET's wait: the target's stream 0 holds an operation. -/
theorem witness_segsetDue :
    let s : State := (fw (seg 0 0x3800 ++ [(6, 0)]) held).updGroup 0 0 fun g => { g with streams := [[
      { kind := .zero 1, acc := 0, seq := 3, pc := 0, iword := 0, lane := 0, views := g.views }], [], [], [], []] }
    segFits s = true ∧ ((s.group 0 0).map fun q => q.streams.any fun l => !l.isEmpty) = some true := by
  refine ⟨?_, ?_⟩ <;> decide +kernel

/-- RCOPY from window offset 0 to 0x1F80, of one row: the window's last row, and one past it; 0x1F00 + 64 is
misaligned. -/
def copied (dst : Word) : State := regs [(4, 0), (5, dst)] base

theorem witness_rcopy : Turn (copied 0x1F80) .all (grpOf (copied 0x1F80)) 1 0 ∧
    Ready (grpOf (copied 0x1F80)) [4, 5] ∧ (grpOf (copied 0x1F80)).cnt.tl < 31 ∧
    (grpOf (copied 0x1F80)).inWindow 0 128 = true ∧ (grpOf (copied 0x1F80)).inWindow 0x1F80 128 = true ∧
    (grpOf (copied 0x1F80)).writesTo [(0, 128), (0x1F80, 0x1F80 + 128)] = false ∧
    (∀ i < 1, (grpOf (copied 0x1F80)).rowQuiet ((copied 0x1F80).core 0) (0 + 128 * i) = true ∧
      (grpOf (copied 0x1F80)).rowQuiet ((copied 0x1F80).core 0) (0x1F80 + 128 * i) = true) ∧
    (rd (copied 0x2000) 5 0).toNat % 128 = 0 ∧ (grpOf (copied 0x2000)).inWindow 0x2000 128 = false ∧
    (rd (copied 0x1F40) 5 0).toNat % 128 ≠ 0 :=
  ⟨turn_of (by decide +kernel), ready_of (by decide +kernel), by decide +kernel, by decide +kernel,
   by decide +kernel, by decide +kernel, by decide +kernel, by decide +kernel, by decide +kernel,
   by decide +kernel⟩

/-- An RCOPY's words still to be written. -/
theorem witness_rcopyStep :
    let s := withG (fun g => { g with streams := [[], [], [], [], [
      { kind := .rest [] [] none, acc := 0, seq := 3, pc := 0, iword := 0, lane := 0, views := g.views }]] }) base
    ((s.group 0 0).bind fun q => q.streams[4]?.bind List.head?).map MOp.kind = some (.rest [] [] none) := by
  decide +kernel

/-! ### Memory -/

/-- A global access of lane 0 of the group at its turn, with its form and what its checks answer. -/
def access (s : State) (i : Instr)
    (ok : MemForm → Except TrapInfo (List Hit × Option (Nat × Nat)) × State → Bool) : Bool :=
  match memForm (grpOf s) (s.core 0) 1 0 i with
  | some f => memRunsB s f 1 0 && f.space == .glb && !scribesOwn 0 (grpOf s).fw f.cands &&
      ok f (s.checkGlb 0 (grpOf s).ctx f.req.size.bytes (if f.store then needStore else needLoad) f.cands)
  | none => false

/-- The checks pass, every extent is present, and `p` holds of each access in the state after. -/
def admitted (p : Nat → State → Hit → Bool) (f : MemForm)
    (r : Except TrapInfo (List Hit × Option (Nat × Nat)) × State) : Bool :=
  match r with
  | (.ok (hs, none), s1) => !hs.isEmpty && hs.all (p f.req.size.bytes s1)
  | _ => false

/-- The access's bytes are (or are not) in core 0's L1. -/
def inL1 (hit : Bool) (n : Nat) (s : State) (h : Hit) : Bool :=
  h.d.type != some .comm && (s.core 0).holds (h.e.pa / 128) (maskOf (h.e.pa % 128) n) == hit

/-- A line of core 0's L1, whole, clean. -/
def cached (line : Nat) (s : State) : State :=
  s.updCore 0 fun x => { x with l1 := [{ line := line, way := 0, data := 0, valid := BitVec.allOnes 128, dirty := 0
                                         ver := some 0, full := true, drop := false, mark := false, poison := 0
                                         age := 0, host := false }] }

def load (z : ASize) (a : Reg) : Instr := .ld cc ⟨false, .glb, z, 0⟩ 12 a
def store (nt : Bool) (z : ASize) (a : Reg) : Instr := .st cc ⟨nt, .glb, z, 0⟩ a 4

/-- LD of object 2: a miss, and a hit; of object 3, whose home can answer. Outside deterministic mode the
conflict detector records nothing (`Recorded` holds of the state itself). -/
theorem witness_globalLoad :
    access base (load .b32 6) (admitted (inL1 false)) = true ∧
    access (cached 0x400 base) (load .b64 6) (admitted (inL1 true)) = true ∧
    access base (load .z16 8) (admitted fun n s h => h.d.type == some .comm && s.homeReady (h.e.pa / 128) &&
      !s.behind (dieOf 0, lineDie (h.e.pa / 128)) (s.steps + 1) &&
      (s.combineBad (h.e.pa / 128)).isNone && !s.poisoned h.e.pa n) = true ∧ (grpOf base).det = false ∧
    (grpOf base).logStall = none ∧ ∀ n es, (grpOf base).behindLog 7 n es = false := by
  refine ⟨by decide +kernel, by decide +kernel, by decide +kernel, by decide +kernel, by decide +kernel, ?_⟩
  intro n es
  unfold Group.behindLog
  rw [show (grpOf base).log = [] from by decide +kernel]
  rfl

theorem recorded_refl (a : Actor) (g : Group) (st : Bool) (n : Nat) (hs : List Hit) (s : State)
    (h : g.det = false) : Recorded a g st n hs s s := ⟨fun _ => rfl, fun h' => by simp [h] at h'⟩

/-- No bank is a way of L1. -/
def wayless : State := base.updCore 0 fun x => { x with roles := { x.roles with cache := [] } }

/-- ST of object 2: past the L1, into a line it holds, into a new line; and where no way is free. -/
theorem witness_globalStore :
    access base (store true .b32 6) (admitted fun _ _ _ => true) = true ∧
    access (cached 0x400 base) (store false .b32 6) (admitted fun _ s h =>
      ((s.core 0).copy (h.e.pa / 128)).isSome) = true ∧
    access base (store false .b32 6) (fun f r => match r with
      | (.ok (hs, none), s) => (s.storeLines 0 f.req.size.bytes hs (dedup (hs.map fun h => h.e.pa / 128))).isOk
      | _ => false) = true ∧
    access wayless (store false .b32 6) (fun f r => match r with
      | (.ok (hs, none), s) => !(s.storeLines 0 f.req.size.bytes hs (dedup (hs.map fun h => h.e.pa / 128))).isOk
      | _ => false) = true :=
  ⟨by decide +kernel, by decide +kernel, by decide +kernel, by decide +kernel⟩

/-- A core that can take its capacity point, and one whose boundary unit is at work. -/
theorem witness_canPublish : wayless.canPublish 0 = true ∧ (State.canPublish (wayless.updCore 0 fun x =>
    { x with boundary := some { slot := 0, job := 3, since := 0, sent := true, pending := [0x400], acked := []
                                hostWait := 0 } }) 0) = false := by
  refine ⟨?_, ?_⟩ <;> decide +kernel

theorem witness_globalStoreFrame : ∃ u, exec (store false .b32 6) (cached 0x400 base) = .next u :=
  next_of (by decide +kernel)

/-- A group that stalled on the extent of object 5 with its log full, `n` entries being left. -/
def stalledLog (n : Nat) : State := withG (fun g => { g with logStall := some (5, 0) }) (logged n base)

/-- A refused access (object 0), and one whose extent is absent (object 5), the log with room and full. -/
theorem witness_globalRefusedOrLogged :
    access base (load .b32 0) (fun _ r => match r with | (.error _, _) => true | _ => false) = true ∧
    access base (store false .b32 12) (fun _ r => match r with | (.ok (_, some _), _) => true | _ => false) = true ∧
    (grpOf base).log.length < 4 ∧
    4 ≤ (grpOf (logged 4 base)).log.length ∧ (grpOf (stalledLog 3)).logStall = some (5, 0) ∧
    (grpOf (stalledLog 3)).log.length < 4 ∧ 4 ≤ (grpOf (stalledLog 4)).log.length ∧
    access (stalledLog 3) (store false .b32 12) (fun _ _ => true) = true :=
  ⟨by decide +kernel, by decide +kernel, by decide +kernel, by decide +kernel, by decide +kernel,
   by decide +kernel, by decide +kernel, by decide +kernel⟩

/-- A scratchpad access of lane 0. -/
def near (s : State) (i : Instr) (ok : MemForm → Except TrapInfo (List Spot) → Bool) : Bool :=
  match memForm (grpOf s) (s.core 0) 1 0 i with
  | some f => memRunsB s f 1 0 && f.space == .scr &&
      ok f (s.spots 0 (grpOf s).team false f.req.size.bytes f.elems)
  | none => false

/-- Where the bytes are present, the detector's answer included. -/
def present (s : State) (f : MemForm) (r : Except TrapInfo (List Spot)) : Bool :=
  match r with
  | .ok ps => !ps.isEmpty && ps.all fun p => s.present p.2.1 p.2.2.1 p.2.2.2 &&
      (s.scrBad p.2.1 p.2.2.1 p.2.2.2 f.req.size.bytes).isNone
  | _ => false

/-- v4 holds a scratchpad address. -/
def at4 (a : Word) : State := regs [(4, a)] base

/-- The line of address 0 is absent. -/
def absent0 : State := match (at4 0).scrRow 0 1 0 with
  | some k => (at4 0).updCore 0 fun x => { x with presClr := [k] }
  | none => at4 0

def ldScr : Instr := .ld cc ⟨false, .scr, .b32, 0⟩ 12 4
def stScr : Instr := .st cc ⟨false, .scr, .b32, 0⟩ 4 5

/-- The last word of the scratchpad; one past it; a misaligned one; an absent line; deterministic mode. -/
theorem witness_scratch :
    near (at4 0x7FFC) ldScr (present (at4 0x7FFC)) = true ∧ near (at4 0x7FFC) stScr (present (at4 0x7FFC)) = true ∧
    near (at4 0x8000) ldScr (fun _ r => match r with | .error _ => true | _ => false) = true ∧
    near (at4 2) stScr (fun _ r => match r with | .error _ => true | _ => false) = true ∧
    near absent0 ldScr (fun _ r => match r with
      | .ok ps => ps.any fun p => !absent0.present p.2.1 p.2.2.1 p.2.2.2 | _ => false) = true ∧
    near (det (at4 0)) stScr (fun f r => match r with
      | .ok ps => (match (det (at4 0)).detScr (grpOf (det (at4 0))).sigName f.store f.req.size.bytes ps with
        | .ok _ => true | _ => false)
      | _ => false) = true :=
  ⟨by decide +kernel, by decide +kernel, by decide +kernel, by decide +kernel, by decide +kernel,
   by decide +kernel⟩

theorem witness_firstAccess :
    ((addrElem 6 0 0 0).ptr.toNat % 4 ≠ 0) ∧ (addrElem 0x7FFE 0 0 0).ptr.toNat % 2 = 0 ∧
    base.scrSize 1 0 < (addrElem 0x8000 0 0 0).ptr.toNat + 1 ∧
    ¬ base.scrSize 1 0 < (addrElem 0x7FFF 0 0 0).ptr.toNat + 1 :=
  ⟨by decide +kernel, by decide +kernel, by decide +kernel, by decide +kernel⟩

/-- Queue 0 enabled, 4-byte entries, two deep, `n` of them held; v4 names its data. -/
def fifo (n : Nat) : State := (at4 0).updCore 0 fun x =>
  { x with fifos := { base := 0, depth := 2, esz := 0, en := true, count := n, head := 0 } :: x.fifos.drop 1 }

def fifoForm (s : State) (store : Bool) : MemForm :=
  plainMem cc ⟨false, .fifo, .b32, 0⟩ store 5 4 (grpOf s) (s.core 0) 1 0

def fifoAccs (s : State) (store : Bool) : List FAcc :=
  (fifoForm s store).elems.map fun e => ⟨e.lane, e.ptr.toNat, e.data.toNat⟩

/-- The queue not full and full, holding an entry and empty, and disabled. -/
theorem witness_fifo :
    MemRuns (fifo 1) (fifoForm (fifo 1) true) (grpOf (fifo 1)) 1 0 ∧
    MemRuns (fifo 1) (fifoForm (fifo 1) false) (grpOf (fifo 1)) 1 0 ∧
    ((fifoAccs (fifo 1) true).all fun q => !((fifo 1).core 0).fifoBad .b32 true (fifoAccs (fifo 1) true) q) = true ∧
    (((fifo 1).core 0).fifoSts (fifoAccs (fifo 1) true)).isSome = true ∧
    (((fifo 2).core 0).fifoSts (fifoAccs (fifo 2) true)).isNone = true ∧
    (((fifo 1).core 0).fifoLds (fifoAccs (fifo 1) false)).isSome = true ∧
    (((fifo 0).core 0).fifoLds (fifoAccs (fifo 0) false)).isNone = true ∧
    ((fifoAccs (at4 0) true).find? fun q => ((at4 0).core 0).fifoBad .b32 true (fifoAccs (at4 0) true) q).isSome =
      true :=
  ⟨memRuns_of (by decide +kernel), memRuns_of (by decide +kernel), by decide +kernel, by decide +kernel,
   by decide +kernel, by decide +kernel, by decide +kernel, by decide +kernel⟩

/-! ### Atomics, CADD and ink -/

/-- A global atomic of lane 0. -/
def atomic (s : State) (i : Instr)
    (ok : MemForm → Except TrapInfo (List Hit × Option (Nat × Nat)) × State → Bool) : Bool :=
  match atomForm (grpOf s) (s.core 0) 1 0 i with
  | some f => memRunsB s f 1 0 && f.space == .glb &&
      ok f (s.checkGlb 0 (grpOf s).ctx f.req.size.bytes needAtomic f.cands)
  | none => false

def atom (a : Reg) : Instr := .atom cc ⟨.glb, .b32, 0⟩ .add 12 a 4

theorem witness_atomicIssues :
    atomic base (atom 6) (fun _ r => match r with | (.ok (_, none), _) => true | _ => false) = true ∧
    atomic base (atom 8) (fun _ r => match r with | (.error _, _) => true | _ => false) = true ∧
    atomic base (.red cc ⟨.glb, .b64, 0⟩ .umax 12 4) (fun _ r => match r with
      | (.ok (_, some _), _) => true | _ => false) = true ∧ (grpOf base).log.length < 4 :=
  ⟨by decide +kernel, by decide +kernel, by decide +kernel, by decide +kernel⟩

/-- A scratchpad atomic of lane 0. -/
def atomicNear (s : State) (i : Instr) (ok : MemForm → Except TrapInfo (List Spot) → Bool) : Bool :=
  match atomForm (grpOf s) (s.core 0) 1 0 i with
  | some f => memRunsB s f 1 0 && f.space == .scr &&
      ok f (s.spots 0 (grpOf s).team false f.req.size.bytes f.elems)
  | none => false

def atomScr : Instr := .atcas cc ⟨.scr, .b32, 0⟩ 12 4 6

theorem witness_atomicScratch :
    atomicNear (at4 0x7FFC) atomScr (present (at4 0x7FFC)) = true ∧
    atomicNear (at4 0x8000) atomScr (fun _ r => match r with | .error _ => true | _ => false) = true ∧
    atomicNear absent0 atomScr (fun _ r => match r with
      | .ok ps => ps.any fun p => !absent0.present p.2.1 p.2.2.1 p.2.2.2 | _ => false) = true :=
  ⟨by decide +kernel, by decide +kernel, by decide +kernel⟩

/-- A request of two lanes at word 0x20000 of die 0, by way of its home slice. -/
def request : AtomReq :=
  { core := 0, slot := 0, gid := 1, flight := 7, kind := .atom .add, wid := .b32, pa := 0x20000
    lanes := [{ addrElem 0 0 0 3 with pa := 0x20000 }, { addrElem 0 2 0 4 with pa := 0x20000 }], apl := 1, go := false
    sent := 0 }

/-- Its operation in flight, of kind `k`. -/
def requested (k : MemKind) : State :=
  { withG (fun g => { g with flight := [{ entry.op with
      id := 7, req := { entry.op.req with kind := k, lanes := 5, elems := request.lanes } }] }) base with
    atoms := [request] }

theorem witness_atomicPerformed : let s := requested (.atom .add)
    s.atoms[0]? = some request ∧ (∀ v ∈ s.atoms.take 0, ¬ (v.core = request.core ∧ v.pa = request.pa)) ∧
    s.homeReady (request.pa / 128) = true ∧ s.behind request.route request.sent = false ∧
    (request.apl = 2 → request.go = true) ∧ request.route.1 = request.route.2 ∧
    s.poisoned request.pa (request.wid.bits / 8) = false ∧
    ((s.group 0 0).bind fun g => g.flight.find? fun f => f.id == request.flight && g.team == request.gid).isSome =
      true ∧ ((base.group 0 0).bind fun g => g.flight.find? fun f => f.id == request.flight) = none := by
  refine ⟨rfl, ?_, ?_, ?_, ?_, ?_, ?_, ?_, ?_⟩ <;> decide +kernel

/-- R200's order: lanes 0 and 2 add 3 and 4 to the word at 0x20000; the second's old value is 3. -/
theorem test_atomic_order : after (requested (.atom .add)) (.atomicRequest 0) (fun t =>
    memNat t.mem 0x20000 4 == 7 && rd t 12 0 == 0 && rd t 12 2 == 3) = true := by decide +kernel

/-- CADD of lane 0 through pair `a` of `s`. -/
def cadd (s : State) (a : Reg) (ok : Except TrapInfo (List (Elem × Desc)) × DCache → Bool) : Bool :=
  let f := caddForm cc a 4 0 (grpOf s) (s.core 0) 1 0
  memRunsB s f 1 0 && ok (s.caddAdmit 0 (grpOf s).ctx (s.core 0).desc f.cands)

/-- Where CADD finds its partial lines: one, or none where no bank is a way. -/
def caddLines (s : State) (r : Except TrapInfo (List (Elem × Desc)) × DCache) : Option Bool :=
  match r with
  | (.ok l, dc) => (match (s.setDesc 0 dc).reach 0 (grpOf s).ctx l with
    | .ok (hs, none) =>
      let u := (s.setDesc 0 dc).extentsMet 0 (grpOf s).ctx l
      some (u.caddAll 0 hs (dedup (hs.map fun h => h.e.pa))).isOk
    | _ => none)
  | _ => none

theorem witness_cadd :
    cadd base 8 (fun r => caddLines base r == some true) = true ∧
    cadd wayless 8 (fun r => caddLines wayless r == some false) = true ∧
    cadd base 6 (fun r => match r with | (.error _, _) => true | _ => false) = true ∧
    cadd base 24 (fun r => match r with
      | (.ok l, _) => (match base.reach 0 0 l with | .ok (_, some _) => true | _ => false)
      | _ => false) = true :=
  ⟨by decide +kernel, by decide +kernel, by decide +kernel, by decide +kernel⟩

/-- An ink instruction of lane 0, the device its own. -/
def inked (s : State) (i : Instr)
    (ok : Except TrapInfo (List (Elem × Option Desc)) × DCache → Bool) : Bool :=
  match inkForm (grpOf s) (s.core 0) 1 0 i with
  | some (op, f, ks) => memRunsB s f 1 0 && ok (s.inkAdmit 0 (grpOf s).ctx op (s.core 0).desc ks)
  | none => false

theorem witness_ink :
    inked base (.inkp cc 12 10 4 16 2) (fun r => match r with
      | (.ok l, _) => (base.inkReach 0 0 l).2.isNone && !(base.inkReach 0 0 l).1.isEmpty | _ => false) = true ∧
    inked base (.inkc cc 12 6 16 0) (fun r => match r with | (.error _, _) => true | _ => false) = true ∧
    inked base (.inkrH cc 12 26 16 0) (fun r => match r with
      | (.ok l, _) => (base.inkReach 0 0 l).2.isSome | _ => false) = true :=
  ⟨by decide +kernel, by decide +kernel, by decide +kernel⟩

/-- The cell words of R112 in both states, and the last generation. -/
theorem witness_inkCell : inkState 0 = 0 ∧ inkGen 0 = 0 ∧ inkState (dryWord 5 0 1 2) = 1 ∧
    inkGen (dryWord 5 0 1 2) = 5 ∧ inkGen (dryWord (2 ^ 30 - 2) 0 1 2) < 2 ^ 30 - 1 ∧
    ¬ inkGen (dryWord (2 ^ 30 - 1) 0 1 2) < 2 ^ 30 - 1 := by decide +kernel

/-! ### Caches, the copy engine, timelines and barrier objects -/

/-- What the checks of PREF or CFLUSH through pair `a` answer, with `need`. -/
def touches (s : State) (a : Reg) (need : Need) : Option Bool :=
  let ks := [glbCand ((grpOf s).pair (s.core 0) a.toNat 0) 0 0 0 0]
  match s.admitHits 0 (grpOf s).ctx 4 need (s.core 0).desc ks with
  | (.ok l, _) => (match s.reach 0 (grpOf s).ctx l with
    | .ok _ => some (!scribesOwn 0 (grpOf s).fw ks)
    | _ => none)
  | (.error _, _) => some false

/-- The boundary unit's work for slot 0 as publication 3, done. -/
def unitDone : Boundary :=
  { slot := 0, job := 3, since := 0, sent := true, pending := [], acked := [(0x400, 1)], hostWait := 0 }

/-- Core 0's boundary unit works for slot 0, and one publication is acknowledged. -/
def acknowledged (s : State) : State :=
  s.updCore 0 fun x => { x with boundary := some unitDone }

theorem unitFree_base : UnitFree base := ⟨by decide +kernel, by decide +kernel⟩

theorem unitReady_acknowledged : UnitReady (acknowledged base) 3 [(0x400, 1)] :=
  ⟨unitDone, by decide +kernel, by decide +kernel, rfl, rfl, rfl, rfl, rfl⟩

theorem witness_pref : touches base 6 needLoad = some true ∧ touches base 10 needLoad = some false ∧
    Ready (grpOf base) [6, 6 + 1] :=
  ⟨by decide +kernel, by decide +kernel, ready_of (by decide +kernel)⟩

/-- Line 0x400, held by core 0 with a dirty byte. -/
def dirtied : State := (cached 0x400 base).updCore 0 fun x => x.updCopy 0x400 fun c => { c with dirty := 1 }

/-- Words to write back, and none. -/
theorem witness_cflush : touches base 6 needAny = some true ∧ touches base 10 needLoad = some false ∧
    (grpOf base).cnt.st < 31 ∧ (sentBack base 0 fun c => [0x400].contains c.line).2 = [] ∧
    (sentBack dirtied 0 fun c => [0x400].contains c.line).2 ≠ [] :=
  ⟨by decide +kernel, by decide +kernel, by decide +kernel, by decide +kernel, by decide +kernel⟩

/-- A write-back of core 0 whose last acknowledgement is under way. -/
def flushing : State :=
  let s : State := withG (fun g => { g with flight :=
    [{ id := 5, cls := .st, pc := 0, iword := 0, mask := 1, logged := false
       req := { kind := .flush, nt := false, u := false, size := .b32, dest := 10, lanes := 1, elems := [] } }] })
    (cached 0x400 base)
  { s.updCore 0 fun x => { x with flushes := [{ job := 3, slot := 0, team := 1, op := 5, pending := [0x400]
                                                acked := [], drops := [0x400], flag := true }] } with
    acks := [{ core := 0, line := 0x400, ver := 1, job := 3 }] }

theorem witness_writeBack : (flushing.acks[0]?).map AckMsg.line = some 0x400 ∧
    (((flushing.core 0).flushes.find? fun f => f.job == 3).map Flush.pending) = some [0x400] ∧
    ((flushing.group 0 0).bind fun g => g.flight.find? fun q => q.id == 5 && g.team == 1 && q.cls == .st &&
      g.log.isEmpty).isSome = true :=
  ⟨by decide +kernel, by decide +kernel, by decide +kernel⟩

theorem witness_cinv : Ready (grpOf base) ([6, 6 + 1, 4] ++ [10]) ∧ (rd base 4 0).toNat ≠ 0 ∧
    (rd (at4 0) 4 0).toNat = 0 ∧ ptrAdd ((grpOf base).pair (base.core 0) 6 0) (0 : BitVec 18).toInt = some (mkPtr 2 0) ∧
    (match base.check 0 0 (base.core 0).desc (mkPtr 2 0) 5 needAny with | (.ok _, _) => true | _ => false) = true ∧
    scribesOwn 0 (grpOf base).fw [glbCand ((grpOf base).pair (base.core 0) 6 0) (0 : BitVec 18).toInt 0 0 0] = false :=
  ⟨ready_of (by decide +kernel), by decide +kernel, by decide +kernel, by decide +kernel, by decide +kernel,
   by decide +kernel⟩

/-- A request of 64 bytes from object `on` to scratchpad address 0x1000, at 0x100 (R123). -/
def kicked (on a n : Nat) : State :=
  regs [(4, BitVec.ofNat 32 a), (5, BitVec.ofNat 32 n)] (base.storeScr 0 0 0 1 0x100 (bytesOfWords
    [mkPtr on 0, 0x1000, 64, 0]))

/-- The requests KICK reads there. -/
def kickList (s : State) (n : Nat) : List CopyReq := (s.kickReqs (grpOf s) 0x100 0 n (grpOf s).rc).1

theorem witness_kick : Turn (kicked 2 0x100 1) .all (grpOf (kicked 2 0x100 1)) 1 0 ∧
    Ready (grpOf (kicked 2 0x100 1)) [4, 5] ∧ (rd (kicked 2 0x100 0) 5 0).toNat = 0 ∧
    32 ≤ (rd (kicked 2 0x100 32) 5 0).toNat ∧ (rd (kicked 2 0x110 1) 4 0).toNat % 32 ≠ 0 ∧
    (kicked 2 0 0).scrSize 1 0 < 0x7FE0 + 32 * 2 ∧ ¬ (kicked 2 0 0).scrSize 1 0 < 0x7FE0 + 32 * 1 ∧
    (grpOf (kicked 2 0x100 1)).cnt.cp + 1 ≤ 31 ∧ ((kicked 2 0x100 1).core 0).requests.length + 1 ≤ 128 ∧
    ((kicked 2 0x100 1).vetCopies 0 [] (kickList (kicked 2 0x100 1) 1)).1.isOk = true ∧
    ((kicked 9 0x100 1).vetCopies 0 [] (kickList (kicked 9 0x100 1) 1)).1.isOk = false :=
  ⟨turn_of (by decide +kernel), ready_of (by decide +kernel), by decide +kernel, by decide +kernel,
   by decide +kernel, by decide +kernel, by decide +kernel, by decide +kernel, by decide +kernel,
   by decide +kernel, by decide +kernel⟩

/-- A request of no rows of bytes fails check 1 to 5. -/
theorem witness_kickFirstBad : (((kickList (kicked 2 0x100 1) 1).map fun q => { q with words := [0, 0, 0, 0] }).map
    fun q => ((kicked 2 0x100 1).copyBad 0 q).isSome) = [true] := by
  decide +kernel

/-- Timeline 3 of core 0 at 7. -/
def tl7 : State := base.updCore 0 fun x => { x with tl := x.tl.set 3 7 }

theorem witness_timeline : Turn tl7 .all (grpOf tl7) 1 0 ∧ Ready (grpOf tl7) [14, 14 + 1] ∧ Ready (grpOf tl7) [4, 5] ∧
    (pairUp (rd tl7 14 0) (rd tl7 15 0)).toNat ≤ ((((tl7.core 0).tl)[3]?).getD 0).toNat ∧
    ((((tl7.core 0).tl)[3]?).getD 0).toNat < (pairUp (rd tl7 4 0) (rd tl7 5 0)).toNat ∧ (grpOf tl7).det = false :=
  ⟨turn_of (by decide +kernel), ready_of (by decide +kernel), ready_of (by decide +kernel), by decide +kernel,
   by decide +kernel, by decide +kernel⟩

/-- A barrier object at address 0x7FF0, the scratchpad's last, its address in v4. -/
def object (o : BObj) : State := (at4 0x7FF0).putBo 0 1 0x7FF0 o

theorem witness_barrierObjects :
    Turn (at4 0x7FF0) .all (grpOf (at4 0x7FF0)) 1 0 ∧ Ready (grpOf (at4 0x7FF0)) [4] ∧
    (rd (at4 8) 4 0).toNat % 16 ≠ 0 ∧ (at4 0x8000).scrSize 1 0 < 0x8000 + 16 ∧ 0x7FF0 + 16 ≤ (at4 0x7FF0).scrSize 1 0 ∧
    (at4 0x7FF0).boTagged 0 1 0x7FF0 = false ∧
    ((object ⟨0, 0, 2, 0⟩).boTagged 0 1 0x7FF0 = true ∧ ((object ⟨0, 0, 2, 0⟩).bo 0 1 0x7FF0).state = 2) ∧
    ((object ⟨0, 0, 3, 0⟩).bo 0 1 0x7FF0).state = 3 ∧
    ((object ⟨5, 0, 0, 0⟩).bo 0 1 0x7FF0).remain + 3 ≠ 0 ∧ ((object ⟨0xFFFFFFFD, 3, 0, 0⟩).bo 0 1 0x7FF0).remain + 3 = 0 ∧
    ((object ⟨0, 5, 1, 1⟩).bo 0 1 0x7FF0).state = 1 ∧ ((object ⟨0, 5, 1, 1⟩).bo 0 1 0x7FF0).remain = 0 ∧
    (∀ e ∈ [none, some BoEnd.released, some .broken, some .failed],
      (grpOf (withG (fun g => { g with parkBo := some (0x7FF0, e) }) (object ⟨4, 0, 1, 0⟩))).parkBo = some (0x7FF0, e)) :=
  ⟨turn_of (by decide +kernel), ready_of (by decide +kernel), by decide +kernel, by decide +kernel,
   by decide +kernel, by decide +kernel, ⟨by decide +kernel, by decide +kernel⟩, by decide +kernel,
   by decide +kernel, by decide +kernel, by decide +kernel, by decide +kernel, by decide +kernel⟩

/-! ### The Well, tags, the matrix engine -/

/-- v4 asks for `k` banks; the team has been granted one of SCR. -/
def asks (k : Int) : State :=
  let s : State := regs [(4, BitVec.ofInt 32 k)] base
  s.updTeam 1 fun t => { t with allots := t.allots.map fun a => (a.1, { a.2 with granted := { a.2.granted with scr := 1 } }) }

/-- A ceiling set for the team, which asks for 54 banks. -/
def capped (c : Ceiling) : State := (asks 54).updTeam 1 fun t => { t with ceil := c }

theorem witness_wreq : Turn (asks 1) .all (grpOf (asks 1)) 1 0 ∧ Ready (grpOf (asks 1)) [4, 10] ∧
    (grpOf (asks 1)).cnt.cp = 0 ∧ (grpOf (withG (fun g => { g with cnt := { g.cnt with cp := 1 } }) base)).cnt.cp ≠ 0 ∧
    (((asks 1).wreqTry 0 1 .scr 1).1.map WStat.code) = some 0 ∧
    (((asks 0).wreqTry 0 1 .reg 0).1.map WStat.code) = some 0 ∧
    (((asks (-2)).wreqTry 0 1 .scr (-2)).1.map WStat.code) = some 4 ∧
    (((asks (-1)).wreqTry 0 1 .scr (-1)).1.map WStat.code) = some 0 ∧
    (((asks 55).wreqTry 0 1 .mat 55).1.map WStat.code) = some 3 ∧
    (((capped ⟨54, Roles.all none⟩).wreqTry 0 1 .mat 54).1.map WStat.code) = some 5 ∧
    (((capped ⟨60, { Roles.all none with mat := some 53 }⟩).wreqTry 0 1 .mat 54).1.map WStat.code) = some 5 ∧
    Ready (grpOf base) ((List.range 4).map fun i => (124 : Reg).toNat + i) :=
  ⟨turn_of (by decide +kernel), ready_of (by decide +kernel), by decide +kernel, by decide +kernel,
   by decide +kernel, by decide +kernel, by decide +kernel, by decide +kernel, by decide +kernel,
   by decide +kernel, by decide +kernel, ready_of (by decide +kernel)⟩

/-- Tags of the tiles of slot 0's window: `f` on tile 3, the window's last. -/
def tagged (f : Core → Nat → Core) : State :=
  base.updCore 0 fun x => f x ((grpOf base).tileAt ((grpOf base).tileOfs 3))

/-- Tile 3 is FULL, tile 2 is EMPTY; tile 4 lies outside the window. -/
theorem witness_tags :
    let full := tagged fun x i => x.setTag i true false
    let done := tagged fun x i => x.setTag i true true
    let t := fun n => (grpOf base).tileAt ((grpOf base).tileOfs n)
    (∀ i ≤ 0, (grpOf base).inWindow ((grpOf base).tileOfs (3 + i)) 2048 = true) ∧
    (¬ ∀ i ≤ 1, (grpOf base).inWindow ((grpOf base).tileOfs (3 + i)) 2048 = true) ∧
    (base.core 0).tv (t 3) = false ∧ (full.core 0).tv (t 3) = true ∧ (full.core 0).tc (t 3) = false ∧
    (done.core 0).tc (t 3) = true ∧ (full.core 0).tv (t 2) = false ∧ (grpOf base).cnt.tl < 31 ∧
    (grpOf base).writesTo [((grpOf base).tileOfs 3, (grpOf base).tileOfs 3 + 2048)] = false ∧
    (grpOf base).readsFrom [((grpOf base).tileOfs 3, (grpOf base).tileOfs 3 + 2048)] = false ∧ Ready (grpOf base) [10] := by
  refine ⟨?_, ?_, ?_, ?_, ?_, ?_, ?_, ?_, ?_, ?_, ready_of ?_⟩ <;> decide +kernel

/-- A META record and a SCALE record of stream 0 (R265, R266). -/
def sides : State := withG (fun g => { g with mrecs := [0x100 + 128 * 2 ^ 21, 0, 0, 0], srecs := [0x40 + 0x80 * 2 ^ 21, 0, 0, 0] }) base

theorem witness_matrixIssue :
    stepsForm (.mma .all 1 ⟨0, 0⟩ 0 32 false) = some (.all, 1, ⟨0, 0⟩, 0, 32, 1, 0, 0, false, false) ∧
    slotOk ((grpOf base).slot 1) = true ∧ slotFmt ((grpOf base).slot 1) = 3 ∧ slotOk ((grpOf base).slot 3) = false ∧
    slotFmt ((grpOf base).slot 2) < 2 ∧ metaOk (((grpOf sides).mrecs[0]?).getD 0) = true ∧
    scaleOk (((grpOf sides).srecs[0]?).getD 0) = true ∧ (grpOf base).vecOfs 0 % 2048 = 0 ∧
    (grpOf base).vecOfs 32 % 2048 = 0 ∧ (grpOf base).vecOfs 1 % 2048 ≠ 0 ∧ (grpOf base).accOk 0 = true ∧
    (grpOf base).accOk 1 = false ∧ (grpOf base).inWindow ((grpOf base).vecOfs 0) (mBytes 3 false).1 = true ∧
    (grpOf base).inWindow ((grpOf base).vecOfs 32) (mBytes 3 false).2 = true ∧ (grpOf base).cnt.tl < 31 := by
  refine ⟨rfl, ?_, ?_, ?_, ?_, ?_, ?_, ?_, ?_, ?_, ?_, ?_, ?_, ?_, ?_⟩ <;> decide +kernel

/-- The premises of MZERO, MDRAIN, MLDACC, MSYNC and MSTAT; the window here holds a BF16 block. -/
theorem witness_matrixForms : Turn base .all (grpOf base) 1 0 ∧ (grpOf base).pend = [] ∧ (grpOf base).cnt.tl < 31 ∧
    (∀ i ≤ 0, (grpOf base).accOk (0 + i) = true) ∧ slotOk ((grpOf base).slot 1) = true ∧
    slotFmt ((grpOf base).slot 1) ≠ 6 ∧ (grpOf base).vecOfs 0 % 2048 = 0 ∧
    (grpOf base).inWindow ((grpOf base).vecOfs 0) (512 * fmtBits (slotFmt ((grpOf base).slot 1))) = true ∧
    (∀ i < 4, (15 : BitVec 4).getLsbD i = true → ((grpOf base).streams[i]?).getD [] = []) ∧
    Ready (grpOf base) [10] ∧ Ready (grpOf base) [4, 4 + 1] := by
  refine ⟨turn_base, ?_, ?_, ?_, ?_, ?_, ?_, ?_, ?_, ready_of ?_, ready_of ?_⟩ <;> decide +kernel

/-- Stream 0 holds an operation. -/
def streaming (k : MOpKind) : State := withG (fun g => { g with
  streams := [[{ kind := k, acc := 0, seq := 3, pc := 0, iword := 0, lane := 0, views := g.views }], [], [], [], []]
  cnt := { g.cnt with tl := 1 } }) base

/-- One BF16 step on v0 and v32. -/
def oneStep (sums : Option (List MSum)) : MSteps :=
  { fmt := 3, sp := false, scr := false, k := 1, sa := 0, sb := 0, a := 0, b := 2048, mrec := 0, srec := 0, next := 0
    sums := sums }

/-- The group's stream 0 has operation `o` at its head, and its group is `g`. -/
def heads (s : State) (p : Group → MOp → Bool) : Bool :=
  match s.group 0 0 with
  | some g => (match g.streams[0]? with | some (o :: _) => p g o | _ => false)
  | none => false

theorem witness_matrixEngine :
    heads (streaming (.zero 1)) (fun g o => !g.det && o.kind == .zero 1 && g.streams.all fun l => l.all fun e =>
      decide (o.seq ≤ e.seq)) = true ∧
    heads (streaming (.mark 1 3)) (fun _ o => o.kind == .mark 1 3) = true ∧
    heads (streaming (.drain 1 2 false 0 0)) (fun g o => (g.winBad (base.core 0) 0 (accAt o.views o.acc) 16384).isNone) = true ∧
    heads (streaming (.ldacc 3 1 0 0)) (fun g _ => (g.winBad (base.core 0) 0 0 (512 * fmtBits (slotFmt 3))).isNone &&
      (g.blockTiles 0 (512 * fmtBits (slotFmt 3))).all fun i => (base.core 0).tv i || (base.core 0).tc i) = true ∧
    heads (streaming (.steps (oneStep none))) (fun g o => ((oneStep none).tiles g).all (fun i =>
        (base.core 0).tv i || (base.core 0).tc i) &&
      (rangeLines (oneStep none).stepRanges).all (fun l => base.present 0 g.team (128 * l)) &&
      (base.mpoison 0 g (oneStep none) (accAt o.views o.acc)).isNone) = true ∧
    heads (streaming (.steps (oneStep (some [])))) (fun _ o => o.kind == .steps (oneStep (some []))) = true ∧
    base.stopping (grpOf base).team = false ∧ heads (streaming (.rest [] [0] none)) (fun _ o => o.kind == .rest [] [0] none) = true ∧
    heads (det (withG (fun g => { g with streams := g.streams.set 1 (g.streams.head!.map fun o => { o with seq := 2 }) })
      (streaming (.zero 1)))) (fun g o => g.det && g.streams.any fun l => l.any fun e => decide (e.seq < o.seq)) = true := by
  refine ⟨?_, ?_, ?_, ?_, ?_, ?_, ?_, ?_, ?_⟩ <;> decide +kernel

/-- A FILLING tile of the accumulator, and none. -/
theorem witness_accTiles :
    let at_ := fun (s : State) => heads s fun g o => ((List.range 8).map fun i =>
      g.tileAt (accAt o.views o.acc + 2048 * i)).all fun i => (s.core 0).tv i || (s.core 0).tc i
    at_ (streaming (.zero 1)) = true ∧
    at_ ((streaming (.zero 1)).updCore 0 fun x =>
      x.setTag ((grpOf base).tileAt (accAt (grpOf base).views 0)) false false) = false := by
  refine ⟨?_, ?_⟩ <;> decide +kernel

theorem witness_mzero : heads (streaming (.zero 1)) (fun g o => o.views.acc.toNat % 16384 == 0 &&
      g.segReg.base.toNat % 128 == 0 && g.segMat.base.toNat % 128 == 0 &&
      decide (matPart ≤ accAt o.views (o.acc + 0)) && decide (accBlock o.views (o.acc + 0) < g.accs.length)) = true ∧
    (∀ j < 4, (base.core (0 / 4 * 4 + j)).owes = false) ∧ (∃ i ≤ (1 : BitVec 4).toNat, (grpOf base).accOk ((0 : BitVec 4).toNat + i) = false) := by
  refine ⟨?_, ?_, 1, ?_, ?_⟩ <;> decide +kernel

/-! ### Stipple arrays, control, scheduling -/

/-- Array 1 out of service. -/
def arrayOff : State := base.updArray 0 1 fun a => { a with oos := true }

theorem witness_stippleIssues :
    saForm base (grpOf base) 1 0 (.sacfgCtl .all 1 4 5) = some (.all, 1, [4, 5], some (.ctl 5 3, true)) ∧
    saForm (at4 0) (grpOf (at4 0)) 1 0 (.saswp .all 1 4 7 3) = some (.all, 1, [4], none) ∧
    Ready (grpOf base) [4, 5] ∧ ((base.core 0).array 1).oos = false ∧ ((base.core 0).array 1).queue.length < 16 ∧
    1 < (base.core 0).arrays.length ∧ ((arrayOff.core 0).array 1).oos = true ∧ (ACmdKind.ctl 5 3).barred = true ∧
    (ACmdKind.rdStat 12).barred = false := by
  refine ⟨?_, ?_, ready_of ?_, ?_, ?_, ?_, ?_, ?_, ?_⟩
  · decide +kernel
  · decide +kernel
  all_goals decide +kernel

/-- The premises of a stipple command's completion: its form and what of it need not wait. -/
theorem witness_stippleCommands :
    saForm base (grpOf base) 1 0 (.saclamp .all 1 4) = some (.all, 1, [4], some (.clamp [5], true)) ∧
    ((base.core 0).array 1).queue = [] ∧ ((base.core 0).array 1).oos = false ∧ ((base.core 0).array 1).up = false ∧
    (grpOf base).closing = .none ∧ linkEn (rd base 4 0) = false ∧
    (∀ i < 32, base.present 0 1 ((0 + i) / 128 * 128) = true) ∧ base.scrBad 0 1 0 32 = none ∧
    (grpOf base).det = false ∧ (rd (at4 0) 4 0).toNat % min (regionSize .bias).1 4 = 0 := by
  refine ⟨?_, ?_, ?_, ?_, ?_, ?_, ?_, ?_, ?_, ?_⟩ <;> decide +kernel

theorem witness_sweep : (rd base 4 0).toNat ≠ 0 ∧ ((base.core 0).array 1).sc.toNat < 2 ^ 48 - 1 ∧
    (base.cluster (clusterOf 0)).drained = false ∧ 1 < (base.core 0).arrays.length := by
  refine ⟨?_, ?_, ?_, ?_⟩ <;> decide +kernel

/-- A link word that names global array `peer`, enabled, with `n` exports (R288), and a load of entries
2047 and 2048 of a region. -/
theorem witness_stippleLoads :
    let link := fun (peer n : Nat) => BitVec.ofNat 32 (peer + n * 2 ^ 10 + 2 ^ 27)
    linkEn (link 3 1) = true ∧ base.peerOf (grpOf base) (link 3 1) / 256 = 0 / 64 ∧ linkEn 0 = false ∧
    base.peerOf (grpOf base) (link 256 64) / 256 ≠ 0 / 64 ∧ linkNexp (link 256 64) ≤ 64 ∧
    64 < linkNexp (link 256 65) ∧ linkNgh (link 256 64) ≤ 64 ∧
    (0 : Nat) % min (regionSize .coup).1 4 = 0 ∧ 2 % min (regionSize .coup).1 4 ≠ 0 ∧
    2047 + 1 ≤ (regionSize .bias).2 ∧ (regionSize .bias).2 < 2047 + 2 ∧
    Ready (grpOf base) [4, 5] := by
  refine ⟨?_, ?_, ?_, ?_, ?_, ?_, ?_, ?_, ?_, ?_, ?_, ready_of ?_⟩ <;> decide +kernel

/-- The group at offset `o` of the code object. -/
def pcAt (o : Nat) : State := { base with cur := { base.cur with pc := mkPtr 1 o } }

theorem witness_branch :
    base.curGroup = some (grpOf base) ∧ (grpOf base).taking (base.core 0) .all 1 = 1 ∧
    (grpOf base).taking (base.core 0) (.on false 1) 1 = 0 ∧ lowestLane 1 = some 0 ∧
    braTarget (pcAt 0).cur.pc (-1) = none ∧ braTarget (pcAt 8).cur.pc (-1) = some (mkPtr 1 0) ∧
    (mkPtr 1 0).toNat % 8 = 0 ∧ braTarget (pcAt 12).cur.pc (-1) = some (mkPtr 1 4) ∧ (mkPtr 1 4).toNat % 8 ≠ 0 ∧
    (ptrOfs (mkPtr 1 0) ≤ ptrOfs (pcAt 8).cur.pc ∧ (grpOf base).live &&& ~~~1 ≠ 0) ∧
    (match (pcAt 8).fetchLoop 0 0 (mkPtr 1 0) 2 with | .ok (some ws, _) => ws.length == 2 | _ => false) = true ∧
    ¬ ptrOfs (mkPtr 1 16) ≤ ptrOfs (pcAt 8).cur.pc ∧ (ptrOfs (mkPtr 1 0x180) - 0) / 8 + 1 = 49 ∧
    Ready (grpOf base) [14, 14 + 1] ∧ Ready (grpOf base) [6, 6 + 1] ∧
    (pairUp (rd base 6 0) (rd base 7 0)).toNat % 8 = 0 ∧ (pairUp (rd base 4 0) (rd base 5 0)).toNat % 8 ≠ 0 := by
  refine ⟨?_, ?_, ?_, ?_, ?_, ?_, ?_, ?_, ?_, ⟨?_, ?_⟩, ?_, ?_, ?_, ready_of ?_, ready_of ?_, ?_, ?_⟩ <;> decide +kernel

theorem witness_threads : (grpOf base).log = [] ∧ (grpOf (logged 1 base)).log ≠ [] ∧
    Turn (logged 1 base) .all (grpOf (logged 1 base)) 1 0 ∧
    ((grpOf base).cnt.ld ≤ 0 ∧ (grpOf base).cnt.st ≤ 0 ∧ (grpOf base).cnt.cp ≤ 0 ∧ (grpOf base).cnt.tl ≤ 0) ∧
    ¬ (grpOf (withG (fun g => { g with cnt := { g.cnt with st := 1 } }) base)).cnt.st ≤ 0 :=
  ⟨by decide +kernel, by decide +kernel, turn_of (by decide +kernel), by decide +kernel, by decide +kernel⟩

/-- The boundary unit held for slot 0, nothing sent (PHASE.sys before its non-temporal stores are home). -/
def unitHeld : State :=
  base.updCore 0 fun x => { x with boundary := some { unitDone with sent := false, acked := [] } }

/-- A dirty line of core 0 whose home is die 1, out of service. -/
def dead : State := (cached (2 ^ 31) base).updCore 0 fun x => { x with l1 := x.l1.map fun l => { l with dirty := 1 } }

theorem witness_phase : (grpOf base).log = [] ∧ (grpOf base).cnt.ld = 0 ∧ (grpOf base).cnt.st = 0 ∧
    (grpOf base).cnt.tl = 0 ∧ (∀ q ∈ (grpOf base).streams, q = []) ∧ base.phaseScope (grpOf base) .core = .core ∧
    base.phaseScope (grpOf base) .dev = .dev ∧ base.phaseScope (grpOf base) .sys = .sys ∧
    (base.core 0).boundary = none ∧ base.deadLine 0 = none ∧ dead.deadLine 0 = some (2 ^ 31) ∧
    ((unitHeld.core 0).boundary.map fun b => (b.slot, b.sent)) = some (0, false) ∧ unitHeld.ntPending 0 0 = false := by
  refine ⟨?_, ?_, ?_, ?_, ?_, ?_, ?_, ?_, ?_, ?_, ?_, ?_, ?_⟩ <;> decide +kernel

/-- Core 0 holds a copy of line 0x400 that the home has marked shared. -/
def marked : State := (cached 0x400 base).updCore 0 fun x => { x with l1 := x.l1.map fun l => { l with mark := true } }

/-- MONW's pointer: admitted and present, the core holding no copy or one; refused; and a carry. -/
theorem witness_monw : Turn base .all (grpOf base) 1 0 ∧ Ready (grpOf base) [6, 6 + 1] ∧
    ptrAdd (mkPtr 1 0) (-8) = none ∧ ptrAdd (mkPtr 2 0) 0 = some (mkPtr 2 0) ∧
    (match (base.check 0 0 [] (mkPtr 2 0) 1 needMonw).1 with
      | .ok d => (match base.xlate 0 0 d (mkPtr 2 0) with | .at pa _ => pa == 0x20000 | _ => false)
      | _ => false) = true ∧
    (match (base.check 0 0 [] (mkPtr 2 0x10000) 1 needMonw).1 with | .error _ => true | _ => false) = true ∧
    (base.die (0x20000 / 2 ^ 38)).out = false ∧ (base.core 0).copy (0x20000 / 128) = none ∧
    (grpOf base).watch = none ∧
    (marked.monitorOf 0 0 (grpOf base) (mkPtr 2 0) 0x20000).1.isSome = true ∧
    (base.monitorOf 0 0 (grpOf base) (mkPtr 2 0) 0x20000).1 = none := by
  refine ⟨turn_base, ready_of ?_, ?_, ?_, ?_, ?_, ?_, ?_, ?_, ?_, ?_⟩ <;> decide +kernel

/-- A waybill at the start of object 2 with JOIN and STATE given, its launch record at 0x40 (R355, R357). -/
def billed (join state : Nat) (frame : DWord) : State :=
  let m := memStore (memStore (memStore objects 0x20000 (bytesOfWords
      [mkPtr 1 0, frame, BitVec.ofNat 64 (join + state * 2 ^ 61), 0, 0, 0, 0, 0])) 0x20090 (bytesOfNat 4 2048))
    0x20098 (bytesOfNat 1 1)
  let s : State := { base with mem := m }
  acknowledged (s.updCtx 0 fun c => { c with queues := c.queues.map fun q => { q with en := true } })

/-- The waybill's place is found and can be read. -/
def atBill (s : State) : Bool :=
  match s.reachWb 0 0 (mkPtr 2 0) with
  | (.at pa, v) => pa == 0x20000 && !(v.die (pa / 2 ^ 38)).out && !v.poisoned pa 32 && !v.poisoned (pa + 32) 32
  | _ => false

/-- The unit kept while the waybill's home is not ready. -/
theorem witness_homeBusy : (State.homeReady ({ base with dir := [(0x400, { DirEntry.init with pendBy := [9] })] })
    (0x20000 / 128)) = false := by decide +kernel

/-- SPAWN and JDEC of that waybill, before and after the publication. -/
theorem witness_scheduling :
    atBill base = true ∧ UnitFree base ∧ base.deadLine 0 = none ∧ ptrOfs (mkPtr 2 0) % 64 = 0 ∧ Ready (grpOf base) [6, 6 + 1, 10, 5] ∧
    Turn (billed 0 0 (mkPtr 2 0x40)) .all (grpOf (billed 0 0 (mkPtr 2 0x40))) 1 0 ∧
    (let v := ((committed (billed 0 0 (mkPtr 2 0x40)) 3 [(0x400, 1)]).movePartials 0).keepAcks 0 [(0x400, 1)]
     let u := (v.reachWb 0 0 (mkPtr 2 0)).2
     atBill v = true ∧ u.homeReady (0x20000 / 128) = true ∧ u.locate 0 (mkPtr 2 0) 64 needWaybill = .at 0x20000 ∧ u.wbState 0x20000 = 0 ∧
     (u.wb 0x20000 2).toNat % 2 ^ 32 = 0 ∧ u.wellFormed 0 0x20000 = .ok) ∧
    (billed 0 0 (mkPtr 2 0x48)).wellFormed 0 0x20000 = .fails 6 ∧ (billed 2 0 0).wbState 0x20000 = 0 ∧
    ((billed 2 0 0).wb 0x20000 2).toNat % 2 ^ 32 < (rd base 5 0).toNat ∧
    (rd base 5 0).toNat < ((billed 4 0 0).wb 0x20000 2).toNat % 2 ^ 32 ∧ (billed 0 1 0).wbState 0x20000 ≠ 0 := by
  refine ⟨?_, unitFree_base, ?_, ?_, ready_of ?_, turn_of ?_, ⟨?_, ?_, ?_, ?_, ?_, ?_⟩, ?_, ?_, ?_, ?_, ?_⟩ <;> decide +kernel

theorem unitReady_billed : UnitReady (billed 0 0 (mkPtr 2 0x40)) 3 [(0x400, 1)] :=
  ⟨unitDone, by decide +kernel, by decide +kernel, rfl, rfl, rfl, rfl, rfl⟩

theorem witness_tqry : Ready (grpOf base) [4, 10, 10 + 1] ∧ (rd base 4 0).toNat ≤ 15 ∧ 15 < (rd (at4 16) 4 0).toNat :=
  ⟨ready_of (by decide +kernel), by decide +kernel, by decide +kernel⟩

/-! ### Traps and firmware -/

theorem witness_trapHandler : Ready (grpOf base) [14, 14 + 1, 4] ∧ pairUp (rd base 14 0) (rd base 15 0) = 0 ∧
    pairUp (rd base 6 0) (rd base 7 0) ≠ 0 ∧ (rd base 4 0).toNat % 64 ≠ 0 ∧ (rd (at4 0x7FC0) 4 0).toNat % 64 = 0 ∧
    (rd (at4 0x7FC0) 4 0).toNat + 64 ≤ (at4 0x7FC0).scrSize 1 0 ∧
    (at4 0x8000).scrSize 1 0 < (rd (at4 0x8000) 4 0).toNat + 64 := by
  refine ⟨ready_of ?_, ?_, ?_, ?_, ?_, ?_, ?_⟩ <;> decide +kernel

/-- Firmware with the group of slot 0 held by a trap of cause `k`; its handler at record address `h`. -/
def trapped (k : Cause) (h : Option Word) : State :=
  let s : State := (base.takeTrap ⟨k, 0, 0, 0⟩).updGroup 0 0 fun g => { g with handler := h.map fun r => (mkPtr 1 0, r) }
  fw [(4, 0), (5, 63)] s

/-- The record of slot 0. -/
def record (s : State) : TrapRec := (tabFind (s.core 0).trapSlots 0).getD (s.blankRec .trap)

theorem witness_eret :
    let s := trapped .trapSw (some 0x40)
    Turn s .all (grpOf s) 1 0 ∧ (grpOf s).fw = true ∧ Ready (grpOf s) [4, 10] ∧ s.group 0 63 = none ∧
    ((fw [] base).group 0 0).map Group.trap = some false ∧ (s.group 0 0).map Group.trap = some true ∧
    tabFind (s.core 0).trapSlots 0 = some (record s) ∧ (record s).allows .skip = true ∧
    (record s).allows .retry = false ∧ (record (trapped .objNull none)).allows .retry = true ∧
    (record s).allows .deliver = true ∧
    (s.group 0 0).map (fun q => q.onePc && s.handlerOk 0 q) = some true ∧
    ((trapped .trapSw (some 0x8000)).group 0 0).map (fun q => (trapped .trapSw (some 0x8000)).handlerOk 0 q) = some false ∧
    (record s).async = false := by
  refine ⟨turn_of ?_, ?_, ready_of ?_, ?_, ?_, ?_, ?_, ?_, ?_, ?_, ?_, ?_, ?_, ?_⟩ <;> decide +kernel

/-- Firmware at its turn with registers set, over a device changed by `f`. -/
def cal (l : List (Nat × Word)) (f : State → State) : State := fw l (f base)

/-- An operand pair of R86: object `on` of context 0, extent or zero below it. -/
def arg (x on : Nat) : DWord := BitVec.ofNat 64 (x + on * 2 ^ 32)

/-- The descriptor of object `n` as firmware finds it. -/
def descOf (n : Nat) (s : State) : Desc := fetchDesc s 0 0 n

theorem witness_firmwareTurn : let s := cal [] id
    Turn s .all (grpOf s) 1 0 ∧ (grpOf s).fw = true ∧ Ready (grpOf s) [12, 4, 4 + 1] ∧
    Ready (grpOf s) [8, 8 + 1, 8 + 2, 8 + 3] ∧ (grpOf s).parked = none :=
  ⟨turn_of (by decide +kernel), by decide +kernel, ready_of (by decide +kernel), ready_of (by decide +kernel),
   by decide +kernel⟩

/-- OBJSET's operands: malformed, a descriptor of a reserved kind, an object past the table and its last. -/
theorem witness_objset : (objArg (arg 0 0 + 2 ^ 52) false).ok = false ∧ (objArg (arg 1 7) false).ok = false ∧
    (objArg (arg 1 7) true).ok = true ∧ (objArg (arg 0 7) false).ok = true ∧
    (Desc.mk (BitVec.ofNat 64 (4 * 2 ^ 44)) 0).formOk = false ∧ (Desc.mk (BitVec.ofNat 64 (3 * 2 ^ 44)) 0).formOk = true ∧
    base.objOk (objArg (arg 0 8) false) = false ∧ base.objOk (objArg (arg 0 7) false) = true ∧
    base.objOk (objArg (arg 0 0) false) = false := by
  refine ⟨?_, ?_, ?_, ?_, ?_, ?_, ?_, ?_, ?_⟩ <;> decide +kernel

/-- Extent entries: object 2's own is present, object 5's is absent; a second extent is none of object 2's;
an entry of the reserved placement is malformed, one elsewhere is another. -/
theorem witness_objsetExt : base.objOk (objArg (arg 0 2) true) = true ∧ (descOf 2 base).v = true ∧
    (0 < (descOf 2 base).extents ∧ ¬ 1 < (descOf 2 base).extents) ∧
    extP (extEntry base (descOf 2 base) 0) = true ∧ extP (extEntry base (descOf 5 base) 0) = false ∧
    extFormOk 0x231 16 = false ∧ extP 0x231 = true ∧ (descOf 2 base).extLog = 16 ∧
    extBase 0x311 ≠ extBase (extEntry base (descOf 2 base) 0) ∧
    (extHome 0x201, extBias 0x201, extBase 0x201) =
      (extHome (extEntry base (descOf 2 base) 0), extBias (extEntry base (descOf 2 base) 0),
       extBase (extEntry base (descOf 2 base) 0)) := by
  refine ⟨?_, ?_, ⟨?_, ?_⟩, ?_, ?_, ?_, ?_, ?_, ?_, ?_⟩ <;> decide +kernel

/-- A write on its way. -/
def onWay (s : State) : State :=
  { s with steps := 1, wts := [{ core := 0, line := 0x400, mask := 1, data := 0, nt := false, ctx := 0 }] }

/-- No team runs; object 2 in the host's bias. -/
def idle (s : State) : State := { s with teams := [] }
def biased (s : State) : State := { s with mem := memStore s.mem 0x2010 (bytesOfNat 8 0x203) }

/-- Another sequencer moves extent 0 of object 2; the turn's own does, with and without the host's consent. -/
def moved2 (k : Nat) (s : State) : State := { s with moving := [{ key := k, ctx := 0, on := 2, ext := 0 }] }

/-- The turn's sequencer waits on a removal made at time 1. -/
def removing (s : State) : State := { s with invs := [{ key := s.seqKey, time := 1 }] }

theorem witness_removal : ((removing base).removal).isSome = true ∧ (removing (onWay base)).accessesDone 1 = false ∧
    (removing base).accessesDone 1 = true ∧ base.removal = none ∧
    (∃ m ∈ (moved2 base.seqKey base).moving, m.key = base.seqKey) ∧ (∀ m ∈ (moved2 99 base).moving, m.key ≠ base.seqKey) ∧
    (∃ m ∈ ({ moved2 base.seqKey base with moves := [(0x400, base.seqKey)] } : State).moves, m.2 = base.seqKey) ∧
    ∀ m ∈ (moved2 base.seqKey base).moves, m.2 ≠ base.seqKey := by
  refine ⟨?_, ?_, ?_, ?_, ?_, ?_, ?_, ?_⟩ <;> decide +kernel

theorem witness_objinvXmove : base.accessesDone base.steps = true ∧ (onWay base).accessesDone (onWay base).steps = false ∧
    base.resident 0 = true ∧ base.resident 1 = false ∧ base.moving = [] ∧
    (descOf 2 base).grants .m = true ∧ (descOf 1 base).grants .m = false ∧ (descOf 1 base).v = true ∧
    base.quiesced 0 = false ∧ (idle base).quiesced 0 = true ∧
    extBias (extEntry (biased base) (descOf 2 (biased base)) 0) = true ∧ extBias 0x201 = false ∧
    extBias (extEntry base (descOf 2 base) 0) = false := by
  refine ⟨?_, ?_, ?_, ?_, ?_, ?_, ?_, ?_, ?_, ?_, ?_, ?_, ?_⟩ <;> decide +kernel

/-- A switch to context 0 is armed; context 1 is resident. -/
def armedTo (s : State) : State := { s with armed := some { ctx := 0, t := 200000 } }
def second (s : State) : State := s.updCtx 1 fun y => { y with state := .resident }

/-- A copy of the team has begun. -/
def begun (q : CopyReq) : Transfer :=
  { req := q, next := 0, pieces := [], paused := none, cause := .none, addr := 0, failed := false, opened := [] }
def copying (s : State) : State := s.updCore 0 fun x => { x with active := (kickList (kicked 2 0x100 1) 1).map begun }

theorem witness_contexts : (7 < (8 : Word).toNat ∧ (7 : Word).toNat ≤ 7) ∧ base.resident 7 = false ∧
    (armedTo base).switching 0 = true ∧ base.switching 0 = false ∧ (second base).resident 1 = true ∧
    ((second base).ctx 1).state ≠ .running ∧ (base.ctx 0).state = .running ∧ base.anyTeam 0 = true ∧
    (idle base).anyTeam 0 = false ∧ (idle base).anyEngine 0 = false ∧
    (((idle base).stopTeams fun q => q.ctx == 0).anyTeam 0 = false ∧
      (((idle base).stopTeams fun q => q.ctx == 0).shelve 0).copying 0 = false) ∧
    (((copying (idle base)).stopTeams fun q => q.ctx == 0).shelve 0).copying 0 = true ∧
    ((idle base).canFlushAll = true ∧ (acknowledged (idle base)).canFlushAll = false) ∧
    (armedTo base).armed.isSome = true ∧ base.armed = none ∧
    ((pairUp 99999 0).toNat < base.gtime.toNat + 100000 ∧ base.gtime.toNat + 100000 ≤ (pairUp 100000 0).toNat) := by
  refine ⟨⟨?_, ?_⟩, ?_, ?_, ?_, ?_, ?_, ?_, ?_, ?_, ?_, ⟨?_, ?_⟩, ?_, ⟨?_, ?_⟩, ?_, ?_, ⟨?_, ?_⟩⟩ <;> decide +kernel

/-- Cluster 1 in service beside cluster 0; cluster 63 withdrawn; die 1 in service; a scan under way; a
cluster whose scan is overdue. -/
def two (s : State) : State := s.updCluster 1 fun x => { x with inSvc := true, drained := false }
def lost (s : State) : State := s.updCluster 63 fun x => { x with withdrawn := true }
def dieOne (s : State) : State := s.updDie 1 fun x => { x with out := false }
def scanned (s : State) : State := { s with scanning := some 0 }
def overdue (s : State) : State := { s with floorDue := some 0 }

/-- The group of slot 0 cannot stop: a load of its team is on the way. -/
def loading (s : State) : State := s.updGroup 0 0 fun g => { g with cnt := { g.cnt with ld := 1 }, flight := [entry.op] }

/-- The four cores of cluster 0 have raised their summaries. -/
def testedAll (s : State) : State :=
  [1, 2, 3].foldl (fun (s : State) c => s.updCore c fun x => { x with done := true }) s

theorem witness_scanrun : ((lost base).cluster 63).withdrawn = true ∧ (base.die (63 / 16)).out = true ∧
    (base.cluster 0).withdrawn = false ∧ (base.die (0 / 16)).out = false ∧ (scanned base).scanning.isSome = true ∧
    base.scanning = none ∧ base.floorDue = none ∧ (overdue base).floorDue = some 0 ∧
    (State.drainClusters { loading base with scanning := some 0 } [0]).2 = false ∧
    (State.drainClusters { idle base with scanning := some 0 } [0]).2 = true ∧
    (State.drainClusters { idle base with scanning := some 0 } [0]).1.canFlush (clusterCores [0]) = true ∧
    (∀ c ∈ clusterCores [0], ((testedAll base).core c).done = true) ∧
    (∃ c ∈ clusterCores [0], (base.core c).done = false) := by
  refine ⟨?_, ?_, ?_, ?_, ?_, ?_, ?_, ?_, ?_, ?_, ?_, ?_, ?_⟩ <;> decide +kernel

theorem witness_outOfService : (∀ j ∈ base.inService, j = 0) ∧ (∃ j ∈ (two base).inService, j ≠ 0) ∧
    (∃ j ∈ base.inService, j ≠ 1) ∧ (base.cluster 1).inSvc = false ∧ ((two base).cluster 0).inSvc = true ∧
    ((two (loading base)).drainClusters [0]).2 = false ∧ ((two (idle base)).drainClusters [0]).2 = true ∧
    (base.die 3).out = true ∧ ((dieOne base).die 1).out = false ∧
    (((dieOne base).updDie 1 fun x => { x with out := true }).drainClusters (dieClusters 1)).2 = true ∧
    (((dieOne base).updDie 1 fun x => { x with out := true }).drainClusters (dieClusters 1)).1.canFlush (dieCores 1) =
      true ∧
    (∃ c ∈ dieCores 1, (base.core c).done = false) := by
  refine ⟨?_, ?_, ?_, ?_, ?_, ?_, ?_, ?_, ?_, ?_, ?_, ?_⟩ <;> decide +kernel

/-- A scribe of a core under test: DONE is 0. -/
def testing (f : Core → Core) : State := cal [] fun s => s.updCore 0 fun x => f { x with done := false }

theorem witness_rpair : (cal [] id).cur.core < 256 ∧ ((cal [] id).core 0).done = true ∧
    ((testing id).core 0).done = false ∧ ((testing id).core 0).tested = (64, 256, 4) ∧
    ¬ (((testing id).core 0).repairEntry 252).getLsbD 8 ∧ 63 ∉ ((testing id).core 0).retired ∧
    ((testing id).core 0).goodSpare 63 = some 252 ∧
    ((testing fun x => { x with repair := [(252, 0x105)] }).core 0).repairEntry 252 = 0x105 ∧
    63 ∈ ((testing fun x => { x with retired := [63] }).core 0).retired ∧
    ((testing fun x => { x with repair := [(252, 0x101), (253, 0x200), (254, 0x200), (255, 0x102)] }).core 0).goodSpare
      63 = none := by
  refine ⟨?_, ?_, ?_, ?_, ?_, ?_, ?_, ?_, ?_, ?_⟩ <;> decide +kernel

/-! ### The masters -/

/-- The word of line 0x400's first bytes on its way home from core 0. -/
def wt (nt : Bool) : WtMsg := { core := 0, line := 0x400, mask := 0xF, data := 0x01020304, nt := nt, ctx := 0 }

/-- One of each that waits for the host: a fill, an atomic, a write, a line that moves. -/
def atomReq : AtomReq :=
  { core := 0, slot := 0, gid := 1, flight := 1, kind := .atom .add, wid := .b32, pa := 0x20000, lanes := []
    apl := 2, go := false, sent := 0 }
def fillReq (host : Bool) : FillReq := { core := 0, line := 0x400, low := false, l2 := false, host := host, go := none, sent := 0 }
def asking (s : State) : State :=
  { s with fills := [fillReq true], atoms := [atomReq], hostWrites := [wt false, wt true], moves := [(0x401, 0), (0x400, 0)] }

/-- A mailbox holding a command's code, context, size, address and length. -/
def mail (code c l a n : Nat) : List Byte :=
  bytesOfNat 8 code ++ bytesOfNat 1 c ++ bytesOfNat 7 l ++ bytesOfNat 8 a ++ bytesOfNat 8 n ++ List.replicate 32 0

/-- A context image at the start of object 2 with a job tag. -/
def image (tag : Nat) (s : State) : State := { s with mem := memStore s.mem 0x20000 (bytesOfNat 8 (tag * 2 ^ 32)) }

/-- Line 0x400 (object 2's first) with a publication's PEND set; its first sector with an ECC state. -/
def pended (s : State) : State := { s with dir := [(0x400, { DirEntry.init with pendBy := [9] })] }
def sector (e : Ecc) (s : State) : State := { s with ecc := [(0x1000, e)] }

/-- Queue 0's ring of 16 entries at line 0x400, empty. -/
def ringed (s : State) : State := s.updQueue 0 0 fun q => { q with en := true, base := 0x20000, log2 := 4 }

/-- A read that meets PEND or poison, a doorbell that meets PEND, and MBDB written with bit 0 clear. -/
theorem witness_hostWaits : (pended base).rangeReady 0x20000 129 = false ∧
    ((linesOf 0x20000 129).any fun l => base.noMemory l) = false ∧
    ((sector .poison base).readRange 0x20000 129).poisoned 0x20000 129 = true ∧
    (base.readRange 0x20000 129).poisoned 0x20000 129 = false ∧
    (let s := pended (ringed base)
     let e := (s.ctx 0).queues.getD 0 RQueue.zero
     e.en = true ∧ ((1 : Word) - e.tail).toNat ≠ 0 ∧ e.count < 2 ^ e.log2 ∧ s.boot = .ready ∧
     s.rangeReady (e.base + 8 * (e.tail.toNat % 2 ^ e.log2)) 8 = false) ∧ (2 : DWord).getLsbD 0 = false := by
  refine ⟨?_, ?_, ?_, ?_, ⟨?_, ?_, ?_, ?_, ?_⟩, ?_⟩ <;> decide +kernel

theorem witness_host : State.reset.hostFrozen = false ∧ ({ base with hostFrozen := true } : State).hostFrozen = true ∧
    base.rangeReady 0x20000 129 = true ∧ base.resident 0 = true ∧
    ((1 : DWord).getLsbD 0 = true ∧ base.mbBusy = false ∧ ({ base with mbBusy := true } : State).mbBusy = true) ∧
    (mbOk (mail 1 7 0 (2 ^ 40 - 1) 0) = true ∧ mbOk (mail 3 7 0 (2 ^ 64 - 1) 0) = true) ∧
    (mbOk (mail 0 0 0 0 0) = false ∧ mbOk (mail 7 0 0 0 0) = false ∧ mbOk (mail 1 8 0 0 0) = false) ∧
    (asking base).hostItems = [.fill 0, .atom 0, .write 0, .write 1, .move 0, .move 1] ∧
    (asking base).fills[0]?.isSome = true ∧ (asking base).atoms[0]?.isSome = true ∧
    (asking base).hostWrites[0]?.isSome = true := by
  refine ⟨?_, ?_, ?_, ?_, ⟨?_, ?_, ?_⟩, ⟨?_, ?_⟩, ⟨?_, ?_, ?_⟩, ?_, ?_, ?_, ?_⟩ <;> decide +kernel

/-- A submitted command. -/
def sub (m : List Byte) (s : State) : State := { s with mbBusy := true, mbCmd := m }


/-- A waybill of context 1 waits to take FAILED. -/
def unfailed (s : State) : State := { s with chores := [.failed 1], grids := [(1, {
  ctx := 1, wb := 0, code := 0, frame := 0, nteam := 1, gpt := 1, width := 16, eclass := 0, det := false, pair := false
  cset := false, lcnt := 0, launch := readLaunch [], lmap := [], hints := [], lastOn := [], cmask := 0, suspect := false
  complete := false, provisional := false })] }

theorem witness_mailbox : ((sub [] base).mbBusy = true ∧ (sub [] base).boot = .ready) ∧
    (mbField (mail 1 1 0 0x20000 0) 0 1 = 1 ∧ mbField (mail 1 1 0 0x20000 0) 8 1 = 1 ∧
      mbField (mail 1 1 0 0x20000 0) 16 8 = 0x20000) ∧
    (base.ctx 0).state ≠ .empty ∧ (base.ctx 1).state = .empty ∧ (0x20000 % 64 = 0 ∧ 0x20020 % 64 ≠ 0) ∧
    ((image 9 base).tagged? ((memDW (image 9 base).mem 0x20000).extractLsb' 32 32) = none ∧
      ((image 0 base).tagged? ((memDW (image 0 base).mem 0x20000).extractLsb' 32 32)).isSome = true) ∧
    (mbField (mail 2 1 0 0 0) 0 1 = 2 ∧ (base.ctx 1).state ≠ .resident ∧ ((second base).ctx 1).state = .resident ∧
      ((second base).failTeams 1).failing 1 = false ∧ ((unfailed (second base)).failTeams 1).failing 1 = true) ∧
    (mbField (mail 3 0 0 200000 0) 0 1 = 3 ∧ (base.arm 1 200000).1 ≠ 0 ∧ (base.arm 0 100000).1 = 0) ∧
    (mbField (mail 4 0 4 0x20 0) 0 1 = 4 ∧ mbField (mail 4 0 16 0x20 0) 9 1 = 16 ∧ mbField (mail 4 0 17 0x20 0) 9 1 = 17 ∧
      mbField (mail 4 0 3 0x20 0) 9 1 = 3) ∧
    (mbField (mail 5 0 0 8 64) 0 1 = 5 ∧ mbField (mail 5 0 0 8 64) 24 4 = 64) ∧ mbField (mail 6 0 0 0 0) 0 1 = 6 := by
  refine ⟨⟨?_, ?_⟩, ⟨?_, ?_, ?_⟩, ?_, ?_, ⟨?_, ?_⟩, ⟨?_, ?_⟩, ⟨?_, ?_, ?_, ?_, ?_⟩, ⟨?_, ?_, ?_⟩, ⟨?_, ?_, ?_, ?_⟩,
    ⟨?_, ?_⟩, ?_⟩ <;> decide +kernel

theorem witness_sideband : State.reset.sbFrozen = false ∧ ({ base with sbFrozen := true } : State).sbFrozen = true ∧
    ([0x10, 0xE0] : List Byte)[1]? ≠ some 0x84 ∧ ([0x10, 0x84] : List Byte)[1]? = some 0x84 ∧
    State.reset.boot = .off ∧ ({ base with boot := .refused } : State).boot = .refused ∧
    (State.reset.hostFrozen = false ∧ State.reset.sbFrozen = false) ∧
    ([0x10, 0xFE] : List Byte)[1]? = some 0xFE ∧ (base.die 1).hold = .none ∧
    (let v := (dieOne base).updDie 1 fun x => { x with hold := .reset }
     (v.die 1).out = false ∧ ((v.updDie 1 fun x => { x with out := true }).drainClusters (dieClusters 1)).2 = true) ∧
    (let v := (dieOne base).updDie 1 fun x => { x with out := true, portsUp := false }
     (v.die 1).out = true ∧ (v.die 1).portsUp = false) ∧
    (((base.updDie 1 fun x => { x with hold := .off }).die 1).hold = .off) := by
  refine ⟨?_, ?_, ?_, ?_, ?_, ?_, ⟨?_, ?_⟩, ?_, ?_, ⟨?_, ?_⟩, ⟨?_, ?_⟩, ?_⟩ <;> decide +kernel

/-! ### The pod -/

def head_ (jtag : Nat) : DgHead :=
  { ver := 1, src := 5, dst := 0, len := 0, jtag := BitVec.ofNat 32 jtag, cid := 1, chunk := 2, seq := 7, rsv := 0 }

/-- R424: the 32 bytes of a DATA datagram's header from device 5 to device 1, SEQ 7, of 8,192 payload bytes. -/
theorem test_datagram_header : ({ head_ 9 with dst := 1, len := 8192 } : DgHead).bytes 1 =
    [1, 1, 5, 0, 1, 0, 0, 0x20, 9, 0, 0, 0, 1, 0, 0, 0, 2, 0, 0, 0, 7, 0, 0, 0, 0, 0, 0, 0, 0, 0, 0, 0] ∧
    ({ head_ 9 with len := 8192 } : DgHead).bad = false ∧ ({ head_ 9 with len := 8193 } : DgHead).bad = true := by
  refine ⟨?_, ?_, ?_⟩ <;> decide +kernel

def kept_ (tries : Nat) : Sent := { peer := 5, typ := 1, h := head_ 0, payload := [], tries := tries }
def coll (next : Nat) (started : Bool) : Coll :=
  { ctx := 0, words := [0, 0, 0, 0x100000000, 0, 0, 0, 0], members := [(0, 0, 1), (5, 1, 1)], started := started, loaded := 0
    next := next, nodes := [], fallback := [] }
def inkAsk : InkMsg := { op := .readHome, ptr := mkPtr 4 0, gen := 0, val := 0, core := 0, slot := 0, lowest := true }
def inkReq (seq : Nat) : InkReq :=
  { core := 0, slot := 0, gid := 1, flight := 1, msg := inkAsk, dev := 5, ctx := 0, pa := 0x40000, lanes := 1, seq := seq }

/-- A device that has answered that group's request 7. -/
def replied (ws : Option (List DWord)) : State :=
  { base with keptReps := [{ peer := 5, seq := 7, words := ws, core := 0, slot := 0, ptr := mkPtr 4 0 }] }

theorem witness_datagrams : let h := head_ 0
    (({ h with rsv := 1 } : DgHead).bad = true ∧ base.tagged? (head_ 9).jtag = none ∧ base.tagged? h.jtag = some 0) ∧
    (h.bad = false ∧ (kept_ 16).matches h = true ∧ (kept_ 15).tries < 16 ∧ ¬ (kept_ 16).tries < 16 ∧
      (base.ctx 0).state = .running) ∧
    (({ base with colls := [coll 0 true] } : State).collAt 0 h.cid = some 0 ∧ base.seqIn = [] ∧
      h.chunk.toNat < (coll 3 true).next ∧ (coll 2 true).next ≤ h.chunk.toNat) ∧
    ((replied (some [])).keptReps.find? fun k => k.peer == h.src.toNat && k.seq == h.seq).map KeptRep.words = some (some []) ∧
    ((replied none).keptReps.find? fun k => k.peer == h.src.toNat && k.seq == h.seq).map KeptRep.words = some none ∧
    ((replied none).overtaken { h with seq := 6 } inkAsk = true ∧ base.overtaken h inkAsk = false) ∧
    base.keptReps = [] ∧ base.faults = [] ∧ base.chores = [] ∧ (0 : Nat) ≠ 255 ∧ ((inkReq 7).dev = h.src.toNat ∧ (inkReq 7).seq = h.seq.toNat) := by
  refine ⟨⟨?_, ?_, ?_⟩, ⟨?_, ?_, ?_, ?_, ?_⟩, ⟨?_, ?_, ?_, ?_⟩, ?_, ?_, ⟨?_, ?_⟩, ?_, ?_, ?_, ?_, ⟨?_, ?_⟩⟩ <;> decide +kernel

/-- A device with one module of each pair but the first, which has none. -/
def worn : State := { base with modules := [0, 1, 2, 4] }

theorem witness_podEvents : (coll 0 true).started = true ∧ ((coll 0 false).started = false ∧ (base.ctx (coll 0 false).ctx).state = .running ∧
      ((coll 0 false).word 4).toNat ≤ (((base.core 0).tl[0]?).getD 0).toNat) ∧
    (∃ d ∈ [kept_ 16], d.unacked = true ∧ d.peer = 5 ∧ 16 ≤ d.tries) ∧ ({ base with ptp := .locked } : State).ptp = .locked ∧
    worn.modules[1]? = some (0 + 1) ∧ worn.modules[2]? = some (1 + 1) ∧ worn.modules[0]? = some 0 := by
  refine ⟨?_, ⟨?_, ?_, ?_⟩, ?_, ?_, ?_, ?_, ?_⟩ <;> decide +kernel

/-! ### Homes -/

def upd : UpdMsg := { dest := 0, line := 0x400, mask := 0xF, data := 0, old := 0, new := 1, pub := 1, poison := 0 }
def mail1 : Inbox := { line := 0x401, mask := 1, data := 0, old := 0, new := 1, poison := 0 }
def full (n : Nat) : State := base.updCore 0 fun x => { x with inbox := List.replicate n mail1 }

/-- Sector 0x1000 (line 0x400) with an ECC state. -/
def faulty (e : Ecc) : State := { base with ecc := [(0x1000, e)] }

/-- Core 0's boundary unit waits for line 0x400, of publication 3. -/
def waiting : State := base.updCore 0 fun x => { x with boundary := some { unitDone with pending := [0x400], acked := [] } }

theorem witness_homes : ((∀ v ∈ [wt false].take 0, ¬ (v.core = 0 ∧ v.line = 0x400)) ∧
      base.behind (wt false).route (wt false).sent = false ∧ (wt false).poison = 0 ∧ (base.dirOf 0x400).contrib = [] ∧
      ∀ i < 4, tabFind base.ecc (4 * 0x400 + i) = none) ∧
    (base.drops = [] ∧ (full 31).drops = [] ∧ (∀ e ∈ ((full 31).core 0).inbox, e.line ≠ upd.line) ∧
      ((full 31).core 0).inbox.length < 32 ∧ (∀ e ∈ ((full 32).core 0).inbox, e.line ≠ upd.line) ∧
      ¬ ((full 32).core 0).inbox.length < 32) ∧
    (∃ c ∈ ((cached 0x400 base).core 0).l1, c.line = 0x400) ∧ ((waiting.core 0).boundary.map Boundary.job) = some 3 ∧
    (waiting.core 0).flushes = [] ∧
    (let f : FillReq := { fillReq false with line := 2 ^ 31 }
     f.route.1 ≠ f.route.2 ∧ f.here = false ∧ (base.die f.route.2).out = true ∧ base.behind f.route f.sent = false) ∧
    ¬ ((fillReq false).route.1 ≠ (fillReq false).route.2) ∧ base.roomFor (fillReq false) = true ∧
    (base.homeReady 0x400 = true ∧ base.wts = [] ∧ base.hostWrites = [] ∧
      base.behind (fillReq false).route (fillReq false).sent = false ∧ (fillReq false).host = false ∧
      ({ fillReq true with go := some 0 } : FillReq).go.isSome = true) ∧
    ((base.die (32 * 0x1000 / 2 ^ 38)).out = false ∧ tabFind (faulty (.raw 3)).ecc 0x1000 = some (.raw 3) ∧
      tabFind (faulty .uncorr).ecc 0x1000 = some .uncorr) := by
  refine ⟨⟨?_, ?_, ?_, ?_, ?_⟩, ⟨?_, ?_, ?_, ?_, ?_, ?_⟩, ?_, ?_, ?_, ⟨?_, ?_, ?_, ?_⟩, ?_, ?_, ⟨?_, ?_, ?_, ?_, ?_, ?_⟩, ⟨?_, ?_, ?_⟩⟩ <;> decide +kernel

/-! ### Retries -/

/-- An access of lane 0 that was logged: its kind, pointer and physical address. -/
def access1 (k : MemKind) (p : DWord) (pa : Nat) : LogEntry :=
  { entry with op := { entry.op with req := { entry.op.req with
      kind := k, elems := [{ lane := 0, j := 0, ptr := p, pa := pa, data := 0, cmp := 0, dev := 0 }] } } }

/-- The group with that access in its log, and what trying it again comes to. -/
def retrying (k : MemKind) (p : DWord) (pa : Nat) : State := withG (fun g => { g with log := [access1 k p pa] }) base
def redone (k : MemKind) (p : DWord) (pa : Nat) : Nat :=
  match (retrying k p pa).redo ((access1 k p pa).op.actor 0 0) (grpOf (retrying k p pa)) (access1 k p pa).op.req with
  | .trap _ _ => 0 | .absent _ _ _ => 1 | .done _ => 2 | .fly _ _ => 3 | _ => 4

theorem witness_replay : (base.group 0 0).isSome = true ∧ (grpOf base).trap = false ∧
    (grpOf (retrying .ld (mkPtr 2 0) 0)).log.find? (fun e => e.st == .ready) = some (access1 .ld (mkPtr 2 0) 0) ∧
    redone .ld (mkPtr 2 0x10000) 0 = 0 ∧ redone .ld (mkPtr 5 0x5000) 0 = 1 ∧
    (redone .st (mkPtr 2 0) 0 = 2 ∧ MemKind.st.commits = false) ∧ redone .ld (mkPtr 2 0) 0 = 3 := by
  refine ⟨?_, ?_, ?_, ?_, ?_, ⟨?_, ?_⟩, ?_⟩ <;> decide +kernel

theorem witness_refusal :
    let f := fun (w : FaultFor) => ({ ctx := 0, on := 5, ext := 0, who := w } : FaultRec)
    (f (.copy 0 1)).who = .copy 0 1 ∧ (f (.log 0 0)).who = .log 0 0 ∧ (f (.stall 0 0)).who = .stall 0 0 ∧
    (f (.ink (head_ 0) inkAsk)).who = .ink (head_ 0) inkAsk ∧ (base.group 0 0).isSome = true ∧
    (grpOf base).trap = false := by
  refine ⟨rfl, rfl, rfl, rfl, ?_, ?_⟩ <;> decide +kernel

/-- The request's operation in flight, so that a reply finds its group. -/
def awaitingInk (k : MemKind) : State :=
  withG (fun g => { g with flight := [{ (access1 k (mkPtr 4 0) 0x40000).op with cls := .ld }] }) base

theorem witness_inkEvents : base.homeReady (0x40000 / 128) = true ∧ base.behind (inkReq 0).route (inkReq 0).sent = false ∧ (base.die (0x40000 / 2 ^ 38)).out = false ∧
    (base.die (2 ^ 38 / 2 ^ 38)).out = true ∧ base.homeReady (2 ^ 38 / 128) = true ∧ base.inkOwner (inkReq 0) = none ∧
    ((awaitingInk (.ink .readHome)).inkOwner (inkReq 0)).isSome = true ∧ Cause.homeOffline ≠ .none ∧
    (grpOf base).det = false ∧ ¬ (inkState 0 = 1 ∧ 0 ≤ 1) ∧ (MemKind.ink .readHome).commits = false := by
  refine ⟨?_, ?_, ?_, ?_, ?_, ?_, ?_, ?_, ?_, ?_, ?_⟩ <;> decide +kernel

/-! ### Engines and the scheduler -/

/-- Core 0 with a request of the kick list in its queue, as KICK leaves it; and as a transfer. -/
def kicked1 : CopyReq := (kickList (kicked 2 0x100 1) 1).headD
  { seq := 0, slot := 0, team := 0, ctx := 0, gid := 0, words := [], seg := ⟨0, 0⟩, hsrc := none, hdst := none, pc := 0
    iword := 0, idx := 0, rc := 0, gidx := 0, width := 0, clr := []
    dsrc := none, ddst := none, epoch := 0, old := false, toClear := [] }
def queued : State := (kicked 2 0x100 1).updCore 0 fun x => { x with copyq := [kicked1] }
def moving (t : Transfer) : State := (kicked 2 0x100 1).updCore 0 fun x => { x with active := [t] }
def piece : Piece := { recv := 0, dst := .scr 0 1 0, bytes := [1], poison := 0, count := false }

theorem witness_copies : queued.nextCopy 0 = some 0 ∧ (queued.core 0).copyq[0]? = some kicked1 ∧ kicked1.toClear = [] ∧
    ({ kicked1 with toClear := [(1, 0)] } : CopyReq).toClear = (1, 0) :: [] ∧
    (match (moving { begun kicked1 with pieces := [piece] }).landPiece 0 { begun kicked1 with pieces := [piece] } piece with
      | .ok _ => true | _ => false) = true ∧
    (match base.landPiece 0 (begun kicked1) { piece with dst := .glb (mkPtr 5 0) } with
      | .absent _ _ _ => true | _ => false) = true ∧
    (let r := queued.moveOn 0 (begun kicked1)
     ¬ (r.2.next = 0 ∧ r.2.paused = none ∧ r.2.cause = .none)) ∧
    (((moving { begun kicked1 with pieces := [piece] }).core 0).pending[0]?.isSome = true ∧
      ((moving { begun kicked1 with pieces := [piece] }).core 0).tileHeld { begun kicked1 with pieces := [piece] } piece = false) ∧
    ((begun kicked1).pieces = [] ∧ (begun kicked1).allRead 0 = false ∧
      ({ begun kicked1 with next := (kicked1.parts 0).length } : Transfer).allRead 0 = true ∧ kicked1.boe = false) ∧
    ((kicked1.tinc = 0 ∨ ∀ q ∈ ([] : List CopyReq), ¬ (q.seq < kicked1.seq ∧ q.tinc ≠ 0 ∧ q.tln = kicked1.tln))) ∧
    (({ begun kicked1 with cause := .extAbsent } : Transfer).cause ≠ .none ∧ kicked1.clr = []) := by
  refine ⟨?_, ?_, ?_, ?_, ?_, ?_, ?_, ⟨?_, ?_⟩, ⟨?_, ?_, ?_, ?_⟩, ?_, ⟨?_, ?_⟩⟩ <;> decide +kernel

/-- A piece of two bytes whose word lies half in it: its line's other bytes are still to be read, or have been. -/
theorem witness_ragged : let p : Piece := { piece with dst := .scr 0 1 0x1000, bytes := [1, 2] }
    p.ragged = true ∧ (begun kicked1).halfRead 0 p = true ∧ piece.ragged = true ∧
    ({ piece with bytes := [1, 2, 3, 4] } : Piece).ragged = false ∧
    ({ begun kicked1 with next := (kicked1.parts 0).length } : Transfer).halfRead 0 p = false := by
  refine ⟨?_, ?_, ?_, ?_, ?_⟩ <;> decide +kernel

/-- Array 1 of core 0 changed. -/
def arr (f : StArray → StArray) : State := base.updArray 0 1 f
def sweepCmd : ACmd :=
  { kind := .sweep 1 0 0, slot := 0, team := 1, ctx := 0, gidx := 0, id := 1, mask := 1, exec := 1, pc := 0, iword := 0 }
def ctlCmd : ACmd := { sweepCmd with kind := .ctl 0 0 }
def statCmd : ACmd := { sweepCmd with kind := .rdStat 12 }

theorem witness_stippleEvents :
    (((arr fun a => { a with queue := [sweepCmd] }).core 0).array 1).queue.head? = some sweepCmd ∧
    (((arr fun a => { a with stallNow := true }).core 0).array 1).stallNow = true ∧
    base.still 0 = false ∧ ((arrayOff.core 0).array 1).oos = true ∧ ((base.core 0).array 1).oos = false ∧
    (((arr fun a => { a with sc := 0xFFFFFFFFFFFF }).core 0).array 1).sc.toNat = 2 ^ 48 - 1 ∧
    ((base.core 0).array 1).sc.toNat ≠ 2 ^ 48 - 1 ∧ (base.draining 0 = false ∧ (scanned base).draining 0 = true) ∧
    (match (((arr fun a => { a with up := true, sent := 9, base := 0 }).core 0).array 1).select 5 with
      | .missing => true | _ => false) = true ∧
    ((arr fun a => { a with peer := 1020 }).updCluster 63 fun x => { x with withdrawn := true }).peerGone 0 1 = true ∧
    (match ((base.core 0).array 1).select 0 with | .take _ => true | _ => false) = true ∧
    (match (((arr fun a => { a with up := true, sent := 4, tags := [{ tag := 5, bits := 0 }] }).core 0).array 1).select 5 with
      | .stall => true | _ => false) = true := by
  refine ⟨?_, ?_, ?_, ?_, ?_, ?_, ?_, ⟨?_, ?_⟩, ?_, ?_, ?_, ?_⟩ <;> decide +kernel

theorem witness_arrayCommands : (ctlCmd.kind.barred = true ∧ base.awaits 0 1 ctlCmd = false) ∧
    statCmd.kind.barred = false ∧
    ((withG (fun g => { g with arrWait := some (1, 1) }) base).awaits 0 1 ctlCmd = true) ∧
    (match base.perform 0 1 ctlCmd with | .ok _ => true | _ => false) = true ∧
    (match arrayOff.perform 0 1 statCmd with | .ok _ => true | _ => false) = true ∧
    (∀ l n k, ctlCmd.kind ≠ .sweep l n k) := by
  refine ⟨⟨?_, ?_⟩, ?_, ?_, ?_, ?_, fun l n k h => ?_⟩ <;> first | decide +kernel | cases h

/-- The one thread of the group watches. -/
def watching : State := withG (fun g => { g with lanes := g.lanes.zipIdx.map fun x =>
  { x.1 with st := if x.2 = 0 then .mon .watch else .exited } }) base

/-- Core 0 holds a parked group that can go on, or that cannot yet. -/
def parkedGrp (r : Bool) : Parked := { group := grp, mons := [.watch], ready := r, key := 128 }

/-- Context 0's queues looked at anew. -/
def refreshed (s : State) : State := (List.range 16).foldl (fun (s : State) k => s.refreshQueue 0 k) s

theorem witness_scheduler : ((grpOf watching).allMon = true ∧ watching.canStop 0 0 (grpOf watching) = true ∧
      watching.stopping (grpOf watching).team = false ∧ (grpOf watching).fw = false) ∧ base.chores = [] ∧
    (base.allot 1 0).isSome = true ∧ (State.stageBoundary { base with floorDue := some 0 } 0 = true) ∧
    ((base.cluster 0).drained = false ∧ State.stageBoundary { loading base with floorDue := some 0 } 0 = false) ∧
    (base.wreqTry 0 1 .reg 0).1.isSome = true ∧
    base.admitting = some 0 ∧ (refreshed base).serving 0 = true ∧ (∃ p ∈ [parkedGrp true], p.ready = true) ∧
    (∀ p ∈ [parkedGrp false], p.ready = false) ∧ (refreshed base).offerConts 0 0 ((refreshed base).ctx 0).conts = none ∧
    (armedTo base).armed.isSome = true ∧ (base.ctxs.find? fun e => e.2.state == .running).isSome = true ∧
    (base.gtime.toNat < 200000 ∧ (0 : Nat) ≤ base.gtime.toNat) ∧ ((base.cluster 0).inSvc = true ∧ base.scanning ≠ some 0) := by
  refine ⟨⟨?_, ?_, ?_, ?_⟩, ?_, ?_, ?_, ⟨?_, ?_⟩, ?_, ?_, ?_, ?_, ?_, ?_, ?_, ?_, ⟨?_, ?_⟩, ⟨?_, ?_⟩⟩ <;> decide +kernel

/-- The premises of an admission: nothing put off; no context that may admit; a quiesced one; no context that
runs while a switch is armed. -/
theorem witness_admission : base.chores = [] ∧ base.hostq = [] ∧ (base.die 1).hold = .none ∧
    base.takeUp.admitting = some 0 ∧ (State.takeUp { base with ctxs := [] }).admitting = none ∧
    (base.takeUp.ctx 0).qui = false ∧ ((base.setQui 0 true).takeUp.ctx 0).qui = true ∧
    (base.setQui 0 true).takeUp.serving 0 = true ∧ base.takeUp.serving 255 = false ∧
    (let s := armedTo { base with ctxs := [], gtime := 200000 }
     s.armed.isSome = true ∧ s.ctxs.find? (fun e => e.2.state == .running) = none ∧ s.canFlushAll = true) := by
  refine ⟨?_, ?_, ?_, ?_, ?_, ?_, ?_, ?_, ?_, ⟨?_, ?_, ?_⟩⟩ <;> decide +kernel

/-! ### Whole-machine statements -/

theorem witness_registerReadBack :
    FormRuns base ⟨⟨false, .all⟩, [], [], [4], []⟩ (grpOf base) 1 0 ∧ lanesOf 1 = [0] ∧ 0 < (grpOf base).width ∧
    ((grpOf base).views.vec.toNat % 4 = 0 ∧ (grpOf base).segReg.base.toNat % 128 = 0 ∧
      (grpOf base).segMat.base.toNat % 128 = 0 ∧
      ∃ r key, (grpOf base).wAddr ((grpOf base).vecOfs 4 + 4 * 0) = some r ∧ (base.core 0).rowKey r = some key) := by
  refine ⟨runs_of (by decide +kernel), by decide +kernel, by decide +kernel, by decide +kernel, by decide +kernel,
    by decide +kernel, ?_⟩
  have h : (((grpOf base).wAddr ((grpOf base).vecOfs 4 + 4 * 0)).bind fun r => (base.core 0).rowKey r).isSome = true := by
    decide +kernel
  obtain ⟨key, h⟩ := Option.isSome_iff_exists.mp h
  obtain ⟨r, hr, hk⟩ := Option.bind_eq_some_iff.mp h
  exact ⟨r, key, hr, hk⟩

theorem witness_memoryStaysCanonical : MemOk State.reset ∧ ∃ t, step State.reset = .next t := by
  refine ⟨show Memory.wf State.reset.mem = true by decide +kernel, ?_⟩
  exact ⟨_, rfl⟩

end Sys2Proof.Tests
end

section
/-! SUPPORT. What a request served at a line's home leaves alone: the boot, the mailbox command, the atomics
under way and the states of the contexts. -/

namespace Sys2Proof.Machine

/-- From `s` to `t` the boot's progress, the submitted command, the atomics under way and every context's state
(R383) stand as they were. -/
structure HomeKept (s t : State) : Prop where
  boot : t.boot = s.boot
  busy : t.mbBusy = s.mbBusy
  cmd : t.mbCmd = s.mbCmd
  atoms : t.atoms = s.atoms
  ctx : ∀ c, (t.ctx c).state = (s.ctx c).state

theorem HomeKept.refl (s : State) : HomeKept s s := ⟨rfl, rfl, rfl, rfl, fun _ => rfl⟩

theorem HomeKept.trans {s t u : State} (a : HomeKept s t) (b : HomeKept t u) : HomeKept s u :=
  ⟨b.boot.trans a.boot, b.busy.trans a.busy, b.cmd.trans a.cmd, b.atoms.trans a.atoms,
    fun c => (b.ctx c).trans (a.ctx c)⟩

/-- The last change first, so that its starting state is known when the first one is looked at. -/
theorem HomeKept.after {s t u : State} (b : HomeKept t u) (a : HomeKept s t) : HomeKept s u := a.trans b

theorem HomeKept.foldl {α : Type} {f : State → α → State} (h : ∀ s a, HomeKept s (f s a)) (l : List α) (s : State) :
    HomeKept s (l.foldl f s) := by
  induction l generalizing s with
  | nil => exact .refl s
  | cons a r ih => exact (h s a).trans (ih (f s a))

theorem HomeKept.updCore (s : State) (c : Nat) (f : Core → Core) : HomeKept s (s.updCore c f) :=
  ⟨rfl, rfl, rfl, rfl, fun _ => rfl⟩

theorem HomeKept.updDie (s : State) (d : Nat) (f : Die → Die) : HomeKept s (s.updDie d f) :=
  ⟨rfl, rfl, rfl, rfl, fun _ => rfl⟩

theorem HomeKept.updDir (s : State) (l : Nat) (f : DirEntry → DirEntry) : HomeKept s (s.updDir l f) :=
  ⟨rfl, rfl, rfl, rfl, fun _ => rfl⟩

theorem HomeKept.updCtx (s : State) (c : Nat) {f : Ctx → Ctx} (h : ∀ x, (f x).state = x.state) :
    HomeKept s (s.updCtx c f) := by
  refine ⟨rfl, rfl, rfl, rfl, fun k => ?_⟩
  by_cases hk : k = c
  · subst hk; simp [h]
  · rw [s.ctx_updCtx_ne f hk]

theorem HomeKept.updGrid (s : State) (n : Nat) (f : Grid → Grid) : HomeKept s (s.updGrid n f) := by
  unfold State.updGrid
  split
  · exact ⟨rfl, rfl, rfl, rfl, fun _ => rfl⟩
  · exact .refl s

theorem HomeKept.putRecord (s : State) (a : Nat) (bs : List Byte) : HomeKept s (s.putRecord a bs) :=
  ⟨rfl, rfl, rfl, rfl, fun _ => rfl⟩

/-- The ring of completion records and the signals to the host may move besides. -/
theorem HomeKept.signals {s t : State} (h : HomeKept s t) (n : Nat) (l : List Nat) :
    HomeKept s { t with crTail := n, msix := l } := ⟨h.boot, h.busy, h.cmd, h.atoms, h.ctx⟩

theorem HomeKept.setTeams {s t : State} (h : HomeKept s t) (l : Tab Team) : HomeKept s { t with teams := l } :=
  ⟨h.boot, h.busy, h.cmd, h.atoms, h.ctx⟩

/-! ## Error records -/

theorem HomeKept.aeqAppend (s : State) (c : Nat) (r : TrapRec) : HomeKept s (s.aeqAppend c r) := by
  unfold State.aeqAppend
  dsimp only
  split
  · exact .updCtx s c fun _ => rfl
  · refine .after (.updCtx _ c ?_) ((HomeKept.putRecord s _ _).signals _ _)
    exact fun _ => rfl

theorem HomeKept.storeUe (s : State) (c sec : Nat) : HomeKept s (s.storeUe c sec) := by
  unfold State.storeUe
  dsimp only
  split
  · exact ⟨rfl, rfl, rfl, rfl, fun _ => rfl⟩
  · exact .aeqAppend s c _

/-! ## Sectors and lines -/

theorem HomeKept.podNotice (s : State) (w : PodWatch) : HomeKept s (s.podNotice w) :=
  ⟨rfl, rfl, rfl, rfl, fun _ => rfl⟩

theorem HomeKept.inkNotices (s : State) (line : Nat) (p : DWord → Word → Bool) : HomeKept s (s.inkNotices line p) := by
  unfold State.inkNotices
  dsimp only
  split
  · exact .refl s
  · exact .after (.updDir _ _ _) (.after (.foldl (fun s w => .podNotice s w) _ _)
      (.foldl (fun s w => .updCore s _ _) _ s))

theorem HomeKept.markPoison (s : State) (sec : Nat) : HomeKept s (s.markPoison sec) :=
  .after (.inkNotices _ _ _) ⟨rfl, rfl, rfl, rfl, fun _ => rfl⟩

theorem HomeKept.readSector (s : State) (sec : Nat) : HomeKept s (s.readSector sec) := by
  unfold State.readSector
  split
  · exact .markPoison s sec
  · exact .updDie s _ _
  · exact .refl s

/-- A sector that a store touches is left, cleaned, or stays poisoned with a record of it (R102, R103). -/
theorem HomeKept.storeLine (s : State) (c line : Nat) (data : Line) (m : LineMask) :
    HomeKept s (s.storeLine c line data m) := by
  unfold State.storeLine
  refine .after (HomeKept.foldl (fun s i => ?_) _ _) ⟨rfl, rfl, rfl, rfl, fun _ => rfl⟩
  dsimp only
  split
  · exact .refl s
  split
  · exact ⟨rfl, rfl, rfl, rfl, fun _ => rfl⟩
  split
  · exact (HomeKept.markPoison s _).trans (.storeUe _ c _)
  · exact (HomeKept.markPoison s _).trans (.storeUe _ c _)
  · exact (HomeKept.readSector s _).trans ⟨rfl, rfl, rfl, rfl, fun _ => rfl⟩
  · exact .refl s

theorem HomeKept.putHome (s : State) (pa : Nat) (bs : List Byte) : HomeKept s (s.putHome pa bs) :=
  ⟨rfl, rfl, rfl, rfl, fun _ => rfl⟩

/-! ## The slices -/

theorem HomeKept.accepted (s : State) (pub : Nat) : HomeKept s (s.accepted pub) := by
  unfold State.accepted
  split
  · exact .refl s
  · split <;> exact ⟨rfl, rfl, rfl, rfl, fun _ => rfl⟩

theorem HomeKept.setShr (s : State) (core line : Nat) (b : Bool) : HomeKept s (s.setShr core line b) := by
  unfold State.setShr
  split
  · exact .updDir s _ _
  · exact .refl s

theorem HomeKept.deliver (s : State) (u : UpdMsg) : HomeKept s (s.deliver u) := by
  unfold State.deliver
  dsimp only
  split
  · exact (HomeKept.updCore s _ _).trans (.accepted _ _)
  split
  · exact (HomeKept.updCore s _ _).trans (.accepted _ _)
  · exact (HomeKept.setShr s _ _ _).trans ⟨rfl, rfl, rfl, rfl, fun _ => rfl⟩

theorem HomeKept.deliverDrop (s : State) (m : DropMsg) : HomeKept s (s.deliverDrop m) :=
  (HomeKept.updCore s _ _).trans (.foldl (fun s p => .accepted s p) _ _)

theorem HomeKept.settle (s : State) (line : Nat) : HomeKept s (s.settle line) := by
  have updates : HomeKept s ((s.upds.filter fun u => u.line == line).foldl State.deliver
      { s with upds := s.upds.filter fun u => u.line != line }) :=
    .after (.foldl (fun s u => .deliver s u) _ _) ⟨rfl, rfl, rfl, rfl, fun _ => rfl⟩
  exact updates.trans (.after (.foldl (fun s m => .deliverDrop s m) _ _) ⟨rfl, rfl, rfl, rfl, fun _ => rfl⟩)

theorem HomeKept.evictLine (s : State) (line : Nat) : HomeKept s (s.evictLine line) :=
  (HomeKept.settle s line).trans ⟨rfl, rfl, rfl, rfl, fun _ => rfl⟩

theorem HomeKept.sliceRoom (s : State) (sl : Nat × Nat) : HomeKept s (s.sliceRoom sl) := by
  unfold State.sliceRoom
  dsimp only
  split
  · exact .refl s
  split
  · exact .refl s
  split
  · exact .evictLine s _
  split
  · exact .updDie s _ _
  · exact .refl s

theorem HomeKept.atHome (s : State) (line : Nat) : HomeKept s (s.atHome line) := by
  unfold State.atHome
  split
  · exact .refl s
  · exact (HomeKept.sliceRoom s _).trans (.updDir _ _ _)

/-! ## Waybills -/

theorem HomeKept.setWbState (s : State) (pa v : Nat) : HomeKept s (s.setWbState pa v) :=
  ((HomeKept.atHome s _).trans (.readSector _ _)).trans (.putHome _ _ _)

theorem HomeKept.completion (s : State) (r : ComplRec) : HomeKept s (s.completion r) := by
  unfold State.completion
  split
  · exact .refl s
  · exact (HomeKept.putRecord s _ _).signals _ _

theorem HomeKept.fault (s : State) (r : FaultRec) : HomeKept s (s.fault r) := by
  unfold State.fault
  split
  · exact .refl s
  · exact ⟨rfl, rfl, rfl, rfl, fun _ => rfl⟩

theorem HomeKept.atGrid (s : State) (g : Grid) (me : FaultFor) {k : Nat → State} (h : ∀ pa, HomeKept s (k pa)) :
    HomeKept s (s.atGrid g me k) := by
  unfold State.atGrid
  split
  · exact .fault s _
  · exact .aeqAppend s _ _
  · split
    · exact h _
    · exact ⟨rfl, rfl, rfl, rfl, fun _ => rfl⟩

theorem HomeKept.markFailed (s : State) (gid : Nat) : HomeKept s (s.markFailed gid) := by
  unfold State.markFailed
  split
  · exact .refl s
  · refine .atGrid s _ _ fun pa => ?_
    split
    · exact .refl s
    · exact (HomeKept.setWbState s pa 4).trans (.completion _ _)

theorem HomeKept.updQueue (s : State) (c q : Nat) (f : RQueue → RQueue) : HomeKept s (s.updQueue c q f) :=
  .updCtx s c fun _ => rfl

/-- The head of a ready queue taken off it, before an overflow entry takes a place in the ring (R358). -/
def State.dropHead (s : State) (c qn : Nat) : State :=
  let q := (s.ctx c).queues.getD qn RQueue.zero
  let s0 : State := { s with faults := s.faults.filter fun f => !f.ofQueue c qn }
  (s0.updQueue c qn fun q => { q with
      head := q.head + 1, stuck := false
      held := q.held && decide (q.count > 1)
      age := if q.count > 1 then q.age else 0 }).updCtx
    c fun x => { x with placed := x.placed.filter fun p => some p.wb != s.headWb q }

theorem HomeKept.dropHead (s : State) (c qn : Nat) : HomeKept s (s.dropHead c qn) := by
  unfold State.dropHead
  refine .after (.updCtx _ c ?_) (.after (.updQueue _ c qn _) ⟨rfl, rfl, rfl, rfl, fun _ => rfl⟩)
  exact fun _ => rfl

theorem HomeKept.leaveQueue (s : State) (c qn : Nat) : HomeKept s (s.leaveQueue c qn) := by
  have head := HomeKept.dropHead s c qn
  unfold State.leaveQueue
  dsimp only
  split
  · exact head
  · exact .after (.updQueue _ c qn _) (.after (.storeLine _ c _ _ _) head)

theorem HomeKept.leaveHead (s : State) (c : Nat) (wb : DWord) : HomeKept s (s.leaveHead c wb) := by
  refine .foldl (fun s qn => ?_) _ s
  split
  · exact .leaveQueue s c qn
  · exact .refl s

theorem HomeKept.failWaybill (s : State) (gid : Nat) (g : Grid) : HomeKept s (s.failWaybill gid g) :=
  ((HomeKept.leaveHead s _ _).trans (.updGrid _ _ _)).trans (.markFailed _ _)

/-- The waybills of a context's live teams have taken FAILED: the first half of `State.failTeams`. -/
def State.failGrids (s : State) (c : Nat) : State :=
  let live := fun (gid : Nat) => s.teams.any fun t => t.2.live && t.2.grid == gid
  (s.grids.filter fun g => g.2.ctx == c && live g.1).foldl (fun (s : State) g => s.failWaybill g.1 g.2) s

/-- A team of a context that is to be emptied lives no longer. -/
def Team.discarded (c : Nat) (t : Team) : Team :=
  if t.ctx == c then { t with live := false, dead := t.live || t.dead } else t

theorem State.failTeams_eq (s : State) (c : Nat) :
    s.failTeams c = { s.failGrids c with teams := (s.failGrids c).teams.map fun t => (t.1, t.2.discarded c) } := rfl

theorem HomeKept.failGrids (s : State) (c : Nat) : HomeKept s (s.failGrids c) :=
  HomeKept.foldl (f := fun (s : State) (g : Nat × Grid) => s.failWaybill g.1 g.2)
    (fun s g => .failWaybill s g.1 g.2) _ s

theorem HomeKept.failTeams (s : State) (c : Nat) : HomeKept s (s.failTeams c) := by
  rw [State.failTeams_eq]
  exact (HomeKept.failGrids s c).setTeams _

end Sys2Proof.Machine
end

section
/-! SUPPORT. The state after reset. -/

namespace Sys2Proof.Slice0
open Sys2Proof.Machine

/-- Settles O58: reset lists no core, context, die, cluster or byte, so each reads as its default. -/
theorem resetState : Obligations.ResetState := by
  have cores : ∀ c, State.reset.core c = Core.init := fun _ => rfl
  have dies : ∀ d, State.reset.die d = Die.init := fun _ => rfl
  have clusters : ∀ k, State.reset.cluster k = Cluster.init := fun _ => rfl
  have ctxs : ∀ c, State.reset.ctx c = Ctx.init := fun _ => rfl
  refine ⟨rfl, rfl, rfl, fun d => ?_, fun k => ?_, fun c => ?_, fun c => ?_, rfl, rfl, rfl, fun _ => rfl⟩
  · rw [dies]; rfl
  · rw [clusters]; rfl
  · rw [cores]; exact ⟨rfl, rfl, rfl, rfl, rfl, rfl, rfl, rfl, rfl, rfl, rfl, rfl⟩
  · rw [ctxs]; rfl

end Sys2Proof.Slice0
end

section
/-! SUPPORT. What the host's accesses come to (R19, R414 to R419): one equation for each request and each case of it. -/

namespace Sys2Proof.Machine

theorem listUpd_eq_set {α : Type} (f : α → α) {l : List α} {i : Nat} {x : α} (h : l[i]? = some x) :
    listUpd f l i = l.set i (f x) := by
  refine List.ext_getElem? fun k => ?_
  rw [getElem?_listUpd, List.getElem?_set]
  obtain ⟨hi, hx⟩ := List.getElem?_eq_some_iff.mp h
  by_cases hk : i = k
  · subst hk; simp [hx, hi]
  · simp [hk, Ne.symm hk]

theorem State.byHost_frozen {s : State} (h : s.hostFrozen = true) (n : Nat) (k : State → State) :
    s.byHost n k = s.hostError n := by simp [State.byHost, h]

theorem State.byHost_live {s : State} (h : s.hostFrozen = false) (n : Nat) (k : State → State) :
    s.byHost n k = k { s with rejected := false } := by simp [State.byHost, h]

/-! ## Reads and writes of memory -/

theorem State.hostRead_noMemory {s : State} {a n : Nat}
    (h : (linesOf a n).any (fun l => s.noMemory l || reservedLine l) = true) :
    s.hostRead a n = { s with hostReply := List.replicate n 0xFF, hostPoison := true } := by
  simp [State.hostRead, h]

theorem State.hostRead_waits {s : State} {a n : Nat}
    (h : (linesOf a n).any (fun l => s.noMemory l || reservedLine l) = false) (hr : s.rangeReady a n = false) :
    s.hostRead a n = s.keepHost (.read a n) := by
  simp [State.hostRead, h, hr]

theorem State.hostRead_ready {s : State} {a n : Nat}
    (h : (linesOf a n).any (fun l => s.noMemory l || reservedLine l) = false) (hr : s.rangeReady a n = true) :
    s.hostRead a n = { s.readRange a n with
      hostReply := if (s.readRange a n).poisoned a n = true then List.replicate n 0xFF
        else memBytes (s.readRange a n).mem a n
      hostPoison := (s.readRange a n).poisoned a n } := by
  cases hp : (s.readRange a n).poisoned a n <;> simp [State.hostRead, h, hr, hp]

/-! ## Doorbells -/

theorem State.takeEntries_waits {s : State} {c q : Nat} (tail : Word) {e : RQueue}
    (he : (s.ctx c).queues.getD q RQueue.zero = e) (hr : s.rangeReady (e.entryAt e.tail.toNat) 8 = false) (n : Nat) :
    s.takeEntries c q tail (n + 1) = s.keepHost (.queue c q tail) := by
  simp only [State.takeEntries, he, hr, Bool.not_false, if_true]

/-- A doorbell of a queue that may be read and has room for an entry, whose first entry lies in a line with PEND
set, waits in the place of an earlier one (R358, R304). -/
theorem State.queueDoorbell_waits {s : State} {c q : Nat} {tail : Word} {e : RQueue}
    (he : (s.ctx c).queues.getD q RQueue.zero = e) (hc : s.resident c = true) (hb : s.boot = .ready)
    (hen : e.en = true) (hn : (tail - e.tail).toNat ≠ 0) (hroom : e.count < 2 ^ e.log2)
    (hr : s.rangeReady (e.base + 8 * (e.tail.toNat % 2 ^ e.log2)) 8 = false) :
    s.queueDoorbell c q tail = { s with
      hostq := (s.hostq.filter fun r => match r with | .queue i j _ => !(i == c && j == q) | _ => true) ++
        [.queue c q tail] } := by
  obtain ⟨m, hm⟩ : ∃ m, min (tail - e.tail).toNat (2 ^ e.log2 - e.count) = m + 1 :=
    Nat.exists_eq_succ_of_ne_zero (by omega)
  have others : (s.hostq.filter fun r => !(match r with | .queue i j _ => i == c && j == q | _ => false)) =
      s.hostq.filter fun r => match r with | .queue i j _ => !(i == c && j == q) | _ => true :=
    List.filter_congr fun r _ => by cases r <;> rfl
  have taken : s.queueDoorbell c q tail = State.takeEntries { s with
      hostq := s.hostq.filter fun r => !(match r with | .queue i j _ => i == c && j == q | _ => false) }
      c q tail (min (tail - e.tail).toNat (2 ^ e.log2 - e.count)) := by
    subst he
    exact if_neg (by simp only [hc, hb, hen]; decide)
  have waits : ∀ l : List HostReq, State.takeEntries { s with hostq := l } c q tail (m + 1) =
      { s with hostq := l ++ [.queue c q tail] } :=
    fun l => State.takeEntries_waits (s := { s with hostq := l }) tail he hr m
  rw [taken, hm, others, waits]

/-! ## Registers -/

theorem State.writeBar0_mbox (s : State) (v : DWord) {c : Nat} (h : c < 8) :
    s.writeBar0 (0x40 + 8 * c) v = { s with
      mbox := s.mbox.take (8 * c) ++ bytesOfNat 8 v.toNat ++ s.mbox.drop (8 * c + 8) } := by
  have first : 0x40 + 8 * c - 0x40 = 8 * c := by omega
  have next : 0x40 + 8 * c - 0x38 = 8 * c + 8 := by omega
  unfold State.writeBar0
  rw [if_neg (by omega), if_pos (by omega), first, next]

theorem State.writeBar0_queue (s : State) (v : DWord) {c q : Nat} (hc : c < 8) (hq : q < 16) :
    s.writeBar0 (0x1000 + 128 * c + 8 * q) v = s.queueDoorbell c q (v.setWidth 32) := by
  have context : (0x1000 + 128 * c + 8 * q - 0x1000) / 128 = c := by omega
  have queue : (0x1000 + 128 * c + 8 * q - 0x1000) % 128 / 8 = q := by omega
  unfold State.writeBar0
  rw [if_neg (by omega), if_neg (by omega), if_neg (by omega), if_pos (by omega), context, queue]

theorem State.writeBar0_errorHead (s : State) (v : DWord) {c : Nat} (h : c < 8) :
    s.writeBar0 (0x1800 + 8 * c) v = s.errorHead c (v.setWidth 32) := by
  have context : (0x1800 + 8 * c - 0x1800) / 8 = c := by omega
  unfold State.writeBar0
  rw [if_neg (by omega), if_neg (by omega), if_neg (by omega), if_neg (by omega), if_pos (by omega), context]

theorem State.writeBar0_ring (s : State) (v : DWord) {c : Nat} (h : c < 8) :
    s.writeBar0 (0x1840 + 8 * c) v = s.collDoorbell c (v.setWidth 32) := by
  have context : (0x1840 + 8 * c - 0x1840) / 8 = c := by omega
  unfold State.writeBar0
  rw [if_neg (by omega), if_neg (by omega), if_neg (by omega), if_neg (by omega), if_neg (by omega),
    if_pos (by omega), context]

theorem State.writeBar0_mbdb (s : State) (v : DWord) :
    s.writeBar0 0x80 v = if s.mbBusy then s.freezeHost else if v.getLsbD 0 then s.submit else s := by
  simp [State.writeBar0]

/-! ## Completions of the host (R309, R415) -/

theorem State.goWrite_later {s : State} {i : Nat} {w : WtMsg}
    (h : ∃ v ∈ s.hostWrites.take i, v.core = w.core ∧ v.line = w.line) : s.goWrite i w = s := by
  have first : ((s.hostWrites.take i).any fun v => v.core == w.core && v.line == w.line) = true := by
    simpa [List.any_eq_true] using h
  simp [State.goWrite, first]

theorem State.goWrite_first {s : State} {i : Nat} {w : WtMsg}
    (h : ∀ v ∈ s.hostWrites.take i, ¬ (v.core = w.core ∧ v.line = w.line)) :
    s.goWrite i w =
      let u := { s with hostWrites := listDrop1 s.hostWrites i }.homeWrite { w with nt := true }
      if w.nt then u else u.updCore w.core fun x => { x with boundary := x.boundary.map fun b => b.go w.job } := by
  have first : ((s.hostWrites.take i).any fun v => v.core == w.core && v.line == w.line) = false := by
    simpa [List.any_eq_false] using h
  simp [State.goWrite, first]

theorem execGo_fill {s : State} {n i : Nat} {f : FillReq} (bs : List Byte) (hn : s.hostItems[n]? = some (.fill i))
    (hf : s.fills[i]? = some f) :
    execGo n bs s = .next { s with fills := s.fills.set i { f with go := some (s.goLine f.line bs) } } := by
  simp [execGo, hn, listUpd_eq_set _ hf]

theorem execGo_atom {s : State} {n i : Nat} {r : AtomReq} (bs : List Byte) (hn : s.hostItems[n]? = some (.atom i))
    (hr : s.atoms[i]? = some r) :
    execGo n bs s =
      let t := s.storeLine fwCtx (r.pa / 128) (s.goLine (r.pa / 128) bs) (BitVec.allOnes 128)
      .next { t with atoms := s.atoms.set i { r with go := true } } := by
  have kept := (HomeKept.storeLine s fwCtx (r.pa / 128) (s.goLine (r.pa / 128) bs) (BitVec.allOnes 128)).atoms
  simp only [execGo, hn, hr]
  rw [kept, listUpd_eq_set _ hr]

theorem execGo_write {s : State} {n i : Nat} {w : WtMsg} (bs : List Byte) (hn : s.hostItems[n]? = some (.write i))
    (hw : s.hostWrites[i]? = some w) : execGo n bs s = .next (s.goWrite i w) := by
  simp [execGo, hn, hw]

theorem execGo_move {s : State} {n i : Nat} (bs : List Byte) (hn : s.hostItems[n]? = some (.move i)) :
    execGo n bs s = .next { s with moves := listDrop1 s.moves i } := by
  simp [execGo, hn]

end Sys2Proof.Machine
end

section
/-! SUPPORT. The statement about the host's accesses. -/

namespace Sys2Proof.Slice0
open Sys2Proof.Machine

theorem hostAccesses_frozen {s : State} (h : s.hostFrozen = true) (a n c q off : Nat) (bs : List Byte) (tail : Word)
    (v : DWord) :
    let refused := fun (i : Instr) (k : Nat) => exec i s =
      .next { s with rejected := true, hostReply := List.replicate k 0xFF, hostPoison := true }
    s.registerRead off = { s with rejected := true, hostReply := List.replicate 8 0xFF, hostPoison := true } ∧
      refused (.hostMemRead a n) n ∧ refused (.hostMemWrite a bs) 0 ∧ refused (.qdb c q tail) 0 ∧
      refused (.aeqh c tail) 0 ∧ refused (.coldb c tail) 0 ∧ refused (.hostRegisterWrite off v) 0 := by
  have error : ∀ (k : Nat) (f : State → State), (.next (s.byHost k f) : Host.Outcome State Fault Refusal) =
      .next { s with rejected := true, hostReply := List.replicate k 0xFF, hostPoison := true } :=
    fun k f => by rw [State.byHost_frozen h, State.hostError]
  exact ⟨State.byHost_frozen h _ _, error n _, error 0 _, error 0 _, error 0 _, error 0 _, error 0 _⟩

/-- A request of a host that is not frozen is carried out, the mark of the last error reply gone. -/
theorem host_live {s : State} (h : s.hostFrozen = false) (n : Nat) (k : State → State) :
    (.next (s.byHost n k) : Host.Outcome State Fault Refusal) = .next (k { s with rejected := false }) := by
  rw [State.byHost_live h]

theorem exec_hostRegisterWrite {s : State} (h : s.hostFrozen = false) (off : Nat) (v : DWord) :
    exec (.hostRegisterWrite off v) s = .next (State.writeBar0 { s with rejected := false } off v) :=
  host_live h 0 fun s => s.writeBar0 off v

theorem exec_hostMemRead {s : State} (h : s.hostFrozen = false) (a n : Nat) :
    let u : State := { s with rejected := false }
    if (linesOf a n).any (fun l => s.noMemory l || reservedLine l) = true then
      exec (.hostMemRead a n) s = .next { u with hostReply := List.replicate n 0xFF, hostPoison := true }
    else if s.rangeReady a n = true then
      let t := u.readRange a n
      exec (.hostMemRead a n) s = .next { t with
        hostReply := if t.poisoned a n = true then List.replicate n 0xFF else memBytes t.mem a n
        hostPoison := t.poisoned a n }
    else exec (.hostMemRead a n) s = .next { u with hostq := s.hostq ++ [.read a n] } := by
  intro u
  have live : exec (.hostMemRead a n) s = .next (u.hostRead a n) := host_live h n fun s => s.hostRead a n
  rw [live]
  split
  · next hm => exact congrArg _ (State.hostRead_noMemory (s := u) hm)
  · next hm =>
    have hm : (linesOf a n).any (fun l => u.noMemory l || reservedLine l) = false := Bool.eq_false_of_not_eq_true hm
    split
    · next hr => exact congrArg _ (State.hostRead_ready (s := u) hm hr)
    · next hr => exact congrArg _ (State.hostRead_waits (s := u) hm (Bool.eq_false_of_not_eq_true hr))

theorem exec_hostMemWrite {s : State} (h : s.hostFrozen = false) (a : Nat) (bs : List Byte) :
    let u : State := { s with rejected := false }
    exec (.hostMemWrite a bs) s = .next
      (if (linesOf a bs.length).any reservedLine = true then { u with hostFrozen := true, rejected := true }
        else if (linesOf a bs.length).any s.noMemory = true then { u with dropped := s.dropped + 1 }
        else u.writeChunks s.running [(a, bs.length)] bs) :=
  host_live h 0 fun s => s.hostStore a bs

theorem exec_aeqh {s : State} (h : s.hostFrozen = false) {c : Nat} (hc : s.resident c = true) (tail : Word) :
    exec (.aeqh c tail) s =
      .next (State.updCtx { s with rejected := false } c fun x => { x with head := tail }) :=
  (host_live h 0 fun s => s.errorHead c tail).trans (congrArg _ (if_pos hc))

theorem exec_qdb {s : State} (h : s.hostFrozen = false) (c q : Nat) (tail : Word) :
    exec (.qdb c q tail) s = .next (State.queueDoorbell { s with rejected := false } c q tail) :=
  host_live h 0 fun s => s.queueDoorbell c q tail

theorem exec_coldb {s : State} (h : s.hostFrozen = false) (c : Nat) (tail : Word) :
    exec (.coldb c tail) s = .next (State.collDoorbell { s with rejected := false } c tail) :=
  host_live h 0 fun s => s.collDoorbell c tail

theorem exec_doorbellRegisters {s : State} (h : s.hostFrozen = false) (v : DWord) {c : Nat} (hc : c < 8) :
    (∀ q < 16, exec (.hostRegisterWrite (0x1000 + 128 * c + 8 * q) v) s = exec (.qdb c q (v.setWidth 32)) s) ∧
    exec (.hostRegisterWrite (0x1800 + 8 * c) v) s = exec (.aeqh c (v.setWidth 32)) s ∧
    exec (.hostRegisterWrite (0x1840 + 8 * c) v) s = exec (.coldb c (v.setWidth 32)) s := by
  refine ⟨fun q hq => ?_, ?_, ?_⟩
  · rw [exec_hostRegisterWrite h, State.writeBar0_queue _ _ hc hq, exec_qdb h]
  · rw [exec_hostRegisterWrite h, State.writeBar0_errorHead _ _ hc]
    exact (host_live h 0 fun s => s.errorHead c (v.setWidth 32)).symm
  · rw [exec_hostRegisterWrite h, State.writeBar0_ring _ _ hc, exec_coldb h]

/-- MBDB (R417, R418): a violation while BUSY is set, else bit 0 submits what stands in MBOX. -/
theorem exec_mbdb {s : State} (h : s.hostFrozen = false) (v : DWord) :
    let u : State := { s with rejected := false }
    (s.mbBusy = true → exec (.hostRegisterWrite 0x80 v) s = .next { u with hostFrozen := true, rejected := true }) ∧
    (s.mbBusy = false → v.getLsbD 0 = false → exec (.hostRegisterWrite 0x80 v) s = .next u) ∧
    (v.getLsbD 0 = true →
      (s.mbBusy = false → mbOk s.mbox = true → exec (.hostRegisterWrite 0x80 v) s =
        .next { u with mbBusy := true, mbCmd := s.mbox }) ∧
      (s.mbBusy = false → mbOk s.mbox = false → exec (.hostRegisterWrite 0x80 v) s =
        .next { u with mbResult := 1, hostFrozen := true, rejected := true })) := by
  intro u
  have write : exec (.hostRegisterWrite 0x80 v) s =
      .next (if u.mbBusy then u.freezeHost else if v.getLsbD 0 then u.submit else u) := by
    rw [exec_hostRegisterWrite h, State.writeBar0_mbdb]
  rw [write]
  have idle : s.mbBusy = false → ¬ u.mbBusy = true := fun hb => Bool.eq_false_iff.mp hb
  refine ⟨fun hb => ?_, fun hb hv => ?_, fun hv => ⟨fun hb hm => ?_, fun hb hm => ?_⟩⟩
  · rw [if_pos (show u.mbBusy = true from hb)]; rfl
  · rw [if_neg (idle hb), if_neg (Bool.eq_false_iff.mp hv)]
  · rw [if_neg (idle hb), if_pos hv]
    exact congrArg _ (if_pos hm)
  · rw [if_neg (idle hb), if_pos hv]
    exact congrArg _ (if_neg (Bool.eq_false_iff.mp hm))

/-- Settles O47: each request is carried out unless the host is frozen, and is the case of it that the premises
name. -/
theorem hostAccesses : Obligations.HostAccesses := by
  intro s a n c q off bs tail v u refused
  refine ⟨fun h => hostAccesses_frozen h a n c q off bs tail v, fun h => ⟨exec_hostMemRead h a n,
    State.byHost_live h 8 _, exec_hostMemWrite h a bs, fun hc => exec_aeqh h hc tail, exec_qdb h c q tail,
    fun hc hb hen hn hroom hr => ?_, exec_coldb h c tail,
    fun hc hq => (exec_doorbellRegisters h v hc).1 q hq, fun hc => ?_, exec_mbdb h v⟩,
    fun f i hn hf => execGo_fill bs hn hf, fun r i hn hr => execGo_atom bs hn hr, fun w i hn hw => ?_,
    fun i hn => execGo_move bs hn⟩
  · rw [exec_qdb h]
    exact congrArg _ (State.queueDoorbell_waits (s := u) rfl hc hb hen hn hroom hr)
  · obtain ⟨-, errorQueue, ring⟩ := exec_doorbellRegisters h v hc
    refine ⟨errorQueue, ring, ?_⟩
    rw [exec_hostRegisterWrite h, State.writeBar0_mbox _ _ hc]
  · have go : exec (.go n bs) s = .next (s.goWrite i w) := execGo_write bs hn hw
    refine ⟨fun later => ?_, fun first => ⟨fun nt => ?_, fun nt => ?_⟩⟩
    · rw [go, State.goWrite_later later]
    · rw [go, State.goWrite_first first, nt]; rfl
    · rw [go, State.goWrite_first first, nt]; rfl

end Sys2Proof.Slice0
end

section
/-! SUPPORT. Images loaded into flash (R432, R433), and what the mailbox's commands come to (R418). -/

namespace Sys2Proof.Machine

/-! ## Images -/

@[simp] theorem State.flashOf_set (s : State) (k : Nat) (f : Flash) :
    State.flashOf { s with flash := tabSet s.flash k f } k = f := by simp [State.flashOf]

theorem State.flashOf_set_ne (s : State) {k j : Nat} (f : Flash) (h : j ≠ k) :
    State.flashOf { s with flash := tabSet s.flash k f } j = s.flashOf j := by
  simp [State.flashOf, tabGet_tabSet_ne, h]

/-- An image raises nothing but the minimum that its own type's place in flash holds. -/
theorem State.raiseSvn_spec (s : State) (b : List Byte) :
    { s.raiseSvn b with flash := s.flash } = s ∧
    ((s.raiseSvn b).flashOf (imageType b)).image = (s.flashOf (imageType b)).image ∧
    (∀ k, k ≠ imageType b → (s.raiseSvn b).flashOf k = s.flashOf k) ∧
    (s.flashOf (imageType b)).minSvn ≤ ((s.raiseSvn b).flashOf (imageType b)).minSvn := by
  unfold State.raiseSvn
  split
  · refine ⟨rfl, ?_, fun k hk => s.flashOf_set_ne _ hk, ?_⟩
    · rw [State.flashOf_set]
    · rw [State.flashOf_set]; exact Nat.le_max_left _ _
  · exact ⟨rfl, rfl, fun _ _ => rfl, Nat.le_refl _⟩

theorem State.loadImage_refused {s : State} {img : List Byte} (h : s.accepts img = false) :
    s.loadImage img = none := by simp [State.loadImage, h]

theorem State.loadImage_accepted {s : State} {img : List Byte} (h : s.accepts img = true) :
    ∃ t : State, s.loadImage img = some t ∧ { t with flash := s.flash } = s ∧
      (t.flashOf (imageType img)).image = img ∧ (∀ k, k ≠ imageType img → t.flashOf k = s.flashOf k) ∧
      (s.flashOf (imageType img)).minSvn ≤ (t.flashOf (imageType img)).minSvn := by
  let placed : State := { s with
    flash := tabSet s.flash (imageType img) { s.flashOf (imageType img) with image := img } }
  have self : placed.flashOf (imageType img) = { s.flashOf (imageType img) with image := img } := s.flashOf_set _ _
  obtain ⟨rest, image, others, minimum⟩ := placed.raiseSvn_spec img
  rw [self] at image minimum
  exact ⟨placed.raiseSvn img, by simp only [State.loadImage, h, if_true]; rfl,
    congrArg (fun t : State => { t with flash := s.flash }) rest, image,
    fun k hk => (others k hk).trans (s.flashOf_set_ne _ hk), minimum⟩

/-! ## The command that was submitted -/

/-- The Coachman can perform the submitted command, whose code is `code` (R418). -/
structure Submitted (s : State) (code : Nat) : Prop where
  busy : s.mbBusy = true
  ready : s.boot = .ready
  code : mbField s.mbCmd 0 1 = code

/-- The answer to a command: BUSY clear, RESULT set, vector 0 signalled (R418, R420). -/
def State.answered (u : State) (result : Nat) : State :=
  { u with mbBusy := false, mbResult := result, msix := u.msix ++ [0] }

theorem State.command_done {s : State} {code n : Nat} (h : Submitted s code)
    (hr : s.rangeReady (mbField s.mbCmd 16 8) n = true) (k : State → List Byte → Nat × State) :
    s.command code n k = (k (s.readRange (mbField s.mbCmd 16 8) n) s.mbCmd).2.answered
      (k (s.readRange (mbField s.mbCmd 16 8) n) s.mbCmd).1 :=
  if_pos (by simp [h.busy, h.ready, h.code, hr])

/-- A command that reads nothing in memory waits for no line. -/
theorem State.command_plain {s : State} {code : Nat} (h : Submitted s code) (k : State → List Byte → Nat × State) :
    s.command code 0 k = (k s s.mbCmd).2.answered (k s s.mbCmd).1 :=
  s.command_done h rfl k

/-! ## MKRES -/

/-- From `s` to `t` context `c` has at most got places in its queues (R358); memory and the cores are as they
were. -/
structure Seeded (c : Nat) (s t : State) : Prop where
  mem : t.mem = s.mem
  cores : t.cores = s.cores
  ctx : { t.ctx c with queues := (s.ctx c).queues, seq := (s.ctx c).seq, placed := (s.ctx c).placed } = s.ctx c

theorem Seeded.refl (c : Nat) (s : State) : Seeded c s s := ⟨rfl, rfl, rfl⟩

theorem Seeded.trans {c : Nat} {s t u : State} (a : Seeded c s t) (b : Seeded c t u) : Seeded c s u :=
  ⟨b.mem.trans a.mem, b.cores.trans a.cores,
    (congrArg (fun x : Ctx => { x with
      queues := (s.ctx c).queues, seq := (s.ctx c).seq, placed := (s.ctx c).placed }) b.ctx).trans a.ctx⟩

theorem Seeded.after {c : Nat} {s t u : State} (b : Seeded c t u) (a : Seeded c s t) : Seeded c s u := a.trans b

theorem Seeded.foldl {α : Type} {c : Nat} {f : State → α → State} (h : ∀ s a, Seeded c s (f s a)) (l : List α)
    (s : State) : Seeded c s (l.foldl f s) := by
  induction l generalizing s with
  | nil => exact .refl c s
  | cons a r ih => exact (h s a).trans (ih (f s a))

theorem Seeded.updCtx (c : Nat) (s : State) {f : Ctx → Ctx}
    (h : ∀ x, { f x with queues := x.queues, seq := x.seq, placed := x.placed } = x) :
    Seeded c s (s.updCtx c f) :=
  ⟨rfl, rfl, by rw [State.ctx_updCtx_self]; exact h _⟩

/-- The fields of a context's record (R383) that a statement names. -/
theorem Seeded.record {c : Nat} {s t : State} (h : Seeded c s t) :
    (t.ctx c).state = (s.ctx c).state ∧ (t.ctx c).jtag = (s.ctx c).jtag ∧ (t.ctx c).otb = (s.ctx c).otb ∧
      (t.ctx c).otl = (s.ctx c).otl :=
  ⟨(congrArg Ctx.state h.ctx :), (congrArg Ctx.jtag h.ctx :), (congrArg Ctx.otb h.ctx :),
    (congrArg Ctx.otl h.ctx :)⟩

theorem Seeded.seedQueue (c : Nat) (s : State) (qn : Nat) : Seeded c s (s.seedQueue c qn) := by
  unfold State.seedQueue
  dsimp only
  split
  · exact .refl c s
  · refine .after (.updCtx c _ ?_) (.foldl (fun s i => .updCtx c s ?_) _ s)
    · exact fun _ => rfl
    · exact fun _ => rfl

theorem State.mkres_taken {s : State} {c : Nat} (h : (s.ctx c).state ≠ .empty) (p : Nat) :
    s.mkres c p = (3, s) := by
  exact if_pos h

theorem State.mkres_badImage {s : State} {c p : Nat} (h : (s.ctx c).state = .empty)
    (hp : p % 64 ≠ 0 ∨ (s.tagged? ((memDW s.mem p).extractLsb' 32 32)).isSome = true) :
    s.mkres c p = (2, s) := by
  have bad : (p % 64 ≠ 0 || (s.tagged? ((memDW s.mem p).extractLsb' 32 32)).isSome) = true := by simpa using hp
  exact (if_neg (not_not.mpr h)).trans (if_pos bad)

theorem State.mkres_made {s : State} {c p : Nat} (h : (s.ctx c).state = .empty) (hp : p % 64 = 0)
    (ht : s.tagged? ((memDW s.mem p).extractLsb' 32 32) = none) :
    ∃ u : State, s.mkres c p = (0, u) ∧ (u.ctx c).state = .resident ∧
      (u.ctx c).jtag = (memDW s.mem p).extractLsb' 32 32 ∧ u.mem = s.mem ∧ u.cores = s.cores ∧
      (u.ctx c).otb = fld (memDW s.mem (p + 8)) 0 40 ∧ (u.ctx c).otl = fld (memDW s.mem (p + 8)) 40 21 := by
  have good : ¬ (p % 64 ≠ 0 || (s.tagged? ((memDW s.mem p).extractLsb' 32 32)).isSome) = true := by
    simp [hp, ht]
  obtain ⟨x, made, state, jtag, otb, otl⟩ : ∃ x : Ctx,
      s.mkres c p = (0, (List.range 16).foldl (fun (s : State) q => s.seedQueue c q) (s.updCtx c fun _ => x)) ∧
      x.state = .resident ∧ x.jtag = (memDW s.mem p).extractLsb' 32 32 ∧
      x.otb = fld (memDW s.mem (p + 8)) 0 40 ∧ x.otl = fld (memDW s.mem (p + 8)) 40 21 :=
    ⟨_, (if_neg (not_not.mpr h)).trans (if_neg good), rfl, rfl, rfl, rfl⟩
  have seeded := Seeded.foldl (f := fun (s : State) q => s.seedQueue c q) (.seedQueue c) (List.range 16)
    (s.updCtx c fun _ => x)
  obtain ⟨keptState, keptJtag, keptOtb, keptOtl⟩ := seeded.record
  rw [State.ctx_updCtx_self] at keptState keptJtag keptOtb keptOtl
  exact ⟨_, made, keptState.trans state, keptJtag.trans jtag, seeded.mem, seeded.cores, keptOtb.trans otb,
    keptOtl.trans otl⟩

theorem fld_eq (w : DWord) (lo n : Nat) : fld w lo n = w.toNat / 2 ^ lo % 2 ^ n := by
  simp [fld, BitVec.extractLsb'_toNat, Nat.shiftRight_eq_div_pow]

/-! ## EVICT -/

theorem tabFind_map {α : Type} (f : α → α) (t : Tab α) (k : Nat) :
    tabFind (t.map fun e => (e.1, f e.2)) k = (tabFind t k).map f := by
  induction t with
  | nil => rfl
  | cons e r ih =>
    obtain ⟨k', v⟩ := e
    simp only [List.map_cons, tabFind, ih]
    split <;> rfl

/-- No team of a context whose teams are discarded lives on (R418). -/
theorem State.failTeams_dead (s : State) (c : Nat) {k : Nat} {m : Team}
    (h : tabFind (s.failTeams c).teams k = some m) (hm : m.ctx = c) : m.live = false := by
  rw [State.failTeams_eq, tabFind_map, Option.map_eq_some_iff] at h
  obtain ⟨x, -, rfl⟩ := h
  unfold Team.discarded at hm ⊢
  split
  · rfl
  · next hx =>
    rw [if_neg hx] at hm
    exact absurd (beq_iff_eq.mpr hm) hx

theorem State.evict_refused {s : State} {c : Nat} (h : (s.ctx c).state ≠ .resident) : s.evict c = (3, s) :=
  if_pos (by simp [State.evictable, h])

theorem State.evict_done {s : State} {c : Nat} (h : (s.ctx c).state = .resident) :
    ∃ u : State, s.evict c = (0, u) ∧ u.ctx c = Ctx.init ∧ u.mem = s.mem ∧
      u.armed = (s.armed.filter fun k => k.ctx != c) ∧ u.teams = s.teams :=
  ⟨_, if_neg (by simp [State.evictable, h]), State.ctx_updCtx_self _ c _, rfl, rfl, rfl⟩

theorem execEvict_refused {s : State} (hs : Submitted s 2) (h : (s.ctx (mbField s.mbCmd 8 1)).state ≠ .resident) :
    execEvict s = .next (s.answered 3) := by
  have no : (s.submitted 2 && s.evictable (mbField s.mbCmd 8 1)) = false := by simp [State.evictable, h]
  simp only [execEvict, no, Bool.false_and, Bool.false_eq_true, if_false]
  rw [s.command_plain hs, State.evict_refused h]

/-- EVICT of a resident context: BUSY stays set while a waybill waits to take FAILED, else the context is emptied. -/
theorem execEvict_resident {s : State} (hs : Submitted s 2) (h : (s.ctx (mbField s.mbCmd 8 1)).state = .resident) :
    let c := mbField s.mbCmd 8 1
    let t := s.failTeams c
    (t.failing c = true → execEvict s = .next t) ∧
    (t.failing c = false → ∃ u : State, execEvict s = .next (u.answered 0) ∧ u.ctx c = Ctx.init ∧ u.mem = t.mem ∧
      u.armed = (t.armed.filter fun k => k.ctx != c) ∧
      ∀ k m, tabFind u.teams k = some m → m.ctx = c → m.live = false) := by
  intro c t
  have kept : HomeKept s t := .failTeams s c
  have go : (s.submitted 2 && s.evictable (mbField s.mbCmd 8 1)) = true := by
    simp [State.submitted, State.evictable, hs.busy, hs.ready, hs.code, h]
  have run : execEvict s = .next (if t.failing c = true then t else t.command 2 0 fun s _ => s.evict c) := by
    simp only [execEvict, go, Bool.true_and, if_true]
    rfl
  rw [run]
  refine ⟨fun hf => by rw [if_pos hf], fun hf => ?_⟩
  have submitted : Submitted t 2 :=
    ⟨kept.busy.trans hs.busy, kept.boot.trans hs.ready, (congrArg (mbField · 0 1) kept.cmd).trans hs.code⟩
  obtain ⟨u, done, empty, mem, armed, teams⟩ := State.evict_done ((kept.ctx c).trans h)
  refine ⟨u, ?_, empty, mem, armed, fun k m hk hm => s.failTeams_dead c (teams ▸ hk) hm⟩
  rw [if_neg (Bool.eq_false_iff.mp hf), t.command_plain submitted, done]

/-! ## SWITCH, SETCR -/

theorem State.arm_done {s : State} {c : Nat} {t : DWord} (h : (s.arm c t).1 = 0) :
    s.arm c t = (0, { s with armed := some { ctx := c, t := t } }) := by
  revert h
  unfold State.arm
  split
  · intro h; cases h
  split
  · intro h; cases h
  split
  · intro h; cases h
  split
  · intro h; cases h
  · exact fun _ => rfl

/-- SWITCH answers what GANGSW does, every refusal as 3 (R398, R418). -/
theorem execSwitch_answers {s : State} (hs : Submitted s 3) :
    let c := mbField s.mbCmd 8 1
    let t := BitVec.ofNat 64 (mbField s.mbCmd 16 8)
    ((s.arm c t).1 ≠ 0 → execSwitch s = .next (s.answered 3)) ∧
    ((s.arm c t).1 = 0 → execSwitch s = .next (State.answered { s with armed := some { ctx := c, t := t } } 0)) := by
  intro c t
  have run := s.command_plain hs fun s b =>
    let r := s.arm (mbField b 8 1) (BitVec.ofNat 64 (mbField b 16 8))
    if r.1 = 0 then r else (3, s)
  refine ⟨fun h => ?_, fun h => ?_⟩
  · rw [if_neg h] at run; exact congrArg _ run
  · rw [if_pos h, State.arm_done h] at run; exact congrArg _ run

theorem execSetcr_answers {s : State} (hs : Submitted s 4) :
    let l := mbField s.mbCmd 9 1
    let a := mbField s.mbCmd 16 8
    (l < 4 ∨ 16 < l ∨ a % 32 ≠ 0 → execSetcr s = .next (s.answered 2)) ∧
    (4 ≤ l → l ≤ 16 → a % 32 = 0 →
      execSetcr s = .next (State.answered { s with crBase := a, crLog2 := l, crTail := 0 } 0)) := by
  intro l a
  have run := s.command_plain hs fun s b =>
    if mbField b 9 1 < 4 ∨ 16 < mbField b 9 1 ∨ mbField b 16 8 % 32 ≠ 0 then (2, s)
    else (0, { s with crBase := mbField b 16 8, crLog2 := mbField b 9 1, crTail := 0 })
  refine ⟨fun h => ?_, fun h4 h16 ha => ?_⟩
  · rw [if_pos h] at run; exact congrArg _ run
  · rw [if_neg (show ¬ (l < 4 ∨ 16 < l ∨ a % 32 ≠ 0) by omega)] at run; exact congrArg _ run

/-! ## FWLOAD -/

theorem execFwload_answers {s : State} (hs : Submitted s 5)
    (hr : s.rangeReady (mbField s.mbCmd 16 8) (mbField s.mbCmd 24 4) = true) :
    let a := mbField s.mbCmd 16 8
    let t := s.readRange a (mbField s.mbCmd 24 4)
    let img := memBytes t.mem a (mbField s.mbCmd 24 4)
    (a % 8 ≠ 0 → execFwload s = .next (t.answered 2)) ∧
    (a % 8 = 0 → t.loadImage img = none → execFwload s = .next (t.freezeHost.answered 4)) ∧
    (a % 8 = 0 → ∀ u, t.loadImage img = some u → execFwload s = .next (u.answered 0)) := by
  intro a t img
  have run := s.command_done hs hr fun s b =>
    if mbField b 16 8 % 8 ≠ 0 then (2, s)
    else match s.loadImage (memBytes s.mem (mbField b 16 8) (mbField b 24 4)) with
      | some t => (0, t)
      | none => (4, s.freezeHost)
  refine ⟨fun ha => ?_, fun ha none => ?_, fun ha u some => ?_⟩
  · rw [if_pos ha] at run; exact congrArg _ run
  · rw [if_neg (not_not.mpr ha), none] at run; exact congrArg _ run
  · rw [if_neg (not_not.mpr ha), some] at run; exact congrArg _ run

end Sys2Proof.Machine
end

section
/-! SUPPORT. The statement about the mailbox's commands. -/

namespace Sys2Proof.Slice0
open Sys2Proof.Machine

theorem mkres_answers {s : State} (hs : Submitted s 1) (hr : s.rangeReady (mbField s.mbCmd 16 8) 640 = true)
    {r : Nat} {u : State}
    (h : (s.readRange (mbField s.mbCmd 16 8) 640).mkres (mbField s.mbCmd 8 1) (mbField s.mbCmd 16 8) = (r, u)) :
    exec .mkres s = .next (u.answered r) := by
  have run := s.command_done hs hr fun s b => s.mkres (mbField b 8 1) (mbField b 16 8)
  rw [h] at run
  exact congrArg _ run

/-- Settles O48: the Coachman can perform the command, so each case is what its meaning answers. -/
theorem hostCommands : Obligations.HostCommands := by
  intro s f c a does busy ready
  refine ⟨fun code hr => ?_, fun code => ?_, fun code => ?_, fun code => ?_, fun code hr => ?_, fun code => ?_⟩
  · have hs : Submitted s 1 := ⟨busy, ready, code⟩
    refine ⟨fun taken => mkres_answers hs hr (State.mkres_taken taken a), fun empty =>
      ⟨fun bad => mkres_answers hs hr (State.mkres_badImage empty bad), fun ha free => ?_⟩⟩
    obtain ⟨u, made, state, jtag, mem, cores, otb, otl⟩ := State.mkres_made empty ha free
    refine ⟨u, mkres_answers hs hr made, state, jtag, mem, cores, ?_, ?_⟩
    · rw [otb, fld_eq, pow_zero, Nat.div_one]
    · rw [otl, fld_eq]
  · exact ⟨fun idle => execEvict_refused ⟨busy, ready, code⟩ idle,
      fun resident => execEvict_resident ⟨busy, ready, code⟩ resident⟩
  · exact execSwitch_answers ⟨busy, ready, code⟩
  · exact execSetcr_answers ⟨busy, ready, code⟩
  · obtain ⟨misaligned, refused, accepted⟩ := execFwload_answers ⟨busy, ready, code⟩ hr
    refine ⟨fun ha => misaligned ha, fun ha => ?_⟩
    split
    · next no => exact refused ha (State.loadImage_refused no)
    · next yes =>
      obtain ⟨u, loaded, kept⟩ := State.loadImage_accepted (Bool.eq_true_of_not_eq_false yes)
      exact ⟨u, accepted ha u loaded, kept⟩
  · exact congrArg Host.Outcome.next (s.command_plain ⟨busy, ready, code⟩ _)

end Sys2Proof.Slice0
end

section
/-! SUPPORT. The sideband (R18 to R20, R429, R430, R433), power-on and the Stationer's power cycle. -/

namespace Sys2Proof.Machine

theorem State.bySideband_frozen {s : State} (h : s.sbFrozen = true) (k : State → State) :
    s.bySideband k = { s with rejected := true, sbReply := [0x82] } := if_pos h

theorem State.bySideband_live {s : State} (h : s.sbFrozen = false) (k : State → State) :
    s.bySideband k = k { s with rejected := false, sbReply := [0] } := if_neg (Bool.eq_false_iff.mp h)

/-! ## DIERESET -/

theorem State.dieReset_malformed {s : State} {d : Nat} (h : 3 < d) : s.dieReset d = s.freezeSideband := if_pos h

theorem State.dieReset_zero (s : State) : s.dieReset 0 = s.powerCycle := rfl

theorem State.dieReset_held {s : State} {d : Nat} (h0 : 0 < d) (h3 : d ≤ 3) (h : (s.die d).hold = .off) :
    s.dieReset d = s := by
  unfold State.dieReset
  rw [if_neg (by omega), if_neg (by omega), if_pos (beq_iff_eq.mpr h)]

theorem State.dieReset_holds {s : State} {d : Nat} (h0 : 0 < d) (h3 : d ≤ 3) (h : (s.die d).hold ≠ .off) :
    s.dieReset d = (s.updDie d fun x => { x with hold := .reset }).holdStep d := by
  unfold State.dieReset
  rw [if_neg (by omega), if_neg (by omega), if_neg (mt beq_iff_eq.mp h)]
  rfl

/-- A DIERESET of a die that is down starts it. -/
theorem State.holdStep_down {s : State} {d : Nat} (h : (s.die d).hold = .reset) (ho : (s.die d).out = true)
    (hp : (s.die d).portsUp = false) : s.holdStep d = s.dieUp d := by
  simp only [State.holdStep, h, ho, hp, Bool.not_false, Bool.and_self, if_true, beq_self_eq_true]

/-- A DIERESET of a die that is up takes it down and starts it, once its clusters are drained and nothing that its
write-through would overtake is under way; until then it drains them. -/
theorem State.holdStep_up {s : State} {d : Nat} (h : (s.die d).hold = .reset)
    (hu : (s.die d).out = false ∨ (s.die d).portsUp = true) :
    let r := (s.updDie d fun x => { x with out := true }).drainClusters (dieClusters d)
    s.holdStep d = if r.2 = true ∧ r.1.canFlush (dieCores d) = true then (r.1.dieDown d).dieUp d else r.1 := by
  intro r
  have up : ((s.die d).out && !(s.die d).portsUp) = false := by
    rcases hu with hu | hu <;> simp [hu]
  by_cases hr : r.2 = true ∧ r.1.canFlush (dieCores d) = true
  · rw [if_pos hr]
    simp only [State.holdStep, h, up, Bool.false_eq_true, if_false]
    rw [if_pos (show (r.2 && r.1.canFlush (dieCores d)) = true by rw [hr.1, hr.2]; rfl)]
    rfl
  · rw [if_neg hr]
    simp only [State.holdStep, h, up, Bool.false_eq_true, if_false]
    rw [if_neg (show ¬ (r.2 && r.1.canFlush (dieCores d)) = true from mt Bool.and_eq_true_iff.mp hr)]
    rfl

/-! ## Requests of SPDM (R429) -/

theorem State.spdmAnswer_vendor {s : State} {req : List Byte} (h : req[1]? = some 0xFE) :
    s.spdmAnswer req = { s with sbReply := Config.spdmSign s.spdm s.steps } := by
  exact if_pos (beq_iff_eq.mpr h)

theorem State.spdmAnswer_measured {s : State} {req : List Byte} (h : req[1]? ≠ some 0xFE) :
    s.spdmAnswer req =
      let rep := Config.spdmReply s.measurements req s.steps
      { s with sbReply := rep, spdm := (if req[1]? = some 0x84 then [] else s.spdm) ++ req ++ rep } := by
  refine (if_neg (mt beq_iff_eq.mp h)).trans ?_
  by_cases hv : req[1]? = some 0x84 <;> simp [hv]

/-! ## Power-on -/

theorem execPowerOn_boots {s : State} (h : s.boot = .off ∨ s.boot = .refused) : execPowerOn s = .next s.bootUp := by
  rcases h with h | h <;> simp only [execPowerOn, h]

end Sys2Proof.Machine
end

section
/-! SUPPORT. The statement about the sideband. -/

namespace Sys2Proof.Slice0
open Sys2Proof.Machine

theorem sideband_frozen {s : State} (h : s.sbFrozen = true) (d : Nat) (img req : List Byte) :
    let refused := fun (i : Instr) => exec i s = .next { s with rejected := true, sbReply := [0x82] }
    refused .health ∧ refused (.diereset d) ∧ refused (.fwloadSideband img) ∧ refused .unfrzhost ∧
      (req[1]? ≠ some 0x84 → refused (.spdmRequest req)) := by
  have error : ∀ k : State → State, (.next (s.bySideband k) : Host.Outcome State Fault Refusal) =
      .next { s with rejected := true, sbReply := [0x82] } :=
    fun k => by rw [State.bySideband_frozen h]
  exact ⟨error _, error _, error _, error _,
    fun hq => congrArg _ (if_pos (Bool.and_eq_true_iff.mpr ⟨h, bne_iff_ne.mpr hq⟩))⟩

/-- A request of a sideband that is not frozen is carried out, its completion code 0 unless it gives another. -/
theorem sideband_live {s : State} (h : s.sbFrozen = false) (k : State → State) :
    (.next (s.bySideband k) : Host.Outcome State Fault Refusal) =
      .next (k { s with rejected := false, sbReply := [0] }) := by
  rw [State.bySideband_live h]

theorem exec_diereset {s : State} (h : s.sbFrozen = false) (d : Nat) :
    exec (.diereset d) s = .next (State.dieReset { s with rejected := false, sbReply := [0] } d) :=
  sideband_live h fun s => s.dieReset d

theorem exec_diereset_die {s : State} (h : s.sbFrozen = false) {d : Nat} (h0 : 0 < d) (h3 : d ≤ 3) :
    let u : State := { s with rejected := false, sbReply := [0] }
    ((s.die d).hold = .off → exec (.diereset d) s = .next u) ∧
    ((s.die d).hold ≠ .off →
      let v := u.updDie d fun x => { x with hold := .reset }
      let r := (v.updDie d fun x => { x with out := true }).drainClusters (dieClusters d)
      ((v.die d).out = true → (v.die d).portsUp = false → exec (.diereset d) s = .next (v.dieUp d)) ∧
      ((v.die d).out = false ∨ (v.die d).portsUp = true → exec (.diereset d) s = .next
        (if r.2 = true ∧ r.1.canFlush (dieCores d) = true then (r.1.dieDown d).dieUp d else r.1))) := by
  intro u
  refine ⟨fun hold => ?_, fun hold => ?_⟩
  · rw [exec_diereset h]
    exact congrArg _ (State.dieReset_held (s := u) h0 h3 hold)
  · intro v r
    have held : (v.die d).hold = .reset := congrArg Die.hold (State.die_updDie_self u d _)
    have run : exec (.diereset d) s = .next (v.holdStep d) := by
      rw [exec_diereset h]
      exact congrArg _ (State.dieReset_holds (s := u) h0 h3 hold)
    rw [run]
    exact ⟨fun out ports => congrArg _ (State.holdStep_down held out ports),
      fun up => congrArg _ (State.holdStep_up held up)⟩

/-- An image given by the sideband (R433) is taken or freezes it. -/
theorem exec_fwloadSideband {s : State} (h : s.sbFrozen = false) (img : List Byte) :
    let u : State := { s with rejected := false, sbReply := [0] }
    if s.accepts img = false then
      exec (.fwloadSideband img) s = .next { u with sbFrozen := true, rejected := true }
    else ∃ t : State, exec (.fwloadSideband img) s = .next t ∧
      { t with flash := s.flash } = u ∧ (t.flashOf (imageType img)).image = img ∧
      (∀ k, k ≠ imageType img → t.flashOf k = s.flashOf k) := by
  intro u
  have run : exec (.fwloadSideband img) s = .next ((u.loadImage img).getD u.freezeSideband) :=
    sideband_live h fun s => (s.loadImage img).getD s.freezeSideband
  split
  · next no =>
    rw [run, State.loadImage_refused (s := u) no]
    rfl
  · next yes =>
    obtain ⟨t, loaded, rest, image, others, -⟩ :=
      State.loadImage_accepted (s := u) (img := img) (Bool.eq_true_of_not_eq_false yes)
    refine ⟨t, ?_, rest, image, others⟩
    rw [run, loaded, Option.getD_some]

theorem exec_spdmRequest {s : State} {req : List Byte} (h : s.sbFrozen = false ∨ req[1]? = some 0x84) :
    exec (.spdmRequest req) s = .next (State.spdmAnswer { s with rejected := false } req) := by
  refine congrArg Host.Outcome.next (if_neg ?_)
  rcases h with h | h <;> simp [h]

/-- Settles O49: a request is carried out unless the sideband is frozen, and then is the case of its meaning that
the premises name. -/
theorem sidebandCommands : Obligations.SidebandCommands := by
  intro s d img req m refused u
  refine ⟨fun h => sideband_frozen h d img req, fun h => ⟨sideband_live h _, sideband_live h _, fun hd => ?_, ?_,
    fun h0 h3 => exec_diereset_die h h0 h3, exec_fwloadSideband h img⟩, fun h => ⟨fun vendor => ?_, fun other => ?_⟩,
    rfl, fun hb => execPowerOn_boots hb, fun hh hs => ?_⟩
  · rw [exec_diereset h, State.dieReset_malformed hd]; rfl
  · rw [exec_diereset h, State.dieReset_zero]
  · rw [exec_spdmRequest h, State.spdmAnswer_vendor vendor]
  · rw [exec_spdmRequest h, State.spdmAnswer_measured other]; rfl
  · cases m with
    | host => exact congrArg _ (State.byHost_live hh 0 _)
    | sideband => exact sideband_live hs _

end Sys2Proof.Slice0
end

section
/-! SUPPORT. The scheduler's own events: the parking limit (R350), deferred requests (R153), admission (R359 to
R364), the gang switch (R385, R386) and the scan floor (R15). -/

namespace Sys2Proof.Machine

/-! ## Deferred requests -/

@[simp] theorem State.core_updAllot (s : State) (team core : Nat) (f : Allot → Allot) (c : Nat) :
    (s.updAllot team core f).core c = s.core c := s.core_updTeam _ _ _

theorem execDeferredRecheck_decided {s : State} {c k : Nat} {q : Deferred} {st : WStat}
    (hq : (s.core c).deferred[k]? = some q) (ha : (s.allot q.team c).isSome = true)
    (hr : (s.wreqTry c q.team q.role q.k).1 = some st) :
    ∃ u : State, execDeferredRecheck c k s = .next (u.tlAdd c q.tl 1) ∧
      (u.core c).deferred = listDrop1 ((s.wreqTry c q.team q.role q.k).2.core c).deferred k := by
  let taken := (s.wreqTry c q.team q.role q.k).2.updCore c fun x => x.setDeferred (listDrop1 x.deferred k)
  refine ⟨taken.updAllot q.team c fun a => { a with last := a.last.upd (fun _ => st.code) q.role }, ?_, ?_⟩
  · have held : ¬ (s.allot q.team c).isNone = true := by
      rw [← Option.not_isSome, ha]; decide
    simp only [execDeferredRecheck, hq, hr]
    exact if_neg held
  · rw [State.core_updAllot, State.core_updCore_self]; rfl

/-! ## The parking limit -/

/-- A group that the parking limit takes off its core: all its threads watch, nothing keeps it from stopping. -/
structure Parkable (s : State) (c k : Nat) (g : Group) : Prop where
  group : s.group c k = some g
  watching : g.allMon = true
  stops : s.canStop c k g = true
  going : s.stopping g.team = false
  user : g.fw = false

/-- The group's stage given up and its threads back at its head, before its slot is taken from it. -/
def State.stageGivenUp (s : State) (c k : Nat) (g : Group) : State :=
  (((s.undoOf g.team fun u => u.stage && u.slot == k).filter fun u => u.1 == c).foldl
    (fun (s : State) u => s.restoreLine u.1 u.2) s).stopGroup c k

theorem execParkLimit_parks {s : State} {c k : Nat} {g : Group} (h : Parkable s c k g) :
    let v := s.stageGivenUp c k g
    (v.group c k = none → execParkLimit c k s = .next v) ∧
    (∀ q, v.group c k = some q → execParkLimit c k s =
      .next ((v.rekey c k (128 + s.steps)).updCore c fun x => { x with
        groups := tabErase x.groups k
        parked := x.parked ++ [{ group := q, mons := g.mons, ready := false, key := 128 + s.steps }] })) := by
  intro v
  obtain ⟨group, watching, stops, going, user⟩ := h
  have free : ¬ (!g.allMon || !s.canStop c k g || s.stopping g.team || g.fw) = true := by
    simp [watching, stops, going, user]
  have run : execParkLimit c k s = match v.group c k with
      | none => .next v
      | some q => .next ((v.rekey c k (128 + s.steps)).updCore c fun x => { x with
          groups := tabErase x.groups k
          parked := x.parked ++ [{ group := q, mons := g.mons, ready := false, key := 128 + s.steps }] }) := by
    unfold execParkLimit
    rw [group]
    exact if_neg free
  exact ⟨fun gone => run.trans (by simp only [gone]), fun q stays => run.trans (by simp only [stays])⟩

/-! ## Admission -/

theorem State.holdStep_none {s : State} {d : Nat} (h : (s.die d).hold = .none) : s.holdStep d = s := by
  simp only [State.holdStep, h]

/-- With nothing put off, nothing is taken up. -/
theorem State.takeUp_nothing {s : State} (hc : s.chores = []) (hh : s.hostq = []) (hd : ∀ d, (s.die d).hold = .none) :
    s.takeUp = s := by
  have same : ({ s with chores := [], hostq := [] } : State) = s := by rw [← hc, ← hh]
  simp only [State.takeUp, hc, hh, List.foldl_nil, List.foldl_cons]
  rw [same, State.holdStep_none (hd 1), State.holdStep_none (hd 2), State.holdStep_none (hd 3)]

theorem execAdmission_nobody {s : State} (h : s.takeUp.admitting = none) (c : Nat) :
    execAdmission c s = .next s.takeUp := by
  simp only [execAdmission, h]

/-- The queues of a context that is not quiesced looked at anew (R359). -/
def State.lookedAt (s : State) (n : Nat) : State :=
  if (s.ctx n).qui then s else (List.range 16).foldl (fun (s : State) k => s.refreshQueue n k) s

theorem execAdmission_offers {s : State} {n : Nat} (h : s.takeUp.admitting = some n) (c : Nat) :
    execAdmission c s = .next ((s.takeUp.lookedAt n).offer n c) := by
  simp only [execAdmission, h]
  rfl

theorem State.offer_refused {s : State} {n c : Nat} (h : s.serving c = false) : s.offer n c = s :=
  if_pos (by rw [h]; rfl)

theorem State.offer_parked {s : State} {n c : Nat} (h : s.serving c = true)
    (hp : ∃ p ∈ (s.core c).parked, p.ready = true) : s.offer n c = (s.resumeParked c).getD s :=
  (if_neg (by rw [h]; decide)).trans (if_pos (List.any_eq_true.mpr hp))

theorem State.offer_rest {s : State} {n c : Nat} (h : s.serving c = true)
    (hp : ∀ p ∈ (s.core c).parked, p.ready = false) :
    s.offer n c = if (s.ctx n).qui then s else
      (s.offerConts n c (s.ctx n).conts).getD (s.offerHeads n c (s.offerOrder n)) := by
  have unready : ¬ ((s.core c).parked.any (·.ready)) = true := by
    simpa [List.any_eq_true] using hp
  have conts : s.offer n c = if (s.ctx n).qui then s else match s.offerConts n c (s.ctx n).conts with
      | some t => t
      | none => s.offerHeads n c (s.offerOrder n) :=
    (if_neg (by rw [h]; decide)).trans (if_neg unready)
  rw [conts]
  cases s.offerConts n c (s.ctx n).conts <;> rfl

/-! ## The gang switch -/

theorem execGangSwitch_first {s : State} {a : Armed} (ha : s.armed = some a)
    (hr : s.ctxs.find? (fun e => e.2.state == .running) = none) (ht : a.t.toNat ≤ s.gtime.toNat)
    (hf : s.canFlushAll = true) : execGangSwitch s = .next ((s.swapContexts none a).getD s) := by
  simp only [execGangSwitch, ha, hr, Nat.not_lt.mpr ht, hf, if_false, if_true]

theorem execGangSwitch_early {s : State} {a : Armed} (ha : s.armed = some a) (ht : s.gtime.toNat < a.t.toNat) :
    execGangSwitch s = .next s := by
  simp only [execGangSwitch, ha, ht, if_true]

theorem execGangSwitch_same {s : State} {a : Armed} {e : Nat × Ctx} (ha : s.armed = some a)
    (hr : s.ctxs.find? (fun e => e.2.state == .running) = some e) (ht : a.t.toNat ≤ s.gtime.toNat)
    (he : e.1 = a.ctx) : execGangSwitch s = .next (s.switchDone a) := by
  simp only [execGangSwitch, ha, hr, Nat.not_lt.mpr ht, he, if_false, if_true]

/-- What a switch away from context `c` waits for: its teams, copies, its collectives' chunks and what the
write-through would overtake (R385, R386). -/
def State.heldUp (s : State) (c : Nat) : Prop :=
  s.anyTeam c = true ∨ s.canFlushAll = false ∨ (∃ x ∈ s.cores, x.2.active ≠ []) ∨
    ∃ q ∈ s.colls, q.ctx = c ∧ q.started = true ∧ q.next < q.loaded

theorem State.inChunk_iff (s : State) (c : Nat) :
    s.inChunk c = true ↔ ∃ q ∈ s.colls, q.ctx = c ∧ q.started = true ∧ q.next < q.loaded := by
  simp [State.inChunk, and_assoc]

theorem State.heldUp_iff (s : State) (c : Nat) :
    (s.anyTeam c || s.inChunk c || !s.canFlushAll || s.cores.any fun x => !x.2.active.isEmpty) = true ↔ s.heldUp c := by
  have copies : (s.cores.any fun x => !x.2.active.isEmpty) = true ↔ ∃ x ∈ s.cores, x.2.active ≠ [] := by
    simp [List.any_eq_true]
  rw [Bool.or_eq_true, Bool.or_eq_true, Bool.or_eq_true, State.inChunk_iff, Bool.not_eq_true', copies, State.heldUp]
  simp only [or_assoc, or_comm, or_left_comm]

theorem execGangSwitch_other {s : State} {a : Armed} {e : Nat × Ctx} (ha : s.armed = some a)
    (hr : s.ctxs.find? (fun e => e.2.state == .running) = some e) (ht : a.t.toNat ≤ s.gtime.toNat)
    (he : e.1 ≠ a.ctx) :
    let u := s.stopTeams fun t => t.ctx == e.1
    (u.heldUp e.1 → execGangSwitch s = .next u) ∧
    (¬ u.heldUp e.1 → execGangSwitch s = .next ((u.swapContexts (some e.1) a).getD u)) := by
  intro u
  have run : execGangSwitch s = .next (if (u.anyTeam e.1 || u.inChunk e.1 || !u.canFlushAll ||
      u.cores.any fun x => !x.2.active.isEmpty) = true then u else (u.swapContexts (some e.1) a).getD u) := by
    simp only [execGangSwitch, ha, hr, Nat.not_lt.mpr ht, he, if_false]
    rfl
  rw [run]
  exact ⟨fun h => by rw [if_pos ((u.heldUp_iff e.1).mpr h)],
    fun h => by rw [if_neg (mt (u.heldUp_iff e.1).mp h)]⟩

/-! ## The scan floor -/

theorem execScanFloorDrain_due {s : State} {k : Nat} (hi : (s.cluster k).inSvc = true) (hs : s.scanning ≠ some k) :
    let u : State := { s with floorDue := s.floorDue.or (some k) }
    ((s.cluster k).drained = false → u.stageBoundary k = false → execScanFloorDrain k s = .next u) ∧
    ((s.cluster k).drained = true ∨ u.stageBoundary k = true →
      let r := u.drainClusters [k]
      execScanFloorDrain k s = .next (if r.2 = true ∧ r.1.canFlush (clusterCores [k]) = true
        then r.1.flushCores (clusterCores [k]) else r.1)) := by
  intro u
  have due : ¬ (!(s.cluster k).inSvc || s.scanning == some k) = true := by simp [hi, hs]
  have boundary : u.stageBoundary k = s.stageBoundary k := rfl
  have run : execScanFloorDrain k s = .next (if (!(s.cluster k).drained && !s.stageBoundary k) = true then u
      else if ((u.drainClusters [k]).2 && (u.drainClusters [k]).1.canFlush (clusterCores [k])) = true
        then (u.drainClusters [k]).1.flushCores (clusterCores [k]) else (u.drainClusters [k]).1) :=
    congrArg _ (if_neg due)
  rw [run, boundary]
  refine ⟨fun hd hb => ?_, fun h => ?_⟩
  · rw [if_pos (by rw [hd, hb]; rfl)]
  · intro r
    rw [if_neg (by rcases h with h | h <;> simp [h])]
    simp only [Bool.and_eq_true_iff]
    rfl

end Sys2Proof.Machine
end

section
/-! SUPPORT. The statement about the scheduler's events. -/

namespace Sys2Proof.Slice0
open Sys2Proof.Machine

/-- ADMISSION for a core of context `n`, whose queues have been looked at: ready continuations first, and while the
context is quiesced those alone (R360 to R364, R397). -/
theorem offer_order (v : State) (n c : Nat) :
    (v.serving c = false → v.offer n c = v) ∧
    (v.serving c = true →
      ((∃ p ∈ (v.core c).parked, p.ready = true) → v.offer n c = (v.resumeParked c).getD v) ∧
      ((∀ p ∈ (v.core c).parked, p.ready = false) →
        ((v.ctx n).qui = true → v.offer n c = v) ∧
        ((v.ctx n).qui = false →
          (∀ t, v.offerConts n c (v.ctx n).conts = some t → v.offer n c = t) ∧
          (v.offerConts n c (v.ctx n).conts = none → v.offer n c = v.offerHeads n c (v.offerOrder n))))) := by
  refine ⟨State.offer_refused, fun h => ⟨State.offer_parked h, fun hp => ?_⟩⟩
  rw [State.offer_rest h hp]
  refine ⟨fun hq => if_pos hq, fun hq => ?_⟩
  rw [if_neg (Bool.eq_false_iff.mp hq)]
  exact ⟨fun t ht => by rw [ht, Option.getD_some], fun hn => by rw [hn, Option.getD_none]⟩

/-- Settles O55: each event under the premises that name its case. -/
theorem schedulerEvents : Obligations.SchedulerEvents := by
  intro s c k
  refine ⟨fun g hg watching stops going user =>
      execParkLimit_parks ⟨hg, watching, stops, going, user⟩, fun q st hq ha hr => execDeferredRecheck_decided hq ha hr,
    ⟨State.takeUp_nothing, fun h => execAdmission_nobody h c, fun n h => ?_⟩,
    fun a ha hr ht hf => execGangSwitch_first ha hr ht hf,
    fun a e ha hr => ⟨execGangSwitch_early ha, fun ht => ⟨execGangSwitch_same ha hr ht,
      execGangSwitch_other ha hr ht⟩⟩,
    execScanFloorDrain_due⟩
  have run : exec (.admission c) s = _ := execAdmission_offers h c
  rw [run]
  intro v
  simp only [Host.Outcome.next.injEq]
  exact offer_order v n c

end Sys2Proof.Slice0
end

section
/-! SUPPORT. Every encoding parses to the instruction it encodes: codes, fields, full words and pair words (R24 to
R45). -/

namespace Sys2Proof

/-! ## Codes and the values they stand for -/

theorem getLsbD_bit (b : Bool) : (bit b).getLsbD 0 = b := by cases b <;> rfl

@[simp] theorem IntTy.ofCode_code (t : IntTy) : IntTy.ofCode t.code = t := by cases t <;> rfl
@[simp] theorem IntTy32.ofCode_code (t : IntTy32) : IntTy32.ofCode t.code = t := by cases t <;> rfl
@[simp] theorem Wid.ofCode_code (w : Wid) : Wid.ofCode w.code = w := by cases w <;> rfl
@[simp] theorem Wid.ofAtomCode_atomCode (w : Wid) : Wid.ofAtomCode w.atomCode = w := by cases w <;> rfl
theorem Wid.ofBit_bit64 (w : Wid) : Wid.ofBit (w.bit64.getLsbD 0) = w := by cases w <;> rfl
@[simp] theorem FTy.ofCode_code (t : FTy) : FTy.ofCode t.code = t := by cases t <;> rfl
@[simp] theorem F2Ty.ofCode_code (t : F2Ty) : F2Ty.ofCode t.code = t := by cases t <;> rfl
@[simp] theorem RMode.ofCode_code (m : RMode) : RMode.ofCode m.code = m := by cases m <;> rfl
@[simp] theorem ICond.ofCode_code (c : ICond) : ICond.ofCode c.code = c := by cases c <;> rfl
@[simp] theorem ShflMode.ofCode_code (m : ShflMode) : ShflMode.ofCode m.code = m := by cases m <;> rfl
@[simp] theorem Space.ofCode_code (s : Space) : Space.ofCode s.code = s := by cases s <;> rfl
@[simp] theorem ASize.ofCode_code (z : ASize) : ASize.ofCode z.code = z := by cases z <;> rfl
@[simp] theorem AOp.ofCode_code (o : AOp) : AOp.ofCode o.code = o := by cases o <;> rfl
@[simp] theorem WRole.ofCode_code (r : WRole) : WRole.ofCode r.code = r := by cases r <;> rfl
@[simp] theorem QRole.ofCode_code (r : QRole) : QRole.ofCode r.code = r := by cases r <;> rfl
@[simp] theorem ViewKind.ofCode_code (k : ViewKind) : ViewKind.ofCode k.code = k := by cases k <;> rfl
@[simp] theorem SegKind.ofCode_code (k : SegKind) : SegKind.ofCode k.code = k := by cases k <;> rfl
@[simp] theorem SaRegion.ofCode_code (r : SaRegion) : SaRegion.ofCode r.code = r := by cases r <;> rfl
@[simp] theorem PScope.ofCode_code (s : PScope) : PScope.ofCode s.code = s := by cases s <;> rfl

@[simp] theorem SMod.ofBits_bits (m : SMod) : SMod.ofBits m.bits = m := by
  obtain ⟨n, a⟩ := m
  cases n <;> cases a <;> rfl

theorem optPred_opt (o : Option PReg) : optPred ((optEn o).getLsbD 0) (optNum o) = o := by
  cases o <;> simp [optPred, optEn, optNum, bit]

/-! ## Fields joined and taken apart again -/

theorem extract_low {v w : Nat} (a : BitVec v) (b : BitVec w) : (a ++ b).extractLsb' 0 w = b := by
  rw [BitVec.extractLsb'_append_eq_of_add_le (by omega), BitVec.extractLsb'_eq_self]

theorem extract_high {v w : Nat} (a : BitVec v) (b : BitVec w) : (a ++ b).extractLsb' w v = a := by
  rw [BitVec.extractLsb'_append_eq_of_le (le_refl w), Nat.sub_self, BitVec.extractLsb'_eq_self]

theorem getLsbD_high {v w k : Nat} (a : BitVec v) (b : BitVec w) : (a ++ b).getLsbD (w + k) = a.getLsbD k := by
  simp [BitVec.getLsbD_append]

theorem Pred.ofBits_bits (p : Pred) : Pred.ofBits p.bits = p := by
  cases p with
  | all => rfl
  | on n k =>
    have num : (1#1 ++ bit n ++ k).extractLsb' 0 4 = k := extract_low _ k
    have en : (1#1 ++ bit n ++ k).getLsbD 5 = true := by
      rw [getLsbD_high (k := 1) _ k, getLsbD_high (k := 0) _ (bit n)]; rfl
    have neg : (1#1 ++ bit n ++ k).getLsbD 4 = n := by
      rw [getLsbD_high (k := 0) _ k]; cases n <;> rfl
    rw [Pred.bits, Pred.ofBits, en, if_pos rfl, num, neg]

theorem pfield_num (p : PReg) : (pfield p).extractLsb' 0 4 = p := extract_low _ p

/-- The flag of R29 and R30 that an immediate follows. -/
theorem immediate_flag {w : Nat} (v : BitVec w) : (1#1 ++ v).getLsbD w = true := getLsbD_high (k := 0) _ v

theorem Src2.dec_enc (s : Src2) : Src2.dec s.enc.1 s.enc.2 = s := by
  cases s with
  | reg b => simp [Src2.enc, Src2.dec]
  | imm v =>
    have num : (1#1 ++ v).extractLsb' 0 20 = v := extract_low _ v
    rw [Src2.enc, Src2.dec, immediate_flag v, if_pos rfl, num]

theorem Src3.dec_enc (s : Src3) : Src3.dec s.enc.1 s.enc.2 = s := by
  cases s with
  | reg b c =>
    have num : (0#13 ++ c).extractLsb' 0 8 = c := extract_low _ c
    have flag : (0#13 ++ c).getLsbD 20 = false := getLsbD_high (k := 12) _ c
    rw [Src3.enc, Src3.dec, flag, if_neg Bool.false_ne_true, num]
  | imm v c =>
    have num : (1#1 ++ v).extractLsb' 0 20 = v := extract_low _ v
    rw [Src3.enc, Src3.dec, immediate_flag v, if_pos rfl, num]

theorem FSrc2.dec_enc (s : FSrc2) : FSrc2.dec s.enc.1 s.enc.2 = s := by
  cases s with
  | reg rm ma mb b =>
    simp (disch := decide) only [FSrc2.enc, FSrc2.dec, BitVec.getLsbD_append, BitVec.extractLsb'_append_eq_of_le,
      BitVec.extractLsb'_append_eq_of_add_le, BitVec.extractLsb'_eq_self, Nat.reduceSub, Nat.reduceLT, if_false,
      RMode.ofCode_code, SMod.ofBits_bits]
    rfl
  | imm v =>
    have num : (1#1 ++ v).extractLsb' 0 20 = v := extract_low _ v
    rw [FSrc2.enc, FSrc2.dec, immediate_flag v, if_pos rfl, num]

theorem FSrc3.dec_enc (s : FSrc3) : FSrc3.dec s.enc.1 s.enc.2 = s := by
  cases s with
  | reg rm ma mb mc b c =>
    simp (disch := decide) only [FSrc3.enc, FSrc3.dec, BitVec.getLsbD_append, BitVec.extractLsb'_append_eq_of_le,
      BitVec.extractLsb'_append_eq_of_add_le, BitVec.extractLsb'_eq_self, Nat.reduceSub, Nat.reduceLT, if_false,
      RMode.ofCode_code, SMod.ofBits_bits]
    rfl
  | imm v c =>
    have num : (1#1 ++ v).extractLsb' 0 20 = v := extract_low _ v
    rw [FSrc3.enc, FSrc3.dec, immediate_flag v, if_pos rfl, num]

theorem FieldSrc.of_enc (s : FieldSrc) :
    (if s.enc.2.getLsbD 18 then .imm (s.enc.2.extractLsb' 6 7) (s.enc.2.extractLsb' 0 6) else .reg s.enc.1) = s := by
  cases s with
  | reg b => simp [FieldSrc.enc]
  | imm len pos =>
    simp (disch := decide) only [FieldSrc.enc, BitVec.getLsbD_append, BitVec.extractLsb'_append_eq_of_le,
      BitVec.extractLsb'_append_eq_of_add_le, BitVec.extractLsb'_eq_self, Nat.reduceSub, Nat.reduceLT,
      BitVec.reduceGetLsb, if_true, if_false]

theorem InsertSrc.of_enc (s : InsertSrc) :
    (if s.enc.2.getLsbD 18 then .imm (s.enc.2.extractLsb' 6 7) (s.enc.2.extractLsb' 0 6) s.enc.1
      else .reg s.enc.1 (s.enc.2.extractLsb' 0 8)) = s := by
  cases s with
  | reg b c =>
    simp (disch := decide) only [InsertSrc.enc, BitVec.getLsbD_append, BitVec.extractLsb'_append_eq_of_add_le,
      BitVec.extractLsb'_eq_self, Nat.reduceSub, Nat.reduceLT, BitVec.reduceGetLsb, if_false, Bool.false_eq_true]
  | imm len pos base =>
    simp (disch := decide) only [InsertSrc.enc, BitVec.getLsbD_append, BitVec.extractLsb'_append_eq_of_le,
      BitVec.extractLsb'_append_eq_of_add_le, BitVec.extractLsb'_eq_self, Nat.reduceSub, Nat.reduceLT,
      BitVec.reduceGetLsb, if_true, if_false]

theorem MemOp.dec_fn_x (m : MemOp) : MemOp.dec m.fn m.x = m := by
  simp (disch := decide) only [MemOp.dec, MemOp.fn, MemOp.x, BitVec.getLsbD_append, BitVec.extractLsb'_append_eq_of_le,
    BitVec.extractLsb'_append_eq_of_add_le, BitVec.extractLsb'_eq_self, Nat.reduceSub, Nat.reduceLT, if_false,
    getLsbD_bit, Space.ofCode_code, ASize.ofCode_code]

theorem AtomOp.dec_fn_x (m : AtomOp) (op : BitVec 4) : AtomOp.dec m.fn (m.x op) = m := by
  simp (disch := decide) only [AtomOp.dec, AtomOp.fn, AtomOp.x, BitVec.extractLsb'_append_eq_of_le,
    BitVec.extractLsb'_append_eq_of_add_le, BitVec.extractLsb'_eq_self, Nat.reduceSub, Space.ofCode_code,
    Wid.ofAtomCode_atomCode]

theorem AtomOp.x_op (m : AtomOp) (op : BitVec 4) : (m.x op).extractLsb' 14 4 = op := by
  simp (disch := decide) only [AtomOp.x, BitVec.extractLsb'_append_eq_of_le, BitVec.extractLsb'_append_eq_of_add_le,
    BitVec.extractLsb'_eq_self, Nat.reduceSub]

theorem MTarget.dec_d (t : MTarget) : MTarget.dec t.d = t := by
  simp (disch := decide) only [MTarget.dec, MTarget.d, BitVec.extractLsb'_append_eq_of_le,
    BitVec.extractLsb'_append_eq_of_add_le, BitVec.extractLsb'_eq_self, Nat.reduceSub]

theorem MLoopX.dec_x (m : MLoopX) : MLoopX.dec m.x = m := by
  simp (disch := decide) only [MLoopX.dec, MLoopX.x, BitVec.getLsbD_append, BitVec.extractLsb'_append_eq_of_le,
    BitVec.extractLsb'_append_eq_of_add_le, BitVec.extractLsb'_eq_self, Nat.reduceSub, Nat.reduceLT, if_true,
    getLsbD_bit]

theorem fx1_mode (rm : RMode) (ma : SMod) : RMode.ofCode ((fx1 rm ma).extractLsb' 18 2) = rm := by
  simp (disch := decide) only [fx1, BitVec.extractLsb'_append_eq_of_le, BitVec.extractLsb'_append_eq_of_add_le,
    BitVec.extractLsb'_eq_self, Nat.reduceSub, RMode.ofCode_code]

theorem fx1_modifier (rm : RMode) (ma : SMod) : SMod.ofBits ((fx1 rm ma).extractLsb' 16 2) = ma := by
  simp (disch := decide) only [fx1, BitVec.extractLsb'_append_eq_of_le, BitVec.extractLsb'_append_eq_of_add_le,
    BitVec.extractLsb'_eq_self, Nat.reduceSub, SMod.ofBits_bits]

/-! ## Full words -/

theorem Fields.ofWord_word (f : Fields) : Fields.ofWord f.word = f := by
  simp (disch := decide) only [Fields.ofWord, Fields.word, BitVec.getLsbD_append, BitVec.extractLsb'_append_eq_of_le,
    BitVec.extractLsb'_append_eq_of_add_le, BitVec.extractLsb'_eq_self, Nat.reduceSub, Nat.reduceLT, if_true, if_false,
    getLsbD_bit]

theorem Fields.word_top (f : Fields) : f.word.getLsbD 63 = false := by
  simp only [Fields.word, BitVec.getLsbD_append]
  rfl

/-- SACFG's form and array stand side by side in FN. -/
theorem parseFull_sacfg (form arr : BitVec 2) (u : Bool) (pr : BitVec 6) (d a b : BitVec 8) (x : BitVec 21) :
    parseFull ⟨0x68, form ++ arr, u, pr, d, a, b, x⟩ = match form.toNat with
      | 0 => some (.sacfgCtl (.ofBits pr) arr a b)
      | 1 => some (.sacfgKey (.ofBits pr) arr a b)
      | 2 => some (.sacfgSc (.ofBits pr) arr a)
      | _ => some (.sacfgLink (.ofBits pr) arr a) := by
  have high : (form ++ arr).extractLsb' 2 2 = form := extract_high form arr
  have low : (form ++ arr).extractLsb' 0 2 = arr := extract_low form arr
  change (match ((form ++ arr).extractLsb' 2 2).toNat with
    | 0 => some (Instr.sacfgCtl (.ofBits pr) ((form ++ arr).extractLsb' 0 2) a b)
    | 1 => some (.sacfgKey (.ofBits pr) ((form ++ arr).extractLsb' 0 2) a b)
    | 2 => some (.sacfgSc (.ofBits pr) ((form ++ arr).extractLsb' 0 2) a)
    | _ => some (.sacfgLink (.ofBits pr) ((form ++ arr).extractLsb' 0 2) a)) = _
  rw [high, low]

/-- The fields of an instruction's full word name that instruction. The operands split first are those of which each
form has an encoding of its own. -/
theorem parseFull_encodeFields {i : Instr} {f : Fields} (h : encodeFields i = some f) : parseFull f = some i := by
  cases i
  case' icmp c ty cond d a b => cases b
  case' fcmp c ty cond d a b => cases b
  case' sel c w d a b => cases b
  case' pmov c dir mask => cases dir
  case' vote p k pa => cases k
  case' cvt c dst sf sei dei d a => cases dst
  case' mov c w d a => cases a
  case' shfl p w mode d a k sg pv => cases k
  case' bysel c d a b sel => cases sel
  case' swrite p tgt a srn => cases tgt
  case' view p k o => cases o
  all_goals cases h
  case sacfgCtl | sacfgKey | sacfgSc | sacfgLink => rw [parseFull_sacfg, Pred.ofBits_bits]; rfl
  all_goals
    refine congrArg some (?_ : _ = _)
    simp (disch := decide) only [BitVec.getLsbD_append, BitVec.extractLsb'_append_eq_of_le,
      BitVec.extractLsb'_append_eq_of_add_le, BitVec.extractLsb'_eq_self, Nat.reduceSub, Nat.reduceLT,
      BitVec.reduceGetLsb, if_true, if_false, Bool.false_eq_true, getLsbD_bit, Pred.ofBits_bits, pfield_num, optPred_opt,
      IntTy.ofCode_code, IntTy32.ofCode_code, Wid.ofCode_code, Wid.ofBit_bit64, FTy.ofCode_code, F2Ty.ofCode_code,
      RMode.ofCode_code, ICond.ofCode_code, ShflMode.ofCode_code, AOp.ofCode_code, WRole.ofCode_code, QRole.ofCode_code,
      ViewKind.ofCode_code, SegKind.ofCode_code, SaRegion.ofCode_code, PScope.ofCode_code, Src2.dec_enc, Src3.dec_enc,
      FSrc2.dec_enc, FSrc3.dec_enc, FieldSrc.of_enc, InsertSrc.of_enc, MemOp.dec_fn_x, AtomOp.dec_fn_x, AtomOp.x_op,
      MTarget.dec_d, MLoopX.dec_x, fx1_mode, fx1_modifier]

/-! ## Pair words -/

theorem Half.parse_bits (h : Half) : Half.parse h.bits = some h := by
  cases h
  case' shift k u d n => cases k
  case' op o u d s => cases o
  all_goals
    simp (disch := decide) only [Half.parse, Half.bits, HalfShift.sop, HalfOp.sop, BitVec.getLsbD_append,
      BitVec.extractLsb'_append_eq_of_le, BitVec.extractLsb'_append_eq_of_add_le, BitVec.extractLsb'_eq_self,
      Nat.reduceSub, Nat.reduceLT, BitVec.reduceExtractLsb', BitVec.reduceToNat, if_true, if_false, getLsbD_bit]

theorem parsePair_pairWord (up low : Half) : parsePair (pairWord up low) = some (.ofHalves up low) := by
  simp (disch := decide) only [parsePair, pairWord, BitVec.extractLsb'_append_eq_of_le,
    BitVec.extractLsb'_append_eq_of_add_le, BitVec.extractLsb'_eq_self, Nat.reduceSub, Half.parse_bits]

theorem Instr.ofHalves_halves {i : Instr} {up low : Half} (h : i.halves = some (up, low)) :
    Instr.ofHalves up low = i := by
  cases i
  all_goals cases h
  all_goals rfl

theorem pairWord_top (up low : Half) : (pairWord up low).getLsbD 63 = true := by
  simp only [pairWord, BitVec.getLsbD_append]
  rfl

/-- A word that an instruction is encoded as parses to it. -/
theorem parse_encode {i : Instr} {w : DWord} (h : encode i = some w) : parse w = some i := by
  cases hh : i.halves with
  | some q =>
    obtain ⟨up, low⟩ := q
    obtain rfl : pairWord up low = w := by simpa [encode, hh] using h
    rw [parse, pairWord_top, if_pos rfl, parsePair_pairWord, Instr.ofHalves_halves hh]
  | none =>
    obtain ⟨f, hf, rfl⟩ : ∃ f, encodeFields i = some f ∧ f.word = w := by simpa [encode, hh] using h
    rw [parse, Fields.word_top, if_neg Bool.false_ne_true, Fields.ofWord_word, parseFull_encodeFields hf]

end Sys2Proof
end

section
/-! SUPPORT. What the decoder answers, by what `parse` names and what the encodings allow (R43, R44). -/

namespace Sys2Proof

theorem decode_of_parse {w : DWord} {i : Instr} (hp : parse w = some i) (he : encode i = some w)
    (hf : i.fieldsOk = true) :
    decode w = if i.pairingOk then .ok i else .error .illegalPair := by
  simp [decode, hp, he, hf]

theorem decode_unfit {w : DWord} {i : Instr} (hp : parse w = some i)
    (h : ¬ (encode i = some w ∧ i.fieldsOk = true)) : decode w = .error .illegalOp := by
  have bad : (encode i == some w && i.fieldsOk) = false := by simpa using h
  simp [decode, hp, bad]

theorem decode_unparsed {w : DWord} (hp : parse w = none) : decode w = .error .illegalOp := by
  simp [decode, hp]

/-- Everything the decoder can answer: ILLEGAL_OP, or what the pairing rules say of the instruction whose
encoding the word is. -/
theorem decode_cases (w : DWord) :
    decode w = .error .illegalOp ∨ ∃ i, parse w = some i ∧ encode i = some w ∧ i.fieldsOk = true ∧
      decode w = if i.pairingOk then .ok i else .error .illegalPair := by
  cases hp : parse w with
  | none => exact .inl (decode_unparsed hp)
  | some i =>
    by_cases h : encode i = some w ∧ i.fieldsOk = true
    · exact .inr ⟨i, rfl, h.1, h.2, decode_of_parse hp h.1 h.2⟩
    · exact .inl (decode_unfit hp h)

theorem decode_ok {w : DWord} {i : Instr} (h : decode w = .ok i) : encode i = some w ∧ i.wf = true := by
  rcases decode_cases w with hd | ⟨k, _, he, hf, hd⟩
  · simp [hd] at h
  · cases hk : k.pairingOk with
    | false => simp [hd, hk] at h
    | true =>
      obtain rfl : k = i := by simpa [hd, hk] using h
      exact ⟨he, by simp [Instr.wf, hf, hk]⟩

/-- Decoder and encoder agree (R23, R43): a word decodes to the well-formed instruction that it encodes, and to
no other. -/
theorem decode_eq_ok_iff {w : DWord} {i : Instr} : decode w = .ok i ↔ encode i = some w ∧ i.wf = true := by
  refine ⟨decode_ok, fun ⟨he, hwf⟩ => ?_⟩
  obtain ⟨hf, hk⟩ := Bool.and_eq_true_iff.mp hwf
  rw [decode_of_parse (parse_encode he) he hf, if_pos hk]

/-- An instruction that breaks a pairing rule is a pair word, whose top bit is set. -/
theorem encode_unpaired_top {i : Instr} {w : DWord} (he : encode i = some w) (hp : i.pairingOk = false) :
    w.getLsbD 63 = true := by
  cases hh : i.halves with
  | none => simp [Instr.pairingOk, hh] at hp
  | some h =>
    obtain rfl : pairWord h.1 h.2 = w := by simpa [encode, hh] using he
    exact pairWord_top h.1 h.2

theorem decode_illegalPair_top {w : DWord} (h : decode w = .error .illegalPair) : w.getLsbD 63 = true := by
  rcases decode_cases w with hd | ⟨k, _, he, _, hd⟩
  · simp [hd] at h
  · cases hk : k.pairingOk with
    | true => simp [hd, hk] at h
    | false => exact encode_unpaired_top he hk

end Sys2Proof

end

section
/-! SUPPORT. The statements about the decoder. -/

namespace Sys2Proof.Slice0
open Sys2Proof.Machine

/-- Settles O10: each word is decoded. -/
theorem decodeWords : Obligations.DecodeWords := by
  unfold Obligations.DecodeWords
  refine ⟨?_, ?_, ?_, ?_, ?_, ?_⟩ <;> decide +kernel

/-- A step that no instruction word encodes has nothing to check, so `Instr.wf` holds of it. -/
theorem mkres_unencodable : Instr.mkres.wf = true ∧ encode .mkres = none := ⟨rfl, rfl⟩

/-- Refutes O11: MKRES, a command of the host and no instruction word, meets `Instr.wf` and has no encoding, so the
first conjunct fails. The other two hold: they are the directions of `decode_eq_ok_iff`. -/
theorem not_decodeEncode : ¬ Obligations.DecodeEncode := by
  rintro ⟨encodes, -, -⟩
  obtain ⟨hwf, hnone⟩ := mkres_unencodable
  have hsome := encodes .mkres hwf
  simp [hnone] at hsome

end Sys2Proof.Slice0
end

section
/-! SUPPORT. Which instruction a group's turn issues (R309, R329 to R332). -/

namespace Sys2Proof.Machine

/-! ## Threads that all run in the stream -/

/-- No thread has yielded or runs from a loop buffer. -/
def Group.Plain (g : Group) : Prop := ∀ x ∈ g.lanes, x.yielded = false ∧ x.buf = none

theorem Lane.inStream_plain {x : Lane} (h : x.yielded = false ∧ x.buf = none) :
    x.inStream = (x.st == .run) := by
  simp [Lane.inStream, h.1, h.2]

theorem Lane.buffered_plain {x : Lane} (h : x.buf = none) : x.buffered = false := by
  simp [Lane.buffered, h]

theorem Lane.leaveBuf_plain {x : Lane} (h : x.buf = none) : x.leaveBuf = x := by
  simp [Lane.leaveBuf, h]

theorem Group.Plain.leaveBuf {g : Group} (h : g.Plain) : g.lanes.map Lane.leaveBuf = g.lanes :=
  (List.map_congr_left fun x hx => Lane.leaveBuf_plain (h x hx).2).trans (List.map_id _)

theorem Group.Plain.fetchPc {g : Group} (h : g.Plain) :
    g.fetchPc = leastPc ((g.lanes.filter fun x => x.st == .run).map Lane.pc) := by
  unfold Group.fetchPc
  rw [List.filter_congr fun x hx => Lane.inStream_plain (h x hx)]

/-- Clearing the yield marks changes nothing where there is none (R330). -/
theorem Group.Plain.unyield {g : Group} (h : g.Plain) : g.unyield = g := by
  have same : (g.lanes.map fun x => { x with yielded := false }) = g.lanes :=
    (List.map_congr_left fun x hx => by rw [← (h x hx).1]; rfl).trans (List.map_id _)
  unfold Group.unyield
  split
  · rfl
  · rw [same]

/-- No buffer-served thread, none that joins the stream (R331). -/
theorem Group.Plain.join {g : Group} (h : g.Plain) : g.join = g := by
  unfold Group.join
  split
  · next f _ =>
    have same : (g.lanes.map fun (x : Lane) => if x.buffered && x.pc == f then { x with buf := none } else x) = g.lanes :=
      (List.map_congr_left fun x hx => by simp [Lane.buffered_plain (h x hx).2]).trans (List.map_id _)
    rw [same]
  · rfl

theorem firstFrom_none {p : Nat → Bool} (h : ∀ i, p i = false) (n i : Nat) : firstFrom p i n = none := by
  induction n generalizing i with
  | zero => rfl
  | succ n ih => simp [firstFrom, h, ih]

theorem Group.Plain.bufLane {g : Group} (h : g.Plain) : g.bufLane = none := by
  unfold Group.bufLane firstBelow
  dsimp only
  rw [firstFrom_none, firstFrom_none]
  all_goals
    intro i
    cases hi : g.lanes[i]? with
    | none => rfl
    | some x => exact Lane.buffered_plain (h x (List.mem_of_getElem? hi)).2

/-- The execution mask at `f` where every running thread is in the stream (R330). -/
theorem Group.Plain.streamMask {g : Group} (h : g.Plain) (f : DWord) :
    g.streamMask f = lanesWhere fun i => match g.lanes[i]? with | some x => x.st == .run && x.pc == f | none => false := by
  refine congrArg lanesWhere (funext fun i => ?_)
  cases hi : g.lanes[i]? with
  | none => rfl
  | some x => exact congrArg (· && x.pc == f) (Lane.inStream_plain (h x (List.mem_of_getElem? hi)))

/-- A group whose threads are all in the stream fetches at their least PC (R329, R330). -/
theorem State.pickNext_stream {s : State} {c k : Nat} {g : Group} {f : DWord} (h : g.Plain) (hp : g.parked = none)
    (hf : leastPc ((g.lanes.filter fun x => x.st == .run).map Lane.pc) = some f) :
    s.pickNext c k g = pickStream s c k g f := by
  have same : ({ g with lanes := g.lanes.map Lane.leaveBuf }.unyield).join = g := by
    rw [h.leaveBuf, h.unyield, h.join]
  simp only [State.pickNext, same, h.fetchPc, hf, h.bufLane]
  simp only [hp]

/-! ## Whose instruction it is -/

/-- Nothing keeps the group from issuing: its team goes on, no trap and no array command holds it, no log
entry awaits its replay, no stage closes (R81, R300, R340, R344, R373). -/
structure Issues (s : State) (g : Group) : Prop where
  goes : s.stopping g.team = false
  trap : g.trap = false
  async : g.asyncRec = none
  array : g.arrWait = none
  stage : g.closing = .none
  log : ∀ e ∈ g.log, e.st ≠ .ready

theorem Issues.replaying {s : State} {g : Group} (h : Issues s g) : g.replaying = false := by
  simpa [Group.replaying] using h.log

theorem State.pick_parked_unit {s : State} {c k : Nat} {g : Group} {q : Park} (hg : s.group c k = some g)
    (hu : s.ownsUnit c k = true) (hq : g.parked = some q) : s.pick c k = q.again s c k := by
  simp only [State.pick, hg, hu, hq, if_true]

theorem State.pick_next {s : State} {c k : Nat} {g : Group} (hg : s.group c k = some g)
    (hu : (if s.ownsUnit c k then g.parked else none) = none) (h : Issues s g) :
    s.pick c k = s.pickNext c k g := by
  simp [State.pick, hg, hu, h.goes, h.trap, h.async, h.array, h.stage, h.replaying]

/-- A parked group issues its parked instruction: the unit's at any time, another where it may issue. -/
theorem State.pick_parked {s : State} {c k : Nat} {g : Group} {q : Park} (hg : s.group c k = some g)
    (hq : g.parked = some q) (h : s.ownsUnit c k = true ∨ Issues s g) : s.pick c k = q.again s c k := by
  cases hu : s.ownsUnit c k with
  | true => exact State.pick_parked_unit hg hu hq
  | false =>
    have hi : Issues s g := h.resolve_left (by simp [hu])
    rw [State.pick_next hg (by simp [hu]) hi]
    simp only [State.pickNext, hq]

/-! ## The word -/

theorem pickWord_ok {s : State} {w : DWord} {i : Instr} (h : decode w = .ok i) : pickWord s w = .go i s := by
  simp only [pickWord, h]

theorem pickStream_word {s : State} {c k : Nat} {g : Group} {f w : DWord} {i : Instr}
    (hw : (s.setGroup c k { g with bufTurn := true }).fetch c g.ctx f = .word w) (hd : decode w = .ok i) :
    pickStream s c k g f =
      .go i (((s.setGroup c k { g with bufTurn := true }).fetched c g.ctx f).turn c k (g.streamMask f) f w) := by
  simp only [pickStream, hw, pickWord_ok hd]

theorem issueAt_go {s t : State} {c k : Nat} {i : Instr} (h : s.pick c k = .go i t) : issueAt s c k = exec i t := by
  simp only [issueAt, h]

theorem step_issue {s : State} {c k : Nat} {r : List Act} (h : s.agenda = .issue c k :: r) :
    step s = issueAt { s.tick with agenda := r } c k := by
  simp only [step, h]

/-- With an empty agenda the group that acted last takes the turn. -/
theorem step_idle {s : State} (h : s.agenda = []) :
    step s = issueAt { s.tick with agenda := [] } s.cur.core s.cur.slot := by
  have same : s.tick = { s.tick with agenda := [] } := by rw [← h]; rfl
  rw [step, h, ← same]

theorem State.ownsUnit_iff (s : State) (c k : Nat) :
    s.ownsUnit c k = true ↔ ∃ b, (s.core c).boundary = some b ∧ b.slot = k := by
  cases hb : (s.core c).boundary <;> simp [State.ownsUnit, hb]

end Sys2Proof.Machine

namespace Sys2Proof.Slice0
open Sys2Proof.Machine

theorem step_runs_decoded : stepRunsDecoded := by
  refine ⟨?_, ?_, ?_⟩
  · intro s c k g f w i r ha s0 s1 m hg hgo ht hasy harr hcl hp hlog hplain hf hw hd
    have hstep : step s = issueAt s0 c k := by
      rcases ha with ha | ⟨ha, rfl, rfl, rfl⟩
      · exact step_issue ha
      · exact step_idle ha
    have plain : g.Plain := hplain
    have pick : s0.pick c k = pickStream s0 c k g f := by
      rw [State.pick_next (s := s0) hg (by simp [hp]) ⟨hgo, ht, hasy, harr, hcl, hlog⟩]
      exact State.pickNext_stream plain hp hf
    rw [pickStream_word hw hd, plain.streamMask] at pick
    exact hstep.trans (issueAt_go pick)
  · intro s c k g q i r ha s0 hg hq hd h
    have hs : s0.ownsUnit c k = true ∨ Issues s0 g := h.imp (State.ownsUnit_iff s0 c k).mpr
      fun ⟨hgo, ht, hasy, harr, hcl, hlog⟩ => ⟨hgo, ht, hasy, harr, hcl, hlog⟩
    have pick : s0.pick c k = .go i (s0.turn c k q.mask q.pc q.iword) :=
      (State.pick_parked (s := s0) hg hq hs).trans (pickWord_ok hd)
    rw [step_issue ha, issueAt_go pick]
  · intro s i r ha
    simp only [step, ha]

theorem illegal_word_traps : illegalWordTraps := by
  intro s w
  refine ⟨fun h => by simp only [pickWord, h], fun h => by simp only [pickWord, h], fun top h => ?_,
    fun i hp he hf hk => by simp [decode_of_parse hp he hf, hk]⟩
  exact Bool.false_ne_true (top.symm.trans (decode_illegalPair_top h))

/-- Settles O12: the turn goes to the instruction decoded, and a word that is none traps. -/
theorem stepRunsWord : Obligations.StepRunsWord := ⟨step_runs_decoded, illegal_word_traps⟩

end Sys2Proof.Slice0
end

section
/-! SUPPORT. What stops a lane-wise instruction, and what it leaves alone (R26, R27, R36). -/

namespace Sys2Proof.Machine
open Sys2Proof.Slice0

theorem State.vec_pending {s : State} {v : VOp} {g : Group} {t : LaneMask} {lo : Nat} (h : Turn s v.c.p g t lo)
    (hp : ∃ r ∈ v.reads ++ v.writes, g.regPending r = true) : s.vec v = .next s := by
  have hl := h.low
  rw [← h.lanes] at hl
  simp [State.vec, State.vecM, State.agent_some h.group, hl, needRegs_pending lo hp]

theorem State.vec_bounds {s : State} {v : VOp} {g : Group} {t : LaneMask} {lo : Nat} (h : Turn s v.c.p g t lo)
    (hp : ∀ r ∈ v.reads ++ v.writes, g.regPending r = false) (hb : ∃ r ∈ v.reads ++ v.writes, g.regOk r = false) :
    s.vec v = .next (s.takeTrap ⟨.regBounds, lo, 0, 0⟩) := by
  have hl := h.low
  rw [← h.lanes] at hl
  simp [State.vec, State.vecM, State.agent_some h.group, hl, needRegs_bounds lo hp hb]

theorem VOp.mismatch_lane {v : VOp} {src : Nat → Src} {t : LaneMask} {lo : Nat}
    (h : ∃ l ∈ lanesOf t, ∃ r ∈ v.reads, (src l).reg r ≠ (src lo).reg r) :
    ∃ l ∈ lanesOf t, v.mismatch src t lo = some l := by
  obtain ⟨l, hl, r, hr, hne⟩ := h
  have found : (v.mismatch src t lo).isSome = true := by
    rw [VOp.mismatch, List.find?_isSome]
    refine ⟨l, hl, Bool.or_eq_true_iff.mpr (.inl (List.any_eq_true.mpr ⟨r, hr, ?_⟩))⟩
    simpa using hne
  obtain ⟨k, hk⟩ := Option.isSome_iff_exists.mp found
  exact ⟨k, List.mem_of_find?_eq_some hk, hk⟩

theorem State.vec_mismatch {s : State} {v : VOp} {g : Group} {t : LaneMask} {lo l : Nat} (h : Turn s v.c.p g t lo)
    (hr : Ready g (v.reads ++ v.writes)) (hu : v.c.u = true) (hd : g.dbg = true)
    (hm : v.mismatch (g.src (s.core s.cur.core)) t lo = some l) :
    s.vec v = .next (s.takeTrap ⟨.uMismatch, l, 0, 0⟩) := by
  have hl := h.low
  rw [← h.lanes] at hl hm
  simp [State.vec, State.vecM, State.agent_some h.group, hl, needRegs_ready lo hr, hu, hd, hm, trapAt]

theorem State.vec_nobody {s : State} {v : VOp} {g : Group} (h : Nobody s v.c.p g) : s.vec v = .next s.next := by
  simp [State.vec, State.vecM, State.agent_some h.group, h.low]

/-- The lanes' results name the lanes taking part, and each is what the operation computes for some lane. -/
theorem VOp.mem_outs {v : VOp} {src : Nat → Src} {t : LaneMask} {lo : Nat} {e : Nat × LaneOut}
    (h : e ∈ v.outs src t lo) : e.1 ∈ lanesOf t ∧ ∃ l, e.2 = v.f src l := by
  unfold VOp.outs at h
  split at h <;> obtain ⟨l, hl, rfl⟩ := List.mem_map.mp h <;> exact ⟨hl, _, rfl⟩

/-- The results of an operation whose lanes write registers `ws` and predicates `ps` change bytes of those
registers in the lanes taking part, and the predicate row where `ps` names any. -/
theorem VOp.commit_frame {s : State} {v : VOp} {g : Group} {ws ps : List Nat} (hg : s.curGroup = some g)
    (t : LaneMask) (lo : Nat)
    (hv : ∀ src l, (v.f src l).regs.map Prod.fst = ws ∧ (v.f src l).preds.map Prod.fst = ps) :
    let u := (s.commit (v.outs (g.src (s.core s.cur.core)) t lo)).next
    RegFrame s.cur.core s.cur.slot s u ∧
    RowsBut s.cur.core (fun key b => g.fw = false ∧
      ((∃ l ∈ lanesOf t, ∃ r ∈ ws, g.wordAt (s.core s.cur.core) (g.vecOfs r + 4 * l) key b) ∨
       (ps ≠ [] ∧ g.predAt (s.core s.cur.core) key))) s u := by
  obtain ⟨frame, rows⟩ := State.commit_frame s (v.outs (g.src (s.core s.cur.core)) t lo) hg
  refine ⟨frame, rows.mono ?_⟩
  rintro key b ⟨hf, ⟨e, he, w, hw, hat⟩ | ⟨⟨e, he, hne⟩, hat⟩⟩
  · obtain ⟨hl, l, ho⟩ := VOp.mem_outs he
    have hmem : w.1 ∈ ws := by rw [← (hv (g.src (s.core s.cur.core)) l).1, ← ho]; exact List.mem_map_of_mem hw
    exact ⟨hf, .inl ⟨e.1, hl, w.1, hmem, hat⟩⟩
  · obtain ⟨-, l, ho⟩ := VOp.mem_outs he
    refine ⟨hf, .inr ⟨fun hps => hne ?_, hat⟩⟩
    rw [ho]
    exact List.map_eq_nil_iff.mp ((hv _ l).2.trans hps)

end Sys2Proof.Machine

namespace Sys2Proof.Slice0
open Sys2Proof.Machine

/-- Settles O1: each lane's result is what its operation computes from its source lane's registers. -/
theorem lanewiseCompletes : Obligations.LanewiseCompletes := by
  intro i f s g t lo hi hr
  obtain ⟨v, hv, hc, h1, h2, h3, keys⟩ := exec_vec s hi hr.turn.group
  refine ⟨fun l => v.f (g.src (s.core s.cur.core)) (if f.c.u then lo else l), ?_, fun l => keys _ _, fun hu l => ?_⟩
  · rw [hv]
    exact vec_wrote hr hc h1 h2 h3 _ fun l => rfl
  · simp [hu]

/-- Settles O2: the checks come in the order wait, bounds, comparison. -/
theorem lanewiseStops : Obligations.LanewiseStops := by
  refine ⟨fun i f s g t lo hi ht hp hb => ?_, fun i f s g t lo hi ht hp => ?_, fun i f s g t lo hi ht hr hu hd hm => ?_⟩
  all_goals
    obtain ⟨v, hv, hc, h1, _, h3, _⟩ := exec_vec s hi ht.group
    rw [← hc] at ht
    rw [hv]
  · rw [← h1, ← h3] at hp hb
    exact State.vec_bounds ht hp hb
  · rw [← h1, ← h3] at hp
    exact State.vec_pending ht hp
  · rw [← h1, ← h3] at hr
    rw [← h1] at hm
    rw [← hc] at hu
    obtain ⟨l, hl, found⟩ := VOp.mismatch_lane (src := g.src (s.core s.cur.core)) hm
    exact ⟨l, hl, State.vec_mismatch ht hr hu hd found⟩

/-- Settles O3: of the ends of a lane-wise instruction, only its results and its passing change the state
without a trap. -/
theorem lanewiseFrame : Obligations.LanewiseFrame := by
  intro i f s u g hi hg he
  obtain ⟨v, hv, hc, -, -, -, keys⟩ := exec_vec s hi hg
  rw [hv] at he
  obtain ⟨q, hq, ends⟩ := State.vec_cases s v he
  obtain rfl : g = q := Option.some.inj (hg.symm.trans hq)
  rw [hc] at ends
  rcases ends with ⟨-, rfl⟩ | ⟨lo, -, rfl | rfl | ⟨l, rfl⟩ | rfl⟩
  · obtain ⟨frame, rows⟩ := State.next_frame s
    exact .inr (.inr ⟨frame, RowsBut.of_row rows⟩)
  · exact .inl rfl
  · exact .inr (.inl ⟨_, rfl⟩)
  · exact .inr (.inl ⟨_, rfl⟩)
  · exact .inr (.inr (VOp.commit_frame hg _ lo keys))

end Sys2Proof.Slice0
end

section
/-! SUPPORT. What an instruction comes to in which no lane takes part, frame by frame (R25, R26), and what the
privileged ones come to in a group (R45). -/

namespace Sys2Proof.Machine
open Sys2Proof.Slice0

theorem nobody_group {s : State} {p : Pred} {g : Group} (h : Nobody s p g) (k) :
    run s (s.groupM p k) = .next s.next := by
  rw [State.groupM_none k h.group h.low, run_ok]

theorem nobody_mem {s : State} {c : Ctl} {g : Group} (h : Nobody s c.p g) (k) :
    run s (s.memM c k) = .next s.next := by
  rw [State.memM_none k h.group h.low, run_ok]

theorem nobody_priv {s : State} {p : Pred} {g : Group} (h : Nobody s p g) (hf : g.fw = true) (k) :
    run s (s.privM p k) = .next s.next := by
  rw [State.privM_none k h.group hf h.low, run_ok]

theorem nobody_slot {s : State} {c : Ctl} {g : Group} (h : Nobody s c.p g) (n : Nat) (ok) (mk) :
    run s (s.slotVecM c n ok mk) = .next s.next := by
  simp [State.slotVecM, State.agent_some h.group, h.low]

theorem nobody_scaleq {s : State} {c : Ctl} {g : Group} (h : Nobody s c.p g) (n : BitVec 3) (d a : Reg) :
    execScaleq c n d a s = .next s.next := by
  simp only [execScaleq, h.group]
  exact nobody_slot h _ _ _

theorem nobody_nop {s : State} {g : Group} (h : s.curGroup = some g) (p : Pred) : execNop p s = .next s.next := by
  simp [execNop, State.agent_some h]

theorem firstFrom_eq_none {p : Nat → Bool} {i n : Nat} :
    firstFrom p i n = none ↔ ∀ j, i ≤ j → j < i + n → p j = false := by
  induction n generalizing i with
  | zero => simp only [firstFrom, true_iff]; omega
  | succ n ih =>
    cases hi : p i with
    | true => simp only [firstFrom, hi, if_true, reduceCtorEq, false_iff]; intro h; simp [h i (by omega) (by omega)] at hi
    | false =>
      simp only [firstFrom, hi, Bool.false_eq_true, if_false, ih]
      refine ⟨fun h j h1 h2 => ?_, fun h j h1 h2 => h j (by omega) (by omega)⟩
      rcases Nat.eq_or_lt_of_le h1 with rfl | h1
      · exact hi
      · exact h j h1 (by omega)

theorem lowestLane_none {m : LaneMask} : lowestLane m = none ↔ m = 0 := by
  unfold lowestLane firstBelow
  rw [firstFrom_eq_none]
  constructor
  · intro h
    ext i hi
    simpa [BitVec.getLsbD_eq_getElem hi] using h i (by omega) (by omega)
  · rintro rfl j - -
    simp

/-- With no lane that takes part, nobody takes a branch: with U the lowest lane decides, and no lane differs
from it (R26, R333). -/
theorem braTakers_nobody {s : State} {c : Ctl} {g : Group} (h : Nobody s c.p g) : s.braTakers g c = .ok 0 := by
  have nobody := lowestLane_none.mp h.low
  unfold State.braTakers
  cases c.u with
  | false => simp [nobody]
  | true =>
    cases lowestLane s.cur.mask with
    | none => rfl
    | some lo =>
      have same : ((lanesOf s.cur.mask).find? fun _ => false) = none := List.find?_eq_none.mpr (by simp)
      simp [nobody, same]

theorem nobody_bra {s : State} {c : Ctl} {g : Group} (h : Nobody s c.p g) (ofs : BitVec 21) :
    execBra c ofs s = .next s.next := by
  have low : lowestLane 0#64 = none := lowestLane_none.mpr rfl
  simp [execBra, State.braM, State.agent_some h.group, braTakers_nobody h, low]

/-- Passing an instruction changes no array's queue. -/
theorem State.array_next (s : State) (c n : Nat) : ((s.next).core c).array n = (s.core c).array n := by
  have frame := (State.next_frame s).1
  by_cases hc : c = s.cur.core
  · subst hc
    have rest := congrArg Core.arrays frame.rest
    have arrays : (s.next.core s.cur.core).arrays = (s.core s.cur.core).arrays := rest
    rw [Core.array, arrays, Core.array]
  · rw [frame.cores c hc]

theorem nobody_saswp {s : State} {p : Pred} {g : Group} (h : Nobody s p g) (arr : BitVec 2) (a : Reg)
    (tinc : BitVec 8) (tl : BitVec 4) : execSaswp p arr a tinc tl s = .next s.next := by
  simp [execSaswp, State.stippleM, State.groupM_none _ h.group h.low, State.array_next]

end Sys2Proof.Machine

namespace Sys2Proof.Slice0
open Sys2Proof.Machine

theorem nobody_vec {i : Instr} {f : LaneForm} {s : State} {g : Group} (hi : laneForm i = some f)
    (h : Nobody s f.c.p g) : exec i s = .next s.next := by
  obtain ⟨v, hv, hc, -⟩ := exec_vec s hi h.group
  rw [hv]
  rw [← hc] at h
  exact State.vec_nobody h

/-- A privileged instruction asks for firmware before anything else. -/
theorem exec_priv {i : Instr} (h : privileged i = true) (s : State) :
    ∃ p k, predOf i = some p ∧ exec i s = run s (s.privM p k) := by
  cases i
  case swrite | segset | objsetDesc | objsetExt | objinv | objinvAll | xmove | quiesceDrain | quiescePreempt
    | quiesceResume | gangsw | scanrun | dieoff | dieon | cluoff | rpair | rpairDone | eretRetry | eretSkip
    | eretDeliver | eretKill => exact ⟨_, _, rfl, rfl⟩
  all_goals exact Bool.noConfusion h

/-- No lane takes part in an instruction of the lanes or of the group that is neither lane-wise nor privileged. -/
theorem nobody_unprivileged {i : Instr} {p : Pred} {s : State} {g : Group} (hi : laneForm i = none)
    (hpriv : privileged i = false) (hp : predOf i = some p) (h : Nobody s p g) : exec i s = .next s.next := by
  unfold predOf at hp
  rw [hi] at hp
  cases i
  case cvt c dst sf sei dei d a =>
    cases dst
    case fmt => cases hi
    case slot => cases hp; exact nobody_slot h _ _ _
  case npack => cases hp; exact nobody_slot h _ _ _
  case scaleq => cases hp; exact nobody_scaleq h _ _ _
  case bra => cases hp; exact nobody_bra h _
  case nop => cases hp; exact nobody_nop h.group p
  case saswp => cases hp; exact nobody_saswp h _ _ _ _
  case sealRel | hqry | sread | ld | st | ldf | stf | pref | atom | atcas | red | cadd | inkp | inkrG | inkrH
    | inkc | brx | call | callInd | ret | tqry => cases hp; exact nobody_mem h _
  case cflush => cases hp; exact nobody_mem (c := ⟨false, p⟩) h _
  case view | rcopy | cinv | cinvNowb | kick | tlwait | tlread | boinit | boarm | bowait | botest | wreq | wqry
    | wtagSetv | wtagSetc | wtagReset | wtagWv | wtagWc | wtagRd | mma | mloop | mloops | mzero | mdrain | mldacc
    | msyncWait | msyncMark | mstatRd | mstatClr | mstatMeta | mstatScale | sacfgCtl | sacfgKey | sacfgSc | sacfgLink
    | sald | saclamp | sardState | sardCnt | sardStat | sardMon | exit | yield | barTeam | barSync | barArrive | phase
    | stage | monw | waitc | spawn | jdec | trap | trapHnd => cases hp; exact nobody_group h _
  case swrite | segset | objsetDesc | objsetExt | objinv | objinvAll | xmove | quiesceDrain | quiescePreempt
    | quiesceResume | gangsw | scanrun | dieoff | dieon | cluoff | rpair | rpairDone | eretRetry | eretSkip
    | eretDeliver | eretKill => exact Bool.noConfusion hpriv
  -- Of what is left only SEAL carries a predicate; its constructor's name is a keyword and cannot stand as a case's.
  all_goals cases hp
  exact nobody_mem h _

theorem privileged_traps : privilegedTraps := by
  intro i s g hi hg hf
  obtain ⟨p, k, -, he⟩ := exec_priv hi s
  rw [he, State.privM_user k hg hf, run_trap]

theorem predOf_lane {i : Instr} {f : LaneForm} (h : laneForm i = some f) : predOf i = some f.c.p := by
  simp only [predOf, h]

theorem nobody_takes_part : nobodyTakesPart := by
  intro i p s g hp h hf
  cases hi : laneForm i with
  | some f =>
    obtain rfl : f.c.p = p := Option.some.inj ((predOf_lane hi).symm.trans hp)
    exact nobody_vec hi h
  | none =>
    cases hpriv : privileged i with
    | false => exact nobody_unprivileged hi hpriv hp h
    | true =>
      obtain ⟨q, k, hq, he⟩ := exec_priv hpriv s
      obtain rfl : q = p := Option.some.inj (hq.symm.trans hp)
      rw [he]
      exact nobody_priv h (hf hpriv) k

/-- Settles O13: who takes part is asked first, and in the privileged instructions who may. -/
theorem predicateAndPrivilege : Obligations.PredicateAndPrivilege := ⟨nobody_takes_part, privileged_traps⟩

end Sys2Proof.Slice0
end

section
/-! SUPPORT. Pair words: what each half does in a lane (R33), and what the word comes to (R34, R35). -/

namespace Sys2Proof.Machine
open Sys2Proof.Slice0

/-! ## The registers of a half -/

theorem halfOp_reads (h : Half) : (halfOp h).reads = (halfRegs h).1 := by
  cases h with
  | op o u d s => cases o <;> rfl
  | _ => rfl

theorem halfOp_writes (h : Half) : (halfOp h).writes = (halfRegs h).2.1 := by
  cases h with
  | op o u d s => cases o <;> rfl
  | _ => rfl

theorem halfOp_u (h : Half) : (halfOp h).c.u = (halfRegs h).2.2 := by
  cases h with
  | op o u d s => cases o <;> rfl
  | _ => rfl

/-- The registers of a pair word, in the order in which they are asked for. -/
def pairRegs (up low : Half) : List Nat :=
  (halfRegs up).1 ++ (halfRegs up).2.1 ++ (halfRegs low).1 ++ (halfRegs low).2.1

theorem pairRegs_eq (up low : Half) :
    (halfOp up).reads ++ (halfOp up).writes ++ (halfOp low).reads ++ (halfOp low).writes = pairRegs up low := by
  rw [halfOp_reads, halfOp_writes, halfOp_reads, halfOp_writes, pairRegs]

/-- A pair word is the run of its two halves. -/
theorem exec_pair {i : Instr} {up low : Half} (h : pairHalves i = some (up, low)) (s : State) :
    exec i s = run s (s.pairM up low) := by
  cases i
  case pairNop | pairMov | pairMovi8 | pairIadd | pairIaddi | pairIsub | pairImul | pairImin | pairImax | pairAnd
    | pairOr | pairXor | pairShli | pairShri | pairSari | pairFadd | pairFsub | pairFmul | pairFmin | pairFmax
    | pairFneg | pairFabs => cases h; rfl
  all_goals cases h

/-! ## The word -/

/-- Debug mode finds no lane whose sources of a half differ (R26). -/
theorem halfOp_alike {g : Group} {x : Core} {t : LaneMask} {lo : Nat} {h : Half}
    (ha : Alike g x (halfRegs h).2.2 t lo (halfRegs h).1 []) :
    (if (halfOp h).c.u && g.dbg then (halfOp h).mismatch (g.src x) t lo else none) = none := by
  rw [halfOp_u]
  split
  · next hb =>
    obtain ⟨hu, hd⟩ := Bool.and_eq_true_iff.mp hb
    refine VOp.mismatch_none fun l hl => ⟨fun r hr => ?_, fun k hk => absurd hk List.not_mem_nil⟩
    rw [halfOp_reads] at hr
    exact (ha hu hd l hl).1 r hr
  · rfl

/-- What a half writes: every lane the result of its source lane's registers (R26, R33). -/
theorem halfOp_outs (h : Half) (g : Group) (x : Core) (t : LaneMask) (lo : Nat) :
    (halfOp h).outs (g.src x) t lo =
      (lanesOf t).map fun l => (l, wordsOut (halfOut h (g.src x (from_ (halfRegs h).2.2 lo l)))) := by
  rw [VOp.outs, halfOp_u]
  cases (halfRegs h).2.2 <;> rfl

theorem State.pairM_ready {s : State} {up low : Half} {g : Group} {lo : Nat} (hg : s.curGroup = some g)
    (hl : lowestLane s.cur.mask = some lo) (hr : Ready g (pairRegs up low))
    (ha : Alike g (s.core s.cur.core) (halfRegs up).2.2 s.cur.mask lo (halfRegs up).1 [])
    (hb : Alike g (s.core s.cur.core) (halfRegs low).2.2 s.cur.mask lo (halfRegs low).1 []) :
    s.pairM up low = .ok (s.commit ((halfOp up).outs (g.src (s.core s.cur.core)) s.cur.mask lo ++
      (halfOp low).outs (g.src (s.core s.cur.core)) s.cur.mask lo)).next := by
  simp only [State.pairM, State.agent_some hg, hl, pairRegs_eq, needRegs_ready lo hr, halfOp_alike ha, halfOp_alike hb,
    Option.orElse_none, M.ok_bind]

theorem State.pairM_bounds {s : State} {up low : Half} {g : Group} {lo : Nat} (hg : s.curGroup = some g)
    (hl : lowestLane s.cur.mask = some lo) (hp : ∀ r ∈ pairRegs up low, g.regPending r = false)
    (hb : ∃ r ∈ pairRegs up low, g.regOk r = false) :
    s.pairM up low = .error (.trap ⟨.regBounds, lo, 0, 0⟩) := by
  simp only [State.pairM, State.agent_some hg, hl, pairRegs_eq, needRegs_bounds lo hp hb, M.ok_bind, M.error_bind]

/-! ## Results of the halves -/

theorem toInt_toNat {n : Nat} (x : BitVec n) : toInt n x.toNat = x.toInt := by
  rw [toInt, BitVec.toInt_eq_toNat_cond]
  norm_cast

theorem ofNat_wrap (n : Nat) (r : Int) : BitVec.ofNat n (wrap n r) = BitVec.ofInt n r := by
  apply BitVec.eq_of_toNat_eq
  rw [BitVec.toNat_ofNat, BitVec.toNat_ofInt, wrap]
  have lt : (r % (2 ^ n : Int)).toNat < 2 ^ n := by
    have pos : (0 : Int) < 2 ^ n := by positivity
    have := Int.emod_lt_of_pos r pos
    have := Int.emod_nonneg r pos.ne'
    zify
    omega
  rw [Nat.mod_eq_of_lt lt]
  norm_cast

theorem ofNat_shlNat {n : Nat} (x : BitVec n) (k : Nat) : BitVec.ofNat n (shlNat n x.toNat k) = x <<< k := by
  apply BitVec.eq_of_toNat_eq
  rw [BitVec.toNat_ofNat, BitVec.toNat_shiftLeft, Nat.shiftLeft_eq, shlNat]
  split
  · next h => rw [Nat.zero_mod, Nat.mod_eq_zero_of_dvd (Dvd.dvd.mul_left (Nat.pow_dvd_pow 2 h) _)]
  · rw [Nat.mod_mod]

theorem ofNat_shrNat {n : Nat} (x : BitVec n) (k : Nat) : BitVec.ofNat n (shrNat false n x.toNat k) = x >>> k := by
  apply BitVec.eq_of_toNat_eq
  rw [BitVec.toNat_ofNat, BitVec.toNat_ushiftRight, Nat.shiftRight_eq_div_pow, shrNat]
  have small : x.toNat / 2 ^ k < 2 ^ n := (Nat.div_le_self _ _).trans_lt x.isLt
  simp only [Bool.false_eq_true, if_false]
  split
  · next h =>
    rw [Nat.zero_mod, Nat.div_eq_of_lt (x.isLt.trans_le (Nat.pow_le_pow_right (by decide) h))]
  · exact Nat.mod_eq_of_lt small

/-- An arithmetic shift divides the signed value, rounding down. -/
theorem ofNat_sarNat {n k : Nat} (x : BitVec n) (h : k ≤ n) :
    BitVec.ofNat n (shrNat true n x.toNat k) = x.sshiftRight k := by
  rw [shrNat, if_pos rfl, Nat.min_eq_left h, toInt_toNat, ofNat_wrap, BitVec.sshiftRight, Int.shiftRight_eq_div_pow]
  norm_cast

/-- A choice between two sources by their signed values is the word chosen. -/
theorem ofNat_intResult_ite (p : Prop) [Decidable p] (x y : Word) :
    BitVec.ofNat 32 (intResult true 32 false (if p then x.toInt else y.toInt)) = if p then x else y := by
  rw [intResult, if_neg Bool.false_ne_true, ofNat_wrap]
  split <;> exact BitVec.ofInt_toInt

theorem halfOpWord_imin (x y : Word) : halfOpWord .imin x y = if x.sle y then x else y := by
  simp only [halfOpWord, toInt_toNat, ofNat_intResult_ite, BitVec.sle_iff_toInt_le]

theorem halfOpWord_imax (x y : Word) : halfOpWord .imax x y = if x.sle y then y else x := by
  simp only [halfOpWord, toInt_toNat, ofNat_intResult_ite, BitVec.sle_iff_toInt_le]

end Sys2Proof.Machine

namespace Sys2Proof.Slice0
open Sys2Proof.Machine

theorem pair_completes : pairCompletes := by
  intro i up low s g lo hi hg hl hr ha hb
  rw [exec_pair hi, State.pairM_ready hg hl hr ha hb, run_ok, halfOp_outs, halfOp_outs]

theorem pair_regBounds : pairRegBounds := by
  intro i up low s g lo hi hg hl rs hp hb
  rw [exec_pair hi, State.pairM_bounds hg hl hp hb, run_trap]

theorem half_results : halfResults := by
  intro u d r i n src x y op
  have short : n.toNat ≤ 32 := n.isLt.le
  have reg : ∀ o, op o = [(d.toNat, halfOpWord o x y)] := fun _ => rfl
  have shift : ∀ k, halfOut (.shift k u d n) src = [(d.toNat, halfShiftWord k x n.toNat)] := fun _ => rfl
  have shl : halfShiftWord .shl x n.toNat = x <<< n.toNat := ofNat_shlNat x _
  have shr : halfShiftWord .shr x n.toNat = x >>> n.toNat := ofNat_shrNat x _
  have sar : halfShiftWord .sar x n.toNat = x.sshiftRight n.toNat := ofNat_sarNat x short
  rw [shift, shift, shift, shl, shr, sar, reg .imin, reg .imax, halfOpWord_imin, halfOpWord_imax]
  exact ⟨rfl, rfl, rfl, rfl, rfl, rfl, rfl, rfl, rfl, rfl, rfl, rfl, rfl, rfl, rfl, rfl, rfl⟩

/-- Settles O9: both halves read before either writes, both are asked for their registers first, and each half
computes its own word. -/
theorem pairForms : Obligations.PairForms := ⟨pair_completes, pair_regBounds, half_results⟩

end Sys2Proof.Slice0
end

section
/-! SUPPORT. What the checks of an access leave alone (R74, R77), and what an attempt at issue settles to
(R78, R79, R81). -/

namespace Sys2Proof.Machine
open Sys2Proof.Slice0

/-! ## The groups are as they were -/

/-- From `s` to `t` no group has changed, and the turn is the same. -/
structure GroupsKept (s t : State) : Prop where
  cur : t.cur = s.cur
  group : ∀ c k, t.group c k = s.group c k

theorem GroupsKept.refl (s : State) : GroupsKept s s := ⟨rfl, fun _ _ => rfl⟩

theorem GroupsKept.trans {s t u : State} (a : GroupsKept s t) (b : GroupsKept t u) : GroupsKept s u :=
  ⟨b.cur.trans a.cur, fun c k => (b.group c k).trans (a.group c k)⟩

theorem GroupsKept.curGroup {s t : State} (h : GroupsKept s t) : t.curGroup = s.curGroup := by
  rw [State.curGroup, State.curGroup, h.cur, h.group]

theorem GroupsKept.foldl {α : Type} {f : State → α → State} (h : ∀ s a, GroupsKept s (f s a)) (l : List α) (s : State) :
    GroupsKept s (l.foldl f s) := by
  induction l generalizing s with
  | nil => exact .refl s
  | cons a l ih => exact (h s a).trans (ih _)

theorem GroupsKept.updCore (s : State) (core : Nat) {f : Core → Core} (h : ∀ x, (f x).groups = x.groups) :
    GroupsKept s (s.updCore core f) := by
  refine ⟨rfl, fun c k => ?_⟩
  by_cases e : c = core
  · subst e; rw [State.group, State.core_updCore_self, h]; rfl
  · rw [State.group, State.core_updCore_ne _ _ e]; rfl

theorem GroupsKept.setDesc (s : State) (core : Nat) (d : DCache) : GroupsKept s (s.setDesc core d) :=
  .updCore s core fun _ => rfl

theorem GroupsKept.extentFill (s : State) (cl c on i : Nat) (e : DWord) : GroupsKept s (s.extentFill cl c on i e) := by
  rw [State.extentFill]
  split
  · exact .refl s
  · exact ⟨rfl, fun _ _ => rfl⟩

theorem GroupsKept.extentsMet (s : State) (core ctx : Nat) (l : List (Elem × Desc)) :
    GroupsKept s (s.extentsMet core ctx l) :=
  .foldl (fun s _ => .extentFill s _ _ _ _ _) l s

theorem GroupsKept.checkGlb (s : State) (core ctx n : Nat) (need : Need) (ks : List Cand) :
    GroupsKept s (s.checkGlb core ctx n need ks).2 := by
  rw [State.checkGlb]
  cases (s.admitHits core ctx n need (s.core core).desc ks).1 with
  | error t => exact .setDesc s core _
  | ok l => exact (GroupsKept.setDesc s core _).trans (.extentsMet _ core ctx l)

/-! ## Past an instruction -/

theorem State.next_group {s : State} {g : Group} (h : s.curGroup = some g) :
    s.next.group s.cur.core s.cur.slot = some (g.advance s.cur.mask) :=
  State.group_updGroup_self s _ _ _ h

theorem GroupsKept.fault (s : State) (r : FaultRec) : GroupsKept s (s.fault r) := by
  rw [State.fault]; split
  · exact .refl s
  · exact ⟨rfl, fun _ _ => rfl⟩

/-! ## The operand log -/

/-- An operation in the operand log: its group counts it, and a waiting one has its fault record (R78). -/
theorem State.enterLog_eq {s : State} {g : Group} (h : s.curGroup = some g) (f : Flight) (dests : List Nat)
    (on ext : Nat) (closes here : Bool) :
    s.enterLog g f dests on ext closes here =
      let e : LogEntry := { op := { f with logged := true }, st := if here then .ready else .waiting on ext }
      let u := (s.setGroup s.cur.core s.cur.slot { g.track f.id f.cls dests with log := g.log ++ [e] }).next.closeIf closes
        false
      if here then u else u.fault { ctx := g.ctx, on := on, ext := ext, who := .log s.cur.core s.cur.slot } := by
  rw [State.enterLog, State.updGroup_some s _ _ _ h]

/-- The entry taken stands last in the log, and the group is stalled no more (R79). -/
theorem State.enterLog_group {s : State} {g : Group} (h : s.curGroup = some g) (f : Flight) (dests : List Nat)
    (on ext : Nat) (here : Bool) :
    ∃ q, (s.enterLog g f dests on ext false here).group s.cur.core s.cur.slot = some q ∧ q.logStall = none ∧
      q.log = g.log ++ [{ op := { f with logged := true }, st := if here then .ready else .waiting on ext }] := by
  rw [State.enterLog_eq h]
  let e : LogEntry := { op := { f with logged := true }, st := if here then .ready else .waiting on ext }
  let q : Group := { g.track f.id f.cls dests with log := g.log ++ [e] }
  have past : (s.setGroup s.cur.core s.cur.slot q).next.group s.cur.core s.cur.slot = some (q.advance s.cur.mask) :=
    State.next_group (State.group_setGroup_self _ _ _ _)
  refine ⟨q.advance s.cur.mask, ?_, rfl, rfl⟩
  cases here
  · exact ((GroupsKept.fault _ _).group _ _).trans past
  · exact past

/-- A group that R79 has stalled takes the entry freed, and makes no attempt. -/
theorem settle_stalled {s : State} {g : Group} {on ext : Nat} (stall : g.logStall = some (on, ext)) (f : Flight)
    (dests : List Nat) (closes : Bool) (t : Try) :
    s.settleTry g f dests closes t = s.unstall g f dests on ext closes := by
  simp only [State.settleTry, stall]

/-! ## What an attempt settles to, in a group that R79 has not stalled -/

section
variable {s : State} {g : Group} (stall : g.logStall = none) (f : Flight) (dests : List Nat) (closes : Bool)
include stall

theorem settle_trap (t : TrapInfo) (u : State) :
    run s (s.settleTry g f dests closes (.trap t u)) = .next (u.takeTrap t) := by
  simp only [State.settleTry, stall, State.raise, run_state]

theorem settle_absent_full (full : 4 ≤ g.log.length) (on ext : Nat) (u : State) :
    run s (s.settleTry g f dests closes (.absent on ext u)) =
      .next (u.park.updGroup u.cur.core u.cur.slot fun g => { g with logStall := some (on, ext) }) := by
  simp only [State.settleTry, stall, State.logged, ge_iff_le, full, if_true, run_state]

theorem settle_absent_room (room : g.log.length < 4) (on ext : Nat) (u : State) :
    run s (s.settleTry g f dests closes (.absent on ext u)) = .next (u.enterLog g f dests on ext closes false) := by
  simp only [State.settleTry, stall, State.logged, ge_iff_le, Nat.not_le.mpr room, if_false, run_ok]

theorem settle_park : run s (s.settleTry g f dests closes .park) = .next s.park := by
  simp only [State.settleTry, stall, run_park]

theorem settle_done (u : State) :
    run s (s.settleTry g f dests closes (.done u)) = .next (u.next.closeIf closes true) := by
  simp only [State.settleTry, stall, run_ok]

theorem settle_fly (rest : List Elem) (u : State) :
    run s (s.settleTry g f dests closes (.fly rest u)) =
      .next ((u.updGroup s.cur.core s.cur.slot fun g => { g.track f.id f.cls dests with
        flight := g.flight ++ [{ f with req := { f.req with elems := rest } }] }).next.closeIf closes false) := by
  simp only [State.settleTry, stall, run_ok]

end

/-! ## Loads and stores of global memory -/

section
variable {s : State} {a : Actor} {g : Group} {ks : List Cand} {r : MemReq} {store : Bool}
  (own : scribesOwn a.core g.fw ks = false)
include own

theorem State.tryGlb_refused {t : TrapInfo}
    (h : (s.checkGlb a.core g.ctx r.size.bytes (if store then needStore else needLoad) ks).1 = .error t) :
    s.tryGlb a g r store ks =
      .trap t (s.checkGlb a.core g.ctx r.size.bytes (if store then needStore else needLoad) ks).2 := by
  cases hc : s.checkGlb a.core g.ctx r.size.bytes (if store then needStore else needLoad) ks with
  | mk q s1 =>
    rw [hc] at h
    simp only at h
    simp only [State.tryGlb, own, hc, h, Bool.false_eq_true, if_false]

theorem State.tryGlb_absent {hs : List Hit} {on ext : Nat}
    (h : (s.checkGlb a.core g.ctx r.size.bytes (if store then needStore else needLoad) ks).1 = .ok (hs, some (on, ext))) :
    s.tryGlb a g r store ks =
      .absent on ext (s.checkGlb a.core g.ctx r.size.bytes (if store then needStore else needLoad) ks).2 := by
  cases hc : s.checkGlb a.core g.ctx r.size.bytes (if store then needStore else needLoad) ks with
  | mk q s1 =>
    rw [hc] at h
    simp only at h
    simp only [State.tryGlb, own, hc, h, Bool.false_eq_true, if_false]

end

end Sys2Proof.Machine

namespace Sys2Proof.Slice0
open Sys2Proof.Machine

/-- An access that its checks refuse, or that meets an absent extent, turns on that check alone (R74, R78, R79). -/
theorem global_refused_or_logged : globalRefusedOrLogged := by
  intro i f s g t lo hf h hs own r entry
  have kept : GroupsKept s r.2 := .checkGlb s _ _ _ _ _
  have hg : r.2.curGroup = some g := kept.curGroup.trans h.turn.group
  rw [glb_exec hf h hs]
  refine ⟨fun stall => ⟨fun e he => ?_, fun hs on ext he => ?_⟩, fun on ext stall => ?_⟩
  · rw [State.tryGlb_refused own he, settle_trap stall]
    rfl
  · rw [State.tryGlb_absent own he]
    refine ⟨fun full => ?_, fun room => ?_⟩
    · rw [settle_absent_full stall _ _ _ full, ← kept.cur]
      rfl
    · rw [settle_absent_room stall _ _ _ room, ← kept.cur]
      exact congrArg _ (State.enterLog_eq hg _ _ _ _ _ _)
  · rw [settle_stalled stall]
    refine ⟨fun full => ?_, fun room => ?_⟩
    · simp only [State.unstall, ge_iff_le, full, if_true, run_park]
    · simp only [State.unstall, ge_iff_le, Nat.not_le.mpr room, if_false, run_ok]
      obtain ⟨q, hq, hst, hlog⟩ := State.enterLog_group h.turn.group (flightOf s g f (ptrElems f.cands)) f.dests on ext
        (extP (extEntry s (fetchDesc s s.cur.core g.ctx on) ext))
      exact ⟨_, q, rfl, hq, hst, hlog⟩

theorem first_access_decides : firstAccessDecides := by
  intro s core team n clu e r
  refine ⟨fun odd => by rw [State.spots, if_pos odd], fun even hc out => ?_⟩
  subst hc
  have off : s.local core team false e.ptr.toNat n = .error .segLimit := by
    simp only [State.local, Bool.false_and, Bool.false_eq_true, if_false, if_true]
    rw [if_neg (by omega)]
  rw [State.spots, if_neg (not_not.mpr even), off]

/-- Settles O21: the outcome of the checks decides, before anything else of the access is looked at. -/
theorem globalTurnedAway : Obligations.GlobalTurnedAway := ⟨global_refused_or_logged, first_access_decides⟩

end Sys2Proof.Slice0
end

section
/-! SUPPORT. Threads held, ended or let go (R337 to R351): what the turn of each form comes to. -/

namespace Sys2Proof.Machine
open Sys2Proof.Slice0

theorem turn_updGroup {s : State} {p : Pred} {g : Group} {t : LaneMask} {lo : Nat} (h : Turn s p g t lo)
    (f : Group → Group) :
    s.updGroup s.cur.core s.cur.slot f = s.setGroup s.cur.core s.cur.slot (f g) :=
  State.updGroup_some s _ _ f h.group

theorem log_isEmpty {g : Group} (h : g.log = []) : waitIf (!g.log.isEmpty) = .ok () := by
  rw [h]; rfl

theorem log_waits {g : Group} (h : g.log ≠ []) : waitIf (!g.log.isEmpty) = .error .wait := by
  rw [List.isEmpty_eq_false_iff.mpr h]; rfl

/-- BAR with an empty operand log holds the threads of its mask (R80, R347). -/
theorem State.barM_holds {s : State} {p : Pred} {g : Group} {t : LaneMask} {lo : Nat} (h : Turn s p g t lo)
    (hl : g.log = []) (k : BarKind) (id cnt : Nat) :
    let b := g.issued.mapLanes s.cur.mask fun x => { x with st := .held k id cnt, buf := none }
    run s (s.barM p k id cnt) =
      .next (s.setGroup s.cur.core s.cur.slot (if b.atBar then { b with closing := .wait } else b)) := by
  intro b
  rw [State.barM, turn_group h, log_isEmpty hl, M.ok_bind, turn_updGroup h, run_ok]

theorem State.barM_waits {s : State} {p : Pred} {g : Group} {t : LaneMask} {lo : Nat} (h : Turn s p g t lo)
    (hl : g.log ≠ []) (k : BarKind) (id cnt : Nat) : run s (s.barM p k id cnt) = .next s := by
  rw [State.barM, turn_group h, log_waits hl, M.error_bind, run_wait]

/-- WAITC's comparison is that of every counter with its bound (R351). -/
theorem waitc_low {g : Group} {nld nst ncp ntl : BitVec 5} :
    (decide (g.cnt.ld ≤ nld.toNat) && decide (g.cnt.st ≤ nst.toNat) && decide (g.cnt.cp ≤ ncp.toNat) &&
      decide (g.cnt.tl ≤ ntl.toNat)) = true ↔
    g.cnt.ld ≤ nld.toNat ∧ g.cnt.st ≤ nst.toNat ∧ g.cnt.cp ≤ ncp.toNat ∧ g.cnt.tl ≤ ntl.toNat := by
  simp only [Bool.and_eq_true, decide_eq_true_eq, and_assoc]

end Sys2Proof.Machine

namespace Sys2Proof.Slice0
open Sys2Proof.Machine

/-- Settles O39: every form is its frame's run, and those that wait for the operand log wait for nothing else. -/
theorem threadForms : Obligations.ThreadForms := by
  intro s g t lo p id cnt nld nst ncp ntl held low h
  refine ⟨nobody_nop h.group p, ?_, fun hl => ?_, fun hl => ?_, fun hl => ⟨?_, ?_, State.barM_holds h hl _ _ _,
    State.barM_holds h hl _ _ _, State.barM_holds h hl _ _ _⟩, fun hl i hi => ?_⟩
  · exact congrArg (run s) (turn_group h _)
  · rw [exec, execWaitc, turn_group h, waitc_low.mpr hl]; rfl
  · rw [exec, execWaitc, turn_group h, Bool.eq_false_iff.mpr (waitc_low.not.mpr hl)]; rfl
  · rw [exec, execExit, turn_group h, log_isEmpty hl]; rfl
  · rw [exec, execStage, turn_group h, log_isEmpty hl]; rfl
  · simp only [List.mem_cons, List.not_mem_nil, or_false] at hi
    rcases hi with rfl | rfl | rfl | rfl | rfl
    · rw [exec, execExit, turn_group h, log_waits hl]; rfl
    · rw [exec, execStage, turn_group h, log_waits hl]; rfl
    · exact State.barM_waits h hl _ _ _
    · exact State.barM_waits h hl _ _ _
    · exact State.barM_waits h hl _ _ _

end Sys2Proof.Slice0
end

section
/-! SUPPORT. The atomics (R196 to R199): what an issue that is ready attempts, and what the attempt comes to. -/

namespace Sys2Proof.Machine
open Sys2Proof.Slice0

/-- The flight of a form depends on the state's turn alone. -/
theorem flightOf_kept {s u : State} (h : GroupsKept s u) (g : Group) (f : MemForm) (es : List Elem) :
    flightOf u g f es = flightOf s g f es := by
  rw [flightOf, flightOf, h.cur]

/-- A form that meets an absent extent with room in the log: counted, logged, its stage closed where it closes one,
and the Coachman told (R78). -/
theorem settle_inLog {s u : State} {g : Group} (stall : g.logStall = none) (kept : GroupsKept s u)
    (hg : s.curGroup = some g) (room : g.log.length < 4) (f : MemForm) (es : List Elem) (closes : Bool) (on ext : Nat) :
    run s (s.settleTry g (flightOf s g f es) f.dests closes (.absent on ext u)) =
      .next (((inLog u g f es on ext).closeIf closes false).fault (logFault s g on ext)) := by
  rw [settle_absent_room stall _ _ _ room, State.enterLog_eq (kept.curGroup.trans hg), ← flightOf_kept kept, inLog,
    logFault, ← kept.cur]
  rfl

/-- A form that leaves with requests for the elements `es`. -/
theorem settle_leaves {s : State} {g : Group} (stall : g.logStall = none) (f : MemForm)
    (u : State) (es rest : List Elem) (closes : Bool) :
    run s (s.settleTry g (flightOf s g f es) f.dests closes (.fly rest u)) =
      .next ((leaves s g f rest u).closeIf closes false) := by
  rw [settle_fly stall, leaves]
  rfl

/-! ## At issue -/

/-- What an atomic of SCR or CLU that is ready comes to at its bank (R199). -/
def State.atomBank (s : State) (g : Group) (f : MemForm) : M State :=
  match s.spots s.cur.core g.team (f.space == .clu) f.req.size.bytes f.elems with
  | .error q => .error (.trap q)
  | .ok ps => s.settleTry g (Slice0.flightOf s g f f.elems) f.dests true (s.atomScr (s.actor g) f.req ps)

theorem State.atomBank_refused {s : State} {g : Group} {f : MemForm} {e : TrapInfo}
    (h : s.spots s.cur.core g.team (f.space == .clu) f.req.size.bytes f.elems = .error e) :
    s.atomBank g f = .error (.trap e) := by
  rw [State.atomBank, h]

theorem State.atomBank_placed {s : State} {g : Group} {f : MemForm} {ps : List Spot}
    (h : s.spots s.cur.core g.team (f.space == .clu) f.req.size.bytes f.elems = .ok ps) :
    s.atomBank g f = s.settleTry g (Slice0.flightOf s g f f.elems) f.dests true (s.atomScr (s.actor g) f.req ps) := by
  rw [State.atomBank, h]

/-- What an atomic that is ready comes to in its space (R196, R199): its requests, or its bank. -/
def State.atomAt (s : State) (g : Group) (f : MemForm) (lo : Nat) : M State :=
  match f.space with
  | .glb => s.settleTry g (Slice0.flightOf s g f (ptrElems f.cands)) f.dests true (s.tryAtom (s.actor g) g f.req f.cands)
  | .scr | .clu => s.atomBank g f
  | .fifo => trapAt .illegalOp lo

theorem M.bind_of_ok {α β : Type} {m : M α} {a : α} (h : m = .ok a) (k : α → M β) : m >>= k = k a := by
  rw [h, M.ok_bind]

/-- The kinds of ATOM, ATCAS and RED. -/
def MemKind.Atomic (k : MemKind) : Prop := (∃ op, k = .atom op) ∨ k = .atcas ∨ ∃ op, k = .red op

/-- The meaning of the three atomics, once their registers can be used. -/
theorem State.atomM_ready {s : State} {c : Ctl} {m : AtomOp} {k : MemKind} {dest : Option Reg} {a b : Reg} {g : Group}
    {t : LaneMask} {lo : Nat} (hk : k.Atomic)
    (h : MemRuns s (atomOf c m k dest a b g (s.core s.cur.core) t lo) g t lo) :
    s.atomM c m k dest a b = s.atomAt g (atomOf c m k dest a b g (s.core s.cur.core) t lo) lo := by
  have ready := needRegs_ready lo h.ready
  have alike := alike_check h.alike
  have room : waitClass g (if dest.isSome then .ld else .st) = .ok () := by
    cases dest
    · exact room_wait (b := true) h.room
    · exact room_wait (b := false) h.room
  obtain ⟨space, wid, ofs⟩ := m
  rcases hk with ⟨op, rfl⟩ | rfl | ⟨op, rfl⟩
  all_goals
    refine (turn_mem (c := c) h.turn _).trans ?_
    refine (M.bind_of_ok ready _).trans ((M.bind_of_ok room _).trans ((M.bind_of_ok alike _).trans ?_))
    cases space <;> cases dest <;> rfl

/-- Every atomic form is the run of the one meaning of the three. -/
theorem atom_exec {i : Instr} {f : MemForm} {s : State} {g : Group} {t : LaneMask} {lo : Nat}
    (hf : atomForm g (s.core s.cur.core) t lo i = some f) (h : MemRuns s f g t lo) :
    exec i s = run s (s.atomAt g f lo) := by
  cases i
  case atom c m op d a b => cases hf; exact congrArg (run s) (State.atomM_ready (.inl ⟨op, rfl⟩) h)
  case atcas c m d a b => cases hf; exact congrArg (run s) (State.atomM_ready (.inr (.inl rfl)) h)
  case red c m op a b => cases hf; exact congrArg (run s) (State.atomM_ready (.inr (.inr ⟨op, rfl⟩)) h)
  all_goals cases hf

/-! ## The attempt of global memory -/

section
variable {s : State} {a : Actor} {g : Group} {ks : List Cand} {r : MemReq}

theorem State.tryAtom_refused {t : TrapInfo} (h : (s.checkGlb a.core g.ctx r.size.bytes needAtomic ks).1 = .error t) :
    s.tryAtom a g r ks = .trap t (s.checkGlb a.core g.ctx r.size.bytes needAtomic ks).2 := by
  cases hc : s.checkGlb a.core g.ctx r.size.bytes needAtomic ks with
  | mk q s1 =>
    rw [hc] at h
    simp only at h
    simp only [State.tryAtom, hc, h]

theorem State.tryAtom_absent {hs : List Hit} {on ext : Nat}
    (h : (s.checkGlb a.core g.ctx r.size.bytes needAtomic ks).1 = .ok (hs, some (on, ext))) :
    s.tryAtom a g r ks = .absent on ext (s.checkGlb a.core g.ctx r.size.bytes needAtomic ks).2 := by
  cases hc : s.checkGlb a.core g.ctx r.size.bytes needAtomic ks with
  | mk q s1 =>
    rw [hc] at h
    simp only at h
    simp only [State.tryAtom, hc, h]

theorem State.tryAtom_leaves {hs : List Hit}
    (h : (s.checkGlb a.core g.ctx r.size.bytes needAtomic ks).1 = .ok (hs, none))
    (free : g.behindLog a.id r.size.bytes (hs.map Hit.e) = false) :
    s.tryAtom a g r ks =
      let u := (s.checkGlb a.core g.ctx r.size.bytes needAtomic ks).2
      .fly (hs.map Hit.e) { u with atoms := u.atoms ++ atomReqs s.steps a g.team r r.wid hs } := by
  cases hc : s.checkGlb a.core g.ctx r.size.bytes needAtomic ks with
  | mk q s1 =>
    rw [hc] at h
    simp only at h
    simp only [State.tryAtom, hc, h, free, Bool.false_eq_true, if_false]

end

theorem MemReq.wid_eq (r : MemReq) : r.wid = if r.size = .b64 then .b64 else .b32 := by
  rw [MemReq.wid]
  cases r.size <;> rfl

/-! ## The attempt at a bank -/

section
variable {s : State} {a : Actor} {r : MemReq} {ps : List Spot}

theorem State.badSpot_none {n : Nat} (h : ∀ p ∈ ps, s.scrBad p.2.1 p.2.2.1 p.2.2.2 n = none) :
    s.badSpot n ps = none := by
  rw [State.badSpot, List.findSome?_eq_none_iff]
  intro p hp
  rw [h p hp]; rfl

theorem State.atomScr_parks (h : ∃ p ∈ ps, s.present p.2.1 p.2.2.1 p.2.2.2 = false) : s.atomScr a r ps = .park := by
  have absent : (ps.all fun p => s.present p.2.1 p.2.2.1 p.2.2.2) = false := by
    obtain ⟨p, hp, hk⟩ := h
    exact List.all_eq_false.mpr ⟨p, hp, by rw [hk]; exact Bool.false_ne_true⟩
  simp only [State.atomScr, absent, Bool.not_false, if_true]

theorem State.atomScr_performs (h : ∀ p ∈ ps, s.present p.2.1 p.2.2.1 p.2.2.2 = true ∧
      s.scrBad p.2.1 p.2.2.1 p.2.2.2 r.size.bytes = none) :
    s.atomScr a r ps = .done (s.scrSets a r ps (ps.map Prod.snd).eraseDups) := by
  have present : (ps.all fun p => s.present p.2.1 p.2.2.1 p.2.2.2) = true := List.all_eq_true.mpr fun p hp => (h p hp).1
  simp only [State.atomScr, present, Bool.not_true, Bool.false_eq_true, if_false,
    State.badSpot_none fun p hp => (h p hp).2]

end

end Sys2Proof.Machine

namespace Sys2Proof.Slice0
open Sys2Proof.Machine

/-- In global memory the outcome of the checks decides whether an atomic traps, is logged or leaves. -/
theorem atomic_issues : atomicIssues := by
  intro i f s g t lo hf h hs stall r
  have kept : GroupsKept s r.2 := .checkGlb s _ _ _ _ _
  rw [atom_exec hf h, State.atomAt, hs]
  refine ⟨fun e he => ?_, fun hits on ext he room => ?_, fun hits he free => ?_⟩
  · rw [State.tryAtom_refused he]
    exact settle_trap stall _ _ _ e r.2
  · rw [State.tryAtom_absent he]
    exact settle_inLog stall kept h.turn.group room f _ true on ext
  · rw [State.tryAtom_leaves he free, MemReq.wid_eq]
    exact settle_leaves stall f _ _ _ true

/-- At a bank the outcome of the placement and the presence bits decide (R131, R183). -/
theorem atomic_scratch : atomicScratch := by
  intro i f s g t lo hf h hs stall placed
  have near : s.atomAt g f lo = s.atomBank g f := by
    rcases hs with hs | hs <;> rw [State.atomAt, hs]
  rw [atom_exec hf h, near]
  refine ⟨fun e he => ?_, fun ps he absent => ?_, fun ps he clean => ?_⟩
  · rw [State.atomBank_refused he, run_trap]
  · rw [State.atomBank_placed he, State.atomScr_parks absent, settle_park stall]
  · rw [State.atomBank_placed he, State.atomScr_performs clean, settle_done stall]
    rfl

/-- Settles O23: an atomic that is ready comes to its space's attempt, and the attempt to its checks' outcome. -/
theorem atomicForms : Obligations.AtomicForms := ⟨atomic_issues, atomic_scratch⟩

end Sys2Proof.Slice0
end

section
/-! SUPPORT. INKP, INKR and INKC at issue (R111, R119 to R121): what their checks leave alone, and what an attempt
comes to. -/

namespace Sys2Proof.Machine
open Sys2Proof.Slice0

theorem GroupsKept.extentMet (s : State) (cl c : Nat) (d : Desc) (p : DWord) : GroupsKept s (s.extentMet cl c d p) :=
  .extentFill s _ _ _ _ _

theorem GroupsKept.inkMet (s : State) (core ctx : Nat) (l : List (Elem × Option Desc)) :
    GroupsKept s (s.inkMet core ctx l) := by
  refine .foldl (fun s h => ?_) l s
  cases h.2 with
  | none => exact .refl s
  | some d => exact .extentMet s _ _ _ _

/-- The elements of an ink instruction whose pointers exist, each with its device. -/
def inkElems (ks : List InkCand) : List Elem :=
  ks.filterMap fun k => k.1.ptr.map fun p => { k.1.elem p with dev := k.2 }

/-- INKP and INKC close a stage (R121). -/
def inkCloses (op : InkOp) : Bool := op = .propose || op = .recycle

theorem closeIf_closes (u : State) (op : InkOp) (done : Bool) :
    u.closeIf (inkCloses op) done = if op = .propose ∨ op = .recycle then u.close done else u := by
  simp only [State.closeIf, inkCloses, Bool.or_eq_true, decide_eq_true_eq]

/-! ## At issue -/

/-- The meaning of the four forms, once their registers can be used. -/
theorem State.inkM_ready {s : State} {c : Ctl} {op : InkOp} {d a : Reg} {val : Option Reg} {cc : Reg}
    {cell : BitVec 13} {g : Group} {t : LaneMask} {lo : Nat} {f : MemForm} {ks : List InkCand}
    (hf : inkOf c op d a val cc cell g (s.core s.cur.core) t lo = (op, f, ks)) (h : MemRuns s f g t lo) :
    s.inkM c op d a val cc cell =
      s.settleTry g (Slice0.flightOf s g f (inkElems ks)) f.dests (inkCloses op) (s.tryInk (s.actor g) g op ks) := by
  have ready := needRegs_ready lo h.ready
  have alike := alike_check h.alike
  have room := room_wait h.room
  cases hf
  refine (turn_mem (c := c) h.turn _).trans ?_
  exact (M.bind_of_ok ready _).trans ((M.bind_of_ok room _).trans (M.bind_of_ok alike _))

theorem ink_exec {i : Instr} {op : InkOp} {f : MemForm} {ks : List InkCand} {s : State} {g : Group} {t : LaneMask}
    {lo : Nat} (hf : inkForm g (s.core s.cur.core) t lo i = some (op, f, ks)) (h : MemRuns s f g t lo) :
    exec i s = run s (s.settleTry g (flightOf s g f (inkElems ks)) f.dests (inkCloses op)
      (s.tryInk (s.actor g) g op ks)) := by
  cases i
  case inkp c d a b cc k => cases hf; exact congrArg (run s) (State.inkM_ready rfl h)
  case inkrG c d a cc k => cases hf; exact congrArg (run s) (State.inkM_ready rfl h)
  case inkrH c d a cc k => cases hf; exact congrArg (run s) (State.inkM_ready rfl h)
  case inkc c d a cc k => cases hf; exact congrArg (run s) (State.inkM_ready rfl h)
  all_goals cases hf

/-! ## The attempt -/

section
variable {s : State} {a : Actor} {g : Group} {op : InkOp} {ks : List InkCand}

theorem State.tryInk_refused {t : TrapInfo} (h : (s.inkAdmit a.core g.ctx op (s.core a.core).desc ks).1 = .error t) :
    s.tryInk a g op ks = .trap t (s.setDesc a.core (s.inkAdmit a.core g.ctx op (s.core a.core).desc ks).2) := by
  simp only [State.tryInk, h]

variable {l : List (Elem × Option Desc)} {es : List Elem}
  (ok : (s.inkAdmit a.core g.ctx op (s.core a.core).desc ks).1 = .ok l)
include ok

theorem State.tryInk_absent {on ext : Nat}
    (h : (s.setDesc a.core (s.inkAdmit a.core g.ctx op (s.core a.core).desc ks).2).inkReach a.core g.ctx l =
      (es, some (on, ext))) :
    s.tryInk a g op ks = .absent on ext
      ((s.setDesc a.core (s.inkAdmit a.core g.ctx op (s.core a.core).desc ks).2).inkMet a.core g.ctx l) := by
  simp only [State.tryInk, ok, h]

theorem State.tryInk_leaves
    (h : (s.setDesc a.core (s.inkAdmit a.core g.ctx op (s.core a.core).desc ks).2).inkReach a.core g.ctx l = (es, none))
    (free : g.behindLog a.id 16 es = false) (calm : s.podBusy a es = false) :
    s.tryInk a g op ks = .fly es ((inkMerge es).foldl
      (fun u r => u.inkSend a g op (((es.map Elem.lane).min?).getD 0) r)
      ((s.setDesc a.core (s.inkAdmit a.core g.ctx op (s.core a.core).desc ks).2).inkMet a.core g.ctx l)) := by
  simp only [State.tryInk, ok, h, free, calm, Bool.or_self, Bool.false_eq_true, if_false]

end

/-- No earlier request of the group to one of the cells is on its way to another device (R109). -/
theorem State.podBusy_none {s : State} {a : Actor} {es : List Elem}
    (h : ∀ w ∈ s.inkWait, w.core = a.core → w.slot = a.slot → ∀ e ∈ es, ¬ (w.dev = e.dev ∧ w.msg.ptr = e.ptr)) :
    s.podBusy a es = false := by
  rw [State.podBusy, List.any_eq_false]
  intro w hw
  simp only [Bool.and_eq_true, beq_iff_eq, List.any_eq_true, not_and, not_exists]
  exact fun ⟨hc, hs⟩ e he hd hp => h w hw hc hs e he ⟨hd, hp⟩

end Sys2Proof.Machine

namespace Sys2Proof.Slice0
open Sys2Proof.Machine

/-- Settles O26: an ink instruction that is ready comes to its attempt, which the checks of its cells and the
extents of the local ones decide. -/
theorem inkIssues : Obligations.InkIssues := by
  intro i op f ks s g t lo hf h stall c closed q s0
  have kept : ∀ l, GroupsKept s (s0.inkMet c g.ctx l) := fun l => (GroupsKept.setDesc s c q.2).trans (.inkMet s0 c g.ctx l)
  have shut : ∀ u : State, closed u = u.closeIf (inkCloses op) false := fun u => (closeIf_closes u op false).symm
  rw [ink_exec hf h]
  refine ⟨fun e he => ?_, fun l es he reach free alone => ?_, fun l es on ext he reach room => ?_⟩
  · rw [State.tryInk_refused he]
    exact settle_trap stall _ _ _ e s0
  · rw [State.tryInk_leaves he reach free (State.podBusy_none alone), shut]
    exact settle_leaves stall f _ _ es _
  · rw [State.tryInk_absent he reach, shut]
    exact settle_inLog stall (kept l) h.turn.group room f _ _ on ext

end Sys2Proof.Slice0
end

section
/-! SUPPORT. A state in which CINV sends a dirty line home (R194, R195), and the operation it then has in flight. -/

namespace Sys2Proof.Slice0
open Sys2Proof.Machine

/-- A group with three registers of its own: the pointer v0, v1 to the start of object 3 and the count 1 in v2. -/
def sweeper : Group :=
  { newGroup 0 0 0 1 0 0 { vec := 0, tile := 0, acc := 0 } [] 0 false with
    fw := true, fwRegs := [(0, 0), (1, 0x3000), (2, 1)] }

/-- The group of core 0 has the turn; object 3 and its extent are in the caches, and line 0 is held dirty. -/
def dirtyLine : State :=
  { State.reset with
    cores := [(0, { Core.init with
      groups := [(0, sweeper)], desc := [(0, 3, 0x10000, 0x2000000000000)]
      l1 := [{ line := 0, way := 0, data := 0, valid := 1, dirty := 1, ver := none, full := false, drop := false
               mark := false, poison := 0, age := 0, host := false }] })]
    clusters := [(0, { Cluster.init with extents := [(0, 3, 0, 1)] })]
    ctxs := [(0, { Ctx.init with otl := 8 })], dies := [(0, { Die.init with out := false })]
    cur := { core := 0, slot := 0, mask := 1, pc := 0, iword := 0 } }

theorem dirtyLine_turn : Turn dirtyLine .all sweeper 1 0 := ⟨rfl, rfl, by decide⟩

theorem sweeper_ready : Ready sweeper [0, 1, 2] := fun _ _ => ⟨rfl, rfl⟩

theorem dirtyLine_pointer :
    ptrAdd (sweeper.pair (dirtyLine.core dirtyLine.cur.core) 0 0) (0 : BitVec 18).toInt = some (mkPtr 3 0) := by decide +kernel

/-- The registers that the operations in flight of core 0's group write, as a step leaves them. -/
def flightDests : Host.Outcome State Fault Refusal → Option (List Nat)
  | .next u => (u.group 0 0).map fun g => g.flight.map fun f => f.req.dest
  | _ => none

/-- The model sends the line home as an operation whose destination is vA. -/
theorem cinv_flightDests : flightDests (exec (.cinv .all 0 2 0) dirtyLine) = some [0] := by decide +kernel

/-- Refutes O28: CINV without .nowb has no vD, but the third conjunct says of every `d` that the operation it puts in
flight has that destination. In the model it is vA, here v0, which writes nothing either way. -/
theorem not_cacheForms : ¬ Obligations.CacheForms := by
  rintro ⟨-, -, cinv, -⟩
  obtain ⟨-, -, ranged⟩ := cinv dirtyLine sweeper 1 0 .all false 3 0 2 0 dirtyLine_turn sweeper_ready (by decide)
  obtain ⟨-, passes⟩ := ranged (mkPtr 3 0) (by decide +kernel) dirtyLine_pointer
  obtain ⟨-, sent⟩ := passes ⟨0x10000, 0x2000000000000⟩ (by decide +kernel) (by decide +kernel)
  have other := (congrArg flightDests (sent (by decide +kernel))).symm.trans cinv_flightDests
  revert other
  decide +kernel

end Sys2Proof.Slice0
end

section
/-! SUPPORT. Who has the turn: what a home or a write to device memory does leaves it alone. -/

namespace Sys2Proof.Machine

theorem foldl_cur {α : Type} {f : State → α → State} (h : ∀ s a, (f s a).cur = s.cur) (l : List α) (s : State) :
    (l.foldl f s).cur = s.cur := by
  induction l generalizing s with
  | nil => rfl
  | cons a l ih => exact (ih _).trans (h s a)

/-! ## Sectors -/

@[simp] theorem State.inkNotices_cur (s : State) (line : Nat) (p : DWord → Word → Bool) :
    (s.inkNotices line p).cur = s.cur := by
  unfold State.inkNotices
  dsimp only
  split
  · rfl
  · have told : ∀ (u : State) (w : PodWatch), (u.podNotice w).cur = u.cur := fun _ _ => rfl
    exact (foldl_cur told _ _).trans (foldl_cur (fun u _ => State.updCore_cur u _ _) _ s)

@[simp] theorem State.markPoison_cur (s : State) (sec : Nat) : (s.markPoison sec).cur = s.cur :=
  State.inkNotices_cur _ _ _

@[simp] theorem State.readSector_cur (s : State) (sec : Nat) : (s.readSector sec).cur = s.cur := by
  rw [State.readSector]
  split
  · exact State.markPoison_cur s sec
  · rfl
  · rfl

@[simp] theorem State.aeqAppend_cur (s : State) (c : Nat) (r : TrapRec) : (s.aeqAppend c r).cur = s.cur := by
  unfold State.aeqAppend
  dsimp only
  split
  · exact State.updCtx_cur s c _
  · have put : ∀ a bs, (s.putRecord a bs).cur = s.cur := fun _ _ => rfl
    simp only [State.updCtx_cur, put]

@[simp] theorem State.storeUe_cur (s : State) (c sec : Nat) : (s.storeUe c sec).cur = s.cur := by
  simp only [State.storeUe]
  split
  · rfl
  · exact State.aeqAppend_cur _ _ _

theorem State.storeLine_cur (s : State) (c line : Nat) (data : Line) (m : LineMask) :
    (s.storeLine c line data m).cur = s.cur := by
  refine (foldl_cur (fun u i => ?_) _ _).trans rfl
  dsimp only
  split
  · rfl
  · split
    · rfl
    · split
      · rw [State.storeUe_cur, State.markPoison_cur]
      · rw [State.storeUe_cur, State.markPoison_cur]
      · exact State.readSector_cur _ _
      · rfl

@[simp] theorem State.storeBytes_cur (s : State) (c pa : Nat) (bs : List Byte) : (s.storeBytes c pa bs).cur = s.cur := by
  refine foldl_cur (fun u i => ?_) _ _
  dsimp only
  generalize (if i = 0 then pa else (pa / 128 + i) * 128) = lo
  split
  · exact State.storeLine_cur _ _ _ _ _
  · rfl

/-! ## Copies and commutative lines -/

@[simp] theorem State.setShr_cur (s : State) (core line : Nat) (b : Bool) : (s.setShr core line b).cur = s.cur := by
  rw [State.setShr]
  split <;> rfl

@[simp] theorem State.dropCopy_cur (s : State) (core line : Nat) : (s.dropCopy core line).cur = s.cur := by
  rw [State.dropCopy]
  split
  · rfl
  · exact State.setShr_cur s core line false

theorem State.readLine_cur (s : State) (line : Nat) : (s.readLine line).2.cur = s.cur := by
  simp only [State.readLine, List.range_succ, List.range_zero, List.nil_append, List.cons_append, List.foldl_cons,
    List.foldl_nil, State.readSector_cur]

theorem State.recall_cur (s : State) (k line : Nat) : (s.recall k line).2.2.cur = s.cur := by
  simp only [State.recall, State.updCore_cur]
  split <;> rfl

theorem State.addElems_cur (s : State) (e : BitVec 2) (line : Nat) (vals : Tab Word) :
    (s.addElems e line vals).cur = s.cur := by
  have put : ∀ (u : State) (a : Nat) (bs : List Byte), (u.putHome a bs).cur = u.cur := fun _ _ _ => rfl
  exact foldl_cur (fun u _ => put u _ _) _ _

@[simp] theorem State.combine_cur (s : State) (line : Nat) : (s.combine line).cur = s.cur := by
  simp only [State.combine]
  split
  · rfl
  · refine Eq.trans (foldl_cur (fun u k => ?_) _ _) (State.readLine_cur s line)
    rw [State.addElems_cur, State.recall_cur]

/-! ## Publication -/

@[simp] theorem State.accepted_cur (s : State) (pub : Nat) : (s.accepted pub).cur = s.cur := by
  rw [State.accepted]
  split
  · rfl
  · split <;> rfl

theorem State.deliver_cur (s : State) (u : UpdMsg) : (s.deliver u).cur = s.cur := by
  simp only [State.deliver]
  split
  · exact State.accepted_cur _ _
  · split
    · exact State.accepted_cur _ _
    · exact State.setShr_cur s u.dest u.line false

theorem State.deliverDrop_cur (s : State) (m : DropMsg) : (s.deliverDrop m).cur = s.cur :=
  foldl_cur State.accepted_cur _ _

theorem State.settle_cur (s : State) (line : Nat) : (s.settle line).cur = s.cur :=
  (foldl_cur State.deliverDrop_cur _ _).trans (foldl_cur State.deliver_cur _ _)

@[simp] theorem State.evictLine_cur (s : State) (line : Nat) : (s.evictLine line).cur = s.cur :=
  State.settle_cur s line

/-! ## XMOVE -/

theorem State.dropExtent_cur (s : State) (a n : Nat) : (s.dropExtent a n).cur = s.cur := by
  refine (foldl_cur (fun u e => ?_) _ _).trans (foldl_cur (fun u e => ?_) _ _)
  · rw [State.evictLine_cur, State.combine_cur]
  · exact foldl_cur (fun _ _ => State.dropCopy_cur _ _ _) _ _

@[simp] theorem State.moveBegin_cur (s : State) (d : Desc) (old new : DWord) : (s.moveBegin d old new).cur = s.cur := by
  simp only [State.moveBegin]
  split
  · exact State.dropExtent_cur _ _ _
  · exact State.dropExtent_cur _ _ _

@[simp] theorem State.moveEnd_cur (s : State) (a : ObjArg) (d : Desc) (new : DWord) : (s.moveEnd a d new).cur = s.cur :=
  State.storeBytes_cur _ _ _ _

end Sys2Proof.Machine
end

section
/-! SUPPORT. OBJSET, OBJINV and XMOVE (R86 to R90): what the form SYS comes to, the status that each check gives, and
what a removal leaves in the caches. -/

namespace Sys2Proof.Machine
open Sys2Proof.Slice0

theorem M.bind_of_error {α β : Type} {m : M α} {e : Stop} (h : m = .error e) (k : α → M β) : m >>= k = .error e := by
  rw [h, M.error_bind]

/-! ## The form SYS -/

section
variable {s : State} {p : Pred} {g : Group} {t : LaneMask} {lo : Nat} {d : Reg} {rs : List Nat} {i : Instr}
  {k : Group → Core → Nat → M (Nat × State)}

/-- A firmware instruction of form SYS whose registers can be used (R86). -/
structure SysRuns (s : State) (p : Pred) (g : Group) (t : LaneMask) (lo : Nat) (d : Reg) (rs : List Nat) (i : Instr)
    (k : Group → Core → Nat → M (Nat × State)) : Prop where
  turn : Turn s p g t lo
  fw : g.fw = true
  ready : Ready g (d.toNat :: rs)
  runs : exec i s = run s (s.sysM p d rs k)

theorem SysRuns.sysM (h : SysRuns s p g t lo d rs i k) :
    s.sysM p d rs k = (k g (s.core s.cur.core) lo >>= fun r =>
      .ok (r.2.putAll t d.toNat (BitVec.ofNat 32 r.1)).next) := by
  rw [State.sysM, turn_priv h.turn h.fw, needRegs_ready lo h.ready, M.ok_bind]

theorem SysRuns.answers (h : SysRuns s p g t lo d rs i k) {n : Nat} {u : State}
    (hk : k g (s.core s.cur.core) lo = .ok (n, u)) : answers s t d i n u := by
  rw [Slice0.answers, h.runs, h.sysM, hk, M.ok_bind, run_ok]

theorem SysRuns.parks (h : SysRuns s p g t lo d rs i k) (hk : k g (s.core s.cur.core) lo = .error .park) :
    exec i s = .next s.park := by
  rw [h.runs, h.sysM, hk, M.error_bind, run_park]

theorem SysRuns.parksIn (h : SysRuns s p g t lo d rs i k) {u : State} (hk : k g (s.core s.cur.core) lo = parkIn u) :
    exec i s = .next u.park := by
  rw [h.runs, h.sysM, hk, parkIn, M.error_bind, run_state]

/-- Entries have been removed: OK once every access checked before has completed (R89). -/
theorem SysRuns.removes (h : SysRuns s p g t lo d rs i k) {u : State} (hc : u.cur = s.cur)
    (hk : k g (s.core s.cur.core) lo = u.removed) : removes s t d i u := by
  have key : u.seqKey = s.seqKey := by rw [State.seqKey, State.seqKey, hc]
  refine ⟨fun done => h.answers (hk.trans ?_), fun waits => h.parksIn (hk.trans ?_)⟩
  · rw [State.removed, if_pos done, key]
  · rw [State.removed, if_neg (Bool.eq_false_iff.mp waits), key]

end

/-! ## An XMOVE of another sequencer under way (R90) -/

section
variable {s : State} {b : Moving → Bool} {hit : Moving → Prop} (hb : ∀ m, b m = true ↔ hit m)
include hb

theorem State.moveUnder_any : (s.moving.any fun m => m.key != s.seqKey && b m) = true ↔
    ¬ ∀ m ∈ s.moving, hit m → m.key = s.seqKey := by
  simp only [List.any_eq_true, Bool.and_eq_true, bne_iff_ne, ne_eq, hb, not_forall, exists_prop, and_comm]

theorem State.moveUnder_clear (h : ∀ m ∈ s.moving, hit m → m.key = s.seqKey) : s.moveUnder b = .ok () := by
  rw [State.moveUnder, Bool.eq_false_iff.mpr ((State.moveUnder_any hb).not_left.mpr h)]; rfl

theorem State.moveUnder_taken (h : ¬ ∀ m ∈ s.moving, hit m → m.key = s.seqKey) : s.moveUnder b = .error .park := by
  rw [State.moveUnder, (State.moveUnder_any hb).mpr h]; rfl

end

/-! ## OBJSET (R88) -/

theorem State.objsetDesc_bad {s : State} {a : ObjArg} {d : Desc} (h : a.ok = false ∨ d.formOk = false) :
    s.objsetDesc a d = (1, s) := by
  rcases h with h | h <;> simp [State.objsetDesc, h]

theorem State.objsetDesc_absent {s : State} {a : ObjArg} {d : Desc} (ha : a.ok = true) (hd : d.formOk = true)
    (h : s.objOk a = false) : s.objsetDesc a d = (3, s) := by
  simp [State.objsetDesc, ha, hd, h]

theorem State.objsetDesc_sets {s : State} {a : ObjArg} {d : Desc} (ha : a.ok = true) (hd : d.formOk = true)
    (h : s.objOk a = true) : s.objsetDesc a d =
      (0, s.storeBytes fwCtx ((s.ctx a.ctx).otb + 16 * a.on) (bytesOfWords [d.w0, d.w1])) := by
  simp [State.objsetDesc, ha, hd, h]

/-- An entry is well formed for the extents of the object it is for, or of the least size where there is none. -/
def State.entryOk (s : State) (a : ObjArg) (e : DWord) : Bool :=
  extFormOk e (if s.objOk a = true ∧ (fetchDesc s 0 a.ctx a.on).v = true then (fetchDesc s 0 a.ctx a.on).extLog else 16)

/-- The object names an extent entry of index XIDX. -/
def State.listed (s : State) (a : ObjArg) : Prop :=
  s.objOk a = true ∧ (fetchDesc s 0 a.ctx a.on).v = true ∧ a.xidx < (fetchDesc s 0 a.ctx a.on).extents

/-- The entry that the object's list holds. -/
def State.oldEntry (s : State) (a : ObjArg) : DWord := extEntry s (fetchDesc s 0 a.ctx a.on) a.xidx

/-- Two entries name one place (R88). -/
def samePlace (e old : DWord) : Prop := extHome e = extHome old ∧ extBias e = extBias old ∧ extBase e = extBase old

theorem samePlace_iff {e old : DWord} : samePlace e old ↔
    (extHome e != extHome old || extBias e != extBias old || extBase e != extBase old) = false := by
  simp only [samePlace, Bool.or_eq_false_iff, bne_eq_false_iff_eq, and_assoc]

section
variable {s : State} {a : ObjArg} {e : DWord}

theorem State.objsetExt_badArg (h : a.ok = false) : s.objsetExt a e = (1, s) := by
  simp [State.objsetExt, h]

theorem State.objsetExt_malformed (h : extP e = true) (hf : s.entryOk a e = false) : s.objsetExt a e = (1, s) := by
  simp only [State.entryOk] at hf
  simp [State.objsetExt, h, hf]

variable (ha : a.ok = true) (hf : ¬ (extP e = true ∧ s.entryOk a e = false))
include ha hf

/-- What OBJSET answers for a well-formed operand (R87, R88). -/
theorem State.objsetExt_formed : s.objsetExt a e =
    let d := fetchDesc s 0 a.ctx a.on
    let old := s.oldEntry a
    let here := s.objOk a && d.v && decide (a.xidx < d.extents)
    if here && extP old && extP e && (extHome e != extHome old || extBias e != extBias old || extBase e != extBase old)
    then (2, s)
    else if !here then (3, s)
    else
      let u := s.storeBytes fwCtx (d.entryAt a.xidx) (bytesOfWords [e])
      (0, if extP e && !extP old then u.extentArrived a.ctx a.on a.xidx else u) := by
  have fine : (!a.ok || (extP e && !extFormOk e
      (if s.objOk a && (fetchDesc s 0 a.ctx a.on).v then (fetchDesc s 0 a.ctx a.on).extLog else 16))) = false := by
    simp only [State.entryOk] at hf
    simp only [ha, Bool.not_true, Bool.false_or, Bool.and_eq_true]
    simpa using hf
  simp only [State.objsetExt, fine, Bool.false_eq_true, if_false]
  rfl

theorem State.objsetExt_elsewhere (hl : s.listed a) (ho : extP (s.oldEntry a) = true) (he : extP e = true)
    (h : ¬ samePlace e (s.oldEntry a)) : s.objsetExt a e = (2, s) := by
  obtain ⟨l1, l2, l3⟩ := hl
  have other := Bool.not_eq_false _ ▸ samePlace_iff.not.mp h
  rw [State.objsetExt_formed ha hf]
  simp only [l1, l2, l3, ho, he, other, decide_true, Bool.and_self, if_true]

theorem State.objsetExt_absent (hl : ¬ s.listed a) : s.objsetExt a e = (3, s) := by
  have gone : (s.objOk a && (fetchDesc s 0 a.ctx a.on).v &&
      decide (a.xidx < (fetchDesc s 0 a.ctx a.on).extents)) = false := by
    simp only [State.listed] at hl
    simp only [Bool.eq_false_iff, ne_eq, Bool.and_eq_true, decide_eq_true_eq, and_assoc]
    exact hl
  rw [State.objsetExt_formed ha hf]
  simp [gone]

theorem State.objsetExt_sets (hl : s.listed a) (h : extP (s.oldEntry a) = true → extP e = true → samePlace e (s.oldEntry a)) :
    s.objsetExt a e =
      let u := s.storeBytes fwCtx ((fetchDesc s 0 a.ctx a.on).entryAt a.xidx) (bytesOfWords [e])
      (0, if extP e = true ∧ extP (s.oldEntry a) = false then u.extentArrived a.ctx a.on a.xidx else u) := by
  obtain ⟨l1, l2, l3⟩ := hl
  have same : (extP (s.oldEntry a) && extP e && (extHome e != extHome (s.oldEntry a) ||
      extBias e != extBias (s.oldEntry a) || extBase e != extBase (s.oldEntry a))) = false := by
    cases ho : extP (s.oldEntry a) with
    | false => rfl
    | true =>
      cases he : extP e with
      | false => rfl
      | true => exact samePlace_iff.mp (h ho he)
  rw [State.objsetExt_formed ha hf]
  simp only [l1, l2, l3, same, decide_true, Bool.true_and, Bool.not_true, Bool.false_eq_true, if_false,
    Bool.and_eq_true, Bool.not_eq_true']

end

/-! ## OBJINV (R89) -/

section
variable {s : State} {a : ObjArg} {all : Bool}

theorem State.awaitOld_done {r : Removal} (h : s.accessesDone r.time = true) :
    s.awaitOld r = .ok (0, s.settled r.key) := by
  rw [State.awaitOld, if_pos h]

theorem State.awaitOld_waits {r : Removal} (h : s.accessesDone r.time = false) : s.awaitOld r = .error .park := by
  rw [State.awaitOld, if_neg (Bool.eq_false_iff.mp h)]

theorem State.objinvM_waiting {r : Removal} (h : s.removal = some r) : s.objinvM a all = s.awaitOld r := by
  rw [State.objinvM, h]

variable (none_ : s.removal = none)
  (clear : ∀ m ∈ s.moving, (m.ctx = a.ctx ∧ (all = true ∨ m.on = a.on)) → m.key = s.seqKey)
include none_ clear

/-- What OBJINV answers while it waits for nothing (R87, R89). -/
theorem State.objinvM_now : s.objinvM a all =
    if !a.ok then .ok (1, s)
    else if (if all then !s.resident a.ctx else !s.objOk a) then .ok (3, s)
    else ((s.invalidate a.ctx (if all then none else some a.on)).markOld
      fun c o => c == a.ctx && (all || o == a.on)).removed := by
  have free : s.moveUnder (fun m => m.ctx == a.ctx && (all || m.on == a.on)) = .ok () :=
    State.moveUnder_clear (fun m => by simp only [Bool.and_eq_true, beq_iff_eq, Bool.or_eq_true]) clear
  rw [State.objinvM, none_]
  simp only [free, M.ok_bind]

theorem State.objinvM_badArg (ha : a.ok = false) : s.objinvM a all = .ok (1, s) := by
  rw [State.objinvM_now none_ clear, ha]; rfl

theorem State.objinvM_absent (ha : a.ok = true) (h : (if all then s.resident a.ctx else s.objOk a) = false) :
    s.objinvM a all = .ok (3, s) := by
  rw [State.objinvM_now none_ clear, ha]
  cases all <;> simp only [Bool.false_eq_true, if_false, if_true] at h <;> simp [h]

theorem State.objinvM_removes (ha : a.ok = true) (h : (if all then s.resident a.ctx else s.objOk a) = true) :
    s.objinvM a all = ((s.invalidate a.ctx (if all then none else some a.on)).markOld
      fun c o => c == a.ctx && (all || o == a.on)).removed := by
  rw [State.objinvM_now none_ clear, ha]
  cases all <;> simp only [Bool.false_eq_true, if_false, if_true] at h <;> simp [h]

end

/-! ## What a removal leaves in the caches (R89) -/

/-- A core whose requests that `mine` names have been marked. -/
def Core.markOld (x : Core) (mine : Nat → Nat → Bool) : Core :=
  let req := fun (q : CopyReq) => if q.uses mine then { q with old := true } else q
  { x with copyq := x.copyq.map req, active := x.active.map fun t => { t with req := req t.req } }

theorem State.markOld_cores (s : State) (mine : Nat → Nat → Bool) :
    (s.markOld mine).cores = s.cores.map fun e => (e.1, e.2.markOld mine) := rfl

/-- The entries that a removal names: of one object, or of a whole context. -/
def inRemoval (ctx : Nat) (on : Option Nat) (c o : Nat) : Bool :=
  c == ctx && (match on with | some k => o == k | none => true)

theorem inRemoval_all (ctx c o : Nat) : inRemoval ctx none c o = false ↔ c ≠ ctx := by
  simp [inRemoval]

theorem inRemoval_one (ctx k c o : Nat) : inRemoval ctx (some k) c o = false ↔ (c = ctx → o ≠ k) := by
  simp [inRemoval]

/-- A core without the descriptors and decided copies that a removal names. -/
def Core.forget (x : Core) (ctx : Nat) (on : Option Nat) : Core :=
  { x with
    desc := x.desc.filter fun e => !inRemoval ctx on e.1 e.2.1
    decided := x.decided.filter fun q => !inRemoval ctx on q.ctx (ptrOn q.ptr) }

theorem State.invalidate_cores (s : State) (ctx : Nat) (on : Option Nat) :
    (s.invalidate ctx on).cores = s.cores.map fun e => (e.1, e.2.forget ctx on) := rfl

/-- A cluster without the extents that a removal names. -/
def Cluster.forget (x : Cluster) (ctx : Nat) (on : Option Nat) : Cluster :=
  { x with extents := x.extents.filter fun e => !inRemoval ctx on e.1 e.2.1 }

theorem State.removal_clusters (s : State) (ctx : Nat) (on : Option Nat) (mine : Nat → Nat → Bool) :
    ((s.invalidate ctx on).markOld mine).clusters = s.clusters.map fun e => (e.1, e.2.forget ctx on) := rfl

theorem tabGet_map {α : Type} (d : α) (f : α → α) (t : Tab α) (k : Nat) :
    tabGet d (t.map fun e => (e.1, f e.2)) k = f (tabGet d t k) ∨ tabGet d (t.map fun e => (e.1, f e.2)) k = d := by
  rw [tabGet, tabGet, tabFind_map]
  cases tabFind t k with
  | none => exact .inr rfl
  | some x => exact .inl rfl

section
variable {s : State} {ctx : Nat} {on : Option Nat} {mine : Nat → Nat → Bool}

theorem State.invalidate_desc {c : Nat} {e : Nat × Nat × DWord × DWord} (h : e ∈ ((s.invalidate ctx on).core c).desc) :
    e ∈ (s.core c).desc ∧ inRemoval ctx on e.1 e.2.1 = false := by
  rw [State.core, State.invalidate_cores] at h
  rcases tabGet_map Core.init (fun x => x.forget ctx on) s.cores c with k | k <;> rw [k] at h
  · obtain ⟨kept, other⟩ := List.mem_filter.mp h
    exact ⟨kept, Bool.not_eq_true' _ ▸ other⟩
  · exact absurd h List.not_mem_nil

theorem State.removal_desc {c : Nat} {e : Nat × Nat × DWord × DWord}
    (h : e ∈ (((s.invalidate ctx on).markOld mine).core c).desc) :
    e ∈ (s.core c).desc ∧ inRemoval ctx on e.1 e.2.1 = false := by
  rw [State.core, State.markOld_cores] at h
  rcases tabGet_map Core.init (fun x => x.markOld mine) (s.invalidate ctx on).cores c with k | k <;> rw [k] at h
  · exact State.invalidate_desc h
  · exact absurd h List.not_mem_nil

theorem State.removal_extents {k : Nat} {e : Nat × Nat × Nat × DWord}
    (h : e ∈ (((s.invalidate ctx on).markOld mine).cluster k).extents) :
    e ∈ (s.cluster k).extents ∧ inRemoval ctx on e.1 e.2.1 = false := by
  rw [State.cluster, State.removal_clusters] at h
  rcases tabGet_map Cluster.init (fun x => x.forget ctx on) s.clusters k with m | m <;> rw [m] at h
  · obtain ⟨kept, other⟩ := List.mem_filter.mp h
    exact ⟨kept, Bool.not_eq_true' _ ▸ other⟩
  · exact absurd h List.not_mem_nil

/-- What OBJINV of an object, or of a whole context, does not name stays out of its removal. -/
theorem inRemoval_form {all : Bool} {c o k : Nat} (h : inRemoval ctx (if all then none else some k) c o = false) :
    c = ctx → all = false ∧ o ≠ k := by
  intro hc
  cases all with
  | true => exact absurd hc ((inRemoval_all ctx c o).mp h)
  | false => exact ⟨rfl, (inRemoval_one ctx k c o).mp h hc⟩

end

/-! ## XMOVE (R90) -/

section
variable {s : State} {a : ObjArg} {e : DWord}

theorem State.xmoveM_issued (none_ : s.removal = none) (mine : ∃ m ∈ s.moving, m.key = s.seqKey) :
    s.xmoveM a e = if s.moves.any fun m => m.2 == s.seqKey then .error .park
      else (s.moveEnd a (fetchDesc s 0 a.ctx a.on) e).removed := by
  have own : (s.moving.any fun m => m.key == s.seqKey) = true := by
    simpa only [List.any_eq_true, beq_iff_eq] using mine
  unfold State.xmoveM
  rw [none_]
  exact if_pos own

/-- The extent whose move XMOVE has begun. -/
def State.movingFrom (s : State) (a : ObjArg) (e : DWord) : State :=
  { s.moveBegin (fetchDesc s 0 a.ctx a.on) (s.oldEntry a) e with
    moving := s.moving ++ [{ key := s.seqKey, ctx := a.ctx, on := a.on, ext := a.xidx }] }

/-- XMOVE at its first issue: a status, the host asked, or the extent moved. -/
def State.xmoveStart (s : State) (a : ObjArg) (e : DWord) : M (Nat × State) :=
  match s.xmoveBad a (fetchDesc s 0 a.ctx a.on) (s.oldEntry a) e with
  | some k => .ok (k, s)
  | none =>
    if extBias (s.oldEntry a) && !extBias e then
      parkIn { s.movingFrom a e with
        moves := s.moves ++ (extLines (fetchDesc s 0 a.ctx a.on) (s.oldEntry a)).map fun l => (l, s.seqKey) }
    else ((s.movingFrom a e).moveEnd a (fetchDesc s 0 a.ctx a.on) e).removed

theorem State.withMoving_cur (s : State) (ms : List Moving) : ({ s with moving := ms } : State).cur = s.cur := rfl

theorem State.movingFrom_cur (s : State) (a : ObjArg) (e : DWord) : (s.movingFrom a e).cur = s.cur :=
  (State.withMoving_cur _ _).trans (State.moveBegin_cur ..)

variable (none_ : s.removal = none) (fresh : ∀ m ∈ s.moving, m.key ≠ s.seqKey)
  (clear : ∀ m ∈ s.moving, (m.ctx = a.ctx ∧ m.on = a.on ∧ m.ext = a.xidx) → m.key = s.seqKey)
include none_ fresh clear

theorem State.xmoveM_first : s.xmoveM a e = s.xmoveStart a e := by
  have own : ¬ (s.moving.any fun m => m.key == s.seqKey) = true := by
    simpa only [List.any_eq_true, beq_iff_eq, not_exists, not_and] using fresh
  have free : s.moveUnder (fun m => m.ctx == a.ctx && m.on == a.on && m.ext == a.xidx) = .ok () :=
    State.moveUnder_clear (fun m => by simp only [Bool.and_eq_true, beq_iff_eq, and_assoc]) clear
  unfold State.xmoveM
  rw [none_]
  exact (if_neg own).trans (M.bind_of_ok free _)

theorem State.xmoveM_bad {k : Nat} (h : s.xmoveBad a (fetchDesc s 0 a.ctx a.on) (s.oldEntry a) e = some k) :
    s.xmoveM a e = .ok (k, s) := by
  rw [State.xmoveM_first none_ fresh clear, State.xmoveStart, h]

variable (h : s.xmoveBad a (fetchDesc s 0 a.ctx a.on) (s.oldEntry a) e = none)
include h

theorem State.xmoveM_asks (h1 : extBias (s.oldEntry a) = true) (h2 : extBias e = false) :
    s.xmoveM a e = parkIn { s.movingFrom a e with
      moves := s.moves ++ (extLines (fetchDesc s 0 a.ctx a.on) (s.oldEntry a)).map fun l => (l, s.seqKey) } := by
  rw [State.xmoveM_first none_ fresh clear, State.xmoveStart, h]
  simp only [h1, h2, Bool.not_false, Bool.and_self, if_true]

theorem State.xmoveM_moves (hb : extBias (s.oldEntry a) = false ∨ extBias e = true) :
    s.xmoveM a e = ((s.movingFrom a e).moveEnd a (fetchDesc s 0 a.ctx a.on) e).removed := by
  rw [State.xmoveM_first none_ fresh clear, State.xmoveStart, h]
  rcases hb with hb | hb <;> simp [hb]

end

/-! ### The first status but OK (R87) -/

section
variable {s : State} {a : ObjArg} {e : DWord}

theorem State.xmoveBad_arg (h : a.ok = false ∨ extP e = false) :
    s.xmoveBad a (fetchDesc s 0 a.ctx a.on) (s.oldEntry a) e = some 1 := by
  rcases h with h | h <;> simp [State.xmoveBad, h]

theorem State.xmoveBad_malformed (h : s.entryOk a e = false) :
    s.xmoveBad a (fetchDesc s 0 a.ctx a.on) (s.oldEntry a) e = some 1 := by
  simp only [State.entryOk] at h
  simp [State.xmoveBad, h]

variable (ha : a.ok = true) (he : extP e = true) (hf : s.entryOk a e = true)
include ha he hf

/-- The checks after those of the operands. -/
theorem State.xmoveBad_formed : s.xmoveBad a (fetchDesc s 0 a.ctx a.on) (s.oldEntry a) e =
    let d := fetchDesc s 0 a.ctx a.on
    if !s.objOk a || !d.v || decide (a.xidx ≥ d.extents) then some 3
    else if !d.grants .m then some 4
    else if !s.quiesced a.ctx then some 5
    else if !extP (s.oldEntry a) then some 6
    else none := by
  have fine : extFormOk e (if s.objOk a && (fetchDesc s 0 a.ctx a.on).v then (fetchDesc s 0 a.ctx a.on).extLog else 16)
      = true := by
    simp only [State.entryOk] at hf
    simpa only [Bool.and_eq_true] using hf
  simp only [State.xmoveBad, ha, he, fine, Bool.not_true, Bool.or_self, Bool.false_eq_true, if_false]

theorem State.xmoveBad_absent (hl : ¬ s.listed a) :
    s.xmoveBad a (fetchDesc s 0 a.ctx a.on) (s.oldEntry a) e = some 3 := by
  have gone : (!s.objOk a || !(fetchDesc s 0 a.ctx a.on).v ||
      decide (a.xidx ≥ (fetchDesc s 0 a.ctx a.on).extents)) = true := by
    by_contra there
    simp only [Bool.not_eq_true, Bool.or_eq_false_iff, Bool.not_eq_false', decide_eq_false_iff_not, not_le, ge_iff_le,
      and_assoc] at there
    exact hl there
  rw [State.xmoveBad_formed ha he hf]
  simp only [gone, if_true]

variable (hl : s.listed a)
include hl

theorem State.xmoveBad_listed : s.xmoveBad a (fetchDesc s 0 a.ctx a.on) (s.oldEntry a) e =
    if !(fetchDesc s 0 a.ctx a.on).grants .m then some 4
    else if !s.quiesced a.ctx then some 5
    else if !extP (s.oldEntry a) then some 6
    else none := by
  obtain ⟨l1, l2, l3⟩ := hl
  rw [State.xmoveBad_formed ha he hf]
  simp only [l1, l2, ge_iff_le, Nat.not_le.mpr l3, decide_false, Bool.not_true, Bool.or_self, Bool.false_eq_true, if_false]

theorem State.xmoveBad_right (h : (fetchDesc s 0 a.ctx a.on).grants .m = false) :
    s.xmoveBad a (fetchDesc s 0 a.ctx a.on) (s.oldEntry a) e = some 4 := by
  rw [State.xmoveBad_listed ha he hf hl, h]; rfl

variable (hm : (fetchDesc s 0 a.ctx a.on).grants .m = true)
include hm

theorem State.xmoveBad_busy (h : s.quiesced a.ctx = false) :
    s.xmoveBad a (fetchDesc s 0 a.ctx a.on) (s.oldEntry a) e = some 5 := by
  rw [State.xmoveBad_listed ha he hf hl, hm, h]; rfl

variable (hq : s.quiesced a.ctx = true)
include hq

theorem State.xmoveBad_gone (h : extP (s.oldEntry a) = false) :
    s.xmoveBad a (fetchDesc s 0 a.ctx a.on) (s.oldEntry a) e = some 6 := by
  rw [State.xmoveBad_listed ha he hf hl, hm, hq, h]; rfl

theorem State.xmoveBad_none (h : extP (s.oldEntry a) = true) :
    s.xmoveBad a (fetchDesc s 0 a.ctx a.on) (s.oldEntry a) e = none := by
  rw [State.xmoveBad_listed ha he hf hl, hm, hq, h]; rfl

end

end Sys2Proof.Machine
end

section
/-! SUPPORT. O44: each firmware instruction of an object answers what its check gives. -/

namespace Sys2Proof.Slice0
open Sys2Proof.Machine

/-- A status of a well-formed entry, 1 of a malformed one. -/
theorem formed_of {e : DWord} {form : Bool} {bad P : Prop} (hb : extP e = true → form = false → bad)
    (hp : ¬ (extP e = true ∧ form = false) → P) : if extP e = true ∧ form = false then bad else P := by
  split
  case isTrue h => exact hb h.1 h.2
  case isFalse h => exact hp h

section
variable {s : State} {p : Pred} {g : Group} {t : LaneMask} {lo : Nat} {d a b : Reg}

/-- The extent entry in vB. -/
def newEntry (s : State) (g : Group) (b : Reg) (lo : Nat) : DWord := g.pair (s.core s.cur.core) b.toNat lo

/-- The operand vA of an object's form. -/
def objOperand (s : State) (g : Group) (a : Reg) (lo : Nat) (x : Bool) : ObjArg :=
  objArg (g.pair (s.core s.cur.core) a.toNat lo) x

/-- An XMOVE works on the object (R90). -/
def onObject (a : ObjArg) (m : Moving) : Prop := m.ctx = a.ctx ∧ m.on = a.on

/-- An XMOVE works on the extent (R90). -/
def onExtent (a : ObjArg) (m : Moving) : Prop := m.ctx = a.ctx ∧ m.on = a.on ∧ m.ext = a.xidx

theorem onObject_iff (a : ObjArg) (m : Moving) : (m.ctx == a.ctx && m.on == a.on) = true ↔ onObject a m := by
  simp only [onObject, Bool.and_eq_true, beq_iff_eq]

theorem onExtent_iff (a : ObjArg) (m : Moving) :
    (m.ctx == a.ctx && m.on == a.on && m.ext == a.xidx) = true ↔ onExtent a m := by
  simp only [onExtent, Bool.and_eq_true, beq_iff_eq, and_assoc]

variable (turn : Turn s p g t lo) (fw : g.fw = true) (ready : Ready g [d.toNat, a.toNat, a.toNat + 1])
include turn fw ready

theorem objsetDesc_answers (more : Ready g [b.toNat, b.toNat + 1, b.toNat + 2, b.toNat + 3])
    (clear : ∀ m ∈ s.moving, onObject (objOperand s g a lo false) m → m.key = s.seqKey) {n : Nat} {u : State}
    (h : s.objsetDesc (objOperand s g a lo false)
      ⟨newEntry s g b lo, g.pair (s.core s.cur.core) (b.toNat + 2) lo⟩ = (n, u)) :
    answers s t d (.objsetDesc p d a b) n u := by
  have free := State.moveUnder_clear (onObject_iff (objOperand s g a lo false)) clear
  exact SysRuns.answers ⟨turn, fw, ready_both ready more, rfl⟩
    ((M.bind_of_ok free fun _ => .ok (s.objsetDesc (objOperand s g a lo false) _)).trans (congrArg Except.ok h))

variable (more : Ready g [b.toNat, b.toNat + 1])
include more

theorem objsetExt_waits (h : ¬ ∀ m ∈ s.moving, onExtent (objOperand s g a lo true) m → m.key = s.seqKey) :
    exec (.objsetExt p d a b) s = .next s.park := by
  have taken := State.moveUnder_taken (onExtent_iff (objOperand s g a lo true)) h
  exact SysRuns.parks ⟨turn, fw, ready_both ready more, rfl⟩
    (M.bind_of_error taken fun _ => .ok (s.objsetExt (objOperand s g a lo true) (newEntry s g b lo)))

theorem objsetExt_answers (clear : ∀ m ∈ s.moving, onExtent (objOperand s g a lo true) m → m.key = s.seqKey)
    {n : Nat} {u : State} (h : s.objsetExt (objOperand s g a lo true) (newEntry s g b lo) = (n, u)) :
    answers s t d (.objsetExt p d a b) n u := by
  have free := State.moveUnder_clear (onExtent_iff (objOperand s g a lo true)) clear
  exact SysRuns.answers ⟨turn, fw, ready_both ready more, rfl⟩
    ((M.bind_of_ok free fun _ => .ok (s.objsetExt (objOperand s g a lo true) _)).trans (congrArg Except.ok h))

theorem xmove_runs : SysRuns s p g t lo d [a.toNat, a.toNat + 1, b.toNat, b.toNat + 1] (.xmove p d a b)
    fun g x lo => s.xmoveM (objArg (g.pair x a.toNat lo) true) (g.pair x b.toNat lo) :=
  ⟨turn, fw, ready_both ready more, rfl⟩

end

/-- What an instruction of the pair OBJINV, OBJINV.all runs. -/
theorem objinv_runs {s : State} {p : Pred} {g : Group} {t : LaneMask} {lo : Nat} {d a : Reg}
    (turn : Turn s p g t lo) (fw : g.fw = true) (ready : Ready g [d.toNat, a.toNat, a.toNat + 1]) {i : Instr × Bool}
    (hi : i ∈ [(Instr.objinv p d a, false), (.objinvAll p d a, true)]) :
    SysRuns s p g t lo d [a.toNat, a.toNat + 1] i.1
      fun g x lo => s.objinvM (objArg (g.pair x a.toNat lo) i.2) i.2 := by
  rcases List.mem_cons.mp hi with rfl | hi
  · exact ⟨turn, fw, ready, rfl⟩
  · obtain rfl := List.mem_singleton.mp hi
    exact ⟨turn, fw, ready, rfl⟩

/-- Settles O44: each form's frame is the form SYS, and the status is the first that its checks give. -/
theorem firmwareObjects : Obligations.FirmwareObjects := by
  unfold Obligations.FirmwareObjects
  intro s g t lo p d a b x v w w1 arg ext dsc at_ old listed form formed same one clear turn fw ready
  refine ⟨fun more free => ?desc, fun more => ⟨objsetExt_waits turn fw ready more, fun free => ?ext⟩,
    fun i hi => ?inv, fun more none_ => ?move⟩
  case desc =>
    have set := @objsetDesc_answers s p g t lo d a b turn fw ready more free
    exact ⟨fun bad => set (State.objsetDesc_bad bad), fun ha hd =>
      ⟨fun gone => set (State.objsetDesc_absent ha hd gone), fun here => set (State.objsetDesc_sets ha hd here)⟩⟩
  case ext =>
    have set := @objsetExt_answers s p g t lo d a b turn fw ready more free
    have formed {P : Prop} := formed_of (form := form) (P := P)
      fun he hf => set (State.objsetExt_malformed he hf)
    exact ⟨fun bad => set (State.objsetExt_badArg bad), fun ha =>
      ⟨fun hl ho he other => formed fun hf => set (State.objsetExt_elsewhere ha hf hl ho he other),
        fun hl => formed fun hf => set (State.objsetExt_absent ha hf hl),
        fun hl alike => formed fun hf => set (State.objsetExt_sets ha hf hl alike)⟩⟩
  case inv =>
    have runs := objinv_runs turn fw ready hi
    refine ⟨fun r hr => ⟨fun done => ?_, fun waits => ?_⟩, fun none_ free => ⟨fun bad => ?_, fun ha gone => ?_,
      fun ha here => ⟨?_, fun c e he => ?_, fun k e he => ?_, rfl⟩⟩⟩
    · exact runs.answers ((State.objinvM_waiting hr).trans (State.awaitOld_done done))
    · exact runs.parks ((State.objinvM_waiting hr).trans (State.awaitOld_waits waits))
    · exact runs.answers (State.objinvM_badArg none_ free bad)
    · exact runs.answers (State.objinvM_absent none_ free ha gone)
    · exact runs.removes rfl (State.objinvM_removes none_ free ha here)
    · exact (State.removal_desc he).imp_right inRemoval_form
    · exact (State.removal_extents he).imp_right inRemoval_form
  case move =>
    have runs := xmove_runs turn fw ready more
    refine ⟨fun mine => ⟨fun asked => ?asked, fun answered => ?answered⟩, fun fresh free => ?_⟩
    case asked =>
      refine runs.parks ((State.xmoveM_issued none_ mine).trans (if_pos ?_))
      simpa only [List.any_eq_true, beq_iff_eq] using asked
    case answered =>
      refine runs.removes (State.moveEnd_cur ..) ((State.xmoveM_issued none_ mine).trans (if_neg ?_))
      simpa only [List.any_eq_true, beq_iff_eq, not_exists, not_and] using answered
    have bad {k : Nat} (h : s.xmoveBad ext at_ old w = some k) : answers s t d (.xmove p d a b) k s :=
      runs.answers (State.xmoveM_bad none_ fresh free h)
    refine ⟨fun arg => bad (State.xmoveBad_arg arg), fun ha he => ?_⟩
    have formed {P : Prop} (h : s.entryOk ext w = true → P) : formed (.xmove p d a b) P :=
      formed_of (fun _ hf => bad (State.xmoveBad_malformed hf)) fun hf =>
        h (Bool.not_eq_false _ ▸ fun no => hf ⟨he, no⟩)
    refine ⟨fun hl => formed fun hf => bad (State.xmoveBad_absent ha he hf hl), fun hl => ?_⟩
    exact ⟨fun hm => formed fun hf => bad (State.xmoveBad_right ha he hf hl hm),
      fun hm hq => formed fun hf => bad (State.xmoveBad_busy ha he hf hl hm hq),
      fun hm hq => ⟨fun ho => formed fun hf => bad (State.xmoveBad_gone ha he hf hl hm hq ho),
        fun ho h1 h2 => formed fun hf => runs.parksIn
          (State.xmoveM_asks none_ fresh free (State.xmoveBad_none ha he hf hl hm hq ho) h1 h2),
        fun ho hb => formed fun hf => runs.removes ((State.moveEnd_cur ..).trans (State.movingFrom_cur ..))
          (State.xmoveM_moves none_ fresh free (State.xmoveBad_none ha he hf hl hm hq ho) hb)⟩⟩

end Sys2Proof.Slice0
end

section
/-! SUPPORT. A replay, a refusal and an ink home (R78 to R82, R107 to R120): what an attempt that traps leaves
alone, and what the reply of a deterministic group's home does not hide. -/

namespace Sys2Proof.Machine
open Sys2Proof.Slice0

/-! ## An attempt that traps leaves every group as it was -/

/-- From `s` the attempt `r` changes no group where it traps. -/
def Try.TrapsFrom (s : State) (r : Try) : Prop := ∀ t v, r = .trap t v → GroupsKept s v

section
variable {s u : State}

theorem Try.trapsFrom_trap {t : TrapInfo} (h : GroupsKept s u) : (Try.trap t u).TrapsFrom s := by
  rintro t' v ⟨⟩; exact h

theorem Try.trapsFrom_absent {on ext : Nat} : (Try.absent on ext u).TrapsFrom s := fun _ _ h => nomatch h
theorem Try.trapsFrom_wait : Try.wait.TrapsFrom s := fun _ _ h => nomatch h
theorem Try.trapsFrom_gone : (Try.gone u).TrapsFrom s := fun _ _ h => nomatch h
theorem Try.trapsFrom_done : (Try.done u).TrapsFrom s := fun _ _ h => nomatch h
theorem Try.trapsFrom_fly {es : List Elem} : (Try.fly es u).TrapsFrom s := fun _ _ h => nomatch h

theorem Try.TrapsFrom.map {r : Try} (h : r.TrapsFrom s) (f : State → State) : (r.map f).TrapsFrom s := by
  cases r with
  | done => exact trapsFrom_done
  | trap | absent | wait | park | gone | fly => exact h

end

section
variable (s : State) (a : Actor) (g : Group)

theorem State.windowAccess_trapsFrom (r : MemReq) (store : Bool) (es : List Elem) :
    (s.windowAccess a r store es).TrapsFrom s := by
  cases store with
  | true => exact Try.trapsFrom_done
  | false => exact Try.trapsFrom_done

theorem State.storeGlb_trapsFrom (u : State) (ctx : Nat) (r : MemReq) (hs : List Hit) :
    (u.storeGlb a ctx r hs).TrapsFrom s := by
  cases nt : r.nt with
  | true => simp only [State.storeGlb, nt, if_true]; exact Try.trapsFrom_done
  | false =>
    simp only [State.storeGlb, nt, Bool.false_eq_true, if_false]
    split
    · exact Try.trapsFrom_done
    · split
      · exact Try.trapsFrom_gone
      · exact Try.trapsFrom_wait

theorem State.loadGlb_trapsFrom (u : State) (r : MemReq) (hs : List Hit) : (u.loadGlb a r hs).TrapsFrom s := by
  unfold State.loadGlb
  dsimp only
  split
  · exact Try.trapsFrom_wait
  · split
    · exact Try.trapsFrom_gone
    · split
      · exact Try.trapsFrom_gone
      · split
        · exact Try.trapsFrom_gone
        · split
          · exact Try.trapsFrom_done
          · exact Try.trapsFrom_fly

theorem State.tryGlb_trapsFrom (r : MemReq) (store : Bool) (ks : List Cand) :
    (s.tryGlb a g r store ks).TrapsFrom s := by
  have kept := GroupsKept.checkGlb s a.core g.ctx r.size.bytes (if store then needStore else needLoad) ks
  unfold State.tryGlb
  dsimp only
  split
  · split
    · exact Try.trapsFrom_trap (.refl s)
    · exact State.windowAccess_trapsFrom s a r store _
  · split
    next h => rw [h] at kept; exact Try.trapsFrom_trap kept
    · exact Try.trapsFrom_absent
    next h =>
      rw [h] at kept
      split
      · exact Try.trapsFrom_wait
      · split
        · exact Try.trapsFrom_trap kept
        · split
          · exact (State.storeGlb_trapsFrom s a _ _ _ _).map _
          · exact State.loadGlb_trapsFrom s a _ _ _

theorem State.tryAtom_trapsFrom (r : MemReq) (ks : List Cand) : (s.tryAtom a g r ks).TrapsFrom s := by
  have kept := GroupsKept.checkGlb s a.core g.ctx r.size.bytes needAtomic ks
  unfold State.tryAtom
  split
  next h => rw [h] at kept; exact Try.trapsFrom_trap kept
  · exact Try.trapsFrom_absent
  · split
    · exact Try.trapsFrom_wait
    · exact Try.trapsFrom_fly

theorem State.tryCadd_trapsFrom (ks : List Cand) : (s.tryCadd a g ks).TrapsFrom s := by
  unfold State.tryCadd
  dsimp only
  split
  · exact Try.trapsFrom_trap (.setDesc s _ _)
  · split
    · exact Try.trapsFrom_trap ((GroupsKept.setDesc s _ _).trans (.extentsMet _ _ _ _))
    · exact Try.trapsFrom_absent
    · split
      · exact Try.trapsFrom_wait
      · split
        · split
          · exact Try.trapsFrom_gone
          · exact Try.trapsFrom_wait
        · exact Try.trapsFrom_done

theorem State.tryInk_trapsFrom (op : InkOp) (ks : List InkCand) : (s.tryInk a g op ks).TrapsFrom s := by
  unfold State.tryInk
  dsimp only
  split
  · exact Try.trapsFrom_trap (.setDesc s _ _)
  · split
    · exact Try.trapsFrom_absent
    · split
      · exact Try.trapsFrom_wait
      · exact Try.trapsFrom_fly

theorem State.redo_trapsFrom (r : MemReq) : (s.redo a g r).TrapsFrom s := by
  unfold State.redo
  dsimp only
  split
  · exact State.tryGlb_trapsFrom s a g r false _
  · exact State.tryGlb_trapsFrom s a g r false _
  · exact State.tryGlb_trapsFrom s a g r true _
  · exact State.tryGlb_trapsFrom s a g r true _
  · exact State.tryAtom_trapsFrom s a g r _
  · exact State.tryAtom_trapsFrom s a g r _
  · exact State.tryAtom_trapsFrom s a g r _
  · exact State.tryCadd_trapsFrom s a g _
  · exact State.tryInk_trapsFrom s a g _ _
  · exact Try.trapsFrom_done

end

/-! ## Changes of one group that agree on it -/

theorem State.updGroup_congr {s : State} {c k : Nat} {f h : Group → Group} {g : Group} (hg : s.group c k = some g)
    (e : f g = h g) : s.updGroup c k f = s.updGroup c k h := by
  rw [State.updGroup_some s c k f hg, State.updGroup_some s c k h hg, e]

/-- An operation sent to its home is in flight again, its elements with those of its own that are (R81). -/
theorem Group.fly_eq (g : Group) (f : Flight) (es : List Elem) : g.fly f es = { g with
    flight := if g.flight.any fun x => x.id == f.id then
        g.flight.map fun x => if x.id = f.id then { x with req := { x.req with elems := x.req.elems ++ es } } else x
      else g.flight ++ [{ f with req := { f.req with elems := es } }] } := by
  rw [Group.fly]
  simp only [beq_iff_eq]
  split <;> rfl

/-! ## A reply -/

theorem State.reachedBy_inkReps (s : State) (r : Route) (t : Nat) : (s.reachedBy r t).inkReps = s.inkReps := by
  rw [State.reachedBy]
  split <;> rfl

theorem State.inkOwner_group {s : State} {q : InkReq} {g : Group} {f : Flight} (h : s.inkOwner q = some (g, f)) :
    s.group q.core q.slot = some g := by
  rw [State.inkOwner] at h
  split at h
  · cases h
  next g' hg =>
    split at h
    · cases h; exact hg
    · cases h

theorem Group.sticky_off {g : Group} (h : g.det = false) (phys : Bool) : g.sticky phys = g := by
  rw [Group.sticky, h]; rfl

theorem Group.retire_det (g : Group) (id : Nat) (k : WClass) : (g.retire id k).det = g.det := by
  rw [Group.retire]
  split <;> rfl

theorem Group.complete_det (g : Group) (id : Nat) (k : WClass) : (g.complete id k).det = g.det :=
  Group.retire_det ..

section
variable {s : State} {c k : Nat} {g : Group} (hg : s.group c k = some g) (hdet : g.det = false)
include hg hdet

/-- Elements that arrive at a group that is not deterministic leave no mark (R405). -/
theorem State.arrived_sticky (id : Nat) (done : Elem → Bool) (phys : Bool) :
    ((s.arrived c k id done).updGroup c k fun g => g.sticky phys) = s.arrived c k id done := by
  rw [State.arrived, State.updGroup_updGroup]
  refine State.updGroup_congr hg (Group.sticky_off ?_ phys)
  split
  · exact hdet
  · dsimp only
    split
    · exact (Group.complete_det ..).trans hdet
    · exact hdet

/-- Nor do they with their registers written. -/
theorem State.replied_sticky (ws : List (Nat × Nat × Word)) (id : Nat) (done : Elem → Bool) (phys : Bool) :
    (((s.putRegs c k ws).arrived c k id done).updGroup c k fun g => g.sticky phys) =
      (s.putRegs c k ws).arrived c k id done := by
  obtain ⟨q, hq, same⟩ := (State.putRegs_frame s c k ws hg).1.group g hg
  have qdet : q.det = false := by rw [← hdet, ← same]
  exact State.arrived_sticky hq qdet id done phys

end

end Sys2Proof.Machine

namespace Sys2Proof.Slice0
open Sys2Proof.Machine

/-- Settles O52: each event comes to the branch of its rule that the hypotheses name. -/
theorem retryEvents : Obligations.RetryEvents := by
  unfold Obligations.RetryEvents
  intro s c k n
  refine ⟨fun g e hg he => ?replay, fun f hf => ?refusal, fun q hq ready first alone => ?home, fun q hq => ?timeout,
    fun p hp => ?reply⟩
  case replay =>
    have runs : exec (.replay c k) s = execReplay c k s := rfl
    simp only [runs, execReplay, hg, he]
    refine ⟨fun t v hr => ?_, fun on ext v hr => ?_, fun u hr hc => ?_, fun rest u hr => ?_⟩
    · have kept := State.redo_trapsFrom s (e.op.actor c k) g e.op.req t v hr
      simp only [hr]
      exact congrArg (fun w : State => Host.Outcome.next (w.takeLogged c k e.op t))
        (State.updGroup_congr ((kept.group c k).trans hg) rfl)
    · simp only [hr]
    · simp only [hr, hc, Bool.false_eq_true, if_false]
    · simp only [hr, Group.fly_eq, bne, beq_eq_decide, ne_eq, decide_not]
  case refusal =>
    have runs : exec (.faultRefusal n) s = execFaultRefusal n s := rfl
    simp only [runs, execFaultRefusal, hf]
    refine ⟨fun core seq hw => ?_, fun core slot g hw _ => ?_, fun core slot g hw _ => ?_, fun h m hw => ?_⟩
    all_goals simp only [hw]
  case home =>
    have runs : exec (.inkHomeStep n) s = execInkHomeStep n s := rfl
    have oldest : ((s.inks.take n).any fun v => v.core == q.core && v.slot == q.slot && v.pa == q.pa) = false := by
      simpa only [List.any_eq_false, Bool.and_eq_true, beq_iff_eq, and_assoc] using alone
    simp only [runs, execInkHomeStep, hq, oldest, ready, first, Bool.not_true, Bool.or_self, Bool.false_eq_true, if_false]
    refine ⟨fun out => ?_, fun up => ?_⟩
    · simp only [out, if_true, State.reachedBy_inkReps]
    · simp only [up, Bool.false_eq_true, if_false]
      exact ⟨_, rfl, rfl⟩
  case timeout =>
    have runs : exec (.inkTimeout n) s = execInkTimeout n s := rfl
    simp only [runs, execInkTimeout, hq]
  case reply =>
    have runs : exec (.inkReply n) s = execInkReply n s := rfl
    intro u
    have owner : s.inkOwner p.req = u.inkOwner p.req := rfl
    simp only [runs, execInkReply, hp, owner]
    refine ⟨fun lost => ?_, fun g f ho hc => ?_, fun g f ho hc hdet dry hk => ?_⟩
    · simp only [lost]; rfl
    · simp only [ho, hc, ne_eq, not_false_eq_true, if_true]; rfl
    · have hg : u.group p.req.core p.req.slot = some g := State.inkOwner_group ho
      simp only [ho, hc, hdet, dry, hk, ne_eq, not_true_eq_false, Bool.false_eq_true, if_false]
      exact congrArg Host.Outcome.next (State.replied_sticky hg hdet _ f.id _ true)

end Sys2Proof.Slice0
end

section
/-! SUPPORT. CADD (R97, R99, R202): what an issue that is ready attempts, and what the attempt comes to. -/

namespace Sys2Proof.Machine
open Sys2Proof.Slice0

/-- The meaning of CADD, once its registers can be used. -/
theorem cadd_exec {s : State} {c : Ctl} {a b : Reg} {ofs : BitVec 18} {g : Group} {t : LaneMask} {lo : Nat} {f : MemForm}
    (hf : caddForm c a b ofs g (s.core s.cur.core) t lo = f) (h : MemRuns s f g t lo) :
    exec (.cadd c a b ofs) s = run s (s.settleTry g (Slice0.flightOf s g f (ptrElems f.cands)) f.dests true
      (s.tryCadd (s.actor g) g f.cands)) := by
  have ready := needRegs_ready lo h.ready
  have room := room_wait h.room
  have alike := alike_check h.alike
  subst hf
  refine congrArg (run s) ((turn_mem (c := c) h.turn _).trans ?_)
  exact (M.bind_of_ok ready _).trans ((M.bind_of_ok room _).trans (M.bind_of_ok alike _))

/-! ## The attempt -/

section
variable {s : State} {a : Actor} {g : Group} {ks : List Cand} {d : DCache}

/-- The first lane that fails a check of R202 traps. -/
theorem State.tryCadd_refused {t : TrapInfo} (h : s.caddAdmit a.core g.ctx (s.core a.core).desc ks = (.error t, d)) :
    s.tryCadd a g ks = .trap t (s.setDesc a.core d) := by
  simp only [State.tryCadd, h]

variable {l : List (Elem × Desc)} (passed : s.caddAdmit a.core g.ctx (s.core a.core).desc ks = (.ok l, d))
include passed

theorem State.tryCadd_offline {t : TrapInfo} (h : (s.setDesc a.core d).reach a.core g.ctx l = .error t) :
    s.tryCadd a g ks = .trap t ((s.setDesc a.core d).extentsMet a.core g.ctx l) := by
  simp only [State.tryCadd, passed, h]

theorem State.tryCadd_absent {hs : List Hit} {on ext : Nat}
    (h : (s.setDesc a.core d).reach a.core g.ctx l = .ok (hs, some (on, ext))) :
    s.tryCadd a g ks = .absent on ext ((s.setDesc a.core d).extentsMet a.core g.ctx l) := by
  simp only [State.tryCadd, passed, h]

variable {hs : List Hit} (met : (s.setDesc a.core d).reach a.core g.ctx l = .ok (hs, none))
  (free : g.behindLog a.id 4 (hs.map Hit.e) = false)
include met free

/-- Every sum has its place in the open partials. -/
theorem State.tryCadd_adds {v : State}
    (h : ((s.setDesc a.core d).extentsMet a.core g.ctx l).caddAll a.core hs (dedup (hs.map fun h => h.e.pa)) = .ok v) :
    s.tryCadd a g ks = .done v := by
  simp only [State.tryCadd, passed, met, free, h, Bool.false_eq_true, if_false]

variable {n : Nat}
  (full : ((s.setDesc a.core d).extentsMet a.core g.ctx l).caddAll a.core hs (dedup (hs.map fun h => h.e.pa)) = .error n)
include full

/-- A line that finds no way takes the core to its capacity point (R302). -/
theorem State.tryCadd_capacity (can : ((s.setDesc a.core d).extentsMet a.core g.ctx l).canPublish a.core = true) :
    s.tryCadd a g ks = .gone (((s.setDesc a.core d).extentsMet a.core g.ctx l).capacity a.core (lineSet8 n)) := by
  simp only [State.tryCadd, passed, met, free, full, can, Bool.false_eq_true, if_false, if_true]

theorem State.tryCadd_waits (can : ((s.setDesc a.core d).extentsMet a.core g.ctx l).canPublish a.core = false) :
    s.tryCadd a g ks = .wait := by
  simp only [State.tryCadd, passed, met, free, full, can, Bool.false_eq_true, if_false]

end

/-! ## What it settles to -/

section
variable {s : State} {g : Group} (stall : g.logStall = none) (f : Flight) (dests : List Nat) (closes : Bool)
include stall

theorem settle_gone (u : State) : run s (s.settleTry g f dests closes (.gone u)) = .next u := by
  simp only [State.settleTry, stall, run_state]

theorem settle_wait : run s (s.settleTry g f dests closes .wait) = .next s := by
  simp only [State.settleTry, stall, run_wait]

end

end Sys2Proof.Machine

namespace Sys2Proof.Slice0
open Sys2Proof.Machine

/-- Settles O25: a CADD that is ready comes to its attempt, which the checks, the extents and the ways of the
partial lines' sets decide in this order. -/
theorem caddCompletes : Obligations.CaddCompletes := by
  intro s g t lo c a b ofs x f i q s0 h stall
  rw [cadd_exec rfl h]
  refine ⟨fun e he => ?_, fun l hl => ?_⟩
  · rw [State.tryCadd_refused (a := s.actor g) (Prod.ext he rfl)]
    exact settle_trap stall _ _ _ e s0
  intro s1
  have passed : q = (.ok l, q.2) := Prod.ext hl rfl
  refine ⟨fun e he => ?_, fun hs on ext he room => ?_, fun hs met free => ?_⟩
  · rw [State.tryCadd_offline (a := s.actor g) passed he]
    exact settle_trap stall _ _ _ e s1
  · have kept : GroupsKept s s1 := (GroupsKept.setDesc s _ q.2).trans (.extentsMet s0 _ g.ctx l)
    rw [State.tryCadd_absent (a := s.actor g) passed he]
    exact settle_inLog stall kept h.turn.group room f _ true on ext
  intro sums
  refine ⟨fun n hn => ⟨fun can => ?_, fun can => ?_⟩, fun v hv => ?_⟩
  · rw [State.tryCadd_capacity (a := s.actor g) passed met free hn can]
    exact settle_gone stall _ _ _ _
  · rw [State.tryCadd_waits (a := s.actor g) passed met free hn can]
    exact settle_wait stall _ _ _
  · rw [State.tryCadd_adds (a := s.actor g) passed met free hv]
    exact settle_done stall _ _ _ v

end Sys2Proof.Slice0
end

section
/-! SUPPORT. Loads of global memory (R98, R184, R188): what an attempt comes to whose checks pass. -/

namespace Sys2Proof.Machine
open Sys2Proof.Slice0

/-! ## The clock -/

@[simp] theorem State.extentMet_steps (s : State) (cl c : Nat) (d : Desc) (p : DWord) :
    (s.extentMet cl c d p).steps = s.steps := by
  rw [State.extentMet, State.extentFill]
  split
  · rfl
  · exact State.updCluster_steps _ _ _

@[simp] theorem State.extentsMet_steps (s : State) (core ctx : Nat) (l : List (Elem × Desc)) :
    (s.extentsMet core ctx l).steps = s.steps := by
  rw [State.extentsMet]
  induction l generalizing s with
  | nil => rfl
  | cons h l ih => exact (ih _).trans (State.extentMet_steps s _ _ _ _)

theorem State.checkGlb_steps (s : State) (core ctx n : Nat) (need : Need) (ks : List Cand) :
    (s.checkGlb core ctx n need ks).2.steps = s.steps := by
  rw [State.checkGlb]
  cases (s.admitHits core ctx n need (s.core core).desc ks).1 with
  | error t => rfl
  | ok l => exact State.extentsMet_steps _ _ _ _

theorem State.detGlb_steps {s u : State} {core who n : Nat} {store : Bool} {es : List Elem}
    (h : s.detGlb core who store n es = .ok u) : u.steps = s.steps := by
  rw [State.detGlb] at h
  split at h
  · cases h
  · cases h; exact State.updCore_steps _ _ _

theorem recorded_steps {a : Actor} {g : Group} {store : Bool} {n : Nat} {hs : List Hit} {s u : State}
    (h : Recorded a g store n hs s u) : u.steps = s.steps := by
  cases det : g.det with
  | false => rw [h.1 det]
  | true => exact State.detGlb_steps (h.2 det)

/-! ## The attempt -/

/-- Once the checks have passed and the conflict detector has recorded the accesses, a load is made. -/
theorem State.tryGlb_loads {s s1 s2 : State} {a : Actor} {g : Group} {ks : List Cand} {r : MemReq} {hs : List Hit}
    (own : scribesOwn a.core g.fw ks = false)
    (passed : s.checkGlb a.core g.ctx r.size.bytes needLoad ks = (.ok (hs, none), s1))
    (free : g.behindLog a.id r.size.bytes (hs.map Hit.e) = false)
    (seen : Recorded a g false r.size.bytes hs s1 s2) :
    s.tryGlb a g r false ks = s2.loadGlb a r hs := by
  have recorded : (if g.det then s1.detGlb a.core g.sigName false r.size.bytes (hs.map Hit.e) else .ok s1) = .ok s2 := by
    cases det : g.det with
    | false => rw [seen.1 det]; rfl
    | true => exact seen.2 det
  simp only [State.tryGlb, own, passed, free, recorded, Bool.false_eq_true, if_false]

/-! ## What is read, and what is fetched -/

/-- The commutative lines of a load combined and read at their homes. -/
def State.combined (s : State) (hs : List Hit) : State :=
  (hs.filter Hit.comm).foldl (fun s h => ((s.atHome h.line).combine h.line).readSector (sectorOf h.e.pa)) s

/-- The accesses of a load to lines that its core's L1 is to answer. -/
def plainHits (hs : List Hit) : List Hit := hs.filter fun h => !h.comm

/-- A plain access's line of which the core's L1 lacks a byte that the load needs. -/
def Core.lost (x : Core) (n : Nat) (hs : List Hit) (h : Hit) : Bool :=
  (plainHits hs).any fun k => k.line == h.line && !x.holds k.line (maskOf (k.e.pa % 128) n)

/-- The plain accesses that L1 answers. -/
def Core.heldHits (x : Core) (n : Nat) (hs : List Hit) : List Hit := (plainHits hs).filter fun h => !x.lost n hs h

/-- The plain accesses whose lines must come. -/
def Core.lostHits (x : Core) (n : Nat) (hs : List Hit) : List Hit := (plainHits hs).filter (x.lost n hs)

/-- The load has read what it could: read marks and registers, `u` being the state with the commutative lines read. -/
def State.loaded (u : State) (a : Actor) (r : MemReq) (hs : List Hit) : State :=
  let n := r.size.bytes
  let held := (u.core a.core).heldHits n hs
  (u.updCore a.core fun x => held.foldl (fun x h => x.updCopy h.line fun c => { c with mark := true }) x).putRegs
    a.core a.slot (((hs.filter Hit.comm).flatMap fun h => r.outs h.e (memNat u.mem h.e.pa n)) ++
      held.flatMap fun h => match (u.core a.core).copy h.line with
        | some c => r.outs h.e (lineNat c.data (h.e.pa % 128) n)
        | none => [])

/-- Fills of the lines of `miss` that are not on their way yet. -/
def State.askFills (v : State) (core sent : Nat) (low : Bool) (miss : List Hit) : State :=
  let news := (dedup (miss.map Hit.line)).filter fun l =>
    !(v.fills.any fun f => f.core == core && f.line == l && !f.l2)
  { v with fills := v.fills ++ news.map fun l =>
      { core := core, line := l, low := low, l2 := false, host := miss.any fun h => h.line == l && extBias h.ext
        go := none, sent := sent } }

/-- L1 would answer the access from a poisoned sector. -/
def Core.badAt (x : Core) (h : Hit) : Bool :=
  match x.copy h.line with
  | some c => c.bad h.e.pa
  | none => false

theorem Core.badAt_of_copy {x : Core} {h : Hit} (good : ∀ q, x.copy h.line = some q → q.bad h.e.pa = false) :
    x.badAt h = false := by
  rw [Core.badAt]
  split
  next q hq => exact good q hq
  · rfl

/-- A load in one expression: it waits for its commutative lines' homes; ends at the first poisoned sector that a
COMBINE, the commutative lines or L1 would read; and else reads what it can and fetches the rest. -/
theorem State.loadGlb_eq (s : State) (a : Actor) (r : MemReq) (hs : List Hit) :
    s.loadGlb a r hs =
      let n := r.size.bytes
      let comm := hs.filter Hit.comm
      let u := s.combined hs
      let x := u.core a.core
      let miss := x.lostHits n hs
      if !(comm.all fun h => s.homeReady h.line && !s.behind (dieOf a.core, lineDie h.line) (s.steps + 1)) then .wait
      else match comm.findSome? fun h => (s.combineBad h.line).map fun p => (h, p) with
        | some (h, p) => .gone ((s.readSector (sectorOf p)).consume a h.e.lane (memSector p))
        | none => match comm.find? fun h => u.poisoned h.e.pa n with
          | some h => .gone (u.consume a h.e.lane (memSector h.e.pa))
          | none => match (x.heldHits n hs).find? x.badAt with
            | some h => .gone (u.consume a h.e.lane (memSector h.e.pa))
            | none =>
              if miss.isEmpty then .done (u.loaded a r hs)
              else .fly (miss.map Hit.e) ((u.loaded a r hs).askFills a.core s.steps r.nt miss) := rfl

/-- Nothing holds a load up or ends it: the homes of its commutative lines can answer (R6, R304), and no sector that
it reads is poisoned (R103). -/
structure LoadClean (s : State) (a : Actor) (n : Nat) (hs : List Hit) : Prop where
  ready : ∀ h ∈ hs.filter Hit.comm, s.homeReady h.line = true
  first : ∀ h ∈ hs.filter Hit.comm, s.behind (dieOf a.core, lineDie h.line) (s.steps + 1) = false
  combine : ∀ h ∈ hs.filter Hit.comm, s.combineBad h.line = none
  home : ∀ h ∈ hs.filter Hit.comm, (s.combined hs).poisoned h.e.pa n = false
  copy : ∀ h ∈ ((s.combined hs).core a.core).heldHits n hs, ((s.combined hs).core a.core).badAt h = false

/-- A load that meets no poison reads what it can, and fetches the rest (R188). -/
theorem State.loadGlb_clean {s : State} {a : Actor} {r : MemReq} {hs : List Hit} (h : LoadClean s a r.size.bytes hs) :
    s.loadGlb a r hs =
      let u := s.combined hs
      let miss := (u.core a.core).lostHits r.size.bytes hs
      if miss.isEmpty then .done (u.loaded a r hs)
      else .fly (miss.map Hit.e) ((u.loaded a r hs).askFills a.core s.steps r.nt miss) := by
  obtain ⟨ready, first, combine, home, copy⟩ := h
  have serves : ((hs.filter Hit.comm).all fun h => s.homeReady h.line &&
      !s.behind (dieOf a.core, lineDie h.line) (s.steps + 1)) = true :=
    List.all_eq_true.mpr fun h hh => by rw [ready h hh, first h hh]; rfl
  have sums : ((hs.filter Hit.comm).findSome? fun h => (s.combineBad h.line).map fun p => (h, p)) = none :=
    List.findSome?_eq_none_iff.mpr fun h hh => by rw [combine h hh]; rfl
  have sectors : ((hs.filter Hit.comm).find? fun h => (s.combined hs).poisoned h.e.pa r.size.bytes) = none :=
    List.find?_eq_none.mpr fun h hh => Bool.eq_false_iff.mp (home h hh)
  have copies : (((s.combined hs).core a.core).heldHits r.size.bytes hs).find? ((s.combined hs).core a.core).badAt = none :=
    List.find?_eq_none.mpr fun h hh => Bool.eq_false_iff.mp (copy h hh)
  simp only [State.loadGlb_eq, serves, sums, sectors, copies, Bool.not_true, Bool.false_eq_true, if_false]

section
variable {s : State} {a : Actor} {r : MemReq} {hs : List Hit} (clean : LoadClean s a r.size.bytes hs)
include clean

/-- L1 holds every plain line. -/
theorem State.loadGlb_done
    (h : ∀ k ∈ plainHits hs, ((s.combined hs).core a.core).lost r.size.bytes hs k = false) :
    s.loadGlb a r hs = .done ((s.combined hs).loaded a r hs) := by
  have all : ((s.combined hs).core a.core).lostHits r.size.bytes hs = [] :=
    List.filter_eq_nil_iff.mpr fun k hk => Bool.eq_false_iff.mp (h k hk)
  simp only [State.loadGlb_clean clean, all, List.isEmpty_nil, if_true]

/-- A plain line must come. -/
theorem State.loadGlb_fetches
    (h : ∃ k ∈ plainHits hs, ((s.combined hs).core a.core).lost r.size.bytes hs k = true) :
    let miss := ((s.combined hs).core a.core).lostHits r.size.bytes hs
    s.loadGlb a r hs =
      .fly (miss.map Hit.e) (((s.combined hs).loaded a r hs).askFills a.core s.steps r.nt miss) := by
  have some : (((s.combined hs).core a.core).lostHits r.size.bytes hs).isEmpty = false := by
    obtain ⟨k, hk, lost⟩ := h
    exact List.isEmpty_eq_false_iff_exists_mem.mpr ⟨k, List.mem_filter.mpr ⟨hk, lost⟩⟩
  simp only [State.loadGlb_clean clean, some, Bool.false_eq_true, if_false]

end

end Sys2Proof.Machine

namespace Sys2Proof.Slice0
open Sys2Proof.Machine

/-- Settles O19: a load that is ready and whose checks pass is made, and what L1 lacks decides whether it is over. -/
theorem globalLoadCompletes : Obligations.GlobalLoadCompletes := by
  intro i f s s1 s2 g t lo hs hf h glb load own stall passed free seen c n comm plain u inL1 lost held clean bytes
    homes copies v
  have made : s.tryGlb (s.actor g) g f.req f.store f.cands = s2.loadGlb (s.actor g) f.req hs := by
    rw [load]
    exact State.tryGlb_loads own passed free seen
  have sound : LoadClean s2 (s.actor g) n hs := by
    refine ⟨fun h hh => (homes h hh).1, fun h hh => (homes h hh).2.2.1, fun h hh => (homes h hh).2.1,
      fun h hh => (homes h hh).2.2.2, fun h hh => ?_⟩
    refine Core.badAt_of_copy fun q hq => ?_
    have copied : (u.core c).copy (h.e.pa / 128) = some q := hq
    have good : clean h := copies h hh
    simp only [clean, copied] at good
    exact good
  have clock : s2.steps = s.steps := by
    have checked := State.checkGlb_steps s s.cur.core g.ctx f.req.size.bytes needLoad f.cands
    rw [passed] at checked
    exact (recorded_steps seen).trans checked
  have cls : f.cls = .ld := by rw [MemForm.cls, load]; rfl
  rw [glb_exec hf h glb, made]
  refine ⟨fun all => ?_, fun some => ?_⟩
  · rw [State.loadGlb_done sound all]
    exact settle_done stall _ _ _ _
  · rw [State.loadGlb_fetches sound some, clock, ← cls]
    exact settle_fly stall _ _ _ _ _

end Sys2Proof.Slice0
end

section
/-! SUPPORT. Messages at a line's home (R93 to R96): what making room for a line, a store without faults and the
delivery of updates leave alone. -/

namespace Sys2Proof.Machine

/-! ## Tables -/

theorem tabFind_tabErase_ne {α : Type} (t : Tab α) {k j : Nat} (h : j ≠ k) : tabFind (tabErase t k) j = tabFind t j := by
  induction t with
  | nil => rfl
  | cons e r ih =>
    obtain ⟨i, v⟩ := e
    by_cases hi : i = k
    · subst hi
      rw [show tabErase ((i, v) :: r) i = tabErase r i by simp [tabErase], ih]
      simp only [tabFind, h, if_false]
    · rw [show tabErase ((i, v) :: r) k = (i, v) :: tabErase r k by simp [tabErase, hi]]
      simp only [tabFind, ih]

theorem tabFind_tabErase_none {α : Type} {t : Tab α} {j : Nat} (h : tabFind t j = none) (k : Nat) :
    tabFind (tabErase t k) j = none := by
  induction t with
  | nil => rfl
  | cons e r ih =>
    obtain ⟨i, v⟩ := e
    have hi : j ≠ i := fun e => by simp [tabFind, e] at h
    simp only [tabFind, hi, if_false] at h
    by_cases hk : i = k
    · rw [show tabErase ((i, v) :: r) k = tabErase r k by simp [tabErase, hk]]
      exact ih h
    · rw [show tabErase ((i, v) :: r) k = (i, v) :: tabErase r k by simp [tabErase, hk]]
      simp only [tabFind, hi, if_false, ih h]

/-- A key that a table does not find stands at none of its entries. -/
theorem ne_of_tabFind_none {α : Type} {t : Tab α} {k : Nat} (h : tabFind t k = none) {e : Nat × α} (he : e ∈ t) :
    k ≠ e.1 := by
  induction t with
  | nil => cases he
  | cons d r ih =>
    obtain ⟨i, v⟩ := d
    have hi : k ≠ i := fun e => by simp [tabFind, e] at h
    simp only [tabFind, hi, if_false] at h
    rcases List.mem_cons.mp he with rfl | he
    · exact hi
    · exact ih h he

/-! ## The directory -/

@[simp] theorem State.dirOf_updDir_self (s : State) (l : Nat) (f : DirEntry → DirEntry) :
    (s.updDir l f).dirOf l = f (s.dirOf l) := by
  simp [State.dirOf, State.updDir]

theorem State.dirOf_updDir_ne (s : State) {l k : Nat} (f : DirEntry → DirEntry) (h : k ≠ l) :
    (s.updDir l f).dirOf k = s.dirOf k := tabGet_tabSet_ne _ _ _ h

/-! ## Requests that have arrived (R6) -/

/-- An arrival marks requests alone. -/
theorem State.reachedBy_eq (s : State) (r : Route) (t : Nat) :
    ∃ fs as is, s.reachedBy r t = { s with fills := fs, atoms := as, inks := is } := by
  rw [State.reachedBy]
  split
  · exact ⟨s.fills, s.atoms, s.inks, rfl⟩
  · exact ⟨_, _, _, rfl⟩

theorem State.turnedBack_iff {s : State} {r : Route} {here : Bool} :
    s.turnedBack r here = true ↔ r.1 ≠ r.2 ∧ here = false ∧ (s.die r.2).out = true := by
  simp only [State.turnedBack, Bool.and_eq_true, bne_iff_ne, Bool.not_eq_true', and_assoc]

/-! ## Acknowledgements (R94) -/

/-- An update accepted touches the publications and the acknowledgements alone. -/
theorem State.accepted_eq (s : State) (pub : Nat) : ∃ ps as, s.accepted pub = { s with pubs := ps, acks := as } := by
  rw [State.accepted]
  split
  · exact ⟨s.pubs, s.acks, rfl⟩
  · split
    · exact ⟨_, _, rfl⟩
    · exact ⟨_, s.acks, rfl⟩

@[simp] theorem State.accepted_upds (s : State) (pub : Nat) : (s.accepted pub).upds = s.upds := by
  obtain ⟨ps, as, h⟩ := s.accepted_eq pub
  rw [h]

@[simp] theorem State.accepted_drops (s : State) (pub : Nat) : (s.accepted pub).drops = s.drops := by
  obtain ⟨ps, as, h⟩ := s.accepted_eq pub
  rw [h]

@[simp] theorem State.core_accepted (s : State) (pub k : Nat) : (s.accepted pub).core k = s.core k := by
  obtain ⟨ps, as, h⟩ := s.accepted_eq pub
  rw [h]; rfl

theorem State.foldl_accepted_eq (l : List Nat) (s : State) :
    ∃ ps as, l.foldl State.accepted s = { s with pubs := ps, acks := as } := by
  induction l generalizing s with
  | nil => exact ⟨s.pubs, s.acks, rfl⟩
  | cons p l ih =>
    obtain ⟨ps, as, h⟩ := s.accepted_eq p
    rw [List.foldl_cons, h]
    exact ih _

/-- The boundary unit takes an acknowledgement of its own publication. -/
theorem State.updCore_ack {s : State} {a : AckMsg} {b : Boundary} (h : (s.core a.core).boundary = some b)
    (job : b.job = a.job) :
    (s.updCore a.core fun x => { x with boundary := x.boundary.map fun b => if b.job = a.job then b.ack a else b }) =
      s.setCore a.core { s.core a.core with boundary := some (b.ack a) } := by
  rw [State.updCore, h, Option.map_some, if_pos job]

/-- An acknowledgement of no write-back. -/
theorem State.flushAck_none {s : State} {core : Nat} {a : AckMsg} (h : ∀ f ∈ (s.core core).flushes, f.job ≠ a.job) :
    s.flushAck core a = s := by
  have none : ((s.core core).flushes.find? fun f => f.job == a.job) = none :=
    List.find?_eq_none.mpr fun f hf same => h f hf (beq_iff_eq.mp same)
  simp only [State.flushAck, none]

/-! ## Updates and drop marks (R95) -/

section
variable {s : State} {m : UpdMsg} (new : ∀ e ∈ (s.core m.dest).inbox, e.line ≠ m.line)
include new

theorem inbox_any_line : ((s.core m.dest).inbox.any fun e => e.line == m.line) = false := by
  simpa only [List.any_eq_false, beq_iff_eq] using new

/-- The first update of a line takes an entry of an inbox with room. -/
theorem State.deliver_room (room : (s.core m.dest).inbox.length < 32) :
    (s.deliver m).upds = s.upds ∧ ((s.deliver m).core m.dest).inbox = (s.core m.dest).inbox ++ [m.entry] ∧
      (s.deliver m).drops = s.drops := by
  simp only [State.deliver, inbox_any_line new, room, Bool.false_eq_true, if_false, if_true]
  refine ⟨State.accepted_upds _ _, ?_, State.accepted_drops _ _⟩
  rw [State.core_accepted, State.core_updCore_self]

/-- With the inbox full it is replaced by a drop mark. -/
theorem State.deliver_full (full : ¬ (s.core m.dest).inbox.length < 32) :
    (s.deliver m).upds = s.upds ∧ (s.deliver m).core m.dest = s.core m.dest ∧
      (s.deliver m).drops = s.drops ++ [{ dest := m.dest, line := m.line, pubs := [m.pub] }] := by
  simp only [State.deliver, inbox_any_line new, full, Bool.false_eq_true, if_false]
  unfold State.setShr
  split
  · exact ⟨rfl, rfl, rfl⟩
  · exact ⟨rfl, rfl, rfl⟩

end

/-- A drop mark marks the line's copies, and its entries leave the inbox. -/
theorem State.deliverDrop_marks (s : State) (m : DropMsg) :
    (s.deliverDrop m).drops = s.drops ∧
      (∀ c ∈ ((s.deliverDrop m).core m.dest).l1, c.line = m.line → c.drop = true) ∧
      ∀ e ∈ ((s.deliverDrop m).core m.dest).inbox, e.line ≠ m.line := by
  let y : Core := { ((s.core m.dest).updCopy m.line fun c => { c with drop := true }).wakeMon (onCopy m.line) with
    inbox := (s.core m.dest).inbox.filter fun e => e.line != m.line }
  obtain ⟨ps, as, accepted⟩ := State.foldl_accepted_eq m.pubs (s.setCore m.dest y)
  have marked : s.deliverDrop m = { s.setCore m.dest y with pubs := ps, acks := as } := accepted
  have core : (s.deliverDrop m).core m.dest = y := by
    rw [marked]; exact State.core_setCore_self s m.dest y
  rw [core, marked]
  refine ⟨rfl, fun c hc => ?_, fun e he => ?_⟩
  · obtain ⟨d, -, rfl⟩ := List.mem_map.mp hc
    split
    · exact fun _ => rfl
    next other => exact fun same => absurd (beq_iff_eq.mpr same) other
  · exact bne_iff_ne.mp (List.mem_filter.mp he).2

/-! ## What work on other lines leaves alone -/

/-- From `s` to `t` device memory, its sectors' faults, the stores under way and the directory entry of line `l` stand
as they were. -/
structure LineKept (l : Nat) (s t : State) : Prop where
  mem : t.mem = s.mem
  ecc : t.ecc = s.ecc
  wts : t.wts = s.wts
  dir : t.dirOf l = s.dirOf l

theorem LineKept.refl (l : Nat) (s : State) : LineKept l s s := ⟨rfl, rfl, rfl, rfl⟩

theorem LineKept.trans {l : Nat} {s t u : State} (a : LineKept l s t) (b : LineKept l t u) : LineKept l s u :=
  ⟨b.mem.trans a.mem, b.ecc.trans a.ecc, b.wts.trans a.wts, b.dir.trans a.dir⟩

/-- The last change first, so that its starting state is known when the first one is looked at. -/
theorem LineKept.after {l : Nat} {s t u : State} (b : LineKept l t u) (a : LineKept l s t) : LineKept l s u := a.trans b

theorem LineKept.foldl {α : Type} {l : Nat} {f : State → α → State} (xs : List α)
    (h : ∀ x ∈ xs, ∀ s, LineKept l s (f s x)) (s : State) : LineKept l s (xs.foldl f s) := by
  induction xs generalizing s with
  | nil => exact .refl l s
  | cons x xs ih =>
    exact (h x List.mem_cons_self s).trans (ih (fun y hy => h y (List.mem_cons_of_mem x hy)) _)

theorem LineKept.accepted (l : Nat) (s : State) (pub : Nat) : LineKept l s (s.accepted pub) := by
  obtain ⟨ps, as, h⟩ := s.accepted_eq pub
  rw [h]; exact ⟨rfl, rfl, rfl, rfl⟩

theorem LineKept.updCore (l : Nat) (s : State) (c : Nat) (f : Core → Core) : LineKept l s (s.updCore c f) :=
  ⟨rfl, rfl, rfl, rfl⟩

theorem LineKept.setShr {l k : Nat} (other : l ≠ k) (s : State) (core : Nat) (b : Bool) :
    LineKept l s (s.setShr core k b) := by
  rw [State.setShr]
  split
  · exact ⟨rfl, rfl, rfl, s.dirOf_updDir_ne _ other⟩
  · exact .refl l s

theorem LineKept.deliver {l : Nat} {m : UpdMsg} (other : l ≠ m.line) (s : State) : LineKept l s (s.deliver m) := by
  unfold State.deliver
  dsimp only
  split
  · exact (LineKept.updCore l s _ _).trans (.accepted l _ _)
  split
  · exact (LineKept.updCore l s _ _).trans (.accepted l _ _)
  · exact (LineKept.setShr other s _ _).trans ⟨rfl, rfl, rfl, rfl⟩

theorem LineKept.deliverDrop (l : Nat) (s : State) (m : DropMsg) : LineKept l s (s.deliverDrop m) :=
  (LineKept.updCore l s _ _).trans (.foldl _ (fun p _ s => .accepted l s p) _)

theorem LineKept.settle {l k : Nat} (other : l ≠ k) (s : State) : LineKept l s (s.settle k) := by
  have updates : LineKept l s ((s.upds.filter fun u => u.line == k).foldl State.deliver
      { s with upds := s.upds.filter fun u => u.line != k }) := by
    refine .after (.foldl _ (fun m hm s => ?_) _) ⟨rfl, rfl, rfl, rfl⟩
    have line : m.line = k := eq_of_beq (List.mem_filter.mp hm).2
    exact .deliver (line ▸ other) s
  exact updates.trans (.after (.foldl _ (fun m _ s => .deliverDrop l s m) _) ⟨rfl, rfl, rfl, rfl⟩)

theorem LineKept.evictLine {l k : Nat} (other : l ≠ k) (s : State) : LineKept l s (s.evictLine k) := by
  refine (LineKept.settle other s).trans ⟨rfl, rfl, rfl, ?_⟩
  exact congrArg (·.getD DirEntry.init) (tabFind_tabErase_ne (s.settle k).dir other)

/-- A slice that makes room for a line which it does not hold gives up another. -/
theorem LineKept.sliceRoom {l : Nat} {s : State} (out : tabFind s.dir l = none) (sl : Nat × Nat) :
    LineKept l s (s.sliceRoom sl) := by
  unfold State.sliceRoom
  dsimp only
  split
  · exact .refl l s
  split
  · exact .refl l s
  split
  next e he =>
    have held : e ∈ s.dir := (List.mem_filter.mp (List.mem_filter.mp (List.mem_of_getElem? he)).1).1
    exact .evictLine (ne_of_tabFind_none out held) s
  split
  · exact ⟨rfl, rfl, rfl, rfl⟩
  · exact .refl l s

theorem LineKept.atHome (l : Nat) (s : State) : LineKept l s (s.atHome l) := by
  unfold State.atHome
  split
  · exact .refl l s
  next out => exact (LineKept.sliceRoom out _).trans ⟨rfl, rfl, rfl, State.dirOf_updDir_self _ _ _⟩

/-! ## A write at its home (R94, R102) -/

/-- A line without contributors has nothing to combine (R98). -/
theorem State.combine_none {s : State} {line : Nat} (h : (s.dirOf line).contrib = []) : s.combine line = s := by
  have nobody : s.contributors line = [] := by
    rw [State.contributors, h]
    exact List.filter_eq_nil_iff.mpr fun _ _ => Bool.false_ne_true
  simp only [State.combine, nobody, List.isEmpty_nil, if_true]

/-- Sectors without faults are stored to, and only the fault table may be written besides. -/
theorem State.storeLine_sound {s : State} {ctx line : Nat} (data : Line) (m : LineMask)
    (h : ∀ i < 4, tabFind s.ecc (4 * line + i) = none) :
    ∃ e, s.storeLine ctx line data m = { s with mem := memSetLine s.mem line data m, ecc := e } := by
  let sound : State → Prop := fun t => ∃ e : Tab Ecc, t = { s with mem := memSetLine s.mem line data m, ecc := e } ∧
    ∀ i < 4, tabFind e (4 * line + i) = none
  suffices stored : sound (s.storeLine ctx line data m) from ⟨stored.choose, stored.choose_spec.1⟩
  refine List.foldlRecOn (motive := sound) _ _ ⟨s.ecc, rfl, h⟩ ?_
  rintro t ⟨e, rfl, he⟩ i hi
  dsimp only
  split
  · exact ⟨e, rfl, he⟩
  split
  · exact ⟨_, rfl, fun j hj => tabFind_tabErase_none (he j hj) _⟩
  · rw [he i (List.mem_range.mp hi)]
    exact ⟨e, rfl, he⟩

theorem LineKept.wakeMons (l : Nat) (ws : List (Nat × Nat)) (p : Monitor → Bool) (s : State) :
    LineKept l s (ws.foldl (fun (s : State) w => s.updCore w.1 fun x => x.wakeMon p) s) :=
  .foldl ws (fun w _ s => .updCore l s w.1 _) s

/-- The groups that watch a line are told, and the home forgets them (R311). -/
theorem State.notify_kept (s : State) (line : Nat) :
    (s.notify line).mem = s.mem ∧ (s.notify line).wts = s.wts ∧
      ((s.notify line).dirOf line).ver = (s.dirOf line).ver := by
  unfold State.notify
  dsimp only
  split
  · exact ⟨rfl, rfl, rfl⟩
  · have told := fun p => LineKept.wakeMons line (s.dirOf line).remWatch p s
    refine ⟨(told _).mem, (told _).wts, ?_⟩
    rw [State.dirOf_updDir_self, (told _).dir]

/-- A write's bytes at their home: COMBINE first, and the sectors of poisoned words marked. -/
def State.landWords (s : State) (w : WtMsg) : State :=
  (List.range 4).foldl (fun (s : State) i => if w.poison.getLsbD i then s.markPoison (4 * w.line + i) else s)
    (((s.atHome w.line).combine w.line).storeLine w.ctx w.line w.data w.mask)

/-- With its bytes at home a write raises the line's version by one, and sends updates. -/
theorem State.homeWrite_landed (s : State) (w : WtMsg) :
    (s.homeWrite w).mem = (s.landWords w).mem ∧ (s.homeWrite w).wts = (s.landWords w).wts ∧
      ((s.homeWrite w).dirOf w.line).ver = ((s.landWords w).dirOf w.line).ver + 1 := by
  unfold State.homeWrite
  obtain ⟨mem, wts, ver⟩ := State.notify_kept _ w.line
  refine ⟨mem, wts, ver.trans ?_⟩
  simp only [State.dirOf, State.updDir, tabGet_tabSet_self]
  rfl

/-- A write into a line without faults or contributors leaves its bytes there. -/
theorem State.landWords_sound {s : State} {w : WtMsg} (clean : w.poison = 0) (alone : (s.dirOf w.line).contrib = [])
    (sound : ∀ i < 4, tabFind s.ecc (4 * w.line + i) = none) :
    ∃ e, s.landWords w = { s.atHome w.line with mem := memSetLine s.mem w.line w.data w.mask, ecc := e } := by
  have kept := LineKept.atHome w.line s
  have still : (s.atHome w.line).combine w.line = s.atHome w.line := State.combine_none (by rw [kept.dir, alone])
  obtain ⟨e, stored⟩ := State.storeLine_sound (s := s.atHome w.line) (ctx := w.ctx) w.data w.mask
    (by rw [kept.ecc]; exact sound)
  refine ⟨e, ?_⟩
  have unmarked : ∀ i, w.poison.getLsbD i = false := fun i => by simp [clean]
  rw [State.landWords, still, stored, kept.mem]
  simp only [unmarked, Bool.false_eq_true, if_false]
  exact List.foldl_fixed _

/-- A write into a line without faults or contributors: the home takes its bytes, and the version rises by one. -/
theorem State.homeWrite_sound {s : State} {w : WtMsg} (clean : w.poison = 0) (alone : (s.dirOf w.line).contrib = [])
    (sound : ∀ i < 4, tabFind s.ecc (4 * w.line + i) = none) :
    (s.homeWrite w).mem = memSetLine s.mem w.line w.data w.mask ∧ (s.homeWrite w).wts = s.wts ∧
      ((s.homeWrite w).dirOf w.line).ver = (s.dirOf w.line).ver + 1 := by
  have kept := LineKept.atHome w.line s
  obtain ⟨e, landed⟩ := State.landWords_sound clean alone sound
  obtain ⟨mem, wts, ver⟩ := State.homeWrite_landed s w
  rw [landed] at mem wts ver
  exact ⟨mem, wts.trans kept.wts, ver.trans (congrArg (·.ver + 1) kept.dir)⟩

/-! ## The events -/

/-- No message of a list is for one pair of a core and a line. -/
theorem any_pair_false {α : Type} {l : List α} {p q : α → Nat} {c k : Nat} (h : ∀ v ∈ l, ¬ (p v = c ∧ q v = k)) :
    (l.any fun v => p v == c && q v == k) = false := by
  simpa only [List.any_eq_false, Bool.and_eq_true, beq_iff_eq] using h

section
variable {s : State} {n : Nat}

theorem execWriteThrough_first {w : WtMsg} (hw : s.wts[n]? = some w)
    (alone : ∀ v ∈ s.wts.take n, ¬ (v.core = w.core ∧ v.line = w.line)) (first : s.behind w.route w.sent = false) :
    execWriteThrough n s = .next ((State.reachedBy { s with wts := listDrop1 s.wts n } w.route w.sent).homeWrite w) := by
  simp only [execWriteThrough, hw, any_pair_false alone, first, Bool.or_self, Bool.false_eq_true, if_false]

theorem execUpdate_first {m : UpdMsg} (hm : s.upds[n]? = some m)
    (alone : ∀ v ∈ s.upds.take n, ¬ (v.dest = m.dest ∧ v.line = m.line))
    (kept : ∀ v ∈ s.drops, ¬ (v.dest = m.dest ∧ v.line = m.line)) :
    execUpdate n s = .next (State.deliver { s with upds := listDrop1 s.upds n } m) := by
  simp only [execUpdate, hm, any_pair_false alone, any_pair_false kept, Bool.or_self, Bool.false_eq_true, if_false]

variable {f : FillReq} (hf : s.fills[n]? = some f) (first : s.behind f.route f.sent = false)
include hf first

theorem execFill_turned (gone : s.turnedBack f.route f.here = true) :
    let u := State.reachedBy { s with fills := listDrop1 s.fills n } f.route f.sent
    execFill n s = .next (if f.l2 then u else
      ((u.core f.core).waiters f.line).foldl (fun s q => s.offline f.core q fun e => e.pa / 128 == f.line) u) := by
  simp only [execFill, hf, gone, first, Bool.false_eq_true, if_false, if_true]
  cases f.l2 with
  | true => rfl
  | false => rfl

theorem execFill_served (goes : s.turnedBack f.route f.here = false) (ready : s.fillReady f = true)
    (room : s.roomFor f = true) (sent : ∀ w ∈ s.wts, ¬ (w.core = f.core ∧ w.line = f.line))
    (told : ∀ w ∈ s.hostWrites, ¬ (w.core = f.core ∧ w.line = f.line)) :
    let u := State.reachedBy { s with fills := listDrop1 s.fills n } f.route f.sent
    execFill n s = .next (if f.l2 then (u.homeLine f.line).2 else u.filled f) := by
  simp only [execFill, hf, goes, first, ready, room, any_pair_false sent, any_pair_false told, Bool.not_true, Bool.or_self,
    Bool.false_eq_true, if_false]
  cases f.l2 with
  | true => rfl
  | false => rfl

end

theorem State.fillReady_of {s : State} {f : FillReq} (ready : s.homeReady f.line = true)
    (go : f.host = true → f.go.isSome = true) : s.fillReady f = true := by
  rw [State.fillReady, ready]
  cases host : f.host with
  | false => rfl
  | true => exact go host

end Sys2Proof.Machine

namespace Sys2Proof.Slice0
open Sys2Proof.Machine

/-- Settles O51: each event under the premises that name its case. -/
theorem homeEvents : Obligations.HomeEvents := by
  intro s n
  refine ⟨fun w hw alone first clean single sound => ?write, fun m hm alone kept new => ?update, fun m hm => ?drop,
    fun a b ha hb job others => ?ack, fun m hm first => ?commit, fun f hf first => ?fill, fun boot up => ?scrub,
    fun w hw => ?writeback⟩
  case write =>
    obtain ⟨fs, as, is, arrived⟩ := State.reachedBy_eq { s with wts := listDrop1 s.wts n } w.route w.sent
    obtain ⟨mem, wts, ver⟩ := State.homeWrite_sound
      (s := { s with wts := listDrop1 s.wts n, fills := fs, atoms := as, inks := is }) clean single sound
    exact ⟨_, (execWriteThrough_first hw alone first).trans (by rw [arrived]), wts, mem, ver⟩
  case update =>
    refine ⟨_, execUpdate_first hm alone kept, ?_⟩
    by_cases room : (s.core m.dest).inbox.length < 32
    · rw [if_pos room]
      exact State.deliver_room (s := { s with upds := listDrop1 s.upds n }) new room
    · rw [if_neg room]
      exact State.deliver_full (s := { s with upds := listDrop1 s.upds n }) new room
  case drop =>
    have runs : exec (.dropMark n) s = execDropMark n s := rfl
    simp only [runs, execDropMark, hm]
    exact ⟨_, rfl, State.deliverDrop_marks _ m⟩
  case ack =>
    have runs : exec (.publicationAck n) s = execPublicationAck n s := rfl
    intro r
    have acked := State.updCore_ack (s := { s with acks := listDrop1 s.acks n }) hb job
    simp only [runs, execPublicationAck, ha]
    refine congrArg Host.Outcome.next (Eq.trans (congrArg (State.flushAck · a.core a) acked) (State.flushAck_none ?_))
    rw [State.core_setCore_self]
    exact others
  case commit =>
    have runs : exec (.commit n) s = execCommit n s := rfl
    obtain ⟨fs, as, is, arrived⟩ := State.reachedBy_eq { s with commits := listDrop1 s.commits n } m.route m.sent
    simp only [runs, execCommit, hm, first, Bool.false_eq_true, if_false, arrived]
    refine ⟨_, rfl, rfl, rfl, ?_⟩
    refine (congrArg DirEntry.pendBy (State.dirOf_updDir_self _ _ _)).trans (List.filter_congr fun k _ => ?_)
    exact (decide_not (p := k = m.job)).symm
  case fill =>
    intro u turned
    have back : s.turnedBack f.route f.here = true ↔ turned := State.turnedBack_iff
    refine ⟨fun gone => execFill_turned hf first (back.mpr gone), fun goes ready go room sent told => ?_⟩
    exact execFill_served hf first (Bool.eq_false_iff.mpr (mt back.mp goes)) (State.fillReady_of ready go) room sent told
  case scrub =>
    have runs : exec (.scrubRead n) s = execScrubRead n s := rfl
    have awake : (s.boot != .ready || (s.die (32 * n / 2 ^ 38)).out) = false := by rw [boot, up]; rfl
    simp only [runs, execScrubRead, awake, Bool.false_eq_true, if_false]
    refine ⟨fun b hb => ?_, fun bad => by rw [bad]⟩
    rw [hb]
    refine ⟨_, rfl, ?_, rfl⟩
    simp only [State.readSector, hb, State.updDie_mem]
  case writeback =>
    have runs : exec (.scrubWriteback n) s = execScrubWriteback n s := rfl
    intro same
    simp only [runs, execScrubWriteback, hw]
    by_cases h : same
    · rw [if_pos h, if_pos h]
    · rw [if_neg h, if_neg h]

end Sys2Proof.Slice0
end

section
/-! SUPPORT. An ink cell at its home (R104, R112): the fields of the words that the home writes, and the home's step
row by row. -/

namespace Sys2Proof.Machine

/-! ## The fields of word 1 (R104) -/

theorem inkState_eq (w : DWord) : inkState w = w.toNat / 2 ^ 62 % 2 ^ 2 := fld_eq w 62 2

theorem inkGen_eq (w : DWord) : inkGen w = w.toNat / 2 ^ 32 % 2 ^ 30 := fld_eq w 32 30

theorem inkGen_lt (w : DWord) : inkGen w < 2 ^ 30 := (w.extractLsb' 32 30).isLt

section
variable (gen dev core slot : Nat)

/-- The fields fit, so none of them runs into another. -/
theorem dryWord_toNat : (dryWord gen dev core slot).toNat = 2 ^ 62 + gen % 2 ^ 30 * 2 ^ 32 + dev % 2 ^ 14 * 2 ^ 18
    + core % 2 ^ 8 * 2 ^ 10 + slot % 2 ^ 6 * 2 ^ 4 := by
  rw [dryWord, BitVec.toNat_ofNat]
  omega

@[simp] theorem inkState_dryWord : inkState (dryWord gen dev core slot) = 1 := by
  rw [inkState_eq, dryWord_toNat]
  omega

@[simp] theorem inkGen_dryWord : inkGen (dryWord gen dev core slot) = gen % 2 ^ 30 := by
  rw [inkGen_eq, dryWord_toNat]
  omega

theorem dryWord_wdev : ((dryWord gen dev core slot).extractLsb' 18 14).toNat = dev % 2 ^ 14 := by
  refine (fld_eq _ 18 14).trans ?_
  rw [dryWord_toNat]
  omega

theorem dryWord_wcore : ((dryWord gen dev core slot).extractLsb' 10 8).toNat = core % 2 ^ 8 := by
  refine (fld_eq _ 10 8).trans ?_
  rw [dryWord_toNat]
  omega

theorem dryWord_wslot : ((dryWord gen dev core slot).extractLsb' 4 6).toNat = slot % 2 ^ 6 := by
  refine (fld_eq _ 4 6).trans ?_
  rw [dryWord_toNat]
  omega

end

section
variable {gen : Nat} (fits : gen < 2 ^ 30)
include fits

/-- Word 1 of a BLANK cell is its generation alone. -/
theorem blankWord_toNat : (BitVec.ofNat 64 (gen * 2 ^ 32)).toNat = gen * 2 ^ 32 := by
  rw [BitVec.toNat_ofNat]
  omega

theorem inkState_blankWord : inkState (BitVec.ofNat 64 (gen * 2 ^ 32)) = 0 := by
  rw [inkState_eq, blankWord_toNat fits]
  omega

theorem inkGen_blankWord : inkGen (BitVec.ofNat 64 (gen * 2 ^ 32)) = gen := by
  rw [inkGen_eq, blankWord_toNat fits]
  omega

theorem blankWord_low : (BitVec.ofNat 64 (gen * 2 ^ 32)).extractLsb' 0 32 = 0 := by
  refine BitVec.eq_of_toNat_eq ((fld_eq _ 0 32).trans (?_ : _ = 0))
  rw [blankWord_toNat fits]
  omega

end

/-! ## The rows of the home's table (R112) -/

section
variable {w0 w1 : DWord} {gen val dev core slot : Nat}

theorem inkStep_propose_blank (blank : inkState w1 = 0) (now : gen = inkGen w1) :
    inkStep .propose w0 w1 gen val dev core slot =
      (0, BitVec.ofNat 64 val, dryWord (inkGen w1) dev core slot) := by
  simp [inkStep, blank, now]

theorem inkStep_propose_dry (dry : inkState w1 = 1) (now : gen = inkGen w1) :
    inkStep .propose w0 w1 gen val dev core slot = (1, w0, w1) := by
  simp [inkStep, dry, now]

theorem inkStep_propose_stale (other : gen ≠ inkGen w1) :
    inkStep .propose w0 w1 gen val dev core slot = (2, w0, w1) :=
  if_pos other

theorem inkStep_readHome : inkStep .readHome w0 w1 gen val dev core slot = (0, w0, w1) := rfl

theorem inkStep_readGen_dry (dry : inkState w1 = 1) (now : gen = inkGen w1) :
    inkStep .readGen w0 w1 gen val dev core slot = (1, w0, w1) := by
  simp [inkStep, dry, now]

theorem inkStep_readGen_blank (blank : inkState w1 = 0) (now : gen = inkGen w1) :
    inkStep .readGen w0 w1 gen val dev core slot = (2, w0, w1) := by
  simp [inkStep, blank, now]

theorem inkStep_readGen_later (later : inkGen w1 < gen) :
    inkStep .readGen w0 w1 gen val dev core slot = (2, w0, w1) := by
  simp [inkStep, later.not_gt, later.ne']

theorem inkStep_readGen_gone (gone : gen < inkGen w1) :
    inkStep .readGen w0 w1 gen val dev core slot = (3, w0, w1) :=
  if_pos gone

theorem inkStep_recycle_dry (dry : inkState w1 = 1) (now : gen = inkGen w1) (more : inkGen w1 < 2 ^ 30 - 1) :
    inkStep .recycle w0 w1 gen val dev core slot = (0, 0, BitVec.ofNat 64 ((inkGen w1 + 1) * 2 ^ 32)) := by
  simp only [inkStep, dry, now, more, beq_self_eq_true, and_self, if_true]

theorem inkStep_recycle_last (dry : inkState w1 = 1) (now : gen = inkGen w1) (last : inkGen w1 = 2 ^ 30 - 1) :
    inkStep .recycle w0 w1 gen val dev core slot = (5, w0, w1) := by
  simp only [inkStep, dry, now, last, lt_irrefl, beq_self_eq_true, and_self, if_true, if_false]

theorem inkStep_recycle_stale (other : ¬ (inkState w1 = 1 ∧ gen = inkGen w1)) :
    inkStep .recycle w0 w1 gen val dev core slot = (2, w0, w1) := by
  simp only [inkStep, beq_iff_eq, other, if_false]

/-- The word of a decided cell names the generation and the winner, each of which fits its field. -/
theorem dryWord_names (hd : dev < 2 ^ 14) (hc : core < 2 ^ 8) (hs : slot < 2 ^ 6) :
    let v1 := dryWord (inkGen w1) dev core slot
    inkState v1 = 1 ∧ inkGen v1 = inkGen w1 ∧ (v1.extractLsb' 18 14).toNat = dev ∧
      (v1.extractLsb' 10 8).toNat = core ∧ (v1.extractLsb' 4 6).toNat = slot :=
  ⟨inkState_dryWord .., (inkGen_dryWord ..).trans (Nat.mod_eq_of_lt (inkGen_lt w1)),
    (dryWord_wdev ..).trans (Nat.mod_eq_of_lt hd), (dryWord_wcore ..).trans (Nat.mod_eq_of_lt hc),
    (dryWord_wslot ..).trans (Nat.mod_eq_of_lt hs)⟩

end

end Sys2Proof.Machine

namespace Sys2Proof.Slice0
open Sys2Proof.Machine

/-- Settles O27: each row of the home's table, with the fields of the word that a decision and a recycling write. -/
theorem inkDecidesOnce : Obligations.InkDecidesOnce := by
  intro w0 w1 gen val dev core slot g acts _ hd hc hs
  refine ⟨?decided, inkStep_propose_dry, inkStep_propose_stale, inkStep_readHome, inkStep_readGen_dry,
    inkStep_readGen_blank, inkStep_readGen_later, inkStep_readGen_gone, ?recycled, inkStep_recycle_last,
    inkStep_recycle_stale⟩
  case decided =>
    intro blank now
    exact ⟨_, inkStep_propose_blank blank now, dryWord_names hd hc hs⟩
  case recycled =>
    intro dry now more
    have fits : g + 1 < 2 ^ 30 := by omega
    exact ⟨_, inkStep_recycle_dry dry now more, inkState_blankWord fits, inkGen_blankWord fits, blankWord_low fits⟩

end Sys2Proof.Slice0
end

section
/-! SUPPORT. An instruction of group scope whose registers can be used (R25), what an acquire point leaves alone of the
groups (R96, R301), and what is written of a timing in deterministic mode (R170). -/

namespace Sys2Proof.Machine
open Sys2Proof.Slice0

/-- An instruction of group scope goes on past its registers, once they can be used (R27, R36). -/
theorem scope_ready {s : State} {p : Pred} {g : Group} {t : LaneMask} {lo : Nat} (h : Turn s p g t lo) {rs : List Nat}
    (ready : Ready g rs) (k : Group → LaneMask → Nat → M State) :
    run s (s.groupM p fun g t lo => needRegs g rs lo >>= fun _ => k g t lo) = run s (k g t lo) := by
  rw [turn_group h, needRegs_ready lo ready, M.ok_bind]

/-! ## Each group's mode is as it was -/

/-- From `s` to `t` the turn is the same, and the group in each slot is deterministic if it was (R404). -/
structure ModeKept (s t : State) : Prop where
  cur : t.cur = s.cur
  det : ∀ c k, (t.group c k).map Group.det = (s.group c k).map Group.det

theorem ModeKept.refl (s : State) : ModeKept s s := ⟨rfl, fun _ _ => rfl⟩

theorem ModeKept.trans {s t u : State} (a : ModeKept s t) (b : ModeKept t u) : ModeKept s u :=
  ⟨b.cur.trans a.cur, fun c k => (b.det c k).trans (a.det c k)⟩

theorem ModeKept.foldl {α : Type} {f : State → α → State} (h : ∀ s a, ModeKept s (f s a)) (l : List α) (s : State) :
    ModeKept s (l.foldl f s) :=
  List.foldlRecOn l f (ModeKept.refl s) fun u hu a _ => hu.trans (h u a)

theorem GroupsKept.mode {s t : State} (h : GroupsKept s t) : ModeKept s t :=
  ⟨h.cur, fun c k => by rw [h.group]⟩

theorem ModeKept.curGroup {s t : State} (h : ModeKept s t) {g : Group} (hg : s.curGroup = some g) :
    ∃ q, t.curGroup = some q ∧ q.det = g.det := by
  have same := h.det s.cur.core s.cur.slot
  rw [show s.group s.cur.core s.cur.slot = some g from hg, Option.map_some, Option.map_eq_some_iff] at same
  rw [State.curGroup, h.cur]
  exact same

/-- Threads that watch are told. -/
theorem ModeKept.wakeMon (s : State) (core : Nat) (p : Monitor → Bool) :
    ModeKept s (s.updCore core fun x => x.wakeMon p) := by
  refine ⟨rfl, fun c k => ?_⟩
  by_cases e : c = core
  · subst e
    rw [State.group, State.core_updCore_self]
    refine (congrArg (Option.map Group.det) (tabFind_map (fun g => g.wake p) _ k)).trans ?_
    rw [Option.map_map]
    rfl
  · rw [State.group, State.core_updCore_ne _ _ e]
    rfl

theorem ModeKept.updCore (s : State) (core : Nat) {f : Core → Core} (h : ∀ x, (f x).groups = x.groups) :
    ModeKept s (s.updCore core f) :=
  (GroupsKept.updCore s core h).mode

/-! ## An acquire point (R96) -/

theorem GroupsKept.setShr (s : State) (core line : Nat) (b : Bool) : GroupsKept s (s.setShr core line b) := by
  rw [State.setShr]
  split
  · exact ⟨rfl, fun _ _ => rfl⟩
  · exact .refl s

theorem ModeKept.dropCopy (s : State) (core line : Nat) : ModeKept s (s.dropCopy core line) := by
  rw [State.dropCopy]
  split
  · exact .refl s
  · exact (GroupsKept.setShr s core line false).mode.trans ((ModeKept.wakeMon _ core _).trans (.updCore _ core fun x => by
      split <;> rfl))

theorem ModeKept.ownWrite (s : State) (core : Nat) (a : Nat × Word) : ModeKept s (s.ownWrite core a) := by
  rw [State.ownWrite]
  split
  · exact .refl s
  · split
    · split
      · exact .updCore s core fun _ => rfl
      · exact .dropCopy s core a.1
    · split
      · exact .updCore s core fun _ => rfl
      · exact .dropCopy s core a.1

theorem ModeKept.applyEntry (s : State) (core : Nat) (e : Inbox) : ModeKept s (s.applyEntry core e) := by
  rw [State.applyEntry]
  split
  · exact .refl s
  · split
    · exact .dropCopy s core e.line
    · split
      · exact .refl s
      · split
        · exact .updCore s core fun _ => rfl
        · exact .dropCopy s core e.line

theorem ModeKept.acquire (s : State) (core : Nat) (own : List (Nat × Word)) (inv : Bool) :
    ModeKept s (s.acquire core own inv) := by
  have written := ModeKept.foldl (fun s a => .ownWrite s core a) ((s.core core).ownAcks ++ own) s
  have applied := fun u : State => ModeKept.foldl (fun s e => .applyEntry s core e) (u.core core).inbox u
  have dropped := fun l : List L1Line => ModeKept.foldl (fun s c => .dropCopy s core c.line) l
  unfold State.acquire
  refine .trans (.trans (.trans (written.trans (applied _)) (.updCore _ core fun _ => ?_)) (dropped _ _))
    (.updCore _ core fun _ => ?_) <;> rfl

/-! ## What is told of a timing (R170) -/

theorem Group.sticky_on {g : Group} (h : g.det = true) :
    g.sticky false = { g with detSticky := g.detSticky ||| 1 } := by
  rw [Group.sticky, h]; rfl

section
variable {s : State} {g : Group} (hg : s.curGroup = some g) (ws : List (Nat × Nat × Word))
include hg

/-- Writing registers leaves the turn, and the group its mode. -/
theorem State.putRegs_turn : (s.putRegs s.cur.core s.cur.slot ws).cur = s.cur ∧
    ∃ q, (s.putRegs s.cur.core s.cur.slot ws).group s.cur.core s.cur.slot = some q ∧ q.det = g.det := by
  obtain ⟨frame, -⟩ := State.putRegs_frame s s.cur.core s.cur.slot ws hg
  obtain ⟨q, hq, same⟩ := frame.group g hg
  exact ⟨frame.cur, q, hq, by rw [← same]⟩

theorem State.past_untold (h : g.det = false) :
    ((s.putRegs s.cur.core s.cur.slot ws).next.updGroup s.cur.core s.cur.slot fun g => g.sticky false) =
      (s.putRegs s.cur.core s.cur.slot ws).next := by
  obtain ⟨cur, q, hq, same⟩ := State.putRegs_turn hg ws
  have off : (q.advance s.cur.mask).det = false := same.trans h
  rw [State.next, cur, State.updGroup_updGroup]
  exact State.updGroup_congr hq (Group.sticky_off off false)

/-- A deterministic group has its TIMING bit set. -/
theorem State.past_told (h : g.det = true) :
    ((s.putRegs s.cur.core s.cur.slot ws).next.updGroup s.cur.core s.cur.slot fun g => g.sticky false) =
      (s.putRegs s.cur.core s.cur.slot ws).next.updGroup s.cur.core s.cur.slot
        fun q => { q with detSticky := q.detSticky ||| 1 } := by
  obtain ⟨cur, q, hq, same⟩ := State.putRegs_turn hg ws
  have on : (q.advance s.cur.mask).det = true := same.trans h
  rw [State.next, cur]
  exact State.updGroup_congr (State.group_updGroup_self _ _ _ _ hq) (Group.sticky_on on)

end

end Sys2Proof.Machine

namespace Sys2Proof.Slice0
open Sys2Proof.Machine

/-- Settles O30: TLWAIT's comparison is with the counter as it stands, and TLREAD's word is the counter, or in
deterministic mode zero. -/
theorem timelineCompletes : Obligations.TimelineCompletes := by
  intro s g t lo p r tl x v h ready
  have waits : exec (.tlwait p r tl) s =
      run s (parkIf (decide (v.toNat < (pairUp (g.reg x r.toNat lo) (g.reg x (r.toNat + 1) lo)).toNat)) >>= fun _ =>
        .ok s.acquireDev.next) :=
    scope_ready h ready _
  have reads : exec (.tlread p r tl) s = .next ((s.putAll64 t r.toNat (if g.det then 0 else v)).next.updGroup
      s.cur.core s.cur.slot fun g => g.sticky false) :=
    scope_ready h ready _
  refine ⟨fun reached => ?_, fun before => ?_, fun det => ?_, fun det => ?_⟩
  · rw [waits, decide_eq_false (Nat.not_lt.mpr reached)]; rfl
  · rw [waits, decide_eq_true before]; rfl
  · rw [reads, det]
    exact congrArg Host.Outcome.next (State.past_untold h.group _ det)
  · rw [reads, det]
    exact congrArg Host.Outcome.next (State.past_told h.group _ det)

end Sys2Proof.Slice0
end

section
/-! SUPPORT. The instructions of a barrier object (R137): where the object lies, what its state forbids, and what each
of them then comes to. -/

namespace Sys2Proof.Machine
open Sys2Proof.Slice0

/-! ## The object's address and state -/

section
variable {s : State} {g : Group} {a : Reg} {ofs : BitVec 18} {lo o : Nat}

section
variable (ho : g.local32 (s.core s.cur.core) a ofs lo = o)
include ho

theorem State.boAddr_misaligned (odd : o % 16 ≠ 0) :
    s.boAddr g a ofs lo = .error (.trap ⟨.misaligned, lo, BitVec.ofNat 64 o, 0⟩) := by
  simp only [State.boAddr, ho, bne_iff_ne.mpr odd, trapIf_true, M.error_bind]

theorem State.boAddr_beyond (even : o % 16 = 0) (out : s.scrSize g.team s.cur.core < o + 16) :
    s.boAddr g a ofs lo = .error (.trap ⟨.segLimit, lo, BitVec.ofNat 64 o, 0⟩) := by
  simp only [State.boAddr, ho, even, bne_self_eq_false, trapIf_false, M.ok_bind, gt_iff_lt, decide_eq_true out,
    trapIf_true, M.error_bind]

theorem State.boAddr_placed (even : o % 16 = 0) (inside : o + 16 ≤ s.scrSize g.team s.cur.core) :
    s.boAddr g a ofs lo = .ok o := by
  simp only [State.boAddr, ho, even, bne_self_eq_false, trapIf_false, M.ok_bind, gt_iff_lt,
    decide_eq_false (Nat.not_lt.mpr inside)]

end

variable {team : Nat}

theorem State.boCheck_orphan (h : s.boTagged s.cur.core team o = false ∨ (s.bo s.cur.core team o).state = 2) :
    s.boCheck team o lo = .error (.trap ⟨.bobjOrphan, lo, BitVec.ofNat 64 o, 0⟩) := by
  have orphan : (!s.boTagged s.cur.core team o || (s.bo s.cur.core team o).state == 2) = true := by
    rcases h with h | h <;> simp [h]
  simp only [State.boCheck, orphan, trapIf_true, M.error_bind]

section
variable (tagged : s.boTagged s.cur.core team o = true)
include tagged

theorem State.boCheck_failed (h : (s.bo s.cur.core team o).state = 3) :
    s.boCheck team o lo = .error (.trap ⟨.extAbsent, lo, BitVec.ofNat 64 o, 0⟩) := by
  simp only [State.boCheck, tagged, h, Bool.not_true, Bool.false_or, Nat.reduceBEq, trapIf_false, M.ok_bind, trapIf_true,
    M.error_bind]

theorem State.boCheck_sound (whole : (s.bo s.cur.core team o).state ≠ 2) (reached : (s.bo s.cur.core team o).state ≠ 3) :
    s.boCheck team o lo = .ok (s.bo s.cur.core team o) := by
  simp only [State.boCheck, tagged, beq_false_of_ne whole, beq_false_of_ne reached, Bool.not_true, Bool.or_self,
    trapIf_false, M.ok_bind]

end

end

/-! ## The instructions -/

theorem mul_b2n (n : Nat) (b : Bool) : n * b2n b = if b then n else 0 := by
  cases b
  · exact Nat.mul_zero n
  · exact Nat.mul_one n

section
variable {s : State} {p : Pred} {g : Group} {t : LaneMask} {lo o : Nat} {a : Reg} {ofs : BitVec 18}

/-- How a BOWAIT ends that is parked on the object at `o`: as the group has been told, or not yet (R137). -/
def State.boTold (s : State) (lo o : Nat) : Option BoEnd → M State
  | none => .error .park
  | some .released => .ok s.acquireDev.next
  | some .broken => trapAddr .bobjOrphan lo (BitVec.ofNat 64 o)
  | some .failed => trapAddr .extAbsent lo (BitVec.ofNat 64 o)

/-- DONE: the object is armed, and expects no more bytes (R137). -/
def State.boDone (s : State) (team o : Nat) : Bool :=
  let v := s.bo s.cur.core team o
  s.boTagged s.cur.core team o && v.state == 1 && v.remain == 0

/-- The word that BOTEST writes (R137). -/
def State.boWord (s : State) (team o : Nat) : Nat :=
  let v := s.bo s.cur.core team o
  v.state + 4 * b2n (s.boDone team o) + 8 * b2n (s.boTagged s.cur.core team o) + 2 ^ 16 * v.round.toNat

theorem State.boDone_iff {team : Nat} : s.boDone team o = true ↔ s.boTagged s.cur.core team o = true ∧
    (s.bo s.cur.core team o).state = 1 ∧ (s.bo s.cur.core team o).remain = 0 := by
  simp only [State.boDone, Bool.and_eq_true, beq_iff_eq, and_assoc]

/-- An instruction of a barrier object whose registers can be used asks first where the object is. -/
def State.asksObject (s : State) (g : Group) (a : Reg) (ofs : BitVec 18) (lo : Nat) (i : Instr) : Prop :=
  ∃ k : Nat → M State, exec i s = run s (s.boAddr g a ofs lo >>= k)

theorem State.asksObject.traps {i : Instr} {e : TrapInfo} (h : s.asksObject g a ofs lo i)
    (bad : s.boAddr g a ofs lo = .error (.trap e)) : exec i s = .next (s.takeTrap e) := by
  obtain ⟨k, runs⟩ := h
  rw [runs, bad, M.error_bind, run_trap]

variable (h : Turn s p g t lo)
include h

theorem boinit_asks (ready : Ready g [a.toNat]) : s.asksObject g a ofs lo (.boinit p a ofs) :=
  ⟨_, scope_ready h ready _⟩

theorem boarm_asks {b : Reg} (ready : Ready g [a.toNat, b.toNat]) : s.asksObject g a ofs lo (.boarm p a b ofs) :=
  ⟨_, scope_ready h ready _⟩

theorem bowait_asks (ready : Ready g [a.toNat]) : s.asksObject g a ofs lo (.bowait p a ofs) :=
  ⟨_, scope_ready h ready _⟩

theorem botest_asks {d : Reg} (ready : Ready g [a.toNat, d.toNat]) : s.asksObject g a ofs lo (.botest p d a ofs) :=
  ⟨_, scope_ready h ready _⟩

variable (placed : s.boAddr g a ofs lo = .ok o)
include placed

theorem boinit_clears (ready : Ready g [a.toNat]) :
    exec (.boinit p a ofs) s = .next ((s.putBo s.cur.core g.team o ⟨0, 0, 0, 0⟩).next.close true) :=
  (scope_ready h ready _).trans (congrArg (run s) (M.bind_of_ok placed _))

section
variable {b : Reg} (ready : Ready g [a.toNat, b.toNat])
include ready

theorem boarm_refused {e : Stop} (bad : s.boCheck g.team o lo = .error e) :
    exec (.boarm p a b ofs) s = run s (.error e) :=
  (scope_ready h ready _).trans (congrArg (run s) ((M.bind_of_ok placed _).trans (M.bind_of_error bad _)))

theorem boarm_arms {v : BObj} (sound : s.boCheck g.team o lo = .ok v) :
    let w : BObj := { v with remain := v.remain + g.reg (s.core s.cur.core) b.toNat lo, state := 1 }
    exec (.boarm p a b ofs) s = .next ((if w.remain = 0 then s.boRelease s.cur.core g.team o w
      else s.putBo s.cur.core g.team o w).next.close true) :=
  (scope_ready h ready _).trans (by simp only [placed, sound, M.ok_bind, run_ok])

end

/-- BOWAIT of a group that is parked on the object: what the object does now is not asked (R136, R137). -/
theorem bowait_told (ready : Ready g [a.toNat]) {e : Option BoEnd} (told : g.parkBo = some (o, e)) :
    exec (.bowait p a ofs) s = run s (s.boTold lo o e) := by
  refine (scope_ready h ready _).trans (congrArg (run s) ((M.bind_of_ok placed _).trans ?_))
  rw [told]
  rcases e with _ | _ | _ | _ <;> simp [State.boTold]

/-- BOWAIT of a group that does not wait on the object yet looks at the object. -/
theorem bowait_looks (ready : Ready g [a.toNat]) (new : ∀ e, g.parkBo ≠ some (o, e)) :
    exec (.bowait p a ofs) s = run s (s.boCheck g.team o lo >>= fun v =>
      if v.state = 1 ∧ v.remain = 0 then .ok s.acquireDev.next
      else .error (.state (s.park.updGroup s.cur.core s.cur.slot fun g => { g with parkBo := some (o, none) }))) := by
  refine (scope_ready h ready _).trans (congrArg (run s) ((M.bind_of_ok placed _).trans ?_))
  rw [if_neg (new _), if_neg (new _), if_neg (new _), if_neg (new _)]

/-- BOTEST's word, and its acquire where the object is done (R137). -/
theorem botest_runs {d : Reg} (ready : Ready g [a.toNat, d.toNat]) :
    exec (.botest p d a ofs) s = .next (((if s.boDone g.team o && !g.det then s.acquireDev else s).putAll t d.toNat
      (BitVec.ofNat 32 (if g.det then 0 else s.boWord g.team o))).next.updGroup s.cur.core s.cur.slot
        fun g => g.sticky false) :=
  (scope_ready h ready _).trans (congrArg (run s) (M.bind_of_ok placed _))

theorem botest_plain {d : Reg} (ready : Ready g [a.toNat, d.toNat]) (det : g.det = false) :
    exec (.botest p d a ofs) s = .next ((if s.boDone g.team o then s.acquireDev else s).putAll t d.toNat
      (BitVec.ofNat 32 (s.boWord g.team o))).next := by
  have mode : ModeKept s (if s.boDone g.team o then s.acquireDev else s) := by
    split
    · exact .acquire s _ _ _
    · exact .refl s
  obtain ⟨q, hq, same⟩ := mode.curGroup h.group
  rw [botest_runs h placed ready, det, Bool.not_false, Bool.and_true, if_neg Bool.false_ne_true, ← mode.cur]
  exact congrArg Host.Outcome.next (State.past_untold hq _ (same.trans det))

/-- In deterministic mode nothing of the object shows, and nothing is acquired. -/
theorem botest_det {d : Reg} (ready : Ready g [a.toNat, d.toNat]) (det : g.det = true) :
    exec (.botest p d a ofs) s = .next ((s.putAll t d.toNat 0).next.updGroup s.cur.core s.cur.slot
      fun q => { q with detSticky := q.detSticky ||| 1 }) := by
  rw [botest_runs h placed ready, det, Bool.not_true, Bool.and_false, if_neg Bool.false_ne_true, if_pos rfl]
  exact congrArg Host.Outcome.next (State.past_told h.group _ det)

end

end Sys2Proof.Machine

namespace Sys2Proof.Slice0
open Sys2Proof.Machine

/-- Settles O31: each instruction asks where the object is, and then its tag and its state decide. -/
theorem barrierObjects : Obligations.BarrierObjects := by
  intro s g t lo p a b d ofs c x o v tag good h ready
  have two : ∀ {r : Reg}, Ready g [r.toNat] → Ready g [a.toNat, r.toNat] := ready_both ready
  have place : good → s.boAddr g a ofs lo = .ok o := fun ⟨even, inside⟩ => State.boAddr_placed rfl even inside
  refine ⟨fun i rs hi more => ?outside, fun ok => boinit_clears h (place ok) ready, fun ok more => ?arm, fun ok => ?wait,
    fun ok more => ?test⟩
  case outside =>
    have asks : s.asksObject g a ofs lo i := by
      simp only [List.mem_cons, Prod.mk.injEq, List.not_mem_nil, or_false] at hi
      rcases hi with ⟨rfl, rfl⟩ | ⟨rfl, rfl⟩ | ⟨rfl, rfl⟩ | ⟨rfl, rfl⟩
      · exact boinit_asks h ready
      · exact boarm_asks h (two more)
      · exact bowait_asks h ready
      · exact botest_asks h (two more)
    exact ⟨fun odd => asks.traps (State.boAddr_misaligned rfl odd),
      fun even out => asks.traps (State.boAddr_beyond rfl even out)⟩
  case arm =>
    refine ⟨fun orphan => boarm_refused h (place ok) (two more) (State.boCheck_orphan orphan),
      fun tagged failed => boarm_refused h (place ok) (two more) (State.boCheck_failed tagged failed),
      fun tagged whole reached => ?_⟩
    have arms := boarm_arms h (place ok) (two more) (State.boCheck_sound tagged whole reached)
    exact ⟨fun left => arms.trans (by rw [if_neg left]), fun none_ => arms.trans (by rw [if_pos none_])⟩
  case wait =>
    intro i
    refine ⟨bowait_told h (place ok) ready, bowait_told h (place ok) ready, bowait_told h (place ok) ready,
      bowait_told h (place ok) ready, fun new => ?_⟩
    have looks := bowait_looks h (place ok) ready new
    refine ⟨fun orphan => ?_, fun tagged failed => ?_, fun tagged armed none_ => ?_, fun tagged whole reached more => ?_⟩
    · exact looks.trans (by rw [State.boCheck_orphan orphan]; rfl)
    · exact looks.trans (by rw [State.boCheck_failed tagged failed]; rfl)
    · have whole : v.state ≠ 2 := by omega
      have reached : v.state ≠ 3 := by omega
      refine looks.trans ?_
      rw [State.boCheck_sound tagged whole reached, M.ok_bind, if_pos ⟨armed, none_⟩]
      rfl
    · refine looks.trans ?_
      rw [State.boCheck_sound tagged whole reached, M.ok_bind, if_neg more]
      rfl
  case test =>
    intro done w
    have finished : s.boDone g.team o = true ↔ done := State.boDone_iff
    have word : s.boWord g.team o = w := by
      rw [State.boWord, mul_b2n, mul_b2n]
      simp only [finished]
      rfl
    refine ⟨fun det => (botest_plain h (place ok) (two more) det).trans ?_, botest_det h (place ok) (two more)⟩
    rw [word]
    simp only [finished]
    rfl

end Sys2Proof.Slice0
end

section
/-! SUPPORT. KICK (R125, R126): the checks of its operands, and what a list comes to that VALIDATE has seen. -/

namespace Sys2Proof.Machine
open Sys2Proof.Slice0

/-- VALIDATE of a list's first request, and of the others where it passes. -/
theorem State.vetCopies_cons (s : State) (core : Nat) (cache : DCache) (q : CopyReq) (r : List CopyReq) :
    s.vetCopies core cache (q :: r) = match s.vetCopy core q cache with
      | (.error e, d) => (.error (e, q.idx), d)
      | (.ok v, d) => ((s.vetCopies core d r).1.map fun l => v :: l, (s.vetCopies core d r).2) := by
  change (match (s.vetCopy core q cache).1 with
    | .error e => (Except.error (e, q.idx), (s.vetCopy core q cache).2)
    | .ok v => _) = _
  rcases s.vetCopy core q cache with ⟨_ | _, d⟩ <;> rfl

/-- A request that fails one of checks 1 to 5 is refused with its cause, and no pointer (R126). -/
theorem State.vetCopy_bad {s : State} {core : Nat} {q : CopyReq} {k : Cause} (h : s.copyBad core q = some k)
    (cache : DCache) : s.vetCopy core q cache = (.error (k, 0), cache) := by
  change (match s.copyBad core q with
    | some c => ((.error (c, 0), cache) : Except CopyBad CopyReq × DCache)
    | none => _) = _
  rw [h]

/-! ## VALIDATE of a list that the queue has room for -/

/-- What VALIDATE answers for the list of `n` requests at `at_` (R126), and the descriptor cache after it. -/
def State.kickVets (s : State) (g : Group) (at_ n : Nat) : Except (CopyBad × Nat) (List CopyReq) × DCache :=
  s.vetCopies s.cur.core (s.core s.cur.core).desc (s.kickReqs g at_ 0 n g.rc).1

/-- What KICK makes of such a list: the trap of its first bad request, or all requests queued (R125). -/
def State.kickQueue (s : State) (g : Group) (at_ n lo : Nat) : M State :=
  let v := s.kickVets g at_ n
  let s0 := s.setDesc s.cur.core v.2
  match v.1 with
  | .error ((k, w), j) => s0.raise ⟨k, lo, w, j⟩
  | .ok l => .ok (((l.foldl (fun u q => u.enqueue s.cur.core q) s0).updGroup s.cur.core s.cur.slot fun q =>
      { q with rc := (s.kickReqs g at_ 0 n g.rc).2, cnt := { q.cnt with cp := q.cnt.cp + n } }).next.close true)

section
variable {s : State} {g : Group} {at_ n : Nat} (lo : Nat)

theorem State.kickQueue_refuses {k : Cause} {w : DWord} {j : Nat} (bad : (s.kickVets g at_ n).1 = .error ((k, w), j)) :
    run s (s.kickQueue g at_ n lo) =
      .next ((s.setDesc s.cur.core (s.kickVets g at_ n).2).takeTrap ⟨k, lo, w, j⟩) := by
  simp only [State.kickQueue, bad, State.raise, run_state]

theorem State.kickQueue_queues {l : List CopyReq} (passed : (s.kickVets g at_ n).1 = .ok l) :
    run s (s.kickQueue g at_ n lo) =
      .next (((l.foldl (fun u q => u.enqueue s.cur.core q) (s.setDesc s.cur.core (s.kickVets g at_ n).2)).updGroup
        s.cur.core s.cur.slot fun q => { q with
          rc := (s.kickReqs g at_ 0 n g.rc).2, cnt := { q.cnt with cp := q.cnt.cp + n } }).next.close true) := by
  simp only [State.kickQueue, passed, run_ok]

end

/-! ## At issue -/

section
variable {s : State} {p : Pred} {g : Group} {t : LaneMask} {lo : Nat} (h : Turn s p g t lo) {a b : Reg}
  (ready : Ready g [a.toNat, b.toNat]) {at_ n : Nat} (hat : (g.reg (s.core s.cur.core) a.toNat lo).toNat = at_)
  (hn : (g.reg (s.core s.cur.core) b.toNat lo).toNat = n)
include h ready hn

/-- A count of 32 or more is asked first. -/
theorem kick_long (long : 32 ≤ n) : exec (.kick p a b) s = .next (s.takeTrap ⟨.segLimit, lo, 0, 0⟩) := by
  refine (scope_ready h ready _).trans ?_
  simp only [hn, ge_iff_le, decide_eq_true long, trapIf_true, M.error_bind, run_trap]

theorem kick_nothing (empty : n = 0) : exec (.kick p a b) s = .next (s.next.close true) := by
  subst empty
  refine (scope_ready h ready _).trans ?_
  dsimp only
  rw [hn]
  rfl

variable (some_ : 0 < n) (short : n < 32)
include hat some_ short

/-- Where there is a list, its place is asked, then the room for it. -/
theorem kick_list : exec (.kick p a b) s = run s (do
    trapIf (at_ % 32 != 0) .misaligned lo (BitVec.ofNat 64 at_)
    trapIf (decide (at_ + 32 * n > s.scrSize g.team s.cur.core)) .segLimit lo (BitVec.ofNat 64 at_)
    waitIf (decide (g.cnt.cp + n > 31) || decide ((s.core s.cur.core).requests.length + n > 128))
    s.kickQueue g at_ n lo) := by
  refine (scope_ready h ready _).trans (congrArg (run s) ?_)
  simp only [hat, hn, ge_iff_le, decide_eq_false (Nat.not_le.mpr short), trapIf_false, M.ok_bind,
    if_neg (Nat.ne_of_gt some_)]
  rfl

theorem kick_misaligned (odd : at_ % 32 ≠ 0) :
    exec (.kick p a b) s = .next (s.takeTrap ⟨.misaligned, lo, BitVec.ofNat 64 at_, 0⟩) := by
  simp only [kick_list h ready hat hn some_ short, bne_iff_ne.mpr odd, trapIf_true, M.error_bind, run_trap]

variable (even : at_ % 32 = 0)
include even

theorem kick_beyond (out : s.scrSize g.team s.cur.core < at_ + 32 * n) :
    exec (.kick p a b) s = .next (s.takeTrap ⟨.segLimit, lo, BitVec.ofNat 64 at_, 0⟩) := by
  simp only [kick_list h ready hat hn some_ short, even, bne_self_eq_false, trapIf_false, M.ok_bind, gt_iff_lt,
    decide_eq_true out, trapIf_true, M.error_bind, run_trap]

theorem kick_room (inside : at_ + 32 * n ≤ s.scrSize g.team s.cur.core) (count : g.cnt.cp + n ≤ 31)
    (room : (s.core s.cur.core).requests.length + n ≤ 128) :
    exec (.kick p a b) s = run s (s.kickQueue g at_ n lo) := by
  simp only [kick_list h ready hat hn some_ short, even, bne_self_eq_false, trapIf_false, M.ok_bind, gt_iff_lt,
    decide_eq_false (Nat.not_lt.mpr inside), decide_eq_false (Nat.not_lt.mpr count),
    decide_eq_false (Nat.not_lt.mpr room), Bool.or_self, waitIf_false]

end

end Sys2Proof.Machine

namespace Sys2Proof.Slice0
open Sys2Proof.Machine

/-- A KICK comes to the first of its checks that fails, or to its list. -/
theorem kick_completes : kickCompletes := by
  intro s g t lo p a b c x at_ n traps h ready
  refine ⟨kick_nothing h ready rfl, kick_long h ready rfl, kick_misaligned h ready rfl rfl,
    kick_beyond h ready rfl rfl, fun some_ short even inside count room => ?_⟩
  have runs := kick_room h ready rfl rfl some_ short even inside count room
  exact ⟨fun k w j bad => runs.trans (State.kickQueue_refuses lo bad),
    fun l passed => runs.trans (State.kickQueue_queues lo passed)⟩

theorem kick_first_bad : kickFirstBad := by
  intro s core cache q r k bad
  rw [State.vetCopies_cons, State.vetCopy_bad bad]

/-- Settles O29: the checks of the operands come before VALIDATE, and VALIDATE before anything is queued. -/
theorem kickForms : Obligations.KickForms := ⟨kick_completes, kick_first_bad⟩

end Sys2Proof.Slice0
end

section
/-! SUPPORT. Loads and stores that leave global memory alone (R157, R158, R179 to R187): what an issue that is ready
attempts, and what the attempt comes to in scratchpad and in the FIFO queues. -/

namespace Sys2Proof.Machine
open Sys2Proof.Slice0

/-! ## At issue -/

/-- A load or store of SCR or CLU, once its lanes' addresses are known. -/
def State.nearAt (s : State) (g : Group) (f : MemForm) : M State :=
  match s.spots s.cur.core g.team (f.space == .clu) f.req.size.bytes f.elems with
  | .error e => .error (.trap e)
  | .ok ps => s.settleTry g (Slice0.flightOf s g f f.elems) f.dests false (s.scrAccess (s.actor g) g f.req f.store ps)

/-- A load or store that is ready, by its space; `queues` is what it does to the FIFO queues. -/
def State.accessAt (s : State) (g : Group) (f : MemForm) (queues : M State) : M State :=
  match f.space with
  | .glb => s.glbM g f.store f.req f.dests f.cands
  | .scr | .clu => s.nearAt g f
  | .fifo => queues

theorem State.accessAt_near {s : State} {g : Group} {f : MemForm} (near : f.space = .scr ∨ f.space = .clu)
    (queues : M State) : s.accessAt g f queues = s.nearAt g f := by
  rcases near with h | h <;> rw [State.accessAt, h]

/-- The lanes' accesses to the FIFO queues (R157). -/
def fifoAccs (es : List Elem) : List FAcc := es.map fun e => ⟨e.lane, e.ptr.toNat, e.data.toNat⟩

theorem Group.local32_lt (g : Group) (x : Core) (a : Reg) (ofs : BitVec 18) (l : Nat) : g.local32 x a ofs l < 2 ^ 32 :=
  (g.reg x a.toNat l + ofs.signExtend 32).isLt

/-- A lane's address is its element's. -/
theorem fifoAccs_lanes (g : Group) (x : Core) (a : Reg) (ofs : BitVec 18) (data : Nat → BitVec 128) (ls : List Nat) :
    fifoAccs (ls.map fun l => addrElem (g.local32 x a ofs l) l 0 (data l)) =
      ls.map fun l => ⟨l, g.local32 x a ofs l, (data l).toNat⟩ := by
  rw [fifoAccs, List.map_map]
  refine List.map_congr_left fun l _ => ?_
  have fits : g.local32 x a ofs l < 2 ^ 64 := (g.local32_lt x a ofs l).trans (by decide)
  simp only [Function.comp_apply, addrElem, BitVec.toNat_ofNat, Nat.mod_eq_of_lt fits]

section
variable {s : State} {g : Group} {t : LaneMask} {lo : Nat} {c : Ctl} {m : MemOp} {d a : Reg} {store : Bool}

theorem State.ldstM_ready (h : MemRuns s (plainMem c m store d a g (s.core s.cur.core) t lo) g t lo) :
    let f := plainMem c m store d a g (s.core s.cur.core) t lo
    s.ldstM c m store d a = s.accessAt g f (s.fifoM f.req store (fifoAccs f.elems)) := by
  have ready := needRegs_ready lo h.ready
  have room := room_wait h.room
  have alike := alike_check h.alike
  refine (turn_mem (c := c) h.turn _).trans ?_
  refine (M.bind_of_ok ready _).trans ((M.bind_of_ok room _).trans ((M.bind_of_ok alike _).trans ?_))
  obtain ⟨nt, space, size, ofs⟩ := m
  cases space
  case fifo => exact congrArg (s.fifoM _ store) (fifoAccs_lanes _ _ _ _ _ _).symm
  all_goals rfl

theorem State.fragM_ready {b : Reg} (h : MemRuns s (fragMem c m store d a b g (s.core s.cur.core) t lo) g t lo) :
    s.fragM c m store d a b =
      s.accessAt g (fragMem c m store d a b g (s.core s.cur.core) t lo) (trapAt .illegalOp lo) := by
  obtain ⟨first, rest⟩ := ready_append (a := addrRegs m.space a ++ [b.toNat]) h.ready
  have addr := needRegs_ready lo first
  have data := needRegs_ready lo rest
  have fits : trapIf (decide (d.toNat + m.size.regs *
      (((g.reg (s.core s.cur.core) b.toNat lo).extractLsb' 21 5).toNat + 1) > 256)) .regBounds lo = .ok () := by
    have ends := of_decide_eq_true h.fits
    rw [decide_eq_false (Nat.not_lt.mpr ends), trapIf_false]
  have room := room_wait h.room
  have alike := alike_check h.alike
  refine (turn_mem (c := c) h.turn _).trans ?_
  refine (M.bind_of_ok addr _).trans ((M.bind_of_ok fits _).trans ((M.bind_of_ok data _).trans
    ((M.bind_of_ok room _).trans ((M.bind_of_ok alike _).trans ?_))))
  obtain ⟨nt, space, size, ofs⟩ := m
  cases space <;> rfl

end

/-- A load or store of SCR or CLU that is ready. -/
theorem near_exec {i : Instr} {f : MemForm} {s : State} {g : Group} {t : LaneMask} {lo : Nat}
    (hf : memForm g (s.core s.cur.core) t lo i = some f) (h : MemRuns s f g t lo)
    (near : f.space = .scr ∨ f.space = .clu) : exec i s = run s (s.nearAt g f) := by
  cases i
  case ld c m d a => cases hf; exact congrArg (run s) ((State.ldstM_ready h).trans (State.accessAt_near near _))
  case st c m a d => cases hf; exact congrArg (run s) ((State.ldstM_ready h).trans (State.accessAt_near near _))
  case ldf c m d a b => cases hf; exact congrArg (run s) ((State.fragM_ready h).trans (State.accessAt_near near _))
  case stf c m d a b => cases hf; exact congrArg (run s) ((State.fragM_ready h).trans (State.accessAt_near near _))
  all_goals cases hf

/-! ## The attempt in scratchpad (R131, R186) -/

section
variable {s : State} {g : Group} {f : MemForm}

theorem State.nearAt_refused {e : TrapInfo}
    (h : s.spots s.cur.core g.team (f.space == .clu) f.req.size.bytes f.elems = .error e) :
    s.nearAt g f = .error (.trap e) := by
  rw [State.nearAt, h]

theorem State.nearAt_placed {ps : List Spot}
    (h : s.spots s.cur.core g.team (f.space == .clu) f.req.size.bytes f.elems = .ok ps) :
    s.nearAt g f =
      s.settleTry g (Slice0.flightOf s g f f.elems) f.dests false (s.scrAccess (s.actor g) g f.req f.store ps) := by
  rw [State.nearAt, h]

end

section
variable {s : State} {a : Actor} {g : Group} {r : MemReq} {store : Bool} {ps : List Spot}

theorem State.scrAccess_parks (h : ∃ p ∈ ps, s.present p.2.1 p.2.2.1 p.2.2.2 = false) :
    s.scrAccess a g r store ps = .park := by
  have absent : (ps.all fun p => s.present p.2.1 p.2.2.1 p.2.2.2) = false := by
    obtain ⟨p, hp, hk⟩ := h
    exact List.all_eq_false.mpr ⟨p, hp, by rw [hk]; exact Bool.false_ne_true⟩
  simp only [State.scrAccess, absent, Bool.not_false, if_true]

variable {u : State} (present : ∀ p ∈ ps, s.present p.2.1 p.2.2.1 p.2.2.2 = true)
  (seen : (if g.det then s.detScr g.sigName store r.size.bytes ps else .ok s) = .ok u)
include present seen

theorem State.scrAccess_stores (h : store = true) :
    s.scrAccess a g r store ps = .done (ps.foldl (fun v p =>
      v.storeScr a.core a.slot p.2.1 p.2.2.1 p.2.2.2 (bytesOfNat r.size.bytes p.1.data.toNat)) u) := by
  have all : (ps.all fun p => s.present p.2.1 p.2.2.1 p.2.2.2) = true := List.all_eq_true.mpr present
  subst h
  simp only [State.scrAccess, all, seen, Bool.not_true, Bool.false_eq_true, if_false, if_true]

theorem State.scrAccess_loads (h : store = false)
    (clean : ∀ p ∈ ps, s.scrBad p.2.1 p.2.2.1 p.2.2.2 r.size.bytes = none) :
    s.scrAccess a g r store ps = .done (u.putRegs a.core a.slot (ps.flatMap fun p =>
      r.outs p.1 (u.scrNat p.2.1 p.2.2.1 p.2.2.2 r.size.bytes))) := by
  have all : (ps.all fun p => s.present p.2.1 p.2.2.1 p.2.2.2) = true := List.all_eq_true.mpr present
  subst h
  simp only [State.scrAccess, all, seen, Bool.not_true, Bool.false_eq_true, if_false, State.badSpot_none clean]

end

/-! ## The attempt in the FIFO queues (R158) -/

section
variable {s : State} {req : MemReq} {store : Bool} {as : List FAcc}

theorem State.fifoM_traps {q : FAcc} (bad : (s.core s.cur.core).firstBad req.size store as as = some q) :
    s.fifoM req store as = .error (.trap ⟨.fifoProtocol, q.lane, BitVec.ofNat 64 q.addr, 0⟩) := by
  simp only [State.fifoM, bad, trapAddr]

section
variable (keeps : (s.core s.cur.core).firstBad req.size true as as = none)
include keeps

theorem State.fifoM_full (full : (s.core s.cur.core).fifoSts as = none) : s.fifoM req true as = .error .park := by
  simp only [State.fifoM, keeps, full, if_true]

theorem State.fifoM_pushes {y : Core} (fits : (s.core s.cur.core).fifoSts as = some y) :
    s.fifoM req true as = .ok ((s.setCore s.cur.core y).next.close true) := by
  simp only [State.fifoM, keeps, fits, if_true]

end

section
variable (keeps : (s.core s.cur.core).firstBad req.size false as as = none)
include keeps

theorem State.fifoM_empty (empty : (s.core s.cur.core).fifoLds as = none) : s.fifoM req false as = .error .park := by
  simp only [State.fifoM, keeps, empty, Bool.false_eq_true, if_false]

theorem State.fifoM_pops {vs : List (Nat × Nat)} {y : Core} (taken : (s.core s.cur.core).fifoLds as = some (vs, y)) :
    s.fifoM req false as = .ok (((s.setCore s.cur.core y).putRegs s.cur.core s.cur.slot
      (vs.flatMap fun v => req.outs (addrElem 0 v.1 0 0) v.2)).next.close true) := by
  simp only [State.fifoM, keeps, taken, Bool.false_eq_true, if_false]

end

end

end Sys2Proof.Machine

namespace Sys2Proof.Slice0
open Sys2Proof.Machine

/-- Where the lanes' places are decides, then whether their lines are present (R131, R183). -/
theorem scratch_completes : scratchCompletes := by
  intro i f s g t lo hf h near stall c n placed
  rw [near_exec hf h near]
  refine ⟨fun e he => ?_, fun ps hp absent => ?_, fun ps u hp present plain det => ?_⟩
  · rw [State.nearAt_refused he, run_trap]
  · rw [State.nearAt_placed hp, State.scrAccess_parks absent, settle_park stall]
  · have seen : (if g.det then s.detScr g.sigName f.store n ps else .ok s) = .ok u := by
      cases hd : g.det with
      | false => rw [plain hd]; rfl
      | true => exact det hd
    rw [State.nearAt_placed hp]
    refine ⟨fun store => ?_, fun load clean => ?_⟩
    · rw [State.scrAccess_stores present seen store]
      exact settle_done stall _ _ _ _
    · rw [State.scrAccess_loads present seen load clean]
      exact settle_done stall _ _ _ _

/-- The protocol is asked of every lane first; then the queues' room or entries decide. -/
theorem fifo_completes : fifoCompletes := by
  intro s g t lo c m d a store x f i as fifo h
  have runs : exec i s = run s (s.fifoM f.req store as) := by
    have at_ : s.ldstM c m store d a = s.fifoM f.req store as := by
      rw [State.ldstM_ready h, State.accessAt]
      simp only [plainMem, fifo]
      rfl
    cases store <;> exact congrArg (run s) at_
  rw [runs]
  refine ⟨fun q bad => ?_, fun keeps => ⟨fun st full => ?_, fun ld empty => ?_, fun y st fits => ?_,
    fun vs y ld taken => ?_⟩⟩
  · rw [State.fifoM_traps bad, run_trap]
  · subst st; rw [State.fifoM_full keeps full, run_park]
  · subst ld; rw [State.fifoM_empty keeps empty, run_park]
  · subst st; rw [State.fifoM_pushes keeps fits, run_ok]
  · subst ld; rw [State.fifoM_pops keeps taken, run_ok]

/-- Settles O22: an access of scratchpad or of a FIFO queue is made in its issue step or not at all. -/
theorem localSpaces : Obligations.LocalSpaces := ⟨scratch_completes, fifo_completes⟩

end Sys2Proof.Slice0
end

section
/-! SUPPORT. The copy engine's steps (R126 to R134): each event under the premises that name its branch. -/

namespace Sys2Proof.Machine
open Sys2Proof.Slice0

section
variable {s : State} {c n : Nat}

/-! ## COPY_START (R127, R131) -/

/-- The request that may start is read as far as it goes, once no clear is under way. -/
theorem execCopyStart_starts {i : Nat} {q : CopyReq} (next : s.nextCopy c = some i) (hq : (s.core c).copyq[i]? = some q)
    (clear : ∀ p ∈ (s.core c).copyq, p.toClear = []) : execCopyStart c s = .next (s.startCopy c i q) := by
  have none_ : ((s.core c).copyq.any fun q => !q.toClear.isEmpty) = false := by
    simp only [List.any_eq_false, Bool.not_eq_true', Bool.not_eq_false, List.isEmpty_iff]
    exact clear
  have own : (!q.toClear.isEmpty) = false := by rw [clear q (List.mem_of_getElem? hq)]; rfl
  simp only [execCopyStart, next, hq, none_, own, Option.bind_some, Option.map_some, Bool.false_and, Bool.false_eq_true,
    if_false]

/-- The only request of the queue, whose clears are under way: one of them arrives. -/
theorem execCopyStart_clears {q : CopyReq} {d : Nat × Nat} {r : List (Nat × Nat)} (only : (s.core c).copyq = [q])
    (clear : q.toClear = d :: r) (next : s.nextCopy c = none ∨ s.nextCopy c = some 0) :
    execCopyStart c s = .next (s.clearOne c q) := by
  rcases next with next | next <;> simp [execCopyStart, next, only, clear]

/-- What the request that starts is as a transfer, nothing of it read yet. -/
def CopyReq.fresh (q : CopyReq) : Transfer :=
  { req := q, next := 0, pieces := [], paused := none, cause := .none, addr := q.word 0, failed := false, opened := [] }

theorem State.startCopy_moves {i : Nat} {q : CopyReq}
    (moves : ¬ ((s.moveOn c q.fresh).2.next = 0 ∧ (s.moveOn c q.fresh).2.paused = none ∧
      (s.moveOn c q.fresh).2.cause = .none)) :
    s.startCopy c i q = (State.updCore (s.moveOn c q.fresh).1 c fun x => { x with
      copyq := listDrop1 x.copyq i, active := x.active ++ [(s.moveOn c q.fresh).2] }).moved c (s.moveOn c q.fresh).2 := by
  rw [← Option.isNone_iff_eq_none] at moves
  exact if_neg moves

/-! ## ARRIVAL (R39, R128, R132, R136) -/

section
variable {t : Transfer} {rest : List Piece} {p : Piece} (hp : (s.core c).pending[n]? = some (t, rest, p))
include hp

/-- A ragged piece whose line is not read whole waits for the others. -/
theorem execArrival_waits (ragged : p.ragged = true) (half : t.halfRead c p = true) : execArrival c n s = .next s := by
  simp only [execArrival, hp, ragged, half, Bool.and_self, Bool.or_true, if_true]

variable (free : (s.core c).tileHeld t p = false) (sound : t.cause = .none)
include free sound

theorem execArrival_line (ragged : p.ragged = true) (whole : t.halfRead c p = false) {u : State}
    (lands : s.landPiece c t p = .ok u) :
    execArrival c n s = .next ((p :: rest.filter p.near).foldl
      (fun (s : State) r => s.landed c t (rest.filter fun r => !p.near r) r)
      ((rest.filter p.near).foldl (fun (s : State) r => s.landLocal c t r) u)) := by
  simp [execArrival, hp, free, sound, ragged, whole, lands]

variable (plain : p.ragged = false)
include plain

theorem execArrival_lands {u : State} (lands : s.landPiece c t p = .ok u) :
    execArrival c n s = .next (u.landed c t rest p) := by
  simp [execArrival, hp, free, sound, plain, lands]

theorem execArrival_absent {on ext : Nat} {a : DWord} (absent : s.landPiece c t p = .absent on ext a) :
    execArrival c n s = .next (State.fault
      (s.updTransfer c t.req.seq fun _ => { t with paused := some (on, ext), addr := a })
      { ctx := t.req.ctx, on := on, ext := ext, who := .copy c t.req.seq }) := by
  simp [execArrival, hp, free, sound, plain, absent, State.moved]

end

/-- A piece that counts at no object leaves its transfer, which it may have opened a tile for (R132). -/
theorem State.landed_uncounted {u : State} {t : Transfer} {p : Piece} (h : t.req.boe = false ∨ p.count = false)
    (rest : List Piece) :
    ∃ opened, u.landed c t rest p = (u.endLine c t rest p).updTransfer c t.req.seq fun t =>
      { t with pieces := rest, opened := opened, paused := none } := by
  have none_ : (t.req.boe && p.count) = false := Bool.and_eq_false_iff.mpr h
  simp only [State.landed, none_, Bool.false_eq_true, if_false]
  exact ⟨_, rfl⟩

/-! ## COPY_COMPLETE, COPY_RESUME, COPY_FAIL (R128, R133, R134) -/

theorem State.markPresence_nil (s : State) (tn : Nat) (set : Bool) : s.markPresence tn set [] = s := rfl

section
variable {t : Transfer} (ht : (s.core c).active[n]? = some t)
include ht

/-- A request read and written whole leaves, once no earlier one is to add to its counter. -/
theorem execCopyComplete_done (empty : t.pieces = []) (read : t.allRead c = true) (sound : t.cause = .none)
    (runs : t.failed = false)
    (first : t.req.tinc = 0 ∨ ∀ q ∈ (s.core c).copyq ++ (s.core c).active.map Transfer.req,
      ¬ (q.seq < t.req.seq ∧ q.tinc ≠ 0 ∧ q.tln = t.req.tln)) :
    let u := (s.updCore c fun x => { x with active := listDrop1 x.active n }).unpendReq c t.req
    execCopyComplete c n s =
      .next ((if t.req.tinc = 0 then u else u.tlAdd c t.req.tln t.req.tinc).settleCluster c) := by
  have turn : (t.req.tinc != 0 && ((s.core c).copyq ++ (s.core c).active.map Transfer.req).any fun q =>
      decide (q.seq < t.req.seq) && q.tinc != 0 && q.tln == t.req.tln) = false := by
    rcases first with none_ | first
    · rw [none_]; rfl
    · refine Bool.and_eq_false_imp.mpr fun _ => List.any_eq_false.mpr fun q hq => ?_
      simpa only [Bool.and_eq_true, decide_eq_true_eq, bne_iff_ne, beq_iff_eq, and_assoc] using first q hq
  have done : (t.pieces.isEmpty && t.allRead c && t.cause == .none) = true := by
    rw [empty, read, sound]; rfl
  simp only [execCopyComplete, ht, done, turn, runs, Bool.or_true, Bool.not_true, Bool.or_self, Bool.false_eq_true,
    if_false]

/-- A request that is not read whole goes on. -/
theorem execCopyResume_moves (runs : t.failed = false) (sound : t.cause = .none) (more : t.allRead c = false) :
    execCopyResume c n s = .next (((s.moveOn c t).1.updTransfer c t.req.seq fun _ => (s.moveOn c t).2).moved c
      (s.moveOn c t).2) := by
  simp [execCopyResume, ht, runs, sound, more]

/-- A request that is to fail, with no presence cleared and no object to tell, traps its group. -/
theorem execCopyFail_traps (bad : t.cause ≠ .none) (runs : t.failed = false) (clear : t.req.clr = [])
    (quiet : t.req.boe = false) :
    let q := t.req
    let u := ((if t.allRead c then s else s.cpDone q).unpendReq c q).updTransfer c q.seq fun t =>
      { t with failed := true, pieces := [], paused := none }
    execCopyFail c n s =
      .next (u.takeAsync q.ctx q.team q.gidx q.slot ⟨t.cause, 0, t.addr, q.idx⟩ q.pc q.iword) := by
  have fails : ¬ (t.cause = .none ∨ t.failed = true) := by rw [runs]; simp [bad]
  simp only [execCopyFail, ht, fails, clear, quiet, if_false, Bool.false_eq_true, State.markPresence_nil]

end

end

end Sys2Proof.Machine

namespace Sys2Proof.Slice0
open Sys2Proof.Machine

/-- Settles O53: each event under the premises that name its case. -/
theorem copyEvents : Obligations.CopyEvents := by
  intro s c n x
  refine ⟨fun i q next hq clear => ?start, fun q d r only clear next => execCopyStart_clears only clear next,
    fun t rest p hp ragged half => execArrival_waits hp ragged half,
    fun t rest p u hp free sound ragged whole lands => execArrival_line hp free sound ragged whole lands,
    fun t rest p u hp free sound plain quiet lands => ?lands,
    fun t rest p on ext a hp free sound plain absent => execArrival_absent hp free sound plain absent,
    fun t ht empty read sound runs first => execCopyComplete_done ht empty read sound runs first,
    fun t ht runs sound more => execCopyResume_moves ht runs sound more,
    fun t ht bad runs clear quiet => execCopyFail_traps ht bad runs clear quiet⟩
  case start =>
    intro r moves
    exact (execCopyStart_starts next hq clear).trans (congrArg Host.Outcome.next (State.startCopy_moves moves))
  case lands =>
    obtain ⟨opened, left⟩ := State.landed_uncounted (c := c) (u := u) quiet rest
    exact ⟨opened, (execArrival_lands hp free sound plain lands).trans (congrArg Host.Outcome.next left)⟩

end Sys2Proof.Slice0
end

section
/-! SUPPORT. WREQ and WQRY (R152 to R156): what is decided of a request before any bank moves, and what each
instruction comes to. -/

namespace Sys2Proof.Machine
open Sys2Proof.Slice0

/-! ## What is decided before any bank moves (R152) -/

section
variable {s : State} {core team : Nat} {r : WRole} {k : Int}

theorem State.wreqTry_early {st : WStat} (h : s.wreqEarly core team r k = some st) :
    s.wreqTry core team r k = (some st, s) := by
  simp only [State.wreqTry, h]

theorem State.wreqEarly_granted (same : k = 0) : s.wreqEarly core team r k = some .granted := if_pos same

/-- A ceiling set for the team, on the total or on the role, lies below the banks it would have. -/
theorem State.aboveCeiling_iff {al : Allot} {n : Nat} : s.aboveCeiling team al r n = true ↔
    ∃ tm, tabFind s.teams team = some tm ∧ (tm.ceil.total < allRoles.foldl (fun n q => n + al.banks q) 0 + n ∨
      ∃ m, tm.ceil.role.of r = some m ∧ m < al.banks r + n) := by
  rw [State.aboveCeiling]
  cases tabFind s.teams team with
  | none => simp
  | some tm => cases hm : tm.ceil.role.of r <;> simp [hm]

variable {al : Allot} (held : s.allot team core = some al)
include held

/-- The rows of R152 for a team that has an allotment. -/
theorem State.wreqEarly_held : s.wreqEarly core team r k =
    if k = 0 then some .granted
    else if k < 0 ∧ -k > al.granted.of r then some .owned
    else if (k < 0 ∧ (((s.core core).roles.of r).length : Int) + k < roleFloor r) ∨
        (k > 0 ∧ ((s.core core).roles.cache.length : Int) - k < s.cacheFloor core) then some .floor
    else if k > 0 ∧ (s.aboveCeiling team al r k.toNat ∨ (r = .scr ∧ (al.scr.length : Int) + k > 64)) then some .ceiling
    else none := by
  rw [State.wreqEarly, held, Option.getD_some]

theorem State.wreqEarly_owned (back : k < 0) (more : (al.granted.of r : Int) < -k) :
    s.wreqEarly core team r k = some .owned := by
  rw [State.wreqEarly_held held, if_neg (by omega), if_pos ⟨back, more⟩]

theorem State.wreqEarly_roleFloor (back : k < 0) (own : -k ≤ al.granted.of r)
    (low : (((s.core core).roles.of r).length : Int) + k < roleFloor r) : s.wreqEarly core team r k = some .floor := by
  rw [State.wreqEarly_held held, if_neg (by omega), if_neg (by omega), if_pos (.inl ⟨back, low⟩)]

section
variable (grows : 0 < k)
include grows

theorem State.wreqEarly_cacheFloor (low : ((s.core core).roles.cache.length : Int) - k < s.cacheFloor core) :
    s.wreqEarly core team r k = some .floor := by
  rw [State.wreqEarly_held held, if_neg (by omega), if_neg (by omega), if_pos (.inr ⟨grows, low⟩)]

theorem State.wreqEarly_ceiling (room : (s.cacheFloor core : Int) ≤ (s.core core).roles.cache.length - k)
    (above : s.aboveCeiling team al r k.toNat = true ∨ r = .scr ∧ 64 < (al.scr.length : Int) + k) :
    s.wreqEarly core team r k = some .ceiling := by
  rw [State.wreqEarly_held held, if_neg (by omega), if_neg (by omega), if_neg (by omega), if_pos ⟨grows, above⟩]

end

end

/-! ## WREQ (R155) -/

/-- The status written to vD of every lane taking part, and the stage closing. -/
def State.wreqAnswer (s : State) (t : LaneMask) (d : Reg) (st : WStat) : State :=
  (s.putAll t d.toNat (BitVec.ofNat 32 st.code)).next.close true

section
variable {s : State} {p : Pred} {g : Group} {t : LaneMask} {lo : Nat} (h : Turn s p g t lo) {role : WRole} {d a : Reg}
  (ready : Ready g [a.toNat, d.toNat]) (df : Bool) (tl : BitVec 4)
include h ready

/-- Whether the group's KICKs have read their sources is asked first; then the request is decided. -/
theorem wreq_decides {k : Int} (hk : (g.reg (s.core s.cur.core) a.toNat lo).toInt = k) :
    exec (.wreq p role d a df tl) s = run s (do
      parkIf (g.cnt.cp != 0)
      match (s.wreqTry s.cur.core g.team role k).1 with
      | some st => .ok ((s.wreqTry s.cur.core g.team role k).2.wreqAnswer t d st)
      | none => do
        parkIf g.det
        if df && decide ((s.core s.cur.core).deferred.length < 64) then
          .ok ((s.updCore s.cur.core fun x => x.setDeferred
            (x.deferred ++ [{ team := g.team, role := role, k := k, tl := tl }])).wreqAnswer t d .deferred)
        else .ok (s.wreqAnswer t d .busy)) := by
  refine (scope_ready h ready _).trans ?_
  rw [← hk, ← toInt_toNat]
  rfl

theorem wreq_parks (copies : g.cnt.cp ≠ 0) : exec (.wreq p role d a df tl) s = .next s.park := by
  rw [wreq_decides h ready df tl rfl, bne_iff_ne.mpr copies]
  rfl

variable (read : g.cnt.cp = 0) {k : Int} (hk : (g.reg (s.core s.cur.core) a.toNat lo).toInt = k)
include read hk

theorem wreq_decided {st : WStat} (can : (s.wreqTry s.cur.core g.team role k).1 = some st) :
    exec (.wreq p role d a df tl) s = .next ((s.wreqTry s.cur.core g.team role k).2.wreqAnswer t d st) := by
  rw [wreq_decides h ready df tl hk, read, can]
  rfl

/-- A status decided before any bank moves is answered in the state as it stands. -/
theorem wreq_early {st : WStat} (early : s.wreqEarly s.cur.core g.team role k = some st) :
    exec (.wreq p role d a df tl) s = .next (s.wreqAnswer t d st) := by
  have tried := State.wreqTry_early early
  rw [wreq_decided h ready df tl read hk (congrArg Prod.fst tried), tried]

section
variable (transient : (s.wreqTry s.cur.core g.team role k).1 = none)
include transient

theorem wreq_transient_det (det : g.det = true) : exec (.wreq p role d a df tl) s = .next s.park := by
  rw [wreq_decides h ready df tl hk, read, transient, det]
  rfl

theorem wreq_deferred (det : g.det = false) (room : (s.core s.cur.core).deferred.length < 64) :
    exec (.wreq p role d a true tl) s = .next ((s.updCore s.cur.core fun x => x.setDeferred
      ((s.core s.cur.core).deferred ++ [{ team := g.team, role := role, k := k, tl := tl }])).wreqAnswer t d .deferred) := by
  rw [wreq_decides h ready true tl hk, read, transient, det, decide_eq_true room]
  rfl

theorem wreq_busy (det : g.det = false) (full : df = false ∨ 64 ≤ (s.core s.cur.core).deferred.length) :
    exec (.wreq p role d a df tl) s = .next (s.wreqAnswer t d .busy) := by
  have stays : (df && decide ((s.core s.cur.core).deferred.length < 64)) = false := by
    rcases full with off | full
    · rw [off, Bool.false_and]
    · rw [decide_eq_false (Nat.not_lt.mpr full), Bool.and_false]
  rw [wreq_decides h ready df tl hk, read, transient, det, stays]
  rfl

end

end

end Sys2Proof.Machine

namespace Sys2Proof.Slice0
open Sys2Proof.Machine

/-- WREQ is answered by the first row of R152 that holds, or by what its banks' moves come to. -/
theorem wreq_completes : wreqCompletes := by
  intro s g t lo p role d a df tl c x k r answer h ready
  refine ⟨wreq_parks h ready df tl, fun read => ?_⟩
  have early : ∀ st, s.wreqEarly c g.team role k = some st → answer s st.code :=
    fun st => wreq_early h ready df tl read rfl
  refine ⟨fun st can => wreq_decided h ready df tl read rfl can,
    fun same => early .granted (State.wreqEarly_granted same),
    fun al held => ⟨fun back more => early .owned (State.wreqEarly_owned held back more),
      fun back own low => early .floor (State.wreqEarly_roleFloor held back own low),
      fun grows low => early .floor (State.wreqEarly_cacheFloor held grows low),
      fun grows room above => early .ceiling (State.wreqEarly_ceiling held grows room (above.imp_left ?ceiling))⟩,
    fun transient det => wreq_transient_det h ready df tl read rfl transient det,
    fun transient det => ⟨fun on room => ?deferred, fun full => wreq_busy h ready df tl read rfl transient det full⟩⟩
  case ceiling =>
    rintro ⟨tm, found, limits⟩
    have asked : (k.toNat : Int) = k := Int.toNat_of_nonneg (le_of_lt grows)
    refine State.aboveCeiling_iff.mpr
      ⟨tm, found, limits.imp (fun total => ?_) fun ⟨m, set, banks⟩ => ⟨m, set, ?_⟩⟩ <;> omega
  case deferred =>
    intro l
    subst on
    exact wreq_deferred h ready tl read rfl transient det room

/-- WQRY's words go to the four registers of each lane, and the read is told of as a timing. -/
theorem wqry_completes : wqryCompletes := by
  intro s g t lo p role d h ready
  refine ⟨_, _, _, _, rfl, ?_⟩
  intro u
  have reads : exec (.wqry p role d) s = .next (u.updGroup s.cur.core s.cur.slot fun g => g.sticky false) :=
    scope_ready h ready _
  exact ⟨fun det => reads.trans (congrArg Host.Outcome.next (State.past_untold h.group _ det)),
    fun det => reads.trans (congrArg Host.Outcome.next (State.past_told h.group _ det))⟩

/-- Settles O32: a request's status is the first row of R152 that holds, and a query's words are read as they stand. -/
theorem wellForms : Obligations.WellForms := ⟨wreq_completes, wqry_completes⟩

end Sys2Proof.Slice0
end

section
/-! SUPPORT. The tile tags (R160 to R162): what every WTAG asks first, the word that WTAG.rd writes, and what each form
comes to. -/

namespace Sys2Proof.Machine
open Sys2Proof.Slice0

/-! ## The tags of a tile -/

/-- V and C of the tiles listed, two bits a tile (R162). -/
def Core.tagBits (x : Core) (ts : List Nat) : Nat :=
  ts.zipIdx.foldl (fun n e => n + 2 ^ (2 * e.2) * b2n (x.tv e.1) + 2 ^ (2 * e.2 + 1) * b2n (x.tc e.1)) 0

/-- A tile more puts its two bits above those of the others. -/
theorem Core.tagBits_concat (x : Core) (ts : List Nat) (i : Nat) :
    x.tagBits (ts ++ [i]) = 2 ^ (2 * ts.length) * (b2n (x.tv i) + 2 * b2n (x.tc i)) + x.tagBits ts := by
  rw [Core.tagBits, List.zipIdx_append, List.foldl_append, ← Core.tagBits]
  simp only [List.zipIdx_singleton, List.foldl_cons, List.foldl_nil, Nat.zero_add]
  ring

/-- One bit above another, as a number. -/
theorem b2n_pair (v c : Bool) : b2n v + 2 * b2n c < 4 ∧ (b2n v + 2 * b2n c).testBit 0 = v ∧
    (b2n v + 2 * b2n c).testBit 1 = c := by
  cases v <;> cases c <;> decide

theorem Core.tagBits_lt (x : Core) (ts : List Nat) : x.tagBits ts < 2 ^ (2 * ts.length) := by
  induction ts using List.reverseRecOn with
  | nil => exact Nat.one_pos
  | append_singleton ts i ih =>
    obtain ⟨two, -⟩ := b2n_pair (x.tv i) (x.tc i)
    rw [Core.tagBits_concat, List.length_append, List.length_singleton]
    calc 2 ^ (2 * ts.length) * (b2n (x.tv i) + 2 * b2n (x.tc i)) + x.tagBits ts
      _ < 2 ^ (2 * ts.length) * (b2n (x.tv i) + 2 * b2n (x.tc i)) + 2 ^ (2 * ts.length) := Nat.add_lt_add_left ih _
      _ = 2 ^ (2 * ts.length) * (b2n (x.tv i) + 2 * b2n (x.tc i) + 1) := (Nat.mul_succ _ _).symm
      _ ≤ 2 ^ (2 * ts.length) * 4 := Nat.mul_le_mul_left _ two
      _ = 2 ^ (2 * (ts.length + 1)) := (Nat.pow_add 2 (2 * ts.length) 2).symm

theorem Core.tagBits_testBit (x : Core) (ts : List Nat) {i : Nat} (h : i < ts.length) :
    (x.tagBits ts).testBit (2 * i) = x.tv ts[i] ∧ (x.tagBits ts).testBit (2 * i + 1) = x.tc ts[i] := by
  induction ts using List.reverseRecOn with
  | nil => exact absurd h (Nat.not_lt_zero i)
  | append_singleton ts j ih =>
    simp only [Core.tagBits_concat, Nat.testBit_two_pow_mul_add _ (x.tagBits_lt ts)]
    rcases Nat.lt_or_ge i ts.length with before | last
    · rw [if_pos (by omega), if_pos (by omega), List.getElem_append_left before]
      exact ih before
    · obtain rfl : i = ts.length := by rw [List.length_append, List.length_singleton] at h; omega
      obtain ⟨-, v, c⟩ := b2n_pair (x.tv j) (x.tc j)
      rw [if_neg (by omega), if_neg (by omega), Nat.sub_self, Nat.add_sub_cancel_left, List.getElem_concat_length rfl]
      exact ⟨v, c⟩

/-- A tile that WTAG.setc refuses: V is clear or C is set (R162). -/
def Core.setcRefuses (x : Core) (i : Nat) : Bool := !x.tv i || x.tc i

theorem Core.setcRefuses_iff {x : Core} {i : Nat} : x.setcRefuses i = true ↔ x.tv i = false ∨ x.tc i = true := by
  rw [Core.setcRefuses, Bool.or_eq_true, Bool.not_eq_true']

theorem Core.setcRefuses_full {x : Core} {i : Nat} (h : x.tv i = true ∧ x.tc i = false) : x.setcRefuses i = false := by
  rw [Core.setcRefuses, h.1, h.2]; rfl

/-! ## What every form asks first -/

section
variable {s : State} {p : Pred} {g : Group} {m : LaneMask} {lo : Nat} (h : Turn s p g m lo) (room : g.cnt.tl < 31)
  {t cnt : BitVec 6}
include h room

/-- A tile outside the window is asked before the tags. -/
theorem wtag_outside (out : ¬ ∀ i ≤ cnt.toNat, g.inWindow (g.tileOfs (t.toNat + i)) 2048 = true) (k) :
    run s (s.wtagM p t cnt k) = .next (s.takeTrap ⟨.regBounds, lo, 0, 0⟩) := by
  have out : ((List.range (cnt.toNat + 1)).all fun i => g.inWindow (g.tileOfs (t.toNat + i)) 2048) = false := by
    simpa [Nat.lt_succ_iff] using out
  rw [State.wtagM, turn_group h, waitClass_free (k := .tl) room, out]
  rfl

/-- Where the class has room and the tiles lie in the window, a form goes on to the tags. -/
theorem wtag_inside (inside : ∀ i ≤ cnt.toNat, g.inWindow (g.tileOfs (t.toNat + i)) 2048 = true) (k) :
    run s (s.wtagM p t cnt k) = run s (k g (s.core s.cur.core) (g.tiles t cnt) m lo) := by
  have all : ((List.range (cnt.toNat + 1)).all fun i => g.inWindow (g.tileOfs (t.toNat + i)) 2048) = true := by
    simpa [Nat.lt_succ_iff] using inside
  rw [State.wtagM, turn_group h, waitClass_free (k := .tl) room, all]
  rfl

end

/-! ## What a form comes to -/

section
variable {s : State} {ts : List Nat} {lo : Nat} (b : Nat → Bool)

/-- A form that refuses one of its tiles raises TAG_PROTOCOL. -/
theorem tags_refused {k : Unit → M State} (bad : ∃ i ∈ ts, b i = true) :
    run s (trapIf (ts.any b) .tagProtocol lo >>= k) = .next (s.takeTrap ⟨.tagProtocol, lo, 0, 0⟩) := by
  rw [List.any_eq_true.mpr bad, trapIf_true, M.error_bind, run_trap]

/-- One that refuses none, and has no operation to wait for, is made. -/
theorem tags_taken {due : Bool} {u : State} (good : ∀ i ∈ ts, b i = false) (done : due = false) :
    run s (do trapIf (ts.any b) .tagProtocol lo; waitIf due; .ok u) = .next u := by
  have none_ : ts.any b = false := List.any_eq_false.mpr fun i hi => by rw [good i hi]; exact Bool.false_ne_true
  rw [none_, done]
  rfl

/-- A wait that finds its tag on every tile passes. -/
theorem tags_awaited (all : ∀ i ∈ ts, b i = true) : run s (do parkIf (!ts.all b); .ok s.next) = .next s.next := by
  rw [List.all_eq_true.mpr all]
  rfl

theorem tags_lacking (some_ : ∃ i ∈ ts, b i = false) : run s (do parkIf (!ts.all b); .ok s.next) = .next s.park := by
  obtain ⟨i, hi, off⟩ := some_
  have lacks : ts.all b = false := List.all_eq_false.mpr ⟨i, hi, by rw [off]; exact Bool.false_ne_true⟩
  rw [lacks]
  rfl

end

end Sys2Proof.Machine

namespace Sys2Proof.Slice0
open Sys2Proof.Machine

/-- Settles O33: every form asks the class and the window first; then its tiles' tags decide. -/
theorem tagForms : Obligations.TagForms := by
  intro s g m lo p t cnt d c x inside ts rows set room h
  refine ⟨fun out i hi => ?outside, fun within => ?_⟩
  case outside =>
    simp only [List.mem_cons, List.not_mem_nil, or_false] at hi
    rcases hi with rfl | rfl | rfl | rfl | rfl | rfl <;> exact wtag_outside h room out _
  have go := wtag_inside h room (t := t) (cnt := cnt) within
  refine ⟨fun good done => (go _).trans (tags_taken x.tv good done),
    fun bad => (go _).trans (tags_refused x.tv bad),
    fun good done => (go _).trans (tags_taken x.setcRefuses (fun i hi => Core.setcRefuses_full (good i hi)) done),
    fun ⟨i, hi, bad⟩ => (go _).trans (tags_refused x.setcRefuses ⟨i, hi, Core.setcRefuses_iff.mpr bad⟩),
    go _,
    fun all => (go _).trans (tags_awaited x.tv all),
    fun lacks => (go _).trans (tags_lacking x.tv lacks),
    fun all => (go _).trans (tags_awaited x.tc all),
    fun lacks => (go _).trans (tags_lacking x.tc lacks),
    fun ready => ⟨BitVec.ofNat 32 (x.tagBits ts), (go _).trans ?read, fun few i hi => ?bits⟩⟩
  case read =>
    rw [needRegs_ready lo ready]
    rfl
  case bits =>
    have listed : i < ts.length := by simpa [ts, Nat.lt_succ_iff] using hi
    have named : ts[i] = g.tileAt (g.tileOfs (t.toNat + i)) := by simp [ts]
    obtain ⟨v, c⟩ := x.tagBits_testBit ts listed
    rw [BitVec.getLsbD_ofNat, BitVec.getLsbD_ofNat, v, c, named, decide_eq_true (by omega), decide_eq_true (by omega)]
    exact ⟨rfl, rfl⟩

end Sys2Proof.Slice0
end

section
/-! SUPPORT. A register written by MOV and read back (R142, R165, R166, R172): the word in its row, the row of its
address, and where the write is lost. -/

namespace Sys2Proof.Machine
open Sys2Proof.Slice0

/-! ## A word in its row -/

theorem testBit_lineNat (l : Line) (i n j : Nat) :
    (lineNat l i n).testBit j = (decide (j < 8 * n) && l.getLsbD (8 * i + j)) := by
  rw [lineNat, Nat.testBit_mod_two_pow, Nat.testBit_div_two_pow, BitVec.getLsbD, Nat.add_comm j]

/-- A word blended into a row is what the row then holds there. -/
theorem lineNat_blend_word (old : Line) (w : Word) {i : Nat} (h : i + 4 ≤ 128) :
    BitVec.ofNat 32 (lineNat (blend old (lineSet 0 i 4 w.toNat) (maskOf i 4)) i 4) = w := by
  apply BitVec.eq_of_getLsbD_eq
  intro j hj
  have covered : (maskBits (maskOf i 4)).getLsbD (8 * i + j) = true := by
    rw [getLsbD_maskBits _ _ (by omega), getLsbD_maskOf _ _ _ (by omega), decide_eq_true (by omega)]
  rw [BitVec.getLsbD_ofNat, testBit_lineNat, blend, BitVec.getLsbD_or, BitVec.getLsbD_and, BitVec.getLsbD_and,
    BitVec.getLsbD_not, covered, getLsbD_lineSet _ _ _ _ _ (by omega), if_pos (by omega), Nat.add_sub_cancel_left]
  simp [hj, BitVec.getLsbD]

/-! ## The row of an address -/

/-- Addresses of one role in one row of it lie in one row of the Well (R142). -/
theorem Core.rowKey_congr (x : Core) {r r' : RAddr} (role : r'.mat = r.mat) (row : r'.a / 128 = r.a / 128) :
    x.rowKey r' = x.rowKey r := by
  have slot : r'.a / 32768 = r.a / 32768 := by omega
  have within : r'.a % 32768 / 128 = r.a % 32768 / 128 := by omega
  rw [Core.rowKey, Core.rowKey, role, slot, within]

/-- Where segments begin at rows, and the REG segment ends below the MAT part (R164), the bytes of a window row lie in
one row of the Well. -/
theorem Group.wAddr_row {g : Group} {o : Nat} {r : RAddr} (hreg : g.segReg.base.toNat % 128 = 0)
    (hmat : g.segMat.base.toNat % 128 = 0) (low : g.segReg.size.toNat ≤ matPart) (h : g.wAddr o = some r) :
    r.a % 128 = o % 128 ∧ ∃ r', g.wAddr (128 * (o / 128)) = some r' ∧ ∀ x : Core, x.rowKey r' = x.rowKey r := by
  have part : matPart = 2 ^ 21 := rfl
  rw [Group.wAddr] at h ⊢
  split at h
  · injection h with h
    subst h
    rw [if_pos (by omega)]
    exact ⟨by dsimp only; omega, _, rfl, fun x => x.rowKey_congr rfl (by dsimp only; omega)⟩
  · split at h
    · injection h with h
      subst h
      rw [if_neg (by omega), if_pos (by omega)]
      exact ⟨by dsimp only; omega, _, rfl, fun x => x.rowKey_congr rfl (by dsimp only; omega)⟩
    · cases h

/-! ## A word written to a register -/

/-- The group in a slot reads `w` in lane `l` of its register `d`. -/
def State.Reads (s : State) (core slot d l : Nat) (w : Word) : Prop :=
  ∃ q, s.group core slot = some q ∧ q.reg (s.core core) d l = w

/-- Passing an instruction leaves the group's registers as they are. -/
theorem State.Reads.next {s : State} {core slot d l : Nat} {w : Word} (h : s.Reads core slot d l w)
    (turn : s.cur.core = core ∧ s.cur.slot = slot) : s.next.Reads core slot d l w := by
  obtain ⟨rfl, rfl⟩ := turn
  obtain ⟨q, hq, read⟩ := h
  refine ⟨_, State.next_group hq, ?_⟩
  rw [← read, State.next, State.updGroup_some _ _ _ _ hq, State.setGroup, State.core_updCore_self]
  rfl

section
variable {s : State} {core slot : Nat} {g : Group} (hg : s.group core slot = some g)
include hg

/-- A write to a row of a group's window that lies in the Well is blended into it. -/
theorem State.putWinRow_row {w : Nat} {r : RAddr} {key : Nat} (hr : g.wAddr (128 * w) = some r)
    (hk : (s.core core).rowKey r = some key) (data : Line) (m : LineMask) :
    ((s.putWinRow core slot w data m).core core).row key = blend ((s.core core).row key) data m := by
  obtain ⟨-, kept⟩ := State.takeUndo_frame s core slot (.row r.mat r.a) ((s.core core).row key)
  have rows : ∀ (u : State) (f : Group → Group), ((u.updGroup core slot f).core core).row key = (u.core core).row key := by
    intro u f
    rw [State.updGroup]
    split
    · rw [State.setGroup, State.core_updCore_self]; rfl
    · rfl
  simp only [State.putWinRow, hg, hr, hk]
  rw [rows, State.core_updCore_self, Core.row_putRow, if_pos rfl, kept]

/-- Firmware reads back what it wrote of its own registers. -/
theorem State.putRegs_reads_fw (fw : g.fw = true) (d l : Nat) (w : Word) :
    (s.putRegs core slot [(l, d, w)]).Reads core slot d l w := by
  have own : s.putRegs core slot [(l, d, w)] = s.setGroup core slot { g with fwRegs := tabSet g.fwRegs d w } := by
    simp [State.putRegs, hg, fw]
  rw [own]
  exact ⟨_, State.group_setGroup_self .., by simp [Group.reg, fw]⟩

/-- So does a group whose register lies, aligned, in a row of the Well. -/
theorem State.putRegs_reads (user : g.fw = false) {d l : Nat} (w : Word) (aligned : g.views.vec.toNat % 4 = 0)
    (hreg : g.segReg.base.toNat % 128 = 0) (hmat : g.segMat.base.toNat % 128 = 0)
    (low : g.segReg.size.toNat ≤ matPart) {r : RAddr} {key : Nat} (hr : g.wAddr (g.vecOfs d + 4 * l) = some r)
    (hk : (s.core core).rowKey r = some key) :
    (s.putRegs core slot [(l, d, w)]).Reads core slot d l w := by
  obtain ⟨frame, -⟩ := State.putRegs_frame s core slot [(l, d, w)] hg
  obtain ⟨q, hq, seg, mat, views, width, fw⟩ := frame.seg hg
  have fits : (g.vecOfs d + 4 * l) % 4 = 0 := by rw [Group.vecOfs]; omega
  have offset : q.vecOfs d = g.vecOfs d := by rw [Group.vecOfs, Group.vecOfs, views, width]
  have address : q.wAddr (g.vecOfs d + 4 * l) = some r := by rw [← hr, Group.wAddr, Group.wAddr, seg, mat]
  have row : ((s.putRegs core slot [(l, d, w)]).core core).rowKey r = some key := by
    rw [← hk, Core.rowKey, Core.rowKey, frame.roles]
  refine ⟨q, hq, ?_⟩
  rw [Group.reg, fw, user, if_neg Bool.false_ne_true, offset, Group.winNat]
  simp only [address, row]
  obtain ⟨place, r', hr', same⟩ := Group.wAddr_row hreg hmat low hr
  have one : s.putRegs core slot [(l, d, w)] = s.putWinRow core slot ((g.vecOfs d + 4 * l) / 128)
      (lineSet 0 ((g.vecOfs d + 4 * l) % 128) 4 w.toNat) (maskOf ((g.vecOfs d + 4 * l) % 128) 4) := by
    simp [State.putRegs, hg, user, State.putWin, dedup]
  rw [one, State.putWinRow_row hg hr' ((same _).trans hk), place]
  exact lineNat_blend_word _ w (by omega)

end

end Sys2Proof.Machine

namespace Sys2Proof.Slice0
open Sys2Proof.Machine

section
variable {s : State} {g : Group} {t : LaneMask} {lo : Nat} {p : Pred} {d : Reg} (v : BitVec 20)

/-- A MOV of one lane writes its word and passes. -/
theorem mov_one_lane (runs : FormRuns s ⟨⟨false, p⟩, [], [], [d.toNat], []⟩ g t lo) (one : lanesOf t = [lo]) :
    exec (.mov ⟨false, p⟩ .b32 d (.imm v)) s =
      .next (s.putRegs s.cur.core s.cur.slot [(lo, d.toNat, v.setWidth 32)]).next := by
  refine (vec_wrote runs rfl rfl rfl rfl (fun _ => ⟨[(d.toNat, v.setWidth 32)], []⟩) fun l => ?_).trans ?_
  · simp [lanewise, outNat, BitVec.ofNat_toNat]
  · rw [wrote, one]; rfl

/-- What `RegisterReadBack` says holds where the REG segment ends below the MAT part, as R164 has it. -/
theorem mov_reads_back (runs : FormRuns s ⟨⟨false, p⟩, [], [], [d.toNat], []⟩ g t lo) (one : lanesOf t = [lo])
    (placed : g.fw = true ∨ g.segReg.size.toNat ≤ matPart ∧ g.views.vec.toNat % 4 = 0 ∧
      g.segReg.base.toNat % 128 = 0 ∧ g.segMat.base.toNat % 128 = 0 ∧
      ∃ r key, g.wAddr (g.vecOfs d.toNat + 4 * lo) = some r ∧ (s.core s.cur.core).rowKey r = some key) :
    ∃ u, exec (.mov ⟨false, p⟩ .b32 d (.imm v)) s = .next u ∧
      u.Reads s.cur.core s.cur.slot d.toNat lo (v.setWidth 32) := by
  have hg : s.group s.cur.core s.cur.slot = some g := runs.turn.group
  have same := (State.putRegs_turn hg [(lo, d.toNat, v.setWidth 32)]).1
  have written : (s.putRegs s.cur.core s.cur.slot [(lo, d.toNat, v.setWidth 32)]).Reads s.cur.core s.cur.slot d.toNat lo
      (v.setWidth 32) := by
    by_cases fw : g.fw = true
    · exact State.putRegs_reads_fw hg fw ..
    · obtain ⟨low, vec, reg, mat, r, key, hr, hk⟩ := placed.resolve_left fw
      exact State.putRegs_reads hg (Bool.eq_false_of_not_eq_true fw) _ vec reg mat low hr hk
  exact ⟨_, mov_one_lane v runs one, written.next (by rw [same]; exact ⟨rfl, rfl⟩)⟩

end

/-! ## A register that MOV does not write -/

/-- A group of one thread whose REG segment ends four bytes into the row at which the MAT part begins, with v0 just
behind that end. -/
def straddler : Group :=
  newGroup 0 0 0 1 (matPart + 4) 128 { vec := 0x200004, tile := 0, acc := 0 } [] 0 false

/-- The group has the turn of core 0, which has one bank of REG and one of MAT. -/
def straddled : State :=
  { State.reset with
    cores := [(0, { Core.init with roles := { Core.init.roles with reg := [0], mat := [1] }, groups := [(0, straddler)] })]
    cur := { core := 0, slot := 0, mask := 1, pc := 0, iword := 0 } }

/-- Register v0 of core 0's group as a step leaves it. -/
def readsBack : Host.Outcome State Fault Refusal → Option Word
  | .next u => (u.group 0 0).map fun q => q.reg (u.core 0) 0 0
  | _ => none

theorem straddled_runs : FormRuns straddled ⟨⟨false, .all⟩, [], [], [(0 : Reg).toNat], []⟩ straddler 1 0 where
  turn := ⟨rfl, rfl, by decide⟩
  ready := by unfold Ready; decide +kernel
  alike := fun u => absurd u Bool.false_ne_true

/-- The write finds no bank under the row's first byte, which lies in the REG segment. -/
theorem straddled_keeps : readsBack (exec (.mov ⟨false, .all⟩ .b32 0 (.imm 1)) straddled) = some 0 := by decide +kernel

/-- Refutes O56: a REG segment whose size is no multiple of 128 and reaches past window offset 2^21 ends inside a window
row, and a register behind its end, in the MAT part, shares that row. The model writes a window row by the address of
its first byte, here one of the REG segment without a bank, so the word is dropped. SEGSET gives no group such a size
(R164), but the statement does not exclude one; `mov_reads_back` has the bound it lacks. -/
theorem not_registerReadBack : ¬ Obligations.RegisterReadBack := by
  intro back
  obtain ⟨u, q, ran, left, read⟩ := back straddled straddler 1 0 .all 0 1 straddled_runs (by decide +kernel) (by decide)
    (.inr ⟨by decide, by decide, by decide, ⟨true, 4⟩, 256, by decide +kernel, by decide +kernel⟩)
  have kept : some (q.reg (u.core 0) 0 0) = some 0 := by
    rw [← straddled_keeps, ran, readsBack, show u.group 0 0 = some q from left, Option.map_some]
  exact absurd (read.symm.trans (Option.some.inj kept)) (by decide)

end Sys2Proof.Slice0
end

section
/-! SUPPORT. MOV (R28, R33, R172): what its two forms and its half in a pair word write. -/

namespace Sys2Proof.Machine
open Sys2Proof.Slice0

/-! ## Words of a pair (R28) -/

theorem pairUp_toNat (lo hi : Word) : (pairUp lo hi).toNat = lo.toNat + 2 ^ 32 * hi.toNat := by
  rw [pairUp, BitVec.toNat_append, ← Nat.shiftLeft_add_eq_or_of_lt lo.isLt, Nat.shiftLeft_eq]
  omega

theorem loWord_eq (v : DWord) : loWord v = v.setWidth 32 := BitVec.setWidth_eq_extractLsb' (by decide) |>.symm

theorem hiWord_eq (v : DWord) : hiWord v = (v >>> 32).setWidth 32 := by
  apply BitVec.eq_of_getLsbD_eq
  intro i hi
  simp [hiWord, hi]

/-- A natural number's words are those of the integer it is. -/
theorem outNat_eq (w : Wid) (d : Reg) (n : Nat) : outNat w d.toNat n = intWords w d n := by
  cases w
  case b32 => rw [outNat, intWords, BitVec.ofInt_natCast]
  case b64 => rw [outNat, outPair, intWords, BitVec.ofInt_natCast, loWord_eq, hiWord_eq]

theorem Src.nat_eq (g : Group) (x : Core) (w : Wid) (r : Reg) (l : Nat) :
    (g.src x l).nat w r.toNat = regNat g x w r l := by
  cases w
  case b32 => rfl
  case b64 => exact pairUp_toNat ..

/-! ## A half that writes nothing -/

/-- The results of every lane of a half that is NOP (R33). -/
def idleOuts (ls : List Nat) : List (Nat × LaneOut) := ls.map fun l => (l, wordsOut [])

theorem State.commit_idle (s : State) (outs : List (Nat × LaneOut)) (ls : List Nat) :
    s.commit (outs ++ idleOuts ls) = s.commit outs ∧ s.commit (idleOuts ls ++ outs) = s.commit outs := by
  have noRegs : ((idleOuts ls).flatMap fun e => e.2.regs.map fun w => (e.1, w.1, w.2)) = [] := by
    simp [idleOuts, wordsOut]
  have noPreds : ((idleOuts ls).flatMap fun e => e.2.preds.map fun w => (e.1, w.1, w.2)) = [] := by
    simp [idleOuts, wordsOut]
  simp only [State.commit, List.flatMap_append, noRegs, noPreds, List.append_nil, List.nil_append, and_self]

end Sys2Proof.Machine

namespace Sys2Proof.Slice0
open Sys2Proof.Machine

section
variable {s : State} {g : Group} {t : LaneMask} {lo : Nat} {c : Ctl} {w : Wid} {d : Reg}

theorem mov_copies {a : Reg} (runs : FormRuns s ⟨c, regsOf w a, [], regsOf w d, []⟩ g t lo) :
    exec (.mov c w d (.reg a)) s = .next (wrote s t fun l =>
      wordsOut (intWords w d (regNat g (s.core s.cur.core) w a (from_ c.u lo l)))) :=
  vec_wrote runs rfl (regsOf_eq w a) rfl (regsOf_eq w d) _ fun l => by
    rw [← outNat_eq, ← Src.nat_eq]; rfl

theorem mov_extends (v : BitVec 20) (runs : FormRuns s ⟨c, [], [], regsOf w d, []⟩ g t lo) :
    exec (.mov c w d (.imm v)) s = .next (wrote s t fun _ => wordsOut (intWords w d v.toNat)) :=
  vec_wrote runs rfl rfl rfl (regsOf_eq w d) _ fun l => by rw [← outNat_eq]; rfl

/-- The move stands in either half, the other being NOP. -/
theorem mov_half {u : Bool} {a : Reg} (runs : FormRuns s ⟨⟨u, .all⟩, [a.toNat], [], [d.toNat], []⟩ g t lo) :
    let moved := Host.Outcome.next (wrote s t fun l =>
      wordsOut [(d.toNat, g.reg (s.core s.cur.core) a.toNat (from_ u lo l))])
    exec (.pairMov u d a .nop) s = moved ∧ exec (.pairNop (.op .mov u d a)) s = moved := by
  obtain ⟨⟨group, rfl, low⟩, ready, alike⟩ := runs
  have idle : Alike g (s.core s.cur.core) false s.cur.mask lo [] [] := fun on => absurd on Bool.false_ne_true
  refine ⟨(pair_completes _ (.op .mov u d a) .nop s g lo rfl group low ready alike idle).trans ?_,
    (pair_completes _ .nop (.op .mov u d a) s g lo rfl group low ready idle alike).trans ?_⟩
  · exact congrArg (fun u : State => Host.Outcome.next u.next) (s.commit_idle _ (lanesOf s.cur.mask)).1
  · exact congrArg (fun u : State => Host.Outcome.next u.next) (s.commit_idle _ (lanesOf s.cur.mask)).2

end

/-- Settles O7: both forms are lane-wise operations of their source, and a half beside NOP writes alone. -/
theorem movResult : Obligations.MovResult := by
  intro s g t lo c w d
  exact ⟨fun a => mov_copies, fun v => mov_extends v, fun u a => mov_half⟩

end Sys2Proof.Slice0
end

section
/-! SUPPORT. SREAD (R170, R173): the words it writes, and what it tells of a register that deterministic mode hides. -/

namespace Sys2Proof.Machine
open Sys2Proof.Slice0

/-! ## The words written -/

/-- The words that the lanes `ls` write to `d`, or to the pair `d`, when lane `l` reads `y l` (R28). -/
def readWords (ls : List Nat) (d : Reg) (w : Wid) (y : Nat → DWord) : List (Nat × Nat × Word) :=
  ls.flatMap fun l => (l, d.toNat, (y l).setWidth 32) ::
    (if w = .b64 then [(l, d.toNat + 1, (y l >>> 32).setWidth 32)] else [])

theorem readWords_zero (ls : List Nat) (d : Reg) (w : Wid) :
    readWords ls d w (fun _ => 0) = ls.flatMap fun l => (regsOf w d).map fun r => (l, r, (0 : Word)) := by
  cases w
  case b32 => rfl
  case b64 => simp [readWords, regsOf]

/-- What lane `l` reads of special register `n`: zero where it is hidden (R170). -/
def State.srSeen (s : State) (g : Group) (hide : Hidden) (n l : Nat) : DWord :=
  if hide = .shown then s.srValue s.cur.core s.cur.slot g l n else 0

/-- The group in a slot told of the read of a hidden register (R170). -/
def State.told (s : State) (core slot : Nat) : Hidden → State
  | .shown => s
  | .phys => s.updGroup core slot fun g => g.sticky true
  | .timing => s.updGroup core slot fun g => g.sticky false

/-! ## What is told -/

/-- A sticky bit of a deterministic group set after a write of its registers (R170). -/
theorem State.past_sticky {s : State} {g : Group} (hg : s.curGroup = some g) (ws : List (Nat × Nat × Word))
    (det : g.det = true) (phys : Bool) :
    ((s.putRegs s.cur.core s.cur.slot ws).next.updGroup s.cur.core s.cur.slot fun q => q.sticky phys) =
      (s.putRegs s.cur.core s.cur.slot ws).next.updGroup s.cur.core s.cur.slot
        fun q => { q with detSticky := q.detSticky ||| (if phys then 2 else 1) } := by
  obtain ⟨cur, q, hq, same⟩ := State.putRegs_turn hg ws
  have on : (q.advance s.cur.mask).det = true := same.trans det
  rw [State.next, cur]
  exact State.updGroup_congr (State.group_updGroup_self _ _ _ _ hq) (if_pos on)

/-! ## The instruction -/

section
variable {s : State} {g : Group} {t : LaneMask} {lo : Nat} {c : Ctl} (h : Turn s c.p g t lo) {srn : BitVec 8} {w : Wid}
  (width : srWidth srn = some w) {d : Reg} (ready : Ready g (regsOf w d))
include h width ready

theorem sread_reads {hide : Hidden} (hidden : (if g.det then srHidden srn.toNat else .shown) = hide) :
    exec (.sread c d srn) s = .next ((s.putRegs s.cur.core s.cur.slot (readWords (lanesOf t) d w fun l =>
      s.srSeen g hide srn.toNat (from_ c.u lo l))).next.told s.cur.core s.cur.slot hide) := by
  have wide : (srWidth srn == some .b64) = decide (w = .b64) := by rw [width]; cases w <;> rfl
  have regs : (if w = .b64 then [d.toNat, d.toNat + 1] else [d.toNat]) = regsOf w d := by cases w <;> rfl
  simp only [exec, execSread, State.sreadM]
  rw [turn_mem h]
  simp only [wide, hidden, decide_eq_true_eq, regs, needRegs_ready lo ready, M.ok_bind, run_ok, loWord_eq, hiWord_eq]
  cases hide <;> rfl

theorem sread_shown (free : g.det = false) : exec (.sread c d srn) s =
    .next (s.putRegs s.cur.core s.cur.slot (readWords (lanesOf t) d w fun l =>
      s.srValue s.cur.core s.cur.slot g (from_ c.u lo l) srn.toNat)).next :=
  sread_reads h width ready (hide := .shown) (by rw [free]; rfl)

theorem sread_hidden (det : g.det = true) (phys : Bool)
    (hidden : srHidden srn.toNat = if phys then .phys else .timing) : exec (.sread c d srn) s =
    .next ((s.putRegs s.cur.core s.cur.slot ((lanesOf t).flatMap fun l =>
      (regsOf w d).map fun r => (l, r, (0 : Word)))).next.updGroup s.cur.core s.cur.slot fun q =>
        { q with detSticky := q.detSticky ||| (if phys then 2 else 1) }) := by
  rw [← readWords_zero, ← State.past_sticky h.group _ det phys, sread_reads h width ready ((if_pos det).trans hidden)]
  cases phys <;> rfl

end

end Sys2Proof.Machine

namespace Sys2Proof.Slice0
open Sys2Proof.Machine

theorem sread_completes : sreadCompletes := by
  intro s g t lo c d srn w h width ready free die
  refine ⟨fun l => s.srValue s.cur.core s.cur.slot g l srn.toNat, sread_shown h width ready free, ?_⟩
  have reads : ∀ (n : BitVec 8) (y : Nat → DWord), (∀ l, s.srValue s.cur.core s.cur.slot g l n.toNat = y l) →
      srn = n → ∀ l, s.srValue s.cur.core s.cur.slot g l srn.toNat = y l := by
    rintro n y value rfl
    exact value
  exact ⟨reads 0x00 _ fun _ => rfl, reads 0x01 _ fun _ => rfl, reads 0x02 _ fun _ => rfl, reads 0x08 _ fun _ => rfl,
    reads 0x09 _ fun _ => rfl, reads 0x0A _ fun _ => rfl, reads 0x10 _ fun _ => rfl, reads 0x11 _ fun _ => rfl,
    reads 0x40 _ fun _ => rfl, reads 0x48 _ fun _ => rfl, reads 0x49 _ fun _ => rfl, reads 0x4A _ fun _ => rfl⟩

theorem sread_hides : sreadHidden := by
  intro s g t lo c d h det zero reads
  have phys : ∀ srn w, srWidth srn = some w → srHidden srn.toNat = .phys → reads srn w 2 :=
    fun srn w width hidden ready => sread_hidden h width ready det true hidden
  have timing : ∀ srn w, srWidth srn = some w → srHidden srn.toNat = .timing → reads srn w 1 :=
    fun srn w width hidden ready => sread_hidden h width ready det false hidden
  exact ⟨phys _ _ rfl rfl, phys _ _ rfl rfl, phys _ _ rfl rfl, phys _ _ rfl rfl, phys _ _ rfl rfl,
    timing _ _ rfl rfl, timing _ _ rfl rfl, timing _ _ rfl rfl⟩

/-- Settles O16: outside deterministic mode every register reads as its value; inside, a hidden one reads as zero and
its mark is kept. -/
theorem sreadForms : Obligations.SreadForms := ⟨sread_completes, sread_hides⟩

end Sys2Proof.Slice0
end

section
/-! SUPPORT. SWRITE and SEGSET (R164, R174, R176): a firmware instruction whose registers can be used, what SEGSET's
checks answer, and the core it leaves. -/

namespace Sys2Proof.Machine
open Sys2Proof.Slice0

/-- A firmware instruction goes on past its registers, once they can be used (R27, R36, R45). -/
theorem priv_ready {s : State} {p : Pred} {g : Group} {t : LaneMask} {lo : Nat} (h : Turn s p g t lo) (fw : g.fw = true)
    {rs : List Nat} (ready : Ready g rs) (k : Group → Core → LaneMask → Nat → M State) :
    run s (s.privM p fun g x t lo => needRegs g rs lo >>= fun _ => k g x t lo) = run s (k g (s.core s.cur.core) t lo) := by
  rw [turn_priv h fw, needRegs_ready lo ready, M.ok_bind]

theorem State.slotGroup_low (s : State) {core n : Nat} (scribe : core < 256) (slot : n < 64) :
    s.slotGroup core n = s.group core n := if_pos ⟨scribe, slot⟩

theorem State.slotGroup_high (s : State) (core : Nat) {n : Nat} (slot : 64 ≤ n) : s.slotGroup core n = none :=
  if_neg fun ⟨_, low⟩ => absurd low (Nat.not_lt.mpr slot)

/-! ## SWRITE (R174) -/

section
variable {s : State} {p : Pred} {g : Group} {t : LaneMask} {lo : Nat} (h : Turn s p g t lo) (fw : g.fw = true)
  {a b : Reg} (srn : BitVec 8)
include h fw

theorem swrite_core (ready : Ready g [a.toNat]) :
    exec (.swrite p .core a srn) s = .next (s.updCore s.cur.core fun x =>
      if srn.toNat = 0x0D then { x with clucnt := g.reg (s.core s.cur.core) a.toNat lo }
      else { x with topo := g.reg (s.core s.cur.core) a.toNat lo }).next :=
  priv_ready h fw ready _

variable (ready : Ready g [a.toNat, b.toNat]) (scribe : s.cur.core < 256) {k : Nat}
  (slot : (g.reg (s.core s.cur.core) b.toNat lo).toNat % 64 = k)
include ready scribe slot

theorem swrite_group {q : Group} (found : s.group s.cur.core k = some q) :
    exec (.swrite p (.group b) a srn) s = .next (s.setGroup s.cur.core k
      (if srn.toNat = 0x13 then { q with detSticky := (g.reg (s.core s.cur.core) a.toNat lo).extractLsb' 0 2 }
      else { q with dbg := (g.reg (s.core s.cur.core) a.toNat lo).getLsbD 0 })).next := by
  subst slot
  refine (priv_ready h fw ready _).trans ?_
  simp only [State.slotGroup_low s scribe (Nat.mod_lt _ (by decide)), found, run_ok, State.updGroup_some _ _ _ _ found]

theorem swrite_vacant (vacant : s.group s.cur.core k = none) :
    exec (.swrite p (.group b) a srn) s = .next s.next := by
  subst slot
  refine (priv_ready h fw ready _).trans ?_
  simp only [State.slotGroup_low s scribe (Nat.mod_lt _ (by decide)), vacant, run_ok]

end

/-! ## SEGSET's checks (R164, R176) -/

/-- A segment register of a group written. -/
def Group.withSeg (g : Group) (seg : Seg) : SegKind → Group
  | .reg => { g with segReg := seg }
  | .mat => { g with segMat := seg }

/-- The segment that a pair of SEGSET names (R164). -/
def segOf (v : DWord) : Seg := { base := v.extractLsb' 0 22, size := v.extractLsb' 32 22 }

/-- The rows of that segment. -/
def rowsOf (k : SegKind) (v : DWord) : List Nat := segRows k (segOf v).base.toNat (segOf v).size.toNat

/-- A tile of which a segment's rows `new` take some, none of it having been in the rows `old` (R160). -/
def takesTile (new old : List Nat) (i : Nat) : Bool := (new.any fun r => r / 16 == i) && !(old.any fun r => r / 16 == i)

/-- The core after SEGSET: the register written, the tiles taken EMPTY, and the rows given up released. -/
def Core.resegment (x : Core) (k : SegKind) (slot : Nat) (q : Group) (v : DWord) : Core :=
  ((q.segHeld k).filter fun r => decide (r ∉ rowsOf k v)).foldl Core.releaseRow
    { x with
      groups := tabSet x.groups slot (q.withSeg (segOf v) k)
      tagV := x.tagV.filter fun i => !takesTile (rowsOf k v) (q.segHeld k) i
      tagNC := x.tagNC.filter fun i => !takesTile (rowsOf k v) (q.segHeld k) i }

section
variable {x : Core} {k : SegKind} (slot : Nat) {q : Group} {v : DWord}

theorem Core.segset_malformed (bad : x.segOk k v = false) : x.segset k slot q v = (1, x) := by
  rw [Core.segset, bad]; rfl

variable (ok : x.segOk k v = true)
include ok

theorem Core.segset_issuing (live : q.trap = false) : x.segset k slot q v = (2, x) := by
  rw [Core.segset, ok, live]; rfl

variable (held : q.trap = true)
include held

theorem Core.segset_taken (taken : ∃ r ∈ rowsOf k v, x.rowFree r = false ∧ r ∉ q.segHeld k) :
    x.segset k slot q v = (3, x) := by
  have some_ : ((rowsOf k v).any fun r => !x.rowFree r && !(q.segHeld k).contains r) = true := by simpa using taken
  rw [Core.segset, ok, held]
  exact if_pos some_

theorem Core.segset_fits (fits : ∀ r ∈ rowsOf k v, x.rowFree r = true ∨ r ∈ q.segHeld k) :
    x.segset k slot q v = (0, x.resegment k slot q v) := by
  have none_ : ((rowsOf k v).any fun r => !x.rowFree r && !(q.segHeld k).contains r) = false := by
    simpa [or_iff_not_imp_left] using fits
  have tiles : (fun t => ((rowsOf k v).any fun r => rowTile r == t) && !((q.segHeld k).map rowTile).contains t) =
      takesTile (rowsOf k v) (q.segHeld k) := by
    funext t
    simp only [takesTile, rowTile, List.contains_eq_any_beq, List.any_map, Function.comp_def, Bool.beq_comm]
  have given : ((q.segHeld k).filter fun r => !(rowsOf k v).contains r) =
      (q.segHeld k).filter fun r => decide (r ∉ rowsOf k v) := by simp
  have trapped : (!q.trap) = false := by rw [held]; rfl
  rw [Core.segset, ok, trapped]
  refine (if_neg (Bool.eq_false_iff.mp none_)).trans ?_
  simp only [Core.resegment, ← tiles, ← given]
  cases k <;> rfl

end

/-- What is due to a group's rows: a write of an operation in flight, or a matrix operation that is queued (R159). -/
theorem Group.writesDue_iff {g : Group} : g.writesDue = true ↔
    (∃ f ∈ g.flight, ∃ p ∈ g.pend, p.id = f.id) ∨ ∃ l ∈ g.streams, l ≠ [] := by
  simp [Group.writesDue]

/-! ## SEGSET (R176) -/

/-- SEGSET's status and the core it leaves: 1 without a group in the slot. -/
def State.segTry (s : State) (k : SegKind) (n : Nat) (v : DWord) : Nat × Core :=
  match s.slotGroup s.cur.core n with
  | none => (1, s.core s.cur.core)
  | some q => (s.core s.cur.core).segset k n q v

section
variable {s : State} {p : Pred} {g : Group} {t : LaneMask} {lo : Nat} (h : Turn s p g t lo) (fw : g.fw = true)
  {k : SegKind} {d a b : Reg} (ready : Ready g [a.toNat, a.toNat + 1, b.toNat, d.toNat]) {v : DWord}
  (hv : pairUp (g.reg (s.core s.cur.core) a.toNat lo) (g.reg (s.core s.cur.core) (a.toNat + 1) lo) = v)
  {n : Nat} (hn : (g.reg (s.core s.cur.core) b.toNat lo).toNat = n)
include h fw ready hv hn

theorem segset_asks : exec (.segset p k d a b) s = run s (do
    waitIf ((s.segTry k n v).1 == 0 && (s.slotGroup s.cur.core n).any Group.writesDue)
    .ok ((if (s.segTry k n v).1 = 0 then s.setCore s.cur.core (s.segTry k n v).2 else s).putAll t d.toNat
      (BitVec.ofNat 32 (s.segTry k n v).1)).next) := by
  subst hv hn
  exact priv_ready h fw ready _

/-- An answer but 0 leaves all else as it was. -/
theorem segset_refuses {code : Nat} {x : Core} (status : s.segTry k n v = (code, x)) (bad : code ≠ 0) :
    answers s t d (.segset p k d a b) code s := by
  rw [answers, segset_asks h fw ready hv hn, status, beq_false_of_ne bad, if_neg bad]
  rfl

theorem segset_vacant (vacant : s.slotGroup s.cur.core n = none) : answers s t d (.segset p k d a b) 1 s :=
  segset_refuses h fw ready hv hn (by rw [State.segTry, vacant]) (by decide)

variable {q : Group} (found : s.slotGroup s.cur.core n = some q)
include found

theorem segset_found_refuses {code : Nat} {x : Core} (status : (s.core s.cur.core).segset k n q v = (code, x))
    (bad : code ≠ 0) : answers s t d (.segset p k d a b) code s :=
  segset_refuses h fw ready hv hn (by rw [State.segTry, found]; exact status) bad

variable {x : Core} (status : (s.core s.cur.core).segset k n q v = (0, x))
include status

theorem segset_waits (due : q.writesDue = true) : exec (.segset p k d a b) s = .next s := by
  have tried : s.segTry k n v = (0, x) := by rw [State.segTry, found]; exact status
  rw [segset_asks h fw ready hv hn, tried, found, Option.any_some, due]
  rfl

theorem segset_sets (idle : q.writesDue = false) :
    answers s t d (.segset p k d a b) 0 (s.setCore s.cur.core x) := by
  have tried : s.segTry k n v = (0, x) := by rw [State.segTry, found]; exact status
  rw [answers, segset_asks h fw ready hv hn, tried, found, Option.any_some, idle]
  rfl

end

end Sys2Proof.Machine

namespace Sys2Proof.Slice0
open Sys2Proof.Machine

theorem swrite_completes : swriteCompletes := by
  intro s g t lo p a b h fw scribe x v k
  refine ⟨fun ready => ⟨swrite_core h fw 0x0D ready, swrite_core h fw 0x16 ready⟩, fun ready => ⟨fun q found => ?_, ?_⟩⟩
  · exact ⟨swrite_group h fw 0x13 ready scribe rfl found, swrite_group h fw 0x15 ready scribe rfl found⟩
  · exact fun vacant n => swrite_vacant h fw n ready scribe rfl vacant

/-- SEGSET's checks come in the order of its answers; what is due is asked last. -/
theorem segset_completes : segsetCompletes := by
  intro s g t lo p k d a b h fw scribe ready x v n answer
  refine ⟨?one, fun q low found ok => ?_⟩
  case one =>
    intro bad
    rcases Nat.lt_or_ge n 64 with low | high
    · have slot := s.slotGroup_low scribe low
      cases found : s.group s.cur.core n with
      | none => exact segset_vacant h fw ready rfl rfl (slot.trans found)
      | some q =>
        have malformed := (bad.resolve_left (Nat.not_le.mpr low)).resolve_left (by rw [found]; exact Option.some_ne_none q)
        exact segset_found_refuses h fw ready rfl rfl (slot.trans found) (Core.segset_malformed n malformed) (by decide)
    · exact segset_vacant h fw ready rfl rfl (s.slotGroup_high _ high)
  have there := (s.slotGroup_low scribe low).trans found
  refine ⟨fun live => segset_found_refuses h fw ready rfl rfl there (Core.segset_issuing n ok live) (by decide),
    fun held => ?_⟩
  intro base size new old
  have rows : old = q.segHeld k := by cases k <;> rfl
  refine ⟨fun taken => ?three, fun fits due => ?waits, fun fits idle => ?zero⟩
  case three =>
    rw [rows] at taken
    exact segset_found_refuses h fw ready rfl rfl there (Core.segset_taken n ok held taken) (by decide)
  case waits =>
    rw [rows] at fits
    exact segset_waits h fw ready rfl rfl there (Core.segset_fits n ok held fits) (Group.writesDue_iff.mpr due)
  case zero =>
    rw [rows] at fits
    have sets := segset_sets h fw ready rfl rfl there (Core.segset_fits n ok held fits)
      (Bool.eq_false_iff.mpr fun due => idle (Group.writesDue_iff.mp due))
    cases k <;> exact sets

/-- Settles O17: a write of SWRITE goes to the core or the group named, and SEGSET gives the first answer whose check
holds. -/
theorem firmwareRegisters : Obligations.FirmwareRegisters := ⟨swrite_completes, segset_completes⟩

end Sys2Proof.Slice0
end

section
/-! SUPPORT. VIEW and RCOPY (R39, R166, R175, R177): what each asks before it acts, and the two events of a copy. -/

namespace Sys2Proof.Machine
open Sys2Proof.Slice0

/-! ## VIEW (R175) -/

/-- The registers of VIEW's operand. -/
def viewRegs : ViewSrc → List Nat
  | .reg a => [a.toNat]
  | .imm _ => []

/-- The offset that VIEW names for a group whose lowest lane taking part is `lo`. -/
def viewOffset (g : Group) (x : Core) (lo : Nat) : ViewSrc → Nat
  | .imm i => 64 * i.toNat
  | .reg a => (g.reg x a.toNat lo).toNat % 2 ^ 22

section
variable {s : State} {p : Pred} {g : Group} {t : LaneMask} {lo : Nat} (h : Turn s p g t lo) (k : ViewKind) {o : ViewSrc}
  (ready : Ready g (viewRegs o)) {v : Nat} (names : viewOffset g (s.core s.cur.core) lo o = v)
include h ready names

/-- The offset's alignment is asked before the writes through the vector view. -/
theorem view_asks : exec (.view p k o) s = run s (do
    trapIf (v % viewAlign k g.width != 0) .misaligned lo
    waitIf (!g.pend.isEmpty)
    .ok ((s.updGroup s.cur.core s.cur.slot fun q =>
      { q with views := q.views.set k (BitVec.ofNat 32 v) }).next.close false)) := by
  subst names
  cases o <;> exact (scope_ready h ready _).trans rfl

theorem view_misaligned (off : v % viewAlign k g.width ≠ 0) :
    exec (.view p k o) s = .next (s.takeTrap ⟨.misaligned, lo, 0, 0⟩) := by
  rw [view_asks h k ready names, bne_iff_ne.mpr off]
  rfl

theorem view_writes (on : v % viewAlign k g.width = 0) (quiet : g.pend = []) :
    exec (.view p k o) s = .next ((s.setGroup s.cur.core s.cur.slot
      { g with views := g.views.set k (BitVec.ofNat 32 v) }).next.close false) := by
  rw [view_asks h k ready names, on, List.isEmpty_iff.mpr quiet, State.updGroup_some _ _ _ _ h.group]
  rfl

end

/-! ## RCOPY (R39, R177) -/

/-- The rows a copy writes: its source's bytes as they stand (R177). -/
def copyRows (g : Group) (x : Core) (src dst n : Nat) : List RowWrite :=
  rowWrites dst n fun i => BitVec.ofNat 1024 (g.winNat x (src + 128 * i) 128)

section
variable {s : State} {p : Pred} {g : Group} {t : LaneMask} {lo : Nat} (h : Turn s p g t lo) {a b : Reg}
  (ready : Ready g [a.toNat, b.toNat]) (room : g.cnt.tl < 31) (rows : BitVec 12) {src dst n : Nat}
  (hsrc : (g.reg (s.core s.cur.core) a.toNat lo).toNat = src) (hdst : (g.reg (s.core s.cur.core) b.toNat lo).toNat = dst)
  (hn : rows.toNat + 1 = n)
include h ready room hsrc hdst hn

/-- The starts are asked first, then the window, then the writes still to be made. -/
theorem rcopy_asks : exec (.rcopy p a b rows) s = run s (do
    trapIf (src % 128 != 0 || dst % 128 != 0) .misaligned lo
    trapIf (!(g.inWindow src (128 * n) && g.inWindow dst (128 * n))) .regBounds lo
    waitIf (g.writesTo [(src, src + 128 * n), (dst, dst + 128 * n)] || (List.range n).any fun i =>
      !(g.rowQuiet (s.core s.cur.core) (src + 128 * i) && g.rowQuiet (s.core s.cur.core) (dst + 128 * i)))
    .ok (s.queueCopy (copyRows g (s.core s.cur.core) src dst n) lo).next) := by
  subst hsrc hdst hn
  refine (scope_ready h ready _).trans ?_
  rw [waitClass_free (k := .tl) room]
  rfl

theorem rcopy_misaligned (off : src % 128 ≠ 0 ∨ dst % 128 ≠ 0) :
    exec (.rcopy p a b rows) s = .next (s.takeTrap ⟨.misaligned, lo, 0, 0⟩) := by
  have bad : (src % 128 != 0 || dst % 128 != 0) = true := by simpa using off
  rw [rcopy_asks h ready room rows hsrc hdst hn, bad]
  rfl

section
variable (hs : src % 128 = 0) (hd : dst % 128 = 0)
include hs hd

theorem rcopy_outside (out : (g.inWindow src (128 * n) && g.inWindow dst (128 * n)) = false) :
    exec (.rcopy p a b rows) s = .next (s.takeTrap ⟨.regBounds, lo, 0, 0⟩) := by
  rw [rcopy_asks h ready room rows hsrc hdst hn, hs, hd, out]
  rfl

theorem rcopy_issues (inside : g.inWindow src (128 * n) = true ∧ g.inWindow dst (128 * n) = true)
    (still : g.writesTo [(src, src + 128 * n), (dst, dst + 128 * n)] = false)
    (quiet : ∀ i < n, g.rowQuiet (s.core s.cur.core) (src + 128 * i) = true ∧
      g.rowQuiet (s.core s.cur.core) (dst + 128 * i) = true) :
    exec (.rcopy p a b rows) s = .next (s.queueCopy (copyRows g (s.core s.cur.core) src dst n) lo).next := by
  have noRow : ((List.range n).any fun i =>
      !(g.rowQuiet (s.core s.cur.core) (src + 128 * i) && g.rowQuiet (s.core s.cur.core) (dst + 128 * i))) = false := by
    simpa using quiet
  rw [rcopy_asks h ready room rows hsrc hdst hn, hs, hd, inside.1, inside.2, still, noRow]
  rfl

end

end

/-- The event of an operation half done on `copyStream`: no other operation comes first, and a stopped team's is not
held back (R39, R271). -/
theorem copy_ends {u : State} {c k : Nat} {q : Group} {o : MOp} {l : List MOp} {ws : List RowWrite}
    (hq : u.group c k = some q) (head : q.streams[copyStream]? = some (o :: l)) (half : o.kind = .rest ws [] none) :
    exec (.matrixStep c k copyStream) u =
      .next ((((u.writeRows c k ws fun _ => BitVec.allOnes 128).cleanRows c k ws).updGroup c k fun q =>
        q.popOp copyStream true).settleCluster c) := by
  have first : q.outranked copyStream o = false := by simp [Group.outranked]
  have may : q.mayStep o (o :: l) = true := by simp [Group.mayStep, MOp.begun, half]
  have acts : exec (.matrixStep c k copyStream) u = .next (u.endRows c k copyStream ws [] none) := by
    simp only [exec, execMatrixStep, hq, head, first, may, half, Option.getD_some, Bool.not_true, Bool.and_false,
      Bool.or_self, Bool.false_eq_true, if_false]
  rw [acts, State.endRows, State.endOp, State.updGroup_updGroup]
  rfl

end Sys2Proof.Machine

namespace Sys2Proof.Slice0
open Sys2Proof.Machine

theorem view_completes : viewCompletes := by
  intro s g t lo p k o x v align h ready
  have regs : Ready g (viewRegs o) := by cases o <;> exact ready
  have names : viewOffset g x lo o = v := by cases o <;> rfl
  have writes := view_writes h k regs names
  have off := view_misaligned h k regs names
  cases k <;> exact ⟨writes, off⟩

theorem rcopy_completes : rcopyCompletes := by
  constructor
  · intro s g t lo p a b rows h ready room x src dst n
    exact ⟨rcopy_misaligned h ready room rows rfl rfl rfl, rcopy_outside h ready room rows rfl rfl rfl,
      fun hs hd inSrc inDst => rcopy_issues h ready room rows rfl rfl rfl hs hd ⟨inSrc, inDst⟩⟩
  · intro u c k q o l ws
    exact copy_ends

/-- Settles O18: an operand that is asked for and found good is acted on, and a copy's second event writes what its
first has left. -/
theorem windowForms : Obligations.WindowForms := ⟨view_completes, rcopy_completes⟩

end Sys2Proof.Slice0
end

section
/-! SUPPORT. Stores of global memory (R184, R185, R187, R302): what an attempt comes to whose checks pass, and what a
store into copies that L1 holds leaves alone. -/

namespace Sys2Proof.Machine
open Sys2Proof.Slice0

/-! ## The caches after the checks (R74, R77) -/

theorem State.extentsMet_eq (s : State) (core ctx : Nat) (l : List (Elem × Desc)) :
    ∃ k, s.extentsMet core ctx l = { s with clusters := k } := by
  rw [State.extentsMet]
  induction l generalizing s with
  | nil => exact ⟨s.clusters, rfl⟩
  | cons h l ih =>
    have one : ∃ k, s.extentMet (clusterOf core) ctx h.2 h.1.ptr = { s with clusters := k } := by
      rw [State.extentMet, State.extentFill]
      split
      · exact ⟨s.clusters, rfl⟩
      · exact ⟨_, rfl⟩
    obtain ⟨k, one⟩ := one
    rw [List.foldl_cons, one]
    exact ih _

/-- The checks of an access change its core's descriptor cache and the extent caches alone. -/
theorem State.checkGlb_eq (s : State) (core ctx n : Nat) (need : Need) (ks : List Cand) :
    ∃ k d, (s.checkGlb core ctx n need ks).2 = State.setDesc { s with clusters := k } core d := by
  rw [State.checkGlb]
  generalize s.admitHits core ctx n need (s.core core).desc ks = r
  obtain ⟨l | l, d⟩ := r
  · exact ⟨s.clusters, d, rfl⟩
  · obtain ⟨k, met⟩ := State.extentsMet_eq (s.setDesc core d) core ctx l
    exact ⟨k, d, met⟩

/-- A core whose descriptor cache has been written stands in the table as it is read. -/
theorem State.setDesc_setCore (s : State) (core : Nat) (d : DCache) :
    (s.setDesc core d).setCore core ((s.setDesc core d).core core) = s.setDesc core d := by
  rw [State.setDesc, State.core_updCore_self, State.updCore, State.setCore_setCore]

/-! ## Copies in L1 -/

theorem Core.copy_line {x : Core} {line : Nat} {q : L1Line} (h : x.copy line = some q) : q.line = line :=
  beq_iff_eq.mp (List.find?_some (p := fun c : L1Line => c.line == line) h)

/-- A change of one line's copy that keeps its line is a change of what stands under that line. -/
theorem Core.copy_updCopy (x : Core) (line l : Nat) {f : L1Line → L1Line} (keeps : ∀ c, (f c).line = c.line) :
    (x.updCopy line f).copy l = (x.copy l).map fun c => if c.line == line then f c else c := by
  rw [Core.copy, Core.updCopy, List.find?_map]
  refine congrArg _ (congrArg (fun p => x.l1.find? p) (funext fun c => ?_))
  rw [Function.comp_apply]
  split
  · rw [keeps]
  · rfl

/-- A copy takes the bytes of a store, which are dirty (R184). -/
def L1Line.put (c : L1Line) (data : Line) (m : LineMask) : L1Line :=
  { c with data := blend c.data data m, valid := c.valid ||| m, dirty := c.dirty ||| m, poison := clearWhole m c.poison }

theorem Core.copy_put (x : Core) (line l : Nat) (data : Line) (m : LineMask) :
    (x.updCopy line fun c => c.put data m).copy l = (x.copy l).map fun c => if c.line == line then c.put data m else c :=
  x.copy_updCopy line l fun _ => rfl

/-- The core's copies with the bytes of `es`, accesses of `n` bytes, that fall into the lines `ls`. -/
def Core.putLines (x : Core) (n : Nat) (es : List Elem) (ls : List Nat) : Core :=
  ls.foldl (fun x l => x.updCopy l fun c => c.put (lineOf n l es).1 (lineOf n l es).2) x

/-- A line that L1 holds takes the bytes of a store. -/
theorem State.storeL1_held {s : State} {core line : Nat} (h : ((s.core core).copy line).isSome = true) (data : Line)
    (m : LineMask) (host : Bool) :
    s.storeL1 core line data m host = (true, s.updCore core fun x => x.updCopy line fun c => c.put data m) := by
  obtain ⟨q, hq⟩ := Option.isSome_iff_exists.mp h
  rw [State.storeL1, hq]
  rfl

/-- Lines that L1 holds take their bytes, line after line. -/
theorem State.storeLines_held (s : State) (core n : Nat) (hs : List Hit) (ls : List Nat) (x : Core)
    (held : ∀ l ∈ ls, (x.copy l).isSome = true) :
    (s.setCore core x).storeLines core n hs ls = .ok (s.setCore core (x.putLines n (hs.map Hit.e) ls)) := by
  induction ls generalizing x with
  | nil => rfl
  | cons l ls ih =>
    have here : (((s.setCore core x).core core).copy l).isSome = true := by
      rw [State.core_setCore_self]
      exact held l List.mem_cons_self
    rw [State.storeLines, State.storeL1_held here]
    dsimp only
    rw [State.updCore, State.core_setCore_self, State.setCore_setCore, ih]
    · rfl
    · intro k hk
      rw [Core.copy_put, Option.isSome_map]
      exact held k (List.mem_cons_of_mem l hk)

/-! ## The attempt -/

/-- Once the checks have passed and the conflict detector allows the accesses, a store is made. -/
theorem State.tryGlb_stores {s s1 s2 : State} {a : Actor} {g : Group} {ks : List Cand} {r : MemReq} {hs : List Hit}
    (own : scribesOwn a.core g.fw ks = false)
    (passed : s.checkGlb a.core g.ctx r.size.bytes needStore ks = (.ok (hs, none), s1))
    (free : g.behindLog a.id r.size.bytes (hs.map Hit.e) = false) (seen : Recorded a g true r.size.bytes hs s1 s2) :
    s.tryGlb a g r true ks =
      (s1.storeGlb a g.ctx r hs).map fun u => u.redetGlb a.core g true r.size.bytes (hs.map Hit.e) := by
  have recorded : (if g.det then s1.detGlb a.core g.sigName true r.size.bytes (hs.map Hit.e) else .ok s1) = .ok s2 := by
    cases det : g.det with
    | false => rw [seen.1 det]; rfl
    | true => exact seen.2 det
  simp only [State.tryGlb, own, passed, free, recorded, Bool.false_eq_true, if_false, if_true]

/-- An access to bytes of a logged operation waits for that one's replay (R81). -/
theorem State.tryGlb_behind {s s1 : State} {a : Actor} {g : Group} {ks : List Cand} {r : MemReq} {hs : List Hit}
    (own : scribesOwn a.core g.fw ks = false)
    (passed : s.checkGlb a.core g.ctx r.size.bytes needStore ks = (.ok (hs, none), s1))
    (behind : g.behindLog a.id r.size.bytes (hs.map Hit.e) = true) : s.tryGlb a g r true ks = .wait := by
  simp only [State.tryGlb, own, passed, behind, Bool.false_eq_true, if_false, if_true]

section
variable {s : State} {a : Actor} {ctx : Nat} {r : MemReq} {hs : List Hit}

/-- Non-temporal stores leave for home (R185). -/
theorem State.storeGlb_nt (nt : r.nt = true) :
    s.storeGlb a ctx r hs = .done ((dedup (hs.map Hit.line)).foldl (fun s l =>
      s.storeNtTo (hs.any fun h => h.line == l && extBias h.ext) a.core ctx l (lineOf r.size.bytes l (hs.map Hit.e)).1
        (lineOf r.size.bytes l (hs.map Hit.e)).2) s) := by
  simp only [State.storeGlb, nt, if_true]

variable (nt : r.nt = false)
include nt

/-- Every line has its place in L1. -/
theorem State.storeGlb_places {u : State}
    (placed : s.storeLines a.core r.size.bytes hs (dedup (hs.map Hit.line)) = .ok u) :
    s.storeGlb a ctx r hs = .done u := by
  simp only [State.storeGlb, nt, placed, Bool.false_eq_true, if_false]

variable {l : Nat} (full : s.storeLines a.core r.size.bytes hs (dedup (hs.map Hit.line)) = .error l)
include full

/-- A line that finds no way takes the core to its capacity point (R302). -/
theorem State.storeGlb_capacity (can : s.canPublish a.core = true) :
    s.storeGlb a ctx r hs = .gone (s.capacity a.core (lineSet8 l)) := by
  simp only [State.storeGlb, nt, full, can, Bool.false_eq_true, if_false, if_true]

theorem State.storeGlb_waits (can : s.canPublish a.core = false) : s.storeGlb a ctx r hs = .wait := by
  simp only [State.storeGlb, nt, full, can, Bool.false_eq_true, if_false]

end

/-- After its checks a store whose lines L1 holds changes their copies alone. -/
theorem State.checkGlb_storeLines {s s1 : State} {core ctx n : Nat} {need : Need} {ks : List Cand} {hs : List Hit}
    {met : Except TrapInfo (List Hit × Option (Nat × Nat))} {ls : List Nat}
    (passed : s.checkGlb core ctx n need ks = (met, s1)) (held : ∀ l ∈ ls, ((s1.core core).copy l).isSome = true) :
    s1.storeLines core n hs ls = .ok (s1.setCore core ((s1.core core).putLines n (hs.map Hit.e) ls)) := by
  obtain ⟨k, d, caches⟩ := s.checkGlb_eq core ctx n need ks
  have after : s1 = State.setDesc { s with clusters := k } core d := by rw [← caches, passed]
  have listed : s1.setCore core (s1.core core) = s1 := by rw [after, State.setDesc_setCore]
  have stored := State.storeLines_held s1 core n hs ls (s1.core core) held
  rwa [listed] at stored

end Sys2Proof.Machine

namespace Sys2Proof.Slice0
open Sys2Proof.Machine

/-- A store that is ready and whose checks pass is made: non-temporal by messages, else in L1, where a line that finds
no way is all that holds it up. -/
theorem global_store_completes : globalStoreCompletes := by
  intro i f s s1 s2 g t lo hs hf h glb store own stall passed free seen n lines put host ends
  have tried : exec i s = run s (s.settleTry g (flightOf s g f (ptrElems f.cands)) f.dests false
      ((s1.storeGlb (s.actor g) g.ctx f.req hs).map fun u => u.redetGlb s.cur.core g true n (hs.map Hit.e))) := by
    rw [glb_exec hf h glb, store, State.tryGlb_stores own passed free seen]
    rfl
  have stored : ∀ u, s1.storeGlb (s.actor g) g.ctx f.req hs = .done u → ends u := by
    intro u made
    refine tried.trans ?_
    rw [made]
    exact settle_done stall _ _ _ _
  refine ⟨fun nt => stored _ (State.storeGlb_nt nt), fun nt => ⟨fun u placed => ?_, fun l full => ⟨fun can => ?_, fun can => ?_⟩,
    fun held => ?_⟩⟩
  · exact stored u (State.storeGlb_places nt placed)
  · rw [tried, State.storeGlb_capacity nt full can]
    exact settle_gone stall _ _ _ _
  · rw [tried, State.storeGlb_waits nt full can]
    exact settle_wait stall _ _ _
  · exact stored _ (State.storeGlb_places nt (State.checkGlb_storeLines passed held))

end Sys2Proof.Slice0

namespace Sys2Proof.Machine
open Sys2Proof.Slice0

/-! ## What a store into held copies leaves alone (R184, R187) -/

/-- From `s` to `t` device memory, the directory, the contexts and teams, the other cores, the other groups of core `c`
than the one in slot `k`, the rows of its Well, and the bytes of its copies but for those that `p` names by line and
place stand as they were. -/
structure StoreKept (c k : Nat) (p : Nat → Nat → Prop) (s t : State) : Prop where
  cur : t.cur = s.cur
  mem : t.mem = s.mem
  ctxs : t.ctxs = s.ctxs
  teams : t.teams = s.teams
  dir : t.dir = s.dir
  cores : ∀ j, j ≠ c → t.core j = s.core j
  groups : ∀ j, j ≠ k → t.group c j = s.group c j
  rows : ∀ key, (t.core c).row key = (s.core c).row key
  copies : ∀ l q, (s.core c).copy l = some q → ∃ q', (t.core c).copy l = some q' ∧
    ∀ b, b < 128 → ¬ p l b → lineByte q'.data b = lineByte q.data b

namespace StoreKept

variable {c k : Nat} {p : Nat → Nat → Prop} {s t u : State}

/-- No core has changed. -/
theorem elsewhere (cur : t.cur = s.cur) (mem : t.mem = s.mem) (ctxs : t.ctxs = s.ctxs) (teams : t.teams = s.teams)
    (dir : t.dir = s.dir) (cores : t.cores = s.cores) : StoreKept c k p s t := by
  have core : ∀ j, t.core j = s.core j := fun j => congrArg (tabGet Core.init · j) cores
  refine ⟨cur, mem, ctxs, teams, dir, fun j _ => core j, fun j _ => ?_, fun key => by rw [core], fun l q h => ?_⟩
  · rw [State.group, State.group, core]
  · exact ⟨q, by rwa [core], fun _ _ _ => rfl⟩

theorem refl (s : State) : StoreKept c k p s s := elsewhere rfl rfl rfl rfl rfl rfl

theorem trans (a : StoreKept c k p s t) (b : StoreKept c k p t u) : StoreKept c k p s u where
  cur := b.cur.trans a.cur
  mem := b.mem.trans a.mem
  ctxs := b.ctxs.trans a.ctxs
  teams := b.teams.trans a.teams
  dir := b.dir.trans a.dir
  cores j other := (b.cores j other).trans (a.cores j other)
  groups j other := (b.groups j other).trans (a.groups j other)
  rows key := (b.rows key).trans (a.rows key)
  copies l q h := by
    obtain ⟨q1, h1, same1⟩ := a.copies l q h
    obtain ⟨q2, h2, same2⟩ := b.copies l q1 h1
    exact ⟨q2, h2, fun i hi out => (same2 i hi out).trans (same1 i hi out)⟩

/-- A change of core `c` that keeps what the relation asks of it. -/
theorem setCore {x : Core} (groups : ∀ j, j ≠ k → tabFind x.groups j = tabFind (s.core c).groups j)
    (rows : ∀ key, x.row key = (s.core c).row key)
    (copies : ∀ l q, (s.core c).copy l = some q → ∃ q', x.copy l = some q' ∧
      ∀ b, b < 128 → ¬ p l b → lineByte q'.data b = lineByte q.data b) : StoreKept c k p s (s.setCore c x) where
  cur := rfl
  mem := rfl
  ctxs := rfl
  teams := rfl
  dir := rfl
  cores _ other := s.core_setCore_ne x other
  groups j other := by rw [State.group, State.core_setCore_self]; exact groups j other
  rows key := by rw [State.core_setCore_self]; exact rows key
  copies l q h := by rw [State.core_setCore_self]; exact copies l q h

theorem updGroup (s : State) (f : Group → Group) : StoreKept c k p s (s.updGroup c k f) := by
  rw [State.updGroup]
  split
  · exact setCore (fun _ other => tabFind_tabSet_ne _ _ other) (fun _ => rfl) fun _ q h => ⟨q, h, fun _ _ _ => rfl⟩
  · exact refl s

theorem checkGlb (s : State) (ctx n : Nat) (need : Need) (ks : List Cand) :
    StoreKept c k p s (s.checkGlb c ctx n need ks).2 := by
  obtain ⟨j, d, caches⟩ := s.checkGlb_eq c ctx n need ks
  rw [caches]
  have extents : StoreKept c k p s { s with clusters := j } := elsewhere rfl rfl rfl rfl rfl rfl
  exact extents.trans (setCore (fun _ _ => rfl) (fun _ => rfl) fun _ q h => ⟨q, h, fun _ _ _ => rfl⟩)

theorem fault (s : State) (r : FaultRec) : StoreKept c k p s (s.fault r) := by
  rw [State.fault]
  split
  · exact refl s
  · exact elsewhere rfl rfl rfl rfl rfl rfl

end StoreKept

section
variable {s : State} {p : Nat → Nat → Prop}

/-- Past the instruction. -/
theorem StoreKept.next {t : State} (h : StoreKept s.cur.core s.cur.slot p s t) :
    StoreKept s.cur.core s.cur.slot p s t.next := by
  have step : StoreKept t.cur.core t.cur.slot p t t.next := .updGroup t _
  rw [h.cur] at step
  exact h.trans step

/-- An operation that enters the operand log. -/
theorem State.enterLog_storeKept (s : State) (g : Group) (f : Flight) (dests : List Nat) (on ext : Nat) (here : Bool) :
    StoreKept s.cur.core s.cur.slot p s (s.enterLog g f dests on ext false here) := by
  let e : LogEntry := { op := { f with logged := true }, st := if here then .ready else .waiting on ext }
  have entered : StoreKept s.cur.core s.cur.slot p s
      (s.updGroup s.cur.core s.cur.slot fun g => { g.track f.id f.cls dests with log := g.log ++ [e] }) := .updGroup s _
  cases here with
  | true => exact entered.next
  | false => exact entered.next.trans (.fault _ _)

/-- A group that R79 has stalled at its store. -/
theorem State.unstall_storeKept {g : Group} {f : Flight} {dests : List Nat} {on ext : Nat} {u : State}
    (ran : run s (s.unstall g f dests on ext false) = .next u) : StoreKept s.cur.core s.cur.slot p s u := by
  rw [State.unstall] at ran
  split at ran
  · cases ran
    exact .updGroup s _
  · cases ran
    exact s.enterLog_storeKept ..

end

/-! ## The bytes of the copies stored to -/

/-- Accesses laid into a line mask only bytes that one of them covers. -/
theorem lineOf_mask {n l : Nat} {es : List Elem} {b : Nat} (hb : b < 128)
    (out : ∀ e ∈ es, ¬ (e.pa ≤ 128 * l + b ∧ 128 * l + b < e.pa + n)) : (lineOf n l es).2.getLsbD b = false := by
  refine List.foldlRecOn (motive := fun acc : Line × LineMask => acc.2.getLsbD b = false) es _ BitVec.getLsbD_zero ?_
  intro acc clear e he
  split
  next here =>
    have beyond : ¬ (e.pa % 128 ≤ b ∧ b < e.pa % 128 + n) := by have := out e he; omega
    rw [BitVec.getLsbD_or, clear, getLsbD_maskOf _ _ _ hb, decide_eq_false beyond]
    rfl
  · exact clear

theorem L1Line.put_byte (c : L1Line) (data : Line) {m : LineMask} {b : Nat} (hb : b < 128) (out : m.getLsbD b = false) :
    lineByte (c.put data m).data b = lineByte c.data b := by
  rw [L1Line.put, lineByte_blend _ _ _ _ hb, out]
  rfl

/-- A store into copies keeps every byte that none of its accesses covers. -/
theorem Core.putLines_copy {n : Nat} {es : List Elem} {ls : List Nat} {x : Core} {l : Nat} {q : L1Line}
    (h : x.copy l = some q) : ∃ q', (x.putLines n es ls).copy l = some q' ∧ ∀ b, b < 128 →
      (∀ e ∈ es, ¬ (e.pa ≤ 128 * l + b ∧ 128 * l + b < e.pa + n)) → lineByte q'.data b = lineByte q.data b := by
  induction ls generalizing x q with
  | nil => exact ⟨q, h, fun _ _ _ => rfl⟩
  | cons j ls ih =>
    let m := lineOf n j es
    obtain ⟨q', hq', same⟩ := ih (x := x.updCopy j fun c => c.put m.1 m.2) (by rw [Core.copy_put, h]; rfl)
    refine ⟨q', hq', fun b hb out => (same b hb out).trans ?_⟩
    dsimp only
    split
    next here =>
      have jl : j = l := (beq_iff_eq.mp here).symm.trans (Core.copy_line h)
      subst jl
      exact q.put_byte m.1 hb (lineOf_mask hb out)
    · rfl

theorem Core.putLines_groups (x : Core) (n : Nat) (es : List Elem) (ls : List Nat) :
    (x.putLines n es ls).groups = x.groups := by
  induction ls generalizing x with
  | nil => rfl
  | cons l ls ih => exact ih _

theorem Core.putLines_row (x : Core) (n : Nat) (es : List Elem) (ls : List Nat) (key : Nat) :
    (x.putLines n es ls).row key = x.row key := by
  induction ls generalizing x with
  | nil => rfl
  | cons l ls ih => exact ih _

/-- A store into copies, of accesses that `p` allows. -/
theorem StoreKept.putLines {c k : Nat} {p : Nat → Nat → Prop} (s : State) {n : Nat} {es : List Elem} (ls : List Nat)
    (allowed : ∀ l b, ¬ p l b → ∀ e ∈ es, ¬ (e.pa ≤ 128 * l + b ∧ 128 * l + b < e.pa + n)) :
    StoreKept c k p s (s.setCore c ((s.core c).putLines n es ls)) := by
  refine .setCore (fun j _ => by rw [Core.putLines_groups]) (fun key => Core.putLines_row _ n es ls key) fun l q h => ?_
  obtain ⟨q', hq', same⟩ := Core.putLines_copy (n := n) (es := es) (ls := ls) h
  exact ⟨q', hq', fun b hb out => same b hb (allowed l b out)⟩

theorem State.redetGlb_off {g : Group} (det : g.det = false) (s : State) (core : Nat) (store : Bool) (n : Nat)
    (es : List Elem) : s.redetGlb core g store n es = s := by
  rw [State.redetGlb, det]
  rfl

theorem mem_dedup {l : List Nat} {x : Nat} (h : x ∈ dedup l) : x ∈ l := by
  induction l with
  | nil => exact h
  | cons y r ih =>
    rcases List.mem_cons.mp h with rfl | h
    · exact List.mem_cons_self
    · exact List.mem_cons_of_mem y (ih (List.mem_filter.mp h).1)

/-- An access of `n` bytes among `hs` covers byte `b` of line `l`. -/
def hitsCover (hs : List Hit) (n l b : Nat) : Prop := ∃ h ∈ hs, h.e.pa ≤ 128 * l + b ∧ 128 * l + b < h.e.pa + n

/-- A store that has passed its checks and whose lines L1 holds finds its places, and changes the bytes it covers. -/
theorem State.storeLines_storeKept {s s1 : State} {c k ctx n : Nat} {need : Need} {ks : List Cand} {hs : List Hit}
    {met : Except TrapInfo (List Hit × Option (Nat × Nat))} (passed : s.checkGlb c ctx n need ks = (met, s1))
    (held : ∀ h ∈ hs, ((s.core c).copy h.line).isSome = true) :
    ∃ u, s1.storeLines c n hs (dedup (hs.map Hit.line)) = .ok u ∧ StoreKept c k (hitsCover hs n) s u := by
  have checked : StoreKept c k (hitsCover hs n) s s1 := by
    have caches := StoreKept.checkGlb (c := c) (k := k) (p := hitsCover hs n) s ctx n need ks
    rwa [passed] at caches
  have still : ∀ l ∈ dedup (hs.map Hit.line), ((s1.core c).copy l).isSome = true := by
    intro l hl
    obtain ⟨h, hh, rfl⟩ := List.mem_map.mp (mem_dedup hl)
    obtain ⟨q, hq⟩ := Option.isSome_iff_exists.mp (held h hh)
    obtain ⟨q', hq', -⟩ := checked.copies _ q hq
    exact Option.isSome_iff_exists.mpr ⟨q', hq'⟩
  refine ⟨_, State.checkGlb_storeLines passed still, checked.trans (.putLines s1 _ fun l b out e he covers => ?_)⟩
  obtain ⟨h, hh, rfl⟩ := List.mem_map.mp he
  exact out ⟨h, hh, covers⟩

end Sys2Proof.Machine

namespace Sys2Proof.Slice0
open Sys2Proof.Machine

/-- A store whose lines L1 holds waits, is logged, or changes their copies and passes. -/
theorem global_store_frame : globalStoreFrame := by
  intro i f s s1 u g t lo hs hf h glb store nt det own passed held ran
  suffices kept : StoreKept s.cur.core s.cur.slot (hitsCover hs f.req.size.bytes) s u by
    refine ⟨kept.mem, kept.ctxs, kept.teams, kept.dir, kept.cores, kept.groups, kept.rows, fun l q hq => ?_⟩
    obtain ⟨q', hq', same⟩ := kept.copies l q hq
    exact ⟨q', hq', fun b hb out => same b hb fun ⟨h, hh, covers⟩ => out h hh covers⟩
  rw [glb_exec hf h glb, store] at ran
  cases stall : g.logStall with
  | some at_ =>
    rw [settle_stalled stall] at ran
    exact State.unstall_storeKept ran
  | none =>
    cases behind : g.behindLog g.nextId f.req.size.bytes (hs.map Hit.e) with
    | true =>
      rw [State.tryGlb_behind own passed behind, settle_wait stall] at ran
      cases ran
      exact .refl s
    | false =>
      obtain ⟨v, placed, stored⟩ := State.storeLines_storeKept (k := s.cur.slot) passed held
      have seen : Recorded (s.actor g) g true f.req.size.bytes hs s1 s1 :=
        ⟨fun _ => rfl, fun on => absurd (on.symm.trans det) Bool.noConfusion⟩
      rw [State.tryGlb_stores own passed behind seen, State.storeGlb_places nt placed, Try.map, settle_done stall,
        State.redetGlb_off det] at ran
      cases ran
      exact stored.next

/-- Settles O20: a store that is ready is made as its lines find their places, and into held copies it changes their bytes
alone. -/
theorem globalStores : Obligations.GlobalStores := ⟨global_store_completes, global_store_frame⟩

end Sys2Proof.Slice0
end

section
/-! SUPPORT. A global atomic at its home (R198, R304): the step it makes, and what memory holds after it. -/

namespace Sys2Proof.Machine
open Sys2Proof.Slice0

/-! ## Bytes stored and read back (R2) -/

@[simp] theorem length_bytesOfNat (n v : Nat) : (bytesOfNat n v).length = n := by
  induction n generalizing v with
  | zero => rfl
  | succ n ih => rw [bytesOfNat, List.length_cons, ih]

theorem natOfBytes_bytesOfNat (n v : Nat) : natOfBytes (bytesOfNat n v) = v % 2 ^ (8 * n) := by
  induction n generalizing v with
  | zero => rw [bytesOfNat, natOfBytes, Nat.mul_zero, Nat.pow_zero, Nat.mod_one]
  | succ n ih =>
    rw [bytesOfNat, natOfBytes, ih, BitVec.toNat_ofNat, Nat.mul_succ, Nat.add_comm (8 * n), Nat.pow_add, Nat.mod_mul]

theorem memRead_memStore_out (m : Memory) {a k : Nat} {bs : List Byte} (out : k < a ∨ a + bs.length ≤ k) :
    memRead (memStore m a bs) k = memRead m k := by
  induction bs generalizing m a with
  | nil => rfl
  | cons b bs ih =>
    rw [List.length_cons] at out
    rw [memStore, ih _ (by omega), memRead_memWrite_ne _ _ (by omega)]

/-- In a memory of canonical form the bytes stored are read back. -/
theorem memBytes_memStore {m : Memory} (wf : m.wf = true) (a : Nat) (bs : List Byte) :
    memBytes (memStore m a bs) a bs.length = bs := by
  induction bs generalizing m a with
  | nil => rfl
  | cons b bs ih =>
    have first : memRead (memStore (memWrite m a b) (a + 1) bs) a = b := by
      rw [memRead_memStore_out _ (.inl (Nat.lt_succ_self a)), memRead_memWrite_self a b wf]
    have rest : memBytes (memStore (memWrite m a b) (a + 1) bs) (a + 1) bs.length = bs := ih (memWrite_wf a b wf) (a + 1)
    rw [memBytes] at rest ⊢
    rw [memStore, List.length_cons, List.range_succ_eq_map, List.map_cons, List.map_map]
    refine congrArg₂ List.cons first (Eq.trans (List.map_congr_left fun i _ => ?_) rest)
    exact congrArg (memRead _) (by omega)

theorem memNat_memStore {m : Memory} (wf : m.wf = true) (a n v : Nat) :
    memNat (memStore m a (bytesOfNat n v)) a n = v % 2 ^ (8 * n) := by
  have back := memBytes_memStore wf a (bytesOfNat n v)
  rw [length_bytesOfNat] at back
  rw [memNat, back, natOfBytes_bytesOfNat]

/-! ## The lanes of one address (R197, R198) -/

/-- Every operation but `.fadd` takes its lanes one after another. -/
theorem MemKind.perform_atom {o : AOp} (serial : o ≠ .fadd) (n a : Nat) (es : List Elem) :
    (MemKind.atom o).perform n a es = serialSet (.atom o) n a es := by
  cases o
  case fadd => exact absurd rfl serial
  all_goals rfl

/-! ## The step at home (R198) -/

theorem Wid.bits_bytes (w : Wid) : 8 * (w.bits / 8) = w.bits := by cases w <;> rfl

/-- What the lanes of a request receive, and the end value, from the value that stands at its address. -/
def State.atomResult (s : State) (q : AtomReq) : List (Elem × Nat) × Nat :=
  q.kind.perform q.wid.bits (memNat s.mem q.pa (q.wid.bits / 8)) q.lanes

/-- The home has performed the n-th request, and nothing has reached the group that waits for it. -/
def State.performed (s : State) (n : Nat) (q : AtomReq) : State :=
  ((((State.reachedBy { s with atoms := listDrop1 s.atoms n } q.route q.sent).atHome (q.pa / 128)).readSector
    (sectorOf q.pa)).putHome q.pa (bytesOfNat (q.wid.bits / 8) (s.atomResult q).2)).updTeam q.gid fun t =>
      { t with committed := true }

/-- A sector of an access that meets no poison can be read without a mark (R103). -/
theorem State.readSector_mem {s : State} {pa n : Nat} (some_ : 0 < n) (clean : s.poisoned pa n = false) :
    (s.readSector (sectorOf pa)).mem = s.mem := by
  have sound := List.any_eq_false.mp clean 0 (List.mem_range.mpr (Nat.succ_pos _))
  have within : sectorOf pa + 0 ≤ sectorOf (pa + n - 1) := Nat.div_le_div_right (by omega)
  rw [decide_eq_true within, Bool.true_and] at sound
  rw [State.readSector]
  split
  next marked => rw [Nat.add_zero, marked] at sound; exact absurd rfl sound
  · rfl
  · rfl

/-- The home has put the end value in its place. -/
theorem State.performed_mem {s : State} (n : Nat) {q : AtomReq} (clean : s.poisoned q.pa (q.wid.bits / 8) = false) :
    (s.performed n q).mem = memStore s.mem q.pa (bytesOfNat (q.wid.bits / 8) (s.atomResult q).2) := by
  obtain ⟨fs, as, is, reached⟩ := State.reachedBy_eq { s with atoms := listDrop1 s.atoms n } q.route q.sent
  rw [State.performed, State.updTeam_mem, reached]
  set u : State := { s with fills := fs, atoms := as, inks := is }
  have home := LineKept.atHome (q.pa / 128) u
  have sound : (u.atHome (q.pa / 128)).poisoned q.pa (q.wid.bits / 8) = false := by
    rw [State.poisoned, home.ecc]; exact clean
  have bytes : 0 < q.wid.bits / 8 := by cases q.wid <;> decide
  rw [State.putHome, State.readSector_mem bytes sound, home.mem]

/-- The reply reaches registers and the operation that waits, not memory. -/
theorem State.atomReply_mem (s : State) (q : AtomReq) (olds : List (Elem × Nat)) : (s.atomReply q olds).mem = s.mem := by
  rw [State.atomReply]
  split
  · rfl
  next g hg =>
    split
    · rfl
    · dsimp only
      rw [State.arrived, State.updGroup_mem]
      split
      · exact (State.putRegs_frame s q.core q.slot _ hg).1.mem
      · rfl

/-- A request that nothing holds up is performed, and its lanes' old values leave for their group. -/
theorem execAtomicRequest_performs {s : State} {n : Nat} {q : AtomReq} (hq : s.atoms[n]? = some q)
    (alone : ∀ v ∈ s.atoms.take n, ¬ (v.core = q.core ∧ v.pa = q.pa)) (ready : s.homeReady (q.pa / 128) = true)
    (first : s.behind q.route q.sent = false) (go : q.apl = 2 → q.go = true)
    (clean : s.poisoned q.pa (q.wid.bits / 8) = false)
    (goes : q.route.1 = q.route.2 ∨ q.here = true ∨ (s.die q.route.2).out = false) :
    execAtomicRequest n s = .next ((s.performed n q).atomReply q (s.atomResult q).1) := by
  have kept : s.turnedBack q.route q.here = false := by
    rw [Bool.eq_false_iff, ne_eq, State.turnedBack_iff]
    rintro ⟨apart, away, out⟩
    rcases goes with same | here | up
    · exact apart same
    · exact Bool.noConfusion (away.symm.trans here)
    · exact Bool.noConfusion (up.symm.trans out)
  have asked : s.atomReady q = true := by
    rw [State.atomReady, ready, Bool.true_and, Bool.or_eq_true, bne_iff_ne]
    exact (em (q.apl = 2)).symm.imp id go
  obtain ⟨fs, as, is, reached⟩ := State.reachedBy_eq { s with atoms := listDrop1 s.atoms n } q.route q.sent
  have sound : State.poisoned { s with fills := fs, atoms := as, inks := is } q.pa (q.wid.bits / 8) = false := clean
  simp only [execAtomicRequest, hq, any_pair_false alone, kept, asked, first, Bool.not_true, Bool.or_self,
    Bool.false_eq_true, if_false, reached, State.atomHome, sound, Wid.bits_bytes]
  rw [State.performed, reached]
  rfl

end Sys2Proof.Machine

namespace Sys2Proof.Slice0
open Sys2Proof.Machine

/-- The first half of O24, which holds: the values of the operations. -/
theorem atomic_values : atomicValues := by
  refine ⟨fun o n a e r serial => ?_, fun n a e => rfl, fun n a v => ⟨rfl, rfl, rfl, rfl⟩⟩
  simp only [MemKind.perform_atom serial]
  rfl

/-- What `AtomicsAtHome` says of the end value holds where memory stands in its canonical form. -/
theorem atomic_end_value {s : State} {n : Nat} {q : AtomReq} (ok : MemOk s) (hq : s.atoms[n]? = some q)
    (alone : ∀ v ∈ s.atoms.take n, ¬ (v.core = q.core ∧ v.pa = q.pa)) (ready : s.homeReady (q.pa / 128) = true)
    (first : s.behind q.route q.sent = false) (go : q.apl = 2 → q.go = true)
    (clean : s.poisoned q.pa (q.wid.bits / 8) = false)
    (goes : q.route.1 = q.route.2 ∨ q.here = true ∨ (s.die q.route.2).out = false) :
    ∃ u, exec (.atomicRequest n) s = .next u ∧
      memNat u.mem q.pa (q.wid.bits / 8) = (s.atomResult q).2 % 2 ^ q.wid.bits ∧
      ∀ a, a < q.pa ∨ q.pa + q.wid.bits / 8 ≤ a → memRead u.mem a = memRead s.mem a := by
  refine ⟨_, execAtomicRequest_performs hq alone ready first go clean goes, ?_⟩
  rw [State.atomReply_mem, State.performed_mem n clean]
  refine ⟨?_, fun a out => memRead_memStore_out _ (by rwa [length_bytesOfNat])⟩
  rw [memNat_memStore ok, Wid.bits_bytes]

/-! ## A memory that lists an address twice -/

/-- A request that puts 0 into the word at address 0 of die 0. -/
def zeroing : AtomReq :=
  { core := 0, slot := 0, gid := 0, flight := 0, kind := .atom .exch, wid := .b32, pa := 0, lanes := [addrElem 0 0 0 0]
    apl := 1, go := false, sent := 0 }

/-- The request is alone under way, and memory lists byte 0 twice, as 1 and as 2. -/
def listedTwice : State := { State.reset with mem := [(0, 1), (0, 2)], atoms := [zeroing] }

/-- The word at address 0 as a step leaves it. -/
def wordLeft : Host.Outcome State Fault Refusal → Option Nat
  | .next u => some (memNat u.mem 0 4)
  | _ => none

/-- Writing 0 removes the first entry of the byte, and the second one is read. -/
theorem listedTwice_wordLeft : wordLeft (exec (.atomicRequest 0) listedTwice) = some 2 := by decide +kernel

/-- Refutes O24: it says of every state that the end value stands in memory, also of one whose memory lists an address
twice. There the model's store of a zero byte removes the first entry alone, and the second one, here 2, is read. The
canonical form of memory has no such list, but the statement does not ask for it; `atomic_end_value` has the hypothesis
`MemOk` that it lacks. -/
theorem not_atomicsAtHome : ¬ Obligations.AtomicsAtHome := by
  rintro ⟨-, performed⟩
  have alone : ∀ v ∈ listedTwice.atoms.take 0, ¬ (v.core = zeroing.core ∧ v.pa = zeroing.pa) := List.forall_mem_nil _
  have ready : listedTwice.homeReady (zeroing.pa / 128) = true := by decide +kernel
  have first : listedTwice.behind zeroing.route zeroing.sent = false := by decide +kernel
  have go : zeroing.apl = 2 → zeroing.go = true := by decide
  have clean : listedTwice.poisoned zeroing.pa (zeroing.wid.bits / 8) = false := by decide +kernel
  have goes : zeroing.route.1 = zeroing.route.2 := by decide +kernel
  have ran : exec (.atomicRequest 0) listedTwice = _ := execAtomicRequest_performs rfl alone ready first go clean (.inl goes)
  obtain ⟨ends, -, -⟩ := performed listedTwice 0 zeroing rfl alone ready first go clean (.inl goes)
  obtain ⟨-, -, stands⟩ := ends _ ran
  have left := listedTwice_wordLeft
  rw [ran] at left
  exact absurd (stands.symm.trans (Option.some.inj left)) (by decide +kernel)

end Sys2Proof.Slice0
end

section
/-! SUPPORT. Lane-wise instructions that name a format slot (R211, R214 to R217, R254, R255): the operation each runs,
and what the check of its slot makes of it. -/

namespace Sys2Proof.Machine
open Sys2Proof.Slice0

/-! ## Lane-wise operations and their operands -/

/-- An operation names the operands of the form `f`, and every lane writes the form's registers and no predicate. -/
structure VOp.HasForm (v : VOp) (f : LaneForm) : Prop where
  c : v.c = f.c
  reads : v.reads = f.reads
  preads : v.preads = f.preads
  writes : v.writes = f.writes
  regs : ∀ src l, (v.f src l).regs.map Prod.fst = f.writes
  preds : ∀ src l, (v.f src l).preds = []

/-- Each lane writes what the operation gives it, with U what it gives the lowest (R26). -/
theorem VOp.outs_eq (v : VOp) (src : Nat → Src) (t : LaneMask) (lo : Nat) :
    v.outs src t lo = (lanesOf t).map fun l => (l, v.f src (from_ v.c.u lo l)) := by
  unfold VOp.outs from_
  cases v.c.u <;> rfl

section
variable {s : State} {f : LaneForm} {g : Group} {t : LaneMask} {lo : Nat} {v : VOp}

theorem State.vecM_wrote (h : FormRuns s f g t lo) (form : v.HasForm f) :
    s.vecM v = .ok (wrote s t fun l => v.f (g.src (s.core s.cur.core)) (from_ f.c.u lo l)) := by
  obtain ⟨⟨group, rfl, low⟩, ready, alike⟩ := h
  obtain ⟨c, reads, preads, writes, -, -⟩ := form
  have same : (if (v.c.u && g.dbg) = true then v.mismatch (g.src (s.core s.cur.core))
      (g.taking (s.core s.cur.core) f.c.p s.cur.mask) lo else none) = none := by
    split
    · next compared =>
      rw [Bool.and_eq_true, c] at compared
      exact VOp.mismatch_none (by rw [reads, preads]; exact alike compared.1 compared.2)
    · rfl
  rw [← reads, ← writes] at ready
  rw [← c] at low same
  simp only [State.vecM, State.agent_some group, M.ok_bind, low, needRegs_ready lo ready, same, VOp.outs_eq]
  rw [c]
  rfl

/-! ## The check of the slot (R214) -/

section
variable {n : Nat} {usable : DWord → Bool} {mk : DWord → (Nat → Nat) → VOp}
  (form : (mk (g.slot n) (s.draw g n)).HasForm f)
include form

/-- Once the registers can be used, the slot is asked before any lane acts. -/
theorem State.slotVecM_asks (h : Turn s f.c.p g t lo) (ready : Ready g (f.reads ++ f.writes)) :
    s.slotVecM f.c n usable mk = (do
      trapIf (!(slotOk (g.slot n) && usable (g.slot n))) .sealBad lo
      let u ← s.vecM (mk (g.slot n) (s.draw g n))
      .ok (u.updGroup s.cur.core s.cur.slot fun q => q.countRc (g.slot n))) := by
  obtain ⟨group, rfl, low⟩ := h
  rw [← form.reads, ← form.writes] at ready
  simp only [State.slotVecM, State.agent_some group, M.ok_bind, low, needRegs_ready lo ready]

theorem State.slotVecM_refuses (h : Turn s f.c.p g t lo) (ready : Ready g (f.reads ++ f.writes))
    (bad : (slotOk (g.slot n) && usable (g.slot n)) = false) :
    run s (s.slotVecM f.c n usable mk) = .next (s.takeTrap ⟨.sealBad, lo, 0, 0⟩) := by
  rw [State.slotVecM_asks form h ready, bad, Bool.not_false, trapIf_true, M.error_bind, run_trap]

theorem State.slotVecM_wrote (h : FormRuns s f g t lo)
    (good : (slotOk (g.slot n) && usable (g.slot n)) = true) :
    run s (s.slotVecM f.c n usable mk) = .next ((wrote s t fun l =>
      (mk (g.slot n) (s.draw g n)).f (g.src (s.core s.cur.core)) (from_ f.c.u lo l)).updGroup s.cur.core s.cur.slot
        fun q => q.countRc (g.slot n)) := by
  rw [State.slotVecM_asks form h.turn h.ready, good, Bool.not_true, trapIf_false, M.ok_bind, State.vecM_wrote h form,
    M.ok_bind, run_ok]

end

end

/-- CVT with a slot, NPACK and SCALEQ each run an operation of their form behind the check of their slot; SCALEQ's is
made from the turn's group, of whose lanes it asks the block (R216). -/
theorem exec_slotForm {i : Instr} {s : State} {g : Group} {f : LaneForm} {n : Nat} {ok : Bool}
    (hg : s.curGroup = some g) (hi : slotForm g.slot i = some (f, n, ok)) :
    ∃ usable mk, exec i s = run s (s.slotVecM f.c n usable mk) ∧
      usable (g.slot n) = ok ∧ (mk (g.slot n) (s.draw g n)).HasForm f := by
  unfold slotForm at hi
  split at hi
  · cases hi
    exact ⟨_, _, rfl, rfl, rfl, rfl, rfl, rfl, fun _ _ => rfl, fun _ _ => rfl⟩
  · cases hi
    exact ⟨_, _, rfl, rfl, rfl, rfl, rfl, rfl, fun _ _ => rfl, fun _ _ => rfl⟩
  · cases hi
    exact ⟨_, _, by simp only [exec, execScaleq, hg]; rfl, rfl, rfl, rfl, rfl, rfl, fun _ _ => rfl, fun _ _ => rfl⟩
  · cases hi

end Sys2Proof.Machine

namespace Sys2Proof.Slice0
open Sys2Proof.Machine

theorem slot_forms_complete : slotFormsComplete := by
  intro i f n s g t lo hi h sound
  obtain ⟨usable, mk, runs, ok, form⟩ := exec_slotForm h.turn.group hi
  have good : (slotOk (g.slot n) && usable (g.slot n)) = true := by rw [sound, ok, Bool.and_self]
  refine ⟨_, runs.trans (State.slotVecM_wrote form h good), fun l => ⟨form.regs _ _, form.preds _ _⟩, fun u l => ?_⟩
  simp only [from_, u, if_true]

theorem slot_seal_bad : slotSealBad := by
  intro i f n ok s g t lo hi h ready bad
  obtain ⟨usable, mk, runs, rfl, form⟩ := exec_slotForm h.group hi
  exact runs.trans (State.slotVecM_refuses form h ready bad)

/-- Settles O14: the slot's check comes after the registers' and before any lane's; behind it the instruction is a
lane-wise one. -/
theorem slotForms : Obligations.SlotForms := ⟨slot_forms_complete, slot_seal_bad⟩

end Sys2Proof.Slice0
end

section
/-! SUPPORT. SEAL, SEAL.rel and HQRY (R219 to R223): a table from which entries are taken, what SEAL makes of the
records, and what each instruction asks and comes to. -/

namespace Sys2Proof.Machine
open Sys2Proof.Slice0

/-! ## Entries taken from a table -/

theorem tabFind_tabErase_self {α : Type} (t : Tab α) (k : Nat) : tabFind (tabErase t k) k = none := by
  induction t with
  | nil => rfl
  | cons e r ih =>
    obtain ⟨i, v⟩ := e
    by_cases hi : i = k
    · rw [show tabErase ((i, v) :: r) k = tabErase r k by simp [tabErase, hi], ih]
    · rw [show tabErase ((i, v) :: r) k = (i, v) :: tabErase r k by simp [tabErase, hi], tabFind,
        if_neg (Ne.symm hi), ih]

theorem tabFind_tabErase {α : Type} (t : Tab α) (k j : Nat) :
    tabFind (tabErase t k) j = if k = j then none else tabFind t j := by
  split
  · next same => rw [same, tabFind_tabErase_self]
  · next other => exact tabFind_tabErase_ne t (Ne.symm other)

/-- Of a table without the entries of a list, the entries that the list does not name are left. -/
theorem tabFind_erased {α β : Type} (key : β → Nat) (l : List β) (t : Tab α) (k : Nat) :
    tabFind (l.foldl (fun t e => tabErase t (key e)) t) k = if ∃ e ∈ l, key e = k then none else tabFind t k := by
  induction l generalizing t with
  | nil => simp
  | cons e r ih =>
    rw [List.foldl_cons, ih, tabFind_tabErase]
    by_cases here : key e = k <;> by_cases later : ∃ e ∈ r, key e = k <;> simp [here, later]

/-! ## What becomes of the records (R219 to R222) -/

/-- SEAL of the lanes' records `recs`: the trap of the first that is ill-formed, or the handles taken for them. -/
def State.sealRecs (s : State) (g : Group) (t : LaneMask) (c : Ctl) (d a : Reg) (recs : List (Nat × List DWord)) :
    M State :=
  let x := s.core s.cur.core
  let b := s.badRec s.cur.core g x.desc recs
  match b.1 with
  | some r => (s.setDesc s.cur.core b.2).raise ⟨.sealBad, r.1, BitVec.ofNat 64 (g.reg x a.toNat r.1).toNat, 0⟩
  | none =>
    let q := { x with desc := b.2 }.sealAll g recs
    let s1 := s.setCore s.cur.core q.2
    let s2 := if c.u then s1.putAll t d.toNat (match q.1.head? with | some e => e.2 | none => 0)
      else s1.putRegs s.cur.core s.cur.slot (q.1.map fun e => (e.1, d.toNat, e.2))
    .ok (s2.next.close true)

section
variable {s : State} {g : Group} {t : LaneMask} {c : Ctl} {d a : Reg} {recs : List (Nat × List DWord)}

theorem State.sealRecs_refuses {r : Nat × List DWord}
    (bad : (s.badRec s.cur.core g (s.core s.cur.core).desc recs).1 = some r) :
    run s (s.sealRecs g t c d a recs) =
      .next ((s.setDesc s.cur.core (s.badRec s.cur.core g (s.core s.cur.core).desc recs).2).takeTrap
        ⟨.sealBad, r.1, BitVec.ofNat 64 (g.reg (s.core s.cur.core) a.toNat r.1).toNat, 0⟩) := by
  simp only [State.sealRecs, bad, State.raise, run_state]

/-- With U the handle of the one record goes to every lane (R26, R222). -/
theorem State.sealRecs_seals (good : (s.badRec s.cur.core g (s.core s.cur.core).desc recs).1 = none) :
    let got := { s.core s.cur.core with
      desc := (s.badRec s.cur.core g (s.core s.cur.core).desc recs).2 }.sealAll g recs
    run s (s.sealRecs g t c d a recs) = .next (((s.setCore s.cur.core got.2).putRegs s.cur.core s.cur.slot
      (if c.u then (lanesOf t).map fun l => (l, d.toNat, (got.1.head?.map Prod.snd).getD 0)
        else got.1.map fun e => (e.1, d.toNat, e.2))).next.close true) := by
  intro got
  simp only [State.sealRecs, good, run_ok]
  cases c.u
  · rfl
  · cases got.1.head? <;> rfl

end

/-! ## What each asks, and what it comes to -/

section
variable {s : State} {g : Group} {t : LaneMask} {lo : Nat} {c : Ctl} {a : Reg} (h : Turn s c.p g t lo)
  (alike : Alike g (s.core s.cur.core) c.u t lo [a.toNat] [])
include h alike

/-- Where every record lies, aligned and present, in the team's scratchpad, SEAL goes on to the records; with U that of
the lowest lane alone is read (R26). -/
theorem seal_looks {d : Reg} (ready : Ready g [a.toNat, d.toNat]) (room : g.cnt.ld < 31)
    (placed : ∀ l ∈ accessLanes c.u t lo, (g.reg (s.core s.cur.core) a.toNat l).toNat % 64 = 0 ∧
      (g.reg (s.core s.cur.core) a.toNat l).toNat + 64 ≤ s.scrSize g.team s.cur.core ∧
      s.present s.cur.core g.team (g.reg (s.core s.cur.core) a.toNat l).toNat = true) :
    exec (.seal c d a) s = run s (s.sealRecs g t c d a ((accessLanes c.u t lo).map fun l =>
      (l, s.recAt s.cur.core g.team (g.reg (s.core s.cur.core) a.toNat l).toNat))) := by
  have inside : ((accessLanes c.u t lo).find? fun l => (g.reg (s.core s.cur.core) a.toNat l).toNat % 64 != 0 ||
      decide ((g.reg (s.core s.cur.core) a.toNat l).toNat + 64 > s.scrSize g.team s.cur.core)) = none := by
    refine List.find?_eq_none.mpr fun l hl => ?_
    obtain ⟨aligned, fits, -⟩ := placed l hl
    simp [aligned, fits]
  have here : ((accessLanes c.u t lo).all fun l =>
      s.present s.cur.core g.team (g.reg (s.core s.cur.core) a.toNat l).toNat) = true :=
    List.all_eq_true.mpr fun l hl => (placed l hl).2.2
  simp only [exec, execSeal, State.sealM]
  rw [turn_mem h]
  simp only [needRegs_ready lo ready, waitClass_free (k := .ld) room, alike_check alike, M.ok_bind, inside, here,
    Bool.not_true, parkIf_false]
  rfl

/-- SEAL.rel of handles that are all the team's own frees them all (R222). -/
theorem sealRel_frees (ready : Ready g [a.toNat])
    (owned : ∀ l ∈ accessLanes c.u t lo, (g.reg (s.core s.cur.core) a.toNat l).toNat ≤ 255 ∧
      ∃ e, tabFind (s.core s.cur.core).handles (g.reg (s.core s.cur.core) a.toNat l).toNat = some e ∧ e.team = g.team) :
    exec (.sealRel c a) s = .next ((s.setCore s.cur.core { s.core s.cur.core with
      handles := (accessLanes c.u t lo).foldl
        (fun t l => tabErase t (g.reg (s.core s.cur.core) a.toNat l).toNat) (s.core s.cur.core).handles }).next.close
          true) := by
  simp only [exec, execSealRel, State.sealRelM]
  rw [turn_mem h]
  simp only [needRegs_ready lo ready, alike_check alike, M.ok_bind]
  split
  · next e found =>
    obtain ⟨l, hl, rfl⟩ := List.mem_map.mp (List.mem_of_find?_eq_some found)
    obtain ⟨small, e, held, mine⟩ := owned l hl
    have bad := List.find?_some found
    have large : 255 < (g.reg (s.core s.cur.core) a.toNat l).toNat := by simpa [held, mine] using bad
    exact absurd small (Nat.not_le.mpr large)
  · simp only [List.foldl_map, run_ok]
    rfl

/-- HQRY writes to each lane the word that it gives the lane's handle, with U the lowest lane's (R26, R223). -/
theorem hqry_writes {d : Reg} {sel : BitVec 4} (ready : Ready g [a.toNat, d.toNat, d.toNat + 1]) {word : Nat → DWord}
    (gives : ∀ l, (s.core s.cur.core).hqry g.team (g.reg (s.core s.cur.core) a.toNat (from_ c.u lo l)).toNat sel.toNat =
      word l) :
    exec (.hqry c d a sel) s = .next (s.putRegs s.cur.core s.cur.slot ((lanesOf t).flatMap fun l =>
      [(l, d.toNat, (word l).setWidth 32), (l, d.toNat + 1, (word l >>> 32).setWidth 32)])).next := by
  have words : word = fun l => (s.core s.cur.core).hqry g.team
      (g.reg (s.core s.cur.core) a.toNat (from_ c.u lo l)).toNat sel.toNat := funext fun l => (gives l).symm
  simp only [exec, execHqry]
  rw [turn_mem h, words]
  simp only [needRegs_ready lo ready, alike_check alike, M.ok_bind, run_ok, loWord_eq, hiWord_eq]
  rfl

end

/-- HQRY's word by the entry that the table lists: zero where there is none, or where the handle has more than eight
bits. -/
theorem Core.hqry_eq (x : Core) (team h : Nat) (sel : BitVec 4) : x.hqry team h sel.toNat =
    match tabFind x.handles h with
    | none => 0
    | some e => if 255 < h then 0 else if sel.toNat < 8 then recWord e.words sel.toNat
      else if sel = 8 then e.slot else if e.team = team then 3 else 1 := by
  have eighth : sel.toNat = 8 ↔ sel = 8 := BitVec.toNat_eq (y := 8#4) |>.symm
  unfold Core.hqry
  by_cases large : 255 < h
  · cases tabFind x.handles h <;> simp [large]
  · simp only [gt_iff_lt, large, if_false, eighth]
    cases tabFind x.handles h with
    | none => rfl
    | some e =>
      by_cases mine : e.team = team <;> simp [mine, b2n]

end Sys2Proof.Machine

namespace Sys2Proof.Slice0
open Sys2Proof.Machine

/-- Settles O15: the records are checked before any handle is taken; a handle freed or asked for is looked up in the
core's own table. -/
theorem sealCompletes : Obligations.SealCompletes := by
  intro s g t lo c d a x ls h alike
  refine ⟨fun ready room placed => ?_,
    fun ready owned => ⟨_, sealRel_frees h alike ready owned, rfl, tabFind_erased _ ls x.handles⟩,
    fun sel ready => hqry_writes h alike ready fun l => x.hqry_eq g.team _ sel⟩
  have looks := seal_looks h alike ready room placed
  exact ⟨fun r bad => looks.trans (State.sealRecs_refuses bad), fun good => looks.trans (State.sealRecs_seals good)⟩

end Sys2Proof.Slice0
end

section
/-! SUPPORT. The other matrix instructions (R211, R268, R275 to R279): an operation queued on its stream, and what an
instruction comes to once nothing is owed to the group's window. -/

namespace Sys2Proof.Machine
open Sys2Proof.Slice0

/-- A stream of those that MSYNC.wait names holds an operation (R278). -/
def Group.awaits (g : Group) (mask : BitVec 4) : Bool :=
  (List.range 4).any fun i => mask.getLsbD i && !((g.streams[i]?).getD []).isEmpty

theorem Group.awaits_iff {g : Group} {mask : BitVec 4} :
    g.awaits mask = true ↔ ∃ i < 4, mask.getLsbD i = true ∧ (g.streams[i]?).getD [] ≠ [] := by
  simp only [Group.awaits, List.any_eq_true, List.mem_range, Bool.and_eq_true, Bool.not_eq_true',
    List.isEmpty_eq_false_iff]

section
variable {s : State} {p : Pred} {g : Group} {m : LaneMask} {lo : Nat} (h : Turn s p g m lo)
include h

/-- The turn's operation stands last on its stream. -/
theorem queueOp_queued (t : MTarget) (k : MOpKind) (counted : Bool) :
    s.queueOp t k lo counted = queued s g t k lo counted :=
  State.updGroup_some _ _ _ _ h.group

/-! ## Behind the group's writes (R268) -/

section
variable (idle : g.pend = [])
include idle

/-- An instruction that waits for the group's earlier writes goes on where there is none. -/
theorem idle_runs (k : Group → LaneMask → Nat → M State) :
    run s (s.groupM p fun g m lo => waitIf (!g.pend.isEmpty) >>= fun _ => k g m lo) = run s (k g m lo) := by
  rw [turn_group h, idle, List.isEmpty_nil, Bool.not_true, waitIf_false, M.ok_bind]

/-- MZERO of accumulators that exist (R275). -/
theorem mzero_queues {t : MTarget} {cnt : BitVec 4} (room : g.cnt.tl < 31)
    (exist : ∀ i ≤ cnt.toNat, g.accOk (t.acc.toNat + i) = true) :
    exec (.mzero p t cnt) s = .next (queued s g t (.zero (cnt.toNat + 1)) lo true).next := by
  have exist : ((List.range (cnt.toNat + 1)).all fun i => g.accOk (t.acc.toNat + i)) = true := by
    simpa [Nat.lt_succ_iff] using exist
  refine (idle_runs h idle _).trans ?_
  simp only [exist, Bool.not_true, trapIf_false, M.ok_bind, ge_iff_le, decide_eq_false (Nat.not_le.mpr room),
    waitIf_false, run_ok, queueOp_queued h]

/-- MDRAIN and MLDACC whose slot, block and accumulator can be used (R276, R277), and their count (R211). -/
theorem macc_runs {n : BitVec 3} {t : MTarget} {a : Reg} (room : g.cnt.tl < 31) (sound : slotOk (g.slot n.toNat) = true)
    (wide : slotFmt (g.slot n.toNat) ≠ 6) (aligned : g.vecOfs a.toNat % 2048 = 0) (formed : g.accOk t.acc.toNat = true)
    (inside : g.inWindow (g.vecOfs a.toNat) (512 * fmtBits (slotFmt (g.slot n.toNat))) = true)
    (k : Group → DWord → Nat → Nat → State) :
    run s (s.maccM p n t a k) = .next ((k g (g.slot n.toNat) (g.vecOfs a.toNat) lo).next.updGroup s.cur.core s.cur.slot
      fun q => q.countRc (g.slot n.toNat)) := by
  refine (idle_runs h idle _).trans ?_
  simp only [sound, beq_false_of_ne wide, aligned, formed, inside, Bool.not_true, Bool.or_self, bne_self_eq_false,
    trapIf_false, M.ok_bind, ge_iff_le, decide_eq_false (Nat.not_le.mpr room), waitIf_false, run_ok]

theorem msyncMark_queues (st : BitVec 2) (inc : BitVec 8) (tl : BitVec 4) :
    exec (.msyncMark p st inc tl) s = .next ((queued s g ⟨st, 0⟩ (.mark inc tl) lo false).next.close true) := by
  refine (idle_runs h idle _).trans ?_
  rw [run_ok, queueOp_queued h]

theorem msyncWait_runs (mask : BitVec 4) :
    exec (.msyncWait p mask) s = .next (if g.awaits mask then s.park else s.next) := by
  have asks : exec (.msyncWait p mask) s = run s (parkIf (g.awaits mask) >>= fun _ => .ok s.next) := idle_runs h idle _
  rw [asks]
  cases g.awaits mask <;> rfl

end

/-! ## MSTAT (R279) -/

theorem mstatClr_clears : exec (.mstatClr p) s =
    .next (s.setGroup s.cur.core s.cur.slot { g with mstat := 0 }).next := by
  refine (congrArg (run s) (turn_group h _)).trans ?_
  rw [run_ok, State.updGroup_some _ _ _ _ h.group]

/-- A record of the stream `st` set from the pair `a`. -/
theorem mstatMeta_sets {a : Reg} (ready : Ready g [a.toNat, a.toNat + 1]) (st : BitVec 2) :
    exec (.mstatMeta p a st) s = .next (s.setGroup s.cur.core s.cur.slot
      { g with mrecs := listUpd (fun _ => g.pair (s.core s.cur.core) a.toNat lo) g.mrecs st.toNat }).next := by
  refine (scope_ready h ready _).trans ?_
  rw [run_ok, State.updGroup_some _ _ _ _ h.group]

theorem mstatScale_sets {a : Reg} (ready : Ready g [a.toNat, a.toNat + 1]) (st : BitVec 2) :
    exec (.mstatScale p a st) s = .next (s.setGroup s.cur.core s.cur.slot
      { g with srecs := listUpd (fun _ => g.pair (s.core s.cur.core) a.toNat lo) g.srecs st.toNat }).next := by
  refine (scope_ready h ready _).trans ?_
  rw [run_ok, State.updGroup_some _ _ _ _ h.group]

end

end Sys2Proof.Machine

namespace Sys2Proof.Slice0
open Sys2Proof.Machine

/-- Settles O35: with nothing owed to the window each instruction's checks pass, and what it changes is its own group's
record, stream or registers. -/
theorem matrixForms : Obligations.MatrixForms := by
  intro s g m lo p t a d n cnt mask zr st inc tl x w o pair rounds set h
  refine ⟨fun idle => ⟨mzero_queues h idle, fun room sound wide aligned formed inside => ?acc,
    msyncMark_queues h idle st inc tl⟩, fun idle => ⟨fun empty => ?passes, fun busy => ?parks⟩,
    fun ready => scope_ready h ready _, mstatClr_clears h,
    fun ready => ⟨mstatMeta_sets h ready st, mstatScale_sets h ready st⟩⟩
  case acc =>
    have acts := macc_runs h idle room sound wide aligned formed inside
    refine ⟨(acts _).trans ?_, (acts _).trans ?_⟩ <;> rw [queueOp_queued h] <;> rfl
  case passes =>
    have free : ¬ g.awaits mask = true := fun awaits =>
      let ⟨i, hi, named, more⟩ := Group.awaits_iff.mp awaits
      more (empty i hi named)
    rw [msyncWait_runs h idle, if_neg free]
  case parks =>
    rw [msyncWait_runs h idle, if_pos (Group.awaits_iff.mpr busy)]

end Sys2Proof.Slice0
end

section
/-! SUPPORT. Integer sources and results (R29, R226): the numbers a lane reads, and the words an exact result leaves. -/

namespace Sys2Proof.Machine
open Sys2Proof.Slice0

/-! ## Results modulo 2^n -/

theorem wrap_modEq (n : Nat) (r : Int) : (wrap n r : Int) ≡ r [ZMOD 2 ^ n] := by
  have pos : (0 : Int) < 2 ^ n := by positivity
  rw [wrap, Int.toNat_of_nonneg (Int.emod_nonneg r pos.ne')]
  exact Int.mod_modEq r _

theorem wrap_toInt {k : Nat} (n : Nat) (v : BitVec k) : wrap n (toInt k v.toNat) = (v.signExtend n).toNat := by
  rw [toInt_toNat, BitVec.signExtend, BitVec.toNat_ofInt, wrap]
  norm_cast

theorem ofInt_modEq {n : Nat} {r q : Int} (h : r ≡ q [ZMOD 2 ^ n]) : BitVec.ofInt n r = BitVec.ofInt n q := by
  apply BitVec.eq_of_toNat_eq
  rw [BitVec.toNat_ofInt, BitVec.toNat_ofInt]
  exact_mod_cast congrArg Int.toNat h

/-- Integers that agree modulo 2^n leave the same words. -/
theorem outNat_of_modEq {w : Wid} {n : Nat} {r : Int} (d : Reg) (h : (n : Int) ≡ r [ZMOD 2 ^ w.bits]) :
    outNat w d.toNat n = intWords w d r := by
  rw [outNat_eq]
  cases w
  case b32 => simp only [intWords, ofInt_modEq (n := 32) h]
  case b64 => simp only [intWords, ofInt_modEq (n := 64) h]

theorem tyRange_eq (ty : IntTy) : tyRange ty = (tyMin ty.signed ty.bits, tyMax ty.signed ty.bits) := by
  cases ty <;> rfl

theorem clampTo_eq (ty : IntTy) (r : Int) : clampTo ty.signed ty.bits r = clampTy ty r := by
  have ordered : tyMin ty.signed ty.bits ≤ tyMax ty.signed ty.bits := by cases ty <;> decide
  rw [clampTo, clampTy, tyRange_eq]
  split_ifs <;> omega

/-- What an exact result leaves under SAT and without it. -/
theorem intResult_modEq (ty : IntTy) (sat : Bool) (r : Int) :
    (intResult ty.signed ty.bits sat r : Int) ≡ if sat then clampTy ty r else r [ZMOD 2 ^ ty.bits] := by
  rw [← clampTo_eq]
  exact wrap_modEq ..

/-! ## Sources -/

theorem tyBits_eq (ty : IntTy) : ty.bits = (tyWid ty).bits := by rw [IntTy.bits, tyWid_eq]

theorem regNat_lt (g : Group) (x : Core) (w : Wid) (r : Reg) (l : Nat) : regNat g x w r l < 2 ^ w.bits := by
  cases w <;> simp only [regNat, Wid.bits] <;> omega

theorem srcNat_lt (g : Group) (x : Core) (ty : IntTy) (b : Src2) (l : Nat) :
    srcNat g x ty b l < 2 ^ (tyWid ty).bits := by
  cases b with
  | reg r => exact regNat_lt ..
  | imm v => cases ty <;> simp only [srcNat, tyWid, Wid.bits] <;> omega

theorem readInt_eq {ty : IntTy} {n : Nat} (h : n < 2 ^ (tyWid ty).bits) :
    readInt ty.signed ty.bits n = asInt ty n := by
  have signed : ∀ k, n < 2 ^ k → toInt k n = (BitVec.ofNat k n).toInt := fun k small => by
    rw [← toInt_toNat, BitVec.toNat_ofNat, Nat.mod_eq_of_lt small]
  cases ty
  case s32 => exact signed 32 h
  case s64 => exact signed 64 h
  case z32 | z64 => rfl

/-- An immediate is extended as the type says (R29). -/
theorem src2Nat_typed (g : Group) (x : Core) (ty : IntTy) (b : Src2) (l : Nat) :
    src2Nat (g.src x l) ty.signed (tyWid ty) b = srcNat g x ty b l := by
  cases b with
  | reg r => exact Src.nat_eq ..
  | imm v =>
    cases ty
    case s32 | s64 => exact wrap_toInt _ v
    case z32 | z64 => rfl

/-! ## Instructions of two sources -/

section
variable {s : State} {g : Group} {t : LaneMask} {lo : Nat} {c : Ctl} {w : Wid} {ty : IntTy} {d a : Reg} {b : Src2}

/-- An operation on patterns writes what its function makes of the sources, `y` being the second, modulo 2^n. -/
theorem bits2_writes {signed : Bool} {f : Nat → Nat → Nat} {y : Nat → Nat} {r : Nat → Int}
    (runs : FormRuns s ⟨c, regsOf w a ++ srcRegs w b, [], regsOf w d, []⟩ g t lo)
    (second : ∀ l, src2Nat (g.src (s.core s.cur.core) (from_ c.u lo l)) signed w b = y l)
    (value : ∀ l, (f (regNat g (s.core s.cur.core) w a (from_ c.u lo l)) (y l) : Int) ≡ r l [ZMOD 2 ^ w.bits]) :
    s.vec (bits2 c w d a b signed f) = .next (wrote s t fun l => wordsOut (intWords w d (r l))) := by
  refine vec_wrote runs rfl ?_ rfl (regsOf_eq w d) _ fun l => ?_
  · rw [bits2, lanewise, regsOf_eq, srcRegs_eq]
  · rw [← outNat_of_modEq d (value l), ← second l, ← Src.nat_eq]
    rfl

/-- The same where a type gives the width and extends an immediate. -/
theorem bits2_writes_typed {f : Nat → Nat → Nat} {r : Nat → Int}
    (runs : FormRuns s ⟨c, regsOf (tyWid ty) a ++ srcRegs (tyWid ty) b, [], regsOf (tyWid ty) d, []⟩ g t lo)
    (value : ∀ l, (f (regNat g (s.core s.cur.core) (tyWid ty) a (from_ c.u lo l))
      (srcNat g (s.core s.cur.core) ty b (from_ c.u lo l)) : Int) ≡ r l [ZMOD 2 ^ ty.bits]) :
    s.vec (bits2 c ty.wid d a b ty.signed f) = .next (wrote s t fun l => wordsOut (intWords (tyWid ty) d (r l))) := by
  rw [tyBits_eq] at value
  rw [tyWid_eq]
  exact bits2_writes runs (fun l => src2Nat_typed ..) value

/-- An instruction of R226 is an operation on the patterns that stand for its integers. -/
theorem int2_eq (c : Ctl) (ty : IntTy) (sat : Bool) (d a : Reg) (b : Src2) (r : Int → Int → Int) :
    int2 c ty sat d a b r = bits2 c ty.wid d a b ty.signed fun x y =>
      intResult ty.signed ty.bits sat (r (readInt ty.signed ty.bits x) (readInt ty.signed ty.bits y)) := rfl

/-- An instruction of R226 writes its exact result, clamped under SAT. -/
theorem int2_writes {sat : Bool} {r : Int → Int → Int} {v : Nat → Int}
    (runs : FormRuns s ⟨c, regsOf (tyWid ty) a ++ srcRegs (tyWid ty) b, [], regsOf (tyWid ty) d, []⟩ g t lo)
    (value : ∀ l, r (asInt ty (regNat g (s.core s.cur.core) (tyWid ty) a (from_ c.u lo l)))
      (asInt ty (srcNat g (s.core s.cur.core) ty b (from_ c.u lo l))) = v l) :
    s.vec (int2 c ty sat d a b r) = .next (wrote s t fun l =>
      wordsOut (intWords (tyWid ty) d (if sat then clampTy ty (v l) else v l))) := by
  rw [int2_eq]
  refine bits2_writes_typed runs fun l => ?_
  rw [readInt_eq (regNat_lt ..), readInt_eq (srcNat_lt ..), value]
  exact intResult_modEq ..

/-- An instruction that takes no SAT writes its exact result modulo 2^n. -/
theorem int2_writes_exact {r : Int → Int → Int} {v : Nat → Int}
    (runs : FormRuns s ⟨c, regsOf (tyWid ty) a ++ srcRegs (tyWid ty) b, [], regsOf (tyWid ty) d, []⟩ g t lo)
    (value : ∀ l, r (asInt ty (regNat g (s.core s.cur.core) (tyWid ty) a (from_ c.u lo l)))
      (asInt ty (srcNat g (s.core s.cur.core) ty b (from_ c.u lo l))) = v l) :
    s.vec (int2 c ty false d a b r) = .next (wrote s t fun l => wordsOut (intWords (tyWid ty) d (v l))) :=
  int2_writes runs value

end

/-- IDIV's quotient: by zero it is -1 under .s and 2^n - 1 under .z. -/
theorem divExact_eq (ty : IntTy) (p q : Int) :
    divExact ty.signed ty.bits p q =
      if q = 0 then (tyRange ty).2 + (if (tyRange ty).1 < 0 then - (tyRange ty).2 - 1 else 0) else p.tdiv q := by
  cases ty <;> rfl

end Sys2Proof.Machine

namespace Sys2Proof.Slice0
open Sys2Proof.Machine

/-- Settles O4: each is an operation of two sources that writes its exact result. -/
theorem integerResults : Obligations.IntegerResults := by
  intro s g t lo c ty sat d a b runs x A B gives fit
  have high : ∀ l, A l * B l / 2 ^ ty.bits = A l * B l / 2 ^ (tyWid ty).bits := fun l => by rw [tyBits_eq]
  exact ⟨int2_writes runs fun l => rfl, int2_writes runs fun l => rfl, int2_writes runs fun l => rfl,
    int2_writes_exact runs high, int2_writes_exact runs fun l => (min_def ..).symm,
    int2_writes_exact runs fun l => (max_def ..).symm, int2_writes_exact runs fun l => divExact_eq ..,
    int2_writes_exact runs fun l => rfl⟩

end Sys2Proof.Slice0
end

section
/-! SUPPORT. Carries (R228), and shifts and rotations as integers modulo 2^n (R230). -/

namespace Sys2Proof.Machine
open Sys2Proof.Slice0

/-! ## Shifts and rotations -/

theorem shlNat_modEq (n p k : Nat) :
    (shlNat n p k : Int) ≡ if n ≤ k then 0 else (p : Int) * 2 ^ k [ZMOD 2 ^ n] := by
  rw [shlNat]
  split
  · rfl
  · push_cast
    exact Int.mod_modEq ..

/-- Divided by 2^n a signed number of n bits leaves its sign alone. -/
theorem toInt_ediv {n p : Nat} (small : p < 2 ^ n) : toInt n p / 2 ^ n = if toInt n p < 0 then -1 else 0 := by
  have below : (p : Int) < 2 ^ n := by exact_mod_cast small
  rw [toInt]
  split
  · rw [Int.ediv_eq_zero_of_lt p.cast_nonneg below, if_neg p.cast_nonneg.not_gt]
  · rw [Int.sub_ediv_of_dvd _ dvd_rfl, Int.ediv_eq_zero_of_lt p.cast_nonneg below, Int.ediv_self (by positivity),
      if_pos (by omega), zero_sub]

theorem shrNat_modEq_signed {n p : Nat} (k : Nat) (small : p < 2 ^ n) :
    (shrNat true n p k : Int) ≡
      if n ≤ k then (if toInt n p < 0 then -1 else 0) else toInt n p / 2 ^ k [ZMOD 2 ^ n] := by
  have quotient : toInt n p / 2 ^ min k n =
      if n ≤ k then (if toInt n p < 0 then -1 else 0) else toInt n p / 2 ^ k := by
    split
    · next full => rw [min_eq_right full, toInt_ediv small]
    · next part => rw [min_eq_left (Nat.le_of_not_le part)]
  rw [← quotient]
  exact wrap_modEq ..

theorem shrNat_modEq_unsigned (n p k : Nat) :
    (shrNat false n p k : Int) ≡
      if n ≤ k then (if (p : Int) < 0 then -1 else 0) else (p : Int) / 2 ^ k [ZMOD 2 ^ n] := by
  rw [shrNat, if_neg Bool.false_ne_true, if_neg p.cast_nonneg.not_gt]
  split <;> rfl

/-- A right shift divides the number the type reads, rounding down. -/
theorem shrNat_modEq {ty : IntTy} {p : Nat} (k : Nat) (small : p < 2 ^ (tyWid ty).bits) :
    (shrNat ty.signed ty.bits p k : Int) ≡
      if (tyWid ty).bits ≤ k then (if asInt ty p < 0 then -1 else 0) else asInt ty p / 2 ^ k
      [ZMOD 2 ^ (tyWid ty).bits] := by
  rw [← readInt_eq small]
  cases ty
  case s32 | s64 => exact shrNat_modEq_signed k small
  case z32 | z64 => exact shrNat_modEq_unsigned ..

theorem rotNat_modEq (n p k : Nat) :
    (rotNat n p k : Int) ≡ (p : Int) * 2 ^ (k % n) + (p : Int) / 2 ^ (n - k % n) [ZMOD 2 ^ n] := by
  rw [rotNat]
  push_cast
  exact (Int.mod_modEq ..).add_right _

/-! ## Carries -/

/-- The carry a lane takes in: none where no predicate is named (R228). -/
def Src.carryIn (src : Src) : Option PReg → Bool
  | some k => src.pred k.toNat
  | none => false

theorem carryOp_f (sub : Bool) (c : Ctl) (w : Wid) (d a b : Reg) (pi : Option PReg) (po : PReg) (src : Nat → Src)
    (l : Nat) : (carryOp sub c w d a b pi po).f src l =
      let r := addCarry sub w.bits ((src l).nat w a.toNat) ((src l).nat w b.toNat) ((src l).carryIn pi)
      ⟨outNat w d.toNat r.1, [(po.toNat, r.2)]⟩ := by
  cases pi <;> rfl

theorem b2n_int (v : Bool) : (b2n v : Int) = if v then 1 else 0 := by
  cases v <;> rfl

theorem addCarry_sum (n p q : Nat) (cin : Bool) :
    ((addCarry false n p q cin).1 : Int) ≡ p + q + b2n cin [ZMOD 2 ^ n] ∧
      (addCarry false n p q cin).2 = decide ((2 : Int) ^ n ≤ p + q + b2n cin) := by
  simp only [addCarry, Bool.false_eq_true, if_false]
  refine ⟨?_, decide_eq_decide.mpr (by exact_mod_cast Iff.rfl)⟩
  push_cast
  exact Int.mod_modEq ..

theorem addCarry_difference (n p q : Nat) (cin : Bool) :
    ((addCarry true n p q cin).1 : Int) ≡ p - q - b2n cin [ZMOD 2 ^ n] ∧
      (addCarry true n p q cin).2 = decide ((p : Int) < q + b2n cin) := by
  refine ⟨wrap_modEq .., decide_eq_decide.mpr ?_⟩
  omega

/-- A carry instruction writes the sum or difference `r` modulo 2^n, and the carry or borrow `out`. -/
theorem carryOp_writes {s : State} {g : Group} {t : LaneMask} {lo : Nat} {sub : Bool} {c : Ctl} {w : Wid} {d a b : Reg}
    {pi : Option PReg} {po : PReg} {r : Nat → Int} {out : Nat → Bool}
    (runs : FormRuns s ⟨c, regsOf w a ++ regsOf w b, Sys2Proof.Slice0.optPred pi, regsOf w d, [po.toNat]⟩ g t lo)
    (value : ∀ l, let src := from_ c.u lo l
      let q := addCarry sub w.bits (regNat g (s.core s.cur.core) w a src) (regNat g (s.core s.cur.core) w b src)
        ((g.src (s.core s.cur.core) src).carryIn pi)
      (q.1 : Int) ≡ r l [ZMOD 2 ^ w.bits] ∧ q.2 = out l) :
    s.vec (carryOp sub c w d a b pi po) = .next (wrote s t fun l => ⟨intWords w d (r l), [(po.toNat, out l)]⟩) := by
  refine vec_wrote runs rfl ?_ ?_ (regsOf_eq w d) _ fun l => ?_
  · simp only [carryOp, regsOf_eq]
  · cases pi <;> rfl
  · obtain ⟨sum, carry⟩ := value l
    rw [← outNat_of_modEq d sum, ← carry, ← Src.nat_eq, ← Src.nat_eq]
    exact carryOp_f ..

end Sys2Proof.Machine

namespace Sys2Proof.Slice0
open Sys2Proof.Machine

theorem carry_results : carryResults := by
  intro s g t lo c w d a b pi po runs x A B C
  have carry : ∀ l, C l = b2n ((g.src x (from_ c.u lo l)).carryIn pi) := fun l => by
    cases pi with
    | none => rfl
    | some k => exact (b2n_int _).symm
  simp only [carry]
  exact ⟨carryOp_writes runs fun l => addCarry_sum .., carryOp_writes runs fun l => addCarry_difference ..⟩

theorem logic_results : logicResults := by
  intro s g t lo c ty d a b runs x w n A B K gives
  have second : ∀ l, src2Nat (g.src x (from_ c.u lo l)) false w b = B l := fun l => by
    cases b with
    | reg r => exact Src.nat_eq ..
    | imm v => rfl
  have left : ∀ l, (shlNat ty.bits (A l) (K l) : Int) ≡
      if n ≤ K l then 0 else (A l : Int) * 2 ^ K l [ZMOD 2 ^ n] := fun l => tyBits_eq ty ▸ shlNat_modEq ..
  exact ⟨bits2_writes runs second fun l => rfl, bits2_writes runs second fun l => rfl,
    bits2_writes runs second fun l => rfl, bits2_writes_typed runs left,
    bits2_writes_typed runs fun l => shrNat_modEq _ (regNat_lt ..),
    bits2_writes runs second fun l => rotNat_modEq ..⟩

/-- Settles O5: each result is the rule's integer modulo 2^n, and the carry says whether it left the range. -/
theorem carryAndLogic : Obligations.CarryAndLogic := ⟨carry_results, logic_results⟩

end Sys2Proof.Slice0
end

section
/-! SUPPORT. ICMP (R234) and SEL (R236): the sources compared and the source chosen. -/

namespace Sys2Proof.Machine
open Sys2Proof.Slice0

/-- The pattern of ICMP's second source; an immediate is extended as its type says (R234). -/
def cmpNat (src : Src) (ty : IntTy) : CmpSrc → Nat
  | .reg r => src.nat ty.wid r.toNat
  | .imm v => immNat ty.signed ty.bits 17 v.toNat

/-- A signed number of k bits keeps its value in more of them. -/
theorem toInt_wrap_toInt {k n : Nat} (v : BitVec k) (h : k ≤ n) : toInt n (wrap n (toInt k v.toNat)) = v.toInt := by
  rw [wrap_toInt, toInt_toNat, BitVec.toInt_signExtend_of_le h]

theorem readInt_reg (g : Group) (x : Core) (ty : IntTy) (r : Reg) (l : Nat) :
    readInt ty.signed ty.bits ((g.src x l).nat ty.wid r.toNat) = asInt ty (regNat g x (tyWid ty) r l) := by
  rw [tyWid_eq, Src.nat_eq, readInt_eq (regNat_lt ..)]

/-- The pattern of SEL's second source; an immediate is zero-extended (R236). -/
def selNat (src : Src) (w : Wid) : SelSrc → Nat
  | .reg r _ => src.nat w r.toNat
  | .imm v _ => v.toNat

section
variable {s : State} {g : Group} {t : LaneMask} {lo : Nat} {c : Ctl}

/-- ICMP writes the comparison of its sources, `y` being the second. -/
theorem icmp_writes {ty : IntTy} {d : PReg} {a : Reg} {b : CmpSrc} {y : Nat → Int} (k : ICond)
    (runs : FormRuns s ⟨c, regsOf (tyWid ty) a ++ cmpRegs (tyWid ty) b, [], [], [d.toNat]⟩ g t lo)
    (second : ∀ l, readInt ty.signed ty.bits (cmpNat (g.src (s.core s.cur.core) (from_ c.u lo l)) ty b) = y l) :
    exec (.icmp c ty k d a b) s = .next (wrote s t fun l => ⟨[], [(d.toNat,
      k.holds (asInt ty (regNat g (s.core s.cur.core) (tyWid ty) a (from_ c.u lo l))) (y l))]⟩) := by
  refine vec_wrote runs rfl ?_ rfl rfl _ fun l => ?_
  · cases b <;> simp only [cmpRegs, regsOf_eq, tyWid_eq]
  · rw [← second l, ← readInt_reg]
    cases b <;> rfl

/-- SEL writes the first source where its predicate is 1, and `y`, its second, elsewhere. -/
theorem sel_writes {w : Wid} {d a : Reg} {b : SelSrc} {y : Nat → Int}
    (runs : FormRuns s ⟨c, regsOf w a ++ selRegs w b, [selPred b], regsOf w d, []⟩ g t lo)
    (second : ∀ l, (selNat (g.src (s.core s.cur.core) (from_ c.u lo l)) w b : Int) = y l) :
    exec (.sel c w d a b) s = .next (wrote s t fun l => wordsOut (intWords w d
      (if g.pred (s.core s.cur.core) (selPred b) (from_ c.u lo l)
        then (regNat g (s.core s.cur.core) w a (from_ c.u lo l) : Int) else y l))) := by
  refine vec_wrote runs rfl ?_ ?_ (regsOf_eq w d) _ fun l => ?_
  · cases b <;> simp only [selRegs, regsOf_eq]
  · cases b <;> rfl
  · rw [← second l, ← Nat.cast_ite, ← outNat_eq, ← Src.nat_eq]
    cases b <;> rfl

end

end Sys2Proof.Machine

namespace Sys2Proof.Slice0
open Sys2Proof.Machine

/-- Settles O6: each lane's sources are read as the rules say, and then compared or chosen between. -/
theorem compareSelect : Obligations.CompareSelect := by
  refine ⟨fun s g t lo c ty d a b runs => ?_, fun s g t lo c w d a b runs => ?_⟩
  · intro x A B gives
    have second : ∀ l, readInt ty.signed ty.bits (cmpNat (g.src x (from_ c.u lo l)) ty b) = B l := fun l => by
      cases b with
      | reg r => exact readInt_reg ..
      | imm v =>
        cases ty
        case s32 | s64 => exact toInt_wrap_toInt v (by decide)
        case z32 | z64 => rfl
    have compares := fun k => icmp_writes k runs second
    exact ⟨compares .eq, compares .ne, compares .lt, compares .le, compares .gt, compares .ge⟩
  · refine sel_writes runs fun l => ?_
    cases b with
    | reg r k => rw [selNat, Src.nat_eq]
    | imm v k => rfl

end Sys2Proof.Slice0
end

section
/-! SUPPORT. Float instructions (R245 to R248) and CVT (R255): elements as values, and the words they leave. -/

namespace Sys2Proof.Machine
open Sys2Proof.Slice0

/-! ## Elements (R245) -/

/-- A register computed element by element is the word of its elements' codes. -/
theorem eachElem_eq (ty : FTy) (k : Nat → Nat) : eachElem ty k = elemsWord ty k := by
  apply BitVec.eq_of_toNat_eq
  cases ty
  case f32 => simp [eachElem, elemsWord, FTy.elems, FTy.bits, packElems]
  case f16x2 | bf16x2 => simp [eachElem, elemsWord, FTy.elems, FTy.bits, packElems, List.range_succ]

/-! ## The lesser and the greater (R247, R248) -/

theorem pick_eq_lesser (v w : Val) : v.pick true w = lesser v w := by
  cases v <;> cases w <;> simp [Val.pick, lesser]

theorem pick_eq_greater (v w : Val) : v.pick false w = greater v w := by
  cases v <;> cases w <;> simp [Val.pick, greater, ← Bool.not_eq_true]

/-! ## Instructions of two and of three sources -/

section
variable {s : State} {g : Group} {t : LaneMask} {lo : Nat} {c : Ctl} {ty : FTy} {d a : Reg}

/-- A float instruction of two sources writes its exact results, each rounded once to the element's format. -/
theorem float2_writes {b : FSrc2} {f : Rnd → Val → Val → Val} {A B r : Nat → Nat → Val}
    (runs : FormRuns s ⟨c, a.toNat :: fsrcRegs b, [], [d.toNat], []⟩ g t lo)
    (first : ∀ l i, elemOf ty b.mods.1 (g.reg (s.core s.cur.core) a.toNat (from_ c.u lo l)) i = A l i)
    (second : ∀ l i, elemOf ty b.mods.2 (fsrc2Word (g.src (s.core s.cur.core) (from_ c.u lo l)) ty b) i = B l i)
    (value : ∀ l i, f (rndOf b.rm) (A l i) (B l i) = r l i) :
    s.vec (float2 c ty d a b f) = .next (wrote s t fun l => wordsOut
      [(d.toNat, elemsWord ty fun e => encodeVal ty.fmt (rndOf b.rm) false (r l e))]) := by
  refine vec_wrote runs rfl ?_ rfl rfl _ fun l => ?_
  · rw [float2, lanewise, fsrc_eq]
  · simp only [← value, ← first, ← second, ← eachElem_eq]
    rfl

/-- A float instruction of three sources writes its exact results, each rounded once to the element's format. -/
theorem float3_writes {b : FSrc3} {f : Rnd → Val → Val → Val → Val} {A B C r : Nat → Nat → Val}
    (runs : FormRuns s ⟨c, a.toNat :: fsrcRegs3 b, [], [d.toNat], []⟩ g t lo)
    (first : ∀ l i, elemOf ty b.mods.1 (g.reg (s.core s.cur.core) a.toNat (from_ c.u lo l)) i = A l i)
    (second : ∀ l i, elemOf ty b.mods.2.1 (fsrc3Word (g.src (s.core s.cur.core) (from_ c.u lo l)) ty b) i = B l i)
    (third : ∀ l i, elemOf ty b.mods.2.2 (g.reg (s.core s.cur.core) b.cReg (from_ c.u lo l)) i = C l i)
    (value : ∀ l i, f (rndOf b.rm) (A l i) (B l i) (C l i) = r l i) :
    s.vec (float3 c ty d a b f) = .next (wrote s t fun l => wordsOut
      [(d.toNat, elemsWord ty fun e => encodeVal ty.fmt (rndOf b.rm) false (r l e))]) := by
  refine vec_wrote runs rfl ?_ rfl rfl _ fun l => ?_
  · rw [float3, lanewise, fsrc3_eq]
  · simp only [← value, ← first, ← second, ← third, ← eachElem_eq]
    rfl

end

/-! ## An element replaced (R255) -/

/-- The three parts of a register with an element replaced: the bits above, the element, the bits below. -/
theorem mergeElem_toNat {n i : Nat} (v : Word) (k : Nat) (fits : n * (i + 1) ≤ 32) :
    (mergeElem n i v k).toNat =
      2 ^ (n * i) * (2 ^ n * (v.toNat / 2 ^ (n * (i + 1))) + k % 2 ^ n) + v.toNat % 2 ^ (n * i) := by
  have split : 2 ^ (n * (i + 1)) = 2 ^ (n * i) * 2 ^ n := by rw [Nat.mul_succ, pow_add]
  have element : k * 2 ^ (n * i) % 2 ^ (n * (i + 1)) = 2 ^ (n * i) * (k % 2 ^ n) := by
    rw [split, mul_comm k, Nat.mul_mod_mul_left]
  have parts : v.toNat / 2 ^ (n * (i + 1)) * 2 ^ (n * (i + 1)) + 2 ^ (n * i) * (k % 2 ^ n) + v.toNat % 2 ^ (n * i) =
      2 ^ (n * i) * (2 ^ n * (v.toNat / 2 ^ (n * (i + 1))) + k % 2 ^ n) + v.toNat % 2 ^ (n * i) := by
    rw [split]; ring
  have inner : 2 ^ (n * i) * (k % 2 ^ n) + v.toNat % 2 ^ (n * i) < 2 ^ (n * (i + 1)) := by
    have := Nat.mod_lt k (Nat.two_pow_pos n)
    have := Nat.mod_lt v.toNat (Nat.two_pow_pos (n * i))
    calc 2 ^ (n * i) * (k % 2 ^ n) + v.toNat % 2 ^ (n * i) < 2 ^ (n * i) * (k % 2 ^ n + 1) := by rw [mul_add]; omega
      _ ≤ 2 ^ (n * i) * 2 ^ n := Nat.mul_le_mul_left _ (by omega)
      _ = 2 ^ (n * (i + 1)) := split.symm
  have small : v.toNat / 2 ^ (n * (i + 1)) * 2 ^ (n * (i + 1)) +
      (2 ^ (n * i) * (k % 2 ^ n) + v.toNat % 2 ^ (n * i)) < 2 ^ 32 := by
    have whole : 2 ^ 32 = 2 ^ (32 - n * (i + 1)) * 2 ^ (n * (i + 1)) := by rw [← pow_add]; congr 1; omega
    have above : v.toNat / 2 ^ (n * (i + 1)) < 2 ^ (32 - n * (i + 1)) :=
      Nat.div_lt_of_lt_mul (by rw [mul_comm, ← whole]; exact v.isLt)
    rw [whole]
    calc _ < (v.toNat / 2 ^ (n * (i + 1)) + 1) * 2 ^ (n * (i + 1)) := by rw [Nat.add_mul, one_mul]; omega
      _ ≤ _ := Nat.mul_le_mul_right _ above
  rw [mergeElem, BitVec.toNat_ofNat, element, ← add_assoc, ← parts] at *
  exact Nat.mod_eq_of_lt small

/-- A register with an element replaced holds the element's code in its place. -/
theorem mergeElem_element {n i : Nat} (v : Word) (k : Nat) (fits : n * (i + 1) ≤ 32) :
    (mergeElem n i v k).toNat / 2 ^ (n * i) % 2 ^ n = k % 2 ^ n := by
  rw [mergeElem_toNat v k fits, Nat.mul_add_div (Nat.two_pow_pos _),
    Nat.div_eq_of_lt (Nat.mod_lt _ (Nat.two_pow_pos _)), add_zero, Nat.mul_add_mod, Nat.mod_mod]

/-- Every other bit keeps its value. -/
theorem mergeElem_other {n i : Nat} (v : Word) (k : Nat) (fits : n * (i + 1) ≤ 32) {j : Nat}
    (other : j < n * i ∨ n * (i + 1) ≤ j) : (mergeElem n i v k).getLsbD j = v.getLsbD j := by
  have low := Nat.mod_lt v.toNat (Nat.two_pow_pos (n * i))
  rw [BitVec.getLsbD, BitVec.getLsbD, mergeElem_toNat v k fits]
  rcases other with below | above
  · rw [Nat.testBit_two_pow_mul_add _ low, if_pos below, Nat.testBit_mod_two_pow]
    simp [below]
  · have size : n * (i + 1) = n * i + n := Nat.mul_succ ..
    rw [Nat.testBit_two_pow_mul_add _ low, if_neg (by omega),
      Nat.testBit_two_pow_mul_add _ (Nat.mod_lt k (Nat.two_pow_pos n)), if_neg (by omega), Nat.testBit_div_two_pow]
    congr 1
    omega

/-! ## NaN sources (R248) -/

theorem elemOf_nan {v : Word} (h : isNan32 v) (m : SMod) : elemOf .f32 m v 0 = .nan := by
  obtain ⟨exponent, fraction⟩ := h
  have e : v.toNat / 2 ^ 23 % 2 ^ 8 = 255 := by
    simpa [Nat.shiftRight_eq_div_pow] using congrArg BitVec.toNat exponent
  have f : v.toNat % 2 ^ 23 ≠ 0 := fun zero => fraction (BitVec.eq_of_toNat_eq (by simpa using zero))
  have exponent' : v.toNat % 2 ^ 31 / 2 ^ 23 = 255 := by omega
  have fraction' : v.toNat % 2 ^ 31 % 2 ^ 23 ≠ 0 := by omega
  simp_all [elemOf, FTy.bits, FTy.fmt, decodeVal, ffmt, FFmt.decode, Val.modify]

/-- Where the exact results of the lanes are NaN, the canonical NaN is written. -/
theorem wrote_nan {s : State} {t : LaneMask} {d : Reg} {r : Rnd} {value : Nat → Nat → Val}
    (nan : ∀ l ∈ lanesOf t, value l 0 = .nan) :
    wrote s t (fun l => wordsOut [(d.toNat, elemsWord .f32 fun e => encodeVal FTy.f32.fmt r false (value l e))]) =
      wrote s t fun _ => wordsOut [(d.toNat, 0x7FC00000#32)] := by
  unfold wrote
  congr 2
  refine List.map_congr_left fun l taken => ?_
  simp only [elemsWord, nan l taken]
  rfl

theorem mul_nan {v w : Val} (h : v = .nan ∨ w = .nan) : v.mul w = .nan := by
  rcases h with rfl | rfl
  · rfl
  · cases v <;> rfl

theorem exactSum_nan (r : Rnd) {v w : Val} (h : v = .nan ∨ w = .nan) : exactSum r [v, w] = .nan := by
  rw [exactSum, if_pos]
  rcases h with rfl | rfl <;> simp

end Sys2Proof.Machine

namespace Sys2Proof.Slice0
open Sys2Proof.Machine

theorem float_two : floatTwo := by
  intro s g t lo c ty d a b runs x plain rm ma mb A B gives
  have writes : ∀ (f : Rnd → Val → Val → Val), s.vec (float2 c ty d a b f) = .next (wrote s t fun l => wordsOut
      [(d.toNat, elemsWord ty fun e => encodeVal ty.fmt (rndOf rm) false (f (rndOf rm) (A l e) (B l e)))]) := fun f => by
    cases b <;> exact float2_writes runs (fun l i => rfl) (fun l i => rfl) fun l i => rfl
  simp only [gives, ← pick_eq_lesser, ← pick_eq_greater]
  exact ⟨writes _, writes _, writes _, writes _, writes _, writes _⟩

theorem float_three : floatThree := by
  intro s g t lo c ty d a b runs x plain rm m A B C gives
  have writes : ∀ (f : Rnd → Val → Val → Val → Val), s.vec (float3 c ty d a b f) = .next (wrote s t fun l => wordsOut
      [(d.toNat, elemsWord ty fun e =>
        encodeVal ty.fmt (rndOf rm) false (f (rndOf rm) (A l e) (B l e) (C l e)))]) := fun f => by
    cases b <;> exact float3_writes runs (fun l i => rfl) (fun l i => rfl) (fun l i => rfl) fun l i => rfl
  simp only [gives, ← pick_eq_lesser, ← pick_eq_greater]
  exact ⟨writes _, writes _⟩

theorem cvt_result : cvtResult := by
  intro s g t lo f c df rm sat sf sei dei d a form runs x n w fits
  cases form
  refine ⟨_, vec_wrote runs rfl rfl rfl rfl (fun l => wordsOut [(d.toNat, mergeElem n dei.toNat
    (g.reg x d.toNat (from_ c.u lo l)) (encodeVal df.toNat (rndOf rm) sat (decodeVal sf.toNat
      ((g.reg x a.toNat (from_ c.u lo l)).toNat / 2 ^ (w * sei.toNat) % 2 ^ w))))]) fun l => rfl, fun l => ?_⟩
  exact ⟨mergeElem_element _ _ fits, fun k other => mergeElem_other _ _ fits other⟩

/-- Settles O60: each is a lane-wise operation whose elements are exact values rounded once. -/
theorem floatResults : Obligations.FloatResults := ⟨float_two, float_three, cvt_result⟩

/-- Settles O8, from what the instructions give in every type: an exact result that is NaN is encoded as the
canonical one. -/
theorem floatNan : Obligations.FloatNan := by
  intro s g t lo c rm d a b k x nan m src gives
  have value : ∀ r, nan r → ∀ l ∈ lanesOf t, elemOf .f32 m (g.reg x r.toNat (from_ c.u lo l)) 0 = .nan :=
    fun r source l taken => elemOf_nan (source l taken) m
  have either : ∀ {l p q}, l ∈ lanesOf t → nan p ∨ nan q → elemOf .f32 m (g.reg x p.toNat (from_ c.u lo l)) 0 = .nan ∨
      elemOf .f32 m (g.reg x q.toNat (from_ c.u lo l)) 0 = .nan := fun taken one =>
    one.imp (value _ · _ taken) (value _ · _ taken)
  refine ⟨fun runs one => ?_, fun runs both => ?_, fun runs one => ?_⟩
  · obtain ⟨sum, difference, product, -⟩ := float_two s g t lo c .f32 d a src runs
    refine ⟨sum.trans ?_, difference.trans ?_, product.trans ?_⟩ <;> refine congrArg _ (wrote_nan fun l taken => ?_)
    · exact exactSum_nan _ (either taken one)
    · exact exactSum_nan _ ((either taken one).imp_right (congrArg (Val.modify _)))
    · exact mul_nan (either taken one)
  · obtain ⟨-, -, -, least, greatest, -⟩ := float_two s g t lo c .f32 d a src runs
    refine ⟨least.trans ?_, greatest.trans ?_⟩ <;> refine congrArg _ (wrote_nan fun l taken => ?_)
    · exact (if_pos (value a both.1 l taken)).trans (value b both.2 l taken)
    · exact (if_pos (value a both.1 l taken)).trans (value b both.2 l taken)
  · refine (float_three s g t lo c .f32 d a (.reg rm m m m b k) runs).1.trans (congrArg _ (wrote_nan fun l taken => ?_))
    rcases or_assoc.mpr one with factor | addend
    · exact exactSum_nan _ (.inl (mul_nan (either taken factor)))
    · exact exactSum_nan _ (.inr (value k addend l taken))

end Sys2Proof.Slice0
end

section
/-! SUPPORT. MMA, MLOOP and MLOOPS at issue (R268, R274): the steps they ask for, and the checks in their order. -/

namespace Sys2Proof.Machine
open Sys2Proof.Slice0

/-- The steps that MMA, MLOOP or MLOOPS asks for (R274). -/
def Group.stepsOf (g : Group) (x : Core) (lo n : Nat) (t : MTarget) (a b : Reg) (k sa sb : Nat) (sp scr : Bool) : MSteps :=
  { fmt := slotFmt (g.slot n), sp := sp, scr := scr, k := k, sa := sa, sb := sb
    a := if scr then (g.reg x a.toNat lo).toNat else g.vecOfs a.toNat
    b := if scr then (g.reg x b.toNat lo).toNat else g.vecOfs b.toNat
    mrec := if sp then (g.mrecs[t.stream.toNat]?).getD 0 else 0
    srec := if slotFmt (g.slot n) = 6 then (g.srecs[t.stream.toNat]?).getD 0 else 0
    next := 0, sums := none }

/-- The records that steps read can be used (R265, R266). -/
def MSteps.recordsOk (q : MSteps) : Bool := !((q.sp && !metaOk q.mrec) || (q.fmt == 6 && !scaleOk q.srec))

theorem MSteps.recordsOk_iff {q : MSteps} :
    q.recordsOk = true ↔ (q.sp = true → metaOk q.mrec = true) ∧ (q.fmt = 6 → scaleOk q.srec = true) := by
  cases h : q.sp <;> simp [MSteps.recordsOk, h, or_iff_not_imp_left]

/-- The fragments of steps start where their alignment allows (R274). -/
def MSteps.aligned (q : MSteps) : Bool :=
  !(q.a % (if q.scr then 128 else 2048) != 0 || q.b % (if q.scr then 128 else 2048) != 0)

theorem MSteps.aligned_iff {q : MSteps} : q.aligned = true ↔
    q.a % (if q.scr then 128 else 2048) = 0 ∧ q.b % (if q.scr then 128 else 2048) = 0 := by
  simp [MSteps.aligned]

/-- The fragments that steps walk through the window lie in it (R274). -/
def MSteps.inside (q : MSteps) (g : Group) : Bool :=
  let within := fun (o st len : Nat) => (List.range q.k).all fun i => g.inWindow (o + 2048 * st * i) len
  q.scr || (within q.a q.sa (mBytes q.fmt q.sp).1 && within q.b q.sb (mBytes q.fmt q.sp).2)

theorem MSteps.inside_iff {q : MSteps} {g : Group} : q.inside g = true ↔ (q.scr = false → ∀ j < q.k,
    g.inWindow (q.a + 2048 * q.sa * j) (mBytes q.fmt q.sp).1 = true ∧
      g.inWindow (q.b + 2048 * q.sb * j) (mBytes q.fmt q.sp).2 = true) := by
  cases h : q.scr <;> simp [MSteps.inside, h, forall_and]

theorem stepFmt_iff {w : DWord} : stepFmt w = true ↔ slotOk w = true ∧ 2 ≤ slotFmt w ∧ slotFmt w ≤ 6 := by
  simp [stepFmt, and_assoc]

/-- Each of the three is the one issue with its own counts. -/
theorem exec_mloopM {i : Instr} (s : State) {p : Pred} {n : Nat} {t : MTarget} {a b : Reg} {k sa sb : Nat} {sp scr : Bool}
    (form : stepsForm i = some (p, n, t, a, b, k, sa, sb, sp, scr)) :
    ∃ slot : BitVec 3, slot.toNat = n ∧ exec i s = run s (s.mloopM p slot t a b k sa sb sp scr) := by
  cases i <;> cases form <;> exact ⟨_, rfl, rfl⟩

section
variable {s : State} {p : Pred} {g : Group} {m : LaneMask} {lo : Nat} (h : Turn s p g m lo) (idle : g.pend = [])
  {slot : BitVec 3} {t : MTarget} {a b : Reg} {k sa sb : Nat} {sp scr : Bool}
  (ready : scr = true → Ready g [a.toNat, b.toNat])
include h idle ready

/-- The checks of R274 in their order, once the registers can be used and the group's writes are performed. -/
theorem mloopM_checks {q : MSteps} (asked : g.stepsOf (s.core s.cur.core) lo slot.toNat t a b k sa sb sp scr = q) :
    s.mloopM p slot t a b k sa sb sp scr = (do
      trapIf (!stepFmt (g.slot slot.toNat)) .sealBad lo
      trapIf (!q.recordsOk) .sealBad lo
      trapIf (!q.aligned) .misaligned lo
      trapIf (!g.accOk t.acc.toNat || !q.inside g) .regBounds lo
      trapIf (q.ranges.any fun r => decide (r.2 > s.scrSize g.team s.cur.core)) .segLimit lo
      waitIf (decide (g.cnt.tl ≥ 31))
      .ok ((queued s g t (.steps q) lo true).next.updGroup s.cur.core s.cur.slot fun q =>
        q.countRc (g.slot slot.toNat))) := by
  subst asked
  rw [State.mloopM, turn_group h, idle]
  simp only [MSteps.recordsOk, MSteps.aligned, Bool.not_not, ← queueOp_queued h]
  cases scr
  case false => rfl
  case true =>
    simp only [if_true, needRegs_ready lo (ready rfl)]
    rfl

end

end Sys2Proof.Machine

namespace Sys2Proof.Slice0
open Sys2Proof.Machine

/-- Settles O34: the checks of R274 in their order, and past them the steps queued. -/
theorem matrixStepsIssue : Obligations.MatrixStepsIssue := by
  intro i s g m lo p n t a b k sa sb sp scr form h ready idle x w fmt q al records
  obtain ⟨slot, rfl, issued⟩ := exec_mloopM s form
  have checks := mloopM_checks h idle ready (q := q) (t := t) (k := k) (sa := sa) (sb := sb) (sp := sp) rfl
  rw [issued, checks]
  refine ⟨fun unfit => ?noStep, fun sound low high usable => ⟨fun off => ?misaligned, fun onA onB =>
    ⟨fun outside => ?bounds, fun formed inside fits room => ?queues⟩⟩⟩
  case noStep =>
    have bad : stepFmt (g.slot slot.toNat) = false := by
      rw [← Bool.not_eq_true, stepFmt_iff]
      rintro ⟨sound, low, high⟩
      rcases unfit with unsound | least | most
      · exact absurd sound (by rw [unsound]; decide)
      · exact absurd low (Nat.not_le.mpr least)
      · exact absurd high (Nat.not_le.mpr most)
    rw [bad, Bool.not_false, trapIf_true, M.error_bind, run_trap]
  all_goals
    have good : stepFmt (g.slot slot.toNat) = true := stepFmt_iff.mpr ⟨sound, low, high⟩
    have recorded : q.recordsOk = true := MSteps.recordsOk_iff.mpr usable
    simp only [good, recorded, Bool.not_true, trapIf_false, M.ok_bind]
  case misaligned =>
    have bad : q.aligned = false := by
      rw [← Bool.not_eq_true, MSteps.aligned_iff]
      exact fun ⟨onA, onB⟩ => off.elim (· onA) (· onB)
    rw [bad, Bool.not_false, trapIf_true, M.error_bind, run_trap]
  all_goals
    have aligned : q.aligned = true := MSteps.aligned_iff.mpr ⟨onA, onB⟩
    simp only [aligned, Bool.not_true, trapIf_false, M.ok_bind]
  case bounds =>
    rw [outside, Bool.not_false, Bool.true_or, trapIf_true, M.error_bind, run_trap]
  case queues =>
    have within : q.inside g = true := MSteps.inside_iff.mpr inside
    have fits : (q.ranges.any fun r => decide (r.2 > s.scrSize g.team s.cur.core)) = false := by
      simpa using fits
    simp only [formed, within, fits, Bool.not_true, Bool.or_self, trapIf_false, M.ok_bind, ge_iff_le,
      decide_eq_false (Nat.not_le.mpr room), waitIf_false, run_ok]
    rfl

end Sys2Proof.Slice0
end

section
/-! SUPPORT. The matrix engine's event (R267 to R271): whose turn it is among the streams, and what the operation at
the head of one does. -/

namespace Sys2Proof.Machine
open Sys2Proof.Slice0

/-- What the operation `o` at the head of a stream does in its turn. -/
def State.actOp (s : State) (core slot stream : Nat) (g : Group) (o : MOp) : State :=
  match o.kind with
  | .steps q =>
    match q.sums with
    | none => s.beginStep core slot stream g o q
    | some l => s.endStep core slot stream o q l
  | .zero cnt =>
    s.beginRows core slot stream o
      ((List.range cnt).flatMap fun i => rowWrites (accAt o.views (o.acc + i)) 128 fun _ => 0)
      ((List.range cnt).map fun i => accBlock o.views (o.acc + i)) (some true)
  | .drain w sl zr dst rc => s.beginDrain core slot stream g o w sl zr dst rc
  | .ldacc w sl src rc => s.beginLoad core slot stream g o w sl src rc
  | .rest ws blocks z => s.endRows core slot stream ws blocks z
  | .mark tinc tl => (s.tlAdd core tl tinc.toNat).endOp core slot stream false

theorem Group.outranked_iff {g : Group} {st : Nat} {o : MOp} : g.outranked st o = true ↔
    g.det = true ∧ st ≠ 4 ∧ ∃ l ∈ g.streams.take 4, ∃ e ∈ l, e.seq < o.seq := by
  simp [Group.outranked, copyStream, and_assoc]

/-- No tile among some is FILLING. -/
theorem Core.filling_eq_false {x : Core} {ts : List Nat} :
    ts.any x.filling = false ↔ ∀ i ∈ ts, x.tv i = true ∨ x.tc i = true := by
  simp [Core.filling, ← Bool.not_eq_true, imp_iff_not_or, or_comm]

section
variable {s : State} {c n st : Nat} {g : Group} {o : MOp} {rest : List MOp} (hg : s.group c n = some g)
  (head : g.streams[st]? = some (o :: rest))
include hg head

theorem outranked_waits (waits : g.outranked st o = true) : exec (.matrixStep c n st) s = .next s := by
  simp only [exec, execMatrixStep, hg, head, waits, Option.getD_some, Bool.true_or, if_true]

/-- The operation at the head acts when it is its turn and nothing stops its team. -/
theorem head_acts (first : g.outranked st o = false) (goes : s.stopping g.team = false) :
    exec (.matrixStep c n st) s = .next (s.actOp c n st g o) := by
  simp only [exec, execMatrixStep, hg, head, first, goes, Option.getD_some, Bool.false_and, Bool.or_self,
    Bool.false_eq_true, if_false]
  rfl

end

/-- A FILLING tile among some. -/
theorem Core.filling_eq_true {x : Core} {ts : List Nat} :
    ts.any x.filling = true ↔ ∃ i ∈ ts, ¬ (x.tv i = true ∨ x.tc i = true) := by
  rw [← Bool.not_eq_false, Core.filling_eq_false]
  push Not
  rfl

/-! ## MDRAIN, MLDACC and a step: they wait, or read (R269, R276, R277) -/

section
variable {s : State} {c n st : Nat} {g : Group} {o : MOp}

theorem beginDrain_waits {w : DWord} {sl : Nat} {zr : Bool} {dst : Nat} {rc : BitVec 24}
    (filling : (g.accTiles o).any (s.core c).filling = true) : s.beginDrain c n st g o w sl zr dst rc = s := by
  simp only [State.beginDrain, filling, if_true]

theorem beginDrain_reads {w : DWord} {sl : Nat} {zr : Bool} {dst : Nat} {rc : BitVec 24}
    (full : (g.accTiles o).any (s.core c).filling = false)
    (sound : g.winBad (s.core c) c (accAt o.views o.acc) 16384 = none) :
    s.beginDrain c n st g o w sl zr dst rc = (s.beginRows c n st o (s.drainRows c g o w sl zr dst rc)
      [accBlock o.views o.acc] (if zr then some true else none)).updGroup c n fun q =>
        { q with tilesRead := (s.core c).fullOf (g.accTiles o) ++ q.tilesRead } := by
  simp only [State.beginDrain, full, sound, Bool.false_eq_true, if_false]

theorem beginLoad_waits {w : DWord} {sl src : Nat} {rc : BitVec 24}
    (filling : (g.blockTiles src (512 * fmtBits (slotFmt w))).any (s.core c).filling = true) :
    s.beginLoad c n st g o w sl src rc = s := by
  simp only [State.beginLoad, filling, if_true]

theorem beginLoad_reads {w : DWord} {sl src : Nat} {rc : BitVec 24}
    (full : (g.blockTiles src (512 * fmtBits (slotFmt w))).any (s.core c).filling = false)
    (sound : g.winBad (s.core c) c src (512 * fmtBits (slotFmt w)) = none) :
    s.beginLoad c n st g o w sl src rc = (s.beginRows c n st o (s.loadRows c g o w sl src rc)
      [accBlock o.views o.acc] (some false)).updGroup c n fun q =>
        { q with tilesRead := (s.core c).fullOf (g.blockTiles src (512 * fmtBits (slotFmt w))) ++ q.tilesRead } := by
  simp only [State.beginLoad, full, sound, Bool.false_eq_true, if_false]

/-- The tiles and the scratchpad lines that a step reads are not all there (R268, R269). -/
def State.stepWaits (s : State) (c : Nat) (g : Group) (o : MOp) (q : MSteps) : Bool :=
  (q.tiles g ++ g.accTiles o).any (s.core c).filling ||
    (rangeLines q.stepRanges).any fun l => !s.present c g.team (128 * l)

theorem State.stepWaits_iff {q : MSteps} : s.stepWaits c g o q = true ↔
    (∃ i ∈ q.tiles g ++ g.accTiles o, ¬ ((s.core c).tv i = true ∨ (s.core c).tc i = true)) ∨
      ∃ l ∈ rangeLines q.stepRanges, s.present c g.team (128 * l) = false := by
  rw [State.stepWaits, Bool.or_eq_true, Core.filling_eq_true]
  simp

theorem beginStep_waits {q : MSteps} (waits : s.stepWaits c g o q = true) : s.beginStep c n st g o q = s :=
  if_pos waits

theorem beginStep_reads {q : MSteps} (ready : s.stepWaits c g o q = false)
    (sound : s.mpoison c g q (accAt o.views o.acc) = none) :
    let r := stepSums q (s.mread c g q)
    let first := Config.stepElems s.steps
    s.beginStep c n st g o q =
      ((s.addSums c n (accAt o.views o.acc) (r.1.filter fun v => first.getLsbD v.idx)).updGroup c n fun k =>
        { (k.updAcc (accBlock o.views o.acc) fun a => { a with
            rowf := a.rowf ||| r.2.1, colf := a.colf ||| r.2.2.1 }) with
          streams := listUpd (fun l => { o with kind := .steps { q with
            sums := some (r.1.filter fun v => !first.getLsbD v.idx) } } :: l.drop 1) k.streams st
          mstat := k.mstat ||| (if r.2.2.2 then 2 else 0) ||| (if r.2.1 ≠ 0 ∨ r.2.2.1 ≠ 0 then 4 else 0) }).updGroup c n
        fun k => { k with tilesRead := (s.core c).fullOf (q.tiles g ++ g.accTiles o) ++ k.tilesRead } := by
  intro r first
  unfold State.stepWaits at ready
  rw [State.updGroup_updGroup]
  simp only [State.beginStep, ready, sound, Bool.false_eq_true, if_false, Bool.or_eq_true, bne_iff_ne]
  rfl

end

end Sys2Proof.Machine

namespace Sys2Proof.Slice0
open Sys2Proof.Machine

/-- Settles O36: the operation whose turn it is acts. -/
theorem matrixEngineActs : Obligations.MatrixEngineActs := by
  intro s c n st g o rest hg head goes acts done begins free accTiles reads
  refine ⟨fun det inner earlier => outranked_waits hg head (Group.outranked_iff.mpr ⟨det, by omega, earlier⟩),
    fun turn => ?_⟩
  have first : g.outranked st o = false := by
    rw [← Bool.not_eq_true, Group.outranked_iff]
    rintro ⟨det, inner, l, hl, e, he, earlier⟩
    rcases turn with other | copy | least
    · exact absurd det (by rw [other]; decide)
    · exact inner copy
    · exact absurd (least l hl e he) (by omega)
  have act := head_acts hg head first goes
  refine ⟨fun k kind => ?zero, fun inc tl kind => ?mark, fun w sl zr dst rc kind => ?drain,
    fun w sl src rc kind => ?ldacc, fun ws blocks z kind => ?rest, fun q l kind sums => ?ends, fun q kind sums => ?begins⟩
  all_goals
    simp only [State.actOp, kind] at act
  case zero => exact act
  case mark => exact act
  case rest => exact act
  case drain =>
    refine ⟨fun filling => ?_, fun full sound => ?_⟩
    · exact act.trans (congrArg _ (beginDrain_waits (Core.filling_eq_true.mpr filling)))
    · exact act.trans (congrArg _ (beginDrain_reads (Core.filling_eq_false.mpr full) sound))
  case ldacc =>
    refine ⟨fun filling => ?_, fun full sound => ?_⟩
    · exact act.trans (congrArg _ (beginLoad_waits (Core.filling_eq_true.mpr filling)))
    · exact act.trans (congrArg _ (beginLoad_reads (Core.filling_eq_false.mpr full) sound))
  case ends =>
    simp only [sums] at act
    refine ⟨fun last => ?_, fun more => ?_⟩
    · exact act.trans (congrArg _ (if_neg (Nat.not_lt.mpr last)))
    · exact act.trans (congrArg _ (if_pos more))
  case begins =>
    simp only [sums] at act
    refine ⟨fun missing => ?_, fun full there sound => ?_⟩
    · exact act.trans (congrArg _ (beginStep_waits (State.stepWaits_iff.mpr missing)))
    · have ready : s.stepWaits c g o q = false := by
        rw [← Bool.not_eq_true, State.stepWaits_iff]
        rintro (⟨i, hi, filling⟩ | ⟨l, hl, absent⟩)
        · exact filling (full i hi)
        · exact absurd (there l hl) (by rw [absent]; decide)
      exact act.trans (congrArg _ (beginStep_reads ready sound))

end Sys2Proof.Slice0
end

section
/-! SUPPORT. MZERO in its turn (R275): what its two events leave of a window byte that none of its rows' writes
reaches. -/

namespace Sys2Proof.Machine
open Sys2Proof.Slice0

/-- From `s` to `t` group `n` of core `c` keeps its window and its mode, the core its roles and byte `i` of row `key`,
and every core what it owes CACHE. -/
structure WinKept (c n key i : Nat) (s t : State) : Prop where
  group : ∀ g, s.group c n = some g → ∃ q, t.group c n = some q ∧ q.segReg = g.segReg ∧ q.segMat = g.segMat ∧ q.det = g.det
  roles : (t.core c).roles = (s.core c).roles
  byte : lineByte ((t.core c).row key) i = lineByte ((s.core c).row key) i
  owes : ∀ k, (t.core k).owes = (s.core k).owes

section
variable {c n key i : Nat} {s t u : State}

theorem WinKept.trans (a : WinKept c n key i s t) (b : WinKept c n key i t u) : WinKept c n key i s u where
  group g hg := by
    obtain ⟨q, hq, reg, mat, det⟩ := a.group g hg
    obtain ⟨p, hp, reg', mat', det'⟩ := b.group q hq
    exact ⟨p, hp, reg'.trans reg, mat'.trans mat, det'.trans det⟩
  roles := b.roles.trans a.roles
  byte := b.byte.trans a.byte
  owes k := (b.owes k).trans (a.owes k)

theorem WinKept.of_frame (frame : RegFrame c n s t)
    (byte : lineByte ((t.core c).row key) i = lineByte ((s.core c).row key) i) : WinKept c n key i s t where
  group g hg := by
    obtain ⟨q, hq, kept⟩ := frame.group g hg
    have reg := congrArg Group.segReg kept
    have mat := congrArg Group.segMat kept
    have det := congrArg Group.det kept
    exact ⟨q, hq, reg, mat, det⟩
  roles := frame.roles
  byte := byte
  owes k := by
    by_cases own : k = c
    · subst own
      have kept := congrArg Core.owes frame.rest
      exact kept
    · rw [frame.cores k own]

/-- A change of the group that leaves its window and its mode. -/
theorem WinKept.updGroup (s : State) (f : Group → Group)
    (kept : ∀ g, (f g).segReg = g.segReg ∧ (f g).segMat = g.segMat ∧ (f g).det = g.det) :
    WinKept c n key i s (s.updGroup c n f) := by
  cases hg : s.group c n with
  | none =>
    rw [show s.updGroup c n f = s by simp [State.updGroup, hg]]
    exact ⟨fun g h => ⟨g, h, rfl, rfl, rfl⟩, rfl, rfl, fun k => rfl⟩
  | some g =>
    rw [State.updGroup_some _ _ _ _ hg]
    refine ⟨fun q hq => ⟨f g, by simp, ?_⟩, ?_, ?_, fun k => ?_⟩
    · cases hg.symm.trans hq
      exact kept g
    · simp [State.setGroup]
    · rw [State.setGroup, State.core_updCore_self]; rfl
    · by_cases own : k = c
      · subst own
        rw [State.setGroup, State.core_updCore_self]; rfl
      · rw [State.setGroup, State.core_updCore_ne _ _ own]

/-- Row `key` is none of those that the writes `ws` reach through the window. -/
def Spared (g : Group) (x : Core) (key : Nat) (ws : List RowWrite) : Prop :=
  ∀ e ∈ ws, (g.wAddr (128 * e.row)).bind x.rowKey ≠ some key

/-- What is still to be written lies in the same rows. -/
theorem Spared.rest {g : Group} {x : Core} {ws : List RowWrite} (spared : Spared g x key ws) (first : Nat → LineMask) :
    Spared g x key (restRows ws first) := by
  intro e he
  obtain ⟨e', he', rfl⟩ := List.mem_map.mp he
  exact spared e'.1 ((List.mem_zipIdx' he').2 ▸ List.getElem_mem _)

theorem Spared.kept {g q : Group} {ws : List RowWrite} (spared : Spared g (s.core c) key ws) (reg : q.segReg = g.segReg)
    (mat : q.segMat = g.segMat) (roles : (t.core c).roles = (s.core c).roles) : Spared q (t.core c) key ws := by
  have rows : (t.core c).rowKey = (s.core c).rowKey := by funext r; rw [Core.rowKey, Core.rowKey, roles]
  intro e he
  rw [rows, Group.wAddr, reg, mat]
  exact spared e he

/-- Some words of an operation's rows written, a row that they do not reach stays. -/
theorem State.writeRows_kept {s : State} {g : Group} (hg : s.group c n = some g) {ws : List RowWrite} (small : i < 128)
    (m : Nat → LineMask) (spared : Spared g (s.core c) key ws) :
    RegFrame c n s (s.writeRows c n ws m) ∧ WinKept c n key i s (s.writeRows c n ws m) := by
  suffices fold : ∀ (l : List (RowWrite × Nat)) (t u : State), (∀ e ∈ l, e.1 ∈ ws) → RegFrame c n s t →
      lineByte ((t.core c).row key) i = lineByte ((s.core c).row key) i →
      l.foldl (fun s e => if e.1.left &&& m e.2 == 0 then s
        else s.putWinRow c n e.1.row e.1.data (e.1.left &&& m e.2)) t = u →
      RegFrame c n s u ∧ lineByte ((u.core c).row key) i = lineByte ((s.core c).row key) i by
    obtain ⟨frame, byte⟩ := fold _ s (s.writeRows c n ws m) (fun e he => (List.mem_zipIdx' he).2 ▸ List.getElem_mem _)
      (RegFrame.refl c n s) rfl rfl
    exact ⟨frame, .of_frame frame byte⟩
  intro l
  induction l with
  | nil => rintro t u - frame byte rfl; exact ⟨frame, byte⟩
  | cons e l ih =>
    intro t u among frame byte last
    have later := fun e' he' => among e' (List.mem_cons_of_mem _ he')
    rw [List.foldl_cons] at last
    split at last
    · exact ih t u later frame byte last
    · obtain ⟨one, rows⟩ := State.putWinRow_frame t c n e.1.row e.1.data (e.1.left &&& m e.2)
      obtain ⟨q, hq, reg, mat, -⟩ := frame.seg hg
      refine ih _ u later (frame.trans one) ((rows q hq key i small ?_).trans byte) last
      rintro ⟨r, hr, hk, -⟩
      exact spared.kept reg mat frame.roles e.1 (among e List.mem_cons_self) (by rw [hr, Option.bind_some, hk])

/-- A core without the poison marks of the sectors that the writes `ws` of group `g` cover whole. -/
def Core.cleaned (g : Group) (ws : List RowWrite) (x : Core) : Core :=
  ws.foldl (fun x e =>
    match (g.wAddr (128 * e.row)).bind x.rowKey with
    | some k => { x with wellPoison :=
        x.wellPoison.filter fun p => !(p / 4 == k && (wholeSectors e.full).contains (p % 4)) }
    | none => x) x

theorem Core.cleaned_eq (g : Group) (ws : List RowWrite) (x : Core) :
    ∃ p : List Nat, x.cleaned g ws = { x with wellPoison := p } := by
  induction ws generalizing x with
  | nil => exact ⟨x.wellPoison, rfl⟩
  | cons e ws ih =>
    rw [Core.cleaned, List.foldl_cons]
    split
    · obtain ⟨p, same⟩ := ih _
      exact ⟨p, same⟩
    · exact ih x

/-- Poison marks taken away leave rows and windows. -/
theorem WinKept.cleanRows {s : State} {g : Group} (hg : s.group c n = some g) (ws : List RowWrite) :
    WinKept c n key i s (s.cleanRows c n ws) := by
  have cleans : s.cleanRows c n ws = s.setCore c ((s.core c).cleaned g ws) := by
    rw [State.cleanRows, hg]
    rfl
  obtain ⟨p, same⟩ := Core.cleaned_eq g ws (s.core c)
  rw [cleans, same]
  refine .of_frame (RegFrame.setCore s c n _ rfl) ?_
  rw [State.core_setCore_self]
  rfl

/-- A cluster that owes CACHE nothing is as it was. -/
theorem State.settleCluster_quiet {s : State} (quiet : ∀ j < 4, (s.core (c / 4 * 4 + j)).owes = false) :
    s.settleCluster c = s := by
  have still : ∀ j < 4, s.settleOwed (c / 4 * 4 + j) = s := fun j hj => by rw [State.settleOwed, quiet j hj]; rfl
  simp only [State.settleCluster, show List.range 4 = [0, 1, 2, 3] from rfl, List.foldl_cons, List.foldl_nil,
    still 0 (by decide), still 1 (by decide), still 2 (by decide), still 3 (by decide)]

/-- An operation's second event leaves a row that its writes do not reach. -/
theorem WinKept.endRows {s : State} {g : Group} (hg : s.group c n = some g) {ws : List RowWrite} (small : i < 128)
    (spared : Spared g (s.core c) key ws) (quiet : ∀ j < 4, (s.core (c / 4 * 4 + j)).owes = false)
    (st : Nat) (blocks : List Nat) (z : Option Bool) : WinKept c n key i s (s.endRows c n st ws blocks z) := by
  have settled : ∀ (g : Group), (g.settleAccs blocks z).segReg = g.segReg ∧ (g.settleAccs blocks z).segMat = g.segMat ∧
      (g.settleAccs blocks z).det = g.det := by
    intro g
    rw [Group.settleAccs]
    induction blocks generalizing g with
    | nil => exact ⟨rfl, rfl, rfl⟩
    | cons b l ih => exact ih _
  have written := (State.writeRows_kept hg small (fun _ => BitVec.allOnes 128) spared).2
  obtain ⟨q, hq, -⟩ := written.group g hg
  have kept := ((written.trans (.cleanRows hq ws)).trans (.updGroup _ _ settled)).trans (.updGroup _ (·.popOp st true) fun g => ⟨rfl, rfl, rfl⟩)
  rw [State.endRows, State.endOp, State.settleCluster_quiet fun j hj => (kept.owes _).trans (quiet j hj)]
  exact kept

/-- An operation's first event leaves such a row, and the operation half done at its stream's head. -/
theorem WinKept.beginRows {s : State} {g : Group} (hg : s.group c n = some g) {ws : List RowWrite} (small : i < 128)
    (spared : Spared g (s.core c) key ws) {st : Nat} (o : MOp) {l : List MOp} (head : g.streams[st]? = some l)
    (blocks : List Nat) (z : Option Bool) :
    WinKept c n key i s (s.beginRows c n st o ws blocks z) ∧
      ∃ q, (s.beginRows c n st o ws blocks z).group c n = some q ∧ q.segReg = g.segReg ∧ q.segMat = g.segMat ∧
        q.det = g.det ∧ q.streams[st]? =
          some ({ o with kind := .rest (restRows ws (firstWords s.steps)) blocks z } :: l.drop 1) := by
  obtain ⟨frame, kept⟩ := State.writeRows_kept hg small (firstWords s.steps) spared
  refine ⟨kept.trans (.updGroup _ _ fun g => ⟨rfl, rfl, rfl⟩), ?_⟩
  obtain ⟨q, hq, same⟩ := frame.group g hg
  have reg := congrArg Group.segReg same
  have mat := congrArg Group.segMat same
  have det := congrArg Group.det same
  have streams := congrArg Group.streams same
  refine ⟨_, State.group_updGroup_self _ _ _ _ hq, reg, mat, det, ?_⟩
  simp only [Group.setOp, getElem?_listUpd, if_true]
  rw [show q.streams = g.streams from streams, head]
  rfl

end

end Sys2Proof.Machine

namespace Sys2Proof.Slice0
open Sys2Proof.Machine

/-- The event of an operation half done on a stream whose turn it is (R39, R271). -/
theorem half_done_acts {s : State} {c n st : Nat} {g : Group} {o : MOp} {rest : List MOp} (hg : s.group c n = some g)
    (head : g.streams[st]? = some (o :: rest)) (first : g.outranked st o = false) {ws : List RowWrite} {blocks : List Nat}
    {z : Option Bool} (half : o.kind = .rest ws blocks z) :
    exec (.matrixStep c n st) s = .next (s.endRows c n st ws blocks z) := by
  have may : g.mayStep o (o :: rest) = true := by simp [Group.mayStep, MOp.begun, half]
  simp only [exec, execMatrixStep, hg, head, first, may, half, Option.getD_some, Bool.not_true, Bool.and_false,
    Bool.or_self, Bool.false_eq_true, if_false]

/-- MZERO in its turn begins to write its accumulators' rows (R275). -/
theorem actOp_zero (s : State) (c n st : Nat) (g : Group) {o : MOp} {k : Nat} (kind : o.kind = .zero k) :
    s.actOp c n st g o = s.beginRows c n st o
      ((List.range k).flatMap fun i => rowWrites (accAt o.views (o.acc + i)) 128 fun _ => 0)
      ((List.range k).map fun i => accBlock o.views (o.acc + i)) (some true) := by
  rw [State.actOp, kind]

/-- One byte of a row as a number. -/
theorem lineNat_one (l : Line) (i : Nat) : lineNat l i 1 = (lineByte l i).toNat := by
  simp [lineNat, lineByte, Nat.shiftRight_eq_div_pow]

/-! ## A byte of an accumulator that MZERO does not write -/

/-- MZERO of the accumulator at the start of the MAT part. -/
def zeroOp : MOp :=
  { kind := .zero 1, acc := 0, seq := 0, pc := 0, iword := 0, lane := 0, views := { vec := 0, tile := 0, acc := 0x200000 } }

/-- A group whose REG segment ends 64 bytes into the window row at which its accumulator begins. -/
def overhung : Group :=
  { newGroup 0 0 0 1 (matPart + 64) 16384 zeroOp.views [] 0 false with streams := [[zeroOp], [], [], [], []] }

/-- Core 0 has one bank of REG and one of MAT, and byte 64 of the MAT bank's first row is one. -/
def overhanging : State :=
  { State.reset with
    cores := [(0, { Core.init with
      roles := { Core.init.roles with reg := [0], mat := [1] }, well := [(256, 1 <<< 512)], groups := [(0, overhung)] })] }

/-- The rows that the MZERO writes. -/
def zeroRows : List RowWrite := (List.range 1).flatMap fun i => rowWrites (accAt zeroOp.views (zeroOp.acc + i)) 128 fun _ => 0

theorem zeroRows_spare : Spared overhung (overhanging.core 0) 256 zeroRows := by
  unfold Spared
  decide +kernel

/-- The byte of the window read from the row that its own address names. -/
theorem overhung_reads {u : State} {q : Group} (hq : u.group 0 0 = some q) (kept : WinKept 0 0 256 64 overhanging u) :
    q.winNat (u.core 0) (accAt zeroOp.views 0 + 64) 1 = 1 := by
  obtain ⟨p, hp, reg, mat, -⟩ := kept.group overhung rfl
  cases hp.symm.trans hq
  have address : q.wAddr (accAt zeroOp.views 0 + 64) = some ⟨true, 64⟩ := by
    rw [Group.wAddr, reg, mat]
    decide
  have row : (u.core 0).rowKey ⟨true, 64⟩ = some 256 := by
    rw [Core.rowKey, kept.roles]
    decide +kernel
  have one : lineByte ((u.core 0).row 256) 64 = 1 := kept.byte.trans (by decide +kernel)
  simp only [Group.winNat, address, row]
  rw [lineNat_one, one]
  rfl

/-- Refutes O59: a REG segment whose size is no multiple of 128 and reaches past window offset 2^21 ends inside the first
row of the accumulator that the MAT part begins with. The model writes a window row by the address of its first byte,
here one of the REG segment without a bank, so the bytes of that row behind the end, which are the MAT segment's, are not
written. SEGSET gives no group such a size (R164), but the statement does not exclude one. -/
theorem not_mzeroZeroes : ¬ Obligations.MzeroZeroes := by
  rintro ⟨-, zeroes⟩
  have quiet : ∀ j < 4, (overhanging.core (0 / 4 * 4 + j)).owes = false := by decide +kernel
  obtain ⟨v, u, q, begins, ends, hq, -, all⟩ := zeroes overhanging 0 0 0 1 overhung zeroOp [] rfl rfl rfl rfl
    (by decide +kernel) quiet (by decide) (by decide) (by decide) (by decide +kernel)
  obtain ⟨-, bytes⟩ := all 0 (by decide)
  have first : exec (.matrixStep 0 0 0) overhanging =
      .next (overhanging.beginRows 0 0 0 zeroOp zeroRows [accBlock zeroOp.views 0] (some true)) :=
    (head_acts rfl rfl rfl (by decide +kernel)).trans (congrArg _ (actOp_zero overhanging 0 0 0 overhung (o := zeroOp) rfl))
  obtain rfl := Host.Outcome.next.inj (first.symm.trans begins)
  obtain ⟨kept, p, hp, reg, mat, det, head⟩ := WinKept.beginRows (key := 256) (i := 64) (s := overhanging) (n := 0) rfl
    (by decide) zeroRows_spare zeroOp (st := 0) rfl [accBlock zeroOp.views 0] (some true)
  have turn : ∀ o, p.outranked 0 o = false := fun o => by rw [Group.outranked, det]; rfl
  have second := half_done_acts hp head (turn _) rfl
  obtain rfl := Host.Outcome.next.inj (second.symm.trans ends)
  have one := overhung_reads hq (kept.trans (WinKept.endRows hp (by decide)
    ((zeroRows_spare.kept reg mat kept.roles).rest _) (fun j hj => (kept.owes _).trans (quiet j hj)) 0 _ (some true)))
  exact absurd (one.symm.trans (bytes 64 (by decide))) (by decide)

end Sys2Proof.Slice0
end

section
/-! SUPPORT. The steps of the stipple arrays that no instruction makes (R287 to R292, R298): each by the command at the head of
the array's queue. -/

namespace Sys2Proof.Machine
open Sys2Proof.Slice0

section
variable {s : State} {c i : Nat} {q : ACmd} (head : ((s.core c).array i).queue.head? = some q)
include head

section
variable {left : Nat} {inc : BitVec 8} {tl : BitVec 4} (sweep : q.kind = .sweep left inc tl)
include sweep

/-- SWEEP with a sweep command at the head (R287, R292, R298). -/
theorem execSweep_of_head : execSweep c i s =
    if s.still c then .next s
    else if ((s.core c).array i).oos then .next (s.endSweep c i q inc tl (some .saBias))
    else if ((s.core c).array i).sc == 0xFFFFFFFFFFFF#48 then .next (s.endSweep c i q inc tl (some .saWrap))
    else match ((s.core c).array i).select ((s.core c).array i).sc.toNat with
      | .take gh => .next (s.doSweep c i q left inc tl gh)
      | .stall => .next (s.updArray c i fun a => { a with stallNow := true, stalled := true })
      | .missing => .next (if s.peerGone c i && !s.tagq.any (fun e => e.1 == c && e.2.1 == i)
          then s.endSweep c i q inc tl (some .saBoundary)
          else s.updArray c i fun a => { a with stallNow := true, stalled := true }) := by
  simp only [execSweep, head, sweep] <;> rfl

/-- BOUNDARY_TIMEOUT with a sweep command at the head (R290, R389). -/
theorem execBoundaryTimeout_of_head : execBoundaryTimeout c i s =
    .next (if ((s.core c).array i).stallNow && !s.still c &&
        !(s.draining (clusterOf c) || s.draining (clusterOf (((s.core c).array i).peer / 4)))
      then s.endSweep c i q inc tl (some .saBoundary) else s) := by
  simp only [execBoundaryTimeout, head, sweep]

end

/-- ARRAY_COMMAND of a command that is done: it leaves the queue, and a group that waits for it goes on (R292). -/
theorem execArrayCommand_done {t : State} (done : s.perform c i q = .ok t)
    (serves : ((s.core c).array i).oos = false ∨ q.kind.barred = false) :
    execArrayCommand c i s = .next (if s.awaits c i q then
      { (if q.kind.barred then (((t.popCmd c i).release c q).next).close true else ((t.popCmd c i).release c q).next) with
        cur := s.cur } else t.popCmd c i) := by
  have free : (((s.core c).array i).oos && q.kind.barred) = false := by
    rcases serves with h | h <;> rw [h]
    · rfl
    · exact Bool.and_false _
  simp only [execArrayCommand, head, free, done, Bool.false_eq_true, if_false]

/-- A barred command that nobody awaits is dropped, and the array keeps the fault (R287, R299). -/
theorem execArrayCommand_dropped (oos : ((s.core c).array i).oos = true) (barred : q.kind.barred = true)
    (alone : s.awaits c i q = false) :
    execArrayCommand c i s = .next ((s.popCmd c i).updArray c i fun a => { a with lastFault := 1 }) := by
  simp only [execArrayCommand, head, oos, barred, Bool.and_self, if_true, alone, Bool.false_eq_true, if_false]
  rfl

end

/-- The sweep counter stands at its last value (R287). -/
theorem sc_last_iff (sc : BitVec 48) : (sc == 0xFFFFFFFFFFFF#48) = true ↔ sc.toNat = 2 ^ 48 - 1 := by
  rw [beq_iff_eq, ← BitVec.toNat_inj]
  rfl

/-- TAG_ARRIVAL takes the first tag in transit to its array (R289). -/
theorem execTagArrival_of_first {s : State} {c i k : Nat} {m : ATag} (there : s.tagq[k]? = some (c, i, m))
    (first : ∀ e ∈ s.tagq.take k, ¬ (e.1 = c ∧ e.2.1 = i)) :
    execTagArrival c i s = .next (State.landTag { s with tagq := listDrop1 s.tagq k } c i m) := by
  have found : (s.tagq.findIdx? fun q => q.1 == c && q.2.1 == i) = some k := by
    obtain ⟨inside, at_⟩ := List.getElem?_eq_some_iff.mp there
    refine List.findIdx?_eq_some_iff_getElem.mpr ⟨inside, by simp [at_], fun j before => ?_⟩
    have := first _ (List.mem_take_iff_getElem.mpr ⟨j, by omega, rfl⟩)
    simpa using this
  simp only [execTagArrival, found, there]

end Sys2Proof.Machine

namespace Sys2Proof.Slice0
open Sys2Proof.Machine

/-- Settles O54, from each step's equation for the command at the head of the array's queue. -/
theorem stippleEvents : Obligations.StippleEvents := by
  intro s c i q left inc tl a ends
  refine ⟨fun head sweep => ⟨⟨fun quiet => ?_, fun loud stalled live => ?_⟩, fun live => ⟨fun oos => ?_, fun serves last => ?_,
    fun serves more => ⟨fun gh take => ?_, fun stall => ?_, fun missing gone empty => ?_⟩⟩⟩, fun head other =>
    ⟨fun oos barred alone => execArrayCommand_dropped head oos barred alone, fun serves t done => execArrayCommand_done head done serves⟩,
    fun k m there first => execTagArrival_of_first there first⟩
  · have marked : (s.draining (clusterOf c) || s.draining (clusterOf (a.peer / 4))) = true := by simpa using quiet
    refine (execBoundaryTimeout_of_head head sweep).trans (congrArg _ (if_neg ?_))
    rw [marked, Bool.not_true, Bool.and_false]
    exact Bool.false_ne_true
  · refine (execBoundaryTimeout_of_head head sweep).trans (congrArg _ (if_pos ?_))
    simpa [live, a, or_imp] using ⟨stalled, by simpa using loud⟩
  all_goals refine (execSweep_of_head head sweep).trans ?_; rw [live, if_neg Bool.false_ne_true]
  · exact if_pos oos
  all_goals rw [if_neg (by rw [serves]; exact Bool.false_ne_true)]
  · exact if_pos ((sc_last_iff _).mpr last)
  all_goals rw [if_neg fun h => more ((sc_last_iff _).mp h)]
  · rw [take]
  · rw [stall]
  · have none : (s.tagq.any fun e => e.1 == c && e.2.1 == i) = false := by
      rw [List.any_eq_false]
      simpa using empty
    rw [missing, gone, none]
    rfl

end Sys2Proof.Slice0
end

section
/-! SUPPORT. Taking a synchronous trap (R372, R373): its record, and what the state after it keeps; the instructions TRAP and
TRAP.hnd (R378). -/

namespace Sys2Proof.Machine
open Sys2Proof.Slice0

/-! ## A record in its slot -/

theorem length_bytesOfWords (ws : List DWord) : (bytesOfWords ws).length = 8 * ws.length := by
  induction ws with
  | nil => rfl
  | cons w ws ih =>
    have split : bytesOfWords (w :: ws) = bytesOfNat 8 w.toNat ++ bytesOfWords ws := rfl
    rw [split, List.length_append, ih, length_bytesOfNat, List.length_cons]
    omega

theorem TrapRec.length_bytes (r : TrapRec) : (bytesOfWords r.words).length = 64 := length_bytesOfWords _

section
variable (s : State) (a c n : Nat) (r : TrapRec) (bs : List Byte)

theorem State.core_putRecord (k : Nat) : (s.putRecord a bs).core k = s.core k := rfl

theorem State.putRecord_mem : (s.putRecord a bs).mem = memStore s.mem a bs := rfl

theorem State.putTrap_core : (s.putTrap c n r).core c = { s.core c with trapSlots := tabSet (s.core c).trapSlots n r } := by
  rw [State.putTrap, State.core_putRecord, State.core_updCore_self]

theorem State.putTrap_core_ne {k : Nat} (other : k ≠ c) : (s.putTrap c n r).core k = s.core k := by
  rw [State.putTrap, State.core_putRecord, State.core_updCore_ne _ _ other]

theorem State.putTrap_group (k j : Nat) : (s.putTrap c n r).group k j = s.group k j := by
  by_cases own : k = c
  · subst own; rw [State.group, State.putTrap_core, State.group]
  · rw [State.group, State.putTrap_core_ne _ _ _ _ own, State.group]

theorem State.putTrap_mem : (s.putTrap c n r).mem = memStore s.mem (trapSlotAt c n) (bytesOfWords r.words) := by
  rw [State.putTrap, State.putRecord_mem, State.updCore_mem]

theorem State.putTrap_ecc : (s.putTrap c n r).ecc = s.ecc.filter fun e =>
    !(decide (trapSlotAt c n ≤ 32 * e.1) && decide (32 * e.1 + 32 ≤ trapSlotAt c n + 64)) := by
  simp only [State.putTrap, State.putRecord, TrapRec.length_bytes]
  rfl

end

/-! ## A team that dies -/

theorem State.doom_else (s : State) (tn : Nat) : { s.doom tn with teams := s.teams } = s := by
  rw [State.doom, State.updTeam]
  split <;> rfl

@[simp] theorem State.doom_core (s : State) (tn k : Nat) : (s.doom tn).core k = s.core k := State.core_updTeam ..

theorem State.doom_team {s : State} {tn : Nat} {tm : Team} (ht : tabFind s.teams tn = some tm) :
    tabFind (s.doom tn).teams tn = some { tm with dying := true } := by
  rw [State.doom, State.updTeam, ht]
  exact tabFind_tabSet_self ..

/-! ## The trap taken -/

/-- The group that a trap stops (R372). -/
def Group.stopped (g : Group) (m : LaneMask) : Group :=
  { g with trap := true, trapMask := m, parked := none, parkBo := none, logStall := none }

/-- The record of a synchronous trap of the turn's group (R372). -/
def State.syncRec (s : State) (g : Group) (k : TrapInfo) : TrapRec :=
  { s.trapRec s.cur.slot g k with pc := s.cur.pc, iword := s.cur.iword, rpc := pcAdd s.cur.pc 8 }

/-- The turn's group stopped, its team dying after PEER_DEAD (R372, R381). -/
def State.stopTurn (s : State) (g : Group) (cause : Cause) : State :=
  let v := s.setGroup s.cur.core s.cur.slot (g.stopped s.cur.mask)
  if cause = .peerDead then v.doom g.team else v

section
variable {s : State} {g : Group} (hg : s.curGroup = some g) (k : TrapInfo)

include hg in
theorem State.takeTrap_pending (pending : g.trap = true) :
    s.takeTrap k = s.aeqAppend g.ctx { s.syncRec g k with act := .kill } := by
  simp only [State.takeTrap, show s.group s.cur.core s.cur.slot = some g from hg, pending, if_true]
  rfl

include hg in
theorem State.takeTrap_stops (none : g.trap = false) :
    s.takeTrap k = (s.stopTurn g k.cause).putTrap s.cur.core s.cur.slot (s.syncRec g k) := by
  simp only [State.takeTrap, show s.group s.cur.core s.cur.slot = some g from hg, none, Bool.false_eq_true, if_false]
  rfl

theorem State.stopTurn_else (cause : Cause) :
    { s.stopTurn g cause with cores := s.cores, teams := s.teams } = s := by
  rw [State.stopTurn]
  split
  · exact congrArg (fun u : State => { u with cores := s.cores, teams := s.teams }) (State.doom_else ..)
  · rfl

theorem State.stopTurn_mem (cause : Cause) : (s.stopTurn g cause).mem = s.mem := by
  have same := congrArg State.mem (State.stopTurn_else (s := s) (g := g) cause)
  exact same

theorem State.stopTurn_ecc (cause : Cause) : (s.stopTurn g cause).ecc = s.ecc := by
  have same := congrArg State.ecc (State.stopTurn_else (s := s) (g := g) cause)
  exact same

theorem State.stopTurn_core (cause : Cause) (n : Nat) :
    (s.stopTurn g cause).core n = (s.setGroup s.cur.core s.cur.slot (g.stopped s.cur.mask)).core n := by
  rw [State.stopTurn]
  split
  · exact State.doom_core ..
  · rfl

theorem State.stopTurn_group (cause : Cause) (n j : Nat) :
    (s.stopTurn g cause).group n j = (s.setGroup s.cur.core s.cur.slot (g.stopped s.cur.mask)).group n j := by
  rw [State.group, State.group, State.stopTurn_core]

/-- The time and the place of its record, that of a live group. -/
theorem State.syncRec_fields : (s.syncRec g k).cause = k.cause ∧ (s.syncRec g k).lane = BitVec.ofNat 6 k.lane ∧
    (s.syncRec g k).addr = k.addr ∧ (s.syncRec g k).aux = BitVec.ofNat 20 k.aux ∧ (s.syncRec g k).async = false ∧
    (s.syncRec g k).logged = false ∧ (s.syncRec g k).pc = s.cur.pc ∧ (s.syncRec g k).iword = s.cur.iword ∧
    (s.syncRec g k).rpc = pcAdd s.cur.pc 8 ∧ (s.syncRec g k).gslot = BitVec.ofNat 6 s.cur.slot ∧
    (s.syncRec g k).gtime = s.gtime :=
  ⟨rfl, rfl, rfl, rfl, rfl, rfl, rfl, rfl, rfl, rfl, rfl⟩

end

end Sys2Proof.Machine

namespace Sys2Proof.Slice0
open Sys2Proof.Machine

theorem trap_entry : trapEntry := by
  intro s g t lo p code k h
  refine ⟨congrArg (run s) (turn_group h _), fun pending => ⟨_, State.takeTrap_pending h.group k pending, rfl, rfl⟩, fun none => ?_⟩
  have taken := State.takeTrap_stops h.group k none
  rw [taken]
  refine ⟨fun other => ?_, fun dead tm ht => ?_, ?_, fun n other => ?_, fun n other => ?_, ?_, ?_, s.syncRec g k, ?_, ?_, ?_,
    State.syncRec_fields k⟩
  · rw [State.stopTurn, if_neg other]
    rfl
  · rw [State.stopTurn, if_pos dead]
    exact State.doom_team ht
  · exact congrArg (fun u : State => { u with cores := s.cores, mem := s.mem, ecc := s.ecc, teams := s.teams })
      (State.stopTurn_else (g := g) k.cause)
  · rw [State.putTrap_core_ne _ _ _ _ other, State.stopTurn_core, State.setGroup, State.core_updCore_ne _ _ other]
  · rw [State.putTrap_group, State.stopTurn_group, State.group_setGroup_slot _ _ _ other]
  · rw [State.putTrap_core, State.stopTurn_core, State.setGroup, State.core_updCore_self]
  · rw [State.putTrap_group, State.stopTurn_group, State.group_setGroup_self]
    rfl
  · rw [State.putTrap_core]
    exact tabFind_tabSet_self ..
  · rw [State.putTrap_mem, State.stopTurn_mem, trapSlotAt]
  · rw [State.putTrap_ecc, State.stopTurn_ecc]
    rfl

theorem trap_handler : trapHandler := by
  intro s g t lo p a b x h r set turn ready
  have sets : ∀ k : Option (DWord × Word),
      (s.updGroup s.cur.core s.cur.slot fun g => { g with handler := k }).next = set k := fun k =>
    congrArg State.next (State.updGroup_some _ _ _ _ turn.group)
  have asks : exec (.trapHnd p a b) s = run s (if h = 0 then .ok (set none) else do
      trapIf (r.toNat % 64 != 0) .misaligned lo (r.setWidth 64)
      trapIf (decide (r.toNat + 64 > s.scrSize g.team s.cur.core)) .segLimit lo (r.setWidth 64)
      .ok (set (some (h, r)))) := by
    simp only [← sets]
    refine congrArg (run s) ((turn_group turn _).trans ?_)
    rw [needRegs_ready lo ready, M.ok_bind]
    rfl
  refine ⟨fun null => ?_, fun some off => ?_, fun some aligned outside => ?_, fun some aligned inside => ?_⟩
  · rw [asks, if_pos null, run_ok]
  all_goals rw [asks, if_neg some]
  · rw [bne_iff_ne.mpr off, trapIf_true, M.error_bind, run_trap]
  all_goals rw [aligned, bne_self_eq_false, trapIf_false, M.ok_bind]
  · rw [decide_eq_true outside, trapIf_true, M.error_bind, run_trap]
  · rw [decide_eq_false (Nat.not_lt.mpr inside), trapIf_false, M.ok_bind, run_ok]

/-- Settles O42: the trap's record and stopped group, then the checks of TRAP.hnd in their order. -/
theorem trapForms : Obligations.TrapForms := ⟨trap_entry, trap_handler⟩

end Sys2Proof.Slice0
end

section
/-! SUPPORT. ERET (R375, R377): what each action leaves of the group whose trap it ends, and the status it answers. -/

namespace Sys2Proof.Machine
open Sys2Proof.Slice0

/-! ## What an action leaves of the group -/

theorem State.aeqAppend_cores (s : State) (c : Nat) (r : TrapRec) : (s.aeqAppend c r).cores = s.cores := by
  have put : ∀ a bs, (s.putRecord a bs).cores = s.cores := fun _ _ => rfl
  unfold State.aeqAppend
  dsimp only
  split
  · exact State.updCtx_cores s c _
  · simp only [State.updCtx_cores, put]

theorem State.group_aeqAppend (s : State) (c : Nat) (r : TrapRec) (k n : Nat) : (s.aeqAppend c r).group k n = s.group k n := by
  rw [State.group, State.group, State.core, State.core, State.aeqAppend_cores]

/-- An entry that leaves the log changes no thread, and no trap. -/
theorem Group.unlog_threads (g : Group) (id : Nat) (k : WClass) :
    (g.unlog id k).lanes = g.lanes ∧ (g.unlog id k).trap = g.trap := by
  rw [Group.unlog, Group.retire]
  split
  · exact ⟨rfl, rfl⟩
  · exact ⟨rfl, rfl⟩

theorem Group.dropTrapped_threads (g : Group) : g.dropTrapped.lanes = g.lanes ∧ g.dropTrapped.trap = g.trap := by
  rw [Group.dropTrapped]
  refine List.foldlRecOn (motive := fun k : Group => k.lanes = g.lanes ∧ k.trap = g.trap) _ _ ⟨rfl, rfl⟩
    fun k same e _ => ?_
  obtain ⟨lanes, trap⟩ := k.unlog_threads e.op.id e.op.cls
  exact ⟨lanes.trans same.1, trap.trans same.2⟩

theorem Group.skip_trap {g : Group} {r : TrapRec} (sync : r.async = false) : (g.skip r).trap = false := by
  rw [Group.skip, sync, if_neg Bool.false_ne_true]
  exact (Group.dropTrapped_threads _).2

/-- The threads of a skipped trap's mask stand at RPC, and every other where it stood (R375). -/
theorem Group.skip_lane {g : Group} {r : TrapRec} (sync : r.async = false) {l : Nat} {x : Lane} (hx : g.lanes[l]? = some x) :
    ∃ y, (g.skip r).lanes[l]? = some y ∧ y.pc = if g.trapMask.getLsbD l then r.rpc else x.pc := by
  have lanes : (g.skip r).lanes = g.lanes.mapIdx fun i x => if g.trapMask.getLsbD i then { x with pc := r.rpc } else x := by
    rw [Group.skip, sync, if_neg Bool.false_ne_true]
    exact congrArg (List.mapIdx _) (Group.dropTrapped_threads _).1
  refine ⟨_, by rw [lanes, List.getElem?_mapIdx, hx, Option.map_some], ?_⟩
  split
  · rfl
  · rfl

section
variable {s : State} {c n : Nat} {g : Group} {r : TrapRec}

theorem State.endBy_retry_group : ∃ out, (s.endBy c n g r .retry).group c n = some (g.retry out) :=
  ⟨_, by rw [State.endBy, State.group_aeqAppend, State.group_setGroup_self]⟩

theorem State.endBy_skip_group : (s.endBy c n g r .skip).group c n = some (g.skip r) := by
  rw [State.endBy, State.group_aeqAppend, State.group_setGroup_self]

end

/-! ## Its status -/

/-- The instruction of an action. -/
def eretForm (p : Pred) (d a : Reg) : ErAct → Instr
  | .retry => .eretRetry p d a
  | .skip => .eretSkip p d a
  | .deliver => .eretDeliver p d a
  | .kill => .eretKill p d a

section
variable {s : State} {p : Pred} {g : Group} {t : LaneMask} {lo : Nat} (h : Turn s p g t lo) (fw : g.fw = true) {d a : Reg}
  (ready : Ready g [a.toNat, d.toNat])
include h fw ready

/-- ERET answers the status of its action. -/
theorem eret_answers (e : ErAct) {n v : Nat} {u : State} (named : (g.reg (s.core s.cur.core) a.toNat lo).toNat % 64 = n)
    (status : s.eret s.cur.core n e = (v, u)) : answers s t d (eretForm p d a e) v u := by
  have asks : s.eretM p e d a = .ok (u.putAll t d.toNat (BitVec.ofNat 32 v)).next := by
    rw [State.eretM, turn_priv h fw, needRegs_ready lo ready, M.ok_bind, named, status]
  have runs : exec (eretForm p d a e) s = run s (s.eretM p e d a) := by cases e <;> rfl
  rw [answers, runs, asks, run_ok]

end

section
variable {s : State} {c n : Nat} (inside : c < 256 ∧ n < 64)
include inside

theorem State.eret_none (e : ErAct) (none : s.group c n = none ∨ ∃ q, s.group c n = some q ∧ q.trap = false) :
    s.eret c n e = (1, s) := by
  rw [State.eret, State.slotGroup, if_pos inside]
  rcases none with no | ⟨q, hq, free⟩
  · rw [no]
  · rw [hq]
    cases tabFind (s.core c).trapSlots n
    · rfl
    · simp only [free, Bool.not_false, if_true]

/-- ERET of a pending trap asks the record, then the handler (R377). -/
theorem State.eret_pending (e : ErAct) {q : Group} {r : TrapRec} (hq : s.group c n = some q) (trapped : q.trap = true)
    (hr : tabFind (s.core c).trapSlots n = some r) :
    s.eret c n e = if !r.allows e || (e == .deliver && !q.onePc) then (2, s)
      else if e == .deliver && !s.handlerOk c q then (3, s) else (0, s.endBy c n q r e) := by
  rw [State.eret, State.slotGroup, if_pos inside, hq, hr]
  simp only [trapped, Bool.not_true, Bool.false_eq_true, if_false]

end

end Sys2Proof.Machine

namespace Sys2Proof.Slice0
open Sys2Proof.Machine

/-- Settles O43: the status that ERET's checks give, and the group that each action leaves. -/
theorem eretForms : Obligations.EretForms := by
  intro s g t lo p d a c n form h fw core ready
  have inside : c < 256 ∧ n < 64 := ⟨core, Nat.mod_lt _ (by decide)⟩
  have status : ∀ e v u, s.eret c n e = (v, u) → answers s t d (form e) v u := fun e v u status => by
    cases e <;> exact eret_answers h fw ready _ rfl status
  refine ⟨fun e none => status e _ _ (State.eret_none inside e none), fun q r hq trapped hr => ?_⟩
  have pending := fun e => State.eret_pending inside e hq trapped hr
  refine ⟨fun e bad => status e _ _ ((pending e).trans (if_pos ?_)), fun allowed one no => status .deliver _ _ ((pending _).trans ?_),
    fun e allowed ok => status e _ _ ((pending e).trans ?_), ?_, fun sync => ⟨_, State.endBy_skip_group, Group.skip_trap sync,
      fun l x => Group.skip_lane sync⟩⟩
  · rcases bad with no | ⟨rfl, many⟩
    · rw [no]; rfl
    · rw [many]; exact Bool.or_true _
  · rw [allowed, one, no]
    rfl
  · rw [allowed]
    cases e with
    | deliver => rw [(ok rfl).1, (ok rfl).2]; rfl
    | retry | skip | kill => rfl
  · obtain ⟨out, hout⟩ := State.endBy_retry_group (s := s) (c := c) (n := n) (g := q) (r := r)
    exact ⟨_, hout, rfl, rfl⟩

end Sys2Proof.Slice0
end

section
/-! SUPPORT. The boundary unit of a core (R94, R309): free for the turn's group, taken by another, or ready for it. -/

namespace Sys2Proof.Machine
open Sys2Proof.Slice0

/-- Two changes of one core are one. -/
theorem State.updCore_updCore (s : State) (c : Nat) (f h : Core → Core) :
    (s.updCore c f).updCore c h = s.updCore c fun x => h (f x) := by
  rw [State.updCore, State.core_updCore_self, State.updCore, State.setCore_setCore, State.updCore]

/-- A core changed in one way is changed in another that gives the same core. -/
theorem State.updCore_congr (s : State) (c : Nat) {f h : Core → Core} (same : f (s.core c) = h (s.core c)) :
    s.updCore c f = s.updCore c h := by
  rw [State.updCore, State.updCore, same]

section
variable {s : State}

/-- The unit is free for the turn's group (R309). -/
theorem State.unitFree_iff : s.unitFree s.cur.core s.cur.slot = true ↔ UnitFree s := by
  rw [State.unitFree, UnitFree, Bool.and_eq_true, Option.isNone_iff_eq_none]
  refine and_congr_right fun _ => ?_
  cases (s.core s.cur.core).bwaiting with
  | nil => simp
  | cons e l => simp

/-- A unit that another group holds is not free. -/
theorem State.unitFree_held {c n : Nat} {b : Boundary} (held : (s.core c).boundary = some b) : s.unitFree c n = false := by
  rw [State.unitFree, held]
  rfl

section
variable {b : Boundary} (held : (s.core s.cur.core).boundary = some b)
include held

theorem State.sending_other (other : b.slot ≠ s.cur.slot) (k : PScope) : s.sending s.cur.core s.cur.slot k = false := by
  simp [State.sending, held, other]

theorem State.sending_sent (sent : b.sent = true) (k : PScope) : s.sending s.cur.core s.cur.slot k = false := by
  simp [State.sending, held, sent]

theorem State.sending_own (own : b.slot = s.cur.slot) (unsent : b.sent = false) (k : PScope) :
    s.sending s.cur.core s.cur.slot k = !s.ntPending s.cur.core b.since := by
  simp [State.sending, held, own, unsent]

theorem State.bounding_held : s.bounding = (b.slot == s.cur.slot) := by rw [State.bounding, held]

variable (fresh : Nat → State → State × List Nat × Nat)

theorem State.boundaryStep_other (other : b.slot ≠ s.cur.slot) :
    s.boundaryStep s.cur.core s.cur.slot fresh = .busy (s.joinUnit s.cur.core s.cur.slot) := by
  simp only [State.boundaryStep, held]
  exact if_pos (bne_iff_ne.mpr other)

end

end

end Sys2Proof.Machine

namespace Sys2Proof.Slice0
open Sys2Proof.Machine

section
variable {s : State}

section
variable {job : Nat} {acked : List (Nat × Word)} (ready : UnitReady s job acked)
include ready

theorem UnitReady.sending (k : PScope) : s.sending s.cur.core s.cur.slot k = false := by
  obtain ⟨b, held, -, -, sent, -⟩ := ready
  exact State.sending_sent held sent k

theorem UnitReady.bounding : s.bounding = true := by
  obtain ⟨b, held, own, -⟩ := ready
  rw [State.bounding_held held, own]
  exact beq_self_eq_true _

/-- All that the publication waited for has come: its commits leave, and the unit is given back (R94). -/
theorem UnitReady.step (fresh : Nat → State → State × List Nat × Nat) :
    s.boundaryStep s.cur.core s.cur.slot fresh = .done (committed s job acked) acked := by
  obtain ⟨b, held, own, rfl, -, pending, host, rfl⟩ := ready
  simp only [State.boundaryStep, held, own, pending, host, bne_self_eq_false, List.isEmpty_nil, beq_self_eq_true,
    Bool.and_self, if_true, Bool.false_eq_true, if_false, State.sendCommits, List.map_map]
  rfl

end

section
variable (free : UnitFree s)
include free

theorem UnitFree.sending (k : PScope) : s.sending s.cur.core s.cur.slot k = (k != .sys) := by
  simp only [State.sending, free.1, State.unitFree_iff.mpr free, Bool.and_true]

theorem UnitFree.bounding : s.bounding = false := by rw [State.bounding, free.1]

/-- The group takes the unit, and its words are sent (R94). -/
theorem UnitFree.step (fresh : Nat → State → State × List Nat × Nat) :
    s.boundaryStep s.cur.core s.cur.slot fresh = .running (unitTaken s fresh) := by
  simp only [State.boundaryStep, free.1, State.unitFree_iff.mpr free, Bool.not_true, Bool.false_eq_true, if_false]
  rfl

end

end

end Sys2Proof.Slice0
end

section
/-! SUPPORT. PHASE (R308 to R310): the steps of the boundary unit for its group. -/

namespace Sys2Proof.Machine
open Sys2Proof.Slice0

/-- The group no longer waits for the unit. -/
def State.leftUnit (s : State) : State := s.updCore s.cur.core fun y => y.leaveUnit s.cur.slot

section
variable {s : State} {p : Pred} {g : Group} {t : LaneMask} {lo : Nat} (h : Turn s p g t lo) (log : g.log = [])
  (ld : g.cnt.ld = 0) (st : g.cnt.st = 0) (tl : g.cnt.tl = 0) (idle : ∀ q ∈ g.streams, q = []) (scope : PScope)
include h log ld st tl idle

/-- PHASE of a group with nothing outstanding goes to the boundary unit (R309). -/
theorem phase_asks : exec (.phase p scope) s = run s (
    if s.phaseScope g scope = .core then
      if !s.unitFree s.cur.core s.cur.slot then .error (.state (s.joinUnit s.cur.core s.cur.slot))
      else .ok ((s.leftUnit.acquire s.cur.core [] false).next.close false)
    else do
      if s.sending s.cur.core s.cur.slot (s.phaseScope g scope) then s.publishable s.cur.core s.cur.slot lo
      match s.phaseStep s.cur.core s.cur.slot g.ctx (s.phaseScope g scope) with
      | .busy t => .error (.state t)
      | .running t => .error (.state t.park)
      | .done t acked => .ok (((t.movePartials s.cur.core).acquire s.cur.core acked
          (s.phaseScope g scope = .dev || s.phaseScope g scope = .sys)).next.close false)) := by
  have quiet : (g.streams.any fun q => !q.isEmpty) = false := by
    rw [List.any_eq_false]
    intro q hq
    rw [idle q hq]
    exact Bool.false_ne_true
  refine congrArg (run s) ((turn_group h _).trans ?_)
  simp only [log, ld, st, tl, quiet, List.isEmpty_nil, bne_self_eq_false, Bool.not_true, Bool.or_self, waitIf_false, M.ok_bind] <;>
    rfl

end

section
variable {s : State} {ctx lo : Nat} {k : PScope}

theorem State.publishable_ok (none : s.deadLine s.cur.core = none) : s.publishable s.cur.core s.cur.slot lo = .ok () := by
  rw [State.publishable, none]

/-- A dead line refuses the publication, and the group leaves the unit that it had not taken (R394). -/
theorem State.publishable_dead {l : Nat} (dead : s.deadLine s.cur.core = some l) (free : UnitFree s) :
    s.publishable s.cur.core s.cur.slot lo =
      .error (.state (s.leftUnit.takeTrap ⟨.homeOffline, lo, BitVec.ofNat 64 (128 * l), 0⟩)) := by
  have left : s.leftUnit = s.updCore s.cur.core fun x => { x.leaveUnit s.cur.slot with
      boundary := x.boundary.filter fun b => b.slot != s.cur.slot } := by
    refine State.updCore_congr _ _ ?_
    rw [free.1]
    exact congrArg (fun b => { (s.core s.cur.core).leaveUnit s.cur.slot with boundary := b }) free.1
  simp only [State.publishable, dead, State.raise, left]

theorem State.phaseStep_wide (other : k ≠ .sys) : s.phaseStep s.cur.core s.cur.slot ctx k =
    s.boundaryStep s.cur.core s.cur.slot fun j s => s.sendAll s.cur.core ctx false j := by
  cases k with
  | sys => exact absurd rfl other
  | team | core | clu | dev => rfl

/-- Another group has the unit: this one joins those that wait (R309). -/
theorem State.phaseStep_other {b : Boundary} (held : (s.core s.cur.core).boundary = some b) (other : b.slot ≠ s.cur.slot) :
    s.phaseStep s.cur.core s.cur.slot ctx k = .busy (s.joinUnit s.cur.core s.cur.slot) := by
  by_cases sys : k = .sys
  · subst sys
    simp only [State.phaseStep, State.sysStep, held]
    exact if_pos (bne_iff_ne.mpr other)
  · exact (State.phaseStep_wide sys).trans (State.boundaryStep_other held _ other)

end

end Sys2Proof.Machine

namespace Sys2Proof.Slice0
open Sys2Proof.Machine

/-- The group's publication is acknowledged (R310). -/
theorem UnitReady.phaseStep {s : State} {ctx : Nat} {k : PScope} {job : Nat} {acked : List (Nat × Word)} (ready : UnitReady s job acked) :
    s.phaseStep s.cur.core s.cur.slot ctx k = .done (committed s job acked) acked := by
  by_cases sys : k = .sys
  · subst sys
    obtain ⟨b, held, own, -, sent, -⟩ := id ready
    simp only [State.phaseStep, State.sysStep, held, own, bne_self_eq_false, Bool.false_eq_true, if_false, sent, if_true]
    exact ready.step _
  · exact (State.phaseStep_wide sys).trans (ready.step _)

theorem phase_completes : phaseCompletes := by
  intro s g t lo p scope c x k i gone h log ld st tl idle
  have asks : exec i s = _ := phase_asks h log ld st tl idle scope
  refine ⟨fun ⟨b, held, other⟩ => ?_, fun core free => ?_, fun wide => ?_⟩
  · change _ = Host.Outcome.next (s.joinUnit s.cur.core s.cur.slot)
    rw [asks]
    split
    · rw [State.unitFree_held held]
      rfl
    · rw [State.sending_other held other, if_neg Bool.false_ne_true, State.phaseStep_other held other]
      rfl
  · rw [asks, if_pos core, State.unitFree_iff.mpr free]
    rfl
  replace asks := asks.trans (congrArg (run s) (if_neg wide))
  refine ⟨fun l free other dead => ?_, fun free none other => ?_, fun free sys => ?_, fun b held own unsent sys =>
    ⟨fun waits => ?_, fun past none => ?_⟩, fun job acked ready => ?_⟩
  · rw [asks, free.sending, bne_iff_ne.mpr other, if_pos rfl, State.publishable_dead dead free]
    rfl
  · rw [asks, free.sending, bne_iff_ne.mpr other, if_pos rfl, State.publishable_ok none, State.phaseStep_wide other, free.step]
    rfl
  · intro b
    have taken : s.phaseStep s.cur.core s.cur.slot g.ctx k =
        .running ((gone { s with nextPub := s.nextPub + 1 }).updCore c fun y => { y with boundary := some b }) := by
      rw [State.updCore_updCore, show k = .sys from sys]
      simp only [State.phaseStep, State.sysStep, free.1, State.unitFree_iff.mpr free, Bool.not_true, Bool.false_eq_true,
        if_false]
      rfl
    rw [asks, free.sending, show s.phaseScope g scope = .sys from sys, bne_self_eq_false, if_neg Bool.false_ne_true,
      ← show s.phaseScope g scope = .sys from sys, taken]
    rfl
  · have step : s.phaseStep s.cur.core s.cur.slot g.ctx k = .running s := by
      rw [show k = .sys from sys]
      simp only [State.phaseStep, State.sysStep, show (s.core s.cur.core).boundary = some b from held, own, bne_self_eq_false, Bool.false_eq_true, if_false, unsent,
        show s.ntPending s.cur.core b.since = true from waits, if_true]
    rw [asks, State.sending_own held own unsent, show s.ntPending s.cur.core b.since = true from waits, Bool.not_true,
      if_neg Bool.false_ne_true, step]
    rfl
  · intro r
    have step : s.phaseStep s.cur.core s.cur.slot g.ctx k = .running (r.1.updCore c fun y =>
        { y with boundary := some { b with sent := true, pending := r.2.1, hostWait := r.2.2 } }) := by
      rw [show k = .sys from sys]
      simp only [State.phaseStep, State.sysStep, show (s.core s.cur.core).boundary = some b from held, own, bne_self_eq_false, Bool.false_eq_true, if_false, unsent,
        show s.ntPending s.cur.core b.since = false from past]
      rfl
    rw [asks, State.sending_own held own unsent, show s.ntPending s.cur.core b.since = false from past, Bool.not_false,
      if_pos rfl, State.publishable_ok none, step]
    rfl
  · rw [asks, ready.sending, if_neg Bool.false_ne_true, ready.phaseStep]
    rfl

end Sys2Proof.Slice0
end

section
/-! SUPPORT. MONW (R311, R349): the check of its pointer, and the monitor on which its threads park. -/

namespace Sys2Proof.Machine
open Sys2Proof.Slice0

section
variable {s : State} {c n : Nat} {g : Group} {p : DWord} {pa : Nat}

theorem State.monitorOf_poisoned (bad : s.poisoned pa 1 = true) : s.monitorOf c n g p pa = (none, s) := by
  rw [State.monitorOf, if_pos bad]

/-- A line of the core's own die of which it holds no copy (R349). -/
theorem State.monitorOf_uncopied (clean : s.poisoned pa 1 = false) (watch : g.watch = none)
    (own : lineDie (pa / 128) = dieOf c) (copy : (s.core c).copy (pa / 128) = none) :
    s.monitorOf c n g p pa = (none, s) := by
  simp only [State.monitorOf, clean, watch, copy, Bool.false_eq_true, if_false, if_neg (not_not_intro own)]

/-- A line of another die, into which no publication has come: the core leaves a watch at its home (R311). -/
theorem State.monitorOf_remote (clean : s.poisoned pa 1 = false) (watch : g.watch = none)
    (other : lineDie (pa / 128) ≠ dieOf c) (unread : tabFind (s.core c).lastRead (pa / 128) = none)
    (room : ((s.unwatch c n).dirOf (pa / 128)).watches < 8) :
    s.monitorOf c n g p pa = (some (.remote (pa / 128)), ((s.unwatch c n).atHome (pa / 128)).updDir (pa / 128) fun d =>
      { d with remWatch := d.remWatch ++ [(c, n)] }) := by
  simp only [State.monitorOf, clean, watch, unread, Bool.false_eq_true, if_false, if_pos other, Bool.false_or, ge_iff_le,
    decide_eq_false (Nat.not_le.mpr room)]

end

/-- The extent's meeting changes no core. -/
theorem State.core_extentMet (s : State) (cl ctx : Nat) (d : Desc) (p : DWord) (k : Nat) :
    (s.extentMet cl ctx d p).core k = s.core k := by
  rw [State.extentMet, State.extentFill]
  split
  · rfl
  · rfl

/-- What MONW of the turn's group does once its pointer is checked, in the state with the caches met (R349). -/
def State.monwMeets (s s1 : State) (g : Group) (t : LaneMask) (lo : Nat) (d : Desc) (q : DWord) : M State :=
  match s1.xlate (clusterOf s.cur.core) g.ctx d q with
  | .absent _ _ => .ok s1.next
  | .at pa _ => do
    if (s.die (pa / 2 ^ 38)).out then s1.raise ⟨.homeOffline, lo, q, 0⟩
    let r := s1.monitorOf s.cur.core s.cur.slot g q pa
    match r.1 with
    | none => .ok r.2.next
    | some m => .ok (r.2.next.updGroup s.cur.core s.cur.slot fun g => g.mapLanes t fun x => { x with st := .mon m, buf := none })

section
variable {s : State} {p : Pred} {g : Group} {t : LaneMask} {lo : Nat} (h : Turn s p g t lo) {a : Reg} {ofs : BitVec 18}
  (ready : Ready g [a.toNat, a.toNat + 1])
include h ready

/-- MONW asks the offset first (R70). -/
theorem monw_outside (outside : ptrAdd (g.pair (s.core s.cur.core) a.toNat lo) ofs.toInt = none) :
    exec (.monw p a ofs) s = .next (s.takeTrap ⟨.objBounds, lo, g.pair (s.core s.cur.core) a.toNat lo, 0⟩) := by
  refine (scope_ready h ready _).trans ?_
  simp only [outside]
  rfl

variable {q : DWord} (inside : ptrAdd (g.pair (s.core s.cur.core) a.toNat lo) ofs.toInt = some q)
include inside

/-- Then the check (R74). -/
theorem monw_refused {e : Cause} (bad : (s.check s.cur.core g.ctx (s.core s.cur.core).desc q 1 needMonw).1 = .error e) :
    exec (.monw p a ofs) s = .next ((s.setDesc s.cur.core
      (s.check s.cur.core g.ctx (s.core s.cur.core).desc q 1 needMonw).2).takeTrap ⟨e, lo, q, 0⟩) := by
  refine (scope_ready h ready _).trans ?_
  simp only [inside, bad]
  rfl

theorem monw_checked {d : Desc} (ok : (s.check s.cur.core g.ctx (s.core s.cur.core).desc q 1 needMonw).1 = .ok d)
    (own : scribesOwn s.cur.core g.fw [glbCand (g.pair (s.core s.cur.core) a.toNat lo) ofs.toInt lo 0 0] = false) :
    exec (.monw p a ofs) s = run s (s.monwMeets ((s.setDesc s.cur.core
      (s.check s.cur.core g.ctx (s.core s.cur.core).desc q 1 needMonw).2).extentMet (clusterOf s.cur.core) g.ctx d q)
      g t lo d q) := by
  refine (scope_ready h ready _).trans ?_
  simp only [inside, ok, own, Bool.false_eq_true, if_false]
  rfl

end

section
variable {s s1 : State} {g : Group} {t : LaneMask} {lo : Nat} {d : Desc} {q : DWord}

theorem State.monwMeets_absent {on ext : Nat} (absent : s1.xlate (clusterOf s.cur.core) g.ctx d q = .absent on ext) :
    s.monwMeets s1 g t lo d q = .ok s1.next := by
  rw [State.monwMeets, absent]

variable {pa : Nat} {e : DWord} (at_ : s1.xlate (clusterOf s.cur.core) g.ctx d q = .at pa e)
include at_

theorem State.monwMeets_offline (out : (s.die (pa / 2 ^ 38)).out = true) :
    s.monwMeets s1 g t lo d q = .error (.state (s1.takeTrap ⟨.homeOffline, lo, q, 0⟩)) := by
  simp only [State.monwMeets, at_, out, if_true]
  rfl

theorem State.monwMeets_monitor (serves : (s.die (pa / 2 ^ 38)).out = false) :
    s.monwMeets s1 g t lo d q = match (s1.monitorOf s.cur.core s.cur.slot g q pa).1 with
      | none => .ok (s1.monitorOf s.cur.core s.cur.slot g q pa).2.next
      | some m => .ok ((s1.monitorOf s.cur.core s.cur.slot g q pa).2.next.updGroup s.cur.core s.cur.slot fun g =>
          g.mapLanes t fun x => { x with st := .mon m, buf := none }) := by
  simp only [State.monwMeets, at_, serves, Bool.false_eq_true, if_false]

end

end Sys2Proof.Machine

namespace Sys2Proof.Slice0
open Sys2Proof.Machine

theorem monw_completes : monwCompletes := by
  intro s g t lo p a ofs c x base i h ready
  refine ⟨fun outside => monw_outside h ready outside, fun q inside => ⟨fun e bad => monw_refused h ready inside bad,
    fun d ok own => ?_⟩⟩
  intro s1
  have asks : exec i s = run s (s.monwMeets s1 g t lo d q) := monw_checked h ready inside ok own
  refine ⟨fun on ext absent => ?_, fun pa e at_ => ⟨fun out => ?_, fun serves => ?_⟩⟩
  · rw [asks, State.monwMeets_absent absent, run_ok]
  · rw [asks, State.monwMeets_offline at_ out, run_state]
  intro r
  replace asks := asks.trans (congrArg (run s) (State.monwMeets_monitor at_ serves))
  have completes : r.1 = none → exec i s = .next r.2.next := fun none => by
    rw [asks, show (s1.monitorOf s.cur.core s.cur.slot g q pa).1 = .none from none]
    rfl
  refine ⟨fun done => ?_, fun clean watch other unread room => ?_, completes, fun m some => ?_⟩
  · have same : r = (none, s1) := by
      by_cases bad : s1.poisoned pa 1 = true
      · exact State.monitorOf_poisoned bad
      · obtain ⟨watch, own, copy⟩ := done.resolve_left bad
        have held : (s1.core c).copy (pa / 128) = none := by
          rw [State.core_extentMet, State.setDesc, State.core_updCore_self]
          exact copy
        exact State.monitorOf_uncopied (Bool.eq_false_iff.mpr bad) watch own held
    rw [completes (congrArg Prod.fst same), same]
  · refine ⟨_, State.monitorOf_remote clean watch other unread room, ?_⟩
    rw [State.dirOf_updDir_self]
    exact List.mem_append_right _ (List.mem_singleton_self _)
  · rw [asks, show (s1.monitorOf s.cur.core s.cur.slot g q pa).1 = .some m from some]
    rfl

/-- Settles O40: the boundary unit's steps for PHASE, and MONW's checks with the monitor it parks on. -/
theorem phaseForms : Obligations.PhaseForms := ⟨phase_completes, monw_completes⟩

end Sys2Proof.Slice0
end

section
/-! SUPPORT. SPAWN and JDEC (R368): the waybill found, the core's words published, the step at its home; TQRY (R369). -/

namespace Sys2Proof.Machine
open Sys2Proof.Slice0

/-! ## What leaves the turn as it is -/

theorem State.sliceRoom_turn (s : State) (sl : Nat × Nat) : (s.sliceRoom sl).cur = s.cur := by
  simp only [State.sliceRoom]
  split
  · rfl
  · split
    · rfl
    · split
      · exact State.evictLine_cur _ _
      · split
        · exact State.updDie_cur _ _ _
        · rfl

theorem State.updDir_turn (s : State) (line : Nat) (f : DirEntry → DirEntry) : (s.updDir line f).cur = s.cur := rfl

theorem State.atHome_turn (s : State) (line : Nat) : (s.atHome line).cur = s.cur := by
  rw [State.atHome]
  split
  · rfl
  · rw [State.updDir_turn, State.sliceRoom_turn]

theorem State.movePartials_turn (s : State) (core : Nat) : (s.movePartials core).cur = s.cur := by
  refine List.foldlRecOn (motive := fun u => State.cur u = s.cur) _ _ rfl fun u same q _ => ?_
  dsimp only
  split <;> split <;> simp only [State.updDir_turn, State.atHome_turn, State.updCore_cur, same]

/-- The core's words published: the turn is the same (R301). -/
theorem State.published_turn (s : State) (core : Nat) (again : Bool) (acked : List (Nat × Word)) :
    (s.published core again acked).cur = s.cur := by
  rw [State.published]
  split
  · rfl
  · exact (State.updCore_cur _ _ _).trans (State.movePartials_turn s core)

/-- Reaching a waybill fills the caches, and changes no boundary unit, group or turn (R368). -/
theorem State.reachWb_kept (s : State) (core ctx : Nat) (p : DWord) :
    (s.reachWb core ctx p).2.cur = s.cur ∧ ∃ d, ∀ k, (s.reachWb core ctx p).2.core k = (s.setDesc core d).core k := by
  refine ⟨?_, (s.check core ctx (s.core core).desc p 64 needWaybill).2, fun k => ?_⟩
  · simp only [State.reachWb]
    split
    · rfl
    · simp only [State.extentMet, State.extentFill]
      split <;> rfl
  · simp only [State.reachWb]
    split
    · rfl
    · exact State.core_extentMet ..

theorem State.reachWb_unitFree {s : State} (free : UnitFree s) (ctx : Nat) (p : DWord) :
    UnitFree (s.reachWb s.cur.core ctx p).2 := by
  obtain ⟨turn, d, cores⟩ := s.reachWb_kept s.cur.core ctx p
  rw [UnitFree, turn, cores, State.setDesc, State.core_updCore_self]
  exact free

/-! ## The waybill found -/

/-- The turn's group reaches its waybill, present, in service and clean, in state `u` (R368, R394). -/
def FindsWb (s : State) (g : Group) (ptr : DWord) (u : State) (pa : Nat) : Prop :=
  s.reachWb s.cur.core g.ctx ptr = (.at pa, u) ∧ (u.die (pa / 2 ^ 38)).out = false ∧ u.poisoned pa 32 = false ∧
    u.poisoned (pa + 32) 32 = false

section
variable {s u : State} {g : Group} {ptr : DWord} {pa : Nat} (lo : Nat) (aligned : ptrOfs ptr % 64 = 0)
include aligned

theorem State.findWb_found (found : FindsWb s g ptr u pa) : s.findWb g ptr lo = .ok (pa, u) := by
  obtain ⟨reach, serves, low, high⟩ := found
  have clean : ([0, 32].find? fun i => u.poisoned (pa + i) 32) = none := by
    simp [low, high]
  rw [State.findWb, aligned, bne_self_eq_false, trapIf_false, M.ok_bind, reach]
  simp only [serves, clean, Bool.false_eq_true, if_false]

end

/-! ## The two instructions -/

/-- SPAWN (`amount` none) and JDEC of a group whose registers can be used (R368). -/
def State.spawns (s : State) (g : Group) (t : LaneMask) (lo d : Nat) (ptr : DWord) (amount : Option Nat) : M State := do
  let s1 ← if s.bounding then .ok s else do
    let r ← s.findWb g ptr lo
    waitIf (!g.log.isEmpty || g.cnt.ld != 0 || g.cnt.st != 0 || g.cnt.tl != 0 || g.streams.any fun q => !q.isEmpty)
    if s.sending s.cur.core s.cur.slot .dev then s.publishable s.cur.core s.cur.slot lo
    .ok r.2
  match s1.boundaryStep s.cur.core s.cur.slot fun j u => u.sendAll s.cur.core g.ctx false j with
  | .busy u => .error (.state u)
  | .running u => .error (.state u.park)
  | .done u acked => do
    let again := match (s.core s.cur.core).boundary with | some b => b.job == 0 | none => false
    let w ← (u.published s.cur.core again acked).findWb g ptr lo
    if w.2.homeReady (w.1 / 128) then .ok (w.2.atWaybill g ptr w.1 t d amount)
    else .error (.state (w.2.holdUnit s.cur.core s.cur.slot).park)

section
variable {s : State} {p : Pred} {g : Group} {t : LaneMask} {lo : Nat} (h : Turn s p g t lo) {d a b : Reg}
  (ready : Ready g [a.toNat, a.toNat + 1, d.toNat])
include h ready

theorem spawn_asks : exec (.spawn p d a) s =
    run s (s.spawns g t lo d.toNat (g.pair (s.core s.cur.core) a.toNat lo) none) :=
  (scope_ready h (ready_both ready (b := []) fun _ no => absurd no List.not_mem_nil) _).trans rfl

theorem jdec_asks (amount : Ready g [b.toNat]) : exec (.jdec p d a b) s =
    run s (s.spawns g t lo d.toNat (g.pair (s.core s.cur.core) a.toNat lo)
      (some (g.reg (s.core s.cur.core) b.toNat lo).toNat)) :=
  (scope_ready h (ready_both ready amount) _).trans rfl

end

section
variable {s u : State} {g : Group} {t : LaneMask} {lo d : Nat} {ptr : DWord} {pa : Nat} (aligned : ptrOfs ptr % 64 = 0)
  (amount : Option Nat)
include aligned

/-- With nothing outstanding, the group takes the free unit and its core's words are sent (R309, R368). -/
theorem State.spawns_takes (found : FindsWb s g ptr u pa) (log : g.log = []) (ld : g.cnt.ld = 0) (st : g.cnt.st = 0)
    (tl : g.cnt.tl = 0) (idle : ∀ q ∈ g.streams, q = []) (free : UnitFree s) (alive : s.deadLine s.cur.core = none) :
    s.spawns g t lo d ptr amount =
      .error (.state (unitTaken u fun j v => v.sendAll s.cur.core g.ctx false j).park) := by
  have quiet : (g.streams.any fun q => !q.isEmpty) = false := by
    rw [List.any_eq_false]
    intro q hq
    rw [idle q hq]
    exact Bool.false_ne_true
  have met : (s.reachWb s.cur.core g.ctx ptr).2 = u := by rw [found.1]
  have same : u.cur = s.cur := met ▸ (s.reachWb_kept s.cur.core g.ctx ptr).1
  have step := (met ▸ State.reachWb_unitFree free g.ctx ptr : UnitFree u).step fun j v => v.sendAll s.cur.core g.ctx false j
  rw [same] at step
  simp only [State.spawns, free.bounding, Bool.false_eq_true, if_false, State.findWb_found lo aligned found, M.ok_bind, log, ld,
    st, tl, quiet, List.isEmpty_nil, bne_self_eq_false, Bool.not_true, Bool.or_self, waitIf_false, free.sending,
    State.publishable_ok alive, step]
  rfl

/-- The core's words are published: the waybill is found again, and its home ready or not (R304, R368). -/
theorem State.spawns_published {job : Nat} {acked : List (Nat × Word)} (ready : UnitReady s job acked)
    (found : FindsWb ((committed s job acked).published s.cur.core (job == 0) acked) g ptr u pa) :
    s.spawns g t lo d ptr amount = if u.homeReady (pa / 128) then .ok (u.atWaybill g ptr pa t d amount)
      else .error (.state (u.holdUnit s.cur.core s.cur.slot).park) := by
  obtain ⟨b, held, -, job_, -⟩ := id ready
  simp only [State.spawns, ready.bounding, if_true, M.ok_bind, ready.step, held, job_, State.findWb_found lo aligned found]

end

section
variable {s u : State} {g : Group} {m : LaneMask} {d pa v : Nat} {ptr : DWord}

/-- SPAWN's answer (R368). -/
theorem State.atWaybill_spawn (step : s.spawnStep g.ctx ptr pa = .ok (v, u)) :
    s.atWaybill g ptr pa m d none = (u.putAll m d (BitVec.ofNat 32 v)).next.close true := by
  simp only [State.atWaybill, step, Option.isSome_none, Bool.and_false, Bool.false_eq_true, if_false]

/-- JDEC's answer, but in deterministic mode (R368). -/
theorem State.atWaybill_jdec {n : Nat} (det : g.det = false) (step : s.jdecStep g.ctx ptr pa n = .ok (v, u)) :
    s.atWaybill g ptr pa m d (some n) = (u.putAll m d (BitVec.ofNat 32 v)).next.close true := by
  simp only [State.atWaybill, step, det, Bool.false_and, Bool.false_eq_true, if_false]

end

section
variable {s : State} (ctx : Nat) (ptr : DWord) (pa : Nat)

/-- The low half of the waybill's word 2 is its JOIN. -/
theorem State.wb_join (s : State) (pa : Nat) : fld (s.wb pa 2) 0 32 = (s.wb pa 2).toNat % 2 ^ 32 := by
  rw [fld, BitVec.extractLsb'_toNat, Nat.shiftRight_zero]

theorem State.spawnStep_taken (taken : s.wbState pa ≠ 0) : s.spawnStep ctx ptr pa = .ok (3, s) := by
  rw [State.spawnStep, if_pos taken]

variable {pa}

theorem State.spawnStep_joins (waiting : s.wbState pa = 0) (join : (s.wb pa 2).toNat % 2 ^ 32 ≠ 0) :
    s.spawnStep ctx ptr pa = .ok (1, s) := by
  rw [State.spawnStep, if_neg (not_not_intro waiting), State.wb_join, if_pos join]

theorem State.spawnStep_checks (waiting : s.wbState pa = 0) (join : (s.wb pa 2).toNat % 2 ^ 32 = 0) :
    s.spawnStep ctx ptr pa = match s.wellFormed ctx pa with
      | .absent on e => .error (on, e)
      | .fails k => .ok (2, s.badWb ctx ptr pa k)
      | .ok => .ok (0, (s.setWbState pa 1).placeWb ctx ptr pa) := by
  rw [State.spawnStep, if_neg (not_not_intro waiting), State.wb_join, if_neg (not_not_intro join)] <;>
    rfl

theorem State.jdecStep_below {n : Nat} (below : (s.wb pa 2).toNat % 2 ^ 32 < n) :
    s.jdecStep ctx ptr pa n = .ok ((s.wb pa 2).toNat % 2 ^ 32, s.wbRecord ctx ptr 0) := by
  simp only [State.jdecStep, State.wb_join]
  exact if_pos below

theorem State.jdecStep_waits {n : Nat} (enough : n ≤ (s.wb pa 2).toNat % 2 ^ 32)
    (other : n = 0 ∨ n < (s.wb pa 2).toNat % 2 ^ 32 ∨ s.wbState pa ≠ 0) : s.jdecStep ctx ptr pa n =
      .ok ((s.wb pa 2).toNat % 2 ^ 32, s.setWb pa 2 fun w => setFld w 0 32 ((s.wb pa 2).toNat % 2 ^ 32 - n)) := by
  have stays : ¬ (n ≠ 0 ∧ n = (s.wb pa 2).toNat % 2 ^ 32 ∧ s.wbState pa = 0) := by
    rintro ⟨some, all, waiting⟩
    rcases other with none | less | taken
    · exact some none
    · exact less.ne all
    · exact taken waiting
  simp only [State.jdecStep, State.wb_join]
  rw [if_neg (Nat.not_lt.mpr enough), if_neg stays]

theorem State.jdecStep_places {n : Nat} (all : n = (s.wb pa 2).toNat % 2 ^ 32) (some : n ≠ 0) (waiting : s.wbState pa = 0)
    {s1 : State} (left : s1 = s.setWb pa 2 fun w => setFld w 0 32 ((s.wb pa 2).toNat % 2 ^ 32 - n))
    (ok : s1.wellFormed ctx pa = .ok) : s.jdecStep ctx ptr pa n =
      .ok ((s.wb pa 2).toNat % 2 ^ 32, (s1.setWbState pa 1).placeWb ctx ptr pa) := by
  subst left
  simp only [State.jdecStep, State.wb_join]
  rw [if_neg (Nat.not_lt.mpr all.le), if_pos ⟨some, all, waiting⟩, ok]

end

/-! ## TQRY -/

/-- After registers are written, a deterministic group has its TIMING bit set and any other stays as it is. -/
theorem State.past_marked {s : State} {g : Group} (hg : s.curGroup = some g) (ws : List (Nat × Nat × Word)) :
    ((s.putRegs s.cur.core s.cur.slot ws).next.updGroup s.cur.core s.cur.slot fun q => q.sticky false) =
      (s.putRegs s.cur.core s.cur.slot ws).next.updGroup s.cur.core s.cur.slot
        fun q => if g.det then { q with detSticky := q.detSticky ||| 1 } else q := by
  obtain ⟨cur, q, hq, same⟩ := State.putRegs_turn hg ws
  have mark : (q.advance s.cur.mask).sticky false = if g.det then
      { q.advance s.cur.mask with detSticky := (q.advance s.cur.mask).detSticky ||| 1 } else q.advance s.cur.mask := by
    have mode : (q.advance s.cur.mask).det = g.det := same
    exact if_congr (by rw [mode]) rfl rfl
  rw [State.next, cur]
  exact State.updGroup_congr (State.group_updGroup_self _ _ _ _ hq) mark

/-- TQRY writes each lane the words of the queue that its register names, with U the lowest lane's, and in deterministic
mode sets TIMING (R369). -/
theorem tqry_writes {s : State} {c : Ctl} {g : Group} {t : LaneMask} {lo : Nat} {d a : Reg} (h : Turn s c.p g t lo)
    (ready : Ready g [a.toNat, d.toNat, d.toNat + 1]) (alike : Alike g (s.core s.cur.core) c.u t lo [a.toNat] [])
    {words : Nat → Word × Word} (gives : ∀ l, (if g.det ||
        decide ((g.reg (s.core s.cur.core) a.toNat (from_ c.u lo l)).toNat > 15) then ((0 : Word), (0 : Word))
      else ((s.ctx g.ctx).queues.getD (g.reg (s.core s.cur.core) a.toNat (from_ c.u lo l)).toNat RQueue.zero).tqry) =
        words l) :
    exec (.tqry c d a) s = .next ((s.putRegs s.cur.core s.cur.slot ((lanesOf t).flatMap fun l =>
      [(l, d.toNat, (words l).1), (l, d.toNat + 1, (words l).2)])).next.updGroup s.cur.core s.cur.slot fun q =>
        if g.det then { q with detSticky := q.detSticky ||| 1 } else q) := by
  obtain rfl := (funext gives : (fun l => _) = words)
  refine (congrArg (run s) (turn_mem h _)).trans ?_
  rw [needRegs_ready lo ready, M.ok_bind, alike_check alike, M.ok_bind]
  exact congrArg Host.Outcome.next (State.past_marked h.group _)

end Sys2Proof.Machine

namespace Sys2Proof.Slice0
open Sys2Proof.Machine

/-- Settles O41: the unit's steps for the group, then the waybill's answer at its home. -/
theorem schedulingForms : Obligations.SchedulingForms := by
  intro s g t lo p c d a b k x ptr n found
  refine ⟨fun h ready aligned => ⟨fun pa s1 at_ log ld st tl idle free alive => ?_, fun job acked unit => ?_⟩,
    fun h ready alike => ?_⟩
  · have takes := fun amount => State.spawns_takes (t := t) (lo := lo) (d := d.toNat) aligned amount at_ log ld st tl idle free alive
    exact ⟨(spawn_asks h ready).trans (congrArg (run s) (takes _)),
      fun amount => (jdec_asks h ready amount).trans (congrArg (run s) (takes _))⟩
  · intro v pa u at_
    have publishes : (committed s job acked).published k (job == 0) acked = v := by
      rw [State.published]
      exact if_congr beq_iff_eq rfl rfl
    have turn : v.cur = s.cur := publishes ▸ State.published_turn (committed s job acked) k _ acked
    have finds : FindsWb ((committed s job acked).published k (job == 0) acked) g ptr u pa := by
      rw [publishes, FindsWb, turn]
      exact at_
    have published := fun amount => State.spawns_published (t := t) (lo := lo) (d := d.toNat) aligned amount unit finds
    refine ⟨fun waits => ?_, fun home => ?_⟩
    · have holds := fun amount => (published amount).trans (if_neg (Bool.eq_false_iff.mp waits))
      exact ⟨(spawn_asks h ready).trans (congrArg (run s) (holds _)),
        fun amount => (jdec_asks h ready amount).trans (congrArg (run s) (holds _))⟩
    · intro answer join
      have acts := fun amount => (published amount).trans (if_pos home)
      have spawned : ∀ w r, u.spawnStep g.ctx ptr pa = .ok (w, r) → answer (.spawn p d a) w r := fun w r step =>
        (spawn_asks h ready).trans (congrArg (run s) ((acts _).trans (congrArg _ (State.atWaybill_spawn step))))
      refine ⟨fun taken => spawned _ _ (State.spawnStep_taken _ _ _ taken),
        fun waiting more => spawned _ _ (State.spawnStep_joins _ _ waiting more), fun waiting none => ⟨fun ok => spawned _ _ ?_,
          fun w bad => spawned _ _ ?_⟩, fun amount det => ?_⟩
      · rw [State.spawnStep_checks _ _ waiting none, ok]
      · rw [State.spawnStep_checks _ _ waiting none, bad]
      · intro u1
        have left : ∀ w r, u.jdecStep g.ctx ptr pa n = .ok (w, r) → answer (.jdec p d a b) w r := fun w r step =>
          (jdec_asks h ready amount).trans (congrArg (run s) ((acts _).trans (congrArg _ (State.atWaybill_jdec det step))))
        exact ⟨fun below => left _ _ (State.jdecStep_below _ _ below),
          fun enough other => left _ _ (State.jdecStep_waits _ _ enough other),
          fun all some waiting ok => left _ _ (State.jdecStep_places _ _ all some waiting rfl ok)⟩
  · intro words
    refine (tqry_writes h ready alike (words := words) fun l => ?_).trans ?_
    · refine if_congr ?_ rfl rfl
      rw [Bool.or_eq_true, decide_eq_true_iff]
    · rfl

end Sys2Proof.Slice0
end

section
/-! SUPPORT. Branches (R331, R333, R335): the checks of their targets, the lanes that BRA takes, the loop it captures. -/

namespace Sys2Proof.Machine
open Sys2Proof.Slice0

/-! ## The lanes of a mask, in order -/

theorem firstFrom_eq_head (p : Nat → Bool) (i n : Nat) : firstFrom p i n = ((List.range' i n).filter p).head? := by
  induction n generalizing i with
  | zero => rfl
  | succ n ih =>
    rw [List.range'_succ, firstFrom]
    cases hp : p i with
    | true => rw [List.filter_cons_of_pos hp]; rfl
    | false => rw [List.filter_cons_of_neg (by simp [hp]), ← ih]; rfl

/-- The lowest lane of a mask is the first of its lanes. -/
theorem lowestLane_eq_head (m : LaneMask) : lowestLane m = (lanesOf m).head? := by
  rw [lowestLane, firstBelow, firstFrom_eq_head, lanesOf, List.range_eq_range']

theorem lanesOf_sorted (m : LaneMask) : (lanesOf m).Pairwise (· < ·) := List.pairwise_lt_range.filter _

theorem mem_lanesOf {m : LaneMask} {l : Nat} (h : l ∈ lanesOf m) : m.getLsbD l = true := (List.mem_filter.mp h).2

theorem lowestLane_mem {m : LaneMask} {lo : Nat} (low : lowestLane m = some lo) : lo ∈ lanesOf m :=
  List.mem_of_mem_head? (lowestLane_eq_head m ▸ low)

theorem lowestLane_le {m : LaneMask} {lo l : Nat} (low : lowestLane m = some lo) (hl : l ∈ lanesOf m) : lo ≤ l := by
  have sorted := lanesOf_sorted m
  rw [lowestLane_eq_head] at low
  obtain ⟨rest, all⟩ := List.head?_eq_some_iff.mp low
  rw [all] at hl sorted
  rcases List.mem_cons.mp hl with rfl | later
  · exact Nat.le_refl _
  · exact (List.rel_of_pairwise_cons sorted later).le

/-! ## Targets -/

theorem low3_zero_iff (q : DWord) : q.extractLsb' 0 3 = 0 ↔ q.toNat % 8 = 0 := by
  rw [← BitVec.toNat_inj, BitVec.extractLsb'_toNat, Nat.shiftRight_zero]
  rfl

section
variable {pc q : DWord} {l : Nat}

theorem checkTarget_none : checkTarget pc l none = .error (.trap ⟨.objBounds, l, pc, 0⟩) := rfl

theorem checkTarget_ok (aligned : q.toNat % 8 = 0) : checkTarget pc l (some q) = .ok q :=
  if_pos ((low3_zero_iff q).mpr aligned)

theorem checkTarget_off (off : q.toNat % 8 ≠ 0) :
    checkTarget pc l (some q) = .error (.trap ⟨.misaligned, l, q, 0⟩) :=
  if_neg fun low => off ((low3_zero_iff q).mp low)

/-- Targets that are all good are all taken. -/
theorem checkTargets_ok (tgt : Nat → DWord) {ls : List Nat} (aligned : ∀ l ∈ ls, (tgt l).toNat % 8 = 0) :
    checkTargets pc (ls.map fun l => (l, some (tgt l))) = .ok (ls.map fun l => (l, tgt l)) := by
  induction ls with
  | nil => rfl
  | cons l ls ih =>
    rw [List.map_cons, checkTargets, checkTarget_ok (aligned l List.mem_cons_self), M.ok_bind,
      ih fun j hj => aligned j (List.mem_cons_of_mem l hj), M.ok_bind]
    rfl

/-- The first lane whose target is bad decides. -/
theorem checkTargets_first {tgt : Nat → Option DWord} {e : Stop} {ls : List Nat} (sorted : ls.Pairwise (· < ·)) (here : l ∈ ls)
    (bad : checkTarget pc l (tgt l) = .error e)
    (good : ∀ j ∈ ls, j < l → ∃ q, checkTarget pc j (tgt j) = .ok q) :
    checkTargets pc (ls.map fun l => (l, tgt l)) = .error e := by
  induction ls with
  | nil => exact absurd here List.not_mem_nil
  | cons j ls ih =>
    obtain ⟨low, sorted⟩ := List.pairwise_cons.mp sorted
    rw [List.map_cons, checkTargets]
    rcases List.mem_cons.mp here with rfl | later
    · rw [bad, M.error_bind]
    · obtain ⟨q, ok⟩ := good j List.mem_cons_self (low l later)
      rw [ok, M.ok_bind, ih sorted later fun i hi => good i (List.mem_cons_of_mem j hi), M.error_bind]

end

/-! ## BRX, RET and CALL -/

section
variable {s : State} {c : Ctl} {g : Group} {t : LaneMask} {lo : Nat} (h : Turn s c.p g t lo)
include h

/-- CALL asks its one target in its lowest lane, and writes its link before it jumps (R335). -/
theorem call_asks {d : Reg} (ready : Ready g [d.toNat, d.toNat + 1]) (o : BitVec 20) :
    exec (.call c d o) s = run s (checkTargets s.cur.pc ((lanesOf t).map fun l => (l, braTarget s.cur.pc o.toInt)) >>= fun ts =>
      .ok ((s.putAll64 t d.toNat (pcAdd s.cur.pc 8)).jump s.cur.mask ts none)) := by
  have same : uCheck g (s.core s.cur.core) c.u t lo [] = .ok () := uCheck_same fun _ _ _ _ _ no => absurd no List.not_mem_nil
  refine congrArg (run s) ((turn_mem h _).trans ?_)
  simp only [List.nil_append, needRegs_ready lo ready, M.ok_bind, same]

variable {a : Reg} (ready : Ready g [a.toNat, a.toNat + 1])
  (alike : Alike g (s.core s.cur.core) c.u t lo [a.toNat, a.toNat + 1] [])
include ready alike

/-- BRX and RET ask the targets in their pair; with U that of the lowest lane (R26, R335). -/
theorem brx_asks : exec (.brx c a) s = run s (checkTargets s.cur.pc ((lanesOf t).map fun l =>
      (l, some (g.pair (s.core s.cur.core) a.toNat (from_ c.u lo l)))) >>= fun ts => .ok (s.jump s.cur.mask ts none)) := by
  refine congrArg (run s) ((turn_mem h _).trans ?_)
  simp only [List.append_nil, needRegs_ready lo ready, M.ok_bind, alike_check alike]
  rfl

theorem callInd_asks {d : Reg} (link : Ready g [d.toNat, d.toNat + 1]) :
    exec (.callInd c d a) s = run s (checkTargets s.cur.pc ((lanesOf t).map fun l =>
      (l, some (g.pair (s.core s.cur.core) a.toNat (from_ c.u lo l)))) >>= fun ts =>
        .ok ((s.putAll64 t d.toNat (pcAdd s.cur.pc 8)).jump s.cur.mask ts none)) := by
  refine congrArg (run s) ((turn_mem h _).trans ?_)
  simp only [needRegs_ready lo (ready_both ready link), M.ok_bind, alike_check alike]
  rfl

end

/-! ## BRA -/

section
variable {s : State} {c : Ctl} {g : Group} {t : LaneMask}

/-- The lanes that BRA takes (R333). -/
theorem State.braTakers_eq {first : Nat} (lanes : g.taking (s.core s.cur.core) c.p s.cur.mask = t)
    (low : lowestLane s.cur.mask = some first) (alike : c.u = true → g.dbg = true → t = s.cur.mask ∨ t = 0) :
    s.braTakers g c = .ok (if c.u then (if t.getLsbD first then s.cur.mask else 0) else t) := by
  simp only [State.braTakers, lanes]
  cases hu : c.u with
  | false => rfl
  | true =>
    have same : (if g.dbg = true then (lanesOf s.cur.mask).find? fun l => t.getLsbD l != t.getLsbD first else none) = none := by
      split
      · next dbg =>
        refine List.find?_eq_none.mpr fun l hl => ?_
        have inMask := mem_lanesOf hl
        have firstIn : s.cur.mask.getLsbD first = true :=
          mem_lanesOf (lowestLane_mem low)
        rcases alike hu dbg with rfl | rfl
        · simp [inMask, firstIn]
        · simp
      · rfl
    simp only [Bool.not_true, Bool.false_eq_true, if_false, low, same, if_true]

variable (hg : s.curGroup = some g) {b : LaneMask} (takers : s.braTakers g c = .ok b) (o : BitVec 21)
include hg takers

/-- BRA that no lane takes passes on. -/
theorem bra_nobody (none : b = 0) : exec (.bra c o) s = .next s.next := by
  have low : lowestLane b = .none := lowestLane_none.mpr none
  refine (congrArg (run s) (?_ : s.braM c o = .ok s.next)).trans rfl
  rw [State.braM, State.agent_some hg, M.ok_bind, takers, M.ok_bind, low]

variable {k : Nat} (low : lowestLane b = some k)
include low

/-- BRA checks its target in its lowest lane, then captures its loop (R331, R335). -/
theorem bra_asks : exec (.bra c o) s = run s (checkTarget s.cur.pc k (braTarget s.cur.pc o.toInt) >>= fun q =>
    s.capture g b s.cur.pc q >>= fun buf => .ok (buf.2.jump s.cur.mask ((lanesOf b).map fun l => (l, q)) buf.1)) := by
  refine congrArg (run s) (?_ : s.braM c o = _)
  rw [State.braM, State.agent_some hg, M.ok_bind, takers, M.ok_bind, low]

end

/-- A branch back to `q` closes a loop that fits the loop buffer and that some live thread leaves (R331). -/
def loops (g : Group) (takers : LaneMask) (pc q : DWord) : Prop :=
  ptrOfs q ≤ ptrOfs pc ∧ (ptrOfs pc - ptrOfs q) / 8 + 1 ≤ 48 ∧ g.live &&& ~~~takers ≠ 0

section
variable {s : State} {g : Group} {b : LaneMask} {pc q : DWord}

theorem State.capture_none (straight : ¬ loops g b pc q) : s.capture g b pc q = .ok (none, s) := by
  rw [State.capture]
  refine if_neg fun ⟨back, fits, left⟩ => straight ⟨back, fits, bne_iff_ne.mp left⟩

theorem State.capture_loop (loop : loops g b pc q) {words : Option (List DWord)} {u : State}
    (fetched : s.fetchLoop s.cur.core g.ctx q ((ptrOfs pc - ptrOfs q) / 8 + 1) = .ok (words, u)) :
    s.capture g b pc q = .ok (words.map fun ws => { lo := q, hi := pc, words := ws }, u) := by
  obtain ⟨back, fits, left⟩ := loop
  rw [State.capture]
  refine (if_pos ⟨back, fits, bne_iff_ne.mpr left⟩).trans ?_
  rw [fetched, M.ok_bind]

end

end Sys2Proof.Machine

namespace Sys2Proof.Slice0
open Sys2Proof.Machine

/-- Settles O38: each branch's checks in the order of its lanes, then its jump. -/
theorem branchResults : Obligations.BranchResults := by
  intro s g t lo first c a d o o20 x m trap bra linked tgt jumps hg lanes low alike
  have takers : s.braTakers g c = .ok bra := State.braTakers_eq lanes low alike
  refine ⟨fun none => bra_nobody hg takers o none, fun k hk => ⟨fun outside => ?_, fun q inside => ⟨fun off => ?_,
    fun aligned => ?_⟩⟩, fun hlo => ⟨fun ready => ⟨fun outside => ?_, fun q inside => ⟨fun off => ?_, fun aligned => ?_⟩⟩,
      fun ready same => ⟨fun aligned => ?_, fun l here off before => ?_⟩⟩⟩
  · refine (bra_asks hg takers o hk).trans ?_
    rw [outside, checkTarget_none, M.error_bind, run_trap]
  · refine (bra_asks hg takers o hk).trans ?_
    rw [inside, checkTarget_off off, M.error_bind, run_trap]
  · intro to_ n loop
    have goes := fun {buf} (captured : s.capture g bra s.cur.pc q = .ok buf) => (bra_asks hg takers o hk).trans
      (congrArg (run s) (by rw [inside, checkTarget_ok aligned, M.ok_bind, captured, M.ok_bind]))
    exact ⟨fun straight => goes (State.capture_none straight), fun ws u back fetched => goes (State.capture_loop back fetched),
      fun u back fetched => goes (State.capture_loop back fetched)⟩
  all_goals have turn : Turn s c.p g t lo := ⟨hg, lanes, hlo⟩
  all_goals have lowest : lo ∈ lanesOf t := lowestLane_mem hlo
  all_goals have first_good : ∀ tgt : Nat → Option DWord, ∀ j ∈ lanesOf t, j < lo → ∃ q, checkTarget s.cur.pc j (tgt j) = .ok q :=
    fun _ j hj below => absurd (lowestLane_le hlo hj) (Nat.not_le.mpr below)
  · refine (call_asks turn ready o20).trans ?_
    rw [checkTargets_first (lanesOf_sorted t) lowest (by rw [outside]; exact checkTarget_none) (first_good _), M.error_bind,
      run_trap]
  · refine (call_asks turn ready o20).trans ?_
    rw [checkTargets_first (lanesOf_sorted t) lowest (by rw [inside]; exact checkTarget_off off) (first_good _), M.error_bind,
      run_trap]
  · refine (call_asks turn ready o20).trans ?_
    rw [inside, checkTargets_ok (fun _ => q) fun _ _ => aligned, M.ok_bind, run_ok]
  · have good := checkTargets_ok (pc := s.cur.pc) tgt aligned
    have jumpsFrom := fun {i u} (asks : exec i s = run s (checkTargets s.cur.pc ((lanesOf t).map fun l => (l, some (tgt l))) >>=
        fun ts => .ok (State.jump u m ts none))) => asks.trans (congrArg (run s) (by rw [good, M.ok_bind]))
    exact ⟨jumpsFrom (brx_asks turn ready same), jumpsFrom (brx_asks turn ready same),
      fun link => jumpsFrom (callInd_asks turn ready same link)⟩
  · have bad := checkTargets_first (pc := s.cur.pc) (tgt := fun l => some (tgt l)) (lanesOf_sorted t) here (checkTarget_off off)
      fun j hj below => ⟨tgt j, checkTarget_ok (before j hj below)⟩
    have traps := fun {i u} (asks : exec i s = run s (checkTargets s.cur.pc ((lanesOf t).map fun l => (l, some (tgt l))) >>=
        fun ts => .ok (State.jump u m ts none))) => asks.trans (congrArg (run s) (by rw [bad, M.error_bind]))
    exact ⟨traps (brx_asks turn ready same), traps (brx_asks turn ready same),
      fun link => traps (callInd_asks turn ready same link)⟩

end Sys2Proof.Slice0
end

section
/-! SUPPORT. QUIESCE and GANGSW (R396 to R398): the checks of a context operand, then each form. -/

namespace Sys2Proof.Machine
open Sys2Proof.Slice0

/-! ## The checks of R396 -/

section
variable {s : State} {g : Group} {v : Word} (first : g.parked = none) (k : Nat → M (Nat × State))
include first

theorem State.ctxForm_high (high : 7 < v.toNat) : s.ctxForm g v k = .ok (1, s) := by
  simp only [State.ctxForm, first, Option.isSome_none, Bool.false_eq_true, if_false]
  exact if_pos high

theorem State.ctxForm_away (low : v.toNat ≤ 7) (away : s.resident v.toNat = false) : s.ctxForm g v k = .ok (3, s) := by
  simp only [State.ctxForm, first, Option.isSome_none, Bool.false_eq_true, if_false, if_neg (Nat.not_lt.mpr low), gt_iff_lt,
    away, Bool.not_false, if_true]

variable (low : v.toNat ≤ 7) (here : s.resident v.toNat = true)
include low here

theorem State.ctxForm_switching (armed : s.switching v.toNat = true) : s.ctxForm g v k = .ok (2, s) := by
  simp only [State.ctxForm, first, Option.isSome_none, Bool.false_eq_true, if_false, if_neg (Nat.not_lt.mpr low), gt_iff_lt,
    here, Bool.not_true, armed, if_true]

theorem State.ctxForm_goes (free : s.switching v.toNat = false) : s.ctxForm g v k = k v.toNat := by
  simp only [State.ctxForm, first, Option.isSome_none, Bool.false_eq_true, if_false, if_neg (Nat.not_lt.mpr low), gt_iff_lt,
    here, Bool.not_true, free]

end

/-! ## The forms of QUIESCE (R397) -/

section
variable {s : State} {c : Nat}

theorem State.drainM_idle (idle : (s.ctx c).state ≠ .running) : s.drainM c = .ok (0, s.setQui c true) :=
  if_pos (bne_iff_ne.mpr idle)

theorem State.preemptM_idle (idle : (s.ctx c).state ≠ .running) : s.preemptM c = .ok (0, s.setQui c true) :=
  if_pos (bne_iff_ne.mpr idle)

theorem State.resumeCtx_eq : s.resumeCtx c = if (s.ctx c).state = .running then (s.setQui c false).unshelve c
    else s.setQui c false :=
  if_congr beq_iff_eq rfl rfl

variable (runs : (s.ctx c).state = .running)
include runs

theorem State.drainM_waits (busy : s.anyTeam c = true ∨ s.anyEngine c = true ∨ (s.setQui c true).canFlushAll = false) :
    s.drainM c = parkIn (s.setQui c true) := by
  have held : (s.anyTeam c || s.anyEngine c || !(s.setQui c true).canFlushAll) = true := by simpa [or_assoc] using busy
  simp only [State.drainM, runs, bne_self_eq_false, Bool.false_eq_true, if_false, held, if_true]

theorem State.drainM_done (teams : s.anyTeam c = false) (engines : s.anyEngine c = false)
    (flush : (s.setQui c true).canFlushAll = true) : s.drainM c = .ok (0, (s.setQui c true).flushAll) := by
  simp only [State.drainM, runs, bne_self_eq_false, Bool.false_eq_true, if_false, teams, engines, flush, Bool.not_true,
    Bool.or_self]

/-- QUIESCE.preempt of the running context stops its teams first. -/
theorem State.preemptM_runs {u : State} (stopped : u = (s.setQui c true).stopTeams fun t => t.ctx == c) :
    s.preemptM c = if u.anyTeam c then parkIn u
      else if (u.shelve c).copying c || !(u.shelve c).canFlushAll then parkIn (u.shelve c)
      else .ok (0, (u.shelve c).flushAll) := by
  subst stopped
  simp only [State.preemptM, runs, bne_self_eq_false, Bool.false_eq_true, if_false]

end

/-! ## GANGSW (R398) -/

section
variable {s : State} {c : Nat} {t : DWord}

theorem State.arm_high (high : 7 < c) : s.arm c t = (1, s) := if_pos high

theorem State.arm_away (low : c ≤ 7) (away : s.resident c = false) : s.arm c t = (3, s) := by
  rw [State.arm, if_neg (Nat.not_lt.mpr low), away]
  rfl

variable (low : c ≤ 7) (here : s.resident c = true)
include low here

theorem State.arm_armed (armed : s.armed.isSome = true) : s.arm c t = (2, s) := by
  rw [State.arm, if_neg (Nat.not_lt.mpr low), here, armed]
  rfl

theorem State.arm_free (free : s.armed = none) : s.arm c t = if t.toNat < s.gtime.toNat + 100000 then (4, s)
    else (0, { s with armed := some { ctx := c, t := t } }) := by
  rw [State.arm, if_neg (Nat.not_lt.mpr low), here, free]
  rfl

end

end Sys2Proof.Machine

namespace Sys2Proof.Slice0
open Sys2Proof.Machine

/-- Settles O45: the operand's checks, then what each form marks, stops and writes through. -/
theorem contextForms : Obligations.ContextForms := by
  intro s g t lo p d a b x c marked runs h fw ready first
  have drain : SysRuns s p g t lo d [a.toNat] (.quiesceDrain p d a)
    fun g x lo => s.ctxForm g (g.reg x a.toNat lo) fun c => s.drainM c := ⟨h, fw, ready, rfl⟩
  have preempt : SysRuns s p g t lo d [a.toNat] (.quiescePreempt p d a)
    fun g x lo => s.ctxForm g (g.reg x a.toNat lo) fun c => s.preemptM c := ⟨h, fw, ready, rfl⟩
  have resume : SysRuns s p g t lo d [a.toNat] (.quiesceResume p d a)
    fun g x lo => s.ctxForm g (g.reg x a.toNat lo) fun c => .ok (0, s.resumeCtx c) := ⟨h, fw, ready, rfl⟩
  refine ⟨fun i form => ?_, fun low here free => ?_, fun more => ?_⟩
  · have each : ∃ k, SysRuns s p g t lo d [a.toNat] i fun g x lo => s.ctxForm g (g.reg x a.toNat lo) k := by
      simp only [List.mem_cons, List.not_mem_nil, or_false] at form
      rcases form with rfl | rfl | rfl
      · exact ⟨_, drain⟩
      · exact ⟨_, preempt⟩
      · exact ⟨_, resume⟩
    obtain ⟨k, form⟩ := each
    exact ⟨fun high => form.answers (State.ctxForm_high first k high),
      fun low away => form.answers (State.ctxForm_away first k low away),
      fun low here armed => form.answers (State.ctxForm_switching first k low here armed)⟩
  · have goes := fun k => State.ctxForm_goes first k low here free
    refine ⟨?_, fun idle => ⟨drain.answers ((goes _).trans (State.drainM_idle idle)),
      preempt.answers ((goes _).trans (State.preemptM_idle idle))⟩,
      fun on busy => drain.parksIn ((goes _).trans (State.drainM_waits on busy)),
      fun on teams engines flush => drain.answers ((goes _).trans (State.drainM_done on teams engines flush)), fun on => ?_⟩
    · have resumed := resume.answers (goes _)
      rw [State.resumeCtx_eq] at resumed
      exact resumed
    · intro u v
      have asks := (goes fun c => s.preemptM c).trans (State.preemptM_runs on (u := u) rfl)
      refine ⟨fun teams => preempt.parksIn (asks.trans (if_pos teams)), fun none busy => preempt.parksIn ?_,
        fun none copies flush => preempt.answers ?_⟩
      all_goals refine asks.trans ((if_neg (Bool.eq_false_iff.mp none)).trans ?_)
      · exact if_pos (by simpa using busy)
      · refine if_neg ?_
        rw [copies, flush]
        exact Bool.false_ne_true
  · intro at_ k i
    have form : SysRuns s p g t lo d [a.toNat, a.toNat + 1, b.toNat] i
      fun g x lo => .ok (s.arm (g.reg x b.toNat lo).toNat (g.pair x a.toNat lo)) := ⟨h, fw, ready_both ready more, rfl⟩
    refine ⟨fun high => form.answers (congrArg _ (State.arm_high high)),
      fun low away => form.answers (congrArg _ (State.arm_away low away)),
      fun low here armed => form.answers (congrArg _ (State.arm_armed low here armed)),
      fun low here free => ⟨fun near => form.answers (congrArg _ ((State.arm_free low here free).trans (if_pos near))),
        fun far => form.answers (congrArg _ ((State.arm_free low here free).trans (if_neg (Nat.not_lt.mpr far))))⟩⟩

end Sys2Proof.Slice0
end

section
/-! SUPPORT. SCANRUN, CLUOFF, DIEOFF and DIEON (R389 to R400): what each does once its checks have passed. -/

namespace Sys2Proof.Machine
open Sys2Proof.Slice0

/-! ## A drain, and its end -/

/-- A drain of clusters `ks`, whether it is complete and the words of cores `cs` may be written through (R389). -/
def State.drainTo (s : State) (ks cs : List Nat) : State × Bool :=
  ((s.drainClusters ks).1, (s.drainClusters ks).2 && (s.drainClusters ks).1.canFlush cs)

section
variable {s : State} {ks cs : List Nat} {α : Type} {a b : α}

/-- The two spellings of the test that a drain has ended. -/
theorem State.drainTo_else : (if !(s.drainClusters ks).2 || !(s.drainClusters ks).1.canFlush cs then a else b) =
    if (s.drainTo ks cs).2 then b else a := by
  rw [State.drainTo]
  cases (s.drainClusters ks).2 <;> cases (s.drainClusters ks).1.canFlush cs <;> rfl

end

/-! ## SCANRUN (R396, R399) -/

section
variable {s : State} {k n : Nat}

theorem State.scanHeld_iff (idle : s.scanning = none) : s.scanHeld k = true ↔ ∃ j, s.floorDue = some j ∧ j ≠ k := by
  rw [State.scanHeld, idle]
  cases s.floorDue with
  | none => simp
  | some j => simp

theorem State.tested_iff : s.tested k = true ↔ ∀ c ∈ clusterCores [k], (s.core c).done = true := by
  rw [State.tested, List.all_eq_true]

theorem State.scanM_waits (waits : s.scanHeld k = true ∨ s.tested k = false) : s.scanM k n = parkIn s := by
  have held : (s.scanHeld k || !s.tested k) = true := by simpa using waits
  rw [State.scanM, if_pos held]

theorem State.scanM_goes (free : s.scanHeld k = false) (tested : s.tested k = true) {u : State}
    (marked : u = { s with scanning := some k }) : s.scanM k n =
      if (u.drainTo [k] (clusterCores [k])).2 then
        if Config.scanPasses (s.flashOf 5).image k n s.steps then
          .ok (0, (((u.drainTo [k] (clusterCores [k])).1.flushCores (clusterCores [k])).scanPass k).scanOver k)
        else .ok (5, (((u.drainTo [k] (clusterCores [k])).1.flushCores (clusterCores [k])).suspects k).scanOver k)
      else parkIn (u.drainTo [k] (clusterCores [k])).1 := by
  subst marked
  have goes : (s.scanHeld k || !s.tested k) = false := by rw [free, tested]; rfl
  rw [State.scanM, if_neg (Bool.eq_false_iff.mp goes)]
  exact State.drainTo_else

end

/-- SCANRUN of cluster `k` with pattern `n`: its checks, then the scan (R396). -/
def State.scanForm (s : State) (g : Group) (k n : Nat) : M (Nat × State) :=
  if k > 63 || n > 15 then .ok (1, s)
  else if (s.cluster k).withdrawn || (s.die (k / 16)).out then .ok (3, s.scanOver k)
  else if g.parked.isNone && s.scanning.isSome then .ok (2, s)
  else s.scanM k n

section
variable {s : State} {g : Group} {k n : Nat}

theorem State.scanForm_range (high : 63 < k ∨ 15 < n) : s.scanForm g k n = .ok (1, s) := if_pos (by simpa using high)

variable (low : k ≤ 63) (pattern : n ≤ 15)
include low pattern

theorem State.scanForm_checks : s.scanForm g k n =
    if (s.cluster k).withdrawn || (s.die (k / 16)).out then .ok (3, s.scanOver k)
    else if g.parked.isNone && s.scanning.isSome then .ok (2, s) else s.scanM k n :=
  if_neg (by simpa using ⟨low, pattern⟩)

theorem State.scanForm_gone (gone : (s.cluster k).withdrawn = true ∨ (s.die (k / 16)).out = true) :
    s.scanForm g k n = .ok (3, s.scanOver k) :=
  (State.scanForm_checks low pattern).trans (if_pos (by simpa using gone))

variable (stays : (s.cluster k).withdrawn = false) (serves : (s.die (k / 16)).out = false)
include stays serves

theorem State.scanForm_here : s.scanForm g k n =
    if g.parked.isNone && s.scanning.isSome then .ok (2, s) else s.scanM k n := by
  rw [State.scanForm_checks low pattern, stays, serves]
  rfl

theorem State.scanForm_busy (first : g.parked = none) (busy : s.scanning.isSome = true) : s.scanForm g k n = .ok (2, s) := by
  rw [State.scanForm_here low pattern stays serves, first, busy]
  rfl

theorem State.scanForm_goes (idle : s.scanning = none) : s.scanForm g k n = s.scanM k n := by
  rw [State.scanForm_here low pattern stays serves, idle]
  exact if_neg (by simp)

end

/-! ## CLUOFF, DIEOFF and DIEON (R400) -/

/-- CLUOFF of cluster `k` (R400). -/
def State.cluForm (s : State) (g : Group) (k : Nat) : M (Nat × State) :=
  if g.parked.isSome then s.cluoffM k
  else if k > 63 then .ok (1, s)
  else if (s.inService.filter (· != k)).isEmpty then .ok (6, s)
  else if !(s.cluster k).inSvc then .ok (3, s)
  else s.cluoffM k

theorem State.cluoffM_eq (s : State) (k : Nat) : s.cluoffM k = if (s.drainTo [k] (clusterCores [k])).2 then
    .ok (0, (((s.drainTo [k] (clusterCores [k])).1.flushCores (clusterCores [k])).withdraw [k]).scanOver k)
    else parkIn (s.drainTo [k] (clusterCores [k])).1 := State.drainTo_else

section
variable {s : State} {g : Group} {k : Nat} (first : g.parked = none)
include first

theorem State.cluForm_first : s.cluForm g k = if k > 63 then .ok (1, s)
    else if (s.inService.filter (· != k)).isEmpty then .ok (6, s)
    else if !(s.cluster k).inSvc then .ok (3, s) else s.cluoffM k := by
  rw [State.cluForm, first]
  rfl

theorem State.cluForm_range (high : 63 < k) : s.cluForm g k = .ok (1, s) :=
  (State.cluForm_first first).trans (if_pos high)

variable (low : k ≤ 63)
include low

theorem State.cluForm_last (last : ∀ j ∈ s.inService, j = k) : s.cluForm g k = .ok (6, s) := by
  rw [State.cluForm_first first, if_neg (Nat.not_lt.mpr low)]
  refine if_pos ?_
  rw [List.isEmpty_iff, List.filter_eq_nil_iff]
  intro j hj
  simpa using last j hj

variable (more : ∃ j ∈ s.inService, j ≠ k)
include more

theorem State.cluForm_more : s.cluForm g k = if !(s.cluster k).inSvc then .ok (3, s) else s.cluoffM k := by
  obtain ⟨j, hj, other⟩ := more
  rw [State.cluForm_first first, if_neg (Nat.not_lt.mpr low)]
  refine if_neg fun none => ?_
  rw [List.isEmpty_iff, List.filter_eq_nil_iff] at none
  exact none j hj (bne_iff_ne.mpr other)

end

/-- DIEOFF of die `k` (R400). -/
def State.offForm (s : State) (g : Group) (k : Nat) : M (Nat × State) :=
  if g.parked.isSome then s.dieoffM k
  else if k > 3 then .ok (1, s)
  else if k = 0 then .ok (6, s)
  else if (s.die k).out then .ok (3, s)
  else s.dieoffM k

/-- DIEON of die `k` (R400). -/
def State.onForm (s : State) (g : Group) (k : Nat) : M (Nat × State) :=
  if g.parked.isSome then s.dieonM g k
  else if k > 3 then .ok (1, s)
  else if k = 0 then .ok (6, s)
  else if !(s.die k).out then .ok (3, s)
  else s.dieonM g k

theorem State.dieoffM_eq (s : State) (k : Nat) {u : State} (refuses : u = s.updDie k fun x => { x with out := true }) :
    s.dieoffM k = if (u.drainTo (dieClusters k) (dieCores k)).2
      then .ok (0, (u.drainTo (dieClusters k) (dieCores k)).1.dieDown k)
      else parkIn (u.drainTo (dieClusters k) (dieCores k)).1 := by
  subst refuses
  rfl

section
variable {s : State} {g : Group} {k : Nat}

theorem State.onForm_parked (parked : g.parked.isSome = true) : s.onForm g k =
    if (dieCores k).all fun c => (s.core c).done then .ok (0, s) else .error .park := by
  rw [State.onForm, State.dieonM, parked]
  rfl

variable (first : g.parked = none)
include first

theorem State.dieForms_range (high : 3 < k) : s.offForm g k = .ok (1, s) ∧ s.onForm g k = .ok (1, s) := by
  rw [State.offForm, State.onForm, first]
  exact ⟨if_pos high, if_pos high⟩

theorem State.dieForms_zero (zero : k = 0) : s.offForm g k = .ok (6, s) ∧ s.onForm g k = .ok (6, s) := by
  subst zero
  rw [State.offForm, State.onForm, first]
  exact ⟨rfl, rfl⟩

variable (some : 0 < k) (low : k ≤ 3)
include some low

theorem State.offForm_checks : s.offForm g k = if (s.die k).out then .ok (3, s) else s.dieoffM k := by
  rw [State.offForm, first]
  exact (if_neg Bool.false_ne_true).trans ((if_neg (Nat.not_lt.mpr low)).trans (if_neg some.ne'))

theorem State.onForm_checks : s.onForm g k = if !(s.die k).out then .ok (3, s) else parkIn (s.dieUp k) := by
  rw [State.onForm, State.dieonM, first]
  exact (if_neg Bool.false_ne_true).trans ((if_neg (Nat.not_lt.mpr low)).trans (if_neg some.ne'))

end

end Sys2Proof.Machine

namespace Sys2Proof.Slice0
open Sys2Proof.Machine

theorem service_forms : serviceForms := by
  intro s g t lo p d a b x k n drained tested scanning written off clu h fw ready
  have cluoff : SysRuns s p g t lo d [a.toNat] (.cluoff p d a) fun g x lo => s.cluForm g (g.reg x a.toNat lo).toNat :=
    ⟨h, fw, ready, rfl⟩
  have dieoff : SysRuns s p g t lo d [a.toNat] (.dieoff p d a) fun g x lo => s.offForm g (g.reg x a.toNat lo).toNat :=
    ⟨h, fw, ready, rfl⟩
  have dieon : SysRuns s p g t lo d [a.toNat] (.dieon p d a) fun g x lo => s.onForm g (g.reg x a.toNat lo).toNat :=
    ⟨h, fw, ready, rfl⟩
  refine ⟨fun first => ⟨fun more => ?_, fun high => cluoff.answers (State.cluForm_range first high), fun low => ⟨fun last =>
    cluoff.answers (State.cluForm_last first low last), fun more => ?_⟩, fun high => ?_, fun zero => ?_, fun some low => ?_⟩,
    fun parked => ?_⟩
  · have scan : SysRuns s p g t lo d [a.toNat, b.toNat] (.scanrun p d a b) fun g x lo =>
        s.scanForm g (g.reg x a.toNat lo).toNat (g.reg x b.toNat lo).toNat := ⟨h, fw, ready_both ready more, rfl⟩
    refine ⟨fun high => scan.answers (State.scanForm_range high), fun low pattern => ⟨fun gone =>
      scan.answers (State.scanForm_gone low pattern gone), fun stays serves => ⟨fun busy =>
        scan.answers (State.scanForm_busy low pattern stays serves first busy), fun idle floor untested => ?_,
        fun idle floor passed => ?_, fun idle held => ?_⟩⟩⟩
    all_goals have goes : s.scanForm g k n = s.scanM k n := State.scanForm_goes low pattern stays serves idle
    · have waits : s.tested k = false := Bool.eq_false_iff.mpr fun all => untested (State.tested_iff.mp all)
      exact scan.parksIn (goes.trans (State.scanM_waits (.inr waits)))
    · have free : s.scanHeld k = false := Bool.eq_false_iff.mpr fun held => by
        obtain ⟨j, due, other⟩ := (State.scanHeld_iff idle).mp held
        rcases floor with none | own
        · exact Option.some_ne_none j (due.symm.trans none)
        · exact other (Option.some.inj (due.symm.trans own))
      have asks := goes.trans (State.scanM_goes free (State.tested_iff.mpr passed) rfl)
      refine ⟨fun busy => scan.parksIn (asks.trans (if_neg (Bool.eq_false_iff.mp busy))), fun done => ?_⟩
      replace asks := asks.trans (if_pos done)
      split
      · next passes => exact scan.answers (asks.trans (if_pos passes))
      · next fails => exact scan.answers (asks.trans (if_neg fails))
    · exact scan.parksIn (goes.trans (State.scanM_waits (.inl ((State.scanHeld_iff idle).mpr held))))
  · have asks := State.cluForm_more (s := s) first low more
    refine ⟨fun out => cluoff.answers (asks.trans ?_), fun serves => ?_⟩
    · rw [out]
      rfl
    · have goes : s.cluForm g k = s.cluoffM k := by rw [asks, serves]; rfl
      replace goes := goes.trans (State.cluoffM_eq s k)
      exact ⟨fun busy => cluoff.parksIn (goes.trans (if_neg (Bool.eq_false_iff.mp busy))),
        fun done => cluoff.answers (goes.trans (if_pos done))⟩
  · obtain ⟨out, on⟩ := State.dieForms_range (s := s) first high
    exact ⟨dieoff.answers out, dieon.answers on⟩
  · obtain ⟨out, on⟩ := State.dieForms_zero (s := s) first zero
    exact ⟨dieoff.answers out, dieon.answers on⟩
  · have asksOff := State.offForm_checks (s := s) first some low
    have asksOn := State.onForm_checks (s := s) first some low
    refine ⟨fun out => ⟨dieoff.answers (asksOff.trans (if_pos out)), dieon.parksIn (asksOn.trans ?_)⟩,
      fun serves => ⟨dieon.answers (asksOn.trans ?_), ?_⟩⟩
    · rw [out]
      rfl
    · rw [serves]
      rfl
    · have goes := (asksOff.trans (if_neg (Bool.eq_false_iff.mp serves))).trans (State.dieoffM_eq s k rfl)
      exact ⟨fun done => dieoff.answers (goes.trans (if_pos done)),
        fun busy => dieoff.parksIn (goes.trans (if_neg (Bool.eq_false_iff.mp busy)))⟩
  · have asks := State.onForm_parked (s := s) (k := k) parked
    refine ⟨fun all => dieon.answers (asks.trans (if_pos (List.all_eq_true.mpr all))),
      fun ⟨c, hc, raw⟩ => dieon.parks (asks.trans (if_neg fun all => ?_))⟩
    exact Bool.false_ne_true (raw.symm.trans (List.all_eq_true.mp all c hc))

end Sys2Proof.Slice0
end

section
/-! SUPPORT. RPAIR and RPAIR.done (R436 to R439): the status of a row, and the core after it. -/

namespace Sys2Proof.Machine
open Sys2Proof.Slice0

/-! ## A row recorded -/

section
variable {x : Core} {bank row : Nat} (junk : Line)

/-- The row is in the bank's repair table, or the bank is retired (R439). -/
def Core.recorded (x : Core) (bank row : Nat) : Prop :=
  (∃ e ∈ [4 * bank, 4 * bank + 1, 4 * bank + 2, 4 * bank + 3],
    (x.repairEntry e).getLsbD 8 = true ∧ (x.repairEntry e).toNat % 256 = row) ∨ bank ∈ x.retired

theorem Core.record_test (small : row < 256) :
    ((List.range 4).any (fun s => (x.repairEntry (4 * bank + s)).getLsbD 8 &&
      (x.repairEntry (4 * bank + s)).extractLsb' 0 8 == BitVec.ofNat 8 row) || x.retired.contains bank) = true ↔
      x.recorded bank row := by
  have low : ∀ w : BitVec 16, (w.extractLsb' 0 8 == BitVec.ofNat 8 row) = true ↔ w.toNat % 256 = row := fun w => by
    rw [beq_iff_eq, ← BitVec.toNat_inj, BitVec.extractLsb'_toNat, Nat.shiftRight_zero, BitVec.toNat_ofNat,
      Nat.mod_eq_of_lt small]
  have four : List.range 4 = [0, 1, 2, 3] := rfl
  rw [Core.recorded, Bool.or_eq_true, four, List.contains_iff_mem]
  refine or_congr ?_ Iff.rfl
  simp only [List.any_cons, List.any_nil, Bool.or_false, Bool.or_eq_true, Bool.and_eq_true, low, List.mem_cons,
    List.not_mem_nil, or_false, exists_eq_or_imp, exists_eq_left, Nat.add_zero]

theorem Core.record_twice (small : row < 256) (twice : x.recorded bank row) : x.record bank row junk = (2, x) :=
  if_pos ((Core.record_test small).mpr twice)

variable (small : row < 256) (new : ¬ x.recorded bank row)
include small new

theorem Core.record_spare {e : Nat} (spare : x.goodSpare bank = some e) : x.record bank row junk =
    (0, { x with repair := tabSet x.repair e (BitVec.ofNat 16 (256 + row)), spares := tabSet x.spares e junk }) := by
  refine (if_neg fun test => new ((Core.record_test small).mp test)).trans ?_
  rw [spare]

theorem Core.record_retires (none : x.goodSpare bank = none) : x.record bank row junk = (3, { x with
    retired := x.retired ++ [bank], roles := { x.roles with cache := x.roles.cache.filter (· != bank) } }) := by
  refine (if_neg fun test => new ((Core.record_test small).mp test)).trans ?_
  rw [none]

end

/-! ## A firmware group's registers, written over a core set to itself -/

theorem State.putRegs_sameCore {s : State} {c n : Nat} {g : Group} (hg : s.group c n = some g) (fw : g.fw = true)
    (ws : List (Nat × Nat × Word)) : (s.setCore c (s.core c)).putRegs c n ws = s.putRegs c n ws := by
  have there : (s.setCore c (s.core c)).group c n = some g := by
    rw [State.group, State.core_setCore_self]
    exact hg
  simp only [State.putRegs, hg, there, fw, if_true, State.setGroup, State.updCore, State.core_setCore_self,
    State.setCore_setCore]

/-! ## The two forms -/

section
variable {s : State} {c : Nat} {v : Word}

theorem State.rpairM_coachman (far : 256 ≤ c) (done : Bool) : s.rpairM c v done = (5, s) := if_pos far

variable (near : c < 256)
include near

theorem State.rpairM_raised (raised : (s.core c).done = true) (done : Bool) : s.rpairM c v done = (4, s) :=
  (if_neg (Nat.not_le.mpr near)).trans (if_pos raised)

variable (raw : (s.core c).done = false)
include raw

theorem State.rpairM_done : s.rpairM c v true = if v.toNat ≥ 256 then (1, s)
    else (0, (s.setCore c ((s.core c).raise (v.extractLsb' 0 8))).raised c) :=
  (if_neg (Nat.not_le.mpr near)).trans ((if_neg (Bool.eq_false_iff.mp raw)).trans (if_pos rfl))

/-- RPAIR's operand: bits [5:0] the bank, [13:6] the row (R439). -/
theorem State.rpairM_row : s.rpairM c v false =
    if v.toNat ≥ 2 ^ 14 ∨ v.toNat % 64 ≥ (s.core c).tested.1 ∨ v.toNat / 64 % 256 ≥ (s.core c).tested.2.1 then (1, s)
    else (((s.core c).record (v.toNat % 64) (v.toNat / 64 % 256) (Config.spareRow s.steps)).1,
      s.setCore c ((s.core c).record (v.toNat % 64) (v.toNat / 64 % 256) (Config.spareRow s.steps)).2) := by
  have bank : (v.extractLsb' 0 6).toNat = v.toNat % 64 := by rw [BitVec.extractLsb'_toNat, Nat.shiftRight_zero]
  have row : (v.extractLsb' 6 8).toNat = v.toNat / 64 % 256 := by
    rw [BitVec.extractLsb'_toNat, Nat.shiftRight_eq_div_pow]
  simp only [State.rpairM, raw, bank, row]
  exact (if_neg (Nat.not_le.mpr near)).trans rfl

end

end Sys2Proof.Machine

namespace Sys2Proof.Slice0
open Sys2Proof.Machine

theorem repair_forms : repairForms := by
  intro s g t lo p d a c x v bank row known h fw ready
  have rpair : SysRuns s p g t lo d [a.toNat] (.rpair p d a)
    fun g x lo => .ok (s.rpairM s.cur.core (g.reg x a.toNat lo) false) := ⟨h, fw, ready, rfl⟩
  have done : SysRuns s p g t lo d [a.toNat] (.rpairDone p d a)
    fun g x lo => .ok (s.rpairM s.cur.core (g.reg x a.toNat lo) true) := ⟨h, fw, ready, rfl⟩
  refine ⟨fun far => ⟨rpair.answers (congrArg _ (State.rpairM_coachman far _)),
    done.answers (congrArg _ (State.rpairM_coachman far _))⟩, fun near raised =>
    ⟨rpair.answers (congrArg _ (State.rpairM_raised near raised _)), done.answers (congrArg _ (State.rpairM_raised near raised _))⟩,
    fun near raw => ⟨fun large => done.answers (congrArg _ ((State.rpairM_done near raw).trans (if_pos large))),
      fun small => done.answers (congrArg _ ((State.rpairM_done near raw).trans ((if_neg (Nat.not_le.mpr small)).trans ?_))),
      fun bad => rpair.answers (congrArg _ ((State.rpairM_row near raw).trans (if_pos bad))), fun fits banks rows => ?_⟩⟩
  · have low : (g.reg x a.toNat lo).extractLsb' 0 8 = BitVec.ofNat 8 v := by
      rw [← BitVec.toNat_inj, BitVec.extractLsb'_toNat, Nat.shiftRight_zero, BitVec.toNat_ofNat]
    rw [← low]
  · have inside : ¬ (v ≥ 2 ^ 14 ∨ bank ≥ x.tested.1 ∨ row ≥ x.tested.2.1) := by omega
    have gives : ∀ n y, x.record bank row (Config.spareRow s.steps) = (n, y) →
        answers s t d (.rpair p d a) n (s.setCore c y) := fun n y status => by
      refine rpair.answers (congrArg _ (((State.rpairM_row near raw).trans (if_neg inside)).trans ?_))
      exact congrArg (fun r : Nat × Core => (r.1, s.setCore c r.2)) status
    have small : row < 256 := Nat.mod_lt _ (by decide)
    refine ⟨fun twice => ?_, fun new live => ?_⟩
    · have same := gives _ _ (Core.record_twice _ small twice)
      rw [answers, State.putAll] at same
      exact same.trans (congrArg _ (congrArg State.next (State.putRegs_sameCore h.group fw _)))
    · have fresh : ¬ x.recorded bank row := fun old => old.elim new live
      refine ⟨fun e spare => ⟨_, gives _ _ (Core.record_spare _ small fresh spare), tabGet_tabSet_self .., fun j other =>
        tabGet_tabSet_ne _ _ _ other, rfl⟩, fun none => ?_⟩
      have ne : ∀ l : List Nat, l.filter (· ≠ bank) = l.filter (· != bank) := fun l =>
        List.filter_congr fun j _ => by rw [Bool.eq_iff_iff, decide_eq_true_iff, bne_iff_ne]
      rw [ne]
      exact gives _ _ (Core.record_retires _ small fresh none)

/-- Settles O46: each form's checks in their order, then the drain, the scan or the repair they lead to. -/
theorem serviceAndRepair : Obligations.ServiceAndRepair := ⟨service_forms, repair_forms⟩

end Sys2Proof.Slice0
end

section
/-! SUPPORT. Datagrams, collectives, time and modules (R409, R410, R421 to R428): what each event does to a state in which it
finds what it names. -/

namespace Sys2Proof.Machine
open Sys2Proof.Slice0

/-! ## An acquire point touches the cores and the directory alone (R96) -/

/-- From `s` to `t` the cores and the directory alone may change. -/
def CoresOnly (s t : State) : Prop := { t with cores := s.cores, dir := s.dir } = s

theorem CoresOnly.refl (s : State) : CoresOnly s s := rfl

theorem CoresOnly.trans {s t u : State} (a : CoresOnly s t) (b : CoresOnly t u) : CoresOnly s u := by
  have step := congrArg (fun v : State => { v with cores := s.cores, dir := s.dir }) b
  exact step.trans a

theorem CoresOnly.foldl {α : Type} {f : State → α → State} (h : ∀ s a, CoresOnly s (f s a)) (l : List α) (s : State) :
    CoresOnly s (l.foldl f s) :=
  List.foldlRecOn l f (CoresOnly.refl s) fun u hu a _ => hu.trans (h u a)

theorem CoresOnly.updCore (s : State) (core : Nat) (f : Core → Core) : CoresOnly s (s.updCore core f) := rfl

theorem CoresOnly.setShr (s : State) (core line : Nat) (b : Bool) : CoresOnly s (s.setShr core line b) := by
  rw [State.setShr]
  split
  · rfl
  · exact .refl s

theorem CoresOnly.dropCopy (s : State) (core line : Nat) : CoresOnly s (s.dropCopy core line) := by
  rw [State.dropCopy]
  split
  · exact .refl s
  · exact (CoresOnly.setShr s core line false).trans ((CoresOnly.updCore _ core _).trans (.updCore _ core _))

theorem CoresOnly.ownWrite (s : State) (core : Nat) (a : Nat × Word) : CoresOnly s (s.ownWrite core a) := by
  rw [State.ownWrite]
  split
  · exact .refl s
  · split
    · split
      · exact .updCore s core _
      · exact .dropCopy s core a.1
    · split
      · exact .updCore s core _
      · exact .dropCopy s core a.1

theorem CoresOnly.applyEntry (s : State) (core : Nat) (e : Inbox) : CoresOnly s (s.applyEntry core e) := by
  rw [State.applyEntry]
  split
  · exact .refl s
  · split
    · exact .dropCopy s core e.line
    · split
      · exact .refl s
      · split
        · exact .updCore s core _
        · exact .dropCopy s core e.line

theorem CoresOnly.acquire (s : State) (core : Nat) (own : List (Nat × Word)) (inv : Bool) :
    CoresOnly s (s.acquire core own inv) := by
  have written := CoresOnly.foldl (fun s a => .ownWrite s core a) ((s.core core).ownAcks ++ own) s
  have applied := fun u : State => CoresOnly.foldl (fun s e => .applyEntry s core e) (u.core core).inbox u
  have dropped := fun l : List L1Line => CoresOnly.foldl (fun s c => .dropCopy s core c.line) l
  unfold State.acquire
  exact .trans (.trans (.trans (written.trans (applied _)) (.updCore _ core _)) (dropped _ _)) (.updCore _ core _)

theorem State.acquire_colls (s : State) (core : Nat) (own : List (Nat × Word)) (inv : Bool) :
    (s.acquire core own inv).colls = s.colls := by
  have same := congrArg State.colls (CoresOnly.acquire s core own inv)
  exact same

/-! ## Lists -/

theorem firstFrom_eq_some {p : Nat → Bool} {n k : Nat} (i : Nat) (inside : k < n) (here : p (i + k) = true)
    (before : ∀ j < k, p (i + j) = false) : firstFrom p i n = some (i + k) := by
  induction k generalizing i n with
  | zero =>
    obtain ⟨n, rfl⟩ := Nat.exists_eq_add_of_lt inside
    rw [Nat.zero_add, firstFrom]
    exact if_pos here
  | succ k ih =>
    obtain ⟨n, rfl⟩ : ∃ m, n = m + 1 := ⟨n - 1, by omega⟩
    have no : ¬ p i = true := Bool.eq_false_iff.mp (before 0 (by omega))
    rw [firstFrom, if_neg no, ih (i + 1) (by omega) (by rw [← here]; congr 1; omega) fun j hj => by
      rw [← before (j + 1) (by omega)]; congr 1; omega]
    congr 1
    omega

theorem firstBelow_eq_some {p : Nat → Bool} {n k : Nat} (inside : k < n) (here : p k = true)
    (before : ∀ j < k, p j = false) : firstBelow n p = some k := by
  have found := firstFrom_eq_some (p := p) 0 inside (by rw [Nat.zero_add]; exact here)
    fun j hj => by rw [Nat.zero_add]; exact before j hj
  rw [firstBelow, found, Nat.zero_add]

/-! ## A datagram's checks (R424) -/

section
variable {s : State} {h : DgHead}

theorem State.dgram_none (bad : h.bad = true ∨ s.tagged? h.jtag = none) : s.dgram h = none := by
  rw [State.dgram]
  rcases bad with bad | none
  · rw [if_pos bad]
  · rw [none, ite_self]

section
variable (bad : s.dgram h = none)
include bad

theorem execData_bad (level node : Nat) (vals : List Word) : execData h level node vals s = .next s.discardDg := by
  rw [execData, bad]

theorem execAck_bad : execAck h s = .next s.discardDg := by rw [execAck, bad]

theorem execNak_bad : execNak h s = .next s.discardDg := by rw [execNak, bad]

theorem execInkreq_bad (m : InkMsg) : execInkreq h m s = .next s.discardDg := by
  have none : (if h.bad then none else s.tagged? h.jtag) = .none := bad
  rw [execInkreq, none]
  rfl

theorem execIncomplete_bad : execIncomplete h s = .next s.discardDg := by rw [execIncomplete, bad]

theorem execPtpfwd_bad : execPtpfwd h s = .next s.discardDg := by rw [execPtpfwd, bad]

end

variable {c : Nat} (good : h.bad = false) (tagged : s.tagged? h.jtag = some c)
include good tagged

theorem State.dgram_some : s.dgram h = some c := by rw [State.dgram, good, if_neg Bool.false_ne_true, tagged]

theorem execPtpfwd_of_good : execPtpfwd h s = .next s := by rw [execPtpfwd, State.dgram_some good tagged]

theorem execIncomplete_at {i : Nat} (at_ : s.collAt c h.cid = some i) :
    execIncomplete h s = .next (s.fallBack i h.chunk.toNat) := by
  simp only [execIncomplete, State.dgram_some good tagged, at_]

/-! ## ACK, NAK and a timer's end (R425) -/

theorem execAck_of_good : execAck h s = .next { s with sent := s.sent.filter fun d => !d.matches h } := by
  rw [execAck, State.dgram_some good tagged]

omit good tagged in
/-- The n-th sent datagram goes out again, up to 16 times (R425). -/
theorem State.resend_eq {n : Nat} {d : Sent} (there : s.sent[n]? = some d) : s.resend n = { s with
    sent := s.sent.set n (if d.unacked = true ∧ d.tries < 16 then { d with tries := d.tries + 1 } else d) } := by
  rw [State.resend, listUpd_eq_set _ there]
  simp only [Bool.and_eq_true, decide_eq_true_eq]

/-- NAK sends the first that it names again. -/
theorem execNak_of_first {n : Nat} {d : Sent} (there : s.sent[n]? = some d) (named : d.matches h = true)
    (first : ∀ e ∈ s.sent.take n, e.matches h = false) : execNak h s = .next (s.resend n) := by
  obtain ⟨inside, at_⟩ := List.getElem?_eq_some_iff.mp there
  have found : firstBelow s.sent.length (fun i => match s.sent[i]? with
      | some d => d.matches h | none => false) = some n := by
    refine firstBelow_eq_some inside (by simp [there, named]) fun j before => ?_
    have shorter : j < s.sent.length := by omega
    have no := first s.sent[j] (List.mem_take_iff_getElem.mpr ⟨j, by omega, rfl⟩)
    simp [List.getElem?_eq_getElem shorter, no]
  simp only [execNak, State.dgram_some good tagged]
  exact congrArg Host.Outcome.next ((congrArg (fun o : Option Nat => match o with | some i => s.resend i | none => s) found).trans rfl)

/-! ## DATA (R410, R425) -/

section
variable {level node : Nat} {vals : List Word} (runs : (s.ctx c).state = .running)
include runs

theorem execData_twice (twice : (h.src.toNat, 1, h.seq.toNat) ∈ s.seqIn) :
    execData h level node vals s = .next (s.answer 2 h []) := by
  simp only [execData, State.dgram_some good tagged, runs, bne_self_eq_false, Bool.false_eq_true, if_false,
    List.contains_iff_mem.mpr twice, if_true]

variable (once : (h.src.toNat, 1, h.seq.toNat) ∉ s.seqIn) {i : Nat} {q : Coll} (at_ : s.collAt c h.cid = some i)
  (there : s.colls[i]? = some q)
include once at_ there

/-- A value of a chunk that its collective has not finished is kept, and the collective runs on. -/
theorem execData_once : execData h level node vals s =
    .next (if h.chunk.toNat < q.next then
      ({ s with seqIn := (h.src.toNat, 1, h.seq.toNat) :: s.seqIn } : State).answer 2 h []
    else State.runColl { ({ s with seqIn := (h.src.toNat, 1, h.seq.toNat) :: s.seqIn } : State).answer 2 h [] with
      colls := s.colls.set i (q.keep { chunk := h.chunk.toNat, level := level, idx := node, src := h.src.toNat, vals := vals }) }
        i) := by
  have fresh : s.seqIn.contains (h.src.toNat, 1, h.seq.toNat) = false :=
    Bool.eq_false_iff.mpr fun twice => once (List.contains_iff_mem.mp twice)
  simp only [execData, State.dgram_some good tagged, runs, bne_self_eq_false, Bool.false_eq_true, if_false, fresh, at_, there,
    decide_eq_true_eq, State.answer, listUpd_eq_set _ there]

end

end

/-! ## INKREQ and INKREP (R109, R110, R117) -/

section
variable {s : State} {h : DgHead} {c : Nat} (good : h.bad = false) (tagged : s.tagged? h.jtag = some c)
include good tagged

/-- An INKREQ that has been performed is answered again while its reply is kept. -/
theorem execInkreq_kept {m : InkMsg} {k : KeptRep}
    (kept : (s.keptReps.find? fun k => k.peer == h.src.toNat && k.seq == h.seq) = some k) :
    execInkreq h m s = .next (match k.words with | some ws => s.answer 5 h ws | none => s) := by
  simp only [execInkreq, good, Bool.false_eq_true, if_false, tagged, kept] <;>
    rfl

/-- The records that hold the same request. -/
def sameRequest (h : DgHead) : FaultFor → Bool
  | .ink h2 _ => h2.src == h.src && h2.seq == h.seq
  | _ => false

omit good tagged in
theorem sameRequest_iff (w : FaultFor) :
    sameRequest h w = true ↔ ∃ h2 m2, w = .ink h2 m2 ∧ h2.src = h.src ∧ h2.seq = h.seq := by
  cases w with
  | ink h2 m2 =>
    constructor
    · intro same
      exact ⟨h2, m2, rfl, by simpa [sameRequest] using same⟩
    · rintro ⟨_, _, e, same⟩
      cases e
      simpa [sameRequest] using same
  | _ => exact ⟨fun no => absurd no Bool.false_ne_true, fun ⟨_, _, e, _⟩ => by cases e⟩

theorem execInkreq_new {m : InkMsg} (new : (s.keptReps.find? fun k => k.peer == h.src.toNat && k.seq == h.seq) = none) :
    execInkreq h m s = if s.overtaken h m || (s.faults.any fun f => sameRequest h f.who) || s.chores.any (sameRequest h)
      then .next s else .next (s.inkServe h m c) := by
  simp only [execInkreq, good, Bool.false_eq_true, if_false, tagged, new]
  rfl

end

theorem CoresOnly.updGroup (s : State) (c k : Nat) (f : Group → Group) : CoresOnly s (s.updGroup c k f) := by
  rw [State.updGroup]
  split
  · exact .updCore s c _
  · exact .refl s

theorem CoresOnly.unwatch (s : State) (core slot : Nat) : CoresOnly s (s.unwatch core slot) :=
  .trans (t := s.dropWatches core slot) rfl (.updGroup _ core slot _)

theorem CoresOnly.setWatch (s : State) (core slot dev seq : Nat) (ptr : DWord) (gen : Word) (line : Option Nat) :
    CoresOnly s (s.setWatch core slot dev seq ptr gen line) := by
  unfold State.setWatch
  refine .trans ?_ (.updGroup _ core slot _)
  cases line with
  | none => exact .unwatch s core slot
  | some l =>
    dsimp only
    split
    · exact .trans (.unwatch s core slot) rfl
    · exact .unwatch s core slot

theorem CoresOnly.leaveWatch (s : State) (q : InkReq) (status : Nat) (w1 : DWord) (line : Option Nat) :
    CoresOnly s (s.leaveWatch q status w1 line) := by
  rw [State.leaveWatch]
  split
  · exact .setWatch s _ _ _ _ _ _ _
  · exact .refl s

/-- INKREP answers the one request that waits (R425). -/
theorem execInkrep_answers {s : State} {h : DgHead} {c cause : Nat} {w0 w1 : DWord} {q : InkReq} (good : h.bad = false)
    (tagged : s.tagged? h.jtag = some c) (reply : cause ≠ 255) (waits : s.inkWait = [q])
    (mine : q.dev = h.src.toNat ∧ q.seq = h.seq.toNat) : ∃ u : State, execInkrep h w0 w1 cause s = .next u ∧
      u.inkWait = [] ∧ u.inkReps = s.inkReps ++ [{ req := q, status := w1.toNat % 16, w0 := w0, w1 := w1 &&& ~~~0xF#64
                                                   cause := Cause.ofCode cause }] := by
  have named : (q.dev == h.src.toNat && q.seq == h.seq.toNat) = true := by simpa using mine
  have found : ([q].find? fun q => q.dev == h.src.toNat && q.seq == h.seq.toNat) = some q :=
    List.find?_cons_of_pos (p := fun q : InkReq => q.dev == h.src.toNat && q.seq == h.seq.toNat) named
  have status : (w1.extractLsb' 0 4).toNat = w1.toNat % 16 := by rw [BitVec.extractLsb'_toNat, Nat.shiftRight_zero]
  let s1 : State := { s with
    sent := s.sent.filter fun d => !(d.peer == h.src.toNat && d.typ == 4 && d.h.seq == h.seq), inkWait := [] }
  have same := CoresOnly.leaveWatch s1 q (w1.toNat % 16) w1 none
  have wait := congrArg State.inkWait same
  have reps := congrArg State.inkReps same
  refine ⟨{ s1.leaveWatch q (w1.toNat % 16) w1 none with inkReps := (s1.leaveWatch q (w1.toNat % 16) w1 none).inkReps ++ _ },
    ?_, wait, congrArg (· ++ _) reps⟩
  rw [execInkrep, good, tagged]
  simp only [Option.isNone_some, Bool.or_self, Bool.false_eq_true, if_false, if_neg (show ¬ cause = noticeWord from reply), waits,
    found, List.filter_cons, named, Bool.not_true, List.filter_nil, status]
  rfl

end Sys2Proof.Machine

namespace Sys2Proof.Slice0
open Sys2Proof.Machine

theorem pod_datagrams : podDatagrams := by
  intro s h m level node cause n vals w0 w1 counted reply seen again mine kept same
  refine ⟨fun bad => ?_, fun d there => congrArg Host.Outcome.next (State.resend_eq there), fun c good tagged =>
    ⟨?_, execAck_of_good good tagged, fun d there named first => ?_, fun runs => ⟨fun twice => execData_twice good tagged runs twice,
      fun i q once at_ there => ?_⟩, fun i at_ => ?_, fun k held => ?_, fun new late => ?_, fun new fresh faults chores => ?_,
      fun q waits own reply => execInkrep_answers good tagged reply waits own⟩⟩
  · have dgram := State.dgram_none bad
    have pair : (h.bad || (s.tagged? h.jtag).isNone) = true := by
      rcases bad with bad | none
      · rw [bad, Bool.true_or]
      · rw [none]; exact Bool.or_true _
    exact ⟨execData_bad dgram level node vals, execAck_bad dgram, execNak_bad dgram, execInkreq_bad dgram m, if_pos pair,
      execIncomplete_bad dgram, execPtpfwd_bad dgram⟩
  · exact execPtpfwd_of_good good tagged
  · exact (execNak_of_first good tagged there named first).trans (congrArg _ (State.resend_eq there))
  · have once := execData_once (level := level) (node := node) (vals := vals) good tagged runs once at_ there
    exact ⟨fun late => once.trans (congrArg _ (if_pos late)), fun due => once.trans (congrArg _ (if_neg (Nat.not_lt.mpr due)))⟩
  · exact execIncomplete_at good tagged at_
  · have answered := execInkreq_kept (m := m) good tagged held
    refine ⟨fun ws some => answered.trans ?_, fun none => answered.trans ?_⟩
    · rw [some]
      rfl
    · rw [none]
  · refine (execInkreq_new good tagged new).trans (if_pos ?_)
    rw [late, Bool.true_or, Bool.true_or]
  · have none : (s.faults.any fun f => sameRequest h f.who) = false ∧ s.chores.any (sameRequest h) = false := by
      refine ⟨List.any_eq_false.mpr fun f hf no => faults f hf ((sameRequest_iff _).mp no),
        List.any_eq_false.mpr fun w hw no => chores w hw ((sameRequest_iff w).mp no)⟩
    refine (execInkreq_new good tagged new).trans (if_neg ?_)
    rw [fresh, none.1, none.2]
    exact Bool.false_ne_true

end Sys2Proof.Slice0
end

section
/-! SUPPORT. Collectives, peers, time and modules (R410, R421, R422, R425 to R428). -/

namespace Sys2Proof.Machine
open Sys2Proof.Slice0

section
variable {s : State} {n : Nat} {c : Coll} (there : s.colls[n]? = some c)
include there

/-- A collective that has started goes on (R386). -/
theorem execCollectiveStart_again (started : c.started = true) : execCollectiveStart n s = .next (s.runColl n) := by
  simp only [execCollectiveStart, there, started, if_true]

/-- A waiting collective starts once its counter has reached WVAL (R427). -/
theorem execCollectiveStart_first (waits : c.started = false) (runs : (s.ctx c.ctx).state = .running)
    (reached : (c.word 4).toNat ≤
      (((s.core ((c.word 5).toNat % 256)).tl[(c.word 5).toNat / 256 % 16]?).getD 0).toNat) :
    execCollectiveStart n s = .next (State.runColl { s.acquire ((c.word 5).toNat % 256) [] true with
      colls := (s.acquire ((c.word 5).toNat % 256) [] true).colls.set n { c with started := true } } n) := by
  have core : fld (c.word 5) 0 8 = (c.word 5).toNat % 256 := by rw [fld, BitVec.extractLsb'_toNat, Nat.shiftRight_zero]
  have tl : (BitVec.ofNat 4 (fld (c.word 5) 8 4)).toNat = (c.word 5).toNat / 256 % 16 := by
    rw [fld, BitVec.extractLsb'_toNat, Nat.shiftRight_eq_div_pow, BitVec.toNat_ofNat, Nat.mod_mod]
  have kept : (s.acquire ((c.word 5).toNat % 256) [] true).colls[n]? = some c := by
    rw [State.acquire_colls]
    exact there
  simp only [execCollectiveStart, there, waits, Bool.false_eq_true, if_false, runs, bne_self_eq_false, Bool.false_or, core,
    Core.tlVal, tl, decide_eq_false (Nat.not_lt.mpr reached), listUpd_eq_set _ kept]

end

/-- A peer that no retry reached fails its collectives (R425, R427). -/
theorem execPeerUnreachable_out {s : State} {n : Nat}
    (out : ∃ d ∈ s.sent, d.unacked = true ∧ d.peer = n ∧ 16 ≤ d.tries) : execPeerUnreachable n s =
      .next (State.failWith { s with sent := s.sent.filter fun d => d.peer ≠ n } n s.colls) := by
  have found : (s.sent.any fun d => d.unacked && d.peer == n && decide (16 ≤ d.tries)) = true := by
    obtain ⟨d, hd, unacked, peer, tries⟩ := out
    exact List.any_eq_true.mpr ⟨d, hd, by simp [unacked, peer, tries]⟩
  have other : (s.sent.filter fun d => d.peer ≠ n) = s.sent.filter fun d => d.peer != n :=
    List.filter_congr fun d _ => by rw [Bool.eq_iff_iff, decide_eq_true_iff, bne_iff_ne]
  rw [execPeerUnreachable, if_pos found, other]

section
variable {s : State} {n k : Nat}

/-- A pair loses a module; the last takes it down (R421, R422). -/
theorem execModuleLoss_some (left : s.modules[n]? = some (k + 1)) {u : State}
    (lost : u = State.healthRec { s with modules := s.modules.set n k } (BitVec.ofNat 64 n)) :
    execModuleLoss n s = .next (if k = 0 then State.holdDie { u with degraded := true } (higherDie n) .off else u) := by
  subst lost
  simp only [execModuleLoss, left, listUpd_eq_set _ left]

theorem execModuleLoss_none (gone : s.modules[n]? = some 0) : execModuleLoss n s = .next s := by
  simp only [execModuleLoss, gone]

end

end Sys2Proof.Machine

namespace Sys2Proof.Slice0
open Sys2Proof.Machine

theorem pod_events : podEvents := by
  intro s n chunk time
  refine ⟨fun c there waits runs reached => execCollectiveStart_first there waits runs reached,
    fun c there started => execCollectiveStart_again there started, rfl, execPeerUnreachable_out, rfl, fun locked => ?_,
    fun k left => execModuleLoss_some left rfl, execModuleLoss_none⟩
  exact congrArg Host.Outcome.next (by rw [locked])

/-- Settles O50: each datagram and event by what it finds of the peer, the collective or the module it names. -/
theorem podForms : Obligations.PodForms := ⟨pod_datagrams, pod_events⟩

end Sys2Proof.Slice0
end

section
/-! SUPPORT. The instructions of the stipple arrays at issue (R292, R295, R296, R298): their checks, and the command that
enters an array's queue. -/

namespace Sys2Proof.Machine
open Sys2Proof.Slice0

/-! ## Arrays -/

theorem Core.array_listUpd (x : Core) (f : StArray → StArray) {i : Nat} (h : i < x.arrays.length) :
    ({ x with arrays := listUpd f x.arrays i } : Core).array i = f (x.array i) := by
  simp only [Core.array, getElem?_listUpd, if_true, List.getElem?_eq_getElem h, Option.map_some, Option.getD_some]

theorem State.array_updArray (s : State) (c : Nat) (f : StArray → StArray) {i : Nat} (h : i < (s.core c).arrays.length) :
    ((s.updArray c i f).core c).array i = f ((s.core c).array i) := by
  rw [State.updArray, State.core_updCore_self, Core.array_listUpd _ _ h]

theorem State.array_setGroup (s : State) (c n k i : Nat) (g : Group) :
    ((s.setGroup c n g).core k).array i = (s.core k).array i := by
  by_cases own : k = c
  · subst own
    rw [State.setGroup, State.core_updCore_self]; rfl
  · rw [State.setGroup, State.core_updCore_ne _ _ own]

theorem State.array_updGroup (s : State) (c n k i : Nat) (f : Group → Group) :
    ((s.updGroup c n f).core k).array i = (s.core k).array i := by
  rw [State.updGroup]
  split
  · exact State.array_setGroup ..
  · rfl

/-- Closing a stage changes no array. -/
theorem State.array_close (s : State) (commit : Bool) (k i : Nat) :
    ((s.close commit).core k).array i = (s.core k).array i := by
  rw [State.close]
  split
  · rfl
  · cases commit
    · exact State.array_setGroup ..
    · rw [if_pos rfl, State.core_updTeam, State.array_setGroup]

/-! ## The command -/

/-- The command `k` of the turn's group, whose lanes `t` take part (R292). -/
def State.arrayCmd (s : State) (g : Group) (t : LaneMask) (k : ACmdKind) : ACmd :=
  { kind := k, slot := s.cur.slot, team := g.team, ctx := g.ctx, gidx := g.gidx, id := s.steps, mask := t
    exec := s.cur.mask, pc := s.cur.pc, iword := s.cur.iword }

section
variable {s : State} {g : Group} {arr : BitVec 2} (t : LaneMask) (k : ACmdKind) (hold : Bool)

theorem State.enter_array (inside : arr.toNat < (s.core s.cur.core).arrays.length) :
    ((s.enter g arr t k hold).core s.cur.core).array arr.toNat = { (s.core s.cur.core).array arr.toNat with
      queue := ((s.core s.cur.core).array arr.toNat).queue ++ [s.arrayCmd g t k] } := by
  rw [State.enter]
  cases hold
  · exact State.array_updArray _ _ _ inside
  · exact (State.array_updGroup ..).trans (State.array_updArray _ _ _ inside)

theorem State.enter_group (hg : s.curGroup = some g) :
    (s.enter g arr t k hold).group s.cur.core s.cur.slot =
      some (if hold then { g with arrWait := some (arr.toNat, s.steps) } else g) := by
  have there : (s.updArray s.cur.core arr.toNat fun a => { a with queue := a.queue ++ [s.arrayCmd g t k] }).group
      s.cur.core s.cur.slot = some g := by
    rw [← hg, State.curGroup, State.group, State.group, State.updArray, State.core_updCore_self]
  rw [State.enter]
  cases hold
  · exact there
  · exact State.group_updGroup_self _ _ _ _ there

end

/-! ## The checks -/

/-- What a stipple instruction does with its command, once its registers can be used (R292). -/
def State.gives (s : State) (g : Group) (arr : BitVec 2) (t : LaneMask) (lo : Nat) : Option (ACmdKind × Bool) → M State
  | none => .ok (s.next.close true)
  | some (cmd, hold) => do
    let a := (s.core s.cur.core).array arr.toNat
    if a.oos && cmd.barred then s.saTrap g arr lo .saBias
    waitIf (decide (a.queue.length ≥ 16))
    if hold then .ok (s.enter g arr t cmd true)
    else .ok ((s.enter g arr t cmd false).next.close true)

section
variable {s : State} {g : Group} {arr : BitVec 2} {t : LaneMask} {lo : Nat} {cmd : ACmdKind} {hold : Bool}

theorem State.gives_barred (oos : ((s.core s.cur.core).array arr.toNat).oos = true) (barred : cmd.barred = true) :
    s.gives g arr t lo (some (cmd, hold)) =
      .error (.state ((s.updArray s.cur.core arr.toNat fun a => { a with lastFault := 1 }).takeTrap
        ⟨.saBias, lo, 0, s.arrayNum g.team s.cur.core arr.toNat⟩)) := by
  simp only [State.gives, oos, barred, Bool.and_self, if_true]
  rfl

theorem State.gives_enters (serves : ((s.core s.cur.core).array arr.toNat).oos = false ∨ cmd.barred = false)
    (room : ((s.core s.cur.core).array arr.toNat).queue.length < 16) :
    s.gives g arr t lo (some (cmd, hold)) =
      .ok (if hold then s.enter g arr t cmd true else (s.enter g arr t cmd false).next.close true) := by
  have free : (((s.core s.cur.core).array arr.toNat).oos && cmd.barred) = false := by
    rcases serves with h | h <;> rw [h]
    · rfl
    · exact Bool.and_false _
  simp only [State.gives, free, Bool.false_eq_true, if_false, ge_iff_le, decide_eq_false (Nat.not_le.mpr room),
    waitIf_false]
  cases hold <;> rfl

end

/-- The TIMING mark of a sweep that has entered a physical array's queue (R300; log entry 65). -/
def State.sweepMark (s : State) (arr : BitVec 2) (u : State) : State :=
  if ((u.core s.cur.core).array arr.toNat).queue.length > ((s.core s.cur.core).array arr.toNat).queue.length &&
      !((s.core s.cur.core).array arr.toNat).replay then
    u.updGroup s.cur.core s.cur.slot fun g => if g.det then g.sticky false else g
  else u

section
variable {s : State} {p : Pred} {g : Group} {t : LaneMask} {lo : Nat} (h : Turn s p g t lo) {arr : BitVec 2}
  {rs : List Nat} (ready : Ready g rs)
include h ready

/-- A stipple instruction's own checks, then those of its command. -/
theorem stippleM_asks (k : Group → Core → LaneMask → Nat → M (Option (ACmdKind × Bool))) :
    s.stippleM p arr rs k = k g (s.core s.cur.core) t lo >>= s.gives g arr t lo := by
  rw [State.stippleM, turn_group h, needRegs_ready lo ready, M.ok_bind]
  congr 1

/-- Every stipple instruction of `saForm` but SASWP gives its command and waits. -/
theorem saForm_waits {i : Instr} {r : BitVec 2} {q : Option (ACmdKind × Bool)}
    (form : saForm s g t lo i = some (p, r, rs, q)) (other : ∀ a inc tl, i ≠ .saswp p r a inc tl) :
    ∃ cmd, q = some (cmd, true) ∧ exec i s = run s (s.gives g r t lo (some (cmd, true))) := by
  cases i
  case saswp => cases form; exact absurd rfl (other _ _ _)
  all_goals cases form
  all_goals exact ⟨_, rfl, congrArg (run s) (stippleM_asks h ready _)⟩

/-- SASWP gives its sweep, if it has one, and goes on; then a physical array's is marked (R298, R300). -/
theorem saswp_asks {r : BitVec 2} {a : Reg} (named : rs = [a.toNat]) (inc : BitVec 8) (tl : BitVec 4) {n : Nat}
    (count : (g.reg (s.core s.cur.core) a.toNat lo).toNat = n) :
    exec (.saswp p r a inc tl) s =
      run s (s.gives g r t lo (if n = 0 then none else some (.sweep n inc tl, false)) >>= fun u => .ok (s.sweepMark r u)) := by
  subst count named
  refine congrArg (run s) ((congrArg (· >>= _) (stippleM_asks h ready _)).trans ?_)
  rw [M.ok_bind]
  congr 1
  funext u
  exact (apply_ite Except.ok _ _ _).symm

end

/-- Nothing entered, nothing marked. -/
theorem State.sweepMark_none (s : State) (r : BitVec 2) : s.sweepMark r (s.next.close true) = s.next.close true := by
  rw [State.sweepMark, State.array_close, State.array_next]
  exact if_neg (by simp)

/-- A sweep on a physical array sets TIMING in deterministic mode (R300). -/
theorem State.sweepMark_entered {s : State} {g : Group} {r : BitVec 2} (t : LaneMask) (k : ACmdKind)
    (inside : r.toNat < (s.core s.cur.core).arrays.length) :
    let u := (s.enter g r t k false).next.close true
    s.sweepMark r u = if ((s.core s.cur.core).array r.toNat).replay = false
      then u.updGroup s.cur.core s.cur.slot fun k => if k.det then { k with detSticky := k.detSticky ||| 1 } else k
      else u := by
  intro u
  have longer : ((u.core s.cur.core).array r.toNat).queue.length = ((s.core s.cur.core).array r.toNat).queue.length + 1 := by
    simp only [u, State.array_close, State.array_next, State.enter_array t k false inside, List.length_append,
      List.length_singleton]
  have mark : (fun q : Group => if q.det then q.sticky false else q) = fun q =>
      if q.det then { q with detSticky := q.detSticky ||| 1 } else q := by
    funext q
    cases det : q.det <;> simp [Group.sticky, det]
  rw [State.sweepMark, longer, mark]
  cases ((s.core s.cur.core).array r.toNat).replay <;> simp

end Sys2Proof.Machine

namespace Sys2Proof.Slice0
open Sys2Proof.Machine

theorem stipple_issues : stippleIssues := by
  intro i s g t lo p r rs q form h ready a end_
  by_cases sweep : ∃ b inc tl, i = .saswp p r b inc tl
  · obtain ⟨b, inc, tl, rfl⟩ := sweep
    cases form
    have asks := saswp_asks h ready (r := r) rfl inc tl rfl
    refine ⟨fun none => ?_, fun cmd hold given => ?_⟩
    · rw [asks, none, State.gives, M.ok_bind, State.sweepMark_none, run_ok]
    · rw [asks, given]
      refine ⟨fun oos barred => ?_, fun serves room inside => ⟨s.enter g r t cmd hold, ?_, State.enter_array t cmd hold inside,
        State.enter_group t cmd hold h.group⟩⟩
      · rw [State.gives_barred oos barred, M.error_bind, run_state]
      · have goes : hold = false := by
          split at given <;> cases given
          rfl
        subst goes
        rw [State.gives_enters serves room, M.ok_bind, run_ok, if_neg Bool.false_ne_true, State.sweepMark_entered t cmd inside]
        rfl
  · obtain ⟨cmd, rfl, asks⟩ := saForm_waits h ready form fun b inc tl same => sweep ⟨b, inc, tl, same⟩
    refine ⟨fun none => (Option.some_ne_none _ none).elim, fun cmd' hold given => ?_⟩
    cases given
    rw [asks]
    refine ⟨fun oos barred => ?_, fun serves room inside => ⟨s.enter g r t cmd true, ?_, State.enter_array t cmd true inside,
      State.enter_group t cmd true h.group⟩⟩
    · rw [State.gives_barred oos barred, run_state]
    · rw [State.gives_enters serves room, run_ok, if_pos rfl, if_pos rfl]

/-- A word enables a link that SACFG.link bars: to an array of the core's own die, or too large (R288). -/
def linkBarred (core peer : Nat) (w : Word) : Bool :=
  linkEn w && (dieOf (peer / 4) == dieOf core || decide (linkNexp w > 64) || decide (linkNgh w > 64))

theorem linkBarred_eq_true {core peer : Nat} {w : Word} (enabled : linkEn w = true)
    (bad : peer / 256 = core / 64 ∨ 64 < linkNexp w ∨ 64 < linkNgh w) : linkBarred core peer w = true := by
  simpa [linkBarred, dieOf, Nat.div_div_eq_div_mul, enabled, or_assoc] using bad

theorem linkBarred_eq_false {core peer : Nat} {w : Word}
    (good : linkEn w = false ∨ (peer / 256 ≠ core / 64 ∧ linkNexp w ≤ 64 ∧ linkNgh w ≤ 64)) :
    linkBarred core peer w = false := by
  rcases good with off | on
  · simp [linkBarred, off]
  · simpa [linkBarred, dieOf, Nat.div_div_eq_div_mul, and_assoc] using fun _ => on

section
variable {s : State} {g : Group} {t : LaneMask} {lo : Nat} {p : Pred} (h : Turn s p g t lo) {r : BitVec 2} {a b : Reg}
include h

/-- SACFG.link asks its word for its peer first (R288, R295). -/
theorem sacfgLink_asks (ready : Ready g [a.toNat]) {w : Word} (named : g.reg (s.core s.cur.core) a.toNat lo = w) :
    exec (.sacfgLink p r a) s = run s (if linkBarred s.cur.core (s.peerOf g w) w then s.saTrap g r lo .saBoundary
      else s.gives g r t lo (some (.link w (s.peerOf g w), true))) := by
  subst named
  refine (congrArg (run s) (stippleM_asks h ready _)).trans ?_
  change run s ((if linkBarred .. then _ else _) >>= _) = _
  cases linkBarred s.cur.core (s.peerOf g (g.reg (s.core s.cur.core) a.toNat lo)) (g.reg (s.core s.cur.core) a.toNat lo) <;> rfl

/-- SALD asks the range that its registers name (R296). -/
theorem sald_asks (ready : Ready g [a.toNat, b.toNat]) (rg : SaRegion) {w v : Word} {first n : Nat}
    (address : g.reg (s.core s.cur.core) a.toNat lo = w) (range : g.reg (s.core s.cur.core) b.toNat lo = v)
    (from_ : v.toNat % 2048 = first) (count : v.toNat / 65536 % 4096 = n) :
    exec (.sald p r a b rg) s = run s (if n = 0 then s.gives g r t lo none else do
      trapIf (w.toNat % min (regionSize rg).1 4 != 0) .misaligned lo (w.setWidth 64)
      trapIf (decide (first + n > (regionSize rg).2) || decide (w.toNat + (regionSize rg).1 * n > s.scrSize g.team s.cur.core))
        .segLimit lo (w.setWidth 64)
      s.gives g r t lo (some (.load rg w.toNat first n, true))) := by
  subst address range
  have from_ : ((g.reg (s.core s.cur.core) b.toNat lo).extractLsb' 0 11).toNat = first := by simpa using from_
  have count : ((g.reg (s.core s.cur.core) b.toNat lo).extractLsb' 16 12).toNat = n := by
    simpa [Nat.shiftRight_eq_div_pow] using count
  refine (congrArg (run s) (stippleM_asks h ready _)).trans ?_
  simp only [from_, count, BitVec.ofNat_toNat]
  split
  · rfl
  · simp only [bind_assoc, M.ok_bind]

/-- A command that waits enters its array's queue. -/
theorem gives_queues {k : ACmdKind} (inside : r.toNat < (s.core s.cur.core).arrays.length)
    (serves : ((s.core s.cur.core).array r.toNat).oos = false)
    (room : ((s.core s.cur.core).array r.toNat).queue.length < 16) :
    ∃ u : State, run s (s.gives g r t lo (some (k, true))) = .next u ∧
      ((u.core s.cur.core).array r.toNat).queue.map ACmd.kind =
        ((s.core s.cur.core).array r.toNat).queue.map ACmd.kind ++ [k] ∧
      u.group s.cur.core s.cur.slot = some { g with arrWait := some (r.toNat, s.steps) } := by
  refine ⟨s.enter g r t k true, by rw [State.gives_enters (.inl serves) room, run_ok, if_pos rfl], ?_,
    State.enter_group t k true h.group⟩
  rw [State.enter_array t k true inside, List.map_append]
  rfl

end

theorem stipple_loads : stippleLoads := by
  intro s g t lo p r a b rg c x w v first n sz peer h inside queue
  refine ⟨fun ready => ?_, fun ready => ?_⟩
  · have asks := sacfgLink_asks h (r := r) ready rfl
    refine ⟨fun enabled bad => ?_, fun good serves room => ?_⟩
    · rw [asks, linkBarred_eq_true enabled bad, if_pos rfl]
      rfl
    · rw [asks, linkBarred_eq_false good, if_neg Bool.false_ne_true]
      exact gives_queues h inside serves room
  · have asks := sald_asks h (r := r) ready rg rfl rfl rfl rfl
    refine ⟨fun none => ?_, fun some => ⟨fun off => ?_, fun aligned => ⟨fun outside => ?_, fun within fits serves room => ?_⟩⟩⟩
    · rw [asks, if_pos none]
      rfl
    all_goals rw [asks, if_neg some]
    · rw [bne_iff_ne.mpr off, trapIf_true, M.error_bind, run_trap]
    all_goals rw [aligned, bne_self_eq_false, trapIf_false, M.ok_bind]
    · have bad : (decide (first + n > sz.2) || decide (w.toNat + sz.1 * n > s.scrSize g.team c)) = true := by
        simpa using outside
      rw [bad, trapIf_true, M.error_bind, run_trap]
    · have good : (decide (first + n > sz.2) || decide (w.toNat + sz.1 * n > s.scrSize g.team c)) = false := by
        simpa using ⟨within, fits⟩
      rw [good, trapIf_false, M.ok_bind]
      exact gives_queues h inside serves room

end Sys2Proof.Slice0
end

section
/-! SUPPORT. Registers written by a command in its turn (R299): which rows a window write changes, what it leaves of its
group, and that two states that agree on a group's registers still do after one write to both. -/

namespace Sys2Proof.Machine
open Sys2Proof.Slice0

/-! ## The group after a write to its window -/

/-- Group `n` of core `c` in `t` is `g` but for its overflow mark and the state of its accumulators. -/
def State.HoldsGroup (t : State) (c n : Nat) (g : Group) : Prop :=
  ∃ o as, t.group c n = some { g with stageOvf := o, accs := as }

section
variable {s t : State} {c n : Nat} {g : Group}

theorem State.HoldsGroup.of_eq (h : t.group c n = some g) : t.HoldsGroup c n g := ⟨g.stageOvf, g.accs, h⟩

theorem State.takeUndo_holds (hg : s.group c n = some g) (key : UKey) (prior : Line) :
    (s.takeUndo c n key prior).HoldsGroup c n g := by
  have marked : ∀ b : Bool, (if b = true then s.setGroup c n { g with stageOvf := true } else s).HoldsGroup c n g := by
    rintro (_ | _)
    · exact .of_eq hg
    · exact ⟨_, _, State.group_setGroup_self ..⟩
  simp only [State.takeUndo, hg]
  split
  · exact .of_eq hg
  · split
    · exact .of_eq hg
    · split
      · refine .of_eq ?_
        rw [← hg, State.group, State.group, State.core_setCore_self]
      · split
        · obtain ⟨o, as, hq⟩ := marked _
          exact ⟨o, as, by rw [State.group_updTeam, hq]⟩
        · exact marked _

theorem State.putWinRow_holds (hg : s.group c n = some g) (w : Nat) (data : Line) (m : LineMask) :
    (s.putWinRow c n w data m).HoldsGroup c n g := by
  simp only [State.putWinRow, hg]
  split
  · exact .of_eq hg
  · next r _ =>
    split
    · exact .of_eq hg
    · next key _ =>
      obtain ⟨o, as, hq⟩ := State.takeUndo_holds hg (.row r.mat r.a) ((s.core c).row key)
      have there : ((s.takeUndo c n (.row r.mat r.a) ((s.core c).row key)).updCore c fun x =>
          x.putRow key data m).group c n = some { g with stageOvf := o, accs := as } := by
        rw [← hq, State.group, State.group, State.core_updCore_self, Core.putRow_groups]
      rw [State.HoldsGroup, State.group_updGroup_self _ _ _ _ there, Group.clearZ]
      split
      · exact ⟨_, _, rfl⟩
      · exact ⟨_, _, rfl⟩

theorem State.putWin_holds (hg : s.group c n = some g) (ws : List (Nat × Word)) : (s.putWin c n ws).HoldsGroup c n g := by
  rw [State.putWin]
  refine List.foldlRecOn (motive := fun t => State.HoldsGroup t c n g) _ _ (.of_eq hg) fun t held w _ => ?_
  obtain ⟨_, _, hq⟩ := held
  exact State.putWinRow_holds hq w _ _

/-- Registers written change nothing of the group but these two and firmware's own registers. -/
theorem State.putRegs_group (hg : s.group c n = some g) (ws : List (Nat × Nat × Word)) :
    ∃ o as regs, (s.putRegs c n ws).group c n = some { g with stageOvf := o, accs := as, fwRegs := regs } := by
  simp only [State.putRegs, hg]
  split
  · exact ⟨_, _, _, State.group_setGroup_self ..⟩
  · obtain ⟨o, as, hq⟩ := State.putWin_holds hg (ws.map fun e => (g.vecOfs e.2.1 + 4 * e.1, e.2.2))
    exact ⟨o, as, g.fwRegs, hq⟩

/-! ## Rows -/

/-- What a write to a row of a group's window leaves in every row of the Well. -/
theorem State.putWinRow_rows (hg : s.group c n = some g) (w : Nat) (data : Line) (m : LineMask) (key : Nat) :
    ((s.putWinRow c n w data m).core c).row key =
      if (g.wAddr (128 * w)).bind (s.core c).rowKey = some key then blend ((s.core c).row key) data m
      else (s.core c).row key := by
  have rows : ∀ (u : State) (f : Group → Group), ((u.updGroup c n f).core c).row key = (u.core c).row key := by
    intro u f
    rw [State.updGroup]
    split
    · rw [State.setGroup, State.core_updCore_self]; rfl
    · rfl
  simp only [State.putWinRow, hg]
  split
  · next no => rw [no, Option.bind_none, if_neg (Option.some_ne_none key).symm]
  · next r hr =>
    rw [hr, Option.bind_some]
    split
    · next no =>
      rw [no, if_neg (Option.some_ne_none key).symm]
    · next k hk =>
      obtain ⟨-, kept⟩ := State.takeUndo_frame s c n (.row r.mat r.a) ((s.core c).row k)
      rw [hk, rows, State.core_updCore_self, Core.row_putRow, kept, kept]
      by_cases own : key = k
      · subst own; simp
      · rw [if_neg own, if_neg (fun e => own (Option.some.inj e).symm)]

/-! ## Two states with the same registers -/

/-- The registers of group `n` of core `c` stand in `t` as in `s`. -/
structure SameRegs (c n : Nat) (s t : State) : Prop where
  group : ∀ g, s.group c n = some g → ∃ q, t.group c n = some q ∧ q.fw = g.fw ∧ q.fwRegs = g.fwRegs ∧
    q.segReg = g.segReg ∧ q.segMat = g.segMat ∧ q.views = g.views ∧ q.width = g.width
  roles : (t.core c).roles = (s.core c).roles
  rows : ∀ key, (t.core c).row key = (s.core c).row key

theorem SameRegs.reads {q : Group} (same : SameRegs c n s t) (hg : s.group c n = some g) (hq : t.group c n = some q)
    (r l : Nat) : q.reg (t.core c) r l = g.reg (s.core c) r l := by
  obtain ⟨p, hp, fw, regs, reg, mat, views, width⟩ := same.group g hg
  cases hp.symm.trans hq
  have key : (t.core c).rowKey = (s.core c).rowKey := by funext r; rw [Core.rowKey, Core.rowKey, same.roles]
  simp only [Group.reg, Group.winNat, Group.vecOfs, Group.wAddr, fw, regs, reg, mat, views, width, key, same.rows]
  rfl

theorem SameRegs.putWinRow (same : SameRegs c n s t) (hg : s.group c n = some g) (w : Nat) (data : Line) (m : LineMask) :
    SameRegs c n (s.putWinRow c n w data m) (t.putWinRow c n w data m) := by
  obtain ⟨q, hq, fw, regs, reg, mat, views, width⟩ := same.group g hg
  have key : (t.core c).rowKey = (s.core c).rowKey := by funext r; rw [Core.rowKey, Core.rowKey, same.roles]
  refine ⟨fun g' hg' => ?_, ?_, fun k => ?_⟩
  · obtain ⟨_, _, hg1⟩ := State.putWinRow_holds hg w data m
    obtain ⟨_, _, hq1⟩ := State.putWinRow_holds hq w data m
    cases hg1.symm.trans hg'
    exact ⟨_, hq1, fw, regs, reg, mat, views, width⟩
  · rw [(State.putWinRow_frame t c n w data m).1.roles, (State.putWinRow_frame s c n w data m).1.roles, same.roles]
  · rw [State.putWinRow_rows hg, State.putWinRow_rows hq, same.rows, key, Group.wAddr, Group.wAddr, reg, mat]

theorem SameRegs.putWin (same : SameRegs c n s t) (hg : s.group c n = some g) (ws : List (Nat × Word)) :
    SameRegs c n (s.putWin c n ws) (t.putWin c n ws) := by
  rw [State.putWin, State.putWin]
  generalize dedup (ws.map fun e => e.1 / 128) = rows
  induction rows generalizing s t g with
  | nil => exact same
  | cons w rows ih =>
    obtain ⟨_, _, hq⟩ := State.putWinRow_holds hg w _ _
    exact ih (same.putWinRow hg w _ _) hq

/-- One write of registers to both. -/
theorem SameRegs.putRegs (same : SameRegs c n s t) (hg : s.group c n = some g) (ws : List (Nat × Nat × Word)) :
    SameRegs c n (s.putRegs c n ws) (t.putRegs c n ws) := by
  obtain ⟨q, hq, fw, regs, reg, mat, views, width⟩ := same.group g hg
  have offsets : ∀ r, q.vecOfs r = g.vecOfs r := fun r => by rw [Group.vecOfs, Group.vecOfs, views, width]
  simp only [State.putRegs, hg, hq, fw, offsets, regs]
  split
  · refine ⟨fun g' hg' => ?_, ?_, fun key => ?_⟩
    · rw [State.group_setGroup_self] at hg'
      cases hg'
      exact ⟨_, State.group_setGroup_self .., rfl, rfl, reg, mat, views, width⟩
    · rw [State.setGroup, State.setGroup, State.core_updCore_self, State.core_updCore_self]
      exact same.roles
    · rw [State.setGroup, State.setGroup, State.core_updCore_self, State.core_updCore_self]
      exact same.rows key
  · exact same.putWin hg _

end

end Sys2Proof.Machine
end

section
/-! SUPPORT. A command of a stipple array in its turn (R292, R295 to R299): what it makes of its array, and the group that
waited for it. -/

namespace Sys2Proof.Machine
open Sys2Proof.Slice0

/-! ## States with the same registers -/

section
variable {s t u : State} {c n : Nat}

theorem SameRegs.refl (c n : Nat) (s : State) : SameRegs c n s s :=
  ⟨fun g hg => ⟨g, hg, rfl, rfl, rfl, rfl, rfl, rfl⟩, rfl, fun _ => rfl⟩

theorem SameRegs.trans (a : SameRegs c n s t) (b : SameRegs c n t u) : SameRegs c n s u := by
  refine ⟨fun g hg => ?_, b.roles.trans a.roles, fun k => (b.rows k).trans (a.rows k)⟩
  obtain ⟨q, hq, fw, regs, reg, mat, views, width⟩ := a.group g hg
  obtain ⟨p, hp, fw', regs', reg', mat', views', width'⟩ := b.group q hq
  exact ⟨p, hp, fw'.trans fw, regs'.trans regs, reg'.trans reg, mat'.trans mat, views'.trans views, width'.trans width⟩

theorem SameRegs.updArray (c n : Nat) (s : State) (i : Nat) (f : StArray → StArray) : SameRegs c n s (s.updArray c i f) := by
  rw [State.updArray]
  refine ⟨fun g hg => ⟨g, ?_, rfl, rfl, rfl, rfl, rfl, rfl⟩, ?_, fun k => ?_⟩
  · rw [← hg, State.group, State.group, State.core_updCore_self]
  · rw [State.core_updCore_self]
  · rw [State.core_updCore_self]; rfl

/-- A group changed but for what holds its registers. -/
theorem SameRegs.setGroup {g q : Group} (hg : s.group c n = some g) (fw : q.fw = g.fw) (regs : q.fwRegs = g.fwRegs)
    (reg : q.segReg = g.segReg) (mat : q.segMat = g.segMat) (views : q.views = g.views) (width : q.width = g.width) :
    SameRegs c n s (s.setGroup c n q) := by
  refine ⟨fun p hp => ?_, ?_, fun k => ?_⟩
  · cases hg.symm.trans hp
    exact ⟨q, State.group_setGroup_self .., fw, regs, reg, mat, views, width⟩
  · rw [State.setGroup, State.core_updCore_self]
  · rw [State.setGroup, State.core_updCore_self]; rfl

end

theorem SameRegs.withCur (h : SameRegs c n s t) (k : Cur) : SameRegs c n s { t with cur := k } :=
  ⟨h.group, h.roles, h.rows⟩

/-! ## The group that goes on -/

section
variable {s : State} {c n : Nat} {g : Group} (hg : s.group c n = some g)
include hg

theorem State.popCmd_group (i : Nat) : (s.popCmd c i).group c n = some g := by
  rw [← hg, State.group, State.group, State.popCmd, State.updArray, State.core_updCore_self]

/-- The group that waited is told, and holds the turn (R292). -/
theorem State.release_group {q : ACmd} (slot : q.slot = n) :
    (s.release c q).group c n = some { g with arrWait := none } ∧ SameRegs c n s (s.release c q) ∧
      ∀ i, ((s.release c q).core c).array i = (s.core c).array i := by
  subst slot
  have told := State.updGroup_some s c q.slot (fun g => { g with arrWait := none }) hg
  refine ⟨State.group_updGroup_self s c q.slot (fun g => { g with arrWait := none }) hg, ?_, fun i => State.array_updGroup ..⟩
  rw [State.release, told]
  exact (SameRegs.setGroup hg (q := { g with arrWait := none }) rfl rfl rfl rfl rfl rfl).withCur _

variable (core : s.cur.core = c) (slot : s.cur.slot = n)
include core slot

/-- Its threads stand at the next instruction. -/
theorem State.next_own : s.next.group c n = some (g.advance s.cur.mask) ∧ SameRegs c n s s.next ∧
    ∀ i, (s.next.core c).array i = (s.core c).array i := by
  subst core slot
  have past := State.updGroup_some s s.cur.core s.cur.slot (fun g => g.advance s.cur.mask) hg
  refine ⟨State.group_updGroup_self s _ _ (fun g => g.advance s.cur.mask) hg, ?_, fun i => State.array_next ..⟩
  rw [State.next, past]
  exact SameRegs.setGroup hg rfl rfl rfl rfl rfl rfl

/-- Its stage closes. -/
theorem State.close_own : (s.close true).group c n = some { g with closing := .stage } ∧ SameRegs c n s (s.close true) ∧
    ∀ i, ((s.close true).core c).array i = (s.core c).array i := by
  subst core slot
  have closed : s.close true = (s.setGroup s.cur.core s.cur.slot { g with closing := .stage }).updTeam g.team
      fun t => { t with committed := true } := by
    rw [State.close, show s.curGroup = some g from hg]
    rfl
  refine ⟨?_, ?_, fun i => State.array_close ..⟩
  · rw [closed, State.group_updTeam, State.group_setGroup_self]
  · have set := SameRegs.setGroup hg (q := { g with closing := .stage }) rfl rfl rfl rfl rfl rfl
    rw [closed]
    refine set.trans ⟨fun q hq => ⟨q, ?_, rfl, rfl, rfl, rfl, rfl, rfl⟩, ?_, fun k => ?_⟩
    · rw [State.group_updTeam, hq]
    · rw [State.core_updTeam]
    · rw [State.core_updTeam]

end

/-- A group whose command is done: it waits no longer and stands past its instruction, its stage closing if the command
was barred. -/
def Group.pastCommand (g : Group) (m : LaneMask) (barred : Bool) : Group :=
  if barred then { ({ g with arrWait := none } : Group).advance m with closing := .stage }
  else ({ g with arrWait := none } : Group).advance m

theorem Group.pastCommand_fields (g : Group) (m : LaneMask) (barred : Bool) :
    (g.pastCommand m barred).arrWait = none ∧ (g.pastCommand m barred).lanes = (g.advance m).lanes ∧
      (g.pastCommand m barred).closing = if barred then .stage else g.closing := by
  cases barred <;> exact ⟨rfl, rfl, rfl⟩

/-- The turn given back leaves the array, the group and the registers. -/
theorem State.turnBack {t u : State} {c n i : Nat} {a : StArray} {g : Group} (array : (t.core c).array i = a)
    (group : t.group c n = some g) (regs : SameRegs c n u t) (k : Cur) :
    ({ t with cur := k } : State).cur = k ∧ (({ t with cur := k } : State).core c).array i = a ∧
      ({ t with cur := k } : State).group c n = some g ∧ SameRegs c n u { t with cur := k } :=
  ⟨rfl, array, group, regs.withCur k⟩

theorem Group.advance_lanes {q g : Group} (same : q.lanes = g.lanes) (m : LaneMask) :
    (q.advance m).lanes = (g.advance m).lanes := by
  simp only [Group.advance, Group.issued, Group.mapLanes, same]

/-- ARRAY_COMMAND of a command that its group awaits: the command is gone, and the group goes on (R292). -/
theorem arrayCommand_goesOn {u t : State} {c i : Nat} {q : ACmd} {g : Group}
    (head : ((u.core c).array i).queue.head? = some q) (serves : ((u.core c).array i).oos = false)
    (awaits : u.awaits c i q = true) (done : u.perform c i q = .ok t) (inside : i < (t.core c).arrays.length)
    (hg : t.group c q.slot = some g) :
    ∃ v, exec (.arrayCommand c i) u = .next v ∧ v.cur = u.cur ∧
      (v.core c).array i = { (t.core c).array i with queue := ((t.core c).array i).queue.drop 1, stallNow := false } ∧
      v.group c q.slot = some (g.pastCommand q.exec q.kind.barred) ∧ SameRegs c q.slot t v := by
  have popped := State.popCmd_group hg i
  obtain ⟨released, regs1, array1⟩ := State.release_group popped (q := q) rfl
  obtain ⟨next, regs2, array2⟩ := State.next_own released (core := rfl) (slot := rfl)
  have passes := (SameRegs.updArray c q.slot t i _).trans (regs1.trans regs2)
  have array : (((t.popCmd c i).release c q).next.core c).array i =
      { (t.core c).array i with queue := ((t.core c).array i).queue.drop 1, stallNow := false } := by
    rw [array2, array1, State.popCmd, State.array_updArray _ _ _ inside]
  have runs := execArrayCommand_done head done (.inl serves)
  rw [awaits, if_pos rfl] at runs
  cases barred : q.kind.barred with
  | false =>
    rw [barred, if_neg Bool.false_ne_true] at runs
    exact ⟨_, runs, State.turnBack array next passes u.cur⟩
  | true =>
    rw [barred, if_pos rfl] at runs
    have turn := (State.next_frame ((t.popCmd c i).release c q)).1.cur
    obtain ⟨closed, regs3, array3⟩ := State.close_own next (core := by rw [turn]; rfl) (slot := by rw [turn]; rfl)
    exact ⟨_, runs, State.turnBack ((array3 i).trans array) closed (passes.trans regs3) u.cur⟩

/-! ## What a command makes of its array -/

/-- The array with its queue. -/
def StArray.queued (a : StArray) (q : List ACmd) : StArray := { a with queue := q }

/-- The fields that a control word sets (R295). -/
def StArray.configured (a : StArray) (w beta : Word) : StArray := { a with
  replay := w.getLsbD 0, ncol := w.extractLsb' 1 4, ws := w.extractLsb' 5 4, winExp := w.extractLsb' 9 3, beta := beta }

/-- A control word whose window moves, or that clears, begins the monitor's window anew (R291, R295). -/
theorem StArray.control_eq (a : StArray) (w beta : Word) : a.control w beta =
    let b := if (a.configured w beta).window != a.window then (a.configured w beta).restart else a.configured w beta
    if w.getLsbD 12 then { b.restart with clamp := 0, cnt := [], stalled := false } else b := rfl

section
variable (a : StArray) (q : List ACmd)

theorem StArray.window_queued : (a.queued q).window = a.window := rfl

theorem StArray.configured_queued (w beta : Word) : (a.queued q).configured w beta = (a.configured w beta).queued q := rfl

theorem StArray.control_queued (w beta : Word) : (a.queued q).control w beta = (a.control w beta).queued q := by
  rw [StArray.control_eq, StArray.control_eq, StArray.configured_queued, StArray.window_queued, StArray.window_queued]
  cases (a.configured w beta).window != a.window <;> cases w.getLsbD 12 <;> rfl

theorem StArray.clampOp_queued (w : Word) : (a.queued q).clampOp w = (a.clampOp w).queued q := by
  simp only [StArray.clampOp, StArray.queued]
  split <;> rfl

theorem StArray.entry_state (a : StArray) (n : Nat) (bs : List Byte) : a.entry .state n bs =
    if a.clamp.getLsbD n then a else { a with m := putBit a.m n (natOfBytes bs % 2 == 1) } := rfl

theorem StArray.entry_queued (rg : SaRegion) (n : Nat) (bs : List Byte) :
    (a.queued q).entry rg n bs = (a.entry rg n bs).queued q := by
  cases rg with
  | state =>
    rw [StArray.entry_state, StArray.entry_state]
    by_cases clamped : a.clamp.getLsbD n = true
    · rw [if_pos clamped]
      exact if_pos clamped
    · rw [if_neg clamped]
      exact if_neg clamped
  | bias | coup | col | exp | ghost => simp only [StArray.entry, StArray.queued]

theorem StArray.setKey_queued (k : BitVec 128) (aid : BitVec 10) : (a.queued q).setKey k aid = (a.setKey k aid).queued q := rfl

theorem StArray.foldl_queued {β : Type} {f : StArray → β → StArray} (keeps : ∀ a x, f (a.queued q) x = (f a x).queued q)
    (l : List β) : l.foldl f (a.queued q) = (l.foldl f a).queued q := by
  induction l generalizing a with
  | nil => rfl
  | cons x l ih => rw [List.foldl_cons, List.foldl_cons, keeps, ih]

end

/-! ## The scratchpad of a team -/

/-- The scratchpads of core `c` stand in `u` as in `s`. -/
structure SameScr (c : Nat) (s u : State) : Prop where
  teams : u.teams = s.teams
  roles : (u.core c).roles = (s.core c).roles
  rows : ∀ k, (u.core c).row k = (s.core c).row k
  pres : (u.core c).presClr = (s.core c).presClr
  poison : (u.core c).wellPoison = (s.core c).wellPoison

section
variable {c : Nat} {s u : State} (same : SameScr c s u)
include same

theorem SameScr.row (tn line : Nat) : u.scrRow c tn line = s.scrRow c tn line := by
  simp only [State.scrRow, State.allot, Core.scrKey, same.teams, same.roles]

theorem SameScr.present (tn a : Nat) : u.present c tn a = s.present c tn a := by
  simp only [State.present, same.row, same.pres]

theorem SameScr.scrBad (tn a n : Nat) : u.scrBad c tn a n = s.scrBad c tn a n := by
  simp only [State.scrBad, same.row, same.poison]

theorem SameScr.scrBytes (tn a n : Nat) : u.scrBytes c tn a n = s.scrBytes c tn a n := by
  simp only [State.scrBytes, same.row, same.rows]

end

/-! ## The command entered -/

section
variable {s : State} {g : Group} {arr : BitVec 2} (t : LaneMask) (k : ACmdKind) (hg : s.curGroup = some g)
include hg

/-- A command that waits stands in its array's queue, and its group waits for it (R292). -/
theorem State.enter_held : s.enter g arr t k true = (s.updArray s.cur.core arr.toNat fun a =>
    { a with queue := a.queue ++ [s.arrayCmd g t k] }).setGroup s.cur.core s.cur.slot
      { g with arrWait := some (arr.toNat, s.steps) } := by
  rw [State.enter]
  refine State.updGroup_some _ _ _ _ ?_
  rw [← hg, State.curGroup, State.group, State.group, State.updArray, State.core_updCore_self]

/-- A command that waits in its queue: the registers and the scratchpads are as they were. -/
theorem State.enter_keeps : SameRegs s.cur.core s.cur.slot s (s.enter g arr t k true) ∧
    SameScr s.cur.core s (s.enter g arr t k true) ∧ (s.enter g arr t k true).cur = s.cur := by
  have there : (s.updArray s.cur.core arr.toNat fun a => { a with queue := a.queue ++ [s.arrayCmd g t k] }).group
      s.cur.core s.cur.slot = some g := by
    rw [← hg, State.curGroup, State.group, State.group, State.updArray, State.core_updCore_self]
  have entered := State.enter_held (arr := arr) t k hg
  have core : (s.enter g arr t k true).core s.cur.core = { s.core s.cur.core with
      arrays := listUpd (fun a => { a with queue := a.queue ++ [s.arrayCmd g t k] }) (s.core s.cur.core).arrays arr.toNat
      groups := tabSet (s.core s.cur.core).groups s.cur.slot { g with arrWait := some (arr.toNat, s.steps) } } := by
    rw [entered, State.setGroup, State.core_updCore_self, State.updArray, State.core_updCore_self]
  refine ⟨?_, ⟨?_, ?_, fun key => ?_, ?_, ?_⟩, ?_⟩
  · rw [entered]
    exact (SameRegs.updArray _ _ _ _ _).trans
      (SameRegs.setGroup there (q := { g with arrWait := some (arr.toNat, s.steps) }) rfl rfl rfl rfl rfl rfl)
  · rw [entered]; rfl
  · rw [core]
  · rw [core]; rfl
  · rw [core]
  · rw [core]
  · rw [entered]; rfl

end

/-! ## What a command in its turn does -/

section
variable {u : State} {c i : Nat} {q : ACmd}

theorem State.perform_ctl {w beta : Word} (kind : q.kind = .ctl w beta) :
    u.perform c i q = .ok (u.updArray c i fun a => a.control w beta) := by
  simp only [State.perform, kind]

theorem State.perform_key {k : BitVec 128} {aid : BitVec 10} (kind : q.kind = .key k aid) :
    u.perform c i q = .ok (u.updArray c i fun a => a.setKey k aid) := by
  simp only [State.perform, kind]

theorem State.perform_sc {v : BitVec 48} (kind : q.kind = .sc v) :
    u.perform c i q = .ok (u.updArray c i fun a => { a with sc := v }) := by
  simp only [State.perform, kind]

theorem State.perform_clamp {ops : List Word} (kind : q.kind = .clamp ops) :
    u.perform c i q = .ok (u.updArray c i fun a => ops.foldl StArray.clampOp a) := by
  simp only [State.perform, kind]

/-- A link word that enables nothing, to an array with no link (R290). -/
theorem State.perform_link {w : Word} {peer : Nat} (kind : q.kind = .link w peer) (off : linkEn w = false)
    (down : ((u.core c).array i).up = false) :
    u.perform c i q = .ok (u.updArray c i fun a => { a with link := w, peer := peer }) := by
  have alone : u.linkDown c i = u := by simp only [State.linkDown, down, Bool.not_false, if_true]
  simp only [State.perform, kind, State.setLink, off, Bool.false_and, Bool.false_eq_true, if_false, alone]

/-- Every line of a range holds one of its addresses. -/
theorem load_line {addr n l : Nat} (some : 0 < n)
    (line : l ∈ dedup ((List.range (n / 128 + 2)).map fun k => min (addr + 128 * k) (addr + n - 1) / 128)) :
    ∃ i < n, 128 * l = (addr + i) / 128 * 128 := by
  obtain ⟨k, -, rfl⟩ := List.mem_map.mp (mem_dedup line)
  refine ⟨min (addr + 128 * k) (addr + n - 1) - addr, by omega, ?_⟩
  rw [show addr + (min (addr + 128 * k) (addr + n - 1) - addr) = min (addr + 128 * k) (addr + n - 1) by omega, Nat.mul_comm]

/-- A load whose lines are present and clean (R296). -/
theorem State.perform_load {rg : SaRegion} {addr first n : Nat} (kind : q.kind = .load rg addr first n)
    (some : 0 < (regionSize rg).1 * n)
    (here : ∀ j < (regionSize rg).1 * n, u.present c q.team ((addr + j) / 128 * 128) = true)
    (clean : u.scrBad c q.team addr ((regionSize rg).1 * n) = none) :
    u.perform c i q = .ok (u.updArray c i fun a => (List.range n).foldl (fun a k =>
      a.entry rg (first + k) (u.scrBytes c q.team (addr + (regionSize rg).1 * k) (regionSize rg).1)) a) := by
  have present : ((dedup ((List.range ((regionSize rg).1 * n / 128 + 2)).map fun k =>
      min (addr + 128 * k) (addr + (regionSize rg).1 * n - 1) / 128)).any fun l => !u.present c q.team (128 * l)) = false := by
    refine List.any_eq_false.mpr fun l hl => ?_
    obtain ⟨j, inside, line⟩ := load_line some hl
    simp [line, here j inside]
  simp only [State.perform, kind, present, clean, Bool.false_eq_true, if_false]

/-- The commands that read (R299). -/
def ACmdKind.reads : ACmdKind → Bool
  | .rdState _ _ | .rdCnt _ _ | .rdStat _ | .rdMon _ => true
  | _ => false

/-- A read that its group awaits writes its words, nothing of them hidden from a group that is not deterministic. -/
theorem State.perform_read {g : Group} (read : q.kind.reads = true) (awaits : u.awaits c i q = true)
    (hg : u.group c q.slot = some g) (shown : g.det = false ∨ ∀ d, q.kind ≠ .rdStat d ∧ q.kind ≠ .rdMon d) :
    u.perform c i q = .ok (u.putRegs c q.slot (((u.core c).array i).results g.det q.mask q.kind)) := by
  cases kind : q.kind with
  | rdState d base => simp only [State.perform, kind, hg, awaits, Bool.not_true, Bool.and_false, Bool.false_eq_true, if_false]
  | rdCnt d base => simp only [State.perform, kind, hg, awaits, Bool.not_true, Bool.and_false, Bool.false_eq_true, if_false]
  | rdStat d =>
    have off := shown.resolve_right fun no => (no d).1 kind
    simp only [State.perform, kind, hg, awaits, off, Bool.not_true, Bool.false_and, Bool.false_eq_true, if_false]
  | rdMon d =>
    have off := shown.resolve_right fun no => (no d).2 kind
    simp only [State.perform, kind, hg, awaits, off, Bool.not_true, Bool.false_and, Bool.false_eq_true, if_false]
  | ctl | key | sc | link | clamp | load | sweep =>
    rw [kind] at read
    exact absurd read Bool.false_ne_true

end

/-- What a performed command leaves (R292): its array but for the queue, its group's threads and stage, and the words
that it wrote. -/
structure Wrote (s t : State) (c n i : Nat) (g : Group) (queue : List ACmd) (array : StArray) (words : List (Nat × Nat × Word)) :
    Prop where
  inside : i < (t.core c).arrays.length
  array : (t.core c).array i = array.queued queue
  group : ∃ q, t.group c n = some q ∧ q.lanes = g.lanes ∧ q.closing = g.closing
  regs : words = [] ∨ SameRegs c n (s.putRegs c n words) t

section
variable {s u : State} {c n i : Nat} {g : Group} {queue : List ACmd} {a : StArray} (inside : i < (u.core c).arrays.length)
  (there : (u.core c).array i = a.queued queue) {o : Option (Nat × Nat)} (hu : u.group c n = some { g with arrWait := o })
include inside there hu

theorem Wrote.updArray {f : StArray → StArray} (keeps : f (a.queued queue) = (f a).queued queue) :
    Wrote s (u.updArray c i f) c n i g queue (f a) [] := by
  refine ⟨?_, ?_, ⟨{ g with arrWait := o }, ?_, rfl, rfl⟩, .inl rfl⟩
  · rw [State.updArray, State.core_updCore_self, length_listUpd]
    exact inside
  · rw [State.array_updArray _ _ _ inside, there, keeps]
  · rw [← hu, State.group, State.group, State.updArray, State.core_updCore_self]

theorem Wrote.putRegs {hs : Group} (hg : s.group c n = some hs) (same : SameRegs c n s u) (words : List (Nat × Nat × Word)) :
    Wrote s (u.putRegs c n words) c n i g queue a words := by
  obtain ⟨frame, -⟩ := State.putRegs_frame u c n words hu
  have arrays := congrArg Core.arrays frame.rest
  have kept : ((u.putRegs c n words).core c).arrays = (u.core c).arrays := arrays
  obtain ⟨_, _, _, hq⟩ := State.putRegs_group hu words
  refine ⟨by rw [kept]; exact inside, ?_, ⟨_, hq, rfl, rfl⟩, .inr (same.putRegs hg words)⟩
  rw [Core.array, kept]
  exact there

end

end Sys2Proof.Machine

namespace Sys2Proof.Slice0
open Sys2Proof.Machine

/-- A command that is barred out of service closes its instruction's stage. -/
theorem stDone_closes (s : State) (g : Group) (t : LaneMask) (r : Nat) (k : ACmdKind) : (stDone s g t r k).closes = k.barred := by
  cases k <;> rfl

section
variable {s : State} {g : Group} {t : LaneMask} {r : BitVec 2} {k : ACmdKind}

theorem entered_array (inside : r.toNat < (s.core s.cur.core).arrays.length)
    (empty : ((s.core s.cur.core).array r.toNat).queue = []) (t : LaneMask) (k : ACmdKind) :
    ((s.enter g r t k true).core s.cur.core).array r.toNat =
      ((s.core s.cur.core).array r.toNat).queued [s.arrayCmd g t k] := by
  rw [State.enter_array t k true inside, empty]
  rfl

variable (hg : s.curGroup = some g)
include hg

/-- The group awaits the command that it gave. -/
theorem entered_awaits (t : LaneMask) (k : ACmdKind) :
    (s.enter g r t k true).awaits s.cur.core r.toNat (s.arrayCmd g t k) = true := by
  have hu := State.enter_group (arr := r) t k true hg
  simp only [State.awaits, show (s.arrayCmd g t k).slot = s.cur.slot from rfl, hu]
  exact beq_self_eq_true _

variable (inside : r.toNat < (s.core s.cur.core).arrays.length)
include inside

theorem entered_inside (t : LaneMask) (k : ACmdKind) :
    r.toNat < ((s.enter g r t k true).core s.cur.core).arrays.length := by
  rw [State.enter_held t k hg, State.setGroup, State.core_updCore_self, State.updArray, State.core_updCore_self,
    length_listUpd]
  exact inside

variable (empty : ((s.core s.cur.core).array r.toNat).queue = [])
include empty

/-- A command that changes its array alone. -/
theorem entered_updates {f : StArray → StArray}
    (does : (s.enter g r t k true).perform s.cur.core r.toNat (s.arrayCmd g t k) =
      .ok ((s.enter g r t k true).updArray s.cur.core r.toNat f))
    (keeps : ∀ a q, f (a.queued q) = (f a).queued q) :
    ∃ v, (s.enter g r t k true).perform s.cur.core r.toNat (s.arrayCmd g t k) = .ok v ∧
      Wrote s v s.cur.core s.cur.slot r.toNat g [s.arrayCmd g t k] (f ((s.core s.cur.core).array r.toNat)) [] :=
  ⟨_, does, Wrote.updArray (entered_inside hg inside t k) (entered_array inside empty t k)
    (State.enter_group (arr := r) t k true hg) (keeps _ _)⟩

/-- A command that reads its array. -/
theorem entered_reads (read : k.reads = true) (shown : g.det = false ∨ ∀ d, k ≠ .rdStat d ∧ k ≠ .rdMon d)
    {words : List (Nat × Nat × Word)}
    (gives : (((s.core s.cur.core).array r.toNat).queued [s.arrayCmd g t k]).results g.det t k = words) :
    ∃ v, (s.enter g r t k true).perform s.cur.core r.toNat (s.arrayCmd g t k) = .ok v ∧
      Wrote s v s.cur.core s.cur.slot r.toNat g [s.arrayCmd g t k] ((s.core s.cur.core).array r.toNat) words := by
  obtain ⟨regs, -, -⟩ := State.enter_keeps (arr := r) t k hg
  have hu := State.enter_group (arr := r) t k true hg
  have does := State.perform_read (q := s.arrayCmd g t k) read (entered_awaits hg t k) hu shown
  rw [entered_array inside empty] at does
  subst gives
  exact ⟨_, does, Wrote.putRegs (entered_inside hg inside t k) (entered_array inside empty t k) hu hg regs _⟩

/-- A command in its turn does what its row of R295 to R299 says. -/
theorem entered_performs (down : ((s.core s.cur.core).array r.toNat).up = false) (here : (stDone s g t r.toNat k).here)
    (some : ∀ rg addr first n, k = .load rg addr first n → n ≠ 0) :
    ∃ v, (s.enter g r t k true).perform s.cur.core r.toNat (s.arrayCmd g t k) = .ok v ∧
      Wrote s v s.cur.core s.cur.slot r.toNat g [s.arrayCmd g t k] (stDone s g t r.toNat k).array
        (stDone s g t r.toNat k).words := by
  have updates := fun {f} does keeps => entered_updates (f := f) (t := t) (k := k) hg inside empty does keeps
  cases k with
  | ctl w beta => exact updates (State.perform_ctl rfl) fun a q => a.control_queued q w beta
  | key v aid =>
    have same : ∀ a : StArray, a.setKey v aid = { a with
        key := v, aid := aid, sc := if a.sc = 0xFFFFFFFFFFFF#48 ∧ v ≠ a.key then 0 else a.sc } := fun a => by
      simp only [StArray.setKey, Bool.and_eq_true, beq_iff_eq, bne_iff_ne]
    have done := updates (State.perform_key rfl) fun a q => a.setKey_queued q v aid
    rw [same] at done
    exact done
  | sc v => exact updates (State.perform_sc rfl) fun _ _ => rfl
  | link w peer =>
    refine updates (State.perform_link rfl here ?_) fun _ _ => rfl
    rw [entered_array inside empty]
    exact down
  | clamp ops => exact updates (State.perform_clamp rfl) fun a q =>
      StArray.foldl_queued a q (fun a w => a.clampOp_queued q w) ops
  | load rg addr first n =>
    obtain ⟨-, scr, -⟩ := State.enter_keeps (arr := r) t (.load rg addr first n) hg
    obtain ⟨present, clean⟩ := here
    have size : 0 < (regionSize rg).1 * n :=
      Nat.mul_pos (by cases rg <;> decide) (Nat.pos_of_ne_zero (some rg addr first n rfl))
    have does := State.perform_load (i := r.toNat) (q := s.arrayCmd g t (.load rg addr first n)) rfl size
      (fun j hj => (scr.present ..).trans (present j hj)) ((scr.scrBad ..).trans clean)
    simp only [scr.scrBytes] at does
    exact updates does fun a q => StArray.foldl_queued a q (fun a _ => a.entry_queued q rg _ _) _
  | rdState d base => exact entered_reads hg inside empty rfl (.inr fun _ => ⟨ACmdKind.noConfusion, ACmdKind.noConfusion⟩) rfl
  | rdCnt d base => exact entered_reads hg inside empty rfl (.inr fun _ => ⟨ACmdKind.noConfusion, ACmdKind.noConfusion⟩) rfl
  | rdStat d => exact entered_reads hg inside empty rfl (.inl here) (show _ = _ by
      simp only [StArray.results, stDone, show g.det = false from here, StArray.statWords, StArray.queued, empty]
      rfl)
  | rdMon d => exact entered_reads hg inside empty rfl (.inl here) (show _ = _ by
      simp only [StArray.results, stDone, show g.det = false from here]
      rfl)
  | sweep => exact here.elim

/-- A command performed, and its group gone on: the array, the group and the registers (R292). -/
theorem command_completes {i : Instr} (runs : exec i s = .next (s.enter g r t k true))
    (serves : ((s.core s.cur.core).array r.toNat).oos = false)
    (down : ((s.core s.cur.core).array r.toNat).up = false) (open_ : g.closing = .none) (here : (stDone s g t r.toNat k).here)
    (some : ∀ rg addr first n, k = .load rg addr first n → n ≠ 0) :
    ∃ u v q, exec i s = .next u ∧ exec (.arrayCommand s.cur.core r.toNat) u = .next v ∧ v.cur = s.cur ∧
      (v.core s.cur.core).array r.toNat = { (stDone s g t r.toNat k).array with queue := [], stallNow := false } ∧
      v.group s.cur.core s.cur.slot = .some q ∧ q.arrWait = none ∧
      q.closing = (if (stDone s g t r.toNat k).closes then .stage else .none) ∧
      (∀ e ∈ (stDone s g t r.toNat k).words, ∃ h,
        (s.putRegs s.cur.core s.cur.slot (stDone s g t r.toNat k).words).group s.cur.core s.cur.slot = .some h ∧
          q.reg (v.core s.cur.core) e.2.1 e.1 =
            h.reg ((s.putRegs s.cur.core s.cur.slot (stDone s g t r.toNat k).words).core s.cur.core) e.2.1 e.1) ∧
      q.lanes = (g.advance s.cur.mask).lanes := by
  obtain ⟨v, done, wrote⟩ := entered_performs hg inside empty down here some
  obtain ⟨q0, hq0, lanes0, closing0⟩ := wrote.group
  have array := entered_array (g := g) inside empty t k
  have turn := (State.enter_keeps (arr := r) t k hg).2.2
  obtain ⟨w, goes, cur, after, group, same⟩ := arrayCommand_goesOn (q := s.arrayCmd g t k) (by rw [array]; rfl)
    (by rw [array]; exact serves) (entered_awaits hg t k) done wrote.inside hq0
  obtain ⟨wait, lanes, closing⟩ := q0.pastCommand_fields s.cur.mask k.barred
  refine ⟨_, w, _, runs, goes, cur.trans turn, ?_, group, wait, ?_, fun e he => ?_, ?_⟩
  · rw [after, wrote.array]
    rfl
  · rw [stDone_closes, ← open_, ← closing0]
    exact closing
  · rcases wrote.regs with none | regs
    · rw [none] at he
      exact absurd he List.not_mem_nil
    · obtain ⟨h, _, _, hh⟩ := State.putRegs_group hg (stDone s g t r.toNat k).words
      exact ⟨_, hh, (regs.trans same).reads hh group ..⟩
  · exact lanes.trans (Group.advance_lanes lanes0 _)

end

/-- A SASWP's sweep goes on. -/
theorem saForm_saswp {s : State} {g : Group} {t : LaneMask} {lo : Nat} {p p' : Pred} {r r' : BitVec 2} {a : Reg} {inc : BitVec 8}
    {tl : BitVec 4} {rs : List Nat} {k : ACmdKind} : saForm s g t lo (.saswp p r a inc tl) ≠ some (p', r', rs, some (k, true)) := by
  intro form
  simp only [saForm, Option.some.injEq, Prod.mk.injEq] at form
  obtain ⟨-, -, -, given⟩ := form
  split at given <;> cases given

/-- No instruction of `saForm` gives a load. -/
theorem saForm_load {s : State} {g : Group} {t : LaneMask} {lo : Nat} {i : Instr} {p : Pred} {r : BitVec 2} {rs : List Nat}
    {rg : SaRegion} {addr first n : Nat} : saForm s g t lo i ≠ some (p, r, rs, some (.load rg addr first n, true)) := by
  intro form
  cases i
  case saswp => exact saForm_saswp form
  all_goals cases form

theorem stipple_commands_complete : stippleCommandsComplete := by
  intro i s g t lo p r rs k gives turn ready c a inside empty serves down open_ w here
  have room : a.queue.length < 16 := by rw [empty]; decide
  have enters : run s (s.gives g r t lo (some (k, true))) = .next (s.enter g r t k true) := by
    rw [State.gives_enters (.inl serves) room, run_ok, if_pos rfl]
  rcases gives with form | ⟨b, rfl, rfl, rfl⟩ | ⟨b, b', rg, rfl, rfl, rfl, count, aligned, within, fits⟩
  · have other : ∀ a inc tl, i ≠ .saswp p r a inc tl := by
      rintro a inc tl rfl
      exact saForm_saswp form
    obtain ⟨cmd, given, asks⟩ := saForm_waits turn ready form other
    cases given
    exact command_completes turn.group inside empty (asks.trans enters) serves down open_ here
      fun rg addr first n same => by subst same; exact (saForm_load form).elim
  · have asks := sacfgLink_asks turn (r := r) ready rfl
    rw [linkBarred_eq_false (.inl here), if_neg Bool.false_ne_true] at asks
    exact command_completes turn.group inside empty (asks.trans enters) serves down open_ here
      fun rg addr first n same => ACmdKind.noConfusion same
  · have asks := sald_asks turn (r := r) ready rg rfl rfl rfl rfl
    rw [if_neg count, bne_eq_false_iff_eq.mpr aligned, trapIf_false, M.ok_bind, decide_eq_false (Nat.not_lt.mpr within),
      decide_eq_false (Nat.not_lt.mpr fits), Bool.or_false, trapIf_false, M.ok_bind] at asks
    exact command_completes turn.group inside empty (asks.trans enters) serves down open_ here
      fun rg addr first n same => by cases same; exact count

end Sys2Proof.Slice0
end

section
/-! SUPPORT. One sweep of an array without a link (R283, R291, R298): what it makes of the nodes, and how its command ends. -/

namespace Sys2Proof.Machine
open Sys2Proof.Slice0

/-! ## States whose core has the same arrays and timelines -/

/-- Core `c` has the same arrays and timelines, and the clusters and the clock stand. -/
structure SameArrays (c : Nat) (s t : State) : Prop where
  arrays : (t.core c).arrays = (s.core c).arrays
  tl : (t.core c).tl = (s.core c).tl
  clusters : t.clusters = s.clusters
  steps : t.steps = s.steps

section
variable {c : Nat} {s t u : State}

theorem SameArrays.refl (c : Nat) (s : State) : SameArrays c s s := ⟨rfl, rfl, rfl, rfl⟩

theorem SameArrays.trans (a : SameArrays c s t) (b : SameArrays c t u) : SameArrays c s u :=
  ⟨b.arrays.trans a.arrays, b.tl.trans a.tl, b.clusters.trans a.clusters, b.steps.trans a.steps⟩

theorem SameArrays.array (h : SameArrays c s t) (i : Nat) : (t.core c).array i = (s.core c).array i := by
  rw [Core.array, Core.array, h.arrays]

theorem SameArrays.updCore (s : State) (k : Nat) {f : Core → Core} (arrays : ∀ x, (f x).arrays = x.arrays)
    (tl : ∀ x, (f x).tl = x.tl) : SameArrays c s (s.updCore k f) := by
  by_cases own : c = k
  · subst own
    exact ⟨by rw [State.core_updCore_self, arrays], by rw [State.core_updCore_self, tl], rfl, rfl⟩
  · exact ⟨by rw [State.core_updCore_ne _ _ own], by rw [State.core_updCore_ne _ _ own], rfl, rfl⟩

theorem SameArrays.setGroup (s : State) (k n : Nat) (g : Group) : SameArrays c s (s.setGroup k n g) :=
  SameArrays.updCore s k (fun _ => rfl) fun _ => rfl

theorem SameArrays.updGroup (s : State) (k n : Nat) (f : Group → Group) : SameArrays c s (s.updGroup k n f) := by
  rw [State.updGroup]
  split
  · exact SameArrays.setGroup ..
  · exact SameArrays.refl ..

theorem SameArrays.updTeam (s : State) (n : Nat) (f : Team → Team) : SameArrays c s (s.updTeam n f) := by
  rw [State.updTeam]
  split
  · exact ⟨rfl, rfl, rfl, rfl⟩
  · exact SameArrays.refl ..

theorem SameArrays.close (s : State) : SameArrays c s (s.close true) := by
  rw [State.close]
  split
  · exact SameArrays.refl ..
  · rw [if_pos rfl]
    exact (SameArrays.setGroup ..).trans (SameArrays.updTeam ..)

/-! ### An asynchronous trap (R373) -/

theorem SameArrays.of_cores (cores : t.cores = s.cores) (clusters : t.clusters = s.clusters) (steps : t.steps = s.steps) :
    SameArrays c s t := by
  refine ⟨?_, ?_, clusters, steps⟩ <;> rw [State.core, State.core, cores]

theorem SameArrays.putRecord (s : State) (a : Nat) (bs : List Byte) : SameArrays c s (s.putRecord a bs) :=
  SameArrays.of_cores rfl rfl rfl

theorem SameArrays.updCtx (s : State) (n : Nat) (f : Ctx → Ctx) : SameArrays c s (s.updCtx n f) :=
  SameArrays.of_cores rfl rfl rfl

theorem SameArrays.putTrap (s : State) (k n : Nat) (r : TrapRec) : SameArrays c s (s.putTrap k n r) := by
  rw [State.putTrap]
  refine SameArrays.trans (SameArrays.updCore s k ?_ ?_) (SameArrays.putRecord ..)
  · exact fun _ => rfl
  · exact fun _ => rfl

/-- The host may be signalled besides. -/
theorem SameArrays.signals (h : SameArrays c s t) (l : List Nat) : SameArrays c s { t with msix := l } :=
  ⟨h.arrays, h.tl, h.clusters, h.steps⟩

theorem SameArrays.asyncLost (s : State) (x : Nat) (r : TrapRec) : SameArrays c s (s.asyncLost x r) := by
  rw [State.asyncLost, State.aeqAppend]
  dsimp only
  split
  · exact SameArrays.updCtx ..
  · exact ((SameArrays.putRecord ..).signals _).trans (SameArrays.updCtx ..)

theorem SameArrays.takeAsync (s : State) (x tn gi n : Nat) (k : TrapInfo) (pc w : DWord) :
    SameArrays c s (s.takeAsync x tn gi n k pc w) := by
  rw [State.takeAsync]
  split
  · split
    · exact SameArrays.asyncLost ..
    · exact (SameArrays.setGroup ..).trans (SameArrays.putTrap ..)
  · split
    · exact SameArrays.refl ..
    · split
      · exact SameArrays.asyncLost ..
      · exact SameArrays.updCore _ _ (fun _ => rfl) fun _ => rfl
  · dsimp only
    split
    · exact SameArrays.asyncLost ..
    · exact SameArrays.updCtx ..
  · exact SameArrays.asyncLost ..

end

/-! ## The nodes of an array -/

/-- The array with the fields that no sweep reads or writes. -/
def StArray.beside (a : StArray) (queue : List ACmd) (stall : Bool) (released : Nat) (tags : List ATag) : StArray :=
  { a with queue := queue, stallNow := stall, released := released, tags := tags }

section
variable (a : StArray) (q : List ACmd) (b : Bool) (r : Nat) (l : List ATag) (gh : Ghosts) (steps n : Nat)

theorem StArray.draw_beside (s i x : Nat) : (a.beside q b r l).draw s n i x = a.draw s n i x := rfl

theorem StArray.input_beside (i : Nat) : (a.beside q b r l).x2 ((a.beside q b r l).field gh i) = a.x2 (a.field gh i) := rfl

theorem StArray.updateClass_beside (k : Nat) :
    (a.beside q b r l).updateClass gh steps n k = (a.updateClass gh steps n k).beside q b r l := by
  simp only [StArray.updateClass, StArray.draw_beside, StArray.input_beside]
  simp only [StArray.beside]

theorem StArray.classes_beside (ks : List Nat) :
    ks.foldl (fun a k => a.updateClass gh steps n k) (a.beside q b r l) =
      (ks.foldl (fun a k => a.updateClass gh steps n k) a).beside q b r l := by
  induction ks generalizing a with
  | nil => rfl
  | cons k ks ih => rw [List.foldl_cons, List.foldl_cons, StArray.updateClass_beside, ih]

/-- Every class updated, in ascending order (R283). -/
def StArray.classes (a : StArray) (gh : Ghosts) (steps : Nat) : StArray :=
  (List.range (a.ncol.toNat + 1)).foldl (fun b c => b.updateClass gh steps a.sc.toNat c) a

theorem StArray.sweep_eq : a.sweep gh steps = { a.classes gh steps with
    cnt := ((List.range 2048).filter (a.classes gh steps).plus).foldl (fun t i => tabSet t i (tabGet 0 t i + 1))
      (a.classes gh steps).cnt
    sc := (a.classes gh steps).sc + 1 } := rfl

theorem StArray.sweep_beside : (a.beside q b r l).sweep gh steps = (a.sweep gh steps).beside q b r l := by
  have all : (a.beside q b r l).classes gh steps = (a.classes gh steps).beside q b r l := a.classes_beside q b r l gh steps _ _
  rw [StArray.sweep_eq, StArray.sweep_eq, all]
  simp only [StArray.beside]
  rfl

end

/-- A class's update leaves the sweep counter. -/
theorem StArray.sc_classes (a : StArray) (gh : Ghosts) (steps n : Nat) (ks : List Nat) :
    (ks.foldl (fun a k => a.updateClass gh steps n k) a).sc = a.sc := by
  induction ks generalizing a with
  | nil => rfl
  | cons k ks ih =>
    rw [List.foldl_cons, ih, StArray.updateClass]

theorem StArray.sc_sweep (a : StArray) (gh : Ghosts) (steps : Nat) : (a.sweep gh steps).sc = a.sc + 1 := by
  rw [StArray.sweep_eq]
  exact congrArg (· + 1) (a.sc_classes gh steps _ _)

/-- Two arrays agree in their nodes, counts and sweep counter. -/
structure SameNodes (a b : StArray) : Prop where
  m : b.m = a.m
  cnt : b.cnt = a.cnt
  sc : b.sc = a.sc

theorem SameNodes.trans {a b c : StArray} (h : SameNodes a b) (k : SameNodes b c) : SameNodes a c :=
  ⟨k.m.trans h.m, k.cnt.trans h.cnt, k.sc.trans h.sc⟩

theorem SameNodes.beside (a : StArray) (q : List ACmd) (b : Bool) (r : Nat) (l : List ATag) :
    SameNodes a (a.beside q b r l) := ⟨rfl, rfl, rfl⟩

theorem StArray.queue_beside (a : StArray) (q : List ACmd) (b : Bool) (r : Nat) (l : List ATag) :
    (a.beside q b r l).queue = q := rfl

theorem SameNodes.of_eq {a b c : StArray} (same : c = b) (h : SameNodes a b) : SameNodes a c := same ▸ h

theorem SameNodes.monitor (a : StArray) (steps : Nat) : SameNodes a (a.monitor steps).1 ∧ (a.monitor steps).1.queue = a.queue := by
  rw [StArray.monitor]
  dsimp only
  split
  · exact ⟨⟨rfl, rfl, rfl⟩, rfl⟩
  · exact ⟨⟨rfl, rfl, rfl⟩, rfl⟩

/-- The array as a sweep begins: it has stalled no longer, and releases the tags below `low` (R289). -/
def StArray.releasing (a : StArray) (low : Nat) : StArray :=
  { a with stallNow := false, released := max a.released low, tags := a.tags.filter fun t => decide (t.tag ≥ low) }

theorem StArray.releasing_eq (a : StArray) (low : Nat) : a.releasing low =
    a.beside a.queue false (max a.released low) (a.tags.filter fun t => decide (t.tag ≥ low)) := rfl

theorem Group.sticky_keeps (g : Group) (b : Bool) : (g.sticky b).closing = g.closing ∧ (g.sticky b).lanes = g.lanes := by
  rw [Group.sticky]
  split
  · exact ⟨rfl, rfl⟩
  · exact ⟨rfl, rfl⟩

/-! ## How a sweep command ends -/

section
variable (s : State) (c i : Nat) (q : ACmd) (inc : BitVec 8) (tl : BitVec 4)

theorem State.endSweep_none : s.endSweep c i q inc tl none = (s.popCmd c i).tlAdd c tl inc.toNat := rfl

theorem State.endSweep_some (f : Cause) : s.endSweep c i q inc tl (some f) =
    (((s.popCmd c i).updArray c i fun a => { a with lastFault := faultCode f }).saAsync c i q f).tlAdd c tl inc.toNat := rfl

theorem SameArrays.saAsync (f : Cause) : SameArrays c s (s.saAsync c i q f) := by
  rw [State.saAsync]
  exact SameArrays.takeAsync ..

/-- An array without a link has no tag to send (R289). -/
theorem State.sendTag_none (none : ((s.core c).array i).out = none) : s.sendTag c i = s := by
  rw [State.sendTag]
  simp only [none]

end

section
variable {s : State} {c i : Nat} (inside : i < (s.core c).arrays.length) (q : ACmd) (inc : BitVec 8) (tl : BitVec 4)
include inside

/-- A sweep command that ends leaves the queue, and makes its timeline addition (R298). -/
theorem State.endSweep_array (cause : Option Cause) :
    SameNodes ((s.core c).array i) (((s.endSweep c i q inc tl cause).core c).array i) ∧
    (((s.endSweep c i q inc tl cause).core c).array i).queue = ((s.core c).array i).queue.drop 1 ∧
    ((s.endSweep c i q inc tl cause).core c).tl = listUpd (fun v => v + inc.setWidth 64) (s.core c).tl tl.toNat := by
  have popped : ((s.popCmd c i).core c).array i =
      { (s.core c).array i with queue := ((s.core c).array i).queue.drop 1, stallNow := false } := State.array_updArray _ _ _ inside
  have poppedTl : ((s.popCmd c i).core c).tl = (s.core c).tl := by rw [State.popCmd, State.updArray, State.core_updCore_self]
  have within : i < ((s.popCmd c i).core c).arrays.length := by
    rw [State.popCmd, State.updArray, State.core_updCore_self, length_listUpd]
    exact inside
  have added : BitVec.ofNat 64 inc.toNat = inc.setWidth 64 := BitVec.ofNat_toNat 64 inc
  cases cause with
  | none =>
    rw [State.endSweep_none, State.tlAdd, State.core_updCore_self, added, poppedTl]
    exact ⟨.of_eq popped ⟨rfl, rfl, rfl⟩, congrArg StArray.queue popped, rfl⟩
  | some f =>
    have faulted := State.array_updArray (s.popCmd c i) c (fun a => { a with lastFault := faultCode f }) within
    have same := SameArrays.saAsync ((s.popCmd c i).updArray c i fun a => { a with lastFault := faultCode f }) c i q f
    rw [popped] at faulted
    have array := (same.array i).trans faulted
    rw [State.endSweep_some, State.tlAdd, State.core_updCore_self, added]
    refine ⟨.of_eq array ⟨rfl, rfl, rfl⟩, congrArg StArray.queue array, congrArg (listUpd _ · _) (same.tl.trans ?_)⟩
    rw [State.updArray, State.core_updCore_self, poppedTl]

/-- A sweep command that counts on: at the last sweep it ends (R298). -/
theorem State.countSweep_array (left : Nat) :
    SameNodes ((s.core c).array i) (((s.countSweep c i q left inc tl).core c).array i) ∧ (left = 1 →
      (((s.countSweep c i q left inc tl).core c).array i).queue = ((s.core c).array i).queue.drop 1 ∧
      ((s.countSweep c i q left inc tl).core c).tl = listUpd (fun v => v + inc.setWidth 64) (s.core c).tl tl.toNat) := by
  rw [State.countSweep]
  split
  · obtain ⟨nodes, ends⟩ := State.endSweep_array inside q inc tl none
    exact ⟨nodes, fun _ => ends⟩
  · next more =>
    rw [State.array_updArray _ _ _ inside]
    exact ⟨⟨rfl, rfl, rfl⟩, fun last => absurd last.le more⟩

omit inside in
theorem State.tl_updArray (f : StArray → StArray) : ((s.updArray c i f).core c).tl = (s.core c).tl := by
  rw [State.updArray, State.core_updCore_self]

omit inside in
theorem State.arrays_updArray (f : StArray → StArray) : i < ((s.updArray c i f).core c).arrays.length ↔ i < (s.core c).arrays.length := by
  rw [State.updArray, State.core_updCore_self, length_listUpd]

/-- A sweep of an array without a link: the nodes of `StArray.sweep`, and after the last sweep the command's end (R283,
R298). -/
theorem State.doSweep_alone (down : ((s.core c).array i).up = false) (left : Nat) :
    SameNodes (((s.core c).array i).sweep ⟨0, 0⟩ s.steps) (((s.doSweep c i q left inc tl ⟨0, 0⟩).core c).array i) ∧ (left = 1 →
      (((s.doSweep c i q left inc tl ⟨0, 0⟩).core c).array i).queue = ((s.core c).array i).queue.drop 1 ∧
      ((s.doSweep c i q left inc tl ⟨0, 0⟩).core c).tl = listUpd (fun v => v + inc.setWidth 64) (s.core c).tl tl.toNat) := by
  generalize swept : s.doSweep c i q left inc tl ⟨0, 0⟩ = v
  unfold State.doSweep at swept
  extract_lets a n low s1 s2 r b s3 s4 at swept
  have alone : s2 = s1 := if_neg (by rw [down]; exact Bool.false_ne_true)
  have begun : (s2.core c).array i = a.releasing low := by rw [alone]; exact State.array_updArray _ _ _ inside
  have within2 : i < (s2.core c).arrays.length := by rw [alone]; exact (State.arrays_updArray _).mpr inside
  have within : i < (s3.core c).arrays.length := (State.arrays_updArray _).mpr within2
  have timelines : (s3.core c).tl = (s.core c).tl := by
    rw [State.tl_updArray, alone, State.tl_updArray]
  have sweeps : SameNodes (a.sweep ⟨0, 0⟩ s.steps) (((s2.core c).array i).sweep ⟨0, 0⟩ s.steps) ∧
      (((s2.core c).array i).sweep ⟨0, 0⟩ s.steps).queue = a.queue := by
    rw [begun, StArray.releasing_eq, StArray.sweep_beside]
    exact ⟨SameNodes.beside .., StArray.queue_beside ..⟩
  have made : r = (((s2.core c).array i).sweep ⟨0, 0⟩ s.steps).monitor s.steps := rfl
  obtain ⟨monitored, held⟩ := SameNodes.monitor (((s2.core c).array i).sweep ⟨0, 0⟩ s.steps) s.steps
  rw [← made] at monitored held
  clear_value r
  have array : (s3.core c).array i = _ := State.array_updArray _ _ _ within2
  have nodes : SameNodes (a.sweep ⟨0, 0⟩ s.steps) ((s3.core c).array i) := 
    sweeps.1.trans (monitored.trans (.of_eq array ⟨rfl, rfl, rfl⟩))
  have queue : ((s3.core c).array i).queue = a.queue := (congrArg StArray.queue array).trans (held.trans sweeps.2)
  have silent : s4 = s3 := State.sendTag_none _ _ _ ((congrArg StArray.out array).trans (if_neg (by rw [down]; exact Bool.false_ne_true)))
  rw [← swept, silent]
  split
  · obtain ⟨kept, gone, added⟩ := State.endSweep_array within q inc tl (some .saBias)
    exact ⟨nodes.trans kept, fun _ => ⟨gone.trans (congrArg (List.drop 1) queue), timelines ▸ added⟩⟩
  · obtain ⟨kept, ends⟩ := State.countSweep_array within q inc tl left
    exact ⟨nodes.trans kept, fun last => ⟨(ends last).1.trans (congrArg (List.drop 1) queue), timelines ▸ (ends last).2⟩⟩

end

end Sys2Proof.Machine

namespace Sys2Proof.Slice0
open Sys2Proof.Machine

section
variable {s : State} {g : Group} {r : BitVec 2} (t : LaneMask) (k : ACmdKind)

/-- A sweep command that has entered its array's queue, its group past the instruction and its stage closing (R292). -/
theorem sweep_entered (hg : s.curGroup = some g) :
    SameArrays s.cur.core (s.enter g r t k false) ((s.enter g r t k false).next.close true) ∧
    ((s.enter g r t k false).next.close true).group s.cur.core s.cur.slot =
      some { g.advance s.cur.mask with closing := .stage } := by
  have entered := State.enter_group (arr := r) t k false hg
  obtain ⟨next, -, -⟩ := State.next_own entered (core := rfl) (slot := rfl)
  have turn := (State.next_frame (s.enter g r t k false)).1.cur
  obtain ⟨closed, -, -⟩ := State.close_own next (core := by rw [turn]; rfl) (slot := by rw [turn]; rfl)
  refine ⟨SameArrays.trans ?_ (SameArrays.close _), closed⟩
  rw [State.next]
  exact SameArrays.updGroup ..

/-- The TIMING mark leaves the arrays, and the group's threads and stage (R300). -/
theorem sweepMark_keeps {u : State} {q : Group} (hq : u.group s.cur.core s.cur.slot = some q) :
    SameArrays s.cur.core u (s.sweepMark r u) ∧ ∃ p, (s.sweepMark r u).group s.cur.core s.cur.slot = some p ∧
      p.closing = q.closing ∧ p.lanes = q.lanes := by
  rw [State.sweepMark]
  split
  · refine ⟨SameArrays.updGroup .., _, State.group_updGroup_self _ _ _ _ hq, ?_⟩
    split
    · exact q.sticky_keeps false
    · exact ⟨rfl, rfl⟩
  · exact ⟨SameArrays.refl .., q, hq, rfl, rfl⟩

/-- A sweep command that has entered leaves the rest of the core's arrays, and the clock. -/
theorem entered_rest (inside : r.toNat < (s.core s.cur.core).arrays.length) :
    r.toNat < ((s.enter g r t k false).core s.cur.core).arrays.length ∧
    ((s.enter g r t k false).core s.cur.core).tl = (s.core s.cur.core).tl := by
  rw [State.enter]
  exact ⟨(State.arrays_updArray _).mpr inside, State.tl_updArray _⟩

end

/-- SASWP on an array in service with an empty queue: its sweeps are queued, and its stage closes (R292, R298). -/
theorem saswp_queues {s : State} {p : Pred} {g : Group} {t : LaneMask} {lo : Nat} (turn : Turn s p g t lo) {r : BitVec 2} {a : Reg}
    (ready : Ready g [a.toNat]) (inc : BitVec 8) (tl : BitVec 4) {n : Nat} (count : (g.reg (s.core s.cur.core) a.toNat lo).toNat = n)
    (some : n ≠ 0) (inside : r.toNat < (s.core s.cur.core).arrays.length)
    (empty : ((s.core s.cur.core).array r.toNat).queue = []) (serves : ((s.core s.cur.core).array r.toNat).oos = false) :
    ∃ u q, exec (.saswp p r a inc tl) s = .next u ∧
      (u.core s.cur.core).array r.toNat = ((s.core s.cur.core).array r.toNat).queued [s.arrayCmd g t (.sweep n inc tl)] ∧
      u.group s.cur.core s.cur.slot = .some q ∧ q.closing = .stage ∧ q.lanes = (g.advance s.cur.mask).lanes ∧
      r.toNat < (u.core s.cur.core).arrays.length ∧ (u.core s.cur.core).tl = (s.core s.cur.core).tl ∧
      u.clusters = s.clusters ∧ u.steps = s.steps := by
  have room : ((s.core s.cur.core).array r.toNat).queue.length < 16 := by rw [empty]; decide
  have asks := saswp_asks turn ready (r := r) rfl inc tl count
  rw [if_neg some, State.gives_enters (.inl serves) room, M.ok_bind, run_ok, if_neg Bool.false_ne_true] at asks
  obtain ⟨passed, closed⟩ := sweep_entered (r := r) t (.sweep n inc tl) turn.group
  obtain ⟨marked, q, hq, closing, lanes⟩ := sweepMark_keeps (r := r) closed
  obtain ⟨within, timelines⟩ := entered_rest (g := g) t (.sweep n inc tl) inside
  have same := passed.trans marked
  have array := (same.array r.toNat).trans (State.enter_array t (.sweep n inc tl) false inside)
  rw [empty] at array
  exact ⟨_, q, asks, array, hq, closing, lanes, same.arrays.symm ▸ within, same.tl.trans timelines, same.clusters, same.steps⟩

/-- SWEEP of an array in service without a link, whose cluster is not drained (R283, R298, R389). -/
theorem sweep_runs {u : State} {c i : Nat} {a : StArray} {q : ACmd} {n : Nat} {inc : BitVec 8} {tl : BitVec 4}
    (array : (u.core c).array i = a.queued [q]) (kind : q.kind = .sweep n inc tl) (inside : i < (u.core c).arrays.length)
    (serves : a.oos = false) (down : a.up = false) (more : a.sc.toNat < 2 ^ 48 - 1)
    (live : (u.cluster (clusterOf c)).drained = false) :
    ∃ v, exec (.sweep c i) u = .next v ∧ SameNodes (a.sweep ⟨0, 0⟩ u.steps) ((v.core c).array i) ∧
      (n = 1 → ((v.core c).array i).queue = [] ∧
        (v.core c).tl = listUpd (fun v => v + inc.setWidth 64) (u.core c).tl tl.toNat) := by
  have off : ((u.core c).array i).up = false := by rw [array]; exact down
  have awake : u.still c = false := by rw [State.still, live, Bool.false_and]
  have runs := execSweep_of_head (s := u) (c := c) (i := i) (q := q) (by rw [array]; rfl) kind
  have goes : ((u.core c).array i).select ((u.core c).array i).sc.toNat = .take ⟨0, 0⟩ := by
    rw [StArray.select, off]
    rfl
  rw [awake, if_neg Bool.false_ne_true, if_neg (by rw [array]; exact serves ▸ Bool.false_ne_true),
    if_neg (by rw [array, sc_last_iff]; exact more.ne), goes] at runs
  obtain ⟨nodes, ends⟩ := State.doSweep_alone inside q inc tl off n
  have aside : ((u.core c).array i).sweep ⟨0, 0⟩ u.steps =
      (a.sweep ⟨0, 0⟩ u.steps).beside [q] a.stallNow a.released a.tags := by
    rw [array]
    exact a.sweep_beside [q] a.stallNow a.released a.tags ⟨0, 0⟩ u.steps
  refine ⟨_, runs, ?_, fun last => ?_⟩
  · rw [aside] at nodes
    exact (SameNodes.beside ..).trans nodes
  · obtain ⟨gone, added⟩ := ends last
    rw [array] at gone
    exact ⟨gone, added⟩

theorem sweep_completes : sweepCompletes := by
  intro s g t lo p r a inc tl c x n cmd turn ready some inside empty serves down more live
  obtain ⟨u, q, asks, array, group, closing, lanes, within, timelines, clusters, steps⟩ :=
    saswp_queues turn ready (r := r) inc tl rfl some inside empty serves
  obtain ⟨v, runs, nodes, ends⟩ := sweep_runs array rfl within serves down more (by rw [State.cluster, clusters]; exact live)
  rw [steps] at nodes
  rw [timelines] at ends
  exact ⟨u, v, q, asks, array, group, closing, lanes, runs, nodes.m, nodes.cnt, nodes.sc.trans (StArray.sc_sweep ..), ends⟩

/-- Settles O37, from the queueing of the commands, their turn (`command_completes`) and one sweep (`State.doSweep_alone`). -/
theorem stippleForms : Obligations.StippleForms :=
  ⟨stipple_issues, stipple_loads, stipple_commands_complete, sweep_completes⟩

end Sys2Proof.Slice0
end

section
/-! SUPPORT. Device memory stays canonical: the rules by which an operation's result is followed through its
definition. The sections after this one hold one lemma for each function of the model, under the function's name, in
the order of the model's files: `MemOk.f` says of a state that `f` keeps it canonical, and of another result that
the states in it are canonical (`Canon`, `SomeOk`, `TryOk`, …); a check without a state of its own has `f_canon`.
Those sections elaborate their theorems one after another (`Elab.async false`): hundreds of short proofs that each wait
for the ones they cite would hold a thread each, and the threads' stacks more memory than the check allows. -/

namespace Sys2Proof
open Machine Slice0

/-- Functions by recursion on a number meet what their first one meets and a step hands on. -/
theorem brecOn_meets {C : Type} {F : (n : Nat) → Nat.below (motive := fun _ => C) n → C} {P : C → Prop}
    (zero : P (F 0 PUnit.unit)) (step : ∀ n b, P b.1 → P (F (n + 1) b)) (n : Nat) :
    P (Nat.brecOn (motive := fun _ => C) n F) := by
  induction n with
  | zero => exact zero
  | succ n ih => exact step n _ ih

/-! ## States -/

section
variable {s t : State}

/-- A state with the memory of another. -/
theorem MemOk.same (h : MemOk s) (mem : t.mem = s.mem) : MemOk t := by
  rw [MemOk, mem]
  exact h

/-- A state written out as an update of another that leaves the memory. -/
theorem MemOk.upd (h : MemOk s) (mem : t.mem = s.mem := by dsimp only) : MemOk t := h.same mem

/-- A state given a canonical memory. -/
theorem MemOk.setMem {m : Memory} (s : Machine.State) (h : m.wf = true) : MemOk { s with mem := m } := h

theorem MemOk.ite {p : Prop} [Decidable p] (a : MemOk s) (b : MemOk t) : MemOk (if p then s else t) := by
  split
  · exact a
  · exact b

theorem MemOk.ite_fst {α : Type} {p : Prop} [Decidable p] {a b : Machine.State × α} (ha : MemOk a.1)
    (hb : MemOk b.1) : MemOk (if p then a else b).1 := by
  split
  · exact ha
  · exact hb

theorem MemOk.ite_snd {α : Type} {p : Prop} [Decidable p] {a b : α × State} (ha : MemOk a.2) (hb : MemOk b.2) :
    MemOk (if p then a else b).2 := by
  split
  · exact ha
  · exact hb

theorem MemOk.ite_snd₂ {α β : Type} {p : Prop} [Decidable p] {a b : α × β × Machine.State} (ha : MemOk a.2.2)
    (hb : MemOk b.2.2) : MemOk (if p then a else b).2.2 := by
  split
  · exact ha
  · exact hb

theorem MemOk.of_snd {α : Type} {p : α × Machine.State} {a : α} (h : MemOk p.2) (same : p = (a, t)) : MemOk t := by
  subst same
  exact h

theorem MemOk.foldl {β : Type} {f : State → β → State} (h : MemOk s) (step : ∀ t x, MemOk t → MemOk (f t x))
    (l : List β) : MemOk (l.foldl f s) := by
  induction l generalizing s with
  | nil => exact h
  | cons x l ih => exact ih (step s x h)

theorem MemOk.foldl_fst {α β : Type} {f : Machine.State × α → β → State × α} {p : Machine.State × α}
    (h : MemOk p.1)
    (step : ∀ q x, MemOk q.1 → MemOk (f q x).1) (l : List β) : MemOk (l.foldl f p).1 := by
  induction l generalizing p with
  | nil => exact h
  | cons x l ih => exact ih (step p x h)

theorem MemOk.foldl_snd {α β : Type} {f : α × State → β → α × State} {p : α × State} (h : MemOk p.2)
    (step : ∀ q x, MemOk q.2 → MemOk (f q x).2) (l : List β) : MemOk (l.foldl f p).2 := by
  induction l generalizing p with
  | nil => exact h
  | cons x l ih => exact ih (step p x h)

end

/-! ## Meanings under construction -/

/-- What a meaning that stops leaves is canonical. -/
def StopCanon : Stop → Prop
  | .state s => MemOk s
  | _ => True

/-- A meaning whose result meets `P`, and which stops at a canonical state only. -/
def Canon {α : Type} (P : α → Prop) : M α → Prop
  | .ok a => P a
  | .error e => StopCanon e

section
variable {α β : Type} {P : α → Prop} {Q : β → Prop} {m n : M α} {k : α → M β}

theorem Canon.ok {a : α} (h : P a) : Canon P (.ok a : M α) := h

theorem Canon.ok_snd {t : Machine.State} {a : α} (h : MemOk t) :
    Canon (fun r : α × Machine.State => MemOk r.2) (.ok (a, t) : M (α × Machine.State)) := h

theorem Canon.error {e : Stop} (h : StopCanon e) : Canon P (.error e : M α) := h

theorem Canon.bind (h : Canon P m) (next : ∀ a, P a → Canon Q (k a)) : Canon Q (m >>= k) := by
  cases m with
  | ok a => exact next a h
  | error e => exact h

/-- A check and what follows it. -/
theorem Canon.check (h : Canon (fun _ => True) m) (next : ∀ a, Canon Q (k a)) : Canon Q (m >>= k) :=
  h.bind fun a _ => next a

theorem Canon.ite {p : Prop} [Decidable p] (a : Canon P m) (b : Canon P n) : Canon P (if p then m else n) := by
  split
  · exact a
  · exact b

end

theorem trapAt_canon {α : Type} {P : α → Prop} (c lane) : Canon P (trapAt c lane) := trivial

theorem trapAddr_canon {α : Type} {P : α → Prop} (c lane addr) : Canon P (trapAddr c lane addr) := trivial

theorem trapIf_canon (b c lane addr) : Canon (fun _ => True) (trapIf b c lane addr) := by
  cases b <;> trivial

theorem waitIf_canon (b) : Canon (fun _ => True) (waitIf b) := by
  cases b <;> trivial

theorem parkIf_canon (b) : Canon (fun _ => True) (parkIf b) := by
  cases b <;> trivial

/-! ## Results that may be missing -/

/-- What an option holds meets `P`. -/
structure SomeOk {α : Type} (P : α → Prop) (o : Option α) : Prop where
  get : ∀ {a}, o = some a → P a

/-- What a meaning without steps results in meets `P`. -/
structure Okay {ε α : Type} (P : α → Prop) (x : Except ε α) : Prop where
  get : ∀ {a}, x = .ok a → P a

section
variable {ε α β : Type} {P : α → Prop} {Q : β → Prop}

theorem SomeOk.none : SomeOk P (none : Option α) := ⟨nofun⟩

theorem SomeOk.some {a : α} (h : P a) : SomeOk P (some a) := ⟨fun same => Option.some.inj same ▸ h⟩

theorem SomeOk.some_snd {t : Machine.State} {a : α} (h : MemOk t) :
    SomeOk (fun r : α × Machine.State => MemOk r.2) (Option.some (a, t)) := .some h

theorem SomeOk.ite {p : Prop} [Decidable p] {a b : Option α} (ha : SomeOk P a) (hb : SomeOk P b) :
    SomeOk P (if p then a else b) := by
  split
  · exact ha
  · exact hb

theorem SomeOk.map {o : Option α} {f : α → β} (h : SomeOk P o) (hf : ∀ a, P a → Q (f a)) : SomeOk Q (o.map f) := by
  refine ⟨fun same => ?_⟩
  obtain ⟨a, held, rfl⟩ := Option.map_eq_some_iff.mp same
  exact hf a (h.get held)

theorem SomeOk.getD {o : Option α} {a : α} (h : SomeOk P o) (ha : P a) : P (o.getD a) := by
  cases o with
  | none => exact ha
  | some b => exact h.get rfl

theorem Okay.error (e : ε) : Okay P (.error e : Except ε α) := ⟨nofun⟩

theorem Okay.ok {a : α} (h : P a) : Okay P (.ok a : Except ε α) := ⟨fun same => Except.ok.inj same ▸ h⟩

theorem Okay.ok_snd {t : Machine.State} {a : α} (h : MemOk t) :
    Okay (fun r : α × Machine.State => MemOk r.2) (.ok (a, t) : Except ε (α × Machine.State)) := .ok h

theorem Okay.ite {p : Prop} [Decidable p] {a b : Except ε α} (ha : Okay P a) (hb : Okay P b) :
    Okay P (if p then a else b) := by
  split
  · exact ha
  · exact hb

end

/-- The value that reading a source comes to meets `P`. -/
structure CReadOk {α : Type} (P : α → Prop) (r : CRead α) : Prop where
  get : ∀ {a}, r = .ok a → P a

section
variable {α β : Type} {P : α → Prop} {Q : β → Prop}

theorem CReadOk.ok {a : α} (h : P a) : CReadOk P (.ok a) := ⟨fun same => CRead.ok.inj same ▸ h⟩

theorem CReadOk.bind {r : CRead α} {k : α → CRead β} (h : CReadOk P r) (next : ∀ a, P a → CReadOk Q (k a)) :
    CReadOk Q (r.bind k) := by
  cases r with
  | ok a => exact next a (h.get rfl)
  | wait | absent | offline | bad => exact ⟨nofun⟩

theorem CReadOk.ite {p : Prop} [Decidable p] {a b : CRead α} (ha : CReadOk P a) (hb : CReadOk P b) :
    CReadOk P (if p then a else b) := by
  split
  · exact ha
  · exact hb

end

/-- The value that a collective's step comes to meets `P`. -/
structure CStepOk {α : Type} (P : α → Prop) (r : CStep α) : Prop where
  get : ∀ {a}, r = .ok a → P a

section
variable {α : Type} {P : α → Prop}

theorem CStepOk.ok {a : α} (h : P a) : CStepOk P (.ok a) := ⟨fun same => CStep.ok.inj same ▸ h⟩

theorem CStepOk.wait : CStepOk P .wait := ⟨nofun⟩

theorem CStepOk.fail : CStepOk P .fail := ⟨nofun⟩

theorem CStepOk.ite {p : Prop} [Decidable p] {a b : CStep α} (ha : CStepOk P a) (hb : CStepOk P b) :
    CStepOk P (if p then a else b) := by
  split
  · exact ha
  · exact hb

end

/-! ## The model's own results -/

/-- What an attempt at an access leaves is canonical. -/
def TryOk : Try → Prop
  | .trap _ s | .absent _ _ s | .done s | .fly _ s | .gone s => MemOk s
  | .wait | .park => True

theorem TryOk.of {a b : Try} (h : TryOk a) (same : a = b) : TryOk b := same ▸ h

theorem TryOk.ite {p : Prop} [Decidable p] {a b : Try} (ha : TryOk a) (hb : TryOk b) :
    TryOk (if p then a else b) := by
  split
  · exact ha
  · exact hb

theorem TryOk.map {t : Try} {f : Machine.State → Machine.State} (h : TryOk t) (hf : ∀ s, MemOk s → MemOk (f s)) :
    TryOk (t.map f) := by
  cases t with
  | done s => exact hf s h
  | trap | absent | wait | park | fly | gone => exact h

/-- What a step of the boundary unit leaves is canonical. -/
def BStateOk : BState → Prop
  | .busy s | .running s | .done s _ => MemOk s

theorem BStateOk.of {a b : BState} (h : BStateOk a) (same : a = b) : BStateOk b := same ▸ h

theorem BStateOk.ite {p : Prop} [Decidable p] {a b : BState} (ha : BStateOk a) (hb : BStateOk b) :
    BStateOk (if p then a else b) := by
  split
  · exact ha
  · exact hb

/-- What the choice of an instruction leaves is canonical. -/
def PickOk : Pick → Prop
  | .idle => True
  | .done s | .go _ s => MemOk s

theorem PickOk.of {a b : Pick} (h : PickOk a) (same : a = b) : PickOk b := same ▸ h

theorem PickOk.ite {p : Prop} [Decidable p] {a b : Pick} (ha : PickOk a) (hb : PickOk b) :
    PickOk (if p then a else b) := by
  split
  · exact ha
  · exact hb

/-- What a command in its turn leaves is canonical. -/
def DoneOk : Done → Prop
  | .ok s => MemOk s
  | _ => True

theorem DoneOk.of {a b : Done} (h : DoneOk a) (same : a = b) : DoneOk b := same ▸ h

theorem DoneOk.ite {p : Prop} [Decidable p] {a b : Done} (ha : DoneOk a) (hb : DoneOk b) :
    DoneOk (if p then a else b) := by
  split
  · exact ha
  · exact hb

/-- What the look at a queue's head leaves is canonical. -/
def HeadIsOk : HeadIs → Prop
  | .bad s | .grid _ _ _ s => MemOk s
  | _ => True

theorem HeadIsOk.of {a b : HeadIs} (h : HeadIsOk a) (same : a = b) : HeadIsOk b := same ▸ h

theorem HeadIsOk.ite {p : Prop} [Decidable p] {a b : HeadIs} (ha : HeadIsOk a) (hb : HeadIsOk b) :
    HeadIsOk (if p then a else b) := by
  split
  · exact ha
  · exact hb

/-! ## Outcomes -/

/-- An outcome whose next state is canonical. -/
structure OutCanon (o : Host.Outcome Machine.State Fault Refusal) : Prop where
  get : ∀ {t}, o = .next t → MemOk t

section
variable {s : State} {o p : Host.Outcome State Fault Refusal}

theorem OutCanon.next (h : MemOk s) : OutCanon (.next s) := ⟨fun same => Host.Outcome.next.inj same ▸ h⟩

theorem OutCanon.fault (f : Fault) : OutCanon (.fault f) := ⟨nofun⟩

theorem OutCanon.ite {q : Prop} [Decidable q] (a : OutCanon o) (b : OutCanon p) : OutCanon (if q then o else p) := by
  split
  · exact a
  · exact b

end

end Sys2Proof
end

section
/-! SUPPORT. Device memory stays canonical: what the functions of `Sys2Proof/Machine/Ops.lean` do to it. -/

namespace Sys2Proof
open Machine Slice0
variable {s : Machine.State}
set_option Elab.async false

theorem MemOk.setCore (h : MemOk s) (c x) : MemOk (s.setCore c x) := h.same rfl

theorem MemOk.updCore (h : MemOk s) (c f) : MemOk (s.updCore c f) := h.setCore ..

theorem MemOk.setGroup (h : MemOk s) (c k1 g) : MemOk (s.setGroup c k1 g) := h.updCore ..

theorem MemOk.updGroup (h : MemOk s) (c k1 f) : MemOk (s.updGroup c k1 f) := by
  unfold State.updGroup
  split
  · exact h.setGroup ..
  · exact h

theorem MemOk.updCtx (h : MemOk s) (c f) : MemOk (s.updCtx c f) := h.same rfl

theorem MemOk.updDie (h : MemOk s) (d f) : MemOk (s.updDie d f) := h.same rfl

theorem MemOk.updCluster (h : MemOk s) (k1 f) : MemOk (s.updCluster k1 f) := h.same rfl

theorem MemOk.updTeam (h : MemOk s) (t f) : MemOk (s.updTeam t f) := by
  unfold State.updTeam
  split
  · exact h.upd
  · exact h

theorem MemOk.updGrid (h : MemOk s) (n f) : MemOk (s.updGrid n f) := by
  unfold State.updGrid
  split
  · exact h.upd
  · exact h

theorem MemOk.tick (h : MemOk s) : MemOk s.tick := h.same rfl

theorem MemOk.putRecord (h : MemOk s) (a bs) : MemOk (s.putRecord a bs) := State.putRecord_wf a bs h

theorem MemOk.aeqAppend (h : MemOk s) (c r) : MemOk (s.aeqAppend c r) := by
  unfold State.aeqAppend
  refine .ite (h.updCtx ..) ?_
  refine MemOk.updCtx ?_ ..
  dsimp only [MemOk]
  exact h.putRecord ..

theorem MemOk.park (h : MemOk s) : MemOk s.park := h.updGroup ..

theorem MemOk.putTrap (h : MemOk s) (core slot r) : MemOk (s.putTrap core slot r) :=
  (h.updCore ..).putRecord ..

theorem MemOk.clearTrap (h : MemOk s) (core slot) : MemOk (s.clearTrap core slot) := by
  unfold State.clearTrap
  split
  · exact h
  · exact (h.updCore ..).putRecord ..

theorem MemOk.doom (h : MemOk s) (tn) : MemOk (s.doom tn) := h.updTeam ..

theorem MemOk.takeTrap (h : MemOk s) (t) : MemOk (s.takeTrap t) := by
  unfold State.takeTrap
  dsimp only
  split
  · exact h
  · refine .ite (h.aeqAppend ..) ?_
    refine MemOk.putTrap ?_ ..
    refine .ite ?_ ?_
    · exact (h.setGroup ..).doom ..
    · exact h.setGroup ..

theorem MemOk.run (h : MemOk s) {m : M Machine.State} (hm : Canon MemOk m) : OutCanon (run s m) := by
  unfold Machine.run
  split
  · exact .next hm
  · exact .next (h.takeTrap ..)
  · exact .next h
  · exact .next h.park
  · exact .fault _
  · exact .next hm

theorem agent_canon : Canon (fun _ => True) s.agent := by
  unfold State.agent
  split
  · exact .ok trivial
  · exact .error trivial

theorem firmware_canon : Canon (fun _ => True) s.firmware := by
  unfold State.firmware
  split
  · exact .error trivial
  · refine .ite ?_ ?_
    · exact .ok trivial
    · exact .error trivial

end Sys2Proof
end

section
/-! SUPPORT. Device memory stays canonical: what the functions of `Sys2Proof/Machine/Operands.lean` do to it. -/

namespace Sys2Proof
open Machine Slice0
variable {s : Machine.State}
set_option Elab.async false

theorem MemOk.takeUndo (h : MemOk s) (core slot key prior) : MemOk (s.takeUndo core slot key prior) := by
  unfold State.takeUndo
  split
  · exact h
  · refine .ite h ?_
    refine .ite h ?_
    dsimp only
    split
    · exact h.setCore ..
    · refine .ite ?_ ?_
      · refine MemOk.updTeam ?_ ..
        refine .ite ?_ h
        exact h.setGroup ..
      · refine .ite ?_ h
        exact h.setGroup ..

theorem MemOk.putWinRow (h : MemOk s) (core slot w data m) : MemOk (s.putWinRow core slot w data m) := by
  unfold State.putWinRow
  split
  · exact h
  · split
    · exact h
    · split
      · exact h
      · exact ((h.takeUndo ..).updCore ..).updGroup ..

theorem MemOk.putWin (h : MemOk s) (core slot ws) : MemOk (s.putWin core slot ws) :=
  h.foldl (fun _ _ k => k.putWinRow ..) _

theorem MemOk.putRegs (h : MemOk s) (core slot ws) : MemOk (s.putRegs core slot ws) := by
  unfold State.putRegs
  split
  · exact h
  · refine .ite ?_ ?_
    · exact h.setGroup ..
    · exact h.putWin ..

theorem MemOk.putPreds (h : MemOk s) (core slot ws) : MemOk (s.putPreds core slot ws) := by
  unfold State.putPreds
  refine .ite h ?_
  split
  · exact h
  · refine .ite (h.setGroup ..) ?_
    split
    · exact h
    · exact (h.takeUndo ..).updCore ..

theorem MemOk.next (h : MemOk s) : MemOk s.next := h.updGroup ..

theorem MemOk.close (h : MemOk s) (commit) : MemOk (s.close commit) := by
  unfold State.close
  split
  · exact h
  · refine .ite ?_ ?_
    · exact (h.setGroup ..).updTeam ..
    · exact h.setGroup ..

theorem MemOk.commit (h : MemOk s) (outs) : MemOk (s.commit outs) := (h.putRegs ..).putPreds ..

theorem needRegs_canon (g rs lo) : Canon (fun _ => True) (needRegs g rs lo) :=
  (waitIf_canon ..).check fun _ => trapIf_canon ..

theorem waitClass_canon (g k1) : Canon (fun _ => True) (waitClass g k1) := waitIf_canon ..

theorem MemOk.vecM (h : MemOk s) (v) : Canon MemOk (s.vecM v) := by
  unfold State.vecM
  refine agent_canon.check fun _ => ?_
  dsimp only
  split
  · exact .ok h.next
  · refine (needRegs_canon ..).check fun _ => ?_
    split
    · exact trapAt_canon ..
    · exact .ok (h.commit ..).next

theorem MemOk.vec (h : MemOk s) (v) : OutCanon (s.vec v) := h.run (h.vecM ..)

theorem MemOk.groupM (h : MemOk s) (p) {k : Group → LaneMask → Nat → M Machine.State} (hk :
  ∀ g t lo, Canon MemOk (k g t lo)) :
    Canon MemOk (s.groupM p k) := by
  unfold State.groupM
  refine agent_canon.check fun _ => ?_
  dsimp only
  split
  · exact .ok h.next
  · exact hk ..

theorem MemOk.putAll (h : MemOk s) (t d w) : MemOk (s.putAll t d w) := h.putRegs ..

theorem MemOk.putAll64 (h : MemOk s) (t d v) : MemOk (s.putAll64 t d v) := h.putRegs ..

end Sys2Proof
end

section
/-! SUPPORT. Device memory stays canonical: what the functions of `Sys2Proof/Machine/Formats.lean` do to it. -/

namespace Sys2Proof
open Machine Slice0
variable {s : Machine.State}
set_option Elab.async false

theorem MemOk.slotVecM (h : MemOk s) (c sl ok mk) : Canon MemOk (s.slotVecM c sl ok mk) := by
  unfold State.slotVecM
  refine agent_canon.check fun _ => ?_
  dsimp only
  split
  · exact .ok h.next
  · exact (needRegs_canon ..).check fun _ => (trapIf_canon ..).check fun _ => (h.vecM ..).bind fun _ k =>
      .ok (k.updGroup ..)

end Sys2Proof
end

section
/-! SUPPORT. Device memory stays canonical: what the functions of `Sys2Proof/Machine/Objects.lean` do to it. -/

namespace Sys2Proof
open Machine Slice0
variable {s : Machine.State}
set_option Elab.async false

theorem MemOk.setDesc (h : MemOk s) (core c) : MemOk (s.setDesc core c) := h.updCore ..

theorem MemOk.raise {α : Type} {P : α → Prop} (h : MemOk s) (t) : Canon P (s.raise t : M α) := h.takeTrap t

theorem MemOk.extentFill (h : MemOk s) (cl c on i e) : MemOk (s.extentFill cl c on i e) := by
  unfold State.extentFill
  refine .ite h ?_
  exact h.updCluster ..

theorem MemOk.extentMet (h : MemOk s) (cl c d p) : MemOk (s.extentMet cl c d p) := h.extentFill ..

theorem MemOk.fault (h : MemOk s) (r) : MemOk (s.fault r) := .ite h h.upd

theorem MemOk.updDir (h : MemOk s) (l f) : MemOk (s.updDir l f) := h.same rfl

end Sys2Proof
end

section
/-! SUPPORT. Device memory stays canonical: what the functions of `Sys2Proof/Machine/Home.lean` do to it. -/

namespace Sys2Proof
open Machine Slice0
variable {s : Machine.State}
set_option Elab.async false

theorem MemOk.setShr (h : MemOk s) (core line b) : MemOk (s.setShr core line b) := by
  unfold State.setShr
  refine .ite ?_ h
  exact h.updDir ..

theorem MemOk.dropCopy (h : MemOk s) (core line) : MemOk (s.dropCopy core line) := by
  unfold State.dropCopy
  split
  · exact h
  · exact ((h.setShr ..).updCore ..).updCore ..

theorem MemOk.evictWay (h : MemOk s) (core st way) : MemOk (s.evictWay core st way) := by
  unfold State.evictWay
  refine MemOk.updCore ?_ ..
  split
  · exact h.dropCopy ..
  · exact h

theorem MemOk.makeWay (h : MemOk s) (core st) : SomeOk (fun r => MemOk r.2) (s.makeWay core st) := by
  unfold State.makeWay
  dsimp only
  split
  · exact .some_snd h
  · split
    · exact .some_snd (h.evictWay ..)
    · exact .none

theorem MemOk.answer (h : MemOk s) (typ h1 payload) : MemOk (s.answer typ h1 payload) := h.same rfl

theorem MemOk.podNotice (h : MemOk s) (w) : MemOk (s.podNotice w) := h.answer ..

theorem MemOk.inkNotices (h : MemOk s) (line p) : MemOk (s.inkNotices line p) := by
  unfold State.inkNotices
  refine .ite h ?_
  exact ((h.foldl (fun _ _ k => k.updCore ..) _).foldl (fun _ _ k => k.podNotice ..) _).updDir ..

theorem MemOk.markPoison (h : MemOk s) (sec) : MemOk (s.markPoison sec) := h.upd.inkNotices ..

theorem MemOk.readSector (h : MemOk s) (sec) : MemOk (s.readSector sec) := by
  unfold State.readSector
  split
  · exact h.markPoison ..
  · exact h.updDie ..
  · exact h

theorem MemOk.readLine (h : MemOk s) (line) : MemOk (s.readLine line).2 := by
  unfold State.readLine
  refine MemOk.foldl_snd ?_ (fun _ _ k => ?_) _
  · exact h
  · exact k.readSector ..

theorem MemOk.healthRec (h : MemOk s) (addr) : MemOk (s.healthRec addr) := h.same rfl

theorem MemOk.storeUe (h : MemOk s) (ctx sec) : MemOk (s.storeUe ctx sec) := by
  unfold State.storeUe
  refine .ite ?_ ?_
  · exact h.healthRec ..
  · exact h.aeqAppend ..

theorem MemOk.storeLine (h : MemOk s) (ctx line data m) : MemOk (s.storeLine ctx line data m) := by
  unfold State.storeLine
  refine (MemOk.setMem s (memSetLine_wf line data m h)).foldl (fun t i k => ?_) _
  refine .ite k (.ite k.upd ?_)
  dsimp only
  split
  · exact (k.markPoison ..).storeUe ..
  · exact (k.markPoison ..).storeUe ..
  · dsimp only [MemOk]
    exact k.readSector ..
  · exact k

theorem MemOk.putHome (h : MemOk s) (pa bs) : MemOk (s.putHome pa bs) := memStore_wf pa bs h

theorem MemOk.storeAt (h : MemOk s) (ctx pa bs) : MemOk (s.storeAt ctx pa bs) := h.storeLine ..

theorem MemOk.storeBytes (h : MemOk s) (ctx pa bs) : MemOk (s.storeBytes ctx pa bs) := by
  unfold State.storeBytes
  refine h.foldl (fun _ _ k => ?_) _
  refine .ite ?_ k
  exact k.storeAt ..

theorem MemOk.dropSaved (h : MemOk s) (k1 line) : MemOk (s.dropSaved k1 line) := h.same rfl

theorem MemOk.recall (h : MemOk s) (k1 line) : MemOk (s.recall k1 line).2.2 := by
  unfold State.recall
  refine MemOk.updCore ?_ ..
  dsimp only [MemOk]
  refine MemOk.ite h ?_
  exact h.dropSaved ..

theorem MemOk.addElems (h : MemOk s) (e line vals) : MemOk (s.addElems e line vals) :=
  h.foldl (fun _ _ k => k.putHome ..) _

theorem MemOk.combine (h : MemOk s) (line) : MemOk (s.combine line) := by
  unfold State.combine
  refine .ite h ?_
  exact ((h.readLine ..).foldl (fun _ _ k => (k.recall ..).addElems ..) _).updDir ..

theorem MemOk.notify (h : MemOk s) (line) : MemOk (s.notify line) := by
  unfold State.notify
  refine .ite h ?_
  exact (h.foldl (fun _ _ k => k.updCore ..) _).updDir ..

theorem MemOk.accepted (h : MemOk s) (pub) : MemOk (s.accepted pub) := by
  unfold State.accepted
  split
  · exact h
  · exact .ite h.upd h.upd

theorem MemOk.deliver (h : MemOk s) (u) : MemOk (s.deliver u) := by
  unfold State.deliver
  refine .ite ((h.updCore ..).accepted ..) ?_
  refine .ite ((h.updCore ..).accepted ..) ?_
  dsimp only [MemOk]
  exact h.setShr ..

theorem MemOk.deliverDrop (h : MemOk s) (m) : MemOk (s.deliverDrop m) :=
  (h.updCore ..).foldl (fun _ _ k => k.accepted ..) _

theorem MemOk.settle (h : MemOk s) (line) : MemOk (s.settle line) := by
  unfold State.settle
  refine MemOk.foldl ?_ (fun _ _ k => k.deliverDrop ..) _
  dsimp only [MemOk]
  exact h.upd.foldl (fun _ _ k => k.deliver ..) _

theorem MemOk.evictLine (h : MemOk s) (line) : MemOk (s.evictLine line) := by
  unfold State.evictLine
  dsimp only [MemOk]
  exact h.settle ..

theorem MemOk.sliceRoom (h : MemOk s) (sl) : MemOk (s.sliceRoom sl) := by
  unfold State.sliceRoom
  refine .ite h ?_
  refine .ite h ?_
  dsimp only
  split
  · exact h.evictLine ..
  · split
    · exact h.updDie ..
    · exact h

theorem MemOk.atHome (h : MemOk s) (line) : MemOk (s.atHome line) := by
  unfold State.atHome
  split
  · exact h
  · exact (h.sliceRoom ..).updDir ..

theorem MemOk.movePartials (h : MemOk s) (core) : MemOk (s.movePartials core) := by
  unfold State.movePartials
  refine h.foldl (fun _ _ k => ?_) _
  refine .ite ?_ ?_
  · refine .ite ?_ ?_
    · exact k.upd.updCore ..
    · exact k.updCore ..
  · refine MemOk.updDir ?_ ..
    refine MemOk.atHome ?_ ..
    refine .ite ?_ ?_
    · exact k.upd.updCore ..
    · exact k.updCore ..

theorem MemOk.homeLine (h : MemOk s) (line) : MemOk (s.homeLine line).2 := (h.atHome ..).readLine ..

theorem MemOk.homeWrite (h : MemOk s) (w) : MemOk (s.homeWrite w) := by
  unfold State.homeWrite
  refine MemOk.notify ?_ ..
  dsimp only [MemOk]
  refine MemOk.updDir ?_ ..
  refine (((h.atHome ..).combine ..).storeLine ..).foldl (fun _ _ k => ?_) _
  refine .ite ?_ k
  exact k.markPoison ..

theorem MemOk.newJob (h : MemOk s) : MemOk s.newJob.2 := h.same rfl

theorem MemOk.ownWrite (h : MemOk s) (core a) : MemOk (s.ownWrite core a) := by
  unfold State.ownWrite
  split
  · exact h
  · split
    · refine .ite ?_ ?_
      · exact h.updCore ..
      · exact h.dropCopy ..
    · refine .ite ?_ ?_
      · exact h.updCore ..
      · exact h.dropCopy ..

theorem MemOk.applyEntry (h : MemOk s) (core e) : MemOk (s.applyEntry core e) := by
  unfold State.applyEntry
  split
  · exact h
  · split
    · exact h.dropCopy ..
    · refine .ite h ?_
      refine .ite ?_ ?_
      · exact h.updCore ..
      · exact h.dropCopy ..

theorem MemOk.acquire (h : MemOk s) (core own inv) : MemOk (s.acquire core own inv) := by
  unfold State.acquire
  extract_lets s1 s2 s3 gone s4
  have h1 : MemOk s1 := h.foldl (fun _ _ k => k.ownWrite ..) _
  have h2 : MemOk s2 := h1.foldl (fun _ _ k => k.applyEntry ..) _
  have h3 : MemOk s3 := h2.updCore ..
  have h4 : MemOk s4 := h3.foldl (fun _ _ k => k.dropCopy ..) _
  exact h4.updCore ..

theorem MemOk.keepAcks (h : MemOk s) (core own) : MemOk (s.keepAcks core own) := h.updCore ..

theorem MemOk.reachedBy (h : MemOk s) (r t) : MemOk (s.reachedBy r t) := .ite h h.upd

theorem MemOk.withWts (h : MemOk s) (l) : MemOk { s with wts := l } := h

theorem MemOk.withAcks (h : MemOk s) (l) : MemOk { s with acks := l } := h

theorem MemOk.publishLine (h : MemOk s) (core ctx c) : MemOk (s.publishLine core ctx c).1 := by
  unfold State.publishLine
  extract_lets j early t s0 s1 s2 s3 s4
  have h0 : MemOk s0 := h.newJob.withWts _
  have h1 : MemOk s1 := h0.foldl (fun _ _ k => k.homeWrite ..) _
  have h2 : MemOk s2 := (h1.homeWrite ..).settle ..
  have h4 : MemOk s4 := (h2.withAcks _).updDir ..
  exact h4.updCore ..

theorem MemOk.publishNow (h : MemOk s) (core host) : MemOk (s.publishNow core host).1 := by
  unfold State.publishNow
  refine MemOk.foldl_fst ?_ (fun _ _ k => ?_) _
  · exact h
  · exact k.publishLine ..

theorem MemOk.capacity (h : MemOk s) (core st) : MemOk (s.capacity core st) := (h.publishNow ..).acquire ..

theorem MemOk.allocWay (h : MemOk s) (core st) : MemOk (s.allocWay core st).2 := by
  unfold State.allocWay
  split
  · next eq =>
    have k := (h.makeWay ..).get eq
    exact k
  · refine .ite_snd h ?_
    dsimp only
    split
    · next eq =>
      have k := ((h.capacity ..).makeWay ..).get eq
      exact k
    · exact h.capacity ..

theorem MemOk.readVer (h : MemOk s) (core line) : MemOk (s.readVer core line).2.2 := by
  unfold State.readVer
  refine .ite_snd₂ ?_ ?_
  · exact h.homeLine ..
  · exact (h.homeLine ..).updCore ..

theorem MemOk.install (h : MemOk s) (core line data low host) : MemOk (s.install core line data low host) := by
  unfold State.install
  split
  · refine .ite ?_ ?_
    · exact h.updCore ..
    · exact ((h.readVer ..).updCore ..).setShr ..
  · split
    · next eq =>
      have k := MemOk.of_snd (h.allocWay ..) eq
      exact k
    · next eq =>
      have k := MemOk.of_snd (h.allocWay ..) eq
      exact ((k.readVer ..).updCore ..).setShr ..

theorem MemOk.storeL1 (h : MemOk s) (core line data m host) : MemOk (s.storeL1 core line data m host).2 := by
  unfold State.storeL1
  split
  · exact h.updCore ..
  · split
    · next eq =>
      have k := MemOk.of_snd (h.allocWay ..) eq
      exact k
    · next eq =>
      have k := MemOk.of_snd (h.allocWay ..) eq
      exact k.updCore ..

theorem MemOk.storeNt (h : MemOk s) (core ctx line data m) : MemOk (s.storeNt core ctx line data m) :=
  h.upd.updCore ..

theorem MemOk.writeHome (h : MemOk s) (ctx pa bs) : MemOk (s.writeHome ctx pa bs) := h.homeWrite ..

theorem MemOk.sendWords (h : MemOk s) (core ctx job p) : MemOk (s.sendWords core ctx job p).1 :=
  h.upd.updCore ..

theorem MemOk.sendCommits (h : MemOk s) (core job lines) : MemOk (s.sendCommits core job lines) :=
  h.same rfl

theorem MemOk.joinUnit (h : MemOk s) (core slot) : MemOk (s.joinUnit core slot) := by
  unfold State.joinUnit
  refine .ite h ?_
  exact h.updCore ..

theorem MemOk.takeUnit (h : MemOk s) (core slot b) : MemOk (s.takeUnit core slot b) := h.updCore ..

theorem MemOk.boundaryStep (h : MemOk s) (core slot) {fresh :
  Nat → Machine.State → Machine.State × List Nat × Nat}
    (hf : ∀ n t, MemOk t → MemOk (fresh n t).1) : BStateOk (s.boundaryStep core slot fresh) := by
  unfold State.boundaryStep
  split
  · refine .ite (h.joinUnit ..) ?_
    exact MemOk.takeUnit (s := (fresh s.newJob.1 s.newJob.2).1) (hf _ _ h.newJob) ..
  · exact .ite (h.joinUnit ..) (.ite ((h.sendCommits ..).updCore ..) h)

theorem MemOk.execWriteThrough (h : MemOk s) (n) : OutCanon (execWriteThrough n s) := by
  unfold Machine.execWriteThrough
  split
  · exact .next h
  · refine .ite ?_ ?_
    · exact .next h
    · exact .next ((h.upd.reachedBy ..).homeWrite ..)

theorem MemOk.execUpdate (h : MemOk s) (n) : OutCanon (execUpdate n s) := by
  unfold Machine.execUpdate
  split
  · exact .next h
  · refine .ite ?_ ?_
    · exact .next h
    · exact .next (h.upd.deliver ..)

theorem MemOk.execDropMark (h : MemOk s) (n) : OutCanon (execDropMark n s) := by
  unfold Machine.execDropMark
  split
  · exact .next h
  · exact .next (h.upd.deliverDrop ..)

theorem MemOk.execCommit (h : MemOk s) (n) : OutCanon (execCommit n s) := by
  unfold Machine.execCommit
  split
  · exact .next h
  · refine .ite ?_ ?_
    · exact .next h
    · exact .next ((h.upd.reachedBy ..).updDir ..)

theorem MemOk.fetched (h : MemOk s) (core c pc) : MemOk (s.fetched core c pc) := by
  unfold State.fetched
  refine .ite h ?_
  dsimp only
  split
  · exact h.setDesc ..
  · split
    · exact (((h.setDesc ..).extentMet ..).atHome ..).readSector ..
    · exact (h.setDesc ..).extentMet ..

end Sys2Proof
end

section
/-! SUPPORT. Device memory stays canonical: what the functions of `Sys2Proof/Machine/Scratch.lean` do to it. -/

namespace Sys2Proof
open Machine Slice0
variable {s : Machine.State}
set_option Elab.async false

theorem MemOk.updAllot (h : MemOk s) (team core f) : MemOk (s.updAllot team core f) := h.updTeam ..

theorem MemOk.putScrLine (h : MemOk s) (core team line data m) : MemOk (s.putScrLine core team line data m) :=
  by
  unfold State.putScrLine
  split
  · exact h
  · exact h.updCore ..

theorem MemOk.storeScr (h : MemOk s) (icore islot core team addr bs) : MemOk
  (s.storeScr icore islot core team addr bs) := by
  unfold State.storeScr
  refine h.foldl (fun _ _ k => ?_) _
  dsimp only
  split
  · exact k
  · exact (k.takeUndo ..).putScrLine ..

end Sys2Proof
end

section
/-! SUPPORT. Device memory stays canonical: what the functions of `Sys2Proof/Machine/Well.lean` do to it. -/

namespace Sys2Proof
open Machine Slice0
variable {s : Machine.State}
set_option Elab.async false

theorem MemOk.moveLine (h : MemOk s) (core w line) : SomeOk MemOk (s.moveLine core w line) := by
  unfold State.moveLine
  split
  · exact .none
  · exact .some ((h.evictWay ..).updCore ..)

theorem MemOk.moveLines (h : MemOk s) (core w l) : Okay MemOk (s.moveLines core w l) := by
  induction l generalizing s with
  | nil => exact .ok h
  | cons e r ih =>
    unfold State.moveLines
    split
    · exact .error _
    · next eq => exact ih ((h.moveLine ..).get eq)

theorem MemOk.leaveCache (h : MemOk s) (core w) : MemOk (s.leaveCache core w).1 :=
  ((h.updCore ..).foldl (fun _ _ k => k.dropCopy ..) _).updCore ..

theorem MemOk.moveRest (h : MemOk s) (core w l) : SomeOk MemOk (s.moveRest core w l) := by
  induction l generalizing s with
  | nil => exact .some h
  | cons e r ih =>
    unfold State.moveRest
    split
    · next eq => exact ih ((h.moveLine ..).get eq)
    · exact .ite .none (ih h)

theorem MemOk.emptyWay (h : MemOk s) (core w) : SomeOk MemOk (s.emptyWay core w) := by
  unfold State.emptyWay
  dsimp only
  split
  · next eq =>
    have k := (h.moveLines ..).get eq
    exact .some k
  · exact .none
  · refine .ite .none ?_
    exact ((h.publishNow ..).acquire ..).moveRest ..

theorem MemOk.growOne (h : MemOk s) (core team r) : SomeOk MemOk (s.growOne core team r) := by
  unfold State.growOne
  split
  · exact .none
  · split
    · exact .none
    · next eq =>
      have k := (h.emptyWay ..).get eq
      dsimp only
      split
      · exact .some (((k.leaveCache ..).updCore ..).updAllot ..)
      · exact .some ((k.leaveCache ..).updCore ..)

theorem MemOk.growBy (h : MemOk s) (core team r n) : SomeOk MemOk (s.growBy core team r n) := by
  induction n generalizing s with
  | zero => exact .some h
  | succ n ih =>
    unfold State.growBy
    split
    · exact .none
    · next eq => exact ih ((h.growOne ..).get eq)

theorem MemOk.shrinkScr (h : MemOk s) (core team m) : Okay MemOk (s.shrinkScr core team m) := by
  unfold State.shrinkScr
  split
  · exact .error _
  · split
    · exact .error _
    · refine .ite (.error _) ?_
      refine .ite (.error _) ?_
      refine .ok ?_
      refine MemOk.updCore ?_ ..
      refine .ite (h.updAllot ..) ?_
      split
      · exact ((h.updAllot ..).updCore ..).updAllot ..
      · exact h.updAllot ..

theorem MemOk.moveUndo (h : MemOk s) (core lim u) : MemOk (s.moveUndo core lim u) := by
  unfold State.moveUndo
  dsimp only
  split
  · exact h.setCore ..
  · exact (h.setCore ..).updTeam ..

theorem MemOk.shrinkShadow (h : MemOk s) (core m) : Okay MemOk (s.shrinkShadow core m) := by
  unfold State.shrinkShadow
  refine .ite ?_ ?_
  · exact .error _
  · exact .ok ((h.foldl (fun _ _ k => k.moveUndo ..) _).updCore ..)

theorem MemOk.shrinkOne (h : MemOk s) (core team r m) : Okay MemOk (s.shrinkOne core team r m) := by
  unfold State.shrinkOne
  dsimp only
  split
  · exact h.shrinkScr ..
  · refine .ite (.error _) ?_
    refine .ite (.error _) ?_
    refine .ite ?_ ?_
    · exact .error _
    · exact .ok (h.updCore ..)
  · refine .ite (.error _) ?_
    refine .ite (.error _) ?_
    refine .ite ?_ ?_
    · exact .error _
    · exact .ok (h.updCore ..)
  · split
    · exact .error _
    · exact .ok (h.setCore ..)
  · exact h.shrinkShadow ..

theorem MemOk.shrinkBy (h : MemOk s) (core team r m n) : Okay MemOk (s.shrinkBy core team r m n) := by
  induction n generalizing s with
  | zero => exact .ok h
  | succ n ih =>
    unfold State.shrinkBy
    split
    · exact .error _
    · next eq => exact ih ((h.shrinkOne ..).get eq)

theorem MemOk.shrink (h : MemOk s) (core team r k1) : Okay MemOk (s.shrink core team r k1) := by
  unfold State.shrink
  split
  · exact .error _
  · next eq =>
    have k := (h.shrinkBy ..).get eq
    exact h.shrinkBy ..

theorem MemOk.payRole (h : MemOk s) (core r n) : MemOk (s.payRole core r n) := by
  induction n generalizing s with
  | zero => exact h
  | succ n ih =>
    unfold State.payRole
    split
    · exact h
    · next eq =>
      split at eq
      · cases eq
      · exact ih (((h.shrinkOne ..).get eq).updCore ..)

theorem MemOk.payScr (h : MemOk s) (core team n) : MemOk (s.payScr core team n) := by
  induction n generalizing s with
  | zero => exact h
  | succ n ih =>
    unfold State.payScr
    split
    · exact h
    · next eq => exact ih ((h.shrinkScr ..).get eq)

theorem MemOk.settleOwed (h : MemOk s) (core) : MemOk (s.settleOwed core) := by
  unfold State.settleOwed
  refine .ite h ?_
  exact ((h.foldl (fun _ _ k => k.payRole ..) _).foldl (fun _ _ k => k.payScr ..) _).updCore ..

theorem MemOk.settleCluster (h : MemOk s) (core) : MemOk (s.settleCluster core) :=
  h.foldl (fun _ _ k => k.settleOwed ..) _

theorem MemOk.wreqTry (h : MemOk s) (core team r k1) : MemOk (s.wreqTry core team r k1).2 := by
  unfold State.wreqTry
  split
  · exact h
  · refine .ite_snd ?_ ?_
    · split
      · exact h
      · next eq =>
        have k := (h.growBy ..).get eq
        exact k.updAllot ..
    · split
      · exact h
      · exact h
      · next eq =>
        have k := (h.shrink ..).get eq
        exact k.updAllot ..

theorem MemOk.wreqM (h : MemOk s) (p role d a df tl) : Canon MemOk (s.wreqM p role d a df tl) := by
  unfold State.wreqM
  refine h.groupM _ fun _ _ _ => ?_
  refine (needRegs_canon ..).check fun _ => ?_
  refine (parkIf_canon ..).check fun _ => ?_
  dsimp only
  split
  · exact .ok (((h.wreqTry ..).putAll ..).next.close ..)
  · refine (parkIf_canon ..).check fun _ => ?_
    refine .ite ?_ ?_
    · exact .ok (((h.updCore ..).putAll ..).next.close ..)
    · exact .ok ((h.putAll ..).next.close ..)

theorem MemOk.execWreq (h : MemOk s) (p role d a df tl) : OutCanon (execWreq p role d a df tl s) :=
  h.run (h.wreqM ..)

theorem MemOk.tlAdd (h : MemOk s) (core tl n) : MemOk (s.tlAdd core tl n) := h.updCore ..

theorem MemOk.execDeferredRecheck (h : MemOk s) (core n) : OutCanon (execDeferredRecheck core n s) := by
  unfold Machine.execDeferredRecheck
  split
  · exact .next h
  · refine .ite (.next h) ?_
    dsimp only
    split
    · exact .next h
    · exact .next ((((h.wreqTry ..).updCore ..).updAllot ..).tlAdd ..)

theorem MemOk.execWqry (h : MemOk s) (p role d) : OutCanon (execWqry p role d s) :=
  h.run (h.groupM _ fun _ _ _ => (needRegs_canon ..).check fun _ => .ok ((h.putRegs ..).next.updGroup ..))

theorem MemOk.wtagM (h : MemOk s) (p t cnt) {k : Group → Core → List Nat → LaneMask → Nat → M Machine.State}
    (hk : ∀ g x ts m lo, Canon MemOk (k g x ts m lo)) : Canon MemOk (s.wtagM p t cnt k) :=
  h.groupM _ fun _ _ _ => (waitClass_canon ..).check fun _ => (trapIf_canon ..).check fun _ => hk ..

theorem MemOk.tagged (h : MemOk s) (ts v c) : MemOk (s.tagged ts v c) := (h.updCore ..).next.close ..

theorem MemOk.execWtagSetv (h : MemOk s) (p t cnt) : OutCanon (execWtagSetv p t cnt s) :=
  h.run (h.wtagM _ _ _ fun _ _ _ _ _ => (trapIf_canon ..).check fun _ => (waitIf_canon ..).check fun _ =>
    .ok (h.tagged ..))

theorem MemOk.execWtagSetc (h : MemOk s) (p t cnt) : OutCanon (execWtagSetc p t cnt s) :=
  h.run (h.wtagM _ _ _ fun _ _ _ _ _ => (trapIf_canon ..).check fun _ => (waitIf_canon ..).check fun _ =>
    .ok ((h.updCore ..).next.close ..))

theorem MemOk.execWtagReset (h : MemOk s) (p t cnt) : OutCanon (execWtagReset p t cnt s) :=
  h.run (h.wtagM _ _ _ fun _ _ _ _ _ => .ok (h.tagged ..))

theorem MemOk.execWtagWv (h : MemOk s) (p t cnt) : OutCanon (execWtagWv p t cnt s) :=
  h.run (h.wtagM _ _ _ fun _ _ _ _ _ => (parkIf_canon ..).check fun _ => .ok h.next)

theorem MemOk.execWtagWc (h : MemOk s) (p t cnt) : OutCanon (execWtagWc p t cnt s) :=
  h.run (h.wtagM _ _ _ fun _ _ _ _ _ => (parkIf_canon ..).check fun _ => .ok h.next)

theorem MemOk.execWtagRd (h : MemOk s) (p d t cnt) : OutCanon (execWtagRd p d t cnt s) :=
  h.run (h.wtagM _ _ _ fun _ _ _ _ _ => (needRegs_canon ..).check fun _ => .ok (h.putAll ..).next)

end Sys2Proof
end

section
/-! SUPPORT. Device memory stays canonical: what the functions of `Sys2Proof/Machine/Waybill.lean` do to it. -/

namespace Sys2Proof
open Machine Slice0
variable {s : Machine.State}
set_option Elab.async false

theorem MemOk.setWb (h : MemOk s) (pa i f) : MemOk (s.setWb pa i f) :=
  ((h.atHome ..).readSector ..).putHome ..

theorem MemOk.setWbState (h : MemOk s) (pa v) : MemOk (s.setWbState pa v) := h.setWb ..

theorem MemOk.wbRecord (h : MemOk s) (ctx wb aux) : MemOk (s.wbRecord ctx wb aux) := h.aeqAppend ..

theorem MemOk.completion (h : MemOk s) (r) : MemOk (s.completion r) := by
  unfold State.completion
  refine .ite h ?_
  dsimp only [MemOk]
  exact h.putRecord ..

theorem MemOk.updQueue (h : MemOk s) (ctx q f) : MemOk (s.updQueue ctx q f) := h.updCtx ..

theorem MemOk.placeWb (h : MemOk s) (ctx wb pa) : MemOk (s.placeWb ctx wb pa) := by
  unfold State.placeWb
  refine .ite ?_ ?_
  · exact ((h.updCtx ..).storeAt ..).updQueue ..
  · exact (h.updCtx ..).updQueue ..

theorem MemOk.leaveQueue (h : MemOk s) (ctx qn) : MemOk (s.leaveQueue ctx qn) := by
  unfold State.leaveQueue
  dsimp only
  split
  · exact (h.upd.updQueue ..).updCtx ..
  · exact (((h.upd.updQueue ..).updCtx ..).storeAt ..).updQueue ..

theorem MemOk.badWb (h : MemOk s) (ctx wb pa k1) : MemOk (s.badWb ctx wb pa k1) :=
  ((h.setWbState ..).wbRecord ..).completion ..

theorem MemOk.spawnStep (h : MemOk s) (ctx wb pa) : Okay (fun r => MemOk r.2) (s.spawnStep ctx wb pa) := by
  unfold State.spawnStep
  refine .ite (.ok_snd h) ?_
  refine .ite (.ok_snd h) ?_
  split
  · exact .error _
  · exact .ok_snd (h.badWb ..)
  · exact .ok_snd ((h.setWbState ..).placeWb ..)

theorem MemOk.jdecStep (h : MemOk s) (ctx wb pa n) : Okay (fun r => MemOk r.2) (s.jdecStep ctx wb pa n) := by
  unfold State.jdecStep
  refine .ite (.ok_snd (h.wbRecord ..)) ?_
  refine .ite ?_ (.ok_snd (h.setWb ..))
  split
  · exact .error _
  · exact .ok_snd ((h.setWb ..).badWb ..)
  · exact .ok_snd (((h.setWb ..).setWbState ..).placeWb ..)

theorem MemOk.certify (h : MemOk s) : MemOk s.certify := by
  unfold State.certify
  refine h.foldl (fun _ _ k => ?_) _
  refine .ite ?_ k
  exact (k.completion ..).updGrid ..

theorem MemOk.later (h : MemOk s) (f) : MemOk (s.later f) := h.same rfl

/-- The pointer's check is a variable while the step is unfolded
  (`id` keeps it one in the proof's term): evaluating it on a
symbolic index is out of the kernel's reach. -/
theorem MemOk.successors (h : MemOk s) (ctx wb succ i n) : MemOk (s.successors ctx wb succ i n) := by
  delta State.successors
  refine brecOn_meets (P := fun f : Machine.State → Nat → Machine.State => ∀ s i, MemOk s → MemOk (f s i))
    (fun _ _ h => h) (fun n b ih s i h => ?_) n s i h
  generalize unfolded : @State.successors._f = F
  delta State.successors._f at unfolded
  subst unfolded
  generalize ptrAdd = check
  revert check
  refine id fun check => ?_
  dsimp only
  split
  · exact h.fault ..
  · exact ih _ _ (h.wbRecord ..)
  · refine .ite (ih _ _ (h.wbRecord ..)) ?_
    split
    · exact h.fault ..
    · exact ih _ _ (h.wbRecord ..)
    · refine .ite (h.later ..) ?_
      split
      · exact h.fault ..
      · next eq => exact ih _ _ ((h.jdecStep ..).get eq)

theorem MemOk.runSuccessors (h : MemOk s) (ctx wb pa) : MemOk (s.runSuccessors ctx wb pa) := h.successors ..

theorem MemOk.leaveHead (h : MemOk s) (ctx wb) : MemOk (s.leaveHead ctx wb) := by
  unfold State.leaveHead
  refine h.foldl (fun _ _ k => ?_) _
  refine .ite ?_ k
  exact k.leaveQueue ..

theorem MemOk.atGrid (h : MemOk s) (g me) {k : Nat → Machine.State} (hk : ∀ pa, MemOk (k pa)) : MemOk
  (s.atGrid g me k) := by
  unfold State.atGrid
  split
  · exact h.fault ..
  · exact h.wbRecord ..
  · exact .ite (hk _) (h.later ..)

theorem MemOk.markFailed (h : MemOk s) (gid) : MemOk (s.markFailed gid) := by
  unfold State.markFailed
  split
  · exact h
  · refine h.atGrid _ _ fun _ => ?_
    refine .ite h ?_
    exact (h.setWbState ..).completion ..

theorem MemOk.failWaybill (h : MemOk s) (gid g) : MemOk (s.failWaybill gid g) :=
  ((h.leaveHead ..).updGrid ..).markFailed ..

theorem MemOk.countTeam (h : MemOk s) (gid tn) : MemOk (s.countTeam gid tn) := by
  unfold State.countTeam
  split
  · exact h
  · refine h.atGrid _ _ fun _ => ?_
    refine .ite ?_ ?_
    · exact (((((h.setWb ..).setWbState ..).runSuccessors ..).completion ..).updGrid ..).certify
    · exact h.setWb ..

theorem MemOk.doChore (h : MemOk s) (x2) : MemOk (s.doChore x2) := by
  unfold State.doChore
  split
  · exact h.successors ..
  · exact h.countTeam ..
  · exact h.markFailed ..
  · exact h

theorem MemOk.forget (h : MemOk s) (tn) : MemOk (s.forget tn) := h.same rfl

theorem MemOk.teamEnd (h : MemOk s) (tn killed) : MemOk (s.teamEnd tn killed) := by
  unfold State.teamEnd
  split
  · exact h
  · dsimp only
    split
    · exact (((h.updTeam ..).forget ..).foldl (fun _ _ k =>
        ((k.updAllot ..).updCore ..).settleOwed ..) _).updGrid ..
    · refine MemOk.countTeam ?_ ..
      refine .ite ?_ ?_
      · exact ((((h.updTeam ..).forget ..).foldl (fun _ _ k =>
          ((k.updAllot ..).updCore ..).settleOwed ..) _).updGrid ..).failWaybill ..
      · exact (((h.updTeam ..).forget ..).foldl (fun _ _ k =>
          ((k.updAllot ..).updCore ..).settleOwed ..) _).updGrid ..

end Sys2Proof
end

section
/-! SUPPORT. Device memory stays canonical: what the functions of `Sys2Proof/Machine/Stage.lean` do to it. -/

namespace Sys2Proof
open Machine Slice0
variable {s : Machine.State}
set_option Elab.async false

theorem MemOk.restoreLine (h : MemOk s) (core u) : MemOk (s.restoreLine core u) := by
  unfold State.restoreLine
  split
  · split
    · exact h.updCore ..
    · exact h
  · split
    · exact h.updCore ..
    · exact h

theorem MemOk.zeroBlocks (h : MemOk s) (core g h1) : MemOk (s.zeroBlocks core g h1) := by
  unfold State.zeroBlocks
  refine h.foldl (fun _ _ k => ?_) _
  refine .ite ?_ k
  exact k.updCore ..

theorem MemOk.newStage (h : MemOk s) (core slot) : MemOk (s.newStage core slot) := by
  unfold State.newStage
  split
  · exact h
  · exact (h.updCore ..).settleOwed ..

theorem MemOk.releaseTeam (h : MemOk s) (tn) : MemOk (s.releaseTeam tn) :=
  ((h.updTeam ..).foldl (fun _ _ k => k.updCore ..) _).foldl (fun _ _ k =>
    ((k.updGroup ..).newStage ..).updGroup ..) _

theorem MemOk.checkTeamBar (h : MemOk s) (tn) : MemOk (s.checkTeamBar tn) := by
  unfold State.checkTeamBar
  split
  · exact h
  · refine .ite ?_ h
    exact h.releaseTeam ..

theorem MemOk.arrive (h : MemOk s) (core slot) : MemOk (s.arrive core slot) := by
  unfold State.arrive
  split
  · exact h
  · split
    · exact h
    · split
      · exact ((h.setGroup ..).updTeam ..).checkTeamBar ..
      · refine .ite ?_ ?_
        · exact (((h.setGroup ..).updCore ..).updTeam ..).updGroup ..
        · exact ((h.setGroup ..).updCore ..).updTeam ..

theorem MemOk.resumeBar (h : MemOk s) (core slot) : MemOk (s.resumeBar core slot) := h.updGroup ..

theorem MemOk.dropWatches (h : MemOk s) (core slot) : MemOk (s.dropWatches core slot) := h.same rfl

theorem MemOk.dropFaults (h : MemOk s) (core slot) : MemOk (s.dropFaults core slot) := h.same rfl

theorem MemOk.freeGroup (h : MemOk s) (core slot) : MemOk (s.freeGroup core slot) := by
  unfold State.freeGroup
  split
  · exact h
  · exact ((((h.dropWatches ..).dropFaults ..).clearTrap ..).setCore ..).settleOwed ..

theorem MemOk.endGroup (h : MemOk s) (core slot) : MemOk (s.endGroup core slot) := by
  unfold State.endGroup
  split
  · exact h
  · refine .ite ?_ ?_
    · exact ((h.freeGroup ..).updTeam ..).teamEnd ..
    · exact ((h.freeGroup ..).updTeam ..).checkTeamBar ..

theorem MemOk.deliverNow (h : MemOk s) (core slot) : MemOk (s.deliverNow core slot) := by
  unfold State.deliverNow
  split
  · exact h
  · split
    · exact h
    · exact (h.setGroup ..).putScrLine ..

theorem MemOk.closeStage (h : MemOk s) (core slot) : MemOk (s.closeStage core slot) := by
  unfold State.closeStage
  split
  · exact h
  · refine .ite ?_ ?_
    · exact ((h.deliverNow ..).newStage ..).endGroup ..
    · exact ((h.deliverNow ..).newStage ..).updGroup ..

theorem MemOk.tryClose (h : MemOk s) (core slot) : MemOk (s.tryClose core slot) := by
  unfold State.tryClose
  split
  · exact h
  · refine .ite h ?_
    split
    · exact h
    · exact h.closeStage ..
    · exact ((h.arrive ..).deliverNow ..).newStage ..

theorem MemOk.shedTrap (h : MemOk s) (core slot g) : MemOk (s.shedTrap core slot g) := by
  unfold State.shedTrap
  refine MemOk.updGroup ?_ ..
  refine MemOk.foldl ?_ (fun _ _ k => k.aeqAppend ..) _
  refine .ite ?_ h
  exact h.clearTrap ..

theorem MemOk.stopGroup (h : MemOk s) (core slot) : MemOk (s.stopGroup core slot) := by
  unfold State.stopGroup
  split
  · exact h
  · exact (((((h.shedTrap ..).dropFaults ..).zeroBlocks ..).setGroup ..).updCore ..).resumeBar ..

theorem MemOk.killGroup (h : MemOk s) (core slot) : MemOk (s.killGroup core slot) := by
  unfold State.killGroup
  split
  · exact h
  · exact (h.foldl (fun _ _ k => k.aeqAppend ..) _).freeGroup ..

theorem MemOk.killParked (h : MemOk s) (tn c) : MemOk (s.killParked tn c) :=
  (h.foldl (fun _ _ k => (k.foldl (fun _ _ k1 => k1.aeqAppend ..) _).dropWatches ..) _).updCore ..

theorem MemOk.killNow (h : MemOk s) (tn) : MemOk (s.killNow tn) :=
  ((h.foldl (fun _ _ k => k.killGroup ..) _).foldl (fun _ _ k => k.killParked ..) _).teamEnd ..

theorem MemOk.rollGroup (h : MemOk s) (core slot) : MemOk (s.rollGroup core slot) := by
  unfold State.rollGroup
  split
  · exact h
  · exact ((((h.shedTrap ..).dropFaults ..).zeroBlocks ..).setGroup ..).updCore ..

theorem MemOk.rollParked (h : MemOk s) (core p) : MemOk (s.rollParked core p) :=
  (((h.foldl (fun _ _ k => k.aeqAppend ..) _).dropWatches ..).zeroBlocks ..).updCore ..

theorem MemOk.rollback (h : MemOk s) (tn sector) : MemOk (s.rollback tn sector) :=
  ((((h.foldl (fun _ _ k => k.restoreLine ..) _).foldl (fun _ _ k => k.rollGroup ..) _).foldl (fun _ _ k =>
    k.updCore ..) _).foldl (fun _ _ k => k.foldl (fun _ _ k1 => k1.rollParked ..) _) _).updTeam ..

theorem MemOk.answerUe (h : MemOk s) (tn t u) : MemOk (s.answerUe tn t u) := by
  unfold State.answerUe
  refine MemOk.aeqAppend ?_ ..
  refine MemOk.putTrap ?_ ..
  refine .ite ?_ ?_
  · exact h.killNow ..
  · exact h.rollback ..

theorem MemOk.tryStop (h : MemOk s) (tn) : MemOk (s.tryStop tn) := by
  unfold State.tryStop
  split
  · exact h
  · refine .ite h ?_
    refine .ite (h.killNow ..) ?_
    split
    · exact h.answerUe ..
    · exact h

theorem MemOk.killTeam (h : MemOk s) (tn) : MemOk (s.killTeam tn) := (h.doom ..).tryStop ..

theorem MemOk.preempt (h : MemOk s) (tn) : SomeOk MemOk (s.preempt tn) := by
  unfold State.preempt
  refine .ite ?_ .none
  exact .some (((h.tryStop ..).foldl (fun _ _ k => k.restoreLine ..) _).foldl (fun _ _ k => k.stopGroup ..) _)

theorem MemOk.takeRec (h : MemOk s) (core slot r mask) : MemOk (s.takeRec core slot r mask) := by
  unfold State.takeRec
  split
  · exact h
  · refine .ite ?_ ?_
    · exact h.aeqAppend ..
    · exact (h.setGroup ..).putTrap ..

theorem MemOk.takeLogged (h : MemOk s) (core slot f t) : MemOk (s.takeLogged core slot f t) := by
  unfold State.takeLogged
  split
  · exact h
  · exact h.takeRec ..

theorem MemOk.dropOp (h : MemOk s) (core slot g id) : MemOk (s.dropOp core slot g id) := by
  unfold State.dropOp
  split
  · exact h
  · exact h.upd.updGroup ..

theorem MemOk.consumeUe (h : MemOk s) (core slot own logged pc iword sector lane) : MemOk
  (s.consumeUe core slot own logged pc iword sector lane) := by
  unfold State.consumeUe
  split
  · exact h
  · dsimp only
    split
    · refine MemOk.takeRec ?_ ..
      split
      · exact h
      · exact h.dropOp ..
    · refine .ite ?_ ?_
      · split
        · exact h
        · exact h.dropOp ..
      · refine MemOk.tryStop ?_ ..
        refine MemOk.updTeam ?_ ..
        split
        · exact h
        · exact h.dropOp ..

theorem MemOk.asyncLost (h : MemOk s) (ctx r) : MemOk (s.asyncLost ctx r) := h.aeqAppend ..

theorem MemOk.takeAsync (h : MemOk s) (ctx tn gidx slot t pc iword) : MemOk
  (s.takeAsync ctx tn gidx slot t pc iword) := by
  unfold State.takeAsync
  dsimp only
  split
  · refine .ite ?_ ?_
    · exact h.asyncLost ..
    · exact (h.setGroup ..).putTrap ..
  · split
    · exact h
    · refine .ite ?_ ?_
      · exact h.asyncLost ..
      · exact h.updCore ..
  · refine .ite ?_ ?_
    · exact h.asyncLost ..
    · exact h.updCtx ..
  · exact h.asyncLost ..

theorem MemOk.takeWaiting (h : MemOk s) (core slot g r) : MemOk (s.takeWaiting core slot g r) :=
  (h.setGroup ..).putTrap ..

end Sys2Proof
end

section
/-! SUPPORT. Device memory stays canonical: what the functions of `Sys2Proof/Machine/Access.lean` do to it. -/

namespace Sys2Proof
open Machine Slice0
variable {s : Machine.State}
set_option Elab.async false

theorem MemOk.extentsMet (h : MemOk s) (core ctx l) : MemOk (s.extentsMet core ctx l) :=
  h.foldl (fun _ _ k => k.extentMet ..) _

theorem MemOk.consume (h : MemOk s) (a lane sector) : MemOk (s.consume a lane sector) := h.consumeUe ..

theorem MemOk.loadGlb (h : MemOk s) (a r hs) : TryOk (s.loadGlb a r hs) := by
  unfold State.loadGlb
  refine .ite trivial ?_
  dsimp only
  split
  · exact (h.readSector ..).consume ..
  · split
    · exact (h.foldl (fun _ _ k => ((k.atHome ..).combine ..).readSector ..) _).consume ..
    · split
      · exact (h.foldl (fun _ _ k => ((k.atHome ..).combine ..).readSector ..) _).consume ..
      · refine .ite (((h.foldl (fun _ _ k => ((k.atHome ..).combine ..).readSector ..) _).updCore ..).putRegs ..) ?_
        exact ((h.foldl (fun _ _ k => ((k.atHome ..).combine ..).readSector ..) _).updCore ..).putRegs ..

theorem MemOk.storeNtTo (h : MemOk s) (host core ctx line data m) : MemOk
  (s.storeNtTo host core ctx line data m) := by
  unfold State.storeNtTo
  refine .ite (h.storeNt ..) ?_
  dsimp only
  split
  · refine .ite ?_ ?_
    · dsimp only [MemOk]
      exact h.updCore ..
    · dsimp only [MemOk]
      exact h.updCore ..
  · dsimp only [MemOk]
    exact h.updCore ..

theorem MemOk.storeLines (h : MemOk s) (core n hs l) : Okay MemOk (s.storeLines core n hs l) := by
  induction l generalizing s with
  | nil => exact .ok h
  | cons x r ih =>
    unfold State.storeLines
    dsimp only
    split
    · exact .error _
    · next eq => exact ih (MemOk.of_snd (h.storeL1 ..) eq)

theorem MemOk.storeGlb (h : MemOk s) (a ctx r hs) : TryOk (s.storeGlb a ctx r hs) := by
  unfold State.storeGlb
  refine .ite (h.foldl (fun _ _ k => k.storeNtTo ..) _) ?_
  split
  · next eq =>
    have k := (h.storeLines ..).get eq
    exact k
  · refine .ite ?_ trivial
    exact h.capacity ..

theorem MemOk.detScr (h : MemOk s) (who store n l) : Okay MemOk (s.detScr who store n l) := by
  induction l generalizing s with
  | nil => exact .ok h
  | cons x r ih =>
    unfold State.detScr
    split
    · exact .error _
    · exact ih (h.updCore ..)

theorem MemOk.detGlb (h : MemOk s) (core who store n es) : Okay MemOk (s.detGlb core who store n es) := by
  unfold State.detGlb
  split
  · exact .error _
  · exact .ok (h.updCore ..)

theorem MemOk.redetGlb (h : MemOk s) (core g store n es) : MemOk (s.redetGlb core g store n es) := by
  unfold State.redetGlb
  refine .ite ?_ h
  split
  · next eq =>
    have k := (h.detGlb ..).get eq
    exact k
  · exact h

theorem MemOk.scrAccess (h : MemOk s) (a g r store ps) : TryOk (s.scrAccess a g r store ps) := by
  unfold State.scrAccess
  refine .ite trivial ?_
  split
  · exact h
  · next eq =>
    have k := (Okay.ite (h.detScr ..) (.ok h)).get eq
    refine .ite (k.foldl (fun _ _ k1 => k1.storeScr ..) _) ?_
    split
    · exact k.consume ..
    · exact k.putRegs ..

theorem MemOk.windowAccess (h : MemOk s) (a r store es) : TryOk (s.windowAccess a r store es) := by
  unfold State.windowAccess
  refine .ite ?_ ?_
  · exact h.foldl (fun _ _ k => k.updCore ..) _
  · exact h.putRegs ..

theorem MemOk.checkGlb (h : MemOk s) (core ctx n need ks) : MemOk (s.checkGlb core ctx n need ks).2 := by
  unfold State.checkGlb
  dsimp only
  split
  · exact h.setDesc ..
  · exact (h.setDesc ..).extentsMet ..

theorem MemOk.tryGlb (h : MemOk s) (a g r store ks) : TryOk (s.tryGlb a g r store ks) := by
  unfold State.tryGlb
  refine .ite ?_ ?_
  · split
    · exact h
    · exact h.windowAccess ..
  · dsimp only
    split
    · next eq =>
      have k := MemOk.of_snd (h.checkGlb ..) eq
      exact k
    · next eq =>
      have k := MemOk.of_snd (h.checkGlb ..) eq
      exact k
    · next eq =>
      have k := MemOk.of_snd (h.checkGlb ..) eq
      refine .ite trivial ?_
      split
      · exact k
      · next eq =>
        have k1 := (Okay.ite (k.detGlb ..) (.ok k)).get eq
        refine .ite ?_ ?_
        · exact (k.storeGlb ..).map fun _ k2 => k2.redetGlb ..
        · exact k1.loadGlb ..

theorem MemOk.closeIf (h : MemOk s) (b done) : MemOk (s.closeIf b done) := by
  unfold State.closeIf
  refine .ite ?_ h
  exact h.close ..

theorem MemOk.enterLog (h : MemOk s) (g f dests on ext closes here) : MemOk
  (s.enterLog g f dests on ext closes here) := by
  unfold State.enterLog
  refine .ite ?_ ?_
  · exact (h.updGroup ..).next.closeIf ..
  · exact ((h.updGroup ..).next.closeIf ..).fault ..

theorem MemOk.logged (h : MemOk s) (g f dests on ext closes) : Canon MemOk (s.logged g f dests on ext closes) :=
  by
  unfold State.logged
  refine .ite ?_ ?_
  · exact .error (h.park.updGroup ..)
  · exact .ok (h.enterLog ..)

theorem MemOk.unstall (h : MemOk s) (g f dests on ext closes) : Canon MemOk
  (s.unstall g f dests on ext closes) := by
  unfold State.unstall
  refine .ite ?_ ?_
  · exact .error trivial
  · exact .ok (h.enterLog ..)

theorem MemOk.settleTry (h : MemOk s) (g f dests closes) {t : Try} (ht : TryOk t) :
    Canon MemOk (s.settleTry g f dests closes t) := by
  unfold State.settleTry
  split
  · exact h.unstall ..
  · cases t with
    | trap k u => exact MemOk.raise (s := u) ht k
    | absent on ext u => exact MemOk.logged (s := u) ht ..
    | wait | park => exact .error trivial
    | gone u => exact .error ht
    | done u => exact .ok ((MemOk.next (s := u) ht).closeIf ..)
    | fly rest u => exact .ok ((MemOk.updGroup (s := u) ht ..).next.closeIf ..)

theorem MemOk.arrived (h : MemOk s) (core slot id done) : MemOk (s.arrived core slot id done) :=
  h.updGroup ..

theorem MemOk.homeFault (h : MemOk s) (core slot g f mine t) : MemOk (s.homeFault core slot g f mine t) := by
  unfold State.homeFault
  refine .ite ?_ ?_
  · exact ((h.setGroup ..).arrived ..).takeRec ..
  · exact ((h.setGroup ..).arrived ..).takeRec ..

theorem MemOk.offline (h : MemOk s) (core q mine) : MemOk (s.offline core q mine) := by
  unfold State.offline
  split
  · exact h
  · split
    · exact h
    · split
      · exact h
      · exact h.homeFault ..

theorem MemOk.serve (h : MemOk s) (core line data bad q) : MemOk (s.serve core line data bad q) := by
  unfold State.serve
  split
  · exact h
  · split
    · exact h
    · dsimp only
      split
      · exact h.consume ..
      · exact ((h.redetGlb ..).putRegs ..).arrived ..

theorem MemOk.filled (h : MemOk s) (f) : MemOk (s.filled f) :=
  (h.install ..).foldl (fun _ _ k => k.serve ..) _

theorem MemOk.execFill (h : MemOk s) (n) : OutCanon (execFill n s) := by
  unfold Machine.execFill
  split
  · exact .next h
  · refine .ite ?_ ?_
    · refine .ite ?_ ?_
      · exact .next h
      · exact .next ((h.upd.reachedBy ..).foldl (fun _ _ k => k.offline ..) _)
    · refine .ite (.next h) ?_
      refine .ite ?_ ?_
      · exact .next ((h.upd.reachedBy ..).homeLine ..)
      · exact .next ((h.upd.reachedBy ..).filled ..)

theorem MemOk.flushed (h : MemOk s) (core f) : MemOk (s.flushed core f) := by
  unfold State.flushed
  dsimp only
  split
  · exact ((h.sendCommits ..).keepAcks ..).foldl (fun _ _ k => k.dropCopy ..) _
  · split
    · exact ((h.sendCommits ..).keepAcks ..).foldl (fun _ _ k => k.dropCopy ..) _
    · refine MemOk.updGroup ?_ ..
      refine .ite ?_ ?_
      · exact (((h.sendCommits ..).keepAcks ..).foldl (fun _ _ k => k.dropCopy ..) _).putRegs ..
      · exact ((h.sendCommits ..).keepAcks ..).foldl (fun _ _ k => k.dropCopy ..) _

theorem MemOk.flushAck (h : MemOk s) (core a) : MemOk (s.flushAck core a) := by
  unfold State.flushAck
  split
  · exact h
  · refine .ite ?_ ?_
    · exact (h.updCore ..).flushed ..
    · exact h.updCore ..

theorem MemOk.execPublicationAck (h : MemOk s) (n) : OutCanon (execPublicationAck n s) := by
  unfold Machine.execPublicationAck
  split
  · exact .next h
  · exact .next ((h.upd.updCore ..).flushAck ..)

end Sys2Proof
end

section
/-! SUPPORT. Device memory stays canonical: what the functions of `Sys2Proof/Machine/Mem.lean` do to it. -/

namespace Sys2Proof
open Machine Slice0
variable {s : Machine.State}
set_option Elab.async false

theorem uCheck_canon (g x u t lo rs) : Canon (fun _ => True) (uCheck g x u t lo rs) := by
  unfold Machine.uCheck
  split
  · exact trapAt_canon ..
  · exact .ok trivial

theorem MemOk.memM (h : MemOk s) (c) {k : Group → Core → LaneMask → Nat → M Machine.State}
    (hk : ∀ g x t lo, Canon MemOk (k g x t lo)) : Canon MemOk (s.memM c k) := by
  unfold State.memM
  refine agent_canon.check fun _ => ?_
  dsimp only
  split
  · exact .ok h.next
  · exact hk ..

theorem MemOk.fifoM (h : MemOk s) (req store as) : Canon MemOk (s.fifoM req store as) := by
  unfold State.fifoM
  dsimp only
  split
  · exact trapAddr_canon ..
  · refine .ite ?_ ?_
    · split
      · exact .error trivial
      · exact .ok ((h.setCore ..).next.close ..)
    · split
      · exact .error trivial
      · exact .ok (((h.setCore ..).putRegs ..).next.close ..)

theorem MemOk.scrM (h : MemOk s) (g clu store r dests es) : Canon MemOk (s.scrM g clu store r dests es) := by
  unfold State.scrM
  dsimp only
  split
  · exact .error trivial
  · exact h.settleTry _ _ _ _ (h.scrAccess ..)

theorem MemOk.glbM (h : MemOk s) (g store r dests ks) : Canon MemOk (s.glbM g store r dests ks) :=
  h.settleTry _ _ _ _ (h.tryGlb ..)

theorem MemOk.ldstM (h : MemOk s) (c m store d a) : Canon MemOk (s.ldstM c m store d a) := by
  unfold State.ldstM
  refine h.memM _ fun _ _ _ _ => ?_
  refine (needRegs_canon ..).check fun _ => ?_
  refine (waitClass_canon ..).check fun _ => ?_
  refine (uCheck_canon ..).check fun _ => ?_
  dsimp only
  split
  · exact h.glbM ..
  · exact h.scrM ..
  · exact h.scrM ..
  · exact h.fifoM ..

theorem MemOk.execLd (h : MemOk s) (c m d a) : OutCanon (execLd c m d a s) := h.run (h.ldstM ..)

theorem MemOk.execSt (h : MemOk s) (c m a b) : OutCanon (execSt c m a b s) := h.run (h.ldstM ..)

theorem MemOk.fragM (h : MemOk s) (c m store d a b) : Canon MemOk (s.fragM c m store d a b) := by
  unfold State.fragM
  refine h.memM _ fun _ _ _ _ => ?_
  refine (needRegs_canon ..).check fun _ => ?_
  refine (trapIf_canon ..).check fun _ => ?_
  refine (needRegs_canon ..).check fun _ => ?_
  refine (waitClass_canon ..).check fun _ => ?_
  refine (uCheck_canon ..).check fun _ => ?_
  dsimp only
  split
  · exact h.glbM ..
  · exact h.scrM ..
  · exact h.scrM ..
  · exact trapAt_canon ..

theorem MemOk.execLdf (h : MemOk s) (c m d a b) : OutCanon (execLdf c m d a b s) := h.run (h.fragM ..)

theorem MemOk.execStf (h : MemOk s) (c m d a b) : OutCanon (execStf c m d a b s) := h.run (h.fragM ..)

theorem MemOk.prefM (h : MemOk s) (c m a) : Canon MemOk (s.prefM c m a) := by
  unfold State.prefM
  refine h.memM _ fun _ _ _ _ => ?_
  refine (needRegs_canon ..).check fun _ => ?_
  refine (uCheck_canon ..).check fun _ => ?_
  dsimp only
  split
  · exact (h.setDesc ..).raise ..
  · refine .ite (.ok h.next) ?_
    split
    · exact ((h.setDesc ..).extentsMet ..).raise ..
    · refine .ok ?_
      refine MemOk.next ?_ ..
      dsimp only [MemOk]
      exact (h.setDesc ..).extentsMet ..

theorem MemOk.execPref (h : MemOk s) (c m a) : OutCanon (execPref c m a s) := h.run (h.prefM ..)

theorem MemOk.writeBack (h : MemOk s) (g t d flag p drops) : MemOk (s.writeBack g t d flag p drops) := by
  unfold State.writeBack
  refine .ite ?_ ?_
  · exact ((h.newJob.sendWords ..).foldl (fun _ _ k => k.dropCopy ..) _).next
  · exact (((h.newJob.sendWords ..).updCore ..).updGroup ..).next

theorem MemOk.cflushM (h : MemOk s) (p m a) : Canon MemOk (s.cflushM p m a) := by
  unfold State.cflushM
  refine h.memM _ fun _ _ _ _ => ?_
  refine (needRegs_canon ..).check fun _ => ?_
  refine (waitClass_canon ..).check fun _ => ?_
  dsimp only
  split
  · exact (h.setDesc ..).raise ..
  · refine .ite (.ok h.next) ?_
    split
    · exact ((h.setDesc ..).extentsMet ..).raise ..
    · exact .ok (((h.setDesc ..).extentsMet ..).writeBack ..)

theorem MemOk.execCflush (h : MemOk s) (p m a) : OutCanon (execCflush p m a s) := h.run (h.cflushM ..)

theorem MemOk.rangeMet (h : MemOk s) (cl ctx on d ofs n) : MemOk (s.rangeMet cl ctx on d ofs n) :=
  h.foldl (fun _ _ k => k.extentFill ..) _

theorem MemOk.discard (h : MemOk s) (core line) : MemOk (s.discard core line) := (h.updCore ..).dropCopy ..

theorem MemOk.cinvRange (h : MemOk s) (g t nowb grantD d rs) : MemOk (s.cinvRange g t nowb grantD d rs) := by
  unfold State.cinvRange
  refine MemOk.writeBack ?_ ..
  refine h.foldl (fun _ _ k => ?_) _
  refine .ite (k.discard ..) ?_
  refine .ite ?_ k
  exact k.dropCopy ..

theorem MemOk.cinvM (h : MemOk s) (p nowb d a b ofs) : Canon MemOk (s.cinvM p nowb d a b ofs) := by
  unfold State.cinvM
  refine h.groupM _ fun _ _ _ => ?_
  refine (needRegs_canon ..).check fun _ => ?_
  refine (waitClass_canon ..).check fun _ => ?_
  refine .ite (.ok h.next) ?_
  dsimp only
  split
  · exact trapAddr_canon ..
  · split
    · exact (h.setDesc ..).raise ..
    · refine .ite ?_ ?_
      · exact .ok h.next
      · exact .ok (((h.setDesc ..).rangeMet ..).cinvRange ..)

theorem MemOk.execCinv (h : MemOk s) (p a b ofs) : OutCanon (execCinv p a b ofs s) := h.run (h.cinvM ..)

theorem MemOk.execCinvNowb (h : MemOk s) (p d a b ofs) : OutCanon (execCinvNowb p d a b ofs s) :=
  h.run (h.cinvM ..)

end Sys2Proof
end

section
/-! SUPPORT. Device memory stays canonical: what the functions of `Sys2Proof/Machine/Atomic.lean` do to it. -/

namespace Sys2Proof
open Machine Slice0
variable {s : Machine.State}
set_option Elab.async false

theorem MemOk.tryAtom (h : MemOk s) (a g r ks) : TryOk (s.tryAtom a g r ks) := by
  unfold State.tryAtom
  split
  · next eq =>
    have k := MemOk.of_snd (h.checkGlb ..) eq
    exact k
  · next eq =>
    have k := MemOk.of_snd (h.checkGlb ..) eq
    exact k
  · next eq =>
    have k := MemOk.of_snd (h.checkGlb ..) eq
    exact .ite trivial k.upd

theorem MemOk.atomReply (h : MemOk s) (q olds) : MemOk (s.atomReply q olds) := by
  unfold State.atomReply
  split
  · exact h
  · split
    · exact h
    · refine MemOk.arrived ?_ ..
      refine .ite ?_ h
      exact h.putRegs ..

theorem MemOk.atomHome (h : MemOk s) (q) : MemOk (s.atomHome q) := by
  unfold State.atomHome
  refine .ite ?_ (((((h.atHome ..).readSector ..).putHome ..).updTeam ..).atomReply ..)
  dsimp only
  split
  · exact (h.atHome ..).readSector ..
  · split
    · exact (h.atHome ..).readSector ..
    · exact ((h.atHome ..).readSector ..).consume ..

theorem MemOk.execAtomicRequest (h : MemOk s) (n) : OutCanon (execAtomicRequest n s) := by
  unfold Machine.execAtomicRequest
  split
  · exact .next h
  · refine .ite ?_ ?_
    · refine .ite ?_ ?_
      · exact .next h
      · exact .next ((h.upd.reachedBy ..).offline ..)
    · refine .ite ?_ ?_
      · exact .next h
      · exact .next ((h.upd.reachedBy ..).atomHome ..)

theorem MemOk.scrSets (h : MemOk s) (a r ps l) : MemOk (s.scrSets a r ps l) := by
  induction l generalizing s with
  | nil => exact h
  | cons p rest ih =>
    unfold State.scrSets
    exact ih (.ite ((h.storeScr ..).putRegs ..) (h.storeScr ..))

theorem MemOk.atomScr (h : MemOk s) (a r ps) : TryOk (s.atomScr a r ps) := by
  unfold State.atomScr
  refine .ite trivial ?_
  split
  · exact h.consume ..
  · exact h.scrSets ..

theorem MemOk.atomM (h : MemOk s) (c m k1 dest a b) : Canon MemOk (s.atomM c m k1 dest a b) := by
  unfold State.atomM
  refine h.memM _ fun _ _ _ _ => ?_
  refine (needRegs_canon ..).check fun _ => ?_
  refine (waitClass_canon ..).check fun _ => ?_
  refine (uCheck_canon ..).check fun _ => ?_
  dsimp only
  split
  · exact h.settleTry _ _ _ _ (h.tryAtom ..)
  · split
    · exact .error trivial
    · exact h.settleTry _ _ _ _ (h.atomScr ..)
  · split
    · exact .error trivial
    · exact h.settleTry _ _ _ _ (h.atomScr ..)
  · exact trapAt_canon ..

theorem MemOk.execAtom (h : MemOk s) (c m op d a b) : OutCanon (execAtom c m op d a b s) :=
  h.run (h.atomM ..)

theorem MemOk.execAtcas (h : MemOk s) (c m d a b) : OutCanon (execAtcas c m d a b s) := h.run (h.atomM ..)

theorem MemOk.execRed (h : MemOk s) (c m op a b) : OutCanon (execRed c m op a b s) := h.run (h.atomM ..)

theorem MemOk.spillPoint (h : MemOk s) (core) : SomeOk MemOk (s.spillPoint core) := by
  unfold State.spillPoint
  split
  · exact .some h
  · refine .ite .none ?_
    exact .some (((h.publishNow ..).movePartials ..).acquire ..)

theorem MemOk.spill (h : MemOk s) (core) : MemOk (s.spill core) := by
  unfold State.spill
  split
  · exact h
  · refine .ite (h.updCore ..) ?_
    refine .ite ?_ ?_
    · dsimp only [MemOk]
      exact h.updCore ..
    · dsimp only [MemOk]
      exact h.updCore ..

theorem MemOk.pin (h : MemOk s) (core line efmt) : SomeOk MemOk (s.pin core line efmt) := by
  unfold State.pin
  refine .ite (.some h) ?_
  have room : SomeOk MemOk (if (s.core core).partials.length ≥ 64 then (s.spillPoint core).map fun t =>
    t.spill core
      else some s) := .ite ((h.spillPoint core).map fun _ k => k.spill core) (.some h)
  split
  · exact .none
  · next eq =>
    have k := room.get eq
    refine .ite .none ?_
    split
    · exact .none
    · next eq => exact .some ((MemOk.of_snd (k.allocWay ..) eq).updCore ..)

theorem MemOk.addOpen (h : MemOk s) (core line efmt k1 v) : MemOk (s.addOpen core line efmt k1 v) :=
  h.updCore ..

theorem MemOk.caddAll (h : MemOk s) (core hs l) : Okay MemOk (s.caddAll core hs l) := by
  induction l generalizing s with
  | nil => exact .ok h
  | cons x r ih =>
    unfold State.caddAll
    dsimp only
    split
    · exact .error _
    · next eq => exact ih (((h.pin ..).get eq).addOpen ..)

theorem MemOk.tryCadd (h : MemOk s) (a g ks) : TryOk (s.tryCadd a g ks) := by
  have met := fun q l => (h.setDesc a.core q).extentsMet a.core g.ctx l
  unfold State.tryCadd
  dsimp only
  split
  · exact h.setDesc ..
  · split
    · exact met ..
    · exact met ..
    · refine .ite trivial ?_
      split
      · exact .ite ((met ..).capacity ..) trivial
      · next eq => exact ((met ..).caddAll ..).get eq

theorem MemOk.caddM (h : MemOk s) (c a b ofs) : Canon MemOk (s.caddM c a b ofs) :=
  h.memM _ fun _ _ _ _ => (needRegs_canon ..).check fun _ => (waitClass_canon ..).check fun _ =>
    (uCheck_canon ..).check fun _ => h.settleTry _ _ _ _ (h.tryCadd ..)

theorem MemOk.execCadd (h : MemOk s) (c a b ofs) : OutCanon (execCadd c a b ofs s) := h.run (h.caddM ..)

end Sys2Proof
end

section
/-! SUPPORT. Device memory stays canonical: what the functions of `Sys2Proof/Machine/Float.lean` do to it. -/

namespace Sys2Proof
open Machine Slice0
variable {s : Machine.State}
set_option Elab.async false

theorem MemOk.execFadd (h : MemOk s) (c ty d a b) : OutCanon (execFadd c ty d a b s) := h.vec ..

theorem MemOk.execFsub (h : MemOk s) (c ty d a b) : OutCanon (execFsub c ty d a b s) := h.vec ..

theorem MemOk.execFmul (h : MemOk s) (c ty d a b) : OutCanon (execFmul c ty d a b s) := h.vec ..

theorem MemOk.execFfma (h : MemOk s) (c ty d a b) : OutCanon (execFfma c ty d a b s) := h.vec ..

theorem MemOk.execFmin (h : MemOk s) (c ty d a b) : OutCanon (execFmin c ty d a b s) := h.vec ..

theorem MemOk.execFmax (h : MemOk s) (c ty d a b) : OutCanon (execFmax c ty d a b s) := h.vec ..

theorem MemOk.execFdot2 (h : MemOk s) (c ty d a b) : OutCanon (execFdot2 c ty d a b s) := h.vec ..

theorem MemOk.execFscale (h : MemOk s) (c ty rm ma d a b) : OutCanon (execFscale c ty rm ma d a b s) :=
  h.vec ..

theorem MemOk.execFrnd (h : MemOk s) (c ty rm ma d a) : OutCanon (execFrnd c ty rm ma d a s) := h.vec ..

theorem MemOk.execFclamp (h : MemOk s) (c ty d a b) : OutCanon (execFclamp c ty d a b s) := h.vec ..

theorem MemOk.execFamax (h : MemOk s) (c ty d a b) : OutCanon (execFamax c ty d a b s) := h.vec ..

theorem MemOk.execFclass (h : MemOk s) (c ty d a) : OutCanon (execFclass c ty d a s) := h.vec ..

theorem MemOk.execFcmp (h : MemOk s) (c ty cond d a b) : OutCanon (execFcmp c ty cond d a b s) := h.vec ..

theorem MemOk.execFrcp (h : MemOk s) (c ma d a) : OutCanon (execFrcp c ma d a s) := h.vec ..

theorem MemOk.execFrsq (h : MemOk s) (c ma d a) : OutCanon (execFrsq c ma d a s) := h.vec ..

theorem MemOk.execFsqrt (h : MemOk s) (c ma d a) : OutCanon (execFsqrt c ma d a s) := h.vec ..

theorem MemOk.execFexp2 (h : MemOk s) (c ma d a) : OutCanon (execFexp2 c ma d a s) := h.vec ..

theorem MemOk.execFlog2 (h : MemOk s) (c ma d a) : OutCanon (execFlog2 c ma d a s) := h.vec ..

theorem MemOk.execFsin (h : MemOk s) (c ma d a) : OutCanon (execFsin c ma d a s) := h.vec ..

theorem MemOk.execFcos (h : MemOk s) (c ma d a) : OutCanon (execFcos c ma d a s) := h.vec ..

theorem MemOk.execFsigm (h : MemOk s) (c ma d a) : OutCanon (execFsigm c ma d a s) := h.vec ..

theorem MemOk.execFtanh (h : MemOk s) (c ma d a) : OutCanon (execFtanh c ma d a s) := h.vec ..

theorem MemOk.execCvt (h : MemOk s) (c dst sf sei dei d a) : OutCanon (execCvt c dst sf sei dei d a s) := by
  unfold Machine.execCvt
  split
  · exact h.vec ..
  · exact h.run (h.slotVecM ..)

theorem MemOk.execNpack (h : MemOk s) (c slot d a b) : OutCanon (execNpack c slot d a b s) :=
  h.run (h.slotVecM ..)

theorem MemOk.execNunpk (h : MemOk s) (c d a b) : OutCanon (execNunpk c d a b s) := h.vec ..

theorem MemOk.execScaleq (h : MemOk s) (c slot d a) : OutCanon (execScaleq c slot d a s) := by
  unfold Machine.execScaleq
  split
  · exact .fault _
  · exact h.run (h.slotVecM ..)

end Sys2Proof
end

section
/-! SUPPORT. Device memory stays canonical: what the functions of `Sys2Proof/Machine/Issue.lean` do to it. -/

namespace Sys2Proof
open Machine Slice0
variable {s : Machine.State}
set_option Elab.async false

theorem MemOk.pickWord (h : MemOk s) (w) : PickOk (pickWord s w) := by
  unfold Machine.pickWord
  split
  · exact h
  · exact h.takeTrap ..
  · exact h.takeTrap ..

theorem MemOk.turn (h : MemOk s) (core slot m pc w) : MemOk (s.turn core slot m pc w) := h.same rfl

theorem MemOk.pickStream (h : MemOk s) (core slot g f) : PickOk (pickStream s core slot g f) := by
  unfold Machine.pickStream
  dsimp only
  split
  · exact (((h.setGroup ..).fetched ..).turn ..).pickWord ..
  · exact (((h.setGroup ..).fetched ..).turn ..).takeTrap ..
  · exact ((h.setGroup ..).fetched ..).fault ..
  · exact (h.setGroup ..).fetched ..

theorem MemOk.pickBuf (h : MemOk s) (core slot g i) : PickOk (pickBuf s core slot g i) := by
  unfold Machine.pickBuf
  split
  · exact trivial
  · split
    · exact trivial
    · exact ((h.setGroup ..).turn ..).pickWord ..

theorem MemOk.parkAgain (h : MemOk s) (p core slot) : PickOk (Park.again p s core slot) :=
  (h.turn ..).pickWord ..

theorem MemOk.pickNext (h : MemOk s) (core slot g0) : PickOk (s.pickNext core slot g0) := by
  unfold State.pickNext
  split
  · exact h.parkAgain ..
  · dsimp only
    split
    · exact trivial
    · exact h.pickStream ..
    · exact h.pickBuf ..
    · refine .ite ?_ ?_
      · exact h.pickBuf ..
      · exact h.pickStream ..

theorem MemOk.pickStop (h : MemOk s) (core slot g) : PickOk (s.pickStop core slot g) := by
  unfold State.pickStop
  refine .ite ?_ ?_
  · exact h.tryClose ..
  · exact h.tryStop ..

theorem MemOk.pick (h : MemOk s) (core slot) : PickOk (s.pick core slot) := by
  unfold State.pick
  split
  · exact trivial
  · split
    · exact h.parkAgain ..
    · refine .ite (h.pickStop ..) ?_
      refine .ite trivial ?_
      split
      · exact h.takeWaiting ..
      · refine .ite trivial ?_
        refine .ite ?_ ?_
        · exact h.tryClose ..
        · exact h.pickNext ..

end Sys2Proof
end

section
/-! SUPPORT. Device memory stays canonical: what the functions of `Sys2Proof/Machine/Ink.lean` do to it. -/

namespace Sys2Proof
open Machine Slice0
variable {s : Machine.State}
set_option Elab.async false

theorem MemOk.send (h : MemOk s) (peer typ jtag cid chunk len payload) : MemOk
  (s.send peer typ jtag cid chunk len payload).2 :=
  h.same rfl

theorem MemOk.inkHome (h : MemOk s) (pa m dev) : MemOk (s.inkHome pa m dev).2.2.2 := by
  have home := h.atHome (pa / 128)
  have read := home.readSector (sectorOf pa)
  unfold State.inkHome
  dsimp only
  split
  · exact (home.markPoison ..).healthRec ..
  split
  · exact read
  split
  · exact read.markPoison ..
  split
  · exact read
  · exact .ite ((read.putHome ..).inkNotices ..) (read.putHome ..)

theorem MemOk.installDecided (h : MemOk s) (core d away) : MemOk (s.installDecided core d away) := by
  unfold State.installDecided
  refine .ite ?_ ?_
  · refine .ite ?_ h
    exact (h.sliceRoom ..).updDie ..
  · split
    · refine .ite ?_ h
      exact (h.sliceRoom ..).updDie ..
    · next eq =>
      have k := ((MemOk.ite ((h.sliceRoom ..).updDie ..) h).makeWay ..).get eq
      exact k.updCore ..

theorem MemOk.inkMet (h : MemOk s) (core ctx l) : MemOk (s.inkMet core ctx l) := by
  unfold State.inkMet
  refine h.foldl (fun _ _ k => ?_) _
  split
  · exact k.extentMet ..
  · exact k

theorem MemOk.inkSend (h : MemOk s) (a g op low q) : MemOk (s.inkSend a g op low q) := by
  unfold State.inkSend
  dsimp only
  split
  · exact h.upd
  · refine .ite h.upd ?_
    refine .ite (.ite h.upd h.upd) ?_
    dsimp only [MemOk]
    exact h.send ..

theorem MemOk.tryInk (h : MemOk s) (a g op ks) : TryOk (s.tryInk a g op ks) := by
  unfold State.tryInk
  dsimp only
  split
  · exact h.setDesc ..
  · split
    · exact (h.setDesc ..).inkMet ..
    · refine .ite trivial ?_
      exact ((h.setDesc ..).inkMet ..).foldl (fun _ _ k => k.inkSend ..) _

theorem MemOk.inkM (h : MemOk s) (c op d a val cc cell) : Canon MemOk (s.inkM c op d a val cc cell) :=
  h.memM _ fun _ _ _ _ => (needRegs_canon ..).check fun _ => (waitClass_canon ..).check fun _ =>
    (uCheck_canon ..).check fun _ => h.settleTry _ _ _ _ (h.tryInk ..)

theorem MemOk.execInkp (h : MemOk s) (c d a b cc cell) : OutCanon (execInkp c d a b cc cell s) :=
  h.run (h.inkM ..)

theorem MemOk.execInkrG (h : MemOk s) (c d a cc cell) : OutCanon (execInkrG c d a cc cell s) :=
  h.run (h.inkM ..)

theorem MemOk.execInkrH (h : MemOk s) (c d a cc cell) : OutCanon (execInkrH c d a cc cell s) :=
  h.run (h.inkM ..)

theorem MemOk.execInkc (h : MemOk s) (c d a cc cell) : OutCanon (execInkc c d a cc cell s) :=
  h.run (h.inkM ..)

theorem MemOk.unwatch (h : MemOk s) (core slot) : MemOk (s.unwatch core slot) :=
  (h.dropWatches ..).updGroup ..

theorem MemOk.setWatch (h : MemOk s) (core slot dev seq ptr gen line) : MemOk
  (s.setWatch core slot dev seq ptr gen line) := by
  unfold State.setWatch
  refine MemOk.updGroup ?_ ..
  split
  · refine .ite ?_ ?_
    · exact (h.unwatch ..).updDir ..
    · exact h.unwatch ..
  · exact h.unwatch ..

theorem MemOk.leaveWatch (h : MemOk s) (q status w1 line) : MemOk (s.leaveWatch q status w1 line) := by
  unfold State.leaveWatch
  refine .ite ?_ h
  exact h.setWatch ..

theorem MemOk.execInkHomeStep (h : MemOk s) (n) : OutCanon (execInkHomeStep n s) := by
  unfold Machine.execInkHomeStep
  split
  · exact .next h
  · refine .ite (.next h) ?_
    have came := (h.upd (t := { s with inks := listDrop1 s.inks n })).reachedBy
    refine .ite (.next (came ..).upd) (.next ?_)
    exact (((came ..).inkHome ..).leaveWatch ..).upd

theorem MemOk.inkFault (h : MemOk s) (q g f cause) : MemOk (s.inkFault q g f cause) := h.homeFault ..

theorem MemOk.execInkReply (h : MemOk s) (n) : OutCanon (execInkReply n s) := by
  unfold Machine.execInkReply
  split
  · exact .next h
  · dsimp only
    split
    · exact .next h.upd
    · refine .ite (.next (h.upd.inkFault ..)) ?_
      refine .next ?_
      refine .ite ?_ ?_
      · refine MemOk.updTeam ?_ ..
        refine MemOk.updGroup ?_ ..
        refine MemOk.arrived ?_ ..
        refine MemOk.putRegs ?_ ..
        refine .ite ?_ h.upd
        exact h.upd.installDecided ..
      · refine MemOk.updGroup ?_ ..
        refine MemOk.arrived ?_ ..
        refine MemOk.putRegs ?_ ..
        refine .ite ?_ h.upd
        exact h.upd.installDecided ..

theorem MemOk.execInkTimeout (h : MemOk s) (n) : OutCanon (execInkTimeout n s) := by
  unfold Machine.execInkTimeout
  split
  · exact .next h
  · exact .next h.upd

theorem MemOk.inkAnswer (h : MemOk s) (h1 m w0 w1 cause) : MemOk (s.inkAnswer h1 m w0 w1 cause) :=
  h.upd.answer ..

theorem MemOk.podLeave (h : MemOk s) (h1 m line gen) : MemOk (s.podLeave h1 m line gen) := by
  unfold State.podLeave
  refine .ite ?_ ?_
  · exact h.upd.updDir ..
  · exact h.upd.podNotice ..

theorem MemOk.inkServe (h : MemOk s) (hd m ctx) : MemOk (s.inkServe hd m ctx) := by
  unfold State.inkServe
  split
  · exact h.inkAnswer ..
  · exact h.fault ..
  · refine .ite (h.inkAnswer ..) (.ite h ?_)
    exact .ite (((h.inkHome ..).inkAnswer ..).podLeave ..) ((h.inkHome ..).inkAnswer ..)

theorem MemOk.inkHeld (h : MemOk s) (h1 m ctx) : MemOk (s.inkHeld h1 m ctx) := by
  unfold State.inkHeld
  split
  · refine .ite ?_ ?_
    · exact h.later ..
    · exact h.inkServe ..
  · exact h.inkServe ..

theorem MemOk.inkAgain (h : MemOk s) (h1 m ctx) : MemOk (s.inkAgain h1 m ctx) := by
  unfold State.inkAgain
  refine .ite h ?_
  exact h.inkHeld ..

theorem MemOk.chore (h : MemOk s) (f) : MemOk (s.chore f) := by
  unfold State.chore
  split
  · split
    · exact h.inkAgain ..
    · exact h
  · exact h.doChore ..

theorem MemOk.execInkreq (h : MemOk s) (h1 m) : OutCanon (execInkreq h1 m s) := by
  unfold Machine.execInkreq
  split
  · exact .next h.upd
  · split
    · refine .next ?_
      split
      · exact h.answer ..
      · exact h
    · refine .ite ?_ ?_
      · exact .next h
      · exact .next (h.inkServe ..)

theorem MemOk.podNoticed (h : MemOk s) (h1) : MemOk (s.podNoticed h1) := .ite h h.upd

theorem MemOk.execInkrep (h : MemOk s) (h1 w0 w1 cause) : OutCanon (execInkrep h1 w0 w1 cause s) := by
  unfold Machine.execInkrep
  refine .ite (.next h.upd) ?_
  refine .ite (.next (h.podNoticed ..)) ?_
  dsimp only
  split
  · exact .next h.upd
  · refine .next ?_
    dsimp only [MemOk]
    exact h.upd.upd.leaveWatch ..

theorem MemOk.redo (h : MemOk s) (a g r) : TryOk (s.redo a g r) := by
  unfold State.redo
  dsimp only
  split
  · exact h.tryGlb ..
  · exact h.tryGlb ..
  · exact h.tryGlb ..
  · exact h.tryGlb ..
  · exact h.tryAtom ..
  · exact h.tryAtom ..
  · exact h.tryAtom ..
  · exact h.tryCadd ..
  · exact h.tryInk ..
  · exact h

theorem MemOk.execReplay (h : MemOk s) (core slot) : OutCanon (execReplay core slot s) := by
  unfold Machine.execReplay
  split
  · exact .next h
  · split
    · exact .next h
    · dsimp only
      split
      · next eq =>
        have k : MemOk _ := (h.redo ..).of eq
        exact .next ((k.updGroup ..).takeLogged ..)
      · next eq =>
        have k : MemOk _ := (h.redo ..).of eq
        exact .next ((k.updGroup ..).fault ..)
      · exact .next h
      · exact .next h
      · next eq =>
        have k : MemOk _ := (h.redo ..).of eq
        exact .next k
      · next eq =>
        have k : MemOk _ := (h.redo ..).of eq
        refine .next ?_
        refine .ite ?_ ?_
        · exact (k.updGroup ..).updTeam ..
        · exact k.updGroup ..
      · next eq =>
        have k : MemOk _ := (h.redo ..).of eq
        exact .next (k.updGroup ..)

end Sys2Proof
end

section
/-! SUPPORT. Device memory stays canonical: what the functions of `Sys2Proof/Machine/Special.lean` do to it. -/

namespace Sys2Proof
open Machine Slice0
variable {s : Machine.State}
set_option Elab.async false

theorem MemOk.sreadM (h : MemOk s) (c d srn) : Canon MemOk (s.sreadM c d srn) := by
  unfold State.sreadM
  refine h.memM _ fun _ _ _ _ => ?_
  refine (needRegs_canon ..).check fun _ => ?_
  refine .ok ?_
  split
  · exact (h.putRegs ..).next
  · exact (h.putRegs ..).next.updGroup ..
  · exact (h.putRegs ..).next.updGroup ..

theorem MemOk.execSread (h : MemOk s) (c d srn) : OutCanon (execSread c d srn s) := h.run (h.sreadM ..)

theorem MemOk.privM (h : MemOk s) (p) {k : Group → Core → LaneMask → Nat → M Machine.State}
    (hk : ∀ g x t lo, Canon MemOk (k g x t lo)) : Canon MemOk (s.privM p k) := by
  unfold State.privM
  refine firmware_canon.check fun _ => ?_
  dsimp only
  split
  · exact .ok h.next
  · exact hk ..

theorem MemOk.swriteM (h : MemOk s) (p tgt a srn) : Canon MemOk (s.swriteM p tgt a srn) := by
  unfold State.swriteM
  refine h.privM _ fun _ _ _ _ => ?_
  refine (needRegs_canon ..).check fun _ => ?_
  dsimp only
  split
  · exact .ok (h.updCore ..).next
  · split
    · exact .ok h.next
    · exact .ok (h.updGroup ..).next

theorem MemOk.execSwrite (h : MemOk s) (p tgt a srn) : OutCanon (execSwrite p tgt a srn s) :=
  h.run (h.swriteM ..)

theorem MemOk.viewM (h : MemOk s) (p k1 o) : Canon MemOk (s.viewM p k1 o) :=
  h.groupM _ fun _ _ _ => (needRegs_canon ..).check fun _ => (trapIf_canon ..).check fun _ =>
    (waitIf_canon ..).check fun _ => .ok ((h.updGroup ..).next.close ..)

theorem MemOk.execView (h : MemOk s) (p k1 o) : OutCanon (execView p k1 o s) := h.run (h.viewM ..)

theorem MemOk.segsetM (h : MemOk s) (p k1 d a b) : Canon MemOk (s.segsetM p k1 d a b) := by
  unfold State.segsetM
  refine h.privM _ fun _ _ _ _ => ?_
  refine (needRegs_canon ..).check fun _ => ?_
  refine (waitIf_canon ..).check fun _ => ?_
  refine .ok ?_
  refine MemOk.next ?_ ..
  refine MemOk.putAll ?_ ..
  refine .ite ?_ h
  exact h.setCore ..

theorem MemOk.execSegset (h : MemOk s) (p k1 d a b) : OutCanon (execSegset p k1 d a b s) :=
  h.run (h.segsetM ..)

theorem MemOk.writeRows (h : MemOk s) (core slot ws m) : MemOk (s.writeRows core slot ws m) := by
  unfold State.writeRows
  refine h.foldl (fun _ _ k => ?_) _
  refine .ite k ?_
  exact k.putWinRow ..

theorem MemOk.queueCopy (h : MemOk s) (ws lo) : MemOk (s.queueCopy ws lo) := (h.writeRows ..).updGroup ..

theorem MemOk.rcopyM (h : MemOk s) (p a b rows) : Canon MemOk (s.rcopyM p a b rows) :=
  h.groupM _ fun _ _ _ => (needRegs_canon ..).check fun _ => (waitClass_canon ..).check fun _ =>
    (trapIf_canon ..).check fun _ => (trapIf_canon ..).check fun _ => (waitIf_canon ..).check fun _ =>
    .ok (h.queueCopy ..).next

theorem MemOk.execRcopy (h : MemOk s) (p a b rows) : OutCanon (execRcopy p a b rows s) :=
  h.run (h.rcopyM ..)

end Sys2Proof
end

section
/-! SUPPORT. Device memory stays canonical: what the functions of `Sys2Proof/Machine/Sealing.lean` do to it. -/

namespace Sys2Proof
open Machine Slice0
variable {s : Machine.State}
set_option Elab.async false

theorem MemOk.sealM (h : MemOk s) (c d a) : Canon MemOk (s.sealM c d a) := by
  unfold State.sealM
  refine h.memM _ fun _ _ _ _ => ?_
  refine (needRegs_canon ..).check fun _ => ?_
  refine (waitClass_canon ..).check fun _ => ?_
  refine (uCheck_canon ..).check fun _ => ?_
  dsimp only
  split
  · exact trapAddr_canon ..
  · refine (parkIf_canon ..).check fun _ => ?_
    split
    · exact (h.setDesc ..).raise ..
    · refine .ok ?_
      refine MemOk.close ?_ ..
      refine MemOk.next ?_ ..
      refine .ite ?_ ?_
      · exact (h.setCore ..).putAll ..
      · exact (h.setCore ..).putRegs ..

theorem MemOk.execSeal (h : MemOk s) (c d a) : OutCanon (execSeal c d a s) := h.run (h.sealM ..)

theorem MemOk.sealRelM (h : MemOk s) (c a) : Canon MemOk (s.sealRelM c a) := by
  unfold State.sealRelM
  refine h.memM _ fun _ _ _ _ => ?_
  refine (needRegs_canon ..).check fun _ => ?_
  refine (uCheck_canon ..).check fun _ => ?_
  dsimp only
  split
  · exact trapAt_canon ..
  · exact .ok ((h.updCore ..).next.close ..)

theorem MemOk.execSealRel (h : MemOk s) (c a) : OutCanon (execSealRel c a s) := h.run (h.sealRelM ..)

theorem MemOk.execHqry (h : MemOk s) (c d a sel) : OutCanon (execHqry c d a sel s) :=
  h.run (h.memM _ fun _ _ _ _ => (needRegs_canon ..).check fun _ => (uCheck_canon ..).check fun _ =>
    .ok (h.putRegs ..).next)

end Sys2Proof
end

section
/-! SUPPORT. Device memory stays canonical: what the functions of `Sys2Proof/Machine/Copy.lean` do to it. -/

namespace Sys2Proof
open Machine Slice0
variable {s : Machine.State}
set_option Elab.async false

theorem MemOk.markPresence (h : MemOk s) (tn set ls) : MemOk (s.markPresence tn set ls) := by
  unfold State.markPresence
  refine h.foldl (fun _ _ k => ?_) _
  split
  · exact k
  · split
    · exact k.updCore ..
    · exact k

theorem MemOk.enqueue (h : MemOk s) (core q) : MemOk (s.enqueue core q) := (h.markPresence ..).updCore ..

theorem MemOk.kickM (h : MemOk s) (p a b) : Canon MemOk (s.kickM p a b) := by
  unfold State.kickM
  refine h.groupM _ fun _ _ _ => ?_
  refine (needRegs_canon ..).check fun _ => ?_
  refine (trapIf_canon ..).check fun _ => ?_
  refine .ite (.ok (h.next.close ..)) ?_
  refine (trapIf_canon ..).check fun _ => ?_
  refine (trapIf_canon ..).check fun _ => ?_
  refine (waitIf_canon ..).check fun _ => ?_
  dsimp only
  split
  · exact (h.setDesc ..).raise ..
  · exact .ok ((((h.setDesc ..).foldl (fun _ _ k => k.enqueue ..) _).updGroup ..).next.close ..)

theorem MemOk.execKick (h : MemOk s) (p a b) : OutCanon (execKick p a b s) := h.run (h.kickM ..)

theorem MemOk.putBo (h : MemOk s) (core team addr o) : MemOk (s.putBo core team addr o) := by
  unfold State.putBo
  split
  · exact h
  · exact (h.updCore ..).foldl (fun _ _ k => k.updCore ..) _

theorem MemOk.boEnd (h : MemOk s) (core team addr e) : MemOk (s.boEnd core team addr e) := h.updCore ..

theorem MemOk.boRelease (h : MemOk s) (core team addr o) : MemOk (s.boRelease core team addr o) :=
  (h.putBo ..).boEnd ..

theorem MemOk.boBreak (h : MemOk s) (core team addr n) : MemOk (s.boBreak core team addr n) :=
  (h.putBo ..).boEnd ..

theorem MemOk.boArrive (h : MemOk s) (core team addr k1) : MemOk (s.boArrive core team addr k1) := by
  unfold State.boArrive
  refine .ite (h.boBreak ..) ?_
  refine .ite ?_ ?_
  · exact h.boRelease ..
  · exact h.putBo ..

theorem MemOk.boFail (h : MemOk s) (core team addr) : MemOk (s.boFail core team addr) := by
  unfold State.boFail
  refine .ite (h.boBreak ..) ?_
  refine .ite h ?_
  exact (h.putBo ..).boEnd ..

theorem boAddr_canon (g a ofs lo) : Canon (fun _ => True) (s.boAddr g a ofs lo) :=
  (trapIf_canon ..).check fun _ => (trapIf_canon ..).check fun _ => .ok trivial

theorem MemOk.execBoinit (h : MemOk s) (p a ofs) : OutCanon (execBoinit p a ofs s) :=
  h.run (h.groupM _ fun _ _ _ => (needRegs_canon ..).check fun _ => (boAddr_canon ..).check fun _ =>
    .ok ((h.putBo ..).next.close ..))

theorem boCheck_canon (team o lo) : Canon (fun _ => True) (s.boCheck team o lo) := by
  unfold State.boCheck
  generalize s.bo s.cur.core team o = b
  dsimp only
  refine (trapIf_canon ..).check fun _ => ?_
  exact (trapIf_canon ..).check fun _ => trivial

theorem MemOk.execBoarm (h : MemOk s) (p a b ofs) : OutCanon (execBoarm p a b ofs s) := by
  unfold Machine.execBoarm
  refine h.run ?_
  refine h.groupM _ fun _ _ _ => ?_
  refine (needRegs_canon ..).check fun _ => ?_
  refine (boAddr_canon ..).check fun _ => ?_
  refine (boCheck_canon ..).check fun _ => ?_
  refine .ok ?_
  refine MemOk.close ?_ ..
  refine MemOk.next ?_ ..
  refine .ite ?_ ?_
  · exact h.boRelease ..
  · exact h.putBo ..

theorem MemOk.acquireDev (h : MemOk s) : MemOk s.acquireDev := h.acquire ..

theorem MemOk.execBowait (h : MemOk s) (p a ofs) : OutCanon (execBowait p a ofs s) := by
  unfold Machine.execBowait
  refine h.run ?_
  refine h.groupM _ fun _ _ _ => ?_
  refine (needRegs_canon ..).check fun _ => ?_
  refine (boAddr_canon ..).check fun _ => ?_
  refine .ite (.error trivial) ?_
  refine .ite (.ok h.acquireDev.next) ?_
  refine .ite (trapAddr_canon ..) ?_
  refine .ite (trapAddr_canon ..) ?_
  refine (boCheck_canon ..).check fun _ => ?_
  refine .ite ?_ ?_
  · exact .ok h.acquireDev.next
  · exact .error (h.park.updGroup ..)

theorem MemOk.execBotest (h : MemOk s) (p d a ofs) : OutCanon (execBotest p d a ofs s) := by
  unfold Machine.execBotest
  refine h.run ?_
  refine h.groupM _ fun _ _ _ => ?_
  refine (needRegs_canon ..).check fun _ => ?_
  refine (boAddr_canon ..).check fun _ => ?_
  refine .ok ?_
  refine MemOk.updGroup ?_ ..
  refine MemOk.next ?_ ..
  refine MemOk.putAll ?_ ..
  refine .ite ?_ h
  exact h.acquireDev

theorem MemOk.execTlwait (h : MemOk s) (p a tl) : OutCanon (execTlwait p a tl s) :=
  h.run (h.groupM _ fun _ _ _ => (needRegs_canon ..).check fun _ => (parkIf_canon ..).check fun _ =>
    .ok h.acquireDev.next)

theorem MemOk.execTlread (h : MemOk s) (p d tl) : OutCanon (execTlread p d tl s) :=
  h.run (h.groupM _ fun _ _ _ => (needRegs_canon ..).check fun _ => .ok ((h.putAll64 ..).next.updGroup ..))

theorem MemOk.range (h : MemOk s) (core ctx d p n) : CReadOk (fun r => MemOk r.2) (s.range core ctx d p n) := by
  unfold State.range
  exact .bind (P := fun _ => True) ⟨fun _ => trivial⟩ fun _ _ => .ok (h.rangeMet ..)

theorem MemOk.readHome (h : MemOk s) (cs) : CReadOk (fun r => MemOk r.2) (s.readHome cs) := by
  unfold State.readHome
  dsimp only
  split
  · exact ⟨nofun⟩
  split
  · exact ⟨nofun⟩
  · exact .ok (h.foldl (fun _ _ k => ((k.atHome ..).combine ..).readLine ..) _)

theorem MemOk.readLoc (h : MemOk s) (core q l n) : CReadOk (fun r => MemOk r.2) (s.readLoc core q l n) := by
  unfold State.readLoc
  split
  · exact (h.range ..).bind fun _ k => .ite ⟨nofun⟩ (k.readHome ..)
  · exact .ok h
  · exact .ok h

theorem MemOk.readScales (h : MemOk s) (core q r l) : CReadOk (fun r => MemOk r.2) (s.readScales core q r l) :=
  by
  induction l generalizing s with
  | nil => exact .ok h
  | cons blk rest ih =>
    unfold State.readScales
    dsimp only
    refine CReadOk.bind (P := fun r => MemOk r.2) ?_ fun _ k => ?_
    · split
      · exact h.readLoc ..
      · exact .ok h
    · refine (ih k).bind fun _ k => .ok ?_
      exact k

theorem MemOk.dstReady (h : MemOk s) (core q l) : CReadOk MemOk (s.dstReady core q l) := by
  induction l generalizing s with
  | nil => exact .ok h
  | cons p r ih =>
    unfold State.dstReady
    split
    · exact (h.range ..).bind fun _ k => ih k
    · exact ih h

theorem MemOk.movePart (h : MemOk s) (core q u) : CReadOk (fun r => MemOk r.2) (s.movePart core q u) := by
  unfold State.movePart
  refine (h.readLoc ..).bind fun _ k => ?_
  refine .bind (P := fun r => MemOk r.2) (.ite (k.readScales ..) (.ok k)) fun _ k => ?_
  split
  · exact .ok k
  · exact (k.dstReady ..).bind fun _ k => .ok k

theorem MemOk.moveParts (h : MemOk s) (core t l) : MemOk (s.moveParts core t l).1 := by
  induction l generalizing s t with
  | nil => exact h
  | cons u r ih =>
    unfold State.moveParts
    split
    · exact h
    · exact h
    · exact h
    · exact h.readSector ..
    · next eq => exact (h.movePart ..).get eq
    · next eq => exact ih ((h.movePart ..).get eq) _

theorem MemOk.moveOn (h : MemOk s) (core t) : MemOk (s.moveOn core t).1 := h.moveParts ..

theorem MemOk.cpDone (h : MemOk s) (q) : MemOk (s.cpDone q) := by
  unfold State.cpDone
  split
  · exact h.updGroup ..
  · exact h.updCore ..
  · exact h

theorem MemOk.moved (h : MemOk s) (core t) : MemOk (s.moved core t) := by
  unfold State.moved
  split
  · exact h.fault ..
  · refine .ite ?_ h
    exact h.cpDone ..

theorem MemOk.clearOne (h : MemOk s) (core q) : MemOk (s.clearOne core q) := by
  unfold State.clearOne
  split
  · exact h
  · exact (h.markPresence ..).updCore ..

theorem MemOk.startCopy (h : MemOk s) (core i q) : MemOk (s.startCopy core i q) := by
  unfold State.startCopy
  refine .ite h ?_
  exact ((h.moveOn ..).updCore ..).moved ..

theorem MemOk.execCopyStart (h : MemOk s) (core) : OutCanon (execCopyStart core s) := by
  unfold Machine.execCopyStart
  dsimp only
  split
  · refine .next ?_
    split
    · exact h.clearOne ..
    · exact h
  · refine .ite (.next (h.clearOne ..)) ?_
    refine .ite ?_ (.next (h.startCopy ..))
    refine .next ?_
    split
    · exact h.clearOne ..
    · exact h

theorem MemOk.updTransfer (h : MemOk s) (core seq f) : MemOk (s.updTransfer core seq f) := h.updCore ..

theorem MemOk.execCopyResume (h : MemOk s) (core n) : OutCanon (execCopyResume core n s) := by
  unfold Machine.execCopyResume
  split
  · exact .next h
  · refine .ite ?_ ?_
    · exact .next h
    · exact .next (((h.moveOn ..).updTransfer ..).moved ..)

theorem MemOk.landGlb (h : MemOk s) (ctx pa p) : MemOk (s.landGlb ctx pa p) := (h.homeWrite ..).settle ..

theorem MemOk.landLocal (h : MemOk s) (core t p) : MemOk (s.landLocal core t p) := by
  unfold State.landLocal
  dsimp only
  split
  · exact h
  · split
    · exact h
    · exact ((h.putScrLine ..).updCore ..).foldl (fun _ _ k => k.updCore ..) _
  · split
    · exact h
    · exact h.updCore ..

theorem MemOk.landPiece (h : MemOk s) (core t p) : CReadOk MemOk (s.landPiece core t p) := by
  unfold State.landPiece
  split
  · refine (h.range ..).bind fun _ k => ?_
    split
    · exact .ite ⟨nofun⟩ (.ok (k.landGlb ..))
    · exact .ok h
  · exact .ok (h.landLocal ..)

theorem MemOk.endLine (h : MemOk s) (core t rest p) : MemOk (s.endLine core t rest p) := by
  unfold State.endLine
  dsimp only
  split
  · refine .ite ?_ h
    exact h.markPresence ..
  · refine .ite ?_ h
    exact h.updCore ..
  · exact h

theorem MemOk.landed (h : MemOk s) (core t rest p) : MemOk (s.landed core t rest p) := by
  unfold State.landed
  dsimp only
  split
  · exact ((h.endLine ..).updTransfer ..).boArrive ..
  · exact (h.endLine ..).updTransfer ..

theorem MemOk.execArrival (h : MemOk s) (core n) : OutCanon (execArrival core n s) := by
  unfold Machine.execArrival
  split
  · exact .next h
  · refine .ite (.next h) ?_
    dsimp only
    split
    · exact .next h
    · exact .next h
    · exact .next ((h.updTransfer ..).moved ..)
    · exact .next (h.updTransfer ..)
    · next eq =>
      refine .next (MemOk.foldl ?_ (fun _ _ k => k.landed ..) _)
      exact ((h.landPiece ..).get eq).foldl (fun _ _ k => k.landLocal ..) _

theorem MemOk.unpendReq (h : MemOk s) (core q) : MemOk (s.unpendReq core q) := h.updCore ..

theorem MemOk.execCopyFail (h : MemOk s) (core n) : OutCanon (execCopyFail core n s) := by
  unfold Machine.execCopyFail
  split
  · exact .next h
  · refine .ite (.next h) ?_
    refine .next ?_
    refine MemOk.takeAsync ?_ ..
    refine MemOk.updTransfer ?_ ..
    refine MemOk.unpendReq ?_ ..
    refine .ite ?_ ?_
    · refine .ite ?_ (h.markPresence ..)
      refine (h.markPresence ..).foldl (fun _ _ k => ?_) _
      split
      · exact k.boFail ..
      · exact k
    · refine MemOk.cpDone ?_ ..
      refine .ite ?_ (h.markPresence ..)
      refine (h.markPresence ..).foldl (fun _ _ k => ?_) _
      split
      · exact k.boFail ..
      · exact k

theorem MemOk.execCopyComplete (h : MemOk s) (core n) : OutCanon (execCopyComplete core n s) := by
  unfold Machine.execCopyComplete
  dsimp only
  split
  · exact .next h
  · refine .ite (.next h) ?_
    refine .next ?_
    refine MemOk.settleCluster ?_ ..
    refine .ite ?_ ?_
    · refine .ite ?_ ?_
      · exact h.updCore ..
      · exact (h.updCore ..).unpendReq ..
    · refine MemOk.tlAdd ?_ ..
      refine .ite ?_ ?_
      · exact h.updCore ..
      · exact (h.updCore ..).unpendReq ..

end Sys2Proof
end

section
/-! SUPPORT. Device memory stays canonical: what the functions of `Sys2Proof/Machine/Phase.lean` do to it. -/

namespace Sys2Proof
open Machine Slice0
variable {s : Machine.State}
set_option Elab.async false

theorem MemOk.publishable (h : MemOk s) (core slot lo) : Canon (fun _ => True) (s.publishable core slot lo) :=
  by
  unfold State.publishable
  split
  · exact (h.updCore ..).raise ..
  · exact .ok trivial

theorem MemOk.sendAll (h : MemOk s) (core ctx sys job) : MemOk (s.sendAll core ctx sys job).1 :=
  (h.upd.updCore ..).sendWords ..

theorem MemOk.sysStep (h : MemOk s) (core slot ctx) : BStateOk (s.sysStep core slot ctx) := by
  unfold State.sysStep
  split
  · refine .ite ?_ ?_
    · exact h.joinUnit ..
    · exact h.newJob.takeUnit ..
  · refine .ite (h.joinUnit ..) ?_
    refine .ite (h.boundaryStep _ _ fun _ _ k => k) ?_
    refine .ite h ?_
    exact (h.sendAll ..).updCore ..

theorem MemOk.phaseStep (h : MemOk s) (core slot ctx k1) : BStateOk (s.phaseStep core slot ctx k1) := by
  unfold State.phaseStep
  split
  · exact h.sysStep ..
  · exact h.boundaryStep _ _ fun _ _ k => k.sendAll ..

theorem MemOk.phaseM (h : MemOk s) (p scope) : Canon MemOk (s.phaseM p scope) := by
  unfold State.phaseM
  refine h.groupM _ fun _ _ _ => ?_
  refine (waitIf_canon ..).check fun _ => ?_
  refine (waitIf_canon ..).check fun _ => ?_
  refine .ite ?_ ?_
  · refine .ite ?_ ?_
    · exact .error (h.joinUnit ..)
    · exact .ok (((h.updCore ..).acquire ..).next.close ..)
  · refine .ite ?_ ?_
    · refine (h.publishable ..).check fun _ => ?_
      dsimp only
      split
      · next eq =>
        have k : MemOk _ := (h.phaseStep ..).of eq
        exact .error k
      · next eq =>
        have k : MemOk _ := (h.phaseStep ..).of eq
        exact .error k.park
      · next eq =>
        have k : MemOk _ := (h.phaseStep ..).of eq
        exact .ok (((k.movePartials ..).acquire ..).next.close ..)
    · dsimp only
      split
      · next eq =>
        have k : MemOk _ := (h.phaseStep ..).of eq
        exact .error k
      · next eq =>
        have k : MemOk _ := (h.phaseStep ..).of eq
        exact .error k.park
      · next eq =>
        have k : MemOk _ := (h.phaseStep ..).of eq
        exact .ok (((k.movePartials ..).acquire ..).next.close ..)

theorem MemOk.execPhase (h : MemOk s) (p scope) : OutCanon (execPhase p scope s) := h.run (h.phaseM ..)

theorem MemOk.monitorOf (h : MemOk s) (core slot g p pa) : MemOk (s.monitorOf core slot g p pa).2 := by
  unfold State.monitorOf
  refine .ite_snd h ?_
  refine .ite_snd ?_ ?_
  · split
    · exact .ite_snd h h
    · exact h
  · refine .ite_snd ?_ ?_
    · refine .ite_snd ?_ ?_
      · exact h.unwatch ..
      · exact ((h.unwatch ..).atHome ..).updDir ..
    · split
      · exact h
      · split
        · exact h
        · exact .ite_snd h h

theorem MemOk.monwM (h : MemOk s) (p a ofs) : Canon MemOk (s.monwM p a ofs) := by
  unfold State.monwM
  refine h.groupM _ fun _ _ _ => ?_
  refine (needRegs_canon ..).check fun _ => ?_
  dsimp only
  split
  · exact trapAddr_canon ..
  · split
    · exact (h.setDesc ..).raise ..
    · refine .ite (.ok (h.setDesc ..).next) ?_
      split
      · exact .ok ((h.setDesc ..).extentMet ..).next
      · refine .ite ?_ ?_
        · refine (((h.setDesc ..).extentMet ..).raise ..).check fun _ => ?_
          split
          · exact .ok (((h.setDesc ..).extentMet ..).monitorOf ..).next
          · exact .ok ((((h.setDesc ..).extentMet ..).monitorOf ..).next.updGroup ..)
        · split
          · exact .ok (((h.setDesc ..).extentMet ..).monitorOf ..).next
          · exact .ok ((((h.setDesc ..).extentMet ..).monitorOf ..).next.updGroup ..)

theorem MemOk.execMonw (h : MemOk s) (p a ofs) : OutCanon (execMonw p a ofs s) := h.run (h.monwM ..)

end Sys2Proof
end

section
/-! SUPPORT. Device memory stays canonical: what the functions of `Sys2Proof/Machine/Sched.lean` do to it. -/

namespace Sys2Proof
open Machine Slice0
variable {s : Machine.State}
set_option Elab.async false

theorem MemOk.stall (h : MemOk s) (ctx on ext) : MemOk (s.stall ctx on ext) := h.fault ..

theorem MemOk.reachWb (h : MemOk s) (core ctx p) : MemOk (s.reachWb core ctx p).2 := by
  unfold State.reachWb
  dsimp only
  split
  · exact h.setDesc ..
  · exact (h.setDesc ..).extentMet ..

theorem MemOk.findWb (h : MemOk s) (g p lo) : Canon (fun r => MemOk r.2) (s.findWb g p lo) := by
  unfold State.findWb
  refine (trapIf_canon ..).check fun _ => ?_
  dsimp only
  split
  · exact (h.reachWb ..).raise ..
  · exact .error ((h.reachWb ..).stall ..)
  · refine .ite ((h.reachWb ..).raise ..) ?_
    split
    · exact .error (((h.reachWb ..).readSector ..).consume ..)
    · exact .ok_snd (h.reachWb ..)

theorem MemOk.atWaybill (h : MemOk s) (g p pa m d amount) : MemOk (s.atWaybill g p pa m d amount) := by
  unfold State.atWaybill
  have acted : Okay (fun r => MemOk r.2) (match amount with
      | none => s.spawnStep g.ctx p pa
      | some n => s.jdecStep g.ctx p pa n) := by
    cases amount with
    | none => exact h.spawnStep ..
    | some n => exact h.jdecStep ..
  split
  · exact h.stall ..
  · next eq =>
    have k := acted.get eq
    exact .ite ((((k.putAll ..).next).close ..).updGroup ..) (((k.putAll ..).next).close ..)

theorem MemOk.published (h : MemOk s) (core again acked) : MemOk (s.published core again acked) := by
  unfold State.published
  refine .ite h ?_
  exact (h.movePartials ..).keepAcks ..

theorem MemOk.holdUnit (h : MemOk s) (core slot) : MemOk (s.holdUnit core slot) := h.takeUnit ..

theorem MemOk.spawnM (h : MemOk s) (p d a b) : Canon MemOk (s.spawnM p d a b) := by
  unfold State.spawnM
  refine h.groupM _ fun _ _ _ => ?_
  refine (needRegs_canon ..).check fun _ => ?_
  refine .ite ?_ ?_
  · refine (Canon.ok h).bind fun _ k => ?_
    dsimp only
    split
    · next eq =>
      have k1 : MemOk _ := (k.boundaryStep _ _ fun _ _ k1 => k1.sendAll ..).of eq
      exact .error k1
    · next eq =>
      have k1 : MemOk _ := (k.boundaryStep _ _ fun _ _ k1 => k1.sendAll ..).of eq
      exact .error k1.park
    · next eq =>
      have k1 : MemOk _ := (k.boundaryStep _ _ fun _ _ k1 => k1.sendAll ..).of eq
      refine ((k1.published ..).findWb ..).bind fun _ k2 => ?_
      refine .ite ?_ ?_
      · exact .ok (k2.atWaybill ..)
      · exact .error (k2.holdUnit ..).park
  · refine (h.findWb ..).bind fun _ k => ?_
    refine (waitIf_canon ..).check fun _ => ?_
    refine .ite ?_ ?_
    · refine (h.publishable ..).check fun _ => ?_
      refine (Canon.ok k).bind fun _ k1 => ?_
      dsimp only
      split
      · next eq =>
        have k2 : MemOk _ := (k1.boundaryStep _ _ fun _ _ k2 => k2.sendAll ..).of eq
        exact .error k2
      · next eq =>
        have k2 : MemOk _ := (k1.boundaryStep _ _ fun _ _ k2 => k2.sendAll ..).of eq
        exact .error k2.park
      · next eq =>
        have k2 : MemOk _ := (k1.boundaryStep _ _ fun _ _ k2 => k2.sendAll ..).of eq
        refine ((k2.published ..).findWb ..).bind fun _ k3 => ?_
        refine .ite ?_ ?_
        · exact .ok (k3.atWaybill ..)
        · exact .error (k3.holdUnit ..).park
    · refine (Canon.ok k).bind fun _ k1 => ?_
      dsimp only
      split
      · next eq =>
        have k2 : MemOk _ := (k1.boundaryStep _ _ fun _ _ k2 => k2.sendAll ..).of eq
        exact .error k2
      · next eq =>
        have k2 : MemOk _ := (k1.boundaryStep _ _ fun _ _ k2 => k2.sendAll ..).of eq
        exact .error k2.park
      · next eq =>
        have k2 : MemOk _ := (k1.boundaryStep _ _ fun _ _ k2 => k2.sendAll ..).of eq
        refine ((k2.published ..).findWb ..).bind fun _ k3 => ?_
        refine .ite ?_ ?_
        · exact .ok (k3.atWaybill ..)
        · exact .error (k3.holdUnit ..).park

theorem MemOk.execSpawn (h : MemOk s) (p d a) : OutCanon (execSpawn p d a s) := h.run (h.spawnM ..)

theorem MemOk.execJdec (h : MemOk s) (p d a b) : OutCanon (execJdec p d a b s) := h.run (h.spawnM ..)

theorem MemOk.execTqry (h : MemOk s) (c d a) : OutCanon (execTqry c d a s) :=
  h.run (h.memM _ fun _ _ _ _ => (needRegs_canon ..).check fun _ => (uCheck_canon ..).check fun _ =>
    .ok ((h.putRegs ..).next.updGroup ..))

theorem MemOk.seatGroup (h : MemOk s) (core g) : SomeOk (fun r => MemOk r.2) (s.seatGroup core g) := by
  unfold State.seatGroup
  dsimp only
  split
  · exact .some_snd (h.setCore ..)
  · exact .none

theorem MemOk.seatAll (h : MemOk s) (core l) : SomeOk (fun r => MemOk r.2) (s.seatAll core l) := by
  induction l generalizing s with
  | nil => exact .some h
  | cons g r ih =>
    unfold State.seatAll
    split
    · exact .none
    · next eq =>
      have k := (h.seatGroup ..).get eq
      split
      · exact .none
      · next eq =>
        have k := (ih k).get eq
        exact .some_snd k

theorem MemOk.takeBanks (h : MemOk s) (core tn n l) : SomeOk MemOk (s.takeBanks core tn n l) := by
  induction l generalizing s with
  | nil => exact .some h
  | cons r rest ih =>
    unfold State.takeBanks
    split
    · exact .none
    · next eq => exact ih ((h.growBy ..).get eq)

theorem MemOk.admitShare (h : MemOk s) (core tn weight min granted gs) : SomeOk (fun r => MemOk r.2)
  (s.admitShare core tn weight min granted gs) := by
  unfold State.admitShare
  refine .ite .none ?_
  dsimp only
  split
  · exact .none
  · next eq =>
    have k := ((h.updTeam ..).takeBanks ..).get eq
    exact k.seatAll ..

theorem MemOk.admitted (h : MemOk s) (gid cores) : MemOk (s.admitted gid cores) :=
  (h.updGrid ..).foldl (fun _ _ k => k.acquire ..) _

theorem MemOk.admitShares (h : MemOk s) (q tn i l) : SomeOk MemOk (s.admitShares q tn i l) := by
  induction l generalizing s i with
  | nil => exact .some h
  | cons c r ih =>
    unfold State.admitShares
    refine .ite .none ?_
    split
    · exact .none
    · next eq => exact ih ((h.admitShare ..).get eq) _

theorem MemOk.newTeam (h : MemOk s) (gid q tid cores cset) : SomeOk MemOk (s.newTeam gid q tid cores cset) :=
  h.upd.admitShares ..

theorem MemOk.newSet (h : MemOk s) (gid q tid k l) : SomeOk MemOk (s.newSet gid q tid k l) := by
  induction l generalizing s tid with
  | nil => exact .some h
  | cons c r ih =>
    unfold State.newSet
    split
    · exact .none
    · next eq => exact ih ((h.newTeam ..).get eq) _

theorem MemOk.placeTeam (h : MemOk s) (gid q core tid) : SomeOk (fun r => MemOk r.2)
  (s.placeTeam gid q core tid) := by
  unfold State.placeTeam
  split
  · exact .none
  · refine SomeOk.map (P := fun r => MemOk r.2) (.ite ?_ ?_) fun _ k => k.admitted ..
    · exact (h.upd.newSet ..).map fun _ k => k
    · exact (h.newTeam ..).map fun _ k => k

theorem MemOk.headGrid (h : MemOk s) (ctx qn wb) : HeadIsOk (s.headGrid ctx qn wb) := by
  unfold State.headGrid
  split
  · exact trivial
  · exact (h.wbRecord ..).leaveQueue ..
  · refine .ite trivial ?_
    split
    · refine .ite ?_ h
      exact h.leaveQueue ..
    · refine .ite (h.leaveQueue ..) ?_
      refine .ite ((h.badWb ..).leaveQueue ..) ?_
      split
      · exact trivial
      · exact (h.badWb ..).leaveQueue ..
      · split
        · exact h.upd
        · exact trivial
        · exact (h.badWb ..).leaveQueue ..

theorem MemOk.placedTeams (h : MemOk s) (ctx qn q pa n) : MemOk (s.placedTeams ctx qn q pa n) := by
  unfold State.placedTeams
  refine .ite ?_ ?_
  · refine MemOk.leaveQueue ?_ ..
    refine MemOk.setWb ?_ ..
    refine .ite ?_ h
    exact h.setWbState ..
  · refine MemOk.setWb ?_ ..
    refine .ite ?_ h
    exact h.setWbState ..

theorem MemOk.aged (h : MemOk s) (ctx qn n) : MemOk (s.aged ctx qn n) := by
  unfold State.aged
  refine h.foldl (fun _ _ k => ?_) _
  refine .ite (k.updQueue ..) ?_
  refine .ite ?_ k
  exact k.updQueue ..

end Sys2Proof
end

section
/-! SUPPORT. Device memory stays canonical: what the functions of `Sys2Proof/Machine/Resident.lean` do to it. -/

namespace Sys2Proof
open Machine Slice0
variable {s : Machine.State}
set_option Elab.async false

theorem MemOk.rekey (h : MemOk s) (core old new) : MemOk (s.rekey core old new) := h.same rfl

theorem MemOk.execParkLimit (h : MemOk s) (core slot) : OutCanon (execParkLimit core slot s) := by
  unfold Machine.execParkLimit
  split
  · exact .next h
  · refine .ite (.next h) ?_
    dsimp only
    split
    · exact .next ((h.foldl (fun _ _ k => k.restoreLine ..) _).stopGroup ..)
    · exact .next ((((h.foldl (fun _ _ k => k.restoreLine ..) _).stopGroup ..).rekey ..).updCore ..)

theorem MemOk.resumeParked (h : MemOk s) (core) : SomeOk MemOk (s.resumeParked core) := by
  unfold State.resumeParked
  dsimp only
  split
  · exact .some ((((h.setCore ..).rekey ..).resumeBar ..).acquire ..)
  · exact .none

theorem MemOk.leaveSlots (h : MemOk s) (tn core) : MemOk (s.leaveSlots tn core) := by
  unfold State.leaveSlots
  split
  · refine .ite h ?_
    exact h.upd.updCore ..
  · exact h

theorem MemOk.giveBack (h : MemOk s) (tn core) : MemOk (s.giveBack tn core) := by
  unfold State.giveBack
  split
  · exact h
  · exact ((((h.payScr ..).leaveSlots ..).updCore ..).settleOwed ..).updTeam ..

theorem MemOk.saveTeam (h : MemOk s) (tn copies) : MemOk (s.saveTeam tn copies) := by
  unfold State.saveTeam
  split
  · exact h
  · exact (((((h.foldl (fun _ _ k => k.freeGroup ..) _).foldl (fun _ _ k =>
      (k.foldl (fun _ _ k1 => k1.dropWatches ..) _).updCore ..) _).foldl (fun _ _ k =>
      k.giveBack ..) _).updTeam ..).updGrid ..).updCtx ..

theorem MemOk.saveTeams (h : MemOk s) (ts) : MemOk (s.saveTeams ts) :=
  (h.upd.foldl (fun _ _ k => k.saveTeam ..) _).foldl (fun _ _ k => k.settleOwed ..) _

theorem MemOk.refill (h : MemOk s) (core slot c) : MemOk (s.refill core slot c) := by
  unfold State.refill
  split
  · exact h
  · exact h.updCore ..

theorem MemOk.rescr (h : MemOk s) (tn core c) : MemOk (s.rescr tn core c) := by
  unfold State.rescr
  refine MemOk.updCore ?_ ..
  refine MemOk.updAllot ?_ ..
  refine h.foldl (fun _ _ k => ?_) _
  split
  · exact k.updCore ..
  · exact k

theorem MemOk.restoreShare (h : MemOk s) (q c core part) : SomeOk MemOk (s.restoreShare q c core part) := by
  unfold State.restoreShare
  dsimp only
  split
  · exact .none
  split
  · exact .none
  · next eq =>
    have k := (h.admitShare ..).get eq
    refine .some (MemOk.foldl (MemOk.updTeam (MemOk.rescr ?_ ..) ..) (fun _ _ k => k.resumeBar ..) _)
    exact MemOk.foldl k (fun _ _ k => k.refill ..) _

theorem MemOk.restoreShares (h : MemOk s) (q c i l) : SomeOk MemOk (s.restoreShares q c i l) := by
  induction l generalizing s i with
  | nil => exact .some h
  | cons k r ih =>
    unfold State.restoreShares
    split
    · exact .none
    · next eq => exact ih ((h.restoreShare ..).get eq) _

theorem MemOk.restoreCont (h : MemOk s) (ctx q c cores) : SomeOk MemOk (s.restoreCont ctx q c cores) := by
  unfold State.restoreCont
  refine SomeOk.map (P := MemOk) (((h.updTeam ..).updCtx ..).restoreShares ..) fun _ k => ?_
  exact k.foldl (fun _ _ k => k.updCore ..) _

theorem MemOk.restoreSet (h : MemOk s) (ctx q cl l) : SomeOk MemOk (s.restoreSet ctx q cl l) := by
  induction l generalizing s with
  | nil => exact .some h
  | cons c r ih =>
    unfold State.restoreSet
    dsimp only
    split
    · exact .none
    · next eq => exact ih ((h.restoreCont ..).get eq)

theorem MemOk.offerCont (h : MemOk s) (ctx core c) : SomeOk MemOk (s.offerCont ctx core c) := by
  unfold State.offerCont
  split
  · exact .none
  split
  · exact .none
  split
  · exact .none
  split
  · exact (h.restoreCont ..).map fun _ k => k.admitted ..
  · exact (h.upd.restoreSet ..).map fun _ k => k.admitted ..

theorem MemOk.offerConts (h : MemOk s) (ctx core l) : SomeOk MemOk (s.offerConts ctx core l) := by
  induction l with
  | nil => exact .none
  | cons c r ih =>
    unfold State.offerConts
    split
    · next eq => exact .some ((h.offerCont ..).get eq)
    · exact ih

theorem MemOk.markStuck (h : MemOk s) (ctx qn wb) : MemOk (s.markStuck ctx qn wb) := by
  unfold State.markStuck
  refine .ite ?_ ?_
  · exact h.updQueue ..
  · exact (h.updQueue ..).wbRecord ..

theorem MemOk.refreshQueue (h : MemOk s) (ctx qn) : MemOk (s.refreshQueue ctx qn) := by
  unfold State.refreshQueue
  dsimp only
  split
  · exact h
  · refine .ite h ?_
    refine .ite (h.leaveQueue ..) ?_
    refine .ite h ?_
    split
    · next eq =>
      have k : MemOk _ := (h.headGrid ..).of eq
      refine .ite ?_ ?_
      · exact h.updQueue ..
      · exact h.markStuck ..
    · exact h.fault ..
    · exact h

theorem MemOk.offerHeads (h : MemOk s) (ctx core l) : MemOk (s.offerHeads ctx core l) := by
  induction l generalizing s with
  | nil => exact h
  | cons qn r ih =>
    unfold State.offerHeads
    split
    · exact ih h
    · next wb _ =>
      have head := h.headGrid ctx qn wb
      split
      · next eq => exact ih (head.of eq)
      · exact ih h
      · exact ih (h.fault ..)
      · next eq =>
        refine .ite (ih h) ?_
        split
        · exact ih h
        · next placed => exact ((SomeOk.get (MemOk.placeTeam (head.of eq) ..) placed).placedTeams ..).aged ..

theorem MemOk.offer (h : MemOk s) (ctx core) : MemOk (s.offer ctx core) := by
  unfold State.offer
  refine .ite h (.ite ((h.resumeParked ..).getD h) (.ite h ?_))
  split
  · next eq => exact (h.offerConts ..).get eq
  · exact h.offerHeads ..

end Sys2Proof
end

section
/-! SUPPORT. Device memory stays canonical: what the functions of `Sys2Proof/Machine/Traps.lean` do to it. -/

namespace Sys2Proof
open Machine Slice0
variable {s : Machine.State}
set_option Elab.async false

theorem MemOk.execTrap (h : MemOk s) (p code) : OutCanon (execTrap p code s) :=
  h.run (h.groupM _ fun _ _ _ => .error trivial)

theorem MemOk.execTrapHnd (h : MemOk s) (p a b) : OutCanon (execTrapHnd p a b s) := by
  unfold Machine.execTrapHnd
  refine h.run ?_
  refine h.groupM _ fun _ _ _ => ?_
  refine (needRegs_canon ..).check fun _ => ?_
  refine .ite ?_ ?_
  · exact .ok (h.updGroup ..).next
  · exact (trapIf_canon ..).check fun _ => (trapIf_canon ..).check fun _ => .ok (h.updGroup ..).next

theorem MemOk.endBy (h : MemOk s) (core slot g r a) : MemOk (s.endBy core slot g r a) := by
  unfold State.endBy
  dsimp only
  split
  · exact ((h.putTrap ..).setGroup ..).aeqAppend ..
  · exact ((h.putTrap ..).setGroup ..).aeqAppend ..
  · exact ((h.putTrap ..).setGroup ..).aeqAppend ..
  · exact (h.putTrap ..).killTeam ..

theorem MemOk.eret (h : MemOk s) (core slot a) : MemOk (s.eret core slot a).2 := by
  unfold State.eret
  split
  · refine .ite_snd h ?_
    refine .ite_snd h ?_
    refine .ite_snd h ?_
    exact h.endBy ..
  · exact h

theorem MemOk.eretM (h : MemOk s) (p a d r) : Canon MemOk (s.eretM p a d r) :=
  h.privM _ fun _ _ _ _ => (needRegs_canon ..).check fun _ => .ok ((h.eret ..).putAll ..).next

theorem MemOk.execEretRetry (h : MemOk s) (p d a) : OutCanon (execEretRetry p d a s) := h.run (h.eretM ..)

theorem MemOk.execEretSkip (h : MemOk s) (p d a) : OutCanon (execEretSkip p d a s) := h.run (h.eretM ..)

theorem MemOk.execEretDeliver (h : MemOk s) (p d a) : OutCanon (execEretDeliver p d a s) :=
  h.run (h.eretM ..)

theorem MemOk.execEretKill (h : MemOk s) (p d a) : OutCanon (execEretKill p d a s) := h.run (h.eretM ..)

end Sys2Proof
end

section
/-! SUPPORT. Device memory stays canonical: what the functions of `Sys2Proof/Machine/Firmware.lean` do to it. -/

namespace Sys2Proof
open Machine Slice0
variable {s : Machine.State}
set_option Elab.async false

theorem MemOk.sysM (h : MemOk s) (p d rs) {k : Group → Core → Nat → M (Nat × Machine.State)}
    (hk : ∀ g x lo, Canon (fun r => MemOk r.2) (k g x lo)) : Canon MemOk (s.sysM p d rs k) :=
  h.privM _ fun _ _ _ _ => (needRegs_canon ..).check fun _ => (hk ..).bind fun _ k => .ok (k.putAll ..).next

theorem MemOk.parkIn {α : Type} {P : α → Prop} (h : MemOk s) : Canon P (parkIn s : M α) := h.park

theorem MemOk.serveFault (h : MemOk s) (f) : MemOk (s.serveFault f) := by
  unfold State.serveFault
  split
  · exact h.inkAgain ..
  · exact h.doChore ..

theorem MemOk.extentArrived (h : MemOk s) (ctx on ext) : MemOk (s.extentArrived ctx on ext) :=
  h.upd.foldl (fun _ _ k => k.serveFault ..) _

theorem MemOk.objsetDesc (h : MemOk s) (a d) : MemOk (s.objsetDesc a d).2 := by
  unfold State.objsetDesc
  refine .ite_snd h ?_
  refine .ite_snd h ?_
  exact h.storeBytes ..

theorem MemOk.objsetExt (h : MemOk s) (a e) : MemOk (s.objsetExt a e).2 := by
  unfold State.objsetExt
  refine .ite_snd h ?_
  refine .ite_snd h ?_
  refine .ite_snd h ?_
  refine .ite ?_ ?_
  · exact (h.storeBytes ..).extentArrived ..
  · exact h.storeBytes ..

theorem moveUnder_canon (p) : Canon (fun _ => True) (s.moveUnder p) := parkIf_canon ..

theorem MemOk.execObjsetDesc (h : MemOk s) (p d a b) : OutCanon (execObjsetDesc p d a b s) :=
  h.run (h.sysM _ _ _ fun _ _ _ => (moveUnder_canon ..).check fun _ => .ok (h.objsetDesc ..))

theorem MemOk.execObjsetExt (h : MemOk s) (p d a b) : OutCanon (execObjsetExt p d a b s) :=
  h.run (h.sysM _ _ _ fun _ _ _ => (moveUnder_canon ..).check fun _ => .ok (h.objsetExt ..))

theorem MemOk.markOld (h : MemOk s) (mine) : MemOk (s.markOld mine) := h.same rfl

theorem MemOk.invalidate (h : MemOk s) (ctx on) : MemOk (s.invalidate ctx on) := h.same rfl

theorem MemOk.settled (h : MemOk s) (key) : MemOk (s.settled key) := h.same rfl

theorem MemOk.awaitOld (h : MemOk s) (r) : Canon (fun r => MemOk r.2) (s.awaitOld r) := by
  unfold State.awaitOld
  refine .ite ?_ ?_
  · exact .ok_snd (h.settled ..)
  · exact .error trivial

theorem MemOk.removed (h : MemOk s) : Canon (fun r => MemOk r.2) s.removed := by
  unfold State.removed
  refine .ite ?_ ?_
  · exact .ok_snd (h.settled ..)
  · exact h.upd.parkIn ..

theorem MemOk.objinvM (h : MemOk s) (a all) : Canon (fun r => MemOk r.2) (s.objinvM a all) := by
  unfold State.objinvM
  split
  · exact h.awaitOld ..
  · refine (moveUnder_canon ..).check fun _ => ?_
    refine .ite (.ok_snd h) ?_
    refine .ite ?_ ?_
    · exact .ok_snd h
    · exact ((h.invalidate ..).markOld ..).removed

theorem MemOk.execObjinv (h : MemOk s) (p d a) : OutCanon (execObjinv p d a s) :=
  h.run (h.sysM _ _ _ fun _ _ _ => h.objinvM ..)

theorem MemOk.execObjinvAll (h : MemOk s) (p d a) : OutCanon (execObjinvAll p d a s) :=
  h.run (h.sysM _ _ _ fun _ _ _ => h.objinvM ..)

theorem MemOk.dropExtent (h : MemOk s) (a n) : MemOk (s.dropExtent a n) :=
  (h.foldl (fun _ _ k => k.foldl (fun _ _ k1 => k1.dropCopy ..) _) _).foldl (fun _ _ k =>
    (k.combine ..).evictLine ..) _

/-- Writes of single bytes keep memory canonical. -/
theorem foldl_memWrite_wf {α : Type} (at_ : α → Nat) (byte : α → Byte) (l : List α) {m : Memory} (h :
  m.wf = true) :
    (l.foldl (fun m c => memWrite m (at_ c) (byte c)) m).wf = true := by
  induction l generalizing m with
  | nil => exact h
  | cons c l ih => exact ih (memWrite_wf _ _ h)

theorem MemOk.moveBytes (h : MemOk s) (a b n) : MemOk (s.moveBytes a b n) :=
  foldl_memWrite_wf _ _ _ (filter_wf _ h)

theorem MemOk.moveBegin (h : MemOk s) (d old new) : MemOk (s.moveBegin d old new) := by
  unfold State.moveBegin
  refine .ite ?_ ?_
  · exact h.dropExtent ..
  · exact (h.dropExtent ..).moveBytes ..

theorem MemOk.moveEnd (h : MemOk s) (a d new) : MemOk (s.moveEnd a d new) := by
  unfold State.moveEnd
  dsimp only [MemOk]
  exact h.storeBytes ..

theorem MemOk.withMoving (h : MemOk s) (l) : MemOk { s with moving := l } := h

theorem MemOk.withMoves (h : MemOk s) (l) : MemOk { s with moves := l } := h

/-- The rules above keep the move begun as it is: comparing its memory by unfolding it is out of the kernel's reach. -/
theorem MemOk.xmoveM (h : MemOk s) (a e) : Canon (fun r => MemOk r.2) (s.xmoveM a e) := by
  unfold State.xmoveM
  dsimp -proj only
  split
  · exact h.awaitOld ..
  · refine .ite (.ite (.error trivial) (h.moveEnd ..).removed) ?_
    refine (moveUnder_canon ..).check fun _ => ?_
    split
    · exact .ok_snd h
    · exact .ite ((((h.moveBegin ..).withMoving _).withMoves _).parkIn ..)
        (((h.moveBegin ..).withMoving _).moveEnd ..).removed

theorem MemOk.execXmove (h : MemOk s) (p d a b) : OutCanon (execXmove p d a b s) :=
  h.run (h.sysM _ _ _ fun _ _ _ => h.xmoveM ..)

theorem MemOk.refuseStall (h : MemOk s) (core slot on ext) : MemOk (s.refuseStall core slot on ext) := by
  unfold State.refuseStall
  split
  · exact h
  · split
    · exact h
    · dsimp only [MemOk]
      exact (h.turn ..).takeTrap ..

theorem MemOk.refuseLog (h : MemOk s) (f core slot) : MemOk (s.refuseLog f core slot) := by
  unfold State.refuseLog
  split
  · exact h
  · split
    · exact h
    · refine .ite ?_ ?_
      · exact (h.updGroup ..).takeLogged ..
      · exact ((h.updGroup ..).takeLogged ..).fault ..

theorem MemOk.execFaultRefusal (h : MemOk s) (n) : OutCanon (execFaultRefusal n s) := by
  unfold Machine.execFaultRefusal
  split
  · exact .next h
  · dsimp only
    split
    · exact .next (h.upd.refuseLog ..)
    · exact .next (h.upd.refuseStall ..)
    · exact .next (h.upd.updTransfer ..)
    · refine .next ?_
      split
      · exact (h.upd.wbRecord ..).leaveQueue ..
      · exact h.upd
    · exact .next ((h.upd.wbRecord ..).successors ..)
    · refine .next ?_
      split
      · exact h.upd.wbRecord ..
      · exact h.upd
    · refine .next ?_
      split
      · exact h.upd.wbRecord ..
      · exact h.upd
    · exact .next (h.upd.inkAnswer ..)

end Sys2Proof
end

section
/-! SUPPORT. Device memory stays canonical: what the functions of `Sys2Proof/Machine/Boot.lean` do to it. -/

namespace Sys2Proof
open Machine Slice0
variable {s : Machine.State}
set_option Elab.async false

theorem MemOk.startFw (h : MemOk s) (core slot agent) : MemOk (s.startFw core slot agent) := h.setGroup ..

theorem MemOk.dieStart (h : MemOk s) (d) : MemOk (s.dieStart d) := by
  unfold State.dieStart
  refine MemOk.foldl ?_ (fun _ _ k => k.updCluster ..) _
  refine MemOk.foldl ?_ (fun _ _ k => (k.setCore ..).startFw ..) _
  dsimp only [MemOk]
  exact h.updDie ..

theorem MemOk.raiseSvn (h : MemOk s) (b) : MemOk (s.raiseSvn b) := .ite h.upd h

theorem MemOk.bootSvns (h : MemOk s) : MemOk s.bootSvns := h.foldl (fun _ _ k => k.raiseSvn ..) _

/-- What boot places in an empty memory is canonical. -/
theorem memOk_railsUp : MemOk s.railsUp := by
  unfold State.railsUp
  refine MemOk.foldl (MemOk.updCtx ?_ ..) (fun _ _ k => k.dieStart ..) _
  exact foldl_memWrite_wf Prod.fst Prod.snd _ rfl

theorem MemOk.bootUp (h : MemOk s) : MemOk s.bootUp := by
  unfold State.bootUp
  exact .ite memOk_railsUp h.bootSvns.upd

theorem MemOk.execPowerOn (h : MemOk s) : OutCanon (execPowerOn s) := by
  unfold Machine.execPowerOn
  refine .next ?_
  split
  · exact h.bootUp
  · exact h.bootUp
  · exact h

theorem MemOk.formRoles (h : MemOk s) (core) : MemOk (s.formRoles core) :=
  h.foldl (fun _ _ k => (k.growOne ..).getD k) _

theorem MemOk.checkBoot (h : MemOk s) : MemOk s.checkBoot := by
  unfold State.checkBoot
  refine .ite ?_ h
  exact h.upd.foldl (fun _ _ k => k.startFw ..) _

theorem MemOk.raised (h : MemOk s) (core) : MemOk (s.raised core) := by
  unfold State.raised
  refine MemOk.checkBoot ?_ ..
  refine .ite ?_ ?_
  · exact h.updCluster ..
  · exact h.formRoles ..

theorem MemOk.rpairM (h : MemOk s) (core v done) : MemOk (s.rpairM core v done).2 := by
  unfold State.rpairM
  refine .ite_snd h ?_
  refine .ite_snd h ?_
  refine .ite_snd ?_ ?_
  · refine .ite_snd h ?_
    exact (h.setCore ..).raised ..
  · refine .ite_snd h ?_
    exact h.setCore ..

theorem MemOk.execRpair (h : MemOk s) (p d a) : OutCanon (execRpair p d a s) :=
  h.run (h.sysM _ _ _ fun _ _ _ => .ok (h.rpairM ..))

theorem MemOk.execRpairDone (h : MemOk s) (p d a) : OutCanon (execRpairDone p d a s) :=
  h.run (h.sysM _ _ _ fun _ _ _ => .ok (h.rpairM ..))

end Sys2Proof
end

section
/-! SUPPORT. Device memory stays canonical: what the functions of `Sys2Proof/Machine/Matrix.lean` do to it. -/

namespace Sys2Proof
open Machine Slice0
variable {s : Machine.State}
set_option Elab.async false

theorem MemOk.addSums (h : MemOk s) (core slot acc l) : MemOk (s.addSums core slot acc l) := by
  unfold State.addSums
  split
  · exact h
  · refine .ite ?_ ?_
    · exact (h.putWin ..).updGroup ..
    · exact h.putWin ..

theorem MemOk.cleanRows (h : MemOk s) (core slot ws) : MemOk (s.cleanRows core slot ws) := by
  unfold State.cleanRows
  split
  · exact h
  · exact h.updCore ..

theorem MemOk.endOp (h : MemOk s) (core slot stream counted) : MemOk (s.endOp core slot stream counted) :=
  (h.updGroup ..).settleCluster ..

theorem MemOk.engineUe (h : MemOk s) (core slot stream o b) : MemOk (s.engineUe core slot stream o b) :=
  (h.updGroup ..).consumeUe ..

theorem MemOk.beginStep (h : MemOk s) (core slot stream g o q) : MemOk (s.beginStep core slot stream g o q) :=
  by
  unfold State.beginStep
  refine .ite h ?_
  dsimp only
  split
  · exact h.engineUe ..
  · exact (h.addSums ..).updGroup ..

theorem MemOk.endStep (h : MemOk s) (core slot stream o q l) : MemOk (s.endStep core slot stream o q l) := by
  unfold State.endStep
  refine .ite ?_ ?_
  · exact (h.addSums ..).updGroup ..
  · exact (h.addSums ..).endOp ..

theorem MemOk.beginRows (h : MemOk s) (core slot stream o ws blocks z) : MemOk
  (s.beginRows core slot stream o ws blocks z) :=
  (h.writeRows ..).updGroup ..

theorem MemOk.endRows (h : MemOk s) (core slot stream ws blocks z) : MemOk
  (s.endRows core slot stream ws blocks z) :=
  (((h.writeRows ..).cleanRows ..).updGroup ..).endOp ..

theorem MemOk.beginLoad (h : MemOk s) (core slot stream g o w sl src rc) : MemOk
  (s.beginLoad core slot stream g o w sl src rc) := by
  unfold State.beginLoad
  refine .ite h ?_
  split
  · exact h.engineUe ..
  · exact (h.beginRows ..).updGroup ..

theorem MemOk.beginDrain (h : MemOk s) (core slot stream g o w sl zr dst rc) : MemOk
  (s.beginDrain core slot stream g o w sl zr dst rc) := by
  unfold State.beginDrain
  refine .ite h ?_
  split
  · exact h.engineUe ..
  · exact (h.beginRows ..).updGroup ..

theorem MemOk.execMatrixStep (h : MemOk s) (core slot stream) : OutCanon (execMatrixStep core slot stream s) :=
  by
  unfold Machine.execMatrixStep
  split
  · exact .next h
  · split
    · exact .next h
    · refine .ite (.next h) ?_
      refine .next ?_
      split
      · split
        · exact h.beginStep ..
        · exact h.endStep ..
      · exact h.beginRows ..
      · exact h.beginDrain ..
      · exact h.beginLoad ..
      · exact h.endRows ..
      · exact (h.tlAdd ..).endOp ..

theorem MemOk.queueOp (h : MemOk s) (t k1 lo counted) : MemOk (s.queueOp t k1 lo counted) := h.updGroup ..

theorem MemOk.mloopM (h : MemOk s) (p slot t a b k1 sa sb sp scr) : Canon MemOk
  (s.mloopM p slot t a b k1 sa sb sp scr) := by
  unfold State.mloopM
  refine h.groupM _ fun _ _ _ => ?_
  refine .ite ?_ ?_
  · exact (needRegs_canon ..).check fun _ => (waitIf_canon ..).check fun _ => (trapIf_canon ..).check fun _ =>
      (trapIf_canon ..).check fun _ => (trapIf_canon ..).check fun _ => (trapIf_canon ..).check fun _ =>
      (trapIf_canon ..).check fun _ => (waitIf_canon ..).check fun _ => .ok ((h.queueOp ..).next.updGroup ..)
  · exact (waitIf_canon ..).check fun _ => (trapIf_canon ..).check fun _ => (trapIf_canon ..).check fun _ =>
      (trapIf_canon ..).check fun _ => (trapIf_canon ..).check fun _ => (trapIf_canon ..).check fun _ =>
      (waitIf_canon ..).check fun _ => .ok ((h.queueOp ..).next.updGroup ..)

theorem MemOk.execMma (h : MemOk s) (p slot t a b sp) : OutCanon (execMma p slot t a b sp s) :=
  h.run (h.mloopM ..)

theorem MemOk.execMloop (h : MemOk s) (p slot t a b x) : OutCanon (execMloop p slot t a b x s) :=
  h.run (h.mloopM ..)

theorem MemOk.execMloops (h : MemOk s) (p slot t a b x) : OutCanon (execMloops p slot t a b x s) :=
  h.run (h.mloopM ..)

theorem MemOk.execMzero (h : MemOk s) (p t cnt) : OutCanon (execMzero p t cnt s) :=
  h.run (h.groupM _ fun _ _ _ => (waitIf_canon ..).check fun _ => (trapIf_canon ..).check fun _ =>
    (waitIf_canon ..).check fun _ => .ok (h.queueOp ..).next)

theorem MemOk.maccM (h : MemOk s) (p slot t a) {k : Group → DWord → Nat → Nat → Machine.State}
    (hk : ∀ g w o lo, MemOk (k g w o lo)) : Canon MemOk (s.maccM p slot t a k) := by
  unfold State.maccM
  refine h.groupM _ fun _ _ _ => ?_
  refine (waitIf_canon ..).check fun _ => ?_
  refine (trapIf_canon ..).check fun _ => ?_
  refine (trapIf_canon ..).check fun _ => ?_
  refine (trapIf_canon ..).check fun _ => ?_
  exact (waitIf_canon ..).check fun _ => .ok ((hk ..).next.updGroup ..)

theorem MemOk.execMdrain (h : MemOk s) (p zr slot t a) : OutCanon (execMdrain p zr slot t a s) :=
  h.run (h.maccM _ _ _ _ fun _ _ _ _ => h.queueOp ..)

theorem MemOk.execMldacc (h : MemOk s) (p slot t a) : OutCanon (execMldacc p slot t a s) :=
  h.run (h.maccM _ _ _ _ fun _ _ _ _ => h.queueOp ..)

theorem MemOk.execMsyncWait (h : MemOk s) (p mask) : OutCanon (execMsyncWait p mask s) :=
  h.run (h.groupM _ fun _ _ _ => (waitIf_canon ..).check fun _ => (parkIf_canon ..).check fun _ => .ok h.next)

theorem MemOk.execMsyncMark (h : MemOk s) (p stream tinc tl) : OutCanon (execMsyncMark p stream tinc tl s) :=
  h.run (h.groupM _ fun _ _ _ => (waitIf_canon ..).check fun _ => .ok ((h.queueOp ..).next.close ..))

theorem MemOk.execMstatRd (h : MemOk s) (p d) : OutCanon (execMstatRd p d s) :=
  h.run (h.groupM _ fun _ _ _ => (needRegs_canon ..).check fun _ => .ok (h.putAll ..).next)

theorem MemOk.execMstatClr (h : MemOk s) (p) : OutCanon (execMstatClr p s) :=
  h.run (h.groupM _ fun _ _ _ => .ok (h.updGroup ..).next)

theorem MemOk.execMstatMeta (h : MemOk s) (p a stream) : OutCanon (execMstatMeta p a stream s) :=
  h.run (h.groupM _ fun _ _ _ => (needRegs_canon ..).check fun _ => .ok (h.updGroup ..).next)

theorem MemOk.execMstatScale (h : MemOk s) (p a stream) : OutCanon (execMstatScale p a stream s) :=
  h.run (h.groupM _ fun _ _ _ => (needRegs_canon ..).check fun _ => .ok (h.updGroup ..).next)

end Sys2Proof
end

section
/-! SUPPORT. Device memory stays canonical: what the functions of `Sys2Proof/Machine/Stipple.lean` do to it. -/

namespace Sys2Proof
open Machine Slice0
variable {s : Machine.State}
set_option Elab.async false

theorem MemOk.updArray (h : MemOk s) (core i f) : MemOk (s.updArray core i f) := h.updCore ..

theorem MemOk.sendTag (h : MemOk s) (core i) : MemOk (s.sendTag core i) := by
  unfold State.sendTag
  dsimp only
  split
  · exact h
  · refine .ite ?_ h
    dsimp only [MemOk]
    exact h.updArray ..

theorem MemOk.landTag (h : MemOk s) (core i t) : MemOk (s.landTag core i t) := h.updArray ..

theorem MemOk.linkDown (h : MemOk s) (core i) : MemOk (s.linkDown core i) := by
  unfold State.linkDown
  refine .ite h ?_
  dsimp only [MemOk]
  exact (h.updArray ..).updArray ..

theorem MemOk.linkUp (h : MemOk s) (core i) : MemOk (s.linkUp core i) := (h.updArray ..).sendTag ..

theorem MemOk.saAsync (h : MemOk s) (core i c cause) : MemOk (s.saAsync core i c cause) := h.takeAsync ..

theorem MemOk.popCmd (h : MemOk s) (core i) : MemOk (s.popCmd core i) := h.updArray ..

theorem MemOk.endSweep (h : MemOk s) (core i c tinc tl cause) : MemOk (s.endSweep core i c tinc tl cause) := by
  unfold State.endSweep
  refine MemOk.tlAdd ?_ ..
  split
  · exact ((h.popCmd ..).updArray ..).saAsync ..
  · exact h.popCmd ..

theorem MemOk.countSweep (h : MemOk s) (core i c left tinc tl) : MemOk (s.countSweep core i c left tinc tl) :=
  by
  unfold State.countSweep
  refine .ite ?_ ?_
  · exact h.endSweep ..
  · exact h.updArray ..

theorem MemOk.doSweep (h : MemOk s) (core i c left tinc tl gh) : MemOk (s.doSweep core i c left tinc tl gh) :=
  by
  unfold State.doSweep
  extract_lets a n low s1 s2 r t s3 s4
  have h1 : MemOk s1 := h.updArray ..
  have h2 : MemOk s2 := .ite (h1.sendTag ..) h1
  have h4 : MemOk s4 := (h2.updArray ..).sendTag ..
  exact .ite (h4.endSweep ..) (h4.countSweep ..)

theorem MemOk.execSweep (h : MemOk s) (core i) : OutCanon (execSweep core i s) := by
  unfold Machine.execSweep
  dsimp only
  split
  · exact .next h
  · split
    · refine .ite (.next h) ?_
      refine .ite (.next (h.endSweep ..)) ?_
      refine .ite (.next (h.endSweep ..)) ?_
      split
      · exact .next (h.doSweep ..)
      · exact .next (h.updArray ..)
      · refine .next ?_
        refine .ite ?_ ?_
        · exact h.endSweep ..
        · exact h.updArray ..
    · exact .next h

theorem MemOk.execTagArrival (h : MemOk s) (core i) : OutCanon (execTagArrival core i s) := by
  unfold Machine.execTagArrival
  split
  · exact .next h
  · split
    · exact .next h
    · exact .next (h.upd.landTag ..)

theorem MemOk.execBoundaryTimeout (h : MemOk s) (core i) : OutCanon (execBoundaryTimeout core i s) := by
  unfold Machine.execBoundaryTimeout
  dsimp only
  split
  · exact .next h
  · split
    · refine .next ?_
      refine .ite ?_ h
      exact h.endSweep ..
    · exact .next h

theorem MemOk.setLink (h : MemOk s) (core i w peer) : MemOk (s.setLink core i w peer).1 := by
  unfold State.setLink
  refine .ite_fst h ?_
  refine .ite ?_ ?_
  · exact (((h.linkDown ..).updArray ..).linkUp ..).linkUp ..
  · exact (h.linkDown ..).updArray ..

theorem MemOk.perform (h : MemOk s) (core i c) : DoneOk (s.perform core i c) := by
  unfold State.perform
  dsimp only
  split
  · exact h.updArray ..
  · exact h.updArray ..
  · exact h.updArray ..
  · exact .ite trivial (h.setLink ..)
  · exact h.updArray ..
  · refine .ite trivial ?_
    split
    · exact trivial
    · exact h.updArray ..
  · exact trivial
  · split
    · exact h
    · refine .ite h ?_
      exact MemOk.ite ((h.putRegs ..).updGroup ..) (h.putRegs ..)

theorem MemOk.release (h : MemOk s) (core c) : MemOk (s.release core c) := by
  unfold State.release
  dsimp only [MemOk]
  exact h.updGroup ..

theorem MemOk.execArrayCommand (h : MemOk s) (core i) : OutCanon (execArrayCommand core i s) := by
  unfold Machine.execArrayCommand
  dsimp only
  split
  · exact .next h
  · next c _ =>
    have acted : DoneOk (if ((s.core core).array i).oos && c.kind.barred then Done.trap .saBias
        else s.perform core i c) := .ite trivial (h.perform ..)
    have popped := h.popCmd core i
    split
    · exact .next h
    · exact .next (.ite ((popped.release ..).consumeUe ..).upd popped)
    · have stored := fun f => popped.updArray core i fun a => { a with lastFault := faultCode f }
      exact .next (.ite (((stored _).release ..).takeTrap ..).upd (stored _))
    · next eq =>
      have k := acted.of eq
      refine .next (.ite (MemOk.upd (s := if c.kind.barred then _ else _) ?_) (MemOk.popCmd k ..))
      exact .ite (((MemOk.popCmd k ..).release ..).next.close ..) ((MemOk.popCmd k ..).release ..).next

theorem MemOk.enter (h : MemOk s) (g arr t k1 hold) : MemOk (s.enter g arr t k1 hold) := by
  unfold State.enter
  refine .ite ?_ ?_
  · exact (h.updArray ..).updGroup ..
  · exact h.updArray ..

theorem MemOk.saTrap {α : Type} {P : α → Prop} (h : MemOk s) (g arr lo f) : Canon P (s.saTrap g arr lo f :
  M α) :=
  (h.updArray ..).raise _

theorem MemOk.stippleM (h : MemOk s) (p arr rs) {k : Group → Core → LaneMask → Nat → M (Option
  (ACmdKind × Bool))}
    (hk : ∀ g x t lo, Canon (fun _ => True) (k g x t lo)) : Canon MemOk (s.stippleM p arr rs k) := by
  unfold State.stippleM
  refine h.groupM _ fun _ _ _ => (needRegs_canon ..).check fun _ => (hk ..).check fun r => ?_
  split
  · exact .ok (h.next.close ..)
  · refine .ite ((h.saTrap ..).check fun _ => ?_) ?_
    all_goals exact (waitIf_canon ..).check fun _ => .ite (.ok (h.enter ..)) (.ok ((h.enter ..).next.close ..))

theorem MemOk.execSacfgCtl (h : MemOk s) (p arr a b) : OutCanon (execSacfgCtl p arr a b s) :=
  h.run (h.stippleM _ _ _ fun _ _ _ _ => .ok trivial)

theorem MemOk.execSacfgKey (h : MemOk s) (p arr a b) : OutCanon (execSacfgKey p arr a b s) :=
  h.run (h.stippleM _ _ _ fun _ _ _ _ => .ok trivial)

theorem MemOk.execSacfgSc (h : MemOk s) (p arr a) : OutCanon (execSacfgSc p arr a s) :=
  h.run (h.stippleM _ _ _ fun _ _ _ _ => .ok trivial)

theorem MemOk.execSacfgLink (h : MemOk s) (p arr a) : OutCanon (execSacfgLink p arr a s) := by
  unfold Machine.execSacfgLink
  refine h.run ?_
  refine h.stippleM _ _ _ fun _ _ _ _ => ?_
  refine .ite ?_ ?_
  · exact h.saTrap ..
  · exact .ok trivial

theorem MemOk.execSald (h : MemOk s) (p arr a b region) : OutCanon (execSald p arr a b region s) := by
  unfold Machine.execSald
  refine h.run ?_
  refine h.stippleM _ _ _ fun _ _ _ _ => ?_
  refine .ite ?_ ?_
  · exact .ok trivial
  · exact (trapIf_canon ..).check fun _ => (trapIf_canon ..).check fun _ => .ok trivial

theorem MemOk.execSaclamp (h : MemOk s) (p arr a) : OutCanon (execSaclamp p arr a s) :=
  h.run (h.stippleM _ _ _ fun _ _ _ _ => .ok trivial)

theorem MemOk.execSaswp (h : MemOk s) (p arr a tinc tl) : OutCanon (execSaswp p arr a tinc tl s) := by
  unfold Machine.execSaswp
  refine h.run ?_
  refine (h.stippleM _ _ _ fun _ _ _ _ => .ok trivial).bind fun _ k => ?_
  refine .ite ?_ ?_
  · exact .ok (k.updGroup ..)
  · exact .ok k

theorem MemOk.execSardState (h : MemOk s) (p arr d a) : OutCanon (execSardState p arr d a s) :=
  h.run (h.stippleM _ _ _ fun _ _ _ _ => .ok trivial)

theorem MemOk.execSardCnt (h : MemOk s) (p arr d a) : OutCanon (execSardCnt p arr d a s) :=
  h.run (h.stippleM _ _ _ fun _ _ _ _ => .ok trivial)

theorem MemOk.execSardStat (h : MemOk s) (p arr d) : OutCanon (execSardStat p arr d s) :=
  h.run (h.stippleM _ _ _ fun _ _ _ _ => .ok trivial)

theorem MemOk.execSardMon (h : MemOk s) (p arr d) : OutCanon (execSardMon p arr d s) :=
  h.run (h.stippleM _ _ _ fun _ _ _ _ => .ok trivial)

end Sys2Proof
end

section
/-! SUPPORT. Device memory stays canonical: what the functions of `Sys2Proof/Machine/Clusters.lean` do to it. -/

namespace Sys2Proof
open Machine Slice0
variable {s : Machine.State}
set_option Elab.async false

theorem MemOk.preemptAll (h : MemOk s) (l) : SomeOk MemOk (s.preemptAll l) := by
  induction l generalizing s with
  | nil => exact .some h
  | cons t r ih =>
    unfold State.preemptAll
    split
    · exact .none
    · next eq => exact ih ((h.preempt ..).get eq)

theorem MemOk.stopUnit (h : MemOk s) (ts) : MemOk (s.stopUnit ts) := by
  unfold State.stopUnit
  split
  · next eq =>
    have k := (h.preemptAll ..).get eq
    refine .ite ?_ h
    exact k.saveTeams ..
  · exact h

theorem MemOk.stopTeams (h : MemOk s) (p) : MemOk (s.stopTeams p) := by
  unfold State.stopTeams
  refine h.foldl (fun _ _ k => ?_) _
  refine .ite ?_ k
  exact k.stopUnit ..

theorem MemOk.flushCore (h : MemOk s) (c) : MemOk (s.flushCore c) :=
  ((h.publishNow ..).movePartials ..).keepAcks ..

theorem MemOk.flushCores (h : MemOk s) (cs) : MemOk (s.flushCores cs) :=
  h.foldl (fun _ _ k => k.flushCore ..) _

theorem MemOk.flushAll (h : MemOk s) : MemOk s.flushAll := h.flushCores ..

theorem MemOk.ctxForm (h : MemOk s) (g v) {k : Nat → M (Nat × Machine.State)}
    (hk : ∀ c, Canon (fun r => MemOk r.2) (k c)) : Canon (fun r => MemOk r.2) (s.ctxForm g v k) :=
  .ite (hk _) (.ite (.ok_snd h) (.ite (.ok_snd h) (.ite (.ok_snd h) (hk _))))

theorem MemOk.setQui (h : MemOk s) (c b) : MemOk (s.setQui c b) := h.updCtx ..

theorem MemOk.drainM (h : MemOk s) (c) : Canon (fun r => MemOk r.2) (s.drainM c) := by
  unfold State.drainM
  refine .ite (.ok_snd (h.setQui ..)) ?_
  refine .ite ?_ ?_
  · exact (h.setQui ..).parkIn ..
  · exact .ok_snd (h.setQui ..).flushAll

theorem MemOk.shelve (h : MemOk s) (c) : MemOk (s.shelve c) :=
  (h.upd.updCtx ..).foldl (fun _ _ k => k.settleOwed ..) _

theorem MemOk.unshelve (h : MemOk s) (c) : MemOk (s.unshelve c) :=
  (h.updCtx ..).foldl (fun _ _ k => k.updCore ..) _

theorem MemOk.preemptM (h : MemOk s) (c) : Canon (fun r => MemOk r.2) (s.preemptM c) := by
  unfold State.preemptM
  refine .ite (.ok_snd (h.setQui ..)) ?_
  refine .ite (((h.setQui ..).stopTeams ..).parkIn ..) ?_
  refine .ite ?_ ?_
  · exact (((h.setQui ..).stopTeams ..).shelve ..).parkIn ..
  · exact .ok_snd (((h.setQui ..).stopTeams ..).shelve ..).flushAll

theorem MemOk.resumeCtx (h : MemOk s) (c) : MemOk (s.resumeCtx c) := by
  unfold State.resumeCtx
  refine .ite ?_ ?_
  · exact (h.setQui ..).unshelve ..
  · exact h.setQui ..

theorem MemOk.execQuiesceDrain (h : MemOk s) (p d a) : OutCanon (execQuiesceDrain p d a s) :=
  h.run (h.sysM _ _ _ fun _ _ _ => h.ctxForm _ _ fun _ => h.drainM ..)

theorem MemOk.execQuiescePreempt (h : MemOk s) (p d a) : OutCanon (execQuiescePreempt p d a s) :=
  h.run (h.sysM _ _ _ fun _ _ _ => h.ctxForm _ _ fun _ => h.preemptM ..)

theorem MemOk.execQuiesceResume (h : MemOk s) (p d a) : OutCanon (execQuiesceResume p d a s) :=
  h.run (h.sysM _ _ _ fun _ _ _ => h.ctxForm _ _ fun _ => .ok_snd (h.resumeCtx ..))

theorem MemOk.arm (h : MemOk s) (c t) : MemOk (s.arm c t).2 := by
  unfold State.arm
  refine .ite_snd h ?_
  refine .ite_snd h ?_
  refine .ite_snd h ?_
  exact .ite_snd h h.upd

theorem MemOk.execGangsw (h : MemOk s) (p d a b) : OutCanon (execGangsw p d a b s) :=
  h.run (h.sysM _ _ _ fun _ _ _ => .ok (h.arm ..))

theorem MemOk.repin (h : MemOk s) (core q) : MemOk (s.repin core q) := by
  unfold State.repin
  split
  · next eq =>
    have k := MemOk.of_snd (h.allocWay ..) eq
    exact k.updCore ..
  · next eq =>
    have k := MemOk.of_snd (h.allocWay ..) eq
    exact k.upd

theorem MemOk.bringIn (h : MemOk s) (core v) : SomeOk MemOk (s.bringIn core v) := by
  unfold State.bringIn
  split
  · exact .none
  · next eq =>
    have k := (h.growBy ..).get eq
    refine .ite .none ?_
    exact .some ((k.updCore ..).foldl (fun _ _ k1 => k1.repin ..) _)

theorem MemOk.bringAll (h : MemOk s) (saved l) : SomeOk MemOk (s.bringAll saved l) := by
  induction l generalizing s with
  | nil => exact .some h
  | cons c r ih =>
    unfold State.bringAll
    split
    · exact .none
    · next eq => exact ih ((h.bringIn ..).get eq)

theorem MemOk.landTags (h : MemOk s) : MemOk s.landTags := h.upd.foldl (fun _ _ k => k.landTag ..) _

theorem MemOk.switchDone (h : MemOk s) (a) : MemOk (s.switchDone a) := h.upd.completion ..

theorem MemOk.swapContexts (h : MemOk s) (old a) : SomeOk MemOk (s.swapContexts old a) := by
  unfold State.swapContexts
  refine SomeOk.map (P := MemOk) (MemOk.bringAll ?_ ..) fun t k => ?_
  · have cleared := fun cs => (h.flushAll.landTags.foldl (fun t (c : Nat) k =>
      k.updCore c Core.clearOut) cs).foldl
      (fun t c k => k.settleOwed c) cs
    cases old with
    | none => exact cleared _
    | some o => exact (cleared _).updCtx ..
  · exact MemOk.switchDone (.ite (k.updCtx ..) ((k.updCtx ..).unshelve ..)) ..

theorem MemOk.execGangSwitch (h : MemOk s) : OutCanon (execGangSwitch s) := by
  unfold Machine.execGangSwitch
  refine .next ?_
  split
  · exact h
  · refine .ite h ?_
    split
    · exact .ite ((h.swapContexts ..).getD h) h
    · have stopped := fun p => h.stopTeams p
      exact .ite (h.switchDone ..) (.ite (stopped _) (((stopped _).swapContexts ..).getD (stopped _)))

theorem MemOk.suspects (h : MemOk s) (k1) : MemOk (s.suspects k1) := by
  unfold State.suspects
  refine h.foldl (fun _ _ k => ?_) _
  refine .ite k ?_
  refine MemOk.updGrid ?_ ..
  refine .ite ?_ k
  exact k.completion ..

theorem MemOk.topology (h : MemOk s) (ks n) : MemOk (s.topology ks n) :=
  (h.foldl (fun _ _ k => k.updCore ..) _).foldl (fun _ _ k => k.aeqAppend ..) _

theorem MemOk.dropRecords (h : MemOk s) (core v) : MemOk (s.dropRecords core v) :=
  h.foldl (fun _ _ k => k.foldl (fun _ _ k1 => k1.saAsync ..) _) _

theorem MemOk.dropQueue (h : MemOk s) (core i l) : MemOk (s.dropQueue core i l) := by
  induction l generalizing s with
  | nil => exact h
  | cons c r ih =>
    unfold State.dropQueue
    refine ih ?_
    split
    · exact h.endSweep ..
    · exact h.popCmd ..

theorem MemOk.arraysOut (h : MemOk s) (core) : MemOk (s.arraysOut core) := by
  unfold State.arraysOut
  refine (h.foldl (fun _ _ k => (k.updArray ..).dropQueue ..) _).foldl (fun _ _ k => ?_) _
  split
  · exact k
  · exact (k.dropRecords ..).updCtx ..

theorem MemOk.arraysIn (h : MemOk s) (core) : MemOk (s.arraysIn core) := by
  unfold State.arraysIn
  dsimp only [MemOk]
  exact h.updCore ..

theorem MemOk.combineCore (h : MemOk s) (core) : MemOk (s.combineCore core) :=
  h.foldl (fun _ _ k => k.combine ..) _

theorem MemOk.moveLogical (h : MemOk s) (ks) : MemOk (s.moveLogical ks) := by
  unfold State.moveLogical
  split
  · exact h
  · exact h.upd

theorem MemOk.withdraw (h : MemOk s) (ks) : MemOk (s.withdraw ks) :=
  ((((((h.foldl (fun _ _ k => k.combineCore ..) _).foldl (fun _ _ k => k.updCore ..) _).foldl (fun _ _ k =>
    k.arraysOut ..) _).foldl (fun _ _ k => k.updCluster ..) _).topology ..).foldl (fun _ _ k =>
    k.suspects ..) _).moveLogical ..

theorem MemOk.closeClusters (h : MemOk s) (ks) : MemOk (s.closeClusters ks) :=
  h.foldl (fun _ _ k => k.updCluster ..) _

theorem MemOk.drainClusters (h : MemOk s) (ks) : MemOk (s.drainClusters ks).1 :=
  (h.closeClusters ..).stopTeams ..

theorem MemOk.scanPass (h : MemOk s) (k1) : MemOk (s.scanPass k1) := by
  unfold State.scanPass
  refine MemOk.certify ?_ ..
  refine MemOk.foldl ?_ (fun _ _ k => k.arraysIn ..) _
  refine .ite ?_ ?_
  · exact (h.updCluster ..).topology ..
  · exact h.updCluster ..

theorem MemOk.scanOver (h : MemOk s) (k1) : MemOk (s.scanOver k1) := h.same rfl

theorem MemOk.scanM (h : MemOk s) (k1 pattern) : Canon (fun r => MemOk r.2) (s.scanM k1 pattern) := by
  unfold State.scanM
  refine .ite (h.parkIn ..) ?_
  refine .ite ((h.upd.drainClusters ..).parkIn ..) ?_
  refine .ite ?_ ?_
  · exact .ok_snd ((((h.upd.drainClusters ..).flushCores ..).scanPass ..).scanOver ..)
  · exact .ok_snd ((((h.upd.drainClusters ..).flushCores ..).suspects ..).scanOver ..)

theorem MemOk.execScanrun (h : MemOk s) (p d a b) : OutCanon (execScanrun p d a b s) := by
  unfold Machine.execScanrun
  refine h.run ?_
  refine h.sysM _ _ _ fun _ _ _ => ?_
  refine .ite (.ok_snd h) ?_
  refine .ite (.ok_snd (h.scanOver ..)) ?_
  refine .ite ?_ ?_
  · exact .ok_snd h
  · exact h.scanM ..

theorem MemOk.execScanFloorDrain (h : MemOk s) (k1) : OutCanon (execScanFloorDrain k1 s) := by
  unfold Machine.execScanFloorDrain
  refine .next ?_
  refine .ite h ?_
  refine .ite h.upd ?_
  refine .ite ?_ ?_
  · exact (h.upd.drainClusters ..).flushCores ..
  · exact h.upd.drainClusters ..

theorem MemOk.cluoffM (h : MemOk s) (k1) : Canon (fun r => MemOk r.2) (s.cluoffM k1) := by
  unfold State.cluoffM
  refine .ite ?_ ?_
  · exact (h.drainClusters ..).parkIn ..
  · exact .ok_snd ((((h.drainClusters ..).flushCores ..).withdraw ..).scanOver ..)

theorem MemOk.execCluoff (h : MemOk s) (p d a) : OutCanon (execCluoff p d a s) := by
  unfold Machine.execCluoff
  refine h.run ?_
  refine h.sysM _ _ _ fun _ _ _ => ?_
  refine .ite (h.cluoffM ..) ?_
  refine .ite (.ok_snd h) ?_
  refine .ite (.ok_snd h) ?_
  refine .ite ?_ ?_
  · exact .ok_snd h
  · exact h.cluoffM ..

theorem MemOk.wakeDie (h : MemOk s) (d) : MemOk (s.wakeDie d) :=
  h.foldl (fun _ _ k => (k.notify ..).inkNotices ..) _

theorem MemOk.lostSeqs (h : MemOk s) (d) : MemOk (s.lostSeqs d) := h.same rfl

theorem MemOk.dieDown (h : MemOk s) (d) : MemOk (s.dieDown d) :=
  (((((((((h.updDie ..).flushCores ..).updDie ..).withdraw ..).foldl (fun _ _ k =>
    k.combine ..) _).wakeDie ..).updDie ..).lostSeqs ..).foldl (fun _ _ k => k.scanOver ..) _).foldl
    (fun _ _ k => k.updCore ..) _

theorem MemOk.dieoffM (h : MemOk s) (d) : Canon (fun r => MemOk r.2) (s.dieoffM d) := by
  unfold State.dieoffM
  refine .ite ?_ ?_
  · exact .ok_snd (((h.updDie ..).drainClusters ..).dieDown ..)
  · exact ((h.updDie ..).drainClusters ..).parkIn ..

theorem MemOk.execDieoff (h : MemOk s) (p d a) : OutCanon (execDieoff p d a s) := by
  unfold Machine.execDieoff
  refine h.run ?_
  refine h.sysM _ _ _ fun _ _ _ => ?_
  refine .ite (h.dieoffM ..) ?_
  refine .ite (.ok_snd h) ?_
  refine .ite (.ok_snd h) ?_
  refine .ite ?_ ?_
  · exact .ok_snd h
  · exact h.dieoffM ..

theorem MemOk.withCores (h : MemOk s) (l) : MemOk { s with cores := l } := h

theorem MemOk.dieUp (h : MemOk s) (d) : MemOk (s.dieUp d) := (h.dieStart d).withCores _

theorem MemOk.dieonM (h : MemOk s) (g d) : Canon (fun r => MemOk r.2) (s.dieonM g d) := by
  unfold State.dieonM
  refine .ite ?_ ((h.dieUp ..).parkIn ..)
  refine .ite ?_ ?_
  · exact .ok_snd h
  · exact .error trivial

theorem MemOk.execDieon (h : MemOk s) (p d a) : OutCanon (execDieon p d a s) := by
  unfold Machine.execDieon
  refine h.run ?_
  refine h.sysM _ _ _ fun _ _ _ => ?_
  refine .ite (h.dieonM ..) ?_
  refine .ite (.ok_snd h) ?_
  refine .ite (.ok_snd h) ?_
  refine .ite ?_ ?_
  · exact .ok_snd h
  · exact h.dieonM ..

end Sys2Proof
end

section
/-! SUPPORT. Device memory stays canonical: what the functions of `Sys2Proof/Machine/Control.lean` do to it. -/

namespace Sys2Proof
open Machine Slice0
variable {s : Machine.State}
set_option Elab.async false

theorem checkTarget_canon (pc lane x3) : Canon (fun _ => True) (checkTarget pc lane x3) := by
  unfold Machine.checkTarget
  split
  · exact trapAddr_canon ..
  · refine .ite ?_ ?_
    · exact .ok trivial
    · exact trapAddr_canon ..

theorem checkTargets_canon (pc l) : Canon (fun _ => True) (checkTargets pc l) := by
  induction l with
  | nil => exact trivial
  | cons e r ih =>
    unfold checkTargets
    exact (checkTarget_canon ..).check fun _ => ih.check fun _ => trivial

theorem MemOk.fetchLoop (h : MemOk s) (core ctx t n) : Canon (fun r => MemOk r.2) (s.fetchLoop core ctx t n) :=
  by
  induction n generalizing s t with
  | zero => exact .ok_snd h
  | succ n ih =>
    unfold State.fetchLoop
    dsimp only
    split
    · exact .error trivial
    · exact .ok_snd (h.fetched ..)
    · exact .ok_snd (h.fetched ..)
    · exact (ih (h.fetched ..) _).bind fun _ k => .ok_snd k

theorem MemOk.capture (h : MemOk s) (g takers pc t) : Canon (fun r => MemOk r.2) (s.capture g takers pc t) := by
  unfold State.capture
  refine .ite ?_ ?_
  · exact (h.fetchLoop ..).bind fun _ k => .ok_snd k
  · exact .ok_snd h

theorem MemOk.jump (h : MemOk s) (m ts buf) : MemOk (s.jump m ts buf) := h.updGroup ..

theorem braTakers_canon (g c) : Canon (fun _ => True) (s.braTakers g c) := by
  unfold State.braTakers
  refine .ite (.ok trivial) ?_
  dsimp only
  split
  · exact .ok trivial
  · split
    · exact trapAt_canon ..
    · exact .ok trivial

theorem MemOk.braM (h : MemOk s) (c ofs) : Canon MemOk (s.braM c ofs) := by
  unfold State.braM
  refine agent_canon.check fun _ => ?_
  refine (braTakers_canon ..).check fun _ => ?_
  split
  · exact .ok h.next
  · exact (checkTarget_canon ..).check fun _ => (h.capture ..).bind fun _ k => .ok (k.jump ..)

theorem MemOk.execBra (h : MemOk s) (c ofs) : OutCanon (execBra c ofs s) := h.run (h.braM ..)

theorem MemOk.callM (h : MemOk s) (c link src) : Canon MemOk (s.callM c link src) := by
  unfold State.callM
  refine h.memM _ fun _ _ _ _ => ?_
  refine (needRegs_canon ..).check fun _ => ?_
  refine (uCheck_canon ..).check fun _ => ?_
  refine (checkTargets_canon ..).check fun _ => ?_
  refine .ok ?_
  refine MemOk.jump ?_ ..
  split
  · exact h.putAll64 ..
  · exact h

theorem MemOk.execBrx (h : MemOk s) (c a) : OutCanon (execBrx c a s) := h.run (h.callM ..)

theorem MemOk.execCall (h : MemOk s) (c d ofs) : OutCanon (execCall c d ofs s) := h.run (h.callM ..)

theorem MemOk.execCallInd (h : MemOk s) (c d a) : OutCanon (execCallInd c d a s) := h.run (h.callM ..)

theorem MemOk.execRet (h : MemOk s) (c a) : OutCanon (execRet c a s) := h.run (h.callM ..)

theorem MemOk.execExit (h : MemOk s) (p) : OutCanon (execExit p s) :=
  h.run (h.groupM _ fun _ _ _ => (waitIf_canon ..).check fun _ => .ok ((h.next.updGroup ..).close ..))

theorem MemOk.execNop (h : MemOk s) (x1) : OutCanon (execNop x1 s) :=
  h.run (agent_canon.check fun _ => .ok h.next)

theorem MemOk.execYield (h : MemOk s) (p) : OutCanon (execYield p s) :=
  h.run (h.groupM _ fun _ _ _ => .ok (h.next.updGroup ..))

theorem MemOk.barM (h : MemOk s) (p k1 id cnt) : Canon MemOk (s.barM p k1 id cnt) :=
  h.groupM _ fun _ _ _ => (waitIf_canon ..).check fun _ => .ok (h.updGroup ..)

theorem MemOk.execBarTeam (h : MemOk s) (p) : OutCanon (execBarTeam p s) := h.run (h.barM ..)

theorem MemOk.execBarSync (h : MemOk s) (p id cnt) : OutCanon (execBarSync p id cnt s) := h.run (h.barM ..)

theorem MemOk.execBarArrive (h : MemOk s) (p id cnt) : OutCanon (execBarArrive p id cnt s) :=
  h.run (h.barM ..)

theorem MemOk.execStage (h : MemOk s) (p) : OutCanon (execStage p s) :=
  h.run (h.groupM _ fun _ _ _ => (waitIf_canon ..).check fun _ => .ok (h.next.close ..))

theorem MemOk.execWaitc (h : MemOk s) (p nld nst ncp ntl) : OutCanon (execWaitc p nld nst ncp ntl s) :=
  h.run (h.groupM _ fun _ _ _ => (parkIf_canon ..).check fun _ => .ok h.next)

end Sys2Proof
end

section
/-! SUPPORT. Device memory stays canonical: what the functions of `Sys2Proof/Machine/Pod.lean` do to it. -/

namespace Sys2Proof
open Machine Slice0
variable {s : Machine.State}
set_option Elab.async false

theorem MemOk.readRange (h : MemOk s) (a n) : MemOk (s.readRange a n) :=
  h.foldl (fun _ _ k => ((k.atHome ..).combine ..).readLine ..) _

theorem MemOk.collRead (h : MemOk s) (ctx p n) : CStepOk (fun r => MemOk r.2) (s.collRead ctx p n) := by
  unfold State.collRead
  split
  · exact .fail
  · next d _ =>
    have read : CReadOk (fun r => MemOk r.2) ((s.range coachman ctx d p n).bind fun r => r.2.readHome r.1) :=
      (h.range ..).bind fun _ k => k.readHome _
    split
    · next eq => exact .ite .fail (.ok (read.get eq))
    · exact .wait
    · exact .fail

/-- The pointer's check is a variable while the step is unfolded, as in `MemOk.successors`. -/
theorem MemOk.collSlots (h : MemOk s) (c chunk i n) : CStepOk (fun r => MemOk r.2) (s.collSlots c chunk i n) :=
  by
  delta State.collSlots
  refine brecOn_meets (P := fun f : Machine.State → Nat → CStep (List (List Word) × Machine.State) =>
    ∀ s i, MemOk s → CStepOk (fun r : _ × Machine.State => MemOk r.2) (f s i)) ?_ (fun n b ih s i h =>
      ?_) n s i h
  · exact fun s i h => CStepOk.ok (a := ([], s)) h
  generalize unfolded : @State.collSlots._f = F
  delta State.collSlots._f at unfolded
  subst unfolded
  generalize ptrAdd = check
  revert check
  refine id fun check => ?_
  dsimp only
  split
  · exact .fail
  · split
    · next eq =>
      have rest := ih _ (i + 1) ((h.collRead ..).get eq)
      split
      · next eq =>
        have k := rest.get eq
        exact .ok k
      · exact rest
    · exact .wait
    · exact .fail

theorem MemOk.writeChunks (h : MemOk s) (ctx l bs) : MemOk (s.writeChunks ctx l bs) := by
  induction l generalizing s bs with
  | nil => exact h
  | cons c r ih =>
    unfold State.writeChunks
    exact ih (h.foldl (fun _ _ k => k.writeHome ..) _) _

theorem MemOk.settleChunks (h : MemOk s) (cs) : MemOk (s.settleChunks cs) :=
  h.foldl (fun _ _ k => k.settle ..) _

/-- The pointer's check is a variable while the definition is unfolded, as in `MemOk.successors`. -/
theorem MemOk.collWrite (h : MemOk s) (c chunk vals) : SomeOk MemOk (s.collWrite c chunk vals) := by
  generalize unfolded : @State.collWrite = F
  delta State.collWrite at unfolded
  subst unfolded
  generalize ptrAdd = check
  revert check
  refine id fun check => ?_
  dsimp only
  split
  · exact .none
  split
  · exact .none
  split
  · next eq =>
    have k := (h.range ..).get eq
    exact .some (MemOk.settleChunks (MemOk.writeChunks k ..) ..)
  · exact .none

theorem MemOk.sendNodes (h : MemOk s) (c vs) : MemOk (s.sendNodes c vs) :=
  h.foldl (fun _ _ k => k.foldl (fun _ _ k1 => k1.send ..) _) _

theorem MemOk.collAdd (h : MemOk s) (c) : MemOk (s.collAdd c) := by
  unfold State.collAdd
  refine .ite ?_ ?_
  · exact h.tlAdd ..
  · exact h.updCtx ..

theorem MemOk.collFail (h : MemOk s) (c) : MemOk (s.collFail c) := (h.collAdd ..).wbRecord ..

/-- What a chunk comes to is a variable while the cases are split
  (`id` keeps it one in the proof's term): evaluating it is out
of the kernel's reach. -/
theorem MemOk.collTry (h : MemOk s) (n c) : MemOk (s.collTry n c).1 := by
  delta State.collTry
  refine brecOn_meets (P := fun f : Machine.State → Coll → Machine.State × Option Coll =>
    ∀ s c, MemOk s → MemOk (f s c).1) (fun _ _ h => h) (fun n b ih s c h => ?_) n s c h
  generalize unfolded : @State.collTry._f = F
  delta State.collTry._f at unfolded
  subst unfolded
  dsimp only
  refine .ite_fst (h.collAdd ..) (.ite_fst h ?_)
  generalize own : (if c.loaded > c.next then CStep.ok (s, c) else _) = r
  have k : CStepOk (fun r => MemOk r.1) r := by
    rw [← own]
    refine .ite (.ok h) ?_
    split
    · next eq =>
      have k := (h.collSlots ..).get eq
      exact .ok (MemOk.sendNodes k ..)
    · exact .wait
    · exact .fail
  split
  · exact h
  · exact h.collFail ..
  · next t d =>
    have k : MemOk t := k.get rfl
    have wrote := k.collWrite d d.next
    have failed := k.collFail d
    generalize t.collWrite d d.next = write at wrote
    generalize t.collFail d = u at failed
    generalize d.result s.devno.toNat d.next s.steps = result
    revert wrote failed
    revert write u result
    refine id fun write u result wrote failed => ?_
    split
    · exact k
    · split
      · exact failed
      · next eq => exact ih _ _ ((wrote _).get eq)

theorem MemOk.runColl (h : MemOk s) (i) : MemOk (s.runColl i) := by
  unfold State.runColl
  split
  · exact h
  · exact .ite (h.collTry ..).upd h

theorem MemOk.execCollectiveStart (h : MemOk s) (n) : OutCanon (execCollectiveStart n s) := by
  unfold Machine.execCollectiveStart
  split
  · exact .next h
  · refine .ite (.next (h.runColl ..)) ?_
    refine .ite (.next h) ?_
    refine .next ?_
    refine MemOk.runColl ?_ ..
    dsimp only [MemOk]
    exact h.acquire ..

theorem MemOk.takeColl (h : MemOk s) (ctx ws) : SomeOk MemOk (s.takeColl ctx ws) := by
  unfold State.takeColl
  dsimp only
  split
  · exact .some (h.collFail ..)
  split
  · exact .none
  · exact .some (h.collFail ..)
  · next eq =>
    have k := (h.collRead ..).get eq
    exact .some (.ite (MemOk.upd k) (MemOk.collFail k ..))

theorem MemOk.keepHost (h : MemOk s) (r) : MemOk (s.keepHost r) := h.same rfl

theorem MemOk.takeColls (h : MemOk s) (ctx tail n) : MemOk (s.takeColls ctx tail n) := by
  induction n generalizing s with
  | zero => exact h
  | succ n ih =>
    unfold State.takeColls
    refine .ite (h.keepHost ..) ?_
    dsimp only
    split
    · exact (h.readRange ..).keepHost ..
    · next eq => exact ih ((((h.readRange ..).takeColl ..).get eq).updCtx ..)

theorem MemOk.collDoorbell (h : MemOk s) (ctx tail) : MemOk (s.collDoorbell ctx tail) := by
  unfold State.collDoorbell
  refine .ite h.upd ?_
  exact (h.upd.updCtx ..).takeColls ..

theorem MemOk.discardDg (h : MemOk s) : MemOk s.discardDg := h.same rfl

theorem MemOk.execData (h : MemOk s) (h1 level node vals) : OutCanon (execData h1 level node vals s) := by
  unfold Machine.execData
  split
  · exact .next h.discardDg
  · refine .ite (.next h) ?_
    refine .ite (.next (h.answer ..)) ?_
    split
    · exact .next h
    · refine .next ?_
      refine .ite (h.upd.answer ..) ?_
      refine MemOk.runColl ?_ ..
      dsimp only [MemOk]
      exact h.upd.answer ..

theorem MemOk.execAck (h : MemOk s) (h1) : OutCanon (execAck h1 s) := by
  unfold Machine.execAck
  split
  · exact .next h.discardDg
  · exact .next h.upd

theorem MemOk.resend (h : MemOk s) (n) : MemOk (s.resend n) := h.same rfl

theorem MemOk.execNak (h : MemOk s) (h1) : OutCanon (execNak h1 s) := by
  unfold Machine.execNak
  split
  · exact .next h.discardDg
  · refine .next ?_
    split
    · exact h.resend ..
    · exact h

theorem MemOk.execRetransmit (h : MemOk s) (n) : OutCanon (execRetransmit n s) := .next (h.resend ..)

theorem MemOk.fallBack (h : MemOk s) (i chunk) : MemOk (s.fallBack i chunk) := by
  unfold State.fallBack
  split
  · exact h
  · refine .ite h ?_
    refine MemOk.runColl ?_ ..
    dsimp only [MemOk]
    exact h.sendNodes ..

theorem MemOk.execIncomplete (h : MemOk s) (h1) : OutCanon (execIncomplete h1 s) := by
  unfold Machine.execIncomplete
  split
  · exact .next h.discardDg
  · split
    · exact .next h
    · exact .next (h.fallBack ..)

theorem MemOk.execCollectiveTimeout (h : MemOk s) (n chunk) : OutCanon (execCollectiveTimeout n chunk s) :=
  .next ((h.fallBack ..).runColl ..)

theorem MemOk.failWith (h : MemOk s) (peer l) : MemOk (s.failWith peer l) := by
  induction l generalizing s with
  | nil =>
    unfold State.failWith
    exact h.upd
  | cons c r ih =>
    unfold State.failWith
    exact .ite (ih (h.collFail ..)) (ih h).upd

theorem MemOk.execPeerUnreachable (h : MemOk s) (peer) : OutCanon (execPeerUnreachable peer s) := by
  unfold Machine.execPeerUnreachable
  refine .next ?_
  refine .ite ?_ h
  exact h.upd.failWith ..

theorem MemOk.execPtpfwd (h : MemOk s) (h1) : OutCanon (execPtpfwd h1 s) := by
  unfold Machine.execPtpfwd
  split
  · exact .next h.discardDg
  · exact .next h

theorem MemOk.execPtpSync (h : MemOk s) (t) : OutCanon (execPtpSync t s) := .next h.upd

theorem MemOk.execHoldover (h : MemOk s) : OutCanon (execHoldover s) := by
  unfold Machine.execHoldover
  refine .next ?_
  split
  · exact h.upd.healthRec ..
  · exact h

theorem MemOk.holdStep (h : MemOk s) (d) : MemOk (s.holdStep d) := by
  unfold State.holdStep
  split
  · exact h
  · have drained := fun f => (h.updDie d f).drainClusters (dieClusters d)
    refine MemOk.ite (MemOk.dieUp ?_ ..) ?_
    · exact .ite_fst h (.ite_fst ((drained _).dieDown ..) (drained _))
    · exact .ite_fst h (.ite_fst ((drained _).dieDown ..) (drained _))

theorem MemOk.holdDie (h : MemOk s) (d h1) : MemOk (s.holdDie d h1) := (h.updDie ..).holdStep ..

theorem MemOk.execModuleLoss (h : MemOk s) (pair) : OutCanon (execModuleLoss pair s) := by
  unfold Machine.execModuleLoss
  refine .next ?_
  split
  · exact h
  · exact h
  · refine .ite ?_ (h.upd.healthRec ..)
    refine MemOk.holdDie ?_ ..
    dsimp only [MemOk]
    exact h.upd.healthRec ..

theorem MemOk.execScrubRead (h : MemOk s) (sector) : OutCanon (execScrubRead sector s) := by
  unfold Machine.execScrubRead
  refine .ite (.next h) ?_
  split
  · refine .next ?_
    dsimp only [MemOk]
    exact h.readSector ..
  · exact .next ((h.markPoison ..).healthRec ..)
  · exact .next h

theorem MemOk.execScrubWriteback (h : MemOk s) (n) : OutCanon (execScrubWriteback n s) := by
  unfold Machine.execScrubWriteback
  split
  · exact .next h
  · exact .next (.ite h.upd.upd h.upd)

end Sys2Proof
end

section
/-! SUPPORT. Device memory stays canonical: what the functions of `Sys2Proof/Machine/Host.lean` do to it. -/

namespace Sys2Proof
open Machine Slice0
variable {s : Machine.State}
set_option Elab.async false

theorem MemOk.hostError (h : MemOk s) (n) : MemOk (s.hostError n) := h.same rfl

theorem MemOk.byHost (h : MemOk s) (n) {k : Machine.State → Machine.State} (hk : ∀ t, MemOk t → MemOk (k t)) :
    MemOk (s.byHost n k) :=
  .ite (h.hostError ..) (hk _ h)

theorem MemOk.freezeHost (h : MemOk s) : MemOk s.freezeHost := h.same rfl

theorem MemOk.freezeSideband (h : MemOk s) : MemOk s.freezeSideband := h.same rfl

theorem MemOk.bySideband (h : MemOk s) {k : Machine.State → Machine.State} (hk : ∀ t, MemOk t → MemOk (k t)) :
    MemOk (s.bySideband k) :=
  .ite h.upd (hk _ h)

theorem MemOk.hostRead (h : MemOk s) (a n) : MemOk (s.hostRead a n) := by
  unfold State.hostRead
  refine .ite h.upd ?_
  refine .ite (h.keepHost ..) ?_
  refine .ite ?_ ?_
  · dsimp only [MemOk]
    exact h.readRange ..
  · dsimp only [MemOk]
    exact h.readRange ..

theorem MemOk.execHostMemRead (h : MemOk s) (addr len) : OutCanon (execHostMemRead addr len s) :=
  .next (h.byHost _ fun _ k => k.hostRead ..)

theorem MemOk.hostStore (h : MemOk s) (a bs) : MemOk (s.hostStore a bs) := by
  unfold State.hostStore
  refine .ite h.freezeHost ?_
  refine .ite h.upd ?_
  exact h.writeChunks ..

theorem MemOk.execHostMemWrite (h : MemOk s) (addr bytes) : OutCanon (execHostMemWrite addr bytes s) :=
  .next (h.byHost _ fun _ k => k.hostStore ..)

theorem MemOk.goWrite (h : MemOk s) (i w) : MemOk (s.goWrite i w) := by
  unfold State.goWrite
  refine .ite h ?_
  refine .ite ?_ ?_
  · exact h.upd.homeWrite ..
  · exact (h.upd.homeWrite ..).updCore ..

theorem MemOk.execGo (h : MemOk s) (n data) : OutCanon (execGo n data s) := by
  unfold Machine.execGo
  refine .next ?_
  split
  · exact h
  · exact h.upd
  · split
    · exact h
    · dsimp only [MemOk]
      exact h.storeLine ..
  · split
    · exact h
    · exact h.goWrite ..
  · exact h.upd

theorem MemOk.hostPlace (h : MemOk s) (ctx wb) : MemOk (s.hostPlace ctx wb) := by
  unfold State.hostPlace
  dsimp only
  split
  · refine .ite ((h.readRange ..).badWb ..) ?_
    split
    · exact (h.readRange ..).badWb ..
    · exact (h.readRange ..).updCtx ..
  · exact h.updCtx ..

theorem MemOk.takeEntries (h : MemOk s) (ctx qn tail n) : MemOk (s.takeEntries ctx qn tail n) := by
  induction n generalizing s with
  | zero => exact h
  | succ n ih =>
    unfold State.takeEntries
    have read := fun a => h.readRange a 8
    refine .ite (h.keepHost ..) (.ite ((read _).keepHost ..) (ih ?_))
    exact .ite ((((read _).hostPlace ..).updQueue ..).updQueue ..) (((read _).hostPlace ..).updQueue ..)

theorem MemOk.queueDoorbell (h : MemOk s) (ctx qn tail) : MemOk (s.queueDoorbell ctx qn tail) := by
  unfold State.queueDoorbell
  refine .ite h.upd ?_
  exact h.upd.takeEntries ..

theorem MemOk.serveHost (h : MemOk s) (x2) : MemOk (s.serveHost x2) := by
  unfold State.serveHost
  split
  · exact h.queueDoorbell ..
  · exact h.collDoorbell ..
  · exact h.hostRead ..

theorem MemOk.execQdb (h : MemOk s) (ctx q tail) : OutCanon (execQdb ctx q tail s) :=
  .next (h.byHost _ fun _ k => k.queueDoorbell ..)

theorem MemOk.errorHead (h : MemOk s) (ctx head) : MemOk (s.errorHead ctx head) := by
  unfold State.errorHead
  refine .ite ?_ h
  exact h.updCtx ..

theorem MemOk.execAeqh (h : MemOk s) (ctx head) : OutCanon (execAeqh ctx head s) :=
  .next (h.byHost _ fun _ k => k.errorHead ..)

theorem MemOk.execColdb (h : MemOk s) (ctx tail) : OutCanon (execColdb ctx tail s) :=
  .next (h.byHost _ fun _ k => k.collDoorbell ..)

theorem MemOk.submit (h : MemOk s) : MemOk s.submit := by
  unfold State.submit
  refine .ite h.upd ?_
  exact h.upd.freezeHost

theorem MemOk.writeBar0 (h : MemOk s) (off v) : MemOk (s.writeBar0 off v) := by
  unfold State.writeBar0
  refine .ite h ?_
  refine .ite h.upd ?_
  refine .ite ?_ ?_
  · refine .ite h.freezeHost ?_
    refine .ite ?_ h
    exact h.submit
  · refine .ite (h.queueDoorbell ..) ?_
    refine .ite (h.errorHead ..) ?_
    refine .ite ?_ h
    exact h.collDoorbell ..

theorem MemOk.execHostRegisterWrite (h : MemOk s) (off val) : OutCanon (execHostRegisterWrite off val s) :=
  .next (h.byHost _ fun _ k => k.writeBar0 ..)

theorem MemOk.command (h : MemOk s) (code n) {k : Machine.State → List Byte → Nat × Machine.State}
    (hk : ∀ t b, MemOk t → MemOk (k t b).2) : MemOk (s.command code n k) :=
  .ite (hk _ _ (h.readRange ..)).upd h

theorem MemOk.seedQueue (h : MemOk s) (c qn) : MemOk (s.seedQueue c qn) := by
  unfold State.seedQueue
  refine .ite h ?_
  exact (h.foldl (fun _ _ k => k.updCtx ..) _).updQueue ..

theorem MemOk.mkres (h : MemOk s) (c p) : MemOk (s.mkres c p).2 := by
  unfold State.mkres
  dsimp only
  split
  · exact h
  split
  · exact h
  · dsimp only
    exact (h.updCtx ..).foldl (fun _ _ k => k.seedQueue ..) _

theorem MemOk.execMkres (h : MemOk s) : OutCanon (execMkres s) :=
  .next (h.command _ _ fun _ _ k => k.mkres ..)

theorem MemOk.failTeams (h : MemOk s) (c) : MemOk (s.failTeams c) := by
  unfold State.failTeams
  dsimp only [MemOk]
  exact h.foldl (fun _ _ k => k.failWaybill ..) _

theorem MemOk.evict (h : MemOk s) (c) : MemOk (s.evict c).2 := by
  unfold State.evict
  refine .ite_snd h ?_
  exact h.upd.updCtx ..

theorem MemOk.execEvict (h : MemOk s) : OutCanon (execEvict s) := by
  unfold Machine.execEvict
  refine .next ?_
  refine .ite ?_ ((MemOk.ite (h.failTeams ..) h).command _ _ fun _ _ k => k.evict ..)
  refine .ite ?_ h
  exact h.failTeams ..

theorem MemOk.execSwitch (h : MemOk s) : OutCanon (execSwitch s) := by
  unfold Machine.execSwitch
  refine .next ?_
  refine h.command _ _ fun _ _ k => ?_
  refine .ite_snd ?_ k
  exact k.arm ..

theorem MemOk.execSetcr (h : MemOk s) : OutCanon (execSetcr s) :=
  .next (h.command _ _ fun _ _ k => .ite_snd k k.upd)

theorem MemOk.loadImage (h : MemOk s) (img) : SomeOk MemOk (s.loadImage img) := by
  unfold State.loadImage
  refine .ite ?_ .none
  exact .some (h.upd.raiseSvn ..)

theorem MemOk.execFwload (h : MemOk s) : OutCanon (execFwload s) := by
  unfold Machine.execFwload
  refine .next ?_
  refine h.command _ _ fun _ _ k => ?_
  refine .ite_snd k ?_
  split
  · next eq =>
    have k1 := (k.loadImage ..).get eq
    exact k1
  · exact k.freezeHost

theorem MemOk.execUnfrzsb (h : MemOk s) : OutCanon (execUnfrzsb s) :=
  .next (h.command _ _ fun _ _ k => k.upd)

theorem MemOk.execMalformedCommand (h : MemOk s) (m) : OutCanon (execMalformedCommand m s) := by
  unfold Machine.execMalformedCommand
  refine .next ?_
  split
  · exact h.byHost _ fun _ k => k.freezeHost
  · exact h.bySideband fun _ k => k.freezeSideband

theorem MemOk.execHealth (h : MemOk s) : OutCanon (execHealth s) := .next (h.bySideband fun _ k => k.upd)

/-- A power cycle boots from an empty memory. -/
theorem memOk_powerCycle : MemOk s.powerCycle := by
  unfold State.powerCycle
  exact MemOk.bootUp rfl

theorem MemOk.dieReset (h : MemOk s) (d) : MemOk (s.dieReset d) :=
  .ite (h.freezeSideband) (.ite memOk_powerCycle (.ite h (h.holdDie ..)))

theorem MemOk.execDiereset (h : MemOk s) (die) : OutCanon (execDiereset die s) :=
  .next (h.bySideband fun _ k => k.dieReset ..)

theorem MemOk.execFwloadSideband (h : MemOk s) (image) : OutCanon (execFwloadSideband image s) :=
  .next (h.bySideband fun _ k => (k.loadImage ..).getD k.freezeSideband)

theorem MemOk.execUnfrzhost (h : MemOk s) : OutCanon (execUnfrzhost s) :=
  .next (h.bySideband fun _ k => k.upd)

theorem MemOk.spdmAnswer (h : MemOk s) (req) : MemOk (s.spdmAnswer req) := .ite h.upd h.upd

theorem MemOk.execSpdmRequest (h : MemOk s) (req) : OutCanon (execSpdmRequest req s) := by
  unfold Machine.execSpdmRequest
  refine .next ?_
  refine .ite h.upd ?_
  exact h.upd.spdmAnswer ..

theorem MemOk.execStationerPowerCycle (h : MemOk s) : OutCanon (execStationerPowerCycle s) := .next h.upd

theorem MemOk.takeUp (h : MemOk s) : MemOk s.takeUp := by
  unfold State.takeUp
  refine MemOk.foldl ?_ (fun _ _ k => k.holdStep ..) _
  refine MemOk.foldl ?_ (fun _ _ k => k.serveHost ..) _
  dsimp only [MemOk]
  exact h.upd.foldl (fun _ _ k => k.chore ..) _

theorem MemOk.execAdmission (h : MemOk s) (core) : OutCanon (execAdmission core s) := by
  unfold Machine.execAdmission
  dsimp only
  split
  · exact .next h.takeUp
  · refine .next ?_
    refine MemOk.offer ?_ ..
    refine .ite ?_ ?_
    · exact h.takeUp
    · exact h.takeUp.foldl (fun _ _ k => k.refreshQueue ..) _

end Sys2Proof
end

section
/-! SUPPORT. Device memory stays canonical: what the functions of `Sys2Proof/Machine/Integer.lean` do to it. -/

namespace Sys2Proof
open Machine Slice0
variable {s : Machine.State}
set_option Elab.async false

theorem MemOk.execIadd (h : MemOk s) (c ty sat d a b) : OutCanon (execIadd c ty sat d a b s) := h.vec ..

theorem MemOk.execIsub (h : MemOk s) (c ty sat d a b) : OutCanon (execIsub c ty sat d a b s) := h.vec ..

theorem MemOk.execImul (h : MemOk s) (c ty sat d a b) : OutCanon (execImul c ty sat d a b s) := h.vec ..

theorem MemOk.execImulh (h : MemOk s) (c ty d a b) : OutCanon (execImulh c ty d a b s) := h.vec ..

theorem MemOk.execImad (h : MemOk s) (c ty sat d a b) : OutCanon (execImad c ty sat d a b s) := h.vec ..

theorem MemOk.execImin (h : MemOk s) (c ty d a b) : OutCanon (execImin c ty d a b s) := h.vec ..

theorem MemOk.execImax (h : MemOk s) (c ty d a b) : OutCanon (execImax c ty d a b s) := h.vec ..

theorem MemOk.execIabs (h : MemOk s) (c ty sat d a) : OutCanon (execIabs c ty sat d a s) := h.vec ..

theorem MemOk.execIneg (h : MemOk s) (c ty sat d a) : OutCanon (execIneg c ty sat d a s) := h.vec ..

theorem MemOk.execIdiv (h : MemOk s) (c ty d a b) : OutCanon (execIdiv c ty d a b s) := h.vec ..

theorem MemOk.execIrem (h : MemOk s) (c ty d a b) : OutCanon (execIrem c ty d a b s) := h.vec ..

theorem MemOk.execIaddc (h : MemOk s) (c w d a b pi po) : OutCanon (execIaddc c w d a b pi po s) := h.vec ..

theorem MemOk.execIsubc (h : MemOk s) (c w d a b pi po) : OutCanon (execIsubc c w d a b pi po s) := h.vec ..

theorem MemOk.execLea (h : MemOk s) (c ty d a b) : OutCanon (execLea c ty d a b s) := h.vec ..

theorem MemOk.execIdot4 (h : MemOk s) (c sat sb sa d a b cc) : OutCanon (execIdot4 c sat sb sa d a b cc s) :=
  h.vec ..

theorem MemOk.execIdot2 (h : MemOk s) (c sat sb sa d a b cc) : OutCanon (execIdot2 c sat sb sa d a b cc s) :=
  h.vec ..

theorem MemOk.execImadw (h : MemOk s) (c ty sat d a b) : OutCanon (execImadw c ty sat d a b s) := h.vec ..

theorem MemOk.execAnd (h : MemOk s) (c w d a b) : OutCanon (execAnd c w d a b s) := h.vec ..

theorem MemOk.execOr (h : MemOk s) (c w d a b) : OutCanon (execOr c w d a b s) := h.vec ..

theorem MemOk.execXor (h : MemOk s) (c w d a b) : OutCanon (execXor c w d a b s) := h.vec ..

theorem MemOk.execBool3 (h : MemOk s) (c w d a b cc lut) : OutCanon (execBool3 c w d a b cc lut s) :=
  h.vec ..

theorem MemOk.execShl (h : MemOk s) (c ty d a b) : OutCanon (execShl c ty d a b s) := h.vec ..

theorem MemOk.execShr (h : MemOk s) (c ty d a b) : OutCanon (execShr c ty d a b s) := h.vec ..

theorem MemOk.execRot (h : MemOk s) (c w d a b) : OutCanon (execRot c w d a b s) := h.vec ..

theorem MemOk.execPopc (h : MemOk s) (c w d a) : OutCanon (execPopc c w d a s) := h.vec ..

theorem MemOk.execClz (h : MemOk s) (c w d a) : OutCanon (execClz c w d a s) := h.vec ..

theorem MemOk.execCtz (h : MemOk s) (c w d a) : OutCanon (execCtz c w d a s) := h.vec ..

theorem MemOk.execBrev (h : MemOk s) (c w d a) : OutCanon (execBrev c w d a s) := h.vec ..

theorem MemOk.execBfx (h : MemOk s) (c w sgn d a f) : OutCanon (execBfx c w sgn d a f s) := h.vec ..

theorem MemOk.execBfi (h : MemOk s) (c w d a f) : OutCanon (execBfi c w d a f s) := h.vec ..

theorem MemOk.execIcmp (h : MemOk s) (c ty cond d a b) : OutCanon (execIcmp c ty cond d a b s) := h.vec ..

theorem MemOk.execPlop (h : MemOk s) (c d pa pb pc lut) : OutCanon (execPlop c d pa pb pc lut s) := h.vec ..

theorem MemOk.execSel (h : MemOk s) (c w d a b) : OutCanon (execSel c w d a b s) := h.vec ..

theorem MemOk.execPmov (h : MemOk s) (c dir mask) : OutCanon (execPmov c dir mask s) := by
  unfold Machine.execPmov
  split
  · exact h.vec ..
  · exact h.vec ..

theorem MemOk.execVote (h : MemOk s) (p k1 pa) : OutCanon (execVote p k1 pa s) := by
  unfold Machine.execVote
  split
  · exact .fault _
  · exact h.vec ..

theorem MemOk.execShfl (h : MemOk s) (p w mode d a k1 seg pv) : OutCanon (execShfl p w mode d a k1 seg pv s) :=
  by
  unfold Machine.execShfl
  split
  · exact .fault _
  · exact h.vec ..

theorem MemOk.execBysel (h : MemOk s) (c d a b sel) : OutCanon (execBysel c d a b sel s) := h.vec ..

theorem MemOk.execMov (h : MemOk s) (c w d a) : OutCanon (execMov c w d a s) := h.vec ..

end Sys2Proof
end

section
/-! SUPPORT. Device memory stays canonical: what the functions of `Sys2Proof/Machine/Pair.lean` do to it. -/

namespace Sys2Proof
open Machine Slice0
variable {s : Machine.State}
set_option Elab.async false

theorem MemOk.pairM (h : MemOk s) (up low) : Canon MemOk (s.pairM up low) := by
  unfold State.pairM
  refine agent_canon.check fun _ => ?_
  dsimp only
  split
  · exact .ok h.next
  · refine (needRegs_canon ..).check fun _ => ?_
    split
    · exact trapAt_canon ..
    · exact .ok (h.commit ..).next

theorem MemOk.execPairNop (h : MemOk s) (low) : OutCanon (execPairNop low s) := h.run (h.pairM ..)

theorem MemOk.execPairMov (h : MemOk s) (u d r low) : OutCanon (execPairMov u d r low s) :=
  h.run (h.pairM ..)

theorem MemOk.execPairMovi8 (h : MemOk s) (u d i low) : OutCanon (execPairMovi8 u d i low s) :=
  h.run (h.pairM ..)

theorem MemOk.execPairIadd (h : MemOk s) (u d r low) : OutCanon (execPairIadd u d r low s) :=
  h.run (h.pairM ..)

theorem MemOk.execPairIaddi (h : MemOk s) (u d i low) : OutCanon (execPairIaddi u d i low s) :=
  h.run (h.pairM ..)

theorem MemOk.execPairIsub (h : MemOk s) (u d r low) : OutCanon (execPairIsub u d r low s) :=
  h.run (h.pairM ..)

theorem MemOk.execPairImul (h : MemOk s) (u d r low) : OutCanon (execPairImul u d r low s) :=
  h.run (h.pairM ..)

theorem MemOk.execPairImin (h : MemOk s) (u d r low) : OutCanon (execPairImin u d r low s) :=
  h.run (h.pairM ..)

theorem MemOk.execPairImax (h : MemOk s) (u d r low) : OutCanon (execPairImax u d r low s) :=
  h.run (h.pairM ..)

theorem MemOk.execPairAnd (h : MemOk s) (u d r low) : OutCanon (execPairAnd u d r low s) :=
  h.run (h.pairM ..)

theorem MemOk.execPairOr (h : MemOk s) (u d r low) : OutCanon (execPairOr u d r low s) := h.run (h.pairM ..)

theorem MemOk.execPairXor (h : MemOk s) (u d r low) : OutCanon (execPairXor u d r low s) :=
  h.run (h.pairM ..)

theorem MemOk.execPairShli (h : MemOk s) (u d n low) : OutCanon (execPairShli u d n low s) :=
  h.run (h.pairM ..)

theorem MemOk.execPairShri (h : MemOk s) (u d n low) : OutCanon (execPairShri u d n low s) :=
  h.run (h.pairM ..)

theorem MemOk.execPairSari (h : MemOk s) (u d n low) : OutCanon (execPairSari u d n low s) :=
  h.run (h.pairM ..)

theorem MemOk.execPairFadd (h : MemOk s) (u d r low) : OutCanon (execPairFadd u d r low s) :=
  h.run (h.pairM ..)

theorem MemOk.execPairFsub (h : MemOk s) (u d r low) : OutCanon (execPairFsub u d r low s) :=
  h.run (h.pairM ..)

theorem MemOk.execPairFmul (h : MemOk s) (u d r low) : OutCanon (execPairFmul u d r low s) :=
  h.run (h.pairM ..)

theorem MemOk.execPairFmin (h : MemOk s) (u d r low) : OutCanon (execPairFmin u d r low s) :=
  h.run (h.pairM ..)

theorem MemOk.execPairFmax (h : MemOk s) (u d r low) : OutCanon (execPairFmax u d r low s) :=
  h.run (h.pairM ..)

theorem MemOk.execPairFneg (h : MemOk s) (u d r low) : OutCanon (execPairFneg u d r low s) :=
  h.run (h.pairM ..)

theorem MemOk.execPairFabs (h : MemOk s) (u d r low) : OutCanon (execPairFabs u d r low s) :=
  h.run (h.pairM ..)

end Sys2Proof
end

section
/-! SUPPORT. Device memory stays canonical: what the functions of `Sys2Proof/Machine/Dispatch.lean` do to it. -/

namespace Sys2Proof
open Machine Slice0
variable {s : Machine.State}
set_option Elab.async false

theorem MemOk.exec (h : MemOk s) (i) : OutCanon (exec i s) := by
  unfold Machine.exec
  split
  · exact h.execIadd ..
  · exact h.execIsub ..
  · exact h.execImul ..
  · exact h.execImulh ..
  · exact h.execImad ..
  · exact h.execImin ..
  · exact h.execImax ..
  · exact h.execIabs ..
  · exact h.execIneg ..
  · exact h.execIdiv ..
  · exact h.execIrem ..
  · exact h.execIaddc ..
  · exact h.execIsubc ..
  · exact h.execLea ..
  · exact h.execIdot4 ..
  · exact h.execIdot2 ..
  · exact h.execImadw ..
  · exact h.execAnd ..
  · exact h.execOr ..
  · exact h.execXor ..
  · exact h.execBool3 ..
  · exact h.execShl ..
  · exact h.execShr ..
  · exact h.execRot ..
  · exact h.execPopc ..
  · exact h.execClz ..
  · exact h.execCtz ..
  · exact h.execBrev ..
  · exact h.execBfx ..
  · exact h.execBfi ..
  · exact h.execIcmp ..
  · exact h.execFcmp ..
  · exact h.execPlop ..
  · exact h.execSel ..
  · exact h.execPmov ..
  · exact h.execVote ..
  · exact h.execFclass ..
  · exact h.execFadd ..
  · exact h.execFsub ..
  · exact h.execFmul ..
  · exact h.execFfma ..
  · exact h.execFmin ..
  · exact h.execFmax ..
  · exact h.execFdot2 ..
  · exact h.execFscale ..
  · exact h.execFrnd ..
  · exact h.execFclamp ..
  · exact h.execFamax ..
  · exact h.execFrcp ..
  · exact h.execFrsq ..
  · exact h.execFsqrt ..
  · exact h.execFexp2 ..
  · exact h.execFlog2 ..
  · exact h.execFsin ..
  · exact h.execFcos ..
  · exact h.execFsigm ..
  · exact h.execFtanh ..
  · exact h.execCvt ..
  · exact h.execNpack ..
  · exact h.execNunpk ..
  · exact h.execScaleq ..
  · exact h.execSeal ..
  · exact h.execSealRel ..
  · exact h.execHqry ..
  · exact h.execMov ..
  · exact h.execShfl ..
  · exact h.execBysel ..
  · exact h.execSread ..
  · exact h.execSwrite ..
  · exact h.execView ..
  · exact h.execSegset ..
  · exact h.execRcopy ..
  · exact h.execLd ..
  · exact h.execSt ..
  · exact h.execLdf ..
  · exact h.execStf ..
  · exact h.execPref ..
  · exact h.execCflush ..
  · exact h.execCinv ..
  · exact h.execCinvNowb ..
  · exact h.execAtom ..
  · exact h.execAtcas ..
  · exact h.execRed ..
  · exact h.execCadd ..
  · exact h.execInkp ..
  · exact h.execInkrG ..
  · exact h.execInkrH ..
  · exact h.execInkc ..
  · exact h.execKick ..
  · exact h.execTlwait ..
  · exact h.execTlread ..
  · exact h.execBoinit ..
  · exact h.execBoarm ..
  · exact h.execBowait ..
  · exact h.execBotest ..
  · exact h.execWreq ..
  · exact h.execWqry ..
  · exact h.execWtagSetv ..
  · exact h.execWtagSetc ..
  · exact h.execWtagReset ..
  · exact h.execWtagWv ..
  · exact h.execWtagWc ..
  · exact h.execWtagRd ..
  · exact h.execMma ..
  · exact h.execMloop ..
  · exact h.execMloops ..
  · exact h.execMzero ..
  · exact h.execMdrain ..
  · exact h.execMldacc ..
  · exact h.execMsyncWait ..
  · exact h.execMsyncMark ..
  · exact h.execMstatRd ..
  · exact h.execMstatClr ..
  · exact h.execMstatMeta ..
  · exact h.execMstatScale ..
  · exact h.execSacfgCtl ..
  · exact h.execSacfgKey ..
  · exact h.execSacfgSc ..
  · exact h.execSacfgLink ..
  · exact h.execSald ..
  · exact h.execSaclamp ..
  · exact h.execSaswp ..
  · exact h.execSardState ..
  · exact h.execSardCnt ..
  · exact h.execSardStat ..
  · exact h.execSardMon ..
  · exact h.execBra ..
  · exact h.execBrx ..
  · exact h.execCall ..
  · exact h.execCallInd ..
  · exact h.execRet ..
  · exact h.execExit ..
  · exact h.execNop ..
  · exact h.execYield ..
  · exact h.execBarTeam ..
  · exact h.execBarSync ..
  · exact h.execBarArrive ..
  · exact h.execPhase ..
  · exact h.execStage ..
  · exact h.execMonw ..
  · exact h.execWaitc ..
  · exact h.execSpawn ..
  · exact h.execJdec ..
  · exact h.execTqry ..
  · exact h.execTrap ..
  · exact h.execTrapHnd ..
  · exact h.execObjsetDesc ..
  · exact h.execObjsetExt ..
  · exact h.execObjinv ..
  · exact h.execObjinvAll ..
  · exact h.execXmove ..
  · exact h.execQuiesceDrain ..
  · exact h.execQuiescePreempt ..
  · exact h.execQuiesceResume ..
  · exact h.execGangsw ..
  · exact h.execScanrun ..
  · exact h.execDieoff ..
  · exact h.execDieon ..
  · exact h.execCluoff ..
  · exact h.execRpair ..
  · exact h.execRpairDone ..
  · exact h.execEretRetry ..
  · exact h.execEretSkip ..
  · exact h.execEretDeliver ..
  · exact h.execEretKill ..
  · exact h.execPairNop ..
  · exact h.execPairMov ..
  · exact h.execPairMovi8 ..
  · exact h.execPairIadd ..
  · exact h.execPairIaddi ..
  · exact h.execPairIsub ..
  · exact h.execPairImul ..
  · exact h.execPairImin ..
  · exact h.execPairImax ..
  · exact h.execPairAnd ..
  · exact h.execPairOr ..
  · exact h.execPairXor ..
  · exact h.execPairShli ..
  · exact h.execPairShri ..
  · exact h.execPairSari ..
  · exact h.execPairFadd ..
  · exact h.execPairFsub ..
  · exact h.execPairFmul ..
  · exact h.execPairFmin ..
  · exact h.execPairFmax ..
  · exact h.execPairFneg ..
  · exact h.execPairFabs ..
  · exact h.execHostMemRead ..
  · exact h.execHostMemWrite ..
  · exact h.execMkres
  · exact h.execEvict
  · exact h.execSwitch
  · exact h.execSetcr
  · exact h.execFwload
  · exact h.execUnfrzsb
  · exact h.execQdb ..
  · exact h.execAeqh ..
  · exact h.execColdb ..
  · exact h.execHostRegisterWrite ..
  · exact h.execHealth
  · exact h.execDiereset ..
  · exact h.execFwloadSideband ..
  · exact h.execUnfrzhost
  · exact h.execSpdmRequest ..
  · exact h.execStationerPowerCycle
  · exact h.execPowerOn
  · exact h.execData ..
  · exact h.execAck ..
  · exact h.execNak ..
  · exact h.execInkreq ..
  · exact h.execInkrep ..
  · exact h.execIncomplete ..
  · exact h.execPtpfwd ..
  · exact h.execRetransmit ..
  · exact h.execPeerUnreachable ..
  · exact h.execCollectiveTimeout ..
  · exact h.execCollectiveStart ..
  · exact h.execPtpSync ..
  · exact h.execHoldover
  · exact h.execModuleLoss ..
  · exact h.execInkHomeStep ..
  · exact h.execInkReply ..
  · exact h.execInkTimeout ..
  · exact h.execWriteThrough ..
  · exact h.execUpdate ..
  · exact h.execDropMark ..
  · exact h.execPublicationAck ..
  · exact h.execCommit ..
  · exact h.execFill ..
  · exact h.execAtomicRequest ..
  · exact h.execReplay ..
  · exact h.execFaultRefusal ..
  · exact h.execCopyStart ..
  · exact h.execArrival ..
  · exact h.execCopyComplete ..
  · exact h.execCopyResume ..
  · exact h.execCopyFail ..
  · exact h.execMatrixStep ..
  · exact h.execArrayCommand ..
  · exact h.execSweep ..
  · exact h.execTagArrival ..
  · exact h.execBoundaryTimeout ..
  · exact h.execScrubRead ..
  · exact h.execScrubWriteback ..
  · exact h.execParkLimit ..
  · exact h.execDeferredRecheck ..
  · exact h.execAdmission ..
  · exact h.execGangSwitch
  · exact h.execScanFloorDrain ..
  · exact h.execGo ..
  · exact h.execMalformedCommand ..

end Sys2Proof
end

section
/-! SUPPORT. Device memory stays canonical: what the functions of `Sys2Proof/Machine/Step.lean` do to it. -/

namespace Sys2Proof
open Machine Slice0
variable {s : Machine.State}
set_option Elab.async false

theorem MemOk.issueAt (h : MemOk s) (core slot) : OutCanon (issueAt s core slot) := by
  unfold Machine.issueAt
  split
  · exact .next h
  · next eq =>
    have k : MemOk _ := (h.pick ..).of eq
    exact .next k
  · next eq =>
    have k : MemOk _ := (h.pick ..).of eq
    exact k.exec ..

theorem MemOk.step (h : MemOk s) : OutCanon (step s) := by
  unfold Machine.step
  split
  · exact h.tick.issueAt ..
  · exact h.tick.upd.issueAt ..
  · exact h.tick.upd.exec ..

end Sys2Proof
end

section
/-! SUPPORT. O57. -/

namespace Sys2Proof.Slice0
open Sys2Proof.Machine

/-- Settles O57: a step keeps memory canonical by the rule of the function that makes it. -/
theorem memoryStaysCanonical : Obligations.MemoryStaysCanonical := fun _ _ h stepped => h.step.get stepped

end Sys2Proof.Slice0
end
